-- ==== Sys2Proof/Word.lean ====
section
/-! DEFINITION. The word types of the machine and their plainest arithmetic.
Capacities, ranges and byte order follow spec/00_scope.md R5. -/

namespace Sys2Proof

/-- A byte of memory. -/
abbrev Byte := BitVec 8

/-- A 64-bit word: an instruction word, a scalar token, a general register (R18, R45). -/
abbrev Word := BitVec 64

/-- A 512-bit vector value (R18, R45). -/
abbrev Vec := BitVec 512

/-- The bits of `x` that begin at bit `lo`, `n` of them (the slice notation of R5). -/
abbrev fld {w : Nat} (x : BitVec w) (lo n : Nat) : BitVec n := x.extractLsb' lo n

/-- The natural number in bits [lo+n-1:lo] of `x`. -/
abbrev nfld {w : Nat} (x : BitVec w) (lo n : Nat) : Nat := (fld x lo n).toNat

/-- `x` with `v` put in the field of `n` bits that begins at bit `lo`. -/
def setFld {w : Nat} (x : BitVec w) (lo n : Nat) (v : BitVec n) : BitVec w :=
  (x &&& ~~~((BitVec.allOnes n).setWidth w <<< lo)) ||| ((v.setWidth w) <<< lo)

/-- A one-bit word from a truth value. -/
def boolWord (b : Bool) : Word := if b then 1 else 0

end Sys2Proof
end

