-- ==== Sys2Proof/Syntax.lean ====
section
/-! DEFINITION. The one inductive `Instr`: a constructor for every row of spec/opcode_table.json.
Rows 0 to 161 are the instructions of R38, with the fields that their format (R35) gives them.
Rows 162 to 263 are the machine events of the same table: steps that units of the module take. -/

namespace Sys2Proof

/-- The predicate field PR (R34). -/
inductive Pred where
  | always | onTrue | onFalse
  deriving DecidableEq, Repr

/-- A target field (R36): no target, or a left, right or predicate slot of instruction nK. -/
inductive Target where
  | none
  | l (k : BitVec 7)
  | r (k : BitVec 7)
  | p (k : BitVec 7)
  deriving DecidableEq, Repr

/-- The scope numbers of R39. -/
inductive Scope where
  | fibre | cell | group | die | module | system
  deriving DecidableEq, Repr

/-- The ordering suffix of R39; a fence reads `rlx` as `.sc`. -/
inductive Order where
  | rlx | acq | rel | ar
  deriving DecidableEq, Repr

/-- The float type TY of R38: scalar single and double, vector single and double. -/
inductive Ty where
  | s | d | vs | vd
  deriving DecidableEq, Repr

/-- The lane width W of R38. -/
inductive Lane where
  | b8 | b16 | b32 | b64
  deriving DecidableEq, Repr

/-- The width of `sext` and `zext` (R71). -/
inductive ExtW where
  | b | h | w
  deriving DecidableEq, Repr

/-- The operand types of `fcvt` (R91). -/
inductive CvtTy where
  | s | d | l | lu | w | wu
  deriving DecidableEq, Repr

/-- The operation of `vred` (R94). -/
inductive VRedOp where
  | add | and | or | xor | min | max | minu | maxu | fadd | fmin | fmax
  deriving DecidableEq, Repr

/-- The comparison of `vcmp` (R93). -/
inductive VCmpOp where
  | eq | ne | lt | le | ltu | leu | feq | flt | fle
  deriving DecidableEq, Repr

/-- The width of an atomic, a gather or a scatter element: .w or .d (R131, R140). -/
inductive WD where
  | w | d
  deriving DecidableEq, Repr

/-- The rounding of `cvt.n` (R284). -/
inductive NRound where
  | rne | rtz | sr
  deriving DecidableEq, Repr

/-- The number of members of a ring: 2, 4 or 8 (R276). -/
inductive RingN where
  | two | four | eight
  deriving DecidableEq, Repr

/-- The storage format of `mst` (R282). -/
inductive MstFmt where
  | bf16 | fp16 | fp32
  deriving DecidableEq, Repr

/-- The fields every memory word has (R35, R41): LSID, SCOPE, ORD and the signed byte offset. -/
structure MemF where
  lsid : BitVec 5
  scope : Scope
  ord : Order
  off : BitVec 22
  deriving DecidableEq, Repr

/-- An instruction of R38, or a machine event: one constructor for each row of the opcode table.
In an instruction `pr` is the predicate field and `t0` … `t3` are the target fields. -/
inductive Instr where
  /-- the all-zero word (R48). -/
  | nop
  /-- R45. -/
  | read (pr : Pred) (reg : BitVec 6) (t0 t1 : Target)
  /-- R45. -/
  | vread (pr : Pred) (reg : BitVec 5) (t0 t1 : Target)
  /-- R46. -/
  | write (pr : Pred) (reg : BitVec 6)
  /-- R46. -/
  | vwrite (pr : Pred) (reg : BitVec 5)
  /-- R49. -/
  | mov (pr : Pred) (t0 t1 : Target)
  /-- R49. -/
  | mov3 (pr : Pred) (t0 t1 t2 : Target)
  /-- R49. -/
  | mov4 (pr : Pred) (t0 t1 t2 t3 : Target)
  /-- R50. -/
  | genc (pr : Pred) (imm : BitVec 36) (t0 t1 : Target)
  /-- R50. -/
  | genh (pr : Pred) (imm : BitVec 36) (t0 t1 : Target)
  /-- R51. -/
  | null (pr : Pred) (t0 t1 t2 t3 : Target)
  /-- the third operand slot of the word before it (R40). -/
  | xop
  /-- R60. -/
  | br (pr : Pred) (exit : BitVec 3) (off : BitVec 33)
  /-- R60. -/
  | bri (pr : Pred) (exit : BitVec 3)
  /-- R61. -/
  | call (pr : Pred) (exit : BitVec 3) (off : BitVec 33)
  /-- R61. -/
  | calli (pr : Pred) (exit : BitVec 3)
  /-- R62. -/
  | ret (pr : Pred) (exit : BitVec 3)
  /-- R63. -/
  | halt (pr : Pred) (exit : BitVec 3)
  /-- R64. -/
  | scall (pr : Pred) (code : BitVec 24)
  /-- R64. -/
  | trap (pr : Pred) (code : BitVec 24)
  /-- R64. -/
  | brk (pr : Pred) (code : BitVec 24)
  /-- R69. -/
  | add (pr : Pred) (t0 t1 : Target)
  /-- R69. -/
  | sub (pr : Pred) (t0 t1 : Target)
  /-- R69. -/
  | mul (pr : Pred) (t0 t1 : Target)
  /-- R69. -/
  | mulh (pr : Pred) (t0 t1 : Target)
  /-- R69. -/
  | mulhu (pr : Pred) (t0 t1 : Target)
  /-- R70. -/
  | div (pr : Pred) (t0 t1 : Target)
  /-- R70. -/
  | divu (pr : Pred) (t0 t1 : Target)
  /-- R70. -/
  | rem (pr : Pred) (t0 t1 : Target)
  /-- R70. -/
  | remu (pr : Pred) (t0 t1 : Target)
  /-- R69. -/
  | and (pr : Pred) (t0 t1 : Target)
  /-- R69. -/
  | or (pr : Pred) (t0 t1 : Target)
  /-- R69. -/
  | xor (pr : Pred) (t0 t1 : Target)
  /-- R69. -/
  | andn (pr : Pred) (t0 t1 : Target)
  /-- R69. -/
  | shl (pr : Pred) (t0 t1 : Target)
  /-- R69. -/
  | shr (pr : Pred) (t0 t1 : Target)
  /-- R69. -/
  | sar (pr : Pred) (t0 t1 : Target)
  /-- R69. -/
  | rotl (pr : Pred) (t0 t1 : Target)
  /-- R71. -/
  | clz (pr : Pred) (t0 t1 : Target)
  /-- R71. -/
  | ctz (pr : Pred) (t0 t1 : Target)
  /-- R71. -/
  | popc (pr : Pred) (t0 t1 : Target)
  /-- R71. -/
  | sext (pr : Pred) (sz : ExtW) (t0 t1 : Target)
  /-- R71. -/
  | zext (pr : Pred) (sz : ExtW) (t0 t1 : Target)
  /-- R69. -/
  | min (pr : Pred) (t0 t1 : Target)
  /-- R69. -/
  | max (pr : Pred) (t0 t1 : Target)
  /-- R69. -/
  | minu (pr : Pred) (t0 t1 : Target)
  /-- R69. -/
  | maxu (pr : Pred) (t0 t1 : Target)
  /-- R73; len1 is the length minus one. -/
  | bfx (pr : Pred) (pos : BitVec 6) (len1 : BitVec 6) (t0 : Target)
  /-- R73; len1 is the length minus one. -/
  | bfxu (pr : Pred) (pos : BitVec 6) (len1 : BitVec 6) (t0 : Target)
  /-- R73; len1 is the length minus one. -/
  | bfi (pr : Pred) (pos : BitVec 6) (len1 : BitVec 6) (t0 : Target)
  /-- R74. -/
  | lea (pr : Pred) (sh : BitVec 2) (disp : BitVec 22) (t0 : Target)
  /-- R75. -/
  | sel (pr : Pred) (t0 t1 : Target)
  /-- R76. -/
  | addi (pr : Pred) (imm : BitVec 24) (t0 : Target)
  /-- R76. -/
  | muli (pr : Pred) (imm : BitVec 24) (t0 : Target)
  /-- R76. -/
  | andi (pr : Pred) (imm : BitVec 24) (t0 : Target)
  /-- R76. -/
  | ori (pr : Pred) (imm : BitVec 24) (t0 : Target)
  /-- R76. -/
  | xori (pr : Pred) (imm : BitVec 24) (t0 : Target)
  /-- R76. -/
  | shli (pr : Pred) (amount : BitVec 6) (t0 : Target)
  /-- R76. -/
  | shri (pr : Pred) (amount : BitVec 6) (t0 : Target)
  /-- R76. -/
  | sari (pr : Pred) (amount : BitVec 6) (t0 : Target)
  /-- R77. -/
  | teq (pr : Pred) (t0 t1 : Target)
  /-- R77. -/
  | tne (pr : Pred) (t0 t1 : Target)
  /-- R77. -/
  | tlt (pr : Pred) (t0 t1 : Target)
  /-- R77. -/
  | tle (pr : Pred) (t0 t1 : Target)
  /-- R77. -/
  | tltu (pr : Pred) (t0 t1 : Target)
  /-- R77. -/
  | tleu (pr : Pred) (t0 t1 : Target)
  /-- R77. -/
  | tnz (pr : Pred) (t0 t1 : Target)
  /-- R78. -/
  | teqi (pr : Pred) (imm : BitVec 24) (t0 : Target)
  /-- R78. -/
  | tnei (pr : Pred) (imm : BitVec 24) (t0 : Target)
  /-- R78. -/
  | tlti (pr : Pred) (imm : BitVec 24) (t0 : Target)
  /-- R78. -/
  | tlei (pr : Pred) (imm : BitVec 24) (t0 : Target)
  /-- R78. -/
  | tltui (pr : Pred) (imm : BitVec 24) (t0 : Target)
  /-- R78. -/
  | tleui (pr : Pred) (imm : BitVec 24) (t0 : Target)
  /-- R87. -/
  | fadd (pr : Pred) (ty : Ty) (t0 t1 : Target)
  /-- R87. -/
  | fsub (pr : Pred) (ty : Ty) (t0 t1 : Target)
  /-- R87. -/
  | fmul (pr : Pred) (ty : Ty) (t0 t1 : Target)
  /-- R87. -/
  | ffma (pr : Pred) (ty : Ty) (t0 t1 : Target)
  /-- R87. -/
  | fdiv (pr : Pred) (ty : Ty) (t0 t1 : Target)
  /-- R87. -/
  | fsqrt (pr : Pred) (ty : Ty) (t0 t1 : Target)
  /-- R88. -/
  | fmin (pr : Pred) (ty : Ty) (t0 t1 : Target)
  /-- R88. -/
  | fmax (pr : Pred) (ty : Ty) (t0 t1 : Target)
  /-- R87. -/
  | fabs (pr : Pred) (ty : Ty) (t0 t1 : Target)
  /-- R87. -/
  | fneg (pr : Pred) (ty : Ty) (t0 t1 : Target)
  /-- R87. -/
  | fsgnj (pr : Pred) (ty : Ty) (t0 t1 : Target)
  /-- R89; dbl is TY 1. -/
  | feq (pr : Pred) (dbl : Bool) (t0 t1 : Target)
  /-- R89; dbl is TY 1. -/
  | flt (pr : Pred) (dbl : Bool) (t0 t1 : Target)
  /-- R89; dbl is TY 1. -/
  | fle (pr : Pred) (dbl : Bool) (t0 t1 : Target)
  /-- R90; dbl is TY 1. -/
  | fclass (pr : Pred) (dbl : Bool) (t0 t1 : Target)
  /-- R91, R92. -/
  | fcvt (pr : Pred) (dst src : CvtTy) (t0 t1 : Target)
  /-- R93. -/
  | vbcast (pr : Pred) (w : Lane) (t0 t1 : Target)
  /-- R93. -/
  | vext (pr : Pred) (w : Lane) (lane : BitVec 6) (t0 : Target)
  /-- R93. -/
  | vins (pr : Pred) (w : Lane) (lane : BitVec 6) (t0 : Target)
  /-- R93. -/
  | vperm (pr : Pred) (w : Lane) (t0 t1 : Target)
  /-- R93. -/
  | vshl (pr : Pred) (w : Lane) (t0 t1 : Target)
  /-- R94. -/
  | vred (pr : Pred) (op : VRedOp) (w : Lane) (t0 t1 : Target)
  /-- R93. -/
  | vsel (pr : Pred) (w : Lane) (t0 t1 : Target)
  /-- R93. -/
  | vcmp (pr : Pred) (op : VCmpOp) (w : Lane) (t0 t1 : Target)
  /-- R93. -/
  | viota (pr : Pred) (w : Lane) (t0 t1 : Target)
  /-- R93. -/
  | vcnt (pr : Pred) (w : Lane) (t0 t1 : Target)
  /-- R53. -/
  | ldB (pr : Pred) (m : MemF) (t0 t1 : Target)
  /-- R53. -/
  | ldBu (pr : Pred) (m : MemF) (t0 t1 : Target)
  /-- R53. -/
  | ldH (pr : Pred) (m : MemF) (t0 t1 : Target)
  /-- R53. -/
  | ldHu (pr : Pred) (m : MemF) (t0 t1 : Target)
  /-- R53. -/
  | ldW (pr : Pred) (m : MemF) (t0 t1 : Target)
  /-- R53. -/
  | ldWu (pr : Pred) (m : MemF) (t0 t1 : Target)
  /-- R53. -/
  | ldD (pr : Pred) (m : MemF) (t0 t1 : Target)
  /-- R129, R130; fmt is the .fmt form. -/
  | vld (pr : Pred) (fmt : Bool) (m : MemF) (t0 t1 : Target)
  /-- R131. -/
  | vgather (pr : Pred) (sz : WD) (m : MemF) (t0 t1 : Target)
  /-- R134. -/
  | pf (pr : Pred) (lsid : BitVec 5) (off : BitVec 22)
  /-- R136. -/
  | cinv (pr : Pred) (lsid : BitVec 5)
  /-- R136. -/
  | cwb (pr : Pred) (lsid : BitVec 5)
  /-- R54. -/
  | stB (pr : Pred) (m : MemF)
  /-- R54. -/
  | stH (pr : Pred) (m : MemF)
  /-- R54. -/
  | stW (pr : Pred) (m : MemF)
  /-- R54. -/
  | stD (pr : Pred) (m : MemF)
  /-- R129. -/
  | vst (pr : Pred) (m : MemF)
  /-- R131. -/
  | vscatter (pr : Pred) (sz : WD) (m : MemF)
  /-- R139; ORD 0 is .sc. -/
  | fence (pr : Pred) (lsid : BitVec 5) (scope : Scope) (ord : Order)
  /-- R141. -/
  | amoAdd (pr : Pred) (sz : WD) (m : MemF) (t0 t1 : Target)
  /-- R141. -/
  | amoAnd (pr : Pred) (sz : WD) (m : MemF) (t0 t1 : Target)
  /-- R141. -/
  | amoOr (pr : Pred) (sz : WD) (m : MemF) (t0 t1 : Target)
  /-- R141. -/
  | amoXor (pr : Pred) (sz : WD) (m : MemF) (t0 t1 : Target)
  /-- R141. -/
  | amoMin (pr : Pred) (sz : WD) (m : MemF) (t0 t1 : Target)
  /-- R141. -/
  | amoMax (pr : Pred) (sz : WD) (m : MemF) (t0 t1 : Target)
  /-- R141. -/
  | amoMinu (pr : Pred) (sz : WD) (m : MemF) (t0 t1 : Target)
  /-- R141. -/
  | amoMaxu (pr : Pred) (sz : WD) (m : MemF) (t0 t1 : Target)
  /-- R141. -/
  | amoSwap (pr : Pred) (sz : WD) (m : MemF) (t0 t1 : Target)
  /-- R141. -/
  | amoCas (pr : Pred) (sz : WD) (m : MemF) (t0 t1 : Target)
  /-- R142; width .w alone. -/
  | amoFadd (pr : Pred) (m : MemF) (t0 t1 : Target)
  /-- R178. -/
  | rgnBeg (pr : Pred) (reg : BitVec 6) (off : BitVec 23)
  /-- R179. -/
  | rgnEnd (pr : Pred)
  /-- R180. -/
  | rgnAbt (pr : Pred)
  /-- R181. -/
  | rgnStat (pr : Pred) (t0 t1 : Target)
  /-- R205; ahead is k minus one. -/
  | barInit (pr : Pred) (bar : BitVec 4) (ahead : BitVec 2)
  /-- R206. -/
  | barArr (pr : Pred) (bar : BitVec 4) (t0 t1 : Target)
  /-- R207. -/
  | barWait (pr : Pred) (bar : BitVec 4)
  /-- R208. -/
  | evtSig (pr : Pred) (scope : Scope)
  /-- R209. -/
  | evtWait (pr : Pred) (scope : Scope)
  /-- R183, R210. -/
  | wqGive (pr : Pred) (scope : Scope) (t0 t1 : Target)
  /-- R183, R210. -/
  | wqTake (pr : Pred) (scope : Scope) (t0 t1 : Target)
  /-- R183, R210. -/
  | wqSteal (pr : Pred) (scope : Scope) (t0 t1 : Target)
  /-- R211. -/
  | launch (pr : Pred) (t0 t1 : Target)
  /-- R212. -/
  | yield (pr : Pred)
  /-- R230. -/
  | cpy (pr : Pred) (sreg : BitVec 6)
  /-- R226, R230. -/
  | cpyQ (pr : Pred) (sreg : BitVec 6)
  /-- R231. -/
  | bbarInit (pr : Pred)
  /-- R232. -/
  | bbarWait (pr : Pred) (sreg : BitVec 6)
  /-- R277. -/
  | mma (pr : Pred) (sreg : BitVec 6) (acc : BitVec 3) (kq : BitVec 7)
  /-- R278. -/
  | mmaSp (pr : Pred) (sreg : BitVec 6) (acc : BitVec 3) (kq : BitVec 7)
  /-- R257, R279. -/
  | mring (pr : Pred) (sreg : BitVec 6) (acc : BitVec 3) (n : RingN) (kq : BitVec 7)
  /-- R282. -/
  | mzero (pr : Pred) (acc : BitVec 3)
  /-- R282. -/
  | mld (pr : Pred) (sreg : BitVec 6) (acc : BitVec 3)
  /-- R258, R282. -/
  | mst (pr : Pred) (fmt : MstFmt) (sreg : BitVec 6) (acc : BitVec 3)
  /-- R283. -/
  | cmtag (pr : Pred) (tag : BitVec 3) (scale : Bool)
  /-- R284. -/
  | cvtN (pr : Pred) (tag : BitVec 3) (rm : NRound) (sat : Bool) (t0 t1 : Target)
  /-- R285. -/
  | cvtW (pr : Pred) (tag : BitVec 3) (t0 t1 : Target)
  /-- R286. -/
  | bscale (pr : Pred) (t0 t1 : Target)
  /-- R239. -/
  | srd (pr : Pred) (num : BitVec 12) (t0 t1 : Target)
  /-- R239. -/
  | swr (pr : Pred) (num : BitVec 12)
  /-- R238. -/
  | sret (pr : Pred)
  /-- R246. -/
  | tlbinv (pr : Pred) (scope : Scope) (all : Bool)
  /-- R247. -/
  | cyc (pr : Pred) (t0 t1 : Target)
  /-- R29: cell `cell` grants a free frame. -/
  | frameGrant (cell : Nat)
  /-- R16, R17: the granted frame of block `seq` of fibre `fid` is fetched and checked. -/
  | blockFetch (fid seq : Nat)
  /-- R24: the oldest block of fibre `fid` commits. -/
  | blockCommit (fid : Nat)
  /-- R236: the oldest block of fibre `fid` traps. -/
  | trapDelivery (fid : Nat)
  /-- R53: the data of access `oid` is sent to its targets. -/
  | loadReply (oid : Nat)
  /-- R119: a piece of a store or atomic arrives at its home. -/
  | homeWrite (oid piece : Nat)
  /-- R119: the acknowledgement of `cell` reaches the home of `line`. -/
  | invalidationAck (line cell : Nat)
  /-- R119: the L1 of `cell` drops `line` for the home. -/
  | l1Invalidate (cell line : Nat)
  /-- R119: a piece of a read is served by its home, L1 or cell memory. -/
  | homeRead (oid piece : Nat)
  /-- R147: the acknowledgement of write `oid` reaches its cell. -/
  | writeAck (oid : Nat)
  /-- R118: the L1 of `cell` drops `line`. -/
  | l1Evict (cell line : Nat)
  /-- R120: the last-level cache drops `line`, written back if dirty. -/
  | llcEvict (line : Nat)
  /-- R109: the walker translates `va` for fibre `fid`. -/
  | pageWalk (fid : Nat) (va : Word)
  /-- R113: a write to the primary table area is applied to every replica. -/
  | tableUpdateWrite (oid piece : Nat)
  /-- R114: the tlbinv of the oldest block of `fid` completes. -/
  | tlbinvComplete (fid : Nat)
  /-- R123: a module read reaches its host bridge. -/
  | bridgeModuleRead (oid piece : Nat)
  /-- R123: a module store or atomic reaches its host bridge. -/
  | bridgeModuleWrite (oid piece : Nat)
  /-- R123: the bridge drops a half. -/
  | bridgeDropHalf (half : Nat)
  /-- R123: the host answers the request pending for the half. -/
  | go (half : Nat) (exclusive : Bool)
  /-- R123. -/
  | snpData (half : Nat)
  /-- R123. -/
  | snpInv (half : Nat)
  /-- R123. -/
  | snpCur (half : Nat)
  /-- R123: the host pulls the write-back of a half in O. -/
  | writePull (half : Nat)
  /-- R123: the host ends the write-back of a half in O. -/
  | goWritePullDrop (half : Nat)
  /-- R126: a host reads device memory, shared or for ownership. -/
  | memRd (half : Nat) (own : Bool)
  /-- R126: a host reads device memory for shared data. -/
  | memRdData (half : Nat)
  /-- R126: a host writes 64 bytes of device memory. -/
  | memWr (half : Nat) (data : Vec)
  /-- R126: the host answers a back-invalidation. -/
  | birspi (half : Nat)
  /-- R144: the completer answers an AtomicOp; `ok` false is Unsupported Request. -/
  | atomicOpCompletion (oid : Nat) (ok : Bool)
  /-- R162: the lowest free slot goes to the longest waiting block. -/
  | slotGrant
  /-- R165. -/
  | regionRead (oid piece : Nat)
  /-- R166. -/
  | regionWrite (oid piece : Nat)
  /-- R164. -/
  | regionAtomic (oid piece : Nat)
  /-- R170: the Virga unit answers the oldest edge request. -/
  | edgeRequest
  /-- R169: a stalled region access is tried again. -/
  | stallRetry (oid piece : Nat)
  /-- R179: the block holding rgn.end reports the end. -/
  | endReport (fid : Nat)
  /-- R171. -/
  | regionCommit (slot : Nat)
  /-- R172. -/
  | regionAbort (slot cause : Nat)
  /-- R179: the fibre is answered committed. -/
  | commitAnswer (fid : Nat)
  /-- R173: the fibre is answered aborted. -/
  | abortAnswer (fid : Nat)
  /-- R174. -/
  | dependenceTimeout (slot : Nat)
  /-- R305; result 0 success, 1 read error, 2 or 3 the REASON. -/
  | recoveryGo (who result : Nat)
  /-- R301. -/
  | leaseExpiry
  /-- R302. -/
  | startWatchdog
  /-- R188: the go word of the next slot of window `win` is taken. -/
  | goWord (win : Nat)
  /-- R194. -/
  | groupPlace (die : Nat)
  /-- R195: an ageing period of launch `lid` ends. -/
  | ageingPeriod (lid : Nat)
  /-- R196. -/
  | preemptTimer (die : Nat)
  /-- R250. -/
  | preemption (gid : Nat)
  /-- R198. -/
  | segmentReport (lid die : Nat)
  /-- R225. -/
  | copyStart (cell : Nat)
  /-- R221: the next `len` bytes of copy `cmd` land. -/
  | copyBeat (cell cmd len : Nat)
  /-- R227. -/
  | copyFinish (cell cmd : Nat)
  /-- R231. -/
  | bbarInitPerform (cell cmd : Nat)
  /-- R319. -/
  | markTake (cell : Nat)
  /-- R274. -/
  | nodeCommandStart (cell : Nat)
  /-- R273. -/
  | nodeCommandFinish (cell : Nat)
  /-- R279: the run that holds `cell`. -/
  | ringStart (cell : Nat)
  /-- R257. -/
  | ringHandover (cell : Nat)
  /-- R280. -/
  | ringTimeout (cell : Nat)
  /-- R192: master `who` writes LDMAPp. -/
  | ldmapWrite (who p : Nat) (value : Word)
  /-- R187. -/
  | lwcfgWrite (who w : Nat) (value : Word)
  /-- R202. -/
  | lcancel (who : Nat) (value : Word)
  /-- R253: a write of GMOVEB. -/
  | gmove (who : Nat) (value : Word)
  /-- R254: the owner asks for a debug hold. -/
  | debugHold (who gid : Nat)
  /-- R254: a read or write of a doubleword of the save area. -/
  | debugAccess (gid off : Nat) (write : Bool) (value : Word)
  /-- R254. -/
  | debugRelease (gid : Nat)
  /-- R295: DIECTL OP 1. -/
  | warmReset (who : Nat) (die : Nat) (save : Bool)
  /-- R294: DIECTL OP 2. -/
  | fenceOnly (who : Nat) (die : Nat) (save : Bool)
  /-- R294: DIECTL OP 3. -/
  | readmit (who die : Nat)
  /-- R295, steps 3 and 4. -/
  | linkQuiesce (die : Nat)
  /-- R295, step 5. -/
  | dieResetDone (die : Nat)
  /-- R295, step 6; code 0 passed. -/
  | bistDone (die code : Nat)
  /-- R295; `lost`: beats were not accepted. -/
  | linkDown (die : Nat) (lost : Bool)
  /-- R289. -/
  | beatReplay (die : Nat)
  /-- R292. -/
  | creditReturn (link chan n : Nat) (crcOk : Bool)
  /-- R292. -/
  | creditAudit (link chan : Nat)
  /-- R293. -/
  | gateTimer (cell : Nat)
  /-- R293. -/
  | cellWake (cell : Nat)
  /-- R297; place 0 cell memory, 1 HBM or last-level cache, 2 L1 or instruction cache, 3 cell control, 4 base control state. -/
  | uncorrectableError (place loc : Nat)
  /-- R297; place 0 a die, 1 base SRAM, 2 HBM. -/
  | correctedError (place loc : Nat)
  /-- R298. -/
  | thermalThrottle (step sector : Nat)
  /-- R298. -/
  | clkstepWrite (who : Nat) (value : Word)
  /-- R302: the next phase of the start sequence; outcome 0 success, else the REASON. -/
  | moduleStart (outcome : Nat)
  /-- R300. -/
  | claim (who : Nat) (value : Word)
  /-- R113. -/
  | startcfgWrite (who : Nat) (value : Word)
  /-- R307. -/
  | moderrClear (who : Nat) (value : Word)
  /-- R299. -/
  | registerWrite (who off : Nat) (value : Word)
  /-- R306. -/
  | getVersion (port : Nat)
  /-- R306. -/
  | getCapabilities (port : Nat)
  /-- R306; algorithm numbers offered. -/
  | negotiateAlgorithms (port : Nat) (offered : List Nat)
  /-- R306. -/
  | getDigests (port : Nat)
  /-- R306. -/
  | getCertificate (port slot : Nat)
  /-- R306. -/
  | challenge (port : Nat) (nonce : Word)
  /-- R306. -/
  | getMeasurements (port : Nat) (index : Nat) (nonce : Word)
  /-- R306. -/
  | keyExchange (port : Nat) (data : Word)
  /-- R306. -/
  | finish (port : Nat) (proof : Word)
  /-- R306. -/
  | keyUpdate (port : Nat)
  /-- R306. -/
  | heartbeat (port : Nat)
  /-- R306. -/
  | endSession (port : Nat)
  /-- R306: loads a memory-encryption key. -/
  | vendorDefined (port : Nat) (keyId : Nat) (key : Vec)
  /-- R306: programs the key of an IDE stream. -/
  | ideKm (port stream : Nat) (key : Vec)
  deriving DecidableEq, Repr

end Sys2Proof
end

