-- ==== Sys2Proof/WellFormed.lean ====
section
/-! DEFINITION. Which terms of `Instr` are instructions that the spec admits: the limits that
R38, R73, R91, R93, R94, R239, R284 and R285 put on fields beyond their widths, and the ranges of
the names that the machine events carry. -/

namespace Sys2Proof

/-- The lanes of a vector at lane width `w` (R93). -/
def Lane.count : Lane → Nat
  | .b8 => 64
  | .b16 => 32
  | .b32 => 16
  | .b64 => 8

/-- The bits of a lane. -/
def Lane.bits : Lane → Nat
  | .b8 => 8
  | .b16 => 16
  | .b32 => 32
  | .b64 => 64

/-- R52, R128: a load carries no release. -/
def Order.okLoad : Order → Bool
  | .rlx => true
  | .acq => true
  | .rel => false
  | .ar => false

/-- R52, R128: a store carries no acquire. -/
def Order.okStore : Order → Bool
  | .rlx => true
  | .rel => true
  | .acq => false
  | .ar => false

/-- R94: floating reductions need 32-bit or 64-bit lanes. -/
def VRedOp.okLane : VRedOp → Lane → Bool
  | .fadd, w | .fmin, w | .fmax, w => w == .b32 || w == .b64
  | _, _ => true

/-- R93: floating comparisons need 32-bit or 64-bit lanes. -/
def VCmpOp.okLane : VCmpOp → Lane → Bool
  | .feq, w | .flt, w | .fle, w => w == .b32 || w == .b64
  | _, _ => true

/-- R240: a number that the system-register map lists. -/
def sysregListed (n : BitVec 12) : Bool :=
  let k := n.toNat
  k ≤ 0x007 || (k % 0x100 ≥ 0x010 && k % 0x100 ≤ 0x016 && k / 0x100 ≤ 3) || k == 0x020 || k == 0x021
    || (k ≥ 0x030 && k ≤ 0x032) || (k ≥ 0x040 && k ≤ 0x05F) || (k ≥ 0x080 && k ≤ 0x08F)

/-- R239, R240: a listed number that the map lets `swr` write. -/
def sysregWritable (n : BitVec 12) : Bool :=
  let k := n.toNat
  sysregListed n && !(k == 0x002 || k == 0x003 || k == 0x004 || k == 0x005 || k == 0x007)

/-- R73: the field of `bfx`, `bfxu` and `bfi` lies within 64 bits. -/
def fieldFits (pos len1 : BitVec 6) : Bool := pos.toNat + len1.toNat + 1 ≤ 64

/-- The limits on each instruction's fields (R38), and the ranges of the names in events. -/
def Instr.wellFormed : Instr → Bool
  | .bfx _ pos len1 _ | .bfxu _ pos len1 _ | .bfi _ pos len1 _ => fieldFits pos len1
  | .fcvt _ dst src _ _ => dst != src
  | .vext _ w lane _ | .vins _ w lane _ => lane.toNat < w.count
  | .vred _ op w _ _ => op.okLane w
  | .vcmp _ op w _ _ => op.okLane w
  | .ldB _ m _ _ | .ldBu _ m _ _ | .ldH _ m _ _ | .ldHu _ m _ _ | .ldW _ m _ _ | .ldWu _ m _ _
  | .ldD _ m _ _ | .vld _ _ m _ _ | .vgather _ _ m _ _ => m.ord.okLoad
  | .stB _ m | .stH _ m | .stW _ m | .stD _ m | .vst _ m | .vscatter _ _ m => m.ord.okStore
  | .cvtN _ tag _ _ _ _ => tag.toNat ≤ 5
  | .cvtW _ tag _ _ => tag == 0 || tag == 1 || tag == 6
  | .srd _ num _ _ => sysregListed num
  | .swr _ num => sysregWritable num
  | .frameGrant cell | .markTake cell | .nodeCommandStart cell | .nodeCommandFinish cell
  | .ringStart cell | .ringHandover cell | .ringTimeout cell | .copyStart cell
  | .gateTimer cell | .cellWake cell => cell < 2048
  | .groupPlace die | .preemptTimer die | .linkQuiesce die | .dieResetDone die
  | .beatReplay die => die < 32
  | .goWord win => win < 24
  | .regionCommit slot | .dependenceTimeout slot => slot < 512
  | .regionAbort slot cause => slot < 512 && 1 ≤ cause && cause ≤ 8
  | .ldmapWrite _ p _ => p < 8
  | .lwcfgWrite _ w _ => w < 24
  | .warmReset _ die _ | .fenceOnly _ die _ | .readmit _ die => die < 32
  | _ => true

end Sys2Proof
end

