-- ==== Sys2Proof/Decode.lean ====
section
/-! DEFINITION. The decoder of instruction words (R34 to R44), total on any 64 bits and rejecting
by name, and the encoder of well-formed instructions from the same tables of R35, R36 and R38. -/

namespace Sys2Proof

/-- A field of `w` bits put at bit `lo` of a word (R35). -/
def put (w lo : Nat) (v : BitVec w) : Word := v.setWidth 64 <<< lo

/-- Why a word records ILL (R43). -/
inductive DecodeErr where
  /-- R43 item 1. -/
  | unassigned
  /-- R43 item 2: PR is 01, or PR is not 00 where it must be. -/
  | predicate
  /-- R43 item 3: a reserved field, or a field that R38 does not mention, is not zero. -/
  | reserved
  /-- R43 item 4: a field holds a value that R38 does not list. -/
  | value
  /-- R43 item 5: SCOPE is 6 or 7. -/
  | scope
  /-- R43 item 6: a target field of kind 00 with an index, or one beyond those used. -/
  | target
  /-- R43 item 7: OP is 0x00 and the word is not all zero. -/
  | nonzeroNop
  deriving DecidableEq, Repr

abbrev Dec := Except DecodeErr

/-- A check of the decoder. -/
def need (b : Bool) (e : DecodeErr) : Dec Unit := if b then .ok () else .error e

/-- Bits [lo+n-1:lo] are zero (R43 item 3). -/
def rsv (w : Word) (lo n : Nat) : Dec Unit := need (fld w lo n == 0) .reserved

/-- The predicate field of R34. -/
def decPred (w : Word) : Dec Pred :=
  match nfld w 54 2 with
  | 0 => .ok .always
  | 2 => .ok .onTrue
  | 3 => .ok .onFalse
  | _ => .error .predicate

/-- The bits of a predicate field. -/
def Pred.bits : Pred → BitVec 2
  | .always => 0
  | .onTrue => 2
  | .onFalse => 3

/-- The target field that begins at bit `lo` (R36). -/
def decTarget (w : Word) (lo : Nat) : Dec Target :=
  let k : BitVec 7 := fld w lo 7
  match nfld w (lo + 7) 2 with
  | 1 => .ok (.l k)
  | 2 => .ok (.r k)
  | 3 => .ok (.p k)
  | _ => if k = 0 then .ok .none else .error .target

/-- The kind bits of a target (R36). -/
def Target.kind : Target → BitVec 2
  | .none => 0
  | .l _ => 1
  | .r _ => 2
  | .p _ => 3

/-- The index bits of a target (R36). -/
def Target.index : Target → BitVec 7
  | .none => 0
  | .l k | .r k | .p k => k

/-- A target field that the instruction does not use must be 00 (R36, R43 item 6). -/
def noTarget (w : Word) (lo : Nat) : Dec Unit := need (fld w lo 9 == 0) .target

/-- The scope numbers of R39. -/
def decScope (w : Word) (lo : Nat) : Dec Scope :=
  match nfld w lo 3 with
  | 0 => .ok .fibre
  | 1 => .ok .cell
  | 2 => .ok .group
  | 3 => .ok .die
  | 4 => .ok .module
  | 5 => .ok .system
  | _ => .error .scope

/-- The bits of a scope. -/
def Scope.bits : Scope → BitVec 3
  | .fibre => 0
  | .cell => 1
  | .group => 2
  | .die => 3
  | .module => 4
  | .system => 5

/-- The orderings of R39. -/
def decOrder (w : Word) : Dec Order :=
  match nfld w 44 2 with
  | 0 => .ok .rlx
  | 1 => .ok .acq
  | 2 => .ok .rel
  | _ => .ok .ar

/-- The bits of an ordering. -/
def Order.bits : Order → BitVec 2
  | .rlx => 0
  | .acq => 1
  | .rel => 2
  | .ar => 3

/-- The lane width in MOD[1:0] or IMM[1:0]. -/
def decLane (w : Word) (lo : Nat) : Dec Lane :=
  match nfld w lo 2 with
  | 0 => .ok .b8
  | 1 => .ok .b16
  | 2 => .ok .b32
  | _ => .ok .b64

/-- The bits of a lane width. -/
def Lane.code : Lane → BitVec 2
  | .b8 => 0
  | .b16 => 1
  | .b32 => 2
  | .b64 => 3

/-- The bits of TY. -/
def Ty.bits : Ty → BitVec 2
  | .s => 0
  | .d => 1
  | .vs => 2
  | .vd => 3

/-- TY in MOD[1:0]. -/
def decTy (w : Word) : Dec Ty :=
  match nfld w 40 2 with
  | 0 => .ok .s
  | 1 => .ok .d
  | 2 => .ok .vs
  | _ => .ok .vd

/-- The operand types of `fcvt`. -/
def decCvt (w : Word) (lo : Nat) : Dec CvtTy :=
  match nfld w lo 3 with
  | 0 => .ok .s
  | 1 => .ok .d
  | 2 => .ok .l
  | 3 => .ok .lu
  | 4 => .ok .w
  | 5 => .ok .wu
  | _ => .error .value

/-- The bits of an operand type of `fcvt`. -/
def CvtTy.bits : CvtTy → BitVec 3
  | .s => 0
  | .d => 1
  | .l => 2
  | .lu => 3
  | .w => 4
  | .wu => 5

/-- The operation of `vred` in FN. -/
def decVRed (w : Word) : Dec VRedOp :=
  match nfld w 48 6 with
  | 0 => .ok .add
  | 1 => .ok .and
  | 2 => .ok .or
  | 3 => .ok .xor
  | 4 => .ok .min
  | 5 => .ok .max
  | 6 => .ok .minu
  | 7 => .ok .maxu
  | 8 => .ok .fadd
  | 9 => .ok .fmin
  | 10 => .ok .fmax
  | _ => .error .value

/-- The bits of a `vred` operation. -/
def VRedOp.bits : VRedOp → BitVec 6
  | .add => 0
  | .and => 1
  | .or => 2
  | .xor => 3
  | .min => 4
  | .max => 5
  | .minu => 6
  | .maxu => 7
  | .fadd => 8
  | .fmin => 9
  | .fmax => 10

/-- The comparison of `vcmp` in FN. -/
def decVCmp (w : Word) : Dec VCmpOp :=
  match nfld w 48 6 with
  | 0 => .ok .eq
  | 1 => .ok .ne
  | 2 => .ok .lt
  | 3 => .ok .le
  | 4 => .ok .ltu
  | 5 => .ok .leu
  | 6 => .ok .feq
  | 7 => .ok .flt
  | 8 => .ok .fle
  | _ => .error .value

/-- The bits of a `vcmp` comparison. -/
def VCmpOp.bits : VCmpOp → BitVec 6
  | .eq => 0
  | .ne => 1
  | .lt => 2
  | .le => 3
  | .ltu => 4
  | .leu => 5
  | .feq => 6
  | .flt => 7
  | .fle => 8

/-- The fields of a memory word (R35, R41). -/
def decMem (w : Word) : Dec MemF := do
  let scope ← decScope w 46
  let ord ← decOrder w
  return { lsid := fld w 49 5, scope := scope, ord := ord, off := fld w 18 22 }

/-- A decoded instruction must keep the limits of R38. -/
def legal (i : Instr) : Dec Instr := if i.wellFormed then .ok i else .error .value

/-- G format with two targets; FN and MOD have the one value given. -/
def decG (w : Word) (fn : BitVec 6) (mod : BitVec 8) (c : Pred → Target → Target → Instr) :
    Dec Instr := do
  let pr ← decPred w
  need (fld w 48 6 == fn && fld w 40 8 == mod) .value
  rsv w 18 22
  let t0 ← decTarget w 0
  let t1 ← decTarget w 9
  legal (c pr t0 t1)

/-- G format with two targets and a field in MOD that `d` reads; MOD above bit `n` is zero. -/
def decGMod {α : Type} (w : Word) (fn : BitVec 6) (n : Nat) (d : Dec α)
    (c : Pred → α → Target → Target → Instr) : Dec Instr := do
  let pr ← decPred w
  need (fld w 48 6 == fn) .value
  rsv w (40 + n) (8 - n)
  rsv w 18 22
  let a ← d
  let t0 ← decTarget w 0
  let t1 ← decTarget w 9
  legal (c pr a t0 t1)

/-- G format with an operation in FN and the lane width in MOD. -/
def decGFn {α : Type} (w : Word) (d : Dec α) (c : Pred → α → Lane → Target → Target → Instr) :
    Dec Instr := do
  let pr ← decPred w
  let op ← d
  rsv w 42 6
  rsv w 18 22
  let ln ← decLane w 40
  let t0 ← decTarget w 0
  let t1 ← decTarget w 9
  legal (c pr op ln t0 t1)

/-- I format with one target; FN has the one value given, and the low `n` bits of IMM are used. -/
def decI (w : Word) (fn : BitVec 6) (n : Nat) (c : Pred → Target → Instr) : Dec Instr := do
  let pr ← decPred w
  need (fld w 48 6 == fn) .value
  rsv w 42 6
  rsv w (18 + n) (24 - n)
  rsv w 9 9
  let t0 ← decTarget w 0
  legal (c pr t0)

/-- I format with a lane width and a lane number in IMM (R93). -/
def decILane (w : Word) (c : Pred → Lane → BitVec 6 → Target → Instr) : Dec Instr := do
  let ln ← decLane w 18
  decI w 0 8 (fun pr t0 => c pr ln (fld w 20 6) t0)

/-- C format. -/
def decC (w : Word) (c : Pred → BitVec 36 → Target → Target → Instr) : Dec Instr := do
  let pr ← decPred w
  let t0 ← decTarget w 0
  let t1 ← decTarget w 9
  legal (c pr (fld w 18 36) t0 t1)

/-- L format with two targets. -/
def decL (w : Word) (fn : BitVec 4) (c : Pred → MemF → Target → Target → Instr) : Dec Instr := do
  let pr ← decPred w
  let m ← decMem w
  need (fld w 40 4 == fn) .value
  let t0 ← decTarget w 0
  let t1 ← decTarget w 9
  legal (c pr m t0 t1)

/-- S format. -/
def decS (w : Word) (fn : BitVec 4) (c : Pred → MemF → Instr) : Dec Instr := do
  let pr ← decPred w
  let m ← decMem w
  need (fld w 40 4 == fn) .value
  rsv w 0 18
  legal (c pr m)

/-- L format of `pf`, `cinv` and `cwb`: no targets, ORD and SCOPE 0, and the low `n` bits of OFF. -/
def decLCache (w : Word) (n : Nat) (c : Pred → Instr) : Dec Instr := do
  let pr ← decPred w
  rsv w 40 9
  rsv w (18 + n) (22 - n)
  noTarget w 0
  noTarget w 9
  legal (c pr)

/-- B format; OFF is used or must be zero. -/
def decB (w : Word) (off : Bool) (c : Pred → Instr) : Dec Instr := do
  let pr ← decPred w
  need (off || fld w 18 33 == 0) .value
  rsv w 0 18
  legal (c pr)

/-- R format. -/
def decR (w : Word) (n : Nat) (c : Pred → Target → Target → Instr) : Dec Instr := do
  let pr ← decPred w
  need (fld w (48 + n) (6 - n) == 0) .value
  rsv w 18 30
  let t0 ← decTarget w 0
  let t1 ← decTarget w 9
  legal (c pr t0 t1)

/-- W format. -/
def decW (w : Word) (n : Nat) (c : Pred → Instr) : Dec Instr := do
  let pr ← decPred w
  need (fld w (48 + n) (6 - n) == 0) .value
  rsv w 0 48
  legal (c pr)

/-- F format with `n` targets. -/
def decF (w : Word) (n : Nat) (c : Pred → Target → Target → Target → Target → Instr) :
    Dec Instr := do
  let pr ← decPred w
  rsv w 36 18
  let t0 ← decTarget w 0
  let t1 ← decTarget w 9
  let t2 ← decTarget w 18
  let t3 ← decTarget w 27
  need (n ≥ 3 || t2 == .none) .target
  need (n ≥ 4 || t3 == .none) .target
  legal (c pr t0 t1 t2 t3)

/-- E format with the fields that the flags admit; the others must be zero. -/
def decE (w : Word) (fn : Bool) (sreg : Bool) (acc : Bool) (n : Bool) (kq : Bool)
    (c : Pred → Instr) : Dec Instr := do
  let pr ← decPred w
  need (fn || fld w 50 4 == 0) .reserved
  need (sreg || fld w 44 6 == 0) .reserved
  need (acc || fld w 41 3 == 0) .reserved
  need (n || fld w 39 2 == 0) .reserved
  need (kq || fld w 32 7 == 0) .reserved
  rsv w 0 32
  legal (c pr)

/-- X format: FN is `fn`; REG, SCOPE and the low `n` bits of IMM are used where the flags say so;
`t` says whether the instruction has targets. -/
def decX (w : Word) (fn : BitVec 4) (reg scope : Bool) (n : Nat) (t : Bool)
    (c : Pred → Scope → Target → Target → Instr) : Dec Instr := do
  let pr ← decPred w
  need (fld w 50 4 == fn) .value
  need (reg || fld w 44 6 == 0) .reserved
  let sc ← decScope w 41
  need (scope || sc == .fibre) .reserved
  rsv w (18 + n) (23 - n)
  let t0 ← decTarget w 0
  let t1 ← decTarget w 9
  need (t || (t0 == .none && t1 == .none)) .target
  legal (c pr sc t0 t1)

/-- The eleven atomics of FN (R140). -/
def decAmo (w : Word) (sz : WD) : Dec Instr :=
  match nfld w 40 4 with
  | 0 => decL w 0 (fun p m a b => .amoAdd p sz m a b)
  | 1 => decL w 1 (fun p m a b => .amoAnd p sz m a b)
  | 2 => decL w 2 (fun p m a b => .amoOr p sz m a b)
  | 3 => decL w 3 (fun p m a b => .amoXor p sz m a b)
  | 4 => decL w 4 (fun p m a b => .amoMin p sz m a b)
  | 5 => decL w 5 (fun p m a b => .amoMax p sz m a b)
  | 6 => decL w 6 (fun p m a b => .amoMinu p sz m a b)
  | 7 => decL w 7 (fun p m a b => .amoMaxu p sz m a b)
  | 8 => decL w 8 (fun p m a b => .amoSwap p sz m a b)
  | 9 => decL w 9 (fun p m a b => .amoCas p sz m a b)
  | 10 => if sz = .w then decL w 10 (fun p m a b => .amoFadd p m a b) else .error .value
  | _ => .error .value

/-- The ring sizes of R276. -/
def decRing (w : Word) : Dec RingN :=
  match nfld w 39 2 with
  | 1 => .ok .two
  | 2 => .ok .four
  | 3 => .ok .eight
  | _ => .error .value

/-- The bits of a ring size. -/
def RingN.bits : RingN → BitVec 2
  | .two => 1
  | .four => 2
  | .eight => 3

/-- The forms of `mst` (R276). -/
def decMst (w : Word) : Dec MstFmt :=
  match nfld w 50 4 with
  | 0 => .ok .bf16
  | 1 => .ok .fp16
  | 6 => .ok .fp32
  | _ => .error .value

/-- The bits of a form of `mst`. -/
def MstFmt.bits : MstFmt → BitVec 4
  | .bf16 => 0
  | .fp16 => 1
  | .fp32 => 6

/-- The rounding of `cvt.n` (R284). -/
def decNRound (w : Word) : Dec NRound :=
  match nfld w 43 2 with
  | 0 => .ok .rne
  | 1 => .ok .rtz
  | 2 => .ok .sr
  | _ => .error .value

/-- The bits of a rounding of `cvt.n`. -/
def NRound.bits : NRound → BitVec 2
  | .rne => 0
  | .rtz => 1
  | .sr => 2

/-- The widths of `sext` and `zext` (R71). -/
def decExt (w : Word) : Dec ExtW :=
  match nfld w 40 2 with
  | 0 => .ok .b
  | 1 => .ok .h
  | 2 => .ok .w
  | _ => .error .value

/-- The bits of a width of `sext` and `zext`. -/
def ExtW.bits : ExtW → BitVec 2
  | .b => 0
  | .h => 1
  | .w => 2

/-- FN of a .w or .d vector memory form. -/
def decWD (w : Word) : Dec WD :=
  match nfld w 40 4 with
  | 0 => .ok .w
  | 1 => .ok .d
  | _ => .error .value

/-- The bit of a .w or .d form. -/
def WD.bits : WD → BitVec 4
  | .w => 0
  | .d => 1

/-- The instruction of a word whose OP field is `op` (R37, R38). -/
def decodeOp (op : Nat) (w : Word) : Dec Instr :=
  match op with
  | 0x00 => if w = 0 then .ok .nop else .error .nonzeroNop
  | 0x01 => decR w 6 (fun p a b => .read p (fld w 48 6) a b)
  | 0x02 => decR w 5 (fun p a b => .vread p (fld w 48 5) a b)
  | 0x03 => decW w 6 (fun p => .write p (fld w 48 6))
  | 0x04 => decW w 5 (fun p => .vwrite p (fld w 48 5))
  | 0x05 => decF w 2 (fun p a b _ _ => .mov p a b)
  | 0x06 => decF w 3 (fun p a b c _ => .mov3 p a b c)
  | 0x07 => decF w 4 .mov4
  | 0x08 => decC w .genc
  | 0x09 => decC w .genh
  | 0x0A => decF w 4 .null
  | 0x0F => if w = put 8 56 0x0F then .ok .xop else if fld w 54 2 = 0 then .error .reserved else .error .predicate
  | 0x10 => decB w true (fun p => .br p (fld w 51 3) (fld w 18 33))
  | 0x11 => decB w false (fun p => .bri p (fld w 51 3))
  | 0x12 => decB w true (fun p => .call p (fld w 51 3) (fld w 18 33))
  | 0x13 => decB w false (fun p => .calli p (fld w 51 3))
  | 0x14 => decB w false (fun p => .ret p (fld w 51 3))
  | 0x15 => decB w false (fun p => .halt p (fld w 51 3))
  | 0x16 => do noTarget w 0; decI w 0 24 (fun p _ => .scall p (fld w 18 24))
  | 0x17 => do noTarget w 0; decI w 0 24 (fun p _ => .trap p (fld w 18 24))
  | 0x18 => do noTarget w 0; decI w 0 24 (fun p _ => .brk p (fld w 18 24))
  | 0x20 => decG w 0 0 .add
  | 0x21 => decG w 0 0 .sub
  | 0x22 => decG w 0 0 .mul
  | 0x23 => decG w 0 0 .mulh
  | 0x24 => decG w 0 0 .mulhu
  | 0x25 => decG w 0 0 .div
  | 0x26 => decG w 0 0 .divu
  | 0x27 => decG w 0 0 .rem
  | 0x28 => decG w 0 0 .remu
  | 0x29 => decG w 0 0 .and
  | 0x2A => decG w 0 0 .or
  | 0x2B => decG w 0 0 .xor
  | 0x2C => decG w 0 0 .andn
  | 0x2D => decG w 0 0 .shl
  | 0x2E => decG w 0 0 .shr
  | 0x2F => decG w 0 0 .sar
  | 0x30 => decG w 0 0 .rotl
  | 0x31 =>
    match nfld w 48 6 with
    | 0 => decG w 0 0 .clz
    | 1 => decG w 1 0 .ctz
    | 2 => decG w 2 0 .popc
    | 3 => decGMod w 3 2 (decExt w) .sext
    | 4 => decGMod w 4 2 (decExt w) .zext
    | _ => .error .value
  | 0x32 => decG w 0 0 .min
  | 0x33 => decG w 0 0 .max
  | 0x34 => decG w 0 0 .minu
  | 0x35 => decG w 0 0 .maxu
  | 0x36 => decI w 0 12 (fun p t => .bfx p (fld w 18 6) (fld w 24 6) t)
  | 0x37 => decI w 0 12 (fun p t => .bfxu p (fld w 18 6) (fld w 24 6) t)
  | 0x38 => decI w 0 12 (fun p t => .bfi p (fld w 18 6) (fld w 24 6) t)
  | 0x39 => decI w 0 24 (fun p t => .lea p (fld w 18 2) (fld w 20 22) t)
  | 0x3A => decG w 0 0 .sel
  | 0x3B =>
    match nfld w 48 6 with
    | 0 => decI w 0 24 (fun p t => .addi p (fld w 18 24) t)
    | 1 => decI w 1 24 (fun p t => .muli p (fld w 18 24) t)
    | 2 => decI w 2 24 (fun p t => .andi p (fld w 18 24) t)
    | 3 => decI w 3 24 (fun p t => .ori p (fld w 18 24) t)
    | 4 => decI w 4 24 (fun p t => .xori p (fld w 18 24) t)
    | 5 => decI w 5 6 (fun p t => .shli p (fld w 18 6) t)
    | 6 => decI w 6 6 (fun p t => .shri p (fld w 18 6) t)
    | 7 => decI w 7 6 (fun p t => .sari p (fld w 18 6) t)
    | _ => .error .value
  | 0x40 => decG w 0 0 .teq
  | 0x41 => decG w 0 0 .tne
  | 0x42 => decG w 0 0 .tlt
  | 0x43 => decG w 0 0 .tle
  | 0x44 => decG w 0 0 .tltu
  | 0x45 => decG w 0 0 .tleu
  | 0x46 => decG w 0 0 .tnz
  | 0x48 =>
    match nfld w 48 6 with
    | 0 => decI w 0 24 (fun p t => .teqi p (fld w 18 24) t)
    | 1 => decI w 1 24 (fun p t => .tnei p (fld w 18 24) t)
    | 2 => decI w 2 24 (fun p t => .tlti p (fld w 18 24) t)
    | 3 => decI w 3 24 (fun p t => .tlei p (fld w 18 24) t)
    | 4 => decI w 4 24 (fun p t => .tltui p (fld w 18 24) t)
    | 5 => decI w 5 24 (fun p t => .tleui p (fld w 18 24) t)
    | _ => .error .value
  | 0x50 => decGMod w 0 2 (decTy w) .fadd
  | 0x51 => decGMod w 0 2 (decTy w) .fsub
  | 0x52 => decGMod w 0 2 (decTy w) .fmul
  | 0x53 => decGMod w 0 2 (decTy w) .ffma
  | 0x54 => decGMod w 0 2 (decTy w) .fdiv
  | 0x55 => decGMod w 0 2 (decTy w) .fsqrt
  | 0x56 => decGMod w 0 2 (decTy w) .fmin
  | 0x57 => decGMod w 0 2 (decTy w) .fmax
  | 0x58 => decGMod w 0 2 (decTy w) .fabs
  | 0x59 => decGMod w 0 2 (decTy w) .fneg
  | 0x5A => decGMod w 0 2 (decTy w) .fsgnj
  | 0x5B => decGMod w 0 1 (.ok (fld w 40 1 == 1)) .feq
  | 0x5C => decGMod w 0 1 (.ok (fld w 40 1 == 1)) .flt
  | 0x5D => decGMod w 0 1 (.ok (fld w 40 1 == 1)) .fle
  | 0x5E => decGMod w 0 1 (.ok (fld w 40 1 == 1)) .fclass
  | 0x5F => do let s ← decCvt w 43; decGMod w 0 6 (decCvt w 40) (fun p d a b => .fcvt p d s a b)
  | 0x70 => decGMod w 0 2 (decLane w 40) .vbcast
  | 0x71 => decILane w .vext
  | 0x72 => decILane w .vins
  | 0x73 => decGMod w 0 2 (decLane w 40) .vperm
  | 0x74 => decGMod w 0 2 (decLane w 40) .vshl
  | 0x75 => decGFn w (decVRed w) .vred
  | 0x76 => decGMod w 0 2 (decLane w 40) .vsel
  | 0x77 => decGFn w (decVCmp w) .vcmp
  | 0x78 => decGMod w 0 2 (decLane w 40) .viota
  | 0x79 => decGMod w 0 2 (decLane w 40) .vcnt
  | 0x80 => decL w 0 .ldB
  | 0x81 => decL w 0 .ldBu
  | 0x82 => decL w 0 .ldH
  | 0x83 => decL w 0 .ldHu
  | 0x84 => decL w 0 .ldW
  | 0x85 => decL w 0 .ldWu
  | 0x86 => decL w 0 .ldD
  | 0x87 => match nfld w 40 4 with
    | 0 => decL w 0 (fun p m a b => .vld p false m a b)
    | 1 => decL w 1 (fun p m a b => .vld p true m a b)
    | _ => .error .value
  | 0x88 => do let z ← decWD w; decL w z.bits (fun p m a b => .vgather p z m a b)
  | 0x89 => decLCache w 22 (fun p => .pf p (fld w 49 5) (fld w 18 22))
  | 0x8A => decLCache w 0 (fun p => .cinv p (fld w 49 5))
  | 0x8B => decLCache w 0 (fun p => .cwb p (fld w 49 5))
  | 0x90 => decS w 0 .stB
  | 0x91 => decS w 0 .stH
  | 0x92 => decS w 0 .stW
  | 0x93 => decS w 0 .stD
  | 0x94 => decS w 0 .vst
  | 0x95 => do let z ← decWD w; decS w z.bits (fun p m => .vscatter p z m)
  | 0xA0 => decAmo w .w
  | 0xA1 => decAmo w .d
  | 0xA8 => do
    let pr ← decPred w
    let m ← decMem w
    rsv w 40 4
    rsv w 18 22
    noTarget w 0
    noTarget w 9
    legal (.fence pr m.lsid m.scope m.ord)
  | 0xB0 => decX w 0 true false 23 false (fun p _ _ _ => .rgnBeg p (fld w 44 6) (fld w 18 23))
  | 0xB1 => decX w 0 false false 0 false (fun p _ _ _ => .rgnEnd p)
  | 0xB2 => decX w 0 false false 0 false (fun p _ _ _ => .rgnAbt p)
  | 0xB3 => decX w 0 false false 0 true (fun p _ a b => .rgnStat p a b)
  | 0xB4 => decX w 0 false false 6 false (fun p _ _ _ => .barInit p (fld w 18 4) (fld w 22 2))
  | 0xB5 => decX w 0 false false 4 true (fun p _ a b => .barArr p (fld w 18 4) a b)
  | 0xB6 => decX w 0 false false 4 false (fun p _ _ _ => .barWait p (fld w 18 4))
  | 0xB7 => decX w 0 false true 0 false (fun p s _ _ => .evtSig p s)
  | 0xB8 => decX w 0 false true 0 false (fun p s _ _ => .evtWait p s)
  | 0xB9 => decX w 0 false true 0 true (fun p s a b => .wqGive p s a b)
  | 0xBA => decX w 0 false true 0 true (fun p s a b => .wqTake p s a b)
  | 0xBB => decX w 0 false true 0 true (fun p s a b => .wqSteal p s a b)
  | 0xBC => decX w 0 false false 0 true (fun p _ a b => .launch p a b)
  | 0xBD => decX w 0 false false 0 false (fun p _ _ _ => .yield p)
  | 0xC0 => decE w false true false false false (fun p => .cpy p (fld w 44 6))
  | 0xC1 => decE w false true false false false (fun p => .cpyQ p (fld w 44 6))
  | 0xC2 => decE w false false false false false (fun p => .bbarInit p)
  | 0xC3 => decE w false true false false false (fun p => .bbarWait p (fld w 44 6))
  | 0xC4 => decE w false true true false true (fun p => .mma p (fld w 44 6) (fld w 41 3) (fld w 32 7))
  | 0xC5 => decE w false true true false true (fun p => .mmaSp p (fld w 44 6) (fld w 41 3) (fld w 32 7))
  | 0xC6 => do let n ← decRing w; decE w false true true true true (fun p => .mring p (fld w 44 6) (fld w 41 3) n (fld w 32 7))
  | 0xC7 => decE w false false true false false (fun p => .mzero p (fld w 41 3))
  | 0xC8 => decE w false true true false false (fun p => .mld p (fld w 44 6) (fld w 41 3))
  | 0xC9 => do let f ← decMst w; decE w true true true false false (fun p => .mst p f (fld w 44 6) (fld w 41 3))
  | 0xCA => decE w true false false false false (fun p => .cmtag p (fld w 50 3) (fld w 53 1 == 1))
  | 0xD0 => do let r ← decNRound w; decGMod w 0 6 (.ok (fld w 40 3 : BitVec 3)) (fun p t a b => .cvtN p t r (fld w 45 1 == 1) a b)
  | 0xD1 => decGMod w 0 3 (.ok (fld w 40 3 : BitVec 3)) .cvtW
  | 0xD2 => decG w 0 0 .bscale
  | 0xE0 => decX w 0 false false 12 true (fun p _ a b => .srd p (fld w 18 12) a b)
  | 0xE1 => decX w 0 false false 12 false (fun p _ _ _ => .swr p (fld w 18 12))
  | 0xE2 => decX w 0 false false 0 false (fun p _ _ _ => .sret p)
  | 0xE3 => match nfld w 50 4 with
    | 0 => decX w 0 false true 0 false (fun p s _ _ => .tlbinv p s false)
    | 1 => decX w 1 false true 0 false (fun p s _ _ => .tlbinv p s true)
    | _ => .error .value
  | 0xE4 => decX w 0 false false 0 true (fun p _ a b => .cyc p a b)
  | _ => .error .unassigned

/-- The instruction a word stands for, or why it records ILL (R37, R38, R43). -/
def decode (w : Word) : Dec Instr := decodeOp (nfld w 56 8) w

/-- OP and PR of every format (R34). -/
def encHead (op : BitVec 8) (pr : Pred) : Word := put 8 56 op ||| put 2 54 pr.bits

/-- A target field at bit `lo` (R36). -/
def encTarget (lo : Nat) (t : Target) : Word := put 2 (lo + 7) t.kind ||| put 7 lo t.index

/-- G format (R35). -/
def encG (op : BitVec 8) (pr : Pred) (fn : BitVec 6) (mod : Word) (t0 t1 : Target) : Word :=
  encHead op pr ||| put 6 48 fn ||| mod ||| encTarget 9 t1 ||| encTarget 0 t0

/-- I format (R35). -/
def encI (op : BitVec 8) (pr : Pred) (fn : BitVec 6) (imm : Word) (t0 : Target) : Word :=
  encHead op pr ||| put 6 48 fn ||| imm ||| encTarget 0 t0

/-- The fields of L and S words (R35). -/
def encMem (m : MemF) : Word :=
  put 5 49 m.lsid ||| put 3 46 m.scope.bits ||| put 2 44 m.ord.bits ||| put 22 18 m.off

/-- L format (R35). -/
def encL (op : BitVec 8) (pr : Pred) (fn : BitVec 4) (m : MemF) (t0 t1 : Target) : Word :=
  encHead op pr ||| encMem m ||| put 4 40 fn ||| encTarget 9 t1 ||| encTarget 0 t0

/-- S format (R35). -/
def encS (op : BitVec 8) (pr : Pred) (fn : BitVec 4) (m : MemF) : Word :=
  encHead op pr ||| encMem m ||| put 4 40 fn

/-- B format (R35). -/
def encB (op : BitVec 8) (pr : Pred) (exit : BitVec 3) (off : BitVec 33) : Word :=
  encHead op pr ||| put 3 51 exit ||| put 33 18 off

/-- F format (R35). -/
def encF (op : BitVec 8) (pr : Pred) (t0 t1 t2 t3 : Target) : Word :=
  encHead op pr ||| encTarget 27 t3 ||| encTarget 18 t2 ||| encTarget 9 t1 ||| encTarget 0 t0

/-- E format (R35). -/
def encE (op : BitVec 8) (pr : Pred) (fn : BitVec 4) (sreg : BitVec 6) (acc : BitVec 3)
    (n : BitVec 2) (kq : BitVec 7) : Word :=
  encHead op pr ||| put 4 50 fn ||| put 6 44 sreg ||| put 3 41 acc ||| put 2 39 n ||| put 7 32 kq

/-- X format (R35). -/
def encX (op : BitVec 8) (pr : Pred) (fn : BitVec 4) (reg : BitVec 6) (scope : Scope) (imm : Word)
    (t0 t1 : Target) : Word :=
  encHead op pr ||| put 4 50 fn ||| put 6 44 reg ||| put 3 41 scope.bits ||| imm
    ||| encTarget 9 t1 ||| encTarget 0 t0

/-- The word of an instruction of R38; a machine event has none. -/
def encode : Instr → Option Word
  | .nop => some (0)
  | .xop => some (put 8 56 0x0F)
  | .read p g a b => some (encHead 0x01 p ||| put 6 48 g ||| encTarget 9 b ||| encTarget 0 a)
  | .vread p g a b => some (encHead 0x02 p ||| put 5 48 g ||| encTarget 9 b ||| encTarget 0 a)
  | .write p g => some (encHead 0x03 p ||| put 6 48 g)
  | .vwrite p g => some (encHead 0x04 p ||| put 5 48 g)
  | .mov p a b => some (encF 0x05 p a b .none .none)
  | .mov3 p a b c => some (encF 0x06 p a b c .none)
  | .mov4 p a b c d => some (encF 0x07 p a b c d)
  | .null p a b c d => some (encF 0x0A p a b c d)
  | .genc p i a b => some (encHead 0x08 p ||| put 36 18 i ||| encTarget 9 b ||| encTarget 0 a)
  | .genh p i a b => some (encHead 0x09 p ||| put 36 18 i ||| encTarget 9 b ||| encTarget 0 a)
  | .br p e o => some (encB 0x10 p e o)
  | .bri p e => some (encB 0x11 p e 0)
  | .call p e o => some (encB 0x12 p e o)
  | .calli p e => some (encB 0x13 p e 0)
  | .ret p e => some (encB 0x14 p e 0)
  | .halt p e => some (encB 0x15 p e 0)
  | .scall p c => some (encI 0x16 p 0 (put 24 18 c) .none)
  | .trap p c => some (encI 0x17 p 0 (put 24 18 c) .none)
  | .brk p c => some (encI 0x18 p 0 (put 24 18 c) .none)
  | .add p a b => some (encG 0x20 p 0 0 a b)
  | .sub p a b => some (encG 0x21 p 0 0 a b)
  | .mul p a b => some (encG 0x22 p 0 0 a b)
  | .mulh p a b => some (encG 0x23 p 0 0 a b)
  | .mulhu p a b => some (encG 0x24 p 0 0 a b)
  | .div p a b => some (encG 0x25 p 0 0 a b)
  | .divu p a b => some (encG 0x26 p 0 0 a b)
  | .rem p a b => some (encG 0x27 p 0 0 a b)
  | .remu p a b => some (encG 0x28 p 0 0 a b)
  | .and p a b => some (encG 0x29 p 0 0 a b)
  | .or p a b => some (encG 0x2a p 0 0 a b)
  | .xor p a b => some (encG 0x2b p 0 0 a b)
  | .andn p a b => some (encG 0x2c p 0 0 a b)
  | .shl p a b => some (encG 0x2d p 0 0 a b)
  | .shr p a b => some (encG 0x2e p 0 0 a b)
  | .sar p a b => some (encG 0x2f p 0 0 a b)
  | .rotl p a b => some (encG 0x30 p 0 0 a b)
  | .min p a b => some (encG 0x32 p 0 0 a b)
  | .max p a b => some (encG 0x33 p 0 0 a b)
  | .minu p a b => some (encG 0x34 p 0 0 a b)
  | .maxu p a b => some (encG 0x35 p 0 0 a b)
  | .sel p a b => some (encG 0x3a p 0 0 a b)
  | .teq p a b => some (encG 0x40 p 0 0 a b)
  | .tne p a b => some (encG 0x41 p 0 0 a b)
  | .tlt p a b => some (encG 0x42 p 0 0 a b)
  | .tle p a b => some (encG 0x43 p 0 0 a b)
  | .tltu p a b => some (encG 0x44 p 0 0 a b)
  | .tleu p a b => some (encG 0x45 p 0 0 a b)
  | .tnz p a b => some (encG 0x46 p 0 0 a b)
  | .bscale p a b => some (encG 0xd2 p 0 0 a b)
  | .clz p a b => some (encG 0x31 p 0 0 a b)
  | .ctz p a b => some (encG 0x31 p 1 0 a b)
  | .popc p a b => some (encG 0x31 p 2 0 a b)
  | .sext p z a b => some (encG 0x31 p 3 (put 2 40 z.bits) a b)
  | .zext p z a b => some (encG 0x31 p 4 (put 2 40 z.bits) a b)
  | .bfx p q k t => some (encI 0x36 p 0 (put 6 18 q ||| put 6 24 k) t)
  | .bfxu p q k t => some (encI 0x37 p 0 (put 6 18 q ||| put 6 24 k) t)
  | .bfi p q k t => some (encI 0x38 p 0 (put 6 18 q ||| put 6 24 k) t)
  | .lea p h d t => some (encI 0x39 p 0 (put 2 18 h ||| put 22 20 d) t)
  | .addi p i t => some (encI 0x3B p 0 (put 24 18 i) t)
  | .muli p i t => some (encI 0x3B p 1 (put 24 18 i) t)
  | .andi p i t => some (encI 0x3B p 2 (put 24 18 i) t)
  | .ori p i t => some (encI 0x3B p 3 (put 24 18 i) t)
  | .xori p i t => some (encI 0x3B p 4 (put 24 18 i) t)
  | .shli p i t => some (encI 0x3B p 5 (put 6 18 i) t)
  | .shri p i t => some (encI 0x3B p 6 (put 6 18 i) t)
  | .sari p i t => some (encI 0x3B p 7 (put 6 18 i) t)
  | .teqi p i t => some (encI 0x48 p 0 (put 24 18 i) t)
  | .tnei p i t => some (encI 0x48 p 1 (put 24 18 i) t)
  | .tlti p i t => some (encI 0x48 p 2 (put 24 18 i) t)
  | .tlei p i t => some (encI 0x48 p 3 (put 24 18 i) t)
  | .tltui p i t => some (encI 0x48 p 4 (put 24 18 i) t)
  | .tleui p i t => some (encI 0x48 p 5 (put 24 18 i) t)
  | .fadd p y a b => some (encG 0x50 p 0 (put 2 40 y.bits) a b)
  | .fsub p y a b => some (encG 0x51 p 0 (put 2 40 y.bits) a b)
  | .fmul p y a b => some (encG 0x52 p 0 (put 2 40 y.bits) a b)
  | .ffma p y a b => some (encG 0x53 p 0 (put 2 40 y.bits) a b)
  | .fdiv p y a b => some (encG 0x54 p 0 (put 2 40 y.bits) a b)
  | .fsqrt p y a b => some (encG 0x55 p 0 (put 2 40 y.bits) a b)
  | .fmin p y a b => some (encG 0x56 p 0 (put 2 40 y.bits) a b)
  | .fmax p y a b => some (encG 0x57 p 0 (put 2 40 y.bits) a b)
  | .fabs p y a b => some (encG 0x58 p 0 (put 2 40 y.bits) a b)
  | .fneg p y a b => some (encG 0x59 p 0 (put 2 40 y.bits) a b)
  | .fsgnj p y a b => some (encG 0x5a p 0 (put 2 40 y.bits) a b)
  | .feq p d a b => some (encG 0x5b p 0 (put 1 40 (BitVec.ofBool d)) a b)
  | .flt p d a b => some (encG 0x5c p 0 (put 1 40 (BitVec.ofBool d)) a b)
  | .fle p d a b => some (encG 0x5d p 0 (put 1 40 (BitVec.ofBool d)) a b)
  | .fclass p d a b => some (encG 0x5e p 0 (put 1 40 (BitVec.ofBool d)) a b)
  | .fcvt p d s a b => some (encG 0x5F p 0 (put 3 40 d.bits ||| put 3 43 s.bits) a b)
  | .vbcast p w a b => some (encG 0x70 p 0 (put 2 40 w.code) a b)
  | .vperm p w a b => some (encG 0x73 p 0 (put 2 40 w.code) a b)
  | .vshl p w a b => some (encG 0x74 p 0 (put 2 40 w.code) a b)
  | .vsel p w a b => some (encG 0x76 p 0 (put 2 40 w.code) a b)
  | .viota p w a b => some (encG 0x78 p 0 (put 2 40 w.code) a b)
  | .vcnt p w a b => some (encG 0x79 p 0 (put 2 40 w.code) a b)
  | .vred p f w a b => some (encG 0x75 p f.bits (put 2 40 w.code) a b)
  | .vcmp p f w a b => some (encG 0x77 p f.bits (put 2 40 w.code) a b)
  | .vext p w k t => some (encI 0x71 p 0 (put 2 18 w.code ||| put 6 20 k) t)
  | .vins p w k t => some (encI 0x72 p 0 (put 2 18 w.code ||| put 6 20 k) t)
  | .ldB p m a b => some (encL 0x80 p 0 m a b)
  | .ldBu p m a b => some (encL 0x81 p 0 m a b)
  | .ldH p m a b => some (encL 0x82 p 0 m a b)
  | .ldHu p m a b => some (encL 0x83 p 0 m a b)
  | .ldW p m a b => some (encL 0x84 p 0 m a b)
  | .ldWu p m a b => some (encL 0x85 p 0 m a b)
  | .ldD p m a b => some (encL 0x86 p 0 m a b)
  | .vld p f m a b => some (encL 0x87 p (if f then 1 else 0) m a b)
  | .vgather p z m a b => some (encL 0x88 p z.bits m a b)
  | .pf p l o => some (encHead 0x89 p ||| put 5 49 l ||| put 22 18 o)
  | .cinv p l => some (encHead 0x8A p ||| put 5 49 l)
  | .cwb p l => some (encHead 0x8B p ||| put 5 49 l)
  | .stB p m => some (encS 0x90 p 0 m)
  | .stH p m => some (encS 0x91 p 0 m)
  | .stW p m => some (encS 0x92 p 0 m)
  | .stD p m => some (encS 0x93 p 0 m)
  | .vst p m => some (encS 0x94 p 0 m)
  | .vscatter p z m => some (encS 0x95 p z.bits m)
  | .fence p l s o => some (encHead 0xA8 p ||| put 5 49 l ||| put 3 46 s.bits ||| put 2 44 o.bits)
  | .amoAdd p z m a b => some (encL (if z = .w then 0xA0 else 0xA1) p 0 m a b)
  | .amoAnd p z m a b => some (encL (if z = .w then 0xA0 else 0xA1) p 1 m a b)
  | .amoOr p z m a b => some (encL (if z = .w then 0xA0 else 0xA1) p 2 m a b)
  | .amoXor p z m a b => some (encL (if z = .w then 0xA0 else 0xA1) p 3 m a b)
  | .amoMin p z m a b => some (encL (if z = .w then 0xA0 else 0xA1) p 4 m a b)
  | .amoMax p z m a b => some (encL (if z = .w then 0xA0 else 0xA1) p 5 m a b)
  | .amoMinu p z m a b => some (encL (if z = .w then 0xA0 else 0xA1) p 6 m a b)
  | .amoMaxu p z m a b => some (encL (if z = .w then 0xA0 else 0xA1) p 7 m a b)
  | .amoSwap p z m a b => some (encL (if z = .w then 0xA0 else 0xA1) p 8 m a b)
  | .amoCas p z m a b => some (encL (if z = .w then 0xA0 else 0xA1) p 9 m a b)
  | .amoFadd p m a b => some (encL 0xA0 p 10 m a b)
  | .rgnBeg p g o => some (encX 0xb0 p 0 g .fibre (put 23 18 o) .none .none)
  | .rgnEnd p => some (encX 0xb1 p 0 0 .fibre (0) .none .none)
  | .rgnAbt p => some (encX 0xb2 p 0 0 .fibre (0) .none .none)
  | .rgnStat p a b => some (encX 0xb3 p 0 0 .fibre (0) a b)
  | .barInit p n k => some (encX 0xb4 p 0 0 .fibre (put 4 18 n ||| put 2 22 k) .none .none)
  | .barArr p n a b => some (encX 0xb5 p 0 0 .fibre (put 4 18 n) a b)
  | .barWait p n => some (encX 0xb6 p 0 0 .fibre (put 4 18 n) .none .none)
  | .evtSig p s => some (encX 0xb7 p 0 0 s (0) .none .none)
  | .evtWait p s => some (encX 0xb8 p 0 0 s (0) .none .none)
  | .wqGive p s a b => some (encX 0xb9 p 0 0 s (0) a b)
  | .wqTake p s a b => some (encX 0xba p 0 0 s (0) a b)
  | .wqSteal p s a b => some (encX 0xbb p 0 0 s (0) a b)
  | .launch p a b => some (encX 0xbc p 0 0 .fibre (0) a b)
  | .yield p => some (encX 0xbd p 0 0 .fibre (0) .none .none)
  | .cpy p r => some (encE 0xc0 p 0 r 0 0 0)
  | .cpyQ p r => some (encE 0xc1 p 0 r 0 0 0)
  | .bbarInit p => some (encE 0xc2 p 0 0 0 0 0)
  | .bbarWait p r => some (encE 0xc3 p 0 r 0 0 0)
  | .mma p r c q => some (encE 0xc4 p 0 r c 0 q)
  | .mmaSp p r c q => some (encE 0xc5 p 0 r c 0 q)
  | .mring p r c n q => some (encE 0xc6 p 0 r c n.bits q)
  | .mzero p c => some (encE 0xc7 p 0 0 c 0 0)
  | .mld p r c => some (encE 0xc8 p 0 r c 0 0)
  | .mst p f r c => some (encE 0xc9 p f.bits r c 0 0)
  | .cmtag p t s => some (encHead 0xCA p ||| put 3 50 t ||| put 1 53 (BitVec.ofBool s))
  | .cvtN p t r s a b => some (encG 0xD0 p 0 (put 3 40 t ||| put 2 43 r.bits ||| put 1 45 (BitVec.ofBool s)) a b)
  | .cvtW p t a b => some (encG 0xD1 p 0 (put 3 40 t) a b)
  | .srd p n a b => some (encX 0xe0 p 0 0 .fibre (put 12 18 n) a b)
  | .swr p n => some (encX 0xe1 p 0 0 .fibre (put 12 18 n) .none .none)
  | .sret p => some (encX 0xe2 p 0 0 .fibre (0) .none .none)
  | .tlbinv p s f => some (encX 0xe3 p (if f then 1 else 0) 0 s (0) .none .none)
  | .cyc p a b => some (encX 0xe4 p 0 0 .fibre (0) a b)
  | _ => none

/-- A machine event: a row of the table that is a step of a unit and has no instruction word. -/
def Instr.isEvent (i : Instr) : Bool := (encode i).isNone

/-- The instruction this decoder reads from a table word: 64 bits, little-endian, the first byte
least significant (R5, R34). A shorter row is filled with zero bits above. -/
def decodeTableWord (nbits w : Nat) : Option Instr :=
  if nbits ≤ 64 then
    match decode (BitVec.ofNat 64 (w % 2 ^ nbits)) with
    | .ok i => some i
    | .error _ => none
  else none

end Sys2Proof
end

