-- ==== Sys2Proof/Config.lean ====
section
/-! DEFINITION. What an implementation fixes and what the spec leaves open. Every `opaque` constant
has no body: nothing can evaluate it, so a statement holds whatever its value is. -/

namespace Sys2Proof.Config

/-- Which of the actions that may happen next does happen (log 4). -/
opaque pick : Nat → Nat

/-- How many units of 0.5 ns one step of the machine takes (log 5). -/
opaque elapsed : Nat → Nat

/-- How many steps pass at most between two that take their action from the round of what has still to be done: some
number, which is not known (log 4). -/
opaque patience : Nat

/-- A free truth value: whether a cache or TLB keeps an entry, a prefetch acts (log 6). -/
opaque coin : Nat → Bool

/-- How many cells a home records exactly as sharers of a line, before it records them by die (R119, log 61). -/
opaque exactSharers : Nat

/-- A free byte, for bytes that the spec gives no meaning (log 7). -/
opaque freeByte : Nat → Byte

/-- What an address of a stack that the start has left untrained reads as (R304, log 55). -/
opaque untrainedByte : Nat → Byte

/-- The next-block predictor's guess for a block (R28, log 6). -/
opaque predict : Nat → Option Word

/-- The byte that memory encrypted under one key yields under another (R111, log 9):
key at rest, key of the access, address, stored byte. -/
opaque decrypted : Nat → Nat → Nat → Byte → Byte

/-- The firmware's level-M trap vector (R235, log 8). -/
opaque firmwareVector : Word

/-- The widths and operations a CXL.io completer declares (R144, log 10): address, operation
(0 FetchAdd, 1 Swap, 2 CAS), width in bytes. -/
opaque completerHas : Nat → Nat → Nat → Bool

/-- Buffers a receiver reserves for a channel of a link (R291, log 21). -/
opaque channelBuffers : Nat → Nat → Nat

/-- How many credits a sender has taken for the beats it sent since its last audit (R291, R292, log 21). -/
opaque takenCredits : Nat → Nat

/-- Cycles for which a node that has work has been held back by its power class (R200, R308, log 80). -/
opaque withheld : Nat → Nat

/-- The Ed448 signature of the device key over a transcript digest (R306, log 22). -/
opaque deviceSign : List Nat → Vec

/-- SHA3-512 of a list of words (R306, log 22). -/
opaque digest : List Word → Vec

/-- Bytes of the certificate chain of slot 0 (R306, log 22). -/
opaque certChain : List Byte

/-- Whether a session's FINISH proof verifies (R306, log 22): port, exchanged data, proof. -/
opaque finishVerifies : Nat → Word → Word → Bool

/-- The SHAKE256 digest of an image's bytes (R302, log 22). -/
opaque imageDigest : List Byte → Vec

/-- The version field of an image's header, of its bytes (R302, R305, log 22). -/
opaque imageVersion : List Byte → BitVec 32

/-- The MINVER field of the image with a digest (R302, log 22). -/
opaque minVersion : Vec → BitVec 32

/-- The SHAKE256 digest of the fused Berderix key (R302, R306, log 22). -/
opaque rootKeyDigest : Vec

/-- Whether the firmware services a trap that reaches level M (R235, log 8). -/
opaque firmwareServes : Nat → Bool

/-- A free word, for a value that the spec does not state (log 11). -/
opaque freeWord : Nat → Word

/-- Which item a queue holds after a program wrote into its ring (R210, log 12). -/
opaque damagedItem : Nat → Word

/-- The first granule a node command finds when the exactness of its marks allows an early start
(R319): whether the node can tell (log 13). -/
opaque nodeCanTell : Nat → Bool

end Sys2Proof.Config
end

