-- ==== Sys2Proof/Machine/Dict.lean ====
section
/-! DEFINITION. Finite maps from numbers as lists with rising keys, and byte memories in one
canonical form: addresses rising, and no entry equal to what an unlisted address reads as (0). -/

namespace Sys2Proof

/-- A finite map: keys strictly rising. -/
abbrev Dict (α : Type) := List (Nat × α)

/-- The value at a key. -/
def Dict.get? {α : Type} : Dict α → Nat → Option α
  | [], _ => none
  | (k', v) :: d, k => if k' = k then some v else Dict.get? d k

/-- The value at a key, or `z`. -/
def Dict.getD {α : Type} (d : Dict α) (k : Nat) (z : α) : α := (d.get? k).getD z

/-- The map with `v` at `k`. -/
def Dict.put {α : Type} : Dict α → Nat → α → Dict α
  | [], k, v => [(k, v)]
  | (k', v') :: d, k, v =>
    if k < k' then (k, v) :: (k', v') :: d
    else if k' = k then (k, v) :: d
    else (k', v') :: Dict.put d k v

/-- The map without `k`. -/
def Dict.erase {α : Type} (d : Dict α) (k : Nat) : Dict α := d.filter (fun e => e.1 != k)

/-- The map with `f` applied to the value at `k`, if there is one. -/
def Dict.modify {α : Type} (d : Dict α) (k : Nat) (f : α → α) : Dict α :=
  match d.get? k with
  | some v => d.put k (f v)
  | none => d

/-- The values in the order of their keys. -/
def Dict.values {α : Type} (d : Dict α) : List α := d.map Prod.snd

/-- The keys, rising. -/
def Dict.keys {α : Type} (d : Dict α) : List Nat := d.map Prod.fst

/-- The map with `f` applied to every value. -/
def Dict.mapV {α β : Type} (d : Dict α) (f : α → β) : Dict β := d.map (fun e => (e.1, f e.2))

/-- Every key lies below the next. -/
def Dict.rising {α : Type} : Dict α → Bool
  | [] => true
  | [_] => true
  | (k, _) :: (k', v') :: d => k < k' && Dict.rising ((k', v') :: d)

/-- A memory of bytes; an address not listed reads 0 (log 2). -/
abbrev Mem := Dict Byte

/-- The byte at an address. -/
def Mem.byte (m : Mem) (a : Nat) : Byte := Dict.getD m a 0

/-- The memory with byte `b` at `a`. -/
def Mem.setByte (m : Mem) (a : Nat) (b : Byte) : Mem := if b = 0 then Dict.erase m a else Dict.put m a b

/-- The canonical form. -/
def Mem.wf (m : Mem) : Bool := Dict.rising m && m.all (fun e => e.2 != 0)

/-- The `n` bytes from `a`. -/
def Mem.bytes (m : Mem) (a n : Nat) : List Byte := (List.range n).map (fun i => m.byte (a + i))

/-- The memory with `bs` written from `a`. -/
def Mem.setBytes (m : Mem) (a : Nat) : List Byte → Mem
  | [] => m
  | b :: bs => Mem.setBytes (m.setByte a b) (a + 1) bs

/-- The memory without any byte of [a, a + n): all of them read 0. -/
def Mem.clear (m : Mem) (a n : Nat) : Mem := m.filter (fun e => e.1 < a || a + n ≤ e.1)

/-- Little-endian: the number that bytes spell (R5). -/
def leNat : List Byte → Nat
  | [] => 0
  | b :: bs => b.toNat + 256 * leNat bs

/-- Little-endian: the `n` low bytes of a number (R5). -/
def natLe : Nat → Nat → List Byte
  | 0, _ => []
  | n + 1, x => BitVec.ofNat 8 x :: natLe n (x / 256)

/-- The bytes of a number as a word. -/
def leWord (bs : List Byte) : Word := BitVec.ofNat 64 (leNat bs)

/-- The bytes of a number as a vector. -/
def leVec (bs : List Byte) : Vec := BitVec.ofNat 512 (leNat bs)

/-- The doubleword at `a`. -/
def Mem.dword (m : Mem) (a : Nat) : Word := leWord (m.bytes a 8)

/-- Splits a list into pieces of `n` (as many as `k`). -/
def chunksOf {α : Type} (n : Nat) : Nat → List α → List (List α)
  | 0, _ => []
  | k + 1, l => l.take n :: chunksOf n k (l.drop n)

end Sys2Proof
end

