-- ==== Sys2Proof/Machine/State.lean ====
section
/-! DEFINITION. The state of the machine as plain data, its stops, and the state after reset.
INVENTORY.md lists every field with its rule and reset value. -/

namespace Sys2Proof.Machine

/-- What stops the machine with a fault. The machine's own exceptions are no faults of this type:
an instruction that raises one records it and its block traps (R25, R236). -/
inductive Fault where
  /-- Raised by the meaning of an instruction of R38 that is asked to act while no block in flight
  holds it at the place `State.cur` names (log 1). Safe: the machine itself never does so. -/
  | noActingBlock
  deriving DecidableEq, Repr

/-- What the model refuses. -/
inductive Refusal where
  /-- Raised by an arm of `exec` whose instruction has no meaning yet. Safe. -/
  | notModelled (mnemonic : String)
  deriving DecidableEq, Repr

/-- The privilege levels of R234. -/
inductive Level where
  | a | s | m
  deriving DecidableEq, Repr

/-- The trap causes of R237, with the codes of that table. -/
inductive Cause where
  | ill | blkFmt | multiExit | priv | scall | brk | step | trap | pageMiss | pageProt | align
  | windowSpan | peer | atomType | atomUnsup | key | uncorr | ringTimeout | rgnLocal | rgnSpace
  | rgnEngine | rgnNest
  deriving DecidableEq, Repr

/-- An operand token (R18). A null token and a poisoned token have no width of their own (log 14). -/
inductive Token where
  | val (w : Word)
  | vec (v : Vec) (tag : BitVec 3)
  | null
  | poison
  deriving DecidableEq, Repr

/-- Where a recorded fault comes from, in the rank of R25. -/
inductive Source where
  | fetchPage | fetchIll | fetchFmt | afterFetch | firing | ring | exhaustion
  deriving DecidableEq, Repr

/-- A fault recorded against a block (R25): the index s.tidx will show, the cause, s.taddr. -/
structure Recorded where
  idx : Nat
  cause : Cause
  taddr : Word
  src : Source
  deriving DecidableEq, Repr

/-- A branch that fired (R21, R59); it has no target when it is a halt or fired on poison. -/
structure Exit where
  idx : Nat
  target : Option Word
  isHalt : Bool
  deriving DecidableEq, Repr

/-- An engine command that fired and waits for its block's commit (R24, R230, R276). -/
structure Command where
  idx : Nat
  ins : Instr
  a : Word
  b : Word
  deriving DecidableEq, Repr

/-- A block in flight (R15, "Fibres, frames and the run queue"). -/
structure Frame where
  seq : Nat
  addr : Word
  /-- the header and chunks have been fetched -/
  fetched : Bool
  ser : Bool
  dbg : Bool
  stmask : BitVec 32
  gw : BitVec 64
  vw : BitVec 32
  words : List Word
  /-- operand slots: key 4K is `.l`, 4K+1 `.r`, 4K+2 `.p` of nK, 4K+3 its `xop` -/
  slots : Dict Token
  fired : List Nat
  /-- fired instructions whose result has not come back -/
  owed : List Nat
  /-- instructions that are performed only in a block without a recorded fault (R26, R184, R204, R246): fired
  accesses of R26, and operations whose operands have passed their checks in a block that holds a fault -/
  late : List Nat
  /-- LSIDs of STMASK that have produced a value or a null -/
  produced : BitVec 32
  serPos : Nat
  /-- indices of a stepped serial block whose turn has passed and that may still fire (R184, R249) -/
  passed : List Nat
  faults : List Recorded
  gout : Dict Token
  vout : Dict Token
  exits : List Exit
  cmds : List Command
  /-- values of `swr` instructions: index, register number, value -/
  swrs : List (Nat × Nat × Word)
  flags : BitVec 5
  /-- states left by SR conversions: index, state (R270) -/
  srng : List (Nat × Word)
  /-- the successor the predictor guessed -/
  guess : Option Word
  /-- the guess was popped from the return stack (R62) -/
  popped : Bool
  /-- an operation of R204 has been performed, or the commit has begun -/
  inCommit : Bool
  /-- the block waits for a region slot or for the answer to its rgn.end -/
  waiting : Bool
  deriving DecidableEq, Repr

/-- What a fibre is parked on (R31, PKIND of R251). -/
inductive Park where
  | none
  | reg (n : Nat)
  | bar (b : Nat) (arrive : Bool)
  | evt (e : Nat) (value : Word)
  | yield
  deriving DecidableEq, Repr

/-- A bank of trap registers (R240). -/
structure Bank where
  tvec : Word
  tcause : Word
  tblock : Word
  tidx : Word
  taddr : Word
  tstat : Word
  tscratch : Word
  deriving DecidableEq, Repr

/-- The translation and range registers of a context (R115, R245) and a level. -/
structure Xlate where
  level : Level
  xroot : Word
  xown : Word
  xkeys : Word
  ncbase : List Word
  nclim : List Word
  deriving DecidableEq, Repr

/-- The registers that `rgn.beg` keeps (R178). -/
structure Snapshot where
  g : Vector Word 64
  v : Vector Vec 32
  vtag : Vector (BitVec 3) 32
  deriving DecidableEq, Repr

/-- The class of a location after translation (R111, R102). -/
inductive Space where
  | hbm | cell | hostCoh | hostNc
  deriving DecidableEq, Repr

/-- A location: cell memory has address cell * 2^20 + offset. -/
structure Loc where
  space : Space
  addr : Nat
  key : Nat
  ca : Bool
  /-- the address matches a range register (R116) -/
  declared : Bool
  deriving DecidableEq, Repr

/-- How far a piece of an access has come. -/
inductive Stage where
  /-- not yet performed -/
  | held
  /-- taken by its home; the sharers' acknowledgements are awaited (R119) -/
  | atHome
  /-- stalled at its home by R169, with the count of slots that had become FREE then -/
  | stalled (freed : Nat)
  /-- waiting for the answer to its edge request (R164) -/
  | edges
  /-- performed -/
  | done
  deriving DecidableEq, Repr

/-- A part of an access that is performed as one (R56, R133). -/
structure Piece where
  loc : Loc
  va : Word
  /-- the place of its bytes in the access's value -/
  pos : Nat
  /-- bytes to write, or bytes read -/
  data : List Byte
  n : Nat
  stage : Stage
  /-- it has read a byte marked uncorrectable (R297) -/
  bad : Bool
  deriving DecidableEq, Repr

/-- A memory instruction that has fired, until it has been performed (R27, R147). -/
structure Access where
  fid : Nat
  seq : Nat
  lsid : Nat
  idx : Nat
  ins : Instr
  pieces : List Piece
  opr : Word
  opx : Word
  tag : BitVec 3
  /-- the registers under which it was translated, and the cell that it came from (R114, R135, R242) -/
  xl : Xlate
  cell : Nat
  /-- it stands inside a region (R162) -/
  inside : Bool
  /-- the region it belongs to, once it is on its way: slot and grant count (R173) -/
  rgn : Option (Nat × Nat)
  /-- its block has committed (R24) -/
  released : Bool
  /-- its result has been sent, or it has none -/
  replied : Bool
  /-- its cell has the acknowledgement (R147); a cache operation has been performed -/
  acked : Bool
  /-- a store of a held block whose translation a `tlbinv` has dropped (R114, R249) -/
  stale : Bool
  /-- a store that holds a poisoned value, or a load that took a byte of one (R13) -/
  poison : Bool
  /-- the value that an atomic read -/
  old : Word
  deriving DecidableEq, Repr

/-- A fibre (R185, R251). -/
structure Fibre where
  gid : Nat
  /-- its launch -/
  lid : Nat
  /-- s.group (R251) -/
  grp : Word
  /-- the member number of its cell, or of its core's member 0 (R103) -/
  member : Nat
  /-- s.fibre: the index in the cell or core -/
  idx : Nat
  level : Level
  g : Vector Word 64
  v : Vector Vec 32
  vtag : Vector (BitVec 3) 32
  gpend : BitVec 64
  vpend : BitVec 32
  bankA : Bank
  bankS : Bank
  bankM : Bank
  fcsr : Word
  srng : Word
  rgnh : Word
  stepReg : Word
  sdeleg : Word
  mdeleg : Word
  xroot : Word
  xown : Word
  xkeys : Word
  ncbase : Vector Word 16
  nclim : Vector Word 16
  next : Option Word
  nextSeq : Nat
  /-- blocks in flight, oldest first -/
  frames : List Frame
  /-- the held block of R249 -/
  held : Option Frame
  /-- the accesses of the held block that have not been performed (R27) -/
  heldAccesses : Dict Access
  /-- the return stack as the committed blocks leave it, newest entry first -/
  ras : List Word
  park : Park
  /-- fibres of the cell that must have a frame before this one after `yield`, and the frames left -/
  yieldFor : List Nat
  yieldLeft : Nat
  halted : Bool
  /-- the open region: slot and grant count -/
  rgn : Option (Nat × Nat)
  /-- a region that STEP or BRK left open while its handler runs: slot, grant, and how many traps are
  still to be returned from before it goes on (R175) -/
  rgnKept : Option (Nat × Nat × Nat)
  snap : Option Snapshot
  rgnCause : BitVec 6
  lastc : Nat
  /-- an answer of the Virga unit not yet applied: 0 committed, else the cause -/
  answer : Option Nat
  /-- a trap has asked for the abort of the region and waits for its answer (R175) -/
  rgnTrap : Bool
  /-- no fetch until the cinv accesses up to this order number have been performed (R137) -/
  fetchHold : Option Nat
  /-- a cinv that no later fence has yet followed has committed (R137) -/
  sawCinv : Bool
  /-- RING_TIMEOUT is to be recorded against the next block fetched (R280) -/
  ringFault : Bool
  deriving DecidableEq, Repr

/-- A leaf that a TLB holds (R108, R112). -/
structure TlbEntry where
  asn : Nat
  vpage : Nat
  shift : Nat
  leaf : Word
  deriving DecidableEq, Repr

/-- A line of an L1 (R118): 128 bytes, valid bits of its two halves, and whether the directory
tracks it. -/
structure L1Line where
  data : List Byte
  lo : Bool
  hi : Bool
  key : Nat
  tracked : Bool
  deriving DecidableEq, Repr

/-- A line of the last-level cache (R111, R120). -/
structure LlcLine where
  data : List Byte
  /-- the bytes written since it was fetched or written back -/
  dirty : BitVec 128
  key : Nat
  deriving DecidableEq, Repr

/-- A write that its home has taken and not performed (R119). -/
structure HomeWrite where
  oid : Nat
  piece : Nat
  /-- sharers whose acknowledgement is awaited -/
  waits : List Nat
  /-- sharers that have dropped the line -/
  dropped : List Nat
  /-- back-invalidation of the host is awaited (R126) -/
  host : Bool
  /-- a host write of 64 bytes, when the write is not an access (R126) -/
  hostData : Option Vec
  deriving DecidableEq, Repr

/-- The states of a half at its bridge (R122). -/
inductive HalfState where
  | i | s | e | m | o
  deriving DecidableEq, Repr

/-- A half of a host-coherent line at its bridge (R122 to R125). -/
structure Half where
  st : HalfState
  data : List Byte
  /-- a request in flight: false shared, true for ownership -/
  pend : Option Bool
  deriving DecidableEq, Repr

/-- Parsed copy descriptor (R220). -/
structure Desc where
  src : Word
  dst : Word
  run : Nat
  /-- levels from 1 outward: count, source stride, destination stride -/
  levels : List (Nat × Word × Word)
  marks : Bool
  keepTag : Bool
  scale : Bool
  bbar : Word
  deriving DecidableEq, Repr

/-- A command of a copy engine (R225). -/
inductive CopyKind where
  | copy | copyQ | init
  deriving DecidableEq, Repr

/-- A `cpy`, `cpy.q` or `bbar.init` that has been handed over. -/
structure CopyCmd where
  id : Nat
  kind : CopyKind
  fid : Nat
  sreg : Nat
  addr : Word
  expect : Word
  xl : Xlate
  /-- accesses of the fibre up to this block are covered by the hand-over (R157) -/
  upTo : Nat
  desc : Option Desc
  started : Bool
  /-- landed prefix of the stream, and bytes added to the barrier -/
  pos : Nat
  added : Nat
  /-- bytes of the stream after `pos` that have been read and not landed -/
  buf : List Byte
  /-- the stamp that each of them gives, by its source's format when it was read (R223) -/
  fmts : List (BitVec 4)
  /-- granules that this copy has stamped, by cell * 256 + granule (R223) -/
  stamped : List Nat
  /-- the prefix that the marks taken by the node show to have landed (R319) -/
  told : Nat
  /-- the cause the copy stopped with, 0 for none -/
  stop : Option Nat
  /-- a mark owed to the node before the copy goes on (R224) -/
  markDue : Bool
  deriving DecidableEq, Repr

/-- A `bbar.wait` that is not met (R232). -/
structure WaitCmd where
  id : Nat
  fid : Nat
  sreg : Nat
  addr : Word
  deriving DecidableEq, Repr

/-- An end-of-dimension mark (R224). -/
structure Mark where
  cmd : Nat
  level : Nat
  dest : Word
  /-- the place in the copy's stream at which it was emitted -/
  pos : Nat
  deriving DecidableEq, Repr

/-- A matrix command that has been handed over (R272). -/
structure NodeCmd where
  id : Nat
  fid : Nat
  ins : Instr
  a : Word
  b : Word
  xl : Xlate
  upTo : Nat
  started : Bool
  /-- the tags of A and B when the command reached the head (R274) -/
  ta : Nat
  tb : Nat
  /-- k-groups applied, or bytes landed -/
  pos : Nat
  /-- bytes that an `mld` has read -/
  buf : List Byte
  stop : Option Nat
  deriving DecidableEq, Repr

/-- A ring in progress at one member (R257, R279 to R281). -/
structure Ring where
  /-- time at which the member reached the exchange or the hand-over -/
  since : Nat
  /-- the exchange has succeeded -/
  started : Bool
  step : Nat
  /-- the B tag that the members agreed on -/
  tag : Nat
  /-- the latch: B's elements and scales, none while it has to be reloaded after a resume (R281) -/
  latch : Option (List Byte × List Byte)
  /-- the tile of the step has been handed on -/
  given : Bool
  /-- the tile offered to the right neighbour, while it has not been taken -/
  offer : Option (List Byte × List Byte)
  /-- this member stops the ring, with this cause (R280) -/
  stop : Option Nat
  deriving DecidableEq, Repr

/-- The matrix node of a cell (R272): tiles at key tile * 4096 + 64 i + j, zero where not listed. -/
structure Node where
  tiles : Dict (BitVec 32)
  queue : List NodeCmd
  marks : List Mark
  ring : Option Ring
  /-- rings this member has taken to its head since placement (R279) -/
  rounds : Nat
  /-- the rings, by that count and their n, that ended at the exchange because a member was late (R280) -/
  late : List (Nat × Nat)
  /-- the cell has received a matrix command since placement (R251) -/
  used : Bool
  deriving DecidableEq, Repr

/-- A cell. -/
structure CellSt where
  last : Nat
  evsel : Vector Word 8
  evcnt : Vector Word 8
  tlb : List TlbEntry
  l1 : Dict L1Line
  /-- instruction cache, by line * 64 + key -/
  icache : Dict (List Byte)
  copies : List CopyCmd
  waits : List WaitCmd
  node : Node
  gated : Bool
  idleSince : Nat
  deriving DecidableEq, Repr

/-- A barrier (R205): phase counts from P on, and each fibre's next phase. -/
structure Barrier where
  count : Nat
  limit : Nat
  phase : Nat
  arrivals : List Nat
  next : Dict Nat
  deriving DecidableEq, Repr

/-- Where a group stands (R194, R250, R254, R259). -/
inductive GroupState where
  | queued | running | saved | debug | lost
  /-- lost, and its die's sequence has ended while no die could take it (R259) -/
  | adrift
  | halted
  deriving DecidableEq, Repr

/-- A group of a launch (R185). -/
structure Group where
  lid : Nat
  num : Nat
  die : Nat
  x0 : Nat
  y0 : Nat
  state : GroupState
  /-- order in which it joined its level -/
  stamp : Nat
  /-- when it joined the queue, became its head (R196), or was placed -/
  since : Nat
  /-- the owner has asked for a debug hold (R254) -/
  hold : Bool
  /-- its pre-emption has been asked for: no block of it is fetched (R250, step 1) -/
  stopping : Bool
  bars : Dict Barrier
  /-- saved cell memory by member and offset, tags and poison marks, while saved -/
  mem : Mem
  tags : Dict (BitVec 4)
  poison : List Nat
  /-- saved cells by member: engines, node and selectors -/
  cells : Dict CellSt
  /-- the save area, while there is one: whether it lies in the spill area, and its bytes (R252) -/
  area : Option (Bool × Nat)
  /-- places of the save area where a debugger has left a reserved field nonzero (R254) -/
  rsv : List Nat
  deriving DecidableEq, Repr

/-- A launch (R188 to R198). -/
structure Launch where
  win : Nat
  seq : Nat
  /-- the 31 doublewords copied, +0 to +240 -/
  record : List Word
  hdr : List Word
  ctx : List Word
  /-- enabled waits not yet met -/
  unmet : List Nat
  started : Bool
  /-- dies whose segments have still to take the launch's groups into their queues, since it started (R193, R194) -/
  joining : List Nat
  /-- when it started, in the order of starts -/
  stamp : Nat
  /-- it is being cancelled; whether its completion event is signalled (R202) -/
  cancel : Option Bool
  /-- full ageing periods counted, and when the period that runs began (R195) -/
  ages : Nat
  agedAt : Nat
  /-- the dies of R193 under the map at acceptance -/
  order : List Nat
  /-- physical address, key, class of the mailbox (R198) -/
  mbox : Option Loc
  /-- where the rings of its queues lie: queue, physical address, bytes (R210) -/
  rings : List (Nat × Nat × Nat)
  reported : List Nat
  retired : Bool
  deriving DecidableEq, Repr

/-- Where an instruction stands: fibre, block sequence number, index. -/
structure Cursor where
  fid : Nat
  seq : Nat
  k : Nat
  deriving DecidableEq, Repr

/-- A record that a segment is taking (R188): where its slot is, its sequence number and go word, the bytes copied so
far, and whether E has advanced. -/
structure Taking where
  slot : Nat
  seq : Nat
  go : Word
  bytes : List Byte
  advanced : Bool
  /-- the bytes of its entry of the context table, once they have been read (R190) -/
  ctx : List Byte
  /-- the bytes of its kernel header read so far (R318) -/
  hdr : List Byte
  /-- the `launch` that waits for its STATUS word (R211) -/
  whose : Option Cursor
  deriving DecidableEq, Repr

/-- A change of a map of R192. -/
inductive MapChange where
  /-- the owner has written a map -/
  | write (p : Nat) (value : Word)
  /-- the weight of a die becomes 0 (R295, step 1) -/
  | drop (die : Nat)
  /-- the former weight of a die comes back (R295, step 7) -/
  | restore (die : Nat)
  deriving DecidableEq, Repr

/-- A work queue (R210). -/
structure Queue where
  lid : Nat
  items : List Word
  /-- how many items at the head were in the ring when a program last wrote into it (R210) -/
  damaged : Nat
  deriving DecidableEq, Repr

/-- The states of a region slot (R163); FREE slots are not listed. -/
inductive SlotState where
  | opened | ended | committing | aborting
  deriving DecidableEq, Repr

/-- A region slot in use (R162, R168). -/
structure Slot where
  state : SlotState
  grant : Nat
  fid : Nat
  /-- predecessors, each with its forward flag -/
  preds : List (Nat × Bool)
  /-- since when some dependant has been ENDED without a break (R174) -/
  waitedSince : Option Nat
  tookForward : Bool
  deriving DecidableEq, Repr

/-- A version of a line (R164): the region's slot, the key of its accesses, its bytes by offset, and the launches and
queues whose rings they lie in (R210). -/
structure Version where
  slot : Nat
  key : Nat
  bytes : Dict Byte
  rings : List (Nat × Nat)
  deriving DecidableEq, Repr

/-- The region state of a line (R164): versions in version order, and the slots with a read mark. -/
structure LineRgn where
  versions : List Version
  marks : List Nat
  deriving DecidableEq, Repr

/-- An edge request on its way to the Virga unit (R170): the access and piece that it is for. -/
structure EdgeReq where
  oid : Nat
  piece : Nat
  deriving DecidableEq, Repr

/-- The Virga unit. -/
structure Virga where
  slots : Dict Slot
  grants : Dict Nat
  asking : List Nat
  reach : List (Nat × Nat)
  requests : List EdgeReq
  /-- slots in COMMITTING, in the order in which they entered it (R171) -/
  commits : List Nat
  lines : Dict LineRgn
  /-- how often a slot has become FREE (R169) -/
  freed : Nat
  deriving DecidableEq, Repr

/-- The states of a die (R294). -/
inductive DieState where
  | live | draining | fenced | resetting | testing | ready | failed
  deriving DecidableEq, Repr

/-- A die and its sequence (R294, R295). -/
structure Die where
  state : DieState
  linkLoss : Bool
  resets : Nat
  bist : Nat
  cec : Nat
  /-- DIECTL OP of the sequence that runs, 0 for none -/
  op : Nat
  /-- SAVE of that sequence -/
  save : Bool
  /-- its weight before the sequence: partition, weight -/
  former : Option (Nat × Nat)
  linkUp : Bool
  /-- failed replays of the beat that is being replayed, from the die and to it (R289) -/
  replays : Nat
  replaysIn : Nat
  deriving DecidableEq, Repr

/-- Credits of a channel of a link (R291, R292). -/
structure Credit where
  have_ : Nat
  auditedAt : Nat
  regrants : Nat
  /-- credits whose returns have been dropped since the last audit -/
  lost : Nat
  deriving DecidableEq, Repr

/-- An SPDM session of a port (R306). -/
structure Session where
  versionDone : Bool
  capsDone : Bool
  algsDone : Bool
  keyData : Option Word
  secure : Bool
  rekeys : Nat
  transcript : List Word
  deriving DecidableEq, Repr

/-- A message to the outside. -/
inductive OutMsg where
  | msix (port vector : Nat)
  | snoopReply (half : Nat) (kind : String) (data : List Byte)
  | hostData (half : Nat) (data : List Byte) (poisoned : Bool)
  | cmp (half : Nat)
  | request (half : Nat) (kind : String)
  | backInv (half : Nat) (kind : String)
  | writeBack (half : Nat) (data : List Byte)
  | spdm (port : Nat) (kind : String) (body : List Word)
  | debugData (value : Word)
  | dieDown (code : Nat)
  | atomicReply (addr : Nat) (old : Word) (poisoned : Bool)
  deriving DecidableEq, Repr

/-- What the outside world does to the machine. -/
inductive Input where
  /-- an event of the opcode table -/
  | ev (i : Instr)
  /-- a host writes 64 bytes of its own memory (R148) -/
  | hostStore (half : Nat) (data : Vec)
  /-- a host's AtomicOp to device memory (R127): 0 FetchAdd, 1 Swap, 2 CAS; bytes; operands -/
  | hostAtomic (addr op width : Nat) (a b : Word)
  /-- a driver programs an HDM range (R126) -/
  | hdmRange (base size : Nat)
  /-- a port's partner: its rate in GT/s, 0 for none (R127) -/
  | partner (port rate : Nat)
  /-- power is removed and comes back (R304) -/
  | powerCycle
  deriving DecidableEq, Repr

/-- An action that the machine may take next: an instruction of a frame fires, or an event. -/
inductive Act where
  | fire (fid seq k : Nat)
  | ev (i : Instr)
  | outside (x : Input)
  deriving DecidableEq, Repr

/-- The state of the machine. -/
structure State where
  /-- the time base of R247, units of 0.5 ns -/
  time : Nat
  /-- the model's counter for free values -/
  tick : Nat
  /-- the model's: where the acting instruction stands -/
  cur : Option Cursor
  /-- the model's: an action already chosen -/
  turn : Option Act
  /-- the model's: how many actions have been chosen -/
  steps : Nat
  /-- the model's: what the present round of the choice has still to take -/
  round : List Act
  /-- inputs from outside that wait, oldest first -/
  inputs : List Input
  /-- messages sent to the outside, oldest first -/
  out : List OutMsg
  /-- HBM and host memory, by physical address -/
  mem : Mem
  /-- key at rest of a line of HBM, 0 where not listed -/
  lineKey : Dict Nat
  /-- lines marked poisoned (R297) -/
  badLines : List Nat
  llc : Dict LlcLine
  /-- cell memory, by cell * 2^20 + offset -/
  cmem : Mem
  /-- granule tags by cell * 256 + granule; RAW (7) where not listed -/
  gtag : Dict (BitVec 4)
  /-- 64-byte chunks of cell memory marked poisoned -/
  badChunks : List Nat
  sharers : Dict (List Nat)
  homeQ : Dict HomeWrite
  /-- what the host may hold of a half of device memory: false shared, true any (R126) -/
  hdm : Dict Bool
  /-- HDM ranges that the driver has programmed: base and size (R126) -/
  hdmRanges : List (Nat × Nat)
  /-- back-invalidations that await BIRspI: false BISnpData, true BISnpInv (R126) -/
  snoops : Dict Bool
  halves : Dict Half
  tlb2 : Dict (List TlbEntry)
  cells : Dict CellSt
  fibres : Dict Fibre
  nextFid : Nat
  accesses : Dict Access
  nextId : Nat
  groups : Dict Group
  nextGid : Nat
  launches : Dict Launch
  /-- expected sequence number of each window, 1 where not listed -/
  expect : Dict Nat
  /-- records that are being taken, by window (R188) -/
  taking : Dict Taking
  /-- changes of a map that wait until no record is being taken, oldest first (R192) -/
  changes : List MapChange
  /-- the launch for whose end GO of LCANCEL reads 1 (R202) -/
  cancelling : Option Nat
  events : Dict Word
  queues : Dict Queue
  virga : Virga
  dies : Dict Die
  credits : Dict Credit
  /-- controller registers by offset; values at reset where not listed -/
  ctl : Dict Word
  keys : Dict Vec
  ideKeys : Dict Vec
  sessions : Dict Session
  /-- the image in flash verifies; its version; the fused minimum version -/
  flashGood : Bool
  imageVer : BitVec 32
  /-- the digest of the image in flash, and of the image that runs (R302, R306) -/
  image : Vec
  runImage : Vec
  /-- the result of a recovery that waits for a sequence to end (R305) -/
  recovery : Option Nat
  /-- rates that the ports' partners allow, in GT/s: 64 where not listed; and the ports that have trained, with
  their rates (R127, R302) -/
  partners : Dict Nat
  ports : Dict Nat
  /-- stacks that the start has left untrained (R304) -/
  untrained : BitVec 32
  fusedMin : BitVec 32
  /-- STARTCFG as flash holds it -/
  flashCfg : Word
  /-- the watchdog of the start sequence runs from this time -/
  startedAt : Nat
  /-- when the owner's lease was last set -/
  leaseAt : Nat
  /-- the module stops accepting launches (R297) -/
  closed : Bool
  deriving DecidableEq, Repr

/-- An idle node (R186). -/
def Node.init : Node := { tiles := [], queue := [], marks := [], ring := none, rounds := 0, late := [], used := false }

/-- A cell before its first placement: the grant pointer is 63 (R29). -/
def CellSt.init : CellSt :=
  { last := 63, evsel := Vector.replicate 8 0, evcnt := Vector.replicate 8 0, tlb := [], l1 := []
    icache := [], copies := [], waits := [], node := Node.init, gated := false, idleSince := 0 }

/-- A Virga unit with every slot FREE. -/
def Virga.init : Virga :=
  { slots := [], grants := [], asking := [], reach := [], requests := [], commits := []
    lines := [], freed := 0 }

/-- A die right after reset (R294). -/
def Die.init : Die :=
  { state := .live, linkLoss := false, resets := 0, bist := 0, cec := 0, op := 0, save := false, former := none
    linkUp := true, replays := 0, replaysIn := 0 }

/-- The machine right after reset: the start sequence has run no phase (R302, R303). -/
def State.reset : State :=
  { time := 0, tick := 0, cur := none, turn := none, steps := 0, round := [], inputs := [], out := [], mem := [], lineKey := []
    badLines := [], llc := [], cmem := [], gtag := [], badChunks := [], sharers := [], homeQ := []
    hdm := [], hdmRanges := [], snoops := [], halves := [], tlb2 := [], cells := [], fibres := [], nextFid := 0, accesses := []
    nextId := 0, groups := [], nextGid := 0, launches := [], expect := [], taking := [], changes := [], cancelling := none, events := [], queues := []
    virga := Virga.init, dies := [], credits := [], ctl := [], keys := [], ideKeys := []
    sessions := [], flashGood := true, imageVer := 0, image := 0, runImage := 0
    recovery := none, partners := [], ports := [], untrained := 0, fusedMin := 0, flashCfg := 4, startedAt := 0
    leaseAt := 0, closed := false }

end Sys2Proof.Machine
end

