-- ==== Sys2Proof/Machine/Shape.lean ====
section
/-! DEFINITION. What R38 says of each instruction beside its effect: its predicate, its operand slots
and their widths, its targets, its LSID and its kind. -/

namespace Sys2Proof.Machine

/-- The width of an operand slot (R38): absent, 64 bits, 512 bits, or either. -/
inductive SlotW where
  | none | w64 | v512 | any
  deriving DecidableEq, Repr

/-- The slots of an instruction, its third operand slot in an `xop` included (R38, R40). -/
structure Slots where
  l : SlotW
  r : SlotW
  x : SlotW
  deriving DecidableEq, Repr

/-- The width of a float operand (R38, R82). -/
def Ty.slot : Ty → SlotW
  | .s | .d => .w64
  | .vs | .vd => .v512

/-- The predicate field (R34); events have none. -/
def predOf : Instr → Pred
  | .read pr _ _ _ => pr
  | .vread pr _ _ _ => pr
  | .write pr _ => pr
  | .vwrite pr _ => pr
  | .mov pr _ _ => pr
  | .mov3 pr _ _ _ => pr
  | .mov4 pr _ _ _ _ => pr
  | .genc pr _ _ _ => pr
  | .genh pr _ _ _ => pr
  | .null pr _ _ _ _ => pr
  | .br pr _ _ => pr
  | .bri pr _ => pr
  | .call pr _ _ => pr
  | .calli pr _ => pr
  | .ret pr _ => pr
  | .halt pr _ => pr
  | .scall pr _ => pr
  | .trap pr _ => pr
  | .brk pr _ => pr
  | .add pr _ _ => pr
  | .sub pr _ _ => pr
  | .mul pr _ _ => pr
  | .mulh pr _ _ => pr
  | .mulhu pr _ _ => pr
  | .div pr _ _ => pr
  | .divu pr _ _ => pr
  | .rem pr _ _ => pr
  | .remu pr _ _ => pr
  | .and pr _ _ => pr
  | .or pr _ _ => pr
  | .xor pr _ _ => pr
  | .andn pr _ _ => pr
  | .shl pr _ _ => pr
  | .shr pr _ _ => pr
  | .sar pr _ _ => pr
  | .rotl pr _ _ => pr
  | .clz pr _ _ => pr
  | .ctz pr _ _ => pr
  | .popc pr _ _ => pr
  | .sext pr _ _ _ => pr
  | .zext pr _ _ _ => pr
  | .min pr _ _ => pr
  | .max pr _ _ => pr
  | .minu pr _ _ => pr
  | .maxu pr _ _ => pr
  | .bfx pr _ _ _ => pr
  | .bfxu pr _ _ _ => pr
  | .bfi pr _ _ _ => pr
  | .lea pr _ _ _ => pr
  | .sel pr _ _ => pr
  | .addi pr _ _ => pr
  | .muli pr _ _ => pr
  | .andi pr _ _ => pr
  | .ori pr _ _ => pr
  | .xori pr _ _ => pr
  | .shli pr _ _ => pr
  | .shri pr _ _ => pr
  | .sari pr _ _ => pr
  | .teq pr _ _ => pr
  | .tne pr _ _ => pr
  | .tlt pr _ _ => pr
  | .tle pr _ _ => pr
  | .tltu pr _ _ => pr
  | .tleu pr _ _ => pr
  | .tnz pr _ _ => pr
  | .teqi pr _ _ => pr
  | .tnei pr _ _ => pr
  | .tlti pr _ _ => pr
  | .tlei pr _ _ => pr
  | .tltui pr _ _ => pr
  | .tleui pr _ _ => pr
  | .fadd pr _ _ _ => pr
  | .fsub pr _ _ _ => pr
  | .fmul pr _ _ _ => pr
  | .ffma pr _ _ _ => pr
  | .fdiv pr _ _ _ => pr
  | .fsqrt pr _ _ _ => pr
  | .fmin pr _ _ _ => pr
  | .fmax pr _ _ _ => pr
  | .fabs pr _ _ _ => pr
  | .fneg pr _ _ _ => pr
  | .fsgnj pr _ _ _ => pr
  | .feq pr _ _ _ => pr
  | .flt pr _ _ _ => pr
  | .fle pr _ _ _ => pr
  | .fclass pr _ _ _ => pr
  | .fcvt pr _ _ _ _ => pr
  | .vbcast pr _ _ _ => pr
  | .vext pr _ _ _ => pr
  | .vins pr _ _ _ => pr
  | .vperm pr _ _ _ => pr
  | .vshl pr _ _ _ => pr
  | .vred pr _ _ _ _ => pr
  | .vsel pr _ _ _ => pr
  | .vcmp pr _ _ _ _ => pr
  | .viota pr _ _ _ => pr
  | .vcnt pr _ _ _ => pr
  | .ldB pr _ _ _ => pr
  | .ldBu pr _ _ _ => pr
  | .ldH pr _ _ _ => pr
  | .ldHu pr _ _ _ => pr
  | .ldW pr _ _ _ => pr
  | .ldWu pr _ _ _ => pr
  | .ldD pr _ _ _ => pr
  | .vld pr _ _ _ _ => pr
  | .vgather pr _ _ _ _ => pr
  | .pf pr _ _ => pr
  | .cinv pr _ => pr
  | .cwb pr _ => pr
  | .stB pr _ => pr
  | .stH pr _ => pr
  | .stW pr _ => pr
  | .stD pr _ => pr
  | .vst pr _ => pr
  | .vscatter pr _ _ => pr
  | .fence pr _ _ _ => pr
  | .amoAdd pr _ _ _ _ => pr
  | .amoAnd pr _ _ _ _ => pr
  | .amoOr pr _ _ _ _ => pr
  | .amoXor pr _ _ _ _ => pr
  | .amoMin pr _ _ _ _ => pr
  | .amoMax pr _ _ _ _ => pr
  | .amoMinu pr _ _ _ _ => pr
  | .amoMaxu pr _ _ _ _ => pr
  | .amoSwap pr _ _ _ _ => pr
  | .amoCas pr _ _ _ _ => pr
  | .amoFadd pr _ _ _ => pr
  | .rgnBeg pr _ _ => pr
  | .rgnEnd pr => pr
  | .rgnAbt pr => pr
  | .rgnStat pr _ _ => pr
  | .barInit pr _ _ => pr
  | .barArr pr _ _ _ => pr
  | .barWait pr _ => pr
  | .evtSig pr _ => pr
  | .evtWait pr _ => pr
  | .wqGive pr _ _ _ => pr
  | .wqTake pr _ _ _ => pr
  | .wqSteal pr _ _ _ => pr
  | .launch pr _ _ => pr
  | .yield pr => pr
  | .cpy pr _ => pr
  | .cpyQ pr _ => pr
  | .bbarInit pr => pr
  | .bbarWait pr _ => pr
  | .mma pr _ _ _ => pr
  | .mmaSp pr _ _ _ => pr
  | .mring pr _ _ _ _ => pr
  | .mzero pr _ => pr
  | .mld pr _ _ => pr
  | .mst pr _ _ _ => pr
  | .cmtag pr _ _ => pr
  | .cvtN pr _ _ _ _ _ => pr
  | .cvtW pr _ _ _ => pr
  | .bscale pr _ _ => pr
  | .srd pr _ _ _ => pr
  | .swr pr _ => pr
  | .sret pr => pr
  | .tlbinv pr _ _ => pr
  | .cyc pr _ _ => pr
  | _ => .always

/-- The targets an instruction names (R36). -/
def targetsOf : Instr → List Target
  | .read _ _ t0 t1 => [t0, t1]
  | .vread _ _ t0 t1 => [t0, t1]
  | .mov _ t0 t1 => [t0, t1]
  | .mov3 _ t0 t1 t2 => [t0, t1, t2]
  | .mov4 _ t0 t1 t2 t3 => [t0, t1, t2, t3]
  | .genc _ _ t0 t1 => [t0, t1]
  | .genh _ _ t0 t1 => [t0, t1]
  | .null _ t0 t1 t2 t3 => [t0, t1, t2, t3]
  | .add _ t0 t1 => [t0, t1]
  | .sub _ t0 t1 => [t0, t1]
  | .mul _ t0 t1 => [t0, t1]
  | .mulh _ t0 t1 => [t0, t1]
  | .mulhu _ t0 t1 => [t0, t1]
  | .div _ t0 t1 => [t0, t1]
  | .divu _ t0 t1 => [t0, t1]
  | .rem _ t0 t1 => [t0, t1]
  | .remu _ t0 t1 => [t0, t1]
  | .and _ t0 t1 => [t0, t1]
  | .or _ t0 t1 => [t0, t1]
  | .xor _ t0 t1 => [t0, t1]
  | .andn _ t0 t1 => [t0, t1]
  | .shl _ t0 t1 => [t0, t1]
  | .shr _ t0 t1 => [t0, t1]
  | .sar _ t0 t1 => [t0, t1]
  | .rotl _ t0 t1 => [t0, t1]
  | .clz _ t0 t1 => [t0, t1]
  | .ctz _ t0 t1 => [t0, t1]
  | .popc _ t0 t1 => [t0, t1]
  | .sext _ _ t0 t1 => [t0, t1]
  | .zext _ _ t0 t1 => [t0, t1]
  | .min _ t0 t1 => [t0, t1]
  | .max _ t0 t1 => [t0, t1]
  | .minu _ t0 t1 => [t0, t1]
  | .maxu _ t0 t1 => [t0, t1]
  | .bfx _ _ _ t0 => [t0]
  | .bfxu _ _ _ t0 => [t0]
  | .bfi _ _ _ t0 => [t0]
  | .lea _ _ _ t0 => [t0]
  | .sel _ t0 t1 => [t0, t1]
  | .addi _ _ t0 => [t0]
  | .muli _ _ t0 => [t0]
  | .andi _ _ t0 => [t0]
  | .ori _ _ t0 => [t0]
  | .xori _ _ t0 => [t0]
  | .shli _ _ t0 => [t0]
  | .shri _ _ t0 => [t0]
  | .sari _ _ t0 => [t0]
  | .teq _ t0 t1 => [t0, t1]
  | .tne _ t0 t1 => [t0, t1]
  | .tlt _ t0 t1 => [t0, t1]
  | .tle _ t0 t1 => [t0, t1]
  | .tltu _ t0 t1 => [t0, t1]
  | .tleu _ t0 t1 => [t0, t1]
  | .tnz _ t0 t1 => [t0, t1]
  | .teqi _ _ t0 => [t0]
  | .tnei _ _ t0 => [t0]
  | .tlti _ _ t0 => [t0]
  | .tlei _ _ t0 => [t0]
  | .tltui _ _ t0 => [t0]
  | .tleui _ _ t0 => [t0]
  | .fadd _ _ t0 t1 => [t0, t1]
  | .fsub _ _ t0 t1 => [t0, t1]
  | .fmul _ _ t0 t1 => [t0, t1]
  | .ffma _ _ t0 t1 => [t0, t1]
  | .fdiv _ _ t0 t1 => [t0, t1]
  | .fsqrt _ _ t0 t1 => [t0, t1]
  | .fmin _ _ t0 t1 => [t0, t1]
  | .fmax _ _ t0 t1 => [t0, t1]
  | .fabs _ _ t0 t1 => [t0, t1]
  | .fneg _ _ t0 t1 => [t0, t1]
  | .fsgnj _ _ t0 t1 => [t0, t1]
  | .feq _ _ t0 t1 => [t0, t1]
  | .flt _ _ t0 t1 => [t0, t1]
  | .fle _ _ t0 t1 => [t0, t1]
  | .fclass _ _ t0 t1 => [t0, t1]
  | .fcvt _ _ _ t0 t1 => [t0, t1]
  | .vbcast _ _ t0 t1 => [t0, t1]
  | .vext _ _ _ t0 => [t0]
  | .vins _ _ _ t0 => [t0]
  | .vperm _ _ t0 t1 => [t0, t1]
  | .vshl _ _ t0 t1 => [t0, t1]
  | .vred _ _ _ t0 t1 => [t0, t1]
  | .vsel _ _ t0 t1 => [t0, t1]
  | .vcmp _ _ _ t0 t1 => [t0, t1]
  | .viota _ _ t0 t1 => [t0, t1]
  | .vcnt _ _ t0 t1 => [t0, t1]
  | .ldB _ _ t0 t1 => [t0, t1]
  | .ldBu _ _ t0 t1 => [t0, t1]
  | .ldH _ _ t0 t1 => [t0, t1]
  | .ldHu _ _ t0 t1 => [t0, t1]
  | .ldW _ _ t0 t1 => [t0, t1]
  | .ldWu _ _ t0 t1 => [t0, t1]
  | .ldD _ _ t0 t1 => [t0, t1]
  | .vld _ _ _ t0 t1 => [t0, t1]
  | .vgather _ _ _ t0 t1 => [t0, t1]
  | .amoAdd _ _ _ t0 t1 => [t0, t1]
  | .amoAnd _ _ _ t0 t1 => [t0, t1]
  | .amoOr _ _ _ t0 t1 => [t0, t1]
  | .amoXor _ _ _ t0 t1 => [t0, t1]
  | .amoMin _ _ _ t0 t1 => [t0, t1]
  | .amoMax _ _ _ t0 t1 => [t0, t1]
  | .amoMinu _ _ _ t0 t1 => [t0, t1]
  | .amoMaxu _ _ _ t0 t1 => [t0, t1]
  | .amoSwap _ _ _ t0 t1 => [t0, t1]
  | .amoCas _ _ _ t0 t1 => [t0, t1]
  | .amoFadd _ _ t0 t1 => [t0, t1]
  | .rgnStat _ t0 t1 => [t0, t1]
  | .barArr _ _ t0 t1 => [t0, t1]
  | .wqGive _ _ t0 t1 => [t0, t1]
  | .wqTake _ _ t0 t1 => [t0, t1]
  | .wqSteal _ _ t0 t1 => [t0, t1]
  | .launch _ t0 t1 => [t0, t1]
  | .cvtN _ _ _ _ t0 t1 => [t0, t1]
  | .cvtW _ _ t0 t1 => [t0, t1]
  | .bscale _ t0 t1 => [t0, t1]
  | .srd _ _ t0 t1 => [t0, t1]
  | .cyc _ t0 t1 => [t0, t1]
  | _ => []

/-- The operand slots of each instruction (R38). -/
def slotsOf : Instr → Slots
  | .write _ _ => ⟨.w64, .none, .none⟩
  | .vwrite _ _ => ⟨.v512, .none, .none⟩
  | .mov _ _ _ => ⟨.any, .none, .none⟩
  | .mov3 _ _ _ _ => ⟨.any, .none, .none⟩
  | .mov4 _ _ _ _ _ => ⟨.any, .none, .none⟩
  | .genh _ _ _ _ => ⟨.w64, .none, .none⟩
  | .bri _ _ => ⟨.w64, .none, .none⟩
  | .calli _ _ => ⟨.w64, .none, .none⟩
  | .ret _ _ => ⟨.w64, .none, .none⟩
  | .add _ _ _ => ⟨.w64, .w64, .none⟩
  | .sub _ _ _ => ⟨.w64, .w64, .none⟩
  | .mul _ _ _ => ⟨.w64, .w64, .none⟩
  | .mulh _ _ _ => ⟨.w64, .w64, .none⟩
  | .mulhu _ _ _ => ⟨.w64, .w64, .none⟩
  | .div _ _ _ => ⟨.w64, .w64, .none⟩
  | .divu _ _ _ => ⟨.w64, .w64, .none⟩
  | .rem _ _ _ => ⟨.w64, .w64, .none⟩
  | .remu _ _ _ => ⟨.w64, .w64, .none⟩
  | .and _ _ _ => ⟨.w64, .w64, .none⟩
  | .or _ _ _ => ⟨.w64, .w64, .none⟩
  | .xor _ _ _ => ⟨.w64, .w64, .none⟩
  | .andn _ _ _ => ⟨.w64, .w64, .none⟩
  | .shl _ _ _ => ⟨.w64, .w64, .none⟩
  | .shr _ _ _ => ⟨.w64, .w64, .none⟩
  | .sar _ _ _ => ⟨.w64, .w64, .none⟩
  | .rotl _ _ _ => ⟨.w64, .w64, .none⟩
  | .clz _ _ _ => ⟨.w64, .none, .none⟩
  | .ctz _ _ _ => ⟨.w64, .none, .none⟩
  | .popc _ _ _ => ⟨.w64, .none, .none⟩
  | .sext _ _ _ _ => ⟨.w64, .none, .none⟩
  | .zext _ _ _ _ => ⟨.w64, .none, .none⟩
  | .min _ _ _ => ⟨.w64, .w64, .none⟩
  | .max _ _ _ => ⟨.w64, .w64, .none⟩
  | .minu _ _ _ => ⟨.w64, .w64, .none⟩
  | .maxu _ _ _ => ⟨.w64, .w64, .none⟩
  | .bfx _ _ _ _ => ⟨.w64, .none, .none⟩
  | .bfxu _ _ _ _ => ⟨.w64, .none, .none⟩
  | .bfi _ _ _ _ => ⟨.w64, .w64, .none⟩
  | .lea _ _ _ _ => ⟨.w64, .w64, .none⟩
  | .sel _ _ _ => ⟨.w64, .w64, .w64⟩
  | .addi _ _ _ => ⟨.w64, .none, .none⟩
  | .muli _ _ _ => ⟨.w64, .none, .none⟩
  | .andi _ _ _ => ⟨.w64, .none, .none⟩
  | .ori _ _ _ => ⟨.w64, .none, .none⟩
  | .xori _ _ _ => ⟨.w64, .none, .none⟩
  | .shli _ _ _ => ⟨.w64, .none, .none⟩
  | .shri _ _ _ => ⟨.w64, .none, .none⟩
  | .sari _ _ _ => ⟨.w64, .none, .none⟩
  | .teq _ _ _ => ⟨.w64, .w64, .none⟩
  | .tne _ _ _ => ⟨.w64, .w64, .none⟩
  | .tlt _ _ _ => ⟨.w64, .w64, .none⟩
  | .tle _ _ _ => ⟨.w64, .w64, .none⟩
  | .tltu _ _ _ => ⟨.w64, .w64, .none⟩
  | .tleu _ _ _ => ⟨.w64, .w64, .none⟩
  | .tnz _ _ _ => ⟨.w64, .none, .none⟩
  | .teqi _ _ _ => ⟨.w64, .none, .none⟩
  | .tnei _ _ _ => ⟨.w64, .none, .none⟩
  | .tlti _ _ _ => ⟨.w64, .none, .none⟩
  | .tlei _ _ _ => ⟨.w64, .none, .none⟩
  | .tltui _ _ _ => ⟨.w64, .none, .none⟩
  | .tleui _ _ _ => ⟨.w64, .none, .none⟩
  | .fadd _ ty _ _ => ⟨Ty.slot ty, Ty.slot ty, .none⟩
  | .fsub _ ty _ _ => ⟨Ty.slot ty, Ty.slot ty, .none⟩
  | .fmul _ ty _ _ => ⟨Ty.slot ty, Ty.slot ty, .none⟩
  | .ffma _ ty _ _ => ⟨Ty.slot ty, Ty.slot ty, Ty.slot ty⟩
  | .fdiv _ ty _ _ => ⟨Ty.slot ty, Ty.slot ty, .none⟩
  | .fsqrt _ ty _ _ => ⟨Ty.slot ty, .none, .none⟩
  | .fmin _ ty _ _ => ⟨Ty.slot ty, Ty.slot ty, .none⟩
  | .fmax _ ty _ _ => ⟨Ty.slot ty, Ty.slot ty, .none⟩
  | .fabs _ ty _ _ => ⟨Ty.slot ty, .none, .none⟩
  | .fneg _ ty _ _ => ⟨Ty.slot ty, .none, .none⟩
  | .fsgnj _ ty _ _ => ⟨Ty.slot ty, Ty.slot ty, .none⟩
  | .feq _ _ _ _ => ⟨.w64, .w64, .none⟩
  | .flt _ _ _ _ => ⟨.w64, .w64, .none⟩
  | .fle _ _ _ _ => ⟨.w64, .w64, .none⟩
  | .fclass _ _ _ _ => ⟨.w64, .none, .none⟩
  | .fcvt _ _ _ _ _ => ⟨.w64, .none, .none⟩
  | .vbcast _ _ _ _ => ⟨.w64, .none, .none⟩
  | .vext _ _ _ _ => ⟨.v512, .none, .none⟩
  | .vins _ _ _ _ => ⟨.v512, .w64, .none⟩
  | .vperm _ _ _ _ => ⟨.v512, .v512, .none⟩
  | .vshl _ _ _ _ => ⟨.v512, .w64, .none⟩
  | .vred _ _ _ _ _ => ⟨.v512, .none, .none⟩
  | .vsel _ _ _ _ => ⟨.v512, .v512, .w64⟩
  | .vcmp _ _ _ _ _ => ⟨.v512, .v512, .none⟩
  | .viota _ _ _ _ => ⟨.w64, .none, .none⟩
  | .vcnt _ _ _ _ => ⟨.v512, .none, .none⟩
  | .ldB _ _ _ _ => ⟨.w64, .none, .none⟩
  | .ldBu _ _ _ _ => ⟨.w64, .none, .none⟩
  | .ldH _ _ _ _ => ⟨.w64, .none, .none⟩
  | .ldHu _ _ _ _ => ⟨.w64, .none, .none⟩
  | .ldW _ _ _ _ => ⟨.w64, .none, .none⟩
  | .ldWu _ _ _ _ => ⟨.w64, .none, .none⟩
  | .ldD _ _ _ _ => ⟨.w64, .none, .none⟩
  | .vld _ _ _ _ _ => ⟨.w64, .none, .none⟩
  | .vgather _ _ _ _ _ => ⟨.w64, .v512, .none⟩
  | .pf _ _ _ => ⟨.w64, .none, .none⟩
  | .cinv _ _ => ⟨.w64, .w64, .none⟩
  | .cwb _ _ => ⟨.w64, .w64, .none⟩
  | .stB _ _ => ⟨.w64, .w64, .none⟩
  | .stH _ _ => ⟨.w64, .w64, .none⟩
  | .stW _ _ => ⟨.w64, .w64, .none⟩
  | .stD _ _ => ⟨.w64, .w64, .none⟩
  | .vst _ _ => ⟨.w64, .v512, .none⟩
  | .vscatter _ _ _ => ⟨.w64, .v512, .v512⟩
  | .amoAdd _ _ _ _ _ => ⟨.w64, .w64, .none⟩
  | .amoAnd _ _ _ _ _ => ⟨.w64, .w64, .none⟩
  | .amoOr _ _ _ _ _ => ⟨.w64, .w64, .none⟩
  | .amoXor _ _ _ _ _ => ⟨.w64, .w64, .none⟩
  | .amoMin _ _ _ _ _ => ⟨.w64, .w64, .none⟩
  | .amoMax _ _ _ _ _ => ⟨.w64, .w64, .none⟩
  | .amoMinu _ _ _ _ _ => ⟨.w64, .w64, .none⟩
  | .amoMaxu _ _ _ _ _ => ⟨.w64, .w64, .none⟩
  | .amoSwap _ _ _ _ _ => ⟨.w64, .w64, .none⟩
  | .amoCas _ _ _ _ _ => ⟨.w64, .w64, .w64⟩
  | .amoFadd _ _ _ _ => ⟨.w64, .w64, .none⟩
  | .barInit _ _ _ => ⟨.w64, .none, .none⟩
  | .barWait _ _ => ⟨.w64, .none, .none⟩
  | .evtSig _ _ => ⟨.w64, .w64, .none⟩
  | .evtWait _ _ => ⟨.w64, .w64, .none⟩
  | .wqGive _ _ _ _ => ⟨.w64, .w64, .none⟩
  | .wqTake _ _ _ _ => ⟨.w64, .none, .none⟩
  | .wqSteal _ _ _ _ => ⟨.w64, .none, .none⟩
  | .launch _ _ _ => ⟨.w64, .none, .none⟩
  | .cpy _ _ => ⟨.w64, .none, .none⟩
  | .cpyQ _ _ => ⟨.w64, .none, .none⟩
  | .bbarInit _ => ⟨.w64, .w64, .none⟩
  | .bbarWait _ _ => ⟨.w64, .none, .none⟩
  | .mma _ _ _ _ => ⟨.w64, .w64, .none⟩
  | .mmaSp _ _ _ _ => ⟨.w64, .w64, .none⟩
  | .mring _ _ _ _ _ => ⟨.w64, .w64, .none⟩
  | .mld _ _ _ => ⟨.w64, .none, .none⟩
  | .mst _ _ _ _ => ⟨.w64, .none, .none⟩
  | .cmtag _ _ _ => ⟨.w64, .w64, .none⟩
  | .cvtN _ _ _ _ _ _ => ⟨.v512, .none, .none⟩
  | .cvtW _ _ _ _ => ⟨.v512, .none, .none⟩
  | .bscale _ _ _ => ⟨.v512, .none, .none⟩
  | .swr _ _ => ⟨.w64, .none, .none⟩
  | .tlbinv _ _ _ => ⟨.w64, .none, .none⟩
  | _ => ⟨.none, .none, .none⟩

/-- The instructions whose third operand stands in an `xop` (R40). -/
def needsXop (i : Instr) : Bool := (slotsOf i).x != .none

/-- The LSID of a memory instruction (R41). -/
def lsidOf : Instr → Option Nat
  | .ldB _ m _ _ => some m.lsid.toNat
  | .ldBu _ m _ _ => some m.lsid.toNat
  | .ldH _ m _ _ => some m.lsid.toNat
  | .ldHu _ m _ _ => some m.lsid.toNat
  | .ldW _ m _ _ => some m.lsid.toNat
  | .ldWu _ m _ _ => some m.lsid.toNat
  | .ldD _ m _ _ => some m.lsid.toNat
  | .vld _ _ m _ _ => some m.lsid.toNat
  | .vgather _ _ m _ _ => some m.lsid.toNat
  | .pf _ lsid _ => some lsid.toNat
  | .cinv _ lsid => some lsid.toNat
  | .cwb _ lsid => some lsid.toNat
  | .stB _ m => some m.lsid.toNat
  | .stH _ m => some m.lsid.toNat
  | .stW _ m => some m.lsid.toNat
  | .stD _ m => some m.lsid.toNat
  | .vst _ m => some m.lsid.toNat
  | .vscatter _ _ m => some m.lsid.toNat
  | .fence _ lsid _ _ => some lsid.toNat
  | .amoAdd _ _ m _ _ => some m.lsid.toNat
  | .amoAnd _ _ m _ _ => some m.lsid.toNat
  | .amoOr _ _ m _ _ => some m.lsid.toNat
  | .amoXor _ _ m _ _ => some m.lsid.toNat
  | .amoMin _ _ m _ _ => some m.lsid.toNat
  | .amoMax _ _ m _ _ => some m.lsid.toNat
  | .amoMinu _ _ m _ _ => some m.lsid.toNat
  | .amoMaxu _ _ m _ _ => some m.lsid.toNat
  | .amoSwap _ _ m _ _ => some m.lsid.toNat
  | .amoCas _ _ m _ _ => some m.lsid.toNat
  | .amoFadd _ m _ _ => some m.lsid.toNat
  | _ => none

/-- The memory fields of an instruction that has them (R35). -/
def memOf : Instr → Option MemF
  | .ldB _ m _ _ => some m
  | .ldBu _ m _ _ => some m
  | .ldH _ m _ _ => some m
  | .ldHu _ m _ _ => some m
  | .ldW _ m _ _ => some m
  | .ldWu _ m _ _ => some m
  | .ldD _ m _ _ => some m
  | .vld _ _ m _ _ => some m
  | .vgather _ _ m _ _ => some m
  | .pf _ lsid _ => some ⟨lsid, .fibre, .rlx, 0⟩
  | .cinv _ lsid => some ⟨lsid, .fibre, .rlx, 0⟩
  | .cwb _ lsid => some ⟨lsid, .fibre, .rlx, 0⟩
  | .stB _ m => some m
  | .stH _ m => some m
  | .stW _ m => some m
  | .stD _ m => some m
  | .vst _ m => some m
  | .vscatter _ _ m => some m
  | .fence _ lsid scope ord => some ⟨lsid, scope, ord, 0⟩
  | .amoAdd _ _ m _ _ => some m
  | .amoAnd _ _ m _ _ => some m
  | .amoOr _ _ m _ _ => some m
  | .amoXor _ _ m _ _ => some m
  | .amoMin _ _ m _ _ => some m
  | .amoMax _ _ m _ _ => some m
  | .amoMinu _ _ m _ _ => some m
  | .amoMaxu _ _ m _ _ => some m
  | .amoSwap _ _ m _ _ => some m
  | .amoCas _ _ m _ _ => some m
  | .amoFadd _ m _ _ => some m
  | _ => none

/-- The status register an engine command names (R229, R276). -/
def sregOf : Instr → Option Nat
  | .cpy _ sreg => some sreg.toNat
  | .cpyQ _ sreg => some sreg.toNat
  | .bbarWait _ sreg => some sreg.toNat
  | .mma _ sreg _ _ => some sreg.toNat
  | .mmaSp _ sreg _ _ => some sreg.toNat
  | .mring _ sreg _ _ _ => some sreg.toNat
  | .mld _ sreg _ => some sreg.toNat
  | .mst _ _ sreg _ => some sreg.toNat
  | _ => none

/-- The atomics (R140). -/
def isAtomic : Instr → Bool
  | .amoAdd _ _ _ _ _
  | .amoAnd _ _ _ _ _
  | .amoOr _ _ _ _ _
  | .amoXor _ _ _ _ _
  | .amoMin _ _ _ _ _
  | .amoMax _ _ _ _ _
  | .amoMinu _ _ _ _ _
  | .amoMaxu _ _ _ _ _
  | .amoSwap _ _ _ _ _
  | .amoCas _ _ _ _ _
  | .amoFadd _ _ _ _ => true
  | _ => false

/-- Stores, vector stores and scatters (R41). -/
def isStoreOnly : Instr → Bool
  | .stB _ _
  | .stH _ _
  | .stW _ _
  | .stD _ _
  | .vst _ _
  | .vscatter _ _ _ => true
  | _ => false

/-- Loads, vector loads and gathers. -/
def isLoad : Instr → Bool
  | .ldB _ _ _ _
  | .ldBu _ _ _ _
  | .ldH _ _ _ _
  | .ldHu _ _ _ _
  | .ldW _ _ _ _
  | .ldWu _ _ _ _
  | .ldD _ _ _ _
  | .vld _ _ _ _ _
  | .vgather _ _ _ _ _ => true
  | _ => false

/-- Fences (R138). -/
def isFence : Instr → Bool
  | .fence _ _ _ _ => true
  | _ => false

/-- `cinv` and `cwb` (R135). -/
def isCacheOp : Instr → Bool
  | .cinv _ _
  | .cwb _ _ => true
  | _ => false

/-- Branches (R21). -/
def isBranch : Instr → Bool
  | .br _ _ _
  | .bri _ _
  | .call _ _ _
  | .calli _ _
  | .ret _ _
  | .halt _ _ => true
  | _ => false

/-- Calls (R61). -/
def isCall : Instr → Bool
  | .call _ _ _
  | .calli _ _ => true
  | _ => false

/-- The operations of R204. -/
def isIrrevocable : Instr → Bool
  | .barInit _ _ _
  | .barArr _ _ _ _
  | .evtSig _ _
  | .wqGive _ _ _ _
  | .wqTake _ _ _ _
  | .wqSteal _ _ _ _
  | .launch _ _ _ => true
  | _ => false

/-- `bar.wait` and `evt.wait`. -/
def isWait : Instr → Bool
  | .barWait _ _
  | .evtWait _ _ => true
  | _ => false

/-- Commands of the copy engine (R225). -/
def isCopyCmd : Instr → Bool
  | .cpy _ _
  | .cpyQ _ _
  | .bbarInit _
  | .bbarWait _ _ => true
  | _ => false

/-- Commands of the matrix node (R272). -/
def isNodeCmd : Instr → Bool
  | .mma _ _ _ _
  | .mmaSp _ _ _ _
  | .mring _ _ _ _ _
  | .mzero _ _
  | .mld _ _ _
  | .mst _ _ _ _
  | .cmtag _ _ _ => true
  | _ => false

/-- Words that never fire (R40, R48). -/
def isStatic : Instr → Bool
  | .nop
  | .xop => true
  | _ => false

/-- Stores and atomics, whose LSIDs stand in STMASK (R41). -/
def isStore (i : Instr) : Bool := isStoreOnly i || isAtomic i

end Sys2Proof.Machine
end

