-- ==== Sys2Proof/Machine/Ops.lean ====
section
/-! DEFINITION. The named operations over the machine's parts: cells and groups, registers, blocks
in flight and their tokens, faults, squashes, parking, and taking and leaving a trap. -/

namespace Sys2Proof.Machine

/-! ### Places -/

/-- The die of a cell number (R2). -/
def dieOfCell (cell : Nat) : Nat := (cell / 64 / 8) * 8 + cell % 64 / 8

/-- The cell number of local coordinates on a die (R1, R2). -/
def cellAt (die cx cy : Nat) : Nat := (8 * (die / 8) + cy) * 64 + (8 * (die % 8) + cx)

/-- Local coordinates of a cell. -/
def cellX (cell : Nat) : Nat := cell % 8
def cellY (cell : Nat) : Nat := cell / 64 % 8

/-- The sector of a device-memory address (R106). -/
def sectorOf (a : Nat) : Nat := a / 0xC00000000

/-- The number of the 128-byte line that holds an address. -/
def lineOf (a : Nat) : Nat := a / 128

/-- The 64-byte half of an address. -/
def halfOf (a : Nat) : Nat := a / 64

/-- Sets an element of a vector (no effect out of range). -/
def vset {α : Type} {n : Nat} (v : Vector α n) (i : Nat) (a : α) : Vector α n :=
  if h : i < n then v.set i a h else v

/-- An element of a vector, or `z` out of range. -/
def vget {α : Type} {n : Nat} (v : Vector α n) (i : Nat) (z : α) : α := v.getD i z

/-! ### Access to the parts of the state -/

def State.fibre? (s : State) (fid : Nat) : Option Fibre := s.fibres.get? fid
def State.setFibre (s : State) (fid : Nat) (f : Fibre) : State := { s with fibres := s.fibres.put fid f }
def State.cell (s : State) (c : Nat) : CellSt := s.cells.getD c CellSt.init
def State.setCell (s : State) (c : Nat) (x : CellSt) : State := { s with cells := s.cells.put c x }
def State.group? (s : State) (gid : Nat) : Option Group := s.groups.get? gid
def State.setGroup (s : State) (gid : Nat) (g : Group) : State := { s with groups := s.groups.put gid g }
def State.setAccess (s : State) (oid : Nat) (a : Access) : State :=
  { s with accesses := s.accesses.put oid a }
def State.emit (s : State) (m : OutMsg) : State := { s with out := s.out ++ [m] }
def State.die (s : State) (d : Nat) : Die := s.dies.getD d Die.init
def State.setDie (s : State) (d : Nat) (x : Die) : State := { s with dies := s.dies.put d x }

/-- The fibre with `f` applied. -/
def State.modFibre (s : State) (fid : Nat) (f : Fibre → Fibre) : State :=
  match s.fibre? fid with
  | some x => s.setFibre fid (f x)
  | none => s

/-! ### Launch record and kernel header (R189, R317) -/

def Launch.word (l : Launch) (off : Nat) : Word := l.record.getD (off / 8) 0
def Launch.sx (l : Launch) : Nat := 2 ^ nfld (l.word 24) 0 3
def Launch.sy (l : Launch) : Nat := 2 ^ nfld (l.word 24) 3 3
/-- F, fibres per cell or core. -/
def Launch.perCell (l : Launch) : Nat := nfld (l.word 24) 8 7 + 1
def Launch.prio (l : Launch) : Nat := nfld (l.word 24) 16 3
def Launch.part (l : Launch) : Nat := nfld (l.word 24) 20 3
def Launch.groupCount (l : Launch) : Nat :=
  nfld (l.word 16) 0 32 * nfld (l.word 16) 32 16 * nfld (l.word 16) 48 16
def Launch.hdrWord (l : Launch) (off : Nat) : Word := l.hdr.getD (off / 8) 0
/-- The core width w. -/
def Launch.core (l : Launch) : Nat := 2 ^ nfld (l.hdrWord 8) 36 2
/-- Blocks in flight of one fibre (R29, R32). -/
def Launch.frames (l : Launch) : Nat := (nfld (l.hdrWord 8) 16 4 + 1) * l.core
def Launch.regions (l : Launch) : Bool := fld (l.hdrWord 8) 40 1 == 1
def Launch.power (l : Launch) : Nat := nfld (l.hdrWord 8) 41 3
def Launch.cells (l : Launch) : Nat := l.sx * l.sy
def Launch.fibres (l : Launch) : Nat := l.perCell * l.cells / l.core

def State.launchOf (s : State) (g : Group) : Option Launch := s.launches.get? g.lid

/-- The group and launch of a fibre. -/
def State.ctxOf (s : State) (f : Fibre) : Option (Group × Launch) := do
  let g ← s.group? f.gid
  let l ← s.launchOf g
  return (g, l)

/-- R210: the launch and the queue in whose ring a place lies, under whatever mapping it is reached: a launch that has been
accepted and has not retired (log 12). -/
def State.ringOf (s : State) (loc : Loc) : Option (Nat × Nat) :=
  if loc.space = .cell then none
  else s.launches.findSome? (fun e =>
    if e.2.retired then none
    else (e.2.rings.find? (fun r => r.2.1 ≤ loc.addr && loc.addr < r.2.1 + r.2.2)).map (fun r => (e.1, r.1)))

/-- R210: the items that queue `q` of launch `lid` holds are damaged. -/
def State.damageQueue (s : State) (r : Nat × Nat) : State :=
  { s with queues := s.queues.modify r.2 (fun x => if x.lid = r.1 then { x with damaged := x.items.length } else x) }

/-- The rings that `n` bytes at a place meet; no access is longer than a part of a ring. -/
def State.ringsOf (s : State) (loc : Loc) (n : Nat) : List (Nat × Nat) :=
  ([loc, { loc with addr := loc.addr + (n - 1) }].filterMap s.ringOf).eraseDups

/-- R210: a program's write into the ring of a queue lands: the items that the queue holds are damaged (log 12). -/
def State.damage (s : State) (loc : Loc) (n : Nat) : State := (s.ringsOf loc n).foldl State.damageQueue s

/-- R210: what a program reads at byte `i` of a place that holds `b` there: a free byte in a ring (log 7). -/
def State.ringByte (s : State) (loc : Loc) (i : Nat) (b : Byte) : Byte :=
  if (s.ringOf { loc with addr := loc.addr + i }).isSome then Config.freeByte (s.tick + i) else b

/-- The cell of member `k` of a group (R103). -/
def memberCell (g : Group) (l : Launch) (k : Nat) : Nat :=
  cellAt g.die (g.x0 + k % l.sx) (g.y0 + k / l.sx)

/-- The cell of a fibre; on a core, member 0's (R32). -/
def State.cellOf (s : State) (f : Fibre) : Nat :=
  match s.ctxOf f with
  | some (g, l) => memberCell g l f.member
  | none => 0

/-- The fibres of a group. -/
def State.fibresOf (s : State) (gid : Nat) : List (Nat × Fibre) :=
  s.fibres.filter (fun e => e.2.gid == gid)

/-- The fibres whose cell is `cell`, in running groups. -/
def State.residents (s : State) (cell : Nat) : List (Nat × Fibre) :=
  s.fibres.filter (fun e =>
    match s.ctxOf e.2 with
    | some (g, l) => (g.state == .running) &&
        (List.range l.core).any (fun i => memberCell g l (e.2.member + i) == cell)
    | none => false)

/-- Counts an event of a cell source (R308). -/
def countCell (cell src n : Nat) (s : State) : State :=
  let c := s.cell cell
  let bump := (List.range 8).foldl (fun v i =>
    if nfld (vget c.evsel i 0) 0 8 = src then vset v i (vget v i 0 + BitVec.ofNat 64 n) else v) c.evcnt
  if bump = c.evcnt then s else s.setCell cell { c with evcnt := bump }

/-- Counts an event of a sector source (R308): SEVSEL at 0x2000, SEVCNT at 0x4000. -/
def countSector (sec src n : Nat) (s : State) : State :=
  (List.range 16).foldl (fun s i =>
    let o := 128 * sec + 8 * i
    if nfld (s.ctl.getD (0x2000 + o) 0) 0 8 = src ∧ src ≠ 0 then
      { s with ctl := s.ctl.put (0x4000 + o) (s.ctl.getD (0x4000 + o) 0 + BitVec.ofNat 64 n) }
    else s) s

/-! ### Causes and levels -/

/-- The codes of R237. -/
def Cause.code : Cause → Nat
  | .ill => 0x01
  | .blkFmt => 0x02
  | .multiExit => 0x03
  | .priv => 0x04
  | .scall => 0x05
  | .brk => 0x06
  | .step => 0x07
  | .trap => 0x08
  | .pageMiss => 0x10
  | .pageProt => 0x11
  | .align => 0x12
  | .windowSpan => 0x13
  | .peer => 0x14
  | .atomType => 0x15
  | .atomUnsup => 0x16
  | .key => 0x17
  | .uncorr => 0x18
  | .ringTimeout => 0x21
  | .rgnLocal => 0x30
  | .rgnSpace => 0x31
  | .rgnEngine => 0x32
  | .rgnNest => 0x33

/-- The codes of R234. -/
def Level.code : Level → Nat
  | .a => 0
  | .s => 1
  | .m => 3

/-- The level of a code; 2 is no level (R234) and is read as A. -/
def levelOf : Nat → Level
  | 1 => .s
  | 3 => .m
  | _ => .a

/-- The bank of a level (R240). -/
def Fibre.bank (f : Fibre) : Level → Bank
  | .a => f.bankA
  | .s => f.bankS
  | .m => f.bankM

def Fibre.setBank (f : Fibre) (l : Level) (b : Bank) : Fibre :=
  match l with
  | .a => { f with bankA := b }
  | .s => { f with bankS := b }
  | .m => { f with bankM := b }

def Bank.init : Bank :=
  { tvec := 0, tcause := 0, tblock := 0, tidx := 0, taddr := 0, tstat := 0, tscratch := 0 }

/-- The translation and range registers in force for a fibre. -/
def Fibre.xlate (f : Fibre) : Xlate :=
  { level := f.level, xroot := f.xroot, xown := f.xown, xkeys := f.xkeys
    ncbase := f.ncbase.toList, nclim := f.nclim.toList }

/-! ### Blocks in flight -/

/-- The instruction of word K, when it decodes (R43). -/
def Frame.instr (fr : Frame) (k : Nat) : Option Instr :=
  match fr.words[k]? with
  | some w => (match decode w with | .ok i => some i | .error _ => none)
  | none => none

/-- The opcode byte of word K. -/
def Frame.opcode (fr : Frame) (k : Nat) : Nat := nfld (fr.words.getD k 0) 56 8

/-- The general register that a `write` at K names, an ILL word of that opcode included (R44). -/
def Frame.writeG (fr : Frame) (k : Nat) : Option Nat :=
  match fr.instr k with
  | some (.write _ r) => some r.toNat
  | some _ => none
  | none => if k < fr.words.length ∧ fr.opcode k = 0x03 then some (nfld (fr.words.getD k 0) 48 6) else none

/-- The vector register that a `vwrite` at K names. -/
def Frame.writeV (fr : Frame) (k : Nat) : Option Nat :=
  match fr.instr k with
  | some (.vwrite _ r) => some r.toNat
  | some _ => none
  | none =>
    if k < fr.words.length ∧ fr.opcode k = 0x04 ∧ nfld (fr.words.getD k 0) 48 6 < 32
    then some (nfld (fr.words.getD k 0) 48 6) else none

/-- Word K records ILL (R43). -/
def Frame.isIll (fr : Frame) (k : Nat) : Bool := k < fr.words.length && (fr.instr k).isNone

/-- The owner whose third operand slot word K is (R40). -/
def Frame.ownerOf (fr : Frame) (k : Nat) : Option Nat :=
  if fr.instr k = some .xop ∧ 0 < k ∧ ((fr.instr (k - 1)).map needsXop).getD false then some (k - 1)
  else none

def slotL (k : Nat) : Nat := 4 * k
def slotR (k : Nat) : Nat := 4 * k + 1
def slotP (k : Nat) : Nat := 4 * k + 2
def slotX (k : Nat) : Nat := 4 * k + 3

/-- Records a fault against the block. -/
def Frame.fault (fr : Frame) (idx : Nat) (c : Cause) (taddr : Word) (src : Source) : Frame :=
  { fr with faults := fr.faults ++ [{ idx := idx, cause := c, taddr := taddr, src := src }] }

/-- The slot that a target names: the consumer, the key of its slot, the slot's width and the index
that a fault of the arrival is recorded at. `none`: the token is discarded (R44), or the consumer has no such slot. A
target that was refused at fetch for its index alone still takes its token, and what arrives at an xop's slot is
recorded at the xop's index (log 70). -/
def Frame.resolve (fr : Frame) (t : Target) : Option (Nat × Nat × SlotW × Nat) :=
  match t with
  | .none => none
  | .l k =>
    match fr.ownerOf k.toNat with
    | some o => (fr.instr o).map (fun i => (o, slotX o, (slotsOf i).x, k.toNat))
    | none =>
      match fr.instr k.toNat with
      | some i => if (slotsOf i).l = .none then none
                  else some (k.toNat, slotL k.toNat, (slotsOf i).l, k.toNat)
      | none => none
  | .r k =>
    match fr.instr k.toNat with
    | some i => if (slotsOf i).r = .none then none
                else some (k.toNat, slotR k.toNat, (slotsOf i).r, k.toNat)
    | none => none
  | .p k =>
    match fr.instr k.toNat with
    | some i => if predOf i = .always then none else some (k.toNat, slotP k.toNat, .w64, k.toNat)
    | none => none

/-- A token has a width that a slot takes (R18); null and poison have none of their own (log 14). -/
def Token.fits : Token → SlotW → Bool
  | .val _, .w64 | .val _, .any => true
  | .vec _ _, .v512 | .vec _ _, .any => true
  | .null, _ | .poison, _ => true
  | _, _ => false

/-- A token arrives at a target (R18, R19): a filled slot or a fired consumer keeps its first token
and BLK_FMT is recorded; a token of the other width records BLK_FMT and fills the slot with poison. -/
def Frame.deliver (fr : Frame) (t : Target) (tok : Token) : Frame :=
  match fr.resolve t with
  | none => fr
  | some (owner, key, w, at_) =>
    if fr.fired.contains owner || (fr.slots.get? key).isSome then fr.fault at_ .blkFmt 0 .afterFetch
    else if tok.fits w then { fr with slots := fr.slots.put key tok }
    else { fr.fault at_ .blkFmt 0 .afterFetch with slots := fr.slots.put key .poison }

/-- Sends a token to each target (R36). -/
def Frame.send (fr : Frame) (ts : List Target) (tok : Token) : Frame :=
  ts.foldl (fun fr t => fr.deliver t tok) fr

/-- The index at which a pair of K and another of `others` is recorded that comes first in R25: each pair
counts at its higher index (R19, R21, R230), so the lowest of the others gives the lowest such index. -/
def pairAt (k : Nat) (others : List Nat) : Nat := max k (others.foldl min (others.headD k))

/-- Instruction K counts as fired. -/
def Frame.fire (fr : Frame) (k : Nat) : Frame := { fr with fired := fr.fired ++ [k] }

/-- LSID `n` has produced a value or a null (R21). -/
def Frame.produce (fr : Frame) (n : Nat) : Frame :=
  { fr with produced := fr.produced ||| (1 <<< n) }

/-- The predicate of K has the value its suffix asks for (R8, R13, R18, R20). -/
def Frame.predOk (fr : Frame) (k : Nat) (p : Pred) : Bool :=
  match p with
  | .always => true
  | .onTrue => (match fr.slots.get? (slotP k) with | some (.val w) => w.getLsbD 0 | _ => false)
  | .onFalse => (match fr.slots.get? (slotP k) with | some (.val w) => !w.getLsbD 0 | _ => false)

/-- The predicate of K has arrived and never lets it fire. -/
def Frame.predDead (fr : Frame) (k : Nat) (p : Pred) : Bool :=
  p != .always && (fr.slots.get? (slotP k)).isSome && !fr.predOk k p

/-- The operand slot at `key` is filled, or the instruction has no such slot. -/
def Frame.filled (fr : Frame) (key : Nat) (w : SlotW) : Bool :=
  w == .none || (fr.slots.get? key).isSome

/-- Every operand slot of K is filled and its predicate matches (R8). -/
def Frame.ready (fr : Frame) (k : Nat) (i : Instr) : Bool :=
  !fr.fired.contains k && !isStatic i && fr.predOk k (predOf i) && fr.filled (slotL k) (slotsOf i).l
    && fr.filled (slotR k) (slotsOf i).r && fr.filled (slotX k) (slotsOf i).x

/-- The tokens of K's operands (absent slots read as the value 0). -/
def Frame.opL (fr : Frame) (k : Nat) : Token := fr.slots.getD (slotL k) (.val 0)
def Frame.opR (fr : Frame) (k : Nat) : Token := fr.slots.getD (slotR k) (.val 0)
def Frame.opX (fr : Frame) (k : Nat) : Token := fr.slots.getD (slotX k) (.val 0)

/-- Whether some producer among `src` names the slot at `key`. -/
def Frame.fedBy (fr : Frame) (src : List Nat) (key : Nat) : Bool :=
  src.any (fun j => ((fr.instr j).map targetsOf).getD [] |>.any (fun t =>
    ((fr.resolve t).map (fun r => r.2.1 == key)).getD false))

/-- What K does is never performed: it is performed only in a block without a recorded fault, and this block
holds one (R25, R26, R184). -/
def Frame.barred (fr : Frame) (k : Nat) : Bool := fr.late.contains k && !fr.faults.isEmpty

/-- One step of `Frame.live`: whether K may still send something, given those below it that may. An index that
a serial block has been taken past never fires (R22, R238), but for one whose turn has passed while it waited for an
operation of R184 (log 25). -/
def Frame.mayAct (fr : Frame) (src : List Nat) (k : Nat) : Bool :=
  if fr.fired.contains k then fr.owed.contains k && !fr.barred k
  else if fr.ser && k < fr.serPos && !fr.passed.contains k then false
  else
    match fr.instr k with
    | none => false
    | some i =>
      let slot := fun key w => fr.filled key w || fr.fedBy src key
      !isStatic i && !fr.predDead k (predOf i)
        && (predOf i == .always || (fr.slots.get? (slotP k)).isSome || fr.fedBy src (slotP k))
        && slot (slotL k) (slotsOf i).l && slot (slotR k) (slotsOf i).r && slot (slotX k) (slotsOf i).x
        && !fr.barred k

/-- The indices outside `bar` that may still fire or whose result is still to come, in ascending order: every
producer has a lower index than its consumer (R16), so one pass finds them (R21, R22). -/
def Frame.liveFrom (fr : Frame) (bar : List Nat) : List Nat :=
  (List.range fr.words.length).foldl (fun acc k => if !bar.contains k && fr.mayAct acc k then acc ++ [k] else acc) []

/-- How many LSIDs, from 0 on, have to be done before K, which waits for its conditions, is performed: those below its own
for an access of R26, all for an operation of R184. -/
def Frame.behind (fr : Frame) (k : Nat) : Nat :=
  if !fr.late.contains k then 0
  else match fr.instr k with
    | some i => if isIrrevocable i then 32 else (lsidOf i).getD 0
    | none => 0

/-- Some LSID of STMASK below `n` has produced neither value nor null, and none of the indices `live` can produce it. -/
def Frame.lost (fr : Frame) (live : List Nat) (n : Nat) : Bool :=
  (List.range n).any (fun m => fr.stmask.getLsbD m && !fr.produced.getLsbD m
    && !live.any (fun j => (fr.instr j).bind (fun i => if isStore i then lsidOf i else none) == some m))

/-- K waits for good: a memory instruction that has to be done before it can only be done after it, or a store among them
never fires and nothing produces its null (R21, R26, R184, log 15). -/
def Frame.dead (fr : Frame) (bar : List Nat) (k : Nat) : Bool :=
  fr.behind k != 0 && (
    let rest := fr.liveFrom (k :: bar)
    fr.lost rest (fr.behind k)
      || (fr.liveFrom bar).any (fun j => j != k && !rest.contains j
        && (((fr.instr j).bind lsidOf).map (fun m => decide (m < fr.behind k))).getD false))

/-- `bar` with the indices that wait for good, found in at most `fuel` rounds. -/
def Frame.deadIn (fr : Frame) : Nat → List Nat → List Nat
  | 0, bar => bar
  | fuel + 1, bar =>
    match fr.late.filter (fun k => !bar.contains k && fr.dead bar k) with
    | [] => bar
    | ks => Frame.deadIn fr fuel (ks ++ bar)

/-- The indices that wait for good. -/
def Frame.deads (fr : Frame) : List Nat := fr.deadIn fr.late.length []

/-- The indices that may still fire or whose result is still to come (R21, R22). -/
def Frame.live (fr : Frame) : List Nat := fr.liveFrom fr.deads

/-- A conversion that rounds stochastically (R270). -/
def isSr : Instr → Bool
  | .cvtN _ _ rm _ _ _ => rm == .sr
  | _ => false

/-- A `cyc` (R247). -/
def isCyc : Instr → Bool
  | .cyc _ _ _ => true
  | _ => false

/-- A `tlbinv` (R246). -/
def isTlbinv : Instr → Bool
  | .tlbinv _ _ _ => true
  | _ => false

/-- K fires only after the lower indices of its kind: a `cyc` (R247), or a stochastic conversion (R270). -/
def Frame.waitsLower (fr : Frame) (k : Nat) : Bool :=
  match fr.instr k with
  | none => false
  | some i =>
    (isCyc i && fr.live.any (fun j => j < k && ((fr.instr j).map isCyc).getD false))
      || (isSr i && fr.live.any (fun j => j < k && !fr.fired.contains j && ((fr.instr j).map isSr).getD false))

/-- K has had its turn in a serial block and is performed later: an operation of R204 or a `tlbinv` that waits for
higher memory instructions of its block (R114, R184), or an instruction that waits for a lower one fed by such an
operation. Higher indices go on meanwhile, as with SER clear (R22, log 25). -/
def Frame.deferred (fr : Frame) (k : Nat) : Bool :=
  (if fr.fired.contains k then ((fr.instr k).map isTlbinv).getD false else fr.late.contains k)
    || (!fr.fired.contains k && fr.waitsLower k)

/-- The live indices of a serial block that the higher ones wait for (R22). -/
def Frame.liveNow (fr : Frame) : List Nat :=
  let bar := fr.deads
  (List.range fr.words.length).foldl
    (fun acc k => if !bar.contains k && fr.mayAct acc k && !fr.deferred k then acc ++ [k] else acc) []

/-- Nothing of the block can still happen: no token can be sent, and no reply is outstanding but of what waits for good. -/
def Frame.quiet (fr : Frame) : Bool := fr.fetched && fr.live.isEmpty && fr.owed.all (fun k => fr.deads.contains k)

/-- The block holds a call that decodes (R61). -/
def Frame.hasCall (fr : Frame) : Bool :=
  (List.range fr.words.length).any (fun k => ((fr.instr k).map isCall).getD false)

/-- The registers a block counts as writing: GWMASK, and g62 for a call (R61). -/
def Frame.gmask (fr : Frame) : BitVec 64 := if fr.hasCall then fr.gw ||| (1 <<< 62) else fr.gw

/-- R21: every store LSID produced, every named register written, exactly one branch fired. -/
def Frame.complete (fr : Frame) : Bool :=
  fr.fetched && (fr.stmask &&& ~~~fr.produced == 0)
    && (List.range 64).all (fun n => !fr.gmask.getLsbD n || (fr.gout.get? n).isSome)
    && (List.range 32).all (fun n => !fr.vw.getLsbD n || (fr.vout.get? n).isSome)
    && fr.exits.length == 1

/-- The length of a block (R15). -/
def Frame.length (fr : Frame) : Nat := 32 + 8 * fr.words.length

/-- The frame of a block of a fibre. -/
def Fibre.frame? (f : Fibre) (seq : Nat) : Option Frame := f.frames.find? (fun fr => fr.seq == seq)

def Fibre.setFrame (f : Fibre) (fr : Frame) : Fibre :=
  { f with frames := f.frames.map (fun x => if x.seq = fr.seq then fr else x) }

/-- The block is the oldest of its fibre. -/
def Fibre.isOldest (f : Fibre) (seq : Nat) : Bool :=
  match f.frames with
  | fr :: _ => fr.seq == seq
  | [] => false

/-- The state with the frame of a fibre replaced. -/
def State.setFrame (s : State) (fid : Nat) (fr : Frame) : State :=
  s.modFibre fid (fun f => f.setFrame fr)

/-- Where the acting instruction stands: its fibre, its frame and its index. -/
structure Acting where
  fid : Nat
  f : Fibre
  fr : Frame
  k : Nat
  deriving DecidableEq, Repr

/-- The place `State.cur` names, when a block in flight holds the instruction `i` there. -/
def State.acting (s : State) (i : Instr) : Option Acting := do
  let c ← s.cur
  let f ← s.fibre? c.fid
  let fr ← f.frame? c.seq
  if fr.fetched ∧ fr.instr c.k = some i then return { fid := c.fid, f := f, fr := fr, k := c.k }
  else none

/-- s.step asks for STEP at the fibre's level (R244). -/
def Fibre.stepped (f : Fibre) : Bool :=
  match f.level with
  | .a => f.stepReg.getLsbD 0
  | .s => f.stepReg.getLsbD 1
  | .m => false

/-- R249: the next index of a serial block after which STEP is raised, past `nop`, `xop` and padding. -/
def Frame.nextStep (fr : Frame) : Option Nat :=
  (List.range fr.words.length).find? (fun k => fr.serPos ≤ k && !((fr.instr k).map isStatic).getD false)

/-- R22: in a block with SER set, the turn of K has come: the block is the oldest, no reply is
outstanding, and no lower index can still fire, those apart that are deferred; when it is stepped, STEP has been
raised for every lower index (R249), or its own turn has passed (log 25). -/
def Acting.turn (a : Acting) : Bool :=
  !a.fr.ser || (a.f.isOldest a.fr.seq && (a.fr.serPos ≤ a.k || a.fr.passed.contains a.k)
    && a.fr.liveNow.all (fun j => a.k ≤ j)
    && (!a.f.stepped || !a.fr.faults.isEmpty || a.fr.nextStep == some a.k || a.fr.passed.contains a.k))

/-- The acting instruction may fire. -/
def Acting.canFire (a : Acting) (i : Instr) : Bool := a.fr.ready a.k i && a.turn

/-- The acting frame put back into the state. -/
def Acting.commit (a : Acting) (s : State) (fr : Frame) : State := s.setFrame a.fid fr

/-- What firing an instruction gives: a token for its targets, FP flags, and a fault. -/
structure Result where
  tok : Token
  flags : BitVec 5
  fault : Option (Cause × Word)
  deriving DecidableEq, Repr

/-- A result without flags or fault. -/
def Result.ok (tok : Token) : Result := { tok := tok, flags := 0, fault := none }

/-- R13, R18, R20: poison governs, then null. -/
def badOperand (ts : List Token) : Option Token :=
  if ts.contains .poison then some .poison else if ts.contains .null then some .null else none

/-- The operand tokens of an instruction, absent slots left out. -/
def Frame.operands (fr : Frame) (k : Nat) (i : Instr) : List Token :=
  (if (slotsOf i).l = .none then [] else [fr.opL k])
    ++ (if (slotsOf i).r = .none then [] else [fr.opR k])
    ++ (if (slotsOf i).x = .none then [] else [fr.opX k])

/-- The frame after instruction K fired with a result: its fault recorded (R25), its flags collected
(R81), its token sent, poison in place of it when it faulted. -/
def Frame.finish (fr : Frame) (k : Nat) (i : Instr) (r : Result) : Frame :=
  let fr := { fr.fire k with flags := fr.flags ||| r.flags }
  match r.fault with
  | some (c, ta) => (fr.fault k c ta .firing).send (targetsOf i) .poison
  | none => fr.send (targetsOf i) r.tok

/-- The firing of an instruction that only computes a token from its operands (R8, R13, R20):
nothing happens before it may fire. -/
def dataflow (i : Instr) (f : Acting → Result) (s : State) : Host.Outcome State Fault Refusal :=
  match s.acting i with
  | none => .fault .noActingBlock
  | some a =>
    if a.canFire i then
      let r := match badOperand (a.fr.operands a.k i) with
        | some t => Result.ok t
        | none => f a
      .next (a.commit s (a.fr.finish a.k i r))
    else .next s

/-- The value of a 64-bit token (0 for any other). -/
def Token.word : Token → Word
  | .val w => w
  | _ => 0

/-- The value of a 512-bit token (0 for any other). -/
def Token.vector : Token → Vec
  | .vec v _ => v
  | _ => 0

/-- The tag of a 512-bit token. -/
def Token.tag : Token → BitVec 3
  | .vec _ t => t
  | _ => 7

/-- A computation on `.l`. -/
def unary (i : Instr) (f : Word → Word) (s : State) : Host.Outcome State Fault Refusal :=
  dataflow i (fun a => .ok (.val (f (a.fr.opL a.k).word))) s

/-- A computation on `.l` and `.r`. -/
def binary (i : Instr) (f : Word → Word → Word) (s : State) : Host.Outcome State Fault Refusal :=
  dataflow i (fun a => .ok (.val (f (a.fr.opL a.k).word (a.fr.opR a.k).word))) s

/-! ### Squash, parking and the next block -/

/-- A fibre that a read of a pending register has parked (R31) leaves the path on which the read stood (log 69). -/
def Fibre.leavePath (f : Fibre) : Fibre :=
  { f with park := match f.park with
      | .reg _ => .none
      | p => p }

/-- R14: the blocks of a fibre from `seq` on vanish and their frames free. The oldest of them is the
fibre's next block; fetched again, it keeps its number (R32). -/
def Fibre.squashFrom (f : Fibre) (seq : Nat) : Fibre :=
  match f.frames.find? (fun fr => seq ≤ fr.seq) with
  | some fr =>
    { f with frames := f.frames.filter (fun x => x.seq < seq), nextSeq := fr.seq, next := some fr.addr }.leavePath
  | none => f

/-- R14: the accesses of squashed blocks vanish with them. -/
def State.dropAccesses (s : State) (fid seq : Nat) : State :=
  { s with accesses := s.accesses.filter (fun e => !(e.2.fid == fid && seq ≤ e.2.seq && !e.2.released)) }

/-- The squash of every block of a fibre from `seq` on, `src` being the event counted besides
(4 misprediction, 5 memory order, 0 other; R308). -/
def State.squash (s : State) (fid seq src : Nat) : State :=
  match s.fibre? fid with
  | none => s
  | some f =>
    let n := (f.frames.filter (fun fr => seq ≤ fr.seq)).length
    if n = 0 then s
    else
      let cell := s.cellOf f
      let s := (s.setFibre fid (f.squashFrom seq)).dropAccesses fid seq
      let s := countCell cell 3 n s
      if src = 0 then s else countCell cell src 1 s

/-- What the block at the end of a fibre's path does to the return stack (R61, R62): a call that fired pushes,
a `ret` that fired or was predicted from the stack pops. -/
def Frame.rasEffect (fr : Frame) (st : List Word) : List Word :=
  match fr.exits with
  | e :: _ =>
    match fr.instr e.idx with
    | some (.call _ _ _) | some (.calli _ _) => ((fr.addr + BitVec.ofNat 64 fr.length) :: st).take 16
    | some (.ret _ _) => st.drop 1
    | _ => st
  | [] => if fr.popped then st.drop 1 else st

/-- The fibre's return stack: what the committed blocks leave, and what the blocks in flight have done to it
since. A squashed block's part goes with it. -/
def Fibre.returnStack (f : Fibre) : List Word := f.frames.foldl (fun st fr => fr.rasEffect st) f.ras

/-- Sets the next-block address of a fibre. -/
def State.setNext (s : State) (fid : Nat) (a : Option Word) : State :=
  s.modFibre fid (fun f => { f with next := a })

/-- A block from `seq` on holds a recorded RING_TIMEOUT (R280), which a squash that is no trap does not undo:
it is recorded again for the next block fetched. -/
def Fibre.losesRing (f : Fibre) (seq : Nat) : Bool :=
  f.frames.any (fun fr => seq ≤ fr.seq && fr.faults.any (fun r => r.src == .ring))

/-- R31: the block and every younger one are squashed, the fibre's next block is the squashed one,
and the fibre gets no frame until it is woken. -/
def State.parkAt (s : State) (fid seq : Nat) (addr : Word) (p : Park) : State :=
  let lost := ((s.fibre? fid).map (fun f => f.losesRing seq)).getD false
  (s.squash fid seq 0).modFibre fid (fun f => { f with next := some addr, park := p, ringFault := f.ringFault || lost })

/-- A parked fibre becomes ready again. -/
def Fibre.wake (f : Fibre) : Fibre := { f with park := .none }

/-- Wakes the fibres that `p` selects. -/
def State.wakeWhere (s : State) (p : Fibre → Bool) : State :=
  { s with fibres := s.fibres.mapV (fun f => if p f then f.wake else f) }

/-- A fired exit meets the guess (R14): the younger blocks are squashed when the successor differs,
and the fibre goes on at the successor. `target = none`: no successor is known to be fetched. A fibre that a block of
the path that is left has parked (R31) is parked no more, so that the guess shows in time only (R28, log 69). -/
def State.resolveExit (s : State) (fid seq : Nat) (target : Option Word) : State :=
  match s.fibre? fid with
  | none => s
  | some f =>
    match f.frames.find? (fun fr => seq < fr.seq) with
    | some y =>
      if some y.addr = target then s
      else (s.squash fid (seq + 1) 4).setNext fid target
    | none => if f.next = target then s else (s.setNext fid target).modFibre fid Fibre.leavePath

/-- The block has begun its commit, has performed an operation of R204, or one of its atomics or stores has left:
its effects stand (R26, R204). -/
def State.effectStands (s : State) (fid : Nat) (fr : Frame) : Bool :=
  fr.inCommit || s.accesses.any (fun e => e.2.fid == fid && e.2.seq == fr.seq && isStore e.2.ins
    && !e.2.released && e.2.pieces.any (fun p => p.stage == .atHome || p.stage == .done))

/-! ### Where a register read takes its value (R12, R10, R20) -/

/-- What a read of a register finds. -/
inductive Source12 where
  | tok (t : Token)
  | wait
  | park
  | file
  deriving DecidableEq, Repr

/-- The command of an in-flight block that names `reg` has fired, or may still fire (R230). -/
def Frame.mayCommand (fr : Frame) (reg : Nat) : Bool :=
  fr.cmds.any (fun c => sregOf c.ins == some reg)
    || fr.live.any (fun k => !fr.fired.contains k && (fr.instr k).bind sregOf == some reg)

/-- The search of R12 through the older blocks, youngest first. A block with a call and a copy that both name g62 passes the
checks of R47 and R61: the return address is its token for g62, and younger reads in flight take it, not the status word of
R10 and R230 (DESIGN CHOICE, log 89). -/
def sourceG (frs : List Frame) (reg : Nat) (pending : Bool) : Source12 :=
  match frs with
  | [] => if pending then .park else .file
  | fr :: older =>
    match fr.gout.get? reg with
    | some .null => sourceG older reg pending
    | some t => .tok t
    | none =>
      if !fr.fetched || fr.mayCommand reg || fr.gmask.getLsbD reg then .wait
      else sourceG older reg pending

/-- The same for a vector register. -/
def sourceV (frs : List Frame) (reg : Nat) (pending : Bool) : Source12 :=
  match frs with
  | [] => if pending then .park else .file
  | fr :: older =>
    match fr.vout.get? reg with
    | some .null => sourceV older reg pending
    | some t => .tok t
    | none => if !fr.fetched || fr.vw.getLsbD reg then .wait else sourceV older reg pending

/-- The blocks of a fibre older than `seq`, youngest first. -/
def Fibre.olderThan (f : Fibre) (seq : Nat) : List Frame :=
  (f.frames.filter (fun fr => fr.seq < seq)).reverse

/-! ### Faults and traps -/

/-- The rank of a source at one index (R25). -/
def Source.rank : Source → Nat
  | .fetchPage => 0
  | .fetchIll => 1
  | .fetchFmt => 2
  | .afterFetch => 3
  | .firing => 4
  | .ring => 5
  | .exhaustion => 6

/-- The order of R25 as one number: exhaustion after everything, then the index (0xFF counts as 0),
the source, for a fetch fault the lowest address, and the cause code. -/
def Recorded.key (r : Recorded) : Nat :=
  let idx := if r.idx = 0xFF then 0 else r.idx
  (((if r.src = .exhaustion then 1 else 0) * 256 + idx) * 8 + r.src.rank) * 2 ^ 72
    + (if r.src = .fetchPage then r.taddr.toNat else 0) * 256 + r.cause.code

/-- The fault a block reports (R25). -/
def Frame.report (fr : Frame) : Option Recorded :=
  fr.faults.foldl (fun best r =>
    match best with
    | none => some r
    | some b => if r.key < b.key then some r else some b) none

/-- The level above (R235). -/
def Level.above : Level → Level
  | .a => .s
  | _ => .m

/-- The handler level of R235. -/
def handlerLevel (f : Fibre) (c : Cause) : Level :=
  let h := if f.level ≠ .m ∧ f.mdeleg.getLsbD c.code then Level.s else .m
  let h := if h = .s ∧ f.level = .a ∧ f.sdeleg.getLsbD c.code then Level.a else h
  let h := if h = .a ∧ f.bankA.tvec = 0 then Level.s else h
  if h = .s ∧ f.bankS.tvec = 0 then .m else h

/-- Taking a trap (R236 steps 3 and 4): the bank of the handler level is filled, the level becomes
the handler's and the next block its vector. `rf` is s.rgnh.RF (R175), `resume` s.tstat.RESUME. -/
def Fibre.takeTrap (f : Fibre) (c : Cause) (tblock : Word) (tidx : Nat) (taddr : Word)
    (rf resume : Bool) : Fibre :=
  let h := handlerLevel f c
  let b := f.bank h
  let b' := { b with
    tcause := BitVec.ofNat 64 c.code, tblock := tblock, tidx := BitVec.ofNat 64 tidx, taddr := taddr
    tstat := BitVec.ofNat 64 (f.level.code + if resume then 4 else 0) }
  { f.setBank h b' with
    level := h
    rgnh := setFld f.rgnh 0 1 (BitVec.ofBool rf)
    next := some b.tvec
    park := .none }

/-- Returning from a trap (R238), read from the bank of the current level. -/
def Fibre.returnFrom (f : Fibre) : Fibre :=
  let b := f.bank f.level
  let f' := f.setBank f.level { b with tstat := setFld b.tstat 2 1 0 }
  { f' with
    level := levelOf (nfld b.tstat 0 2)
    next := some b.tblock }

/-- The snapshot of `rgn.beg` (R178). Of a register that is pending when it commits it holds the older value, which an abort
after the engine's write gives back: R11 and R173 restore the registers of that point, while R10 never gives a later read
an older value than the status word (DESIGN CHOICE, log 88). -/
def Fibre.snapshot (f : Fibre) : Snapshot := { g := f.g, v := f.v, vtag := f.vtag }

/-- R173: the registers go back to the snapshot and the cause code is written (no register is pending
then: the restore waits for the engines). -/
def Fibre.restore (f : Fibre) (cause : Nat) : Fibre :=
  let sn := f.snap.getD f.snapshot
  { f with
    g := vset sn.g f.rgnCause.toNat (BitVec.ofNat 64 cause)
    v := sn.v, vtag := sn.vtag, lastc := cause, snap := none, rgn := none }

end Sys2Proof.Machine
end

