-- ==== Sys2Proof/Machine/Flags.lean ====
section
/-! DEFINITION. Floating-point values, their formats, the one rounding of each operation and the flags
that it raises (R80, R84, R85, R87 to R92). A finite value is an exact number m * 2^e with a sign. -/

namespace Sys2Proof.Machine

/-- The rounding modes of s.fcsr.RM (R80). -/
inductive RM where
  | rne | rtz | rdn | rup
  deriving DecidableEq, Repr

/-- The flags of R80, bits [4:0]. -/
abbrev FFlags := BitVec 5

def flagNX : FFlags := 1
def flagUF : FFlags := 2
def flagOF : FFlags := 4
def flagDZ : FFlags := 8
def flagNV : FFlags := 16

/-- A binary format: exponent and mantissa widths. -/
structure Fmt where
  eb : Nat
  mb : Nat
  deriving DecidableEq, Repr

def fmt32 : Fmt := { eb := 8, mb := 23 }
def fmt64 : Fmt := { eb := 11, mb := 52 }
def fmtBf16 : Fmt := { eb := 8, mb := 7 }
def fmtFp16 : Fmt := { eb := 5, mb := 10 }
def fmtE5M2 : Fmt := { eb := 5, mb := 2 }

def Fmt.bits (F : Fmt) : Nat := 1 + F.eb + F.mb
def Fmt.bias (F : Fmt) : Int := 2 ^ (F.eb - 1) - 1
/-- The exponent of the smallest normal number. -/
def Fmt.emin (F : Fmt) : Int := 1 - F.bias
/-- The code of +∞. -/
def Fmt.inf (F : Fmt) : Nat := (2 ^ F.eb - 1) * 2 ^ F.mb
/-- The default NaN (R85, R260). -/
def Fmt.nan (F : Fmt) : Nat := F.inf + 2 ^ (F.mb - 1)
/-- The largest finite value. -/
def Fmt.max (F : Fmt) : Nat := F.inf - 1
/-- A sign bit in front of a magnitude. -/
def Fmt.signed (F : Fmt) (neg : Bool) (mag : Nat) : Nat := mag + (if neg then 2 ^ (F.eb + F.mb) else 0)
def Fmt.neg (F : Fmt) (x : Nat) : Bool := x / 2 ^ (F.eb + F.mb) % 2 == 1
def Fmt.mag (F : Fmt) (x : Nat) : Nat := x % 2 ^ (F.eb + F.mb)
def Fmt.isNaN (F : Fmt) (x : Nat) : Bool := F.inf < F.mag x
/-- A signalling NaN: the top mantissa bit is clear. -/
def Fmt.isSNaN (F : Fmt) (x : Nat) : Bool := F.isNaN x && F.mag x < F.nan
def Fmt.isInf (F : Fmt) (x : Nat) : Bool := F.mag x == F.inf
def Fmt.isZero (F : Fmt) (x : Nat) : Bool := F.mag x == 0
def Fmt.isSub (F : Fmt) (x : Nat) : Bool := F.mag x != 0 && F.mag x < 2 ^ F.mb

/-- R84: with FTZ set a subnormal operand is read as zero with its own sign. -/
def Fmt.flush (F : Fmt) (ftz : Bool) (x : Nat) : Nat :=
  if ftz && F.isSub x then F.signed (F.neg x) 0 else x

/-- A finite number: sign, m and e of m * 2^e. -/
structure Num where
  neg : Bool
  m : Nat
  e : Int
  deriving DecidableEq, Repr

/-- The value of a finite code. -/
def Fmt.num (F : Fmt) (x : Nat) : Num :=
  let e := F.mag x / 2 ^ F.mb
  let m := F.mag x % 2 ^ F.mb
  if e = 0 then { neg := F.neg x, m := m, e := F.emin - F.mb }
  else { neg := F.neg x, m := m + 2 ^ F.mb, e := (e : Int) - F.bias - F.mb }

/-- m * 2^e in units of 2^u, rounded by `rm`, and whether bits were lost. -/
def quantize (rm : RM) (x : Num) (u : Int) : Nat × Bool :=
  if u ≤ x.e then (x.m * 2 ^ (x.e - u).toNat, false)
  else
    let d := (u - x.e).toNat
    let q := x.m / 2 ^ d
    let r := x.m % 2 ^ d
    let up := match rm with
      | .rne => 2 ^ (d - 1) < r || (r == 2 ^ (d - 1) && q % 2 == 1)
      | .rtz => false
      | .rdn => x.neg && r != 0
      | .rup => !x.neg && r != 0
    (if up then q + 1 else q, r != 0)

/-- R84: what an overflow delivers. -/
def overflow (F : Fmt) (rm : RM) (neg : Bool) : Nat :=
  let away := match rm with
    | .rne => true
    | .rtz => false
    | .rdn => neg
    | .rup => !neg
  F.signed neg (if away then F.inf else F.max)

/-- R84: the one rounding of a nonzero number to a format, and its flags. -/
def roundNum (F : Fmt) (rm : RM) (ftz : Bool) (x : Num) : Nat × FFlags :=
  if x.m = 0 then (F.signed x.neg 0, 0)
  else
    let u := x.e + Nat.log2 x.m - F.mb
    let least := F.emin - F.mb
    let q0 := (quantize rm x u).1
    let tiny := u + (if q0 = 2 ^ (F.mb + 1) then 1 else 0) < least
    if tiny && ftz then (F.signed x.neg 0, flagUF ||| flagNX)
    else
      let u' := if u < least then least else u
      let (q, lost) := quantize rm x u'
      let mag := (u' - least).toNat * 2 ^ F.mb + q
      if F.inf ≤ mag then (overflow F rm x.neg, flagOF ||| flagNX)
      else
        (F.signed x.neg mag,
          if lost then (if tiny then flagUF ||| flagNX else flagNX) else 0)

/-- The exact sum of two numbers; an exact zero has the sign that R84 gives it. -/
def addNum (rm : RM) (x y : Num) : Num :=
  let e := if x.e ≤ y.e then x.e else y.e
  let v := fun (n : Num) => (if n.neg then -1 else 1 : Int) * (n.m * 2 ^ (n.e - e).toNat)
  let t := v x + v y
  if t = 0 then { neg := if x.neg = y.neg then x.neg else rm == .rdn, m := 0, e := e }
  else { neg := t < 0, m := t.natAbs, e := e }

/-- The exact product. -/
def mulNum (x y : Num) : Num := { neg := x.neg != y.neg, m := x.m * y.m, e := x.e + y.e }

/-- A quotient with one more bit that tells whether more follow: rounding it rounds x / y. -/
def divNum (x y : Num) : Num :=
  let n := x.m * 2 ^ 130
  { neg := x.neg != y.neg, m := 2 * (n / y.m) + (if n % y.m = 0 then 0 else 1), e := x.e - y.e - 131 }

/-- The integer square root, bit by bit from bit 127 down. -/
def isqrt (n : Nat) : Nat :=
  (List.range 128).foldr (fun i r => if (r + 2 ^ i) * (r + 2 ^ i) ≤ n then r + 2 ^ i else r) 0

/-- A square root with one more bit that tells whether more follow. -/
def sqrtNum (x : Num) : Num :=
  let m := (if x.e % 2 = 0 then x.m else 2 * x.m) * 2 ^ 128
  let e := if x.e % 2 = 0 then x.e else x.e - 1
  let r := isqrt m
  { neg := false, m := 2 * r + (if r * r = m then 0 else 1), e := e / 2 - 65 }

/-- The rounding environment: RM and FTZ of s.fcsr (R80, R81). -/
structure FEnv where
  rm : RM
  ftz : Bool
  deriving DecidableEq, Repr

/-- RM and FTZ of a value of s.fcsr. -/
def fenv (fcsr : Word) : FEnv :=
  { rm := match nfld fcsr 5 2 with
      | 0 => .rne
      | 1 => .rtz
      | 2 => .rdn
      | _ => .rup
    ftz := fcsr.getLsbD 7 }

/-- NV for a signalling NaN among the operands (R85). -/
def nvOf (F : Fmt) (xs : List Nat) : FFlags := if xs.any F.isSNaN then flagNV else 0

/-- `fadd` (R87). -/
def faddBits (F : Fmt) (v : FEnv) (a b : Nat) : Nat × FFlags :=
  let a := F.flush v.ftz a
  let b := F.flush v.ftz b
  if F.isNaN a || F.isNaN b then (F.nan, nvOf F [a, b])
  else if F.isInf a then
    if F.isInf b && F.neg a != F.neg b then (F.nan, flagNV) else (a, 0)
  else if F.isInf b then (b, 0)
  else roundNum F v.rm v.ftz (addNum v.rm (F.num a) (F.num b))

/-- The code with its sign bit inverted. -/
def Fmt.flip (F : Fmt) (x : Nat) : Nat := F.signed (!F.neg x) (F.mag x)

/-- `fsub` (R87): the sum with the right operand's sign inverted. -/
def fsubBits (F : Fmt) (v : FEnv) (a b : Nat) : Nat × FFlags := faddBits F v a (F.flip b)

/-- `fmul` (R87). -/
def fmulBits (F : Fmt) (v : FEnv) (a b : Nat) : Nat × FFlags :=
  let a := F.flush v.ftz a
  let b := F.flush v.ftz b
  let neg := F.neg a != F.neg b
  if F.isNaN a || F.isNaN b then (F.nan, nvOf F [a, b])
  else if (F.isInf a && F.isZero b) || (F.isZero a && F.isInf b) then (F.nan, flagNV)
  else if F.isInf a || F.isInf b then (F.signed neg F.inf, 0)
  else roundNum F v.rm v.ftz (mulNum (F.num a) (F.num b))

/-- `ffma` (R87): one rounding. -/
def ffmaBits (F : Fmt) (v : FEnv) (a b c : Nat) : Nat × FFlags :=
  let a := F.flush v.ftz a
  let b := F.flush v.ftz b
  let c := F.flush v.ftz c
  let neg := F.neg a != F.neg b
  if (F.isInf a && F.isZero b) || (F.isZero a && F.isInf b) then (F.nan, flagNV)
  else if F.isNaN a || F.isNaN b || F.isNaN c then (F.nan, nvOf F [a, b, c])
  else if F.isInf a || F.isInf b then
    if F.isInf c && F.neg c != neg then (F.nan, flagNV) else (F.signed neg F.inf, 0)
  else if F.isInf c then (c, 0)
  else roundNum F v.rm v.ftz (addNum v.rm (mulNum (F.num a) (F.num b)) (F.num c))

/-- `fdiv` (R87, R85). -/
def fdivBits (F : Fmt) (v : FEnv) (a b : Nat) : Nat × FFlags :=
  let a := F.flush v.ftz a
  let b := F.flush v.ftz b
  let neg := F.neg a != F.neg b
  if F.isNaN a || F.isNaN b then (F.nan, nvOf F [a, b])
  else if (F.isInf a && F.isInf b) || (F.isZero a && F.isZero b) then (F.nan, flagNV)
  else if F.isInf a then (F.signed neg F.inf, 0)
  else if F.isInf b then (F.signed neg 0, 0)
  else if F.isZero b then (F.signed neg F.inf, flagDZ)
  else roundNum F v.rm v.ftz (divNum (F.num a) (F.num b))

/-- `fsqrt` (R87, R85). -/
def fsqrtBits (F : Fmt) (v : FEnv) (a : Nat) : Nat × FFlags :=
  let a := F.flush v.ftz a
  if F.isNaN a then (F.nan, nvOf F [a])
  else if F.isZero a then (a, 0)
  else if F.neg a then (F.nan, flagNV)
  else if F.isInf a then (a, 0)
  else roundNum F v.rm v.ftz (sqrtNum (F.num a))

/-- The place of a number in order, -0 below +0 (R88). -/
def Fmt.key (F : Fmt) (x : Nat) : Int := if F.neg x then -(F.mag x : Int) - 1 else F.mag x

/-- The place of a number in order, -0 equal to +0 (R89). -/
def Fmt.ord (F : Fmt) (x : Nat) : Int := if F.neg x then -(F.mag x : Int) else F.mag x

/-- `fmin` and `fmax` (R88). -/
def fminmaxBits (F : Fmt) (max : Bool) (v : FEnv) (a b : Nat) : Nat × FFlags :=
  let a := F.flush v.ftz a
  let b := F.flush v.ftz b
  let r :=
    if F.isNaN a && F.isNaN b then F.nan
    else if F.isNaN a then b
    else if F.isNaN b then a
    else if (F.key a ≤ F.key b) != max then a else b
  (r, nvOf F [a, b])

/-- `fabs`, `fneg`, `fsgnj` (R87): no flag, FTZ ignored, a NaN gives the default NaN. -/
def fabsBits (F : Fmt) (a : Nat) : Nat := if F.isNaN a then F.nan else F.signed false (F.mag a)
def fnegBits (F : Fmt) (a : Nat) : Nat := if F.isNaN a then F.nan else F.flip a
def fsgnjBits (F : Fmt) (a b : Nat) : Nat := if F.isNaN a then F.nan else F.signed (F.neg b) (F.mag a)

/-- The relation of a float comparison (R89). -/
inductive FRel where
  | eq | lt | le
  deriving DecidableEq, Repr

/-- `feq`, `flt`, `fle` (R89, R85). -/
def fcmpBits (F : Fmt) (r : FRel) (v : FEnv) (a b : Nat) : Bool × FFlags :=
  let a := F.flush v.ftz a
  let b := F.flush v.ftz b
  if F.isNaN a || F.isNaN b then (false, if r = .eq then nvOf F [a, b] else flagNV)
  else
    (match r with
      | .eq => F.ord a == F.ord b
      | .lt => decide (F.ord a < F.ord b)
      | .le => decide (F.ord a ≤ F.ord b), 0)

/-- `fclass` (R90): the number of the one bit set. -/
def fclassBit (F : Fmt) (a : Nat) : Nat :=
  if F.isNaN a then (if F.isSNaN a then 8 else 9)
  else if F.isInf a then (if F.neg a then 0 else 7)
  else if F.isZero a then (if F.neg a then 3 else 4)
  else if F.isSub a then (if F.neg a then 2 else 5)
  else if F.neg a then 1 else 6

/-- Float to float (R92). -/
def fcvtFF (F G : Fmt) (v : FEnv) (a : Nat) : Nat × FFlags :=
  let a := F.flush v.ftz a
  if F.isNaN a then (G.nan, nvOf F [a])
  else if F.isInf a then (G.signed (F.neg a) G.inf, 0)
  else roundNum G v.rm v.ftz (F.num a)

/-- The integer types of R91: limits. -/
def clampTo (lo hi i : Int) : Int × Bool := if i < lo then (lo, true) else if hi < i then (hi, true) else (i, false)

/-- Float to integer, toward zero (R92). -/
def fcvtFI (F : Fmt) (lo hi : Int) (v : FEnv) (a : Nat) : Int × FFlags :=
  let a := F.flush v.ftz a
  if F.isNaN a then (0, flagNV)
  else if F.isInf a then (if F.neg a then lo else hi, flagNV)
  else
    let (t, lost) := quantize .rtz (F.num a) 0
    let (r, out) := clampTo lo hi (if F.neg a then -(t : Int) else t)
    (r, if out then flagNV else if lost then flagNX else 0)

/-- Integer to float by RM (R92). -/
def fcvtIF (G : Fmt) (v : FEnv) (i : Int) : Nat × FFlags :=
  roundNum G v.rm v.ftz { neg := i < 0, m := i.natAbs, e := 0 }

end Sys2Proof.Machine
end

