-- ==== Sys2Proof/Machine/Operands.lean ====
section
/-! DEFINITION. Operand forms: immediates, effective addresses, the lanes of a vector token and the
shapes of float operands (R52, R76, R82, R83, R91). -/

namespace Sys2Proof.Machine

/-! ### Immediates and addresses -/

/-- c of R76 and R78: the sign-extended 24-bit immediate. -/
def simm (imm : BitVec 24) : Word := imm.signExtend 64

/-- The effective address of a memory instruction (R52). -/
def effAddr (base : Word) (off : BitVec 22) : Word := base + off.signExtend 64

/-- A predicate token (R18, R67). -/
def predTok (b : Bool) : Token := .val (boolWord b)

/-! ### Lanes (R83) -/

/-- Lane i of n bits. -/
def lane (x : Vec) (n i : Nat) : Nat := nfld x (n * i) n

/-- The lanes of n bits, lane 0 first. -/
def lanes (x : Vec) (n : Nat) : List Nat := (List.range (512 / n)).map (lane x n)

/-- A vector from lanes of n bits, lane 0 first. -/
def packLanes (n : Nat) (ls : List Nat) : Vec :=
  BitVec.ofNat 512 (ls.foldr (fun a acc => a % 2 ^ n + 2 ^ n * acc) 0)

/-- The signed value of n bits. -/
def signedOf (n x : Nat) : Int := if x < 2 ^ (n - 1) then x else (x : Int) - 2 ^ n

/-- The n-bit code of an integer, modulo 2^n. -/
def codeOf (n : Nat) (i : Int) : Nat := (i % 2 ^ n).toNat

/-! ### Float shapes (R82) -/

def tyFmt : Ty → Fmt
  | .s | .vs => fmt32
  | .d | .vd => fmt64

def tyIsVec : Ty → Bool
  | .s | .d => false
  | .vs | .vd => true

/-- The tag of a float result (R82). -/
def tyTag : Ty → BitVec 3
  | .vs => 6
  | _ => 7

/-- The elements of an operand of shape `ty`. -/
def tyElems (ty : Ty) (t : Token) : List Nat :=
  if tyIsVec ty then lanes t.vector (tyFmt ty).bits else [t.word.toNat % 2 ^ (tyFmt ty).bits]

/-- A token of shape `ty` from its elements. -/
def tyToken (ty : Ty) (es : List Nat) : Token :=
  if tyIsVec ty then .vec (packLanes (tyFmt ty).bits es) (tyTag ty) else .val (BitVec.ofNat 64 (es.getD 0 0))

/-- The flags of all lanes (R81). -/
def orFlags (l : List FFlags) : FFlags := l.foldl (· ||| ·) 0

/-- A float operation on every element: one, two or three operands. -/
def fpMap (ty : Ty) (f : List Nat → Nat × FFlags) (ops : List Token) : Result :=
  let cols := ops.map (tyElems ty)
  let n := if tyIsVec ty then 512 / (tyFmt ty).bits else 1
  let rs := (List.range n).map (fun i => f (cols.map (fun (c : List Nat) => c.getD i 0)))
  { tok := tyToken ty (rs.map Prod.fst), flags := orFlags (rs.map Prod.snd), fault := none }

/-- The float types of `feq`, `flt`, `fle`, `fclass` (R89). -/
def dblFmt (dbl : Bool) : Fmt := if dbl then fmt64 else fmt32

/-- The bits of a scalar operand in a format. -/
def scalarBits (F : Fmt) (t : Token) : Nat := t.word.toNat % 2 ^ F.bits

/-- The float format of a type of R91, none for an integer. -/
def cvtFmt : CvtTy → Option Fmt
  | .s => some fmt32
  | .d => some fmt64
  | .l | .lu | .w | .wu => none

/-- The limits of an integer type of R91. -/
def cvtLimits : CvtTy → Int × Int
  | .l => (-2 ^ 63, 2 ^ 63 - 1)
  | .lu => (0, 2 ^ 64 - 1)
  | .w => (-2 ^ 31, 2 ^ 31 - 1)
  | .wu => (0, 2 ^ 32 - 1)
  | .s | .d => (0, 0)

/-- An integer operand read from a token (R91). -/
def cvtInt (t : CvtTy) (w : Word) : Int :=
  match t with
  | .l => signedOf 64 w.toNat
  | .lu => w.toNat
  | .w => signedOf 32 (nfld w 0 32)
  | .wu => nfld w 0 32
  | .s | .d => 0

end Sys2Proof.Machine
end

