-- ==== Sys2Proof/Machine/Branch.lean ====
section
/-! DEFINITION. Branches, halt and the deliberate traps (R59 to R64). -/

namespace Sys2Proof.Machine

/-- A branch fires (R21): a second one records MULTI_EXIT against the higher index. -/
def Frame.takeExit (fr : Frame) (k : Nat) (target : Option Word) (isHalt : Bool) : Frame :=
  let e : Exit := { idx := k, target := target, isHalt := isHalt }
  match fr.exits with
  | [] => { fr.fire k with exits := [e] }
  | _ :: _ =>
    let fr' := (fr.fire k).fault (pairAt k (fr.exits.map Exit.idx)) .multiExit 0 .firing
    { fr' with exits := fr.exits ++ [e] }

/-- R61: the token of g62 in a block that holds a call: the return address of a call that fires, null
when another branch fires. -/
def Frame.link (fr : Frame) (isCall : Bool) : Frame :=
  if fr.hasCall ∧ (fr.gout.get? 62).isNone then
    let t : Token := if isCall then .val (fr.addr + BitVec.ofNat 64 fr.length) else .null
    { fr with gout := fr.gout.put 62 t }
  else fr

/-- A branch with a known target fires; the younger blocks are squashed when it names a successor
other than the predicted one (R14). A misaligned target counts as fired too (R59): it is no address that was predicted,
and no block is fetched there, since the block traps. -/
def Acting.branchTo (a : Acting) (s : State) (isCall : Bool) (target : Word) : State :=
  let fr := (a.fr.takeExit a.k (some target) false).link isCall
  let bad := target.toNat % 32 ≠ 0
  let s := a.commit s (if bad then fr.fault a.k .align target .firing else fr)
  if a.fr.exits.isEmpty then s.resolveExit a.fid a.fr.seq (if bad then none else some target) else s

/-- The target of `br` and `call` (R59). -/
def branchTarget (addr : Word) (off : BitVec 33) : Word := addr + (off.signExtend 64 <<< 5)

/-- A branch to an immediate target. -/
def directBranch (i : Instr) (off : BitVec 33) (s : State) : Host.Outcome State Fault Refusal :=
  match s.acting i with
  | none => .fault .noActingBlock
  | some a =>
    if a.canFire i then .next (a.branchTo s (isCall i) (branchTarget a.fr.addr off)) else .next s

/-- A branch to the value of `.l`: a null keeps it from firing (R20), poison fires it without a target
(R24). -/
def indirectBranch (i : Instr) (s : State) : Host.Outcome State Fault Refusal :=
  match s.acting i with
  | none => .fault .noActingBlock
  | some a =>
    if a.canFire i then
      .next (match a.fr.opL a.k with
        | .val w => a.branchTo s (isCall i) w
        | .null => a.commit s (a.fr.fire a.k)
        | _ => a.commit s ((a.fr.takeExit a.k none false).link (isCall i)))
    else .next s

/-- R60. -/
def execBr (pr : Pred) (exit : BitVec 3) (off : BitVec 33) (s : State) :
    Host.Outcome State Fault Refusal :=
  directBranch (.br pr exit off) off s

/-- R60. -/
def execBri (pr : Pred) (exit : BitVec 3) (s : State) : Host.Outcome State Fault Refusal :=
  indirectBranch (.bri pr exit) s

/-- R61. -/
def execCall (pr : Pred) (exit : BitVec 3) (off : BitVec 33) (s : State) :
    Host.Outcome State Fault Refusal :=
  directBranch (.call pr exit off) off s

/-- R61. -/
def execCalli (pr : Pred) (exit : BitVec 3) (s : State) : Host.Outcome State Fault Refusal :=
  indirectBranch (.calli pr exit) s

/-- R62. -/
def execRet (pr : Pred) (exit : BitVec 3) (s : State) : Host.Outcome State Fault Refusal :=
  indirectBranch (.ret pr exit) s

/-- R63: the exit that halts the fibre when its block commits; nothing more is fetched after it. -/
def execHalt (pr : Pred) (exit : BitVec 3) (s : State) : Host.Outcome State Fault Refusal :=
  match s.acting (.halt pr exit) with
  | none => .fault .noActingBlock
  | some a =>
    if a.canFire (.halt pr exit) then
      let s1 := a.commit s ((a.fr.takeExit a.k none true).link false)
      .next (if a.f.frames.any (fun fr => a.fr.seq < fr.seq) then s1 else s1.setNext a.fid none)
    else .next s

/-- A deliberate trap fires: it records its cause at its index and does nothing else (R64). -/
def deliberate (i : Instr) (c : Cause) (s : State) : Host.Outcome State Fault Refusal :=
  match s.acting i with
  | none => .fault .noActingBlock
  | some a =>
    if a.canFire i then .next (a.commit s ((a.fr.fire a.k).fault a.k c 0 .firing)) else .next s

/-- R64. -/
def execScall (pr : Pred) (code : BitVec 24) (s : State) : Host.Outcome State Fault Refusal :=
  deliberate (.scall pr code) .scall s

/-- R64. -/
def execTrap (pr : Pred) (code : BitVec 24) (s : State) : Host.Outcome State Fault Refusal :=
  deliberate (.trap pr code) .trap s

/-- R64. -/
def execBrk (pr : Pred) (code : BitVec 24) (s : State) : Host.Outcome State Fault Refusal :=
  deliberate (.brk pr code) .brk s

end Sys2Proof.Machine
end

