-- ==== Sys2Proof/Machine/Translate.lean ====
section
/-! DEFINITION. Address spaces, page walks, TLBs, range registers and the checks of an access
(R101 to R116, R55, R98). -/

namespace Sys2Proof.Machine

/-! ### Controller values that other chapters read (R299) -/

/-- The value of a controller register at reset: what the spec states, else 0 (log 3). -/
def ctlReset (off : Nat) : Word :=
  if off = 0x30 ∨ off = 0x58 then 4
  else if off = 0x60 then 10
  else if off = 0x68 then 3
  else if off = 0x70 then 0x000F000201FF01FE
  else if off = 0x80 then 256
  else 0

/-- A controller register. -/
def State.reg (s : State) (off : Nat) : Word := s.ctl.getD off (ctlReset off)

/-- The state with a controller register set. -/
def State.setReg (s : State) (off : Nat) (v : Word) : State := { s with ctl := s.ctl.put off v }

/-- Bytes of a stack (R105). -/
def stackBytes : Nat := 0xC00000000

/-- T, the table-area size in force (R113). -/
def State.tableBytes (s : State) : Nat := nfld (s.reg 0x58) 0 5 * 0x4000000

/-- P, the spill-area size in force (R252). -/
def State.spillBytes (s : State) : Nat := nfld (s.reg 0x58) 8 5 * 0x4000000

/-- LWCFG of a window, whether it is watched, its slots, with NLOG 9 to 15 acting as 8, and where they begin (R187). -/
def State.lwcfg (s : State) (w : Nat) : Word := s.reg (0x300 + 8 * w)
def State.winOn (s : State) (w : Nat) : Bool := fld (s.lwcfg w) 0 1 == 1
def State.winSlots (s : State) (w : Nat) : Nat := 2 ^ (min (nfld (s.lwcfg w) 8 4) 8 + 4)
def State.winBase (s : State) (w : Nat) : Nat := nfld (s.lwcfg w) 16 36 * 0x10000

/-- The end of HBM (R105). -/
def hbmEnd : Nat := 0x18000000000

/-- The port of a CXL address (R105). -/
def portOf (a : Nat) : Option Nat :=
  if 0x8000000000000 ≤ a ∧ a < 0xE000000000000 then some ((a - 0x8000000000000) / 0x800000000000)
  else none

/-! ### Bytes at their homes -/

/-- The byte a home holds, read under `key` (R111): the cached line first; bytes of HBM under another key come out
as the free bytes of that pair of keys. Host memory is not encrypted. A stack that the start has left untrained
gives free bytes (R304, log 55). -/
def State.homeByte (s : State) (a key : Nat) : Byte :=
  match s.llc.get? (lineOf a) with
  | some l => if hbmEnd ≤ a ∨ l.key = key then l.data.getD (a % 128) 0
              else Config.decrypted l.key key a (l.data.getD (a % 128) 0)
  | none =>
    let k := s.lineKey.getD (lineOf a) 0
    if s.untrained.getLsbD (sectorOf a) then Config.untrainedByte a
    else if hbmEnd ≤ a ∨ k = key then s.mem.byte a
    else Config.decrypted k key a (s.mem.byte a)

/-- `n` bytes at their home. -/
def State.homeBytes (s : State) (a n key : Nat) : List Byte :=
  (List.range n).map (fun i => s.homeByte (a + i) key)

/-- The line as its home holds it, under `key`. -/
def State.lineData (s : State) (line key : Nat) : List Byte := s.homeBytes (128 * line) 128 key

/-- The sector of the bridge of an address (R121). -/
def bridgeSector (a : Nat) : Nat := (List.range 9).foldl (fun h i => h ^^^ (a / 2 ^ (7 + 5 * i) % 32)) 0

/-- The slice of a line within its sector (R106). -/
def sliceOf (a : Nat) : Nat := (List.range 8).foldl (fun h i => h ^^^ (a / 2 ^ (7 + 4 * i) % 16)) 0

/-- The sector and slice of the last-level cache that hold a line: those of its home (R106, R121). -/
def cachePlace (line : Nat) : Nat × Nat :=
  (if 128 * line < hbmEnd then sectorOf (128 * line) else bridgeSector (128 * line), sliceOf (128 * line))

/-- R308: the access of a line at its home hits or misses the last-level cache (log 73). -/
def State.countLlc (s : State) (line : Nat) : State :=
  countSector (cachePlace line).1 (if (s.llc.get? line).isSome then 2 else 3) 1 s

/-- The lines that a slice of a sector holds: 8 MiB, and 3 MiB while 80 MiB of the sector's 128 MiB are its shadow
store (R3, R252, R288). -/
def State.sliceLines (s : State) (sec : Nat) : Nat := if nfld (s.reg 0x50) sec 1 = 1 then 0x6000 else 0x10000

/-- A line goes back to where it rests, if it is dirty: to HBM whole, under its key; to host memory the bytes that have been
written, beside what others have written there meanwhile (R97, R111, R147). -/
def State.writeBack (s : State) (line : Nat) (l : LlcLine) : State :=
  if l.dirty = 0 then s
  else if hbmEnd ≤ 128 * line then
    let marked := (List.range 128).filter (fun i => l.dirty.getLsbD i)
    { s with mem := marked.foldl (fun m i => m.setByte (128 * line + i) (l.data.getD i 0)) s.mem }
  else
    { s with mem := s.mem.setBytes (128 * line) l.data
             lineKey := if l.key = 0 then s.lineKey.erase line else s.lineKey.put line l.key }

/-- The last-level cache drops a line, written back if dirty (R120). -/
def State.evictLlc (s : State) (line : Nat) : State :=
  match s.llc.get? line with
  | none => s
  | some l => { s.writeBack line l with llc := s.llc.erase line }

/-- A slice that is full drops a line, which one is free, before it takes another (R3, R288, log 6). -/
def State.makeRoom (s : State) (line : Nat) : State :=
  if (s.llc.get? line).isSome then s
  else
    let here := (s.llc.map Prod.fst).filter (fun l => cachePlace l == cachePlace line)
    if here.length < s.sliceLines (cachePlace line).1 then s
    else s.evictLlc (here.getD (Config.pick s.tick % here.length) line)

/-- R288: the slices that hold more lines than they may, since a shadow store has been enabled, drop lines, which ones is
free (log 6). -/
def State.trimSlices (s : State) : State :=
  (s.llc.map Prod.fst).foldl (fun s line =>
    let here := (s.llc.map Prod.fst).filter (fun l => cachePlace l == cachePlace line)
    if here.length ≤ s.sliceLines (cachePlace line).1 then s
    else { s with tick := s.tick + 1 }.evictLlc (here.getD (Config.pick s.tick % here.length) line)) s

/-- A write at a home: the line is held in the last-level cache, dirty, under the access's key
(R111, R120). Host memory outside the cache is written directly. -/
def State.homeWrite (s : State) (a key : Nat) (bs : List Byte) : State :=
  (List.range bs.length).foldl (fun s i =>
    let b := bs.getD i 0
    let line := lineOf (a + i)
    let s := s.makeRoom line
    let at_ := (a + i) % 128
    let old := s.llc.get? line
    let d := match old with
      | some l => if l.key = key then l.data else s.lineData line key
      | none => s.lineData line key
    let dirty := ((old.map LlcLine.dirty).getD 0) ||| ((1 : BitVec 128) <<< at_)
    { s with llc := s.llc.put line { data := d.set at_ b, dirty := dirty, key := key } }) s

/-- Bytes of cell memory, by cell * 2^20 + offset. -/
def State.cellBytes (s : State) (a n : Nat) : List Byte := s.cmem.bytes a n

/-! ### The walk (R107 to R110) -/

/-- Whether [a, a+n) and [b, b+m) share a byte. -/
def meets (a n b m : Nat) : Bool := 0 < n && 0 < m && a < b + m && b < a + n

/-- The table area or, below it, the spill area of stack k meets [a, a+n) (R113, R252). -/
def State.inTable (s : State) (k a n : Nat) : Bool :=
  meets a n ((k + 1) * stackBytes - s.tableBytes) s.tableBytes
def State.inSpill (s : State) (k a n : Nat) : Bool :=
  meets a n ((k + 1) * stackBytes - s.tableBytes - s.spillBytes) s.spillBytes

/-- The physical address of a leaf (R108). -/
def leafPa (e : Word) : Nat := nfld e 16 36 * 0x10000
def leafCC (e : Word) : Nat := nfld e 6 2
def leafFmt (e : Word) : BitVec 3 := fld e 9 3
def leafGeom (e : Word) : Nat := nfld e 12 2
def leafKey (e : Word) : Nat := nfld e 52 6
def leafOwn (e : Word) : Nat := nfld e 58 6

/-- A leaf that maps 2^shift bytes passes R109; one that shares a byte with a reserved area counts as lying in it
(log 62). -/
def State.leafOk (s : State) (e : Word) (shift : Nat) : Bool :=
  let pa := leafPa e
  let n := 2 ^ shift
  let inHbm := pa + n ≤ hbmEnd
  leafCC e != 3 && leafGeom e != 3 && !(leafGeom e == 1 && leafFmt e != 4) && nfld e 14 2 == 0
    && pa % n == 0
    && (inHbm || (portOf pa).isSome)
    && !(inHbm && ((List.range 32).any fun k => (k != 0 && s.inTable k pa n) || s.inSpill k pa n))
    && (if leafCC e = 0 then inHbm else !inHbm)

/-- The walk from a table at a level (R107, R109): the leaf and the log2 of its page, or none for
PAGE_MISS. The walker of sector `sec` reads its stack's replica (R113), each entry under key 0, under whatever key the leaf
through which it was written names (DESIGN CHOICE, log 87). -/
def State.walkFrom (s : State) (sec : Nat) (va : Word) : Nat → Nat → Option (Word × Nat)
  | level, table =>
    let shift := if level = 0 then 16 else 12 + 9 * level
    let idx := if level = 0 then nfld va 16 5 else nfld va (12 + 9 * level) 9
    let e := leWord (s.homeBytes (sec * stackBytes + table + 8 * idx) 8 0)
    if fld e 0 1 = 0 then none
    else if fld e 1 1 = 1 then
      if level ≥ 3 then none else if s.leafOk e shift then some (e, shift) else none
    else
      let next := nfld e 12 40 * 4096
      if fld e 2 10 ≠ 0 ∨ fld e 52 12 ≠ 0 then none
      else if !(stackBytes - s.tableBytes ≤ next ∧ next + 256 ≤ stackBytes) then none
      else
        match level with
        | 0 => none
        | l + 1 => State.walkFrom s sec va l next

/-- The places of the table entries that a walk reads. -/
def State.walkReads (s : State) (sec : Nat) (va : Word) : Nat → Nat → List Nat
  | level, table =>
    let idx := if level = 0 then nfld va 16 5 else nfld va (12 + 9 * level) 9
    let a := sec * stackBytes + table + 8 * idx
    let e := leWord (s.homeBytes a 8 0)
    let next := nfld e 12 40 * 4096
    a :: (if fld e 0 1 = 0 ∨ fld e 1 1 = 1 ∨ fld e 2 10 ≠ 0 ∨ fld e 52 12 ≠ 0
          ∨ !(stackBytes - s.tableBytes ≤ next ∧ next + 256 ≤ stackBytes) then []
      else match level with
        | 0 => []
        | l + 1 => State.walkReads s sec va l next)

/-- The walk of a context's tables (R107). The first table stands where s.xroot.ROOT says, of which R245 asks that it
be in the primary table area; R109 tests entries only, so a ROOT elsewhere is used as it stands (log 74). -/
def State.walk (s : State) (sec : Nat) (xroot va : Word) : Option (Word × Nat) :=
  s.walkFrom sec va 4 (nfld xroot 12 40 * 4096)

/-- R308: the reads of a walk at their home count. -/
def State.countWalk (s : State) (sec : Nat) (xroot va : Word) : State :=
  (s.walkReads sec va 4 (nfld xroot 12 40 * 4096)).foldl (fun s a => s.countLlc (lineOf a)) s

/-- R126: a host may hold a table entry that a walk reads in any state, and has first to give it up. -/
def State.walkHalf (s : State) (sec : Nat) (xroot va : Word) : Option Nat :=
  ((s.walkReads sec va 4 (nfld xroot 12 40 * 4096)).map halfOf).find? (fun h => s.hdm.getD h false)

/-- The home asks the host for a half of device memory (R126). -/
def State.backInvalidate (s : State) (half : Nat) (inv : Bool) : State :=
  if (s.snoops.get? half).isSome then s
  else { s with snoops := s.snoops.put half inv }.emit
    (.backInv half (if inv then "BISnpInv" else "BISnpData"))

/-- A TLB entry that covers an address in an address space. -/
def TlbEntry.covers (t : TlbEntry) (asn : Nat) (va : Word) : Bool :=
  t.asn == asn && t.vpage == va.toNat / 2 ^ t.shift

/-- A fresh free truth value; the counter advances. -/
def State.toss (s : State) : Bool × State := (Config.coin s.tick, { s with tick := s.tick + 1 })

/-- Fills the TLBs of a cell and its sector, each keeping its newest entries or none (R112). -/
def State.fillTlb (s : State) (cell : Nat) (t : TlbEntry) : State :=
  let (keep1, s) := s.toss
  let (keep2, s) := s.toss
  let c := s.cell cell
  let s := if keep1 then s.setCell cell { c with tlb := (t :: c.tlb).take 128 } else s
  if keep2 then
    { s with tlb2 := s.tlb2.put (dieOfCell cell) ((t :: s.tlb2.getD (dieOfCell cell) []).take 8192) }
  else s

/-- The translation of an address for a cell (R112): a cached entry, or a walk that fills the TLBs. -/
def State.translate (s : State) (cell : Nat) (xroot va : Word) : Option (Word × Nat) × State :=
  let asn := nfld xroot 0 12
  match (s.cell cell).tlb.find? (·.covers asn va) with
  | some t => (some (t.leaf, t.shift), s)
  | none =>
    let s := countCell cell 9 1 s
    match (s.tlb2.getD (dieOfCell cell) []).find? (·.covers asn va) with
    | some t => (some (t.leaf, t.shift), s)
    | none =>
      let s := countSector (dieOfCell cell) 5 1 s
      let s := s.countWalk (dieOfCell cell) xroot va
      match s.walk (dieOfCell cell) xroot va with
      | some (e, sh) =>
        (some (e, sh), s.fillTlb cell { asn := asn, vpage := va.toNat / 2 ^ sh, shift := sh, leaf := e })
      | none => (none, s)

/-- The half of a table entry that the translation of an address has to wait for (R112, R126): none when a TLB has it, the
address needs no walk, or no host holds such a half. -/
def State.translateHalf (s : State) (cell : Nat) (xroot va : Word) : Option Nat :=
  let asn := nfld xroot 0 12
  if nfld va 57 7 ≠ 0 ∨ nfld va 48 16 = 0x1F0 ∨ ((s.cell cell).tlb.find? (·.covers asn va)).isSome
      ∨ ((s.tlb2.getD (dieOfCell cell) []).find? (·.covers asn va)).isSome then none
  else s.walkHalf (dieOfCell cell) xroot va

/-- The addresses at which the pages of `n` bytes at `va` are translated, in units of 64 KiB. -/
def pageVas (va : Word) (n : Nat) : List Word :=
  va :: (List.range ((va.toNat % 0x10000 + (n - 1)) / 0x10000)).map (fun i =>
    va - BitVec.ofNat 64 (va.toNat % 0x10000) + BitVec.ofNat 64 (0x10000 * (i + 1)))

/-- R126: the first half that some translation of the bytes of an access has to wait for; the home asks the host for it. -/
def State.walkWaits (s : State) (cell : Nat) (x : Xlate) (rs : List (Word × Nat)) : Option State :=
  ((rs.flatMap (fun r => pageVas r.1 r.2)).findSome? (s.translateHalf cell x.xroot)).map (fun h => s.backInvalidate h false)

/-- What an access is, for the checks. -/
inductive AccKind where
  | load | store | atomic | fetch
  deriving DecidableEq, Repr

/-- R110: the cause a leaf refuses an access with. -/
def permit (x : Xlate) (kind : AccKind) (e : Word) : Option Cause :=
  let r := fld e 2 1 == 1
  let w := fld e 3 1 == 1
  let ok := match kind with
    | .load => r
    | .store => w
    | .atomic => r && w
    | .fetch => fld e 4 1 == 1
  if !ok || (x.level = .a && fld e 5 1 == 0) then some .pageProt
  else if !(leafOwn e == 0 || leafOwn e == nfld x.xown 0 6) then some .key
  else if !(leafKey e == 0 || x.xkeys.getLsbD (leafKey e)) then some .key
  else none

/-- R115: an address matches a range register. -/
def declared (x : Xlate) (va : Word) : Bool :=
  nfld va 48 16 != 0x1F0 && (List.range 16).any (fun n =>
    let b := x.ncbase.getD n 0
    let l := x.nclim.getD n 0
    fld b 0 1 == 1 && nfld b 16 41 ≤ nfld va 16 41 && nfld va 16 41 ≤ nfld l 16 41)

/-! ### Windows (R102 to R104) -/

/-- What an address of the aperture reaches: the place in cell memory, a missing peer, or nothing. -/
inductive Window where
  | place (a : Nat)
  | peer
  | noPage
  deriving DecidableEq, Repr

/-- The offset in the aperture (R101, R102). -/
def apertureOff (va : Word) : Option Nat :=
  if nfld va 48 16 = 0x1F0 then some (nfld va 0 48) else none

/-- The window of an offset: the member that it names and the place in its memory (R102, R103). -/
def window (g : Group) (l : Launch) (own : Nat) (o : Nat) : Window :=
  if o < 0x100000 then .place (own * 0x100000 + o)
  else if 0x100000000 ≤ o ∧ o < 0x200000000 then
    let k := (o / 0x100000) % 4096
    if k < l.cells then .place (memberCell g l k * 0x100000 + o % 0x100000) else .peer
  else .noPage

/-- The number of the window that an address lies in (R104): the own-cell window, or a member's slot; 0 for none. -/
def windowNo (va : Word) : Nat :=
  match apertureOff va with
  | none => 0
  | some o =>
    if o < 0x100000 then 1
    else if 0x100000000 ≤ o ∧ o < 0x200000000 then 2 + o / 0x100000
    else 0

/-! ### Checked segments of an access -/

/-- A part of an access that lies on one page or in one window, with its format tag. -/
structure Seg where
  va : Word
  n : Nat
  loc : Loc
  tag : BitVec 3
  leaf : Word
  deriving DecidableEq, Repr

/-- The context of an access: group, launch, the cell it acts from, and translation. -/
structure Ctx where
  g : Group
  l : Launch
  cell : Nat
  x : Xlate
  deriving DecidableEq, Repr

/-- The context of a fibre. -/
def State.fibreCtx (s : State) (f : Fibre) : Option Ctx := do
  let (g, l) ← s.ctxOf f
  return { g := g, l := l, cell := memberCell g l f.member, x := f.xlate }

/-- The location of an address on a page (R111, R116). -/
def pageLoc (x : Xlate) (va : Word) (e : Word) (shift : Nat) : Loc :=
  let pa := leafPa e + va.toNat % 2 ^ shift
  let d := declared x va
  let cc := if leafCC e = 1 ∧ d then 2 else leafCC e
  { space := if cc = 0 then .hbm else if cc = 1 then .hostCoh else .hostNc
    addr := pa, key := leafKey e
    ca := if leafCC e = 1 ∧ d then true else fld e 8 1 == 1
    declared := d }

/-- The granule tag of a place in cell memory (R262). -/
def State.granule (s : State) (a : Nat) : BitVec 4 := s.gtag.getD (a / 4096) 7

/-- The tag a granule gives a token (R130). -/
def granuleTag (t : BitVec 4) : BitVec 3 := if t.getLsbD 3 then 7 else fld t 0 3

/-- The pages of the `n` bytes at `va` in units of 64 KiB: each with its translation. -/
def State.pagesOf (s : State) (c : Ctx) : Nat → Word → Nat → List (Word × Nat × Option (Word × Nat)) × State
  | 0, _, _ => ([], s)
  | fuel + 1, va, n =>
    if n = 0 then ([], s)
    else
      let here := min n (0x10000 - va.toNat % 0x10000)
      let (t, s) := if nfld va 57 7 ≠ 0 ∨ nfld va 48 16 = 0x1F0 then (none, s)
                    else s.translate c.cell c.x.xroot va
      let (rest, s) := State.pagesOf s c fuel (va + BitVec.ofNat 64 here) (n - here)
      ((va, here, t) :: rest, s)

/-- The checks of R55 up to KEY for `n` bytes at `va` (3 to 7), and the segments when all pass. -/
def State.segments (s : State) (c : Ctx) (kind : AccKind) (va : Word) (n : Nat) :
    Except (Cause × Word) (List Seg) × State :=
  let last := va + BitVec.ofNat 64 (n - 1)
  if nfld va 57 7 ≠ 0 then (.error (.pageMiss, va), s)
  else
    match apertureOff va with
    | some o =>
      match window c.g c.l c.cell o with
      | .peer => (.error (.peer, va), s)
      | .noPage => (.error (if windowNo last = 0 then .pageMiss else .windowSpan, va), s)
      | .place a =>
        if windowNo va ≠ windowNo last then (.error (.windowSpan, va), s)
        else
          let loc : Loc := { space := .cell, addr := a, key := 0, ca := false, declared := false }
          (.ok [{ va := va, n := n, loc := loc, tag := granuleTag (s.granule a), leaf := 0 }], s)
    | none =>
      if windowNo last ≠ 0 then (.error (.windowSpan, va), s) else
      let (pages, s) := s.pagesOf c 3 va n
      match pages.find? (fun p => p.2.2.isNone) with
      | some p => (.error (.pageMiss, p.1), s)
      | none =>
        let refused := fun (want : Cause) => pages.find? (fun p =>
          match p.2.2 with
          | some (e, _) => permit c.x kind e == some want
          | none => false)
        match refused .pageProt with
        | some p => (.error (.pageProt, p.1), s)
        | none =>
          match refused .key with
          | some p => (.error (.key, p.1), s)
          | none =>
            (.ok (pages.filterMap (fun p => p.2.2.map (fun t =>
              { va := p.1, n := p.2.1, loc := pageLoc c.x p.1 t.1 t.2, tag := leafFmt t.1
                leaf := t.1 }))), s)

/-- What a memory instruction asks of R55 beside its bytes. -/
structure Want where
  kind : AccKind
  /-- alignment that the access must have, 1 for none -/
  align : Nat
  inRegion : Bool
  /-- formats an atomic admits, any when empty (R98) -/
  formats : List (BitVec 3)
  /-- the operation and width of an AtomicOp (R144): none for no atomic -/
  amo : Option (Nat × Nat)
  deriving DecidableEq, Repr

/-- R126: the state in which an access still waits for a table entry that a host holds, before its checks are made. -/
def State.checkWaits (s : State) (c : Ctx) (w : Want) (va : Word) (n : Nat) : Option State :=
  if va.toNat % w.align ≠ 0 then none else s.walkWaits c.cell c.x [(va, n)]

/-- R55, R98 and R144 in their order; what R144 adds stands between the formats and the spaces of R98 (log 71). -/
def State.check (s : State) (c : Ctx) (w : Want) (va : Word) (n : Nat) :
    Except (Cause × Word) (List Seg) × State :=
  if nfld va 57 7 ≠ 0 then (.error (.pageMiss, va), s)
  else if va.toNat % w.align ≠ 0 then (.error (.align, va), s)
  else
    match s.segments c w.kind va n with
    | (.error e, s) => (.error e, s)
    | (.ok segs, s) =>
      let typeBad := !w.formats.isEmpty && segs.any (fun (g : Seg) =>
        !w.formats.contains g.tag || (g.loc.space == Space.cell && (s.granule g.loc.addr).getLsbD 3))
      let unsup := match w.amo with
        | none => false
        | some (op, width) => segs.any (fun (g : Seg) => g.loc.space == Space.hostNc &&
            !(op ≤ 2 && Config.completerHas g.loc.addr op width))
      if typeBad then (.error (.atomType, va), s)
      else if unsup then (.error (.atomUnsup, va), s)
      else if w.inRegion && segs.any (fun (g : Seg) => g.loc.space == Space.hostCoh || g.loc.space == Space.hostNc || g.loc.declared) then
        (.error (.rgnSpace, va), s)
      else if w.inRegion && w.kind != AccKind.load && segs.any (fun (g : Seg) => g.loc.space == Space.cell) then
        (.error (.rgnLocal, va), s)
      else (.ok segs, s)

end Sys2Proof.Machine
end

