-- ==== Sys2Proof/Machine/Virga.lean ====
section
/-! DEFINITION. The Virga unit: slots, edges, versions and read marks, abort, and what they do to lines
(R162 to R174). Its events stand in Region.lean. -/

namespace Sys2Proof.Machine

/-- The state with the Virga unit changed. -/
def State.modVirga (s : State) (f : Virga → Virga) : State := { s with virga := f s.virga }

/-- The region state of a line (R164). -/
def Virga.line (v : Virga) (l : Nat) : LineRgn := v.lines.getD l { versions := [], marks := [] }

/-- The region state of a line set; a line without any is not listed. -/
def Virga.setLine (v : Virga) (l : Nat) (r : LineRgn) : Virga :=
  { v with lines := if r.versions.isEmpty && r.marks.isEmpty then v.lines.erase l else v.lines.put l r }

/-- Reach[A][B] (R168). -/
def Virga.reaches (v : Virga) (a b : Nat) : Bool := v.reach.contains (a, b)

/-- The predecessors of a slot. -/
def Virga.preds (v : Virga) (y : Nat) : List (Nat × Bool) :=
  match v.slots.get? y with
  | some x => x.preds
  | none => []

/-- The longest path that ends at a slot (R168), looked for through at most `fuel` edges. -/
def Virga.depthIn (v : Virga) : Nat → Nat → Nat
  | 0, _ => 0
  | fuel + 1, y => ((v.preds y).map (fun p => Virga.depthIn v fuel p.1 + 1)).foldl max 0
def Virga.depth (v : Virga) (y : Nat) : Nat := v.depthIn 16 y

/-- The longest path that starts at a slot (R168). -/
def Virga.heightIn (v : Virga) : Nat → Nat → Nat
  | 0, _ => 0
  | fuel + 1, x =>
    ((v.slots.filter (fun e => e.2.preds.any (fun p => p.1 == x))).map
      (fun e => Virga.heightIn v fuel e.1 + 1)).foldl max 0
def Virga.height (v : Virga) (x : Nat) : Nat := v.heightIn 16 x

/-- The slot and grant still name an OPEN or ENDED region (R163, R173). -/
def Virga.alive (v : Virga) (slot grant : Nat) : Bool :=
  match v.slots.get? slot with
  | some x => x.grant == grant && (x.state == .opened || x.state == .ended)
  | none => false

/-- Lines that hold a version of the slot (R172, R181). -/
def Virga.writtenLines (v : Virga) (slot : Nat) : Nat :=
  (v.lines.filter (fun e => e.2.versions.any (fun x => x.slot == slot))).length

/-- Drops every version and read mark of a slot. -/
def Virga.dropLines (v : Virga) (slot : Nat) : Virga :=
  let cut := fun (r : LineRgn) => ({ versions := r.versions.filter (fun x => x.slot != slot)
                                     marks := r.marks.filter (· != slot) } : LineRgn)
  let kept := (v.lines.mapV cut).filter (fun e => !(e.2.versions.isEmpty && e.2.marks.isEmpty))
  { v with lines := kept }

/-- R171, R172: every edge into and out of a slot goes, its row and its column of Reach are cleared, and the slot becomes
FREE. Reach keeps the other pairs, also one that only a path through the slot joined (log 60). -/
def Virga.removeSlot (v : Virga) (slot : Nat) : Virga :=
  { v with
    slots := (v.slots.erase slot).mapV (fun x => { x with preds := x.preds.filter (fun p => p.1 != slot) })
    reach := v.reach.filter (fun e => e.1 != slot && e.2 != slot)
    commits := v.commits.filter (· != slot)
    freed := v.freed + 1 }

/-- R170: the edges of one request are added, `fwd` those that carry the forward flag. -/
def Virga.addEdges (v : Virga) (y : Nat) (before fwd : List Nat) : Virga :=
  (before ++ fwd).foldl (fun v x =>
    match v.slots.get? y with
    | none => v
    | some sl =>
      let flag := fwd.contains x
      if sl.preds.any (fun p => p.1 == x) then
        { v with slots := v.slots.put y { sl with
            preds := sl.preds.map (fun p => if p.1 = x then (x, p.2 || flag) else p) } }
      else
        let ups := x :: (v.reach.filter (fun e => e.2 == x)).map Prod.fst
        let downs := y :: (v.reach.filter (fun e => e.1 == y)).map Prod.snd
        let new := ups.flatMap (fun a => downs.map (fun d => (a, d)))
        { v with
          slots := v.slots.put y { sl with preds := sl.preds ++ [(x, flag)] }
          reach := v.reach ++ (new.filter (fun e => !v.reach.contains e)).eraseDups }) v

/-- Two regions have touched a line in common, which one of them has written (R159). -/
def Virga.conflict (v : Virga) (a b : Nat) : Bool :=
  v.lines.any (fun l =>
    let wrote := fun (x : Nat) => l.2.versions.any (fun e => e.slot == x)
    let touched := fun (x : Nat) => l.2.marks.contains x || wrote x
    (wrote a && touched b) || (touched a && wrote b))

/-- A region that still stands comes before `y` on a line: it reaches `y`, so `y` has not seen its place there by an edge,
and they conflict. Where an abort has taken the path between them away, `y` still commits after it, since R161 and R159
order the regions on that line as they were ordered when they touched it (log 75). -/
def Virga.comesBefore (v : Virga) (x y : Nat) : Bool := v.reaches x y && v.conflict x y

/-- R161: an ENDED region without a predecessor waits for the regions that come before it. -/
def Virga.mayCommit (v : Virga) (y : Nat) (sl : Slot) : Bool :=
  sl.state == .ended && sl.preds.isEmpty && v.slots.all (fun e => !v.comesBefore e.1 y)

/-- R163, R171: ENDED slots without a predecessor enter COMMITTING, in ascending slot number. -/
def Virga.promote (v : Virga) : Virga :=
  let ready := (v.slots.filter (fun e => v.mayCommit e.1 e.2)).map Prod.fst
  ready.foldl (fun v n =>
    { v with slots := v.slots.modify n (fun x => { x with state := .committing })
             commits := v.commits ++ [n] }) v

/-- R174: since when some region with an edge from each slot has been ENDED without a break; a region that waits for one
that comes before it counts as one with an edge from it (log 75). -/
def Virga.timers (v : Virga) (now : Nat) : Virga :=
  { v with slots := v.slots.map (fun e =>
      let waits := v.slots.any (fun y => y.2.state == .ended
        && (y.2.preds.any (fun p => p.1 == e.1) || v.comesBefore e.1 y.1))
      (e.1, { e.2 with waitedSince := if waits then some (e.2.waitedSince.getD now) else none })) }

/-- What follows every change of the graph. -/
def State.settle (s : State) : State := s.modVirga (fun v => v.promote.timers s.time)

/-- The answer of the Virga unit to a fibre: 0 committed, else the cause (R171, R172). -/
def State.answerFibre (s : State) (fid code : Nat) : State :=
  s.modFibre fid (fun f => { f with answer := some code })

/-- R172, with at most `fuel` nested cascades; the first cause stands (R163). -/
def State.abortIn : Nat → State → Nat → Nat → State
  | 0, s, _, _ => s
  | fuel + 1, s, slot, cause =>
    match s.virga.slots.get? slot with
    | none => s
    | some x =>
      if x.state = .opened ∨ x.state = .ended then
        let s1 := s.modVirga (fun v =>
          { v with slots := v.slots.put slot { x with state := .aborting } }.dropLines slot)
        let deps := (s1.virga.slots.filter (fun e => e.2.preds.contains (slot, true))).map Prod.fst
        let s2 := deps.foldl (fun s d => State.abortIn fuel s d 2) s1
        countSector 12 12 1 ((s2.modVirga (fun v => v.removeSlot slot)).answerFibre x.fid cause)
      else s

/-- R172: the region in a slot aborts. -/
def State.abortSlot (s : State) (slot cause : Nat) : State := (State.abortIn 513 s slot cause).settle

/-- R169, conditions 1 and 2: the predecessors and the chain that the request would make. -/
def Virga.boundsFail (v : Virga) (y : Nat) (ps : List Nat) : Bool :=
  let old := (v.preds y).map Prod.fst
  let new := (ps.filter (fun x => !old.contains x)).eraseDups
  8 < old.length + new.length || new.any (fun x => 8 < v.depth x + 1 + v.height y)

/-- R165: the version that region `y` takes byte `off` of a line from: its own, or the last it may take;
none for the committed value. -/
def Virga.takes (v : Virga) (y line off : Nat) : Option (Nat × Byte) :=
  let vs := (v.line line).versions
  match vs.find? (fun e => e.slot == y && (e.bytes.get? off).isSome) with
  | some e => (e.bytes.get? off).map (fun b => (y, b))
  | none =>
    match (vs.filter (fun e => e.slot != y && !v.reaches y e.slot && (e.bytes.get? off).isSome)).getLast? with
    | some e => (e.bytes.get? off).map (fun b => (e.slot, b))
    | none => none

/-- R165: the regions that a read of the bytes `offs` of a line takes forwards from. -/
def Virga.forwards (v : Virga) (y line : Nat) (offs : List Nat) : List Nat :=
  ((offs.filterMap (fun o => v.takes y line o)).map Prod.fst).filter (· != y) |>.eraseDups

/-- R166: the regions that must come before a write of region `y` to a line. -/
def Virga.writeEdges (v : Virga) (y line : Nat) : List Nat :=
  let r := v.line line
  (r.marks.filter (· != y) ++
    (r.versions.map Version.slot).filter (fun x => x != y && !v.reaches y x)).eraseDups

/-- The read mark of a region is set on a line (R164). -/
def Virga.mark (v : Virga) (y line : Nat) : Virga :=
  let r := v.line line
  if r.marks.contains y then v else v.setLine line { r with marks := r.marks ++ [y] }

/-- R166: bytes enter the version of a region on a line; a new version stands before the first version
of a region that it reaches, else last. -/
def Virga.writeVersion (v : Virga) (y line key : Nat) (bytes : List (Nat × Byte)) (rings : List (Nat × Nat)) : Virga :=
  let r := v.line line
  let add := fun (d : Dict Byte) => bytes.foldl (fun d e => d.put e.1 e.2) d
  if r.versions.any (fun e => e.slot == y) then
    v.setLine line { r with versions := r.versions.map (fun e => if e.slot = y then { e with bytes := add e.bytes, rings := (e.rings ++ rings).eraseDups } else e) }
  else
    let before := r.versions.takeWhile (fun e => !v.reaches y e.slot)
    let after := r.versions.dropWhile (fun e => !v.reaches y e.slot)
    v.setLine line { r with versions := before ++ [{ slot := y, key := key, bytes := add [], rings := rings }] ++ after }

/-- R169, condition 4. -/
def Virga.marksFull (v : Virga) (y line : Nat) : Bool :=
  let r := v.line line
  !r.marks.contains y && 8 ≤ r.marks.length

/-- R169, condition 3. -/
def Virga.versionsFull (v : Virga) (y line : Nat) : Bool :=
  let r := v.line line
  !r.versions.any (fun e => e.slot == y) && 4 ≤ r.versions.length

/-- R172, OVERFLOW: the write would give the region a version on a 513th line. -/
def Virga.overflows (v : Virga) (y line : Nat) : Bool :=
  !(v.line line).versions.any (fun e => e.slot == y) && 512 ≤ v.writtenLines y

/-- R167: a COMMITTING region has read or written the line. -/
def Virga.committingOn (v : Virga) (line : Nat) : Bool :=
  let r := v.line line
  v.commits.any (fun x => r.marks.contains x || r.versions.any (fun e => e.slot == x))

/-- R167: a plain write aborts every OPEN or ENDED region that holds a read mark on the line. -/
def State.plainConflict (s : State) (line : Nat) : State :=
  ((s.virga.line line).marks).foldl (fun s x => s.abortSlot x 5) s

/-- R173: the blocks of the fibre vanish, the registers are restored, and it goes on at the handler. The fibre keeps its
trap level: where a trap in a STEP or BRK handler meets a region that has aborted with another cause already, the region's
handler runs at the level of that trap handler (DESIGN CHOICE, log 31). -/
def State.takeAbort (s : State) (fid : Nat) (f : Fibre) (c : Nat) : State :=
  let seq := ((f.frames.head?).map Frame.seq).getD f.nextSeq
  let s := countCell (s.cellOf f) 13 1 (s.squash fid seq 0)
  s.modFibre fid (fun f => { (f.restore c) with
    answer := none, rgnTrap := false, rgnKept := none, held := none, heldAccesses := []
    next := some (f.rgnh &&& ~~~0x1F), park := .none })

end Sys2Proof.Machine
end

