-- ==== Sys2Proof/Machine/Lsq.lean ====
section
/-! DEFINITION. The load-store queue: the accesses of a fibre, their order, what they wait for, forwarding
and violations (R26, R27, R57, R137 to R139, R143, R149, R162, R184). -/

namespace Sys2Proof.Machine

/-! ### Accesses -/

/-- Place in the order (block sequence, LSID) of R27. -/
def orderKey (seq lsid : Nat) : Nat := 64 * seq + lsid
def Access.key (a : Access) : Nat := orderKey a.seq a.lsid

/-- The suffix and scope of a memory instruction. -/
def ordOf (i : Instr) : Order := ((memOf i).map MemF.ord).getD .rlx
def scopeOf (i : Instr) : Scope := ((memOf i).map MemF.scope).getD .fibre

/-- It acquires (R57, R143). -/
def acquires (i : Instr) : Bool := !isFence i && (ordOf i == .acq || ordOf i == .ar)
/-- It releases (R57, R143). -/
def releases (i : Instr) : Bool := !isFence i && (ordOf i == .rel || ordOf i == .ar)

/-- It reads: a load, a gather or an atomic. -/
def reads (i : Instr) : Bool := isLoad i || isAtomic i

/-- Every piece has been performed. -/
def Access.landed (a : Access) : Bool := a.pieces.all (fun p => p.stage == .done)

/-- A read has returned its value (R139). -/
def Access.returned (a : Access) : Bool := !reads a.ins || a.landed

/-- The access has performed (R139, R147): a write has been acknowledged. -/
def Access.performed (a : Access) : Bool :=
  if isFence a.ins then true
  else if isStore a.ins || isCacheOp a.ins then a.acked
  else a.landed

/-- Two classes name places of one memory: cell memory, or the physical addresses of HBM and host memory. -/
def Space.same (a b : Space) : Bool := (a == .cell) == (b == .cell)

/-- Whether two pieces share a byte, by whichever path they reach it (R97). -/
def Piece.meets (p q : Piece) : Bool :=
  p.loc.space.same q.loc.space && Machine.meets p.loc.addr p.n q.loc.addr q.n

/-- Whether two accesses share a byte. -/
def Access.overlaps (a b : Access) : Bool := a.pieces.any (fun p => b.pieces.any p.meets)

/-- R131: of two lanes of a scatter that name one element the higher wins, so a piece waits for the earlier ones
that it meets. -/
def Access.laneTurn (a : Access) (n : Nat) (p : Piece) : Bool :=
  isLoad a.ins || (a.pieces.take n).all (fun q => q.stage == .done || !p.meets q)

/-- The accesses of a fibre, with their numbers. -/
def State.accessesOf (s : State) (fid : Nat) : Dict Access := s.accesses.filter (fun e => e.2.fid == fid)

/-- The memory instructions of a block that may still fire: place in the order and instruction. -/
def Frame.unfired (fr : Frame) : List (Nat × Instr) :=
  if !fr.fetched then [] else
    fr.live.filterMap (fun k =>
      if fr.fired.contains k then none
      else match fr.instr k with
        | some i => (lsidOf i).map (fun n => (orderKey fr.seq n, i))
        | none => none)

/-- The memory instructions of a fibre's blocks that may still fire, those of a block apart that runs serially, which
is taken in index order (R22). -/
def Fibre.unfired (f : Fibre) : List (Nat × Instr) :=
  f.frames.flatMap (fun fr => if fr.ser then [] else fr.unfired)

/-! ### What an access waits for -/

/-- Every access before `key` has performed, and none is still to come. -/
def State.allBefore (s : State) (f : Fibre) (fid key : Nat) : Bool :=
  (s.accessesOf fid).all (fun e => key ≤ e.2.key || e.2.performed)
    && f.unfired.all (fun u => key ≤ u.1 || isFence u.2)

/-- Every read before `key` has returned. -/
def State.readsBefore (s : State) (f : Fibre) (fid key : Nat) : Bool :=
  (s.accessesOf fid).all (fun e => key ≤ e.2.key || e.2.returned)
    && f.unfired.all (fun u => key ≤ u.1 || !reads u.2)

/-- Every store and atomic before `key` has been acknowledged. -/
def State.writesBefore (s : State) (f : Fibre) (fid key : Nat) : Bool :=
  (s.accessesOf fid).all (fun e => key ≤ e.2.key || !isStore e.2.ins || e.2.acked)
    && f.unfired.all (fun u => key ≤ u.1 || !isStore u.2)

/-- What a fence holds back still (R139): nothing at FIBRE scope. -/
def State.fenceHolds (s : State) (f : Fibre) (fid : Nat) (fence : Access) (i : Instr) : Bool :=
  let k := fence.key
  let o := ordOf fence.ins
  let acq := o == .acq || o == .ar || o == .rlx
  let rel := o == .rel || o == .ar || o == .rlx
  scopeOf fence.ins != .fibre &&
    ((acq && !s.readsBefore f fid k)
      || (rel && (isStore i || isCacheOp i) && !s.allBefore f fid k)
      || (o == .rlx && !s.writesBefore f fid k))

/-- A fence whose waits have ended. -/
def State.fenceDone (s : State) (f : Fibre) (fid : Nat) (fence : Access) : Bool :=
  scopeOf fence.ins == .fibre || s.allBefore f fid fence.key

/-- An access is irrevocable (R57). -/
def Access.irrevocable (a : Access) : Bool :=
  isLoad a.ins && ((ordOf a.ins == .acq && scopeOf a.ins == .system)
    || a.pieces.any (fun p => p.loc.space == .hostNc && !p.loc.ca))

/-- The region instructions that bound a region (R178, R179). -/
def isRgnBeg : Instr → Bool
  | .rgnBeg _ _ _ => true
  | _ => false
def isRgnEnd : Instr → Bool
  | .rgnEnd _ => true
  | _ => false
def isRgnAbt : Instr → Bool
  | .rgnAbt _ => true
  | _ => false

/-- The instruction at K has fired or may still fire. -/
def Frame.around (fr : Frame) (k : Nat) : Bool := fr.fired.contains k || fr.live.contains k

/-- Some instruction of the block that fired or may fire satisfies `p`. -/
def Frame.someAround (fr : Frame) (p : Instr → Bool) : Bool :=
  (List.range fr.words.length).any (fun k => ((fr.instr k).map p).getD false && fr.around k)

/-- Some fired instruction of the block satisfies `p`. -/
def Frame.someFired (fr : Frame) (p : Instr → Bool) : Bool :=
  fr.fired.any (fun k => ((fr.instr k).map p).getD false)

/-- R26: a store of the block leaves early. -/
def State.leavesEarly (s : State) (fr : Frame) (a : Access) : Bool :=
  fr.someAround (fun i => isIrrevocable i || isTlbinv i ||
      ((isAtomic i || isFence i) && ((lsidOf i).map (fun n => decide (a.lsid < n))).getD false))
    || s.accesses.any (fun e => e.2.fid == a.fid && e.2.seq == a.seq && a.lsid < e.2.lsid && e.2.irrevocable)

/-- A read of a register or a wait of the block has its operands and has not fired: it may still park the fibre
(R31, R204). A serial block takes it in its turn. -/
def Frame.mayPark (fr : Frame) : Bool :=
  !fr.ser && (List.range fr.words.length).any (fun k => match fr.instr k with
    | some (.read p r t u) => fr.ready k (.read p r t u)
    | some (.vread p r t u) => fr.ready k (.vread p r t u)
    | some i => isWait i && fr.ready k i
    | none => false)

/-- R206: an arrival of a fibre at a barrier of its group would park it. -/
def State.barParks (s : State) (f : Fibre) (fid bar : Nat) : Bool :=
  match (s.group? f.gid).bind (fun g => g.bars.get? bar) with
  | some x => x.phase + x.limit ≤ max (x.next.getD fid 0) x.phase
  | none => true

/-- A `bar.arr` of the block that is ready would park the fibre (R206). -/
def State.arrivalParks (s : State) (f : Fibre) (fid : Nat) (fr : Frame) : Bool :=
  !fr.ser && (List.range fr.words.length).any (fun k => match fr.instr k with
    | some (.barArr p b t u) => fr.ready k (.barArr p b t u) && s.barParks f fid b.toNat
    | _ => false)

/-- R26: the three conditions on an atomic, an irrevocable access or an early store; what may park the fibre goes
first, since parking changes no visible state (R31, log 59). -/
def State.r26 (s : State) (f : Fibre) (fr : Frame) (a : Access) : Bool :=
  f.isOldest a.seq && fr.faults.isEmpty && !fr.mayPark && !s.arrivalParks f a.fid fr
    && (s.accessesOf a.fid).all (fun e => !(e.2.seq == a.seq && e.2.lsid < a.lsid) || e.2.performed)
    && f.unfired.all (fun u => !(orderKey a.seq 0 ≤ u.1 && u.1 < a.key) || isFence u.2)
    && !fr.lost fr.live a.lsid

/-- R162: the access stands behind an uncommitted boundary of a region. -/
def Fibre.behindBoundary (f : Fibre) (seq : Nat) : Bool :=
  f.frames.any (fun fr => fr.seq < seq && fr.someAround (fun i => isRgnBeg i || isRgnEnd i))

/-- An acquire that is no memory instruction: R184, R207, R209; at FIBRE scope it orders nothing (R203). -/
def isAcquireOp : Instr → Bool
  | .wqTake _ sc _ _ => sc != .fibre
  | .wqSteal _ sc _ _ => sc != .fibre
  | .evtWait _ sc => sc != .fibre
  | i => isWait i

/-- An acquire that is no memory instruction, or a read that may consume a status word (R10, R157), stands
before the block and may still fire. -/
def Fibre.behindWait (f : Fibre) (seq : Nat) : Bool :=
  f.frames.any (fun fr => fr.seq < seq && fr.live.any (fun k => !fr.fired.contains k &&
    ((fr.instr k).map (fun i => isAcquireOp i || (match i with
      | .read _ r _ _ => f.gpend.getLsbD r.toNat
          || f.frames.any (fun o => o.seq < fr.seq && o.mayCommand r.toNat)
      | _ => false))).getD false))

/-- A block whose effects may not be repeated by a squash. -/
def Frame.careful (fr : Frame) : Bool :=
  fr.someAround (fun i => isAtomic i || isFence i || isIrrevocable i || isTlbinv i
    || (acquires i && scopeOf i == .system))

/-- The block without the result of K. -/
def Frame.without (fr : Frame) (k : Nat) : Frame := { fr with owed := fr.owed.filter (· != k) }

/-- No later event can call for a squash of the load's block on its account (R27, R148): every memory instruction of
the block below it has fired, those apart that its own result feeds, and the reads of its bytes below it have
returned. A serial block takes its accesses in index order (R22). -/
def State.orderly (s : State) (fr : Frame) (a : Access) : Bool :=
  fr.ser || ((fr.without a.idx).unfired.all (fun u => a.key ≤ u.1)
    && (s.accessesOf a.fid).all (fun e => !(e.2.seq == a.seq && e.2.key < a.key && reads e.2.ins && e.2.overlaps a)
        || e.2.returned))

/-- An access of the block in the queue is irrevocable (R57): by its suffix, or by the page that it reads. -/
def State.holdsIrrevocable (s : State) (fid seq : Nat) : Bool :=
  s.accesses.any (fun e => e.2.fid == fid && e.2.seq == seq && e.2.irrevocable)

/-- A load of the block has begun while a later event may still squash the block on its account. -/
def State.speculates (s : State) (fid : Nat) (fr : Frame) : Bool :=
  s.accesses.any (fun e => e.2.fid == fid && e.2.seq == fr.seq && isLoad e.2.ins
    && e.2.pieces.any (fun p => p.stage != .held) && !s.orderly fr e.2)

/-- Everything that an access waits for in its own fibre. In a block whose effects may not be repeated a load waits
until nothing can call for a squash on its account (log 24). A store that leaves at commit stands behind the cache
operations before it in LSID order (R135). -/
def State.mayPerform (s : State) (a : Access) : Bool :=
  match s.fibre? a.fid with
  | none => a.released
  | some f =>
    let before := (s.accessesOf a.fid).filter (fun e => e.2.key < a.key)
    let acqOk := before.all (fun e => !acquires e.2.ins || e.2.returned)
      && f.unfired.all (fun u => a.key ≤ u.1 || !acquires u.2)
    let fenceOk := before.all (fun e => !isFence e.2.ins || !s.fenceHolds f a.fid e.2 a.ins)
      && f.unfired.all (fun u => a.key ≤ u.1 || !isFence u.2)
    let relOk := !releases a.ins || s.allBefore f a.fid a.key
    let cacheOk := !(a.released && isStoreOnly a.ins) ||
      before.all (fun e => !(isCacheOp e.2.ins && e.2.released) || e.2.acked)
    let sameOk := before.all (fun e => !e.2.overlaps a ||
      (if isStore a.ins then e.2.landed && (!isStore e.2.ins || e.2.acked)
       else if isStoreOnly e.2.ins then true else e.2.returned))
    let own := match f.frame? a.seq with
      | none => a.released
      | some fr =>
        (a.released || !(isAtomic a.ins || a.irrevocable || isStoreOnly a.ins) || s.r26 f fr a)
          && (a.released || !isStoreOnly a.ins || s.leavesEarly fr a)
          && (a.released || !isCacheOp a.ins)
          && (!isLoad a.ins || !(fr.careful || s.holdsIrrevocable a.fid a.seq) || s.orderly fr a)
    !(isStoreOnly a.ins && a.poison) && acqOk && fenceOk && relOk && cacheOk && sameOk && own && !f.behindBoundary a.seq && !f.behindWait a.seq

/-! ### Forwarding and violations -/

/-- The byte that a store holds for a location, if it covers it and its home has not performed it; a poisoned
value has none (R13). -/
def Access.holds (a : Access) (sp : Space) (addr : Nat) : Option (Option Byte) :=
  match (a.pieces.filter (fun p => p.stage != .done && p.loc.space.same sp && p.loc.addr ≤ addr
      && addr < p.loc.addr + p.n)).getLast? with
  | some p => some (if a.poison then none else p.data[addr - p.loc.addr]?)
  | none => none

/-- The region an access belongs to, once it leaves (R173). -/
def State.stamp (s : State) (a : Access) : Access :=
  if a.inside && a.rgn.isNone then { a with rgn := (s.fibre? a.fid).bind Fibre.rgn } else a

/-- The access belongs to a region that has aborted: its bytes are no value of any location (R173). -/
def State.vanished (s : State) (a : Access) : Bool :=
  match a.rgn with
  | some (slot, grant) => (match s.virga.slots.get? slot with
    | some x => x.grant != grant
    | none => true)
  | none => false

/-- R27: the youngest older store of the queue that covers the byte and that its home has not performed (R119, R153);
the inner `none` is a poisoned byte (R13). The stores of an open region are not seen by the plain accesses of a STEP
or BRK handler (R175). -/
def State.forward (s : State) (a : Access) (sp : Space) (addr : Nat) : Option (Option Byte) :=
  (s.accessesOf a.fid).foldl (fun best e =>
    if e.2.key < a.key && isStoreOnly e.2.ins && !e.2.acked && (a.inside || !e.2.inside)
        && !s.vanished e.2 then
      match e.2.holds sp addr with
      | some b =>
        (match best with
          | some (k, _) => if k < e.2.key then some (e.2.key, b) else best
          | none => some (e.2.key, b))
      | none => best
    else best) (none : Option (Nat × Option Byte)) |>.map Prod.snd

/-- R27: a store or atomic that resolves its address squashes the blocks of younger loads that have
already performed on a byte of it. In a block that runs serially the accesses are in index order. -/
def State.violation (s : State) (a : Access) : State :=
  let hit := (s.accessesOf a.fid).filter (fun e =>
    a.key < e.2.key && isLoad e.2.ins && !e.2.released && e.2.pieces.any (fun p => p.stage != .held)
      && e.2.overlaps a)
  let ser := ((s.fibre? a.fid).bind (fun f => f.frame? a.seq)).map Frame.ser |>.getD false
  match (hit.filter (fun e => !(ser && e.2.seq == a.seq))).map (fun e => e.2.seq) with
  | [] => s
  | q :: qs => s.squash a.fid (qs.foldl min q) 5

/-- R148: a load that performs a byte after a younger load of the fibre performed it earlier with
another value: the younger one's block is squashed. In a block that runs serially the accesses are in index order. -/
def State.readViolation (s : State) (a : Access) (p : Piece) : State :=
  let differs := fun (q : Piece) => (List.range p.n).any (fun i =>
    let x := p.loc.addr + i
    p.loc.space.same q.loc.space && q.loc.addr ≤ x && x < q.loc.addr + q.n
      && q.data[x - q.loc.addr]? != p.data[i]?)
  let hit := (s.accessesOf a.fid).filter (fun e =>
    a.key < e.2.key && isLoad e.2.ins && !e.2.released && e.2.pieces.any (fun q => q.stage == .done && differs q))
  let ser := ((s.fibre? a.fid).bind (fun f => f.frame? a.seq)).map Frame.ser |>.getD false
  match (hit.filter (fun e => !(ser && e.2.seq == a.seq))).map (fun e => e.2.seq) with
  | [] => s
  | q :: qs => s.squash a.fid (qs.foldl min q) 5

/-- The piece of an access, replaced. -/
def Access.setPiece (a : Access) (n : Nat) (p : Piece) : Access := { a with pieces := a.pieces.set n p }

/-- The state of an access's piece changed. -/
def State.setPiece (s : State) (oid n : Nat) (p : Piece) : State :=
  match s.accesses.get? oid with
  | some a => s.setAccess oid (a.setPiece n p)
  | none => s

/-- The queue entries of a fibre that have no more effect are dropped: what has committed and performed. -/
def State.purge (s : State) (fid : Nat) : State :=
  match s.fibre? fid with
  | none => { s with accesses := s.accesses.filter (fun e => e.2.fid != fid || !(e.2.released && e.2.performed)) }
  | some f =>
    let gone := fun (e : Nat × Access) => e.2.fid == fid && e.2.released &&
      (if isFence e.2.ins then s.fenceDone f fid e.2 else e.2.performed)
    { s with accesses := s.accesses.filter (fun e => !gone e) }

/-- R157: every access of the fibre in blocks up to `seq` has been performed. -/
def State.coveredUpTo (s : State) (fid seq : Nat) : Bool :=
  (s.accessesOf fid).all (fun e => seq < e.2.seq || e.2.performed)

/-- The index of an access's instruction, so that its result can be sent. -/
def State.sendReply (s : State) (a : Access) (tok : Token) : State :=
  s.modFibre a.fid (fun f =>
    match f.frame? a.seq with
    | some fr =>
      let fr := { fr with owed := fr.owed.filter (· != a.idx) }
      let fr := if isAtomic a.ins then fr.produce a.lsid else fr
      f.setFrame (fr.send (targetsOf a.ins) tok)
    | none => f)

end Sys2Proof.Machine
end

