-- ==== Sys2Proof/Machine/Cache.lean ====
section
/-! DEFINITION. The L1 data caches and the last-level cache: what they hold, fills, drops and write-backs
(R111, R116, R118 to R120, R135, R136). -/

namespace Sys2Proof.Machine

/-! ### L1 (R118) -/

/-- The directory's entry for a half of host memory (R121); lines of device memory stand under their
own number. -/
def halfEntry (half : Nat) : Nat := 2 ^ 60 + half

/-- The directory's entry that covers a location. -/
def Loc.entry (l : Loc) : Nat := if l.space = .hostCoh then halfEntry (halfOf l.addr) else lineOf l.addr

/-- The L1 line of a cell. -/
def State.l1Line (s : State) (cell line : Nat) : Option L1Line := (s.cell cell).l1.get? line

/-- The L1 line may serve an access: the half is valid, the key is the access's, and a copy that the
directory does not track serves only accesses that are managed by software (R116). -/
def L1Line.serves (l : L1Line) (loc : Loc) : Bool :=
  (if loc.addr % 128 < 64 then l.lo else l.hi) && l.key == loc.key
    && (l.tracked || loc.space == .hostNc || loc.declared)

/-- The bytes that the L1 of a cell gives an access, when it holds them. -/
def State.l1Read (s : State) (cell : Nat) (loc : Loc) (n : Nat) : Option (List Byte) :=
  match s.l1Line cell (lineOf loc.addr) with
  | some l => if loc.ca && l.serves loc then some ((l.data.drop (loc.addr % 128)).take n) else none
  | none => none

/-- Every cell of the dies of some cells. -/
def dieMates (cells : List Nat) : List Nat :=
  (cells.map dieOfCell).eraseDups.flatMap (fun d => (List.range 64).map (fun i => cellAt d (i % 8) (i / 8)))

/-- A cell is recorded as a sharer: exactly while few cells are, and by die when many are (R119, log 61). -/
def State.addSharer (s : State) (entry cell : Nat) : State :=
  let l := s.sharers.getD entry []
  if l.contains cell then s
  else if l.isEmpty || l.length < Config.exactSharers then { s with sharers := s.sharers.put entry (l ++ [cell]) }
  else { s with sharers := s.sharers.put entry (dieMates (l ++ [cell])) }

/-- No half of a device line may be held exclusively by a host (R126). -/
def State.lineShared (s : State) (line : Nat) : Bool :=
  s.hdm.getD (2 * line) false == false && s.hdm.getD (2 * line + 1) false == false

/-- An L1 fills a whole line from its home (R116, R118). -/
def State.fillLine (s : State) (cell : Nat) (loc : Loc) : State :=
  let line := lineOf loc.addr
  let tracked := loc.space == .hbm && !loc.declared
  let c := s.cell cell
  let l : L1Line := { data := s.lineData line loc.key, lo := true, hi := true, key := loc.key, tracked := tracked }
  let s := s.setCell cell { c with l1 := c.l1.put line l }
  if tracked then s.addSharer line cell else s

/-- An L1 fills a half of a host-coherent line from its bridge (R118). The other half of a copy that the directory
does not track is not kept with it (R121). -/
def State.fillHalf (s : State) (cell : Nat) (loc : Loc) (data : List Byte) : State :=
  let line := lineOf loc.addr
  let c := s.cell cell
  let upper := 64 ≤ loc.addr % 128
  let old := c.l1.getD line { data := List.replicate 128 0, lo := false, hi := false, key := loc.key, tracked := true }
  let l : L1Line := { old with
    data := if upper then old.data.take 64 ++ data else data ++ old.data.drop 64
    lo := (old.lo && old.tracked && old.key == loc.key) || !upper
    hi := (old.hi && old.tracked && old.key == loc.key) || upper, key := loc.key, tracked := true }
  (s.setCell cell { c with l1 := c.l1.put line l }).addSharer (halfEntry (halfOf loc.addr)) cell

/-- The L1 of a cell drops a line. -/
def State.dropL1 (s : State) (cell line : Nat) : State :=
  let c := s.cell cell
  if (c.l1.get? line).isSome then s.setCell cell { c with l1 := c.l1.erase line } else s

/-- The L1 of a cell drops a half. -/
def State.dropL1Half (s : State) (cell half : Nat) : State :=
  let c := s.cell cell
  match c.l1.get? (half / 2) with
  | none => s
  | some l =>
    let l := if half % 2 = 0 then { l with lo := false } else { l with hi := false }
    s.setCell cell { c with l1 := if l.lo || l.hi then c.l1.put (half / 2) l else c.l1.erase (half / 2) }

/-- Every L1 drops a line. -/
def State.dropAllL1 (s : State) (line : Nat) : State :=
  { s with cells := s.cells.mapV (fun c =>
             if (c.l1.get? line).isSome then { c with l1 := c.l1.erase line } else c)
           sharers := s.sharers.erase line }

/-- Every L1 that may hold a device line is told to drop it (R119, R126); the invalidations are counted (R308). -/
def State.invalidateLine (s : State) (line : Nat) : State :=
  (countSector (cachePlace line).1 4 (s.sharers.getD line []).length s).dropAllL1 line

/-- Every L1 drops a half (R124); the invalidations are counted at its bridge (R308). -/
def State.dropHalfEverywhere (s : State) (half : Nat) : State :=
  let sh := s.sharers.getD (halfEntry half) []
  let s := countSector (bridgeSector (64 * half)) 4 sh.length (sh.foldl (fun s c => s.dropL1Half c half) s)
  { s with sharers := s.sharers.erase (halfEntry half) }

/-- A half at its bridge; I where nothing is listed (R122). -/
def State.half (s : State) (h : Nat) : Half := s.halves.getD h { st := .i, data := [], pend := none }

/-- The state with a half set; a half in I with nothing in flight is not listed. -/
def State.setHalf (s : State) (h : Nat) (x : Half) : State :=
  { s with halves := if x.st == .i && x.pend.isNone then s.halves.erase h else s.halves.put h x }

/-- The bytes of a half as host memory holds them. -/
def State.hostBytes (s : State) (h : Nat) : List Byte := s.mem.bytes (64 * h) 64

/-- Host memory receives the data of a half. -/
def State.toHost (s : State) (h : Nat) (data : List Byte) : State := { s with mem := s.mem.setBytes (64 * h) data }

/-- What the snoops share (R124, R125): a half with a request in flight answers as I. -/
def State.snoop (s : State) (half : Nat) (go : Half → State → State) : State :=
  let x := s.half half
  let s := countSector (bridgeSector (64 * half)) 15 1 s
  if x.pend.isSome then
    ((s.dropHalfEverywhere half).setHalf half { x with st := .i, data := [] }).emit (.snoopReply half "RspIHitI" [])
  else go x s

/-- R123: SnpData at a half. -/
def State.snpData (s : State) (half : Nat) : State :=
  s.snoop half (fun x s =>
    match x.st with
    | .i => s.emit (.snoopReply half "RspIHitI" [])
    | .s => s.emit (.snoopReply half "RspSHitSE" [])
    | .e => (s.setHalf half { x with st := .s }).emit (.snoopReply half "RspSHitSE" [])
    | .m => (((s.dropHalfEverywhere half).toHost half x.data).setHalf half { x with st := .s }).emit
        (.snoopReply half "RspSFwdM" x.data)
    | .o => (s.toHost half x.data).emit (.snoopReply half "RspIFwdM" x.data))

/-- R123: SnpInv at a half. -/
def State.snpInv (s : State) (half : Nat) : State :=
  s.snoop half (fun x s =>
    match x.st with
    | .i => s.emit (.snoopReply half "RspIHitI" [])
    | .s | .e => ((s.dropHalfEverywhere half).setHalf half { x with st := .i, data := [] }).emit
        (.snoopReply half "RspIHitSE" [])
    | .m => (((s.dropHalfEverywhere half).toHost half x.data).setHalf half { x with st := .i, data := [] }).emit
        (.snoopReply half "RspIFwdM" x.data)
    | .o => ((s.dropHalfEverywhere half).toHost half x.data).emit (.snoopReply half "RspIFwdM" x.data))

/-- R123: the bridge drops a half that no request is in flight for: a dirty one goes to O until the host has pulled
its data. -/
def State.bridgeDrop (s : State) (half : Nat) : State :=
  let x := s.half half
  if x.pend.isSome then s
  else
    match x.st with
    | .s => ((s.dropHalfEverywhere half).setHalf half { x with st := .i, data := [] }).emit (.request half "CleanEvictNoData")
    | .e => ((s.dropHalfEverywhere half).setHalf half { x with st := .i, data := [] }).emit (.request half "CleanEvict")
    | .m => (s.setHalf half { x with st := .o }).emit (.request half "DirtyEvict")
    | .i | .o => s

/-- The halves whose copies at the bridge a non-coherent access of n bytes meets at the host: those that it touches,
both of the line when the last-level cache holds lines of the page (R111). -/
def ncHalves (loc : Loc) (n : Nat) : List Nat :=
  if loc.ca then [2 * lineOf loc.addr, 2 * lineOf loc.addr + 1] else [halfOf loc.addr, halfOf (loc.addr + n - 1)].eraseDups

/-- A half is on its way back to the host (R122). -/
def State.writingBack (s : State) (halves : List Nat) : Bool := halves.any (fun h => (s.half h).st == .o)

/-- A non-coherent access reaches the host, which snoops the copies that the bridge holds (R123, log 33): a read
leaves them shared, a write takes them away. The access finds what every path has written (R97). -/
def State.hostSnoops (s : State) (halves : List Nat) (write : Bool) : State :=
  halves.foldl (fun s h =>
    match (s.half h).st, write with
    | .i, _ | .s, false => s
    | _, true => s.snpInv h
    | _, false => s.snpData h) s

/-- The writing cell drops its own copy of a line that no directory tracks, so that no later read of the fibre
returns an older write (R118, R144, R148). -/
def State.dropOwn (s : State) (cell line : Nat) : State :=
  match (s.cell cell).l1.get? line with
  | some l => if l.tracked then s else s.dropL1 cell line
  | none => s

/-! ### The last-level cache (R111, R120) -/

/-- The last-level cache writes a dirty line back and keeps it clean (R136). -/
def State.cleanLlc (s : State) (line : Nat) : State :=
  match s.llc.get? line with
  | none => s
  | some l =>
    if l.dirty = 0 then s else { s.writeBack line l with llc := s.llc.put line { l with dirty := 0 } }

/-- Bytes that a non-coherent read finds (R111): in the last-level cache for a page with CA 1, else at the host, to which
a dirty copy of the line goes first. -/
def State.ncRead (s : State) (loc : Loc) (n : Nat) : List Byte × State :=
  let s := s.hostSnoops (ncHalves loc n) false
  if loc.ca then (s.homeBytes loc.addr n loc.key, s.countLlc (lineOf loc.addr))
  else
    let s := s.cleanLlc (lineOf loc.addr)
    (s.mem.bytes loc.addr n, s)

/-- Bytes that a non-coherent write leaves (R111), in the last-level cache or at the host; none while a half is on its
way back to the host. -/
def State.ncWrite (s : State) (loc : Loc) (bs : List Byte) : Option State :=
  let halves := ncHalves loc bs.length
  if s.writingBack halves then none
  else
    let s := s.hostSnoops halves true
    some (if loc.ca then (s.countLlc (lineOf loc.addr)).homeWrite loc.addr loc.key bs
          else
            let s := s.evictLlc (lineOf loc.addr)
            { s with mem := s.mem.setBytes loc.addr bs })

/-- The last-level cache takes a clean copy of a line. -/
def State.fillLlc (s : State) (line key : Nat) : State :=
  match s.llc.get? line with
  | some _ => s
  | none =>
    let s := s.makeRoom line
    { s with llc := s.llc.put line { data := s.lineData line key, dirty := 0, key := key } }

/-! ### `cinv` and `cwb` (R135, R136) -/

/-- The leaves of the tables that map bytes of [lo, hi): first virtual address, leaf, log2 of the page. The root's
entry for the aperture is never read (R101). -/
def State.leavesIn (s : State) (sec lo hi : Nat) : Nat → Nat → Nat → List (Nat × Word × Nat)
  | level, table, base =>
    let shift := if level = 0 then 16 else 12 + 9 * level
    let count := if level = 0 then 32 else 512
    (List.range count).flatMap (fun idx =>
      let va := base + idx * 2 ^ shift
      if hi ≤ va ∨ va + 2 ^ shift ≤ lo ∨ (level = 4 ∧ idx = 0x1F0) then []
      else
        let e := leWord (s.homeBytes (sec * stackBytes + table + 8 * idx) 8 0)
        if fld e 0 1 = 0 then []
        else if fld e 1 1 = 1 then
          if level ≥ 3 then [] else if s.leafOk e shift then [(va, e, shift)] else []
        else
          let next := nfld e 12 40 * 4096
          if fld e 2 10 ≠ 0 ∨ fld e 52 12 ≠ 0 ∨ !(stackBytes - s.tableBytes ≤ next ∧ next + 256 ≤ stackBytes) then []
          else
            match level with
            | 0 => []
            | l + 1 => State.leavesIn s sec lo hi l next va)

/-- The virtual address under which a page shows a line, when a byte of it lies in [lo, hi). -/
def lineVa (leaf : Nat × Word × Nat) (lo hi line : Nat) : Option Nat :=
  let pa := leafPa leaf.2.1
  if pa ≤ 128 * line ∧ 128 * line < pa + 2 ^ leaf.2.2 then
    let va := leaf.1 + (128 * line - pa)
    if va < hi ∧ lo < va + 128 then some va else none
  else none

/-- The entry of a cell's TLBs that covers an address (R112). -/
def State.cachedLeaf (s : State) (cell asn : Nat) (va : Word) : Option TlbEntry :=
  match (s.cell cell).tlb.find? (·.covers asn va) with
  | some t => some t
  | none => (s.tlb2.getD (dieOfCell cell) []).find? (·.covers asn va)

/-- The places under which a cell's translation shows a line within [lo, hi): a cached entry is used while it is
there, the tables elsewhere (R112). -/
def State.shownAt (s : State) (cell asn lo hi : Nat) (walked : List (Nat × Word × Nat)) (line : Nat) :
    List ((Nat × Word × Nat) × Nat) :=
  let entries := ((s.cell cell).tlb ++ s.tlb2.getD (dieOfCell cell) []).filter (fun t => t.asn == asn)
  entries.filterMap (fun t =>
      let l := (t.vpage * 2 ^ t.shift, t.leaf, t.shift)
      (lineVa l lo hi line).bind (fun va =>
        if s.cachedLeaf cell asn (BitVec.ofNat 64 va) = some t then some (l, va) else none))
    ++ walked.filterMap (fun l => (lineVa l lo hi line).bind (fun va =>
      if (s.cachedLeaf cell asn (BitVec.ofNat 64 va)).isNone then some (l, va) else none))

/-- R308: the pages that a cache operation finds mapped count a miss in each level of the TLBs that does not hold them,
and their walks (log 73). -/
def State.countPages (s : State) (cell asn : Nat) (xroot : Word) (pages : List (Nat × Word × Nat)) : State :=
  pages.foldl (fun s e =>
    let va := BitVec.ofNat 64 e.1
    if ((s.cell cell).tlb.find? (·.covers asn va)).isSome then s
    else
      let s := countCell cell 9 1 s
      if ((s.tlb2.getD (dieOfCell cell) []).find? (·.covers asn va)).isSome then s
      else (countSector (dieOfCell cell) 5 1 s).countWalk (dieOfCell cell) xroot va) s

/-- The half of a sector's table area that a host holds in any state: the walks of a cache operation wait for it
(R126). -/
def State.tableHeld (s : State) (sec : Nat) : Option Nat :=
  (s.hdm.find? (fun e => e.2 && s.inTable sec (64 * e.1) 64)).map Prod.fst

/-- One of the two cache operations on [lo, lo + len) for a cell (R136), under the registers of its own block: pages
that refuse a load are skipped (R135). -/
def State.cacheRange (s : State) (cell : Nat) (x : Xlate) (drop : Bool) (lo len : Nat) : State :=
  let hi := lo + len
  let walked := s.leavesIn (dieOfCell cell) lo hi 4 (nfld x.xroot 12 40 * 4096) 0
  let held := fun (line : Nat) => (s.shownAt cell (nfld x.xroot 0 12) lo hi walked line).filter
    (fun r => (permit x .load r.1.2.1).isNone)
  let s := s.countPages cell (nfld x.xroot 0 12) x.xroot walked
  let s := if drop then
      let c := s.cell cell
      s.setCell cell { c with
        l1 := c.l1.filter (fun e => (held e.1).all (fun r => leafCC r.1.2.1 == 2 && fld r.1.2.1 8 1 == 0))
        icache := c.icache.filter (fun e => (held (e.1 / 64)).isEmpty) }
    else s
  (s.llc.map Prod.fst).foldl (fun s line =>
    if (held line).any (fun r => (leafCC r.1.2.1 == 2 && fld r.1.2.1 8 1 == 1)
        || (leafCC r.1.2.1 == 1 && declared x (BitVec.ofNat 64 r.2))) then
      if drop then s.evictLlc line else s.cleanLlc line
    else s) s

/-- Insertion of an access by its place in the order of R27. -/
def insertByKey (e : Nat × Access) : List (Nat × Access) → List (Nat × Access)
  | [] => [e]
  | x :: xs => if e.2.key ≤ x.2.key then e :: x :: xs else x :: insertByKey e xs

/-- R135: the cache operations of a fibre that have been released and may be performed are performed, in
LSID order, each after every earlier store of the fibre to a byte of its range has been acknowledged. -/
def State.runCacheOps (s : State) (fid : Nat) : State :=
  (((s.accessesOf fid).filter (fun e => isCacheOp e.2.ins)).foldr insertByKey []).foldl (fun s e =>
    match s.accesses.get? e.1, s.fibre? fid with
    | some a, some f =>
      if isCacheOp a.ins && a.released && !a.acked && s.mayPerform a then
        let lo := a.opx.toNat
        let len := a.opr.toNat
        let pending := (s.accessesOf fid).any (fun e => e.2.key < a.key && isStore e.2.ins && !e.2.acked
          && e.2.pieces.any (fun p => meets p.va.toNat p.n (lo / 128 * 128) (len + 256)))
        let older := (s.accessesOf fid).any (fun e => e.2.key < a.key && isCacheOp e.2.ins && !e.2.acked)
        if pending || older then s
        else
          let drop := match a.ins with
            | .cinv _ _ => true
            | _ => false
          if len = 0 then s.setAccess e.1 { a with acked := true }
          else
            match s.tableHeld (dieOfCell (s.cellOf f)) with
            | some h => s.backInvalidate h false
            | none => (s.cacheRange (s.cellOf f) a.xl drop lo len).setAccess e.1 { a with acked := true }
      else s
    | _, _ => s) s

end Sys2Proof.Machine
end

