-- ==== Sys2Proof/Machine/Engine.lean ====
section
/-! DEFINITION. What the copy engine and the matrix node share: status words, byte barriers, the
element stream of a descriptor, spans and their order, and the hand-over of commands at commit
(R157, R158, R214 to R216, R220 to R222, R225, R228, R231, R232, R272 to R274). -/

namespace Sys2Proof.Machine

/-! ### Status words (R215) -/

/-- A status word: DONE, with ERR when there is a cause, CAUSE and BYTES. -/
def statusWord (cause bytes : Nat) : Word :=
  BitVec.ofNat 64 (1 + (if cause = 0 then 0 else 2) + (cause % 256) * 256 + (bytes % 2 ^ 48) * 65536)

/-- The engine writes a status register: the register is no longer pending and the fibre that is parked on
it is ready again (R31). A register that is not pending takes nothing (R63, R227). -/
def State.writeStatus (s : State) (fid sreg : Nat) (w : Word) : State :=
  s.modFibre fid (fun f =>
    if f.gpend.getLsbD sreg then
      { f with
        g := vset f.g sreg w
        gpend := f.gpend &&& ~~~((1 : BitVec 64) <<< sreg)
        park := if f.park = .reg sreg then .none else f.park }
    else f)

/-! ### Byte barriers (R216, R232) -/

/-- EXPECT and ARRIVED of the barrier at a place of cell memory. -/
def State.expectOf (s : State) (a : Nat) : Word := leWord (s.cellBytes a 8)
def State.arrivedOf (s : State) (a : Nat) : Word := leWord (s.cellBytes (a + 8) 8)

/-- The place in cell memory of a checked engine address: the own-cell window or the group window. -/
def placeOf (c : Ctx) (va : Word) : Option Nat :=
  match apertureOff va with
  | some o => (match window c.g c.l c.cell o with | .place a => some a | _ => none)
  | none => none

/-- R222, check 4: the address lies in the issuing cell's own memory. -/
def inOwnCell (c : Ctx) (va : Word) : Bool :=
  nfld va 57 7 == 0 && (match placeOf c va with | some a => a / 0x100000 == c.cell | none => false)

/-- The place of a barrier that a command names, for the engine of `cell`. -/
def barrierAt (cell : Nat) (va : Word) : Nat := cell * 0x100000 + va.toNat % 0x100000

/-- An earlier `bbar.init` of the barrier at a place has not been performed (R216). -/
def State.initAhead (s : State) (cell id a : Nat) : Bool :=
  (s.cell cell).copies.any (fun k => k.kind == .init && k.id < id && barrierAt cell k.addr == a)

/-- R232: every wait of a cell whose test holds writes its status and leaves the list. A wait is received, and tested for
the first time, when its block commits. -/
def State.testWaits (s : State) (cell : Nat) : State :=
  (s.cell cell).waits.foldl (fun s w =>
    let a := barrierAt cell w.addr
    if (s.expectOf a).toNat ≤ (s.arrivedOf a).toNat then
      let c := s.cell cell
      (s.setCell cell { c with waits := c.waits.filter (fun x => x.id != w.id) }).writeStatus w.fid w.sreg
        (statusWord 0 (nfld (s.arrivedOf a) 0 48))
    else s) s

/-- Bytes enter cell memory; the waits of that cell are tested again (R232). -/
def State.putCell (s : State) (a : Nat) (bs : List Byte) : State :=
  let s := { s with cmem := s.cmem.setBytes a bs }
  let cell := a / 0x100000
  if (s.cell cell).waits.isEmpty then s else s.testWaits cell

/-- R228: an addition to ARRIVED. -/
def State.addArrived (s : State) (cell : Nat) (va : Word) (n : Nat) : State :=
  let a := barrierAt cell va + 8
  s.putCell a (natLe 8 ((leNat (s.cellBytes a 8) + n) % 2 ^ 64))

/-! ### The element stream (R221) -/

/-- Runs of a descriptor. -/
def Desc.runs (d : Desc) : Nat := d.levels.foldl (fun n l => n * l.1) 1

/-- Bytes of the stream. -/
def Desc.total (d : Desc) : Nat := d.run * d.runs

/-- The index tuple of a run, level 1 first. -/
def tupleOf : List Nat → Nat → List Nat
  | [], _ => []
  | n :: ns, r => r % n :: tupleOf ns (r / n)

/-- The offset that a run has from strides, level 1 first. -/
def strideSum (idx : List Nat) (strides : List Word) : Word :=
  (idx.zip strides).foldl (fun w p => w + BitVec.ofNat 64 p.1 * p.2) 0

/-- The source address of run `r`. -/
def Desc.srcRun (d : Desc) (r : Nat) : Word :=
  d.src + strideSum (tupleOf (d.levels.map (·.1)) r) (d.levels.map (·.2.1))

/-- The destination address of run `r`. -/
def Desc.dstRun (d : Desc) (r : Nat) : Word :=
  d.dst + strideSum (tupleOf (d.levels.map (·.1)) r) (d.levels.map (·.2.2))

/-- Source and destination of byte p of the stream. -/
def Desc.srcAt (d : Desc) (p : Nat) : Word := d.srcRun (p / d.run) + BitVec.ofNat 64 (p % d.run)
def Desc.dstAt (d : Desc) (p : Nat) : Word := d.dstRun (p / d.run) + BitVec.ofNat 64 (p % d.run)

/-- R224: the level of the mark after run `r`, 0 for none. -/
def Desc.markLevel (d : Desc) (r : Nat) : Nat :=
  ((tupleOf (d.levels.map (·.1)) r).zip (d.levels.map (·.1))).takeWhile (fun p => p.1 + 1 == p.2) |>.length

/-- A signed 32-bit stride. -/
def stride32 (x : Nat) : Word := BitVec.ofInt 64 (if x < 2 ^ 31 then (x : Int) else (x : Int) - 2 ^ 32)

/-- The descriptor at a place of cell memory, and the cause with which the checks of R222 refuse it. -/
def State.readDesc (s : State) (c : Ctx) (va : Word) : Desc × Option Nat :=
  let a := barrierAt c.cell va
  let w := fun off n => leNat (s.cellBytes (a + off) n)
  let ctl := BitVec.ofNat 64 (w 16 8)
  let n := nfld ctl 32 4
  let levels := (List.range (min n 8)).map (fun l =>
    (w (32 + 12 * l) 4, stride32 (w (36 + 12 * l) 4), stride32 (w (40 + 12 * l) 4)))
  let d : Desc :=
    { src := BitVec.ofNat 64 (w 0 8), dst := BitVec.ofNat 64 (w 8 8), run := nfld ctl 0 32
      levels := levels, marks := fld ctl 36 1 == 1, keepTag := fld ctl 37 1 == 1
      scale := fld ctl 38 1 == 1, bbar := BitVec.ofNat 64 (w 24 8) }
  let cause :=
    if d.run = 0 ∨ 8 < n ∨ levels.any (fun l => l.1 == 0) ∨ nfld ctl 39 25 ≠ 0 ∨ 2 ^ 48 ≤ d.total then some 0x01
    else if d.bbar.toNat % 16 ≠ 0 then some 0x12
    else if d.bbar ≠ 0 ∧ !inOwnCell c d.bbar then some 0x11
    else none
  (d, cause)

/-! ### Spans in cell memory (R158) -/

/-- Part of cell memory: cell, first offset, offset after the last. -/
abbrev Part := Nat × Nat × Nat

/-- The windows of a context: the first virtual address of each and its cell (R102). -/
def windowsOf (c : Ctx) : List (Nat × Nat) :=
  (0x1F0 * 2 ^ 48, c.cell) :: (List.range c.l.cells).map (fun k =>
    (0x1F0 * 2 ^ 48 + 0x100000000 + k * 0x100000, memberCell c.g c.l k))

/-- The parts of cell memory that [va, va + n) names. -/
def cellParts (c : Ctx) (va n : Nat) : List Part :=
  (windowsOf c).filterMap (fun w =>
    let lo := max va w.1
    let hi := min (va + n) (w.1 + 0x100000)
    if lo < hi then some (w.2, lo - w.1, hi - w.1) else none)

/-- For every cell, the lowest byte named and the byte after the highest. -/
def hull (ps : List Part) : List Part :=
  let cells := (ps.map (·.1)).eraseDups
  cells.map (fun c =>
    let here := ps.filter (fun p => p.1 == c)
    (c, here.foldl (fun m p => min m p.2.1) 0x100000, here.foldl (fun m p => max m p.2.2) 0))

/-- The common part of two. -/
def partMeet (p q : Part) : Option Part :=
  let lo := max p.2.1 q.2.1
  let hi := min p.2.2 q.2.2
  if p.1 = q.1 ∧ lo < hi then some (p.1, lo, hi) else none

/-- The common parts of two lists. -/
def meetParts (ps qs : List Part) : List Part := ps.flatMap (fun p => qs.filterMap (partMeet p))

/-- Source and destination spans of an operation. -/
structure Spans where
  src : List Part
  dst : List Part
  deriving DecidableEq, Repr

/-- The parts that a copy still reads after stream place `rd` and still writes after `wr`. -/
def Desc.rest (d : Desc) (c : Ctx) (rd wr : Nat) : Spans :=
  let from_ := fun (at_ : Nat → Word) (p : Nat) =>
    (List.range (d.runs - p / d.run)).flatMap (fun i =>
      let r := p / d.run + i
      let skip := if i = 0 then p % d.run else 0
      cellParts c ((at_ r).toNat + skip) (d.run - skip))
  { src := if rd < d.total then from_ d.srcRun rd else []
    dst := if wr < d.total then from_ d.dstRun wr else [] }

/-- The spans of a copy (R158). -/
def Desc.spans (d : Desc) (c : Ctx) : Spans :=
  let r := d.rest c 0 0
  { src := hull r.src, dst := hull r.dst }

/-- K of a matrix word (R276). -/
def kOf : Instr → Nat
  | .mma _ _ _ kq => 16 * (kq.toNat + 1)
  | .mmaSp _ _ _ kq => 16 * (kq.toNat + 1)
  | .mring _ _ _ _ kq => 16 * (kq.toNat + 1)
  | _ => 0

/-- The first place of a scale array (R264). -/
def scaleBase (off k : Nat) : Nat := (off + 32 * k + 4095) / 4096 * 4096

/-- The span of an operand at hand-over (R274). -/
def operandSpan (cell lo off k : Nat) : Part :=
  (cell, lo, min (max (off + 128 * k) (scaleBase off k + 8 * k)) 0x100000)

/-- The bytes of an accumulator element in memory (R258). -/
def mstSize : MstFmt → Nat
  | .bf16 | .fp16 => 2
  | .fp32 => 4

/-- The spans of a node command (R274, R278, R282, R283). -/
def NodeCmd.spans (n : NodeCmd) (c : Ctx) : Spans :=
  let aoff := nfld n.a 0 20
  let boff := nfld n.a 20 20
  match n.ins with
  | .mma _ _ _ _ | .mring _ _ _ _ _ =>
    { src := [operandSpan c.cell aoff aoff (kOf n.ins), operandSpan c.cell boff boff (kOf n.ins)], dst := [] }
  | .mmaSp _ _ _ _ =>
    { src := [operandSpan c.cell (aoff - 256) aoff (kOf n.ins), operandSpan c.cell boff boff (kOf n.ins)], dst := [] }
  | .mld _ _ _ => { src := hull (cellParts c n.a.toNat 16384), dst := [] }
  | .mst _ fmt _ _ => { src := [], dst := hull (cellParts c n.a.toNat (4096 * mstSize fmt)) }
  | .cmtag _ _ _ =>
    let ps := cellParts c n.a.toNat n.b.toNat
    { src := [], dst := hull (ps.map (fun p => (p.1, p.2.1 / 4096 * 4096, (p.2.2 + 4095) / 4096 * 4096))) }
  | _ => { src := [], dst := [] }

/-- R158: the bytes of `here` on which operation `b` waits for the earlier operation `a`: a destination span
of one with any span of the other. -/
def ordered (a b : Spans) (here : List Part) : List Part :=
  meetParts here a.dst ++ meetParts (meetParts here b.dst) (a.src ++ a.dst)

/-- Whether two operations are ordered by R158. -/
def conflict (a b : Spans) : Bool := !(ordered a b (b.src ++ b.dst)).isEmpty

/-! ### Engines of a cell -/

/-- The context of an engine operation: the fibre's group and cell, the translation of the hand-over. -/
def State.engineCtx (s : State) (fid : Nat) (x : Xlate) : Option Ctx := do
  let f ← s.fibre? fid
  let c ← s.fibreCtx f
  return { c with x := x }

/-- The parts that an unfinished copy still uses, seen from stream places `rd` and `wr`; all of cell memory
while its descriptor has not been read. -/
def CopyCmd.uses (k : CopyCmd) (c : Ctx) (rd wr : Nat) : Spans :=
  match k.kind, k.desc with
  | .init, _ => { src := [], dst := [] }
  | _, none => { src := [], dst := (windowsOf c).map (fun w => (w.2, 0, 0x100000)) }
  | _, some d => if k.stop.isSome then { src := [], dst := [] } else d.rest c rd wr

/-- The whole spans of a copy. -/
def CopyCmd.spans (k : CopyCmd) (c : Ctx) : Spans :=
  let r := k.uses c 0 0
  { src := hull r.src, dst := hull r.dst }

/-- Of `parts`, what a copy has still to read or write (R158): after the stream places that it has read and written. -/
def CopyCmd.progress (k : CopyCmd) (c : Ctx) (parts : List Part) : List Part :=
  let r := k.uses c (k.pos + k.buf.length) k.pos
  meetParts parts (r.src ++ r.dst)

/-- What is left of a part outside another. -/
def cutPart (p q : Part) : List Part :=
  if (partMeet p q).isNone then [p]
  else (if p.2.1 < q.2.1 then [(p.1, p.2.1, q.2.1)] else []) ++ (if q.2.2 < p.2.2 then [(p.1, q.2.2, p.2.2)] else [])

/-- What is left of parts outside others. -/
def cutParts (ps qs : List Part) : List Part := qs.foldl (fun ps q => ps.flatMap (fun p => cutPart p q)) ps

/-- The parts that a copy has written before stream place `p`. -/
def CopyCmd.wrote (k : CopyCmd) (c : Ctx) (p : Nat) : List Part :=
  match k.desc with
  | none => []
  | some d =>
    (List.range ((p + d.run - 1) / d.run)).flatMap (fun r => cellParts c (d.dstRun r).toNat (min d.run (p - r * d.run)))

/-- Of `parts`, what the node waits for before it starts (R319): what the copy has not written for the last time as far as
its marks show, the bytes in gaps of its destination span among them, which it never writes, and what it has still to
read; all that its spans cover when the node cannot tell. -/
def CopyCmd.asTold (told : Bool) (k : CopyCmd) (c : Ctx) (parts : List Part) : List Part :=
  let all := k.spans c
  if told then
    let r := k.uses c k.told k.told
    meetParts parts (r.src ++ r.dst) ++ cutParts (meetParts parts all.dst) (k.wrote c k.told)
  else meetParts parts (all.src ++ all.dst)

/-- R158: whether an access to `here` by an operation with number `id` and spans `me` must wait for an
earlier unfinished operation of the same cell; `left` gives, of the bytes on which it waits, those that an earlier copy
has not finished with, as the waiting side sees it. -/
def State.engineHeld (s : State) (cell id : Nat) (me : Spans) (here : List Part) (left : CopyCmd → Ctx → List Part → List Part) :
    Bool :=
  let c := s.cell cell
  c.copies.any (fun k => k.id < id && (match s.engineCtx k.fid k.xl with
    | none => false
    | some x => !(left k x (ordered (k.spans x) me here)).isEmpty))
  || c.node.queue.any (fun n => n.id < id && (match s.engineCtx n.fid n.xl with
    | none => false
    | some x => !(ordered (n.spans x) me here).isEmpty))

/-! ### Reads and writes of engines (R157, R167) -/

/-- Bytes read by an engine at a location; none while the place makes it wait. -/
def State.engineRead (s : State) (loc : Loc) (n : Nat) : Option (List Byte) × State :=
  match loc.space with
  | .cell => (some (s.cellBytes loc.addr n), s)
  | .hbm =>
    let line := lineOf loc.addr
    if (s.homeQ.get? line).isSome || s.virga.committingOn line then (none, s)
    else
      match [halfOf loc.addr, halfOf (loc.addr + n - 1)].find? (fun h => s.hdm.getD h false) with
      | some h => (none, s.backInvalidate h false)
      | none => (some (s.homeBytes loc.addr n loc.key), s.countLlc line)
  | .hostNc =>
    let (bs, s) := s.ncRead loc n
    (some bs, s)
  | .hostCoh =>
    let h := halfOf loc.addr
    let x := s.halves.getD h { st := .i, data := [], pend := none }
    if x.st = .i then
      (none, if x.pend.isSome then s
             else { s with halves := s.halves.put h { x with pend := some false } }.emit (.request h "RdShared"))
    else (some ((x.data.drop (loc.addr % 64)).take n), s)

/-- R297: a write of [a, a + n) clears the marks of the lines that it covers whole. -/
def State.unmarkLines (s : State) (a n : Nat) : State :=
  { s with badLines := s.badLines.filter (fun l => !(a ≤ 128 * l && 128 * l + 128 ≤ a + n)) }

/-- Bytes written by an engine at a location; none while the place makes it wait. -/
def State.engineWrite (s : State) (loc : Loc) (bs : List Byte) : Option State × State :=
  match loc.space with
  | .cell =>
    let s' := s.putCell loc.addr bs
    (some { s' with badChunks := s'.badChunks.filter (fun c => !(loc.addr ≤ 64 * c && 64 * c + 64 ≤ loc.addr + bs.length)) }, s)
  | .hbm =>
    let line := lineOf loc.addr
    let halves := [halfOf loc.addr, halfOf (loc.addr + bs.length - 1)].eraseDups
    if (s.homeQ.get? line).isSome || s.virga.committingOn line then (none, s)
    else
      match halves.find? (fun h => (s.hdm.get? h).isSome) with
      | some h => (none, s.backInvalidate h true)
      | none =>
        let s' := s.plainConflict line
        let sh := s'.sharers.getD line []
        let s' := countSector (sectorOf loc.addr) 4 sh.length (sh.foldl (fun s c => s.dropL1 c line) (s'.countLlc line))
        let s' := { s' with sharers := s'.sharers.erase line }
        let s' := if s'.inTable 0 loc.addr bs.length then
            (List.range 32).foldl (fun s k => s.homeWrite (k * stackBytes + loc.addr) loc.key bs) s'
          else s'.homeWrite loc.addr loc.key bs
        (some (s'.unmarkLines loc.addr bs.length), s)
  | .hostNc =>
    ((s.ncWrite loc bs).map (fun t => t.unmarkLines loc.addr bs.length), s)
  | .hostCoh =>
    let h := halfOf loc.addr
    let x := s.halves.getD h { st := .i, data := [], pend := none }
    if x.pend.isSome then (none, s)
    else
      match x.st with
      | .e | .m =>
        let o := loc.addr % 64
        let s' := s.dropHalfEverywhere h
        (some { s' with halves := s'.halves.put h { x with st := .m, data := x.data.take o ++ bs ++ x.data.drop (o + bs.length) } }, s)
      | .i | .s =>
        (none, { s with halves := s.halves.put h { x with pend := some true } }.emit
          (.request h (if x.st == HalfState.i && bs.length == 64 then "RdOwnNoData" else "RdOwn")))
      | .o => (none, s)

/-- A byte of the location is marked uncorrectable (R297). -/
def State.marked (s : State) (sp : Space) (addr n : Nat) : Bool :=
  match sp with
  | .cell => (List.range n).any (fun i => s.badChunks.contains ((addr + i) / 64))
  | .hbm | .hostNc => (List.range n).any (fun i => s.badLines.contains (lineOf (addr + i)))
  | .hostCoh => false

/-! ### Hand-over (R24, R157, R225, R232, R272) -/

/-- The places that the engine instructions of a block take, fired or not: copies and inits, waits, node
commands (R225, R272). -/
def Frame.engineNeeds (fr : Frame) : Nat × Nat × Nat :=
  ((List.range fr.words.length).filterMap fr.instr).foldl (fun n i =>
    match i with
    | .bbarWait _ _ => (n.1, n.2.1 + 1, n.2.2)
    | i => if isCopyCmd i then (n.1 + 1, n.2.1, n.2.2)
           else if isNodeCmd i then (n.1, n.2.1, n.2.2 + 1) else n) (0, 0, 0)

/-- R225, R272: the engines have a free entry for each engine instruction of the block. -/
def State.engineRoom (s : State) (cell : Nat) (fr : Frame) : Bool :=
  let c := s.cell cell
  let n := fr.engineNeeds
  (n.1 = 0 || c.copies.length + n.1 ≤ 16) && (n.2.1 = 0 || c.waits.length + n.2.1 ≤ 16)
    && (n.2.2 = 0 || c.node.queue.length + n.2.2 ≤ 8)

/-- The barrier that a command names, as a place of cell memory. -/
def CopyCmd.barrier (k : CopyCmd) (cell : Nat) : Option Nat :=
  match k.kind, k.desc with
  | .init, _ => some (barrierAt cell k.addr)
  | _, some d => if d.bbar = 0 then none else some (barrierAt cell d.bbar)
  | _, none => none

/-- R231: EXPECT and ARRIVED of a barrier are set as one write of 16 bytes. -/
def State.setBarrier (s : State) (cell : Nat) (va expect : Word) : State :=
  s.putCell (barrierAt cell va) (natLe 8 expect.toNat ++ natLe 8 0)

/-- A command is handed over: its status register becomes pending and it joins its engine's list; a `bbar.init`
takes effect at once when no earlier command may name its barrier (R216, R231). -/
def State.handOver (s : State) (fid seq cell : Nat) (x : Xlate) (k : Command) : State :=
  let id := s.nextId
  let s := { s with nextId := id + 1 }
  let s := match sregOf k.ins with
    | some r => s.modFibre fid (fun f => { f with gpend := f.gpend ||| (1 <<< r) })
    | none => s
  let c := s.cell cell
  let copy := fun (kind : CopyKind) (sreg : Nat) =>
    ({ id := id, kind := kind, fid := fid, sreg := sreg, addr := k.a, expect := k.b, xl := x, upTo := seq
       desc := none, started := false, pos := 0, added := 0, buf := [], fmts := [], stamped := [], told := 0
       stop := none, markDue := false } : CopyCmd)
  match k.ins with
  | .cpy _ r => s.setCell cell { c with copies := c.copies ++ [copy .copy r.toNat] }
  | .cpyQ _ r => s.setCell cell { c with copies := c.copies ++ [copy .copyQ r.toNat] }
  | .bbarInit _ =>
    if c.copies.all (fun x => (x.kind == .init || x.desc.isSome) && x.barrier cell != some (barrierAt cell k.a)) then
      s.setBarrier cell k.a k.b
    else s.setCell cell { c with copies := c.copies ++ [copy .init 0] }
  | .bbarWait _ r =>
    (s.setCell cell { c with waits := c.waits ++ [{ id := id, fid := fid, sreg := r.toNat, addr := k.a }] }).testWaits cell
  | i =>
    let n : NodeCmd := { id := id, fid := fid, ins := i, a := k.a, b := k.b, xl := x, upTo := seq
                         started := false, ta := 0, tb := 0, pos := 0, buf := [], stop := none }
    s.setCell cell { c with node := { c.node with queue := c.node.queue ++ [n], used := true } }

/-- R242: a copy or tile transfer of the fibre is unfinished. -/
def State.transferOpen (s : State) (cell fid : Nat) : Bool :=
  let c := s.cell cell
  c.copies.any (fun k => k.fid == fid && k.kind != .init)
    || c.node.queue.any (fun n => n.fid == fid && (match n.ins with
      | .mld _ _ _ | .mst _ _ _ _ => true
      | _ => false))

/-! ### The end of a group (R63, R186) -/

/-- An engine operation of the group is unfinished; an unmet wait does not count. -/
def State.enginesOf (s : State) (gid : Nat) : Bool :=
  let mine := fun (fid : Nat) => ((s.fibre? fid).map (fun f => f.gid == gid)).getD false
  s.cells.any (fun e => e.2.copies.any (fun k => mine k.fid) || e.2.node.queue.any (fun n => mine n.fid))

/-- R63: the group halts once all its fibres have halted, their stores have been performed and their
engine operations have finished; its cells are free. -/
def State.haltCheck (s : State) (gid : Nat) : State :=
  match s.group? gid with
  | none => s
  | some g =>
    let fs := s.fibresOf gid
    if g.state == .running && !fs.isEmpty && fs.all (fun e => e.2.halted)
        && !(s.accesses.any (fun a => fs.any (fun e => e.1 == a.2.fid)))
        && !s.enginesOf gid then
      let cells := match s.launchOf g with
        | some l => (List.range l.cells).map (memberCell g l)
        | none => []
      let s := { s with fibres := s.fibres.filter (fun e => e.2.gid != gid) }
      let s := cells.foldl (fun s c =>
        let x := s.cell c
        s.setCell c { x with copies := [], waits := [], node := Node.init, idleSince := s.time }) s
      s.setGroup gid { g with state := .halted, since := s.time, bars := [] }
    else s

end Sys2Proof.Machine
end

