-- ==== Sys2Proof/Machine/Fetch.lean ====
section
/-! DEFINITION. Granting frames, fetching blocks and the checks that block control makes of them
(R15 to R17, R29 to R32, R40 to R44, R47, R61, R204, R212, R225, R272). -/

namespace Sys2Proof.Machine

/-! ### The grant (R29) -/

/-- A frame that has been granted and not fetched. -/
def Frame.fresh (seq : Nat) (addr : Word) : Frame :=
  { seq := seq, addr := addr, fetched := false, ser := false, dbg := false, stmask := 0, gw := 0, vw := 0
    words := [], slots := [], fired := [], owed := [], produced := 0, serPos := 0, passed := [], faults := [], gout := []
    vout := [], exits := [], cmds := [], swrs := [], flags := 0, srng := [], late := [], guess := none, popped := false
    inCommit := false, waiting := false }

/-- Instructions behind which no younger block is fetched before their block commits (R24, R238). -/
def holdsFetch : Instr → Bool
  | .swr _ _ => true
  | .sret _ => true
  | _ => false

/-- The `cinv` accesses that a fence at commit waits for have been performed (R137). -/
def State.fetchFree (s : State) (fid : Nat) (f : Fibre) : Bool :=
  match f.fetchHold with
  | none => true
  | some k => (s.accessesOf fid).all (fun e => !(isCacheOp e.2.ins && e.2.key ≤ k) || e.2.acked)

/-- R29: a fibre is ready, `yield` left aside; no block of a group is fetched once its pre-emption has been asked for
(R250, step 1). -/
def State.readyPlain (s : State) (fid : Nat) (f : Fibre) : Bool :=
  match s.ctxOf f with
  | none => false
  | some (g, l) =>
    (g.state == .running) && !g.stopping && !f.halted && f.next.isSome && f.frames.length < l.frames
      && f.frames.all (fun fr => fr.fetched && !fr.ser && !fr.someAround holdsFetch) && s.fetchFree fid f

/-- The first two conditions of R212: the fibres that were ready have had a frame, or 64 frames have been granted. -/
def Fibre.yieldServed (f : Fibre) : Bool := f.yieldFor.isEmpty || f.yieldLeft == 0

/-- R212: a fibre that yielded may be ready again: its own conditions hold, or no other fibre of the cell is
ready. The last is looked at afresh at each grant: once met, it does not keep the fibre ready when another becomes ready
before a frame is granted (DESIGN CHOICE, log 86). -/
def State.yieldOver (s : State) (cell fid : Nat) (f : Fibre) : Bool :=
  f.yieldServed || (s.residents cell).all (fun e => e.1 == fid ||
    !((e.2.park == .none || (e.2.park == .yield && e.2.yieldServed)) && s.readyPlain e.1 e.2))

/-- R29: a fibre is ready for a frame of `cell`. -/
def State.ready29 (s : State) (cell fid : Nat) (f : Fibre) : Bool :=
  s.readyPlain fid f && (f.park == .none || (f.park == .yield && s.yieldOver cell fid f))

/-- The core width of a fibre. -/
def State.coreOf (s : State) (f : Fibre) : Nat :=
  match s.ctxOf f with
  | some (_, l) => l.core
  | none => 1

/-- Frames of a cell in use (R32: block n stands on member n mod w). -/
def State.framesIn (s : State) (cell : Nat) : Nat :=
  (s.residents cell).foldl (fun n e =>
    let w := s.coreOf e.2
    n + (e.2.frames.filter (fun fr => fr.seq % w == cellX cell % w)).length) 0

/-- No cell of a fibre's group is still waking (R293). -/
def State.awake (s : State) (f : Fibre) : Bool :=
  match s.ctxOf f with
  | some (g, l) => (List.range l.cells).all (fun k => !(s.cell (memberCell g l k)).gated)
  | none => true

/-- The fibres of a cell that may be granted its free frame. -/
def State.grantable (s : State) (cell : Nat) : List (Nat × Fibre) :=
  (s.residents cell).filter (fun e =>
    s.awake e.2 && e.2.nextSeq % s.coreOf e.2 == cellX cell % s.coreOf e.2 && s.ready29 cell e.1 e.2)

/-- The place of an index in the rotation that starts after `last`. -/
def rotation (last idx : Nat) : Nat := (idx + 127 - last) % 64

/-- R29: the choice of `Grant`. -/
def State.granted (s : State) (cell : Nat) : Option (Nat × Fibre) :=
  (s.grantable cell).foldl (fun best e =>
    match best with
    | none => some e
    | some b => if rotation (s.cell cell).last e.2.idx < rotation (s.cell cell).last b.2.idx then some e else best) none

/-- R212: a grant to a fibre of the cell brings the ones that yielded nearer to being ready. -/
def Fibre.seesGrant (f : Fibre) (fid : Nat) : Fibre :=
  if f.park = .yield then { f with yieldFor := f.yieldFor.filter (· != fid), yieldLeft := f.yieldLeft - 1 } else f

/-- R29: a cell grants a free frame to the next ready fibre. -/
def execFrameGrant (cell : Nat) (s : State) : Host.Outcome State Fault Refusal :=
  if 16 ≤ s.framesIn cell then .next s
  else
    match s.granted cell with
    | none => .next s
    | some (fid, f) =>
      let c := s.cell cell
      let s := countCell cell 6 1 (s.setCell cell { c with last := f.idx })
      let others := ((s.residents cell).filter (fun e => e.1 != fid)).map Prod.fst
      let s := others.foldl (fun s o => s.modFibre o (fun x => x.seesGrant fid)) s
      .next (s.setFibre fid { f with
        frames := f.frames ++ [Frame.fresh f.nextSeq (f.next.getD 0)]
        nextSeq := f.nextSeq + 1, next := none, park := .none, fetchHold := none })

/-! ### Translation for fetch (R17) -/

/-- The cause that R17 records for `n` bytes at `va`, which lie on one page. -/
def State.fetchCheck (s : State) (c : Ctx) (va : Word) (n : Nat) : Except Cause Loc × State :=
  if nfld va 57 7 ≠ 0 then (.error .pageMiss, s)
  else
    match apertureOff va with
    | some o => (.error (if o < 0x100000 ∨ (0x100000000 ≤ o ∧ o < 0x200000000) then .pageProt else .pageMiss), s)
    | none =>
      match s.pagesOf c 1 va n with
      | ([(_, _, some (e, sh))], s) =>
        (match permit c.x .fetch e with
          | some k => (.error k, s)
          | none => (.ok (pageLoc c.x va e sh), s))
      | (_, s) => (.error .pageMiss, s)

/-- 32 bytes of text through the cell's instruction cache; none while their home makes them wait. -/
def State.fetchUnit (s : State) (cell : Nat) (loc : Loc) : Option (List Byte) × State :=
  let line := lineOf loc.addr
  match (s.cell cell).icache.get? (line * 64 + loc.key) with
  | some l => (some ((l.drop (loc.addr % 128)).take 32), s)
  | none =>
    match s.engineRead loc 32 with
    | (none, s) => (none, s)
    | (some bs, s) =>
      let (keep, s) := (countCell cell 8 1 s).toss
      if keep && ((loc.space == .hbm && s.lineShared line) || (loc.space == .hostNc && loc.ca)) then
        let c := s.cell cell
        (some bs, s.setCell cell { c with icache := c.icache.put (line * 64 + loc.key) (s.lineData line loc.key) })
      else (some bs, s)

/-- Text from `va` in units of 32 bytes: the bytes and the faults of R17, each at the first byte of its
header or chunk; none while some home makes it wait. -/
def State.fetchUnits (s : State) (c : Ctx) (cell : Nat) (base : Word) :
    List Nat → List Byte → List Recorded → Option (List Byte × List Recorded) × State
  | [], bs, fs => (some (bs, fs), s)
  | u :: us, bs, fs =>
    let va := base + BitVec.ofNat 64 (32 * u)
    let first := if u = 0 then base else base + BitVec.ofNat 64 (32 * (u - (u - 1) % 2))
    match s.walkWaits cell c.x [(va, 32)], s.fetchCheck c va 32 with
    | some s, _ => (none, s)
    | none, (.error k, s) => State.fetchUnits s c cell base us bs (fs ++ [{ idx := 0xFF, cause := k, taddr := first, src := .fetchPage }])
    | none, (.ok loc, s) =>
      match s.fetchUnit cell loc with
      | (none, s) => (none, s)
      | (some b, s) => State.fetchUnits s c cell base us (bs ++ b) fs

/-! ### Checks of a block (R16, R40, R42, R47, R61, R204, R225, R272) -/

/-- A fault that is recorded at fetch. -/
def fmtFault (idx : Nat) : Recorded := { idx := idx, cause := .blkFmt, taddr := 0, src := .fetchFmt }

/-- Target fields that an assigned opcode uses (R38). -/
def opTargets (op : Nat) : Nat :=
  if op = 0x06 then 3
  else if op = 0x07 ∨ op = 0x0A then 4
  else if op ∈ [0x36, 0x37, 0x38, 0x39, 0x3B, 0x48, 0x71, 0x72] then 1
  else if op ∈ [0x01, 0x02, 0x05, 0x08, 0x09, 0x46, 0x88, 0xA0, 0xA1, 0xB3, 0xB5, 0xB9, 0xBA, 0xBB, 0xBC, 0xD0, 0xD1,
      0xD2, 0xE0, 0xE4] then 2
  else if (0x20 ≤ op ∧ op < 0x36) ∨ op = 0x3A ∨ (0x40 ≤ op ∧ op ≤ 0x45) ∨ (0x50 ≤ op ∧ op ≤ 0x5F)
      ∨ (0x70 ≤ op ∧ op ≤ 0x79) ∨ (0x80 ≤ op ∧ op ≤ 0x87) then 2
  else 0

/-- R16: a target of the producer K passes: its index is higher and in the block, and the consumer has the
slot; a target at an ILL word passes (R44). -/
def Frame.targetOk (fr : Frame) (k : Nat) (t : Target) : Bool :=
  let inRange := fun (j : BitVec 7) => k < j.toNat && j.toNat < fr.words.length
  match t with
  | .none => true
  | .l j => inRange j && (match fr.instr j.toNat with
    | none => true
    | some .xop => (match fr.ownerOf j.toNat with | some o => k < o | none => true)
    | some i => (slotsOf i).l != .none)
  | .r j => inRange j && (match fr.instr j.toNat with
    | none => true
    | some i => (slotsOf i).r != .none)
  | .p j => inRange j && (match fr.instr j.toNat with
    | none => true
    | some i => predOf i != .always)

/-- The target fields of an ILL word, none when a field does not decode (R44): one bad field, kind 00 with an index
included, keeps the word from sending anything. Its target fields are taken to be those that its opcode uses: a nonzero T2
of a word of two targets, for which item 6 of R43 makes it an ILL word, is no target (DESIGN CHOICE, log 70). -/
def Frame.illTargets (fr : Frame) (k : Nat) : Option (List Target) :=
  let w := fr.words.getD k 0
  (List.range (opTargets (fr.opcode k))).foldr (fun i acc =>
    match acc, decTarget w (9 * i) with
    | some ts, .ok t => some (t :: ts)
    | _, _ => none) (some [])

/-- The LSID of a store or atomic, an ILL word of such an opcode included (R44). -/
def Frame.storeLsid (fr : Frame) (k : Nat) : Option Nat :=
  match fr.instr k with
  | some i => if isStore i then lsidOf i else none
  | none =>
    let op := fr.opcode k
    if k < fr.words.length ∧ ((0x90 ≤ op ∧ op ≤ 0x95) ∨ op = 0xA0 ∨ op = 0xA1) then some (nfld (fr.words.getD k 0) 49 5)
    else none

/-- The indices of a block. -/
def Frame.indices (fr : Frame) : List Nat := List.range fr.words.length

/-- A set of named things against a mask: the lowest index that names one outside it, and 0xFF when a bit
has no instruction (R16). -/
def maskFaults (ks : List Nat) (name : Nat → Option Nat) (mask : Nat → Bool) (bits : Nat) : List Recorded :=
  let off := ks.find? (fun k => match name k with | some n => !mask n | none => false)
  let bare := (List.range bits).any (fun n => mask n && !ks.any (fun k => name k == some n))
  (match off with | some k => [fmtFault k] | none => []) ++ (if bare then [fmtFault 0xFF] else [])

/-- The index of the `n`-th instruction (from 0) that satisfies `p`. -/
def Frame.nth (fr : Frame) (n : Nat) (p : Instr → Bool) : Option Nat :=
  (fr.indices.filter (fun k => ((fr.instr k).map p).getD false))[n]?

/-- EXIT, opcode and OFF of a branch (R42). -/
def exitOf : Instr → Option (Nat × Nat × BitVec 33)
  | .br _ e off => some (e.toNat, 0x10, off)
  | .bri _ e => some (e.toNat, 0x11, 0)
  | .call _ e off => some (e.toNat, 0x12, off)
  | .calli _ e => some (e.toNat, 0x13, 0)
  | .ret _ e => some (e.toNat, 0x14, 0)
  | .halt _ e => some (e.toNat, 0x15, 0)
  | _ => none

/-- Every check that block control makes of a block whose header and words it has (R16, R40, R42, R43,
R47, R61, R204, R225, R272); `rsv`: a reserved header bit is set. A word of opcode 0x0F that records ILL is no `xop` to
the owner before it (log 70). -/
def Frame.checks (fr : Frame) (rsv : Bool) : List Recorded :=
  let ks := fr.indices
  let header := if rsv then [fmtFault 0xFF] else []
  let ill := (ks.filter fr.isIll).map (fun k => ({ idx := k, cause := .ill, taddr := 0, src := .fetchIll } : Recorded))
  let targets := (ks.filter (fun k => match fr.instr k with
    | some i => !(targetsOf i).all (fr.targetOk k)
    | none => false)).map fmtFault
  let lsids := (ks.filter (fun k => match (fr.instr k).bind lsidOf with
    | some n => ks.any (fun j => j < k && (fr.instr j).bind lsidOf == some n)
    | none => false)).map fmtFault
  let stores := maskFaults ks fr.storeLsid (fun n => fr.stmask.getLsbD n) 32
  let gs := maskFaults ks fr.writeG (fun n => fr.gw.getLsbD n) 64
  let vs := maskFaults ks fr.writeV (fun n => fr.vw.getLsbD n) 32
  let owners := (ks.filter (fun k => match fr.instr k with
    | some .xop => (fr.ownerOf k).isNone
    | some i => needsXop i && fr.instr (k + 1) != some .xop
    | none => false)).map fmtFault
  let exits := (ks.filter (fun k => match (fr.instr k).bind exitOf with
    | some e => ks.any (fun j => j < k && (match (fr.instr j).bind exitOf with
      | some d => d.1 == e.1 && d != e
      | none => false))
    | none => false)).map fmtFault
  let sregs := (ks.filter (fun k => match (fr.instr k).bind sregOf with
    | some r => fr.gw.getLsbD r
    | none => false)).map fmtFault
  let link := (ks.filter (fun k => fr.gw.getLsbD 62 && ((fr.instr k).map isCall).getD false)).map fmtFault
  let counts := ([fr.nth 1 isIrrevocable, fr.nth 16 isCopyCmd, fr.nth 8 isNodeCmd].filterMap id).map fmtFault
  header ++ ill ++ targets ++ lsids ++ stores ++ gs ++ vs ++ owners ++ exits ++ sregs ++ link ++ counts

/-- R44: the poison that the ILL word at K sends. -/
def Frame.illSend (fr : Frame) (k : Nat) : Frame :=
  match fr.illTargets k with
  | some ts => if ts.all (fr.targetOk k) then fr.send ts .poison else fr
  | none => fr

/-- R44: the LSID and the registers that the ILL word at K counts as having produced. -/
def Frame.illProduce (fr : Frame) (k : Nat) : Frame :=
  { fr with
    produced := match fr.storeLsid k with | some n => fr.produced ||| (1 <<< n) | none => fr.produced
    gout := match fr.writeG k with | some n => fr.gout.put n .poison | none => fr.gout
    vout := match fr.writeV k with | some n => fr.vout.put n .poison | none => fr.vout }

/-- R44: what the ILL word at K delivers at block start. -/
def Frame.deliverIll (fr : Frame) (k : Nat) : Frame :=
  let fr1 := (fr.illSend k).illProduce k
  if 0x10 ≤ fr.opcode k ∧ fr.opcode k ≤ 0x15 then fr1.takeExit k none false else fr1.fire k

/-- The frame of a block whose header and words have been read (R15). -/
def Frame.load (fr : Frame) (hdr : List Byte) (text : List Byte) : Frame :=
  let h := leNat hdr
  let w0 := BitVec.ofNat 64 h
  let words := (chunksOf 8 (8 * (nfld w0 0 4 + 1)) text).map leWord
  let fr := { fr with
    fetched := true, ser := fld w0 8 1 == 1, dbg := fld w0 9 1 == 1, stmask := fld w0 16 32
    gw := BitVec.ofNat 64 (h / 2 ^ 64), vw := BitVec.ofNat 32 (h / 2 ^ 128), words := words }
  let rsv := nfld w0 4 4 ≠ 0 ∨ nfld w0 10 6 ≠ 0 ∨ nfld w0 48 16 ≠ 0 ∨ h / 2 ^ 160 ≠ 0
  let fr := { fr with faults := fr.faults ++ fr.checks rsv }
  (fr.indices.filter fr.isIll).foldl Frame.deliverIll fr

/-- The predictor's guess for a block (R28, log 6): free, but for an exit that is a `ret`, whose target is popped
from the return stack while it holds an entry (R62); and whether the guess was popped. -/
def Frame.guessed (fr : Frame) (stack : List Word) (tick : Nat) : Option Word × Bool :=
  let exits := fr.indices.filterMap (fun k => (fr.instr k).bind exitOf)
  match Config.predict tick with
  | none => (none, false)
  | some g =>
    match exits[Config.pick tick % exits.length]?, stack with
    | some (_, 0x14, _), top :: _ => (some top, true)
    | _, _ => (some (g &&& ~~~0x1F), false)

/-- R47: a register that the block names in its masks or as a status register is pending: its number. -/
def Fibre.pendingName (f : Fibre) (fr : Frame) : Option Nat :=
  let srs := fr.indices.filterMap (fun k => (fr.instr k).bind sregOf)
  match (List.range 64).find? (fun n => f.gpend.getLsbD n && (fr.gmask.getLsbD n || srs.contains n)) with
  | some n => some n
  | none => ((List.range 32).find? (fun n => f.vpend.getLsbD n && fr.vw.getLsbD n)).map (64 + ·)

/-- R16, R17, R44: the granted frame is fetched, decoded and checked; a block that names a pending register
parks its fibre (R47). Nothing is fetched yet while a home makes the text wait. -/
def execBlockFetch (fid seq : Nat) (s : State) : Host.Outcome State Fault Refusal :=
  match s.fibre? fid with
  | none => .next s
  | some f =>
    match f.frame? seq, s.fibreCtx f with
    | some fr, some c =>
      if fr.fetched then .next s
      else
        let (tick, s) := (s.tick, { s with tick := s.tick + 1 })
        let ring := if f.ringFault then [{ idx := 0, cause := .ringTimeout, taddr := 0, src := .ring : Recorded }] else []
        match s.fetchUnits c c.cell fr.addr [0] [] [] with
        | (none, s) => .next s
        | (some (hdr, fs), s) =>
          if !fs.isEmpty then
            .next (s.setFibre fid ({ f with ringFault := false }.setFrame
              { fr with fetched := true, faults := fs ++ ring }))
          else
            let n := 2 * (leNat hdr % 16 + 1)
            match s.fetchUnits c c.cell fr.addr ((List.range n).map (· + 1)) [] [] with
            | (none, s) => .next s
            | (some (text, fs), s) =>
              if !fs.isEmpty then
                .next (s.setFibre fid ({ f with ringFault := false }.setFrame
                  { fr with fetched := true, faults := fs ++ ring }))
              else
                let fr := { fr with faults := ring }.load hdr text
                let g := fr.guessed f.returnStack tick
                let fr := { fr with guess := g.1, popped := g.2 }
                match f.pendingName fr with
                | some n => .next (s.parkAt fid seq fr.addr (.reg n))
                | none => .next (s.setFibre fid { (f.setFrame fr) with next := fr.guess, ringFault := false })
    | _, _ => .next s

end Sys2Proof.Machine
end

