-- ==== Sys2Proof/Machine/Launch.lean ====
section
/-! DEFINITION. Launches: the record and its checks, the kernel header, the dies and queues of groups,
priorities, events, waits and completion (R185 to R202, R245, R259, R317, R318). -/

namespace Sys2Proof.Machine

/-! ### Owner registers (R187, R192, R299) -/

/-- PART and MAXPRIO of a window. -/
def State.winPart (s : State) (w : Nat) : Nat := nfld (s.lwcfg w) 1 3
def State.winPrio (s : State) (w : Nat) : Nat := nfld (s.lwcfg w) 4 3

/-- The physical address of the slot for an expected sequence number. -/
def State.slotAddr (s : State) (w e : Nat) : Nat :=
  s.winBase w + 256 * (e % s.winSlots w)

/-- E of a window. -/
def State.expected (s : State) (w : Nat) : Nat := s.expect.getD w 1

/-- The weight of a die in a partition (R192). -/
def State.weight (s : State) (p d : Nat) : Nat := nfld (s.reg (0x400 + 8 * p)) (2 * d) 2

/-- O of R193. -/
def State.dieOrder (s : State) (p : Nat) : List Nat :=
  [1, 2, 3].flatMap (fun r => (List.range 32).filter (fun d => r ≤ s.weight p d))

/-- Die(g) of R193. -/
def dieOf (order : List Nat) (seq win g : Nat) : Nat :=
  order.getD (((seq + 5 * win) % order.length + g) % order.length) 0

/-! ### The record and the header (R189, R317, R318) -/

/-- A launch from a record that has been copied. -/
def Launch.of (win seq now : Nat) (record : List Word) : Launch :=
  { win := win, seq := seq, record := record, hdr := [], ctx := [], unmet := [], started := false, joining := []
    stamp := 0, cancel := none, ages := 0, agedAt := now, order := [], mbox := none, rings := [], reported := [], retired := false }

/-- R190, code 1: a reserved field of the record is nonzero. -/
def Launch.reserved (l : Launch) : Bool :=
  let w := l.word
  let z := fun (off lo n : Nat) => nfld (w off) lo n != 0
  z 24 6 2 || z 24 15 1 || z 24 19 1 || z 24 23 1 || z 24 39 25
    || z 32 13 3 || z 32 29 3 || z 32 45 3 || z 32 61 3
    || z 72 13 51 || z 96 17 47 || z 120 32 32 || z 128 12 52
    || (List.range 13).any (fun i => w (136 + 8 * i) != 0)

/-- Enabled waits: index, event, value. -/
def Launch.waitsOf (l : Launch) : List (Nat × Nat × Word) :=
  ((List.range 4).filter (fun i => nfld (l.word 32) (16 * i + 12) 1 = 1)).map
    (fun i => (i, nfld (l.word 32) (16 * i) 12, l.word (40 + 8 * i)))

/-- CEV, when CEN is set. With CEN 0 the record has no completion event: its CEV field is neither signalled nor checked by
code 5 of R190 (DESIGN CHOICE, log 83). -/
def Launch.cev (l : Launch) : Option Nat := if nfld (l.word 72) 12 1 = 1 then some (nfld (l.word 72) 0 12) else none

/-- The queues of a launch. -/
def Launch.queues (l : Launch) : List Nat := (List.range (nfld (l.word 96) 8 9)).map (nfld (l.word 96) 0 8 + ·)

/-- R318: the header passes, its cell-memory size aside. -/
def Launch.headerOk (l : Launch) : Bool :=
  let h := l.hdrWord
  nfld (h 0) 0 32 == 0x4C525250 && nfld (h 0) 32 16 == 1 && nfld (h 0) 48 16 == 0
    && nfld (h 8) 0 7 ≤ 64 && nfld (h 8) 7 1 == 0 && nfld (h 8) 8 6 ≤ 32 && nfld (h 8) 14 2 == 0
    && nfld (h 8) 20 4 == 0 && nfld (h 8) 30 2 == 0 && nfld (h 8) 38 2 == 0 && nfld (h 8) 44 20 == 0
    && nfld (h 8) 41 3 ≤ 4 && nfld (h 16) 21 43 == 0 && nfld (h 24) 0 5 == 0
    && h 40 == 0 && h 48 == 0 && h 56 == 0

/-- CMEM of the header. -/
def Launch.cmem (l : Launch) : Nat := nfld (l.hdrWord 16) 0 21

/-- The tokens that each group of a launch asks for (R200). -/
def Launch.tokens (l : Launch) : Nat := l.power * l.cells

/-- The level at which the fibres of a launch start (R234, R245). -/
def Launch.level (l : Launch) : Level := if fld (l.ctx.getD 1 0) 62 1 = 1 then .s else .a

/-- The translation registers of the fibres of a launch at placement (R245). -/
def Launch.xlate (l : Launch) : Xlate :=
  let e := fun i => l.ctx.getD i 0
  { level := l.level
    xroot := setFld (e 0) 52 12 (BitVec.ofNat 12 (nfld (l.word 128) 0 12))
    xown := (e 1) &&& 0x3F
    xkeys := e 2
    ncbase := List.replicate 16 0
    nclim := List.replicate 16 0 }

/-! ### Reads and writes of the dispatcher -/

/-- A place of device memory as the dispatcher reaches it. -/
def hbmLoc (a : Nat) : Loc := { space := .hbm, addr := a, key := 0, ca := true, declared := false }

/-- Reads, one after the other; none while some home makes one wait. -/
def State.engineReads (s : State) : List (Loc × Nat) → Option (List Byte) × State
  | [] => (some [], s)
  | (loc, n) :: rest =>
    match s.engineRead loc n with
    | (none, s) => (none, s)
    | (some bs, s) =>
      match State.engineReads s rest with
      | (none, s) => (none, s)
      | (some more, s) => (some (bs ++ more), s)

/-- Writes, one after the other; none while some home makes one wait, and then nothing is written, but the host is asked
for what it holds (R126). -/
def State.engineWrites (s : State) : List (Loc × List Byte) → Option State × State
  | [] => (some s, s)
  | (loc, bs) :: rest =>
    match s.engineWrite loc bs with
    | (none, w) => (none, w)
    | (some t, _) =>
      match State.engineWrites t rest with
      | (none, _) => (none, (State.engineWrites s rest).2)
      | (some t, _) => (some t, s)

/-- `n` bytes from a 64-byte boundary, in halves. -/
def halvesFrom (loc : Loc) (n : Nat) : List (Loc × Nat) :=
  (List.range ((n + 63) / 64)).map (fun i => ({ loc with addr := loc.addr + 64 * i }, min 64 (n - 64 * i)))

/-- The same for bytes to write. -/
def halvesOf (loc : Loc) (bs : List Byte) : List (Loc × List Byte) :=
  (List.range ((bs.length + 63) / 64)).map (fun i =>
    ({ loc with addr := loc.addr + 64 * i }, (bs.drop (64 * i)).take 64))

/-- An address that the tables map: no bit above the space, and outside the aperture (R101). -/
def inTables (va : Word) : Bool := nfld va 57 7 == 0 && nfld va 48 16 != 0x1F0

/-- Doublewords of bytes. -/
def dwordsOf (bs : List Byte) : List Word := (chunksOf 8 (bs.length / 8) bs).map leWord

/-- The location of an address for the dispatcher, when it is mapped and passes R110. -/
def State.dispatchLoc (s : State) (sec : Nat) (x : Xlate) (kind : AccKind) (va : Word) : Option Loc :=
  if !inTables va then none
  else
    match s.walk sec x.xroot va with
    | some (e, sh) => if (permit x kind e).isNone then some (pageLoc x va e sh) else none
    | none => none

/-- The addresses that the dispatcher walks for next in the examination of a record, with what has been read of its context
entry and header (R190, R318): the header, then the mailbox and the rings. -/
def Launch.walks (l : Launch) (ctx hdr : List Byte) : List Word :=
  if ctx.isEmpty || l.reserved then []
  else if hdr.length < 64 then [l.word 0]
  else (if l.word 88 = 0 then [] else [l.word 88]) ++ (if l.queues.isEmpty then [] else [l.word 104])

/-- R126: the half of a table entry that such a walk has to wait for. -/
def State.dispatchHalf (s : State) (sec : Nat) (x : Xlate) (vas : List Word) : Option Nat :=
  (vas.filter inTables).findSome? (s.walkHalf sec x.xroot)

/-- R308: such walks count at the homes of the entries that they read. -/
def State.countDispatch (s : State) (sec : Nat) (x : Xlate) (vas : List Word) : State :=
  (vas.filter inTables).foldl (fun s va => s.countWalk sec x.xroot va) s

/-! ### Priorities and queues (R194 to R196) -/

/-- A group waits in its die's queue. -/
def Group.waiting (g : Group) : Bool := g.state == .queued || g.state == .saved

/-- R195, to a depth of `fuel` waits. -/
def State.effPrioIn (s : State) : Nat → Nat → Nat
  | fuel, lid =>
    match s.launches.get? lid with
    | none => 0
    | some l =>
      let own := max l.prio (min 7 (l.prio + l.ages))
      match fuel, l.cev with
      | k + 1, some e =>
        (s.launches.filter (fun x => !x.2.retired &&
          x.2.waitsOf.any (fun w => w.2.1 == e && x.2.unmet.contains w.1))).foldl
          (fun p x => max p (State.effPrioIn s k x.1)) own
      | _, _ => own

/-- The effective priority of a launch. -/
def State.effPrio (s : State) (lid : Nat) : Nat := s.effPrioIn 8 lid

/-- A launch is being cancelled: none of its groups is placed any more (R202). -/
def State.cancelled (s : State) (lid : Nat) : Bool :=
  ((s.launches.get? lid).map (fun l => l.cancel.isSome)).getD false

/-- The head of a die's queue (R194): highest effective priority, then the oldest at it. -/
def State.headOf (s : State) (die : Nat) : Option (Nat × Group) :=
  (s.groups.filter (fun e => e.2.die == die && e.2.waiting && !s.cancelled e.2.lid)).foldl (fun best e =>
    match best with
    | none => some e
    | some b =>
      let pe := s.effPrio e.2.lid
      let pb := s.effPrio b.2.lid
      if pb < pe ∨ (pb = pe ∧ e.2.stamp < b.2.stamp) then some e else best) none

/-- A group joins its level as its youngest group. -/
def State.restamp (s : State) (gid : Nat) : State :=
  match s.group? gid with
  | some g => { s with nextId := s.nextId + 1 }.setGroup gid { g with stamp := s.nextId }
  | none => s

/-- A launch has a group that waits in a queue. -/
def State.anyWaiting (s : State) (lid : Nat) : Bool := s.groups.any (fun e => e.2.lid == lid && e.2.waiting)

/-- Insertion by stamp. -/
def insertGroup (e : Nat × Group) : List (Nat × Group) → List (Nat × Group)
  | [] => [e]
  | d :: ds => if e.2.stamp ≤ d.2.stamp then e :: d :: ds else d :: insertGroup e ds

/-- What follows a change of queues, launches or waits, from the state before it (R195, R196): groups whose
launch's effective priority has changed become the youngest at their new level; the head's wait begins
anew when the head or its priority has changed; an ageing period begins when a launch begins to wait. -/
def State.requeued (old s : State) : State :=
  let moved := s.groups.filter (fun e => e.2.waiting && ((old.group? e.1).map Group.waiting).getD false
    && old.effPrio e.2.lid != s.effPrio e.2.lid)
  let s := (moved.foldr insertGroup []).foldl (fun s e => s.restamp e.1) s
  let s := (List.range 32).foldl (fun s d =>
    match s.headOf d with
    | none => s
    | some (gid, g) =>
      let same := match old.headOf d with
        | some (o, og) => o == gid && old.effPrio og.lid == s.effPrio g.lid
        | none => false
      if same then s else s.setGroup gid { g with since := s.time }) s
  let begun := (s.launches.filter (fun e => s.anyWaiting e.1 && !old.anyWaiting e.1)).map Prod.fst
  { s with launches := begun.foldl (fun (d : Dict Launch) n => d.modify n (fun l => { l with agedAt := s.time })) s.launches }

/-- A group joins the queue of a die as the youngest at its level; that die has to report again (R198). -/
def State.enqueueGroup (s : State) (gid die : Nat) : State :=
  match s.group? gid with
  | none => s
  | some g =>
    let s := s.restamp gid
    let s := s.setGroup gid { g with die := die, stamp := s.nextId - 1 }
    { s with launches := s.launches.modify g.lid (fun l => { l with reported := l.reported.filter (· != die) }) }

/-- A group of a launch before its first placement. -/
def Group.fresh (lid num die stamp now : Nat) : Group :=
  { lid := lid, num := num, die := die, x0 := 0, y0 := 0, state := .queued, stamp := stamp, since := now, hold := false, stopping := false
    bars := [], mem := [], tags := [], poison := [], cells := [], area := none, rsv := [] }

/-- R193, R197: the waits of a launch are met; the segments of its dies have its groups to queue. -/
def State.startLaunch (s : State) (lid : Nat) : State :=
  match s.launches.get? lid with
  | none => s
  | some l =>
    let dies := if l.groupCount = 0 then [] else l.order.eraseDups
    { s with nextId := s.nextId + 1
             launches := s.launches.put lid { l with started := true, unmet := [], joining := dies, stamp := s.nextId } }

/-- R193: a segment takes the groups of a launch that are its die's into its queue, in ascending g. -/
def State.joinLaunch (s : State) (lid die : Nat) : State :=
  match s.launches.get? lid with
  | none => s
  | some l =>
    let t := { s with launches := s.launches.put lid { l with joining := l.joining.filter (· != die) } }
    State.requeued s ((List.range l.groupCount).foldl (fun s n =>
      if dieOf l.order l.seq l.win n = die then
        { s with nextGid := s.nextGid + 1, nextId := s.nextId + 1 }.setGroup s.nextGid (Group.fresh lid n die s.nextId s.time)
      else s) t)

/-- A step takes its action from the round: one step at the least of every `Config.patience + 2` (log 4). -/
def State.fairStep (s : State) : Bool := s.steps % (Config.patience + 2) == 0

/-- The launches whose groups a segment may queue next: of each window the one that started first (R194). -/
def State.toJoin (s : State) (die : Nat) : List Nat :=
  let here := s.launches.filter (fun e => e.2.joining.contains die)
  (here.filter (fun e => here.all (fun o => o.2.win != e.2.win || e.2.stamp ≤ o.2.stamp))).map Prod.fst

/-- A segment takes the groups of a launch into its queue, that of any window; of the one that started first, in a step of
the round, so that each has its turn (R194, R201, log 65). -/
def State.joinNext (s : State) (die : Nat) : State :=
  match s.toJoin die with
  | [] => s
  | ready =>
    let first := ready.foldl (fun b n =>
      if ((s.launches.get? n).map Launch.stamp).getD 0 < ((s.launches.get? b).map Launch.stamp).getD 0 then n else b) (ready.headD 0)
    let lid := if s.fairStep then first else ready.getD (Config.pick s.tick % ready.length) 0
    { s with tick := s.tick + 1 }.joinLaunch lid die

/-! ### Events (R197, R208, R209) -/

/-- The value of an event. -/
def State.event (s : State) (e : Nat) : Word := s.events.getD e 0

/-- R209: an add wakes the fibres whose value the event now reaches; a saved fibre stays parked (R204). -/
def State.wakeEvent (s : State) (e : Nat) : State :=
  s.wakeWhere (fun f => match f.park with
    | .evt e' v => e' == e && v.toNat ≤ (s.event e).toNat
        && ((s.group? f.gid).map (fun g => g.state == .running)).getD false
    | _ => false)

/-- R197: the waits on an event that its value meets; a launch without an unmet wait starts. -/
def State.meetWaits (s : State) (e : Nat) : State :=
  s.launches.foldl (fun s x =>
    match s.launches.get? x.1 with
    | none => s
    | some l =>
      if l.started || l.retired then s
      else
        let met := (l.waitsOf.filter (fun w => w.2.1 == e && w.2.2.toNat ≤ (s.event e).toNat)).map (fun w => w.1)
        let left := l.unmet.filter (fun i => !met.contains i)
        let s := { s with launches := s.launches.put x.1 { l with unmet := left } }
        if left.isEmpty then s.startLaunch x.1 else s) s

/-- An add to an event at its home (R197, R208). -/
def State.addEvent (s : State) (e : Nat) (v : Word) : State :=
  let t := { s with events := s.events.put e (s.event e + v) }
  State.requeued s ((t.wakeEvent e).meetWaits e)

/-! ### Acceptance (R190) -/

/-- The checks of R190 after those of codes 1, 2 and the context: the first that fails. -/
def State.refusal (s : State) (l : Launch) (sec : Nat) : Nat :=
  let p := s.winPart l.win
  let x := l.xlate
  let mbox := l.word 88
  let checks : List (Nat × Bool) :=
    [ (2, !l.headerOk)
    , (3, nfld (l.word 24) 0 3 > 3 || nfld (l.word 24) 3 3 > 3 || l.sx % l.core != 0 || l.cmem > 0x100000
          || nfld (l.word 24) 8 7 > 63)
    , (4, l.groupCount > 2 ^ 32 - 1)
    , (5, l.waitsOf.any (fun w => w.2.1 / 512 != p) || (match l.cev with
        | some e => e / 512 != p
        | none => false))
    , (6, l.part != p)
    , (7, l.queues.any (fun q => q / 32 != p || (s.queues.get? q).isSome))
    , (8, nfld (l.word 24) 24 3 != 4 && nfld (l.word 24) 24 3 != 5)
    , (9, l.prio > s.winPrio l.win)
    , (10, l.groupCount != 0 && (s.dieOrder p).isEmpty)
    , (11, l.tokens > nfld (s.reg 0x80) 0 9)
    , (12, (mbox != 0 && (mbox.toNat % 8 != 0 || (s.dispatchLoc sec x .store mbox).isNone))
          || (!l.queues.isEmpty && (!inTables (l.word 104) || (s.walk sec x.xroot (l.word 104)).isNone))) ]
  ((checks.find? (fun c => c.2)).map Prod.fst).getD 0

/-- Where the rings of a launch lie: for each queue the parts of its 8 MiB at QMEM that the tables map when the launch is
accepted (R210, log 12). -/
def State.ringPlaces (s : State) (l : Launch) (sec : Nat) : List (Nat × Nat × Nat) :=
  if l.queues.isEmpty then []
  else
    let lo := (l.word 104).toNat
    let leaves := s.leavesIn sec lo (lo + 2 ^ 23 * l.queues.length) 4 (nfld l.xlate.xroot 12 40 * 4096) 0
    (List.range l.queues.length).flatMap (fun j =>
      let a := lo + 2 ^ 23 * j
      leaves.filterMap (fun e =>
        let from_ := max a e.1
        let to_ := min (a + 2 ^ 23) (e.1 + 2 ^ e.2.2)
        if from_ < to_ then some (nfld (l.word 96) 0 8 + j, leafPa e.2.1 + (from_ - e.1), to_ - from_) else none))

/-- An accepted launch: its queues are bound and empty, its waits tested (R190, R197). -/
def State.accept (s : State) (l : Launch) (sec : Nat) : State :=
  let lid := s.nextId
  let mbox := l.word 88
  let unmet := (l.waitsOf.filter (fun w => (s.event w.2.1).toNat < w.2.2.toNat)).map (fun w => w.1)
  let l := { l with unmet := unmet, order := s.dieOrder (s.winPart l.win), agedAt := s.time
                    mbox := if mbox = 0 then none else s.dispatchLoc sec l.xlate .store mbox
                    rings := s.ringPlaces l sec }
  let t := { s with
    nextId := lid + 1
    launches := s.launches.put lid l
    queues := l.queues.foldl (fun d q => d.put q { lid := lid, items := [], damaged := 0 }) s.queues }
  State.requeued s (if unmet.isEmpty then t.startLaunch lid else t)

/-- What the examination of a record needs next. -/
inductive Needs where
  /-- its entry of the context table, at this address -/
  | entry (addr : Nat)
  /-- its kernel header, at this location -/
  | header (loc : Loc)
  /-- nothing: the refusal code, 0 for none, and the launch -/
  | verdict (code : Nat) (l : Launch)
  deriving DecidableEq, Repr

/-- R190, R318: what the examination of a record needs next, with what has been read of its context entry and header so
far: code 1, then the context, then the header, then the other checks. -/
def State.needs (s : State) (l : Launch) (sec goHigh : Nat) (ctx hdr : List Byte) : Needs :=
  if l.reserved || goHigh != 0 then .verdict 1 l
  else if ctx.isEmpty then .entry ((s.reg 0x78).toNat + 32 * nfld (l.word 128) 0 12)
  else
    let l := { l with ctx := dwordsOf ctx }
    if nfld (l.ctx.getD 0 0) 52 12 ≠ 0 ∨ fld (l.ctx.getD 1 0) 63 1 = 0 then .verdict 12 l
    else if (l.word 0).toNat % 64 ≠ 0 then .verdict 2 l
    else
      match s.dispatchLoc sec l.xlate .fetch (l.word 0) with
      | none => .verdict 2 l
      | some loc =>
        if hdr.length < 64 then .header loc
        else
          let l := { l with hdr := dwordsOf hdr }
          .verdict (s.refusal l sec) l

/-- A record whose go word has been read, and the `launch` that handed it over. -/
def Taking.begin_ (slot seq : Nat) (go : Word) (whose : Option Cursor) : Taking :=
  { slot := slot, seq := seq, go := go, bytes := [], advanced := false, ctx := [], hdr := [], whose := whose }

/-- The STATUS word of a record (R188). -/
def launchStatus (code seq : Nat) : Word :=
  BitVec.ofNat 64 (1 + (if code = 0 then 2 else 0) + code * 256 + seq % 2 ^ 32 * 2 ^ 32)

/-- R188, R190: STATUS of a record is written and the launch accepted or refused; the STATUS word. None while the slot's
home makes the write wait. -/
def State.conclude (s : State) (k : Taking) (code : Nat) (l : Launch) : Option (Word × State) × State :=
  let w := launchStatus code k.seq
  match s.engineWrite (hbmLoc (k.slot + 240)) (natLe 8 w.toNat) with
  | (none, s) => (none, s)
  | (some t, _) => (some (w, if code = 0 then t.accept l (sectorOf k.slot) else t), s)

/-- R188: E of a window advances. -/
def State.advance (s : State) (win : Nat) : State := { s with expect := s.expect.put win (s.expected win + 1) }

/-- R192: acceptance is held while a change of a map waits. -/
def State.mapHeld (s : State) : Bool := !s.changes.isEmpty

/-! ### Completion (R198) -/

/-- The MSI-X port of a host: the controller sends a launch's message to the host of its window. -/
def Launch.port (l : Launch) : Nat := l.win

/-- A store to the mailbox at the location that was kept. -/
def State.storeMbox (s : State) (loc : Loc) (v : Word) : Option State × State := s.engineWrite loc (natLe 8 v.toNat)

/-- R190, R198: the queues of a launch are unbound and what they hold is discarded. -/
def State.unbind (s : State) (lid : Nat) : State :=
  { s with queues := s.queues.filter (fun q => q.2.lid != lid) }

/-- The launch retires (R198, R202): event, mailbox, message, queues. `signal`: CVAL is added; `mboxVal`
overrides what the mailbox receives. None while the mailbox's home makes it wait. -/
def State.retire (s : State) (lid : Nat) (l : Launch) (signal : Bool) (mboxVal : Option Word) : Option State × State :=
  let t := match l.cev with
    | some e => if signal then s.addEvent e (l.word 80) else s
    | none => s
  let v := mboxVal.getD (match l.cev with
    | some e => t.event e
    | none => l.word 80)
  let stored := match l.mbox with
    | some loc => t.storeMbox loc v
    | none => (some t, t)
  match stored with
  | (none, w) => (none, { s with snoops := w.snoops, halves := w.halves, out := w.out })
  | (some t, _) =>
    let t := if nfld (l.word 24) 27 1 = 1 then t.emit (.msix l.port (nfld (l.word 24) 28 11)) else t
    let u := { t with launches := t.launches.modify lid (fun l => { l with retired := true }) }
    (some (State.requeued t (u.unbind lid)), s)

end Sys2Proof.Machine
end

