-- ==== Sys2Proof/Machine/SysReg.lean ====
section
/-! DEFINITION. The system registers: numbers, levels, reads and writes (R80, R115, R175, R239 to R245,
R270, R308). -/

namespace Sys2Proof.Machine

/-- A level is at least another one (R234). -/
def Level.covers (have_ need : Level) : Bool := need.code ≤ have_.code

/-- A banked number (R240). -/
def isBanked (n : Nat) : Bool := 0x010 ≤ n % 0x100 && n % 0x100 ≤ 0x016 && n / 0x100 ≤ 3

/-- The level whose bank a banked number reaches (R240). -/
def bankOf (f : Fibre) (n : Nat) : Level :=
  match n / 0x100 with
  | 0 => f.level
  | 1 => .a
  | 2 => .s
  | _ => .m

/-- The level that a read needs (R240, R241). -/
def readLevel (f : Fibre) (n : Nat) : Level :=
  if isBanked n then bankOf f n
  else if 0x020 ≤ n ∧ n < 0x060 then .s
  else .a

/-- The level that a write needs (R240, R241). -/
def writeLevel (f : Fibre) (n : Nat) : Level :=
  if isBanked n then bankOf f n
  else if n = 0x021 then .m
  else if n = 0x006 ∨ (0x020 ≤ n ∧ n < 0x090) then .s
  else .a

/-- Register `i` of a bank. -/
def Bank.get (b : Bank) (i : Nat) : Word :=
  match i with
  | 0 => b.tvec
  | 1 => b.tcause
  | 2 => b.tblock
  | 3 => b.tidx
  | 4 => b.taddr
  | 5 => b.tstat
  | _ => b.tscratch

/-- The bits of `v` that register `i` of a bank keeps; a PL that is no level, or above the bank's, leaves PL
as it stands (R240, R243). -/
def Bank.set (b : Bank) (h : Level) (i : Nat) (v : Word) : Bank :=
  match i with
  | 0 => { b with tvec := v &&& ~~~0x1F }
  | 1 => { b with tcause := v &&& 0xFF }
  | 2 => { b with tblock := v &&& ~~~0x1F }
  | 3 => { b with tidx := v &&& 0xFF }
  | 4 => { b with taddr := v }
  | 5 =>
    let pl := if nfld v 0 2 = 2 ∨ h.code < nfld v 0 2 then fld b.tstat 0 2 else fld v 0 2
    { b with tstat := pl.setWidth 64 ||| (v &&& 4) }
  | _ => { b with tscratch := v }

/-- The value of a system register of a fibre (R240). -/
def State.sysRead (s : State) (f : Fibre) (n : Nat) : Word :=
  if isBanked n then (f.bank (bankOf f n)).get (n % 0x100 - 0x010)
  else if 0x040 ≤ n ∧ n < 0x050 then vget f.ncbase (n - 0x040) 0
  else if 0x050 ≤ n ∧ n < 0x060 then vget f.nclim (n - 0x050) 0
  else if 0x080 ≤ n ∧ n < 0x088 then vget (s.cell (s.cellOf f)).evsel (n - 0x080) 0
  else if 0x088 ≤ n ∧ n < 0x090 then vget (s.cell (s.cellOf f)).evcnt (n - 0x088) 0
  else
    match n with
    | 0x000 => f.fcsr
    | 0x001 => f.srng
    | 0x002 => BitVec.ofNat 64 f.idx
    | 0x003 => BitVec.ofNat 64 (s.cellOf f)
    | 0x004 => f.grp
    | 0x005 => f.rgnh
    | 0x006 => f.stepReg
    | 0x007 => BitVec.ofNat 64 f.level.code
    | 0x020 => f.sdeleg
    | 0x021 => f.mdeleg
    | 0x030 => f.xroot
    | 0x031 => f.xown
    | 0x032 => f.xkeys
    | _ => 0

/-- The bits of VA[56:16] in a range register (R115). -/
def rangeBits : Word := 0x01FFFFFFFFFF0000

/-- A fibre with one of its own system registers written; reserved bits are ignored (R239). -/
def Fibre.sysWrite (f : Fibre) (n : Nat) (v : Word) : Fibre :=
  if isBanked n then
    let h := bankOf f n
    f.setBank h ((f.bank h).set h (n % 0x100 - 0x010) v)
  else if 0x040 ≤ n ∧ n < 0x050 then { f with ncbase := vset f.ncbase (n - 0x040) (v &&& (rangeBits ||| 1)) }
  else if 0x050 ≤ n ∧ n < 0x060 then { f with nclim := vset f.nclim (n - 0x050) (v &&& rangeBits) }
  else
    match n with
    | 0x000 => { f with fcsr := v &&& 0xFF }
    | 0x001 => { f with srng := v }
    | 0x006 => { f with stepReg := v &&& 3 }
    | 0x020 => { f with sdeleg := v }
    | 0x021 => { f with mdeleg := v }
    | 0x030 => { f with xroot := v }
    | 0x031 => { f with xown := v &&& 0x3F }
    | 0x032 => { f with xkeys := v }
    | _ => f

/-- A cell with an event selector or count written (R308). -/
def CellSt.sysWrite (c : CellSt) (n : Nat) (v : Word) : CellSt :=
  if 0x080 ≤ n ∧ n < 0x088 then { c with evsel := vset c.evsel (n - 0x080) (v &&& 0xFF) }
  else if 0x088 ≤ n ∧ n < 0x090 then { c with evcnt := vset c.evcnt (n - 0x088) v }
  else c

/-- The write of a system register at commit (R24, R239). -/
def State.sysWrite (s : State) (fid n : Nat) (v : Word) : State :=
  match s.fibre? fid with
  | none => s
  | some f =>
    if 0x080 ≤ n ∧ n < 0x090 then
      let c := s.cellOf f
      s.setCell c ((s.cell c).sysWrite n v)
    else s.setFibre fid (f.sysWrite n v)

/-- A register whose change must wait for the fibre's copies and tile transfers (R242). -/
def isXlateReg (n : Nat) : Bool := (0x030 ≤ n && n ≤ 0x032) || (0x040 ≤ n && n < 0x060)

end Sys2Proof.Machine
end

