-- ==== Sys2Proof/Machine/Block.lean ====
section
/-! DEFINITION. The end of a block: when nothing of it can still happen, its commit, the steps of STEP, and
the delivery of a trap (R21, R23 to R26, R63, R64, R175, R178 to R180, R236 to R238, R242, R248, R249). -/

namespace Sys2Proof.Machine

/-! ### When a block has run (R21, R25) -/

/-- No access of the block is under way: each piece has been performed or has not left, and what has been performed
has been acknowledged and answered. -/
def State.atRest (s : State) (fid seq : Nat) : Bool :=
  let mine := (s.accessesOf fid).filter (fun e => e.2.seq == seq && !e.2.released)
  mine.all (fun e => isFence e.2.ins || isCacheOp e.2.ins
      || e.2.pieces.all (fun p => p.stage == .held || p.stage == .done))
    && mine.all (fun e => !(e.2.landed && !e.2.pieces.isEmpty) || (e.2.acked && e.2.replied) || (isStoreOnly e.2.ins && e.2.acked))

/-- The memory of a block stands still: the accesses before the block are done, nothing of the block is under way, and
none of its accesses may be performed. -/
def State.memoryStill (s : State) (fid : Nat) (fr : Frame) : Bool :=
  (s.accessesOf fid).all (fun e => fr.seq ≤ e.2.seq || e.2.performed)
    && s.atRest fid fr.seq
    && (s.accessesOf fid).all (fun e => e.2.seq != fr.seq || e.2.landed || !s.mayPerform e.2)

/-- The memory of a block with a recorded fault stands still (R26). -/
def State.stuck (s : State) (f : Fibre) (fid : Nat) (fr : Frame) : Bool :=
  !fr.faults.isEmpty && f.isOldest fr.seq && s.memoryStill fid fr

/-- An access of a block with a recorded fault that will never be performed (R26), and nothing else is left of the
block. -/
def State.blocked (s : State) (f : Fibre) (fid : Nat) (fr : Frame) : Bool :=
  s.stuck f fid fr && ({ fr with owed := [] } : Frame).live.isEmpty

/-- None of what may act in the block without a reply can fire now: each index waits for a lower one. -/
def Frame.standsStill (fr : Frame) : Bool :=
  ({ fr with owed := [] } : Frame).live.all (fun k =>
    !((fr.instr k).map (fr.ready k)).getD false || fr.waitsLower k || (fr.ser && fr.liveNow.any (· < k)))

/-- R25, R26: the lowest index that still waits for its access in a block that stands still is never performed, since
what the access waits for is never performed in a block with a fault (log 15). -/
def Frame.barNext (fr : Frame) : Frame :=
  match fr.indices.find? (fun k => fr.owed.contains k && !fr.late.contains k) with
  | some k => { fr with late := fr.late ++ [k] }
  | none => fr

/-- Nothing of the block can still happen: it is complete and quiet, or exhausted, or what is left of it
waits on a fault (R21, R25, log 15). -/
def State.settled (s : State) (f : Fibre) (fid : Nat) (fr : Frame) : Bool :=
  fr.fetched && !fr.waiting && (fr.quiet || s.blocked f fid fr)

/-- The lowest index of a fired instruction that satisfies `p`. -/
def Frame.firedAt (fr : Frame) (p : Instr → Bool) : Option Nat :=
  fr.indices.find? (fun k => fr.fired.contains k && ((fr.instr k).map p).getD false)

/-- Kinds of instruction that act at commit. -/
def isSret : Instr → Bool
  | .sret _ => true
  | _ => false
def isYield : Instr → Bool
  | .yield _ => true
  | _ => false

/-- The exit of a complete block. -/
def Frame.exit (fr : Frame) : Option Exit := fr.exits.head?
def Frame.halts (fr : Frame) : Bool := fr.exits.any Exit.isHalt
def Frame.target (fr : Frame) : Option Word := fr.exits.head?.bind Exit.target

/-! ### Commit (R24) -/

/-- R24, step 1: the register values enter the register file; a null leaves the register unchanged. -/
def Fibre.enterRegs (f : Fibre) (fr : Frame) : Fibre :=
  let g := fr.gout.foldl (fun v e => match e.2 with | .val w => vset v e.1 w | _ => v) f.g
  let v := fr.vout.foldl (fun v e => match e.2 with | .vec x _ => vset v e.1 x | _ => v) f.v
  let vtag := fr.vout.foldl (fun v e => match e.2 with | .vec _ t => vset v e.1 t | _ => v) f.vtag
  { f with g := g, v := v, vtag := vtag }

/-- R24, step 2: the state of the block's last SR conversion (R270) and its flags (R81). -/
def Fibre.enterFlags (f : Fibre) (fr : Frame) : Fibre :=
  let last := fr.srng.foldl (fun best e =>
    match best with
    | none => some e
    | some b => if b.1 < e.1 then some e else best) (none : Option (Nat × Word))
  { f with srng := (last.map Prod.snd).getD f.srng, fcsr := f.fcsr ||| fr.flags.setWidth 64 }

/-- Insertion of a register write by index. -/
def insertSwr (w : Nat × Nat × Word) : List (Nat × Nat × Word) → List (Nat × Nat × Word)
  | [] => [w]
  | x :: xs => if w.1 ≤ x.1 then w :: x :: xs else x :: insertSwr w xs

/-- R24, step 2: the values of `swr` in ascending index, as a serial block takes them (R22, log 32), then the flags. -/
def State.enterSys (s : State) (fid : Nat) (fr : Frame) : State :=
  ((fr.swrs.foldr insertSwr []).foldl (fun s w => s.sysWrite fid w.2.1 w.2.2) s).modFibre fid (fun f => f.enterFlags fr)

/-- R24, step 3: the block's stores and cache operations are released in LSID order; what belongs to a
region carries its slot and grant (R173). -/
def State.releaseStores (s : State) (fid seq : Nat) : State :=
  let s := { s with accesses := s.accesses.mapV (fun a =>
    if a.fid = fid ∧ a.seq = seq then { s.stamp a with released := true } else a) }
  (s.runCacheOps fid).purge fid

/-- Insertion by index. -/
def insertCmd (c : Command) : List Command → List Command
  | [] => [c]
  | d :: ds => if c.idx ≤ d.idx then c :: d :: ds else d :: insertCmd c ds

/-- R24, step 4: the engine commands are handed over in ascending index. -/
def State.handOverAll (s : State) (fid cell : Nat) (x : Xlate) (fr : Frame) : State :=
  (fr.cmds.foldr insertCmd []).foldl (fun s c => s.handOver fid fr.seq cell x c) s

/-- The return stack after a block (R62). -/
def Fibre.enterRas (f : Fibre) (fr : Frame) : Fibre :=
  { f with ras := fr.rasEffect f.ras }

/-- R137: a fence that is later in order than a `cinv`: every younger block is squashed, and nothing is
fetched until that `cinv` has been performed. -/
def State.refetch (s : State) (fid : Nat) (fr : Frame) : State :=
  match s.fibre? fid with
  | none => s
  | some f =>
    let mem := fun (p : Instr → Bool) => (fr.fired.filterMap (fun k =>
      match fr.instr k with
      | some i => if p i then lsidOf i else none
      | none => none))
    let cinvs := mem (fun i => match i with | .cinv _ _ => true | _ => false)
    let fences := mem isFence
    let behind := fences.any (fun n => f.sawCinv || cinvs.any (· < n))
    let left := if fences.isEmpty then f.sawCinv || !cinvs.isEmpty
                else cinvs.any (fun n => fences.all (· < n))
    let s := s.setFibre fid { f with sawCinv := left }
    if behind then
      (s.squash fid (fr.seq + 1) 0).modFibre fid (fun f => { f with fetchHold := some (orderKey fr.seq 63) })
    else s

/-- A fibre gives up its frames and engine waits when it halts (R63). -/
def State.haltFibre (s : State) (fid : Nat) : State :=
  match s.fibre? fid with
  | none => s
  | some f =>
    let cell := s.cellOf f
    let n := f.frames.length
    let s := (s.dropAccesses fid 0).setFibre fid { f with
      halted := true, gpend := 0, vpend := 0, frames := [], held := none, heldAccesses := [], next := none
      park := .none, rgn := none, rgnKept := none, answer := none, rgnTrap := false }
    let c := s.cell cell
    let s := s.setCell cell { c with waits := c.waits.filter (fun w => w.fid != fid) }
    countCell cell 3 (n - 1) s

/-- R63: the region of a fibre that halts aborts with EXPLICIT. -/
def State.abortOpen (s : State) (f : Fibre) : State :=
  let s := match f.rgn with
    | some (slot, grant) => if s.virga.alive slot grant then s.abortSlot slot 3 else s
    | none => s
  match f.rgnKept with
  | some (slot, grant, _) => if s.virga.alive slot grant then s.abortSlot slot 3 else s
  | none => s

/-- The accesses of a block with another sequence number (R249). -/
def renumber (d : Dict Access) (seq : Nat) : Dict Access := d.mapV (fun a => { a with seq := seq })

/-- A held access whose translation a `tlbinv` has dropped is translated again when its block goes on (R114, R249). -/
def State.renewed (s : State) (c : Ctx) (a : Access) : Except (Cause × Word) Access × State :=
  let kind : AccKind := if isLoad a.ins then .load else if isAtomic a.ins then .atomic else .store
  let go := fun (r : Except (Cause × Word) (List Piece) × State) (p : Piece) =>
    match r with
    | (.error e, s) => (.error e, s)
    | (.ok ps, s) =>
      match s.segments c kind p.va p.n with
      | (.error e, s) => (.error e, s)
      | (.ok (g :: _), s) => (.ok (ps ++ [{ p with loc := g.loc }]), s)
      | (.ok [], s) => (.ok (ps ++ [p]), s)
  match a.pieces.foldl go (.ok [], s) with
  | (.error e, s) => (.error e, s)
  | (.ok ps, s) => (.ok { a with pieces := ps, xl := c.x, cell := c.cell, stale := false }, s)

/-- The accesses of the held block go on with it; one that its new translation refuses records the fault at its
index. -/
def State.resumeHeld (s : State) (fid seq : Nat) (again : Dict Access) : State :=
  again.foldl (fun s e =>
    match (s.fibre? fid).bind s.fibreCtx with
    | some c =>
      if e.2.stale then
        match s.renewed c e.2 with
        | (.ok a, s) => s.setAccess e.1 a
        | (.error r, s) => s.modFibre fid (fun f =>
          match f.frame? seq with
          | some fr => f.setFrame (fr.fault e.2.idx r.1 r.2 .firing)
          | none => f)
      else s.setAccess e.1 e.2
    | none => s) s

/-- R238: `sret` at commit. The younger blocks are squashed; the held block goes on when RESUME asks for
it and s.tblock is unchanged, else it is discarded. A region left open goes on (R175). -/
def State.doSret (s : State) (fid seq : Nat) : State :=
  let s := s.squash fid (seq + 1) 0
  match s.fibre? fid with
  | none => s
  | some f =>
    let b := f.bank f.level
    let f1 := f.returnFrom
    let f2 := match f.rgnKept with
      | some (slot, grant, 1) => { f1 with rgn := some (slot, grant), rgnKept := none }
      | some (slot, grant, d) => { f1 with rgnKept := some (slot, grant, d - 1) }
      | none => f1
    match f.held with
    | some h =>
      if fld b.tstat 2 1 = 1 ∧ b.tblock = h.addr then
        let fr := { h with seq := f.nextSeq, serPos := nfld b.tidx 0 8 + 1 }
        let again := renumber f.heldAccesses f.nextSeq
        (s.setFibre fid { f2 with frames := f2.frames ++ [fr], nextSeq := f.nextSeq + 1, next := fr.target
                                  held := none, heldAccesses := [] }).resumeHeld fid f.nextSeq again
      else s.setFibre fid { f2 with held := none, heldAccesses := [] }
    | none => s.setFibre fid f2

/-- R126: the accesses that an `sret` has translated again wait for a table entry that a host holds. -/
def State.sretWaits (s : State) (f : Fibre) (fr : Frame) : Option State :=
  if (fr.firedAt isSret).isSome then
    s.walkWaits (s.cellOf f) f.xlate ((f.heldAccesses.filter (fun e => e.2.stale)).flatMap (fun e =>
      e.2.pieces.map (fun p => (p.va, p.n))))
  else none

/-- R178, R255: what `rgn.beg` records when its block is the oldest: RGN_NEST while a region of the fibre is OPEN
or ENDED, ILL when the kernel header declares no regions. -/
def Fibre.begFault (f : Fibre) (fr : Frame) (l : Launch) : Option (Nat × Cause) :=
  match fr.firedAt isRgnBeg with
  | none => none
  | some k =>
    if f.rgnKept.isSome || (f.rgn.isSome && f.answer.isNone) then some (k, .rgnNest)
    else if f.rgn.isNone && !l.regions then some (k, .ill)
    else none

/-- The block that has become the oldest records the fault of its `rgn.beg` (R178). -/
def State.checkBeg (s : State) (fid : Nat) : State :=
  match s.fibre? fid with
  | none => s
  | some f =>
    match f.frames, s.ctxOf f with
    | fr :: _, some (_, l) =>
      (match f.begFault fr l with
        | some (k, c) => s.setFrame fid (fr.fault k c 0 .firing)
        | none => s)
    | _, _ => s

/-- R47: the oldest block in flight that names a register which has become pending parks its fibre. -/
def State.parkNamed (s : State) (fid : Nat) : State :=
  match s.fibre? fid with
  | none => s
  | some f =>
    match f.frames.find? (fun fr => fr.fetched && (f.pendingName fr).isSome) with
    | some fr =>
      (match f.pendingName fr with
        | some n => s.parkAt fid fr.seq fr.addr (.reg n)
        | none => s)
    | none => s

/-- R212: `yield` at commit. -/
def State.doYield (s : State) (fid seq : Nat) : State :=
  let s := s.squash fid (seq + 1) 0
  match s.fibre? fid with
  | none => s
  | some f =>
    let cell := s.cellOf f
    let ready := (s.residents cell).filter (fun e => e.1 != fid && s.ready29 cell e.1 e.2)
    s.setFibre fid { f with park := .yield, yieldFor := ready.map Prod.fst, yieldLeft := 64 }

/-- R235: the firmware ends the launch of a fibre whose trap it does not service, as LCANCEL with SIG 0 would; which
traps it services is free (log 8). -/
def State.unserved (s : State) (lid : Nat) : State :=
  let t : State := { s with tick := s.tick + 1 }
  if Config.firmwareServes s.tick then t
  else
    State.requeued s { t with launches := t.launches.modify lid (fun l =>
      { l with cancel := some (l.cancel.getD false), joining := [] }) }

/-- A trap is taken (R236): every block in flight and its accesses vanish; a region that stays open waits
for the return (R175). A STEP or BRK handler that leaves by a branch and not by `sret` has not returned: the region stays
kept, what the fibre accesses stays plain, and the answer to an abort waits for the `sret` (DESIGN CHOICE, log 31). -/
def State.enterTrap (s : State) (fid seq : Nat) (c : Cause) (tblock : Word) (tidx : Nat) (taddr : Word)
    (rf resume keep : Bool) : State :=
  let s := (s.squash fid seq 0).modFibre fid (fun f =>
    let f := match f.rgnKept, f.rgn with
      | some (slot, grant, d), _ => { f with rgnKept := some (slot, grant, d + 1) }
      | none, some (slot, grant) => if keep then { f with rgn := none, rgnKept := some (slot, grant, 1) } else f
      | none, none => f
    f.takeTrap c tblock tidx taddr rf resume)
  match s.fibre? fid with
  | some f => if f.level = .m then s.unserved f.lid else s
  | none => s

/-- R178: the region of a `rgn.beg` at K opens in a slot: the snapshot, the handler and the cause register. -/
def Fibre.openRegion (f : Fibre) (fr : Frame) (slot grant : Nat) : Fibre :=
  match (fr.firedAt isRgnBeg).bind fr.instr with
  | some (.rgnBeg _ reg off) =>
    let handler := fr.addr + (off.signExtend 64 <<< 5)
    { f with rgn := some (slot, grant), snap := some f.snapshot, rgnCause := reg
             rgnh := (handler &&& ~~~0x1F) ||| (f.rgnh &&& 1) }
  | _ => f

/-- R212, R248: what a committed `yield` asks for still holds when STEP follows it; any other parking does not. -/
def Fibre.parkAfter (f : Fibre) : Park := if f.park = .yield then .yield else .none

/-- A fibre with the delegation registers of another. -/
def Fibre.withDelegs (f g : Fibre) : Fibre := { f with sdeleg := g.sdeleg, mdeleg := g.mdeleg }

/-- The commit of the oldest block (R24), for the fibre one step; `early`: its stores have been released
already (R179); `slot`: the slot and grant of the region that it opens. STEP follows when it is due
(R23, R248) and discards a held block (R249); level M is never stepped (R244). What the block wrote to s.sdeleg and
s.mdeleg takes effect after that STEP (R242). -/
def State.commitBlock (s : State) (fid : Nat) (early : Bool) (slot : Option (Nat × Nat)) : State :=
  match s.fibre? fid with
  | none => s
  | some f =>
    match f.frames with
    | [] => s
    | fr :: younger =>
      let cell := s.cellOf f
      let x := f.xlate
      let step := f.stepped || (fr.dbg && f.level != .m)
      let s := s.setFibre fid (f.enterRegs fr)
      let s := s.enterSys fid fr
      let s := match slot with
        | some (n, grant) => s.modFibre fid (fun f => f.openRegion fr n grant)
        | none => s
      let s := if early then s else s.releaseStores fid fr.seq
      let s := s.handOverAll fid cell x fr
      let s := countCell cell 2 1 s
      if fr.halts then ((s.abortOpen f).haltFibre fid).haltCheck f.gid
      else
        let s := s.refetch fid fr
        let s := s.modFibre fid (fun f =>
          { (f.enterRas fr) with frames := f.frames.filter (fun y => y.seq != fr.seq)
                                 next := if younger.isEmpty then fr.target else f.next })
        let s := if (fr.firedAt isYield).isSome then s.doYield fid fr.seq else s
        let s := if (fr.firedAt isSret).isSome then s.doSret fid fr.seq else s
        if step then
          match s.fibre? fid with
          | some y => ((s.setFibre fid (y.withDelegs f)).enterTrap fid (fr.seq + 1) .step
              (match y.frames with | z :: _ => z.addr | [] => y.next.getD 0) 0xFF fr.addr false false true).modFibre fid
                (fun t => { t.withDelegs y with held := none, heldAccesses := [], park := y.parkAfter })
          | none => s
        else (s.parkNamed fid).checkBeg fid

/-! ### Commit, as an event -/

/-- The commit of a block whose conditions hold: what it still waits for, and what it begins (R24, R178 to
R180, R225, R242, R272). -/
def State.tryCommit (s : State) (fid : Nat) (f : Fibre) (fr : Frame) (l : Launch) : State :=
  let cell := s.cellOf f
  let fail := fun (k : Nat) (c : Cause) => s.setFrame fid (fr.fault k c 0 .firing)
  match f.pendingName fr, s.sretWaits f fr with
  | some n, _ => if s.effectStands fid fr then s else s.parkAt fid fr.seq fr.addr (.reg n)
  | none, some t => t
  | none, none =>
    let xl := fr.swrs.any (fun w => isXlateReg w.2.1)
    if (xl && s.transferOpen cell fid) || !s.engineRoom cell fr then s
    else
      let open_ := f.rgn.isSome || f.rgnKept.isSome
      match fr.firedAt isRgnBeg with
      | some _ =>
        match f.begFault fr l with
        | some (k, c) => fail k c
        | none =>
        if open_ then s
        else if fr.halts then s.commitBlock fid false none
        else { s with virga := { s.virga with asking := s.virga.asking ++ [fid] } }.setFrame fid { fr with waiting := true }
      | none =>
        match f.rgn with
        | some (slot, grant) =>
          if (fr.firedAt isRgnAbt).isSome then
            (if s.virga.alive slot grant then s.abortSlot slot 3 else s).setFrame fid { fr with waiting := true }
          else if (fr.firedAt isRgnEnd).isSome then
            if f.answer.isSome then s
            else (s.setFrame fid { fr with inCommit := true, waiting := true }).releaseStores fid fr.seq
          else s.commitBlock fid false none
        | none => s.commitBlock fid false none

/-- R24: the oldest block of a fibre commits when it is complete, holds no fault, and all that it has begun
has ended (log 15); a serial block that is stepped, when STEP has been raised for its last index. -/
def execBlockCommit (fid : Nat) (s : State) : Host.Outcome State Fault Refusal :=
  match s.fibre? fid with
  | none => .next s
  | some f =>
    match f.frames, s.ctxOf f with
    | fr :: _, some (g, l) =>
      if g.state == .running && fr.complete && fr.quiet && !fr.waiting && fr.faults.isEmpty
          && !(fr.ser && f.stepped && fr.nextStep.isSome) then
        .next (s.tryCommit fid f fr l)
      else .next s
    | _, _ => .next s

/-! ### Traps (R25, R236) -/

/-- The fault that the oldest block reports: its own, or exhaustion (R21, R25). -/
def Frame.trapFault (fr : Frame) : Option Recorded :=
  match fr.report with
  | some r => some r
  | none => if fr.complete then none else some { idx := 0xFF, cause := .blkFmt, taddr := 0, src := .exhaustion }

/-- s.taddr of a fault (R237): for the deliberate traps the target of the fired branch, a free value when
none fired with a target (log 11). -/
def State.taddrOf (s : State) (fr : Frame) (r : Recorded) : Word :=
  match r.cause with
  | .scall | .trap | .brk => fr.target.getD (Config.freeWord s.tick)
  | _ => r.taddr

/-- The trap of the oldest block outside a region, or with the region settled. -/
def State.trapNow (s : State) (fid : Nat) (fr : Frame) (r : Recorded) (rf keep : Bool) : State :=
  let ta := s.taddrOf fr r
  ({ s with tick := s.tick + 1 }).enterTrap fid fr.seq r.cause fr.addr r.idx ta rf false keep

/-- R175: a trap in a region first aborts it with FAULT; an abort with another cause stands, and its answer
takes the place of the trap. The registers are restored when none is pending (R173). A region that a STEP or BRK
handler runs over is still OPEN (R236, log 31). -/
def State.trapInRegion (s : State) (fid : Nat) (f : Fibre) (fr : Frame) (r : Recorded) (slot grant : Nat) : State :=
  match f.answer with
  | some 7 =>
    if f.gpend = 0 ∧ f.vpend = 0 then
      let s := s.setFibre fid { (f.restore 7) with answer := none, rgnKept := none, rgnTrap := false }
      (countCell (s.cellOf f) 13 1 s).trapNow fid fr r true false
    else s
  | some c => if f.rgn.isNone ∧ f.gpend = 0 ∧ f.vpend = 0 then s.takeAbort fid f c else s
  | none =>
    if s.virga.alive slot grant then (s.setFibre fid { f with rgnTrap := true }).abortSlot slot 7 else s

/-- R249: STEP after index K of a serial block: the block is held, with what it has sent to memory at rest. An index that
waits for an operation of R184, or is one, has had its turn and may still fire (log 25). -/
def State.stepIndex (s : State) (fid : Nat) (fr : Frame) (k : Nat) : State :=
  let mine := (s.accessesOf fid).filter (fun e => e.2.seq == fr.seq && !e.2.released)
  let fired := fr.fired.contains k
  let s := s.enterTrap fid fr.seq .step fr.addr k (if fired then 1 else 0) false true true
  let passed := if !fired && fr.live.contains k then fr.passed ++ [k] else fr.passed
  s.modFibre fid (fun f => { f with held := some { fr with serPos := k + 1, passed := passed }, heldAccesses := mine })

/-- R236, R249: the oldest block traps, or STEP is raised for an index of a stepped serial block. -/
def execTrapDelivery (fid : Nat) (s : State) : Host.Outcome State Fault Refusal :=
  match s.fibre? fid with
  | none => .next s
  | some f =>
    match f.frames, s.ctxOf f with
    | fr :: _, some (g, _) =>
      if g.state != .running || !fr.fetched || fr.waiting then .next s
      else if fr.faults.isEmpty && fr.ser && f.stepped && fr.nextStep.isSome then
        match fr.nextStep with
        | some k =>
          if fr.liveNow.all (fun j => k < j) && (!fr.owed.contains k || fr.deferred k) && s.atRest fid fr.seq then
            .next (s.stepIndex fid fr k)
          else .next s
        | none => .next s
      else if !s.settled f fid fr then
        .next (if s.stuck f fid fr && fr.standsStill then s.setFrame fid fr.barNext else s)
      else
        match fr.trapFault with
        | none => .next s
        | some r =>
          match f.rgn, f.rgnKept with
          | some (slot, grant), _ =>
            if r.cause = .brk then .next (s.trapNow fid fr r false true)
            else .next (s.trapInRegion fid f fr r slot grant)
          | none, some (slot, grant, _) =>
            if r.cause = .brk then .next (s.trapNow fid fr r false true)
            else .next (s.trapInRegion fid f fr r slot grant)
          | none, none => .next (s.trapNow fid fr r false false)
    | _, _ => .next s

end Sys2Proof.Machine
end

