-- ==== Sys2Proof/Machine/Home.lean ====
section
/-! DEFINITION. What is performed at the homes of lines and at cell memory: reads, writes, atomics,
acknowledgements, evictions, table updates and back-invalidation (R96, R97, R113, R114, R118 to R120,
R126, R141, R142). -/

namespace Sys2Proof.Machine

/-! ### Atomics (R141, R142) -/

/-- The width of an atomic in bits. -/
def amoBits : Instr → Nat
  | .amoAdd _ sz _ _ _ | .amoAnd _ sz _ _ _ | .amoOr _ sz _ _ _ | .amoXor _ sz _ _ _
  | .amoMin _ sz _ _ _ | .amoMax _ sz _ _ _ | .amoMinu _ sz _ _ _ | .amoMaxu _ sz _ _ _
  | .amoSwap _ sz _ _ _ | .amoCas _ sz _ _ _ => if sz = .d then 64 else 32
  | _ => 32

/-- The new value of an atomic on n bits, none for a failed `cas` (R141). -/
def amoValue (i : Instr) (n m b x : Nat) : Option Nat :=
  match i with
  | .amoAdd _ _ _ _ _ => some ((m + b) % 2 ^ n)
  | .amoAnd _ _ _ _ _ => some (m &&& b)
  | .amoOr _ _ _ _ _ => some (m ||| b)
  | .amoXor _ _ _ _ _ => some (m ^^^ b)
  | .amoMin _ _ _ _ _ => some (if signedOf n m ≤ signedOf n b then m else b)
  | .amoMax _ _ _ _ _ => some (if signedOf n m ≤ signedOf n b then b else m)
  | .amoMinu _ _ _ _ _ => some (min m b)
  | .amoMaxu _ _ _ _ _ => some (max m b)
  | .amoSwap _ _ _ _ _ => some b
  | .amoCas _ _ _ _ _ => if m = b then some x else none
  | .amoFadd _ _ _ _ => some (faddBits fmt32 { rm := .rne, ftz := false } m b).1
  | _ => none

/-- The new bytes of an atomic access over the bytes that the location holds. -/
def Access.amoBytes (a : Access) (old : List Byte) : Option (List Byte) :=
  let n := amoBits a.ins
  (amoValue a.ins n (leNat old) (a.opr.toNat % 2 ^ n) (a.opx.toNat % 2 ^ n)).map (natLe (n / 8))

/-! ### Poison marks (R297) -/

/-- A write that covers a whole chunk or line clears its mark. -/
def State.clearPoison (s : State) (sp : Space) (addr n : Nat) : State :=
  match sp with
  | .cell => { s with badChunks := s.badChunks.filter (fun c => !(addr ≤ 64 * c && 64 * c + 64 ≤ addr + n)) }
  | .hbm | .hostNc => { s with badLines := s.badLines.filter (fun l => !(addr ≤ 128 * l && 128 * l + 128 ≤ addr + n)) }
  | .hostCoh => s

/-! ### Reads -/

/-- No cell has this number. -/
def noCell : Nat := 0x100000

/-- The cell an access acts from; on a core, member 0's (R32); none when its group no longer runs there. -/
def State.accessCell (s : State) (a : Access) : Nat :=
  match s.fibre? a.fid with
  | some f => if ((s.group? f.gid).map (fun g => g.state == .running)).getD false then s.cellOf f else noCell
  | none => noCell

/-- A load whose token takes the format tag of its place (R130). -/
def readsTag : Instr → Bool
  | .vld _ fmt _ _ _ => fmt
  | _ => false

/-- A piece of a read is performed with the bytes `base` of its place, and with the tag of its granule then (R130, R283); bytes of older stores in the queue
come first (R27), and a poisoned one poisons the result (R13). -/
def State.finishRead (s : State) (oid n : Nat) (a : Access) (p : Piece) (base : List Byte) : State :=
  let fw := (List.range p.n).map (fun i => s.forward a p.loc.space (p.loc.addr + i))
  let data := (List.range p.n).map (fun i => s.ringByte p.loc i (((fw.getD i none).getD (base[i]?)).getD 0))
  let bad := (List.range p.n).any (fun i =>
    (fw.getD i none).isNone && s.marked p.loc.space (p.loc.addr + i) 1)
  let p' := { p with data := data, stage := .done, bad := bad }
  let s := { s with tick := s.tick + p.n }
  let tag := if readsTag a.ins && p.loc.space == .cell then granuleTag (s.granule p.loc.addr) else a.tag
  let s := s.setAccess oid { (a.setPiece n p') with tag := tag, poison := a.poison || fw.any (· == some none) }
  s.readViolation a p'

/-- Every byte of a piece comes from the queue. -/
def State.allForwarded (s : State) (a : Access) (p : Piece) : Bool :=
  (List.range p.n).all (fun i => (s.forward a p.loc.space (p.loc.addr + i)).isSome)

/-- A read of a device line that reaches its home (R119, R126): it waits while a write is being taken, a
region commits, or the host must first give up its copy. -/
def State.homeServes (s : State) (loc : Loc) : Bool × State :=
  let line := lineOf loc.addr
  if (s.homeQ.get? line).isSome || s.virga.committingOn line then (false, s)
  else if s.hdm.getD (halfOf loc.addr) false then (false, s.backInvalidate (halfOf loc.addr) false)
  else (true, s)

/-- Whether the L1 keeps the line that an access has fetched (R118); a whole line only while the host holds neither
half exclusively (R126). -/
def State.maybeFill (s : State) (cell : Nat) (loc : Loc) : State :=
  if loc.ca && (loc.space != .hbm || s.lineShared (lineOf loc.addr)) then
    let (keep, s) := s.toss
    if keep then s.fillLine cell loc else s
  else s

/-- The access and piece with these numbers, when it is still to be performed and may be. -/
def State.ready (s : State) (oid n : Nat) (p : Access → Bool) : Option (Access × Piece) := do
  let a ← s.accesses.get? oid
  let pc ← a.pieces[n]?
  if p a && pc.stage == .held && a.laneTurn n pc && s.mayPerform a then return (a, pc) else none

/-- R119: a piece of a load is served by the queue, its L1, its home or cell memory; a load of a region from device
memory has its own meaning (R165). -/
def execHomeRead (oid piece : Nat) (s : State) : Host.Outcome State Fault Refusal :=
  match s.ready oid piece (fun a => isLoad a.ins) with
  | none => .next s
  | some (a, p) =>
    if a.inside && p.loc.space == .hbm then .next s
    else if s.allForwarded a p then .next (s.finishRead oid piece a p [])
    else
      let cell := s.accessCell a
      match p.loc.space with
      | .cell => .next (s.finishRead oid piece a p (s.cellBytes p.loc.addr p.n))
      | .hbm =>
        match s.l1Read cell p.loc p.n with
        | some bs => .next (s.finishRead oid piece a p bs)
        | none =>
          match s.homeServes p.loc with
          | (false, s) => .next s
          | (true, s) =>
            let s := (countCell cell 7 1 s).countLlc (lineOf p.loc.addr)
            .next ((s.finishRead oid piece a p (s.homeBytes p.loc.addr p.n p.loc.key)).maybeFill cell p.loc)
      | .hostNc =>
        match s.l1Read cell p.loc p.n with
        | some bs => .next (s.finishRead oid piece a p bs)
        | none =>
          let (bs, s) := s.ncRead p.loc p.n
          if p.loc.ca then
            let (keep, s) := (countCell cell 7 1 s).toss
            let s := if keep then s.fillLlc (lineOf p.loc.addr) p.loc.key else s
            .next ((s.finishRead oid piece a p bs).maybeFill cell p.loc)
          else .next (s.finishRead oid piece a p bs)
      | .hostCoh => .next s

/-! ### Replies -/

/-- The bytes that a read has gathered, in the order of its value. -/
def Access.bytes (a : Access) (n : Nat) : List Byte :=
  a.pieces.foldl (fun bs p => (List.range p.n).foldl (fun bs i => bs.set (p.pos + i) (p.data.getD i 0)) bs)
    (List.replicate n 0)

/-- The token of a load or atomic that has performed (R53, R129, R131, R141). -/
def Access.result (a : Access) : Token :=
  match a.ins with
  | .ldB _ _ _ _ => .val (BitVec.ofInt 64 (signedOf 8 (leNat (a.bytes 1))))
  | .ldBu _ _ _ _ => .val (leWord (a.bytes 1))
  | .ldH _ _ _ _ => .val (BitVec.ofInt 64 (signedOf 16 (leNat (a.bytes 2))))
  | .ldHu _ _ _ _ => .val (leWord (a.bytes 2))
  | .ldW _ _ _ _ => .val (BitVec.ofInt 64 (signedOf 32 (leNat (a.bytes 4))))
  | .ldWu _ _ _ _ => .val (leWord (a.bytes 4))
  | .ldD _ _ _ _ => .val (leWord (a.bytes 8))
  | .vld _ _ _ _ _ => .vec (leVec (a.bytes 64)) a.tag
  | .vgather _ _ _ _ _ => .vec (leVec (a.bytes 64)) 7
  | _ => .val a.old

/-- The address of the first piece of a read that has read a byte marked uncorrectable (R297). -/
def Access.badAt (a : Access) : Option Word := (a.pieces.find? Piece.bad).map Piece.va

/-- R53: the result of a read whose every piece has been performed is sent; data marked uncorrectable
records UNCORR and sends poison (R297), and so does a poisoned byte of the queue (R13). -/
def execLoadReply (oid : Nat) (s : State) : Host.Outcome State Fault Refusal :=
  match s.accesses.get? oid with
  | some a =>
    if reads a.ins && a.landed && !a.replied then
      let s := s.setAccess oid { a with replied := true, acked := true }
      if a.poison then .next (s.sendReply a .poison)
      else
        match a.badAt with
        | some va =>
          let s := s.modFibre a.fid (fun f =>
            match f.frame? a.seq with
            | some fr => f.setFrame (fr.fault a.idx .uncorr va .firing)
            | none => f)
          .next (s.sendReply a .poison)
        | none =>
          let ring := isAtomic a.ins && a.pieces.any (fun p => (s.ringOf p.loc).isSome)
          .next ({ s with tick := s.tick + 1 }.sendReply a
            (if ring then .val (BitVec.ofNat 64 ((Config.freeWord s.tick).toNat % 2 ^ amoBits a.ins)) else a.result))
    else .next s
  | none => .next s

/-! ### Writes -/

/-- The bytes of a write become the line's value (R119, R120); a write to the primary table area is
applied to all 32 replicas (R113), in one step (log 72). -/
def State.landHome (s : State) (addr key : Nat) (bs : List Byte) : State :=
  if s.inTable 0 addr bs.length then
    (List.range 32).foldl (fun s k => s.homeWrite (k * stackBytes + addr) key bs) s
  else s.homeWrite addr key bs

/-- R210: a store or atomic whose piece has landed damages the ring of a queue that it writes into. -/
def State.damageBy (s : State) (a : Access) (p : Piece) : State := s.damage p.loc p.n

/-- A piece of a plain store or atomic is performed at the home of its line (R97, R119, R141). -/
def State.landPiece (s : State) (oid n : Nat) : State :=
  match s.accesses.get? oid with
  | none => s
  | some a =>
    match a.pieces[n]? with
    | none => s
    | some p =>
      let line := lineOf p.loc.addr
      let s := s.countLlc line
      if isAtomic a.ins then
        let old := s.homeBytes p.loc.addr p.n p.loc.key
        if s.marked .hbm p.loc.addr p.n then
          (s.setAccess oid (a.setPiece n { p with stage := .done, bad := true })).dropOwn (s.accessCell a) line
        else
          let s := s.setAccess oid { (a.setPiece n { p with stage := .done }) with old := leWord old }
          match a.amoBytes old with
          | none => s.dropOwn (s.accessCell a) line
          | some bs =>
            let s := ((s.plainConflict line).landHome p.loc.addr p.loc.key bs).dropOwn (s.accessCell a) line
            s.damageBy a p
      else
        let s := s.setAccess oid (a.setPiece n { p with stage := .done })
        let s := (s.landHome p.loc.addr p.loc.key p.data).clearPoison .hbm p.loc.addr p.n
        (s.dropOwn (s.accessCell a) line).damageBy a p

/-- The 64 bytes of a host write become the value of a half, under the key at rest of its line (DESIGN CHOICE, log 67). -/
def State.landHost (s : State) (half : Nat) (data : Vec) : State :=
  ((((s.countLlc (half / 2)).landHome (64 * half) (s.lineKey.getD (half / 2) 0) (natLe 64 data.toNat)).clearPoison .hbm (64 * half) 64)).emit
    (.cmp half)

/-- A write that its home has taken is an atomic that waits for a COMMITTING region of its line (R145, R167). -/
def State.heldAtomic (s : State) (line : Nat) (h : HomeWrite) : Bool :=
  s.virga.committingOn line && h.hostData.isNone && h.waits.isEmpty && !h.host
    && ((s.accesses.get? h.oid).map (fun a => isAtomic a.ins)).getD false

/-- A write that its home has taken is performed when no acknowledgement is awaited (R119, R126). An atomic, which
makes its comparison then, also waits for the commit of a region that read or wrote the line (R167). -/
def State.settleHome (s : State) (line : Nat) : State :=
  match s.homeQ.get? line with
  | none => s
  | some h =>
    if h.waits.isEmpty && !h.host && !s.heldAtomic line h then
      let s := { s with homeQ := s.homeQ.erase line, sharers := s.sharers.erase line }
      match h.hostData with
      | some d =>
        s.landHost h.piece d
      | none => s.landPiece h.oid h.piece
    else s

/-- R119, step 1 and 2: the home takes a write and asks its sharers, and the host when it holds the half
(R126); with none to ask the write is performed. -/
def State.takeWrite (s : State) (oid n : Nat) (a : Access) (p : Piece) : State :=
  let line := lineOf p.loc.addr
  let half := halfOf p.loc.addr
  let s := if isStoreOnly a.ins then s.plainConflict line else s
  let host := (s.hdm.get? half).isSome
  let s := if host then s.backInvalidate half true else s
  let waits := s.sharers.getD line []
  let s := s.setAccess oid (a.setPiece n { p with stage := .atHome })
  let s := countSector (sectorOf p.loc.addr) 4 waits.length s
  { s with homeQ := s.homeQ.put line { oid := oid, piece := n, waits := waits, dropped := [], host := host
                                       hostData := none } }.settleHome line

/-- A piece of a write to cell memory is performed by the cell that owns it (R96, R97). -/
def State.landCell (s : State) (oid n : Nat) (a : Access) (p : Piece) : State :=
  if isAtomic a.ins then
    let old := s.cellBytes p.loc.addr p.n
    if s.marked .cell p.loc.addr p.n then
      s.setAccess oid (a.setPiece n { p with stage := .done, bad := true })
    else
      let s := s.setAccess oid { (a.setPiece n { p with stage := .done }) with old := leWord old }
      match a.amoBytes old with
      | none => s
      | some bs => s.putCell p.loc.addr bs
  else
    let s := s.setAccess oid (a.setPiece n { p with stage := .done })
    (s.putCell p.loc.addr p.data).clearPoison .cell p.loc.addr p.n

/-- The CXL.io AtomicOp of an atomic (R144). -/
def atomicOpName : Instr → String
  | .amoAdd _ _ _ _ _ => "FetchAdd"
  | .amoSwap _ _ _ _ _ => "Swap"
  | _ => "CAS"

/-- Every copy of a host line that the module holds goes: the last-level cache and the L1s drop it, a dirty copy being
written back, and the host snoops what the bridge holds (R123, R144). -/
def State.giveUpLine (s : State) (line : Nat) : State :=
  ((s.evictLlc line).dropAllL1 line).hostSnoops [2 * line, 2 * line + 1] true

/-- A piece of a write to a non-coherent page (R111, R144): a store lands; an atomic is sent to the completer after
every copy of the line has been written back and dropped: the bridge drops its halves (R123), a dirty one waiting in O
until the host has pulled its data, and no request of it is in flight. -/
def State.landNc (s : State) (oid n : Nat) (a : Access) (p : Piece) : State :=
  let line := lineOf p.loc.addr
  let halves := [2 * line, 2 * line + 1]
  if isAtomic a.ins then
    if halves.any (fun h => (s.half h).pend.isSome || (s.half h).st == .o) then s
    else if halves.any (fun h => (s.half h).st != .i) then (s.bridgeDrop (2 * line)).bridgeDrop (2 * line + 1)
    else
      let s := (s.giveUpLine line).setAccess oid (a.setPiece n { p with stage := .atHome })
      s.emit (.request (halfOf p.loc.addr) (atomicOpName a.ins))
  else
    match s.ncWrite p.loc p.data with
    | none => s
    | some t =>
      let t := (t.setAccess oid (a.setPiece n { p with stage := .done })).dropOwn (t.accessCell a) line
      t.damageBy a p

/-- A region access holds its line while the Virga unit answers its edges (R164). -/
def State.edgesPending (s : State) (line : Nat) : Bool :=
  s.virga.requests.any (fun r => match s.accesses.get? r.oid with
    | some a => (match a.pieces[r.piece]? with | some p => lineOf p.loc.addr == line | none => false)
    | none => false)

/-- A write that its home has taken is looked at again. -/
def State.settleTaken (s : State) (oid piece : Nat) : State :=
  match (s.accesses.get? oid).bind (fun a => a.pieces[piece]?) with
  | some p => if p.stage == .atHome && p.loc.space == .hbm then s.settleHome (lineOf p.loc.addr) else s
  | none => s

/-- The home of a line is free to take a plain write: no other is being taken, no region of the line commits, and
no region access of the line awaits its edges (R119, R164, R167). -/
def State.homeFree (s : State) (line : Nat) : Bool :=
  (s.homeQ.get? line).isNone && !s.virga.committingOn line && !s.edgesPending line

/-- R119: a piece of a store or atomic outside a region reaches its home. -/
def execHomeWrite (oid piece : Nat) (s : State) : Host.Outcome State Fault Refusal :=
  match s.ready oid piece (fun a => isStore a.ins) with
  | none => .next (s.settleTaken oid piece)
  | some (a, p) =>
    match p.loc.space with
    | .cell => .next (s.landCell oid piece a p)
    | .hbm =>
      if a.inside || s.inTable 0 p.loc.addr p.n || !s.homeFree (lineOf p.loc.addr) then .next s
      else .next (s.takeWrite oid piece a p)
    | .hostNc => .next (s.landNc oid piece a p)
    | .hostCoh => .next s

/-- R113: a piece of a write reaches the primary table area; the acknowledgement stands for all 32
replicas. -/
def execTableUpdateWrite (oid piece : Nat) (s : State) : Host.Outcome State Fault Refusal :=
  match s.ready oid piece (fun a => isStore a.ins) with
  | none => .next s
  | some (a, p) =>
    if p.loc.space == .hbm && !a.inside && s.inTable 0 p.loc.addr p.n && s.homeFree (lineOf p.loc.addr) then
      .next (s.takeWrite oid piece a p)
    else .next s

/-- R119: the L1 of a cell drops the line that its home invalidates. -/
def execL1Invalidate (cell line : Nat) (s : State) : Host.Outcome State Fault Refusal :=
  match s.homeQ.get? line with
  | some h =>
    if h.waits.contains cell && !h.dropped.contains cell then
      let s := s.dropL1 cell line
      .next { s with homeQ := s.homeQ.put line { h with dropped := h.dropped ++ [cell] } }
    else .next s
  | none => .next s

/-- R119: the acknowledgement of a sharer reaches the home. -/
def execInvalidationAck (line cell : Nat) (s : State) : Host.Outcome State Fault Refusal :=
  match s.homeQ.get? line with
  | some h =>
    if h.waits.contains cell && h.dropped.contains cell then
      .next ({ s with homeQ := s.homeQ.put line { h with waits := h.waits.filter (· != cell) } }.settleHome line)
    else .next s
  | none => .next s

/-- R147: the acknowledgement of a store reaches its cell; cache operations that waited for it are
performed (R135), and so is one that waited for something else. -/
def execWriteAck (oid : Nat) (s : State) : Host.Outcome State Fault Refusal :=
  match s.accesses.get? oid with
  | some a =>
    if isCacheOp a.ins && a.released && !a.acked then .next ((s.runCacheOps a.fid).purge a.fid)
    else if isStoreOnly a.ins && a.landed && !a.acked then
      let s := ((s.setAccess oid { a with acked := true }).runCacheOps a.fid).purge a.fid
      .next (match s.fibre? a.fid with
        | some f => if f.halted then s.haltCheck f.gid else s
        | none => s)
    else .next s
  | none => .next s

/-- R118: an L1 drops a line silently. -/
def execL1Evict (cell line : Nat) (s : State) : Host.Outcome State Fault Refusal := .next (s.dropL1 cell line)

/-- R120: the last-level cache drops a line, written back if dirty. -/
def execLlcEvict (line : Nat) (s : State) : Host.Outcome State Fault Refusal := .next (s.evictLlc line)

/-- An input from outside that cannot be taken yet waits behind the others. -/
def State.putBack (s : State) (x : Input) : State := { s with inputs := s.inputs ++ [x] }
def State.requeue (s : State) (i : Instr) : State := s.putBack (.ev i)

/-- R144: the completer answers an AtomicOp; Unsupported Request records ATOM_UNSUP, and nothing has been
performed. Copies of the line that the module took meanwhile the host snoops first, or the cache writes them back, so
that the atomic keeps its place among the writes of its word (R97, R148); while a half is on its way back to the host the
completer has not answered yet. -/
def execAtomicOpCompletion (oid : Nat) (ok : Bool) (s : State) : Host.Outcome State Fault Refusal :=
  match s.accesses.get? oid with
  | some a =>
    match a.pieces with
    | [p] =>
      if isAtomic a.ins && p.loc.space == .hostNc && p.stage == .atHome then
        let line := lineOf p.loc.addr
        if s.writingBack [2 * line, 2 * line + 1] then .next (s.requeue (.atomicOpCompletion oid ok))
        else if ok then
          let s := s.giveUpLine line
          let old := s.mem.bytes p.loc.addr p.n
          let s := s.setAccess oid { (a.setPiece 0 { p with stage := .done }) with old := leWord old }
          .next (match a.amoBytes old with
            | some bs => { s with mem := s.mem.setBytes p.loc.addr bs }.damageBy a p
            | none => s)
        else
          let s := s.setAccess oid { (a.setPiece 0 { p with stage := .done }) with replied := true, acked := true }
          let s := s.modFibre a.fid (fun f =>
            match f.frame? a.seq with
            | some fr => f.setFrame (fr.fault a.idx .atomUnsup p.va .firing)
            | none => f)
          .next (s.sendReply a .poison)
      else .next s
    | _ => .next s
  | none => .next s

/-! ### The walker and TLBs -/

/-- R109, R112: the walker translates an address for a fibre; the TLBs may keep the leaf. -/
def execPageWalk (fid : Nat) (va : Word) (s : State) : Host.Outcome State Fault Refusal :=
  match s.fibre? fid with
  | some f =>
    if nfld va 57 7 ≠ 0 ∨ (apertureOff va).isSome then .next s
    else .next ((s.walkWaits (s.cellOf f) f.xlate [(va, 1)]).getD (s.translate (s.cellOf f) f.xroot va).2)
  | none => .next s

/-- The cells that a scope of `tlbinv` covers (R114, R150, R246): SYSTEM acts as MODULE, FIBRE as CELL. -/
def State.inScope (s : State) (f : Fibre) (sc : Scope) (cell : Nat) : Bool :=
  match s.ctxOf f with
  | none => false
  | some (g, l) =>
    match sc with
    | .fibre | .cell => (List.range l.core).any (fun i => memberCell g l (f.member + i) == cell)
    | .group => (List.range l.cells).any (fun k => memberCell g l k == cell)
    | .die => dieOfCell cell == g.die
    | .module | .system => true

/-- A `tlbinv` in the oldest block that has fired and not completed: its index, scope, form and address. -/
def pendingTlbinv (fr : Frame) : Option (Nat × Scope × Bool × Word) :=
  fr.owed.findSome? (fun k =>
    match fr.instr k with
    | some (.tlbinv _ sc all) => some (k, sc, all, (fr.opL k).word)
    | _ => none)

/-- R114: the three conditions, and the drop of the entries. Stores of the block itself that may still fire are
waited for. Accesses through a dropped entry that have not left their cell are squashed with their blocks, unless an
effect of the block stands (R26); those that have left are waited for, and those of a held block that have not been
performed are translated again when it goes on (R249). An access is known by the address space that it was translated
in. -/
def execTlbinvComplete (fid : Nat) (s : State) : Host.Outcome State Fault Refusal :=
  match s.fibre? fid with
  | none => .next s
  | some f =>
    match f.frames with
    | [] => .next s
    | fr :: _ =>
      match pendingTlbinv fr with
      | none => .next s
      | some (k, sc, all, va) =>
        let asn := nfld f.xroot 0 12
        let drops := fun (t : TlbEntry) => t.asn == asn && (all || t.covers asn va)
        let tableDone := (s.accessesOf fid).all (fun e => fr.seq < e.2.seq || !isStore e.2.ins || e.2.acked
            || !e.2.pieces.any (fun p => p.loc.space == .hbm && s.inTable 0 p.loc.addr p.n))
          && fr.unfired.all (fun u => !isStore u.2)
        -- the widest page that a dropped entry may map, so that every access through it is found
        let touches := fun (a : Access) => nfld a.xl.xroot 0 12 == asn && s.inScope f sc a.cell
          && a.pieces.any (fun p => (p.loc.space != .cell) && (all || p.va.toNat / 2 ^ 30 == va.toNat / 2 ^ 30))
        let stands := fun (a : Access) =>
          (((s.fibre? a.fid).bind (fun x => x.frame? a.seq)).map (s.effectStands a.fid)).getD false
        let open_ := s.accesses.filter (fun e => touches e.2 && !e.2.performed)
        let left := open_.any (fun e => e.2.released || e.2.pieces.any (fun p => p.stage != .held)
          || (e.2.fid == fid && e.2.seq ≤ fr.seq) || stands e.2)
        if !(fr.faults.isEmpty && f.isOldest fr.seq && tableDone && !left) then .next s
        else
          let s := (open_.filter (fun e => !(e.2.fid == fid))).foldl (fun s e => s.squash e.2.fid e.2.seq 0) s
          let s := s.squash fid (fr.seq + 1) 0
          let s := { s with
            fibres := s.fibres.mapV (fun x => { x with heldAccesses := x.heldAccesses.mapV (fun a =>
              if touches a && !a.landed then { a with stale := true } else a) })
            cells := s.cells.map (fun (e : Nat × CellSt) => if s.inScope f sc e.1 then
              (e.1, { e.2 with tlb := e.2.tlb.filter (fun t => !drops t) }) else e)
            tlb2 := s.tlb2.map (fun (e : Nat × List TlbEntry) =>
              if (List.range 64).any (fun c => s.inScope f sc (cellAt e.1 (c % 8) (c / 8)))
              then (e.1, e.2.filter (fun t => !drops t)) else e) }
          .next (s.setFrame fid { fr with owed := fr.owed.filter (· != k) })

/-! ### Device memory cached by hosts (R126) -/

/-- The HDM ranges in force: those that the driver has programmed and the host windows that are watched, each of which
is such a range (R126, R187). -/
def State.hdmInForce (s : State) : List (Nat × Nat) :=
  s.hdmRanges ++ ((List.range 16).filter s.winOn).map (fun w => (s.winBase w, 256 * s.winSlots w))

/-- A half of device memory lies in an HDM range (R126). -/
def State.inHdm (s : State) (half : Nat) : Bool :=
  64 * half < hbmEnd && s.hdmInForce.any (fun r => r.1 ≤ 64 * half && 64 * half + 64 ≤ r.1 + r.2)

/-- The host is recorded as holding a half, and receives its data; poison travels with it (R297). It reads under the key at
rest of the line, also where the last-level cache holds the line dirty under another key (DESIGN CHOICE, log 67). -/
def State.serveHost (s : State) (half : Nat) (any : Bool) : State :=
  let s := { s with hdm := s.hdm.put half any }.countLlc (half / 2)
  s.emit (.hostData half (s.homeBytes (64 * half) 64 (s.lineKey.getD (half / 2) 0)) (s.marked .hbm (64 * half) 64))

/-- R126: a host reads device memory, shared or for ownership; for ownership the module's L1 copies are
invalidated first, and a region access of the line that awaits its edges goes before. -/
def execMemRd (half : Nat) (own : Bool) (s : State) : Host.Outcome State Fault Refusal :=
  if !s.inHdm half then .next s
  else if (s.homeQ.get? (half / 2)).isSome || s.virga.committingOn (half / 2) then
    .next (s.requeue (.memRd half own))
  else if own then
    if s.edgesPending (half / 2) then .next (s.requeue (.memRd half own))
    else .next ((s.invalidateLine (half / 2)).serveHost half true)
  else .next (s.serveHost half false)

/-- R126: a host reads device memory for shared data. -/
def execMemRdData (half : Nat) (s : State) : Host.Outcome State Fault Refusal :=
  if !s.inHdm half then .next s
  else if (s.homeQ.get? (half / 2)).isSome || s.virga.committingOn (half / 2) then
    .next (s.requeue (.memRdData half))
  else .next (s.serveHost half false)

/-- R126: a host write is taken into the per-location order, the L1 sharers are invalidated, and Cmp is
sent; regions that hold a read mark abort (R167). The write-back that answers a back-invalidation goes before the
access that asked for it. -/
def execMemWr (half : Nat) (data : Vec) (s : State) : Host.Outcome State Fault Refusal :=
  if !s.inHdm half then .next s
  else if (s.snoops.get? half).isSome then
    .next (((s.plainConflict (half / 2)).invalidateLine (half / 2)).landHost half data)
  else if !s.homeFree (half / 2) then .next (s.requeue (.memWr half data))
  else
    let s := s.plainConflict (half / 2)
    let s := countSector (sectorOf (64 * half)) 4 (s.sharers.getD (half / 2) []).length s
    let h : HomeWrite := { oid := 0, piece := half, waits := s.sharers.getD (half / 2) [], dropped := []
                           host := false, hostData := some data }
    .next ({ s with homeQ := s.homeQ.put (half / 2) h }.settleHome (half / 2))

/-- The half that a write which its home has taken writes (R126). -/
def State.takenHalf (s : State) (h : HomeWrite) : Option Nat :=
  ((s.accesses.get? h.oid).bind (fun a => a.pieces[h.piece]?)).map (fun p => halfOf p.loc.addr)

/-- R126: the host answers a back-invalidation: after BISnpInv it holds nothing, after BISnpData at most
a shared copy. A write of that half that was taken meanwhile goes on, or asks for the rest. -/
def execBirspi (half : Nat) (s : State) : Host.Outcome State Fault Refusal :=
  match s.snoops.get? half with
  | none => .next s
  | some inv =>
    let s := { s with snoops := s.snoops.erase half
                      hdm := if inv then s.hdm.erase half else s.hdm.put half false }
    match s.homeQ.get? (half / 2) with
    | some h =>
      if !h.host || s.takenHalf h != some half then .next s
      else if inv then
        .next ({ s with homeQ := s.homeQ.put (half / 2) { h with host := false } }.settleHome (half / 2))
      else .next (s.backInvalidate half true)
    | none => .next s

end Sys2Proof.Machine
end

