-- ==== Sys2Proof/Machine/Bridge.lean ====
section
/-! DEFINITION. The half-line bridges to host memory (R121 to R125). -/

namespace Sys2Proof.Machine

/-- A request of the bridge goes out (R123). -/
def State.ask (s : State) (h : Nat) (x : Half) (own : Bool) (kind : String) : State :=
  (s.setHalf h { x with pend := some own }).emit (.request h kind)

/-- The halves whose state an access needs when a piece of it is performed: every half that it touches (R124), and
for an element of a gather or scatter its own. -/
def Access.halvesFor (a : Access) (p : Piece) : List Nat :=
  match a.ins with
  | .vgather _ _ _ _ _ | .vscatter _ _ _ => [halfOf p.loc.addr]
  | _ => ((a.pieces.filter (fun q => q.loc.space == .hostCoh)).map (fun q => halfOf q.loc.addr)).eraseDups

/-- R123, R124: a piece of a module read at its bridge: a hit when each half that the access touches is in S, E, M or
O, else a request for one that is not. -/
def execBridgeModuleRead (oid piece : Nat) (s : State) : Host.Outcome State Fault Refusal :=
  match s.ready oid piece (fun a => isLoad a.ins) with
  | none => .next s
  | some (a, p) =>
    if p.loc.space != .hostCoh || a.inside then .next s
    else
      let cell := s.accessCell a
      match (a.halvesFor p).find? (fun h => (s.half h).st == .i) with
      | some h => if (s.half h).pend.isSome then .next s else .next (s.ask h (s.half h) false "RdShared")
      | none =>
        match s.l1Read cell p.loc p.n with
        | some bs => .next (s.finishRead oid piece a p bs)
        | none =>
          let x := s.half (halfOf p.loc.addr)
          let s := countCell cell 7 1 s
          let s := s.finishRead oid piece a p ((x.data.drop (p.loc.addr % 64)).take p.n)
          if p.loc.ca then
            let (keep, s) := s.toss
            .next (if keep then s.fillHalf cell p.loc x.data else s)
          else .next s

/-- A piece of a write is performed at its bridge, which owns the half; the L1 copies of the half are
invalidated (R123, R96). -/
def State.landBridge (s : State) (oid n : Nat) (a : Access) (p : Piece) (x : Half) : State :=
  let h := halfOf p.loc.addr
  let o := p.loc.addr % 64
  let s := (s.dropHalfEverywhere h).dropOwn (s.accessCell a) (lineOf p.loc.addr)
  let put := fun (bs : List Byte) => x.data.take o ++ bs ++ x.data.drop (o + bs.length)
  if isAtomic a.ins then
    let old := (x.data.drop o).take p.n
    let s := s.setAccess oid { (a.setPiece n { p with stage := .done }) with old := leWord old }
    match a.amoBytes old with
    | some bs => (s.setHalf h { x with st := .m, data := put bs }).damageBy a p
    | none => s
  else
    ((s.setAccess oid (a.setPiece n { p with stage := .done })).setHalf h { x with st := .m, data := put p.data }).damageBy a p

/-- A half is owned and at rest (R123, R125). -/
def Half.owned (x : Half) : Bool := x.pend.isNone && (x.st == .e || x.st == .m)

/-- R123, R124, R125: a piece of a module store or atomic at its bridge: it is performed when each half that the
access touches is in E or M; for one that is not, it asks for ownership in I or S, and waits in O and while a request
is in flight. -/
def execBridgeModuleWrite (oid piece : Nat) (s : State) : Host.Outcome State Fault Refusal :=
  match s.ready oid piece (fun a => isStore a.ins) with
  | none => .next s
  | some (a, p) =>
    if p.loc.space != .hostCoh || a.inside then .next s
    else
      match (a.halvesFor p).find? (fun h => !(s.half h).owned) with
      | none => .next (s.landBridge oid piece a p (s.half (halfOf p.loc.addr)))
      | some h =>
        let x := s.half h
        if x.pend.isSome then .next s
        else
          match x.st with
          | .s => .next (s.ask h x true "RdOwn")
          | .i => .next (s.ask h x true
              (if isStoreOnly a.ins && p.n == 64 then "RdOwnNoData" else "RdOwn"))
          | .o | .e | .m => .next s

/-- R123: the bridge drops a half that nothing is in flight for. -/
def execBridgeDropHalf (half : Nat) (s : State) : Host.Outcome State Fault Refusal := .next (s.bridgeDrop half)

/-- R123: the host answers the request in flight: a shared read gives S, or E on GO-E; ownership gives M. A copy of
the line that the last-level cache holds for non-coherent accesses is evicted first, so that the data is what every
path has written (R97, R120). -/
def execGo (half : Nat) (exclusive : Bool) (s : State) : Host.Outcome State Fault Refusal :=
  let x := s.half half
  match x.pend with
  | none => .next s
  | some own =>
    let st : HalfState := if own then .m else if exclusive then .e else .s
    let s := s.evictLlc (half / 2)
    .next (s.setHalf half { st := st, data := s.hostBytes half, pend := none })

/-- R123. -/
def execSnpData (half : Nat) (s : State) : Host.Outcome State Fault Refusal :=
  .next (s.snpData half)

/-- R123. -/
def execSnpInv (half : Nat) (s : State) : Host.Outcome State Fault Refusal :=
  .next (s.snpInv half)

/-- R123. -/
def execSnpCur (half : Nat) (s : State) : Host.Outcome State Fault Refusal :=
  .next (s.snoop half (fun x s =>
    match x.st with
    | .i => s.emit (.snoopReply half "RspIHitI" [])
    | .s | .e => s.emit (.snoopReply half "RspVHitV" [])
    | .m | .o => s.emit (.snoopReply half "RspVFwdV" x.data)))

/-- R123: a write-pull is answered with the data of a half in O, which goes to I. -/
def execWritePull (half : Nat) (s : State) : Host.Outcome State Fault Refusal :=
  let x := s.half half
  if x.st = .o then
    .next ((((s.dropHalfEverywhere half).toHost half x.data).setHalf half { x with st := .i, data := [] }).emit
      (.writeBack half x.data))
  else .next s

/-- R123: the host ends the write-back of a half in O, which goes to I. -/
def execGoWritePullDrop (half : Nat) (s : State) : Host.Outcome State Fault Refusal :=
  let x := s.half half
  if x.st = .o then .next ((s.dropHalfEverywhere half).setHalf half { x with st := .i, data := [] })
  else .next s

end Sys2Proof.Machine
end

