-- ==== Sys2Proof/Machine/Memory.lean ====
section
/-! DEFINITION. The firing of memory instructions: addresses, checks, entries of the load-store queue
(R52 to R57, R98, R128 to R146). What is performed at homes stands in Home.lean. -/

namespace Sys2Proof.Machine

/-- The bytes of an element (R131, R140). -/
def wdBytes : WD → Nat
  | .w => 4
  | .d => 8

/-- Whether a block stands in a region: the open region and the boundaries that older blocks have fired;
none while an older block may still fire one (R162). -/
def Fibre.insideRegion (f : Fibre) (seq : Nat) : Option Bool :=
  let older := f.frames.filter (fun fr => fr.seq < seq)
  if older.any (fun fr => fr.live.any (fun k => !fr.fired.contains k &&
      ((fr.instr k).map (fun i => isRgnBeg i || isRgnEnd i)).getD false)) then none
  else some (older.foldl (fun b fr =>
    if fr.someFired isRgnBeg then true else if fr.someFired isRgnEnd then false else b) f.rgn.isSome)

/-- R13: a store whose data is poisoned and whose address is known takes its place in the queue. -/
def poisonedData (i : Instr) (a : Acting) : Bool :=
  isStoreOnly i && match i with
    | .vscatter _ _ _ => a.fr.opX a.k == .poison && (badOperand [a.fr.opL a.k, a.fr.opR a.k]).isNone
    | _ => a.fr.opR a.k == .poison && (badOperand [a.fr.opL a.k]).isNone

/-- The operands that keep a memory instruction from making its access (R13, R20). -/
def noAccess (i : Instr) (a : Acting) : Option Token :=
  if poisonedData i a then none else badOperand (a.fr.operands a.k i)

/-- A memory instruction fires with what its operands give: a null or poisoned operand makes no access
(R13, R20). It waits while its place relative to a region is open. -/
def memory (i : Instr) (go : Acting → Ctx → Bool → State → State) (s : State) :
    Host.Outcome State Fault Refusal :=
  match s.acting i with
  | none => .fault .noActingBlock
  | some a =>
    if a.canFire i then
      match noAccess i a with
      | some t =>
        let fr := a.fr.fire a.k
        let fr := if isStore i then fr.produce ((lsidOf i).getD 0) else fr
        .next (a.commit s (fr.send (targetsOf i) t))
      | none =>
        match a.f.insideRegion a.fr.seq, s.fibreCtx a.f with
        | some inside, some c => .next (go a c inside s)
        | _, _ => .next s
    else .next s

/-- A memory instruction that records a fault (R25, R54). -/
def memFault (i : Instr) (a : Acting) (e : Cause × Word) (s : State) : State :=
  let fr := (a.fr.fire a.k).fault a.k e.1 e.2 .firing
  let fr := if isStore i then fr.produce ((lsidOf i).getD 0) else fr
  a.commit s (fr.send (targetsOf i) .poison)

/-- An entry of the load-store queue. -/
def newAccess (i : Instr) (a : Acting) (c : Ctx) (inside : Bool) (pieces : List Piece) (tag : BitVec 3)
    (opr opx : Word) : Access :=
  { fid := a.fid, seq := a.fr.seq, lsid := (lsidOf i).getD 0, idx := a.k, ins := i, pieces := pieces
    opr := opr, opx := opx, tag := tag, xl := a.f.xlate, cell := c.cell, inside := inside, rgn := none, released := false
    replied := false, acked := false, stale := false, poison := poisonedData i a, old := 0 }

/-- The instruction fires and its access enters the queue; a read owes its result, a store has produced
its LSID. What R26 holds back is performed only in a block without a fault. A load that proves irrevocable by its page
(R57) while a load of its block has begun that may still call for a squash has the block fetched again, before
anything of it can stand (log 24). -/
def enqueue (i : Instr) (a : Acting) (x : Access) (s : State) : State :=
  let fr := a.fr.fire a.k
  let fr := if reads i then { fr with owed := fr.owed ++ [a.k] } else fr
  let fr := if isStoreOnly i then fr.produce x.lsid else fr
  let fr := if isAtomic i || x.irrevocable then { fr with late := fr.late ++ [a.k] } else fr
  let s := a.commit s fr
  let s := { s.setAccess s.nextId x with nextId := s.nextId + 1 }
  if isStore i then s.violation x
  else if x.irrevocable && !a.fr.careful && s.speculates a.fid fr then s.squash a.fid fr.seq 0
  else s

/-- The parts of an access that are performed as one (R56, R133): offsets and lengths. -/
def pieceCuts (va : Word) (n : Nat) (nc : Bool) : List (Nat × Nat) :=
  if va.toNat % n = 0 then
    if n = 64 ∧ nc then (List.range 8).map (fun i => (8 * i, 8)) else [(0, n)]
  else (List.range n).map (fun i => (i, 1))

/-- The pieces of an access over its checked segments; `data` holds the bytes to write. -/
def piecesOf (segs : List Seg) (va : Word) (cuts : List (Nat × Nat)) (pos0 : Nat) (data : List Byte) :
    List Piece :=
  cuts.filterMap (fun c =>
    let at_ := va + BitVec.ofNat 64 c.1
    match segs.find? (fun (g : Seg) => (at_ - g.va).toNat < g.n) with
    | some g =>
      some { loc := { g.loc with addr := g.loc.addr + (at_ - g.va).toNat }, va := at_, pos := pos0 + c.1
             data := (data.drop c.1).take c.2, n := c.2, stage := .held, bad := false }
    | none => none)

/-- The segments lie on a non-coherent page (R133). -/
def onNc (segs : List Seg) : Bool := segs.any (fun (g : Seg) => g.loc.space == Space.hostNc)

/-- R53, R129, R130: a load of n bytes. -/
def fireLoad (i : Instr) (m : MemF) (n : Nat) (fmt : Bool) (a : Acting) (c : Ctx) (inside : Bool)
    (s : State) : State :=
  let va := effAddr (a.fr.opL a.k).word m.off
  let want : Want := { kind := .load, align := if acquires i || fmt then n else 1, inRegion := inside
                       formats := [], amo := none }
  match s.checkWaits c want va n with
  | some s => s
  | none =>
    match s.check c want va n with
    | (.error e, s) => memFault i a e s
    | (.ok segs, s) =>
      let tag := if fmt then (segs.map (fun (g : Seg) => g.tag)).getD 0 7 else 7
      enqueue i a (newAccess i a c inside (piecesOf segs va (pieceCuts va n (onNc segs)) 0 []) tag 0 0) s

/-- R54, R129: a store of n bytes. -/
def fireStore (i : Instr) (m : MemF) (n : Nat) (a : Acting) (c : Ctx) (inside : Bool) (s : State) :
    State :=
  let va := effAddr (a.fr.opL a.k).word m.off
  let want : Want := { kind := .store, align := if releases i then n else 1, inRegion := inside
                       formats := [], amo := none }
  let data := match a.fr.opR a.k with
    | .vec v _ => natLe n v.toNat
    | t => natLe n t.word.toNat
  match s.checkWaits c want va n with
  | some s => s
  | none =>
    match s.check c want va n with
    | (.error e, s) => memFault i a e s
    | (.ok segs, s) =>
      enqueue i a (newAccess i a c inside (piecesOf segs va (pieceCuts va n (onNc segs)) 0 data) 7 0 0) s

/-- R131: the address of element j. -/
def elementVa (a : Acting) (m : MemF) (sz : WD) (j : Nat) : Word :=
  effAddr (a.fr.opL a.k).word m.off
    + BitVec.ofInt 64 (signedOf (8 * wdBytes sz) (lane (a.fr.opR a.k).vector (8 * wdBytes sz) j) * wdBytes sz)

/-- R132: the elements are checked in ascending order; the first failing check of the first failing lane
is recorded with that element's address. -/
def checkLanes (c : Ctx) (want : Want) (a : Acting) (m : MemF) (sz : WD) (data : Nat → List Byte) :
    List Nat → List Piece → State → Except (Cause × Word) (List Piece) × State
  | [], ps, s => (.ok ps, s)
  | j :: js, ps, s =>
    let va := elementVa a m sz j
    match s.check c want va (wdBytes sz) with
    | (.error e, s) => (.error (e.1, va), s)
    | (.ok segs, s) =>
      checkLanes c want a m sz data js
        (ps ++ piecesOf segs va [(0, wdBytes sz)] (wdBytes sz * j) (data j)) s

/-- The elements of a gather or scatter: address and bytes. -/
def laneVas (a : Acting) (m : MemF) (sz : WD) : List (Word × Nat) :=
  (List.range (64 / wdBytes sz)).map (fun j => (elementVa a m sz j, wdBytes sz))

/-- R131: a gather. -/
def fireGather (i : Instr) (sz : WD) (m : MemF) (a : Acting) (c : Ctx) (inside : Bool) (s : State) :
    State :=
  let want : Want := { kind := .load, align := wdBytes sz, inRegion := inside, formats := [], amo := none }
  match s.walkWaits c.cell c.x (laneVas a m sz) with
  | some s => s
  | none =>
    match checkLanes c want a m sz (fun _ => []) (List.range (64 / wdBytes sz)) [] s with
    | (.error e, s) => memFault i a e s
    | (.ok ps, s) => enqueue i a (newAccess i a c inside ps 7 0 0) s

/-- R131: a scatter. -/
def fireScatter (i : Instr) (sz : WD) (m : MemF) (a : Acting) (c : Ctx) (inside : Bool) (s : State) :
    State :=
  let want : Want := { kind := .store, align := wdBytes sz, inRegion := inside, formats := [], amo := none }
  let data := fun j => natLe (wdBytes sz) (lane (a.fr.opX a.k).vector (8 * wdBytes sz) j)
  match s.walkWaits c.cell c.x (laneVas a m sz) with
  | some s => s
  | none =>
    match checkLanes c want a m sz data (List.range (64 / wdBytes sz)) [] s with
    | (.error e, s) => memFault i a e s
    | (.ok ps, s) => enqueue i a (newAccess i a c inside ps 7 0 0) s

/-- R98: an atomic of n bytes on the formats it admits; `op` is its AtomicOp, 3 for none (R144). -/
def fireAtomic (i : Instr) (m : MemF) (n : Nat) (formats : List (BitVec 3)) (op : Nat) (a : Acting)
    (c : Ctx) (inside : Bool) (s : State) : State :=
  let va := effAddr (a.fr.opL a.k).word m.off
  let want : Want := { kind := .atomic, align := n, inRegion := inside, formats := formats
                       amo := some (op, n) }
  match s.checkWaits c want va n with
  | some s => s
  | none =>
    match s.check c want va n with
    | (.error e, s) => memFault i a e s
    | (.ok segs, s) =>
      enqueue i a (newAccess i a c inside (piecesOf segs va [(0, n)] 0 []) 7 (a.fr.opR a.k).word
        (a.fr.opX a.k).word) s

/-- R134: a prefetch may fill the L1 of the cell from the home, a fetch that R308 counts, or do nothing. -/
def firePrefetch (off : BitVec 22) (a : Acting) (c : Ctx) (inside : Bool) (s : State) :
    State :=
  let va := effAddr (a.fr.opL a.k).word off
  let want : Want := { kind := .load, align := 1, inRegion := inside, formats := [], amo := none }
  if inside then a.commit s (a.fr.fire a.k)
  else
    match s.walkWaits c.cell c.x [(va, 1)] with
    | some s => s
    | none =>
      match (a.commit s (a.fr.fire a.k)).check c want va 1 with
      | (.error _, s) => s
      | (.ok segs, s) =>
        match segs with
        | g :: _ =>
          let (act, s) := s.toss
          let line := lineOf g.loc.addr
          let free := (s.homeQ.get? line).isNone && !s.virga.committingOn line
            && s.hdm.getD (2 * line) false == false && s.hdm.getD (2 * line + 1) false == false
          if act && g.loc.ca && free && (g.loc.space == Space.hbm || g.loc.space == Space.hostNc)
          then ((countCell c.cell 7 1 s).countLlc line).fillLine c.cell g.loc else s
        | [] => s

/-- R135: `cinv` and `cwb` enter the queue with their range. -/
def fireCacheOp (i : Instr) (a : Acting) (c : Ctx) (inside : Bool) (s : State) : State :=
  let va := (a.fr.opL a.k).word
  let len := (a.fr.opR a.k).word
  if len ≠ 0 ∧ 2 ^ 57 < va.toNat + len.toNat then memFault i a (.pageMiss, va) s
  else if inside then memFault i a (.rgnSpace, va) s
  else enqueue i a (newAccess i a c inside [] 7 len va) s

/-- R138: a fence enters the queue. -/
def fireFence (i : Instr) (a : Acting) (c : Ctx) (inside : Bool) (s : State) : State :=
  enqueue i a (newAccess i a c inside [] 7 0 0) s

/-! ### The instructions -/

/-- R52, R53. -/
def execLdB (pr : Pred) (m : MemF) (t0 t1 : Target) (s : State) :
    Host.Outcome State Fault Refusal :=
  memory (.ldB pr m t0 t1) (fireLoad (.ldB pr m t0 t1) m 1 false) s

/-- R52, R53. -/
def execLdBu (pr : Pred) (m : MemF) (t0 t1 : Target) (s : State) :
    Host.Outcome State Fault Refusal :=
  memory (.ldBu pr m t0 t1) (fireLoad (.ldBu pr m t0 t1) m 1 false) s

/-- R52, R53. -/
def execLdH (pr : Pred) (m : MemF) (t0 t1 : Target) (s : State) :
    Host.Outcome State Fault Refusal :=
  memory (.ldH pr m t0 t1) (fireLoad (.ldH pr m t0 t1) m 2 false) s

/-- R52, R53. -/
def execLdHu (pr : Pred) (m : MemF) (t0 t1 : Target) (s : State) :
    Host.Outcome State Fault Refusal :=
  memory (.ldHu pr m t0 t1) (fireLoad (.ldHu pr m t0 t1) m 2 false) s

/-- R52, R53. -/
def execLdW (pr : Pred) (m : MemF) (t0 t1 : Target) (s : State) :
    Host.Outcome State Fault Refusal :=
  memory (.ldW pr m t0 t1) (fireLoad (.ldW pr m t0 t1) m 4 false) s

/-- R52, R53. -/
def execLdWu (pr : Pred) (m : MemF) (t0 t1 : Target) (s : State) :
    Host.Outcome State Fault Refusal :=
  memory (.ldWu pr m t0 t1) (fireLoad (.ldWu pr m t0 t1) m 4 false) s

/-- R52, R53. -/
def execLdD (pr : Pred) (m : MemF) (t0 t1 : Target) (s : State) :
    Host.Outcome State Fault Refusal :=
  memory (.ldD pr m t0 t1) (fireLoad (.ldD pr m t0 t1) m 8 false) s

/-- R129, R130. -/
def execVld (pr : Pred) (fmt : Bool) (m : MemF) (t0 t1 : Target) (s : State) :
    Host.Outcome State Fault Refusal :=
  memory (.vld pr fmt m t0 t1) (fireLoad (.vld pr fmt m t0 t1) m 64 fmt) s

/-- R131, R132. -/
def execVgather (pr : Pred) (sz : WD) (m : MemF) (t0 t1 : Target) (s : State) :
    Host.Outcome State Fault Refusal :=
  memory (.vgather pr sz m t0 t1) (fireGather (.vgather pr sz m t0 t1) sz m) s

/-- R134. -/
def execPf (pr : Pred) (lsid : BitVec 5) (off : BitVec 22) (s : State) :
    Host.Outcome State Fault Refusal :=
  memory (.pf pr lsid off) (firePrefetch off) s

/-- R135: performed at commit. -/
def execCinv (pr : Pred) (lsid : BitVec 5) (s : State) :
    Host.Outcome State Fault Refusal :=
  memory (.cinv pr lsid) (fireCacheOp (.cinv pr lsid)) s

/-- R135: performed at commit. -/
def execCwb (pr : Pred) (lsid : BitVec 5) (s : State) :
    Host.Outcome State Fault Refusal :=
  memory (.cwb pr lsid) (fireCacheOp (.cwb pr lsid)) s

/-- R52, R54. -/
def execStB (pr : Pred) (m : MemF) (s : State) :
    Host.Outcome State Fault Refusal :=
  memory (.stB pr m) (fireStore (.stB pr m) m 1) s

/-- R52, R54. -/
def execStH (pr : Pred) (m : MemF) (s : State) :
    Host.Outcome State Fault Refusal :=
  memory (.stH pr m) (fireStore (.stH pr m) m 2) s

/-- R52, R54. -/
def execStW (pr : Pred) (m : MemF) (s : State) :
    Host.Outcome State Fault Refusal :=
  memory (.stW pr m) (fireStore (.stW pr m) m 4) s

/-- R52, R54. -/
def execStD (pr : Pred) (m : MemF) (s : State) :
    Host.Outcome State Fault Refusal :=
  memory (.stD pr m) (fireStore (.stD pr m) m 8) s

/-- R129. -/
def execVst (pr : Pred) (m : MemF) (s : State) :
    Host.Outcome State Fault Refusal :=
  memory (.vst pr m) (fireStore (.vst pr m) m 64) s

/-- R131, R132. -/
def execVscatter (pr : Pred) (sz : WD) (m : MemF) (s : State) :
    Host.Outcome State Fault Refusal :=
  memory (.vscatter pr sz m) (fireScatter (.vscatter pr sz m) sz m) s

/-- R138, R139. -/
def execFence (pr : Pred) (lsid : BitVec 5) (scope : Scope) (ord : Order) (s : State) :
    Host.Outcome State Fault Refusal :=
  memory (.fence pr lsid scope ord) (fireFence (.fence pr lsid scope ord)) s

/-- R98, R141, R143. -/
def execAmoAdd (pr : Pred) (sz : WD) (m : MemF) (t0 t1 : Target) (s : State) :
    Host.Outcome State Fault Refusal :=
  memory (.amoAdd pr sz m t0 t1) (fireAtomic (.amoAdd pr sz m t0 t1) m (wdBytes sz) [7, 5] 0) s

/-- R98, R141, R143. -/
def execAmoAnd (pr : Pred) (sz : WD) (m : MemF) (t0 t1 : Target) (s : State) :
    Host.Outcome State Fault Refusal :=
  memory (.amoAnd pr sz m t0 t1) (fireAtomic (.amoAnd pr sz m t0 t1) m (wdBytes sz) [7, 5] 3) s

/-- R98, R141, R143. -/
def execAmoOr (pr : Pred) (sz : WD) (m : MemF) (t0 t1 : Target) (s : State) :
    Host.Outcome State Fault Refusal :=
  memory (.amoOr pr sz m t0 t1) (fireAtomic (.amoOr pr sz m t0 t1) m (wdBytes sz) [7, 5] 3) s

/-- R98, R141, R143. -/
def execAmoXor (pr : Pred) (sz : WD) (m : MemF) (t0 t1 : Target) (s : State) :
    Host.Outcome State Fault Refusal :=
  memory (.amoXor pr sz m t0 t1) (fireAtomic (.amoXor pr sz m t0 t1) m (wdBytes sz) [7, 5] 3) s

/-- R98, R141, R143. -/
def execAmoMin (pr : Pred) (sz : WD) (m : MemF) (t0 t1 : Target) (s : State) :
    Host.Outcome State Fault Refusal :=
  memory (.amoMin pr sz m t0 t1) (fireAtomic (.amoMin pr sz m t0 t1) m (wdBytes sz) [7, 5] 3) s

/-- R98, R141, R143. -/
def execAmoMax (pr : Pred) (sz : WD) (m : MemF) (t0 t1 : Target) (s : State) :
    Host.Outcome State Fault Refusal :=
  memory (.amoMax pr sz m t0 t1) (fireAtomic (.amoMax pr sz m t0 t1) m (wdBytes sz) [7, 5] 3) s

/-- R98, R141, R143. -/
def execAmoMinu (pr : Pred) (sz : WD) (m : MemF) (t0 t1 : Target) (s : State) :
    Host.Outcome State Fault Refusal :=
  memory (.amoMinu pr sz m t0 t1) (fireAtomic (.amoMinu pr sz m t0 t1) m (wdBytes sz) [7, 5] 3) s

/-- R98, R141, R143. -/
def execAmoMaxu (pr : Pred) (sz : WD) (m : MemF) (t0 t1 : Target) (s : State) :
    Host.Outcome State Fault Refusal :=
  memory (.amoMaxu pr sz m t0 t1) (fireAtomic (.amoMaxu pr sz m t0 t1) m (wdBytes sz) [7, 5] 3) s

/-- R98, R141, R143. -/
def execAmoSwap (pr : Pred) (sz : WD) (m : MemF) (t0 t1 : Target) (s : State) :
    Host.Outcome State Fault Refusal :=
  memory (.amoSwap pr sz m t0 t1) (fireAtomic (.amoSwap pr sz m t0 t1) m (wdBytes sz) [7, 5] 1) s

/-- R98, R141, R143. -/
def execAmoCas (pr : Pred) (sz : WD) (m : MemF) (t0 t1 : Target) (s : State) :
    Host.Outcome State Fault Refusal :=
  memory (.amoCas pr sz m t0 t1) (fireAtomic (.amoCas pr sz m t0 t1) m (wdBytes sz) [7, 5] 2) s

/-- R98, R142, R143. -/
def execAmoFadd (pr : Pred) (m : MemF) (t0 t1 : Target) (s : State) :
    Host.Outcome State Fault Refusal :=
  memory (.amoFadd pr m t0 t1) (fireAtomic (.amoFadd pr m t0 t1) m 4 [6, 7] 3) s

end Sys2Proof.Machine
end

