-- ==== Sys2Proof/Machine/Copy.lean ====
section
/-! DEFINITION. The copy engine: the firing of its instructions, and its events (R117, R157, R158, R177,
R214 to R233, R263, R297). -/

namespace Sys2Proof.Machine

/-! ### Firing (R177, R230 to R232, R276) -/

/-- An engine command fires: its checks, each of which may record a fault, then its entry among the block's commands.
Another command of the block with its status register records BLK_FMT at the higher index (R230). In a region it
records RGN_ENGINE whenever it fires (R177); a null hands nothing over. A command that fires with poison or records a
fault is none that is handed over either, so a younger read of its status register passes on to an older value at once;
R230 speaks of null alone, and the block never commits (DESIGN CHOICE, log 85). -/
def fireCommand (i : Instr) (check : Acting → Ctx → List (Cause × Word)) (s : State) :
    Host.Outcome State Fault Refusal :=
  match s.acting i with
  | none => .fault .noActingBlock
  | some a =>
    if a.canFire i then
      let twins := match sregOf i with
        | some r => a.fr.fired.filter (fun k => (a.fr.instr k).bind sregOf == some r)
        | none => []
      let fr := a.fr.fire a.k
      let fr := if twins.isEmpty then fr else fr.fault (pairAt a.k twins) .blkFmt 0 .afterFetch
      match a.f.insideRegion a.fr.seq, s.fibreCtx a.f with
      | some inside, some c =>
        let fr := if inside then fr.fault a.k .rgnEngine 0 .firing else fr
        if (badOperand (a.fr.operands a.k i)).isSome then .next (a.commit s fr)
        else
          match check a c with
          | [] =>
            if inside then .next (a.commit s fr)
            else
              let cmd : Command := { idx := a.k, ins := i, a := (a.fr.opL a.k).word, b := (a.fr.opR a.k).word }
              .next (a.commit s { fr with cmds := fr.cmds ++ [cmd] })
          | es => .next (a.commit s (es.foldl (fun fr e => fr.fault a.k e.1 e.2 .firing) fr))
      | _, _ => .next s
    else .next s

/-- R230, R231: alignment, and the issuing cell's memory; an address that fails both records both, of which R25
reports PAGE_PROT. -/
def ownAddress (n : Nat) (a : Acting) (c : Ctx) : List (Cause × Word) :=
  let va := (a.fr.opL a.k).word
  (if va.toNat % n ≠ 0 then [(.align, va)] else []) ++ (if !inOwnCell c va then [(.pageProt, va)] else [])

/-- R230. -/
def execCpy (pr : Pred) (sreg : BitVec 6) (s : State) : Host.Outcome State Fault Refusal :=
  fireCommand (.cpy pr sreg) (ownAddress 128) s

/-- R226, R230. -/
def execCpyQ (pr : Pred) (sreg : BitVec 6) (s : State) : Host.Outcome State Fault Refusal :=
  fireCommand (.cpyQ pr sreg) (ownAddress 128) s

/-- R231. -/
def execBbarInit (pr : Pred) (s : State) : Host.Outcome State Fault Refusal :=
  fireCommand (.bbarInit pr) (ownAddress 16) s

/-- R232. -/
def execBbarWait (pr : Pred) (sreg : BitVec 6) (s : State) : Host.Outcome State Fault Refusal :=
  fireCommand (.bbarWait pr sreg) (ownAddress 16) s

/-! ### Commands of a cell -/

/-- The command with a number. -/
def State.copy? (s : State) (cell id : Nat) : Option CopyCmd := (s.cell cell).copies.find? (fun k => k.id == id)

/-- The command replaced. -/
def State.setCopy (s : State) (cell : Nat) (k : CopyCmd) : State :=
  let c := s.cell cell
  s.setCell cell { c with copies := c.copies.map (fun x => if x.id = k.id then k else x) }

/-- The command leaves the engine. -/
def State.dropCopy (s : State) (cell id : Nat) : State :=
  let c := s.cell cell
  s.setCell cell { c with copies := c.copies.filter (fun x => x.id != id) }

/-- R219, R224: a copy that stands at the end of a run that completes a level owes that run's mark. -/
def CopyCmd.owesMark (k : CopyCmd) (d : Desc) : Bool :=
  d.marks && 0 < k.pos && k.pos % d.run == 0 && 0 < d.markLevel (k.pos / d.run - 1)

/-- The bytes of a descriptor that the engine reads: its first 32 and those of its levels (R220). -/
def Desc.bytesRead (d : Desc) : Nat := 32 + 12 * d.levels.length

/-- R216, R228: the additions that a copy's landed prefix has earned, 1,024 each time and at the end what is left; those
of a copy handed over after a `bbar.init` of the barrier wait for it (R231). -/
def State.addEarned (s : State) (cell : Nat) (k : CopyCmd) (d : Desc) : State :=
  if d.bbar = 0 ∨ s.initAhead cell k.id (barrierAt cell d.bbar) = true then s
  else
    let whole := k.pos / 1024 * 1024
    let s := (List.range ((whole - k.added) / 1024)).foldl (fun s _ => s.addArrived cell d.bbar 1024) s
    let have_ := max k.added whole
    let s := if k.pos = d.total ∧ have_ < k.pos then s.addArrived cell d.bbar (k.pos - have_) else s
    match s.copy? cell k.id with
    | some x => s.setCopy cell { x with added := if k.pos = d.total then k.pos else have_ }
    | none => s

/-- Every addition that a copy's landed prefix has earned has been made. -/
def CopyCmd.paid (k : CopyCmd) (d : Desc) : Bool :=
  d.bbar == 0 || (if k.pos = d.total then k.pos ≤ k.added else k.pos / 1024 * 1024 ≤ k.added)

/-- The additions that the copies of a barrier have earned and not made are made (R231). -/
def State.payAll (s : State) (cell a : Nat) : State :=
  (s.cell cell).copies.foldl (fun s k =>
    match s.copy? cell k.id, k.desc with
    | some x, some d => if x.barrier cell = some a ∧ x.kind ≠ .init then s.addEarned cell x d else s
    | _, _ => s) s

/-- R231: a `bbar.init` is performed once every command handed over before it that names the barrier has finished:
EXPECT and ARRIVED are set as one write of 16 bytes, and the additions of later commands follow. -/
def State.performInit (s : State) (cell cmd : Nat) : State :=
  match s.copy? cell cmd with
  | none => s
  | some k =>
    let a := barrierAt cell k.addr
    let before := (s.cell cell).copies.filter (fun x => x.id < k.id)
    if k.kind = .init
        ∧ before.all (fun x => (x.kind == .init || x.desc.isSome) && x.barrier cell != some a) then
      (((s.dropCopy cell cmd).setBarrier cell k.addr k.expect).payAll cell a).testWaits cell
    else s

/-- The inits of a cell that are not held back are performed, in the order of hand-over. -/
def State.performInits (s : State) (cell : Nat) : State :=
  ((s.cell cell).copies.filter (fun k => k.kind == .init)).foldl (fun s k => s.performInit cell k.id) s

/-- R222: the descriptor is read once, in the order of hand-over, when the accesses that the hand-over
covers have been performed (R157); a copy that its checks refuse stops at once. The additions that a re-issued copy has
still to make are made (R219), and inits that nothing holds back any more are performed (R231). -/
def State.readNext (s : State) (cell : Nat) : Option State :=
  match (s.cell cell).copies.find? (fun k => k.kind != .init && k.desc.isNone) with
  | none => none
  | some k =>
    if !s.coveredUpTo k.fid k.upTo then none
    else
      match s.engineCtx k.fid k.xl with
      | none => none
      | some c =>
        let (d, cause) := s.readDesc c k.addr
        let bad := s.marked .cell (barrierAt cell k.addr) d.bytesRead
        let stop := if bad then some 0x18 else cause
        let k' := { k with desc := some d, stop := stop, markDue := stop.isNone && k.owesMark d
                           added := if stop.isSome then max k.added k.pos else k.added }
        let s := s.setCopy cell k'
        let s := if stop.isSome then s else s.addEarned cell k' d
        some (s.performInits cell)

/-- R158, R225, R226: a copy is held back. -/
def State.copyHeld (s : State) (cell : Nat) (k : CopyCmd) : Bool :=
  let c := s.cell cell
  let before := c.copies.filter (fun x => x.id < k.id)
  match s.engineCtx k.fid k.xl with
  | none => true
  | some x =>
    let clash := fun (o : Spans) => conflict o (k.spans x)
    (k.kind == .copyQ && !before.isEmpty)
      || before.any (fun o => o.kind != .init && !o.started && (match s.engineCtx o.fid o.xl with
          | some y => clash (o.spans y)
          | none => false))
      || c.node.queue.any (fun n => n.id < k.id && (match s.engineCtx n.fid n.xl with
          | some y => clash (n.spans y)
          | none => false))

/-- R222, R225: the engine reads the next descriptor, or starts the oldest command that is not held back
when fewer than four copies are in progress. -/
def execCopyStart (cell : Nat) (s : State) : Host.Outcome State Fault Refusal :=
  match s.readNext cell with
  | some t => .next t
  | none =>
    let ks := (s.cell cell).copies
    if 4 ≤ (ks.filter (fun k => k.started)).length then .next s
    else
      match ks.find? (fun k => k.kind != .init && k.desc.isSome && !k.started && ((k.stop.isSome && k.kind != .copyQ) || !s.copyHeld cell k)) with
      | some k => .next (s.setCopy cell { k with started := true })
      | none => .next s

/-! ### Beats (R117, R221 to R224, R228) -/

/-- Byte `p` of a copy lies past a window end that its run crosses (R104). One segment is taken to be a run: its bytes
before the end land, and two runs that meet at a window end are two segments (log 77). -/
def crosses (at_ : Nat → Word) (run p : Nat) : Bool := p % run != 0 && windowNo (at_ (p - 1)) != windowNo (at_ p)

/-- The most bytes from stream place `p` that one unit takes: its run's rest, its line's rest (64 bytes where
the location is a half at a bridge). -/
def unitLen (d : Desc) (va : Word) (p : Nat) (loc : Loc) : Nat :=
  let line := if loc.space = .hostCoh then 64 else 128
  min (d.run - p % d.run) (line - va.toNat % line)

/-- Byte `p` of a stream at one of its ends: its location, or the cause that stops the copy there. -/
def State.endOf (s : State) (c : Ctx) (d : Desc) (kind : AccKind) (p : Nat) : Except Nat Seg × State :=
  let at_ := if kind = .load then d.srcAt else d.dstAt
  if crosses at_ d.run p then (.error Cause.windowSpan.code, s)
  else
    match s.segments c kind (at_ p) 1 with
    | (.error e, s) => (.error e.1.code, s)
    | (.ok (g :: _), s) => (.ok g, s)
    | (.ok [], s) => (.error Cause.pageMiss.code, s)

/-- A copy stops with a cause (R117, R222). -/
def State.stopCopy (s : State) (cell : Nat) (k : CopyCmd) (cause : Nat) : State :=
  s.setCopy cell { k with stop := some cause, buf := [], fmts := [] }

/-- R223: the stamp that a source byte of a copy gives: its format, and SCALE. -/
def State.stampOf (s : State) (d : Desc) (g : Seg) : BitVec 4 :=
  let (fmt, scale) := if g.loc.space = .cell then
      (fld (s.granule g.loc.addr) 0 3, (s.granule g.loc.addr).getLsbD 3)
    else (leafFmt g.leaf, leafGeom g.leaf == 1 && 0xC000 ≤ g.va.toNat % 0x10000 && g.va.toNat % 0x10000 < 0xF000)
  BitVec.ofBool (scale || d.scale) ++ fmt

/-- The next bytes of a copy are read into its buffer, with the stamps that they give; none while a place makes it
wait, or an earlier operation does (R158). A byte is read only when both its source and its destination pass (R117);
when both fail, the source's cause is the one reported (log 63). -/
def State.copyRead (s : State) (cell len : Nat) (k : CopyCmd) (d : Desc) (c : Ctx) : State :=
  let p := k.pos + k.buf.length
  let stop := fun (s : State) (e : Nat) => if k.buf.isEmpty then s.stopCopy cell k e else s
  match s.walkWaits c.cell c.x [(d.srcAt p, 1), (d.dstAt p, 1)] with
  | some s => s
  | none =>
    match s.endOf c d .load p with
    | (.error e, s) => stop s e
    | (.ok g, s) =>
      match s.endOf c d .store p with
      | (.error e, s) => stop s e
      | (.ok h, s) =>
        let n := min (max len 1) (min (unitLen d g.va p g.loc) (unitLen d h.va p h.loc))
        let clean := ((List.range n).takeWhile (fun i => !s.marked g.loc.space (g.loc.addr + i) 1)).length
        let m := max clean 1
        if s.engineHeld cell k.id (k.spans c) (cellParts c g.va.toNat m ++ cellParts c h.va.toNat m) CopyCmd.progress then s
        else if clean = 0 then stop s Cause.uncorr.code
        else
          match s.engineRead g.loc clean with
          | (none, s) => s
          | (some bs, s) =>
            let bs := (List.range clean).map (fun i => s.ringByte g.loc i (bs.getD i 0))
            { s with tick := s.tick + clean }.setCopy cell
              { k with buf := k.buf ++ bs, fmts := k.fmts ++ List.replicate clean (s.stampOf d g) }

/-- R224: the mark of the run that ends at the landed prefix goes to the node, or is owed to it. -/
def State.emitMark (s : State) (cell : Nat) (k : CopyCmd) (d : Desc) : State :=
  let c := s.cell cell
  if 32 ≤ c.node.marks.length then s.setCopy cell { k with markDue := true }
  else
    let m : Mark := { cmd := k.id, level := d.markLevel (k.pos / d.run - 1), pos := k.pos
                      dest := if k.pos < d.total then d.dstAt k.pos else d.dstAt (d.total - 1) + 1 }
    (s.setCell cell { c with node := { c.node with marks := c.node.marks ++ [m] } }).setCopy cell { k with markDue := false }

/-- Buffered bytes of a copy land. -/
def State.copyLand (s : State) (cell len : Nat) (k : CopyCmd) (d : Desc) (c : Ctx) : State :=
  match s.walkWaits c.cell c.x [(d.dstAt k.pos, 1)] with
  | some s => s
  | none =>
    match s.endOf c d .store k.pos with
    | (.error e, s) => s.stopCopy cell k e
    | (.ok g, s) =>
      let n := min (min (max len 1) k.buf.length) (unitLen d g.va k.pos g.loc)
      if s.engineHeld cell k.id (k.spans c) (cellParts c g.va.toNat n) CopyCmd.progress then s
      else
        match s.engineWrite g.loc (k.buf.take n) with
        | (none, s) => s
        | (some t, _) =>
          let gran := g.loc.addr / 4096
          let stamp := g.loc.space == .cell && !d.keepTag && !k.stamped.contains gran
          let tag := k.fmts.headD 7
          let t := if stamp then { t with gtag := if tag = 7 then t.gtag.erase gran else t.gtag.put gran tag } else t
          let t := t.damage g.loc n
          let k' := { k with pos := k.pos + n, buf := k.buf.drop n, fmts := k.fmts.drop n
                             stamped := if stamp then k.stamped ++ [gran] else k.stamped }
          let t := (countCell cell 10 n (t.setCopy cell k')).addEarned cell k' d
          match t.copy? cell k.id with
          | some x => if x.owesMark d then t.emitMark cell x d else t
          | none => t

/-- A copy with MARKS begins a run only when the run before it has landed and the node holds fewer than 32 marks
(R224). -/
def State.runWaits (s : State) (cell : Nat) (k : CopyCmd) (d : Desc) : Bool :=
  let p := k.pos + k.buf.length
  d.marks && p % d.run == 0 && (!k.buf.isEmpty || 32 ≤ (s.cell cell).node.marks.length)

/-- R221: a beat of a copy: bytes are read, or bytes that have been read land; the free choice is whether the
engine reads ahead first (log 6). A copy that owes a mark hands it over before it goes on. -/
def execCopyBeat (cell cmd len : Nat) (s : State) : Host.Outcome State Fault Refusal :=
  match s.copy? cell cmd with
  | none => .next s
  | some k =>
    match k.desc, s.engineCtx k.fid k.xl with
    | some d, some c =>
      if !k.started || k.stop.isSome then .next s
      else if k.markDue then .next (s.emitMark cell k d)
      else if d.total ≤ k.pos then .next s
      else
        let (ahead, s) := s.toss
        let more := k.pos + k.buf.length < d.total && !s.runWaits cell k d
        if k.buf.isEmpty && !more then .next s
        else if k.buf.isEmpty || (ahead && more) then .next (s.copyRead cell len k d c)
        else .next (s.copyLand cell len k d c)
    | _, _ => .next s

/-! ### Finish, `bbar.init`, marks (R227, R231, R319) -/

/-- R63: the group of a fibre may have halted. -/
def State.haltOf (s : State) (fid : Nat) : State :=
  match s.fibre? fid with
  | some f => s.haltCheck f.gid
  | none => s

/-- R227: a copy whose every byte has landed and whose last mark has been accepted, or that has stopped,
finishes: its status is written. A re-issued copy whose descriptor, read again, gives a stream no longer than what has
landed (R219) lands nothing more, and BYTES is what has landed; so is that of one whose second reading fails a check of
R222, which says BYTES 0 where R215 counts all that has landed (DESIGN CHOICE, log 76). -/
def State.finishCopy (s : State) (cell cmd : Nat) : State :=
  match s.copy? cell cmd with
  | none => s
  | some k =>
    match k.desc, k.stop with
    | some d, none =>
      if k.started && d.total ≤ k.pos && !k.markDue && k.paid d then
        (s.dropCopy cell cmd).writeStatus k.fid k.sreg (statusWord 0 k.pos)
      else s
    | some d, some c =>
      if k.started && k.paid d then (s.dropCopy cell cmd).writeStatus k.fid k.sreg (statusWord c k.pos) else s
    | none, _ => s

/-- R227. -/
def execCopyFinish (cell cmd : Nat) (s : State) : Host.Outcome State Fault Refusal :=
  match s.copy? cell cmd with
  | none => .next s
  | some k => .next ((s.finishCopy cell cmd).haltOf k.fid)

/-- R231. -/
def execBbarInitPerform (cell cmd : Nat) (s : State) : Host.Outcome State Fault Refusal :=
  match s.copy? cell cmd with
  | none => .next s
  | some k => .next ((s.performInit cell cmd).haltOf k.fid)

/-- R319: the node takes the oldest mark that it holds, unless its group is not running. -/
def execMarkTake (cell : Nat) (s : State) : Host.Outcome State Fault Refusal :=
  let c := s.cell cell
  match c.node.marks with
  | [] => .next s
  | m :: rest =>
    let s := s.setCell cell { c with node := { c.node with marks := rest } }
    .next (match s.copy? cell m.cmd with
      | some k => s.setCopy cell { k with told := max k.told m.pos }
      | none => s)

end Sys2Proof.Machine
end

