-- ==== Sys2Proof/Machine/Numfmt.lean ====
section
/-! DEFINITION. The formats of the matrix node and of tagged values: element values, narrowing, stochastic
rounding, blocked scales (R260, R261, R264, R268 to R271, R284 to R286). -/

namespace Sys2Proof.Machine

/-- A value of any format. -/
inductive NVal where
  | nan
  | inf (neg : Bool)
  | fin (x : Num)
  deriving DecidableEq, Repr

/-- A float format of R260: its widths, its largest finite magnitude, its infinity and NaN magnitudes. -/
structure NFmt where
  fmt : Fmt
  top : Nat
  inf : Option Nat
  nan : Nat
  deriving DecidableEq, Repr

/-- The format of an IEEE-like tag. -/
def ieee (F : Fmt) : NFmt := { fmt := F, top := F.max, inf := some F.inf, nan := F.nan }

/-- E4M3: no infinity, one NaN magnitude. -/
def nfE4M3 : NFmt := { fmt := { eb := 4, mb := 3 }, top := 0x7E, inf := none, nan := 0x7F }

/-- E2M1: no infinity and no NaN; a NaN narrows to 0 (R268). -/
def nfE2M1 : NFmt := { fmt := { eb := 2, mb := 1 }, top := 7, inf := none, nan := 0 }

/-- The float format of a tag; tags 6 and 7 hold FP32 (R284). -/
def nfOf (tag : Nat) : NFmt :=
  match tag with
  | 0 => ieee fmtBf16
  | 1 => ieee fmtFp16
  | 2 => nfE4M3
  | 3 => ieee fmtE5M2
  | 4 => nfE2M1
  | _ => ieee fmt32

/-- Bits of an element of a tag (R260). -/
def tagBits (tag : Nat) : Nat :=
  match tag with
  | 0 | 1 => 16
  | 2 | 3 | 5 => 8
  | 4 => 4
  | _ => 32

/-- An integer as a number. -/
def intNum (i : Int) : Num := { neg := i < 0, m := i.natAbs, e := 0 }

/-- The value of an element code (R260, R261). -/
def elemValue (tag x : Nat) : NVal :=
  if tag = 5 then .fin (intNum (signedOf 8 (x % 256)))
  else
    let f := nfOf tag
    let mag := f.fmt.mag x
    if some mag = f.inf then .inf (f.fmt.neg x)
    else if f.top < mag then .nan
    else .fin (f.fmt.num x)

/-- The value of an E3M5 scale (R261). -/
def scaleNum (c : Nat) : Num :=
  let e := c / 32 % 8
  let m := c % 32
  if e = 0 then { neg := false, m := m, e := -7 } else { neg := false, m := 32 + m, e := (e : Int) - 8 }

/-- R271: the value rounds away from zero: D16 + rnd16 reaches 2^16. `r` is the discarded part, of d bits. -/
def srUp (d r rnd16 : Nat) : Bool :=
  let d16 := if d ≤ 16 then r * 2 ^ (16 - d) else r / 2 ^ (d - 16) ||| (if r % 2 ^ (d - 16) = 0 then 0 else 1)
  65536 ≤ d16 + rnd16

/-- m * 2^e in units of 2^u, rounded as `rm` says (R268, R271). -/
def narrowUnits (rm : NRound) (rnd16 : Nat) (x : Num) (u : Int) : Nat :=
  match rm with
  | .rne => (quantize .rne x u).1
  | .rtz => (quantize .rtz x u).1
  | .sr =>
    if u ≤ x.e then x.m * 2 ^ (x.e - u).toNat
    else
      let d := (u - x.e).toNat
      if srUp d (x.m % 2 ^ d) rnd16 then x.m / 2 ^ d + 1 else x.m / 2 ^ d

/-- The magnitude that a value beyond the largest finite one takes, and whether its sign is kept (R268). -/
def NFmt.beyond (f : NFmt) (rm : NRound) (sat : Bool) (neg : Bool) : Nat :=
  if sat ∨ rm = .rtz then f.fmt.signed neg f.top
  else
    match f.inf with
    | some i => f.fmt.signed neg i
    | none => if f.nan = 0 then f.fmt.signed neg f.top else f.nan

/-- R268: a value narrowed to a float format. -/
def narrowFloat (f : NFmt) (rm : NRound) (sat : Bool) (rnd16 : Nat) : NVal → Nat
  | .nan => f.nan
  | .inf neg => f.beyond rm sat neg
  | .fin x =>
    if x.m = 0 then f.fmt.signed x.neg 0
    else
      let least := f.fmt.emin - f.fmt.mb
      let u0 := x.e + Nat.log2 x.m - f.fmt.mb
      let u := if u0 < least then least else u0
      let mag := (u - least).toNat * 2 ^ f.fmt.mb + narrowUnits rm rnd16 x u
      if f.top < mag then f.beyond rm sat x.neg else f.fmt.signed x.neg mag

/-- R268: a value narrowed to INT8. -/
def narrowInt (rm : NRound) (rnd16 : Nat) : NVal → Nat
  | .nan => 0
  | .inf neg => if neg then 0x80 else 0x7F
  | .fin x =>
    let t : Int := narrowUnits rm rnd16 x 0
    codeOf 8 (clampTo (-128) 127 (if x.neg then -t else t)).1

/-- R268: a value narrowed to the format of a tag. -/
def narrowTo (tag : Nat) (rm : NRound) (sat : Bool) (rnd16 : Nat) (v : NVal) : Nat :=
  if tag = 5 then narrowInt rm rnd16 v else narrowFloat (nfOf tag) rm sat rnd16 v

/-! ### The stochastic-rounding state (R270) -/

/-- `Step` of R270. -/
def srStep (x : Word) : Word :=
  let x := x ^^^ (x <<< 13)
  let x := x ^^^ (x >>> 7)
  x ^^^ (x <<< 17)

/-- w1 to w_m after a state. -/
def srWords : Nat → Word → List Word
  | 0, _ => []
  | m + 1, w => srStep w :: srWords m (srStep w)

/-- rnd16 of lane i (R270). -/
def srLane (ws : List Word) (i : Nat) : Nat := nfld (ws.getD (i / 4) 0) (16 * (i % 4)) 16

/-! ### The conversions (R284 to R286) -/

/-- The source lanes of `cvt.n` (R284). -/
def cvtLanes (tag : Nat) : Nat := if tag = 0 ∨ tag = 1 then 32 else 16

/-- `cvt.n` on a token, with the words of the chain (R284). -/
def cvtNarrow (dst : Nat) (rm : NRound) (sat : Bool) (ws : List Word) (v : Vec) (tag : Nat) : Vec :=
  let n := cvtLanes tag
  packLanes (tagBits dst) ((List.range n).map (fun i =>
    narrowTo dst rm sat (srLane ws i) (elemValue (if n = 32 then tag else 6) (lane v (512 / n) i))))

/-- The elements of a token in the order of R284. -/
def tokenElems (v : Vec) (tag : Nat) : List Nat := (List.range (512 / tagBits tag)).map (lane v (tagBits tag))

/-- `cvt.w` on a token (R285): lanes without an element are +0.0. -/
def cvtWiden (dst : Nat) (v : Vec) (tag : Nat) : Vec :=
  let es := tokenElems v tag
  let n := if dst = 6 then 16 else 32
  packLanes (tagBits dst) ((List.range n).map (fun i =>
    match es[i]? with
    | some x => narrowTo dst .rne false 0 (elemValue tag x)
    | none => 0))

/-- x ≤ y for magnitudes. -/
def magLe (x y : Num) : Bool :=
  let e := if x.e ≤ y.e then x.e else y.e
  x.m * 2 ^ (x.e - e).toNat ≤ y.m * 2 ^ (y.e - e).toNat

/-- The scale of a block of `bscale` (R286); none stands for an infinite lane. -/
def blockScale (vs : List NVal) : Nat :=
  let mags := vs.filterMap (fun v => match v with
    | .fin x => some (some x)
    | .inf _ => some none
    | .nan => none)
  if mags.all (fun m => match m with
      | some x => x.m == 0
      | none => false) then 0x60
  else
    let fits := fun (c : Nat) => mags.all (fun m => match m with
      | some x => magLe x { scaleNum c with m := 6 * (scaleNum c).m }
      | none => false)
    ((List.range 256).find? (fun c => 1 ≤ c && fits c)).getD 0xFF

/-- A lane divided by a block's scale and narrowed to E2M1 (R286). -/
def scaledE2M1 (c : Nat) : NVal → Nat
  | .fin x => narrowTo 4 .rne false 0 (.fin (if x.m = 0 then x else divNum x (scaleNum c)))
  | v => narrowTo 4 .rne false 0 v

/-- `bscale` on a token (R286). -/
def blockQuantize (v : Vec) : Vec :=
  let vs := (lanes v 32).map (elemValue 6)
  let c0 := blockScale (vs.take 8)
  let c1 := blockScale (vs.drop 8)
  let es := (vs.take 8).map (scaledE2M1 c0) ++ (vs.drop 8).map (scaledE2M1 c1)
  packLanes 4 (es ++ [c0 % 16, c0 / 16, c1 % 16, c1 / 16])

end Sys2Proof.Machine
end

