-- ==== Sys2Proof/Machine/Kgroup.lean ====
section
/-! DEFINITION. Operands and sums of the matrix node: elements, block and band scales, k-groups (R256,
R261, R264 to R267, R277, R278). -/

namespace Sys2Proof.Machine

/-- An operand while a command reads it: its tag, and the bytes of its elements and scales. -/
structure Operand where
  tag : Nat
  byte : Nat → Byte
  scale : Nat → Byte

/-- Element `idx` of packed bytes (R261). -/
def elemAt (byte : Nat → Byte) (tag idx : Nat) : Nat :=
  match tagBits tag with
  | 16 => leNat [byte (2 * idx), byte (2 * idx + 1)]
  | 8 => (byte idx).toNat
  | _ => if idx % 2 = 0 then (byte (idx / 2)).toNat % 16 else (byte (idx / 2)).toNat / 16

/-- A value times a block scale, exactly (R264). -/
def scaleValue (c : Nat) : NVal → NVal
  | .fin x => .fin (mulNum x (scaleNum c))
  | v => v

/-- A(i, k) of an operand with K columns (R264). -/
def Operand.a (o : Operand) (kk i k : Nat) : NVal :=
  let v := elemValue o.tag (elemAt o.byte o.tag (i * kk + k))
  if o.tag = 4 then scaleValue (o.scale (i * (kk / 8) + k / 8)).toNat v else v

/-- B(k, j) (R264). -/
def Operand.b (o : Operand) (k j : Nat) : NVal :=
  let v := elemValue o.tag (elemAt o.byte o.tag (k * 64 + j))
  if o.tag = 4 then scaleValue (o.scale (64 * (k / 8) + j)).toNat v else v

/-- G of a format (R266). -/
def groupOf (tag : Nat) : Nat :=
  match tag with
  | 0 | 1 => 16
  | 4 => 64
  | _ => 32

/-- The k-group size of two formats. -/
def groupSize (ta tb : Nat) : Nat := min (groupOf ta) (groupOf tb)

/-- A zero. -/
def numZero : Num := { neg := false, m := 0, e := 0 }

/-- The product of two values (R266). -/
def mulVal (x y : NVal) : NVal :=
  match x, y with
  | .nan, _ | _, .nan => .nan
  | .inf a, .inf b => .inf (a != b)
  | .inf a, .fin n | .fin n, .inf a => if n.m = 0 then .nan else .inf (a != n.neg)
  | .fin a, .fin b => .fin (mulNum a b)

/-- The exact sum of two values; opposite infinities give NaN. -/
def addVal (x y : NVal) : NVal :=
  match x, y with
  | .nan, _ | _, .nan => .nan
  | .inf a, .inf b => if a = b then .inf a else .nan
  | .inf a, .fin _ | .fin _, .inf a => .inf a
  | .fin a, .fin b => .fin (addNum .rne a b)

/-- RoundFP32 of R266: an exact zero gives +0. -/
def roundAcc : NVal → BitVec 32
  | .nan => BitVec.ofNat 32 fmt32.nan
  | .inf neg => BitVec.ofNat 32 (fmt32.signed neg fmt32.inf)
  | .fin x => if x.m = 0 then 0 else BitVec.ofNat 32 (roundNum fmt32 .rne false x).1

/-- The update of an accumulator element by one k-group of products (R265, R266). -/
def accUpdate (acc : BitVec 32) (prods : List NVal) (band : NVal) : BitVec 32 :=
  roundAcc (addVal (elemValue 6 acc.toNat) (mulVal (prods.foldl addVal (.fin numZero)) band))

/-- The integer of an INT8 element. -/
def intOf : NVal → Int
  | .fin x => if x.neg then -(x.m : Int) else x.m
  | _ => 0

/-- The update by INT8 products (R267). -/
def accUpdateInt (acc : BitVec 32) (ps : List (NVal × NVal)) : BitVec 32 :=
  acc + BitVec.ofInt 32 (ps.foldl (fun s p => s + intOf p.1 * intOf p.2) 0)

/-- The new value of element (i, j) after k-group q of size g; `used`: block (i/8, k/8) takes part (R278). -/
def groupElem (acc : BitVec 32) (a b : Operand) (band : NVal) (used : Nat → Nat → Bool) (kk g q i j : Nat) : BitVec 32 :=
  let ks := ((List.range g).map (q * g + ·)).filter (fun k => used (i / 8) (k / 8))
  let ps := ks.map (fun k => (a.a kk i k, b.b k j))
  if a.tag = 5 ∧ b.tag = 5 then accUpdateInt acc ps
  else accUpdate acc (ps.map (fun p => mulVal p.1 p.2)) band

/-- Element (i, j) of a tile. -/
def tileKey (t i j : Nat) : Nat := 4096 * t + 64 * i + j

/-- A tile element; +0.0 where not listed. -/
def tileGet (ts : Dict (BitVec 32)) (t i j : Nat) : BitVec 32 := ts.getD (tileKey t i j) 0

/-- Tiles with an element set; zeros are not listed. -/
def tilePut (ts : Dict (BitVec 32)) (k : Nat) (v : BitVec 32) : Dict (BitVec 32) :=
  if v = 0 then ts.erase k else ts.put k v

/-- Tiles with every element of tile t replaced. -/
def tileMap (ts : Dict (BitVec 32)) (t : Nat) (f : Nat → Nat → BitVec 32 → BitVec 32) : Dict (BitVec 32) :=
  (List.range 4096).foldl (fun d n => tilePut d (4096 * t + n) (f (n / 64) (n % 64) (ts.getD (4096 * t + n) 0))) ts

/-- A tile after k-group q. -/
def tileGroup (ts : Dict (BitVec 32)) (t : Nat) (a b : Operand) (band : NVal) (used : Nat → Nat → Bool) (kk g q : Nat) :
    Dict (BitVec 32) :=
  tileMap ts t (fun i j acc => groupElem acc a b band used kk g q i j)

end Sys2Proof.Machine
end

