-- ==== Sys2Proof/Machine/Matrix.lean ====
section
/-! DEFINITION. The matrix node: the firing of its instructions, and its events (R177, R256 to R258,
R262, R264, R272 to R283, R319). -/

namespace Sys2Proof.Machine

/-! ### Firing (R276, R282, R283) -/

/-- R277. -/
def execMma (pr : Pred) (sreg : BitVec 6) (acc : BitVec 3) (kq : BitVec 7) (s : State) : Host.Outcome State Fault Refusal :=
  fireCommand (.mma pr sreg acc kq) (fun _ _ => []) s

/-- R278. -/
def execMmaSp (pr : Pred) (sreg : BitVec 6) (acc : BitVec 3) (kq : BitVec 7) (s : State) : Host.Outcome State Fault Refusal :=
  fireCommand (.mmaSp pr sreg acc kq) (fun _ _ => []) s

/-- R257, R279. -/
def execMring (pr : Pred) (sreg : BitVec 6) (acc : BitVec 3) (n : RingN) (kq : BitVec 7) (s : State) :
    Host.Outcome State Fault Refusal :=
  fireCommand (.mring pr sreg acc n kq) (fun _ _ => []) s

/-- R282. -/
def execMzero (pr : Pred) (acc : BitVec 3) (s : State) : Host.Outcome State Fault Refusal :=
  fireCommand (.mzero pr acc) (fun _ _ => []) s

/-- The address of `mld` and `mst` is a multiple of 128 (R258, R282). -/
def tileAddress (a : Acting) (_c : Ctx) : List (Cause × Word) :=
  let va := (a.fr.opL a.k).word
  if va.toNat % 128 ≠ 0 then [(.align, va)] else []

/-- R282. -/
def execMld (pr : Pred) (sreg : BitVec 6) (acc : BitVec 3) (s : State) : Host.Outcome State Fault Refusal :=
  fireCommand (.mld pr sreg acc) tileAddress s

/-- R258, R282. -/
def execMst (pr : Pred) (fmt : MstFmt) (sreg : BitVec 6) (acc : BitVec 3) (s : State) : Host.Outcome State Fault Refusal :=
  fireCommand (.mst pr fmt sreg acc) tileAddress s

/-- R283: the issuing cell's memory, and one window. -/
def tagRange (a : Acting) (c : Ctx) : List (Cause × Word) :=
  let va := (a.fr.opL a.k).word
  let len := (a.fr.opR a.k).word.toNat
  if !inOwnCell c va then [(.pageProt, va)]
  else if len ≠ 0 ∧ 0x100000 < va.toNat % 0x100000 + len then [(.windowSpan, va)]
  else []

/-- R283. -/
def execCmtag (pr : Pred) (tag : BitVec 3) (scale : Bool) (s : State) : Host.Outcome State Fault Refusal :=
  fireCommand (.cmtag pr tag scale) tagRange s

/-! ### The head command -/

/-- The head of a cell's node. -/
def State.nodeHead (s : State) (cell : Nat) : Option NodeCmd := (s.cell cell).node.queue.head?

/-- The node of a cell changed. -/
def State.modNode (s : State) (cell : Nat) (f : Node → Node) : State :=
  let c := s.cell cell
  s.setCell cell { c with node := f c.node }

/-- The head command replaced. -/
def State.setHead (s : State) (cell : Nat) (n : NodeCmd) : State :=
  s.modNode cell (fun d => { d with queue := n :: d.queue.tail })

/-- The head command stops with a cause. -/
def State.stopHead (s : State) (cell : Nat) (n : NodeCmd) (cause : Nat) : State :=
  s.setHead cell { n with started := true, stop := some cause }

/-! ### Operands (R262, R264, R274) -/

/-- AOFF, BOFF and BSCALE (R256). -/
def NodeCmd.aoff (n : NodeCmd) : Nat := nfld n.a 0 20
def NodeCmd.boff (n : NodeCmd) : Nat := nfld n.a 20 20
def NodeCmd.band (n : NodeCmd) : NVal := elemValue 0 (nfld n.b 0 16)
def NodeCmd.k (n : NodeCmd) : Nat := kOf n.ins
def NodeCmd.sparse (n : NodeCmd) : Bool :=
  match n.ins with
  | .mmaSp _ _ _ _ => true
  | _ => false

/-- The 4-bit tag of a granule of a cell. -/
def State.cellTag (s : State) (cell off : Nat) : Nat := (s.granule (cell * 0x100000 + off)).toNat

/-- Bytes of an operand of K columns or rows. -/
def operandBytes (tag k : Nat) : Nat := 8 * k * tagBits tag

/-- R262, R264, R274: the operand at `off` decodes: one tag from 0 to 5, inside the cell, with scale granules
when it is E2M1. -/
def State.operandOk (s : State) (cell off k : Nat) : Bool :=
  let tag := s.cellTag cell off
  let n := operandBytes tag k
  tag ≤ 5 && off + n ≤ 0x100000
    && (List.range 257).all (fun g => !(off / 4096 ≤ g && 4096 * g < off + n) || s.cellTag cell (4096 * g) == tag)
    && (tag != 4 || (let sb := scaleBase off k
        sb + 8 * k ≤ 0x100000
          && (List.range 257).all (fun g => !(sb / 4096 ≤ g && 4096 * g < sb + 8 * k) || 8 ≤ s.cellTag cell (4096 * g))))

/-- R274: the checks of a command at the head. -/
def State.operandsOk (s : State) (cell : Nat) (n : NodeCmd) : Bool :=
  nfld n.a 40 24 == 0 && nfld n.b 16 48 == 0 && n.aoff % 128 == 0 && n.boff % 128 == 0
    && (!n.sparse || 256 ≤ n.aoff)
    && s.operandOk cell n.aoff n.k && s.operandOk cell n.boff n.k
    && n.k % groupSize (s.cellTag cell n.aoff) (s.cellTag cell n.boff) == 0

/-- An operand in cell memory, decoded by a tag. -/
def State.operand (s : State) (cell tag off k : Nat) : Operand :=
  { tag := tag
    byte := fun i => s.cmem.byte (cell * 0x100000 + off + i)
    scale := fun i => s.cmem.byte (cell * 0x100000 + scaleBase off k + i) }

/-- The bytes of a B tile and its scales, up to the first that is marked uncorrectable. -/
def State.tileAt (s : State) (cell tag off k : Nat) : List Byte × List Byte :=
  let part := fun (o n : Nat) =>
    ((List.range n).takeWhile (fun i => !s.marked .cell (cell * 0x100000 + o + i) 1)).map
      (fun i => s.cmem.byte (cell * 0x100000 + o + i))
  (part off (operandBytes tag k), if tag = 4 then part (scaleBase off k) (8 * k) else [])

/-- An operand in a latch. -/
def latchOperand (tag : Nat) (t : List Byte × List Byte) : Operand :=
  { tag := tag, byte := fun i => t.1.getD i 0, scale := fun i => t.2.getD i 0 }

/-- The latch holds every byte of k-group q. -/
def latchHas (tag g q : Nat) (t : List Byte × List Byte) : Bool :=
  operandBytes tag ((q + 1) * g) ≤ t.1.length && (tag != 4 || 8 * ((q + 1) * g) ≤ t.2.length)

/-- The occupancy bit of block (rb, kb) (R278). -/
def State.usedBlock (s : State) (cell : Nat) (n : NodeCmd) (rb kb : Nat) : Bool :=
  !n.sparse || (s.cmem.byte (cell * 0x100000 + n.aoff - 256 + kb)).getLsbD rb

/-- A k-group of A would consume an uncorrectable byte (R274): its elements, scales and bitmap. -/
def State.badA (s : State) (cell : Nat) (n : NodeCmd) (g q : Nat) : Bool :=
  let tag := n.ta
  let bits := tagBits tag
  let base := cell * 0x100000
  (n.sparse && (List.range (g / 8)).any (fun i => s.marked .cell (base + n.aoff - 256 + q * (g / 8) + i) 1))
    || (List.range 64).any (fun r => (List.range (g / 8)).any (fun b =>
      let kb := q * (g / 8) + b
      s.usedBlock cell n (r / 8) kb
        && (s.marked .cell (base + n.aoff + (r * n.k + 8 * kb) * bits / 8) bits
            || (tag == 4 && s.marked .cell (base + scaleBase n.aoff n.k + r * (n.k / 8) + kb) 1))))

/-- A k-group of B in cell memory would consume an uncorrectable byte; blocks of eight rows that no block of
A uses are not read. -/
def State.badB (s : State) (cell : Nat) (n : NodeCmd) (g q : Nat) : Bool :=
  let tag := n.tb
  let base := cell * 0x100000
  (List.range (g / 8)).any (fun b =>
    let kb := q * (g / 8) + b
    (List.range 8).any (fun rb => s.usedBlock cell n rb kb)
      && (s.marked .cell (base + n.boff + 64 * kb * tagBits tag) (64 * tagBits tag)
          || (tag == 4 && s.marked .cell (base + scaleBase n.boff n.k + 64 * kb) 64)))

/-- The tile that a command names. -/
def accOf : Instr → Nat
  | .mma _ _ acc _ => acc.toNat
  | .mmaSp _ _ acc _ => acc.toNat
  | .mring _ _ acc _ _ => acc.toNat
  | .mzero _ acc => acc.toNat
  | .mld _ _ acc => acc.toNat
  | .mst _ _ _ acc => acc.toNat
  | _ => 0

/-- `mma` and `mma.sp` apply their next k-group, or stop before an uncorrectable byte (R277, R278). -/
def State.mmaGroup (s : State) (cell : Nat) (n : NodeCmd) : State :=
  let g := groupSize n.ta n.tb
  if n.k ≤ n.pos * g then s
  else if s.badA cell n g n.pos || s.badB cell n g n.pos then s.stopHead cell n Cause.uncorr.code
  else
    let a := s.operand cell n.ta n.aoff n.k
    let b := s.operand cell n.tb n.boff n.k
    let used := fun rb kb => s.usedBlock cell n rb kb
    let s := s.modNode cell (fun d => { d with tiles := tileGroup d.tiles (accOf n.ins) a b n.band used n.k g n.pos })
    countCell cell 11 1 (s.setHead cell { n with pos := n.pos + 1 })

/-! ### Tile transfers (R258, R282) -/

/-- Element n of a tile in its storage format (R258, R268). -/
def storeElem (fmt : MstFmt) (x : BitVec 32) : List Byte :=
  match fmt with
  | .bf16 => natLe 2 (narrowTo 0 .rne false 0 (elemValue 6 x.toNat))
  | .fp16 => natLe 2 (narrowTo 1 .rne false 0 (elemValue 6 x.toNat))
  | .fp32 => natLe 4 x.toNat

/-- The bytes [p, p + n) of a tile in its storage format; n and p are multiples of the element's size. -/
def tileBytes (ts : Dict (BitVec 32)) (t : Nat) (fmt : MstFmt) (p n : Nat) : List Byte :=
  let z := mstSize fmt
  (List.range (n / z)).flatMap (fun i => storeElem fmt (ts.getD (4096 * t + p / z + i) 0))

/-- A linear transfer of `total` bytes, seen as a copy descriptor (R258, R282). -/
def linear (va : Word) (total : Nat) : Desc :=
  { src := va, dst := va, run := total, levels := [], marks := false, keepTag := true, scale := false, bbar := 0 }

/-- The next beat of an `mld`: bytes are read in order (R282). -/
def State.mldBeat (s : State) (cell : Nat) (n : NodeCmd) (c : Ctx) (told : Bool) : State :=
  let d := linear n.a 16384
  if 16384 ≤ n.buf.length then s
  else
    match s.walkWaits c.cell c.x [(d.srcAt n.buf.length, 1)] with
    | some s => s
    | none =>
      match s.endOf c d .load n.buf.length with
      | (.error e, s) => s.stopHead cell n e
      | (.ok g, s) =>
        let len := unitLen d g.va n.buf.length g.loc
        let clean := ((List.range len).takeWhile (fun i => !s.marked g.loc.space (g.loc.addr + i) 1)).length
        if s.engineHeld cell n.id (n.spans c) (cellParts c g.va.toNat (max clean 1)) (CopyCmd.asTold told) then s
        else if clean = 0 then s.stopHead cell n Cause.uncorr.code
        else
          match s.engineRead g.loc clean with
          | (none, s) => s
          | (some bs, s) =>
            let bs := (List.range clean).map (fun i => s.ringByte g.loc i (bs.getD i 0))
            { s with tick := s.tick + clean }.setHead cell { n with started := true, buf := n.buf ++ bs }

/-- The next beat of an `mst` (R258). -/
def State.mstBeat (s : State) (cell : Nat) (n : NodeCmd) (fmt : MstFmt) (c : Ctx) (told : Bool) : State :=
  let total := 4096 * mstSize fmt
  let d := linear n.a total
  if total ≤ n.pos then s
  else
    match s.walkWaits c.cell c.x [(d.dstAt n.pos, 1)] with
    | some s => s
    | none =>
      match s.endOf c d .store n.pos with
      | (.error e, s) => s.stopHead cell n e
      | (.ok g, s) =>
        let len := unitLen d g.va n.pos g.loc
        if s.engineHeld cell n.id (n.spans c) (cellParts c g.va.toNat len) (CopyCmd.asTold told) then s
        else
          match s.engineWrite g.loc (tileBytes (s.cell cell).node.tiles (accOf n.ins) fmt n.pos len) with
          | (none, s) => s
          | (some t, _) => (t.damage g.loc len).setHead cell { n with started := true, pos := n.pos + len }

/-- `cmtag`: the granules that hold a byte of its range take the new tag (R283). -/
def State.tagGranules (s : State) (c : Ctx) (va len : Nat) (tag : BitVec 4) : State :=
  (cellParts c va len).foldl (fun s p =>
    (List.range 256).foldl (fun s g =>
      if 4096 * g < p.2.2 ∧ p.2.1 < 4096 * (g + 1) then
        let key := 256 * p.1 + g
        { s with gtag := if tag = 7 then s.gtag.erase key else s.gtag.put key tag }
      else s) s) s

/-! ### Rings (R257, R279 to R281) -/

/-- n of a ring. -/
def ringCount : RingN → Nat
  | .two => 2
  | .four => 4
  | .eight => 8

/-- n of a command that is an `mring`. -/
def NodeCmd.ringN (n : NodeCmd) : Option Nat :=
  match n.ins with
  | .mring _ _ _ r _ => some (ringCount r)
  | _ => none

/-- The run of n cells that holds a cell (R257). -/
def runOf (cell n : Nat) : List Nat := (List.range n).map (cell - cellX cell % n + ·)

/-- A ring that a member has taken to its head. -/
def Ring.fresh (now : Nat) (tag : Nat) (stop : Option Nat) : Ring :=
  { since := now, started := false, step := 0, tag := tag, latch := none, given := false, offer := none, stop := stop }

/-- The k-groups of a step at a member. -/
def NodeCmd.stepGroups (n : NodeCmd) (r : Ring) : Nat := n.k / groupSize n.ta r.tag

/-- A member of a started ring stops: it keeps its ring, so that its finish can tell (R280). -/
def State.stopMember (s : State) (cell : Nat) (n : NodeCmd) (r : Ring) (cause : Nat) : State :=
  (s.stopHead cell n cause).modNode cell (fun d => { d with ring := some { r with stop := some cause } })

/-- R280: a member error stops the other members after their current step. -/
def State.ringError (s : State) (cell n cause : Nat) : State :=
  (runOf cell n).foldl (fun s c => s.modNode c (fun d =>
    { d with ring := d.ring.map (fun r => if r.started && r.stop.isNone then { r with stop := some cause } else r) })) s

/-- The cell of the member at position j of a run. -/
def memberAt (cell n j : Nat) : Nat := cell - cellX cell % n + j

/-- A member goes on with its step: it reloads its latch after a resume (R281), applies the next k-group, or
stops at the end of its step when the ring has been stopped (R280). -/
def State.ringGroup (s : State) (cell : Nat) (n : NodeCmd) (r : Ring) (k : Nat) : State :=
  let m := cellX cell % k
  let j := (m + k - r.step % k) % k
  let groups := n.stepGroups r
  let q := n.pos - r.step * groups
  if groups ≤ q ∨ k ≤ r.step then
    match r.stop with
    | some c => s.stopMember cell n r c
    | none => s
  else
    match r.latch with
    | none =>
      let src := memberAt cell k j
      match s.nodeHead src with
      | none => s
      | some o =>
        if s.operandOk src o.boff n.k ∧ s.cellTag src o.boff = r.tag then
          s.modNode cell (fun d => { d with ring := some { r with latch := some (s.tileAt src r.tag o.boff n.k) } })
        else (s.stopMember cell n r 0x01).ringError cell k 0x01
    | some t =>
      let g := groupSize n.ta r.tag
      if s.badA cell n g q || !latchHas r.tag g q t then
        (s.stopMember cell n r Cause.uncorr.code).ringError cell k Cause.uncorr.code
      else
        let a := s.operand cell n.ta n.aoff n.k
        let tile := (accOf n.ins + j) % 8
        let s := s.modNode cell (fun d => { d with
          tiles := tileGroup d.tiles tile a (latchOperand r.tag t) n.band (fun _ _ => true) n.k g q
          ring := if groups ≤ q + 1 then some { r with since := s.time } else d.ring })
        countCell cell 11 1 (s.setHead cell { n with pos := n.pos + 1 })

/-- The hand-over of R257 at a member that has completed its step: it offers its tile, then takes its left
neighbour's. -/
def State.ringPass (s : State) (cell : Nat) (n : NodeCmd) (r : Ring) (k : Nat) : State :=
  let groups := n.stepGroups r
  if !r.started || r.stop.isSome || k ≤ r.step || n.pos < (r.step + 1) * groups then s
  else if !r.given then
    if r.offer.isSome then s
    else s.modNode cell (fun d => { d with ring := some { r with given := true, offer := r.latch, latch := none } })
  else
    let left := memberAt cell k ((cellX cell % k + k - 1) % k)
    match (s.cell left).node.ring with
    | some o =>
      (match o.offer with
        | some t =>
          if o.step = r.step ∨ o.step = r.step + 1 then
            let s := s.modNode left (fun d => { d with ring := d.ring.map (fun x => { x with offer := none }) })
            s.modNode cell (fun d => { d with ring := d.ring.map (fun x =>
              { x with latch := some t, given := false, step := r.step + 1, since := s.time }) })
          else s
        | none => s)
    | none => s

/-! ### Events of the node -/

/-- A command whose operands are used starts: the tags that decode them are read now (R274). -/
def NodeCmd.begin_ (n : NodeCmd) (s : State) (cell : Nat) : NodeCmd :=
  { n with started := true, ta := s.cellTag cell n.aoff, tb := s.cellTag cell n.boff }

/-- R274, R279: the head command starts when what it covers has been performed and R158 lets it; a started
command goes on by a k-group or a beat. -/
def execNodeCommandStart (cell : Nat) (s : State) : Host.Outcome State Fault Refusal :=
  match s.nodeHead cell with
  | none => .next s
  | some n =>
    match s.engineCtx n.fid n.xl with
    | none => .next s
    | some c =>
      let (told, s) := (Config.nodeCanTell s.tick, { s with tick := s.tick + 1 })
      let sp := n.spans c
      let wait := n.stop.isSome || !s.coveredUpTo n.fid n.upTo
      let held := !n.started && s.engineHeld cell n.id sp (sp.src ++ sp.dst) (CopyCmd.asTold told)
      if wait then .next s
      else
        match n.ins with
        | .mzero _ acc =>
          if n.started then .next s
          else .next ((s.modNode cell (fun d => { d with tiles := tileMap d.tiles acc.toNat (fun _ _ _ => 0) })).setHead cell
            { n with started := true })
        | .cmtag _ tag scale =>
          if n.started || held then .next s
          else .next ((s.tagGranules c n.a.toNat n.b.toNat (BitVec.ofBool scale ++ tag)).setHead cell { n with started := true })
        | .mld _ _ _ => .next (s.mldBeat cell n c told)
        | .mst _ fmt _ _ => .next (s.mstBeat cell n fmt c told)
        | .mma _ _ _ _ | .mmaSp _ _ _ _ =>
          if n.started then .next (s.mmaGroup cell n)
          else if held then .next s
          else if s.operandsOk cell n then .next (s.setHead cell (n.begin_ s cell))
          else .next (s.stopHead cell n 0x01)
        | .mring _ _ _ rn _ =>
          if n.started then
            (match (s.cell cell).node.ring with
              | some r => if r.started then .next (s.ringGroup cell n r (ringCount rn)) else .next s
              | none => .next s)
          else if held then .next s
          else
            let own := if s.operandsOk cell n then none else some 0x01
            .next ((s.setHead cell (n.begin_ s cell)).modNode cell (fun d =>
              { d with rounds := d.rounds + 1, ring := some (Ring.fresh s.time (s.cellTag cell n.boff) own) }))
        | _ => .next s

/-- The head of a member, its ring and its `mring` fields. -/
def State.member? (s : State) (cell : Nat) : Option (NodeCmd × Ring × Nat) := do
  let n ← s.nodeHead cell
  let r ← (s.cell cell).node.ring
  let k ← n.ringN
  return (n, r, k)

/-- A ring has ended: every member of its run has taken its last step and handed on its tile (R257, R273). -/
def State.ringOver (s : State) (cell k : Nat) : Bool :=
  (runOf cell k).all (fun c => match s.member? c with
    | some (o, r, _) => r.started && k ≤ r.step && r.offer.isNone && r.stop.isNone && o.stop.isNone
    | none => false)

/-- The head command has done all it does. -/
def State.nodeDone (s : State) (cell : Nat) (n : NodeCmd) : Bool :=
  n.started && (n.stop.isSome || match n.ins with
    | .mzero _ _ | .cmtag _ _ _ => true
    | .mld _ _ _ => 16384 ≤ n.buf.length
    | .mst _ fmt _ _ => 4096 * mstSize fmt ≤ n.pos
    | .mma _ _ _ _ | .mmaSp _ _ _ _ => n.k ≤ n.pos * groupSize n.ta n.tb
    | .mring _ _ _ rn _ => s.ringOver cell (ringCount rn)
    | _ => true)

/-- The count of a status word (R273). -/
def State.nodeCount (s : State) (cell : Nat) (n : NodeCmd) : Nat :=
  match n.ins with
  | .mld _ _ _ => n.buf.length
  | .mring _ _ _ _ _ =>
    (match (s.cell cell).node.ring with
      | some r => if r.started then n.pos / n.stepGroups r else 0
      | none => 0)
  | _ => n.pos

/-- R280: RING_TIMEOUT is recorded for a fibre: against its oldest block in flight, or the next that it
fetches when it has none or the oldest is in commit, a frame that waits for its fetch being one to be fetched; a parked fibre becomes ready. -/
def Fibre.ringTrap (f : Fibre) : Fibre :=
  match f.frames with
  | fr :: rest =>
    if fr.inCommit || fr.waiting || !fr.fetched then { f with ringFault := true }
    else { f with frames := fr.fault 0 .ringTimeout 0 .ring :: rest }
  | [] => { f with ringFault := true, park := .none }

/-- RING_TIMEOUT for every fibre of a group that has not halted (R280). -/
def State.ringTrapAll (s : State) (gid : Nat) : State :=
  { s with fibres := s.fibres.mapV (fun f => if f.gid = gid ∧ !f.halted then f.ringTrap else f) }

/-- The head command leaves its node: a loaded tile is written and the status word reaches its register (R273). -/
def State.finishHead (s : State) (cell : Nat) (n : NodeCmd) : State :=
  let count := s.nodeCount cell n
  let s := s.modNode cell (fun d => { d with queue := d.queue.tail, ring := none })
  let s := match n.ins, n.stop with
    | .mld _ _ acc, none => s.modNode cell (fun d =>
        { d with tiles := tileMap d.tiles acc.toNat (fun i j _ => BitVec.ofNat 32 (leNat ((n.buf.drop (256 * i + 4 * j)).take 4))) })
    | _, _ => s
  match sregOf n.ins with
  | some r => s.writeStatus n.fid r (statusWord (n.stop.getD 0) count)
  | none => s

/-- A ring of `k` members has stopped and this member of it still finishes its step (R280). -/
def State.stopping (s : State) (k cell : Nat) : Bool :=
  match s.member? cell with
  | some (n, r, k') => k' == k && r.started && r.stop.isSome && n.stop.isNone
  | none => false

/-- The members of a ring of `k` that has ended or stopped leave their nodes; the cells of its run at another
ring, a smaller one that goes on, stay as they are (R273, R280). -/
def State.finishRing (s : State) (cell k : Nat) : State :=
  (runOf cell k).foldl (fun (s : State) c =>
    match s.member? c with
    | some (n, r, k') => if k' = k ∧ (n.stop.isSome || r.started) = true then s.finishHead c n else s
    | none => s) s

/-- R273: the head command finishes; the members of a ring finish when the ring has ended. When a ring stops, its
members write their status words once every one of them has stopped, and the group's fibres trap (R280). -/
def execNodeCommandFinish (cell : Nat) (s : State) : Host.Outcome State Fault Refusal :=
  match s.nodeHead cell with
  | none => .next s
  | some n =>
    let gid := ((s.fibre? n.fid).map Fibre.gid).getD 0
    if !s.nodeDone cell n then .next s
    else
      match n.ringN with
      | some k =>
        if n.stop.isSome && (s.cell cell).node.ring.isSome then
          if (runOf cell k).any (s.stopping k) then .next s
          else .next (((s.finishRing cell k).ringTrapAll gid).haltCheck gid)
        else if n.stop.isSome then .next ((s.finishHead cell n).haltCheck gid)
        else .next ((s.finishRing cell k).haltCheck gid)
      | none => .next ((s.finishHead cell n).haltCheck gid)

/-- Where another member stands in the exchange of R279: not arrived yet, agreeing, or not. -/
inductive Arrival where
  | absent | agrees | differs
  deriving DecidableEq, Repr

/-- Another member of the run against the one at `cell`. -/
def State.arrival (s : State) (other rounds : Nat) (n : NodeCmd) (k : Nat) : Arrival :=
  let d := (s.cell other).node
  if d.rounds < rounds then .absent
  else if d.rounds = rounds then
    match s.member? other with
    | some (o, r, k') => if !r.started && o.stop.isNone && k' == k && kOf o.ins == kOf n.ins then .agrees else .differs
    | none => .differs
  else .differs

/-- R279: the members that wait in the same ring, those that named the same n. -/
def State.ringPeers (s : State) (cell k rounds : Nat) : List Nat :=
  (runOf cell k).filter (fun c => (s.cell c).node.rounds == rounds && (match s.member? c with
    | some (o, r, k') => !r.started && o.stop.isNone && k' == k
    | none => false))

/-- The ring does not start: each of its members reports (R279). -/
def State.ringFail (s : State) (cells : List Nat) (cause : Nat) : State :=
  cells.foldl (fun s c =>
    match s.nodeHead c with
    | some n => (s.stopHead c n cause).modNode c (fun d => { d with ring := none })
    | none => s) s

/-- The cause that a member reports of a ring that timed out: that of its own failure, when it has one (R279, R280,
log 64). -/
def Ring.lateCause (r : Ring) : Nat := r.stop.getD 0x21

/-- A member comes to a ring of its n that has timed out already (R280). -/
def State.ringLate (s : State) (cell k rounds : Nat) : Bool :=
  (runOf cell k).any (fun c => (s.cell c).node.late.contains (rounds, k))

/-- R279: the members of the run wait for each other and exchange what they must agree on, and the ring starts or fails. -/
def execRingStart (cell : Nat) (s : State) : Host.Outcome State Fault Refusal :=
  match s.member? cell with
  | none => .next s
  | some (n, r, k) =>
    match s.engineCtx n.fid n.xl with
    | none => .next s
    | some c =>
      let run := runOf cell k
      let inGroup := fun (x : Nat) => (List.range c.l.cells).any (fun i => memberCell c.g c.l i == x)
      let rounds := (s.cell cell).node.rounds
      if r.started || n.stop.isSome then .next s
      else if !run.all inGroup then .next (s.ringFail [cell] Cause.peer.code)
      else if c.l.core ≠ 1 then .next (s.ringFail [cell] 0x01)
      else
        let others := run.map (fun x => s.arrival x rounds n k)
        let peers := s.ringPeers cell k rounds
        if s.ringLate cell k rounds then .next (s.ringFail [cell] r.lateCause)
        else if others.contains .absent then .next s
        else if others.contains .differs then .next (s.ringFail peers 0x01)
        else
          let tags := peers.map (fun x => ((s.nodeHead x).map NodeCmd.tb).getD 0)
          let bad := peers.any (fun x => ((s.cell x).node.ring.bind Ring.stop).isSome)
          let tag := tags.headD 0
          if bad || tags.any (· != tag) then .next (s.ringFail peers 0x01)
          else .next (peers.foldl (fun s x =>
            let t := s.tileAt x tag ((s.nodeHead x).map NodeCmd.boff |>.getD 0) n.k
            s.modNode x (fun d => { d with ring := d.ring.map (fun y => { y with started := true, tag := tag, latch := some t }) })) s)

/-- R257: the hand-over at a member. -/
def execRingHandover (cell : Nat) (s : State) : Host.Outcome State Fault Refusal :=
  match s.member? cell with
  | some (n, r, k) => .next (s.ringPass cell n r k)
  | none => .next s

/-- 100 µs in units of the time base (R247, R280). -/
def ringLimit : Nat := 200000

/-- A member waits for a neighbour: at the exchange or at a hand-over (R280). -/
def ringWaits (n : NodeCmd) (r : Ring) : Bool :=
  n.stop.isNone && (!r.started || (r.stop.isNone && ((r.step + 1) * n.stepGroups r ≤ n.pos || r.offer.isSome)))

/-- R280: a member has waited 100 µs for a neighbour: the ring stops with 0x21 at every member; one that has
not started stops at once, the others after their step. A ring that ends at the exchange is remembered for members
that come to it later. -/
def execRingTimeout (cell : Nat) (s : State) : Host.Outcome State Fault Refusal :=
  match s.member? cell with
  | none => .next s
  | some (n, r, k) =>
    if ringWaits n r && r.since + ringLimit ≤ s.time then
      let peers := if r.started then runOf cell k else s.ringPeers cell k (s.cell cell).node.rounds
      .next (peers.foldl (fun s x =>
        match s.member? x with
        | some (o, y, _) =>
          if o.stop.isSome then s
          else if !y.started then
            (s.stopMember x o y y.lateCause).modNode x (fun d => { d with late := d.late ++ [(d.rounds, k)] })
          else if y.stop.isSome then s
          else if (y.step + 1) * o.stepGroups y ≤ o.pos || k ≤ y.step then s.stopMember x o y 0x21
          else s.modNode x (fun d => { d with ring := some { y with stop := some 0x21 } })
        | none => s) s)
    else .next s

end Sys2Proof.Machine
end

