-- ==== Sys2Proof/Machine/Region.lean ====
section
/-! DEFINITION. Forwarding atomic regions: the four instructions, the accesses of regions at their homes,
and the events of the Virga unit (R162 to R182). -/

namespace Sys2Proof.Machine

/-! ### The instructions (R178 to R181) -/

/-- An instruction whose effect comes at commit fires (R178 to R180, R212, R238); `bad`: another fired
instruction with which it may not stand, BLK_FMT at the higher index. -/
def fireLate (i : Instr) (bad : Instr → Bool) (s : State) : Host.Outcome State Fault Refusal :=
  match s.acting i with
  | none => .fault .noActingBlock
  | some a =>
    if a.canFire i then
      let clash := a.fr.fired.filter (fun k => ((a.fr.instr k).map bad).getD false)
      let fr := a.fr.fire a.k
      .next (a.commit s (if clash.isEmpty then fr else fr.fault (pairAt a.k clash) .blkFmt 0 .afterFetch))
    else .next s

/-- R178: acts at commit; what it records as the oldest block it records when it fires, if its block is the oldest
then. -/
def execRgnBeg (pr : Pred) (reg : BitVec 6) (off : BitVec 23) (s : State) : Host.Outcome State Fault Refusal :=
  let i := Instr.rgnBeg pr reg off
  let go := fireLate i (fun i => isRgnBeg i || isRgnEnd i || isSret i) s
  match s.acting i, go with
  | some a, .next t => if a.canFire i && a.f.isOldest a.fr.seq then .next (t.checkBeg a.fid) else .next t
  | _, _ => go

/-- R179: acts at commit. -/
def execRgnEnd (pr : Pred) (s : State) : Host.Outcome State Fault Refusal :=
  fireLate (.rgnEnd pr) isRgnBeg s

/-- R180: acts at commit. -/
def execRgnAbt (pr : Pred) (s : State) : Host.Outcome State Fault Refusal :=
  fireLate (.rgnAbt pr) (fun _ => false) s

/-- The codes of R163. -/
def SlotState.code : SlotState → Nat
  | .opened => 1
  | .ended => 2
  | .committing => 3
  | .aborting => 4

/-- The word of `rgn.stat` (R181). -/
def State.rgnWord (s : State) (f : Fibre) : Word :=
  let last := f.lastc * 2 ^ 31
  let here := match f.rgn with
    | some r => some r
    | none => f.rgnKept.map (fun k => (k.1, k.2.1))
  match here with
  | none => BitVec.ofNat 64 last
  | some (slot, grant) =>
    match s.virga.slots.get? slot with
    | none => BitVec.ofNat 64 last
    | some x =>
      if x.grant ≠ grant then BitVec.ofNat 64 last
      else BitVec.ofNat 64 (x.state.code + (if x.tookForward then 8 else 0) + slot * 16
        + x.preds.length * 2 ^ 13 + s.virga.depth slot * 2 ^ 17 + s.virga.writtenLines slot * 2 ^ 21 + last)

/-- R181. -/
def execRgnStat (pr : Pred) (t0 t1 : Target) (s : State) : Host.Outcome State Fault Refusal :=
  dataflow (.rgnStat pr t0 t1) (fun a => .ok (.val (s.rgnWord a.f))) s

/-! ### Accesses of regions at their homes (R164 to R166, R169) -/

/-- The region of an access that stands in one: slot and grant, while it is alive (R173). -/
def State.regionOf (s : State) (a : Access) : Option (Nat × Nat) :=
  match (s.stamp a).rgn with
  | some (slot, grant) => if s.virga.alive slot grant then some (slot, grant) else none
  | none => none

/-- The access had a region, and it has aborted (R173). -/
def State.regionDead (s : State) (a : Access) : Bool := (s.stamp a).rgn.isSome && (s.regionOf a).isNone

/-- A piece of an aborted region's access: a store counts as performed and changes nothing; a read or atomic
is left to vanish with its block (R173). -/
def State.discard (s : State) (oid n : Nat) (a : Access) (p : Piece) : State :=
  if isStoreOnly a.ins then s.setAccess oid (a.setPiece n { p with stage := .done })
  else s.setAccess oid (a.setPiece n { p with stage := .held })

/-- R165: the bytes that region `y` reads of a piece. -/
def State.regionBytes (s : State) (y : Nat) (p : Piece) : List Byte :=
  (List.range p.n).map (fun i =>
    match s.virga.takes y (lineOf (p.loc.addr + i)) ((p.loc.addr + i) % 128) with
    | some (_, b) => b
    | none => s.homeByte (p.loc.addr + i) p.loc.key)

/-- What a region access does at its home: the offsets that it reads there, and the bytes that it writes
(R164: a failed `cas` only reads). -/
def State.regionPlan (s : State) (y : Nat) (a : Access) (p : Piece) : List Nat × Option (List Byte) :=
  let offs := (List.range p.n).filterMap (fun i =>
    if isAtomic a.ins || (s.forward a p.loc.space (p.loc.addr + i)).isNone then some ((p.loc.addr + i) % 128) else none)
  if isLoad a.ins then (offs, none)
  else if isAtomic a.ins then (offs, a.amoBytes (s.regionBytes y p))
  else ([], some p.data)

/-- The edges that a region access needs: those of R166, and the forwards of R165. -/
def State.regionEdges (s : State) (y : Nat) (a : Access) (p : Piece) : List Nat × List Nat :=
  let line := lineOf p.loc.addr
  let (offs, w) := s.regionPlan y a p
  (if w.isSome then s.virga.writeEdges y line else [], s.virga.forwards y line offs)

/-- The access takes place: read mark, value, version (R164 to R166). -/
def State.regionPerform (s : State) (oid n y : Nat) (a : Access) (p : Piece) : State :=
  let line := lineOf p.loc.addr
  let (offs, w) := s.regionPlan y a p
  let bytes := s.regionBytes y p
  let took := !(s.virga.forwards y line offs).isEmpty
  let s := (s.countLlc line).modVirga (fun v =>
    let v := if reads a.ins then v.mark y line else v
    let v := match w with
      | some bs => v.writeVersion y line p.loc.key ((List.range p.n).map (fun i => ((p.loc.addr + i) % 128, bs.getD i 0)))
          (s.ringsOf p.loc p.n)
      | none => v
    if took then { v with slots := v.slots.modify y (fun x => { x with tookForward := true }) } else v)
  let a := s.stamp a
  if isLoad a.ins then s.finishRead oid n a p bytes
  else if isAtomic a.ins then
    s.setAccess oid { (a.setPiece n { p with stage := .done, bad := s.marked .hbm p.loc.addr p.n }) with
      old := leWord bytes }
  else s.setAccess oid (a.setPiece n { p with stage := .done })

/-- The tests of R169 and R170 in their order, and the access when all pass. -/
def State.regionTry (s : State) (oid n y : Nat) (a : Access) (p : Piece) : State :=
  let line := lineOf p.loc.addr
  let v := s.virga
  let (wr, fw) := s.regionEdges y a p
  let writes := (s.regionPlan y a p).2.isSome
  let need := (wr ++ fw).eraseDups
  if need.any (fun x => v.reaches y x) then (s.abortSlot y 1).discard oid n a p
  else if writes && v.overflows y line then (s.abortSlot y 4).discard oid n a p
  else if v.boundsFail y need || (writes && v.versionsFull y line) || (reads a.ins && v.marksFull y line) then
    s.setAccess oid ((s.stamp a).setPiece n { p with stage := .stalled v.freed })
  else
    let fresh := need.filter (fun x => !((v.preds y).map Prod.fst).contains x)
    let s := s.regionPerform oid n y a p
    (countSector 12 10 fresh.length (s.modVirga (fun v => v.addEdges y wr fw))).settle

/-- A piece of a region access arrives at its home: it waits while the line is being written or committed or
awaits edges; without edges to make it takes place, else its request goes to the Virga unit. -/
def State.regionArrive (s : State) (oid n : Nat) (a : Access) (p : Piece) : State :=
  let line := lineOf p.loc.addr
  match s.regionOf a with
  | none => if s.regionDead a then s.discard oid n a p else s
  | some (y, _) =>
    if (s.homeQ.get? line).isSome || s.virga.committingOn line || s.edgesPending line then s
    else
      match s.homeServes p.loc with
      | (false, s) => s
      | (true, s) =>
        let (wr, fw) := s.regionEdges y a p
        if wr.isEmpty && fw.isEmpty then s.regionTry oid n y a p
        else
          (s.setAccess oid ((s.stamp a).setPiece n { p with stage := .edges })).modVirga
            (fun v => { v with requests := v.requests ++ [{ oid := oid, piece := n }] })

/-- The piece of an access that stands in a region, ready to go (R162). -/
def State.regionReady (s : State) (oid n : Nat) (p : Access → Bool) : Option (Access × Piece) :=
  match s.ready oid n (fun a => a.inside && p a) with
  | some (a, q) => if q.loc.space == .hbm then some (a, q) else none
  | none => none

/-- R165: a region read at the home. -/
def execRegionRead (oid piece : Nat) (s : State) : Host.Outcome State Fault Refusal :=
  match s.regionReady oid piece (fun a => isLoad a.ins) with
  | some (a, p) => .next (s.regionArrive oid piece a p)
  | none => .next s

/-- R166: a region write at the home. -/
def execRegionWrite (oid piece : Nat) (s : State) : Host.Outcome State Fault Refusal :=
  match s.regionReady oid piece (fun a => isStoreOnly a.ins) with
  | some (a, p) => .next (s.regionArrive oid piece a p)
  | none => .next s

/-- R164: a region atomic reads and writes as one step. -/
def execRegionAtomic (oid piece : Nat) (s : State) : Host.Outcome State Fault Refusal :=
  match s.regionReady oid piece (fun a => isAtomic a.ins) with
  | some (a, p) => .next (s.regionArrive oid piece a p)
  | none => .next s

/-- R170: the Virga unit answers the oldest edge request. -/
def execEdgeRequest (s : State) : Host.Outcome State Fault Refusal :=
  match s.virga.requests with
  | [] => .next s
  | r :: rest =>
    let s := s.modVirga (fun v => { v with requests := rest })
    match s.accesses.get? r.oid with
    | none => .next s
    | some a =>
      match a.pieces[r.piece]? with
      | none => .next s
      | some p =>
        if p.stage != .edges then .next s
        else
          match s.regionOf a with
          | some (y, _) => .next (s.regionTry r.oid r.piece y a p)
          | none => .next (s.discard r.oid r.piece a p)

/-- R169: a stalled access is tried again each time a slot has become FREE. -/
def execStallRetry (oid piece : Nat) (s : State) : Host.Outcome State Fault Refusal :=
  match s.accesses.get? oid with
  | none => .next s
  | some a =>
    match a.pieces[piece]? with
    | none => .next s
    | some p =>
      match p.stage, s.regionOf a with
      | .stalled _, none => .next (s.discard oid piece a p)
      | .stalled since, some (y, _) =>
          let line := lineOf p.loc.addr
          if s.virga.freed ≤ since || (s.homeQ.get? line).isSome || s.virga.committingOn line || s.edgesPending line then .next s
          else
            match s.homeServes p.loc with
            | (false, s) => .next s
            | (true, s) => .next (s.regionTry oid piece y a p)
      | _, _ => .next s

/-! ### Slots, commit and abort (R162, R163, R171 to R174) -/

/-- The lowest free slot. -/
def Virga.freeSlot (v : Virga) : Option Nat := (List.range 512).find? (fun n => (v.slots.get? n).isNone)

/-- R162: the lowest free slot goes to the block that has waited longest, which commits; a block whose engine commands
find no room any more asks again when they do (R225, R272). -/
def execSlotGrant (s : State) : Host.Outcome State Fault Refusal :=
  match s.virga.asking, s.virga.freeSlot with
  | fid :: rest, some slot =>
    let grant := s.virga.grants.getD slot 0 + 1
    match s.fibre? fid with
    | some f =>
      (match f.frames with
        | fr :: _ =>
          if fr.waiting && (fr.firedAt isRgnBeg).isSome && !s.engineRoom (s.cellOf f) fr then
            .next ((s.modVirga (fun v => { v with asking := rest })).setFrame fid { fr with waiting := false })
          else if fr.waiting && (fr.firedAt isRgnBeg).isSome then
            let s := s.modVirga (fun v => { v with
              asking := rest, grants := v.grants.put slot grant
              slots := v.slots.put slot { state := .opened, grant := grant, fid := fid, preds := []
                                          waitedSince := none, tookForward := false } })
            let s := s.setFrame fid { fr with waiting := false }
            .next (s.commitBlock fid false (some (slot, grant)))
          else .next (s.modVirga (fun v => { v with asking := rest }))
        | [] => .next (s.modVirga (fun v => { v with asking := rest })))
    | none => .next (s.modVirga (fun v => { v with asking := rest }))
  | _, _ => .next s

/-- The block of a fibre that waits for the answer to its `rgn.end` (R179). -/
def Fibre.ending (f : Fibre) : Bool :=
  match f.frames with
  | fr :: _ => fr.waiting && fr.inCommit && (fr.firedAt isRgnEnd).isSome
  | [] => false

/-- R179, step 2: the block reports the end when every version has been acknowledged, and every access of the
fibre before the end has been performed, since the commit is a release (R159). -/
def execEndReport (fid : Nat) (s : State) : Host.Outcome State Fault Refusal :=
  match s.fibre? fid with
  | none => .next s
  | some f =>
    match f.rgn with
    | none => .next s
    | some (slot, grant) =>
      let seq := ((f.frames.head?).map Frame.seq).getD f.nextSeq
      if f.ending && (s.accessesOf fid).all (fun e => seq < e.2.seq || e.2.performed) then
        match s.virga.slots.get? slot with
        | some x =>
          if x.grant = grant ∧ x.state = .opened then
            .next (s.modVirga (fun v => { v with slots := v.slots.put slot { x with state := .ended } })).settle
          else .next s
        | none => .next s
      else .next s

/-- A line can take a region's bytes: no write is in progress at it, but for an atomic that waits for the commit, and
the host holds no part of it. -/
def State.lineFree (s : State) (line : Nat) : Bool :=
  (match s.homeQ.get? line with
    | none => true
    | some h => s.heldAtomic line h) && (s.hdm.get? (2 * line)).isNone && (s.hdm.get? (2 * line + 1)).isNone

/-- The homes of lines that hold a version of the slot ask the host for them (R126). -/
def State.claimLines (s : State) (lines : List Nat) : State :=
  lines.foldl (fun s l =>
    let s := if (s.hdm.get? (2 * l)).isSome then s.backInvalidate (2 * l) true else s
    if (s.hdm.get? (2 * l + 1)).isSome then s.backInvalidate (2 * l + 1) true else s) s

/-- The bytes of a version become the line's value (R171); in a ring they damage the items of its queue (R210). -/
def State.commitLine (s : State) (line : Nat) (x : Version) : State :=
  let sh := s.sharers.getD line []
  let s := sh.foldl (fun s c => s.dropL1 c line) s
  let s := countSector (sectorOf (128 * line)) 4 sh.length { s with sharers := s.sharers.erase line }
  let s := x.bytes.foldl (fun s e => s.landHome (128 * line + e.1) x.key [e.2]) (s.countLlc line)
  let s := x.rings.foldl State.damageQueue s
  if 128 ≤ x.bytes.length then s.clearPoison .hbm (128 * line) 128 else s

/-- R171: the region at the head of the commit order commits. -/
def execRegionCommit (slot : Nat) (s : State) : Host.Outcome State Fault Refusal :=
  match s.virga.slots.get? slot with
  | none => .next s
  | some x =>
    if x.state = .committing ∧ s.virga.commits.head? = some slot then
      let mine := s.virga.lines.filterMap (fun e => (e.2.versions.find? (fun y => y.slot == slot)).map (fun y => (e.1, y)))
      if mine.all (fun e => s.lineFree e.1) then
        let s := mine.foldl (fun s e => s.commitLine e.1 e.2) s
        let s := s.modVirga (fun v => (v.dropLines slot).removeSlot slot)
        .next ((countSector 12 11 1 s).answerFibre x.fid 0).settle
      else .next (s.claimLines (mine.map Prod.fst))
    else .next s

/-- R172, with one of its causes. -/
def execRegionAbort (slot cause : Nat) (s : State) : Host.Outcome State Fault Refusal :=
  if 1 ≤ cause ∧ cause ≤ 8 then .next (s.abortSlot slot cause) else .next s

/-- R179, step 3: the fibre is answered committed. -/
def execCommitAnswer (fid : Nat) (s : State) : Host.Outcome State Fault Refusal :=
  match s.fibre? fid with
  | none => .next s
  | some f =>
    let running := ((s.group? f.gid).map (fun g => g.state == .running)).getD false
    if f.answer = some 0 ∧ f.ending ∧ running then
      .next ((s.setFibre fid { f with answer := none, rgn := none, snap := none }).commitBlock fid true none)
    else .next s

/-- R173, R176: the fibre is answered aborted: its blocks vanish, the registers are restored once none is
pending, and it goes on at the handler. A trap that asked for the abort takes its place (R175). -/
def execAbortAnswer (fid : Nat) (s : State) : Host.Outcome State Fault Refusal :=
  match s.fibre? fid with
  | none => .next s
  | some f =>
    match f.answer with
    | none => .next s
    | some c =>
      if c = 0 ∨ f.rgn.isNone ∨ f.gpend ≠ 0 ∨ f.vpend ≠ 0 ∨ (c = 7 ∧ f.rgnTrap = true) then .next s
      else .next (s.takeAbort fid f c)

/-- R174. -/
def execDependenceTimeout (slot : Nat) (s : State) : Host.Outcome State Fault Refusal :=
  match s.virga.slots.get? slot with
  | some x =>
    (match x.waitedSince with
      | some t => if t + 2 ^ nfld (s.reg 0x60) 0 5 * 2000 ≤ s.time then .next (s.abortSlot slot 6) else .next s
      | none => .next s)
  | none => .next s

end Sys2Proof.Machine
end

