-- ==== Sys2Proof/Machine/Preempt.lean ====
section
/-! DEFINITION. Pre-emption, resume, placement and discard of a group (R176, R185, R186, R217 to R219, R250 to R253,
R259, R281). -/

namespace Sys2Proof.Machine

/-! ### The save area (R251, R252) -/

/-- A size rounded up to 4 KiB. -/
def pageUp (n : Nat) : Nat := (n + 4095) / 4096 * 4096

/-- The bytes of a save area: `rgns` fibres with a region, `used` cells with matrix state (R251). -/
def Launch.saveBytes (l : Launch) (rgns used : Nat) : Nat :=
  4096 + pageUp (3328 * l.fibres) + pageUp (6144 * rgns) + pageUp ((pageUp l.cmem + 256) * l.cells)
    + pageUp (132096 * used) + pageUp (64 * l.cells) + pageUp (1024 * l.cells) + 4096

/-- The cells of a group, by member number (R103). -/
def cellsOf (g : Group) (l : Launch) : List Nat := (List.range l.cells).map (memberCell g l)

/-- The save area that a group needs now. -/
def State.areaOf (s : State) (gid : Nat) (g : Group) (l : Launch) : Nat :=
  l.saveBytes ((s.fibresOf gid).filter (fun e => e.2.rgn.isSome || e.2.rgnKept.isSome)).length
    ((cellsOf g l).filter (fun c => (s.cell c).node.used)).length

/-- Bytes of save areas that a sector's shadow store or spill area holds. -/
def State.areasAt (s : State) (sec : Nat) (spill : Bool) : Nat :=
  s.groups.foldl (fun n e => match e.2.area with
    | some (sp, b) => if e.2.die = sec ∧ sp = spill then n + b else n
    | none => n) 0

/-- R252: where a save area goes: the enabled shadow store of 80 MiB, else the spill area. -/
def State.areaPlace (s : State) (sec bytes : Nat) : Option Bool :=
  if nfld (s.reg 0x50) sec 1 = 1 ∧ s.areasAt sec false + bytes ≤ 80 * 0x100000 then some false
  else if s.areasAt sec true + bytes ≤ s.spillBytes then some true
  else none

/-! ### Halting a group (R250) -/

/-- No group has this number: fibres of a group that has been discarded bear it while their stores are on
their way. -/
def noGroup : Nat := 2 ^ 64

/-- An atomic, an irrevocable access or an early store of a block that has not committed has reached its home. -/
def Access.begun (a : Access) : Bool :=
  !a.released && (isAtomic a.ins || isStoreOnly a.ins || a.irrevocable)
    && a.pieces.any (fun p => p.stage == .atHome || p.stage == .done)

/-- K of a block is ready and waits in its frame for something that only others bring: a barrier, an event, or an engine
(R31, R204, R206, log 59). -/
def State.heldUp (s : State) (fid : Nat) (f : Fibre) (fr : Frame) (k : Nat) (i : Instr) : Bool :=
  fr.ready k i && (badOperand (fr.operands k i)).isNone && (match i with
    | .barArr _ b _ _ => s.barParks f fid b.toNat
    | .barWait _ b =>
      (match (s.group? f.gid).bind (fun g => g.bars.get? b.toNat) with
        | some x => x.phase ≤ (fr.opL k).word.toNat
        | none => true)
    | .evtWait _ _ => (s.event (fr.opL k).word.toNat).toNat < (fr.opR k).word.toNat
    | .read _ r _ _ => f.gpend.getLsbD r.toNat
    | .vread _ r _ _ => f.vpend.getLsbD r.toNat
    | _ => false)

/-- The block is complete and waits for a place among the unmet `bbar.wait` of its cell, which copies of others have to
meet (R225, R232). -/
def State.waitsForRoom (s : State) (f : Fibre) (fr : Frame) : Bool :=
  let n := fr.engineNeeds.2.1
  fr.complete && fr.quiet && fr.faults.isEmpty && n != 0 && 16 < (s.cell (s.cellOf f)).waits.length + n

/-- A block goes on only when others bring what it waits for: every index that is ready waits in its frame, its memory
stands still, and no result but that of an access is owed to it; or its commit waits for room among the unmet waits. -/
def State.waitsInFrame (s : State) (fid : Nat) (f : Fibre) (fr : Frame) : Bool :=
  let ready := fr.indices.filter (fun k => ((fr.instr k).map (fr.ready k)).getD false)
  s.waitsForRoom f fr || !ready.isEmpty && ready.all (fun k => ((fr.instr k).map (s.heldUp fid f fr k)).getD false)
    && s.memoryStill fid fr
    && fr.owed.all (fun k => (s.accessesOf fid).any (fun e => e.2.seq == fr.seq && e.2.idx == k))

/-- The block of an access waits in its frame. -/
def State.blockWaits (s : State) (a : Access) : Bool :=
  match s.fibre? a.fid with
  | some f => ((f.frame? a.seq).map (s.waitsInFrame a.fid f)).getD false
  | none => false

/-- A store to cell memory that has committed has still to land. -/
def Access.landing (a : Access) : Bool := a.released && a.pieces.any (fun p => p.loc.space == .cell && p.stage != .done)

/-- R250, step 2: nothing of the group stands between two effects: no block counts as in commit but one that
waits for the answer to its `rgn.end`, no trap is being delivered, nothing that a block has performed waits for the
block, unless the block waits in its frame for others, and its cell-memory stores have landed. -/
def State.haltable (s : State) (gid : Nat) : Bool :=
  let fs := s.fibresOf gid
  fs.all (fun e => (e.2.ending || e.2.frames.all (fun fr => !fr.inCommit)) && !e.2.rgnTrap)
    && s.accesses.all (fun e => !fs.any (fun x => x.1 == e.2.fid)
        || ((!e.2.begun || s.blockWaits e.2) && !e.2.landing))

/-- R202, R296: the same for a group that is discarded: a block whose atomic has been performed is squashed, its reply
dropped, and a block that can go on only when others bring something is no commit in progress; what a home has taken is
performed first. -/
def State.stoppable (s : State) (gid : Nat) : Bool :=
  let fs := s.fibresOf gid
  fs.all (fun e => (e.2.ending || e.2.frames.all (fun fr => !fr.inCommit || s.waitsInFrame e.1 e.2 fr)) && !e.2.rgnTrap)
    && s.accesses.all (fun e => !fs.any (fun x => x.1 == e.2.fid)
        || (!(e.2.begun && e.2.pieces.any (fun p => p.stage == .atHome)) && !e.2.landing))

/-- R250, steps 1 and 2 for a fibre: every block that is not kept as completed is squashed, and the held block
of R249; a block that waits for a region slot no longer does. -/
def State.haltBlocks (s : State) (fid : Nat) : State :=
  match s.fibre? fid with
  | none => s
  | some f =>
    let from_ := match f.frames with
      | fr :: _ => if f.ending then fr.seq + 1 else fr.seq
      | [] => f.nextSeq
    let lost := f.losesRing from_
    let s := (s.squash fid from_ 0).modFibre fid (fun f => { f with held := none, heldAccesses := [], ringFault := f.ringFault || lost })
    s.modVirga (fun v => { v with asking := v.asking.filter (· != fid) })

/-- Where a member of a started ring stands: the step and the place in K, a completed step counting as the next
(R250, step 3); none for a member that is stopping. -/
def ringSpot (n : NodeCmd) (r : Ring) : Nat :=
  r.step * n.k + (n.pos - r.step * n.stepGroups r) * groupSize n.ta r.tag

/-- The place that the members of a run have to reach together: the furthest of them; the end when one has
finished. -/
def State.ringGoal (s : State) (cell k rounds : Nat) (n : NodeCmd) : Nat :=
  (runOf cell k).foldl (fun m c =>
    let d := (s.cell c).node
    match s.member? c with
    | some (o, r, _) => if d.rounds = rounds then (if r.started then max m (ringSpot o r) else m) else max m (k * n.k)
    | none => if rounds ≤ d.rounds then max m (k * n.k) else m) 0

/-- One move of a member towards the common place; none when it stands there. A member of a ring that has been
stopped goes to the end of its step (R280). -/
def State.ringMove (s : State) (cell : Nat) : Option State :=
  match s.member? cell with
  | none => none
  | some (n, r, k) =>
    if !r.started || n.stop.isSome then none
    else if r.stop.isSome then some (s.ringGroup cell n r k)
    else
      let goal := s.ringGoal cell k (s.cell cell).node.rounds n
      let here := ringSpot n r
      if k ≤ r.step then none
      else if here < goal then
        some (if (r.step + 1) * n.stepGroups r ≤ n.pos then s.ringPass cell n r k else s.ringGroup cell n r k)
      else if (r.step + 1) * n.k ≤ here then some (s.ringPass cell n r k)
      else none

/-- R250, step 3: the members of the rings of a group go on, `fuel` rounds at most, until the members of each ring
stand at one step and one place. -/
def State.alignRings : Nat → List Nat → State → State
  | 0, _, s => s
  | fuel + 1, cells, s =>
    let r := cells.foldl (fun (x : Bool × State) c =>
      match x.2.ringMove c with
      | some t => (true, t)
      | none => x) (false, s)
    if r.1 then State.alignRings fuel cells r.2 else r.2

/-- The bytes that a copy has read land, with the additions that they earn (R217, step 2); none while a home makes
them wait. -/
def State.drainCopy (cell id : Nat) : Nat → State → Option State
  | 0, s => some s
  | fuel + 1, s =>
    match s.copy? cell id with
    | none => some s
    | some k =>
      if k.buf.isEmpty then some s
      else
        match k.desc, s.engineCtx k.fid k.xl with
        | some d, some c =>
          let t := s.copyLand cell k.buf.length k d c
          if ((t.copy? cell id).map (fun x => decide (x.buf.length < k.buf.length))).getD true then State.drainCopy cell id fuel t
          else none
        | _, _ => some s

/-- The copies of some cells, one after the other: cell, number, bytes to land. -/
def State.drainAll (s : State) : List (Nat × Nat × Nat) → Option State
  | [] => some s
  | (cell, id, n) :: rest =>
    match State.drainCopy cell id n s with
    | none => none
    | some t => State.drainAll t rest

/-- R250, R217: the group's fibres, nodes and engines halt, the beats in flight land, and copies that have finished
report; none: not now. -/
def State.haltGroup (s : State) (gid : Nat) (g : Group) (l : Launch) : Option State :=
  let s := (s.fibresOf gid).foldl (fun s e => s.haltBlocks e.1) s
  let s := State.alignRings 20000 (cellsOf g l) s
  let copies := (cellsOf g l).flatMap (fun c => (s.cell c).copies.map (fun k => (c, k.id, k.buf.length)))
  (s.drainAll copies).map (fun s =>
    (cellsOf g l).foldl (fun s c => (s.cell c).copies.foldl (fun s k => s.finishCopy c k.id) s) s)

/-! ### Saving (R217, R218, R251) -/

/-- An unfinished copy as its record keeps it (R218). -/
def CopyCmd.saved (k : CopyCmd) : CopyCmd :=
  { k with desc := none, started := false, buf := [], fmts := [], stamped := [], stop := none, markDue := false }

/-- R250: an `mld` begins again after resume. -/
def NodeCmd.saved (n : NodeCmd) : NodeCmd :=
  match n.ins with
  | .mld _ _ _ => { n with started := n.stop.isSome, pos := 0, buf := if n.stop.isSome then n.buf else [] }
  | _ => n

/-- R281: the save keeps no tile of a latch; waiting time stops (R280): `since` holds the time waited so far. -/
def Ring.saved (r : Ring) (now : Nat) : Ring :=
  { r with latch := none, given := false, offer := none, since := now - r.since }

/-- What is saved of a cell beside its memory (R217, R251, R308). -/
def CellSt.saved (c : CellSt) (now : Nat) : CellSt :=
  { CellSt.init with
    evsel := c.evsel, copies := c.copies.map CopyCmd.saved, waits := c.waits
    node := { c.node with queue := c.node.queue.map NodeCmd.saved, ring := c.node.ring.map (fun r => r.saved now) } }

/-- Entries with a key from `lo` below `lo + n`, moved so that `lo` becomes `dest`. -/
def movedPart {α : Type} (d : Dict α) (lo n dest : Nat) : Dict α :=
  (d.filter (fun e => lo ≤ e.1 && e.1 < lo + n)).map (fun e => (e.1 - lo + dest, e.2))

/-- The same for a list of numbers. -/
def movedNats (d : List Nat) (lo n dest : Nat) : List Nat := (d.filter (fun a => lo ≤ a && a < lo + n)).map (fun a => a - lo + dest)

/-- A cell's memory, tags and marks are cleared (R186). -/
def State.clearCell (s : State) (c : Nat) : State :=
  { s with
    cmem := s.cmem.clear (c * 0x100000) 0x100000
    gtag := s.gtag.filter (fun e => e.1 / 256 != c)
    badChunks := s.badChunks.filter (fun n => n / 16384 != c) }

/-- The engines and node of a cell are emptied, and its idle time begins (R293). -/
def State.emptyCell (s : State) (c : Nat) : State :=
  let x := s.cell c
  s.setCell c { x with copies := [], waits := [], node := Node.init, idleSince := s.time }

/-- Steps 4 and 5 of R250: the group's state is written to its save area and its cells return. -/
def State.saveGroup (s : State) (gid : Nat) (g : Group) (l : Launch) (spill : Bool) (bytes : Nat) : State :=
  let cm := pageUp l.cmem
  let ks := List.range l.cells
  let cell := memberCell g l
  let g' := { g with
    state := .saved, since := s.time, stopping := false, area := some (spill, bytes)
    mem := ks.flatMap (fun k => movedPart s.cmem (cell k * 0x100000) cm (k * 0x100000))
    tags := ks.flatMap (fun k => movedPart s.gtag (cell k * 256) 256 (k * 256))
    poison := ks.flatMap (fun k => movedNats s.badChunks (cell k * 16384) (cm / 64) (k * 16384))
    cells := ks.map (fun k => (k, (s.cell (cell k)).saved s.time)) }
  let s := (s.setGroup gid g').restamp gid
  countSector g.die 14 1 ((cellsOf g l).foldl (fun s c => s.emptyCell c) s)

/-- R250, step 1: no block of a running group is fetched any more. -/
def State.stopFetch (s : State) (gid : Nat) : State :=
  match s.group? gid with
  | some g => if g.state = .running then s.setGroup gid { g with stopping := true } else s
  | none => s

/-- R250: a running group is pre-empted. None: not now, since something of it is between two effects. The request
is dropped when neither store holds the save area (R252), or when the group is not running (R255). -/
def State.preempt (s : State) (gid : Nat) : Option State :=
  match s.group? gid with
  | none => some s
  | some g =>
    match s.launchOf g with
    | none => some s
    | some l =>
      if g.state != .running then some s
      else if !s.haltable gid then none
      else
        let bytes := s.areaOf gid g l
        match s.areaPlace g.die bytes with
        | none => some (s.setGroup gid { g with stopping := false })
        | some spill => (s.haltGroup gid g l).map (fun t => State.requeued s (t.saveGroup gid g l spill bytes))

/-! ### Placement and resume (R185, R186, R194, R253) -/

/-- The rectangle of a running group covers local coordinates. -/
def covers (g : Group) (l : Launch) (x y : Nat) : Bool := g.x0 ≤ x && x < g.x0 + l.sx && g.y0 ≤ y && y < g.y0 + l.sy

/-- Running groups of a die with their launches. -/
def State.running (s : State) (die : Nat) : List (Nat × Group × Launch) :=
  s.groups.filterMap (fun e => if e.2.die = die ∧ e.2.state = .running then (s.launchOf e.2).map (fun l => (e.1, e.2, l)) else none)

/-- Rectangles of R194 in the order of the scan: (x0, y0). -/
def corners (sx sy : Nat) : List (Nat × Nat) :=
  (List.range (8 / sy)).flatMap (fun j => (List.range (8 / sx)).map (fun i => (i * sx, j * sy)))

/-- The running groups with a cell in a rectangle. -/
def State.occupants (s : State) (die x0 y0 sx sy : Nat) : List (Nat × Group × Launch) :=
  (s.running die).filter (fun e =>
    (List.range sx).any (fun i => (List.range sy).any (fun j => covers e.2.1 e.2.2 (x0 + i) (y0 + j))))

/-- Tokens that the running groups of a die hold (R200). -/
def State.heldTokens (s : State) (die : Nat) : Nat := (s.running die).foldl (fun n e => n + e.2.2.tokens) 0

/-- R194: the first free rectangle for a launch's group, when its tokens are free. -/
def State.fit (s : State) (die : Nat) (l : Launch) : Option (Nat × Nat) :=
  if l.tokens ≠ 0 ∧ nfld (s.reg 0x80) 0 9 < s.heldTokens die + l.tokens then none
  else (corners l.sx l.sy).find? (fun p => (s.occupants die p.1 p.2 l.sx l.sy).isEmpty)

/-- STVECp in the form of an s.tvec (R185, R240). -/
def State.stvec (s : State) (p : Nat) : Word := s.reg (0x440 + 8 * p) &&& ~~~0x1F

/-- The fibre `i` of the cell or core with member number `m`, at placement (R185, R235, R245, R299). A STKSTRIDE that is no
multiple of 64 is no ground of R190 for a refusal and is used as it stands (DESIGN CHOICE, log 91). -/
def State.entryFibre (s : State) (gid : Nat) (g : Group) (l : Launch) (m i : Nat) : Fibre :=
  let n := (g.num * (l.cells / l.core) + m / l.core) * l.perCell + i
  let stride := nfld (l.word 120) 0 32
  let x := l.xlate
  let regs : Vector Word 64 := vset (vset (Vector.replicate 64 0) 0 (l.word 8)) 63
    (if stride = 0 then 0 else l.word 112 + BitVec.ofNat 64 (stride * (n + 1)))
  let tv := l.hdrWord 24
  { gid := gid, lid := g.lid, grp := BitVec.ofNat 64 g.num, member := m, idx := i, level := x.level, g := regs, v := Vector.replicate 32 0, vtag := Vector.replicate 32 7
    gpend := 0, vpend := 0
    bankA := { Bank.init with tvec := if tv = 0 then 0 else l.word 0 + tv }
    bankS := { Bank.init with tvec := s.stvec l.part }
    bankM := { Bank.init with tvec := Config.firmwareVector &&& ~~~0x1F }
    fcsr := 0, srng := 0x9E3779B97F4A7C15 ^^^ BitVec.ofNat 64 n, rgnh := 0, stepReg := 0
    sdeleg := if tv = 0 then 0 else l.ctx.getD 3 0
    mdeleg := s.reg 0x70, xroot := x.xroot, xown := x.xown, xkeys := x.xkeys
    ncbase := Vector.replicate 16 0, nclim := Vector.replicate 16 0
    next := some (l.word 0 + 64), nextSeq := 0, frames := [], held := none, heldAccesses := [], ras := []
    park := .none, yieldFor := [], yieldLeft := 0, halted := false, rgn := none, rgnKept := none, snap := none
    rgnCause := 0, lastc := 0, answer := none, rgnTrap := false, fetchHold := none, sawCinv := false, ringFault := false }

/-- The cells that a group takes: memory, tags and nodes cleared (R186); the grant pointer stays at the fibre granted most
recently (R29). A gated cell has still to wake (R293). -/
def State.takeCell (s : State) (c : Nat) : State :=
  let s := s.clearCell c
  let x := s.cell c
  s.setCell c { x with
    evsel := Vector.replicate 8 0, evcnt := Vector.replicate 8 0, copies := [], waits := []
    node := Node.init, idleSince := s.time }

/-- A fibre joins the machine. -/
def State.addFibre (s : State) (f : Fibre) : State := { s with nextFid := s.nextFid + 1 }.setFibre s.nextFid f

/-- R185, R186: a queued group is placed. -/
def State.placeGroup (s : State) (gid : Nat) (g : Group) (l : Launch) (x0 y0 : Nat) : State :=
  let g := { g with x0 := x0, y0 := y0, state := .running, since := s.time, bars := [] }
  let s := (cellsOf g l).foldl (fun s c => s.takeCell c) (s.setGroup gid g)
  let s := (List.range (l.cells / l.core)).foldl (fun s j =>
    (List.range l.perCell).foldl (fun s i => s.addFibre (s.entryFibre gid g l (j * l.core) i)) s) s
  countSector g.die 13 1 s

/-- R219: a re-issued command runs under its fibre's registers and the level of its hand-over. -/
def State.reissued (s : State) (fid : Nat) (x : Xlate) : Xlate :=
  match s.fibre? fid with
  | some f => { f.xlate with level := x.level }
  | none => x

/-- R253, step 1, for member `k`: its cell takes what was saved of it; TLBs and caches start empty. -/
def State.restoreCell (s : State) (g : Group) (l : Launch) (k : Nat) : State :=
  let c := memberCell g l k
  let old := g.cells.getD k CellSt.init
  let s := ((s.cell c).l1.map Prod.fst).foldl (fun s line => s.dropL1 c line) (s.takeCell c)
  let s := { s with
    cmem := (movedPart g.mem (k * 0x100000) 0x100000 (c * 0x100000)).foldl (fun (m : Mem) (e : Nat × Byte) => Mem.setByte m e.1 e.2) s.cmem
    gtag := (movedPart g.tags (k * 256) 256 (c * 256)).foldl (fun (d : Dict (BitVec 4)) (e : Nat × BitVec 4) => Dict.put d e.1 e.2) s.gtag
    badChunks := s.badChunks ++ movedNats g.poison (k * 16384) 16384 (c * 16384) }
  let x := s.cell c
  s.setCell c { x with
    evsel := old.evsel, tlb := [], l1 := [], icache := [], waits := old.waits
    copies := old.copies.map (fun (k : CopyCmd) => { k with xl := s.reissued k.fid k.xl })
    node := { old.node with
      queue := old.node.queue.map (fun (n : NodeCmd) => { n with xl := s.reissued n.fid n.xl })
      ring := old.node.ring.map (fun (r : Ring) => { r with since := s.time - r.since }) } }

/-- R253, step 3: a parked fibre tests its condition again; `bar.arr`, `bar.wait` and `evt.wait` do so when
their block runs again. -/
def State.retest (s : State) (f : Fibre) : Fibre :=
  match f.park with
  | .reg n => if f.gpend.getLsbD n then f else f.wake
  | .bar _ _ => f.wake
  | .evt e v => if v.toNat ≤ (s.event e).toNat then f.wake else f
  | _ => f

/-- R281: a member of a ring in the middle of a step reloads its latch. -/
def State.reloadLatch (s : State) (cell : Nat) : State :=
  match s.member? cell with
  | some (n, r, k) => if r.started && n.stop.isNone && r.latch.isNone && r.step < k then s.ringGroup cell n r k else s
  | none => s

/-- R253: a saved group resumes in a rectangle. -/
def State.resumeGroup (s : State) (gid : Nat) (g : Group) (l : Launch) (x0 y0 : Nat) : State :=
  let g := { g with x0 := x0, y0 := y0 }
  let s := s.setGroup gid { g with state := .running, since := s.time, mem := [], tags := [], poison := [], cells := [], area := none }
  let s := (List.range l.cells).foldl (fun s k => s.restoreCell g l k) s
  let s := { s with fibres := s.fibres.mapV (fun f => if f.gid = gid then s.retest f else f) }
  let s := (cellsOf g l).foldl (fun s c => s.reloadLatch c) s
  ((cellsOf g l).foldl (fun s c => s.testWaits c) s).haltCheck gid

/-! ### Discard (R202, R227, R259, R295, R297) -/

/-- The open or ended regions of a fibre abort with a cause (R172). -/
def State.abortRegions (s : State) (f : Fibre) (cause : Nat) : State :=
  let go := fun (s : State) (slot grant : Nat) => if s.virga.alive slot grant then s.abortSlot slot cause else s
  let s := match f.rgn with
    | some (slot, grant) => go s slot grant
    | none => s
  match f.rgnKept with
  | some (slot, grant, _) => go s slot grant
  | none => s

/-- A fibre of a discarded group: its regions abort and its blocks vanish. What it has committed, and what a home has
taken, is still performed (R295, R296), but no store reaches cell memory any more; its replies are dropped. -/
def State.dropFibre (s : State) (fid cause : Nat) : State :=
  match s.fibre? fid with
  | none => s
  | some f =>
    let s := s.abortRegions f cause
    let s := { s with accesses := s.accesses.mapV (fun (a : Access) =>
      if a.fid = fid then
        { a with
          released := a.released || (isStore a.ins && a.pieces.any (fun (p : Piece) => p.stage == Stage.atHome))
          pieces := a.pieces.map (fun (p : Piece) => if p.loc.space = Space.cell then { p with stage := .done } else p) }
      else a) }
    let s := s.dropAccesses fid 0
    let s := s.modFibre fid (fun f => { f with
      gid := noGroup, halted := true, frames := [], held := none, heldAccesses := [], next := none, park := .none
      rgn := none, rgnKept := none, answer := none, rgnTrap := false, gpend := 0, vpend := 0 })
    let s := s.modVirga (fun v => { v with asking := v.asking.filter (· != fid) })
    if s.accesses.any (fun e => e.2.fid == fid) then s else { s with fibres := s.fibres.erase fid }

/-- A group is discarded and left in state `st`: its regions abort with `cause`, its copies and node commands stop, and
nothing of it is saved. -/
def State.discardGroup (s : State) (gid cause : Nat) (st : GroupState) : State :=
  match s.group? gid with
  | none => s
  | some g =>
    let cells := match g.state, s.launchOf g with
      | .running, some l => cellsOf g l
      | _, _ => []
    let fs := s.fibresOf gid
    let s := fs.foldl (fun s e => s.dropFibre e.1 cause) s
    let s := cells.foldl (fun s c => s.emptyCell c) s
    s.setGroup gid { g with state := st, since := s.time, bars := [], mem := [], tags := [], poison := [], cells := [], area := none, hold := false, stopping := false }

/-- R250, steps 1 to 3, and then the discard of a group: what a block in commit does is finished first (R296); none: not
now. -/
def State.endGroup (s : State) (gid cause : Nat) (st : GroupState) : Option State :=
  match s.group? gid with
  | none => some s
  | some g =>
    match g.state, s.launchOf g with
    | .running, some l =>
      if s.stoppable gid then (s.haltGroup gid g l).map (fun t => t.discardGroup gid cause st) else none
    | _, _ => some (s.discardGroup gid cause st)

/-- R259: a lost group joins the queue of the die that R193 gives it under the map in force; while the map names no
die of the partition it is held. -/
def State.relaunch (s : State) (gid : Nat) : State :=
  match s.group? gid with
  | none => s
  | some g =>
    match s.launchOf g with
    | none => s
    | some l =>
      let order := s.dieOrder l.part
      if g.state != .lost && g.state != .adrift then s
      else if order.isEmpty then s.setGroup gid { g with state := .adrift }
      else
        let t := (s.setGroup gid { g with state := .queued }).enqueueGroup gid (dieOf order l.seq l.win g.num)
        State.requeued s t

end Sys2Proof.Machine
end

