-- ==== Sys2Proof/Machine/Dispatcher.lean ====
section
/-! DEFINITION. Events of the dispatcher and the owner's writes that act on launches, maps and groups (R187, R188,
R192, R194 to R196, R198, R199, R202, R250, R253, R300, R301). -/

namespace Sys2Proof.Machine

/-! ### The owner (R299 to R301) -/

/-- The masters that CLAIM can name (R300). -/
def isMaster (who : Nat) : Bool := (1 ≤ who && who ≤ 12) || who == 16

/-- R299: the board controller reaches the registers, and so does a host on a port that has trained. -/
def State.reaches (s : State) (who : Nat) : Bool := isMaster who && (who == 16 || (s.ports.get? (who - 1)).isSome)

/-- OWNER of CLAIM. -/
def State.owner (s : State) : Nat := nfld (s.reg 0) 0 5

/-- R299: a write is performed only when it comes from the owner. -/
def State.owned (s : State) (who : Nat) : Bool := s.reaches who && s.owner == who

/-- Units of 0.5 ns in a millisecond and in a microsecond (R247). -/
def msUnits : Nat := 2000000
def usUnits : Nat := 2000

/-! ### Placement (R194) -/

/-- R194: the head of a live die's queue is placed in the first free rectangle, or resumed there when it is saved (R253). -/
def State.placeHead (s : State) (die : Nat) : State :=
  if (s.die die).state != .live then s
  else
    match s.headOf die with
    | none => s
    | some (gid, g) =>
      match s.launchOf g with
      | none => s
      | some l =>
        match s.fit die l with
        | none => s
        | some (x0, y0) =>
          State.requeued s (if g.state = .saved then s.resumeGroup gid g l x0 y0 else s.placeGroup gid g l x0 y0)

/-- R195: a full ageing period of a launch with a waiting group has passed. -/
def execAgeingPeriod (lid : Nat) (s : State) : Host.Outcome State Fault Refusal :=
  match s.launches.get? lid with
  | none => .next s
  | some l =>
    let due := l.agedAt + 2 ^ nfld (s.reg 0x68) 0 3 * msUnits
    if l.started && !l.retired && s.anyWaiting lid && due ≤ s.time then
      .next (State.requeued s { s with launches := s.launches.put lid { l with ages := l.ages + 1, agedAt := due } })
    else .next s

/-! ### Pre-emption by the segment (R196) -/

/-- A running group is a victim of a head at effective priority `p`. -/
def State.isVictim (s : State) (p : Nat) (g : Group) : Bool :=
  let q := s.effPrio g.lid
  q < p || (q == p && g.since + 10 * msUnits ≤ s.time)

/-- R196: the groups to pre-empt for a head: the occupants of the first rectangle in the scan that are all victims and
whose tokens, once returned, cover the head's. -/
def State.victims (s : State) (die : Nat) (g : Group) (l : Launch) : Option (List Nat) :=
  let p := s.effPrio g.lid
  (corners l.sx l.sy).findSome? (fun q =>
    let occ := s.occupants die q.1 q.2 l.sx l.sy
    let back := occ.foldl (fun n e => n + e.2.2.tokens) 0
    if !occ.isEmpty && occ.all (fun e => s.isVictim p e.2.1)
        && (l.tokens == 0 || s.heldTokens die + l.tokens ≤ nfld (s.reg 0x80) 0 9 + back)
    then some (occ.map Prod.fst) else none)

/-- Groups are pre-empted together; none: not now. -/
def State.preemptAll (s : State) : List Nat → Option State
  | [] => some s
  | gid :: rest =>
    match s.preempt gid with
    | none => none
    | some t => State.preemptAll t rest

/-- R196: the head has waited 50 µs at the head, and no group of the die is being pre-empted already: the victims are
pre-empted, at once when nothing of them stands between two effects, else each as soon as nothing does (R250). -/
def execPreemptTimer (die : Nat) (s : State) : Host.Outcome State Fault Refusal :=
  match s.headOf die with
  | none => .next s
  | some (_, g) =>
    match s.launchOf g with
    | none => .next s
    | some l =>
      if (s.die die).state != .live || s.time < g.since + 50 * usUnits || (s.fit die l).isSome
          || (s.running die).any (fun e => e.2.1.stopping) then .next s
      else
        match s.victims die g l with
        | none => .next s
        | some vs => .next ((s.preemptAll vs).getD (vs.foldl State.stopFetch s))

/-- R254: the debug hold that the owner has asked for takes effect on a group that is saved or queued; it lapses on one
that still runs, since its pre-emption was dropped (R252). -/
def State.holdNow (s : State) (gid : Nat) : State :=
  match s.group? gid with
  | some g =>
    if !g.hold then s
    else if g.state = .saved ∨ g.state = .queued then
      State.requeued s (s.setGroup gid { g with state := .debug, hold := false, rsv := [] })
    else s.setGroup gid { g with hold := false }
  | none => s

/-- A group whose die drains without saving: a pre-emption of it has no effect, since step 2 discards it (R295, R296). -/
def State.drains (s : State) (gid : Nat) : Bool :=
  match s.group? gid with
  | some g => (s.die g.die).state == .draining && !(s.die g.die).save
  | none => false

/-- R250: a request to pre-empt a group; it waits while something of the group stands between two effects, and no block of
the group is fetched meanwhile. -/
def execPreemption (gid : Nat) (s : State) : Host.Outcome State Fault Refusal :=
  if s.drains gid then .next (s.holdNow gid) else
  match s.preempt gid with
  | some t => .next (t.holdNow gid)
  | none => .next (s.stopFetch gid)

/-! ### Completion (R198, R199) -/

/-- The groups of a launch. -/
def State.groupsOf (s : State) (lid : Nat) : Dict Group := s.groups.filter (fun e => e.2.lid == lid)

/-- Accesses of groups of a launch that have been discarded are still on their way (R198). -/
def State.straggles (s : State) (lid : Nat) : Bool :=
  s.accesses.any (fun e => match s.fibre? e.2.fid with
    | some f => f.gid == noGroup && f.lid == lid
    | none => false)

/-- GO of LCANCEL reads 0 once the launch for which it was written has retired (R202). -/
def State.clearGo (s : State) (lid : Nat) : State :=
  if s.cancelling = some lid then { s.setReg 0x290 (setFld (s.reg 0x290) 63 1 0) with cancelling := none } else s

/-- R202: a cancelled launch goes on: a running group is halted and discarded, and after the last the launch retires.
Each waits for what R250 lets finish, and the mailbox's store for its home. -/
def State.cancelOn (s : State) (lid : Nat) (l : Launch) (sig : Bool) : State :=
  match (s.groupsOf lid).find? (fun e => e.2.state != .halted) with
  | some (gid, _) => ((s.endGroup gid 3 .halted).map (State.requeued s)).getD (s.stopFetch gid)
  | none =>
    match s.retire lid l sig (some (BitVec.allOnes 64)) with
    | (some t, _) => State.requeued s (t.clearGo lid)
    | (none, w) => { s with snoops := w.snoops, halves := w.halves, out := w.out }

/-- R198: a segment whose groups of the launch have all halted reports; after the last report the launch retires. A
launch without groups retires once its waits are met (R199); one that is being cancelled goes on to its end (R202). -/
def execSegmentReport (lid die : Nat) (s : State) : Host.Outcome State Fault Refusal :=
  match s.launches.get? lid with
  | none => .next s
  | some l =>
    if l.cancel.isSome && !l.retired then .next (s.cancelOn lid l (l.cancel == some true)) else
    let gs := s.groupsOf lid
    let here := gs.filter (fun e => e.2.die == die)
    if !l.started || l.retired || l.joining.contains die || here.any (fun e => e.2.state != .halted) || (here.isEmpty && l.groupCount != 0) then .next s
    else
      let reported := if l.reported.contains die then l.reported else l.reported ++ [die]
      let l := { l with reported := reported }
      let s := { s with launches := s.launches.put lid l }
      if l.joining.isEmpty && !s.straggles lid && gs.all (fun e => e.2.state == .halted && reported.contains e.2.die) then
        match s.retire lid l true none with
        | (some t, _) => .next t
        | (none, w) => .next w
      else .next s

/-! ### Maps (R192, R259) -/

/-- A die is in no sequence. -/
def State.dieIdle (s : State) (d : Nat) : Bool := (s.die d).op == 0

/-- R259: lost groups whose die's sequence has ended are relaunched, and those that are held for want of a die. -/
def State.relaunchLost (s : State) : State :=
  s.groups.foldl (fun s e =>
    if (e.2.state = .lost ∧ s.dieIdle e.2.die = true) ∨ e.2.state = .adrift then s.relaunch e.1 else s) s

/-- A save area moves to another sector, when that has room for it, and its group joins that die's queue; a group under
a debug hold stays held (R254). -/
def State.moveGroup (s : State) (gid : Nat) (g : Group) (die : Nat) : State :=
  match g.area with
  | none => s
  | some (_, bytes) =>
    match (s.setGroup gid { g with area := none }).areaPlace die bytes with
    | none => s
    | some spill =>
      let t := s.setGroup gid { g with area := some (spill, bytes), die := die }
      if g.state = .saved then State.requeued s (t.enqueueGroup gid die) else t

/-- R253, R295: a saved group of a die whose sequence has ended and that is not live moves to the die that R193 gives
it under the map in force. -/
def State.moveSaved (s : State) : State :=
  s.groups.foldl (fun s e =>
    match s.launchOf e.2 with
    | none => s
    | some l =>
      let order := s.dieOrder l.part
      if e.2.state = .saved ∧ s.dieIdle e.2.die = true ∧ (s.die e.2.die).state ≠ .live ∧ order.isEmpty = false then
        s.moveGroup e.1 e.2 (dieOf order l.seq l.win e.2.num)
      else s) s

/-- R295, R296: the groups that are queued on a die and were never placed are relaunched by R193. -/
def State.loseQueued (s : State) (d : Nat) : State :=
  ({ s with groups := s.groups.mapV (fun (g : Group) =>
    if g.die = d ∧ g.state = GroupState.queued then { g with state := GroupState.lost } else g) } : State).relaunchLost

/-- R194: a segment takes groups into its queue and places the head. What joins the queue of a die that is not live and in
no sequence, as after a wait that is met late, is relaunched elsewhere (R259, R296). -/
def execGroupPlace (die : Nat) (s : State) : Host.Outcome State Fault Refusal :=
  let t := s.joinNext die
  .next (if (s.toJoin die).isEmpty || !t.dieIdle die || (t.die die).state == .live then t.placeHead die
    else t.loseQueued die)

/-- R192: a map is installed, unless it would give a die a weight in two partitions. -/
def State.installMap (s : State) (p : Nat) (v : Word) : State :=
  let clash := (List.range 32).any (fun d => nfld v (2 * d) 2 != 0
    && (List.range 8).any (fun q => q != p && s.weight q d != 0))
  if clash then s else (s.setReg (0x400 + 8 * p) v).relaunchLost.moveSaved

/-- R192: a map changes only while no segment is taking a record. -/
def State.mapsOpen (s : State) : Bool := s.taking.isEmpty

/-- R187: the owner writes LWCFGw; E becomes 1 when the window is enabled. -/
def execLwcfgWrite (who w : Nat) (value : Word) (s : State) : Host.Outcome State Fault Refusal :=
  if s.owned who && w < 24 then
    let v := value &&& 0x000FFFFFFFFF0F7F
    let on := !s.winOn w && fld v 0 1 == 1
    let s := s.setReg (0x300 + 8 * w) v
    .next (if on then { s with expect := s.expect.put w 1 } else s)
  else .next s

/-! ### Ending a launch (R202) -/

/-- The unretired launch of a window with a SEQ. Where two have it, since the window was disabled and enabled again and E
began at 1 anew, the one that was accepted first is meant (DESIGN CHOICE, log 84). -/
def State.findLaunch (s : State) (win seq : Nat) : Option (Nat × Launch) :=
  s.launches.find? (fun e => e.2.win == win && e.2.seq == seq && !e.2.retired)

/-- R202, step 1: the cancelling of a launch begins: none of its groups is placed any more, and those that do not run
are dropped. A second LCANCEL for a launch that is being cancelled leaves the SIG of the first in force (DESIGN CHOICE,
log 84). -/
def State.cancelLaunch (s : State) (lid : Nat) (sig : Bool) : State :=
  let t := { s with launches := s.launches.modify lid (fun l =>
    { l with cancel := some (l.cancel.getD sig), joining := [] }) }
  State.requeued s ((t.groupsOf lid).foldl (fun s e =>
    if e.2.state = .running then s else s.discardGroup e.1 3 .halted) t)

/-- LCANCEL as a write leaves it: bits outside its fields dropped, WIN clamped to 23 (R202, R299); GO, which a 0 does not
change, as it stands. -/
def State.lcancelValue (s : State) (v : Word) : Word :=
  setFld (setFld (v &&& 0x3FFFFFFFFF) 32 5 (BitVec.ofNat 5 (min (nfld v 32 5) 23))) 63 1 (fld (s.reg 0x290) 63 1)

/-- R202: the owner cancels a launch; GO reads 1 until it has retired. A SEQ whose record is still being taken, or has not
been taken yet, names no launch that has been accepted: the write does nothing and GO clears (DESIGN CHOICE, log 84). -/
def execLcancel (who : Nat) (value : Word) (s : State) : Host.Outcome State Fault Refusal :=
  if !s.owned who then .next s
  else
    let v := s.lcancelValue value
    if fld value 63 1 = 0 then .next (s.setReg 0x290 v)
    else
      match s.findLaunch (nfld v 32 5) (nfld v 0 32) with
      | none => .next { s.setReg 0x290 (setFld v 63 1 0) with cancelling := none }
      | some (lid, _) =>
        .next ({ s.setReg 0x290 (setFld v 63 1 1) with cancelling := some lid }.cancelLaunch lid (fld value 37 1 == 1))

/-! ### Moving a saved group (R253) -/

/-- R253: the owner writes GMOVEB. -/
def execGmove (who : Nat) (value : Word) (s : State) : Host.Outcome State Fault Refusal :=
  if !s.owned who then .next s
  else
    let s := s.setReg 0x288 (value &&& 0x1FFFFFFFFF)
    let a := s.reg 0x280
    if fld value 63 1 = 0 then .next s
    else
      match s.findLaunch (nfld a 32 5) (nfld a 0 32) with
      | none => .next s
      | some (lid, l) =>
        match s.groups.find? (fun e => e.2.lid == lid && e.2.num == nfld value 0 32) with
        | none => .next s
        | some (gid, g) =>
          let die := nfld value 32 5
          if (g.state == .saved || g.state == .debug) && s.weight l.part die != 0 then .next (s.moveGroup gid g die)
          else .next s

end Sys2Proof.Machine
end

