-- ==== Sys2Proof/Machine/Debug.lean ====
section
/-! DEFINITION. Debug access to the save area of a group that is held (R218, R251, R254). -/

namespace Sys2Proof.Machine

/-! ### Where a section of the save area starts (R251) -/

/-- The fibres of a group with their numbers, core by core (R185). -/
def State.recordFibres (s : State) (gid : Nat) : List (Nat × Fibre) := s.fibresOf gid

/-- The starts of the sections: fibre records, region extensions, cell memory, matrix state, selectors, engine records,
barriers. -/
structure Layout where
  recs : Nat
  regions : Nat
  mem : Nat
  matrix : Nat
  sels : Nat
  engines : Nat
  bars : Nat
  deriving DecidableEq, Repr

/-- Members whose cell has received a matrix command. -/
def usedMembers (g : Group) (l : Launch) : List Nat :=
  (List.range l.cells).filter (fun k => (g.cells.getD k CellSt.init).node.used)

/-- The layout of a group's save area. -/
def State.layoutOf (s : State) (gid : Nat) (g : Group) (l : Launch) : Layout :=
  let rgns := ((s.fibresOf gid).filter (fun e => e.2.rgn.isSome || e.2.rgnKept.isSome)).length
  let regions := 4096 + pageUp (3328 * l.fibres)
  let mem := regions + pageUp (6144 * rgns)
  let matrix := mem + pageUp ((pageUp l.cmem + 256) * l.cells)
  let sels := matrix + pageUp (132096 * (usedMembers g l).length)
  let engines := sels + pageUp (64 * l.cells)
  { recs := 4096, regions := regions, mem := mem, matrix := matrix, sels := sels, engines := engines
    bars := engines + pageUp (1024 * l.cells) }

/-! ### Fibre records (R251) -/

/-- PKIND. -/
def Park.kind : Park → Nat
  | .none => 0
  | .reg _ => 1
  | .bar _ _ => 2
  | .evt _ _ => 3
  | .yield => 4

/-- The system registers of a record in their order: their numbers. -/
def recordRegs : List Nat :=
  (List.range 8) ++ (List.range 7).map (0x110 + ·) ++ (List.range 7).map (0x210 + ·) ++ (List.range 7).map (0x310 + ·)
    ++ [0x020, 0x021, 0x030, 0x031, 0x032] ++ (List.range 32).map (0x040 + ·)

/-- Doubleword `j` of a 512-bit value, and the value with it replaced. -/
def vecDword (v : Vec) (j : Nat) : Word := v.extractLsb' (64 * j) 64
def setVecDword (v : Vec) (j : Nat) (w : Word) : Vec :=
  (v &&& ~~~((BitVec.allOnes 64).setWidth 512 <<< (64 * j))) ||| (w.setWidth 512 <<< (64 * j))

/-- The doubleword at a place of a fibre's record. -/
def State.recordRead (s : State) (f : Fibre) (off : Nat) : Word :=
  let i := off / 8
  if i = 0 then f.next.getD 0
  else if i = 1 then
    BitVec.ofNat 64 (f.level.code + (if f.halted then 4 else 0) + f.park.kind * 8
      + (if f.rgn.isSome || f.rgnKept.isSome then 64 else 0))
  else if i = 2 then f.gpend
  else if i = 3 then f.vpend.setWidth 64
  else if i < 20 then f.ras.getD (i - 4) 0
  else if i < 86 then s.sysRead f (recordRegs.getD (i - 20) 0xFFF)
  else if i < 88 then 0
  else if i < 152 then vget f.g (i - 88) 0
  else if i < 408 then vecDword (vget f.v ((i - 152) / 8) 0) ((i - 152) % 8)
  else if i < 412 then leWord ((List.range 8).map (fun j => (vget f.vtag (8 * (i - 408) + j) 7).setWidth 8))
  else 0

/-- A system register of a record is written: the read-only ones that a restore takes from the record too (R251). -/
def Fibre.recordSys (f : Fibre) (n : Nat) (v : Word) : Fibre :=
  match n with
  | 0x002 => { f with idx := nfld v 0 6 }
  | 0x004 => { f with grp := v }
  | 0x005 => { f with rgnh := v &&& ~~~0x1E }
  | _ => f.sysWrite n v

/-- The parking that PKIND asks for: what the fibre is parked on already, a pending register, or nothing, so that its
block runs again and tests its condition. The record has no field for the register: it is the lowest pending general one
when PKIND is written, g0 when none is pending, and a later write of GPEND does not change it (DESIGN CHOICE, log 93). -/
def Fibre.parkAs (f : Fibre) (kind : Nat) : Park :=
  if f.park.kind = kind then f.park
  else if kind = 1 then .reg (((List.range 64).find? (fun n => f.gpend.getLsbD n)).getD 0)
  else .none

/-- A doubleword of a fibre's record is written. -/
def Fibre.recordWrite (f : Fibre) (off : Nat) (v : Word) : Fibre :=
  let i := off / 8
  if i = 0 then { f with next := some (v &&& ~~~0x1F) }
  else if i = 1 then { f with level := levelOf (nfld v 0 2), halted := fld v 2 1 == 1, park := f.parkAs (nfld v 3 3) }
  else if i = 2 then { f with gpend := v }
  else if i = 3 then { f with vpend := v.setWidth 32 }
  else if i < 20 then
    { f with ras := (f.ras ++ List.replicate (i - 3 - f.ras.length) 0).set (i - 4) v }
  else if i < 86 then f.recordSys (recordRegs.getD (i - 20) 0xFFF) v
  else if i < 88 then f
  else if i < 152 then { f with g := vset f.g (i - 88) v }
  else if i < 408 then
    let n := (i - 152) / 8
    { f with v := vset f.v n (setVecDword (vget f.v n 0) ((i - 152) % 8) v) }
  else if i < 412 then
    { f with vtag := (List.range 8).foldl (fun t j => vset t (8 * (i - 408) + j) (fld v (8 * j) 3)) f.vtag }
  else f

/-- The bits of a record's doubleword that are reserved. -/
def recordRsv (off : Nat) : Word :=
  let i := off / 8
  if i = 1 then ~~~0x7F
  else if i = 3 then 0xFFFFFFFF00000000
  else if i = 86 ∨ i = 87 ∨ 412 ≤ i then BitVec.allOnes 64
  else 0

/-! ### Engine records (R218) -/

/-- Insertion by number. -/
def insertRecord (e : Nat × (CopyCmd ⊕ WaitCmd)) : List (Nat × (CopyCmd ⊕ WaitCmd)) → List (Nat × (CopyCmd ⊕ WaitCmd))
  | [] => [e]
  | d :: ds => if e.1 ≤ d.1 then e :: d :: ds else d :: insertRecord e ds

/-- The records of a saved cell in ascending commit order. -/
def CellSt.records (c : CellSt) : List (Nat × (CopyCmd ⊕ WaitCmd)) :=
  (c.copies.map (fun (k : CopyCmd) => (k.id, Sum.inl k)) ++ c.waits.map (fun (w : WaitCmd) => (w.id, Sum.inr w))).foldr insertRecord []

/-- The fields of a record, by doubleword. -/
def State.engineWord (s : State) (rank : Nat) (e : CopyCmd ⊕ WaitCmd) (i : Nat) : Word :=
  match e with
  | .inl k =>
    let init := k.kind == .init
    let fib := ((s.fibre? k.fid).map Fibre.idx).getD 0
    match i with
    | 0 => k.addr
    | 1 => if init then k.expect else BitVec.ofNat 64 k.pos
    | 2 => if init then 0 else BitVec.ofNat 64 k.added
    | _ => BitVec.ofNat 64 (if init then 2 + rank * 256
             else k.sreg * 4 + rank * 256 + k.xl.level.code * 65536 + fib * 2 ^ 18)
  | .inr w =>
    match i with
    | 0 => w.addr
    | 3 => BitVec.ofNat 64 (1 + w.sreg * 4 + rank * 256)
    | _ => 0

/-- DESC, DONEB or CREDB of a record is written. -/
def CellSt.setRecord (c : CellSt) (id i : Nat) (v : Word) : CellSt :=
  let copy := fun (k : CopyCmd) =>
    if k.id ≠ id then k
    else match i with
      | 0 => { k with addr := v }
      | 1 => if k.kind = CopyKind.init then { k with expect := v } else { k with pos := v.toNat }
      | 2 => { k with added := v.toNat }
      | _ => k
  { c with
    copies := c.copies.map copy
    waits := c.waits.map (fun (w : WaitCmd) => if w.id = id ∧ i = 0 then { w with addr := v } else w) }

/-! ### A doubleword of the save area -/

/-- The cell-memory section: member, and the place in its memory or, past it, among its tags. -/
def memSpot (l : Launch) (off : Nat) : Nat × Nat := (off / (pageUp l.cmem + 256), off % (pageUp l.cmem + 256))

/-- What a read of the save area gives; a free value where the spec gives no layout (log 11). -/
def State.areaRead (s : State) (gid : Nat) (g : Group) (l : Launch) (off : Nat) : Word :=
  let y := s.layoutOf gid g l
  let free := Config.freeWord s.tick
  if off < y.recs then free
  else if off < y.regions then
    match (s.recordFibres gid)[(off - y.recs) / 3328]? with
    | some e => s.recordRead e.2 ((off - y.recs) % 3328)
    | none => 0
  else if off < y.mem then free
  else if off < y.matrix then
    let (k, o) := memSpot l (off - y.mem)
    if l.cells ≤ k then 0
    else if o < pageUp l.cmem then leWord (g.mem.bytes (k * 0x100000 + o) 8)
    else leWord ((List.range 8).map (fun j => (g.tags.getD (k * 256 + (o - pageUp l.cmem) + j) 7).setWidth 8))
  else if off < y.sels then
    let o := (off - y.matrix) % 132096
    match (usedMembers g l)[(off - y.matrix) / 132096]? with
    | some k =>
      if o < 131072 then
        let ts := (g.cells.getD k CellSt.init).node.tiles
        let at_ := fun (n : Nat) => (ts.getD n (0 : BitVec 32)).setWidth 64
        at_ (o / 4) ||| (at_ (o / 4 + 1) <<< 32)
      else free
    | none => 0
  else if off < y.engines then
    let k := (off - y.sels) / 64
    if l.cells ≤ k then 0 else vget (g.cells.getD k CellSt.init).evsel ((off - y.sels) % 64 / 8) 0
  else if off < y.bars then
    let k := (off - y.engines) / 1024
    let o := (off - y.engines) % 1024
    match (g.cells.getD k CellSt.init).records[o / 32]? with
    | some e => s.engineWord (o / 32) e.2 (o % 32 / 8)
    | none => 0
  else free

/-- The reserved bits of a doubleword of the save area. -/
def State.areaRsv (s : State) (gid : Nat) (g : Group) (l : Launch) (off : Nat) : Word :=
  let y := s.layoutOf gid g l
  if y.recs ≤ off ∧ off < y.regions then recordRsv ((off - y.recs) % 3328)
  else if y.engines ≤ off ∧ off < y.bars ∧ (off - y.engines) % 32 = 24 then ~~~0xFFFFFF
  else 0

/-- A saved cell replaced. -/
def Group.setSaved (g : Group) (k : Nat) (c : CellSt) : Group := { g with cells := g.cells.put k c }

/-- A write of the save area; where the spec gives no layout nothing changes. -/
def State.areaWrite (s : State) (gid : Nat) (g : Group) (l : Launch) (off : Nat) (v : Word) : State :=
  let y := s.layoutOf gid g l
  let bytes := natLe 8 v.toNat
  if off < y.recs then s
  else if off < y.regions then
    match (s.recordFibres gid)[(off - y.recs) / 3328]? with
    | some e => s.setFibre e.1 (e.2.recordWrite ((off - y.recs) % 3328) v)
    | none => s
  else if off < y.mem then s
  else if off < y.matrix then
    let (k, o) := memSpot l (off - y.mem)
    if l.cells ≤ k then s
    else if o < pageUp l.cmem then s.setGroup gid { g with mem := g.mem.setBytes (k * 0x100000 + o) bytes }
    else
      s.setGroup gid { g with tags := (List.range 8).foldl (fun (d : Dict (BitVec 4)) j =>
        let key := k * 256 + (o - pageUp l.cmem) + j
        let t := fld v (8 * j) 4
        if t = 7 then d.erase key else d.put key t) g.tags }
  else if off < y.sels then
    let o := (off - y.matrix) % 132096
    match (usedMembers g l)[(off - y.matrix) / 132096]? with
    | some k =>
      if o < 131072 then
        let c := g.cells.getD k CellSt.init
        let ts := tilePut (tilePut c.node.tiles (o / 4) (fld v 0 32)) (o / 4 + 1) (fld v 32 32)
        s.setGroup gid (g.setSaved k { c with node := { c.node with tiles := ts } })
      else s
    | none => s
  else if off < y.engines then
    let k := (off - y.sels) / 64
    if l.cells ≤ k then s
    else
      let c := g.cells.getD k CellSt.init
      s.setGroup gid (g.setSaved k { c with evsel := vset c.evsel ((off - y.sels) % 64 / 8) (v &&& 0xFF) })
  else if off < y.bars then
    let k := (off - y.engines) / 1024
    let o := (off - y.engines) % 1024
    let c := g.cells.getD k CellSt.init
    match c.records[o / 32]? with
    | some e => s.setGroup gid (g.setSaved k (c.setRecord e.1 (o % 32 / 8) v))
    | none => s
  else s

/-! ### Debug holds (R254) -/

/-- R254: the owner asks for a hold: the group is pre-empted, when that may be, and not placed again. A group that its die's
sequence is to discard is not pre-empted (R295, R296). -/
def execDebugHold (who gid : Nat) (s : State) : Host.Outcome State Fault Refusal :=
  if !s.owned who || s.drains gid then .next s
  else
    match s.group? gid with
    | none => .next s
    | some g =>
      let s := s.setGroup gid { g with hold := true }
      match s.preempt gid with
      | some t => .next (t.holdNow gid)
      | none => .next (s.stopFetch gid)

/-- A die that answers DIE_DOWN (R295, step 4). -/
def State.dieDown (s : State) (d : Nat) : Bool := !((s.die d).state == .live || (s.die d).state == .draining)

/-- R254: a read or write of a doubleword of a held group's save area. For a group on a die, a fenced die answers DIE_DOWN
(R295), and a die that is being drained answers a read first (R296), with a value that the spec does not give (log 11). -/
def execDebugAccess (gid off : Nat) (write : Bool) (value : Word) (s : State) : Host.Outcome State Fault Refusal :=
  match s.group? gid with
  | none => .next s
  | some g =>
    match g.state, g.area, s.launchOf g with
    | .debug, some _, some l =>
      let off := off / 8 * 8
      if write then
        let bad := value &&& s.areaRsv gid g l off != 0
        let rsv := g.rsv.filter (· != off)
        let s := s.setGroup gid { g with rsv := if bad then rsv ++ [off] else rsv }
        .next (match s.group? gid with
          | some g => s.areaWrite gid g l off value
          | none => s)
      else .next ({ s with tick := s.tick + 1 }.emit (.debugData (s.areaRead gid g l off)))
    | .running, _, _ | .lost, _, _ | .adrift, _, _ =>
      if s.dieDown g.die then .next (s.emit (.dieDown 0x0D))
      else if (s.die g.die).state == .draining && !write then
        .next ({ s with tick := s.tick + 1 }.emit (.debugData (Config.freeWord s.tick)))
      else .next s
    | _, _, _ => .next s

/-- A parked register that is not pending (R254). -/
def Fibre.parkBad (f : Fibre) : Bool :=
  match f.park with
  | .reg n => !f.gpend.getLsbD n
  | _ => false

/-- R254: the hold ends and the group is queued again, unless the save area holds what a resume cannot take. -/
def execDebugRelease (gid : Nat) (s : State) : Host.Outcome State Fault Refusal :=
  match s.group? gid with
  | none => .next s
  | some g =>
    if g.state != .debug || !g.rsv.isEmpty || (s.fibresOf gid).any (fun e => e.2.parkBad) then .next s
    else
      let t := s.setGroup gid { g with state := if g.area.isSome then .saved else .queued }
      .next (State.requeued s (t.enqueueGroup gid g.die))

end Sys2Proof.Machine
end

