-- ==== Sys2Proof/Machine/Dies.lean ====
section
/-! DEFINITION. Dies, links and errors: warm reset, fencing and re-admission, replays, credits, gating, ECC errors and
clock steps (R289, R292 to R298, R307). -/

namespace Sys2Proof.Machine

/-! ### Resets of the module (R302 to R305) -/

/-- Fields of BOOTSTAT (R303). -/
def State.phase (s : State) : Nat := nfld (s.reg 8) 0 4
def State.fails (s : State) : Nat := nfld (s.reg 8) 4 4

/-- BOOTSTAT from its fields. -/
def bootStat (phase fails reason : Nat) (ver : BitVec 32) : Word :=
  BitVec.ofNat 64 (phase + fails * 16 + reason % 256 * 256 + ver.toNat * 65536)

/-- A module reset: all but flash, fuses, the ports' partners and host memory starts again. -/
def State.moduleReset (s : State) : State :=
  { State.reset with
    tick := s.tick, inputs := s.inputs, out := s.out, mem := s.mem.filter (fun e => hbmEnd ≤ e.1)
    ctl := [(0x30, s.flashCfg)], flashGood := s.flashGood, imageVer := s.imageVer, image := s.image
    partners := s.partners, fusedMin := s.fusedMin, flashCfg := s.flashCfg }

/-- Every die of a list is fenced. -/
def State.fenceDies (s : State) (ds : List Nat) : State :=
  ds.foldl (fun s d => s.setDie d { s.die d with state := .fenced }) s

/-- The rates that a port runs at, in GT/s (R127; the lower ones are the family's, log 66). -/
def portRates : List Nat := [64, 32, 16, 8]

/-- The rate at which a port trains with its partner: the highest that both sides share; none without one (R127). -/
def State.trainedRate (s : State) (port : Nat) : Option Nat :=
  portRates.find? (fun r => r ≤ s.partners.getD port 64)

/-- The ports that train, with their rates. -/
def State.trainable (s : State) : List (Nat × Nat) :=
  (List.range 12).filterMap (fun p => (s.trainedRate p).map (fun r => (p, r)))

/-- R304: minimal mode trains stack 0 alone and enables the lowest port that trains. -/
def State.minimalLimits (s : State) : State := { s with ports := s.trainable.take 1, untrained := 0xFFFFFFFE }

/-- R302 to R304: a failed start: the reason is recorded and the module is reset; after a third failure with reasons 1
to 3 no die is brought up, and the limits of minimal mode hold, so that a host can order the recovery. -/
def State.failStart (s : State) (reason : Nat) : State :=
  let fails := min 3 (s.fails + 1)
  let dead := fails = 3 ∧ 1 ≤ reason ∧ reason ≤ 3
  let t := s.moduleReset.setReg 8 (bootStat (if dead then 7 else 0) fails reason 0)
  if dead then (t.fenceDies (List.range 32)).minimalLimits else t

/-- R305: a recovery whose result is known: on success flash takes the image that RIMGADDR and RIMGLEN name and the module
is reset; on a failure RIMGCTL reports it. -/
def State.recover (s : State) (result : Nat) : State :=
  let s := { s with recovery := none }
  let bytes := s.mem.bytes (s.reg 0x18).toNat (s.reg 0x20).toNat
  let ver := Config.imageVersion bytes
  let result := if result = 0 ∧ ver.toNat < s.fusedMin.toNat then 3 else result
  if result = 0 then { s with flashGood := true, imageVer := ver, image := Config.imageDigest bytes }.moduleReset
  else s.setReg 0x28 (BitVec.ofNat 64 (result * 256))

/-! ### Module errors (R307) -/

/-- An MSI-X message with vector MERRVEC to the host on a port. -/
def State.tellHost (s : State) (port : Nat) : State := s.emit (.msix port (nfld (s.reg 0x88) 0 11))

/-- R307: a module error is recorded, or only counted in MORE, and the owning host is told; KIND 1 tells every host that
has an enabled port. An error while the module starts fails the start (R303). -/
def State.moduleError (s : State) (kind place : Nat) : State :=
  if s.phase < 5 then s.failStart 9 else
  let m := s.reg 0x10
  let v := if nfld m 0 4 = 0 then BitVec.ofNat 64 (kind + place % 32 * 16)
           else setFld m 16 16 (BitVec.ofNat 16 (min (nfld m 16 16 + 1) 0xFFFF))
  let s := s.setReg 0x10 v
  if kind = 1 then (s.ports.map Prod.fst).foldl State.tellHost s
  else if 1 ≤ s.owner ∧ s.owner ≤ 12 then s.tellHost (s.owner - 1)
  else s

/-! ### Sequences (R294, R295) -/

/-- Cells of a die (R1). -/
def cellsOfDie (d : Nat) : List Nat := (List.range 64).map (fun i => cellAt d (i % 8) (i / 8))

/-- The partition that gives a die a weight, and that weight. -/
def State.weightOf (s : State) (d : Nat) : Option (Nat × Nat) :=
  ((List.range 8).find? (fun p => s.weight p d != 0)).map (fun p => (p, s.weight p d))

/-- A map with the weight of a die replaced. -/
def State.mapWith (s : State) (p d w : Nat) : Word := setFld (s.reg (0x400 + 8 * p)) (2 * d) 2 (BitVec.ofNat 2 w)

/-- R295, step 1: the weight of a die becomes 0; its former weight is kept. -/
def State.dropWeight (s : State) (d : Nat) : State :=
  match s.weightOf d with
  | some (p, w) => (s.setDie d { s.die d with former := some (p, w) }).setReg (0x400 + 8 * p) (s.mapWith p d 0)
  | none => s

/-- What DIECTL holds after a write (R294); GO is kept in the die's own sequence. -/
def dieCtl (die op : Nat) (save : Bool) : Word := BitVec.ofNat 64 (die + op * 32 + (if save then 256 else 0))

/-- Launches whose groups a die's segment has still to queue. -/
def State.owing (s : State) (d : Nat) : List Nat :=
  (s.launches.filter (fun e => e.2.joining.contains d)).map Prod.fst

/-- R305: a recovery that waits for the sequences of dies goes on when the last has ended. -/
def State.resumeRecovery (s : State) : State :=
  match s.recovery with
  | some r => if (List.range 32).all s.dieIdle then s.recover r else s
  | none => s

/-- R295: the sequence of a die has ended: its lost groups, and those queued on it that were never placed, are
relaunched (R259), and its saved groups move when it is not live. -/
def State.endSequence (s : State) (d : Nat) : State :=
  let s := (s.owing d).foldl (fun s lid => s.joinLaunch lid d) s
  let s := s.setDie d { s.die d with op := 0, save := false }
  (s.loseQueued d).moveSaved.resumeRecovery

/-- R295, step 7, for a die that is READY: its former weight is installed again by R192 and it is LIVE. Where the map of
another partition has given it a weight meanwhile, R192 does not perform the write and the die stays READY (log 52). Its
sequence has ended. -/
def State.admitDie (s : State) (d : Nat) : State :=
  let x := s.die d
  match x.former with
  | none => (s.setDie d { x with state := .live }).endSequence d
  | some (p, w) =>
    if (List.range 8).any (fun q => q != p && s.weight q d != 0) then s.endSequence d
    else ((s.setDie d { x with state := .live, former := none }).installMap p (s.mapWith p d w)).endSequence d

/-! ### Changes of a map (R192) -/

/-- R192: a change of a map is made. -/
def State.applyChange (s : State) : MapChange → State
  | .write p v => s.installMap p v
  | .drop d => s.dropWeight d
  | .restore d => if (s.die d).state = .ready then s.admitDie d else s

/-- R192: a change of a map is made at once, or waits, with acceptance held, while a segment takes a record. -/
def State.changeMap (s : State) (c : MapChange) : State :=
  if s.mapsOpen then s.applyChange c else { s with changes := s.changes ++ [c] }

/-- The oldest change that waits is made. -/
def State.nextChange (s : State) : State :=
  match s.changes with
  | c :: rest => { s with changes := rest }.applyChange c
  | [] => s

/-- R192: when no segment takes a record any more, the changes that have waited are made one after the other, and the hold
is released. -/
def State.settleMaps (s : State) : State :=
  if s.mapsOpen then (List.range s.changes.length).foldl (fun s _ => s.nextChange) s else s

/-- Running groups of a die. -/
def State.resident (s : State) (d : Nat) : List Nat := (s.running d).map (fun e => e.1)

/-- R295, step 2: a group is saved, or halted and discarded when it is not to be saved or its save area does not fit;
none: not now. -/
def State.evict (s : State) (gid : Nat) (save : Bool) : Option State :=
  if !save then s.endGroup gid 8 .lost
  else
    match s.preempt gid with
    | none => none
    | some t => if ((t.group? gid).map (fun g => g.state == .running)).getD false then t.endGroup gid 8 .lost else some t

/-- The groups of a die, one after the other; none: not now. -/
def State.evictAll (s : State) (save : Bool) : List Nat → Option State
  | [] => some s
  | gid :: rest =>
    match s.evict gid save with
    | none => none
    | some t => State.evictAll t save rest

/-- R295, step 1, of a live die: it is DRAINING, and its weight becomes 0 by R192. -/
def State.drain (s : State) (d op : Nat) (save : Bool) : State :=
  (s.setDie d { s.die d with state := .draining, op := op, save := save }).changeMap (.drop d)

/-- The start of step 5 of R295; a re-admission counts as no warm reset (R294). -/
def State.startReset (s : State) (d op : Nat) : State :=
  let x := s.die d
  s.setDie d { x with state := .resetting, op := op, resets := if op = 1 then min 255 (x.resets + 1) else x.resets }

/-- R294: what an OP ordered for a die begins: nothing while the die is DRAINING, RESETTING or TESTING, or in a state that
the OP does not start from. -/
def State.dieOp (s : State) (op die : Nat) (save : Bool) : State :=
  match op, (s.die die).state with
  | _, .draining | _, .resetting | _, .testing => s
  | 1, .live => s.drain die 1 save
  | 1, _ => s.startReset die 1
  | 2, .live => s.drain die 2 save
  | 3, .ready => (s.setDie die { s.die die with op := 3 }).changeMap (.restore die)
  | 3, .fenced | 3, .failed => s.startReset die 3
  | _, _ => s

/-- R294, R295: the owner orders a warm reset. -/
def execWarmReset (who : Nat) (die : Nat) (save : Bool) (s : State) : Host.Outcome State Fault Refusal :=
  .next (if s.owned who && die < 32 then (s.setReg 0x100 (dieCtl die 1 save)).dieOp 1 die save else s)

/-- R294: the owner fences a live die. -/
def execFenceOnly (who : Nat) (die : Nat) (save : Bool) (s : State) : Host.Outcome State Fault Refusal :=
  .next (if s.owned who && die < 32 then (s.setReg 0x100 (dieCtl die 2 save)).dieOp 2 die save else s)

/-- R294: the owner re-admits a die; the event names no SAVE, which keeps its value. -/
def execReadmit (who die : Nat) (s : State) : Host.Outcome State Fault Refusal :=
  let save := fld (s.reg 0x100) 8 1 == 1
  .next (if s.owned who && die < 32 then (s.setReg 0x100 (dieCtl die 3 save)).dieOp 3 die save else s)

/-- R295, steps 2 to 4: once step 1 has ended, the die's groups are saved or discarded, its queues are in the base, and it
is fenced. -/
def execLinkQuiesce (die : Nat) (s : State) : Host.Outcome State Fault Refusal :=
  let x := s.die die
  if x.state != .draining || s.changes.contains (.drop die) then .next s
  else
    match s.evictAll x.save (s.resident die) with
    | none => .next ((s.resident die).foldl State.stopFetch s)
    | some t =>
      let t := t.setDie die { t.die die with state := .fenced }
      .next (if x.op = 2 then t.endSequence die else t)

/-- The cells of a die lose what they hold. -/
def State.resetCells (s : State) (d : Nat) : State :=
  (cellsOfDie d).foldl (fun s c =>
    let s := ((s.cell c).l1.map Prod.fst).foldl (fun s line => s.dropL1 c line) (s.clearCell c)
    { s with cells := s.cells.erase c }) s

/-- R295, step 5: the reset of a fenced die begins; it and the training of its link end. Step 7: a die that its sequence
has brought to READY is to be admitted by R192. -/
def execDieResetDone (die : Nat) (s : State) : Host.Outcome State Fault Refusal :=
  let x := s.die die
  match x.state with
  | .fenced => if x.op = 0 then .next s else .next (s.startReset die x.op)
  | .ready =>
    if x.op = 0 ∨ s.changes.contains (.restore die) = true then .next s else .next (s.changeMap (.restore die))
  | .resetting => .next ((s.resetCells die).setDie die { x with state := .testing, linkUp := true, replays := 0, replaysIn := 0 })
  | _ => .next s

/-- R295, step 6: self-test ends; code 0 has passed: the die is READY. The end waits while the die's weight is still to
become 0, after a lost link. -/
def execBistDone (die code : Nat) (s : State) : Host.Outcome State Fault Refusal :=
  let x := s.die die
  if x.state != .testing then .next s
  else if s.changes.contains (.drop die) then .next (s.requeue (.bistDone die code))
  else if code % 256 = 0 then .next (s.setDie die { x with state := .ready, bist := 0 })
  else .next ((s.setDie die { x with state := .failed, bist := code % 256 }).endSequence die)

/-! ### Links (R289, R292) -/

/-- What the base had not accepted of the stores of a die's groups is lost (R295). -/
def State.loseBeats (s : State) (fids : List Nat) : State :=
  { s with accesses := s.accesses.mapV (fun (a : Access) =>
      if fids.contains a.fid ∧ a.released = true then
        { a with pieces := a.pieces.map (fun (p : Piece) => if p.stage = Stage.held then { p with stage := .done } else p) }
      else a) }

/-- R289, R295: the 16th replay of a beat has failed: the die is fenced with its groups discarded, and its weight becomes 0
by R192. A link that is down has none. -/
def execLinkDown (die : Nat) (lost : Bool) (s : State) : Host.Outcome State Fault Refusal :=
  let x := s.die die
  if (x.replays < 16 && x.replaysIn < 16) || x.state == .resetting then .next s
  else
    let gids := s.resident die
    let fids := (gids.flatMap s.fibresOf).map Prod.fst
    let s := if lost then s.loseBeats fids else s
    let s := gids.foldl (fun s g => s.discardGroup g 8 .lost) s
    let s := s.setDie die { s.die die with state := .fenced, op := 1, save := false, linkUp := false, linkLoss := x.linkLoss || lost }
    .next ((s.changeMap (.drop die)).moduleError 2 die)

/-- A die with another count of failed replays of the beat that one of its two directions replays. -/
def Die.setReplays (x : Die) (into : Bool) (n : Nat) : Die :=
  if into then { x with replaysIn := n } else { x with replays := n }

/-- R289: a beat of one direction is replayed; the free choices are the direction and whether it arrives whole this time
(log 6). When the 16th replay fails the link goes down next. -/
def execBeatReplay (die : Nat) (s : State) : Host.Outcome State Fault Refusal :=
  let x := s.die die
  if 16 ≤ x.replays || 16 ≤ x.replaysIn || !x.linkUp || 32 ≤ die then .next s
  else
    let (into, s) := s.toss
    let (ok, s) := s.toss
    let n := if ok then 0 else (if into then x.replaysIn else x.replays) + 1
    let s := countSector die 9 1 (s.setDie die (x.setReplays into n))
    if n < 16 then .next s
    else
      let (lost, s) := s.toss
      .next { s with turn := some (.ev (.linkDown die lost)) }

/-- The credits that the sender of a channel holds; all of the receiver's buffers to begin with (R291, log 21). Channels 0
to 7 carry the requests of partitions 0 to 7, 8 to 15 the replies to them, and 16 is the system's. -/
def State.credit (s : State) (link chan : Nat) : Credit :=
  s.credits.getD (32 * link + chan) { have_ := Config.channelBuffers link chan, auditedAt := 0, regrants := 0, lost := 0 }

/-- The sector at the sending end of a link: 0 to 31 are the base links from their dies, 32 to 63 those to their dies, and
64 + 4s + d the base-mesh link that leaves sector s in direction d (R291, log 21). -/
def linkSector (link : Nat) : Nat := if link < 64 then link % 32 else (link - 64) / 4 % 32

/-- The links: the base links of 32 dies in both directions, and the base-mesh links that the 8 by 4 sectors have, east,
west, north and south in this order of directions (R288, log 21). -/
def isLink (link : Nat) : Bool :=
  let sec := (link - 64) / 4
  link < 64 || (sec < 32 && (match (link - 64) % 4 with
    | 0 => sec % 8 < 7
    | 1 => 0 < sec % 8
    | 2 => sec / 8 < 3
    | _ => 0 < sec / 8))

/-- R292: a credit return arrives; with a bad CRC it is dropped, and its credits are lost until the audit. -/
def execCreditReturn (link chan n : Nat) (crcOk : Bool) (s : State) : Host.Outcome State Fault Refusal :=
  if isLink link && chan < 17 then
    let c := s.credit link chan
    let c := if crcOk then { c with have_ := c.have_ + n } else { c with lost := c.lost + n }
    .next { s with credits := s.credits.put (32 * link + chan) c }
  else .next s

/-- R292: the audit of a channel, 1 ms after the last. What the sender still holds is what returned to it less what its
beats have taken, which is free; with no beat of it on the way the receiver has that many buffers free and those whose
returns were dropped (log 21). -/
def execCreditAudit (link chan : Nat) (s : State) : Host.Outcome State Fault Refusal :=
  let c := s.credit link chan
  if s.time < c.auditedAt + msUnits || 17 ≤ chan || !isLink link then .next s
  else
    let old := c.have_ - Config.takenCredits s.tick
    let b := old + c.lost
    let c' : Credit := { have_ := b, auditedAt := s.time, regrants := c.regrants + (if old < b then 1 else 0), lost := 0 }
    let s := { s with tick := s.tick + 1, credits := s.credits.put (32 * link + chan) c' }
    .next (if old < b then countSector (linkSector link) 8 1 s else s)

/-! ### Gating (R293) -/

/-- A cell belongs to a placed group. -/
def State.placed (s : State) (cell : Nat) : Bool :=
  (s.running (dieOfCell cell)).any (fun e => covers e.2.1 e.2.2 (cellX cell) (cellY cell))

/-- R293: a cell of no group that has been idle for 10 µs is gated and loses what it holds. -/
def execGateTimer (cell : Nat) (s : State) : Host.Outcome State Fault Refusal :=
  let c := s.cell cell
  if fld (s.reg 0x48) 0 1 = 0 ∨ c.gated = true ∨ s.placed cell = true ∨ s.time < c.idleSince + 10 * usUnits then .next s
  else
    let s := (c.l1.map Prod.fst).foldl (fun s line => s.dropL1 cell line) (s.clearCell cell)
    .next (s.setCell cell { CellSt.init with gated := true, idleSince := c.idleSince })

/-- R293: a gated cell wakes for a message of the dispatcher, which has placed a group on it; a message that comes to a cell
of a fenced die is answered DIE_DOWN (R295). -/
def execCellWake (cell : Nat) (s : State) : Host.Outcome State Fault Refusal :=
  let c := s.cell cell
  if s.dieDown (dieOfCell cell) then .next (s.emit (.dieDown 0x0D))
  else if c.gated && s.placed cell then .next (s.setCell cell { c with gated := false, idleSince := s.time }) else .next s

/-! ### ECC errors (R297) -/

/-- A corrected error of a die is counted in CEC. -/
def State.countCec (s : State) (d : Nat) : State :=
  let x := s.die d
  s.setDie d { x with cec := min 0xFFFFFFFF (x.cec + 1) }

/-- The running group that holds a cell. -/
def State.holder (s : State) (cell : Nat) : Option Nat :=
  ((s.running (dieOfCell cell)).find? (fun e => covers e.2.1 e.2.2 (cellX cell) (cellY cell))).map (fun e => e.1)

/-- A number joins a list once. -/
def addOnce (l : List Nat) (n : Nat) : List Nat := if l.contains n then l else l ++ [n]

/-- R297: a line of host memory is marked while the last-level cache holds it. `loc`: for cell memory and HBM an
address, for an L1 or instruction cache the cell and, from bit 20 on, the line, else a cell or sector. -/
def execUncorrectableError (place loc : Nat) (s : State) : Host.Outcome State Fault Refusal :=
  match place with
  | 0 => if loc < 0x80000000 then .next { s with badChunks := addOnce s.badChunks (loc / 64) } else .next s
  | 1 =>
    if hbmEnd ≤ loc then
      if (s.llc.get? (lineOf loc)).isSome then
        .next ({ s with badLines := addOnce s.badLines (lineOf loc) }.moduleError 3 (cachePlace (lineOf loc)).1)
      else .next s
    else .next ({ s with badLines := addOnce s.badLines (lineOf loc) }.moduleError 3 (sectorOf loc))
  | 2 =>
    let cell := loc % 0x100000
    let line := loc / 0x100000
    let s := s.dropL1 cell line
    let c := s.cell cell
    .next ((s.setCell cell { c with icache := c.icache.filter (fun e => e.1 / 64 != line) }).countCec (dieOfCell cell))
  | 3 =>
    match s.holder loc with
    | some gid =>
      (match s.endGroup gid 8 .lost with
        | some t => .next (t.relaunch gid)
        | none => .next (s.requeue (.uncorrectableError 3 loc)))
    | none => .next s
  | 4 => .next ({ s with closed := true }.moduleError 1 loc)
  | _ => .next s

/-- R297: a corrected error is counted: of a die, of the base, of HBM. -/
def execCorrectedError (place loc : Nat) (s : State) : Host.Outcome State Fault Refusal :=
  match place with
  | 0 => if loc < 32 then .next (s.countCec loc) else .next s
  | 1 => .next (countSector loc 6 1 s)
  | 2 => .next (countSector loc 7 1 s)
  | _ => .next s

/-! ### Clock steps (R298) -/

/-- R298: thermal protection lowers the clock, and says so. -/
def execThermalThrottle (step sector : Nat) (s : State) : Host.Outcome State Fault Refusal :=
  if step ≤ 2 ∧ nfld (s.reg 0x40) 0 2 < step then
    .next ((s.setReg 0x40 (BitVec.ofNat 64 step)).moduleError 4 sector)
  else .next s

/-- R298, R299: the owner sets the clock step; 3 acts as 2. -/
def execClkstepWrite (who : Nat) (value : Word) (s : State) : Host.Outcome State Fault Refusal :=
  if s.owned who then .next (s.setReg 0x40 (BitVec.ofNat 64 (min (nfld value 0 2) 2))) else .next s

end Sys2Proof.Machine
end

