-- ==== Sys2Proof/Machine/Control.lean ====
section
/-! DEFINITION. The Yarilven controller: its registers, ownership, the start sequence and recovery (R113, R197, R298 to
R305, R307, R308). -/

namespace Sys2Proof.Machine

/-! ### Registers (R299) -/

/-- Milliseconds left of the owner's lease (R300). -/
def State.lease (s : State) : Nat :=
  if nfld (s.reg 0) 16 16 = 0 then 0 else 1000 - (s.time - s.leaseAt) / msUnits

/-- DIESTATd (R294). -/
def State.dieStat (s : State) (d : Nat) : Word :=
  let x := s.die d
  let code := match x.state with
    | .live => 0
    | .draining => 1
    | .fenced => 2
    | .resetting => 3
    | .testing => 4
    | .ready => 5
    | .failed => 6
  BitVec.ofNat 64 (code + (if x.linkLoss then 8 else 0) + x.resets * 256 + x.bist * 65536 + x.cec * 2 ^ 32)

/-- What a read of a controller register gives any master (R299). GO of DIECTL reads 1 while a sequence of the die runs and
has not brought it to READY (R294). -/
def State.regRead (s : State) (off : Nat) : Word :=
  if off % 8 ≠ 0 then 0
  else if off = 0 then setFld (s.reg 0) 16 16 (BitVec.ofNat 16 s.lease)
  else if off = 0x100 then
    let d := nfld (s.reg 0x100) 0 5
    setFld (s.reg 0x100) 63 1 (BitVec.ofBool (!s.dieIdle d && (s.die d).state != .ready))
  else if 0x108 ≤ off ∧ off < 0x208 then s.dieStat ((off - 0x108) / 8)
  else s.reg off

/-- The registers that a plain write reaches: the bits of their fields, and the least and greatest legal value (R299). -/
def regShape (off : Nat) : Option (Word × Nat × Nat) :=
  let all := 2 ^ 64 - 1
  if off % 8 ≠ 0 then none
  else if off = 0x18 then some (~~~7, 0, all)
  else if off = 0x20 then some (BitVec.allOnes 64, 0, 0x2000000)
  else if off = 0x48 then some (1, 0, 1)
  else if off = 0x50 then some (0xFFFFFFFF, 0, all)
  else if off = 0x60 then some (0x1F, 6, 16)
  else if off = 0x68 then some (7, 0, 7)
  else if off = 0x70 ∨ off = 0x78 then some (BitVec.allOnes 64, 0, all)
  else if off = 0x80 then some (0x1FF, 0, 256)
  else if off = 0x88 then some (0x7FF, 0, all)
  else if off = 0x100 then some (0x1FF, 0, all)
  else if off = 0x280 then some (0x1FFFFFFFFF, 0, all)
  else if 0x440 ≤ off ∧ off < 0x480 then some (~~~0x1F, 0, all)
  else if 0x2000 ≤ off ∧ off < 0x3000 then some (0xFF, 0, all)
  else if 0x4000 ≤ off ∧ off < 0x5000 then some (BitVec.allOnes 64, 0, all)
  else none

/-- R299: the owner writes a register: bits outside its fields are dropped, then the value is clamped. LINKLOSS of a
DIESTATd is cleared by a 1 (R294). A shadow store that is enabled takes its 80 MiB from the cache (R288). -/
def execRegisterWrite (who off : Nat) (value : Word) (s : State) : Host.Outcome State Fault Refusal :=
  if !s.owned who then .next s
  else
    match regShape off with
    | some (mask, lo, hi) =>
      let t := s.setReg off (BitVec.ofNat 64 (min (max (value &&& mask).toNat lo) hi))
      .next (if off = 0x50 then t.trimSlices else t)
    | none =>
      if 0x108 ≤ off ∧ off < 0x208 ∧ off % 8 = 0 ∧ fld value 3 1 = 1 then
        let d := (off - 0x108) / 8
        .next (s.setDie d { s.die d with linkLoss := false })
      else .next s

/-- R113, R252: the owner sets T and P for the next start, kept in flash. -/
def execStartcfgWrite (who : Nat) (value : Word) (s : State) : Host.Outcome State Fault Refusal :=
  if s.owned who then
    let v := BitVec.ofNat 64 (min (nfld value 0 5) 16 + min (nfld value 8 5) 16 * 256)
    .next { s.setReg 0x30 v with flashCfg := v }
  else .next s

/-- R307: the owner clears KIND by writing 1s; MORE and WHERE go with it. -/
def execModerrClear (who : Nat) (value : Word) (s : State) : Host.Outcome State Fault Refusal :=
  if s.owned who then
    let m := s.reg 0x10
    let kind := fld m 0 4 &&& ~~~(fld value 0 4)
    .next (s.setReg 0x10 (if kind = 0 then 0 else setFld m 0 4 kind))
  else .next s

/-! ### Ownership (R300, R301) -/

/-- A claim succeeds. -/
def State.claimed (s : State) (who handto : Nat) : State :=
  { s.setReg 0 (BitVec.ofNat 64 (who + handto * 256 + 1000 * 65536)) with leaseAt := s.time }

/-- R300: a write to CLAIM. -/
def execClaim (who : Nat) (value : Word) (s : State) : Host.Outcome State Fault Refusal :=
  let own := nfld value 0 5
  let handto := nfld (s.reg 0) 8 5
  if !s.reaches who then .next s
  else if own = who ∧ (s.owner = 0 ∨ s.lease = 0) then .next (s.claimed who 0)
  else if s.owner = who ∧ own = who then .next (s.claimed who (nfld value 8 5))
  else if s.owner = who ∧ own = 0 then .next (s.setReg 0 (s.reg 0 &&& 0xFFFF0000))
  else if handto = who ∧ own = who then .next (s.claimed who 0)
  else .next s

/-- R301: the lease has run out. -/
def execLeaseExpiry (s : State) : Host.Outcome State Fault Refusal :=
  if s.leaseAt + 1000 * msUnits ≤ s.time then .next (s.setReg 0 (setFld (s.reg 0) 16 16 0)) else .next s

/-! ### Start and recovery (R302 to R305) -/

/-- BOOTSTAT with another phase. -/
def State.setPhase (s : State) (p : Nat) : State := s.setReg 8 (setFld (s.reg 8) 0 4 (BitVec.ofNat 4 p))

/-- The bytes of a flit at a rate (R127). -/
def flitBytes (rate : Nat) : Nat := if rate = 64 then 256 else 68

/-- R304: a start in minimal mode; `ok`: die 0 has passed its self-test. Only stack 0 is trained, and only the lowest
port that trains is enabled. -/
def State.minimalStart (s : State) (ok : Bool) : State :=
  let s := s.setReg 8 (bootStat (if ok then 6 else 7) 3 (nfld (s.reg 8) 8 8) s.imageVer)
  let s := { s.minimalLimits with runImage := s.image }
  if ok then
    let s := ((s.fenceDies ((List.range 32).drop 1)).setReg 0x40 2).setReg 0x58 s.flashCfg
    ((List.range 8).foldl (fun (s : State) p => s.setReg (0x400 + 8 * p) 0) { s with events := [] }).setReg 0x400 1
  else s.fenceDies (List.range 32)

/-- R302, phase 3: self-test of every die; those that fail stay fenced. Which pass is a free choice (log 22). -/
def State.startDies (s : State) : State :=
  (List.range 32).foldl (fun s d =>
    let (pass, s) := s.toss
    if pass then s
    else s.setDie d { s.die d with state := .fenced, bist := max 1 (Config.freeByte s.tick).toNat }) s

/-- R302: the next phase of the start ends: outcome 0, or a REASON of R303 from 1 to 9 that fails it. -/
def execModuleStart (outcome : Nat) (s : State) : Host.Outcome State Fault Refusal :=
  let p := s.phase
  if 5 ≤ p ∨ 9 < outcome then .next s
  else if s.fails = 3 ∧ p = 0 then .next (s.minimalStart (outcome == 0))
  else if outcome ≠ 0 then .next (s.failStart outcome)
  else
    match p with
    | 0 => .next (s.setPhase 1)
    | 1 =>
      if !s.flashGood then .next (s.failStart 2)
      else if s.imageVer.toNat < s.fusedMin.toNat then .next (s.failStart 3)
      else .next { s.setReg 8 (setFld (setFld (s.reg 8) 0 4 2) 16 32 s.imageVer) with runImage := s.image }
    | 2 => .next ({ s.setReg 0x58 s.flashCfg with events := [] }.setPhase 3)
    | 3 =>
      let t := s.startDies
      if (List.range 32).all (fun d => (t.die d).state != .live) then .next (t.failStart 6) else .next (t.setPhase 4)
    | _ =>
      if s.trainable.isEmpty then .next (s.failStart 7) else
      let m := Config.minVersion s.runImage
      .next ({ s.setReg 8 (setFld (s.reg 8) 4 4 0) with
        ports := s.trainable
        fusedMin := if s.fusedMin.toNat < m.toNat then m else s.fusedMin }.setPhase 5)

/-- R302: the watchdog of 10 s expires before READY. -/
def execStartWatchdog (s : State) : Host.Outcome State Fault Refusal :=
  if s.phase < 5 ∧ s.startedAt + 10000 * msUnits ≤ s.time then .next (s.failStart 8) else .next s

/-- R305: the owner orders a recovery; `result` says how reading and verifying the image comes out. A GO written while a
DIECTL sequence runs is held until it ends, whoever owns the module then (R301); a second GO meanwhile is ignored. -/
def execRecoveryGo (who result : Nat) (s : State) : Host.Outcome State Fault Refusal :=
  if !s.owned who ∨ 3 < result ∨ s.recovery.isSome then .next s
  else
    .next ({ s with recovery := some result }.setReg 0x28 1).resumeRecovery

end Sys2Proof.Machine
end

