-- ==== Sys2Proof/Machine/Convert.lean ====
section
/-! DEFINITION. The conversion instructions `cvt.n`, `cvt.w` and `bscale` (R270, R284 to R286). -/

namespace Sys2Proof.Machine

/-- R270: every lower-indexed conversion of the block that rounds by SR has fired or never will, and no
older block in flight holds one that has or may. -/
def Acting.srTurn (a : Acting) : Bool :=
  a.fr.live.all (fun j => a.k ≤ j || a.fr.fired.contains j || !((a.fr.instr j).map isSr).getD false)
    && (a.f.olderThan a.fr.seq).all (fun fr => fr.fetched &&
      (List.range fr.words.length).all (fun j => !((fr.instr j).map isSr).getD false
        || !(fr.fired.contains j || fr.live.contains j)))

/-- The state that the conversion at K of the block reads (R270). -/
def Acting.srState (a : Acting) : Word :=
  match a.fr.srng.foldl (fun best e =>
      if e.1 < a.k then
        match best with
        | some b => if b.1 < e.1 then some e else best
        | none => some e
      else best) (none : Option (Nat × Word)) with
  | some e => e.2
  | none => a.f.srng

/-- R284. -/
def execCvtN (pr : Pred) (tag : BitVec 3) (rm : NRound) (sat : Bool) (t0 t1 : Target) (s : State) :
    Host.Outcome State Fault Refusal :=
  let i := Instr.cvtN pr tag rm sat t0 t1
  if rm = .sr then
    match s.acting i with
    | none => .fault .noActingBlock
    | some a =>
      if a.canFire i then
        match a.fr.opL a.k with
        | .vec v src =>
          if a.srTurn then
            let m := (cvtLanes src.toNat + 3) / 4
            let ws := srWords m a.srState
            let fr := { a.fr with srng := a.fr.srng ++ [(a.k, ws.getD (m - 1) 0)] }
            .next (a.commit s (fr.finish a.k i (.ok (.vec (cvtNarrow tag.toNat .sr sat ws v src.toNat) tag))))
          else .next s
        | t => .next (a.commit s (a.fr.finish a.k i (.ok t)))
      else .next s
  else
    dataflow i (fun a => .ok (.vec (cvtNarrow tag.toNat rm sat [] (a.fr.opL a.k).vector (a.fr.opL a.k).tag.toNat) tag)) s

/-- R285. -/
def execCvtW (pr : Pred) (tag : BitVec 3) (t0 t1 : Target) (s : State) : Host.Outcome State Fault Refusal :=
  dataflow (.cvtW pr tag t0 t1)
    (fun a => .ok (.vec (cvtWiden tag.toNat (a.fr.opL a.k).vector (a.fr.opL a.k).tag.toNat) tag)) s

/-- R286. -/
def execBscale (pr : Pred) (t0 t1 : Target) (s : State) : Host.Outcome State Fault Refusal :=
  dataflow (.bscale pr t0 t1) (fun a => .ok (.vec (blockQuantize (a.fr.opL a.k).vector) 4)) s

end Sys2Proof.Machine
end

