-- ==== Sys2Proof/Machine/Dataflow.lean ====
section
/-! DEFINITION. Register access and the making and moving of tokens (R45 to R51). -/

namespace Sys2Proof.Machine

/-- A read that has found its source: it fires with that token, waits, or parks its fibre (R31, R45); in a
block whose effects stand already it waits in its frame, since parking changes no visible state (log 59). -/
def readFrom (i : Instr) (a : Acting) (src : Source12) (file : Token) (reg : Nat) (s : State) : State :=
  match src with
  | .tok t => a.commit s (a.fr.finish a.k i (.ok t))
  | .file => a.commit s (a.fr.finish a.k i (.ok file))
  | .wait => s
  | .park => if s.effectStands a.fid a.fr then s else s.parkAt a.fid a.fr.seq a.fr.addr (.reg reg)

/-- R19: the write at K of register `reg` that another writer of the block, an ILL word included (R44), has
already written. A `g62` that a branch of the block gave (R61) is no second write: that block has recorded BLK_FMT at
fetch, and the first token stays. -/
def Frame.rewritten (fr : Frame) (k reg : Nat) (writes : Nat → Option Nat) : Frame :=
  let others := fr.fired.filter (fun j => j != k && writes j == some reg)
  if others.isEmpty then fr else fr.fault (pairAt k others) .blkFmt 0 .afterFetch

/-- A token enters the block's value of general register `reg` (R46). -/
def Frame.putG (fr : Frame) (k reg : Nat) (t : Token) : Frame :=
  if (fr.gout.get? reg).isSome then
    fr.rewritten k reg fr.writeG
  else { fr with gout := fr.gout.put reg t }

/-- A token enters the block's value of vector register `reg` (R46). -/
def Frame.putV (fr : Frame) (k reg : Nat) (t : Token) : Frame :=
  if (fr.vout.get? reg).isSome then
    fr.rewritten k reg fr.writeV
  else { fr with vout := fr.vout.put reg t }

/-- R48: never fires. -/
def execNop (s : State) : Host.Outcome State Fault Refusal := .next s

/-- R40: the third operand slot of the word before it; it never fires itself. -/
def execXop (s : State) : Host.Outcome State Fault Refusal := .next s

/-- R45, R12: the value from before the block. -/
def execRead (pr : Pred) (reg : BitVec 6) (t0 t1 : Target) (s : State) :
    Host.Outcome State Fault Refusal :=
  match s.acting (.read pr reg t0 t1) with
  | none => .fault .noActingBlock
  | some a =>
    if a.canFire (.read pr reg t0 t1) then
      .next (readFrom (.read pr reg t0 t1) a
        (sourceG (a.f.olderThan a.fr.seq) reg.toNat (a.f.gpend.getLsbD reg.toNat))
        (.val (vget a.f.g reg.toNat 0)) reg.toNat s)
    else .next s

/-- R45, R12: the vector with the tag held with the register. -/
def execVread (pr : Pred) (reg : BitVec 5) (t0 t1 : Target) (s : State) :
    Host.Outcome State Fault Refusal :=
  match s.acting (.vread pr reg t0 t1) with
  | none => .fault .noActingBlock
  | some a =>
    if a.canFire (.vread pr reg t0 t1) then
      .next (readFrom (.vread pr reg t0 t1) a
        (sourceV (a.f.olderThan a.fr.seq) reg.toNat (a.f.vpend.getLsbD reg.toNat))
        (.vec (vget a.f.v reg.toNat 0) (vget a.f.vtag reg.toNat 7)) (64 + reg.toNat) s)
    else .next s

/-- R46. -/
def execWrite (pr : Pred) (reg : BitVec 6) (s : State) : Host.Outcome State Fault Refusal :=
  match s.acting (.write pr reg) with
  | none => .fault .noActingBlock
  | some a =>
    if a.canFire (.write pr reg) then
      .next (a.commit s ((a.fr.fire a.k).putG a.k reg.toNat (a.fr.opL a.k)))
    else .next s

/-- R46: the tag stays with the register. -/
def execVwrite (pr : Pred) (reg : BitVec 5) (s : State) : Host.Outcome State Fault Refusal :=
  match s.acting (.vwrite pr reg) with
  | none => .fault .noActingBlock
  | some a =>
    if a.canFire (.vwrite pr reg) then
      .next (a.commit s ((a.fr.fire a.k).putV a.k reg.toNat (a.fr.opL a.k)))
    else .next s

/-- R49: the token unchanged. -/
def execMov (pr : Pred) (t0 t1 : Target) (s : State) : Host.Outcome State Fault Refusal :=
  dataflow (.mov pr t0 t1) (fun a => .ok (a.fr.opL a.k)) s

/-- R49. -/
def execMov3 (pr : Pred) (t0 t1 t2 : Target) (s : State) : Host.Outcome State Fault Refusal :=
  dataflow (.mov3 pr t0 t1 t2) (fun a => .ok (a.fr.opL a.k)) s

/-- R49. -/
def execMov4 (pr : Pred) (t0 t1 t2 t3 : Target) (s : State) : Host.Outcome State Fault Refusal :=
  dataflow (.mov4 pr t0 t1 t2 t3) (fun a => .ok (a.fr.opL a.k)) s

/-- R50. -/
def execGenc (pr : Pred) (imm : BitVec 36) (t0 t1 : Target) (s : State) :
    Host.Outcome State Fault Refusal :=
  dataflow (.genc pr imm t0 t1) (fun _ => .ok (.val (imm.signExtend 64))) s

/-- R50. -/
def execGenh (pr : Pred) (imm : BitVec 36) (t0 t1 : Target) (s : State) :
    Host.Outcome State Fault Refusal :=
  unary (.genh pr imm t0 t1) (fun a => (imm.setWidth 64 <<< 28) ||| (a &&& 0x0FFFFFFF)) s

/-- R51. -/
def execNull (pr : Pred) (t0 t1 t2 t3 : Target) (s : State) : Host.Outcome State Fault Refusal :=
  dataflow (.null pr t0 t1 t2 t3) (fun _ => .ok .null) s

end Sys2Proof.Machine
end

