-- ==== Sys2Proof/Machine/Float.lean ====
section
/-! DEFINITION. Floating-point instructions (R80 to R92). The environment is s.fcsr as every older block
leaves it (R81): a younger block is not fetched while an older one holds an `swr`. -/

namespace Sys2Proof.Machine

/-- A float operation of one, two or three operands on every element of its shape. -/
def fp1 (i : Instr) (ty : Ty) (f : FEnv → Nat → Nat × FFlags) (s : State) :
    Host.Outcome State Fault Refusal :=
  dataflow i (fun a => fpMap ty (fun xs => f (fenv a.f.fcsr) (xs.getD 0 0)) [a.fr.opL a.k]) s
def fp2 (i : Instr) (ty : Ty) (f : FEnv → Nat → Nat → Nat × FFlags) (s : State) :
    Host.Outcome State Fault Refusal :=
  dataflow i (fun a => fpMap ty (fun xs => f (fenv a.f.fcsr) (xs.getD 0 0) (xs.getD 1 0))
    [a.fr.opL a.k, a.fr.opR a.k]) s
def fp3 (i : Instr) (ty : Ty) (f : FEnv → Nat → Nat → Nat → Nat × FFlags) (s : State) :
    Host.Outcome State Fault Refusal :=
  dataflow i (fun a =>
    fpMap ty (fun xs => f (fenv a.f.fcsr) (xs.getD 0 0) (xs.getD 1 0) (xs.getD 2 0))
      [a.fr.opL a.k, a.fr.opR a.k, a.fr.opX a.k]) s

/-- R89: a comparison of two scalars. -/
def fcompare (i : Instr) (dbl : Bool) (r : FRel) (s : State) : Host.Outcome State Fault Refusal :=
  dataflow i (fun a =>
    let F := dblFmt dbl
    let c := fcmpBits F r (fenv a.f.fcsr) (scalarBits F (a.fr.opL a.k)) (scalarBits F (a.fr.opR a.k))
    { tok := predTok c.1, flags := c.2, fault := none }) s

/-- R91, R92: the converted token value and the flags. -/
def convert (dst src : CvtTy) (v : FEnv) (w : Word) : Word × FFlags :=
  match cvtFmt src, cvtFmt dst with
  | some F, some G =>
    let r := fcvtFF F G v (w.toNat % 2 ^ F.bits)
    (BitVec.ofNat 64 r.1, r.2)
  | some F, none =>
    let lim := cvtLimits dst
    let r := fcvtFI F lim.1 lim.2 v (w.toNat % 2 ^ F.bits)
    (BitVec.ofInt 64 r.1, r.2)
  | none, some G =>
    let r := fcvtIF G v (cvtInt src w)
    (BitVec.ofNat 64 r.1, r.2)
  | none, none =>
    let lim := cvtLimits dst
    let r := clampTo lim.1 lim.2 (cvtInt src w)
    (BitVec.ofInt 64 r.1, if r.2 then flagNV else 0)

/-! ### The instructions -/

/-- R87. -/
def execFadd (pr : Pred) (ty : Ty) (t0 t1 : Target) (s : State) :
    Host.Outcome State Fault Refusal :=
  fp2 (.fadd pr ty t0 t1) ty (faddBits (tyFmt ty)) s

/-- R87. -/
def execFsub (pr : Pred) (ty : Ty) (t0 t1 : Target) (s : State) :
    Host.Outcome State Fault Refusal :=
  fp2 (.fsub pr ty t0 t1) ty (fsubBits (tyFmt ty)) s

/-- R87. -/
def execFmul (pr : Pred) (ty : Ty) (t0 t1 : Target) (s : State) :
    Host.Outcome State Fault Refusal :=
  fp2 (.fmul pr ty t0 t1) ty (fmulBits (tyFmt ty)) s

/-- R87. -/
def execFdiv (pr : Pred) (ty : Ty) (t0 t1 : Target) (s : State) :
    Host.Outcome State Fault Refusal :=
  fp2 (.fdiv pr ty t0 t1) ty (fdivBits (tyFmt ty)) s

/-- R88. -/
def execFmin (pr : Pred) (ty : Ty) (t0 t1 : Target) (s : State) :
    Host.Outcome State Fault Refusal :=
  fp2 (.fmin pr ty t0 t1) ty (fminmaxBits (tyFmt ty) false) s

/-- R88. -/
def execFmax (pr : Pred) (ty : Ty) (t0 t1 : Target) (s : State) :
    Host.Outcome State Fault Refusal :=
  fp2 (.fmax pr ty t0 t1) ty (fminmaxBits (tyFmt ty) true) s

/-- R87. -/
def execFfma (pr : Pred) (ty : Ty) (t0 t1 : Target) (s : State) :
    Host.Outcome State Fault Refusal :=
  fp3 (.ffma pr ty t0 t1) ty (ffmaBits (tyFmt ty)) s

/-- R87. -/
def execFsqrt (pr : Pred) (ty : Ty) (t0 t1 : Target) (s : State) :
    Host.Outcome State Fault Refusal :=
  fp1 (.fsqrt pr ty t0 t1) ty (fsqrtBits (tyFmt ty)) s

/-- R87. -/
def execFabs (pr : Pred) (ty : Ty) (t0 t1 : Target) (s : State) :
    Host.Outcome State Fault Refusal :=
  fp1 (.fabs pr ty t0 t1) ty (fun _ a => (fabsBits (tyFmt ty) a, 0)) s

/-- R87. -/
def execFneg (pr : Pred) (ty : Ty) (t0 t1 : Target) (s : State) :
    Host.Outcome State Fault Refusal :=
  fp1 (.fneg pr ty t0 t1) ty (fun _ a => (fnegBits (tyFmt ty) a, 0)) s

/-- R87. -/
def execFsgnj (pr : Pred) (ty : Ty) (t0 t1 : Target) (s : State) :
    Host.Outcome State Fault Refusal :=
  fp2 (.fsgnj pr ty t0 t1) ty (fun _ a b => (fsgnjBits (tyFmt ty) a b, 0)) s

/-- R89. -/
def execFeq (pr : Pred) (dbl : Bool) (t0 t1 : Target) (s : State) :
    Host.Outcome State Fault Refusal :=
  fcompare (.feq pr dbl t0 t1) dbl .eq s

/-- R89. -/
def execFlt (pr : Pred) (dbl : Bool) (t0 t1 : Target) (s : State) :
    Host.Outcome State Fault Refusal :=
  fcompare (.flt pr dbl t0 t1) dbl .lt s

/-- R89. -/
def execFle (pr : Pred) (dbl : Bool) (t0 t1 : Target) (s : State) :
    Host.Outcome State Fault Refusal :=
  fcompare (.fle pr dbl t0 t1) dbl .le s

/-- R90. -/
def execFclass (pr : Pred) (dbl : Bool) (t0 t1 : Target) (s : State) :
    Host.Outcome State Fault Refusal :=
  unary (.fclass pr dbl t0 t1)
    (fun a => BitVec.ofNat 64 (2 ^ fclassBit (dblFmt dbl) (a.toNat % 2 ^ (dblFmt dbl).bits))) s

/-- R91, R92. -/
def execFcvt (pr : Pred) (dst src : CvtTy) (t0 t1 : Target) (s : State) :
    Host.Outcome State Fault Refusal :=
  dataflow (.fcvt pr dst src t0 t1) (fun a =>
    let r := convert dst src (fenv a.f.fcsr) (a.fr.opL a.k).word
    { tok := .val r.1, flags := r.2, fault := none }) s

end Sys2Proof.Machine
end

