-- ==== Sys2Proof/Machine/Integer.lean ====
section
/-! DEFINITION. Integer, address and compare instructions (R67 to R79). -/

namespace Sys2Proof.Machine

/-! ### What they compute -/

/-- The high half of the exact signed product (R69). -/
def mulHigh (a b : Word) : Word := BitVec.ofInt 64 (a.toInt * b.toInt / 2 ^ 64)

/-- The high half of the exact unsigned product (R69). -/
def mulHighU (a b : Word) : Word := BitVec.ofNat 64 (a.toNat * b.toNat / 2 ^ 64)

/-- The quotient and remainder of signed division (R70). -/
def divRem (a b : Word) : Word × Word :=
  if b = 0 then (BitVec.allOnes 64, a)
  else if a = BitVec.intMin 64 ∧ b = BitVec.allOnes 64 then (a, 0)
  else (BitVec.ofInt 64 (a.toInt.tdiv b.toInt), BitVec.ofInt 64 (a.toInt.tmod b.toInt))

/-- The quotient and remainder of unsigned division (R70). -/
def divRemU (a b : Word) : Word × Word :=
  if b = 0 then (BitVec.allOnes 64, a)
  else (BitVec.ofNat 64 (a.toNat / b.toNat), BitVec.ofNat 64 (a.toNat % b.toNat))

/-- The shift amount of R69: bits [5:0]. -/
def shamt (b : Word) : Nat := nfld b 0 6

/-- `sar` (R69). -/
def sarBy (a : Word) (n : Nat) : Word := a.sshiftRight n

/-- `rotl` (R69). -/
def rotlBy (a b : Word) : Word := (a <<< shamt b) ||| (a >>> (64 - shamt b))

/-- The zero bits above the highest set bit (R71). -/
def leadingZeros (a : Word) : Word := BitVec.ofNat 64 (if a = 0 then 64 else 63 - Nat.log2 a.toNat)

/-- The zero bits below the lowest set bit (R71): 64 when there is none. -/
def trailingZeros (a : Word) : Word :=
  BitVec.ofNat 64 (((List.range 64).find? (fun i => a.getLsbD i)).getD 64)

/-- The set bits among the low n of a number. -/
def popCount (n x : Nat) : Nat := ((List.range n).filter (fun i => x.testBit i)).length

/-- The width of `sext` and `zext` in bits (R71). -/
def extBits : ExtW → Nat
  | .b => 8
  | .h => 16
  | .w => 32

/-- The low n bits of a, sign-extended (R71). -/
def signExt (a : Word) (n : Nat) : Word := (fld a 0 n).signExtend 64

/-- The low n bits of a, zero-extended (R71). -/
def zeroExt (a : Word) (n : Nat) : Word := (fld a 0 n).setWidth 64

/-- R73. -/
def bitField (a : Word) (pos len1 : BitVec 6) : Word :=
  (fld a pos.toNat (len1.toNat + 1)).signExtend 64
def bitFieldU (a : Word) (pos len1 : BitVec 6) : Word :=
  (fld a pos.toNat (len1.toNat + 1)).setWidth 64
def bitInsert (a b : Word) (pos len1 : BitVec 6) : Word :=
  let m := (BitVec.ofNat 64 (2 ^ (len1.toNat + 1) - 1)) <<< pos.toNat
  (a &&& ~~~m) ||| ((b <<< pos.toNat) &&& m)

/-- R74. -/
def leaAddr (a b : Word) (sh : BitVec 2) (disp : BitVec 22) : Word :=
  a + (b <<< sh.toNat) + disp.signExtend 64

/-- A compare of `.l` and `.r` (R77). -/
def compare (i : Instr) (p : Word → Word → Bool) (s : State) : Host.Outcome State Fault Refusal :=
  binary i (fun a b => boolWord (p a b)) s

/-- A compare of `.l` with an immediate (R78). -/
def compareI (i : Instr) (imm : BitVec 24) (p : Word → Word → Bool) (s : State) :
    Host.Outcome State Fault Refusal :=
  unary i (fun a => boolWord (p a (simm imm))) s

/-! ### The instructions -/

/-- R69. -/
def execAdd (pr : Pred) (t0 t1 : Target) (s : State) :
    Host.Outcome State Fault Refusal :=
  binary (.add pr t0 t1) (fun a b => a + b) s

/-- R69. -/
def execSub (pr : Pred) (t0 t1 : Target) (s : State) :
    Host.Outcome State Fault Refusal :=
  binary (.sub pr t0 t1) (fun a b => a - b) s

/-- R69. -/
def execMul (pr : Pred) (t0 t1 : Target) (s : State) :
    Host.Outcome State Fault Refusal :=
  binary (.mul pr t0 t1) (fun a b => a * b) s

/-- R69. -/
def execMulh (pr : Pred) (t0 t1 : Target) (s : State) :
    Host.Outcome State Fault Refusal :=
  binary (.mulh pr t0 t1) (fun a b => mulHigh a b) s

/-- R69. -/
def execMulhu (pr : Pred) (t0 t1 : Target) (s : State) :
    Host.Outcome State Fault Refusal :=
  binary (.mulhu pr t0 t1) (fun a b => mulHighU a b) s

/-- R70. -/
def execDiv (pr : Pred) (t0 t1 : Target) (s : State) :
    Host.Outcome State Fault Refusal :=
  binary (.div pr t0 t1) (fun a b => (divRem a b).1) s

/-- R70. -/
def execDivu (pr : Pred) (t0 t1 : Target) (s : State) :
    Host.Outcome State Fault Refusal :=
  binary (.divu pr t0 t1) (fun a b => (divRemU a b).1) s

/-- R70. -/
def execRem (pr : Pred) (t0 t1 : Target) (s : State) :
    Host.Outcome State Fault Refusal :=
  binary (.rem pr t0 t1) (fun a b => (divRem a b).2) s

/-- R70. -/
def execRemu (pr : Pred) (t0 t1 : Target) (s : State) :
    Host.Outcome State Fault Refusal :=
  binary (.remu pr t0 t1) (fun a b => (divRemU a b).2) s

/-- R69. -/
def execAnd (pr : Pred) (t0 t1 : Target) (s : State) :
    Host.Outcome State Fault Refusal :=
  binary (.and pr t0 t1) (fun a b => a &&& b) s

/-- R69. -/
def execOr (pr : Pred) (t0 t1 : Target) (s : State) :
    Host.Outcome State Fault Refusal :=
  binary (.or pr t0 t1) (fun a b => a ||| b) s

/-- R69. -/
def execXor (pr : Pred) (t0 t1 : Target) (s : State) :
    Host.Outcome State Fault Refusal :=
  binary (.xor pr t0 t1) (fun a b => a ^^^ b) s

/-- R69. -/
def execAndn (pr : Pred) (t0 t1 : Target) (s : State) :
    Host.Outcome State Fault Refusal :=
  binary (.andn pr t0 t1) (fun a b => a &&& ~~~b) s

/-- R69. -/
def execShl (pr : Pred) (t0 t1 : Target) (s : State) :
    Host.Outcome State Fault Refusal :=
  binary (.shl pr t0 t1) (fun a b => a <<< shamt b) s

/-- R69. -/
def execShr (pr : Pred) (t0 t1 : Target) (s : State) :
    Host.Outcome State Fault Refusal :=
  binary (.shr pr t0 t1) (fun a b => a >>> shamt b) s

/-- R69. -/
def execSar (pr : Pred) (t0 t1 : Target) (s : State) :
    Host.Outcome State Fault Refusal :=
  binary (.sar pr t0 t1) (fun a b => sarBy a (shamt b)) s

/-- R69. -/
def execRotl (pr : Pred) (t0 t1 : Target) (s : State) :
    Host.Outcome State Fault Refusal :=
  binary (.rotl pr t0 t1) (fun a b => rotlBy a b) s

/-- R69. -/
def execMin (pr : Pred) (t0 t1 : Target) (s : State) :
    Host.Outcome State Fault Refusal :=
  binary (.min pr t0 t1) (fun a b => if a.toInt ≤ b.toInt then a else b) s

/-- R69. -/
def execMax (pr : Pred) (t0 t1 : Target) (s : State) :
    Host.Outcome State Fault Refusal :=
  binary (.max pr t0 t1) (fun a b => if a.toInt ≤ b.toInt then b else a) s

/-- R69. -/
def execMinu (pr : Pred) (t0 t1 : Target) (s : State) :
    Host.Outcome State Fault Refusal :=
  binary (.minu pr t0 t1) (fun a b => if a.toNat ≤ b.toNat then a else b) s

/-- R69. -/
def execMaxu (pr : Pred) (t0 t1 : Target) (s : State) :
    Host.Outcome State Fault Refusal :=
  binary (.maxu pr t0 t1) (fun a b => if a.toNat ≤ b.toNat then b else a) s

/-- R71. -/
def execClz (pr : Pred) (t0 t1 : Target) (s : State) :
    Host.Outcome State Fault Refusal :=
  unary (.clz pr t0 t1) (fun a => leadingZeros a) s

/-- R71. -/
def execCtz (pr : Pred) (t0 t1 : Target) (s : State) :
    Host.Outcome State Fault Refusal :=
  unary (.ctz pr t0 t1) (fun a => trailingZeros a) s

/-- R71. -/
def execPopc (pr : Pred) (t0 t1 : Target) (s : State) :
    Host.Outcome State Fault Refusal :=
  unary (.popc pr t0 t1) (fun a => BitVec.ofNat 64 (popCount 64 a.toNat)) s

/-- R71. -/
def execSext (pr : Pred) (sz : ExtW) (t0 t1 : Target) (s : State) :
    Host.Outcome State Fault Refusal :=
  unary (.sext pr sz t0 t1) (fun a => signExt a (extBits sz)) s

/-- R71. -/
def execZext (pr : Pred) (sz : ExtW) (t0 t1 : Target) (s : State) :
    Host.Outcome State Fault Refusal :=
  unary (.zext pr sz t0 t1) (fun a => zeroExt a (extBits sz)) s

/-- R73. -/
def execBfx (pr : Pred) (pos len1 : BitVec 6) (t0 : Target) (s : State) :
    Host.Outcome State Fault Refusal :=
  unary (.bfx pr pos len1 t0) (fun a => bitField a pos len1) s

/-- R73. -/
def execBfxu (pr : Pred) (pos len1 : BitVec 6) (t0 : Target) (s : State) :
    Host.Outcome State Fault Refusal :=
  unary (.bfxu pr pos len1 t0) (fun a => bitFieldU a pos len1) s

/-- R73. -/
def execBfi (pr : Pred) (pos len1 : BitVec 6) (t0 : Target) (s : State) :
    Host.Outcome State Fault Refusal :=
  binary (.bfi pr pos len1 t0) (fun a b => bitInsert a b pos len1) s

/-- R74. -/
def execLea (pr : Pred) (sh : BitVec 2) (disp : BitVec 22) (t0 : Target) (s : State) :
    Host.Outcome State Fault Refusal :=
  binary (.lea pr sh disp t0) (fun a b => leaAddr a b sh disp) s

/-- R75. -/
def execSel (pr : Pred) (t0 t1 : Target) (s : State) :
    Host.Outcome State Fault Refusal :=
  dataflow (.sel pr t0 t1) (fun a =>
    .ok (.val (if (a.fr.opL a.k).word.getLsbD 0 then (a.fr.opR a.k).word else (a.fr.opX a.k).word))) s

/-- R76. -/
def execAddi (pr : Pred) (imm : BitVec 24) (t0 : Target) (s : State) :
    Host.Outcome State Fault Refusal :=
  unary (.addi pr imm t0) (fun a => a + simm imm) s

/-- R76. -/
def execMuli (pr : Pred) (imm : BitVec 24) (t0 : Target) (s : State) :
    Host.Outcome State Fault Refusal :=
  unary (.muli pr imm t0) (fun a => a * simm imm) s

/-- R76. -/
def execAndi (pr : Pred) (imm : BitVec 24) (t0 : Target) (s : State) :
    Host.Outcome State Fault Refusal :=
  unary (.andi pr imm t0) (fun a => a &&& simm imm) s

/-- R76. -/
def execOri (pr : Pred) (imm : BitVec 24) (t0 : Target) (s : State) :
    Host.Outcome State Fault Refusal :=
  unary (.ori pr imm t0) (fun a => a ||| simm imm) s

/-- R76. -/
def execXori (pr : Pred) (imm : BitVec 24) (t0 : Target) (s : State) :
    Host.Outcome State Fault Refusal :=
  unary (.xori pr imm t0) (fun a => a ^^^ simm imm) s

/-- R76. -/
def execShli (pr : Pred) (amount : BitVec 6) (t0 : Target) (s : State) :
    Host.Outcome State Fault Refusal :=
  unary (.shli pr amount t0) (fun a => a <<< amount.toNat) s

/-- R76. -/
def execShri (pr : Pred) (amount : BitVec 6) (t0 : Target) (s : State) :
    Host.Outcome State Fault Refusal :=
  unary (.shri pr amount t0) (fun a => a >>> amount.toNat) s

/-- R76. -/
def execSari (pr : Pred) (amount : BitVec 6) (t0 : Target) (s : State) :
    Host.Outcome State Fault Refusal :=
  unary (.sari pr amount t0) (fun a => sarBy a amount.toNat) s

/-- R77. -/
def execTeq (pr : Pred) (t0 t1 : Target) (s : State) :
    Host.Outcome State Fault Refusal :=
  compare (.teq pr t0 t1) (fun a b => a == b) s

/-- R77. -/
def execTne (pr : Pred) (t0 t1 : Target) (s : State) :
    Host.Outcome State Fault Refusal :=
  compare (.tne pr t0 t1) (fun a b => a != b) s

/-- R77. -/
def execTlt (pr : Pred) (t0 t1 : Target) (s : State) :
    Host.Outcome State Fault Refusal :=
  compare (.tlt pr t0 t1) (fun a b => a.slt b) s

/-- R77. -/
def execTle (pr : Pred) (t0 t1 : Target) (s : State) :
    Host.Outcome State Fault Refusal :=
  compare (.tle pr t0 t1) (fun a b => a.sle b) s

/-- R77. -/
def execTltu (pr : Pred) (t0 t1 : Target) (s : State) :
    Host.Outcome State Fault Refusal :=
  compare (.tltu pr t0 t1) (fun a b => a.ult b) s

/-- R77. -/
def execTleu (pr : Pred) (t0 t1 : Target) (s : State) :
    Host.Outcome State Fault Refusal :=
  compare (.tleu pr t0 t1) (fun a b => a.ule b) s

/-- R77. -/
def execTnz (pr : Pred) (t0 t1 : Target) (s : State) :
    Host.Outcome State Fault Refusal :=
  unary (.tnz pr t0 t1) (fun a => boolWord (a != 0)) s

/-- R78. -/
def execTeqi (pr : Pred) (imm : BitVec 24) (t0 : Target) (s : State) :
    Host.Outcome State Fault Refusal :=
  compareI (.teqi pr imm t0) imm (fun a b => a == b) s

/-- R78. -/
def execTnei (pr : Pred) (imm : BitVec 24) (t0 : Target) (s : State) :
    Host.Outcome State Fault Refusal :=
  compareI (.tnei pr imm t0) imm (fun a b => a != b) s

/-- R78. -/
def execTlti (pr : Pred) (imm : BitVec 24) (t0 : Target) (s : State) :
    Host.Outcome State Fault Refusal :=
  compareI (.tlti pr imm t0) imm (fun a b => a.slt b) s

/-- R78. -/
def execTlei (pr : Pred) (imm : BitVec 24) (t0 : Target) (s : State) :
    Host.Outcome State Fault Refusal :=
  compareI (.tlei pr imm t0) imm (fun a b => a.sle b) s

/-- R78. -/
def execTltui (pr : Pred) (imm : BitVec 24) (t0 : Target) (s : State) :
    Host.Outcome State Fault Refusal :=
  compareI (.tltui pr imm t0) imm (fun a b => a.ult b) s

/-- R78. -/
def execTleui (pr : Pred) (imm : BitVec 24) (t0 : Target) (s : State) :
    Host.Outcome State Fault Refusal :=
  compareI (.tleui pr imm t0) imm (fun a b => a.ule b) s

end Sys2Proof.Machine
end

