-- ==== Sys2Proof/Machine/Parallel.lean ====
section
/-! DEFINITION. Barrier, event, queue, launch and yield instructions (R183, R184, R203 to R213). -/

namespace Sys2Proof.Machine

/-! ### When an operation is performed (R184, R204) -/

/-- The accesses that the block has made have performed, a fence when its waits have ended (R184). -/
def State.accessesDone (s : State) (a : Acting) : Bool :=
  (s.accessesOf a.fid).all (fun e => e.2.seq != a.fr.seq ||
      (if isFence e.2.ins then s.fenceDone a.f a.fid e.2 else e.2.performed))

/-- Every memory instruction of the block has performed or produced its null (R184): none is still to come, and each
LSID of STMASK has been produced. -/
def State.blockDone (s : State) (a : Acting) : Bool :=
  s.accessesDone a && a.fr.unfired.isEmpty && (a.fr.stmask &&& ~~~a.fr.produced == 0)

/-- Every access earlier in program order has performed, those of the block included (R206, R208, R211). -/
def State.allDone (s : State) (a : Acting) : Bool := s.allBefore a.f a.fid (orderKey (a.fr.seq + 1) 0)

/-- The frame after an operation of R204 has been performed: its block counts as in commit. -/
def Frame.perform (fr : Frame) (k : Nat) (i : Instr) (tok : Token) : Frame :=
  ({ fr with inCommit := true }.fire k).send (targetsOf i) tok

/-- The frame after a `launch` has handed its record over (R211): its block counts as in commit (R204), and its STATUS
word is still to come. -/
def Frame.handOver (fr : Frame) (k : Nat) : Frame :=
  { fr.fire k with inCommit := true, owed := fr.owed ++ [k], late := fr.late.filter (· != k) }

/-- A fault at firing. -/
def Frame.refuse (fr : Frame) (k : Nat) (i : Instr) (c : Cause) (taddr : Word) : Frame :=
  ((fr.fire k).fault k c taddr .firing).send (targetsOf i) .poison

/-- The faults that an operation records at firing: that of its operands, and RGN_ENGINE in a region (R177). -/
def Frame.refuseAll (fr : Frame) (k : Nat) (i : Instr) (cs : List (Cause × Word)) : Frame :=
  (cs.foldl (fun fr c => fr.fault k c.1 c.2 .firing) (fr.fire k)).send (targetsOf i) .poison

/-- An operation whose operands have passed their checks waits for the conditions of R184 or R204; in a block that
holds a fault it is never performed (R25), nor in one where it waits for good (R21). In a serial block that waits for
higher memory instructions its turn passes (R22, log 25). -/
def Acting.waits (a : Acting) (s : State) : State :=
  let passes := a.fr.ser && s.accessesDone a && !a.fr.unfired.isEmpty
  let fr : Frame := { a.fr with late := a.fr.late ++ [a.k] }
  if a.fr.late.contains a.k || (a.fr.faults.isEmpty && !passes && !fr.dead [] a.k) then s
  else a.commit s fr

/-- The operation of an instruction of R204: `check` gives the fault of its operands, `release` asks for every
earlier access, `go` performs it (none: it waits, or its fibre has parked), and `fin` gives its frame after that. A null or
poisoned operand performs nothing (R203); in a region it records RGN_ENGINE whenever it fires (R177). -/
def irrevocableWith {α : Type} (fin : Acting → α → Frame) (i : Instr) (release : Bool)
    (check : Acting → Group → Launch → State → Option (Cause × Word))
    (go : Acting → Group → Launch → State → Option (State × α) × State) (s : State) :
    Host.Outcome State Fault Refusal :=
  match s.acting i with
  | none => .fault .noActingBlock
  | some a =>
    if a.canFire i then
      match a.f.insideRegion a.fr.seq, s.ctxOf a.f with
      | some inside, some (g, l) =>
        let engine : List (Cause × Word) := if inside then [(.rgnEngine, 0)] else []
        (match badOperand (a.fr.operands a.k i) with
          | some t =>
            if inside then .next (a.commit s (a.fr.refuseAll a.k i engine))
            else .next (a.commit s ((a.fr.fire a.k).send (targetsOf i) t))
          | none =>
            match (check a g l s).toList ++ engine with
            | [] =>
              if a.f.isOldest a.fr.seq && a.fr.faults.isEmpty && s.blockDone a && (!release || s.allDone a) then
                match go a g l s with
                | (none, s') => .next s'
                | (some (s', tok), _) => .next (s'.setFrame a.fid (fin a tok))
              else .next (a.waits s)
            | cs => .next (a.commit s (a.fr.refuseAll a.k i cs)))
      | _, _ => .next s
    else .next s

/-- An operation of R204 whose result comes with it. -/
def irrevocable (i : Instr) (release : Bool) (check : Acting → Group → Launch → State → Option (Cause × Word))
    (go : Acting → Group → Launch → State → Option (State × Token) × State) (s : State) :
    Host.Outcome State Fault Refusal :=
  irrevocableWith (fun a tok => a.fr.perform a.k i tok) i release check go s

/-! ### Barriers (R205 to R207) -/

/-- A barrier with no arrivals. -/
def Barrier.fresh (n k : Nat) : Barrier := { count := n, limit := k, phase := 0, arrivals := List.replicate k 0, next := [] }

/-- Wakes every fibre of a group that is parked on barrier b. -/
def State.wakeBar (s : State) (gid b : Nat) : State :=
  s.wakeWhere (fun f => f.gid == gid && (match f.park with
    | .bar b' _ => b' == b
    | _ => false))

/-- R206: phases whose arrivals are complete pass, at most `fuel` of them. -/
def Barrier.advance : Nat → Barrier → Barrier
  | 0, x => x
  | fuel + 1, x =>
    match x.arrivals with
    | n :: rest => if n = x.count then Barrier.advance fuel { x with phase := x.phase + 1, arrivals := rest ++ [0] } else x
    | [] => x

/-- The phase that a fibre's arrival would count into (R206). -/
def Barrier.phaseOf (x : Barrier) (fid : Nat) : Nat := max (x.next.getD fid 0) x.phase

/-- An arrival counts. -/
def Barrier.arrive (x : Barrier) (fid : Nat) : Barrier :=
  let ph := x.phaseOf fid
  let i := ph - x.phase
  Barrier.advance (x.limit + 1) { x with arrivals := x.arrivals.set i (x.arrivals.getD i 0 + 1), next := x.next.put fid (ph + 1) }

/-- R205. -/
def execBarInit (pr : Pred) (bar : BitVec 4) (ahead : BitVec 2) (s : State) : Host.Outcome State Fault Refusal :=
  irrevocable (.barInit pr bar ahead) false
    (fun a _ l _ =>
      let n := (a.fr.opL a.k).word.toNat
      if n = 0 ∨ l.fibres < n then some (.ill, 0) else none)
    (fun a g _ s =>
      let n := (a.fr.opL a.k).word.toNat
      let k := ahead.toNat + 1
      let same := match g.bars.get? bar.toNat with
        | some x => x.count == n && x.limit == k
        | none => false
      if same then (some (s, .null), s)
      else
        let s' := s.setGroup a.f.gid { g with bars := g.bars.put bar.toNat (Barrier.fresh n k) }
        (some (s'.wakeBar a.f.gid bar.toNat, .null), s)) s

/-- R206. An arrival that would park does so before the accesses of its block are performed, so that they are performed
once; in a block whose effects stand already it waits in its frame (log 59). -/
def execBarArr (pr : Pred) (bar : BitVec 4) (t0 t1 : Target) (s : State) : Host.Outcome State Fault Refusal :=
  let i := Instr.barArr pr bar t0 t1
  let arrive := irrevocable i true (fun _ _ _ _ => none)
    (fun a g _ s =>
      match g.bars.get? bar.toNat with
      | none => (none, s)
      | some x =>
        let y := x.arrive a.fid
        let s' := s.setGroup a.f.gid { g with bars := g.bars.put bar.toNat y }
        let s' := if y.phase = x.phase then s' else s'.wakeBar a.f.gid bar.toNat
        (some (s', .val (BitVec.ofNat 64 (x.phaseOf a.fid))), s))
  match s.acting i with
  | none => .fault .noActingBlock
  | some a =>
    if a.canFire i && a.f.isOldest a.fr.seq && a.fr.faults.isEmpty && a.f.insideRegion a.fr.seq == some false
        && s.barParks a.f a.fid bar.toNat then
      .next (if s.effectStands a.fid a.fr then s else s.parkAt a.fid a.fr.seq a.fr.addr (.bar bar.toNat true))
    else arrive s

/-- `bar.wait` and `evt.wait`: the test when the block is oldest and fault-free; the fibre parks when it
fails, unless effects of its block stand already (R204, log 59). -/
def waitFor (i : Instr) (check : Acting → Group → Launch → State → Option (Cause × Word))
    (passes : Acting → Group → State → Bool) (park : Acting → Park) (s : State) : Host.Outcome State Fault Refusal :=
  match s.acting i with
  | none => .fault .noActingBlock
  | some a =>
    if a.canFire i then
      if (badOperand (a.fr.operands a.k i)).isSome then .next (a.commit s (a.fr.fire a.k))
      else
        match s.ctxOf a.f with
        | none => .next s
        | some (g, l) =>
          match check a g l s with
          | some (c, ta) => .next (a.commit s (a.fr.refuse a.k i c ta))
          | none =>
            if !(a.f.isOldest a.fr.seq && a.fr.faults.isEmpty) then .next (a.waits s)
            else if passes a g s then .next (a.commit s (a.fr.fire a.k))
            else if s.effectStands a.fid a.fr then .next s
            else .next (s.parkAt a.fid a.fr.seq a.fr.addr (park a))
    else .next s

/-- R207. -/
def execBarWait (pr : Pred) (bar : BitVec 4) (s : State) : Host.Outcome State Fault Refusal :=
  waitFor (.barWait pr bar) (fun _ _ _ _ => none)
    (fun a g _ => match g.bars.get? bar.toNat with
      | some x => (a.fr.opL a.k).word.toNat < x.phase
      | none => false)
    (fun _ => .bar bar.toNat false) s

/-! ### Events (R208, R209) -/

/-- R208: the event number is a number of the fibre's partition. -/
def eventFault (a : Acting) (l : Launch) : Option (Cause × Word) :=
  if (a.fr.opL a.k).word.toNat / 512 = l.part then none else some (.priv, 0)

/-- R208; at FIBRE scope it orders nothing beyond its block (R203). -/
def execEvtSig (pr : Pred) (scope : Scope) (s : State) : Host.Outcome State Fault Refusal :=
  irrevocable (.evtSig pr scope) (scope != .fibre) (fun a _ l _ => eventFault a l)
    (fun a _ _ s => (some (s.addEvent (a.fr.opL a.k).word.toNat (a.fr.opR a.k).word, .null), s)) s

/-- R209. -/
def execEvtWait (pr : Pred) (scope : Scope) (s : State) : Host.Outcome State Fault Refusal :=
  waitFor (.evtWait pr scope) (fun a _ l _ => eventFault a l)
    (fun a _ s => (a.fr.opR a.k).word.toNat ≤ (s.event (a.fr.opL a.k).word.toNat).toNat)
    (fun a => .evt (a.fr.opL a.k).word.toNat (a.fr.opR a.k).word) s

/-! ### Work queues (R183, R184, R210) -/

/-- R210: the queue number is a number of the fibre's partition. -/
def queueFault (a : Acting) (l : Launch) : Option (Cause × Word) :=
  if (a.fr.opL a.k).word.toNat / 32 = l.part then none else some (.priv, 0)

/-- All ones: no item. -/
def noItem : Word := BitVec.allOnes 64

/-- R183; at FIBRE scope it orders nothing beyond its block (R203). -/
def execWqGive (pr : Pred) (scope : Scope) (t0 t1 : Target) (s : State) : Host.Outcome State Fault Refusal :=
  irrevocable (.wqGive pr scope t0 t1) (scope != .fibre) (fun a _ l _ => queueFault a l)
    (fun a _ _ s =>
      let q := (a.fr.opL a.k).word.toNat
      let x := (a.fr.opR a.k).word
      match s.queues.get? q with
      | none => (some (s, .val 3), s)
      | some w =>
        if 2 ^ 20 ≤ w.items.length then (some (s, .val 1), s)
        else if x = noItem then (some (s, .val 2), s)
        else (some ({ s with queues := s.queues.put q { w with items := w.items ++ [x] } }, .val 0), s)) s

/-- Whether the item that leaves is a damaged one, and how many damaged items stay at the head (R210). -/
def Queue.damageLeft (w : Queue) (fromTail : Bool) : Bool × Nat :=
  if fromTail then (w.damaged == w.items.length, min w.damaged (w.items.length - 1))
  else (w.damaged != 0, w.damaged - 1)

/-- An item leaves a queue: a damaged one is a free value (R210, log 12). -/
def takeItem (fromTail : Bool) (a : Acting) (_g : Group) (_l : Launch) (s : State) : Option (State × Token) × State :=
  let q := (a.fr.opL a.k).word.toNat
  match s.queues.get? q with
  | none => (some (s, .val noItem), s)
  | some w =>
    match (if fromTail then w.items.getLast? else w.items.head?) with
    | none => (some (s, .val noItem), s)
    | some x =>
      let left := if fromTail then w.items.dropLast else w.items.tail
      let d := w.damageLeft fromTail
      let s' := { s with tick := s.tick + 1, queues := s.queues.put q { w with items := left, damaged := d.2 } }
      (some (s', .val (if d.1 then Config.damagedItem s.tick else x)), s)

/-- R183. -/
def execWqTake (pr : Pred) (scope : Scope) (t0 t1 : Target) (s : State) : Host.Outcome State Fault Refusal :=
  irrevocable (.wqTake pr scope t0 t1) false (fun a _ l _ => queueFault a l) (takeItem false) s

/-- R183. -/
def execWqSteal (pr : Pred) (scope : Scope) (t0 t1 : Target) (s : State) : Host.Outcome State Fault Refusal :=
  irrevocable (.wqSteal pr scope t0 t1) false (fun a _ l _ => queueFault a l) (takeItem true) s

/-! ### Launch (R211) -/

/-- The load of 240 bytes that a `launch` makes (R211). -/
def launchWant (a : Acting) : Want :=
  { kind := .load, align := 64, inRegion := (a.f.insideRegion a.fr.seq).getD false, formats := [], amo := none }

/-- The checks that R211 makes of the record's address when the instruction fires: alignment, and those of a load. -/
def launchFault (a : Acting) (s : State) : Option (Cause × Word) :=
  match s.fibreCtx a.f with
  | none => none
  | some c =>
    match (s.check c (launchWant a) (a.fr.opL a.k).word 240).1 with
    | .error e => some e
    | .ok _ => none

/-- What a `launch` finds when it is performed (R184, R211): a window that is not enabled, or a byte of the record that is
marked uncorrectable (R297, log 92). -/
def launchRefuses (a : Acting) (c : Ctx) (l : Launch) (s : State) : Option (Cause × Word) :=
  if !s.winOn (16 + l.part) then some (.priv, 0)
  else
    match (s.check c (launchWant a) (a.fr.opL a.k).word 240).1 with
    | .error _ => none
    | .ok segs => (segs.find? (fun (g : Seg) => s.marked g.loc.space g.loc.addr g.n)).map (fun g => (.uncorr, g.va))

/-- The places of the 240 bytes of a record, in halves of lines. -/
def State.recordPlaces (s : State) (c : Ctx) (va : Word) : List (Loc × Nat) :=
  (List.range 4).filterMap (fun i =>
    let at_ := va + BitVec.ofNat 64 (64 * i)
    match (s.segments c .load at_ (min 64 (240 - 64 * i))).1 with
    | .ok (g :: _) => some (g.loc, min 64 (240 - 64 * i))
    | _ => none)

/-- R211: the copy of the record enters the next slot of the device window and its go word is written; the segment of the
slot's sector takes it from there as R188 says. It waits for good once the module accepts no launch (R297), and while a
record of the window is being taken or acceptance is held (R192). -/
def performLaunch (i : Instr) (a : Acting) (_g : Group) (l : Launch) (s : State) : Option (State × Unit) × State :=
  match s.fibreCtx a.f with
  | none => (none, s)
  | some c =>
    match launchRefuses a c l s with
    | some e => (none, a.commit s (a.fr.refuse a.k i e.1 e.2))
    | none =>
    if s.closed || s.mapHeld || (s.taking.get? (16 + l.part)).isSome then (none, s) else
    match s.engineReads (s.recordPlaces c (a.fr.opL a.k).word) with
    | (none, s) => (none, s)
    | (some bs, s) =>
      let win := 16 + l.part
      let e := s.expected win % 2 ^ 32
      let ws := dwordsOf bs
      let ws := if a.f.level = .a then
          ws.set 16 (setFld (ws.getD 16 0) 0 12 (fld a.f.xroot 52 12))
        else ws
      let slot := s.slotAddr win (s.expected win)
      let body := ws.flatMap (fun w => natLe 8 w.toNat)
      match s.engineWrites (halvesOf (hbmLoc slot) body ++ [(hbmLoc (slot + 248), natLe 8 e)]) with
      | (none, s) => (none, s)
      | (some t, _) =>
        let k := Taking.begin_ slot e (BitVec.ofNat 64 e) (some { fid := a.fid, seq := a.fr.seq, k := a.k })
        let t := (t.check c (launchWant a) (a.fr.opL a.k).word 240).2
        (some ({ t with taking := t.taking.put win k }, ()), s)

/-- R126: a `launch` that may fire waits for a table entry that a host holds. -/
def State.launchWaits (s : State) (i : Instr) : Option State :=
  match s.acting i with
  | none => none
  | some a =>
    if !a.canFire i || (badOperand (a.fr.operands a.k i)).isSome then none
    else (s.fibreCtx a.f).bind (fun c => s.checkWaits c (launchWant a) (a.fr.opL a.k).word 240)

/-- R211: the record is handed over, and the block counts as in commit from then on (R204); the token is the STATUS word,
when the record has been accepted or refused (`State.takeOn`). -/
def execLaunch (pr : Pred) (t0 t1 : Target) (s : State) : Host.Outcome State Fault Refusal :=
  let i := Instr.launch pr t0 t1
  match s.launchWaits i with
  | some t => .next t
  | none => irrevocableWith (fun a _ => a.fr.handOver a.k) i true (fun a _ _ s => launchFault a s) (performLaunch i) s

/-! ### Yield (R212) -/

/-- R212: acts at commit. -/
def execYield (pr : Pred) (s : State) : Host.Outcome State Fault Refusal := fireLate (.yield pr) (fun _ => false) s

end Sys2Proof.Machine
end

