-- ==== Sys2Proof/Machine/Records.lean ====
section
/-! DEFINITION. Launch records as the segments take them, and the owner's writes of the maps (R188, R190, R192, R211, R297,
R318). -/

namespace Sys2Proof.Machine

/-- R188, step 1: the segment of the slot's sector reads the go word; when its SEQ is the expected one, it takes the
record. It takes none while acceptance is held (R192). It watches the slot whenever the window is enabled, so a go word that
holds SEQ = 1 already when EN goes from 0 to 1 is taken too (DESIGN CHOICE, log 82). -/
def State.readGo (s : State) (win : Nat) : State :=
  if !(win < 24 && s.winOn win && !s.closed && !s.mapHeld) then s
  else
    let e := s.expected win
    let slot := s.slotAddr win e
    match s.engineRead (hbmLoc (slot + 248)) 8 with
    | (none, s) => s
    | (some go, s) =>
      if nfld (leWord go) 0 32 ≠ e % 2 ^ 32 then s
      else { s with taking := s.taking.put win (Taking.begin_ slot (e % 2 ^ 32) (leWord go) none) }

/-- How many bytes of `left` are read next from `at_`: as many as a free choice says, at most to the end of a half
(log 6). -/
def State.copyStep (s : State) (at_ left : Nat) : Nat :=
  min (1 + (Config.freeByte s.tick).toNat) (min left (64 - at_ % 64))

/-- A record that is being taken as it stands after a read. -/
def State.keepTaking (s : State) (win : Nat) (k : Taking) : State := { s with tick := s.tick + 1, taking := s.taking.put win k }

/-- R192: the record of a window is done with; changes of a map that have waited for it are made. -/
def State.endTaking (s : State) (win : Nat) : State := { s with taking := s.taking.erase win }.settleMaps

/-- R211: the STATUS word goes to the `launch` that handed the record over. -/
def State.tellLaunch (s : State) (w : Word) : Option Cursor → State
  | none => s
  | some c =>
    match (s.fibre? c.fid).bind (fun f => f.frame? c.seq) with
    | some fr =>
      (match fr.instr c.k with
        | some i => s.setFrame c.fid ((fr.without c.k).send (targetsOf i) (.val w))
        | none => s)
    | none => s

/-- R188, steps 2 to 4, for a record that is being taken: more of it is copied, E advances, its context entry and its
header are read (R190, R318), each byte of a racing store old or new, and at last STATUS is written and the launch accepted
or refused. A module that has stopped accepting launches (R297) drops it. LWCFG may be written meanwhile: PART and MAXPRIO are
those at the verdict, and E that a re-enable has set to 1 advances by the record all the same (DESIGN CHOICE, log 90). -/
def State.takeOn (s : State) (win : Nat) (k : Taking) : State :=
  if s.closed then s.endTaking win
  else if k.bytes.length < 248 then
    match s.engineRead (hbmLoc (k.slot + k.bytes.length)) (s.copyStep k.bytes.length (248 - k.bytes.length)) with
    | (none, s) => s
    | (some bs, s) => s.keepTaking win { k with bytes := k.bytes ++ bs }
  else if !k.advanced then (s.keepTaking win { k with advanced := true }).advance win
  else
    let sec := sectorOf k.slot
    let rec_ := { Launch.of win k.seq s.time (dwordsOf k.bytes) with ctx := dwordsOf k.ctx }
    let vas := rec_.walks k.ctx k.hdr
    match s.dispatchHalf sec rec_.xlate vas with
    | some h => s.backInvalidate h false
    | none =>
      match s.needs rec_ sec (nfld k.go 32 32) k.ctx k.hdr with
      | .entry a =>
        (match s.engineRead (hbmLoc a) 32 with
          | (none, s) => s
          | (some bs, s) => s.keepTaking win { k with ctx := bs })
      | .header loc =>
        (match s.engineRead { loc with addr := loc.addr + k.hdr.length } (s.copyStep k.hdr.length (64 - k.hdr.length)) with
          | (none, s) => s
          | (some bs, s) =>
            let s := if k.hdr.isEmpty then s.countDispatch sec rec_.xlate vas else s
            s.keepTaking win { k with hdr := k.hdr ++ bs })
      | .verdict code l =>
        match s.conclude k code l with
        | (none, s) => s
        | (some (w, t), _) => ((t.countDispatch sec rec_.xlate vas).tellLaunch w k.whose).endTaking win

/-- R188: a segment reads the go word of a window, or goes on with the record that it is taking. -/
def execGoWord (win : Nat) (s : State) : Host.Outcome State Fault Refusal :=
  match s.taking.get? win with
  | some k => .next (s.takeOn win k)
  | none => .next (s.readGo win)

/-- R192: the owner writes LDMAPp; the write is held while a record is being taken. -/
def execLdmapWrite (who p : Nat) (value : Word) (s : State) : Host.Outcome State Fault Refusal :=
  .next (if s.owned who && p < 8 then s.changeMap (.write p value) else s)

end Sys2Proof.Machine
end

