-- ==== Sys2Proof/Machine/Spdm.lean ====
section
/-! DEFINITION. SPDM requests to the module, key loading and IDE keys (R111, R127, R306). Ports 0 to 11 are the hosts',
port 12 is the board controller's. -/

namespace Sys2Proof.Machine

/-- A port before its first request. -/
def Session.init : Session :=
  { versionDone := false, capsDone := false, algsDone := false, keyData := none, secure := false, rekeys := 0, transcript := [] }

def State.session (s : State) (port : Nat) : Session := s.sessions.getD port Session.init
def State.setSession (s : State) (port : Nat) (x : Session) : State := { s with sessions := s.sessions.put port x }

/-- The words of a 512-bit value. -/
def vecWords (v : Vec) : List Word := (List.range 8).map (vecDword v)

/-- A reply; it joins the port's transcript. -/
def State.reply (s : State) (port : Nat) (kind : String) (body : List Word) : State :=
  let x := s.session port
  (s.setSession port { x with transcript := x.transcript ++ body }).emit (.spdm port kind body)

/-- A request that the port's state does not allow. -/
def State.refuseRequest (s : State) (port : Nat) : State := s.emit (.spdm port "ERROR" [])

/-- R306: a new exchange begins. -/
def execGetVersion (port : Nat) (s : State) : Host.Outcome State Fault Refusal :=
  if 13 ≤ port then .next s
  else .next ((s.setSession port { Session.init with versionDone := true }).reply port "VERSION" [0x13])

/-- R306. -/
def execGetCapabilities (port : Nat) (s : State) : Host.Outcome State Fault Refusal :=
  let x := s.session port
  if x.versionDone then .next ((s.setSession port { x with capsDone := true }).reply port "CAPABILITIES" [])
  else .next (s.refuseRequest port)

/-- The algorithms of R306: 1 EdDSA Ed448, 2 SHA3-512, 3 secp384r1, 4 AES-256-GCM. -/
def algorithms : List Nat := [1, 2, 3, 4]

/-- R306: the algorithms that both sides have are chosen; all four are needed. -/
def execNegotiateAlgorithms (port : Nat) (offered : List Nat) (s : State) : Host.Outcome State Fault Refusal :=
  let x := s.session port
  if x.capsDone && algorithms.all offered.contains then
    .next ((s.setSession port { x with algsDone := true }).reply port "ALGORITHMS" (algorithms.map (BitVec.ofNat 64)))
  else .next (s.refuseRequest port)

/-- R306: the digest of the chain of slot 0. -/
def execGetDigests (port : Nat) (s : State) : Host.Outcome State Fault Refusal :=
  if (s.session port).algsDone then
    .next (s.reply port "DIGESTS" (vecWords (Config.digest (Config.certChain.map (fun b => b.setWidth 64)))))
  else .next (s.refuseRequest port)

/-- R306: the chain of slot 0. -/
def execGetCertificate (port slot : Nat) (s : State) : Host.Outcome State Fault Refusal :=
  if (s.session port).algsDone && slot == 0 then
    .next (s.reply port "CERTIFICATE" (Config.certChain.map (fun b => b.setWidth 64)))
  else .next (s.refuseRequest port)

/-- The signature of the device key over a port's transcript and a nonce. -/
def State.sign (s : State) (port : Nat) (nonce : Word) : List Word :=
  vecWords (Config.deviceSign (vecWords (Config.digest ((s.session port).transcript ++ [nonce])) |>.map BitVec.toNat))

/-- R306: answered with the device key. -/
def execChallenge (port : Nat) (nonce : Word) (s : State) : Host.Outcome State Fault Refusal :=
  if (s.session port).algsDone then .next (s.reply port "CHALLENGE_AUTH" (s.sign port nonce)) else .next (s.refuseRequest port)

/-- What a measurement covers: 1 ROM, 2 the running image, its version and its digest, 3 the fused minimum and the
root-key digest, 4 the isolation settings at
this moment (R306). -/
def State.measured (s : State) (index : Nat) : Option (List Word) :=
  match index with
  | 1 => some [1]
  | 2 => some (2 :: (fld (s.reg 8) 16 32).setWidth 64 :: vecWords s.runImage)
  | 3 => some (3 :: s.fusedMin.setWidth 64 :: vecWords Config.rootKeyDigest)
  | 4 => some ((List.range 24).map s.lwcfg ++ (List.range 8).map (fun p => s.reg (0x400 + 8 * p))
      ++ [s.reg 0x50, s.reg 0x48, s.reg 0x78])
  | _ => none

/-- R306: a measurement, signed. -/
def execGetMeasurements (port : Nat) (index : Nat) (nonce : Word) (s : State) : Host.Outcome State Fault Refusal :=
  match s.measured index with
  | some ws =>
    if (s.session port).algsDone then
      let s := s.reply port "MEASUREMENTS" (vecWords (Config.digest ws))
      .next (s.reply port "SIGNATURE" (s.sign port nonce))
    else .next (s.refuseRequest port)
  | none => .next (s.refuseRequest port)

/-- R306: the key exchange of a session begins. -/
def execKeyExchange (port : Nat) (data : Word) (s : State) : Host.Outcome State Fault Refusal :=
  let x := s.session port
  if x.algsDone then
    .next ((s.setSession port { x with keyData := some data, secure := false, rekeys := 0 }).reply port "KEY_EXCHANGE_RSP" (s.sign port data))
  else .next (s.refuseRequest port)

/-- R306: the session is set up when the requester's proof verifies. -/
def execFinish (port : Nat) (proof : Word) (s : State) : Host.Outcome State Fault Refusal :=
  let x := s.session port
  match x.keyData with
  | some d =>
    if !x.secure && Config.finishVerifies port d proof then
      .next ((s.setSession port { x with secure := true }).reply port "FINISH_RSP" [])
    else .next (s.refuseRequest port)
  | none => .next (s.refuseRequest port)

/-- R306: new session keys. -/
def execKeyUpdate (port : Nat) (s : State) : Host.Outcome State Fault Refusal :=
  let x := s.session port
  if x.secure then .next ((s.setSession port { x with rekeys := x.rekeys + 1 }).reply port "KEY_UPDATE_ACK" [])
  else .next (s.refuseRequest port)

/-- R306. -/
def execHeartbeat (port : Nat) (s : State) : Host.Outcome State Fault Refusal :=
  if (s.session port).secure then .next (s.reply port "HEARTBEAT_ACK" []) else .next (s.refuseRequest port)

/-- R306: the session ends. -/
def execEndSession (port : Nat) (s : State) : Host.Outcome State Fault Refusal :=
  let x := s.session port
  if x.secure then
    .next ((s.setSession port { x with secure := false, keyData := none, rekeys := 0 }).reply port "END_SESSION_ACK" [])
  else .next (s.refuseRequest port)

/-- The master behind a port (R300). -/
def masterOf (port : Nat) : Nat := if port = 12 then 16 else port + 1

/-- R111: a key changes: lines at rest under it are bytes of an older key from now on, under a number of its own. -/
def State.loadKey (s : State) (keyId : Nat) (key : Vec) : State :=
  if s.keys.get? keyId = some key then s
  else
    { s with
      nextId := s.nextId + 1, keys := s.keys.put keyId key
      lineKey := s.lineKey.mapV (fun k => if k = keyId then 64 + s.nextId else k) }

/-- R306: a memory-encryption key is loaded, in a session with the owner only. -/
def execVendorDefined (port : Nat) (keyId : Nat) (key : Vec) (s : State) : Host.Outcome State Fault Refusal :=
  if (s.session port).secure && s.owned (masterOf port) && 1 ≤ keyId && keyId ≤ 63 then
    .next ((s.loadKey keyId key).reply port "VENDOR_DEFINED_RSP" [])
  else .next (s.refuseRequest port)

/-- R127, R306: the key of an IDE stream of the port is programmed within a session. -/
def execIdeKm (port stream : Nat) (key : Vec) (s : State) : Host.Outcome State Fault Refusal :=
  if (s.session port).secure then
    .next ({ s with ideKeys := s.ideKeys.put (256 * port + stream % 256) key }.reply port "IDE_KM_ACK" [])
  else .next (s.refuseRequest port)

end Sys2Proof.Machine
end

