-- ==== Sys2Proof/Machine/System.lean ====
section
/-! DEFINITION. The system instructions: system registers, `sret`, `tlbinv` and the cycle counter
(R177, R238 to R242, R246, R247). -/

namespace Sys2Proof.Machine

/-- R239, R241: `srd` fires when its block is the oldest; a register above the level records PRIV. -/
def execSrd (pr : Pred) (num : BitVec 12) (t0 t1 : Target) (s : State) : Host.Outcome State Fault Refusal :=
  let i := Instr.srd pr num t0 t1
  match s.acting i with
  | none => .fault .noActingBlock
  | some a =>
    if a.canFire i && a.f.isOldest a.fr.seq then
      let r : Result := if a.f.level.covers (readLevel a.f num.toNat) then .ok (.val (s.sysRead a.f num.toNat))
                        else { tok := .poison, flags := 0, fault := some (.priv, 0) }
      .next (a.commit s (a.fr.finish a.k i r))
    else .next s

/-- R239, R241: `swr` fires when its value arrives and writes at commit. The level is that at which its block is
the oldest: no block younger than a `swr` or `sret` that may act is in flight, and a trap squashes every block.
A null writes nothing; poison has recorded its fault where it arose. -/
def execSwr (pr : Pred) (num : BitVec 12) (s : State) : Host.Outcome State Fault Refusal :=
  let i := Instr.swr pr num
  match s.acting i with
  | none => .fault .noActingBlock
  | some a =>
    if a.canFire i then
      if !a.f.level.covers (writeLevel a.f num.toNat) then
        .next (a.commit s ((a.fr.fire a.k).fault a.k .priv 0 .firing))
      else
        let fr := a.fr.fire a.k
        .next (a.commit s (match a.fr.opL a.k with
          | .val w => { fr with swrs := fr.swrs ++ [(a.k, num.toNat, w)] }
          | _ => fr))
    else .next s

/-- The fault of `sret` (R241, R255): at level A with another level to return to. -/
def sretFault (f : Fibre) : Bool := f.level == .a && nfld f.bankA.tstat 0 2 != 0

/-- R238: fires when its predicate lets it and acts at commit; a PL of 2, which no write leaves, is ILL. Beside
another `sret` or a `rgn.beg` it records BLK_FMT (R255). -/
def execSret (pr : Pred) (s : State) : Host.Outcome State Fault Refusal :=
  let i := Instr.sret pr
  match s.acting i with
  | none => .fault .noActingBlock
  | some a =>
    if a.canFire i then
      if nfld (a.f.bank a.f.level).tstat 0 2 = 2 then .next (a.commit s ((a.fr.fire a.k).fault a.k .ill 0 .firing))
      else if sretFault a.f then .next (a.commit s ((a.fr.fire a.k).fault a.k .priv 0 .firing))
      else fireLate i (fun j => isSret j || isRgnBeg j) s
    else .next s

/-- R246, R177: the faults that a firing `tlbinv` records, whatever its operand. -/
def tlbinvFaults (a : Acting) (inside : Bool) : List Cause :=
  (if a.f.level = .a then [.priv] else []) ++ (if inside then [.rgnEngine] else [])

/-- R246: `tlbinv` fires when its operand arrives, and it is performed by R114 when its block is the oldest and
fault-free. A null or poisoned operand drops nothing (R20, R13). -/
def execTlbinv (pr : Pred) (scope : Scope) (all : Bool) (s : State) : Host.Outcome State Fault Refusal :=
  let i := Instr.tlbinv pr scope all
  match s.acting i with
  | none => .fault .noActingBlock
  | some a =>
    if a.canFire i then
      match a.f.insideRegion a.fr.seq with
      | none => .next s
      | some inside =>
        let fr := a.fr.fire a.k
        let faults := tlbinvFaults a inside
        if !faults.isEmpty then .next (a.commit s (faults.foldl (fun fr c => fr.fault a.k c 0 .firing) fr))
        else if (badOperand (a.fr.operands a.k i)).isSome then .next (a.commit s fr)
        else .next (a.commit s { fr with owed := fr.owed ++ [a.k], late := fr.late ++ [a.k] })
    else .next s

/-- A `cyc` that may still fire stands before K of a block in program order (R247). -/
def Fibre.cycBefore (f : Fibre) (seq k : Nat) : Bool :=
  f.frames.any (fun fr => fr.seq ≤ seq && fr.live.any (fun j => (fr.seq < seq || j < k)
    && (match fr.instr j with | some (.cyc _ _ _) => true | _ => false)))

/-- R247: the time base. Two `cyc` fire in program order, so that the later one never reads less. -/
def execCyc (pr : Pred) (t0 t1 : Target) (s : State) : Host.Outcome State Fault Refusal :=
  match s.acting (.cyc pr t0 t1) with
  | none => .fault .noActingBlock
  | some a =>
    if a.f.cycBefore a.fr.seq a.k then .next s
    else dataflow (.cyc pr t0 t1) (fun _ => .ok (.val (BitVec.ofNat 64 s.time))) s

end Sys2Proof.Machine
end

