-- ==== Sys2Proof/Machine/Vector.lean ====
section
/-! DEFINITION. Vector lane instructions (R93, R94). -/

namespace Sys2Proof.Machine

/-- R93: lane i := lane i - n when that lane exists, else 0. -/
def shiftLanes (ls : List Nat) (n : Int) : List Nat :=
  (List.range ls.length).map (fun (i : Nat) =>
    let j := (i : Int) - n
    if 0 ≤ j ∧ j < ls.length then ls.getD j.toNat 0 else 0)

/-- The relation of `vcmp` on two lanes of n bits (R93), with its flags. -/
def laneCmp (op : VCmpOp) (n : Nat) (v : FEnv) (x y : Nat) : Bool × FFlags :=
  let F := if n = 64 then fmt64 else fmt32
  match op with
  | .eq => (x == y, 0)
  | .ne => (x != y, 0)
  | .lt => (decide (signedOf n x < signedOf n y), 0)
  | .le => (decide (signedOf n x ≤ signedOf n y), 0)
  | .ltu => (decide (x < y), 0)
  | .leu => (decide (x ≤ y), 0)
  | .feq => fcmpBits F .eq v x y
  | .flt => fcmpBits F .lt v x y
  | .fle => fcmpBits F .le v x y

/-- One node of the tree of R94. -/
def redOp (op : VRedOp) (n : Nat) (v : FEnv) (x y : Nat) : Nat × FFlags :=
  let F := if n = 64 then fmt64 else fmt32
  match op with
  | .add => ((x + y) % 2 ^ n, 0)
  | .and => (x &&& y, 0)
  | .or => (x ||| y, 0)
  | .xor => (x ^^^ y, 0)
  | .min => (if signedOf n x ≤ signedOf n y then x else y, 0)
  | .max => (if signedOf n x ≤ signedOf n y then y else x, 0)
  | .minu => (Nat.min x y, 0)
  | .maxu => (Nat.max x y, 0)
  | .fadd => faddBits F v x y
  | .fmin => fminmaxBits F false v x y
  | .fmax => fminmaxBits F true v x y

/-- One level of the tree: neighbours combine in pairs. -/
def redLevel (f : Nat → Nat → Nat × FFlags) : List Nat → List Nat × FFlags
  | x :: y :: l =>
    let (z, fl) := f x y
    let (zs, fls) := redLevel f l
    (z :: zs, fl ||| fls)
  | l => (l, 0)

/-- R94: the levels of the tree, at most six. -/
def redTree (f : Nat → Nat → Nat × FFlags) : Nat → List Nat → Nat × FFlags
  | 0, l => (l.getD 0 0, 0)
  | k + 1, l =>
    if l.length ≤ 1 then (l.getD 0 0, 0)
    else
      let (l', fl) := redLevel f l
      let (z, fls) := redTree f k l'
      (z, fl ||| fls)

/-- R94: the result extended to 64 bits. -/
def redExtend (op : VRedOp) (n x : Nat) : Word :=
  match op with
  | .min | .max => BitVec.ofInt 64 (signedOf n x)
  | _ => BitVec.ofNat 64 x

/-- A vector computed from the operands, carrying the tag `t`. -/
def vecTok (n : Nat) (ls : List Nat) (t : BitVec 3) : Result := .ok (.vec (packLanes n ls) t)

/-! ### The instructions -/

/-- R93: every lane := the low bits of `.l`. -/
def execVbcast (pr : Pred) (w : Lane) (t0 t1 : Target) (s : State) :
    Host.Outcome State Fault Refusal :=
  dataflow (.vbcast pr w t0 t1) (fun a =>
    vecTok w.bits (List.replicate w.count (a.fr.opL a.k).word.toNat) 7) s

/-- R93: one lane, zero-extended. -/
def execVext (pr : Pred) (w : Lane) (lane : BitVec 6) (t0 : Target) (s : State) :
    Host.Outcome State Fault Refusal :=
  dataflow (.vext pr w lane t0) (fun a =>
    .ok (.val (BitVec.ofNat 64 ((lanes (a.fr.opL a.k).vector w.bits).getD lane.toNat 0)))) s

/-- R93: one lane replaced. -/
def execVins (pr : Pred) (w : Lane) (lane : BitVec 6) (t0 : Target) (s : State) :
    Host.Outcome State Fault Refusal :=
  dataflow (.vins pr w lane t0) (fun a =>
    vecTok w.bits ((lanes (a.fr.opL a.k).vector w.bits).set lane.toNat (a.fr.opR a.k).word.toNat)
      (a.fr.opL a.k).tag) s

/-- R93: lanes chosen by unsigned indices. -/
def execVperm (pr : Pred) (w : Lane) (t0 t1 : Target) (s : State) :
    Host.Outcome State Fault Refusal :=
  dataflow (.vperm pr w t0 t1) (fun a =>
    let x := lanes (a.fr.opL a.k).vector w.bits
    vecTok w.bits ((lanes (a.fr.opR a.k).vector w.bits).map (fun j => x.getD j 0))
      (a.fr.opL a.k).tag) s

/-- R93: lanes moved by a signed count. -/
def execVshl (pr : Pred) (w : Lane) (t0 t1 : Target) (s : State) :
    Host.Outcome State Fault Refusal :=
  dataflow (.vshl pr w t0 t1) (fun a =>
    vecTok w.bits (shiftLanes (lanes (a.fr.opL a.k).vector w.bits) (a.fr.opR a.k).word.toInt)
      (a.fr.opL a.k).tag) s

/-- R94. -/
def execVred (pr : Pred) (op : VRedOp) (w : Lane) (t0 t1 : Target) (s : State) :
    Host.Outcome State Fault Refusal :=
  dataflow (.vred pr op w t0 t1) (fun a =>
    let r := redTree (redOp op w.bits (fenv a.f.fcsr)) 6 (lanes (a.fr.opL a.k).vector w.bits)
    { tok := .val (redExtend op w.bits r.1), flags := r.2, fault := none }) s

/-- R93: each lane from `.l` or `.r` by a mask bit. -/
def execVsel (pr : Pred) (w : Lane) (t0 t1 : Target) (s : State) :
    Host.Outcome State Fault Refusal :=
  dataflow (.vsel pr w t0 t1) (fun a =>
    let x := lanes (a.fr.opL a.k).vector w.bits
    let y := lanes (a.fr.opR a.k).vector w.bits
    vecTok w.bits ((List.range w.count).map (fun i =>
      if (a.fr.opX a.k).word.getLsbD i then x.getD i 0 else y.getD i 0)) (a.fr.opL a.k).tag) s

/-- R93: a mask of the relation. -/
def execVcmp (pr : Pred) (op : VCmpOp) (w : Lane) (t0 t1 : Target) (s : State) :
    Host.Outcome State Fault Refusal :=
  dataflow (.vcmp pr op w t0 t1) (fun a =>
    let x := lanes (a.fr.opL a.k).vector w.bits
    let y := lanes (a.fr.opR a.k).vector w.bits
    let rs := (List.range w.count).map (fun i =>
      laneCmp op w.bits (fenv a.f.fcsr) (x.getD i 0) (y.getD i 0))
    { tok := .val (BitVec.ofNat 64
        (rs.foldr (fun r acc => (if r.1 then 1 else 0) + 2 * acc) 0))
      flags := orFlags (rs.map Prod.snd), fault := none }) s

/-- R93: lane i := the set bits below bit i of the mask. -/
def execViota (pr : Pred) (w : Lane) (t0 t1 : Target) (s : State) :
    Host.Outcome State Fault Refusal :=
  dataflow (.viota pr w t0 t1) (fun a =>
    vecTok w.bits ((List.range w.count).map (fun i => popCount i (a.fr.opL a.k).word.toNat)) 7) s

/-- R93: the set bits of each lane. -/
def execVcnt (pr : Pred) (w : Lane) (t0 t1 : Target) (s : State) :
    Host.Outcome State Fault Refusal :=
  dataflow (.vcnt pr w t0 t1) (fun a =>
    vecTok w.bits ((lanes (a.fr.opL a.k).vector w.bits).map (popCount w.bits)) 7) s

end Sys2Proof.Machine
end

