-- ==== Sys2Proof/Machine/Dispatch.lean ====
section
/-! DEFINITION. The meaning of each instruction and of each machine event: one arm for each
constructor of `Instr`. -/

namespace Sys2Proof.Machine

def exec (i : Instr) (s : State) : Host.Outcome State Fault Refusal :=
  match i with
  | .nop => Sys2Proof.Machine.execNop s
  | .read pr reg t0 t1 => Sys2Proof.Machine.execRead pr reg t0 t1 s
  | .vread pr reg t0 t1 => Sys2Proof.Machine.execVread pr reg t0 t1 s
  | .write pr reg => Sys2Proof.Machine.execWrite pr reg s
  | .vwrite pr reg => Sys2Proof.Machine.execVwrite pr reg s
  | .mov pr t0 t1 => Sys2Proof.Machine.execMov pr t0 t1 s
  | .mov3 pr t0 t1 t2 => Sys2Proof.Machine.execMov3 pr t0 t1 t2 s
  | .mov4 pr t0 t1 t2 t3 => Sys2Proof.Machine.execMov4 pr t0 t1 t2 t3 s
  | .genc pr imm t0 t1 => Sys2Proof.Machine.execGenc pr imm t0 t1 s
  | .genh pr imm t0 t1 => Sys2Proof.Machine.execGenh pr imm t0 t1 s
  | .null pr t0 t1 t2 t3 => Sys2Proof.Machine.execNull pr t0 t1 t2 t3 s
  | .xop => Sys2Proof.Machine.execXop s
  | .br pr exit off => Sys2Proof.Machine.execBr pr exit off s
  | .bri pr exit => Sys2Proof.Machine.execBri pr exit s
  | .call pr exit off => Sys2Proof.Machine.execCall pr exit off s
  | .calli pr exit => Sys2Proof.Machine.execCalli pr exit s
  | .ret pr exit => Sys2Proof.Machine.execRet pr exit s
  | .halt pr exit => Sys2Proof.Machine.execHalt pr exit s
  | .scall pr code => Sys2Proof.Machine.execScall pr code s
  | .trap pr code => Sys2Proof.Machine.execTrap pr code s
  | .brk pr code => Sys2Proof.Machine.execBrk pr code s
  | .add pr t0 t1 => Sys2Proof.Machine.execAdd pr t0 t1 s
  | .sub pr t0 t1 => Sys2Proof.Machine.execSub pr t0 t1 s
  | .mul pr t0 t1 => Sys2Proof.Machine.execMul pr t0 t1 s
  | .mulh pr t0 t1 => Sys2Proof.Machine.execMulh pr t0 t1 s
  | .mulhu pr t0 t1 => Sys2Proof.Machine.execMulhu pr t0 t1 s
  | .div pr t0 t1 => Sys2Proof.Machine.execDiv pr t0 t1 s
  | .divu pr t0 t1 => Sys2Proof.Machine.execDivu pr t0 t1 s
  | .rem pr t0 t1 => Sys2Proof.Machine.execRem pr t0 t1 s
  | .remu pr t0 t1 => Sys2Proof.Machine.execRemu pr t0 t1 s
  | .and pr t0 t1 => Sys2Proof.Machine.execAnd pr t0 t1 s
  | .or pr t0 t1 => Sys2Proof.Machine.execOr pr t0 t1 s
  | .xor pr t0 t1 => Sys2Proof.Machine.execXor pr t0 t1 s
  | .andn pr t0 t1 => Sys2Proof.Machine.execAndn pr t0 t1 s
  | .shl pr t0 t1 => Sys2Proof.Machine.execShl pr t0 t1 s
  | .shr pr t0 t1 => Sys2Proof.Machine.execShr pr t0 t1 s
  | .sar pr t0 t1 => Sys2Proof.Machine.execSar pr t0 t1 s
  | .rotl pr t0 t1 => Sys2Proof.Machine.execRotl pr t0 t1 s
  | .clz pr t0 t1 => Sys2Proof.Machine.execClz pr t0 t1 s
  | .ctz pr t0 t1 => Sys2Proof.Machine.execCtz pr t0 t1 s
  | .popc pr t0 t1 => Sys2Proof.Machine.execPopc pr t0 t1 s
  | .sext pr sz t0 t1 => Sys2Proof.Machine.execSext pr sz t0 t1 s
  | .zext pr sz t0 t1 => Sys2Proof.Machine.execZext pr sz t0 t1 s
  | .min pr t0 t1 => Sys2Proof.Machine.execMin pr t0 t1 s
  | .max pr t0 t1 => Sys2Proof.Machine.execMax pr t0 t1 s
  | .minu pr t0 t1 => Sys2Proof.Machine.execMinu pr t0 t1 s
  | .maxu pr t0 t1 => Sys2Proof.Machine.execMaxu pr t0 t1 s
  | .bfx pr pos len1 t0 => Sys2Proof.Machine.execBfx pr pos len1 t0 s
  | .bfxu pr pos len1 t0 => Sys2Proof.Machine.execBfxu pr pos len1 t0 s
  | .bfi pr pos len1 t0 => Sys2Proof.Machine.execBfi pr pos len1 t0 s
  | .lea pr sh disp t0 => Sys2Proof.Machine.execLea pr sh disp t0 s
  | .sel pr t0 t1 => Sys2Proof.Machine.execSel pr t0 t1 s
  | .addi pr imm t0 => Sys2Proof.Machine.execAddi pr imm t0 s
  | .muli pr imm t0 => Sys2Proof.Machine.execMuli pr imm t0 s
  | .andi pr imm t0 => Sys2Proof.Machine.execAndi pr imm t0 s
  | .ori pr imm t0 => Sys2Proof.Machine.execOri pr imm t0 s
  | .xori pr imm t0 => Sys2Proof.Machine.execXori pr imm t0 s
  | .shli pr amount t0 => Sys2Proof.Machine.execShli pr amount t0 s
  | .shri pr amount t0 => Sys2Proof.Machine.execShri pr amount t0 s
  | .sari pr amount t0 => Sys2Proof.Machine.execSari pr amount t0 s
  | .teq pr t0 t1 => Sys2Proof.Machine.execTeq pr t0 t1 s
  | .tne pr t0 t1 => Sys2Proof.Machine.execTne pr t0 t1 s
  | .tlt pr t0 t1 => Sys2Proof.Machine.execTlt pr t0 t1 s
  | .tle pr t0 t1 => Sys2Proof.Machine.execTle pr t0 t1 s
  | .tltu pr t0 t1 => Sys2Proof.Machine.execTltu pr t0 t1 s
  | .tleu pr t0 t1 => Sys2Proof.Machine.execTleu pr t0 t1 s
  | .tnz pr t0 t1 => Sys2Proof.Machine.execTnz pr t0 t1 s
  | .teqi pr imm t0 => Sys2Proof.Machine.execTeqi pr imm t0 s
  | .tnei pr imm t0 => Sys2Proof.Machine.execTnei pr imm t0 s
  | .tlti pr imm t0 => Sys2Proof.Machine.execTlti pr imm t0 s
  | .tlei pr imm t0 => Sys2Proof.Machine.execTlei pr imm t0 s
  | .tltui pr imm t0 => Sys2Proof.Machine.execTltui pr imm t0 s
  | .tleui pr imm t0 => Sys2Proof.Machine.execTleui pr imm t0 s
  | .fadd pr ty t0 t1 => Sys2Proof.Machine.execFadd pr ty t0 t1 s
  | .fsub pr ty t0 t1 => Sys2Proof.Machine.execFsub pr ty t0 t1 s
  | .fmul pr ty t0 t1 => Sys2Proof.Machine.execFmul pr ty t0 t1 s
  | .ffma pr ty t0 t1 => Sys2Proof.Machine.execFfma pr ty t0 t1 s
  | .fdiv pr ty t0 t1 => Sys2Proof.Machine.execFdiv pr ty t0 t1 s
  | .fsqrt pr ty t0 t1 => Sys2Proof.Machine.execFsqrt pr ty t0 t1 s
  | .fmin pr ty t0 t1 => Sys2Proof.Machine.execFmin pr ty t0 t1 s
  | .fmax pr ty t0 t1 => Sys2Proof.Machine.execFmax pr ty t0 t1 s
  | .fabs pr ty t0 t1 => Sys2Proof.Machine.execFabs pr ty t0 t1 s
  | .fneg pr ty t0 t1 => Sys2Proof.Machine.execFneg pr ty t0 t1 s
  | .fsgnj pr ty t0 t1 => Sys2Proof.Machine.execFsgnj pr ty t0 t1 s
  | .feq pr dbl t0 t1 => Sys2Proof.Machine.execFeq pr dbl t0 t1 s
  | .flt pr dbl t0 t1 => Sys2Proof.Machine.execFlt pr dbl t0 t1 s
  | .fle pr dbl t0 t1 => Sys2Proof.Machine.execFle pr dbl t0 t1 s
  | .fclass pr dbl t0 t1 => Sys2Proof.Machine.execFclass pr dbl t0 t1 s
  | .fcvt pr dst src t0 t1 => Sys2Proof.Machine.execFcvt pr dst src t0 t1 s
  | .vbcast pr w t0 t1 => Sys2Proof.Machine.execVbcast pr w t0 t1 s
  | .vext pr w lane t0 => Sys2Proof.Machine.execVext pr w lane t0 s
  | .vins pr w lane t0 => Sys2Proof.Machine.execVins pr w lane t0 s
  | .vperm pr w t0 t1 => Sys2Proof.Machine.execVperm pr w t0 t1 s
  | .vshl pr w t0 t1 => Sys2Proof.Machine.execVshl pr w t0 t1 s
  | .vred pr op w t0 t1 => Sys2Proof.Machine.execVred pr op w t0 t1 s
  | .vsel pr w t0 t1 => Sys2Proof.Machine.execVsel pr w t0 t1 s
  | .vcmp pr op w t0 t1 => Sys2Proof.Machine.execVcmp pr op w t0 t1 s
  | .viota pr w t0 t1 => Sys2Proof.Machine.execViota pr w t0 t1 s
  | .vcnt pr w t0 t1 => Sys2Proof.Machine.execVcnt pr w t0 t1 s
  | .ldB pr m t0 t1 => Sys2Proof.Machine.execLdB pr m t0 t1 s
  | .ldBu pr m t0 t1 => Sys2Proof.Machine.execLdBu pr m t0 t1 s
  | .ldH pr m t0 t1 => Sys2Proof.Machine.execLdH pr m t0 t1 s
  | .ldHu pr m t0 t1 => Sys2Proof.Machine.execLdHu pr m t0 t1 s
  | .ldW pr m t0 t1 => Sys2Proof.Machine.execLdW pr m t0 t1 s
  | .ldWu pr m t0 t1 => Sys2Proof.Machine.execLdWu pr m t0 t1 s
  | .ldD pr m t0 t1 => Sys2Proof.Machine.execLdD pr m t0 t1 s
  | .vld pr fmt m t0 t1 => Sys2Proof.Machine.execVld pr fmt m t0 t1 s
  | .vgather pr sz m t0 t1 => Sys2Proof.Machine.execVgather pr sz m t0 t1 s
  | .pf pr lsid off => Sys2Proof.Machine.execPf pr lsid off s
  | .cinv pr lsid => Sys2Proof.Machine.execCinv pr lsid s
  | .cwb pr lsid => Sys2Proof.Machine.execCwb pr lsid s
  | .stB pr m => Sys2Proof.Machine.execStB pr m s
  | .stH pr m => Sys2Proof.Machine.execStH pr m s
  | .stW pr m => Sys2Proof.Machine.execStW pr m s
  | .stD pr m => Sys2Proof.Machine.execStD pr m s
  | .vst pr m => Sys2Proof.Machine.execVst pr m s
  | .vscatter pr sz m => Sys2Proof.Machine.execVscatter pr sz m s
  | .fence pr lsid scope ord => Sys2Proof.Machine.execFence pr lsid scope ord s
  | .amoAdd pr sz m t0 t1 => Sys2Proof.Machine.execAmoAdd pr sz m t0 t1 s
  | .amoAnd pr sz m t0 t1 => Sys2Proof.Machine.execAmoAnd pr sz m t0 t1 s
  | .amoOr pr sz m t0 t1 => Sys2Proof.Machine.execAmoOr pr sz m t0 t1 s
  | .amoXor pr sz m t0 t1 => Sys2Proof.Machine.execAmoXor pr sz m t0 t1 s
  | .amoMin pr sz m t0 t1 => Sys2Proof.Machine.execAmoMin pr sz m t0 t1 s
  | .amoMax pr sz m t0 t1 => Sys2Proof.Machine.execAmoMax pr sz m t0 t1 s
  | .amoMinu pr sz m t0 t1 => Sys2Proof.Machine.execAmoMinu pr sz m t0 t1 s
  | .amoMaxu pr sz m t0 t1 => Sys2Proof.Machine.execAmoMaxu pr sz m t0 t1 s
  | .amoSwap pr sz m t0 t1 => Sys2Proof.Machine.execAmoSwap pr sz m t0 t1 s
  | .amoCas pr sz m t0 t1 => Sys2Proof.Machine.execAmoCas pr sz m t0 t1 s
  | .amoFadd pr m t0 t1 => Sys2Proof.Machine.execAmoFadd pr m t0 t1 s
  | .rgnBeg pr reg off => Sys2Proof.Machine.execRgnBeg pr reg off s
  | .rgnEnd pr => Sys2Proof.Machine.execRgnEnd pr s
  | .rgnAbt pr => Sys2Proof.Machine.execRgnAbt pr s
  | .rgnStat pr t0 t1 => Sys2Proof.Machine.execRgnStat pr t0 t1 s
  | .barInit pr bar ahead => Sys2Proof.Machine.execBarInit pr bar ahead s
  | .barArr pr bar t0 t1 => Sys2Proof.Machine.execBarArr pr bar t0 t1 s
  | .barWait pr bar => Sys2Proof.Machine.execBarWait pr bar s
  | .evtSig pr scope => Sys2Proof.Machine.execEvtSig pr scope s
  | .evtWait pr scope => Sys2Proof.Machine.execEvtWait pr scope s
  | .wqGive pr scope t0 t1 => Sys2Proof.Machine.execWqGive pr scope t0 t1 s
  | .wqTake pr scope t0 t1 => Sys2Proof.Machine.execWqTake pr scope t0 t1 s
  | .wqSteal pr scope t0 t1 => Sys2Proof.Machine.execWqSteal pr scope t0 t1 s
  | .launch pr t0 t1 => Sys2Proof.Machine.execLaunch pr t0 t1 s
  | .yield pr => Sys2Proof.Machine.execYield pr s
  | .cpy pr sreg => Sys2Proof.Machine.execCpy pr sreg s
  | .cpyQ pr sreg => Sys2Proof.Machine.execCpyQ pr sreg s
  | .bbarInit pr => Sys2Proof.Machine.execBbarInit pr s
  | .bbarWait pr sreg => Sys2Proof.Machine.execBbarWait pr sreg s
  | .mma pr sreg acc kq => Sys2Proof.Machine.execMma pr sreg acc kq s
  | .mmaSp pr sreg acc kq => Sys2Proof.Machine.execMmaSp pr sreg acc kq s
  | .mring pr sreg acc n kq => Sys2Proof.Machine.execMring pr sreg acc n kq s
  | .mzero pr acc => Sys2Proof.Machine.execMzero pr acc s
  | .mld pr sreg acc => Sys2Proof.Machine.execMld pr sreg acc s
  | .mst pr fmt sreg acc => Sys2Proof.Machine.execMst pr fmt sreg acc s
  | .cmtag pr tag scale => Sys2Proof.Machine.execCmtag pr tag scale s
  | .cvtN pr tag rm sat t0 t1 => Sys2Proof.Machine.execCvtN pr tag rm sat t0 t1 s
  | .cvtW pr tag t0 t1 => Sys2Proof.Machine.execCvtW pr tag t0 t1 s
  | .bscale pr t0 t1 => Sys2Proof.Machine.execBscale pr t0 t1 s
  | .srd pr num t0 t1 => Sys2Proof.Machine.execSrd pr num t0 t1 s
  | .swr pr num => Sys2Proof.Machine.execSwr pr num s
  | .sret pr => Sys2Proof.Machine.execSret pr s
  | .tlbinv pr scope all => Sys2Proof.Machine.execTlbinv pr scope all s
  | .cyc pr t0 t1 => Sys2Proof.Machine.execCyc pr t0 t1 s
  | .frameGrant cell => Sys2Proof.Machine.execFrameGrant cell s
  | .blockFetch fid seq => Sys2Proof.Machine.execBlockFetch fid seq s
  | .blockCommit fid => Sys2Proof.Machine.execBlockCommit fid s
  | .trapDelivery fid => Sys2Proof.Machine.execTrapDelivery fid s
  | .loadReply oid => Sys2Proof.Machine.execLoadReply oid s
  | .homeWrite oid piece => Sys2Proof.Machine.execHomeWrite oid piece s
  | .invalidationAck line cell => Sys2Proof.Machine.execInvalidationAck line cell s
  | .l1Invalidate cell line => Sys2Proof.Machine.execL1Invalidate cell line s
  | .homeRead oid piece => Sys2Proof.Machine.execHomeRead oid piece s
  | .writeAck oid => Sys2Proof.Machine.execWriteAck oid s
  | .l1Evict cell line => Sys2Proof.Machine.execL1Evict cell line s
  | .llcEvict line => Sys2Proof.Machine.execLlcEvict line s
  | .pageWalk fid va => Sys2Proof.Machine.execPageWalk fid va s
  | .tableUpdateWrite oid piece => Sys2Proof.Machine.execTableUpdateWrite oid piece s
  | .tlbinvComplete fid => Sys2Proof.Machine.execTlbinvComplete fid s
  | .bridgeModuleRead oid piece => Sys2Proof.Machine.execBridgeModuleRead oid piece s
  | .bridgeModuleWrite oid piece => Sys2Proof.Machine.execBridgeModuleWrite oid piece s
  | .bridgeDropHalf half => Sys2Proof.Machine.execBridgeDropHalf half s
  | .go half exclusive => Sys2Proof.Machine.execGo half exclusive s
  | .snpData half => Sys2Proof.Machine.execSnpData half s
  | .snpInv half => Sys2Proof.Machine.execSnpInv half s
  | .snpCur half => Sys2Proof.Machine.execSnpCur half s
  | .writePull half => Sys2Proof.Machine.execWritePull half s
  | .goWritePullDrop half => Sys2Proof.Machine.execGoWritePullDrop half s
  | .memRd half own => Sys2Proof.Machine.execMemRd half own s
  | .memRdData half => Sys2Proof.Machine.execMemRdData half s
  | .memWr half data => Sys2Proof.Machine.execMemWr half data s
  | .birspi half => Sys2Proof.Machine.execBirspi half s
  | .atomicOpCompletion oid ok => Sys2Proof.Machine.execAtomicOpCompletion oid ok s
  | .slotGrant => Sys2Proof.Machine.execSlotGrant s
  | .regionRead oid piece => Sys2Proof.Machine.execRegionRead oid piece s
  | .regionWrite oid piece => Sys2Proof.Machine.execRegionWrite oid piece s
  | .regionAtomic oid piece => Sys2Proof.Machine.execRegionAtomic oid piece s
  | .edgeRequest => Sys2Proof.Machine.execEdgeRequest s
  | .stallRetry oid piece => Sys2Proof.Machine.execStallRetry oid piece s
  | .endReport fid => Sys2Proof.Machine.execEndReport fid s
  | .regionCommit slot => Sys2Proof.Machine.execRegionCommit slot s
  | .regionAbort slot cause => Sys2Proof.Machine.execRegionAbort slot cause s
  | .commitAnswer fid => Sys2Proof.Machine.execCommitAnswer fid s
  | .abortAnswer fid => Sys2Proof.Machine.execAbortAnswer fid s
  | .dependenceTimeout slot => Sys2Proof.Machine.execDependenceTimeout slot s
  | .recoveryGo who result => Sys2Proof.Machine.execRecoveryGo who result s
  | .leaseExpiry => Sys2Proof.Machine.execLeaseExpiry s
  | .startWatchdog => Sys2Proof.Machine.execStartWatchdog s
  | .goWord win => Sys2Proof.Machine.execGoWord win s
  | .groupPlace die => Sys2Proof.Machine.execGroupPlace die s
  | .ageingPeriod lid => Sys2Proof.Machine.execAgeingPeriod lid s
  | .preemptTimer die => Sys2Proof.Machine.execPreemptTimer die s
  | .preemption gid => Sys2Proof.Machine.execPreemption gid s
  | .segmentReport lid die => Sys2Proof.Machine.execSegmentReport lid die s
  | .copyStart cell => Sys2Proof.Machine.execCopyStart cell s
  | .copyBeat cell cmd len => Sys2Proof.Machine.execCopyBeat cell cmd len s
  | .copyFinish cell cmd => Sys2Proof.Machine.execCopyFinish cell cmd s
  | .bbarInitPerform cell cmd => Sys2Proof.Machine.execBbarInitPerform cell cmd s
  | .markTake cell => Sys2Proof.Machine.execMarkTake cell s
  | .nodeCommandStart cell => Sys2Proof.Machine.execNodeCommandStart cell s
  | .nodeCommandFinish cell => Sys2Proof.Machine.execNodeCommandFinish cell s
  | .ringStart cell => Sys2Proof.Machine.execRingStart cell s
  | .ringHandover cell => Sys2Proof.Machine.execRingHandover cell s
  | .ringTimeout cell => Sys2Proof.Machine.execRingTimeout cell s
  | .ldmapWrite who p value => Sys2Proof.Machine.execLdmapWrite who p value s
  | .lwcfgWrite who w value => Sys2Proof.Machine.execLwcfgWrite who w value s
  | .lcancel who value => Sys2Proof.Machine.execLcancel who value s
  | .gmove who value => Sys2Proof.Machine.execGmove who value s
  | .debugHold who gid => Sys2Proof.Machine.execDebugHold who gid s
  | .debugAccess gid off write value => Sys2Proof.Machine.execDebugAccess gid off write value s
  | .debugRelease gid => Sys2Proof.Machine.execDebugRelease gid s
  | .warmReset who die save => Sys2Proof.Machine.execWarmReset who die save s
  | .fenceOnly who die save => Sys2Proof.Machine.execFenceOnly who die save s
  | .readmit who die => Sys2Proof.Machine.execReadmit who die s
  | .linkQuiesce die => Sys2Proof.Machine.execLinkQuiesce die s
  | .dieResetDone die => Sys2Proof.Machine.execDieResetDone die s
  | .bistDone die code => Sys2Proof.Machine.execBistDone die code s
  | .linkDown die lost => Sys2Proof.Machine.execLinkDown die lost s
  | .beatReplay die => Sys2Proof.Machine.execBeatReplay die s
  | .creditReturn link chan n crcOk => Sys2Proof.Machine.execCreditReturn link chan n crcOk s
  | .creditAudit link chan => Sys2Proof.Machine.execCreditAudit link chan s
  | .gateTimer cell => Sys2Proof.Machine.execGateTimer cell s
  | .cellWake cell => Sys2Proof.Machine.execCellWake cell s
  | .uncorrectableError place loc => Sys2Proof.Machine.execUncorrectableError place loc s
  | .correctedError place loc => Sys2Proof.Machine.execCorrectedError place loc s
  | .thermalThrottle step sector => Sys2Proof.Machine.execThermalThrottle step sector s
  | .clkstepWrite who value => Sys2Proof.Machine.execClkstepWrite who value s
  | .moduleStart outcome => Sys2Proof.Machine.execModuleStart outcome s
  | .claim who value => Sys2Proof.Machine.execClaim who value s
  | .startcfgWrite who value => Sys2Proof.Machine.execStartcfgWrite who value s
  | .moderrClear who value => Sys2Proof.Machine.execModerrClear who value s
  | .registerWrite who off value => Sys2Proof.Machine.execRegisterWrite who off value s
  | .getVersion port => Sys2Proof.Machine.execGetVersion port s
  | .getCapabilities port => Sys2Proof.Machine.execGetCapabilities port s
  | .negotiateAlgorithms port offered => Sys2Proof.Machine.execNegotiateAlgorithms port offered s
  | .getDigests port => Sys2Proof.Machine.execGetDigests port s
  | .getCertificate port slot => Sys2Proof.Machine.execGetCertificate port slot s
  | .challenge port nonce => Sys2Proof.Machine.execChallenge port nonce s
  | .getMeasurements port index nonce => Sys2Proof.Machine.execGetMeasurements port index nonce s
  | .keyExchange port data => Sys2Proof.Machine.execKeyExchange port data s
  | .finish port proof => Sys2Proof.Machine.execFinish port proof s
  | .keyUpdate port => Sys2Proof.Machine.execKeyUpdate port s
  | .heartbeat port => Sys2Proof.Machine.execHeartbeat port s
  | .endSession port => Sys2Proof.Machine.execEndSession port s
  | .vendorDefined port keyId key => Sys2Proof.Machine.execVendorDefined port keyId key s
  | .ideKm port stream key => Sys2Proof.Machine.execIdeKm port stream key s

end Sys2Proof.Machine
end

