-- ==== Sys2Proof/Machine/Outside.lean ====
section
/-! DEFINITION. What the outside world does to the machine beside the events of the opcode table: host writes to host memory,
AtomicOps of hosts to device memory, the driver's HDM ranges, the ports' partners, and power (R126, R127, R148, R154,
R302, R304). -/

namespace Sys2Proof.Machine

/-- R148, R154: a host writes 64 bytes of its own memory, which enters the order of each location's writes here; while
the bridge holds a copy of the half, the host has first to snoop it away (R123), and the write waits. -/
def State.hostStore (s : State) (half : Nat) (data : Vec) : State :=
  if (portOf (64 * half)).isNone then s
  else if (s.half half).st = .i then s.toHost half (natLe 64 data.toNat)
  else s.putBack (.hostStore half data)

/-- The new value of a host's AtomicOp: FetchAdd, Swap, or CAS, none when the comparison fails (R127). -/
def atomicOpValue (op width old a b : Nat) : Option Nat :=
  match op with
  | 0 => some ((old + a) % 256 ^ width)
  | 1 => some (a % 256 ^ width)
  | _ => if old = a % 256 ^ width then some (b % 256 ^ width) else none

/-- R127: an AtomicOp of a host completes at device memory: at the home of its line, in the order of the line's writes
(R97), and the completion carries the old value; on a line that is marked uncorrectable it performs nothing and the host
gets CXL poison with the data (R297). It is an access of the HDM ranges, and a misaligned one is none
(log 67). -/
def State.hostAtomic (s : State) (addr op width : Nat) (a b : Word) : State :=
  if !s.inHdm (halfOf addr) ∨ !(width == 4 || width == 8) ∨ addr % width ≠ 0 ∨ 2 < op then s
  else if !s.homeFree (lineOf addr) then s.putBack (.hostAtomic addr op width a b)
  else
    let loc := { hbmLoc addr with key := s.lineKey.getD (lineOf addr) 0 }
    match s.engineRead loc width with
    | (none, s) => s.putBack (.hostAtomic addr op width a b)
    | (some bs, s) =>
      if s.marked .hbm addr width then s.emit (.atomicReply addr (leWord bs) true)
      else
        match atomicOpValue op width (leNat bs) a.toNat b.toNat with
        | none => s.emit (.atomicReply addr (leWord bs) false)
        | some v =>
          match s.engineWrite loc (natLe width v) with
          | (some t, _) => t.emit (.atomicReply addr (leWord bs) false)
          | (none, s) => s.putBack (.hostAtomic addr op width a b)

/-- One input from outside that is no event of the opcode table. A driver adds an HDM range; the spec gives no register by
which it would change or remove one, so a range stands until the module is reset (DESIGN CHOICE, log 79). -/
def State.outside (s : State) : Input → State
  | .ev _ => s
  | .hostStore half data => s.hostStore half data
  | .hostAtomic addr op width a b => s.hostAtomic addr op width a b
  | .hdmRange base size => { s with hdmRanges := s.hdmRanges ++ [(base, size)] }
  | .partner port rate => if port < 12 then { s with partners := s.partners.put port rate } else s
  | .powerCycle => s.moduleReset

end Sys2Proof.Machine
end

