-- ==== Sys2Proof/Machine/Schedule.lean ====
section
/-! DEFINITION. Which action comes next: what the machine may do of itself, the inputs from outside, the passing of time, and
a state that holds one instruction ready to run (R7, R28, R160, R247, R308). -/

namespace Sys2Proof.Machine

/-! ### Time (R247, R298, R308) -/

/-- Main-clock cycles in `n` units of 0.5 ns at the current step (R298). -/
def State.cyclesIn (s : State) (n : Nat) : Nat :=
  match nfld (s.reg 0x40) 0 2 with
  | 0 => n
  | 1 => n * 4 / 5
  | _ => n * 3 / 5

/-- R308: the cycles of `n` that the power class of its group has withheld from a cell's node: some number of them, which
is free, while a command of the node is in progress (R200, log 80). -/
def State.countWithheld (s : State) (cell n : Nat) : State :=
  match (s.cell cell).node.queue with
  | c :: _ => if c.started then countCell cell 12 (Config.withheld (s.tick + cell) % (n + 1)) s else s
  | [] => s

/-- Time passes by one step of the model: as long as it takes, which is free (log 5), and at least one unit of the time base
in a step of the round, so that it never stands still for good (R247); cycle sources count (R308). -/
def State.pass (s : State) : State :=
  let t := s.time + Config.elapsed s.tick + (if s.fairStep then 1 else 0)
  let n := s.cyclesIn t - s.cyclesIn s.time
  let s := { s with time := t, tick := s.tick + 1 }
  let s := (s.cells.map Prod.fst).foldl (fun s c => (countCell c 1 n s).countWithheld c n) s
  if s.ctl.any (fun e => 0x2000 ≤ e.1 && e.1 < 0x3000 && e.2 == 1) then
    (List.range 32).foldl (fun s sec => countSector sec 1 n s) s
  else s

/-! ### What may come next -/

/-- Events as actions. -/
def evs (l : List Instr) : List Act := l.map Act.ev

/-- The words of a block that have not fired, or its fetch (R8, R16). -/
def frameActs (fid : Nat) (fr : Frame) : List Act :=
  if fr.fetched then (fr.indices.filter (fun k => !fr.fired.contains k)).map (fun k => Act.fire fid fr.seq k)
  else evs [Instr.blockFetch fid fr.seq]

/-- Actions of a fibre (R29, R8, R16, R24, R25, R112, R114, R173, R179). -/
def fibreActs (fid : Nat) (f : Fibre) : List Act :=
  let ends := evs [Instr.blockCommit fid, Instr.trapDelivery fid, Instr.tlbinvComplete fid, Instr.endReport fid
    , Instr.commitAnswer fid, Instr.abortAnswer fid]
  let walks := match f.next with
    | some a => evs [Instr.pageWalk fid a]
    | none => []
  (f.frames.flatMap (frameActs fid)).append (ends.append walks)

/-- Actions of a piece of an access. -/
def pieceActs (oid n : Nat) : List Act :=
  evs [Instr.homeRead oid n, Instr.homeWrite oid n, Instr.tableUpdateWrite oid n, Instr.bridgeModuleRead oid n
    , Instr.bridgeModuleWrite oid n, Instr.regionRead oid n, Instr.regionWrite oid n, Instr.regionAtomic oid n
    , Instr.stallRetry oid n]

/-- Actions of an access (R119, R123, R147, R165, R166, R169). -/
def accessActs (oid : Nat) (a : Access) : List Act :=
  (evs [Instr.loadReply oid, Instr.writeAck oid]).append ((List.range a.pieces.length).flatMap (pieceActs oid))

/-- Actions of a copy; the length of a beat is free (log 6). -/
def copyActs (tick cell : Nat) (k : CopyCmd) : List Act :=
  evs [Instr.copyBeat cell k.id 128, Instr.copyBeat cell k.id (Config.freeByte tick).toNat, Instr.copyFinish cell k.id
    , Instr.bbarInitPerform cell k.id]

/-- Actions of a cell: its frames, its engines, its node and its L1; a gated one of a die that is not `down` may wake. -/
def cellActs (tick cell : Nat) (c : CellSt) (down : Bool) : List Act :=
  let own := evs [Instr.frameGrant cell, Instr.copyStart cell, Instr.markTake cell, Instr.nodeCommandStart cell
    , Instr.nodeCommandFinish cell, Instr.ringStart cell, Instr.ringHandover cell, Instr.ringTimeout cell]
  let own := own.append (evs (if c.gated && !down then [Instr.cellWake cell] else []))
  own.append ((c.copies.flatMap (copyActs tick cell)).append (evs (c.l1.map (fun e => Instr.l1Evict cell e.1))))

/-- The invalidations of a write at its home (R119). -/
def sharerActs (line : Nat) (h : HomeWrite) : List Act :=
  h.waits.flatMap (fun c => evs [Instr.l1Invalidate c line, Instr.invalidationAck line c])

/-- Actions of the homes, bridges and caches (R119, R120, R123). -/
def homeActs (s : State) : List Act :=
  let caches := evs ((s.llc.map (fun e => Instr.llcEvict e.1)).append (s.halves.map (fun e => Instr.bridgeDropHalf e.1)))
  (s.homeQ.flatMap (fun e => sharerActs e.1 e.2)).append caches

/-- Actions of the Virga unit (R162, R170, R171, R174). -/
def virgaActs (v : Virga) : List Act :=
  (evs [Instr.slotGrant, Instr.edgeRequest]).append
    (v.slots.flatMap (fun e => evs [Instr.regionCommit e.1, Instr.dependenceTimeout e.1]))

/-- Actions of a die and its segment (R194, R196, R295). -/
def dieActs (d : Nat) : List Act := evs [Instr.groupPlace d, Instr.preemptTimer d, Instr.linkQuiesce d, Instr.dieResetDone d]

/-- The audits of the links: base links, both ways, and the base mesh (R291, R292, log 21). -/
def auditActs : List Act := ((List.range 192).filter isLink).flatMap (fun l => evs ((List.range 17).map (Instr.creditAudit l)))

/-- The power gates of the cells, while gating is on (R293). -/
def State.gateActs (s : State) : List Act :=
  if fld (s.reg 0x48) 0 1 = 1 then (List.range 32).flatMap (fun d => evs ((cellsOfDie d).map Instr.gateTimer)) else []

/-- Actions of a launch (R195, R198). -/
def launchActs (lid : Nat) : List Act :=
  evs (Instr.ageingPeriod lid :: (List.range 32).map (Instr.segmentReport lid))

/-- The pre-emptions that have been asked for and wait until nothing of the group stands between two effects (R250); a group
that is to be discarded is not saved first (R202, R296). -/
def State.stopActs (s : State) : List Act :=
  evs ((s.groups.filter (fun e => e.2.stopping && e.2.state == .running && !s.cancelled e.2.lid
    && (s.die e.2.die).state == .live)).map (fun e => Instr.preemption e.1))

/-- Actions of the dispatcher, the dies and the controller (R188, R194 to R198, R250, R292, R295, R300, R302). -/
def baseActs (s : State) : List Act :=
  let ctl := evs (Instr.startWatchdog :: Instr.leaseExpiry :: (List.range 24).map Instr.goWord)
  ctl.append (((List.range 32).flatMap dieActs).append (s.stopActs.append ((s.launches.flatMap (fun e => launchActs e.1)).append
    (auditActs.append s.gateActs))))

/-- All that the machine may do of itself. An action whose conditions do not hold changes nothing but the time. -/
def State.candidates (s : State) : List Act :=
  let fs := s.fibres.flatMap (fun e => fibreActs e.1 e.2)
  let accs := s.accesses.flatMap (fun e => accessActs e.1 e.2)
  let cells := s.cells.flatMap (fun e => cellActs s.tick e.1 e.2 (s.dieDown (dieOfCell e.1)))
  fs.append (accs.append (cells.append ((homeActs s).append ((virgaActs s.virga).append (baseActs s)))))

/-- What the machine may do but never has to: dropping a line or a half, and walking ahead of a fetch. -/
def Act.optional : Act → Bool
  | .ev (.l1Evict _ _) | .ev (.llcEvict _) | .ev (.bridgeDropHalf _) | .ev (.pageWalk _ _) => true
  | _ => false

/-- The oldest input from outside is taken. -/
def State.nextInput (s : State) : Option Act × State :=
  match s.inputs with
  | .ev i :: rest => (some (.ev i), { s with inputs := rest })
  | x :: rest => (some (.outside x), { s with inputs := rest })
  | [] => (none, s)

/-- R29, R160, R171, R201: what the rules promise happens at last. The round takes, one after the other, each action that
could be taken when it began and still can; at its end the oldest input is taken and a new round begins (log 4). -/
def State.fairTurn (s : State) (own : List Act) : Option Act × State :=
  match s.round.dropWhile (fun a => !own.contains a) with
  | a :: rest => (some a, { s with round := rest })
  | [] => { s with round := own.filter (fun a => !a.optional) }.nextInput

/-- The next action: the one already chosen; else a free choice (log 4) between the machine's own and the oldest input
from outside, which is taken from its queue, or the round's. -/
def State.chosen (s : State) : Option Act × State :=
  match s.turn with
  | some a => (some a, { s with turn := none })
  | none =>
    let own := s.candidates
    let s := { s with steps := s.steps + 1 }
    if s.fairStep then s.fairTurn own
    else
      let n := Config.pick s.tick % (own.length + 1)
      if n < own.length then (own[n]?, s) else s.nextInput

/-- The instruction that stands at K of a block. -/
def State.instrAt (s : State) (fid seq k : Nat) : Option Instr := do
  let f ← s.fibre? fid
  let fr ← f.frame? seq
  fr.instr k

/-- The state in which an instruction of a block acts. -/
def State.at_ (s : State) (fid seq k : Nat) : State := { s with cur := some { fid := fid, seq := seq, k := k } }

/-- The state in which an event acts. -/
def State.away (s : State) : State := { s with cur := none }

/-- One action. -/
def State.act (s : State) : Option Act → Host.Outcome State Fault Refusal
  | some (.fire fid seq k) =>
    match s.instrAt fid seq k with
    | some i => exec i (s.at_ fid seq k)
    | none => .next s
  | some (.ev i) => exec i s.away
  | some (.outside x) => .next (s.away.outside x)
  | none => .next s

/-! ### One instruction made ready -/

/-- A token that fills a slot. -/
def primeToken : SlotW → Option Token
  | .none => none
  | .w64 | .any => some (.val 0)
  | .v512 => some (.vec 0 7)

/-- The slots of word 0 filled, and its predicate as its suffix asks. -/
def primeSlots (i : Instr) : Dict Token :=
  let add := fun (d : Dict Token) (key : Nat) (t : Option Token) => match t with
    | some t => d.put key t
    | none => d
  let p := match predOf i with
    | .always => none
    | .onTrue => some (.val 1)
    | .onFalse => some (.val 0)
  add (add (add (add [] (slotL 0) (primeToken (slotsOf i).l)) (slotR 0) (primeToken (slotsOf i).r)) (slotP 0) p)
    (slotX 0) (primeToken (slotsOf i).x)

/-- A fetched block with one word, its operands arrived. -/
def primeFrame (w : Word) : Frame :=
  let fr := { Frame.fresh 0 0x40 with fetched := true, words := [w], gw := BitVec.allOnes 64, vw := BitVec.allOnes 32 }
  match fr.instr 0 with
  | some i => { fr with slots := primeSlots i }
  | none => fr

/-- A launch of one group of one cell with one fibre. -/
def primeLaunch : Launch :=
  { Launch.of 0 1 0 (List.replicate 31 0) with started := true, hdr := List.replicate 8 0, ctx := List.replicate 4 0 }

/-- The machine with one group of one fibre placed on cell 0, whose one block in flight is `fr`, about to fire its word 0. -/
def State.primed (s : State) (fr : Frame) : State :=
  let g := { Group.fresh 0 0 0 0 s.time with state := .running }
  let f := { s.entryFibre 0 g primeLaunch 0 0 with frames := [fr], nextSeq := 1 }
  { s with
    launches := s.launches.put 0 primeLaunch, groups := s.groups.put 0 g, fibres := s.fibres.put 0 f
    turn := some (.fire 0 0 0) }

end Sys2Proof.Machine
end

