-- ==== Sys2Proof/Machine/Step.lean ====
section
/-! DEFINITION. One step of the machine, and the state that is about to run one instruction. -/

namespace Sys2Proof.Machine

/-- Time passes and the next action takes place (R7, R28, R247). -/
def step (s : State) : Host.Outcome State Fault Refusal :=
  let c := s.chosen
  c.2.pass.act c.1

/-- The machine with an instruction in the first word of a fetched block, about to fire: a launch, its group and its fibre
are placed, and the word's operands have arrived (how a program comes to run from reset: log 23). -/
def State.withFetchWord (s : State) (nbits w : Nat) : State :=
  s.primed (primeFrame (BitVec.ofNat 64 (w % 2 ^ nbits)))

end Sys2Proof.Machine
end

