-- ==== Sys2Proof/Safety.lean ====
section
/-! DEFINITION. The terms in which statements speak of the machine: when an instruction fires, what it
leaves as it was, and what a state must keep. -/

namespace Sys2Proof.Machine

/-- A run: each state is what the step makes of the one before. -/
def IsRun (r : Nat → State) : Prop := ∀ n, step (r n) = .next (r (n + 1))

/-- A run is fair: an action that the machine may take from some time on for good, and that is no optional one, is taken.
The rounds of `State.fairTurn` bring this about (R29, R160, R171, R201, log 4). -/
def Fair (r : Nat → State) : Prop :=
  ∀ n x, x.optional = false → (∀ m, n ≤ m → x ∈ (r m).candidates) → ∃ m, n ≤ m ∧ (r m).chosen.1 = some x

/-- R201, second promise, as a property of a run: a group that waits on a die whose weight in its launch's partition stays
nonzero runs at last, unless its launch retires before. -/
def PlacesAll (r : Nat → State) : Prop :=
  ∀ n gid g l, (r n).group? gid = some g → g.waiting = true → (r n).launchOf g = some l →
    (∀ m, n ≤ m → (r m).weight l.part g.die ≠ 0) →
    ∃ m, n ≤ m ∧ (((r m).group? gid).map Group.state = some .running
      ∨ ((r m).launches.get? g.lid).map Launch.retired ≠ some false)

/-- The instruction `i` acts at the place `a`: `State.cur` names it and every condition of its firing
holds (R8, R18, R22). -/
def Fires (s : State) (i : Instr) (a : Acting) : Prop := s.acting i = some a ∧ a.canFire i = true

/-- A fibre keeps its registers: general, vector and system registers, the level, and the pending bits. -/
def Fibre.SameRegs (f f' : Fibre) : Prop :=
  f'.g = f.g ∧ f'.v = f.v ∧ f'.vtag = f.vtag ∧ f'.gpend = f.gpend ∧ f'.vpend = f.vpend ∧ f'.level = f.level
    ∧ f'.bankA = f.bankA ∧ f'.bankS = f.bankS ∧ f'.bankM = f.bankM ∧ f'.fcsr = f.fcsr ∧ f'.srng = f.srng
    ∧ f'.rgnh = f.rgnh ∧ f'.stepReg = f.stepReg ∧ f'.sdeleg = f.sdeleg ∧ f'.mdeleg = f.mdeleg
    ∧ f'.xroot = f.xroot ∧ f'.xown = f.xown ∧ f'.xkeys = f.xkeys ∧ f'.ncbase = f.ncbase ∧ f'.nclim = f.nclim

/-- Every fibre keeps its registers, and no fibre comes or goes. -/
def State.SameRegs (s t : State) : Prop :=
  ∀ fid, match s.fibre? fid, t.fibre? fid with
    | some f, some f' => f.SameRegs f'
    | none, none => True
    | _, _ => False

/-- Every byte reads as before: HBM and host memory at their homes, cell memory and its granule tags, and
the data that host bridges hold. -/
def State.SameBytes (s t : State) : Prop :=
  (∀ a key, t.homeByte a key = s.homeByte a key) ∧ (∀ a, t.cmem.byte a = s.cmem.byte a)
    ∧ (∀ a, t.granule a = s.granule a) ∧ (∀ h, t.halves.get? h = s.halves.get? h)

/-- The memories of a state have their canonical form. -/
def State.memWf (s : State) : Prop := s.mem.wf = true ∧ s.cmem.wf = true

/-- The magnitude m * 2^e of a finite number. -/
def Num.abs (x : Num) : ℚ := (x.m : ℚ) * (2 : ℚ) ^ x.e

/-- Its value, with its sign. -/
def Num.val (x : Num) : ℚ := if x.neg = true then -x.abs else x.abs

/-- R84: `r` is an exact magnitude, of which `lt q` says that it lies above q and `eq q` that it is q, rounded once to a
format under the sign `neg`, with its flags. `c` counts through the magnitudes of the format, whose values rise with
their codes; that of infinity stands for the power of two above the largest finite value. -/
def Fmt.Rounds (F : Fmt) (rm : RM) (ftz neg : Bool) (lt eq : ℚ → Prop) (r : Nat × FFlags) : Prop :=
  let v := fun (c : Nat) => (F.num c).abs
  let away := (rm = .rdn ∧ neg = true) ∨ (rm = .rup ∧ neg = false)
  let flushed := (F.signed neg 0, flagUF ||| flagNX)
  (∀ c < F.inf, eq (v c) →
    (ftz = true → 0 < c → c < 2 ^ F.mb → r = flushed)
    ∧ (ftz = false ∨ c = 0 ∨ 2 ^ F.mb ≤ c → r = (F.signed neg c, 0)))
  ∧ (∀ c < F.inf, lt (v c) → ¬lt (v (c + 1)) → ¬eq (v (c + 1)) →
    let mid := (v c + v (c + 1)) / 2
    let up := away ∨ (rm = .rne ∧ (lt mid ∨ (eq mid ∧ c % 2 = 1)))
    (ftz = true → c + 1 < 2 ^ F.mb → r = flushed)
    ∧ (ftz = false ∨ 2 ^ F.mb ≤ c →
      (up → r.1 = F.signed neg (c + 1)) ∧ (¬up → r.1 = F.signed neg c)
      ∧ (up → c + 1 = F.inf → r.2 = flagOF ||| flagNX)
      ∧ (¬up ∨ c + 1 ≠ F.inf →
        (2 ^ F.mb ≤ c → r.2 = flagNX) ∧ (c + 1 < 2 ^ F.mb → r.2 = flagUF ||| flagNX)
        ∧ (c + 1 = 2 ^ F.mb → r.2 = flagNX ∨ r.2 = flagUF ||| flagNX))))
  ∧ (lt (v F.inf) ∨ eq (v F.inf) →
    (away ∨ rm = .rne → r = (F.signed neg F.inf, flagOF ||| flagNX))
    ∧ (¬away → rm ≠ .rne → r = (F.signed neg F.max, flagOF ||| flagNX)))

/-- A rational magnitude rounded once (R84). -/
def Fmt.RoundsTo (F : Fmt) (rm : RM) (ftz neg : Bool) (p : ℚ) (r : Nat × FFlags) : Prop :=
  F.Rounds rm ftz neg (fun q => q < p) (fun q => q = p) r

/-- The magnitudes of a format with an exponent range that has no end above (R260, R268), in the order of their codes. -/
def Fmt.grid (F : Fmt) (c : Nat) : ℚ :=
  ((c % 2 ^ F.mb + (if c / 2 ^ F.mb = 0 then 0 else 2 ^ F.mb) : Nat) : ℚ)
    * (2 : ℚ) ^ ((if c / 2 ^ F.mb = 0 then 1 else c / 2 ^ F.mb : Nat) + F.emin - 1 - F.mb : ℤ)

/-- R268, R271: a value that lies a part `d` of the way from a magnitude to the next rounds to the next; `odd`: the lower
one's last bit. -/
def NarrowsUp (rm : NRound) (rnd : Nat) (d : ℚ) (odd : Bool) : Prop :=
  let top := Int.floor (d * 65536)
  let sticky := if (top : ℚ) = d * 65536 then 0 else 1
  (rm = .rne ∧ (1 / 2 < d ∨ (d = 1 / 2 ∧ odd = true))) ∨ (rm = .sr ∧ 65536 ≤ (top.toNat ||| sticky) + rnd)

/-- R268: `code` is the magnitude `p` under a sign, narrowed to a format whose largest finite code is `top`; what rounds
beyond that is `far`. -/
def Fmt.Narrows (F : Fmt) (top : Nat) (rm : NRound) (rnd : Nat) (neg : Bool) (p : ℚ) (far code : Nat) : Prop :=
  (∀ c ≤ top, p = F.grid c → code = F.signed neg c)
  ∧ (∀ c ≤ top, F.grid c < p → p < F.grid (c + 1) →
    let up := NarrowsUp rm rnd ((p - F.grid c) / (F.grid (c + 1) - F.grid c)) (c % 2 == 1)
    (¬up → code = F.signed neg c) ∧ (up → code = if c = top then far else F.signed neg (c + 1)))
  ∧ (F.grid (top + 1) ≤ p → code = far)

/-- The value of an E3M5 scale (R261). -/
def e3m5Value (c : Nat) : ℚ :=
  if c / 32 = 0 then (c % 32 : Nat) / 128 else (32 + c % 32 : Nat) * (2 : ℚ) ^ ((c / 32 : Nat) - 8 : ℤ)

/-- A slot of a frame that can take a token: empty, of an instruction that has not fired (R19). -/
def Frame.Open (fr : Frame) (t : Target) (owner key : Nat) (w : SlotW) : Prop :=
  (∃ at_, fr.resolve t = some (owner, key, w, at_)) ∧ owner ∉ fr.fired ∧ fr.slots.get? key = none

/-- The state after the instruction at `a` has fired and sent `tok` to its targets, with its flags collected
in the block (R8, R36, R81): the block's frame changes and nothing else. -/
def Acting.sends (a : Acting) (s : State) (i : Instr) (tok : Token) (fl : BitVec 5) : State :=
  a.commit s (({ a.fr.fire a.k with flags := a.fr.flags ||| fl } : Frame).send (targetsOf i) tok)

/-- The state after the instruction at `a` has fired and recorded a fault at its index (R25): poison goes to
its targets. -/
def Acting.records (a : Acting) (s : State) (i : Instr) (c : Cause) (ta : Word) : State :=
  a.commit s (((a.fr.fire a.k).fault a.k c ta .firing).send (targetsOf i) .poison)

/-- `i` completes on a value on `.l` and sends what `f` gives. -/
def Gives1 (i : Instr) (f : Word → Word) : Prop :=
  ∀ s a x, Fires s i a → a.fr.opL a.k = .val x → exec i s = .next (a.sends s i (.val (f x)) 0)

/-- `i` completes on values on `.l` and `.r` and sends what `f` gives. -/
def Gives2 (i : Instr) (f : Word → Word → Word) : Prop :=
  ∀ s a x y, Fires s i a → a.fr.opL a.k = .val x → a.fr.opR a.k = .val y →
    exec i s = .next (a.sends s i (.val (f x y)) 0)

/-- An instruction that only turns operand tokens into one token (R67, R87, R93, R49, R284). -/
def computing : Instr → Bool
  | .mov _ _ _ | .mov3 _ _ _ _ | .mov4 _ _ _ _ _ | .genh _ _ _ _
  | .add _ _ _ | .sub _ _ _ | .mul _ _ _ | .mulh _ _ _ | .mulhu _ _ _ | .div _ _ _ | .divu _ _ _
  | .rem _ _ _ | .remu _ _ _ | .and _ _ _ | .or _ _ _ | .xor _ _ _ | .andn _ _ _ | .shl _ _ _ | .shr _ _ _
  | .sar _ _ _ | .rotl _ _ _ | .clz _ _ _ | .ctz _ _ _ | .popc _ _ _ | .sext _ _ _ _ | .zext _ _ _ _
  | .min _ _ _ | .max _ _ _ | .minu _ _ _ | .maxu _ _ _ | .bfx _ _ _ _ | .bfxu _ _ _ _ | .bfi _ _ _ _
  | .lea _ _ _ _ | .sel _ _ _ | .addi _ _ _ | .muli _ _ _ | .andi _ _ _ | .ori _ _ _ | .xori _ _ _
  | .shli _ _ _ | .shri _ _ _ | .sari _ _ _ | .teq _ _ _ | .tne _ _ _ | .tlt _ _ _ | .tle _ _ _
  | .tltu _ _ _ | .tleu _ _ _ | .tnz _ _ _ | .teqi _ _ _ | .tnei _ _ _ | .tlti _ _ _ | .tlei _ _ _
  | .tltui _ _ _ | .tleui _ _ _ | .fadd _ _ _ _ | .fsub _ _ _ _ | .fmul _ _ _ _ | .ffma _ _ _ _
  | .fdiv _ _ _ _ | .fsqrt _ _ _ _ | .fmin _ _ _ _ | .fmax _ _ _ _ | .fabs _ _ _ _ | .fneg _ _ _ _
  | .fsgnj _ _ _ _ | .feq _ _ _ _ | .flt _ _ _ _ | .fle _ _ _ _ | .fclass _ _ _ _ | .fcvt _ _ _ _ _
  | .vbcast _ _ _ _ | .vext _ _ _ _ | .vins _ _ _ _ | .vperm _ _ _ _ | .vshl _ _ _ _ | .vred _ _ _ _ _
  | .vsel _ _ _ _ | .vcmp _ _ _ _ _ | .viota _ _ _ _ | .vcnt _ _ _ _ | .cvtN _ _ _ _ _ _ | .cvtW _ _ _ _
  | .bscale _ _ _ => true
  | _ => false

/-- `i` completes on operands that are neither null nor poison: the token, the flags. -/
def Computes (i : Instr) (f : Acting → Token × BitVec 5) : Prop :=
  ∀ s a, Fires s i a → badOperand (a.fr.operands a.k i) = none →
    exec i s = .next (a.sends s i (f a).1 (f a).2)

/-- The place of a memory instruction or an engine command that fires: its operands are values, or it is a store whose
data alone is poison (R13); its fibre's context, and whether it stands in a region. -/
structure MemoryFires (s : State) (i : Instr) (a : Acting) (c : Ctx) (inside : Bool) : Prop where
  fires : Fires s i a
  values : noAccess i a = none
  place : a.f.insideRegion a.fr.seq = some inside
  ctx : s.fibreCtx a.f = some c

/-- The block of a read that has entered the load-store queue: it owes the result (R27, R53); a read that R26 holds back is
performed only in a block without a fault. -/
def Acting.readFrame (a : Acting) (x : Access) : Frame :=
  let late := if isAtomic x.ins || x.irrevocable then a.fr.late ++ [a.k] else a.fr.late
  { a.fr.fire a.k with owed := a.fr.owed ++ [a.k], late := late }

/-- A read enters the load-store queue. -/
def Acting.readQueued (a : Acting) (s : State) (x : Access) : State :=
  { (a.commit s (a.readFrame x)).setAccess s.nextId x with nextId := s.nextId + 1 }

/-- A load in the queue does not prove irrevocable by its page while another load of its block has begun that may still call
for a squash (log 24). -/
def Acting.Stays (a : Acting) (t : State) (x : Access) : Prop :=
  x.irrevocable = false ∨ a.fr.careful = true ∨ t.speculates a.fid (a.readFrame x) = false

/-- A load completes its firing as `x`, from the state `s'` that its checks leave: it enters the queue, but for one that
has its block fetched again first (log 24, a choice of the model). -/
def Acting.ReadsOn (a : Acting) (s s' : State) (i : Instr) (x : Access) : Prop :=
  (a.Stays (a.readQueued s' x) x → exec i s = .next (a.readQueued s' x))
    ∧ (¬a.Stays (a.readQueued s' x) x → exec i s = .next ((a.readQueued s' x).squash a.fid a.fr.seq 0))

/-- A store enters the load-store queue, where its bytes stand under its LSID, which has been produced; the blocks of
younger loads that have read a byte of it are squashed (R27, R54). -/
def Acting.storeQueued (a : Acting) (s : State) (x : Access) : State :=
  State.violation { (a.commit s ((a.fr.fire a.k).produce x.lsid)).setAccess s.nextId x with nextId := s.nextId + 1 } x

/-- A load completes its firing: when its checks pass, the access of `n` bytes at `.l` + OFF stands in the queue, in the
parts that are performed as one (R52, R53, R56, R129); else its fault is recorded and poison sent (R25, R55). It waits only
while a host holds a table entry that its translation reads (R126). -/
def LoadQueues (i : Instr) (m : MemF) (n : Nat) (fmt : Bool) : Prop :=
  ∀ s a c inside base, MemoryFires s i a c inside → a.fr.opL a.k = .val base →
    let va := base + m.off.signExtend 64
    let want : Want := { kind := .load, align := if acquires i || fmt then n else 1, inRegion := inside, formats := []
                         amo := none }
    (s.checkWaits c want va n = none →
      (∀ segs s', s.check c want va n = (.ok segs, s') → a.ReadsOn s s' i (newAccess i a c inside
        (piecesOf segs va (pieceCuts va n (onNc segs)) 0 [])
        (if fmt then (segs.map (fun (g : Seg) => g.tag)).getD 0 7 else 7) 0 0))
      ∧ (∀ e s', s.check c want va n = (.error e, s') → exec i s = .next (a.records s' i e.1 e.2)))
    ∧ (∀ t, s.checkWaits c want va n = some t → exec i s = .next t)

/-- A store completes its firing with the low bytes of its data; the entry is marked when its data is poison (R13). One whose
checks fail records the fault and has produced its LSID (R21, R25, R54). -/
def StoreQueues (i : Instr) (m : MemF) (n : Nat) : Prop :=
  ∀ s a c inside base data, MemoryFires s i a c inside → a.fr.opL a.k = .val base →
    (data = match a.fr.opR a.k with | .vec v _ => natLe n v.toNat | t => natLe n t.word.toNat) →
    let va := base + m.off.signExtend 64
    let want : Want := { kind := .store, align := if releases i then n else 1, inRegion := inside, formats := []
                         amo := none }
    (s.checkWaits c want va n = none →
      (∀ segs s', s.check c want va n = (.ok segs, s') → exec i s = .next (a.storeQueued s' (newAccess i a c inside
        (piecesOf segs va (pieceCuts va n (onNc segs)) 0 data) 7 0 0)))
      ∧ (∀ e s', s.check c want va n = (.error e, s') →
        exec i s = .next (a.commit s' (((a.fr.fire a.k).fault a.k e.1 e.2 .firing).produce m.lsid.toNat))))
    ∧ (∀ t, s.checkWaits c want va n = some t → exec i s = .next t)

/-- An atomic completes its firing: it stands in the queue with its operands and owes its result, and the blocks of
younger loads that have read a byte of it are squashed (R27, R98, R141). One whose checks fail records the fault, has
produced its LSID and sends poison (R25, R98). -/
def AtomicQueues (i : Instr) (m : MemF) (n : Nat) (formats : List (BitVec 3)) (op : Nat) : Prop :=
  ∀ s a c inside base, MemoryFires s i a c inside → a.fr.opL a.k = .val base →
    let va := base + m.off.signExtend 64
    let want : Want := { kind := .atomic, align := n, inRegion := inside, formats := formats, amo := some (op, n) }
    (s.checkWaits c want va n = none →
      (∀ segs s', s.check c want va n = (.ok segs, s') →
        let x := newAccess i a c inside (piecesOf segs va [(0, n)] 0 []) 7 (a.fr.opR a.k).word (a.fr.opX a.k).word
        exec i s = .next ((a.readQueued s' x).violation x))
      ∧ (∀ e s', s.check c want va n = (.error e, s') → exec i s = .next (a.commit s'
        ((((a.fr.fire a.k).fault a.k e.1 e.2 .firing).produce m.lsid.toNat).send (targetsOf i) .poison))))
    ∧ (∀ t, s.checkWaits c want va n = some t → exec i s = .next t)

/-- What an instruction of R204 asks before it is performed: its block is the oldest, holds no fault, stands in no
region, and its accesses have performed. -/
structure Performs (s : State) (i : Instr) (a : Acting) (g : Group) (l : Launch) : Prop where
  fires : Fires s i a
  values : badOperand (a.fr.operands a.k i) = none
  outside : a.f.insideRegion a.fr.seq = some false
  ctx : s.ctxOf a.f = some (g, l)
  oldest : a.f.isOldest a.fr.seq = true
  clean : a.fr.faults = []
  done : s.blockDone a = true

/-- The block after an operation of R204 has been performed: the token goes to its targets and the block counts as in
commit. -/
def Acting.performed (a : Acting) (s : State) (i : Instr) (tok : Token) : State :=
  s.setFrame a.fid (({ a.fr with inCommit := true }.fire a.k).send (targetsOf i) tok)

/-- An engine command completes its firing: it stands among the block's commands with its operands, to be handed over
at commit (R24, R230, R276). -/
def CommandQueues (i : Instr) (ok : Acting → Ctx → Prop) : Prop :=
  ∀ s a c, MemoryFires s i a c false → ok a c →
    (∀ r, sregOf i = some r → ∀ k ∈ a.fr.fired, (a.fr.instr k).bind sregOf ≠ some r) →
    exec i s = .next (a.commit s { a.fr.fire a.k with
      cmds := a.fr.cmds ++ [{ idx := a.k, ins := i, a := (a.fr.opL a.k).word, b := (a.fr.opR a.k).word }] })

/-- The branch `i` leaves its block for `target` (R14, R21, R61): the exit is recorded, a call gives g62 the address
after its block, and the fibre goes on at the target: younger blocks fetched from there stay, others vanish. -/
def Leaves (s : State) (i : Instr) (a : Acting) (target : Word) (call : Bool) : Prop :=
  ∃ t f fr, exec i s = .next t ∧ t.fibre? a.fid = some f ∧ f.frame? a.fr.seq = some fr
    ∧ fr.exits = [{ idx := a.k, target := some target, isHalt := false }] ∧ fr.fired = a.fr.fired ++ [a.k]
    ∧ fr.faults = a.fr.faults ∧ fr.slots = a.fr.slots ∧ fr.produced = a.fr.produced
    ∧ (call = true → a.fr.gout.get? 62 = none →
      fr.gout.get? 62 = some (.val (a.fr.addr + BitVec.ofNat 64 (32 + 8 * a.fr.words.length))))
    ∧ (∀ r, r ≠ 62 → fr.gout.get? r = a.fr.gout.get? r)
    ∧ (match a.f.frames.find? (fun x => a.fr.seq < x.seq) with
      | some y => if y.addr = target then f = a.f.setFrame fr
                  else f.next = some target ∧ ∀ x ∈ f.frames, x.seq ≤ a.fr.seq
      | none => f.next = some target)

end Sys2Proof.Machine
end

