-- ==== Sys2Proof/Certificates/Slice0/Obligations.lean ====
section
/-! DEFINITION. What is to be proved of the machine: one proposition for each entry of OBLIGATIONS.json. -/

open Sys2Proof Sys2Proof.Machine

/-! ### Words, steps, reset and memory -/

/-- R33 to R44: no bit of an encoding is dropped: the word of every well-formed instruction decodes to that
instruction. -/
def Obligations.DecodeOfEncode : Prop :=
  ∀ (i : Instr) (w : Word), i.wellFormed = true → encode i = some w → decode w = .ok i

/-- R38, R43: a word that decodes gives an instruction that the spec admits, and one that has a word. -/
def Obligations.DecodedIsWellFormed : Prop :=
  ∀ (w : Word) (i : Instr), decode w = .ok i → i.wellFormed = true ∧ (encode i).isSome = true

/-- R33 to R39: words that the spec writes out with the instruction each of them stands for: the block `step`, and
words of the fences, regions, conversions and the time base. -/
def Obligations.WrittenWordsDecode : Prop :=
  decode 0 = .ok .nop
  ∧ decode 0x0101000000010883 = .ok (.read .always 1 (.l 3) (.l 4))
  ∧ decode 0x8600000000011288 = .ok (.ldD .always ⟨0, .fibre, .rlx, 0⟩ (.l 8) (.l 9))
  ∧ decode 0x8502000000200105 = .ok (.ldWu .always ⟨1, .fibre, .rlx, 8⟩ (.r 5) .none)
  ∧ decode 0x5000000000011506 = .ok (.fadd .always .s (.r 6) (.l 10))
  ∧ decode 0x9204000000000000 = .ok (.stW .always ⟨2, .fibre, .rlx, 0⟩)
  ∧ decode 0x3B0000000010008B = .ok (.addi .always 4 (.l 11))
  ∧ decode 0x0301000000000000 = .ok (.write .always 1)
  ∧ decode 0x4600000000031B8C = .ok (.tnz .always (.p 12) (.p 13))
  ∧ decode 0x1080000000000000 = .ok (.br .onTrue 0 0)
  ∧ decode 0x10C8000000140000 = .ok (.br .onFalse 1 5)
  ∧ decode 0xA801200000000000 = .ok (.fence .always 0 .module .rel)
  ∧ decode 0xB280000000000000 = .ok (.rgnAbt .onTrue)
  ∧ decode 0xB300000000000085 = .ok (.rgnStat .always (.l 5) .none)
  ∧ decode 0xD000120000000085 = .ok (.cvtN .always 2 .sr false (.l 5) .none)
  ∧ decode 0xE400000000000082 = .ok (.cyc .always (.l 2) .none)

/-- R7, R8: when it is the turn of a word of a block in flight, the step is the meaning of the instruction that the
word decodes to, at that place, after time has passed. R28: when it is the turn of an event, the step is that
event's meaning after time has passed; when nothing has its turn, in a step that is not one of the round (those are
the subject of DispatcherTakesPlacesAndReports), a free choice names one of the machine's own actions or the oldest
input from outside, which is an event of the opcode table or another act of the outside world. Which action has its
turn is a free choice of the model (log 1, log 4). -/
def Obligations.StepRunsTheDecodedWord : Prop :=
  (∀ (s : State) (fid seq k : Nat) (f : Fibre) (fr : Frame) (w : Word) (i : Instr),
     s.turn = some (.fire fid seq k) → s.fibre? fid = some f → f.frame? seq = some fr → fr.words[k]? = some w →
     decode w = .ok i → step s = exec i (({ s with turn := none } : State).pass.at_ fid seq k))
  ∧ (∀ (s : State) (i : Instr) (x : Input),
       (s.turn = some (.ev i) → step s = exec i ({ s with turn := none } : State).pass.away)
       ∧ (s.turn = none → (s.steps + 1) % (Config.patience + 2) ≠ 0 →
         let n := Config.pick s.tick % (s.candidates.length + 1)
         let u : State := { s with steps := s.steps + 1 }
         (n < s.candidates.length → step s = u.pass.act s.candidates[n]?)
         ∧ (∀ rest, n = s.candidates.length → s.inputs = .ev i :: rest →
           step s = exec i ({ u with inputs := rest } : State).pass.away)
         ∧ (∀ rest, n = s.candidates.length → s.inputs = x :: rest → (∀ j, x ≠ .ev j) →
           step s = .next (({ u with inputs := rest } : State).pass.away.outside x))
         ∧ (n = s.candidates.length → s.inputs = [] → step s = .next u.pass)))

/-- What reset leaves in the registers whose reset value the spec states (R113, R174, R195, R200, R235, R300, R302):
no owner, no lease, phase 0, the sizes and times of the controller, no fibre and no launch; and what the model's own
memories hold then, in their canonical form (log 2). That every other register reads 0 at reset and that memory
never written reads 0 are the model's choices (log 2, log 3). -/
def Obligations.ResetLeaves : Prop :=
  State.reset.reg 0x60 = 10 ∧ State.reset.reg 0x68 = 3 ∧ State.reset.reg 0x70 = 0x000F000201FF01FE
  ∧ State.reset.reg 0x80 = 256 ∧ State.reset.owner = 0 ∧ State.reset.lease = 0 ∧ State.reset.phase = 0
  ∧ State.reset.fibres = [] ∧ State.reset.launches = [] ∧ State.reset.groups = [] ∧ State.reset.virga.slots = []
  ∧ (∀ c, (State.reset.cell c).last = 63) ∧ (∀ a key, State.reset.granule a = 7 ∧ State.reset.cmem.byte key = 0)
  ∧ State.reset.memWf ∧ State.reset.llc = []

/-- A byte read after a write: the written bytes come back, every other byte is as before, and the canonical form
stays; the form makes equal contents equal data. The canonical form is the model's own (log 2). -/
def Obligations.MemoryReadsWhatWasWritten : Prop :=
  ∀ (m : Mem) (a : Nat) (bs : List Byte), m.wf = true →
    (m.setBytes a bs).wf = true
    ∧ (∀ i, i < bs.length → (m.setBytes a bs).byte (a + i) = bs.getD i 0)
    ∧ (∀ x, x < a ∨ a + bs.length ≤ x → (m.setBytes a bs).byte x = m.byte x)
    ∧ (∀ m' : Mem, m'.wf = true → (∀ x, m'.byte x = m.byte x) → m' = m)

/-- The form of memory that every step keeps (log 2, the model's own): the memories list rising addresses and no
zero byte, and a line of the last-level cache has 128 bytes. The form is the model's own (log 2). -/
def Obligations.EveryStepKeepsTheFormOfMemory : Prop :=
  ∀ (s t : State), s.memWf → (∀ e ∈ s.llc, e.2.data.length = 128) → step s = .next t →
    t.memWf ∧ ∀ e ∈ t.llc, e.2.data.length = 128

/-! ### Registers and tokens -/

/-- R12, R20, R45: a read of a general register takes the token of the youngest older block that has written more
than a null, passing over blocks that do not write it; the register file's value when none does; it waits for a
block that has yet to be fetched or to write, or that may yet issue a command with that status register; on a
pending register it parks its fibre (R31), or waits in its frame when effects of its block stand already (log 59).
R12, R20, R45: the same for a vector register, whose tag comes with it (R46); no command names a vector register.
That a read in a block whose effects stand waits in its frame instead of parking is the model's choice (log 59). -/
def Obligations.ReadsTakeTheYoungestOlderValue : Prop :=
  (∀ (s : State) (a : Acting) (pr : Pred) (reg : BitVec 6) (t0 t1 : Target), Fires s (.read pr reg t0 t1) a →
     let passed := fun (fr : Frame) => fr.gout.get? reg.toNat = some .null ∨ (fr.gout.get? reg.toNat = none
       ∧ fr.fetched = true ∧ fr.gmask.getLsbD reg.toNat = false ∧ fr.mayCommand reg.toNat = false)
     (∀ newer fr older tok, a.f.olderThan a.fr.seq = newer ++ fr :: older → (∀ x ∈ newer, passed x) →
       fr.gout.get? reg.toNat = some tok → tok ≠ .null →
       exec (.read pr reg t0 t1) s = .next (a.sends s (.read pr reg t0 t1) tok 0))
     ∧ ((∀ x ∈ a.f.olderThan a.fr.seq, passed x) → a.f.gpend.getLsbD reg.toNat = false →
       exec (.read pr reg t0 t1) s = .next (a.sends s (.read pr reg t0 t1) (.val (vget a.f.g reg.toNat 0)) 0))
     ∧ (∀ newer fr older, a.f.olderThan a.fr.seq = newer ++ fr :: older → (∀ x ∈ newer, passed x) →
       fr.gout.get? reg.toNat = none →
       fr.fetched = false ∨ fr.mayCommand reg.toNat = true ∨ fr.gmask.getLsbD reg.toNat = true →
       exec (.read pr reg t0 t1) s = .next s)
     ∧ ((∀ x ∈ a.f.olderThan a.fr.seq, passed x) → a.f.gpend.getLsbD reg.toNat = true →
       exec (.read pr reg t0 t1) s = .next (if s.effectStands a.fid a.fr then s
         else s.parkAt a.fid a.fr.seq a.fr.addr (.reg reg.toNat))))
  ∧ (∀ (s : State) (a : Acting) (pr : Pred) (reg : BitVec 5) (t0 t1 : Target), Fires s (.vread pr reg t0 t1) a →
       let passed := fun (fr : Frame) => fr.vout.get? reg.toNat = some .null
         ∨ (fr.vout.get? reg.toNat = none ∧ fr.fetched = true ∧ fr.vw.getLsbD reg.toNat = false)
       (∀ newer fr older tok, a.f.olderThan a.fr.seq = newer ++ fr :: older → (∀ x ∈ newer, passed x) →
         fr.vout.get? reg.toNat = some tok → tok ≠ .null →
         exec (.vread pr reg t0 t1) s = .next (a.sends s (.vread pr reg t0 t1) tok 0))
       ∧ ((∀ x ∈ a.f.olderThan a.fr.seq, passed x) → a.f.vpend.getLsbD reg.toNat = false →
         exec (.vread pr reg t0 t1) s = .next (a.sends s (.vread pr reg t0 t1)
           (.vec (vget a.f.v reg.toNat 0) (vget a.f.vtag reg.toNat 7)) 0))
       ∧ (∀ newer fr older, a.f.olderThan a.fr.seq = newer ++ fr :: older → (∀ x ∈ newer, passed x) →
         fr.vout.get? reg.toNat = none → fr.fetched = false ∨ fr.vw.getLsbD reg.toNat = true →
         exec (.vread pr reg t0 t1) s = .next s)
       ∧ ((∀ x ∈ a.f.olderThan a.fr.seq, passed x) → a.f.vpend.getLsbD reg.toNat = true →
         exec (.vread pr reg t0 t1) s = .next (if s.effectStands a.fid a.fr then s
           else s.parkAt a.fid a.fr.seq a.fr.addr (.reg (64 + reg.toNat)))))

/-- R46, R19: a `write` or `vwrite` puts its token among the block's register values, whatever token it is; a second
write of the register fires too, leaves the first value and records BLK_FMT at the higher of the two indices: its
own and that of the lowest other write of the register that has fired. A write of g62 after a call of the block has
given it its return address fires and is dropped with no further fault: BLK_FMT stands at the call since the fetch
(log 34, DEDUCED). That BLK_FMT for g62 beside a call stands from fetch on, and that the second token is dropped
without a further fault, is the model's reading (log 34, DEDUCED). -/
def Obligations.WritesEnterTheBlock : Prop :=
  ∀ (s : State) (a : Acting) (pr : Pred) (reg : BitVec 6) (vreg : BitVec 5),
    (Fires s (.write pr reg) a → a.fr.gout.get? reg.toNat = none → exec (.write pr reg) s = .next (a.commit s
      { a.fr.fire a.k with gout := a.fr.gout.put reg.toNat (a.fr.opL a.k) }))
    ∧ (Fires s (.vwrite pr vreg) a → a.fr.vout.get? vreg.toNat = none → exec (.vwrite pr vreg) s = .next (a.commit s
      { a.fr.fire a.k with vout := a.fr.vout.put vreg.toNat (a.fr.opL a.k) }))
    ∧ (∀ j, Fires s (.write pr reg) a → (a.fr.gout.get? reg.toNat).isSome = true →
      j ∈ a.fr.fired → a.fr.writeG j = some reg.toNat → (∀ x ∈ a.fr.fired, a.fr.writeG x = some reg.toNat → j ≤ x) →
      exec (.write pr reg) s = .next (a.commit s ((a.fr.fire a.k).fault (max a.k j) .blkFmt 0 .afterFetch)))
    ∧ (Fires s (.write pr reg) a → (a.fr.gout.get? reg.toNat).isSome = true →
      (∀ x ∈ a.fr.fired, a.fr.writeG x ≠ some reg.toNat) →
      exec (.write pr reg) s = .next (a.commit s (a.fr.fire a.k)))
    ∧ (∀ j, Fires s (.vwrite pr vreg) a → (a.fr.vout.get? vreg.toNat).isSome = true →
      j ∈ a.fr.fired → a.fr.writeV j = some vreg.toNat → (∀ x ∈ a.fr.fired, a.fr.writeV x = some vreg.toNat → j ≤ x) →
      exec (.vwrite pr vreg) s = .next (a.commit s ((a.fr.fire a.k).fault (max a.k j) .blkFmt 0 .afterFetch)))

/-- R18, R19: a token that fits an open slot fills it and nothing else changes; a slot that is filled, or whose
instruction has fired, keeps its first token and the arrival records BLK_FMT; a token of the other width records
BLK_FMT and the slot holds poison; a target that names nothing takes nothing. That a null or poison fits a slot of
either width, and that a value of the other width leaves poison in the slot beside its BLK_FMT, are the model's
readings (log 14 and log 16, DEDUCED). -/
def Obligations.EachSlotTakesOneToken : Prop :=
  ∀ (fr : Frame) (t : Target) (owner key idx : Nat) (w : SlotW) (tok : Token),
    (fr.resolve t = none → fr.deliver t tok = fr)
    ∧ (fr.resolve t = some (owner, key, w, idx) →
      (owner ∉ fr.fired → fr.slots.get? key = none → tok.fits w = true →
        fr.deliver t tok = { fr with slots := fr.slots.put key tok })
      ∧ (owner ∉ fr.fired → fr.slots.get? key = none → tok.fits w = false →
        fr.deliver t tok = { fr with slots := fr.slots.put key .poison
                                     faults := fr.faults ++ [{ idx := idx, cause := .blkFmt, taddr := 0, src := .afterFetch }] })
      ∧ (owner ∈ fr.fired ∨ fr.slots.get? key ≠ none →
        fr.deliver t tok = { fr with
          faults := fr.faults ++ [{ idx := idx, cause := .blkFmt, taddr := 0, src := .afterFetch }] }))

/-- R7, R8, R24, R234: firing an instruction changes no register of any fibre, no level and no pending bit:
registers change at commit. `launch` is left to its own statement. R24, R54, R119: firing an instruction changes no
byte of memory, no granule tag and no data of a bridge: a store lands by an event of its own. `launch` is left to
its own statement. -/
def Obligations.FiringKeepsRegistersAndBytes : Prop :=
  (∀ (i : Instr) (s t : State), (encode i).isSome = true → (∀ pr t0 t1, i ≠ .launch pr t0 t1) →
     exec i s = .next t → s.SameRegs t)
  ∧ (∀ (i : Instr) (s t : State), (encode i).isSome = true → (∀ pr t0 t1, i ≠ .launch pr t0 t1) →
       exec i s = .next t → s.SameBytes t)

/-! ### Instructions that compute a token -/

/-- R69: the sums, products, logic, shifts and choices of two operands. R71, R73: counting bits, extending, and bit
fields. -/
def Obligations.IntegerAndBitResults : Prop :=
  (∀ (pr : Pred) (t0 t1 : Target),
     Gives2 (.add pr t0 t1) (fun x y => x + y)
     ∧ Gives2 (.sub pr t0 t1) (fun x y => x - y)
     ∧ Gives2 (.mul pr t0 t1) (fun x y => x * y)
     ∧ Gives2 (.mulh pr t0 t1) (fun x y => (x.signExtend 128 * y.signExtend 128).extractLsb' 64 64)
     ∧ Gives2 (.mulhu pr t0 t1) (fun x y => (x.setWidth 128 * y.setWidth 128).extractLsb' 64 64)
     ∧ Gives2 (.and pr t0 t1) (fun x y => x &&& y)
     ∧ Gives2 (.or pr t0 t1) (fun x y => x ||| y)
     ∧ Gives2 (.xor pr t0 t1) (fun x y => x ^^^ y)
     ∧ Gives2 (.andn pr t0 t1) (fun x y => x &&& ~~~y)
     ∧ Gives2 (.shl pr t0 t1) (fun x y => x <<< (y.toNat % 64))
     ∧ Gives2 (.shr pr t0 t1) (fun x y => x >>> (y.toNat % 64))
     ∧ Gives2 (.sar pr t0 t1) (fun x y => x.sshiftRight (y.toNat % 64))
     ∧ Gives2 (.rotl pr t0 t1) (fun x y => x.rotateLeft (y.toNat % 64))
     ∧ Gives2 (.min pr t0 t1) (fun x y => if x.toInt ≤ y.toInt then x else y)
     ∧ Gives2 (.max pr t0 t1) (fun x y => if x.toInt ≤ y.toInt then y else x)
     ∧ Gives2 (.minu pr t0 t1) (fun x y => if x.toNat ≤ y.toNat then x else y)
     ∧ Gives2 (.maxu pr t0 t1) (fun x y => if x.toNat ≤ y.toNat then y else x))
  ∧ (∀ (pr : Pred) (t0 t1 : Target) (pos len1 : BitVec 6),
       Gives1 (.clz pr t0 t1) (fun x => BitVec.ofNat 64 (((List.range 64).find? (fun i => x.getLsbD (63 - i))).getD 64))
       ∧ Gives1 (.ctz pr t0 t1) (fun x => BitVec.ofNat 64 (((List.range 64).find? (fun i => x.getLsbD i)).getD 64))
       ∧ Gives1 (.popc pr t0 t1) (fun x => BitVec.ofNat 64 ((List.range 64).filter (fun i => x.getLsbD i)).length)
       ∧ Gives1 (.sext pr .b t0 t1) (fun x => (x.setWidth 8).signExtend 64)
       ∧ Gives1 (.sext pr .h t0 t1) (fun x => (x.setWidth 16).signExtend 64)
       ∧ Gives1 (.sext pr .w t0 t1) (fun x => (x.setWidth 32).signExtend 64)
       ∧ Gives1 (.zext pr .b t0 t1) (fun x => x &&& 0xFF)
       ∧ Gives1 (.zext pr .h t0 t1) (fun x => x &&& 0xFFFF)
       ∧ Gives1 (.zext pr .w t0 t1) (fun x => x &&& 0xFFFFFFFF)
       ∧ Gives1 (.bfx pr pos len1 t0) (fun x => (x.extractLsb' pos.toNat (len1.toNat + 1)).signExtend 64)
       ∧ Gives1 (.bfxu pr pos len1 t0) (fun x => (x.extractLsb' pos.toNat (len1.toNat + 1)).setWidth 64)
       ∧ Gives2 (.bfi pr pos len1 t0) (fun x y =>
           (x &&& ~~~((BitVec.allOnes (len1.toNat + 1)).setWidth 64 <<< pos.toNat))
             ||| ((y <<< pos.toNat) &&& ((BitVec.allOnes (len1.toNat + 1)).setWidth 64 <<< pos.toNat))))

/-- R70: division is defined for every pair of operands: by zero, on overflow, and otherwise with the quotient
rounded toward zero and the remainder a - q b; it completes without a fault on every pair. -/
def Obligations.DivisionIsDefinedEverywhere : Prop :=
  ∀ (pr : Pred) (t0 t1 : Target),
    Gives2 (.div pr t0 t1) (fun x y => if y = 0 then 0xFFFFFFFFFFFFFFFF
      else if x = 0x8000000000000000 ∧ y = 0xFFFFFFFFFFFFFFFF then x
      else BitVec.ofInt 64 (x.toInt.tdiv y.toInt))
    ∧ Gives2 (.rem pr t0 t1) (fun x y => if y = 0 then x
      else if x = 0x8000000000000000 ∧ y = 0xFFFFFFFFFFFFFFFF then 0
      else x - BitVec.ofInt 64 (x.toInt.tdiv y.toInt) * y)
    ∧ Gives2 (.divu pr t0 t1) (fun x y => if y = 0 then 0xFFFFFFFFFFFFFFFF else BitVec.ofNat 64 (x.toNat / y.toNat))
    ∧ Gives2 (.remu pr t0 t1) (fun x y => if y = 0 then x else x - BitVec.ofNat 64 (x.toNat / y.toNat) * y)
    ∧ (∀ i ∈ [Instr.div pr t0 t1, .divu pr t0 t1, .rem pr t0 t1, .remu pr t0 t1], targetsOf i = [t0, t1])

/-- R74: `lea`, opcode 0x39 with sh in IMM[1:0] and disp in IMM[23:2], sends base + (index << sh) + disp to T0, for
every base and index, and does nothing else: no address is translated, checked or faulted on. -/
def Obligations.LeaOnlyComputesANumber : Prop :=
  ∀ (pr : Pred) (sh : BitVec 2) (disp : BitVec 22) (t0 : Target),
    Gives2 (.lea pr sh disp t0) (fun x y => x + (y <<< sh.toNat) + disp.signExtend 64)
    ∧ targetsOf (.lea pr sh disp t0) = [t0]
    ∧ ∃ w, encode (.lea pr sh disp t0) = some w ∧ fld w 56 8 = 0x39 ∧ fld w 18 2 = sh ∧ fld w 20 22 = disp

/-- R76: the immediate forms, with c the sign-extended immediate. R77, R78: the compares send 1 when their relation
holds, else 0. -/
def Obligations.ImmediateAndCompareResults : Prop :=
  (∀ (pr : Pred) (imm : BitVec 24) (n : BitVec 6) (t0 : Target),
     Gives1 (.addi pr imm t0) (fun x => x + imm.signExtend 64)
     ∧ Gives1 (.muli pr imm t0) (fun x => x * imm.signExtend 64)
     ∧ Gives1 (.andi pr imm t0) (fun x => x &&& imm.signExtend 64)
     ∧ Gives1 (.ori pr imm t0) (fun x => x ||| imm.signExtend 64)
     ∧ Gives1 (.xori pr imm t0) (fun x => x ^^^ imm.signExtend 64)
     ∧ Gives1 (.shli pr n t0) (fun x => x <<< n.toNat)
     ∧ Gives1 (.shri pr n t0) (fun x => x >>> n.toNat)
     ∧ Gives1 (.sari pr n t0) (fun x => x.sshiftRight n.toNat))
  ∧ (∀ (pr : Pred) (imm : BitVec 24) (t0 t1 : Target),
       Gives2 (.teq pr t0 t1) (fun x y => if x = y then 1 else 0)
       ∧ Gives2 (.tne pr t0 t1) (fun x y => if x ≠ y then 1 else 0)
       ∧ Gives2 (.tlt pr t0 t1) (fun x y => if x.toInt < y.toInt then 1 else 0)
       ∧ Gives2 (.tle pr t0 t1) (fun x y => if x.toInt ≤ y.toInt then 1 else 0)
       ∧ Gives2 (.tltu pr t0 t1) (fun x y => if x.toNat < y.toNat then 1 else 0)
       ∧ Gives2 (.tleu pr t0 t1) (fun x y => if x.toNat ≤ y.toNat then 1 else 0)
       ∧ Gives1 (.tnz pr t0 t1) (fun x => if x ≠ 0 then 1 else 0)
       ∧ Gives1 (.teqi pr imm t0) (fun x => if x = imm.signExtend 64 then 1 else 0)
       ∧ Gives1 (.tnei pr imm t0) (fun x => if x ≠ imm.signExtend 64 then 1 else 0)
       ∧ Gives1 (.tlti pr imm t0) (fun x => if x.toInt < (imm.signExtend 64).toInt then 1 else 0)
       ∧ Gives1 (.tlei pr imm t0) (fun x => if x.toInt ≤ (imm.signExtend 64).toInt then 1 else 0)
       ∧ Gives1 (.tltui pr imm t0) (fun x => if x.toNat < (imm.signExtend 64).toNat then 1 else 0)
       ∧ Gives1 (.tleui pr imm t0) (fun x => if x.toNat ≤ (imm.signExtend 64).toNat then 1 else 0))

/-- R75: `sel`, opcode 0x3A with FN and MOD 0, sends the value on `.r` when bit 0 of its condition is 1 and the
value on its `xop` otherwise; it waits for all three operands, and poison, else a null, in any of them governs. -/
def Obligations.SelectTakesBitZero : Prop :=
  ∀ (pr : Pred) (t0 t1 : Target) (s : State) (a : Acting) (c y z : Word),
    let i := Instr.sel pr t0 t1
    let ops := [a.fr.opL a.k, a.fr.opR a.k, a.fr.opX a.k]
    (Fires s i a → a.fr.opL a.k = .val c → a.fr.opR a.k = .val y → a.fr.opX a.k = .val z →
      exec i s = .next (a.sends s i (.val (if c.getLsbD 0 then y else z)) 0))
    ∧ (Fires s i a → .poison ∈ ops → exec i s = .next (a.sends s i .poison 0))
    ∧ (Fires s i a → .poison ∉ ops → .null ∈ ops → exec i s = .next (a.sends s i .null 0))
    ∧ (s.acting i = some a → a.fr.slots.get? (4 * a.k) = none ∨ a.fr.slots.get? (4 * a.k + 1) = none
        ∨ a.fr.slots.get? (4 * a.k + 3) = none → exec i s = .next s)
    ∧ targetsOf i = [t0, t1]
    ∧ ∃ w, encode i = some w ∧ fld w 56 8 = 0x3A ∧ fld w 48 6 = 0 ∧ fld w 40 8 = 0

/-- R13, R20, R67: a poisoned operand makes every result poison; else a null one makes it null. That a stochastic
conversion on a null or poisoned operand leaves the s.srng chain unadvanced is the model's reading (log 43,
DEDUCED). -/
def Obligations.PoisonThenNullGovern : Prop :=
  ∀ (i : Instr) (s : State) (a : Acting), computing i = true → Fires s i a →
    (.poison ∈ a.fr.operands a.k i → exec i s = .next (a.sends s i .poison 0))
    ∧ (.poison ∉ a.fr.operands a.k i → .null ∈ a.fr.operands a.k i → exec i s = .next (a.sends s i .null 0))

/-- R82, R87 to R92: the float instructions complete on every value, with the result and flags of the operation on
every element, under s.fcsr. R82, R83: a float operation on vectors acts on each lane: what it sends holds the
lanes' results, with tag 6 for 32-bit lanes and tag 7 for 64-bit ones, and it raises the flags of all of them; on
scalars it acts on one element, and a 32-bit result is zero-extended. R84, R85, R87: what the float operations give
in both formats. A NaN result is the default NaN, with NV for a signalling operand; the invalid operations give it
with NV; infinities and divisions by zero give theirs. On finite operands, subnormal ones read as signed zeros under
FTZ, the exact sum, difference, product, fused sum, quotient or root is rounded once, and an exact zero sum has the
sign of R84. R87 to R89: the smaller and the larger of two numbers, -0 below +0, one NaN passed over; the signs that
`fabs`, `fneg` and `fsgnj` give, bit for bit, a NaN giving the default NaN; and the three relations, none of which a
NaN is in. R91, R92: what `fcvt` makes of a token, for every pair of types. -/
def Obligations.FloatInstructionsComplete : Prop :=
  (∀ (pr : Pred) (ty : Ty) (dbl : Bool) (dst src : CvtTy) (t0 t1 : Target),
     let map := fun (f : FEnv → List Nat → Nat × FFlags) (a : Acting) (ops : List Token) =>
       ((fpMap ty (f (fenv a.f.fcsr)) ops).tok, (fpMap ty (f (fenv a.f.fcsr)) ops).flags)
     let one := fun (a : Acting) => [a.fr.opL a.k]
     let two := fun (a : Acting) => [a.fr.opL a.k, a.fr.opR a.k]
     let three := fun (a : Acting) => [a.fr.opL a.k, a.fr.opR a.k, a.fr.opX a.k]
     let rel := fun (r : FRel) (a : Acting) =>
       fcmpBits (dblFmt dbl) r (fenv a.f.fcsr) (scalarBits (dblFmt dbl) (a.fr.opL a.k)) (scalarBits (dblFmt dbl) (a.fr.opR a.k))
     Computes (.fadd pr ty t0 t1) (fun a => map (fun v xs => faddBits (tyFmt ty) v (xs.getD 0 0) (xs.getD 1 0)) a (two a))
     ∧ Computes (.fsub pr ty t0 t1) (fun a => map (fun v xs => fsubBits (tyFmt ty) v (xs.getD 0 0) (xs.getD 1 0)) a (two a))
     ∧ Computes (.fmul pr ty t0 t1) (fun a => map (fun v xs => fmulBits (tyFmt ty) v (xs.getD 0 0) (xs.getD 1 0)) a (two a))
     ∧ Computes (.fdiv pr ty t0 t1) (fun a => map (fun v xs => fdivBits (tyFmt ty) v (xs.getD 0 0) (xs.getD 1 0)) a (two a))
     ∧ Computes (.ffma pr ty t0 t1) (fun a => map (fun v xs => ffmaBits (tyFmt ty) v (xs.getD 0 0) (xs.getD 1 0) (xs.getD 2 0)) a (three a))
     ∧ Computes (.fsqrt pr ty t0 t1) (fun a => map (fun v xs => fsqrtBits (tyFmt ty) v (xs.getD 0 0)) a (one a))
     ∧ Computes (.fmin pr ty t0 t1) (fun a => map (fun v xs => fminmaxBits (tyFmt ty) false v (xs.getD 0 0) (xs.getD 1 0)) a (two a))
     ∧ Computes (.fmax pr ty t0 t1) (fun a => map (fun v xs => fminmaxBits (tyFmt ty) true v (xs.getD 0 0) (xs.getD 1 0)) a (two a))
     ∧ Computes (.fabs pr ty t0 t1) (fun a => map (fun _ xs => (fabsBits (tyFmt ty) (xs.getD 0 0), 0)) a (one a))
     ∧ Computes (.fneg pr ty t0 t1) (fun a => map (fun _ xs => (fnegBits (tyFmt ty) (xs.getD 0 0), 0)) a (one a))
     ∧ Computes (.fsgnj pr ty t0 t1) (fun a => map (fun _ xs => (fsgnjBits (tyFmt ty) (xs.getD 0 0) (xs.getD 1 0), 0)) a (two a))
     ∧ Computes (.feq pr dbl t0 t1) (fun a => (.val (boolWord (rel .eq a).1), (rel .eq a).2))
     ∧ Computes (.flt pr dbl t0 t1) (fun a => (.val (boolWord (rel .lt a).1), (rel .lt a).2))
     ∧ Computes (.fle pr dbl t0 t1) (fun a => (.val (boolWord (rel .le a).1), (rel .le a).2))
     ∧ Computes (.fclass pr dbl t0 t1) (fun a =>
         (.val (BitVec.ofNat 64 (2 ^ fclassBit (dblFmt dbl) (scalarBits (dblFmt dbl) (a.fr.opL a.k)))), 0))
     ∧ Computes (.fcvt pr dst src t0 t1) (fun a =>
         (.val (convert dst src (fenv a.f.fcsr) (a.fr.opL a.k).word).1, (convert dst src (fenv a.f.fcsr) (a.fr.opL a.k).word).2)))
  ∧ (∀ (f : List Nat → Nat × FFlags) (u z : Vec) (tu tz : BitVec 3) (x y : Word),
       let both := fun (n i : Nat) => f [lane u n i, lane z n i]
       ((fpMap .s f [.val x, .val y]).tok = .val (BitVec.ofNat 64 (f [x.toNat % 2 ^ 32, y.toNat % 2 ^ 32]).1)
         ∧ (fpMap .s f [.val x, .val y]).flags = (f [x.toNat % 2 ^ 32, y.toNat % 2 ^ 32]).2)
       ∧ ((fpMap .d f [.val x, .val y]).tok = .val (BitVec.ofNat 64 (f [x.toNat, y.toNat]).1)
         ∧ (fpMap .d f [.val x, .val y]).flags = (f [x.toNat, y.toNat]).2)
       ∧ (∃ v, (fpMap .vs f [.vec u tu, .vec z tz]).tok = .vec v 6 ∧ (∀ i < 16, lane v 32 i = (both 32 i).1 % 2 ^ 32)
         ∧ ∀ b < 5, ((fpMap .vs f [.vec u tu, .vec z tz]).flags.getLsbD b = true ↔ ∃ i < 16, (both 32 i).2.getLsbD b = true))
       ∧ (∃ v, (fpMap .vd f [.vec u tu, .vec z tz]).tok = .vec v 7 ∧ (∀ i < 8, lane v 64 i = (both 64 i).1 % 2 ^ 64)
         ∧ ∀ b < 5, ((fpMap .vd f [.vec u tu, .vec z tz]).flags.getLsbD b = true ↔ ∃ i < 8, (both 64 i).2.getLsbD b = true)))
  ∧ ((fmt32.nan = 0x7FC00000 ∧ fmt64.nan = 0x7FF8000000000000)
     ∧ ∀ (F : Fmt) (e : FEnv) (a b c : Nat), F = fmt32 ∨ F = fmt64 → a < 2 ^ F.bits → b < 2 ^ F.bits → c < 2 ^ F.bits →
       let invalid := (F.nan, flagNV)
       let quiet := fun (xs : List Nat) => (F.nan, if ∃ x ∈ xs, F.isSNaN x = true then flagNV else 0)
       let fin := fun (x : Nat) => F.isNaN x = false ∧ F.isInf x = false
       let val := fun (x : Nat) => (F.num (F.flush e.ftz x)).val
       let zero := fun (x : Nat) => F.isZero (F.flush e.ftz x) = true
       let xor := F.neg a != F.neg b
       let sumSign := fun (p q : Bool) => if p = q then p else e.rm == .rdn
       (F.isNaN a = true ∨ F.isNaN b = true →
         faddBits F e a b = quiet [a, b] ∧ fsubBits F e a b = quiet [a, b] ∧ fmulBits F e a b = quiet [a, b] ∧ fdivBits F e a b = quiet [a, b])
       ∧ (F.isNaN a = true → fsqrtBits F e a = quiet [a])
       ∧ (¬(F.isInf a = true ∧ zero b) → ¬(zero a ∧ F.isInf b = true) →
         F.isNaN a = true ∨ F.isNaN b = true ∨ F.isNaN c = true → ffmaBits F e a b c = quiet [a, b, c])
       ∧ ((F.isInf a = true ∧ zero b) ∨ (zero a ∧ F.isInf b = true) →
         fmulBits F e a b = invalid ∧ ffmaBits F e a b c = invalid)
       ∧ (F.isInf a = true → F.isInf b = true → fdivBits F e a b = invalid
         ∧ faddBits F e a b = (if xor = true then invalid else (a, 0))
         ∧ fsubBits F e a b = if xor = true then (a, 0) else invalid)
       ∧ (zero a → zero b → fdivBits F e a b = invalid)
       ∧ (F.isInf a = true → fin b → faddBits F e a b = (a, 0) ∧ faddBits F e b a = (a, 0)
         ∧ fsubBits F e a b = (a, 0) ∧ fsubBits F e b a = (F.signed (!F.neg a) F.inf, 0)
         ∧ fdivBits F e a b = (F.signed xor F.inf, 0) ∧ fdivBits F e b a = (F.signed xor 0, 0))
       ∧ (F.isInf a = true ∨ F.isInf b = true → F.isNaN a = false → F.isNaN b = false → ¬zero a → ¬zero b →
         fmulBits F e a b = (F.signed xor F.inf, 0))
       ∧ (fin a → ¬zero a → zero b → fdivBits F e a b = (F.signed xor F.inf, flagDZ))
       ∧ (F.isNaN a = false → ¬zero a → F.neg a = true → fsqrtBits F e a = invalid)
       ∧ (zero a → fsqrtBits F e a = (F.flush e.ftz a, 0))
       ∧ (F.isInf a = true → F.neg a = false → fsqrtBits F e a = (a, 0))
       ∧ (F.isInf a = true ∨ F.isInf b = true → F.isNaN a = false → F.isNaN b = false → F.isNaN c = false → ¬zero a → ¬zero b →
         ffmaBits F e a b c = if F.isInf c = true ∧ F.neg c ≠ xor then invalid else (F.signed xor F.inf, 0))
       ∧ (fin a → fin b → F.isInf c = true → ffmaBits F e a b c = (c, 0))
       ∧ (fin a → fin b →
         (val a + val b ≠ 0 → F.RoundsTo e.rm e.ftz (val a + val b < 0) |val a + val b| (faddBits F e a b))
         ∧ (val a + val b = 0 → faddBits F e a b = (F.signed (sumSign (F.neg a) (F.neg b)) 0, 0))
         ∧ (val a - val b ≠ 0 → F.RoundsTo e.rm e.ftz (val a - val b < 0) |val a - val b| (fsubBits F e a b))
         ∧ (val a - val b = 0 → fsubBits F e a b = (F.signed (sumSign (F.neg a) (!F.neg b)) 0, 0))
         ∧ F.RoundsTo e.rm e.ftz xor |val a * val b| (fmulBits F e a b)
         ∧ (¬zero b → F.RoundsTo e.rm e.ftz xor |val a / val b| (fdivBits F e a b)))
       ∧ (fin a → fin b → fin c →
         (val a * val b + val c ≠ 0 → F.RoundsTo e.rm e.ftz (val a * val b + val c < 0) |val a * val b + val c| (ffmaBits F e a b c))
         ∧ (val a * val b + val c = 0 → ffmaBits F e a b c = (F.signed (sumSign xor (F.neg c)) 0, 0)))
       ∧ (fin a → F.neg a = false → ¬zero a →
         F.Rounds e.rm e.ftz false (fun q => q * q < val a) (fun q => q * q = val a) (fsqrtBits F e a)))
  ∧ (∀ (F : Fmt) (e : FEnv) (a b : Nat), F = fmt32 ∨ F = fmt64 → a < 2 ^ F.bits → b < 2 ^ F.bits →
       let nan := fun (x : Nat) => F.isNaN x = true
       let read := fun (x : Nat) => F.flush e.ftz x
       let nv : FFlags := if F.isSNaN a = true ∨ F.isSNaN b = true then flagNV else 0
       let fin := fun (x : Nat) => F.isNaN x = false ∧ F.isInf x = false
       let val := fun (x : Nat) => (F.num (read x)).val
       let below := fun (x y : Nat) => (F.neg x = true ∧ F.neg y = false) ∨ (F.neg x = true ∧ F.neg y = true ∧ F.mag y < F.mag x)
         ∨ (F.neg x = false ∧ F.neg y = false ∧ F.mag x < F.mag y)
       let least := fun (r : Nat) (fl : FFlags) => fminmaxBits F false e a b = (r, fl)
       let most := fun (r : Nat) (fl : FFlags) => fminmaxBits F true e a b = (r, fl)
       let half := 2 ^ (F.bits - 1)
       (nan a → nan b → least F.nan nv ∧ most F.nan nv)
       ∧ (nan a → ¬nan b → least (read b) nv ∧ most (read b) nv) ∧ (¬nan a → nan b → least (read a) nv ∧ most (read a) nv)
       ∧ (¬nan a → ¬nan b → (below (read a) (read b) → least (read a) 0 ∧ most (read b) 0)
         ∧ (below (read b) (read a) → least (read b) 0 ∧ most (read a) 0)
         ∧ (read a = read b → least (read a) 0 ∧ most (read a) 0))
       ∧ (fin a → fin b → val a < val b → below (read a) (read b))
       ∧ (nan a → fabsBits F a = F.nan ∧ fnegBits F a = F.nan ∧ fsgnjBits F a b = F.nan)
       ∧ (¬nan a → fabsBits F a = a % half ∧ fnegBits F a = (a + half) % 2 ^ F.bits ∧ fsgnjBits F a b = a % half + b / half * half)
       ∧ (nan a ∨ nan b → fcmpBits F .eq e a b = (false, nv) ∧ fcmpBits F .lt e a b = (false, flagNV)
         ∧ fcmpBits F .le e a b = (false, flagNV))
       ∧ (fin a → fin b → fcmpBits F .eq e a b = (decide (val a = val b), 0) ∧ fcmpBits F .lt e a b = (decide (val a < val b), 0)
         ∧ fcmpBits F .le e a b = (decide (val a ≤ val b), 0))
       ∧ (F.isInf a = true → ¬nan b → fcmpBits F .eq e a b = (decide (a = b), 0) ∧ fcmpBits F .eq e b a = (decide (a = b), 0)
         ∧ fcmpBits F .lt e a b = (F.neg a && decide (a ≠ b), 0) ∧ fcmpBits F .lt e b a = (!F.neg a && decide (a ≠ b), 0)
         ∧ fcmpBits F .le e a b = (F.neg a || decide (a = b), 0) ∧ fcmpBits F .le e b a = (!F.neg a || decide (a = b), 0)))
  ∧ (∀ (e : FEnv) (w : Word),
       let floats := [(CvtTy.s, fmt32), (.d, fmt64)]
       let ints := [(CvtTy.l, (-2 ^ 63 : ℤ), (2 ^ 63 - 1 : ℤ)), (.lu, 0, 2 ^ 64 - 1), (.w, -2 ^ 31, 2 ^ 31 - 1), (.wu, 0, 2 ^ 32 - 1)]
       let held : CvtTy → ℤ := fun t => match t with
         | .l => w.toInt
         | .lu => (w.toNat : ℤ)
         | .w => (w.setWidth 32).toInt
         | _ => ((w.setWidth 32).toNat : ℤ)
       let clamped := fun (i lo hi : ℤ) (fl : FFlags) =>
         if i < lo then (BitVec.ofInt 64 lo, flagNV) else if hi < i then (BitVec.ofInt 64 hi, flagNV) else (BitVec.ofInt 64 i, fl)
       (∀ p ∈ floats, let F := p.2; let a := w.toNat % 2 ^ F.bits; let val := (F.num (F.flush e.ftz a)).val
         (∀ q ∈ floats, q.1 ≠ p.1 → let r := convert q.1 p.1 e w; let code := r.1.toNat
           (F.isNaN a = true → code = q.2.nan ∧ r.2 = if F.isSNaN a = true then flagNV else 0)
           ∧ (F.isInf a = true → code = q.2.signed (F.neg a) q.2.inf ∧ r.2 = 0)
           ∧ (F.isNaN a = false → F.isInf a = false → q.2.RoundsTo e.rm e.ftz (F.neg a) |val| (code, r.2)))
         ∧ (∀ q ∈ ints, let r := convert q.1 p.1 e w
           (F.isNaN a = true → r = (0, flagNV))
           ∧ (F.isInf a = true → r = (BitVec.ofInt 64 (if F.neg a = true then q.2.1 else q.2.2), flagNV))
           ∧ (F.isNaN a = false → F.isInf a = false → let t := if val < 0 then Int.ceil val else Int.floor val
             r = clamped t q.2.1 q.2.2 (if (t : ℚ) = val then 0 else flagNX))))
       ∧ (∀ p ∈ ints, ∀ i : ℤ, i = held p.1 →
         (∀ q ∈ floats, let r := convert q.1 p.1 e w
           q.2.RoundsTo e.rm e.ftz (i < 0) |(i : ℚ)| (r.1.toNat, r.2) ∧ (r.2 = 0 ∨ r.2 = flagNX))
         ∧ (∀ q ∈ ints, convert q.1 p.1 e w = clamped i q.2.1 q.2.2 0)))

/-- R90: `fclass`, opcode 0x5E with the type in TY, sends a word in which exactly one of bits 9 to 0 is set: the bit
of the class of its operand, whatever s.fcsr holds. -/
def Obligations.FloatClassTable : Prop :=
  (∀ (pr : Pred) (dbl : Bool) (t0 t1 : Target),
    Computes (.fclass pr dbl t0 t1) (fun a =>
      (.val (BitVec.ofNat 64 (2 ^ fclassBit (dblFmt dbl) (scalarBits (dblFmt dbl) (a.fr.opL a.k)))), 0))
    ∧ (∃ w, encode (.fclass pr dbl t0 t1) = some w ∧ fld w 56 8 = 0x5E ∧ nfld w 40 2 = (if dbl then 1 else 0))
    ∧ dblFmt dbl = if dbl then fmt64 else fmt32)
  ∧ ∀ (F : Fmt) (x : Nat), F = fmt32 ∨ F = fmt64 → x < 2 ^ F.bits →
    fclassBit F x < 10
    ∧ (fclassBit F x = 0 ↔ F.isInf x = true ∧ F.neg x = true)
    ∧ (fclassBit F x = 1 ↔ 2 ^ F.mb ≤ F.mag x ∧ F.mag x < F.inf ∧ F.neg x = true)
    ∧ (fclassBit F x = 2 ↔ F.isSub x = true ∧ F.neg x = true)
    ∧ (fclassBit F x = 3 ↔ F.isZero x = true ∧ F.neg x = true)
    ∧ (fclassBit F x = 4 ↔ F.isZero x = true ∧ F.neg x = false)
    ∧ (fclassBit F x = 5 ↔ F.isSub x = true ∧ F.neg x = false)
    ∧ (fclassBit F x = 6 ↔ 2 ^ F.mb ≤ F.mag x ∧ F.mag x < F.inf ∧ F.neg x = false)
    ∧ (fclassBit F x = 7 ↔ F.isInf x = true ∧ F.neg x = false)
    ∧ (fclassBit F x = 8 ↔ F.isSNaN x = true)
    ∧ (fclassBit F x = 9 ↔ F.isNaN x = true ∧ F.isSNaN x = false)

/-- R93: what the lanes of a vector result hold. `v` is the vector sent, and lanes are numbered from the lowest.
R93, R94: `vcmp` sends one bit a lane, and `vred` the value of its tree, each with the flags of all that its lanes
and nodes do (R89). -/
def Obligations.VectorLaneResults : Prop :=
  (∀ (pr : Pred) (w : Lane) (k : BitVec 6) (t0 t1 : Target) (s : State) (a : Acting) (x y m : Word) (u z : Vec)
       (tu tz : BitVec 3),
     (Fires s (.vbcast pr w t0 t1) a → a.fr.opL a.k = .val x → ∃ v,
       exec (.vbcast pr w t0 t1) s = .next (a.sends s (.vbcast pr w t0 t1) (.vec v 7) 0)
       ∧ ∀ i < w.count, lane v w.bits i = x.toNat % 2 ^ w.bits)
     ∧ (k.toNat < w.count → Fires s (.vext pr w k t0) a → a.fr.opL a.k = .vec u tu →
       exec (.vext pr w k t0) s = .next (a.sends s (.vext pr w k t0) (.val (BitVec.ofNat 64 (lane u w.bits k.toNat))) 0))
     ∧ (k.toNat < w.count → Fires s (.vins pr w k t0) a → a.fr.opL a.k = .vec u tu → a.fr.opR a.k = .val y → ∃ v,
       exec (.vins pr w k t0) s = .next (a.sends s (.vins pr w k t0) (.vec v tu) 0)
       ∧ ∀ i < w.count, lane v w.bits i = if i = k.toNat then y.toNat % 2 ^ w.bits else lane u w.bits i)
     ∧ (Fires s (.vperm pr w t0 t1) a → a.fr.opL a.k = .vec u tu → a.fr.opR a.k = .vec z tz → ∃ v,
       exec (.vperm pr w t0 t1) s = .next (a.sends s (.vperm pr w t0 t1) (.vec v tu) 0)
       ∧ ∀ i < w.count, lane v w.bits i =
         if lane z w.bits i < w.count then lane u w.bits (lane z w.bits i) else 0)
     ∧ (Fires s (.vshl pr w t0 t1) a → a.fr.opL a.k = .vec u tu → a.fr.opR a.k = .val y → ∃ v,
       exec (.vshl pr w t0 t1) s = .next (a.sends s (.vshl pr w t0 t1) (.vec v tu) 0)
       ∧ ∀ i < w.count, lane v w.bits i =
         if 0 ≤ (i : Int) - y.toInt ∧ (i : Int) - y.toInt < w.count then lane u w.bits ((i : Int) - y.toInt).toNat else 0)
     ∧ (Fires s (.vsel pr w t0 t1) a → a.fr.opL a.k = .vec u tu → a.fr.opR a.k = .vec z tz → a.fr.opX a.k = .val m → ∃ v,
       exec (.vsel pr w t0 t1) s = .next (a.sends s (.vsel pr w t0 t1) (.vec v tu) 0)
       ∧ ∀ i < w.count, lane v w.bits i = if m.getLsbD i then lane u w.bits i else lane z w.bits i)
     ∧ (Fires s (.viota pr w t0 t1) a → a.fr.opL a.k = .val m → ∃ v,
       exec (.viota pr w t0 t1) s = .next (a.sends s (.viota pr w t0 t1) (.vec v 7) 0)
       ∧ ∀ i < w.count, lane v w.bits i = ((List.range i).filter (fun j => m.getLsbD j)).length)
     ∧ (Fires s (.vcnt pr w t0 t1) a → a.fr.opL a.k = .vec u tu → ∃ v,
       exec (.vcnt pr w t0 t1) s = .next (a.sends s (.vcnt pr w t0 t1) (.vec v 7) 0)
       ∧ ∀ i < w.count, lane v w.bits i =
         ((List.range w.bits).filter (fun j => u.getLsbD (w.bits * i + j))).length))
  ∧ (∀ (pr : Pred) (c : VCmpOp) (r : VRedOp) (w : Lane) (t0 t1 : Target) (s : State) (a : Acting) (u z : Vec)
         (tu tz : BitVec 3),
       let cmp := fun i => laneCmp c w.bits (fenv a.f.fcsr) (lane u w.bits i) (lane z w.bits i)
       let red := redTree (redOp r w.bits (fenv a.f.fcsr)) 6 (lanes u w.bits)
       (Fires s (.vcmp pr c w t0 t1) a → a.fr.opL a.k = .vec u tu → a.fr.opR a.k = .vec z tz → ∃ m,
         exec (.vcmp pr c w t0 t1) s = .next (a.sends s (.vcmp pr c w t0 t1) (.val m)
           ((List.range w.count).foldl (fun fl i => fl ||| (cmp i).2) 0))
         ∧ (∀ i < w.count, m.getLsbD i = (cmp i).1)
         ∧ (∀ i, w.count ≤ i → m.getLsbD i = false))
       ∧ (Fires s (.vred pr r w t0 t1) a → a.fr.opL a.k = .vec u tu →
         exec (.vred pr r w t0 t1) s = .next (a.sends s (.vred pr r w t0 t1) (.val (redExtend r w.bits red.1)) red.2)))

/-- R47 to R51, R181, R247: moves, constants, null, and the reads of the region and the time base; a `cyc` waits
while an earlier one of its fibre has still to fire. R40, R48: `nop` and `xop` never fire. -/
def Obligations.MovesAndConstants : Prop :=
  (∀ (pr : Pred) (imm : BitVec 36) (t0 t1 t2 t3 : Target) (s : State),
     Computes (.mov pr t0 t1) (fun a => (a.fr.opL a.k, 0))
     ∧ Computes (.mov3 pr t0 t1 t2) (fun a => (a.fr.opL a.k, 0))
     ∧ Computes (.mov4 pr t0 t1 t2 t3) (fun a => (a.fr.opL a.k, 0))
     ∧ Computes (.genc pr imm t0 t1) (fun _ => (.val (imm.signExtend 64), 0))
     ∧ Gives1 (.genh pr imm t0 t1) (fun x => (imm.setWidth 64 <<< 28) ||| (x &&& 0x0FFFFFFF))
     ∧ Computes (.null pr t0 t1 t2 t3) (fun _ => (.null, 0))
     ∧ (∀ a, Fires s (.cyc pr t0 t1) a →
         (a.f.cycBefore a.fr.seq a.k = false →
           exec (.cyc pr t0 t1) s = .next (a.sends s (.cyc pr t0 t1) (.val (BitVec.ofNat 64 s.time)) 0))
         ∧ (a.f.cycBefore a.fr.seq a.k = true → exec (.cyc pr t0 t1) s = .next s))
     ∧ (∀ a, Fires s (.rgnStat pr t0 t1) a →
         exec (.rgnStat pr t0 t1) s = .next (a.sends s (.rgnStat pr t0 t1) (.val (s.rgnWord a.f)) 0)))
  ∧ (∀ (s : State) (a : Acting), exec .nop s = .next s ∧ exec .xop s = .next s
       ∧ a.canFire .nop = false ∧ a.canFire .xop = false)

/-- R284 to R286: the conversions complete and send the converted vector with its new tag; a conversion that rounds
stochastically also leaves the state of s.srng for its block's commit (R270). R260, R261, R268, R269, R271: the
value of an element of each format, and the code that a value narrows to. A NaN gives the format's default NaN, 0
for E2M1 and INT8. A finite value is rounded once to the format's precision; what is then beyond the largest finite
value, and an infinity, gives that value under SATFINITE or RTZ and in E2M1, the NaN in E4M3, else an infinity. INT8
rounds to an integer and clamps. R260, R261, R270, R284 to R286: what the converted vectors hold: of `cvt.n` the
narrowed lanes of its source, each under its 16 random bits from the chain of R270; of `cvt.w` the elements of its
source, rounded to nearest, and +0.0 where it has none; of `bscale` the two scales, each the smallest that lets no
lane of its block exceed 6, and the lanes divided by them. Nothing else. -/
def Obligations.ConversionsComplete : Prop :=
  (∀ (pr : Pred) (tag : BitVec 3) (rm : NRound) (sat : Bool) (t0 t1 : Target) (s : State) (a : Acting) (v : Vec)
       (src : BitVec 3), a.fr.opL a.k = .vec v src →
     (rm ≠ .sr → Fires s (.cvtN pr tag rm sat t0 t1) a →
       exec (.cvtN pr tag rm sat t0 t1) s = .next (a.sends s (.cvtN pr tag rm sat t0 t1)
         (.vec (cvtNarrow tag.toNat rm sat [] v src.toNat) tag) 0))
     ∧ (Fires s (.cvtN pr tag .sr sat t0 t1) a → a.srTurn = true →
       let ws := srWords ((cvtLanes src.toNat + 3) / 4) a.srState
       exec (.cvtN pr tag .sr sat t0 t1) s = .next (a.commit s
         (({ a.fr.fire a.k with srng := a.fr.srng ++ [(a.k, ws.getD ((cvtLanes src.toNat + 3) / 4 - 1) 0)] } : Frame).send
           (targetsOf (.cvtN pr tag .sr sat t0 t1)) (.vec (cvtNarrow tag.toNat .sr sat ws v src.toNat) tag))))
     ∧ (Fires s (.cvtW pr tag t0 t1) a →
       exec (.cvtW pr tag t0 t1) s = .next (a.sends s (.cvtW pr tag t0 t1) (.vec (cvtWiden tag.toNat v src.toNat) tag) 0))
     ∧ (Fires s (.bscale pr t0 t1) a →
       exec (.bscale pr t0 t1) s = .next (a.sends s (.bscale pr t0 t1) (.vec (blockQuantize v) 4) 0)))
  ∧ (let formats := [(0, 8, 7, 0x7F7F, 0x7F80, 0x7FC0), (1, 5, 10, 0x7BFF, 0x7C00, 0x7E00), (2, 4, 3, 0x7E, 0x7F, 0x7F),
       (3, 5, 2, 0x7B, 0x7C, 0x7E), (4, 2, 1, 7, 7, 0), (6, 8, 23, 0x7F7FFFFF, 0x7F800000, 0x7FC00000)]
     (∀ tag eb mb top far nan, (tag, eb, mb, top, far, nan) ∈ formats → let F : Fmt := { eb := eb, mb := mb }
       (∀ (rm : NRound) (sat neg : Bool) (rnd : Nat) (x : Machine.Num), rnd < 65536 →
         let beyond := fun (n : Bool) =>
           if sat = true ∨ rm = .rtz then F.signed n top else if tag = 2 then 0x7F else F.signed n far
         narrowTo tag rm sat rnd .nan = nan ∧ narrowTo tag rm sat rnd (.inf neg) = beyond neg
         ∧ F.Narrows top rm rnd x.neg x.abs (beyond x.neg) (narrowTo tag rm sat rnd (.fin x)))
       ∧ (∀ neg m, m < 2 ^ (eb + mb) → let v := elemValue tag (F.signed neg m)
         (m ≤ top → ∃ n, v = .fin n ∧ n.neg = neg ∧ n.abs = F.grid m)
         ∧ (m = far → tag ≠ 2 → tag ≠ 4 → v = .inf neg) ∧ (top < m → m ≠ far ∨ tag = 2 → v = .nan)))
     ∧ (∀ (rm : NRound) (sat : Bool) (rnd c : Nat) (x : Machine.Num), rnd < 65536 →
       narrowTo 5 rm sat rnd .nan = 0 ∧ narrowTo 5 rm sat rnd (.inf true) = 0x80 ∧ narrowTo 5 rm sat rnd (.inf false) = 0x7F
       ∧ ((c : ℚ) ≤ x.abs → x.abs < c + 1 →
         let code := fun (t : Nat) => ((max (-128) (min 127 (if x.neg = true then -(t : ℤ) else t))) % 256).toNat
         let up := NarrowsUp rm rnd (x.abs - c) (c % 2 == 1)
         (up → narrowTo 5 rm sat rnd (.fin x) = code (c + 1)) ∧ (¬up → narrowTo 5 rm sat rnd (.fin x) = code c)))
     ∧ (∀ x < 256, ∃ n, elemValue 5 x = .fin n ∧ n.val = if x < 128 then (x : ℚ) else (x : ℚ) - 256))
  ∧ (let bits := fun (tag : Nat) => if tag = 0 ∨ tag = 1 then 16 else if tag = 4 then 4 else if tag = 6 ∨ tag = 7 then 32 else 8
     (∀ (dst src : Nat) (rm : NRound) (sat : Bool) (v : Vec) (st : Word) (w : Nat → Word), dst < 6 → src < 8 →
       let n := if src = 0 ∨ src = 1 then 32 else 16
       let ws := srWords ((cvtLanes src + 3) / 4) st
       let r := cvtNarrow dst rm sat ws v src
       w 0 = st → (∀ t, let x := w t ^^^ (w t <<< 13); let y := x ^^^ (x >>> 7); w (t + 1) = y ^^^ (y <<< 17)) →
       (∀ i < n, lane r (bits dst) i = narrowTo dst rm sat (nfld (w (i / 4 + 1)) (16 * (i % 4)) 16)
         (elemValue (if n = 32 then src else 6) (lane v (512 / n) i)))
       ∧ r.toNat < 2 ^ (n * bits dst) ∧ ws.getD ((cvtLanes src + 3) / 4 - 1) 0 = w (n / 4)
       ∧ (rm ≠ .sr → cvtNarrow dst rm sat [] v src = r))
     ∧ (∀ (dst src : Nat) (v : Vec), dst = 0 ∨ dst = 1 ∨ dst = 6 → src < 8 →
       let n := if dst = 6 then 16 else 32
       let r := cvtWiden dst v src
       ∀ i < n, lane r (bits dst) i =
         if i < 512 / bits src then narrowTo dst .rne false 0 (elemValue src (lane v (bits src) i)) else 0)
     ∧ (∀ (v : Vec) (j : Nat), j < 2 →
       let r := blockQuantize v
       let x := fun (i : Nat) => elemValue 6 (lane v 32 (8 * j + i))
       let c := nfld r (64 + 8 * j) 8
       let fits := fun (c : Nat) => ∀ i < 8, (∀ b, x i ≠ .inf b) ∧ ∀ y, x i = .fin y → y.abs ≤ 6 * e3m5Value c
       let zero := ∀ i < 8, x i = .nan ∨ ∃ y, x i = .fin y ∧ y.m = 0
       r.toNat < 2 ^ 80 ∧ (zero → c = 0x60)
       ∧ (¬zero → ∀ d, 1 ≤ d → d < 256 → fits d → 1 ≤ c ∧ c ≤ d ∧ fits c)
       ∧ (¬zero → (∀ d, 1 ≤ d → d < 256 → ¬fits d) → c = 0xFF)
       ∧ ∀ i < 8, let code := lane r 4 (8 * j + i)
         (x i = .nan → code = 0) ∧ (∀ b, x i = .inf b → code = if b = true then 0xF else 7)
         ∧ ∀ y, x i = .fin y → ({ eb := 2, mb := 1 } : Fmt).Narrows 7 .rne 0 y.neg (y.abs / e3m5Value c)
           (if y.neg = true then 0xF else 7) code))

/-! ### Branches and what waits for the commit -/

/-- R14, R21, R59 to R62: a branch that fires leaves its block with its target, which is a multiple of 32 for a
direct branch of an aligned block; a call gives g62 the address after its block. R63: a halt leaves its block
without a successor: the fibre has no next block, unless younger blocks are in flight, which vanish when its block
commits. -/
def Obligations.BranchesLeaveTheirBlock : Prop :=
  (∀ (s : State) (a : Acting) (pr : Pred) (e : BitVec 3) (off : BitVec 33) (target : Word), a.fr.exits = [] →
     (a.fr.addr.toNat % 32 = 0 → Fires s (.br pr e off) a →
       Leaves s (.br pr e off) a (a.fr.addr + (off.signExtend 64 <<< 5)) false)
     ∧ (a.fr.addr.toNat % 32 = 0 → Fires s (.call pr e off) a →
       Leaves s (.call pr e off) a (a.fr.addr + (off.signExtend 64 <<< 5)) true)
     ∧ (a.fr.opL a.k = .val target → target.toNat % 32 = 0 →
       (Fires s (.bri pr e) a → Leaves s (.bri pr e) a target false)
       ∧ (Fires s (.calli pr e) a → Leaves s (.calli pr e) a target true)
       ∧ (Fires s (.ret pr e) a → Leaves s (.ret pr e) a target false)))
  ∧ (∀ (s : State) (a : Acting) (pr : Pred) (e : BitVec 3), Fires s (.halt pr e) a → a.fr.exits = [] →
       ∃ t f fr, exec (.halt pr e) s = .next t ∧ t.fibre? a.fid = some f ∧ f.frame? a.fr.seq = some fr
         ∧ fr.exits = [{ idx := a.k, target := none, isHalt := true }] ∧ fr.fired = a.fr.fired ++ [a.k]
         ∧ fr.faults = a.fr.faults ∧ fr.slots = a.fr.slots
         ∧ f.next = (if a.f.frames.any (fun x => a.fr.seq < x.seq) then a.f.next else none))

/-- R14, R20, R21, R24, R59: an indirect branch on a null fires without an exit, one on poison leaves without a
target and changes no next block; one to a misaligned address records ALIGN with the address, and as the first exit
of its block it leaves no younger block in flight and no next block; a branch or halt that fires in a block that has
left already records MULTI_EXIT at the higher of its index and that of the lowest exit. -/
def Obligations.BranchesThatCannotLeave : Prop :=
  ∀ (s : State) (a : Acting) (pr : Pred) (e : BitVec 3) (off : BitVec 33) (target : Word),
    (∀ i ∈ [Instr.bri pr e, .calli pr e, .ret pr e],
      (Fires s i a → a.fr.opL a.k = .null → exec i s = .next (a.commit s (a.fr.fire a.k)))
      ∧ (Fires s i a → a.fr.opL a.k = .poison → ∃ t f fr, exec i s = .next t ∧ t.fibre? a.fid = some f
        ∧ f.frame? a.fr.seq = some fr ∧ fr.exits = a.fr.exits ++ [{ idx := a.k, target := none, isHalt := false }]
        ∧ f.next = a.f.next)
      ∧ (Fires s i a → a.fr.opL a.k = .val target → target.toNat % 32 ≠ 0 →
        ∃ t f fr, exec i s = .next t ∧ t.fibre? a.fid = some f ∧ f.frame? a.fr.seq = some fr
          ∧ { idx := a.k, cause := .align, taddr := target, src := .firing } ∈ fr.faults
          ∧ (a.fr.exits = [] → f.next = none ∧ ∀ y ∈ f.frames, y.seq ≤ a.fr.seq)
          ∧ (a.fr.exits ≠ [] → f.next = a.f.next)))
    ∧ (∀ i ∈ [Instr.br pr e off, .bri pr e, .call pr e off, .calli pr e, .ret pr e, .halt pr e], ∀ x ∈ a.fr.exits,
      Fires s i a → ((slotsOf i).l ≠ .none → a.fr.opL a.k ≠ .null) → (∀ y ∈ a.fr.exits, x.idx ≤ y.idx) →
      ∃ t f fr, exec i s = .next t ∧ t.fibre? a.fid = some f ∧ f.frame? a.fr.seq = some fr
        ∧ { idx := max a.k x.idx, cause := .multiExit, taddr := 0, src := .firing } ∈ fr.faults)

/-- R25, R64, R236, R237: a deliberate trap fires and records its cause at its index, and nothing else; and when
that ends what its block does, the block being the oldest, fault-free before it and outside regions, the fibre is in
the handler that delegation names at the next delivery: the bank of that level holds the cause, the block's address,
the index and the target of the fired branch, and the level from before; the next block is the handler's vector, and
no block of this one or younger is in flight. R178 to R180, R212, R238, R241, R255: the instructions that act at
commit only count as fired when they fire; `rgn.beg` beside another boundary or an `sret`, and `sret` beside
another, record BLK_FMT at the higher of the two indices. A `rgn.beg` whose block is the oldest also records, at the
index of the lowest fired one, RGN_NEST while a region of its fibre is open or ended, kept over a handler included,
and else ILL when its kernel header declares no regions. `sret` records ILL for a PL that is no level, and PRIV at
level A for another level. -/
def Obligations.TrapsAndBoundariesWaitForTheCommit : Prop :=
  (∀ (s : State) (a : Acting) (pr : Pred) (code : BitVec 24),
     ∀ x ∈ [(Instr.scall pr code, Cause.scall), (.trap pr code, .trap), (.brk pr code, .brk)], Fires s x.1 a →
       let fr := { a.fr with
         fired := a.fr.fired ++ [a.k], faults := a.fr.faults ++ [{ idx := a.k, cause := x.2, taddr := 0, src := .firing }] }
       exec x.1 s = .next (a.commit s fr)
       ∧ (∀ younger g l w, a.f.frames = a.fr :: younger → s.ctxOf a.f = some (g, l) → g.state = .running → a.fr.waiting = false →
         a.fr.faults = [] → a.f.rgn = none → a.f.rgnKept = none → a.fr.target = some w →
         (a.commit s fr).settled (a.f.setFrame fr) a.fid fr = true →
         let h := handlerLevel a.f x.2
         ∃ v f b, exec (.trapDelivery a.fid) (a.commit s fr) = .next v ∧ v.fibre? a.fid = some f ∧ f.bank h = b
           ∧ f.level = h ∧ f.next = some (a.f.bank h).tvec ∧ b.tcause = BitVec.ofNat 64 x.2.code ∧ b.tblock = a.fr.addr
           ∧ b.tidx = BitVec.ofNat 64 a.k ∧ b.taddr = w ∧ b.tstat = BitVec.ofNat 64 a.f.level.code
           ∧ (∀ y ∈ f.frames, y.seq < a.fr.seq)))
  ∧ (∀ (s : State) (a : Acting) (pr : Pred) (reg : BitVec 6) (off : BitVec 23),
       let fr := a.fr.fire a.k
       let fired := a.commit s fr
       let alone := fun (p : Instr → Bool) => ∀ k ∈ a.fr.fired, ((a.fr.instr k).map p).getD false = false
       let first := fun (p : Instr → Bool) (j : Nat) => j ∈ a.fr.fired ∧ ((a.fr.instr j).map p).getD false = true
         ∧ ∀ k ∈ a.fr.fired, ((a.fr.instr k).map p).getD false = true → j ≤ k
       let clash := fun (j : Nat) => fr.fault (max a.k j) .blkFmt 0 .afterFetch
       let fault := fun (c : Cause) => a.commit s (fr.fault a.k c 0 .firing)
       let beg := Instr.rgnBeg pr reg off
       let boundary := fun i => isRgnBeg i || isRgnEnd i || isSret i
       (∀ g l, Fires s beg a → s.ctxOf a.f = some (g, l) →
         let nests := a.f.rgnKept ≠ none ∨ (a.f.rgn ≠ none ∧ a.f.answer = none)
         let undeclared := a.f.rgnKept = none ∧ a.f.rgn = none ∧ l.regions = false
         (a.f.isOldest a.fr.seq = false ∨ (¬nests ∧ ¬undeclared) →
           (alone boundary → exec beg s = .next fired) ∧ (∀ j, first boundary j → exec beg s = .next (a.commit s (clash j))))
         ∧ (a.f.isOldest a.fr.seq = true → ∀ c, (c = .rgnNest ∧ nests) ∨ (c = .ill ∧ undeclared) →
           (alone boundary → exec beg s = .next (fault c))
           ∧ (∀ j b, first boundary j → (b = a.k ∨ (b ∈ a.fr.fired ∧ (a.fr.instr b).map isRgnBeg = some true)) →
             b ≤ a.k → (∀ x ∈ a.fr.fired, (a.fr.instr x).map isRgnBeg = some true → b ≤ x) →
             exec beg s = .next (a.commit s ((clash j).fault b c 0 .firing)))))
       ∧ (Fires s (.rgnEnd pr) a → (alone isRgnBeg → exec (.rgnEnd pr) s = .next fired)
         ∧ (∀ j, first isRgnBeg j → exec (.rgnEnd pr) s = .next (a.commit s (clash j))))
       ∧ (Fires s (.rgnAbt pr) a → exec (.rgnAbt pr) s = .next fired)
       ∧ (Fires s (.yield pr) a → exec (.yield pr) s = .next fired)
       ∧ (Fires s (.sret pr) a →
         let pl := nfld (a.f.bank a.f.level).tstat 0 2
         let other := fun i => isSret i || isRgnBeg i
         (pl = 2 → exec (.sret pr) s = .next (fault .ill))
         ∧ (pl ≠ 2 → a.f.level = .a ∧ pl ≠ 0 → exec (.sret pr) s = .next (fault .priv))
         ∧ (pl ≠ 2 → a.f.level ≠ .a ∨ pl = 0 → alone other → exec (.sret pr) s = .next fired)
         ∧ (∀ j, pl ≠ 2 → a.f.level ≠ .a ∨ pl = 0 → first other j → exec (.sret pr) s = .next (a.commit s (clash j)))))

/-! ### Memory instructions -/

/-- R52, R53, R56, R129, R130: loads of each width enter the load-store queue with their address when their checks
pass, and record the fault of the check that fails. R13, R27, R52, R54, R129: stores of each width enter the
load-store queue with their address and the low bytes of their data, a poisoned value included, and have then
produced their LSID; a store whose check fails records the fault and produces its LSID. That a load found to be
irrevocable by its page runs in a block by itself, and squashes a block in which another load has begun, is the
model's reading (log 24, DEDUCED). -/
def Obligations.LoadsAndStoresEnterTheQueue : Prop :=
  (∀ (pr : Pred) (m : MemF) (t0 t1 : Target) (fmt : Bool),
     LoadQueues (.ldB pr m t0 t1) m 1 false ∧ LoadQueues (.ldBu pr m t0 t1) m 1 false
     ∧ LoadQueues (.ldH pr m t0 t1) m 2 false ∧ LoadQueues (.ldHu pr m t0 t1) m 2 false
     ∧ LoadQueues (.ldW pr m t0 t1) m 4 false ∧ LoadQueues (.ldWu pr m t0 t1) m 4 false
     ∧ LoadQueues (.ldD pr m t0 t1) m 8 false ∧ LoadQueues (.vld pr fmt m t0 t1) m 64 fmt)
  ∧ (∀ (pr : Pred) (m : MemF), StoreQueues (.stB pr m) m 1 ∧ StoreQueues (.stH pr m) m 2 ∧ StoreQueues (.stW pr m) m 4
       ∧ StoreQueues (.stD pr m) m 8 ∧ StoreQueues (.vst pr m) m 64)

/-- R131, R132: a gather or scatter takes its lanes in ascending order, each at base + offset + signed index times
the element's width: when every lane passes its checks it enters the queue with their pieces; when the lanes below
one pass and that one fails, its fault is recorded with its element's address and no access is made. It waits only
while a host holds a table entry that a translation of its lanes reads (R126). A gather that proves irrevocable by
its page while its block speculates has the block fetched again first (log 24). R98, R140 to R144: atomics enter the
queue with their operands when the check passes that asks for natural alignment, the formats of the opcode and, in
non-coherent memory, the AtomicOp (0 FetchAdd, 1 Swap, 2 CAS, 3 none); one whose check fails records the fault,
produces its LSID and makes no access. That a gather found to be irrevocable by its page runs in a block by itself
is the model's reading (log 24, DEDUCED). -/
def Obligations.GathersScattersAndAtomicsEnterTheQueue : Prop :=
  (∀ (pr : Pred) (sz : WD) (m : MemF) (t0 t1 : Target) (s s' : State) (a : Acting) (c : Ctx) (inside : Bool)
       (ps : List Piece),
     let want := fun (k : AccKind) => ({ kind := k, align := wdBytes sz, inRegion := inside, formats := [], amo := none } : Want)
     let ls := List.range (64 / wdBytes sz)
     let data := fun j => natLe (wdBytes sz) (lane (a.fr.opX a.k).vector (8 * wdBytes sz) j)
     let waits := s.walkWaits c.cell c.x (laneVas a m sz)
     let gather := Instr.vgather pr sz m t0 t1
     let scatter := Instr.vscatter pr sz m
     (∀ t, waits = some t → ∀ i ∈ [gather, scatter], MemoryFires s i a c inside → exec i s = .next t)
     ∧ (MemoryFires s gather a c inside → waits = none →
       (checkLanes c (want .load) a m sz (fun _ => []) ls [] s = (.ok ps, s') →
         a.ReadsOn s s' gather (newAccess gather a c inside ps 7 0 0))
       ∧ (∀ js j rest e t, ls = js ++ j :: rest →
         checkLanes c (want .load) a m sz (fun _ => []) js [] s = (.ok ps, s') →
         s'.check c (want .load) (elementVa a m sz j) (wdBytes sz) = (.error e, t) →
         exec gather s = .next (a.records t gather e.1 (elementVa a m sz j))))
     ∧ (MemoryFires s scatter a c inside → waits = none →
       (checkLanes c (want .store) a m sz data ls [] s = (.ok ps, s') →
         exec scatter s = .next (a.storeQueued s' (newAccess scatter a c inside ps 7 0 0)))
       ∧ (∀ js j rest e t, ls = js ++ j :: rest →
         checkLanes c (want .store) a m sz data js [] s = (.ok ps, s') →
         s'.check c (want .store) (elementVa a m sz j) (wdBytes sz) = (.error e, t) →
         exec scatter s = .next (a.commit t (((a.fr.fire a.k).fault a.k e.1 (elementVa a m sz j) .firing).produce
           m.lsid.toNat))))
     ∧ (∀ j, elementVa a m sz j = (a.fr.opL a.k).word + m.off.signExtend 64
         + BitVec.ofInt 64 (signedOf (8 * wdBytes sz) (lane (a.fr.opR a.k).vector (8 * wdBytes sz) j) * wdBytes sz)))
  ∧ (∀ (pr : Pred) (sz : WD) (m : MemF) (t0 t1 : Target),
       AtomicQueues (.amoAdd pr sz m t0 t1) m (wdBytes sz) [7, 5] 0 ∧ AtomicQueues (.amoAnd pr sz m t0 t1) m (wdBytes sz) [7, 5] 3
       ∧ AtomicQueues (.amoOr pr sz m t0 t1) m (wdBytes sz) [7, 5] 3 ∧ AtomicQueues (.amoXor pr sz m t0 t1) m (wdBytes sz) [7, 5] 3
       ∧ AtomicQueues (.amoMin pr sz m t0 t1) m (wdBytes sz) [7, 5] 3 ∧ AtomicQueues (.amoMax pr sz m t0 t1) m (wdBytes sz) [7, 5] 3
       ∧ AtomicQueues (.amoMinu pr sz m t0 t1) m (wdBytes sz) [7, 5] 3 ∧ AtomicQueues (.amoMaxu pr sz m t0 t1) m (wdBytes sz) [7, 5] 3
       ∧ AtomicQueues (.amoSwap pr sz m t0 t1) m (wdBytes sz) [7, 5] 1 ∧ AtomicQueues (.amoCas pr sz m t0 t1) m (wdBytes sz) [7, 5] 2
       ∧ AtomicQueues (.amoFadd pr m t0 t1) m 4 [6, 7] 3)

/-- R134, R135, R138: a prefetch changes no value, records nothing and only counts as fired; it waits only while a
host holds a table entry that its translation reads (R126). A fence enters the queue, and so do `cinv` and `cwb`
with their range, outside regions and within the 57 bits of an address; they record RGN_SPACE inside a region and
PAGE_MISS for a range beyond. -/
def Obligations.PrefetchesFencesAndCacheOperations : Prop :=
  ∀ (pr : Pred) (lsid : BitVec 5) (off : BitVec 22) (scope : Scope) (ord : Order) (s : State) (a : Acting) (c : Ctx)
      (inside : Bool),
    let queued := fun (i : Instr) (opr opx : Word) =>
      ({ (a.commit s (a.fr.fire a.k)).setAccess s.nextId (newAccess i a c inside [] 7 opr opx) with nextId := s.nextId + 1 } : State)
    (MemoryFires s (.pf pr lsid off) a c inside →
      let waits := s.walkWaits c.cell c.x [((a.fr.opL a.k).word + off.signExtend 64, 1)]
      (inside = true ∨ waits = none → ∃ t, exec (.pf pr lsid off) s = .next t
        ∧ t.fibres = (a.commit s (a.fr.fire a.k)).fibres ∧ t.accesses = s.accesses ∧ t.out = s.out ∧ s.SameBytes t)
      ∧ (∀ t, inside = false → waits = some t → exec (.pf pr lsid off) s = .next t))
    ∧ (MemoryFires s (.fence pr lsid scope ord) a c inside →
      exec (.fence pr lsid scope ord) s = .next (queued (.fence pr lsid scope ord) 0 0))
    ∧ (∀ va len, a.fr.opL a.k = .val va → a.fr.opR a.k = .val len → ∀ i ∈ [Instr.cinv pr lsid, .cwb pr lsid],
      MemoryFires s i a c inside →
      (len = 0 ∨ va.toNat + len.toNat ≤ 2 ^ 57 →
        exec i s = .next (if inside then a.records s i .rgnSpace va else queued i len va))
      ∧ (len ≠ 0 → 2 ^ 57 < va.toNat + len.toNat → exec i s = .next (a.records s i .pageMiss va)))

/-- R55, R98, R101, R144: the checks of an access in their order: bits [63:57] of the address, then alignment, then
the window or page; then for an atomic the formats it admits and the AtomicOp in non-coherent memory; then, in a
region, host memory and declared pages, and stores and atomics to cell memory (log 71). An access that none of them
refuses passes. R25, R52, R54: an access that fails its checks is not made: its fault is recorded with its address,
its targets take poison, and a store counts as produced; while a host holds a table entry that the translation
reads, the access waits (R126). The place of ATOM_UNSUP among the checks is the model's choice (log 71). -/
def Obligations.AccessChecksAndRefusals : Prop :=
  (∀ (s : State) (c : Ctx) (w : Want) (va : Word) (n : Nat),
     (nfld va 57 7 ≠ 0 → s.check c w va n = (.error (.pageMiss, va), s))
     ∧ (nfld va 57 7 = 0 → va.toNat % w.align ≠ 0 → s.check c w va n = (.error (.align, va), s))
     ∧ (∀ e s', nfld va 57 7 = 0 → va.toNat % w.align = 0 → s.segments c w.kind va n = (.error e, s') →
       s.check c w va n = (.error e, s'))
     ∧ (∀ segs s', nfld va 57 7 = 0 → va.toNat % w.align = 0 → s.segments c w.kind va n = (.ok segs, s') →
       let badType := w.formats ≠ [] ∧ ∃ g ∈ segs, g.tag ∉ w.formats
         ∨ (g.loc.space = .cell ∧ (s'.granule g.loc.addr).getLsbD 3 = true)
       let noOp := ∃ op width, w.amo = some (op, width) ∧ ∃ g ∈ segs, g.loc.space = .hostNc
         ∧ ¬(op ≤ 2 ∧ Config.completerHas g.loc.addr op width = true)
       let outer := w.inRegion = true ∧ ∃ g ∈ segs, g.loc.space = .hostCoh ∨ g.loc.space = .hostNc ∨ g.loc.declared = true
       let inner := w.inRegion = true ∧ w.kind ≠ .load ∧ ∃ g ∈ segs, g.loc.space = .cell
       (badType → s.check c w va n = (.error (.atomType, va), s'))
       ∧ (¬badType → noOp → s.check c w va n = (.error (.atomUnsup, va), s'))
       ∧ (¬badType → ¬noOp → outer → s.check c w va n = (.error (.rgnSpace, va), s'))
       ∧ (¬badType → ¬noOp → ¬outer → inner → s.check c w va n = (.error (.rgnLocal, va), s'))
       ∧ (¬badType → ¬noOp → ¬outer → ¬inner → s.check c w va n = (.ok segs, s'))))
  ∧ (∀ (pr : Pred) (m : MemF) (t0 t1 : Target) (s s' : State) (a : Acting) (c : Ctx) (inside : Bool) (base : Word)
         (e : Cause × Word), a.fr.opL a.k = .val base →
       let va := base + m.off.signExtend 64
       let ld := Instr.ldD pr m t0 t1
       let st := Instr.stD pr m
       let want := fun (kind : AccKind) (ordered : Bool) =>
         ({ kind := kind, align := if ordered then 8 else 1, inRegion := inside, formats := [], amo := none } : Want)
       let wl := want .load (acquires ld)
       let ws := want .store (releases st)
       (MemoryFires s ld a c inside → s.checkWaits c wl va 8 = none → s.check c wl va 8 = (.error e, s') →
         exec ld s = .next (a.records s' ld e.1 e.2))
       ∧ (MemoryFires s st a c inside → s.checkWaits c ws va 8 = none → s.check c ws va 8 = (.error e, s') →
         exec st s = .next (a.commit s' (((a.fr.fire a.k).fault a.k e.1 e.2 .firing).produce m.lsid.toNat))))

/-- R102 to R104: an address of the own-cell window reaches the fibre's own cell memory, and an address of the group
window that of the member it names; a member that the group does not have gives PEER; the rest of the aperture has
no page, and an access that runs over the end of a window gives WINDOW_SPAN. -/
def Obligations.WindowsReachCellMemory : Prop :=
  ∀ (s : State) (c : Ctx) (kind : AccKind) (va : Word) (n o : Nat), nfld va 48 16 = 0x1F0 → o = nfld va 0 48 → 1 ≤ n →
    (o % 0x100000 + n ≤ 0x100000 →
      (o < 0x100000 → ∃ g, s.segments c kind va n = (.ok [g], s) ∧ g.loc.space = .cell
        ∧ g.loc.addr = c.cell * 0x100000 + o ∧ g.va = va ∧ g.n = n)
      ∧ (0x100000000 ≤ o → o < 0x200000000 → (o / 0x100000) % 4096 < c.l.cells →
        ∃ g, s.segments c kind va n = (.ok [g], s) ∧ g.loc.space = .cell
          ∧ g.loc.addr = memberCell c.g c.l ((o / 0x100000) % 4096) * 0x100000 + o % 0x100000 ∧ g.va = va ∧ g.n = n)
      ∧ (0x100000000 ≤ o → o < 0x200000000 → c.l.cells ≤ (o / 0x100000) % 4096 →
        s.segments c kind va n = (.error (.peer, va), s))
      ∧ (0x200000000 ≤ o ∨ (0x100000 ≤ o ∧ o < 0x100000000) → s.segments c kind va n = (.error (.pageMiss, va), s)))
    ∧ (0x100000 < o % 0x100000 + n → n ≤ 0x100000 →
      (o < 0x100000 → s.segments c kind va n = (.error (.windowSpan, va), s))
      ∧ (0x100000000 ≤ o → o < 0x200000000 → (o / 0x100000) % 4096 < c.l.cells →
        s.segments c kind va n = (.error (.windowSpan, va), s)))

/-! ### System instructions and engine commands -/

/-- R239 to R241: in the oldest block `srd` sends the register when the level covers it, and records PRIV when it
does not; in a younger block it waits. `swr` fires when its value has come: it keeps it for the commit when the
level covers the register, keeps nothing for a null or poison, and records PRIV whatever it is when the level does
not cover the register. R240, R243: what the write of s.tstat of a bank leaves: a PL of 2 or above the bank's level
leaves PL, RESUME is bit 2, every other bit reads 0; of the other trap registers the vector and block are multiples
of 32, and cause and index have 8 bits. R239, R240, R242, R308: what the write of another register at the commit
leaves: its fields, all other bits reading 0, and every other register as it was; a write of a read-only register
changes none. -/
def Obligations.SystemRegistersKeepTheirLevelAndBits : Prop :=
  (∀ (s : State) (a : Acting) (pr : Pred) (num : BitVec 12) (t0 t1 : Target) (v : Word),
     (Fires s (.srd pr num t0 t1) a →
       (a.f.isOldest a.fr.seq = true → (readLevel a.f num.toNat).code ≤ a.f.level.code →
         exec (.srd pr num t0 t1) s = .next (a.sends s (.srd pr num t0 t1) (.val (s.sysRead a.f num.toNat)) 0))
       ∧ (a.f.isOldest a.fr.seq = true → a.f.level.code < (readLevel a.f num.toNat).code →
         exec (.srd pr num t0 t1) s = .next (a.records s (.srd pr num t0 t1) .priv 0))
       ∧ (a.f.isOldest a.fr.seq = false → exec (.srd pr num t0 t1) s = .next s))
     ∧ (Fires s (.swr pr num) a →
       (a.fr.opL a.k = .val v → (writeLevel a.f num.toNat).code ≤ a.f.level.code →
         exec (.swr pr num) s = .next (a.commit s { a.fr.fire a.k with swrs := a.fr.swrs ++ [(a.k, num.toNat, v)] }))
       ∧ (a.fr.opL a.k = .null ∨ a.fr.opL a.k = .poison → (writeLevel a.f num.toNat).code ≤ a.f.level.code →
         exec (.swr pr num) s = .next (a.commit s (a.fr.fire a.k)))
       ∧ (a.f.level.code < (writeLevel a.f num.toNat).code →
         exec (.swr pr num) s = .next (a.commit s ((a.fr.fire a.k).fault a.k .priv 0 .firing)))))
  ∧ (∀ (b : Bank) (h : Level) (v : Word), nfld b.tstat 3 61 = 0 →
       nfld (b.set h 5 v).tstat 3 61 = 0
       ∧ nfld (b.set h 5 v).tstat 2 1 = nfld v 2 1
       ∧ nfld (b.set h 5 v).tstat 0 2 = (if nfld v 0 2 = 2 ∨ h.code < nfld v 0 2 then nfld b.tstat 0 2 else nfld v 0 2)
       ∧ (b.set h 0 v).tvec.toNat % 32 = 0 ∧ (b.set h 2 v).tblock.toNat % 32 = 0
       ∧ (b.set h 1 v).tcause.toNat = v.toNat % 256 ∧ (b.set h 3 v).tidx.toNat = v.toNat % 256
       ∧ (b.set h 4 v).taddr = v ∧ (b.set h 6 v).tscratch = v)
  ∧ (∀ (s : State) (fid num : Nat) (f : Fibre) (v : Word), s.fibre? fid = some f →
       let t := s.sysWrite fid num v
       let whole : Word := BitVec.allOnes 64
       let range : Word := 0x01FFFFFFFFFF0000
       let own := [(0x000, 0xFF), (0x001, whole), (0x006, 3), (0x020, whole), (0x021, whole), (0x030, whole), (0x031, 0x3F)
         , (0x032, whole)] ++ (List.range 16).map (fun i => (0x040 + i, range ||| 1))
         ++ (List.range 16).map (fun i => (0x050 + i, range))
       let ofCell := (List.range 8).map (fun i => (0x080 + i, (0xFF : Word))) ++ (List.range 8).map (fun i => (0x088 + i, whole))
       let readOnly := [0x002, 0x003, 0x004, 0x005, 0x007]
       (num ∈ readOnly ∨ (∃ p ∈ own ++ ofCell, p.1 = num) →
         ∃ f', t.fibre? fid = some f' ∧ (∀ m, m ≠ num → t.sysRead f' m = s.sysRead f m)
           ∧ (num ∈ readOnly → t.sysRead f' num = s.sysRead f num)
           ∧ (∀ p ∈ own ++ ofCell, p.1 = num → t.sysRead f' num = v &&& p.2)))

/-- R205 to R207: `bar.init` sets a barrier of another shape afresh, leaves one of the same shape, and records ILL
for a count of 0 or above the group's fibres; `bar.arr` counts in the fibre's next phase and sends it, and parks its
fibre while that phase is too far ahead or the barrier has no shape; `bar.wait` fires when its phase has passed and
parks when it has not. R206: an arrival counts in the fibre's next phase, and a phase whose arrivals are complete
passes. -/
def Obligations.BarriersCountArrivals : Prop :=
  (∀ (s : State) (a : Acting) (g : Group) (l : Launch) (pr : Pred) (bar : BitVec 4) (ahead : BitVec 2) (t0 t1 : Target)
       (n : Word) (x : Barrier),
     let fresh : Barrier := { count := n.toNat, limit := ahead.toNat + 1, phase := 0,
                              arrivals := List.replicate (ahead.toNat + 1) 0, next := [] }
     let arr := Instr.barArr pr bar t0 t1
     (Performs s (.barInit pr bar ahead) a g l → a.fr.opL a.k = .val n →
       (n = 0 ∨ l.fibres < n.toNat → exec (.barInit pr bar ahead) s = .next (a.records s (.barInit pr bar ahead) .ill 0))
       ∧ (n ≠ 0 → n.toNat ≤ l.fibres → g.bars.get? bar.toNat = some x → x.count = n.toNat → x.limit = ahead.toNat + 1 →
         exec (.barInit pr bar ahead) s = .next (a.performed s (.barInit pr bar ahead) .null))
       ∧ (n ≠ 0 → n.toNat ≤ l.fibres →
         (∀ y, g.bars.get? bar.toNat = some y → ¬(y.count = n.toNat ∧ y.limit = ahead.toNat + 1)) →
         exec (.barInit pr bar ahead) s = .next (a.performed
           ((s.setGroup a.f.gid { g with bars := g.bars.put bar.toNat fresh }).wakeBar a.f.gid bar.toNat)
           (.barInit pr bar ahead) .null)))
     ∧ (Performs s arr a g l → s.allDone a = true → g.bars.get? bar.toNat = some x →
       max (x.next.getD a.fid 0) x.phase < x.phase + x.limit →
       exec arr s = .next (a.performed
         (if (x.arrive a.fid).phase = x.phase then s.setGroup a.f.gid { g with bars := g.bars.put bar.toNat (x.arrive a.fid) }
          else (s.setGroup a.f.gid { g with bars := g.bars.put bar.toNat (x.arrive a.fid) }).wakeBar a.f.gid bar.toNat)
         arr (.val (BitVec.ofNat 64 (max (x.next.getD a.fid 0) x.phase)))))
     ∧ (Performs s arr a g l → s.effectStands a.fid a.fr = false →
       (∀ y, g.bars.get? bar.toNat = some y → y.phase + y.limit ≤ max (y.next.getD a.fid 0) y.phase) →
       exec arr s = .next (s.parkAt a.fid a.fr.seq a.fr.addr (.bar bar.toNat true)))
     ∧ (Fires s (.barWait pr bar) a → s.ctxOf a.f = some (g, l) → a.f.isOldest a.fr.seq = true → a.fr.faults = [] →
       a.fr.opL a.k = .val n → s.effectStands a.fid a.fr = false →
       exec (.barWait pr bar) s = .next (if (∃ y, g.bars.get? bar.toNat = some y ∧ n.toNat < y.phase) then a.commit s (a.fr.fire a.k)
         else s.parkAt a.fid a.fr.seq a.fr.addr (.bar bar.toNat false))))
  ∧ (∀ (x : Barrier) (fid : Nat), x.arrivals.length = x.limit → 1 ≤ x.limit →
       max (x.next.getD fid 0) x.phase < x.phase + x.limit →
       (x.arrive fid).next.getD fid 0 = max (x.next.getD fid 0) x.phase + 1
       ∧ (x.arrive fid).count = x.count ∧ (x.arrive fid).limit = x.limit ∧ x.phase ≤ (x.arrive fid).phase
       ∧ (x.arrive fid).arrivals.length = x.limit
       ∧ (x.arrivals.getD 0 0 + 1 = x.count → max (x.next.getD fid 0) x.phase = x.phase → x.phase < (x.arrive fid).phase))

/-- R208, R209: `evt.sig` adds to an event of its partition, modulo 2^64, and `evt.wait` fires when the event has
reached its value, compared unsigned, and parks its fibre when it has not; an event of another partition records
PRIV. R183, R210: in its partition `wq.give` puts an item behind the others and sends 0, or 1 to a full queue, 2 for
the item that means none, 3 where there is no queue; `wq.take` sends the first item and `wq.steal` the last, and
both all ones when there is no item or no queue; a queue of another partition records PRIV. -/
def Obligations.EventsAndQueuesServeTheirPartition : Prop :=
  (∀ (s : State) (a : Acting) (g : Group) (l : Launch) (pr : Pred) (scope : Scope) (e v : Word),
     a.fr.opL a.k = .val e → a.fr.opR a.k = .val v →
     (Performs s (.evtSig pr scope) a g l →
       (scope ≠ .fibre → s.allDone a = true) → e.toNat / 512 = l.part →
       exec (.evtSig pr scope) s = .next (a.performed (s.addEvent e.toNat v) (.evtSig pr scope) .null))
     ∧ (Performs s (.evtSig pr scope) a g l → e.toNat / 512 ≠ l.part →
       exec (.evtSig pr scope) s = .next (a.records s (.evtSig pr scope) .priv 0))
     ∧ (Fires s (.evtWait pr scope) a → s.ctxOf a.f = some (g, l) →
       (e.toNat / 512 ≠ l.part → exec (.evtWait pr scope) s = .next (a.records s (.evtWait pr scope) .priv 0))
       ∧ (a.f.isOldest a.fr.seq = true → a.fr.faults = [] → e.toNat / 512 = l.part → s.effectStands a.fid a.fr = false →
         exec (.evtWait pr scope) s = .next (if v.toNat ≤ (s.event e.toNat).toNat then a.commit s (a.fr.fire a.k)
           else s.parkAt a.fid a.fr.seq a.fr.addr (.evt e.toNat v))))
     ∧ (s.addEvent e.toNat v).event e.toNat = s.event e.toNat + v)
  ∧ (∀ (s : State) (a : Acting) (g : Group) (l : Launch) (pr : Pred) (scope : Scope) (t0 t1 : Target) (q x : Word) (w : Queue),
       a.fr.opL a.k = .val q →
       (q.toNat / 32 = l.part → Performs s (.wqGive pr scope t0 t1) a g l → (scope ≠ .fibre → s.allDone a = true) →
         a.fr.opR a.k = .val x →
         (s.queues.get? q.toNat = none →
           exec (.wqGive pr scope t0 t1) s = .next (a.performed s (.wqGive pr scope t0 t1) (.val 3)))
         ∧ (s.queues.get? q.toNat = some w → 2 ^ 20 ≤ w.items.length →
           exec (.wqGive pr scope t0 t1) s = .next (a.performed s (.wqGive pr scope t0 t1) (.val 1)))
         ∧ (s.queues.get? q.toNat = some w → w.items.length < 2 ^ 20 → x = BitVec.allOnes 64 →
           exec (.wqGive pr scope t0 t1) s = .next (a.performed s (.wqGive pr scope t0 t1) (.val 2)))
         ∧ (s.queues.get? q.toNat = some w → w.items.length < 2 ^ 20 → x ≠ BitVec.allOnes 64 →
           exec (.wqGive pr scope t0 t1) s = .next (a.performed
             { s with queues := s.queues.put q.toNat { w with items := w.items ++ [x] } } (.wqGive pr scope t0 t1) (.val 0))))
       ∧ (∀ rest, q.toNat / 32 = l.part → Performs s (.wqTake pr scope t0 t1) a g l → s.queues.get? q.toNat = some w →
         w.damaged = 0 → w.items = x :: rest →
         exec (.wqTake pr scope t0 t1) s = .next (a.performed
           { s with tick := s.tick + 1, queues := s.queues.put q.toNat { w with items := rest } } (.wqTake pr scope t0 t1) (.val x)))
       ∧ (∀ rest, q.toNat / 32 = l.part → Performs s (.wqSteal pr scope t0 t1) a g l → s.queues.get? q.toNat = some w →
         w.damaged = 0 → w.items = rest ++ [x] →
         exec (.wqSteal pr scope t0 t1) s = .next (a.performed
           { s with tick := s.tick + 1, queues := s.queues.put q.toNat { w with items := rest } } (.wqSteal pr scope t0 t1) (.val x)))
       ∧ (∀ i ∈ [Instr.wqTake pr scope t0 t1, .wqSteal pr scope t0 t1], q.toNat / 32 = l.part → Performs s i a g l →
         (∀ y, s.queues.get? q.toNat = some y → y.items = []) →
         exec i s = .next (a.performed s i (.val (BitVec.allOnes 64))))
       ∧ (∀ i ∈ [Instr.wqGive pr scope t0 t1, .wqTake pr scope t0 t1, .wqSteal pr scope t0 t1], q.toNat / 32 ≠ l.part →
         Performs s i a g l → exec i s = .next (a.records s i .priv 0)))

/-- R126, R188, R192, R211, R297: a `launch` whose address passes its checks, in a partition whose window is on, on
a module that accepts launches, while acceptance is not held and no record of the window is being taken: the 240
bytes are read, at level A with the caller's address space in place of the record's, they and the go word are
written to the slot of E, and the slot's segment takes the record from there; the block counts as in commit, and the
instruction owes its token, which is the STATUS word when that is written. An address that fails records its fault
and makes nothing. A window that is off, PRIV, and a byte of the record that is marked, UNCORR, are found when the
instruction would be performed (log 92, a choice of the model), and make nothing either. It waits while a host holds
a table entry that its translation reads. That the window and the marks are tested when the operation is performed
is the model's choice (log 92, DESIGN CHOICE). -/
def Obligations.LaunchTakesTheRecord : Prop :=
  ∀ (s : State) (a : Acting) (g : Group) (l : Launch) (pr : Pred) (t0 t1 : Target) (c : Ctx),
    Performs s (.launch pr t0 t1) a g l → s.fibreCtx a.f = some c →
    let i := Instr.launch pr t0 t1
    let win := 16 + l.part
    let va := (a.fr.opL a.k).word
    let want : Want := { kind := .load, align := 64, inRegion := false, formats := [], amo := none }
    let passes := s.checkWaits c want va 240 = none ∧ launchFault a s = none ∧ s.allDone a = true
    (∀ bs s1 t s2, passes → launchRefuses a c l s = none → s.closed = false →
      s.mapHeld = false → s.taking.get? win = none →
      s.engineReads (s.recordPlaces c va) = (some bs, s1) →
      let slot := s1.slotAddr win (s1.expected win)
      let e := s1.expected win % 2 ^ 32
      let ws := if a.f.level = .a then (dwordsOf bs).set 16 (setFld ((dwordsOf bs).getD 16 0) 0 12 (fld a.f.xroot 52 12))
                else dwordsOf bs
      s1.engineWrites (halvesOf (hbmLoc slot) (ws.flatMap (fun x => natLe 8 x.toNat))
        ++ [(hbmLoc (slot + 248), natLe 8 e)]) = (some t, s2) →
      let k : Taking := { slot := slot, seq := e, go := BitVec.ofNat 64 e, bytes := [], advanced := false, ctx := [], hdr := []
                          whose := some { fid := a.fid, seq := a.fr.seq, k := a.k } }
      let fr' : Frame := { a.fr.fire a.k with inCommit := true, owed := a.fr.owed ++ [a.k], late := a.fr.late.filter (· != a.k) }
      let t' := (t.check c want va 240).2
      exec i s = .next (({ t' with taking := t'.taking.put win k } : State).setFrame a.fid fr'))
    ∧ (∀ cause ta, s.checkWaits c want va 240 = none → launchFault a s = some (cause, ta) →
      exec i s = .next (a.records s i cause ta))
    ∧ (passes → s.winOn win = false → exec i s = .next (a.records s i .priv 0))
    ∧ (∀ segs before x after, passes → s.winOn win = true → (s.check c want va 240).1 = .ok segs →
      segs = before ++ x :: after → s.marked x.loc.space x.loc.addr x.n = true →
      (∀ y ∈ before, s.marked y.loc.space y.loc.addr y.n = false) → exec i s = .next (a.records s i .uncorr x.va))
    ∧ (∀ t, s.checkWaits c want va 240 = some t → exec i s = .next t)

/-- R24, R230 to R232, R276, R282, R283: outside regions, the commands of the copy engine and of the matrix node
wait for their block's commit with their operands, when their address passes and no other command with their status
register has fired in the block: 128-byte descriptors and tiles, 16-byte barriers, the own cell. -/
def Obligations.CommandsWaitForTheCommit : Prop :=
  ∀ (pr : Pred) (sreg : BitVec 6) (acc : BitVec 3) (kq : BitVec 7) (n : RingN) (fmt : MstFmt) (tag : BitVec 3) (scale : Bool),
    let va := fun (a : Acting) => (a.fr.opL a.k).word
    let own := fun (m : Nat) (a : Acting) (c : Ctx) => (va a).toNat % m = 0 ∧ inOwnCell c (va a) = true
    let free := fun (_ : Acting) (_ : Ctx) => True
    let tile := fun (a : Acting) (_ : Ctx) => (va a).toNat % 128 = 0
    CommandQueues (.cpy pr sreg) (own 128) ∧ CommandQueues (.cpyQ pr sreg) (own 128)
    ∧ CommandQueues (.bbarInit pr) (own 16) ∧ CommandQueues (.bbarWait pr sreg) (own 16)
    ∧ CommandQueues (.mma pr sreg acc kq) free ∧ CommandQueues (.mmaSp pr sreg acc kq) free
    ∧ CommandQueues (.mring pr sreg acc n kq) free ∧ CommandQueues (.mzero pr acc) free
    ∧ CommandQueues (.mld pr sreg acc) tile ∧ CommandQueues (.mst pr fmt sreg acc) tile
    ∧ CommandQueues (.cmtag pr tag scale) (fun a c => inOwnCell c (va a) = true
        ∧ (va a).toNat % 0x100000 + (a.fr.opR a.k).word.toNat ≤ 0x100000)

/-! ### Blocks: grant, fetch, commit and traps -/

/-- R29: a cell with a free frame grants it to the ready fibre that comes first after the one granted last; the
frame stands behind the fibre's others with its next-block address. R5, R15, R16, R62: a block whose header and
chunks can be fetched, and which names no pending register, has the words that its bytes spell, little-endian, and
the masks and mode bits of its header; the fibre goes on at the guess of its predictor. -/
def Obligations.FramesAreGrantedAndBlocksFetched : Prop :=
  (∀ (s : State) (cell fid : Nat) (f : Fibre), s.framesIn cell < 16 → s.granted cell = some (fid, f) →
     s.fibre? fid = some f →
     (∃ t, exec (.frameGrant cell) s = .next t ∧ t.fibre? fid = some { f with
         frames := f.frames ++ [Frame.fresh f.nextSeq (f.next.getD 0)], nextSeq := f.nextSeq + 1, next := none
         park := .none, fetchHold := none }
       ∧ (t.cell cell).last = f.idx ∧ s.SameRegs t ∧ s.SameBytes t)
     ∧ (∀ e ∈ s.grantable cell, rotation (s.cell cell).last f.idx ≤ rotation (s.cell cell).last e.2.idx))
  ∧ (∀ (s s1 s2 : State) (fid seq : Nat) (f : Fibre) (fr : Frame) (c : Ctx) (hdr text : List Byte),
       s.fibre? fid = some f → f.frame? seq = some fr → s.fibreCtx f = some c → fr.fetched = false → f.ringFault = false →
       ({ s with tick := s.tick + 1 } : State).fetchUnits c c.cell fr.addr [0] [] [] = (some (hdr, []), s1) →
       s1.fetchUnits c c.cell fr.addr ((List.range (2 * (leNat hdr % 16 + 1))).map (· + 1)) [] [] = (some (text, []), s2) →
       let loaded := ({ fr with faults := [] } : Frame).load hdr text
       let guess := loaded.guessed f.returnStack s.tick
       f.pendingName { loaded with guess := guess.1, popped := guess.2 } = none →
       ∃ f' fr', exec (.blockFetch fid seq) s = .next (s2.setFibre fid f') ∧ f'.frame? seq = some fr' ∧ fr'.fetched = true
         ∧ fr'.words = (chunksOf 8 (8 * (leNat hdr % 16 + 1)) text).map leWord
         ∧ fr'.ser = (leNat hdr / 2 ^ 8 % 2 == 1) ∧ fr'.dbg = (leNat hdr / 2 ^ 9 % 2 == 1)
         ∧ fr'.stmask = BitVec.ofNat 32 (leNat hdr / 2 ^ 16) ∧ fr'.gw = BitVec.ofNat 64 (leNat hdr / 2 ^ 64)
         ∧ fr'.vw = BitVec.ofNat 32 (leNat hdr / 2 ^ 128) ∧ f'.next = guess.1 ∧ f.SameRegs f')

/-- R24, R46, R81: when the oldest block is complete, quiet and free of faults, its register values enter the
register file (a null leaves its register), its flags join s.fcsr, and it leaves; here a block without `swr`, engine
commands or an instruction that acts at commit, and without STEP, and engines with room for it. R24, R213, R242: a
commit of a block with one `swr` writes its register, then the flags; a write of a translation or range register
waits for the fibre's copies and tile transfers. A commit of a block with one engine command makes its status
register pending and hands the command over with its operands and the translation that the block ran under. R45,
R46: what the register file holds after a block's values have entered: the token of each register that the block
wrote with a value, else what it held. That a block waits until nothing of it can still happen is read from the
rules by inference (log 15). -/
def Obligations.CommitEntersRegisters : Prop :=
  (∀ (s : State) (fid : Nat) (f : Fibre) (fr : Frame) (younger : List Frame) (g : Group) (l : Launch),
     s.fibre? fid = some f → f.frames = fr :: younger → s.ctxOf f = some (g, l) → g.state = .running →
     fr.complete = true → fr.quiet = true → fr.waiting = false → fr.faults = [] → f.stepped = false → fr.dbg = false →
     f.pendingName fr = none → fr.swrs = [] → fr.cmds = [] → s.engineRoom (s.cellOf f) fr = true → fr.srng = [] →
     fr.halts = false → f.rgn = none →
     fr.firedAt isRgnBeg = none → fr.firedAt isSret = none → fr.firedAt isYield = none →
     ∃ t f', exec (.blockCommit fid) s = .next t ∧ t.fibre? fid = some f' ∧ f'.g = (f.enterRegs fr).g
       ∧ f'.v = (f.enterRegs fr).v ∧ f'.vtag = (f.enterRegs fr).vtag ∧ f'.fcsr = f.fcsr ||| fr.flags.setWidth 64
       ∧ f'.level = f.level ∧ f'.bankA = f.bankA ∧ f'.bankS = f.bankS ∧ f'.bankM = f.bankM
       ∧ (∀ x ∈ f'.frames, x.seq ≠ fr.seq))
  ∧ (∀ (s : State) (fid : Nat) (f : Fibre) (fr : Frame) (younger : List Frame) (g : Group) (l : Launch),
       s.fibre? fid = some f → f.frames = fr :: younger → s.ctxOf f = some (g, l) → g.state = .running →
       fr.complete = true → fr.quiet = true → fr.waiting = false → fr.faults = [] → f.stepped = false → fr.dbg = false →
       f.pendingName fr = none → s.engineRoom (s.cellOf f) fr = true → fr.srng = [] → fr.halts = false → f.rgn = none →
       fr.firedAt isRgnBeg = none → fr.firedAt isSret = none → fr.firedAt isYield = none →
       let cell := s.cellOf f
       (∀ k num v, fr.swrs = [(k, num, v)] → fr.cmds = [] → num < 0x080 →
         (isXlateReg num = true → s.transferOpen cell fid = true → exec (.blockCommit fid) s = .next s)
         ∧ (isXlateReg num = false ∨ s.transferOpen cell fid = false →
           let w := f.sysWrite num v
           ∃ t f', exec (.blockCommit fid) s = .next t ∧ t.fibre? fid = some f'
             ∧ f'.fcsr = w.fcsr ||| fr.flags.setWidth 64 ∧ f'.srng = w.srng ∧ f'.stepReg = w.stepReg
             ∧ f'.sdeleg = w.sdeleg ∧ f'.mdeleg = w.mdeleg ∧ f'.xroot = w.xroot ∧ f'.xown = w.xown ∧ f'.xkeys = w.xkeys
             ∧ f'.ncbase = w.ncbase ∧ f'.nclim = w.nclim ∧ f'.bankA = w.bankA ∧ f'.bankS = w.bankS ∧ f'.bankM = w.bankM))
       ∧ (∀ c, fr.swrs = [] → fr.cmds = [c] → ∃ t f', exec (.blockCommit fid) s = .next t ∧ t.fibre? fid = some f'
         ∧ (∀ r, sregOf c.ins = some r → (∀ pr rr, c.ins ≠ .bbarWait pr rr) → f'.gpend.getLsbD r = true)
         ∧ (∀ pr r, c.ins = .cpy pr r ∨ c.ins = .cpyQ pr r → ∃ k ∈ (t.cell cell).copies, k.kind ≠ .init ∧ k.fid = fid
           ∧ k.sreg = r.toNat ∧ k.addr = c.a ∧ k.expect = c.b ∧ k.xl = f.xlate ∧ k.upTo = fr.seq ∧ k.started = false)
         ∧ (isNodeCmd c.ins = true → ∃ n ∈ (t.cell cell).node.queue, n.ins = c.ins ∧ n.a = c.a ∧ n.b = c.b ∧ n.fid = fid
           ∧ n.xl = f.xlate ∧ n.upTo = fr.seq ∧ n.started = false)))
  ∧ (∀ (f : Fibre) (fr : Frame) (n : Nat) (w : Word) (x : Vec) (tag : BitVec 3),
       fr.gout.rising = true → fr.vout.rising = true →
       (n < 64 → (fr.gout.get? n = some (.val w) → vget (f.enterRegs fr).g n 0 = w)
         ∧ (fr.gout.get? n = none ∨ fr.gout.get? n = some .null → vget (f.enterRegs fr).g n 0 = vget f.g n 0))
       ∧ (n < 32 → (fr.vout.get? n = some (.vec x tag) →
           vget (f.enterRegs fr).v n 0 = x ∧ vget (f.enterRegs fr).vtag n 7 = tag)
         ∧ (fr.vout.get? n = none ∨ fr.vout.get? n = some .null →
           vget (f.enterRegs fr).v n 0 = vget f.v n 0 ∧ vget (f.enterRegs fr).vtag n 7 = vget f.vtag n 7)))

/-- R25, R234 to R237: the oldest block's report makes its fibre trap: the handler's bank keeps the cause, the
block, the index and the address, and the level it came from; the level becomes the handler's, the next block its
vector, and every block in flight vanishes; general and vector registers and the other banks stay. R235: the level
that handles a trap: M, or S by s.mdeleg below M, or A by s.sdeleg at A; a level without a vector is passed over;
never a level below the one that raised it. That a trap waits until nothing of its block can still happen is read
from the rules by inference (log 15). -/
def Obligations.TrapEntersTheHandler : Prop :=
  (∀ (s : State) (fid : Nat) (f : Fibre) (fr : Frame) (younger : List Frame) (g : Group) (l : Launch) (r : Recorded),
     s.fibre? fid = some f → f.frames = fr :: younger → s.ctxOf f = some (g, l) → g.state = .running →
     fr.waiting = false → fr.faults ≠ [] → s.settled f fid fr = true → fr.report = some r → f.rgn = none → f.rgnKept = none →
     ∃ t f', exec (.trapDelivery fid) s = .next t ∧ t.fibre? fid = some f'
       ∧ f'.level = handlerLevel f r.cause ∧ f'.next = some (f.bank (handlerLevel f r.cause)).tvec ∧ f'.park = .none
       ∧ f'.bank (handlerLevel f r.cause) = { f.bank (handlerLevel f r.cause) with
           tcause := BitVec.ofNat 64 r.cause.code, tblock := fr.addr, tidx := BitVec.ofNat 64 r.idx
           taddr := s.taddrOf fr r, tstat := BitVec.ofNat 64 f.level.code }
       ∧ (∀ h, h ≠ handlerLevel f r.cause → f'.bank h = f.bank h)
       ∧ f'.g = f.g ∧ f'.v = f.v ∧ f'.vtag = f.vtag ∧ f'.rgnh.getLsbD 0 = false ∧ (∀ x ∈ f'.frames, x.seq < fr.seq))
  ∧ (∀ (f : Fibre) (c : Cause), f.bankM.tvec ≠ 0 →
       (f.level = .m → handlerLevel f c = .m)
       ∧ (f.level ≠ .m → f.mdeleg.getLsbD c.code = false → handlerLevel f c = .m)
       ∧ (f.level ≠ .m → f.mdeleg.getLsbD c.code = true → (f.level = .s ∨ f.sdeleg.getLsbD c.code = false) →
         handlerLevel f c = if f.bankS.tvec = 0 then .m else .s)
       ∧ (f.level = .a → f.mdeleg.getLsbD c.code = true → f.sdeleg.getLsbD c.code = true →
         handlerLevel f c = if f.bankA.tvec ≠ 0 then .a else if f.bankS.tvec = 0 then .m else .s)
       ∧ f.level.code ≤ (handlerLevel f c).code ∧ (f.bank (handlerLevel f c)).tvec ≠ 0)

/-- R238: the return from a trap: the level becomes PL of the bank of the present level, the next block is its
s.tblock, RESUME is cleared and everything else of the banks stays. -/
def Obligations.ReturnRestoresLevelAndBlock : Prop :=
  ∀ (s : State) (fid seq : Nat) (f : Fibre), s.fibre? fid = some f → f.held = none → f.rgnKept = none →
    ∃ f', (s.doSret fid seq).fibre? fid = some f' ∧ f'.next = some (f.bank f.level).tblock
      ∧ f'.level = levelOf (nfld (f.bank f.level).tstat 0 2)
      ∧ f'.bank f.level = { f.bank f.level with tstat := setFld (f.bank f.level).tstat 2 1 0 }
      ∧ (∀ h, h ≠ f.level → f'.bank h = f.bank h) ∧ f'.g = f.g ∧ f'.v = f.v ∧ f'.vtag = f.vtag ∧ f'.fcsr = f.fcsr

/-! ### Reads and writes at their homes -/

/-- R13, R53, R141, R210, R297: a read whose every piece has been performed replies once: with its value (of a
scalar load sign-extended or zero-extended from its bytes, of a vector load its 64 bytes with their tag, of an
atomic the old value), unless it is an atomic in the ring of a queue; with poison when it took a byte of a poisoned
store; and with poison and UNCORR, with the address of the first piece that read marked data, when one did. R27,
R97, R111, R119: a piece of a load outside a region takes the bytes of its place: those of older stores of its fibre
still in the queue first, then those of cell memory, of its L1, of its home, or of host memory that is not cached.
Of a non-coherent page it reads what the host or the last-level cache has once the host has snooped what the bridge
holds (log 33, DEDUCED) and, with CA 0, the last-level cache has given back what it has written. A line that its
home gives may stay in the L1. What a non-coherent read finds of a line that the module holds is the model's reading
(log 33, DEDUCED). -/
def Obligations.LoadsReadTheirPlaceAndReply : Prop :=
  (∀ (s : State) (oid : Nat) (x : Access), s.accesses.get? oid = some x → reads x.ins = true → x.landed = true →
     x.replied = false →
     let replied := s.setAccess oid { x with replied := true, acked := true }
     (x.poison = true → exec (.loadReply oid) s = .next (replied.sendReply x .poison))
     ∧ (x.poison = false → x.badAt = none → (isAtomic x.ins = false ∨ ∀ p ∈ x.pieces, s.ringOf p.loc = none) →
       exec (.loadReply oid) s = .next (({ replied with tick := s.tick + 1 } : State).sendReply x x.result))
     ∧ (∀ va, x.poison = false → x.badAt = some va → ∃ t, exec (.loadReply oid) s = .next t
       ∧ ∀ f fr, s.fibre? x.fid = some f → f.frame? x.seq = some fr → ∃ f' fr', t.fibre? x.fid = some f'
         ∧ f'.frame? x.seq = some fr' ∧ { idx := x.idx, cause := .uncorr, taddr := va, src := .firing } ∈ fr'.faults)
     ∧ (∀ pr m t0 t1, x.ins = .ldB pr m t0 t1 → x.result = .val ((BitVec.ofNat 8 (leNat (x.bytes 1))).signExtend 64))
     ∧ (∀ pr m t0 t1, x.ins = .ldBu pr m t0 t1 → x.result = .val (BitVec.ofNat 64 (leNat (x.bytes 1))))
     ∧ (∀ pr m t0 t1, x.ins = .ldH pr m t0 t1 → x.result = .val ((BitVec.ofNat 16 (leNat (x.bytes 2))).signExtend 64))
     ∧ (∀ pr m t0 t1, x.ins = .ldHu pr m t0 t1 → x.result = .val (BitVec.ofNat 64 (leNat (x.bytes 2))))
     ∧ (∀ pr m t0 t1, x.ins = .ldWu pr m t0 t1 → x.result = .val (BitVec.ofNat 64 (leNat (x.bytes 4))))
     ∧ (∀ pr fmt m t0 t1, x.ins = .vld pr fmt m t0 t1 → x.result = .vec (BitVec.ofNat 512 (leNat (x.bytes 64))) x.tag)
     ∧ (∀ pr sz m t0 t1, x.ins = .vgather pr sz m t0 t1 → x.result = .vec (BitVec.ofNat 512 (leNat (x.bytes 64))) 7)
     ∧ (isAtomic x.ins = true → x.result = .val x.old)
     ∧ (∀ pr m t0 t1, x.ins = .ldW pr m t0 t1 → x.result = .val ((BitVec.ofNat 32 (leNat (x.bytes 4))).signExtend 64))
     ∧ (∀ pr m t0 t1, x.ins = .ldD pr m t0 t1 → x.result = .val (BitVec.ofNat 64 (leNat (x.bytes 8)))))
  ∧ (∀ (s : State) (oid n : Nat) (x : Access) (p : Piece), s.ready oid n (fun a => isLoad a.ins) = some (x, p) →
       let line := lineOf p.loc.addr
       let cell := s.accessCell x
       let misses := s.allForwarded x p = false
       let nc := p.loc.space = .hostNc
       let r := s.ncRead p.loc p.n
       let quiet := ∀ h ∈ ncHalves p.loc p.n, (s.half h).st = .i ∨ (s.half h).st = .s
       (s.allForwarded x p = true → x.inside = false ∨ p.loc.space ≠ .hbm →
         exec (.homeRead oid n) s = .next (s.finishRead oid n x p []))
       ∧ (misses → p.loc.space = .cell →
         exec (.homeRead oid n) s = .next (s.finishRead oid n x p (s.cmem.bytes p.loc.addr p.n)))
       ∧ (∀ bs, misses → p.loc.space = .hbm → x.inside = false → s.l1Read cell p.loc p.n = some bs →
         exec (.homeRead oid n) s = .next (s.finishRead oid n x p bs))
       ∧ (misses → nc → p.loc.ca = false → exec (.homeRead oid n) s = .next (r.2.finishRead oid n x p r.1)
         ∧ r.1 = r.2.mem.bytes p.loc.addr p.n
         ∧ (quiet → (∀ l, s.llc.get? line = some l → l.dirty = 0) → r.2 = s))
       ∧ (∀ bs, misses → nc → p.loc.ca = true → s.l1Read cell p.loc p.n = some bs →
         exec (.homeRead oid n) s = .next (s.finishRead oid n x p bs))
       ∧ (misses → nc → p.loc.ca = true → s.l1Read cell p.loc p.n = none →
         (∃ t : State, t.cmem = r.2.cmem ∧ t.fibres = r.2.fibres ∧ t.accesses = r.2.accesses
           ∧ exec (.homeRead oid n) s = .next ((t.finishRead oid n x p r.1).maybeFill cell p.loc))
         ∧ r.1 = r.2.homeBytes p.loc.addr p.n p.loc.key ∧ (quiet → r.1 = s.homeBytes p.loc.addr p.n p.loc.key))
       ∧ (misses → p.loc.space = .hbm → x.inside = false → s.l1Read cell p.loc p.n = none → s.homeQ.get? line = none →
         s.virga.committingOn line = false → s.hdm.getD (halfOf p.loc.addr) false = false →
         ∃ t : State, t.mem = s.mem ∧ t.llc = s.llc ∧ t.fibres = s.fibres ∧ t.accesses = s.accesses
           ∧ exec (.homeRead oid n) s = .next ((t.finishRead oid n x p (s.homeBytes p.loc.addr p.n p.loc.key)).maybeFill cell
             p.loc)))

/-- R96, R97, R119: a piece of a store to cell memory, of a cell on which nothing waits, puts its bytes at its
address, and every other byte of memory is as before; an atomic there keeps the old value and puts the new one, when
it has one (R141). R141, R142: the new value of each atomic on n bits over the old value, the operand and, for
`cas`, the third operand; a failed `cas` writes nothing, and `amo.fadd` gives the single sum rounded to nearest even
with no flush. -/
def Obligations.StoresLandAndAtomicsCompute : Prop :=
  (∀ (s : State) (oid n : Nat) (x : Access) (p : Piece), s.ready oid n (fun a => isStore a.ins) = some (x, p) →
     p.loc.space = .cell → (s.cell (p.loc.addr / 0x100000)).waits = [] →
     (isStoreOnly x.ins = true → ∃ t, exec (.homeWrite oid n) s = .next t
       ∧ (∀ i, i < p.data.length → t.cmem.byte (p.loc.addr + i) = p.data.getD i 0)
       ∧ (∀ b, b < p.loc.addr ∨ p.loc.addr + p.data.length ≤ b → t.cmem.byte b = s.cmem.byte b)
       ∧ t.mem = s.mem ∧ t.llc = s.llc ∧ t.halves = s.halves ∧ t.fibres = s.fibres)
     ∧ (isAtomic x.ins = true → s.marked .cell p.loc.addr p.n = false →
       ∃ t y, exec (.homeWrite oid n) s = .next t
       ∧ t.accesses.get? oid = some y ∧ y.old = leWord (s.cmem.bytes p.loc.addr p.n)
       ∧ (∀ bs, x.amoBytes (s.cmem.bytes p.loc.addr p.n) = some bs →
         (∀ i, i < bs.length → t.cmem.byte (p.loc.addr + i) = bs.getD i 0)
         ∧ (∀ b, b < p.loc.addr ∨ p.loc.addr + bs.length ≤ b → t.cmem.byte b = s.cmem.byte b))
       ∧ (x.amoBytes (s.cmem.bytes p.loc.addr p.n) = none → t.cmem = s.cmem)
       ∧ t.mem = s.mem ∧ t.llc = s.llc ∧ t.halves = s.halves ∧ t.fibres = s.fibres))
  ∧ (∀ (pr : Pred) (sz : WD) (mf : MemF) (t0 t1 : Target) (n m b x : Nat), n = 32 ∨ n = 64 → m < 2 ^ n → b < 2 ^ n →
       amoValue (.amoAdd pr sz mf t0 t1) n m b x = some ((m + b) % 2 ^ n)
       ∧ (amoValue (.amoAnd pr sz mf t0 t1) n m b x).map (BitVec.ofNat n) = some (BitVec.ofNat n m &&& BitVec.ofNat n b)
       ∧ (amoValue (.amoOr pr sz mf t0 t1) n m b x).map (BitVec.ofNat n) = some (BitVec.ofNat n m ||| BitVec.ofNat n b)
       ∧ (amoValue (.amoXor pr sz mf t0 t1) n m b x).map (BitVec.ofNat n) = some (BitVec.ofNat n m ^^^ BitVec.ofNat n b)
       ∧ amoValue (.amoMin pr sz mf t0 t1) n m b x
         = some (if (BitVec.ofNat n m).toInt ≤ (BitVec.ofNat n b).toInt then m else b)
       ∧ amoValue (.amoMax pr sz mf t0 t1) n m b x
         = some (if (BitVec.ofNat n m).toInt ≤ (BitVec.ofNat n b).toInt then b else m)
       ∧ amoValue (.amoMinu pr sz mf t0 t1) n m b x = some (if m ≤ b then m else b)
       ∧ amoValue (.amoMaxu pr sz mf t0 t1) n m b x = some (if m ≤ b then b else m)
       ∧ amoValue (.amoSwap pr sz mf t0 t1) n m b x = some b
       ∧ (m = b → amoValue (.amoCas pr sz mf t0 t1) n m b x = some x)
       ∧ (m ≠ b → amoValue (.amoCas pr sz mf t0 t1) n m b x = none)
       ∧ amoValue (.amoFadd pr mf t0 t1) 32 m b x = some (faddBits fmt32 { rm := .rne, ftz := false } m b).1)

/-- R113, R119, R126, R147: a write to HBM is taken by the home of its line when that is free; a store to a line
that no one shares and no region has read is performed at once, and where the cache has the line or room for it,
every byte of another line, of HBM or of the host's, reads as before, and in a line that it has under the same key
every byte outside the store. Each sharer drops the line and acknowledges, once each. The acknowledgement of a store
whose every piece has been performed reaches its cell. -/
def Obligations.WritesAreTakenByTheirHome : Prop :=
  ∀ (s : State) (oid n line cell : Nat) (x : Access) (p : Piece) (h : HomeWrite) (f : Fibre),
    (s.ready oid n (fun a => isStore a.ins) = some (x, p) → p.loc.space = .hbm → x.inside = false →
      s.homeQ.get? (lineOf p.loc.addr) = none → s.virga.committingOn (lineOf p.loc.addr) = false →
      s.edgesPending (lineOf p.loc.addr) = false →
      (s.inTable 0 p.loc.addr p.n = true → exec (.tableUpdateWrite oid n) s = .next (s.takeWrite oid n x p))
      ∧ (s.inTable 0 p.loc.addr p.n = false → exec (.homeWrite oid n) s = .next (s.takeWrite oid n x p)
        ∧ (isStoreOnly x.ins = true → s.sharers.getD (lineOf p.loc.addr) [] = [] → s.hdm.get? (halfOf p.loc.addr) = none →
          (s.virga.line (lineOf p.loc.addr)).marks = [] → p.data.length = p.n → p.loc.addr % 128 + p.n ≤ 128 →
          (∀ l, s.llc.get? (lineOf p.loc.addr) = some l → l.data.length = 128) →
          let line := lineOf p.loc.addr
          let t := s.takeWrite oid n x p
          (∀ i, i < p.n → t.homeByte (p.loc.addr + i) p.loc.key = p.data.getD i 0)
          ∧ ((s.llc.get? line).isSome = true
              ∨ ((s.llc.map Prod.fst).filter (fun l => cachePlace l == cachePlace line)).length < s.sliceLines (cachePlace line).1 →
            ∀ b key, lineOf b ≠ line → t.homeByte b key = s.homeByte b key)
          ∧ (∀ l, s.llc.get? line = some l → l.key = p.loc.key →
            ∀ b key, b < p.loc.addr ∨ p.loc.addr + p.n ≤ b → t.homeByte b key = s.homeByte b key)
          ∧ t.cmem = s.cmem ∧ t.halves = s.halves)))
    ∧ (s.homeQ.get? line = some h → cell ∈ h.waits → cell ∉ h.dropped → ∃ t, exec (.l1Invalidate cell line) s = .next t
      ∧ t.l1Line cell line = none ∧ t.homeQ = s.homeQ.put line { h with dropped := h.dropped ++ [cell] }
      ∧ t.mem = s.mem ∧ t.llc = s.llc ∧ t.fibres = s.fibres)
    ∧ (s.homeQ.get? line = some h → cell ∈ h.waits → cell ∈ h.dropped →
      exec (.invalidationAck line cell) s = .next
        (({ s with homeQ := s.homeQ.put line { h with waits := h.waits.filter (· != cell) } } : State).settleHome line))
    ∧ (s.accesses.get? oid = some x → isStoreOnly x.ins = true → x.landed = true → x.acked = false →
      s.fibre? x.fid = some f → f.halted = false → exec (.writeAck oid) s = .next
        (((({ s with accesses := s.accesses.put oid { x with acked := true } } : State)).runCacheOps x.fid).purge x.fid))

/-- R97, R111, R118, R120, R147: an L1 drops a line silently; the last-level cache drops a line and writes a dirty
one back: of a stack that the start has trained, every byte of a dirty line reads at its home as before, and every
byte of a clean line that agrees with memory; of a line of host memory the bytes that have been written go back, and
one that has not been written reads as before where it agrees with memory; every byte of every other line reads as
before. What a stack that the start has left untrained reads as is a free value (log 55). -/
def Obligations.EvictionChangesNoValue : Prop :=
  ∀ (s : State) (cell line a key : Nat),
    (∃ t, exec (.l1Evict cell line) s = .next t ∧ t.l1Line cell line = none ∧ s.SameBytes t ∧ t.fibres = s.fibres)
    ∧ ((∀ l, s.llc.get? line = some l → l.data.length = 128) →
      ∃ t, exec (.llcEvict line) s = .next t ∧ t.llc.get? line = none ∧ t.cmem = s.cmem ∧ t.fibres = s.fibres
      ∧ (lineOf a ≠ line → t.homeByte a key = s.homeByte a key)
      ∧ (∀ l, s.llc.get? line = some l → lineOf a = line →
        (l.dirty ≠ 0 → a < hbmEnd → s.untrained.getLsbD (sectorOf a) = false → t.homeByte a key = s.homeByte a key)
        ∧ (l.dirty = 0 → a < hbmEnd → s.untrained.getLsbD (sectorOf a) = false → s.lineKey.getD line 0 = l.key →
          s.mem.byte a = l.data.getD (a % 128) 0 → t.homeByte a key = s.homeByte a key)
        ∧ (hbmEnd ≤ a → t.mem.byte a = if l.dirty.getLsbD (a % 128) = true then l.data.getD (a % 128) 0 else s.mem.byte a)
        ∧ (hbmEnd ≤ a → l.dirty.getLsbD (a % 128) = true ∨ s.mem.byte a = l.data.getD (a % 128) 0 →
          t.homeByte a key = s.homeByte a key)))

/-- R112, R114, R126: the walker translates for a fibre and changes no byte; while an entry that it reads is held by
the host or being changed it waits, and the host is asked for it. A `tlbinv` that has begun in the oldest block ends
when no access is in the queue and no store of its fibre up to its block may still fire, and then no entry of a cell
in its scope covers its address, or any address of its address space for the form that names none, nor one of the
second-level TLB of a die with such a cell. R114, R177, R246: `tlbinv` fires when its operand has come: at a level
above A and outside regions it begins on a value: its block owes its end, which only a fault-free block comes to; a
null or poisoned operand drops nothing; at level A it records PRIV and in a region RGN_ENGINE, whatever its operand.
-/
def Obligations.WalksAndTlbInvalidation : Prop :=
  (∀ (s : State) (fid : Nat) (va : Word) (f : Fibre) (fr : Frame) (rest : List Frame) (k : Nat) (sc : Scope) (all : Bool),
     s.fibre? fid = some f →
     (nfld va 57 7 = 0 → nfld va 48 16 ≠ 0x1F0 → let t := (s.translate (s.cellOf f) f.xroot va).2
       (s.walkWaits (s.cellOf f) f.xlate [(va, 1)] = none →
         exec (.pageWalk fid va) s = .next t ∧ t.fibres = s.fibres ∧ t.mem = s.mem ∧ t.llc = s.llc ∧ t.cmem = s.cmem)
       ∧ (∀ u, s.walkWaits (s.cellOf f) f.xlate [(va, 1)] = some u → exec (.pageWalk fid va) s = .next u ∧ u.fibres = s.fibres ∧ s.SameBytes u))
     ∧ (f.frames = fr :: rest → pendingTlbinv fr = some (k, sc, all, va) → fr.faults = [] → s.accesses = [] →
       (∀ u ∈ fr.unfired, isStore u.2 = false) →
       let drops := fun (e : TlbEntry) => e.asn = nfld f.xroot 0 12 ∧ (all = true ∨ e.covers (nfld f.xroot 0 12) va = true)
       ∃ t f' fr', exec (.tlbinvComplete fid) s = .next t ∧ t.fibre? fid = some f' ∧ f'.frame? fr.seq = some fr'
         ∧ fr'.owed = fr.owed.filter (· != k)
         ∧ (∀ cell c e, (cell, c) ∈ t.cells → s.inScope f sc cell = true → e ∈ c.tlb → ¬drops e)
         ∧ (∀ die es e x y, (die, es) ∈ t.tlb2 → x < 8 → y < 8 → s.inScope f sc (cellAt die x y) = true → e ∈ es → ¬drops e)))
  ∧ (∀ (s : State) (a : Acting) (pr : Pred) (scope : Scope) (all inside : Bool), Fires s (.tlbinv pr scope all) a →
       a.f.insideRegion a.fr.seq = some inside →
       let i := Instr.tlbinv pr scope all
       (a.f.level ≠ .a → inside = false →
         (badOperand (a.fr.operands a.k i) = none →
           exec i s = .next (a.commit s { a.fr.fire a.k with owed := a.fr.owed ++ [a.k], late := a.fr.late ++ [a.k] }))
         ∧ (badOperand (a.fr.operands a.k i) ≠ none → exec i s = .next (a.commit s (a.fr.fire a.k))))
       ∧ (a.f.level = .a → inside = false → exec i s = .next (a.commit s ((a.fr.fire a.k).fault a.k .priv 0 .firing)))
       ∧ (a.f.level ≠ .a → inside = true → exec i s = .next (a.commit s ((a.fr.fire a.k).fault a.k .rgnEngine 0 .firing)))
       ∧ (a.f.level = .a → inside = true → exec i s = .next (a.commit s
         (((a.fr.fire a.k).fault a.k .priv 0 .firing).fault a.k .rgnEngine 0 .firing))))

/-! ### Host memory -/

/-- R121 to R125: what a bridge does for the module. A read asks with RdShared for a half in I that its access
touches, and is performed, from the L1 or from the half, when each is in another state. A write asks with RdOwn, or
with RdOwnNoData for a store of a whole half, for a half that is neither in E nor in M, and is performed when each
is. A half in S or E is dropped at once, a half in M goes to O. The host's answer gives the data of host memory and
the state asked for, once the last-level cache has put back what it holds of the line (R97, R120). R123, R124: what
a bridge does for the host, from M: SnpData leaves S and SnpInv leaves I, both give the data to the host; SnpCur
leaves the state; a write-pull of a half in O gives its data and leaves I, as does its end without data. That the
last-level cache puts back a line before the bridge takes it is the model's reading (log 33, DEDUCED). -/
def Obligations.BridgeServesModuleAndHost : Prop :=
  (∀ (s : State) (oid n half : Nat) (x : Access) (p : Piece) (ex : Bool),
     let h := s.half half
     let asks := fun (own : Bool) (kind : String) => (s.setHalf half { h with pend := some own }).emit (.request half kind)
     let drops := fun (kind : String) =>
       ((s.dropHalfEverywhere half).setHalf half { h with st := .i, data := [] }).emit (.request half kind)
     (s.ready oid n (fun a => isLoad a.ins) = some (x, p) → p.loc.space = .hostCoh → x.inside = false →
       ((x.halvesFor p).find? (fun y => (s.half y).st == .i) = some half → h.pend = none →
         exec (.bridgeModuleRead oid n) s = .next (asks false "RdShared"))
       ∧ ((∀ y ∈ x.halvesFor p, (s.half y).st ≠ .i) →
         (∀ bs, s.l1Read (s.accessCell x) p.loc p.n = some bs →
           exec (.bridgeModuleRead oid n) s = .next (s.finishRead oid n x p bs))
         ∧ (p.loc.ca = false → exec (.bridgeModuleRead oid n) s = .next ((countCell (s.accessCell x) 7 1 s).finishRead oid n x p
           (((s.half (halfOf p.loc.addr)).data.drop (p.loc.addr % 64)).take p.n)))))
     ∧ (s.ready oid n (fun a => isStore a.ins) = some (x, p) → p.loc.space = .hostCoh → x.inside = false →
       ((∀ y ∈ x.halvesFor p, (s.half y).pend = none ∧ ((s.half y).st = .e ∨ (s.half y).st = .m)) →
         exec (.bridgeModuleWrite oid n) s = .next (s.landBridge oid n x p (s.half (halfOf p.loc.addr))))
       ∧ ((x.halvesFor p).find? (fun y => !(s.half y).owned) = some half → h.pend = none →
         (h.st = .s → exec (.bridgeModuleWrite oid n) s = .next (asks true "RdOwn"))
         ∧ (h.st = .i → exec (.bridgeModuleWrite oid n) s = .next
           (asks true (if isStoreOnly x.ins && p.n == 64 then "RdOwnNoData" else "RdOwn")))))
     ∧ (h.pend = none →
       (h.st = .s → exec (.bridgeDropHalf half) s = .next (drops "CleanEvictNoData"))
       ∧ (h.st = .e → exec (.bridgeDropHalf half) s = .next (drops "CleanEvict"))
       ∧ (h.st = .m → exec (.bridgeDropHalf half) s = .next ((s.setHalf half { h with st := .o }).emit (.request half "DirtyEvict"))))
     ∧ (∀ own, h.pend = some own → let u := s.evictLlc (half / 2)
       exec (.go half ex) s = .next (u.setHalf half
         { st := if own then .m else if ex then .e else .s, data := u.mem.bytes (64 * half) 64, pend := none })))
  ∧ (∀ (s : State) (half : Nat),
       ((s.half half).st = .m → (s.half half).pend = none →
         (∃ t, exec (.snpData half) s = .next t ∧ (t.half half).st = .s
           ∧ t.mem = s.mem.setBytes (64 * half) (s.half half).data
           ∧ t.out = s.out ++ [.snoopReply half "RspSFwdM" (s.half half).data])
         ∧ (∃ t, exec (.snpInv half) s = .next t ∧ (t.half half).st = .i
           ∧ t.mem = s.mem.setBytes (64 * half) (s.half half).data
           ∧ t.out = s.out ++ [.snoopReply half "RspIFwdM" (s.half half).data])
         ∧ (∃ t, exec (.snpCur half) s = .next t ∧ t.halves = s.halves ∧ t.mem = s.mem
           ∧ t.out = s.out ++ [.snoopReply half "RspVFwdV" (s.half half).data]))
       ∧ ((s.half half).st = .o →
         (∃ t, exec (.writePull half) s = .next t ∧ (t.half half).st = .i
           ∧ t.mem = s.mem.setBytes (64 * half) (s.half half).data ∧ t.out = s.out ++ [.writeBack half (s.half half).data])
         ∧ (∃ t, exec (.goWritePullDrop half) s = .next t ∧ (t.half half).st = .i ∧ t.mem = s.mem ∧ t.out = s.out)))

/-- R126, R127, R144, R148, R164, R297: in an HDM range a host read of device memory gives the host the bytes of the
home, under the key at rest of the line (log 67, a choice of the model), and records it as a holder, and a host
write that its home takes enters the memory and ends with Cmp; the host's answer to a back-invalidation takes what
it held, or leaves it a shared copy; a write of that half that waited then goes on, or asks for the rest. A
completer's success is the atomic at host memory, after the module's copies of the line have been given up;
Unsupported Request records ATOM_UNSUP. An AtomicOp of a host on a marked line changes nothing and gives it poison.
A host's store to its own memory lands when the bridge holds no copy. Whether a completer succeeds is an input (log
10); under which key a host reads and writes is the model's choice (log 67). -/
def Obligations.HostReachesDeviceMemory : Prop :=
  ∀ (s : State) (half oid : Nat) (data : Vec) (x : Access) (p : Piece) (inv : Bool),
    let line := half / 2
    (s.inHdm half = true → s.homeQ.get? line = none → s.virga.committingOn line = false →
      let answer := OutMsg.hostData half (s.homeBytes (64 * half) 64 (s.lineKey.getD line 0)) (s.marked .hbm (64 * half) 64)
      (∃ t, exec (.memRdData half) s = .next t ∧ t.out = s.out ++ [answer] ∧ (t.hdm.get? half).isSome = true ∧ t.mem = s.mem)
      ∧ (∃ t, exec (.memRd half false) s = .next t ∧ t.out = s.out ++ [answer] ∧ (t.hdm.get? half).isSome = true ∧ t.mem = s.mem)
      ∧ (s.edgesPending line = false → ∃ t, exec (.memRd half true) s = .next t ∧ t.out = s.out ++ [answer] ∧ t.hdm.get? half = some true ∧ t.mem = s.mem
        ∧ ∀ cell, t.l1Line cell line = none))
    ∧ (s.inHdm half = true → s.snoops.get? half = none → s.homeQ.get? line = none → s.virga.committingOn line = false →
      s.edgesPending line = false → s.sharers.getD line [] = [] → (s.virga.line line).marks = [] →
      ∃ t, exec (.memWr half data) s = .next t ∧ t.out = s.out ++ [.cmp half] ∧ t.homeQ.get? line = none
        ∧ (s.inTable 0 (64 * half) 64 = false → (∀ l, s.llc.get? line = some l → l.data.length = 128) →
          ∀ i, i < 64 → t.homeByte (64 * half + i) (s.lineKey.getD line 0) = (natLe 64 data.toNat).getD i 0))
    ∧ (s.snoops.get? half = some inv →
      let told : State := { s with snoops := s.snoops.erase half, hdm := if inv then s.hdm.erase half else s.hdm.put half false }
      (s.homeQ.get? line = none → exec (.birspi half) s = .next told)
      ∧ (∀ h, s.homeQ.get? line = some h →
        (h.host = false ∨ s.takenHalf h ≠ some half → exec (.birspi half) s = .next told)
        ∧ (h.host = true → s.takenHalf h = some half →
          exec (.birspi half) s = .next (if inv then ({ told with
            homeQ := s.homeQ.put line { h with host := false } } : State).settleHome line else told.backInvalidate half true))))
    ∧ (s.accesses.get? oid = some x → x.pieces = [p] → isAtomic x.ins = true → p.loc.space = .hostNc → p.stage = .atHome →
      s.writingBack [2 * lineOf p.loc.addr, 2 * lineOf p.loc.addr + 1] = false →
      let m := (s.giveUpLine (lineOf p.loc.addr)).mem
      (∀ bs, x.amoBytes (m.bytes p.loc.addr p.n) = some bs → ∃ t y, exec (.atomicOpCompletion oid true) s = .next t
        ∧ t.mem = m.setBytes p.loc.addr bs ∧ t.accesses.get? oid = some y
        ∧ y.old = leWord (m.bytes p.loc.addr p.n) ∧ y.landed = true)
      ∧ (∃ t, exec (.atomicOpCompletion oid false) s = .next t ∧ t.mem = s.mem
        ∧ ∀ f fr, s.fibre? x.fid = some f → f.frame? x.seq = some fr → ∃ f' fr', t.fibre? x.fid = some f'
          ∧ f'.frame? x.seq = some fr' ∧ { idx := x.idx, cause := .atomUnsup, taddr := p.va, src := .firing } ∈ fr'.faults))
    ∧ (∀ addr op width v w, halfOf addr = half → s.inHdm half = true → width = 4 ∨ width = 8 → addr % width = 0 → op ≤ 2 →
      s.homeFree line = true → s.hdm.getD half false = false → s.marked .hbm addr width = true →
      ∃ b, (s.outside (.hostAtomic addr op width v w)).out = s.out ++ [.atomicReply addr b true]
        ∧ (s.outside (.hostAtomic addr op width v w)).mem = s.mem ∧ (s.outside (.hostAtomic addr op width v w)).llc = s.llc)
    ∧ ((portOf (64 * half)).isSome = true → (s.half half).st = .i →
      s.outside (.hostStore half data) = { s with mem := s.mem.setBytes (64 * half) (natLe 64 data.toNat) })

/-! ### Regions -/

/-- R159, R162, R178, R179, R225, R272: the lowest free slot goes to the block that has waited longest, whose
`rgn.beg` opens a region in it; a block whose engine commands find no room then leaves the list without a slot, and
asks again; the block of a `rgn.end` reports the end when every access of its fibre up to it has been performed; the
fibre that is answered committed commits that block and holds no region. R163, R171: the region at the head of the
commit order commits when no write is in progress at its lines and the host holds none of them: the bytes of its
versions become the values of their lines, those of lines that the last-level cache holds, its slot is free, no line
keeps a version or mark of it, and its fibre is answered committed; before that, the homes of its lines ask the host
for what it holds. -/
def Obligations.RegionsOpenEndAndCommitInOrder : Prop :=
  (∀ (s : State) (fid slot grant : Nat) (f : Fibre) (fr : Frame) (younger : List Frame) (x : Slot) (rest : List Nat)
       (g : Group), s.fibre? fid = some f → f.frames = fr :: younger →
     (s.virga.asking = fid :: rest → s.virga.freeSlot = some slot → fr.waiting = true →
       (fr.firedAt isRgnBeg).isSome = true → s.engineRoom (s.cellOf f) fr = false →
       exec .slotGrant s = .next
         (({ s with virga := { s.virga with asking := rest } } : State).setFrame fid { fr with waiting := false }))
     ∧ (s.virga.asking = fid :: rest → s.virga.freeSlot = some slot → fr.waiting = true →
       (fr.firedAt isRgnBeg).isSome = true → s.engineRoom (s.cellOf f) fr = true →
       let n := s.virga.grants.getD slot 0 + 1
       let opened := { s.virga with
         asking := rest, grants := s.virga.grants.put slot n
         slots := s.virga.slots.put slot { state := .opened, grant := n, fid := fid, preds := [], waitedSince := none, tookForward := false } }
       exec .slotGrant s = .next ((({ s with virga := opened } : State).setFrame fid { fr with waiting := false }).commitBlock
         fid false (some (slot, n)))
       ∧ slot < 512 ∧ s.virga.slots.get? slot = none ∧ ∀ m < slot, (s.virga.slots.get? m).isSome = true)
     ∧ (∀ pr reg off, (fr.firedAt isRgnBeg).bind fr.instr = some (.rgnBeg pr reg off) →
       (f.openRegion fr slot grant).rgn = some (slot, grant) ∧ (f.openRegion fr slot grant).snap = some f.snapshot
       ∧ (f.openRegion fr slot grant).rgnCause = reg
       ∧ (f.openRegion fr slot grant).rgnh &&& ~~~(1 : Word) = (fr.addr + (off.signExtend 64 <<< 5)) &&& ~~~0x1F)
     ∧ (f.rgn = some (slot, grant) → f.ending = true → s.virga.slots.get? slot = some x → x.grant = grant → x.state = .opened →
       (∀ e ∈ s.accessesOf fid, e.2.seq ≤ fr.seq → e.2.performed = true) →
       exec (.endReport fid) s = .next
         ({ s with virga := { s.virga with slots := s.virga.slots.put slot { x with state := .ended } } } : State).settle)
     ∧ (f.answer = some 0 → f.ending = true → s.group? f.gid = some g → g.state = .running →
       exec (.commitAnswer fid) s = .next
         ((s.setFibre fid { f with answer := none, rgn := none, snap := none }).commitBlock fid true none)))
  ∧ (∀ (s : State) (slot : Nat) (x : Slot) (rest : List Nat), s.virga.slots.get? slot = some x → x.state = .committing →
       s.virga.commits = slot :: rest →
       let mine := s.virga.lines.filterMap (fun e => (e.2.versions.find? (fun y => y.slot == slot)).map (fun y => (e.1, y)))
       ((∀ e ∈ mine, s.lineFree e.1 = true) → ∃ t, exec (.regionCommit slot) s = .next t
         ∧ t.virga.slots.get? slot = none ∧ slot ∉ t.virga.commits
         ∧ (∀ e ∈ t.virga.lines, (∀ y ∈ e.2.versions, y.slot ≠ slot) ∧ slot ∉ e.2.marks)
         ∧ (∀ f, s.fibre? x.fid = some f → t.fibre? x.fid = some { f with answer := some 0 })
         ∧ (s.virga.lines.rising = true →
           (∀ e ∈ mine, e.2.bytes.rising = true ∧ 128 * e.1 + 128 ≤ hbmEnd ∧ s.inTable 0 (128 * e.1) 128 = false
             ∧ (∀ b ∈ e.2.bytes, b.1 < 128) ∧ ∃ l, s.llc.get? e.1 = some l ∧ l.data.length = 128) →
           ∀ e ∈ mine, ∀ b ∈ e.2.bytes, t.homeByte (128 * e.1 + b.1) e.2.key = b.2))
       ∧ ((∃ e ∈ mine, s.lineFree e.1 = false) → exec (.regionCommit slot) s = .next (s.claimLines (mine.map Prod.fst))))

/-- R172 to R174: an abort of an OPEN or ENDED region, of whatever cause, frees its slot, drops its versions and
read marks and answers its fibre with the cause; DEP_TIMEOUT follows when a dependant has waited 2^T microseconds.
The fibre that is answered and has nothing pending gets its registers back, the cause in its register, and goes on
at its handler, unless a trap asked for the abort and FAULT is its cause (R175). -/
def Obligations.RegionsAbort : Prop :=
  ∀ (s : State) (slot cause fid t0 c n : Nat) (x : Slot) (f : Fibre) (sn : Snapshot),
    s.virga.slots.get? slot = some x → x.state = .opened ∨ x.state = .ended →
    let aborted := fun (t : State) (c : Nat) => t.virga.slots.get? slot = none
      ∧ (∀ e ∈ t.virga.lines, (∀ y ∈ e.2.versions, y.slot ≠ slot) ∧ slot ∉ e.2.marks)
      ∧ (∀ g, s.fibre? x.fid = some g → t.fibre? x.fid = some { g with answer := some c })
    (1 ≤ cause → cause ≤ 8 → ∃ t, exec (.regionAbort slot cause) s = .next t ∧ aborted t cause)
    ∧ (x.waitedSince = some t0 → t0 + 2 ^ nfld (s.reg 0x60) 0 5 * 2000 ≤ s.time →
      ∃ t, exec (.dependenceTimeout slot) s = .next t ∧ aborted t 6)
    ∧ (s.fibre? fid = some f → f.answer = some c → c ≠ 0 → ¬(c = 7 ∧ f.rgnTrap = true) → f.rgn.isSome = true →
      f.gpend = 0 → f.vpend = 0 →
      f.snap = some sn → n < 64 → ∃ t f', exec (.abortAnswer fid) s = .next t ∧ t.fibre? fid = some f'
        ∧ vget f'.g n 0 = (if n = f.rgnCause.toNat then BitVec.ofNat 64 c else vget sn.g n 0)
        ∧ f'.v = sn.v ∧ f'.vtag = sn.vtag ∧ f'.rgn = none ∧ f'.answer = none ∧ f'.lastc = c
        ∧ f'.next = some (f.rgnh &&& ~~~0x1F) ∧ f'.park = .none ∧ f'.fcsr = f.fcsr ∧ f'.level = f.level)

/-- R164 to R166, R169, R170, R173: an access of a live region arrives at its home when no write is in progress
there, no region that has used the line commits and no edge of the line is awaited: without edges to make, it is
tried at once; with edges, its request goes to the Virga unit, which tries it when it answers; one that was stalled
is tried again when a slot has become FREE since. A try that would close a cycle aborts the region with CYCLE, one
that would give it a version on a 513th line with OVERFLOW; one that meets a bound stalls; one that passes takes
place and its edges are added. That the edges are computed again when the Virga unit answers is the model's reading
(log 35, DEDUCED), as is what Reach holds after a slot has become free (log 60, DEDUCED). -/
def Obligations.RegionAccessesTakePlaceAtTheirHome : Prop :=
  ∀ (s u : State) (oid n y grant since : Nat) (a : Access) (p : Piece) (rest : List EdgeReq), s.regionOf a = some (y, grant) →
    let line := lineOf p.loc.addr
    (s.homeQ.get? line = none → s.virga.committingOn line = false → s.edgesPending line = false →
      (s.homeServes p.loc = (true, u) →
        let waits := (u.setAccess oid ((u.stamp a).setPiece n { p with stage := .edges })).modVirga
          (fun v => { v with requests := v.requests ++ [{ oid := oid, piece := n }] })
        let arrives := fun (i : Instr) => (u.regionEdges y a p = ([], []) → exec i s = .next (u.regionTry oid n y a p))
          ∧ (u.regionEdges y a p ≠ ([], []) → exec i s = .next waits)
        (s.regionReady oid n (fun a => isLoad a.ins) = some (a, p) → arrives (.regionRead oid n))
        ∧ (s.regionReady oid n (fun a => isStoreOnly a.ins) = some (a, p) → arrives (.regionWrite oid n))
        ∧ (s.regionReady oid n (fun a => isAtomic a.ins) = some (a, p) → arrives (.regionAtomic oid n))
        ∧ (s.accesses.get? oid = some a → a.pieces[n]? = some p → p.stage = .stalled since → since < s.virga.freed →
          exec (.stallRetry oid n) s = .next (u.regionTry oid n y a p))))
    ∧ (s.virga.requests = { oid := oid, piece := n } :: rest → s.accesses.get? oid = some a → a.pieces[n]? = some p →
      p.stage = .edges →
      exec .edgeRequest s = .next ((s.modVirga (fun v => { v with requests := rest })).regionTry oid n y a p))
    ∧ (let need := ((s.regionEdges y a p).1 ++ (s.regionEdges y a p).2).eraseDups
       let writes := (s.regionPlan y a p).2.isSome
       let cyclic := ∃ x ∈ need, s.virga.reaches y x = true
       let tooMany := writes = true ∧ s.virga.overflows y line = true
       let bound := s.virga.boundsFail y need = true ∨ (writes = true ∧ s.virga.versionsFull y line = true)
         ∨ (reads a.ins = true ∧ s.virga.marksFull y line = true)
       (cyclic → s.regionTry oid n y a p = (s.abortSlot y 1).discard oid n a p)
       ∧ (¬cyclic → tooMany → s.regionTry oid n y a p = (s.abortSlot y 4).discard oid n a p)
       ∧ (¬cyclic → ¬tooMany → bound →
         s.regionTry oid n y a p = s.setAccess oid ((s.stamp a).setPiece n { p with stage := .stalled s.virga.freed }))
       ∧ (¬cyclic → ¬tooMany → ¬bound → ∃ new,
         s.regionTry oid n y a p = (countSector 12 10 new ((s.regionPerform oid n y a p).modVirga
           (fun v => v.addEdges y (s.regionEdges y a p).1 (s.regionEdges y a p).2))).settle))

/-! ### Launches and groups -/

/-- R126, R188, R190, R192, R194 to R196, R198, R202, R211, R250, R297: a go word with the expected SEQ begins the
taking of its record, and one with another SEQ is left; the record that is being taken is copied on, then E moves
on, then its context entry and its header are read, then it is judged, STATUS written and told to the `launch` that
handed the record over; a module that accepts no launch drops it. A page walk of the examination waits for an entry
that the host holds, and counts at its homes. A segment takes the groups of a launch into its queue, in a step of
the round those of the launch that started first; it places the head of a live die's queue in the first free
rectangle, or resumes it there; a full ageing period is counted; the head that has waited 50 microseconds at the
head pre-empts its victims, or no more of their blocks are fetched until that can be done. A launch whose groups
have all halted and been reported, with no access of a discarded run on its way, retires; one that is being
cancelled halts and discards its next group, or retires with its mailbox all ones. So that no group waits for good,
a step of the round takes the next action of the round that can still be taken, and a new round takes in each that
has to be (log 4, log 65). That what has to be done is taken in rounds is the model's choice (log 4); the order in
which a segment queues launches of different windows is free, but in a step of the round (log 65), and so are the
pieces in which a record is copied (log 6, log 73). -/
def Obligations.DispatcherTakesPlacesAndReports : Prop :=
  ∀ (s s1 s2 t w : State) (win die lid gid x0 y0 : Nat) (go : List Byte) (st : Word) (l : Launch) (g : Group) (vs : List Nat)
      (k : Taking) (sig : Bool) (addr code : Nat) (loc : Loc) (l' : Launch),
    let new := fun (go : Word) => ({ slot := s.slotAddr win (s.expected win), seq := s.expected win % 2 ^ 32, go := go
                                     bytes := [], advanced := false, ctx := [], hdr := [], whose := none } : Taking)
    let done := fun (x : State) => ({ x with taking := x.taking.erase win } : State).settleMaps
    (s.turn = none → (s.steps + 1) % (Config.patience + 2) = 0 →
      (∀ x rest, s.round = x :: rest → x ∈ s.candidates → s.chosen.1 = some x ∧ s.chosen.2.round = rest)
      ∧ (s.round = [] → ∀ x ∈ s.candidates, x.optional = false → x ∈ s.chosen.2.round))
    ∧ (s.taking.get? win = none → win < 24 → s.winOn win = true → s.closed = false → s.mapHeld = false →
      s.engineRead (hbmLoc (s.slotAddr win (s.expected win) + 248)) 8 = (some go, s1) →
      (nfld (leWord go) 0 32 ≠ s.expected win % 2 ^ 32 → exec (.goWord win) s = .next s1)
      ∧ (nfld (leWord go) 0 32 = s.expected win % 2 ^ 32 →
        exec (.goWord win) s = .next ({ s1 with taking := s1.taking.put win (new (leWord go)) } : State)))
    ∧ (s.taking.get? win = some k → s.closed = true → exec (.goWord win) s = .next (done s))
    ∧ (s.taking.get? win = some k → s.closed = false →
      let rec_ := { Launch.of win k.seq s.time (dwordsOf k.bytes) with ctx := dwordsOf k.ctx }
      let needs := s.needs rec_ (sectorOf k.slot) (nfld k.go 32 32) k.ctx k.hdr
      let walks := rec_.walks k.ctx k.hdr
      let counted := fun (x : State) => x.countDispatch (sectorOf k.slot) rec_.xlate walks
      (k.bytes.length < 248 → ∃ n, 1 ≤ n ∧ k.bytes.length + n ≤ 248 ∧ ∀ bs,
        s.engineRead (hbmLoc (k.slot + k.bytes.length)) n = (some bs, s1) → exec (.goWord win) s = .next ({ s1 with
          tick := s1.tick + 1, taking := s1.taking.put win { k with bytes := k.bytes ++ bs } } : State))
      ∧ (248 ≤ k.bytes.length → k.advanced = false → exec (.goWord win) s = .next ({ s with
          tick := s.tick + 1, taking := s.taking.put win { k with advanced := true }
          expect := s.expect.put win (s.expected win + 1) } : State))
      ∧ (248 ≤ k.bytes.length → k.advanced = true → ∀ h, s.dispatchHalf (sectorOf k.slot) rec_.xlate walks = some h →
        exec (.goWord win) s = .next (s.backInvalidate h false))
      ∧ (248 ≤ k.bytes.length → k.advanced = true → s.dispatchHalf (sectorOf k.slot) rec_.xlate walks = none →
        (needs = .entry addr → ∀ bs, s.engineRead (hbmLoc addr) 32 = (some bs, s1) →
          exec (.goWord win) s = .next ({ s1 with tick := s1.tick + 1, taking := s1.taking.put win { k with ctx := bs } } : State))
        ∧ (needs = .header loc → k.hdr.length < 64 → ∃ n, 1 ≤ n ∧ k.hdr.length + n ≤ 64 ∧ ∀ bs,
          s.engineRead { loc with addr := loc.addr + k.hdr.length } n = (some bs, s1) → exec (.goWord win) s = .next
            (let u := if k.hdr = [] then counted s1 else s1
             ({ u with tick := u.tick + 1, taking := u.taking.put win { k with hdr := k.hdr ++ bs } } : State)))
        ∧ (needs = .verdict code l' →
          s.engineWrite (hbmLoc (k.slot + 240)) (natLe 8 (launchStatus code k.seq).toNat) = (some t, s2) →
          exec (.goWord win) s = .next (done
            ((counted (if code = 0 then t.accept l' (sectorOf k.slot) else t)).tellLaunch (launchStatus code k.seq) k.whose)))))
    ∧ (s.toJoin die ≠ [] → ∃ lid ∈ s.toJoin die,
      let t := ({ s with tick := s.tick + 1 } : State).joinLaunch lid die
      ((t.die die).op = 0 → (t.die die).state ≠ .live → exec (.groupPlace die) s = .next (t.loseQueued die))
      ∧ ((t.die die).op ≠ 0 ∨ (t.die die).state = .live → exec (.groupPlace die) s = .next (t.placeHead die))
      ∧ (s.steps % (Config.patience + 2) = 0 → ∀ n ∈ s.toJoin die, ∀ x y, s.launches.get? lid = some x →
        s.launches.get? n = some y → x.stamp ≤ y.stamp))
    ∧ (s.toJoin die = [] → (s.die die).state = .live → s.headOf die = some (gid, g) → s.launchOf g = some l →
      s.fit die l = some (x0, y0) →
      (g.state = .saved → exec (.groupPlace die) s = .next (State.requeued s (s.resumeGroup gid g l x0 y0)))
      ∧ (g.state ≠ .saved → exec (.groupPlace die) s = .next (State.requeued s (s.placeGroup gid g l x0 y0))))
    ∧ (s.launches.get? lid = some l → l.started = true → l.retired = false → s.anyWaiting lid = true →
      l.agedAt + 2 ^ nfld (s.reg 0x68) 0 3 * 2000000 ≤ s.time →
      exec (.ageingPeriod lid) s = .next (State.requeued s { s with launches := s.launches.put lid { l with
        ages := l.ages + 1, agedAt := l.agedAt + 2 ^ nfld (s.reg 0x68) 0 3 * 2000000 } }))
    ∧ ((s.die die).state = .live → s.headOf die = some (gid, g) → s.launchOf g = some l → g.since + 100000 ≤ s.time →
      s.fit die l = none → (∀ e ∈ s.running die, e.2.1.stopping = false) → s.victims die g l = some vs →
      (s.preemptAll vs = some t → exec (.preemptTimer die) s = .next t)
      ∧ (s.preemptAll vs = none → exec (.preemptTimer die) s = .next (vs.foldl State.stopFetch s)))
    ∧ (s.launches.get? lid = some l → l.cancel = none → l.joining = [] → s.straggles lid = false → l.started = true →
      l.retired = false → (∀ e ∈ s.groupsOf lid, e.2.state = .halted ∧ (e.2.die = die ∨ e.2.die ∈ l.reported)) →
      (l.groupCount = 0 ∨ ∃ e ∈ s.groupsOf lid, e.2.die = die) →
      let l' := { l with reported := if l.reported.contains die then l.reported else l.reported ++ [die] }
      ({ s with launches := s.launches.put lid l' } : State).retire lid l' true none = (some t, w) →
      exec (.segmentReport lid die) s = .next t)
    ∧ (s.launches.get? lid = some l → l.cancel = some sig → l.retired = false →
      ((s.groupsOf lid).find? (fun e => e.2.state != .halted) = some (gid, g) → s.endGroup gid 3 .halted = some t →
        exec (.segmentReport lid die) s = .next (State.requeued s t))
      ∧ ((s.groupsOf lid).find? (fun e => e.2.state != .halted) = some (gid, g) → s.endGroup gid 3 .halted = none →
        exec (.segmentReport lid die) s = .next (s.stopFetch gid))
      ∧ ((∀ e ∈ s.groupsOf lid, e.2.state = .halted) → s.retire lid l sig (some (BitVec.allOnes 64)) = (some t, w) →
        exec (.segmentReport lid die) s = .next (State.requeued s (t.clearGo lid))))

/-- R185, R235, R245: what a fibre holds when its group is placed: the launch's argument in g0, its stack top in
g63, zero in every other register, tag 7, its entry address after the 64-byte header, and the trap vectors of its
launch and of its partition. -/
def Obligations.PlacedFibresStartClean : Prop :=
  ∀ (s : State) (gid m i n : Nat) (g : Group) (l : Launch),
    let f := s.entryFibre gid g l m i
    let num := (g.num * (l.cells / l.core) + m / l.core) * l.perCell + i
    vget f.g 0 0 = l.word 8
    ∧ vget f.g 63 0 = (if nfld (l.word 120) 0 32 = 0 then 0 else l.word 112 + BitVec.ofNat 64 (nfld (l.word 120) 0 32 * (num + 1)))
    ∧ (1 ≤ n → n < 63 → vget f.g n 0 = 0) ∧ (n < 32 → vget f.v n 0 = 0 ∧ vget f.vtag n 7 = 7)
    ∧ f.next = some (l.word 0 + 64) ∧ f.gpend = 0 ∧ f.vpend = 0 ∧ f.frames = [] ∧ f.park = .none
    ∧ f.level = (if fld (l.ctx.getD 1 0) 62 1 = 1 then .s else .a)
    ∧ f.bankA.tvec = (if l.hdrWord 24 = 0 then 0 else l.word 0 + l.hdrWord 24)
    ∧ f.bankS.tvec = s.reg (0x440 + 8 * l.part) &&& ~~~0x1F ∧ f.mdeleg = s.reg 0x70 ∧ f.fcsr = 0
    ∧ f.srng = 0x9E3779B97F4A7C15 ^^^ BitVec.ofNat 64 num

/-- R250, R252, R254, R295, R296: a running group of which nothing stands between two effects, whose save area has
room and whose beats in flight land, is halted and saved, unless its die drains without saving; until that can be
done no block of it is fetched, and when neither store has room the request is dropped; a debug hold asks for the
same and keeps the group from its queue; a debugger reads and writes the save area of a held group, and is answered
DIE_DOWN for a running one on a fenced die; a release queues the group again. -/
def Obligations.GroupsAreSavedAndHeld : Prop :=
  ∀ (s t : State) (who gid off : Nat) (value : Word) (g : Group) (l : Launch) (spill : Bool) (area : Bool × Nat),
    s.group? gid = some g → s.launchOf g = some l →
    let drops := (s.die g.die).state = .draining ∧ (s.die g.die).save = false
    (¬drops → g.state = .running → s.haltable gid = true → s.areaPlace g.die (s.areaOf gid g l) = some spill →
      s.haltGroup gid g l = some t → exec (.preemption gid) s = .next
        ((State.requeued s (t.saveGroup gid g l spill (s.areaOf gid g l))).holdNow gid))
    ∧ (¬drops → g.state = .running → s.haltable gid = false →
      exec (.preemption gid) s = .next (s.setGroup gid { g with stopping := true }))
    ∧ (¬drops → g.state = .running → s.haltable gid = true → s.areaPlace g.die (s.areaOf gid g l) = none →
      exec (.preemption gid) s = .next ((s.setGroup gid { g with stopping := false }).holdNow gid))
    ∧ (drops → exec (.preemption gid) s = .next (s.holdNow gid))
    ∧ (s.owned who = true → ¬drops → let asked := s.setGroup gid { g with hold := true }
      (∀ h, asked.preempt gid = some t → t.group? gid = some h → h.hold = true → h.state = .saved ∨ h.state = .queued →
        exec (.debugHold who gid) s = .next
          (State.requeued t (t.setGroup gid { h with state := .debug, hold := false, rsv := [] })))
      ∧ (asked.preempt gid = none → exec (.debugHold who gid) s = .next (asked.stopFetch gid)))
    ∧ (s.owned who = true → drops → exec (.debugHold who gid) s = .next s)
    ∧ (g.state = .debug → g.area = some area →
      exec (.debugAccess gid off false value) s = .next
        ({ s with tick := s.tick + 1, out := s.out ++ [.debugData (s.areaRead gid g l (off / 8 * 8))] } : State)
      ∧ exec (.debugAccess gid off true value) s = .next
        (let h := { g with rsv := g.rsv.filter (· != off / 8 * 8)
            ++ (if value &&& s.areaRsv gid g l (off / 8 * 8) = 0 then [] else [off / 8 * 8]) }
         (s.setGroup gid h).areaWrite gid h l (off / 8 * 8) value))
    ∧ (∀ write, g.state = .running → (s.die g.die).state = .fenced →
      exec (.debugAccess gid off write value) s = .next ({ s with out := s.out ++ [.dieDown 0x0D] } : State))
    ∧ (g.state = .debug → g.rsv = [] → (∀ e ∈ s.fibresOf gid, e.2.parkBad = false) →
      exec (.debugRelease gid) s = .next (State.requeued s
        ((s.setGroup gid { g with state := if g.area.isSome then .saved else .queued }).enqueueGroup gid g.die)))

/-! ### The owner, the dies, links and errors -/

/-- R299, R300: what a master that is not the owner writes to the controller's registers changes nothing. R187,
R192, R202, R253, R298, R299, R301, R307: what the owner's writes do: a map that would give a die a weight in two
partitions is dropped, another is installed, and one is held while a record is being taken, and made after it; LWCFG
keeps the bits of its fields and a window that it enables expects SEQ 1; a register keeps its fields, clamped, and
an enabled shadow store takes its lines from the cache; a clock step of 3 acts as 2; CANCEL begins to cancel the
launch that it names, with GO reading 1, one that names none clears GO, and a write with GO 0 leaves GO as it
stands; GMOVE moves a saved group to a die of its partition. GMOVE of a group that a debugger holds, and that
nothing is done without room for the save area, are the model's choices (log 50, DESIGN CHOICE); when a saved move
is made is its reading (log 51, DEDUCED). So are what a second LCANCEL and two launches of one SEQ mean (log 84,
DESIGN CHOICE). -/
def Obligations.OnlyTheOwnersWritesTakeEffect : Prop :=
  (∀ (s : State) (who p off : Nat) (v : Word) (b : Bool), s.owned who = false →
     exec (.ldmapWrite who p v) s = .next s ∧ exec (.lwcfgWrite who p v) s = .next s ∧ exec (.lcancel who v) s = .next s
     ∧ exec (.gmove who v) s = .next s ∧ exec (.registerWrite who off v) s = .next s ∧ exec (.clkstepWrite who v) s = .next s
     ∧ exec (.startcfgWrite who v) s = .next s ∧ exec (.moderrClear who v) s = .next s ∧ exec (.warmReset who p b) s = .next s
     ∧ exec (.fenceOnly who p b) s = .next s ∧ exec (.readmit who p) s = .next s ∧ exec (.debugHold who p) s = .next s
     ∧ exec (.recoveryGo who p) s = .next s)
  ∧ (∀ (s : State) (who p off lo hi lid gid : Nat) (v mask : Word) (l : Launch) (g : Group), s.owned who = true →
       (p < 8 → s.taking = [] → (∃ d < 32, nfld v (2 * d) 2 ≠ 0 ∧ ∃ q < 8, q ≠ p ∧ s.weight q d ≠ 0) →
         exec (.ldmapWrite who p v) s = .next s)
       ∧ (p < 8 → s.taking = [] → (∀ d < 32, nfld v (2 * d) 2 ≠ 0 → ∀ q < 8, q ≠ p → s.weight q d = 0) →
         exec (.ldmapWrite who p v) s = .next ((s.setReg (0x400 + 8 * p) v).relaunchLost.moveSaved))
       ∧ (p < 8 → s.taking ≠ [] →
         exec (.ldmapWrite who p v) s = .next ({ s with changes := s.changes ++ [.write p v] } : State))
       ∧ (s.taking = [] → s.changes = [.write p v] → s.settleMaps = ({ s with changes := [] } : State).installMap p v)
       ∧ (p < 24 → ∃ t, exec (.lwcfgWrite who p v) s = .next t ∧ t.lwcfg p = v &&& 0x000FFFFFFFFF0F7F
         ∧ (s.winOn p = false → v.getLsbD 0 = true → t.expected p = 1)
         ∧ (s.winOn p = true ∨ v.getLsbD 0 = false → t.expected p = s.expected p))
       ∧ (regShape off = some (mask, lo, hi) →
         let t := s.setReg off (BitVec.ofNat 64 (min (max (v &&& mask).toNat lo) hi))
         exec (.registerWrite who off v) s = .next (if off = 0x50 then t.trimSlices else t))
       ∧ (exec (.clkstepWrite who v) s = .next (s.setReg 0x40 (if v.toNat % 4 = 3 then 2 else BitVec.ofNat 64 (v.toNat % 4))))
       ∧ (let cfg := BitVec.ofNat 64 (min (v.toNat % 32) 16 + min (v.toNat / 256 % 32) 16 * 256)
          exec (.startcfgWrite who v) s = .next ({ s with ctl := s.ctl.put 0x30 cfg, flashCfg := cfg } : State))
       ∧ (exec (.moderrClear who v) s = .next (s.setReg 0x10
           (if s.reg 0x10 &&& ~~~v &&& 0xF = 0 then 0 else s.reg 0x10 &&& ~~~(v &&& 0xF))))
       ∧ (let named := s.findLaunch (min (nfld v 32 5) 23) (nfld v 0 32)
          let w := s.lcancelValue v
          (v.getLsbD 63 = true → named = some (lid, l) → exec (.lcancel who v) s = .next
            (({ s.setReg 0x290 (setFld w 63 1 1) with cancelling := some lid } : State).cancelLaunch lid (v.getLsbD 37)))
          ∧ (v.getLsbD 63 = true → named = none →
            exec (.lcancel who v) s = .next ({ s.setReg 0x290 (setFld w 63 1 0) with cancelling := none } : State))
          ∧ (v.getLsbD 63 = false → exec (.lcancel who v) s = .next (s.setReg 0x290 w))
          ∧ w.getLsbD 63 = (s.reg 0x290).getLsbD 63)
       ∧ (let s' := s.setReg 0x288 (v &&& 0x1FFFFFFFFF)
          v.getLsbD 63 = true → s'.findLaunch (nfld (s'.reg 0x280) 32 5) (nfld (s'.reg 0x280) 0 32) = some (lid, l) →
          s'.groups.find? (fun e => e.2.lid == lid && e.2.num == nfld v 0 32) = some (gid, g) → g.state = .saved ∨ g.state = .debug →
          s'.weight l.part (nfld v 32 5) ≠ 0 → exec (.gmove who v) s = .next (s'.moveGroup gid g (nfld v 32 5))))

/-- R299 to R305, R307: a claim of a master that reaches the registers succeeds when there is no owner or its lease
has run out, and begins a lease of 1000 ms; the owner renews it, names a successor or releases it; the lease ends
after 1000 ms. The start passes its phases in order, fails with its reasons, and its watchdog ends it after 10 s;
phase 3 fails when no die passes its self-test, phase 4 enables the ports that train, and after three failures the
module starts in minimal mode. A recovery waits for the sequences of dies, a second one meanwhile is ignored, and an
image that it has verified resets the module. The outcome of a phase, the digest and the version of an image are
inputs or free values (log 22), and the rates of ports and the minimal start have choices of the model (log 55, log
66). -/
def Obligations.OwnershipAndStart : Prop :=
  ∀ (s : State) (who outcome : Nat) (v : Word), s.reaches who = true →
    let claimed := fun (next : Nat) =>
      ({ s with ctl := s.ctl.put 0 (BitVec.ofNat 64 (who + next * 256 + 1000 * 65536)), leaseAt := s.time } : State)
    (v.toNat % 32 = who → s.owner = 0 ∨ s.lease = 0 → exec (.claim who v) s = .next (claimed 0))
    ∧ (v.toNat % 32 = who → s.owner = who → s.lease ≠ 0 → exec (.claim who v) s = .next (claimed (v.toNat / 256 % 32)))
    ∧ (v.toNat % 32 = who → s.owner ≠ 0 → s.owner ≠ who → s.lease ≠ 0 → nfld (s.reg 0) 8 5 = who →
      exec (.claim who v) s = .next (claimed 0))
    ∧ (v.toNat % 32 = 0 → s.owner = who → ∃ t, exec (.claim who v) s = .next t ∧ t.owner = 0)
    ∧ (s.owner ≠ 0 → s.owner ≠ who → s.lease ≠ 0 → nfld (s.reg 0) 8 5 ≠ who → exec (.claim who v) s = .next s)
    ∧ (s.leaseAt + 2000000000 ≤ s.time → ∃ t, exec .leaseExpiry s = .next t ∧ t.lease = 0 ∧ t.owner = s.owner)
    ∧ (s.phase < 5 → s.startedAt + 20000000000 ≤ s.time → exec .startWatchdog s = .next (s.failStart 8))
    ∧ (s.phase < 5 → ¬(s.fails = 3 ∧ s.phase = 0) → outcome ≠ 0 → outcome ≤ 9 →
      exec (.moduleStart outcome) s = .next (s.failStart outcome))
    ∧ (s.phase = 0 → s.fails ≠ 3 → exec (.moduleStart 0) s = .next (s.setPhase 1))
    ∧ (s.phase = 1 → s.flashGood = true → s.fusedMin.toNat ≤ s.imageVer.toNat →
      ∃ t, exec (.moduleStart 0) s = .next t ∧ t.phase = 2 ∧ nfld (t.reg 8) 16 32 = s.imageVer.toNat ∧ t.runImage = s.image)
    ∧ (s.phase = 1 → s.flashGood = false → exec (.moduleStart 0) s = .next (s.failStart 2))
    ∧ (s.phase = 1 → s.flashGood = true → s.imageVer.toNat < s.fusedMin.toNat →
      exec (.moduleStart 0) s = .next (s.failStart 3))
    ∧ (s.phase = 2 → ∃ t, exec (.moduleStart 0) s = .next t ∧ t.phase = 3 ∧ t.reg 0x58 = s.flashCfg ∧ t.events = [])
    ∧ (s.phase = 3 → let t := s.startDies
      exec (.moduleStart 0) s =
        .next (if (List.range 32).all (fun d => (t.die d).state != .live) then t.failStart 6 else t.setPhase 4))
    ∧ (s.phase = 0 → s.fails = 3 → outcome ≤ 9 → exec (.moduleStart outcome) s = .next (s.minimalStart (outcome == 0)))
    ∧ (s.phase = 4 → s.trainable ≠ [] → ∃ t, exec (.moduleStart 0) s = .next t ∧ t.phase = 5 ∧ t.fails = 0
      ∧ t.ports = s.trainable)
    ∧ (s.phase = 4 → s.trainable = [] → exec (.moduleStart 0) s = .next (s.failStart 7))
    ∧ (s.owned who = true → outcome ≤ 3 →
      let asked := ({ s with recovery := some outcome } : State).setReg 0x28 1
      (s.recovery ≠ none → exec (.recoveryGo who outcome) s = .next s)
      ∧ (s.recovery = none → (∃ d < 32, s.dieIdle d = false) → exec (.recoveryGo who outcome) s = .next asked)
      ∧ (s.recovery = none → (∀ d < 32, s.dieIdle d = true) →
        let bytes := asked.mem.bytes (asked.reg 0x18).toNat (asked.reg 0x20).toNat
        let refused := fun (c : Nat) => ({ asked with recovery := none } : State).setReg 0x28 (BitVec.ofNat 64 (c * 256))
        (outcome ≠ 0 → exec (.recoveryGo who outcome) s = .next (refused outcome))
        ∧ (outcome = 0 → (Config.imageVersion bytes).toNat < s.fusedMin.toNat →
          exec (.recoveryGo who outcome) s = .next (refused 3))
        ∧ (outcome = 0 → s.fusedMin.toNat ≤ (Config.imageVersion bytes).toNat →
          exec (.recoveryGo who outcome) s = .next ({ asked with
            recovery := none, flashGood := true
            imageVer := Config.imageVersion bytes, image := Config.imageDigest bytes } : State).moduleReset)))

/-- R192, R289, R294, R295: the owner's order drains a live die, begins the reset or the re-admission of one that is
fenced, failed or ready, and has no effect while a sequence runs; a re-admission keeps SAVE. A die that drains loses
its weight when no record is being taken; once its groups are saved or discarded it is fenced; it is reset, tested,
READY when it passes, and live with its former weight again by the procedure of R192; only a warm reset is counted.
A link whose 16th replay has failed fences its die. That only a warm reset is counted, and when the die becomes LIVE
and stays READY, are the model's readings (log 52, DEDUCED). -/
def Obligations.DiesPassTheirSequence : Prop :=
  ∀ (s t : State) (who die code p w : Nat) (save : Bool),
    let x := s.die die
    let s' := fun (op : Nat) => s.setReg 0x100 (dieCtl die op save)
    let resets := fun (op : Nat) => if op = 1 then min 255 (x.resets + 1) else x.resets
    (s.owned who = true → die < 32 →
      (x.state = .live → exec (.warmReset who die save) s = .next ((s' 1).drain die 1 save)
        ∧ exec (.fenceOnly who die save) s = .next ((s' 2).drain die 2 save))
      ∧ (x.state = .fenced ∨ x.state = .failed ∨ x.state = .ready →
        exec (.warmReset who die save) s = .next ((s' 1).startReset die 1) ∧ exec (.fenceOnly who die save) s = .next (s' 2))
      ∧ (x.state = .draining ∨ x.state = .resetting ∨ x.state = .testing →
        exec (.warmReset who die save) s = .next (s' 1) ∧ exec (.fenceOnly who die save) s = .next (s' 2))
      ∧ (save = (s.reg 0x100).getLsbD 8 →
        (x.state = .fenced ∨ x.state = .failed → exec (.readmit who die) s = .next ((s' 3).startReset die 3))
        ∧ (x.state = .ready → exec (.readmit who die) s = .next (((s' 3).setDie die { x with op := 3 }).changeMap (.restore die)))
        ∧ (x.state = .live ∨ x.state = .draining ∨ x.state = .resetting ∨ x.state = .testing →
          exec (.readmit who die) s = .next (s' 3))))
    ∧ (let drained := fun (op : Nat) => s.setDie die { x with state := .draining, op := op, save := save }
       (s.taking = [] → s.drain die code save = (drained code).dropWeight die)
       ∧ (s.taking ≠ [] → s.drain die code save = { drained code with changes := s.changes ++ [.drop die] }))
    ∧ (x.state = .draining → s.changes.contains (.drop die) = true → exec (.linkQuiesce die) s = .next s)
    ∧ (x.state = .draining → s.changes.contains (.drop die) = false → s.evictAll x.save (s.resident die) = some t →
      let t' := t.setDie die { t.die die with state := .fenced }
      exec (.linkQuiesce die) s = .next (if x.op = 2 then t'.endSequence die else t'))
    ∧ (x.state = .draining → s.changes.contains (.drop die) = false → s.evictAll x.save (s.resident die) = none →
      exec (.linkQuiesce die) s = .next ((s.resident die).foldl State.stopFetch s))
    ∧ (s.startReset die code = s.setDie die { x with state := .resetting, op := code, resets := resets code })
    ∧ (x.state = .fenced → x.op ≠ 0 → exec (.dieResetDone die) s = .next (s.startReset die x.op))
    ∧ (x.state = .resetting → ∃ u, exec (.dieResetDone die) s = .next u
      ∧ u.die die = { x with state := .testing, linkUp := true, replays := 0, replaysIn := 0 })
    ∧ (x.state = .testing → s.changes.contains (.drop die) = false →
      (code % 256 = 0 → exec (.bistDone die code) s = .next (s.setDie die { x with state := .ready, bist := 0 }))
      ∧ (code % 256 ≠ 0 → exec (.bistDone die code) s = .next
        ((s.setDie die { x with state := .failed, bist := code % 256 }).endSequence die)))
    ∧ (x.state = .ready → x.op ≠ 0 → s.changes.contains (.restore die) = false →
      exec (.dieResetDone die) s = .next (s.changeMap (.restore die)))
    ∧ (x.state = .ready → s.taking = [] → x.former = some (p, w) → (∀ q < 8, q ≠ p → s.weight q die = 0) →
      s.changeMap (.restore die) = ((s.setDie die { x with state := .live, former := none }).installMap p
        (setFld (s.reg (0x400 + 8 * p)) (2 * die) 2 (BitVec.ofNat 2 w))).endSequence die)
    ∧ (16 ≤ x.replays ∨ 16 ≤ x.replaysIn → x.state ≠ .resetting → 5 ≤ s.phase →
      ∃ u, exec (.linkDown die false) s = .next u ∧ (u.die die).state = .fenced ∧ (u.die die).linkUp = false
        ∧ (u.die die).op = 1 ∧ (u.die die).save = false)

/-- R289, R292, R293, R295: a beat of one direction is replayed: its count is 0 when it arrives and one more when it
does not, and at 16 the link goes down next; a credit return with a good CRC adds its credits and those of one with
a bad CRC are lost; an audit of a channel, 1 ms after the last, gives the lost ones back to what the sender still
holds, and counts that; a cell of no group that has been idle for 10 microseconds is gated and loses what it holds,
and wakes when a group has been placed on it; a message to a cell of a fenced die is answered DIE_DOWN. The length
of a series of replays and what beats have taken of the credits are free values (log 6, log 21); which links there
are is the model's numbering (log 21). -/
def Obligations.LinksCreditsAndGating : Prop :=
  ∀ (s : State) (die link chan n cell : Nat),
    ((s.die die).replays < 16 → (s.die die).replaysIn < 16 → (s.die die).linkUp = true → die < 32 →
      ∃ t k into, exec (.beatReplay die) s = .next t ∧ t.die die = (s.die die).setReplays into k
        ∧ (k = 0 ∨ k = (if into then (s.die die).replaysIn else (s.die die).replays) + 1)
        ∧ (16 ≤ k → ∃ lost, t.turn = some (.ev (.linkDown die lost))))
    ∧ (isLink link = true → chan < 17 →
      let c := s.credit link chan
      (∀ ok, ∃ t, exec (.creditReturn link chan n ok) s = .next t
        ∧ t.credit link chan = (if ok = true then { c with have_ := c.have_ + n } else { c with lost := c.lost + n })
        ∧ ∀ d, d < 17 → d ≠ chan → t.credit link d = s.credit link d)
      ∧ (c.auditedAt + 2000000 ≤ s.time →
        let left := c.have_ - Config.takenCredits s.tick
        ∃ t, exec (.creditAudit link chan) s = .next t ∧ (t.credit link chan).have_ = left + c.lost
          ∧ (t.credit link chan).lost = 0 ∧ (t.credit link chan).auditedAt = s.time
          ∧ (t.credit link chan).regrants = c.regrants + (if 0 < c.lost then 1 else 0)))
    ∧ ((s.reg 0x48).getLsbD 0 = true → (s.cell cell).gated = false → s.placed cell = false →
      (s.cell cell).idleSince + 20000 ≤ s.time → ∃ t, exec (.gateTimer cell) s = .next t
        ∧ t.cell cell = { CellSt.init with gated := true, idleSince := (s.cell cell).idleSince }
        ∧ (∀ o, o < 0x100000 → t.cmem.byte (cell * 0x100000 + o) = 0) ∧ t.fibres = s.fibres ∧ t.mem = s.mem)
    ∧ ((s.die (dieOfCell cell)).state = .live → (s.cell cell).gated = true → s.placed cell = true →
      exec (.cellWake cell) s = .next (s.setCell cell { s.cell cell with gated := false, idleSince := s.time }))
    ∧ ((s.die (dieOfCell cell)).state = .fenced →
      exec (.cellWake cell) s = .next ({ s with out := s.out ++ [.dieDown 0x0D] } : State))

/-- R297, R298, R303, R307: an uncorrectable error of cell memory or HBM marks its chunk or line, and so does one of
a line of host memory that the last-level cache holds; one of an L1 drops the line; one of a register file ends the
group's run and relaunches it, when its blocks let it; one of the base closes the module to new launches; a
corrected one is counted; thermal protection lowers the clock. After the start a module error is recorded when none
is, and counted otherwise; the owning host is told of it, or every host on an enabled port; before that it fails the
start. -/
def Obligations.ErrorsAreMarkedAndReported : Prop :=
  ∀ (s t : State) (loc gid step : Nat),
    let told := fun (p : Nat) => OutMsg.msix p (nfld (s.reg 0x88) 0 11)
    let recorded := fun (u : State) (kind place : Nat) =>
      (nfld (s.reg 0x10) 0 4 = 0 → u.reg 0x10 = BitVec.ofNat 64 (kind + place % 32 * 16))
      ∧ (nfld (s.reg 0x10) 0 4 ≠ 0 → nfld (u.reg 0x10) 0 4 = nfld (s.reg 0x10) 0 4
        ∧ nfld (u.reg 0x10) 16 16 = min (nfld (s.reg 0x10) 16 16 + 1) 0xFFFF)
    (loc < 0x80000000 → ∃ u, exec (.uncorrectableError 0 loc) s = .next u ∧ loc / 64 ∈ u.badChunks
      ∧ (∀ c, c ∈ u.badChunks → c = loc / 64 ∨ c ∈ s.badChunks) ∧ u.cmem = s.cmem ∧ u.out = s.out)
    ∧ (5 ≤ s.phase →
      (loc < hbmEnd → ∃ u, exec (.uncorrectableError 1 loc) s = .next u ∧ lineOf loc ∈ u.badLines ∧ u.mem = s.mem
        ∧ recorded u 3 (sectorOf loc) ∧ (1 ≤ s.owner → s.owner ≤ 12 → u.out = s.out ++ [told (s.owner - 1)]))
      ∧ (hbmEnd ≤ loc → (s.llc.get? (lineOf loc)).isSome = true → ∃ u, exec (.uncorrectableError 1 loc) s = .next u
        ∧ lineOf loc ∈ u.badLines ∧ u.mem = s.mem ∧ recorded u 3 (cachePlace (lineOf loc)).1)
      ∧ (∃ u, exec (.uncorrectableError 4 loc) s = .next u ∧ u.closed = true ∧ recorded u 1 loc
        ∧ u.out = s.out ++ (s.ports.map Prod.fst).map told)
      ∧ (step ≤ 2 → nfld (s.reg 0x40) 0 2 < step → ∃ u, exec (.thermalThrottle step loc) s = .next u
        ∧ u.reg 0x40 = BitVec.ofNat 64 step ∧ recorded u 4 loc))
    ∧ (s.phase < 5 → exec (.uncorrectableError 4 loc) s = .next (({ s with closed := true } : State).failStart 9))
    ∧ (∃ u, exec (.uncorrectableError 2 loc) s = .next u ∧ u.l1Line (loc % 0x100000) (loc / 0x100000) = none
      ∧ (u.die (dieOfCell (loc % 0x100000))).cec = min 0xFFFFFFFF ((s.die (dieOfCell (loc % 0x100000))).cec + 1))
    ∧ (s.holder loc = some gid → s.endGroup gid 8 .lost = some t →
      exec (.uncorrectableError 3 loc) s = .next (t.relaunch gid))
    ∧ (loc < 32 → exec (.correctedError 0 loc) s = .next
      (s.setDie loc { s.die loc with cec := min 0xFFFFFFFF ((s.die loc).cec + 1) }))
    ∧ exec (.correctedError 1 loc) s = .next (countSector loc 6 1 s) ∧ exec (.correctedError 2 loc) s = .next (countSector loc 7 1 s)

/-! ### Engines and security -/

/-- R216, R221 to R232, R319: the copy engine reads the next descriptor in order, else starts the oldest copy that
is not held back, at most four at a time; a beat hands over a mark that is owed, else reads bytes that are not yet
read, or lands bytes that have been; a copy whose bytes have all landed and whose additions have been made writes
DONE and its count, one that has stopped its cause; `bbar.init` sets EXPECT and ARRIVED when no earlier command may
name its barrier, and the additions and waits of later ones follow; the node takes the oldest mark. R227, R273: what
a status word says and where it goes: bit 0, ERR when there is a cause, the cause and the count; it enters its
pending register, which is then no longer pending, and its fibre is ready when it is parked on it. That the bytes of
a copy land in stream order through a read-ahead buffer is the model's choice (log 19, DESIGN CHOICE); when a
`bbar.init` and the additions and waits behind it take effect is its reading (log 36, DEDUCED); which step comes
next is free (log 6). -/
def Obligations.CopyEngineAndStatusWords : Prop :=
  (∀ (s t : State) (cell cmd len : Nat) (k : CopyCmd) (d : Desc) (c : Ctx) (m : Mark) (rest : List Mark),
     (s.readNext cell = some t → exec (.copyStart cell) s = .next t)
     ∧ (s.readNext cell = none → ((s.cell cell).copies.filter (fun k => k.started)).length < 4 →
       (s.cell cell).copies.find? (fun k => k.kind != .init && k.desc.isSome && !k.started
         && ((k.stop.isSome && k.kind != .copyQ) || !s.copyHeld cell k)) = some k →
       exec (.copyStart cell) s = .next (s.setCopy cell { k with started := true }))
     ∧ (s.copy? cell cmd = some k → k.desc = some d → s.engineCtx k.fid k.xl = some c → k.started = true → k.stop = none →
       (k.markDue = true → exec (.copyBeat cell cmd len) s = .next (s.emitMark cell k d))
       ∧ (k.markDue = false → k.pos < d.total → k.buf = [] → s.runWaits cell k d = false → ∃ u, s.SameRegs u ∧ s.SameBytes u
         ∧ u.cells = s.cells ∧ exec (.copyBeat cell cmd len) s = .next (u.copyRead cell len k d c))
       ∧ (k.markDue = false → k.pos < d.total → k.buf ≠ [] → d.total ≤ k.pos + k.buf.length ∨ s.runWaits cell k d = true →
         ∃ u, s.SameRegs u ∧ s.SameBytes u
         ∧ u.cells = s.cells ∧ exec (.copyBeat cell cmd len) s = .next (u.copyLand cell len k d c)))
     ∧ (s.copy? cell cmd = some k → k.desc = some d → k.started = true → k.paid d = true →
       (k.stop = none → d.total ≤ k.pos → k.markDue = false → exec (.copyFinish cell cmd) s = .next
         (((s.dropCopy cell cmd).writeStatus k.fid k.sreg (statusWord 0 k.pos)).haltOf k.fid))
       ∧ (∀ e, k.stop = some e → exec (.copyFinish cell cmd) s = .next
         (((s.dropCopy cell cmd).writeStatus k.fid k.sreg (statusWord e k.pos)).haltOf k.fid)))
     ∧ (s.copy? cell cmd = some k → k.kind = .init →
       (∀ x ∈ (s.cell cell).copies, x.id < k.id →
         (x.kind = .init ∨ x.desc.isSome = true) ∧ x.barrier cell ≠ some (barrierAt cell k.addr)) →
       exec (.bbarInitPerform cell cmd) s = .next (((((s.dropCopy cell cmd).putCell (barrierAt cell k.addr)
         (natLe 8 k.expect.toNat ++ natLe 8 0)).payAll cell (barrierAt cell k.addr)).testWaits cell).haltOf k.fid))
     ∧ ((s.cell cell).node.marks = m :: rest → ∃ t, exec (.markTake cell) s = .next t ∧ (t.cell cell).node.marks = rest
       ∧ t.fibres = s.fibres ∧ s.SameBytes t))
  ∧ (∀ (s : State) (fid sreg cause bytes : Nat) (f : Fibre) (w : Word),
       ((statusWord cause bytes).getLsbD 0 = true ∧ ((statusWord cause bytes).getLsbD 1 = true ↔ cause ≠ 0)
         ∧ nfld (statusWord cause bytes) 8 8 = cause % 256 ∧ nfld (statusWord cause bytes) 16 48 = bytes % 2 ^ 48)
       ∧ (s.fibre? fid = some f → sreg < 64 → f.gpend.getLsbD sreg = true → ∃ f', (s.writeStatus fid sreg w).fibre? fid = some f'
         ∧ vget f'.g sreg 0 = w ∧ f'.gpend.getLsbD sreg = false
         ∧ (∀ n < 64, n ≠ sreg → vget f'.g n 0 = vget f.g n 0 ∧ f'.gpend.getLsbD n = f.gpend.getLsbD n)
         ∧ (f.park = .reg sreg → f'.park = .none) ∧ (f.park ≠ .reg sreg → f'.park = f.park)
         ∧ f'.v = f.v ∧ f'.frames = f.frames ∧ s.SameBytes (s.writeStatus fid sreg w))
       ∧ (s.fibre? fid = some f → f.gpend.getLsbD sreg = false → (s.writeStatus fid sreg w).fibre? fid = some f))

/-- R273, R274, R277, R278, R282, R283: the head command of a node starts when what it covers has been performed:
`mzero` zeroes its tile and leaves the others; `mma` and `mma.sp` start, with the tags that their operands have
then, when these decode and nothing holds them back, stop with 0x01 otherwise, and then apply their next k-group;
`mld` and `mst` go on by a beat; `cmtag` tags its granules; a command that has done all it does leaves its node and
reports. R257, R279, R280: a ring of cells of one group that has not timed out starts, with the tag that its members
agree on and each member's B tile at its BOFF in its latch, once every member has arrived with the same command; a
member that has done its step offers its latch and takes its left neighbour's; one that has waited 100 microseconds
for the exchange stops with 0x21, or with the cause of its own failure (log 64). That nodeCommandStart covers each
step of the head command (log 38) and what a failed member reports of a ring that timed out (log 64) are the model's
choices; whether a node can tell is free (log 13, DESIGN CHOICE); how members compare and stop, and how `mld` and
`mst` check their range, are its readings (log 44, log 45, DEDUCED). -/
def Obligations.NodeAndRingEvents : Prop :=
  (∀ (s : State) (cell : Nat) (n : NodeCmd) (c : Ctx), s.nodeHead cell = some n → s.engineCtx n.fid n.xl = some c →
     (n.stop = none → s.coveredUpTo n.fid n.upTo = true →
       let s' : State := { s with tick := s.tick + 1 }
       let tells := Config.nodeCanTell s.tick
       let held := s'.engineHeld cell n.id (n.spans c) ((n.spans c).src ++ (n.spans c).dst) (CopyCmd.asTold tells)
       (∀ pr acc, n.ins = .mzero pr acc → n.started = false → ∃ t, exec (.nodeCommandStart cell) s = .next t
         ∧ t.nodeHead cell = some { n with started := true }
         ∧ (∀ i < 64, ∀ j < 64, tileGet (t.cell cell).node.tiles acc.toNat i j = 0)
         ∧ (∀ b, b ≠ acc.toNat → ∀ i < 64, ∀ j < 64, tileGet (t.cell cell).node.tiles b i j = tileGet (s.cell cell).node.tiles b i j)
         ∧ t.fibres = s.fibres ∧ s.SameBytes t)
       ∧ (∀ pr sreg acc kq, n.ins = .mma pr sreg acc kq ∨ n.ins = .mmaSp pr sreg acc kq →
         (n.started = true → exec (.nodeCommandStart cell) s = .next (s'.mmaGroup cell n))
         ∧ (n.started = false → held = false →
           (s'.operandsOk cell n = true → exec (.nodeCommandStart cell) s = .next (s'.setHead cell { n with
             started := true, ta := s'.cellTag cell (nfld n.a 0 20), tb := s'.cellTag cell (nfld n.a 20 20) }))
           ∧ (s'.operandsOk cell n = false → exec (.nodeCommandStart cell) s = .next
             (s'.setHead cell { n with started := true, stop := some 1 }))))
       ∧ (∀ pr sreg acc, n.ins = .mld pr sreg acc → exec (.nodeCommandStart cell) s = .next (s'.mldBeat cell n c tells))
       ∧ (∀ pr fmt sreg acc, n.ins = .mst pr fmt sreg acc →
         exec (.nodeCommandStart cell) s = .next (s'.mstBeat cell n fmt c tells))
       ∧ (∀ pr tag scale, n.ins = .cmtag pr tag scale → n.started = false → held = false →
         exec (.nodeCommandStart cell) s = .next
           ((s'.tagGranules c n.a.toNat n.b.toNat (BitVec.ofBool scale ++ tag)).setHead cell { n with started := true })))
     ∧ (s.nodeDone cell n = true → n.ringN = none →
       exec (.nodeCommandFinish cell) s = .next ((s.finishHead cell n).haltCheck (((s.fibre? n.fid).map Fibre.gid).getD 0))))
  ∧ (∀ (s : State) (cell k : Nat) (n : NodeCmd) (r : Ring) (c : Ctx) (tag : Nat), s.member? cell = some (n, r, k) →
       (s.engineCtx n.fid n.xl = some c → r.started = false → n.stop = none → c.l.core = 1 →
         s.ringLate cell k (s.cell cell).node.rounds = false →
         (∀ x ∈ runOf cell k, ∃ i < c.l.cells, memberCell c.g c.l i = x) →
         (∀ x ∈ runOf cell k, s.arrival x (s.cell cell).node.rounds n k = .agrees) →
         (∀ x ∈ s.ringPeers cell k (s.cell cell).node.rounds, (s.cell x).node.ring.bind Ring.stop = none
           ∧ ((s.nodeHead x).map NodeCmd.tb).getD 0 = tag) →
         ∃ t, exec (.ringStart cell) s = .next t ∧ (∀ x ∈ s.ringPeers cell k (s.cell cell).node.rounds, ∀ y,
             (s.cell x).node.ring = some y → ∀ h, s.nodeHead x = some h → (t.cell x).node.ring = some { y with
               started := true, tag := tag, latch := some (s.tileAt x tag (nfld h.a 20 20) n.k) })
           ∧ t.fibres = s.fibres ∧ s.SameBytes t)
       ∧ (r.started = true → r.stop = none → r.step < k → (r.step + 1) * n.stepGroups r ≤ n.pos →
         (r.given = false → r.offer = none → ∃ t, exec (.ringHandover cell) s = .next t
           ∧ (t.cell cell).node.ring = some { r with given := true, offer := r.latch, latch := none })
         ∧ (∀ o b, r.given = true → (s.cell (memberAt cell k ((cellX cell % k + k - 1) % k))).node.ring = some o →
           o.offer = some b → o.step = r.step ∨ o.step = r.step + 1 → memberAt cell k ((cellX cell % k + k - 1) % k) ≠ cell →
           ∃ t, exec (.ringHandover cell) s = .next t
             ∧ (t.cell cell).node.ring = some { r with latch := some b, given := false, step := r.step + 1, since := s.time }
             ∧ (t.cell (memberAt cell k ((cellX cell % k + k - 1) % k))).node.ring = some { o with offer := none }))
       ∧ (n.stop = none → r.since + 200000 ≤ s.time → r.started = false → cell ∈ runOf cell k → ∃ t y h,
         exec (.ringTimeout cell) s = .next t ∧ t.nodeHead cell = some h ∧ (t.cell cell).node.ring = some y
           ∧ h.stop = some (r.stop.getD 0x21) ∧ y.stop = some (r.stop.getD 0x21)))

/-- R127, R306: the requests of an SPDM exchange are answered in their order and leave the port's state as it says;
one out of its order is answered with an error; a key is loaded only in a session of the owner. The words of an
answer are free values (log 22); the order of the requests and the answer ERROR out of it are the model's reading
(log 56, DEDUCED), and that port 12 is the board controller's is PRESUMED (log 56). -/
def Obligations.SpdmExchange : Prop :=
  ∀ (s : State) (port slot index keyId stream : Nat) (nonce d proof : Word) (offered : List Nat) (key : Vec) (ws : List Word),
    let x := s.session port
    let answered := fun (i : Instr) (y : Session) (kind : String) => ∃ t body, exec i s = .next t
      ∧ t.session port = { y with transcript := y.transcript ++ body } ∧ t.out = s.out ++ [.spdm port kind body]
    let refused := fun (i : Instr) => exec i s = .next ({ s with out := s.out ++ [.spdm port "ERROR" []] } : State)
    (port < 13 → answered (.getVersion port) { Session.init with versionDone := true } "VERSION")
    ∧ (x.versionDone = true → answered (.getCapabilities port) { x with capsDone := true } "CAPABILITIES")
    ∧ (x.versionDone = false → refused (.getCapabilities port))
    ∧ (x.capsDone = true → (∀ a, 1 ≤ a → a ≤ 4 → a ∈ offered) →
      answered (.negotiateAlgorithms port offered) { x with algsDone := true } "ALGORITHMS")
    ∧ (x.capsDone = false ∨ (∃ a, 1 ≤ a ∧ a ≤ 4 ∧ a ∉ offered) → refused (.negotiateAlgorithms port offered))
    ∧ (x.algsDone = true → answered (.getDigests port) x "DIGESTS" ∧ answered (.getCertificate port 0) x "CERTIFICATE"
      ∧ answered (.challenge port nonce) x "CHALLENGE_AUTH"
      ∧ answered (.keyExchange port d) { x with keyData := some d, secure := false, rekeys := 0 } "KEY_EXCHANGE_RSP")
    ∧ (x.algsDone = true → s.measured index = some ws → ∃ t b1 b2, exec (.getMeasurements port index nonce) s = .next t
      ∧ t.out = s.out ++ [.spdm port "MEASUREMENTS" b1, .spdm port "SIGNATURE" b2])
    ∧ (x.algsDone = false → refused (.getDigests port) ∧ refused (.getCertificate port slot) ∧ refused (.challenge port nonce)
      ∧ refused (.keyExchange port d) ∧ refused (.getMeasurements port index nonce))
    ∧ (x.keyData = some d → x.secure = false → Config.finishVerifies port d proof = true →
      answered (.finish port proof) { x with secure := true } "FINISH_RSP")
    ∧ (x.keyData = none ∨ x.secure = true ∨ (x.keyData = some d ∧ Config.finishVerifies port d proof = false) →
      refused (.finish port proof))
    ∧ (x.secure = true → answered (.keyUpdate port) { x with rekeys := x.rekeys + 1 } "KEY_UPDATE_ACK"
      ∧ answered (.heartbeat port) x "HEARTBEAT_ACK"
      ∧ answered (.endSession port) { x with secure := false, keyData := none, rekeys := 0 } "END_SESSION_ACK"
      ∧ (∃ t, exec (.ideKm port stream key) s = .next t ∧ t.ideKeys.get? (256 * port + stream % 256) = some key
        ∧ (t.session port).secure = true)
      ∧ (s.owned (masterOf port) = true → 1 ≤ keyId → keyId ≤ 63 →
        exec (.vendorDefined port keyId key) s = .next ((s.loadKey keyId key).reply port "VENDOR_DEFINED_RSP" [])))
    ∧ (x.secure = false ∨ s.owned (masterOf port) = false → refused (.vendorDefined port keyId key))
    ∧ (x.secure = false → refused (.keyUpdate port) ∧ refused (.heartbeat port) ∧ refused (.endSession port)
      ∧ refused (.ideKm port stream key))
end

