-- ==== Sys2Proof/Machine/Binary.lean ====
section
/-! DEFINITION. What the toolchain makes for the machine: the image of a block, the kernel header, relocations and veneers,
the ELF container, the calling convention and unwinding (R7, R15, R59, R65, R66, R312 to R317). -/

namespace Sys2Proof.Machine

/-- Why the toolchain rejects a line or a link. -/
inductive ToolErr where
  /-- no token or no statement begins so (R309) -/
  | form
  /-- an operand or a suffix that the instruction's entry does not have (R310) -/
  | operand
  /-- a mnemonic that R38 does not list -/
  | mnemonic
  /-- a value outside its field (R73, R310, R311) -/
  | range
  /-- a field of R38 that breaks a limit -/
  | illegal
  /-- an index used twice in a block, or above 127 (R309) -/
  | index
  /-- a target whose index is not higher than its producer's (R7) -/
  | order
  /-- a target at a slot that its consumer does not have, or at the predicate of an unpredicated one (R7) -/
  | slot
  /-- an LSID used twice (R7) -/
  | lsid
  /-- an exit that `.exits` does not list, or lists with another block (R7, R310) -/
  | exit
  /-- an owner that no `xop` follows (R310) -/
  | xop
  /-- a symbol that is defined twice (R309) -/
  | twice
  /-- a symbol that nothing defines, where no relocation fits (R313) -/
  | undefined
  /-- a statement where it is not allowed (R311) -/
  | place
  /-- a distance that is no multiple of 32 (R313) -/
  | unaligned
  /-- a distance too long for its field (R313) -/
  | reach
  deriving DecidableEq, Repr

/-! ### Blocks (R7, R15) -/

/-- The instructions of a block by index, as its source gives them, in any order. -/
abbrev SrcBlock := List (Nat × Instr)

/-- nK of a source block; padding is `nop` (R7). -/
def SrcBlock.at (b : SrcBlock) (k : Nat) : Instr := ((b.find? (fun e => e.1 == k)).map (·.2)).getD .nop

/-- The highest index used. -/
def SrcBlock.top (b : SrcBlock) : Nat := b.foldl (fun m e => max m e.1) 0

/-- CHUNKS, from the highest index used (R7). -/
def SrcBlock.chunks (b : SrcBlock) : Nat := b.top / 8

/-- R15: the length of the block in bytes. -/
def SrcBlock.size (b : SrcBlock) : Nat := 32 + 64 * (b.chunks + 1)

/-- A mask with the bits that the instructions name. -/
def SrcBlock.mask (b : SrcBlock) (w : Nat) (name : Instr → Option Nat) : BitVec w :=
  b.foldl (fun m e => match name e.2 with | some n => m ||| (1 <<< n) | none => m) 0

/-- STMASK: the LSIDs of the block's stores and atomics (R7, R16). -/
def SrcBlock.stmask (b : SrcBlock) : BitVec 32 := b.mask 32 (fun i => if isStore i then lsidOf i else none)

/-- GWMASK: the registers of its `write` instructions. -/
def SrcBlock.gwmask (b : SrcBlock) : BitVec 64 :=
  b.mask 64 (fun i => match i with | .write _ r => some r.toNat | _ => none)

/-- VWMASK: the registers of its `vwrite` instructions. -/
def SrcBlock.vwmask (b : SrcBlock) : BitVec 32 :=
  b.mask 32 (fun i => match i with | .vwrite _ r => some r.toNat | _ => none)

/-- R15: the four doublewords of the header; SER and DBG are clear. -/
def SrcBlock.header (b : SrcBlock) : List Word :=
  [BitVec.ofNat 64 b.chunks ||| put 32 16 b.stmask, b.gwmask, b.vwmask.setWidth 64, 0]

/-- R7: word K holds nK, and the last chunk is padded with zeros. -/
def SrcBlock.words (b : SrcBlock) : List Word :=
  (List.range (8 * (b.chunks + 1))).map (fun k => (encode (b.at k)).getD 0)

/-- The doublewords of a block in memory. -/
def SrcBlock.dwords (b : SrcBlock) : List Word := b.header ++ b.words

/-- Doublewords as bytes (R5). -/
def wordBytes (ws : List Word) : List Byte := ws.flatMap (fun w => natLe 8 w.toNat)

/-- R7, R310: what a target of nK may not be. -/
def SrcBlock.targetErr (b : SrcBlock) (k : Nat) (t : Target) : Option ToolErr :=
  let check := fun (j : BitVec 7) (has : Instr → Bool) =>
    if j.toNat ≤ k then some ToolErr.order else if has (b.at j.toNat) then none else some ToolErr.slot
  match t with
  | .none => none
  | .l j => check j (fun i => (slotsOf i).l != .none || i == .xop)
  | .r j => check j (fun i => (slotsOf i).r != .none)
  | .p j => check j (fun i => predOf i != .always)

/-- R7, R309, R310: why a source block is rejected, if it is. -/
def SrcBlock.err (b : SrcBlock) : Option ToolErr :=
  let ids := b.filterMap (fun e => lsidOf e.2)
  if b.any (fun e => 127 < e.1) || !(b.map (·.1)).Nodup then some .index
  else if b.any (fun e => !e.2.wellFormed || e.2.isEvent) then some .illegal
  else if !ids.Nodup then some .lsid
  else if b.any (fun e => needsXop e.2 && b.at (e.1 + 1) != .xop) then some .xop
  else (b.flatMap (fun e => (targetsOf e.2).filterMap (b.targetErr e.1))).head?

/-- R42: the lowest exit number that no other branch of the block uses. -/
def freeExit (used : List Nat) : Option Nat := (List.range 8).find? (fun e => !used.contains e)

/-! ### The kernel header (R312, R317) -/

/-- The keys of `.khdr`; TVEC and XTAB are byte offsets from the header (R317). -/
structure Khdr where
  gregs : Nat
  vregs : Nat
  frames : Nat
  fibres : Nat
  groupW : Nat
  groupH : Nat
  core : Nat
  cmem : Nat
  regions : Nat
  power : Nat
  tvec : Int
  xtab : Int
  deriving DecidableEq, Repr

/-- The defaults of R312. -/
def Khdr.default : Khdr :=
  { gregs := 64, vregs := 32, frames := 1, fibres := 1, groupW := 1, groupH := 1, core := 1, cmem := 0, regions := 0
    power := 0, tvec := 0, xtab := 0 }

/-- A side of a group or a core width. -/
def isSide (n : Nat) : Bool := n == 1 || n == 2 || n == 4 || n == 8

/-- The limits of R312; TVEC is a multiple of 32 (R317). -/
def Khdr.ok (h : Khdr) : Bool :=
  h.gregs ≤ 64 && h.vregs ≤ 32 && 1 ≤ h.frames && h.frames ≤ 16 && 1 ≤ h.fibres && h.fibres ≤ 64
    && isSide h.groupW && isSide h.groupH && isSide h.core && h.groupW % h.core == 0
    && h.cmem ≤ 1048576 && h.regions ≤ 1 && h.power ≤ 4 && h.tvec % 32 == 0

/-- R317: the eight doublewords of a header. -/
def Khdr.words (h : Khdr) : List Word :=
  let n := BitVec.ofNat 64
  [ n (0x4C525250 + 2 ^ 32),
    n (h.gregs + 2 ^ 8 * h.vregs + 2 ^ 16 * (h.frames - 1) + 2 ^ 24 * (h.fibres - 1) + 2 ^ 32 * Nat.log2 h.groupW
      + 2 ^ 34 * Nat.log2 h.groupH + 2 ^ 36 * Nat.log2 h.core + 2 ^ 40 * h.regions + 2 ^ 41 * h.power),
    n h.cmem, BitVec.ofInt 64 h.tvec, BitVec.ofInt 64 h.xtab, 0, 0, 0 ]

/-! ### Relocations and veneers (R59, R313) -/

/-- The relocation types of R313. -/
inductive RelocTy where
  | none | abs64 | boff33 | xoff23 | lo28 | hi36 | hrel64
  deriving DecidableEq, Repr

/-- The number of a type. -/
def RelocTy.code : RelocTy → Nat
  | .none => 0
  | .abs64 => 1
  | .boff33 => 2
  | .xoff23 => 3
  | .lo28 => 4
  | .hi36 => 5
  | .hrel64 => 6

/-- A distance in units of 32 bytes that a field of `n` bits holds with its sign. -/
def offUnits (n : Nat) (d : Int) : Except ToolErr (BitVec n) :=
  if d % 32 ≠ 0 then .error .unaligned
  else if -(2 ^ (n - 1)) ≤ d / 32 ∧ d / 32 < 2 ^ (n - 1) then .ok (BitVec.ofInt n (d / 32)) else .error .reach

/-- R313: the word `w` of the field after a relocation: `v` is S + A, and `base` the block's address B or the
header's address H. -/
def RelocTy.apply (t : RelocTy) (v base : Int) (w : Word) : Except ToolErr Word :=
  match t with
  | .none => .ok w
  | .abs64 => .ok (BitVec.ofInt 64 v)
  | .boff33 => (offUnits 33 (v - base)).map (setFld w 18 33)
  | .xoff23 => (offUnits 23 (v - base)).map (setFld w 18 23)
  | .lo28 => .ok (setFld w 18 36 ((BitVec.ofInt 28 v).setWidth 36))
  | .hi36 => .ok (setFld w 18 36 (fld (BitVec.ofInt 64 v) 28 36))
  | .hrel64 => if (v - base) % 32 = 0 then .ok (BitVec.ofInt 64 (v - base)) else .error .unaligned

/-- R59: the block that builds an address in g58 and jumps there (its layout: log 58). -/
def veneer (a : Word) : SrcBlock :=
  [ (0, .genc .always ((fld a 0 28).setWidth 36) (.l 1) .none),
    (1, .genh .always (fld a 28 36) (.l 2) (.l 3)),
    (2, .write .always 58),
    (3, .bri .always 0) ]

/-- R59, R313: `br` or `call` in the block at `b` aimed at `dst`: directly, or through a veneer placed at `v` when
`dst` is out of reach. The second part tells whether the veneer is needed. -/
def linkBranch (b dst v : Int) (w : Word) : Except ToolErr (Word × Bool) :=
  match RelocTy.boff33.apply dst b w with
  | .error .reach => (RelocTy.boff33.apply v b w).map (·, true)
  | r => r.map (·, false)

/-! ### The ELF container (R314 to R316) -/

/-- e_type (R314). -/
inductive ElfType where
  | rel | exec | dyn
  deriving DecidableEq, Repr

/-- The header fields that R314 fixes. -/
structure ElfHeader where
  elf64 : Bool
  lsb : Bool
  machine : Nat
  flags : BitVec 32
  type : ElfType
  entry : Word
  deriving DecidableEq, Repr

/-- R314: the header that the assembler writes. -/
def ElfHeader.object : ElfHeader := { elf64 := true, lsb := true, machine := 0x5CA0, flags := 1, type := .rel, entry := 0 }

/-- R314: a header of the architecture; `kernels` are the header addresses of the kernels it holds. -/
def ElfHeader.ok (e : ElfHeader) (kernels : List Word) : Bool :=
  e.elf64 && e.lsb && e.machine == 0x5CA0 && fld e.flags 0 8 == 1 && fld e.flags 8 24 == 0
    && (e.entry == 0 || (e.type != .rel && kernels.contains e.entry))

/-- p_align of a loadable segment (R314). -/
def segmentAlign : Nat := 0x10000

/-- A section: its flags, its alignment where R315 states one, and whether it is loaded. -/
structure Section where
  name : String
  alloc : Bool
  write : Bool
  exec : Bool
  align : Option Nat
  deriving DecidableEq, Repr

/-- The sections of R315. -/
def sections : List Section :=
  [ { name := ".text", alloc := true, write := false, exec := true, align := some 64 },
    { name := ".rodata", alloc := true, write := false, exec := false, align := some 64 },
    { name := ".data", alloc := true, write := true, exec := false, align := some 64 },
    { name := ".bss", alloc := true, write := true, exec := false, align := some 64 },
    { name := ".eh_frame", alloc := true, write := false, exec := false, align := none },
    { name := ".eh_frame_hdr", alloc := true, write := false, exec := false, align := none },
    { name := ".except_table", alloc := true, write := false, exec := false, align := none },
    { name := ".symtab", alloc := false, write := false, exec := false, align := none },
    { name := ".strtab", alloc := false, write := false, exec := false, align := none },
    { name := ".rela.", alloc := false, write := false, exec := false, align := none } ]

/-- The registers that DWARF numbers name (R316). -/
inductive DwarfReg where
  | g (n : Nat) | v (n : Nat) | fcsr
  deriving DecidableEq, Repr

/-- R316. -/
def dwarfReg (n : Nat) : Option DwarfReg :=
  if n < 64 then some (.g n) else if n < 96 then some (.v (n - 64)) else if n = 96 then some .fcsr else none

/-- The return-address column (R316). -/
def dwarfReturn : Nat := 62

/-- R316: a frame description of the blocks from `first` to before `last`; it holds at block boundaries. -/
structure Fde where
  first : Word
  last : Word
  deriving DecidableEq, Repr

/-- The block address `a` is in the range. -/
def Fde.covers (d : Fde) (a : Word) : Bool := d.first ≤ a && a < d.last && fld a 0 5 == 0

/-! ### The calling convention (R65) -/

/-- What a general register is for. -/
inductive Role where
  | argument | temporary | saved | frame | fibreLocal | scratch | landing | link | stack
  deriving DecidableEq, Repr

/-- R65. -/
def gRole (n : Nat) : Role :=
  if n ≤ 7 then .argument
  else if n ≤ 31 then .temporary
  else if n ≤ 55 then .saved
  else if n = 56 then .frame
  else if n = 57 then .fibreLocal
  else if n ≤ 59 then .scratch
  else if n ≤ 61 then .landing
  else if n = 62 then .link
  else .stack

/-- A call leaves the register as it was. -/
def Role.preserved : Role → Bool
  | .saved | .frame | .fibreLocal | .stack => true
  | .argument | .temporary | .scratch | .landing | .link => false

/-- A call leaves the vector register and its tag as they were. -/
def vPreserved (n : Nat) : Bool := 16 ≤ n

/-- R65: what a fibre finds after a call that keeps the convention: RM and FTZ are as before, the flags may differ. -/
def Fibre.keepsConvention (before after : Fibre) : Bool :=
  (List.finRange 64).all (fun n => !(gRole n).preserved || before.g[n] == after.g[n])
    && (List.finRange 32).all (fun n => !vPreserved n || (before.v[n] == after.v[n] && before.vtag[n] == after.vtag[n]))
    && fld before.fcsr 5 3 == fld after.fcsr 5 3

/-- R65: the state at a call: the stack pointer is a multiple of 64. -/
def Fibre.callAligned (f : Fibre) : Bool := fld f.g[63] 0 6 == 0

/-- The kinds of argument; an aggregate has a size in bytes. -/
inductive ArgTy where
  | int | vec | aggregate (bytes : Nat)
  deriving DecidableEq, Repr

/-- Where an argument travels; a stack slot is named by its offset from g63. -/
inductive ArgPlace where
  | g (n : Nat) | gPair (n : Nat) | v (n : Nat) | stack (off bytes : Nat)
  deriving DecidableEq, Repr

/-- R65: one argument, with the registers `gs` to `gmax` - 1 and `vs` to 7 still free and `off` bytes of stack used; an
aggregate above 16 bytes travels by reference, and one that finds no two registers on the stack (log 58). -/
def placeArg (gmax : Nat) (a : ArgTy) (gs vs off : Nat) : ArgPlace × Nat × Nat × Nat :=
  let int := if gs < gmax then (ArgPlace.g gs, gs + 1, vs, off) else (.stack off 8, gs, vs, off + 8)
  match a with
  | .int => int
  | .vec => if vs < 8 then (.v vs, gs, vs + 1, off) else (.stack off 64, gs, vs, off + 64)
  | .aggregate n =>
    if 16 < n then int
    else if gs + 1 < gmax then (.gPair gs, gs + 2, vs, off)
    else (.stack off 16, gs, vs, off + 16)

/-- The arguments in order. -/
def placeArgsFrom (gmax : Nat) : List ArgTy → Nat → Nat → Nat → List ArgPlace
  | [], _, _, _ => []
  | a :: as, gs, vs, off =>
    let r := placeArg gmax a gs vs off
    r.1 :: placeArgsFrom gmax as r.2.1 r.2.2.1 r.2.2.2

/-- R65: where the arguments of a call travel; with a result in a buffer, g7 holds its address. -/
def placeArgs (buffer : Bool) (as : List ArgTy) : List ArgPlace := placeArgsFrom (if buffer then 7 else 8) as 0 0 0

/-! ### Unwinding (R66) -/

/-- R66: the general registers that the unwinder restores. -/
def unwound (n : Nat) : Bool := (32 ≤ n && n ≤ 56) || n == 63

/-- R66: a fibre enters a landing pad: g32 to g56, g63 and v16 to v31 hold the values of the frame that is unwound to, g60
and g61 the exception object and its selector. -/
def Fibre.land (f : Fibre) (gs : Nat → Word) (vs : Nat → Vec × BitVec 3) (object selector pad : Word) : Fibre :=
  { f with
    g := Vector.ofFn (fun n => if n.val = 60 then object else if n.val = 61 then selector
      else if unwound n then gs n else f.g[n])
    v := Vector.ofFn (fun n => if vPreserved n then (vs n).1 else f.v[n])
    vtag := Vector.ofFn (fun n => if vPreserved n then (vs n).2 else f.vtag[n])
    next := some pad }

end Sys2Proof.Machine
end

