-- ==== Sys2Proof/Laws/Binary.lean ====
section
/-! SUPPORT. What the toolchain's words mean to the machine: a kernel header that `.khdr` fills is one that the dispatcher
takes (R312, R317, R318), and a relocated offset leads to its symbol (R313). -/

namespace Sys2Proof.Machine

/-- A side is a power of two. -/
theorem isSide_log {n : Nat} (h : isSide n = true) : 2 ^ Nat.log2 n = n ∧ Nat.log2 n < 4 := by
  simp only [isSide, Bool.or_eq_true, beq_iff_eq] at h
  obtain ((rfl | rfl) | rfl) | rfl := h <;> decide

/-- The field of a number's word. -/
theorem nfld_ofNat (x lo n : Nat) : nfld (BitVec.ofNat 64 x) lo n = x % 2 ^ 64 / 2 ^ lo % 2 ^ n := by
  simp [nfld, BitVec.extractLsb'_toNat, Nat.shiftRight_eq_div_pow]

/-- One bit of a number's word. -/
theorem fld_one (x lo : Nat) : (fld (BitVec.ofNat 64 x) lo 1 == 1) = (x % 2 ^ 64 / 2 ^ lo % 2 == 1) := by
  have h := nfld_ofNat x lo 1
  rw [Bool.eq_iff_iff]
  simp only [beq_iff_eq, ← BitVec.toNat_inj]
  simp only [nfld] at h
  rw [h]; simp

/-- The low bits of a multiple of 32. -/
theorem nfld_ofInt_low (t : Int) (h : t % 32 = 0) : nfld (BitVec.ofInt 64 t) 0 5 = 0 := by
  simp only [nfld, BitVec.extractLsb'_toNat, BitVec.toNat_ofInt, Nat.shiftRight_zero]
  omega

/-- R312, R317, R318: the dispatcher takes a header that `.khdr` fills, and reads from it what the keys say. -/
theorem Khdr.header_ok (h : Khdr) (l : Launch) (ok : h.ok = true) (hl : l.hdr = h.words) :
    l.headerOk = true ∧ l.cmem = h.cmem ∧ l.core = h.core ∧ l.frames = h.frames * h.core
      ∧ l.power = h.power ∧ l.regions = (h.regions == 1) := by
  simp only [Khdr.ok, Bool.and_eq_true, decide_eq_true_eq, beq_iff_eq] at ok
  obtain ⟨⟨⟨⟨⟨⟨⟨⟨⟨⟨⟨⟨⟨h1, h2⟩, h3⟩, h4⟩, h5⟩, h6⟩, h7⟩, h8⟩, h9⟩, h10⟩, h11⟩, h12⟩, h13⟩, h14⟩ := ok
  obtain ⟨a1, a2⟩ := isSide_log h7
  obtain ⟨b1, b2⟩ := isSide_log h8
  obtain ⟨c1, c2⟩ := isSide_log h9
  have w0 : l.hdrWord 0 = BitVec.ofNat 64 (0x4C525250 + 2 ^ 32) := by simp [Launch.hdrWord, hl, Khdr.words]
  have w8 : l.hdrWord 8 = BitVec.ofNat 64 (h.gregs + 2 ^ 8 * h.vregs + 2 ^ 16 * (h.frames - 1) + 2 ^ 24 * (h.fibres - 1)
      + 2 ^ 32 * Nat.log2 h.groupW + 2 ^ 34 * Nat.log2 h.groupH + 2 ^ 36 * Nat.log2 h.core + 2 ^ 40 * h.regions
      + 2 ^ 41 * h.power) := by simp only [Launch.hdrWord, hl, Khdr.words]; rfl
  have w16 : l.hdrWord 16 = BitVec.ofNat 64 h.cmem := by simp [Launch.hdrWord, hl, Khdr.words]
  have w24 : l.hdrWord 24 = BitVec.ofInt 64 h.tvec := by simp [Launch.hdrWord, hl, Khdr.words]
  have w40 : l.hdrWord 40 = 0 := by simp [Launch.hdrWord, hl, Khdr.words]
  have w48 : l.hdrWord 48 = 0 := by simp [Launch.hdrWord, hl, Khdr.words]
  have w56 : l.hdrWord 56 = 0 := by simp [Launch.hdrWord, hl, Khdr.words]
  generalize Nat.log2 h.groupW = lw at *
  generalize Nat.log2 h.groupH = lh at *
  generalize e : Nat.log2 h.core = lc at *
  have hcore : l.core = h.core := by
    rw [Launch.core, w8, nfld_ofNat, ← c1]; congr 1; omega
  refine ⟨?_, ?_, hcore, ?_, ?_, ?_⟩
  · simp only [Launch.headerOk, w0, w8, w16, w24, w40, w48, w56, nfld_ofNat, nfld_ofInt_low _ h14, Bool.and_eq_true,
      decide_eq_true_eq, beq_iff_eq]
    refine ⟨⟨⟨⟨⟨⟨⟨⟨⟨⟨⟨⟨⟨⟨⟨⟨?_, ?_⟩, ?_⟩, ?_⟩, ?_⟩, ?_⟩, ?_⟩, ?_⟩, ?_⟩, ?_⟩, ?_⟩, ?_⟩, ?_⟩, trivial⟩, trivial⟩, trivial⟩, trivial⟩ <;> omega
  · rw [Launch.cmem, w16, nfld_ofNat]; omega
  · rw [Launch.frames, hcore, w8, nfld_ofNat]; congr 1; omega
  · rw [Launch.power, w8, nfld_ofNat]; omega
  · rw [Launch.regions, w8, fld_one]; congr 1; omega
/-- R313: a distance that fits its field is the field's value in units of 32 bytes. -/
theorem offUnits_ok {n : Nat} {d : Int} {x : BitVec n} (hn : 0 < n) (h : offUnits n d = .ok x) : 32 * x.toInt = d := by
  unfold offUnits at h
  split at h
  · cases h
  · split at h
    · rename_i h1 h2
      cases h
      have : (BitVec.ofInt n (d / 32)).toInt = d / 32 := by
        rw [BitVec.toInt_ofInt]
        have e : (2 : Int) ^ n = 2 * 2 ^ (n - 1) := by
          obtain ⟨k, rfl⟩ : ∃ k, n = k + 1 := ⟨n - 1, by omega⟩
          simp [pow_succ, mul_comm]
        apply Int.bmod_eq_of_le <;> push_cast <;> rw [e] <;> omega
      omega
    · cases h

end Sys2Proof.Machine
end

