-- ==== Sys2Proof/Laws/Dict.lean ====
section
/-! SUPPORT. Finite maps and memories: a read after a write, what a write leaves alone, and that every
operation keeps the canonical form. -/

namespace Sys2Proof

/-! ### Maps -/

@[simp] theorem Dict.get?_put_same {α : Type} (d : Dict α) (k : Nat) (v : α) :
    Dict.get? (Dict.put d k v) k = some v := by
  induction d with
  | nil => simp [Dict.put, Dict.get?]
  | cons e d ih =>
    obtain ⟨k', v'⟩ := e
    unfold Dict.put
    split
    · simp [Dict.get?]
    · split
      · simp [Dict.get?]
      · rename_i h
        simp [Dict.get?, h, ih]

theorem Dict.get?_put_other {α : Type} (d : Dict α) (k j : Nat) (v : α) (h : j ≠ k) :
    Dict.get? (Dict.put d k v) j = Dict.get? d j := by
  induction d with
  | nil => simp [Dict.put, Dict.get?, Ne.symm h]
  | cons e d ih =>
    obtain ⟨k', v'⟩ := e
    unfold Dict.put
    split
    · simp [Dict.get?, Ne.symm h]
    · split
      · rename_i h'
        subst h'
        simp [Dict.get?, Ne.symm h]
      · simp [Dict.get?, ih]

@[simp] theorem Dict.getD_put_same {α : Type} (d : Dict α) (k : Nat) (v z : α) :
    Dict.getD (Dict.put d k v) k z = v := by
  simp [Dict.getD]

theorem Dict.getD_put_other {α : Type} (d : Dict α) (k j : Nat) (v z : α) (h : j ≠ k) :
    Dict.getD (Dict.put d k v) j z = Dict.getD d j z := by
  simp [Dict.getD, Dict.get?_put_other d k j v h]

theorem Dict.get?_filter {α : Type} (d : Dict α) (p : Nat → Bool) (k : Nat) :
    Dict.get? (d.filter (fun e => p e.1)) k = if p k then Dict.get? d k else none := by
  induction d with
  | nil => simp [Dict.get?]
  | cons e d ih =>
    obtain ⟨k', v'⟩ := e
    simp only [List.filter_cons]
    by_cases hk : k' = k
    · subst hk
      by_cases hp : p k' = true
      · simp [hp, Dict.get?]
      · simp only [hp, Bool.false_eq_true, if_false]
        rw [ih]; simp [hp]
    · by_cases hp : p k' = true
      · simp only [hp, if_true, Dict.get?, hk, if_false]
        exact ih
      · simp only [hp, Bool.false_eq_true, if_false, Dict.get?, hk]
        exact ih

@[simp] theorem Dict.get?_erase_same {α : Type} (d : Dict α) (k : Nat) :
    Dict.get? (Dict.erase d k) k = none := by
  unfold Dict.erase
  rw [Dict.get?_filter d (fun j => j != k) k]; simp

theorem Dict.get?_erase_other {α : Type} (d : Dict α) (k j : Nat) (h : j ≠ k) :
    Dict.get? (Dict.erase d k) j = Dict.get? d j := by
  unfold Dict.erase
  rw [Dict.get?_filter d (fun j => j != k) j]; simp [h]

/-! ### Rising keys -/

/-- Rising keys, as the library's sorted lists say it. -/
theorem Dict.rising_iff {α : Type} (d : Dict α) :
    Dict.rising d = true ↔ d.Pairwise (fun a b => a.1 < b.1) := by
  induction d with
  | nil => simp [Dict.rising]
  | cons e d ih =>
    obtain ⟨k, v⟩ := e
    cases d with
    | nil => simp [Dict.rising]
    | cons e' d =>
      obtain ⟨k', v'⟩ := e'
      simp only [Dict.rising, Bool.and_eq_true, decide_eq_true_eq, ih, List.pairwise_cons]
      constructor
      · rintro ⟨h, h1, h2⟩
        refine ⟨?_, h1, h2⟩
        intro b hb
        rcases List.mem_cons.mp hb with hb | hb
        · subst hb; exact h
        · exact Nat.lt_trans h (h1 b hb)
      · rintro ⟨h, h1, h2⟩
        exact ⟨h _ (List.mem_cons_self ..), h1, h2⟩

theorem Dict.mem_put {α : Type} (d : Dict α) (k : Nat) (v : α) (e : Nat × α) (h : e ∈ Dict.put d k v) :
    e = (k, v) ∨ e ∈ d := by
  induction d with
  | nil => simpa [Dict.put] using h
  | cons e' d ih =>
    obtain ⟨k', v'⟩ := e'
    unfold Dict.put at h
    split at h
    · rcases List.mem_cons.mp h with h | h
      · exact .inl h
      · exact .inr h
    · split at h
      · rcases List.mem_cons.mp h with h | h
        · exact .inl h
        · exact .inr (List.mem_cons_of_mem _ h)
      · rcases List.mem_cons.mp h with h | h
        · exact .inr (h ▸ List.mem_cons_self ..)
        · rcases ih h with h | h
          · exact .inl h
          · exact .inr (List.mem_cons_of_mem _ h)

/-- A write keeps the keys rising. -/
theorem Dict.rising_put {α : Type} (d : Dict α) (k : Nat) (v : α) (h : Dict.rising d = true) :
    Dict.rising (Dict.put d k v) = true := by
  rw [Dict.rising_iff] at *
  induction d with
  | nil => simp [Dict.put]
  | cons e d ih =>
    obtain ⟨k', v'⟩ := e
    obtain ⟨h1, h2⟩ := List.pairwise_cons.mp h
    unfold Dict.put
    split
    · rename_i hk
      refine List.pairwise_cons.mpr ⟨?_, h⟩
      intro b hb
      rcases List.mem_cons.mp hb with hb | hb
      · subst hb; exact hk
      · exact Nat.lt_trans hk (h1 b hb)
    · split
      · rename_i hk
        subst hk
        exact List.pairwise_cons.mpr ⟨h1, h2⟩
      · rename_i hk hk'
        refine List.pairwise_cons.mpr ⟨?_, ih h2⟩
        intro b hb
        rcases Dict.mem_put d k v b hb with hb | hb
        · subst hb; show k' < k; omega
        · exact h1 b hb

theorem Dict.rising_filter {α : Type} (d : Dict α) (p : Nat × α → Bool) (h : Dict.rising d = true) :
    Dict.rising (d.filter p) = true := by
  rw [Dict.rising_iff] at *
  exact h.sublist (List.filter_sublist ..)

/-! ### Memories -/

/-- What a byte reads after a write of one byte. -/
theorem Mem.byte_setByte (m : Mem) (a b : Nat) (v : Byte) :
    Mem.byte (Mem.setByte m a v) b = if b = a then v else Mem.byte m b := by
  unfold Mem.byte Mem.setByte Dict.getD
  by_cases hv : v = 0
  · by_cases hb : b = a
    · simp [hv, hb]
    · simp [hv, hb, Dict.get?_erase_other m a b hb]
  · rw [if_neg hv]
    by_cases hb : b = a
    · simp [hb]
    · simp [hb, Dict.get?_put_other m a b v hb]

/-- What a byte reads after a write of several. -/
theorem Mem.byte_setBytes (m : Mem) (a b : Nat) (bs : List Byte) :
    Mem.byte (Mem.setBytes m a bs) b =
      if a ≤ b ∧ b < a + bs.length then bs.getD (b - a) 0 else Mem.byte m b := by
  induction bs generalizing m a with
  | nil => simp [Mem.setBytes]
  | cons v bs ih =>
    rw [Mem.setBytes, ih]
    simp only [List.length_cons]
    by_cases h1 : a + 1 ≤ b ∧ b < a + 1 + bs.length
    · have h2 : a ≤ b ∧ b < a + (bs.length + 1) := by omega
      have h3 : b - a = (b - (a + 1)) + 1 := by omega
      simp only [h1, h2, and_self, if_true]
      rw [h3, List.getD_cons_succ]
    · rw [if_neg h1, Mem.byte_setByte]
      by_cases h4 : b = a
      · subst h4
        have h5 : b ≤ b ∧ b < b + (bs.length + 1) := by omega
        simp
      · have h5 : ¬ (a ≤ b ∧ b < a + (bs.length + 1)) := by omega
        rw [if_neg h4, if_neg h5]

/-- A write leaves every byte outside it as it was. -/
theorem Mem.byte_setBytes_outside (m : Mem) (a b : Nat) (bs : List Byte) (h : b < a ∨ a + bs.length ≤ b) :
    Mem.byte (Mem.setBytes m a bs) b = Mem.byte m b := by
  rw [Mem.byte_setBytes, if_neg]; omega

theorem Mem.byte_clear (m : Mem) (a n b : Nat) :
    Mem.byte (Mem.clear m a n) b = if a ≤ b ∧ b < a + n then 0 else Mem.byte m b := by
  have h := Dict.get?_filter m (fun k => k < a || a + n ≤ k) b
  unfold Mem.byte Mem.clear Dict.getD
  rw [h]
  by_cases hb : a ≤ b ∧ b < a + n
  · have : ¬ (b < a ∨ a + n ≤ b) := by omega
    simp [this, hb]
  · have : b < a ∨ a + n ≤ b := by omega
    simp [this, hb]

theorem Mem.wf_iff (m : Mem) : Mem.wf m = true ↔ Dict.rising m = true ∧ ∀ e ∈ m, e.2 ≠ 0 := by
  simp [Mem.wf]

theorem Mem.wf_filter (m : Mem) (p : Nat × Byte → Bool) (h : Mem.wf m = true) : Mem.wf (m.filter p) = true := by
  rw [Mem.wf_iff] at *
  exact ⟨Dict.rising_filter m p h.1, fun e he => h.2 e (List.mem_of_mem_filter he)⟩

/-- A write of one byte keeps the canonical form. -/
theorem Mem.wf_setByte (m : Mem) (a : Nat) (v : Byte) (h : Mem.wf m = true) :
    Mem.wf (Mem.setByte m a v) = true := by
  unfold Mem.setByte
  split
  · exact Mem.wf_filter m _ h
  · rename_i hv
    rw [Mem.wf_iff] at *
    refine ⟨Dict.rising_put m a v h.1, ?_⟩
    intro e he
    rcases Dict.mem_put m a v e he with he | he
    · subst he; exact hv
    · exact h.2 e he

/-- A write of several bytes keeps the canonical form. -/
theorem Mem.wf_setBytes (m : Mem) (a : Nat) (bs : List Byte) (h : Mem.wf m = true) :
    Mem.wf (Mem.setBytes m a bs) = true := by
  induction bs generalizing m a with
  | nil => exact h
  | cons v bs ih => exact ih _ _ (Mem.wf_setByte m a v h)

/-- Clearing a range keeps the canonical form. -/
theorem Mem.wf_clear (m : Mem) (a n : Nat) (h : Mem.wf m = true) : Mem.wf (Mem.clear m a n) = true :=
  Mem.wf_filter m _ h

end Sys2Proof
end

