-- ==== Sys2Proof/Laws/State.lean ====
section
/-! SUPPORT. One lemma for each field and each named update of the state, a fibre and a frame: what the
update leaves as it was, and what it writes. -/

namespace Sys2Proof.Machine

/-! ### `State.setFibre` -/

@[simp] theorem State.setFibre_time (s : State) (n : Nat) (x : Fibre) : (s.setFibre n x).time = s.time := rfl
@[simp] theorem State.setFibre_tick (s : State) (n : Nat) (x : Fibre) : (s.setFibre n x).tick = s.tick := rfl
@[simp] theorem State.setFibre_cur (s : State) (n : Nat) (x : Fibre) : (s.setFibre n x).cur = s.cur := rfl
@[simp] theorem State.setFibre_turn (s : State) (n : Nat) (x : Fibre) : (s.setFibre n x).turn = s.turn := rfl
@[simp] theorem State.setFibre_steps (s : State) (n : Nat) (x : Fibre) : (s.setFibre n x).steps = s.steps := rfl
@[simp] theorem State.setFibre_round (s : State) (n : Nat) (x : Fibre) : (s.setFibre n x).round = s.round := rfl
@[simp] theorem State.setFibre_inputs (s : State) (n : Nat) (x : Fibre) : (s.setFibre n x).inputs = s.inputs := rfl
@[simp] theorem State.setFibre_out (s : State) (n : Nat) (x : Fibre) : (s.setFibre n x).out = s.out := rfl
@[simp] theorem State.setFibre_mem (s : State) (n : Nat) (x : Fibre) : (s.setFibre n x).mem = s.mem := rfl
@[simp] theorem State.setFibre_lineKey (s : State) (n : Nat) (x : Fibre) : (s.setFibre n x).lineKey = s.lineKey := rfl
@[simp] theorem State.setFibre_badLines (s : State) (n : Nat) (x : Fibre) : (s.setFibre n x).badLines = s.badLines := rfl
@[simp] theorem State.setFibre_llc (s : State) (n : Nat) (x : Fibre) : (s.setFibre n x).llc = s.llc := rfl
@[simp] theorem State.setFibre_cmem (s : State) (n : Nat) (x : Fibre) : (s.setFibre n x).cmem = s.cmem := rfl
@[simp] theorem State.setFibre_gtag (s : State) (n : Nat) (x : Fibre) : (s.setFibre n x).gtag = s.gtag := rfl
@[simp] theorem State.setFibre_badChunks (s : State) (n : Nat) (x : Fibre) : (s.setFibre n x).badChunks = s.badChunks := rfl
@[simp] theorem State.setFibre_sharers (s : State) (n : Nat) (x : Fibre) : (s.setFibre n x).sharers = s.sharers := rfl
@[simp] theorem State.setFibre_homeQ (s : State) (n : Nat) (x : Fibre) : (s.setFibre n x).homeQ = s.homeQ := rfl
@[simp] theorem State.setFibre_hdm (s : State) (n : Nat) (x : Fibre) : (s.setFibre n x).hdm = s.hdm := rfl
@[simp] theorem State.setFibre_hdmRanges (s : State) (n : Nat) (x : Fibre) : (s.setFibre n x).hdmRanges = s.hdmRanges := rfl
@[simp] theorem State.setFibre_snoops (s : State) (n : Nat) (x : Fibre) : (s.setFibre n x).snoops = s.snoops := rfl
@[simp] theorem State.setFibre_halves (s : State) (n : Nat) (x : Fibre) : (s.setFibre n x).halves = s.halves := rfl
@[simp] theorem State.setFibre_tlb2 (s : State) (n : Nat) (x : Fibre) : (s.setFibre n x).tlb2 = s.tlb2 := rfl
@[simp] theorem State.setFibre_cells (s : State) (n : Nat) (x : Fibre) : (s.setFibre n x).cells = s.cells := rfl
@[simp] theorem State.setFibre_fibres (s : State) (n : Nat) (x : Fibre) : (s.setFibre n x).fibres = Dict.put s.fibres n x := rfl
@[simp] theorem State.setFibre_nextFid (s : State) (n : Nat) (x : Fibre) : (s.setFibre n x).nextFid = s.nextFid := rfl
@[simp] theorem State.setFibre_accesses (s : State) (n : Nat) (x : Fibre) : (s.setFibre n x).accesses = s.accesses := rfl
@[simp] theorem State.setFibre_nextId (s : State) (n : Nat) (x : Fibre) : (s.setFibre n x).nextId = s.nextId := rfl
@[simp] theorem State.setFibre_groups (s : State) (n : Nat) (x : Fibre) : (s.setFibre n x).groups = s.groups := rfl
@[simp] theorem State.setFibre_nextGid (s : State) (n : Nat) (x : Fibre) : (s.setFibre n x).nextGid = s.nextGid := rfl
@[simp] theorem State.setFibre_launches (s : State) (n : Nat) (x : Fibre) : (s.setFibre n x).launches = s.launches := rfl
@[simp] theorem State.setFibre_expect (s : State) (n : Nat) (x : Fibre) : (s.setFibre n x).expect = s.expect := rfl
@[simp] theorem State.setFibre_taking (s : State) (n : Nat) (x : Fibre) : (s.setFibre n x).taking = s.taking := rfl
@[simp] theorem State.setFibre_changes (s : State) (n : Nat) (x : Fibre) : (s.setFibre n x).changes = s.changes := rfl
@[simp] theorem State.setFibre_cancelling (s : State) (n : Nat) (x : Fibre) : (s.setFibre n x).cancelling = s.cancelling := rfl
@[simp] theorem State.setFibre_events (s : State) (n : Nat) (x : Fibre) : (s.setFibre n x).events = s.events := rfl
@[simp] theorem State.setFibre_queues (s : State) (n : Nat) (x : Fibre) : (s.setFibre n x).queues = s.queues := rfl
@[simp] theorem State.setFibre_virga (s : State) (n : Nat) (x : Fibre) : (s.setFibre n x).virga = s.virga := rfl
@[simp] theorem State.setFibre_dies (s : State) (n : Nat) (x : Fibre) : (s.setFibre n x).dies = s.dies := rfl
@[simp] theorem State.setFibre_credits (s : State) (n : Nat) (x : Fibre) : (s.setFibre n x).credits = s.credits := rfl
@[simp] theorem State.setFibre_ctl (s : State) (n : Nat) (x : Fibre) : (s.setFibre n x).ctl = s.ctl := rfl
@[simp] theorem State.setFibre_keys (s : State) (n : Nat) (x : Fibre) : (s.setFibre n x).keys = s.keys := rfl
@[simp] theorem State.setFibre_ideKeys (s : State) (n : Nat) (x : Fibre) : (s.setFibre n x).ideKeys = s.ideKeys := rfl
@[simp] theorem State.setFibre_sessions (s : State) (n : Nat) (x : Fibre) : (s.setFibre n x).sessions = s.sessions := rfl
@[simp] theorem State.setFibre_flashGood (s : State) (n : Nat) (x : Fibre) : (s.setFibre n x).flashGood = s.flashGood := rfl
@[simp] theorem State.setFibre_imageVer (s : State) (n : Nat) (x : Fibre) : (s.setFibre n x).imageVer = s.imageVer := rfl
@[simp] theorem State.setFibre_image (s : State) (n : Nat) (x : Fibre) : (s.setFibre n x).image = s.image := rfl
@[simp] theorem State.setFibre_runImage (s : State) (n : Nat) (x : Fibre) : (s.setFibre n x).runImage = s.runImage := rfl
@[simp] theorem State.setFibre_recovery (s : State) (n : Nat) (x : Fibre) : (s.setFibre n x).recovery = s.recovery := rfl
@[simp] theorem State.setFibre_partners (s : State) (n : Nat) (x : Fibre) : (s.setFibre n x).partners = s.partners := rfl
@[simp] theorem State.setFibre_ports (s : State) (n : Nat) (x : Fibre) : (s.setFibre n x).ports = s.ports := rfl
@[simp] theorem State.setFibre_untrained (s : State) (n : Nat) (x : Fibre) : (s.setFibre n x).untrained = s.untrained := rfl
@[simp] theorem State.setFibre_fusedMin (s : State) (n : Nat) (x : Fibre) : (s.setFibre n x).fusedMin = s.fusedMin := rfl
@[simp] theorem State.setFibre_flashCfg (s : State) (n : Nat) (x : Fibre) : (s.setFibre n x).flashCfg = s.flashCfg := rfl
@[simp] theorem State.setFibre_startedAt (s : State) (n : Nat) (x : Fibre) : (s.setFibre n x).startedAt = s.startedAt := rfl
@[simp] theorem State.setFibre_leaseAt (s : State) (n : Nat) (x : Fibre) : (s.setFibre n x).leaseAt = s.leaseAt := rfl
@[simp] theorem State.setFibre_closed (s : State) (n : Nat) (x : Fibre) : (s.setFibre n x).closed = s.closed := rfl

/-! ### `State.setCell` -/

@[simp] theorem State.setCell_time (s : State) (n : Nat) (x : CellSt) : (s.setCell n x).time = s.time := rfl
@[simp] theorem State.setCell_tick (s : State) (n : Nat) (x : CellSt) : (s.setCell n x).tick = s.tick := rfl
@[simp] theorem State.setCell_cur (s : State) (n : Nat) (x : CellSt) : (s.setCell n x).cur = s.cur := rfl
@[simp] theorem State.setCell_turn (s : State) (n : Nat) (x : CellSt) : (s.setCell n x).turn = s.turn := rfl
@[simp] theorem State.setCell_steps (s : State) (n : Nat) (x : CellSt) : (s.setCell n x).steps = s.steps := rfl
@[simp] theorem State.setCell_round (s : State) (n : Nat) (x : CellSt) : (s.setCell n x).round = s.round := rfl
@[simp] theorem State.setCell_inputs (s : State) (n : Nat) (x : CellSt) : (s.setCell n x).inputs = s.inputs := rfl
@[simp] theorem State.setCell_out (s : State) (n : Nat) (x : CellSt) : (s.setCell n x).out = s.out := rfl
@[simp] theorem State.setCell_mem (s : State) (n : Nat) (x : CellSt) : (s.setCell n x).mem = s.mem := rfl
@[simp] theorem State.setCell_lineKey (s : State) (n : Nat) (x : CellSt) : (s.setCell n x).lineKey = s.lineKey := rfl
@[simp] theorem State.setCell_badLines (s : State) (n : Nat) (x : CellSt) : (s.setCell n x).badLines = s.badLines := rfl
@[simp] theorem State.setCell_llc (s : State) (n : Nat) (x : CellSt) : (s.setCell n x).llc = s.llc := rfl
@[simp] theorem State.setCell_cmem (s : State) (n : Nat) (x : CellSt) : (s.setCell n x).cmem = s.cmem := rfl
@[simp] theorem State.setCell_gtag (s : State) (n : Nat) (x : CellSt) : (s.setCell n x).gtag = s.gtag := rfl
@[simp] theorem State.setCell_badChunks (s : State) (n : Nat) (x : CellSt) : (s.setCell n x).badChunks = s.badChunks := rfl
@[simp] theorem State.setCell_sharers (s : State) (n : Nat) (x : CellSt) : (s.setCell n x).sharers = s.sharers := rfl
@[simp] theorem State.setCell_homeQ (s : State) (n : Nat) (x : CellSt) : (s.setCell n x).homeQ = s.homeQ := rfl
@[simp] theorem State.setCell_hdm (s : State) (n : Nat) (x : CellSt) : (s.setCell n x).hdm = s.hdm := rfl
@[simp] theorem State.setCell_hdmRanges (s : State) (n : Nat) (x : CellSt) : (s.setCell n x).hdmRanges = s.hdmRanges := rfl
@[simp] theorem State.setCell_snoops (s : State) (n : Nat) (x : CellSt) : (s.setCell n x).snoops = s.snoops := rfl
@[simp] theorem State.setCell_halves (s : State) (n : Nat) (x : CellSt) : (s.setCell n x).halves = s.halves := rfl
@[simp] theorem State.setCell_tlb2 (s : State) (n : Nat) (x : CellSt) : (s.setCell n x).tlb2 = s.tlb2 := rfl
@[simp] theorem State.setCell_cells (s : State) (n : Nat) (x : CellSt) : (s.setCell n x).cells = Dict.put s.cells n x := rfl
@[simp] theorem State.setCell_fibres (s : State) (n : Nat) (x : CellSt) : (s.setCell n x).fibres = s.fibres := rfl
@[simp] theorem State.setCell_nextFid (s : State) (n : Nat) (x : CellSt) : (s.setCell n x).nextFid = s.nextFid := rfl
@[simp] theorem State.setCell_accesses (s : State) (n : Nat) (x : CellSt) : (s.setCell n x).accesses = s.accesses := rfl
@[simp] theorem State.setCell_nextId (s : State) (n : Nat) (x : CellSt) : (s.setCell n x).nextId = s.nextId := rfl
@[simp] theorem State.setCell_groups (s : State) (n : Nat) (x : CellSt) : (s.setCell n x).groups = s.groups := rfl
@[simp] theorem State.setCell_nextGid (s : State) (n : Nat) (x : CellSt) : (s.setCell n x).nextGid = s.nextGid := rfl
@[simp] theorem State.setCell_launches (s : State) (n : Nat) (x : CellSt) : (s.setCell n x).launches = s.launches := rfl
@[simp] theorem State.setCell_expect (s : State) (n : Nat) (x : CellSt) : (s.setCell n x).expect = s.expect := rfl
@[simp] theorem State.setCell_taking (s : State) (n : Nat) (x : CellSt) : (s.setCell n x).taking = s.taking := rfl
@[simp] theorem State.setCell_changes (s : State) (n : Nat) (x : CellSt) : (s.setCell n x).changes = s.changes := rfl
@[simp] theorem State.setCell_cancelling (s : State) (n : Nat) (x : CellSt) : (s.setCell n x).cancelling = s.cancelling := rfl
@[simp] theorem State.setCell_events (s : State) (n : Nat) (x : CellSt) : (s.setCell n x).events = s.events := rfl
@[simp] theorem State.setCell_queues (s : State) (n : Nat) (x : CellSt) : (s.setCell n x).queues = s.queues := rfl
@[simp] theorem State.setCell_virga (s : State) (n : Nat) (x : CellSt) : (s.setCell n x).virga = s.virga := rfl
@[simp] theorem State.setCell_dies (s : State) (n : Nat) (x : CellSt) : (s.setCell n x).dies = s.dies := rfl
@[simp] theorem State.setCell_credits (s : State) (n : Nat) (x : CellSt) : (s.setCell n x).credits = s.credits := rfl
@[simp] theorem State.setCell_ctl (s : State) (n : Nat) (x : CellSt) : (s.setCell n x).ctl = s.ctl := rfl
@[simp] theorem State.setCell_keys (s : State) (n : Nat) (x : CellSt) : (s.setCell n x).keys = s.keys := rfl
@[simp] theorem State.setCell_ideKeys (s : State) (n : Nat) (x : CellSt) : (s.setCell n x).ideKeys = s.ideKeys := rfl
@[simp] theorem State.setCell_sessions (s : State) (n : Nat) (x : CellSt) : (s.setCell n x).sessions = s.sessions := rfl
@[simp] theorem State.setCell_flashGood (s : State) (n : Nat) (x : CellSt) : (s.setCell n x).flashGood = s.flashGood := rfl
@[simp] theorem State.setCell_imageVer (s : State) (n : Nat) (x : CellSt) : (s.setCell n x).imageVer = s.imageVer := rfl
@[simp] theorem State.setCell_image (s : State) (n : Nat) (x : CellSt) : (s.setCell n x).image = s.image := rfl
@[simp] theorem State.setCell_runImage (s : State) (n : Nat) (x : CellSt) : (s.setCell n x).runImage = s.runImage := rfl
@[simp] theorem State.setCell_recovery (s : State) (n : Nat) (x : CellSt) : (s.setCell n x).recovery = s.recovery := rfl
@[simp] theorem State.setCell_partners (s : State) (n : Nat) (x : CellSt) : (s.setCell n x).partners = s.partners := rfl
@[simp] theorem State.setCell_ports (s : State) (n : Nat) (x : CellSt) : (s.setCell n x).ports = s.ports := rfl
@[simp] theorem State.setCell_untrained (s : State) (n : Nat) (x : CellSt) : (s.setCell n x).untrained = s.untrained := rfl
@[simp] theorem State.setCell_fusedMin (s : State) (n : Nat) (x : CellSt) : (s.setCell n x).fusedMin = s.fusedMin := rfl
@[simp] theorem State.setCell_flashCfg (s : State) (n : Nat) (x : CellSt) : (s.setCell n x).flashCfg = s.flashCfg := rfl
@[simp] theorem State.setCell_startedAt (s : State) (n : Nat) (x : CellSt) : (s.setCell n x).startedAt = s.startedAt := rfl
@[simp] theorem State.setCell_leaseAt (s : State) (n : Nat) (x : CellSt) : (s.setCell n x).leaseAt = s.leaseAt := rfl
@[simp] theorem State.setCell_closed (s : State) (n : Nat) (x : CellSt) : (s.setCell n x).closed = s.closed := rfl

/-! ### `State.setGroup` -/

@[simp] theorem State.setGroup_time (s : State) (n : Nat) (x : Group) : (s.setGroup n x).time = s.time := rfl
@[simp] theorem State.setGroup_tick (s : State) (n : Nat) (x : Group) : (s.setGroup n x).tick = s.tick := rfl
@[simp] theorem State.setGroup_cur (s : State) (n : Nat) (x : Group) : (s.setGroup n x).cur = s.cur := rfl
@[simp] theorem State.setGroup_turn (s : State) (n : Nat) (x : Group) : (s.setGroup n x).turn = s.turn := rfl
@[simp] theorem State.setGroup_steps (s : State) (n : Nat) (x : Group) : (s.setGroup n x).steps = s.steps := rfl
@[simp] theorem State.setGroup_round (s : State) (n : Nat) (x : Group) : (s.setGroup n x).round = s.round := rfl
@[simp] theorem State.setGroup_inputs (s : State) (n : Nat) (x : Group) : (s.setGroup n x).inputs = s.inputs := rfl
@[simp] theorem State.setGroup_out (s : State) (n : Nat) (x : Group) : (s.setGroup n x).out = s.out := rfl
@[simp] theorem State.setGroup_mem (s : State) (n : Nat) (x : Group) : (s.setGroup n x).mem = s.mem := rfl
@[simp] theorem State.setGroup_lineKey (s : State) (n : Nat) (x : Group) : (s.setGroup n x).lineKey = s.lineKey := rfl
@[simp] theorem State.setGroup_badLines (s : State) (n : Nat) (x : Group) : (s.setGroup n x).badLines = s.badLines := rfl
@[simp] theorem State.setGroup_llc (s : State) (n : Nat) (x : Group) : (s.setGroup n x).llc = s.llc := rfl
@[simp] theorem State.setGroup_cmem (s : State) (n : Nat) (x : Group) : (s.setGroup n x).cmem = s.cmem := rfl
@[simp] theorem State.setGroup_gtag (s : State) (n : Nat) (x : Group) : (s.setGroup n x).gtag = s.gtag := rfl
@[simp] theorem State.setGroup_badChunks (s : State) (n : Nat) (x : Group) : (s.setGroup n x).badChunks = s.badChunks := rfl
@[simp] theorem State.setGroup_sharers (s : State) (n : Nat) (x : Group) : (s.setGroup n x).sharers = s.sharers := rfl
@[simp] theorem State.setGroup_homeQ (s : State) (n : Nat) (x : Group) : (s.setGroup n x).homeQ = s.homeQ := rfl
@[simp] theorem State.setGroup_hdm (s : State) (n : Nat) (x : Group) : (s.setGroup n x).hdm = s.hdm := rfl
@[simp] theorem State.setGroup_hdmRanges (s : State) (n : Nat) (x : Group) : (s.setGroup n x).hdmRanges = s.hdmRanges := rfl
@[simp] theorem State.setGroup_snoops (s : State) (n : Nat) (x : Group) : (s.setGroup n x).snoops = s.snoops := rfl
@[simp] theorem State.setGroup_halves (s : State) (n : Nat) (x : Group) : (s.setGroup n x).halves = s.halves := rfl
@[simp] theorem State.setGroup_tlb2 (s : State) (n : Nat) (x : Group) : (s.setGroup n x).tlb2 = s.tlb2 := rfl
@[simp] theorem State.setGroup_cells (s : State) (n : Nat) (x : Group) : (s.setGroup n x).cells = s.cells := rfl
@[simp] theorem State.setGroup_fibres (s : State) (n : Nat) (x : Group) : (s.setGroup n x).fibres = s.fibres := rfl
@[simp] theorem State.setGroup_nextFid (s : State) (n : Nat) (x : Group) : (s.setGroup n x).nextFid = s.nextFid := rfl
@[simp] theorem State.setGroup_accesses (s : State) (n : Nat) (x : Group) : (s.setGroup n x).accesses = s.accesses := rfl
@[simp] theorem State.setGroup_nextId (s : State) (n : Nat) (x : Group) : (s.setGroup n x).nextId = s.nextId := rfl
@[simp] theorem State.setGroup_groups (s : State) (n : Nat) (x : Group) : (s.setGroup n x).groups = Dict.put s.groups n x := rfl
@[simp] theorem State.setGroup_nextGid (s : State) (n : Nat) (x : Group) : (s.setGroup n x).nextGid = s.nextGid := rfl
@[simp] theorem State.setGroup_launches (s : State) (n : Nat) (x : Group) : (s.setGroup n x).launches = s.launches := rfl
@[simp] theorem State.setGroup_expect (s : State) (n : Nat) (x : Group) : (s.setGroup n x).expect = s.expect := rfl
@[simp] theorem State.setGroup_taking (s : State) (n : Nat) (x : Group) : (s.setGroup n x).taking = s.taking := rfl
@[simp] theorem State.setGroup_changes (s : State) (n : Nat) (x : Group) : (s.setGroup n x).changes = s.changes := rfl
@[simp] theorem State.setGroup_cancelling (s : State) (n : Nat) (x : Group) : (s.setGroup n x).cancelling = s.cancelling := rfl
@[simp] theorem State.setGroup_events (s : State) (n : Nat) (x : Group) : (s.setGroup n x).events = s.events := rfl
@[simp] theorem State.setGroup_queues (s : State) (n : Nat) (x : Group) : (s.setGroup n x).queues = s.queues := rfl
@[simp] theorem State.setGroup_virga (s : State) (n : Nat) (x : Group) : (s.setGroup n x).virga = s.virga := rfl
@[simp] theorem State.setGroup_dies (s : State) (n : Nat) (x : Group) : (s.setGroup n x).dies = s.dies := rfl
@[simp] theorem State.setGroup_credits (s : State) (n : Nat) (x : Group) : (s.setGroup n x).credits = s.credits := rfl
@[simp] theorem State.setGroup_ctl (s : State) (n : Nat) (x : Group) : (s.setGroup n x).ctl = s.ctl := rfl
@[simp] theorem State.setGroup_keys (s : State) (n : Nat) (x : Group) : (s.setGroup n x).keys = s.keys := rfl
@[simp] theorem State.setGroup_ideKeys (s : State) (n : Nat) (x : Group) : (s.setGroup n x).ideKeys = s.ideKeys := rfl
@[simp] theorem State.setGroup_sessions (s : State) (n : Nat) (x : Group) : (s.setGroup n x).sessions = s.sessions := rfl
@[simp] theorem State.setGroup_flashGood (s : State) (n : Nat) (x : Group) : (s.setGroup n x).flashGood = s.flashGood := rfl
@[simp] theorem State.setGroup_imageVer (s : State) (n : Nat) (x : Group) : (s.setGroup n x).imageVer = s.imageVer := rfl
@[simp] theorem State.setGroup_image (s : State) (n : Nat) (x : Group) : (s.setGroup n x).image = s.image := rfl
@[simp] theorem State.setGroup_runImage (s : State) (n : Nat) (x : Group) : (s.setGroup n x).runImage = s.runImage := rfl
@[simp] theorem State.setGroup_recovery (s : State) (n : Nat) (x : Group) : (s.setGroup n x).recovery = s.recovery := rfl
@[simp] theorem State.setGroup_partners (s : State) (n : Nat) (x : Group) : (s.setGroup n x).partners = s.partners := rfl
@[simp] theorem State.setGroup_ports (s : State) (n : Nat) (x : Group) : (s.setGroup n x).ports = s.ports := rfl
@[simp] theorem State.setGroup_untrained (s : State) (n : Nat) (x : Group) : (s.setGroup n x).untrained = s.untrained := rfl
@[simp] theorem State.setGroup_fusedMin (s : State) (n : Nat) (x : Group) : (s.setGroup n x).fusedMin = s.fusedMin := rfl
@[simp] theorem State.setGroup_flashCfg (s : State) (n : Nat) (x : Group) : (s.setGroup n x).flashCfg = s.flashCfg := rfl
@[simp] theorem State.setGroup_startedAt (s : State) (n : Nat) (x : Group) : (s.setGroup n x).startedAt = s.startedAt := rfl
@[simp] theorem State.setGroup_leaseAt (s : State) (n : Nat) (x : Group) : (s.setGroup n x).leaseAt = s.leaseAt := rfl
@[simp] theorem State.setGroup_closed (s : State) (n : Nat) (x : Group) : (s.setGroup n x).closed = s.closed := rfl

/-! ### `State.setAccess` -/

@[simp] theorem State.setAccess_time (s : State) (n : Nat) (x : Access) : (s.setAccess n x).time = s.time := rfl
@[simp] theorem State.setAccess_tick (s : State) (n : Nat) (x : Access) : (s.setAccess n x).tick = s.tick := rfl
@[simp] theorem State.setAccess_cur (s : State) (n : Nat) (x : Access) : (s.setAccess n x).cur = s.cur := rfl
@[simp] theorem State.setAccess_turn (s : State) (n : Nat) (x : Access) : (s.setAccess n x).turn = s.turn := rfl
@[simp] theorem State.setAccess_steps (s : State) (n : Nat) (x : Access) : (s.setAccess n x).steps = s.steps := rfl
@[simp] theorem State.setAccess_round (s : State) (n : Nat) (x : Access) : (s.setAccess n x).round = s.round := rfl
@[simp] theorem State.setAccess_inputs (s : State) (n : Nat) (x : Access) : (s.setAccess n x).inputs = s.inputs := rfl
@[simp] theorem State.setAccess_out (s : State) (n : Nat) (x : Access) : (s.setAccess n x).out = s.out := rfl
@[simp] theorem State.setAccess_mem (s : State) (n : Nat) (x : Access) : (s.setAccess n x).mem = s.mem := rfl
@[simp] theorem State.setAccess_lineKey (s : State) (n : Nat) (x : Access) : (s.setAccess n x).lineKey = s.lineKey := rfl
@[simp] theorem State.setAccess_badLines (s : State) (n : Nat) (x : Access) : (s.setAccess n x).badLines = s.badLines := rfl
@[simp] theorem State.setAccess_llc (s : State) (n : Nat) (x : Access) : (s.setAccess n x).llc = s.llc := rfl
@[simp] theorem State.setAccess_cmem (s : State) (n : Nat) (x : Access) : (s.setAccess n x).cmem = s.cmem := rfl
@[simp] theorem State.setAccess_gtag (s : State) (n : Nat) (x : Access) : (s.setAccess n x).gtag = s.gtag := rfl
@[simp] theorem State.setAccess_badChunks (s : State) (n : Nat) (x : Access) : (s.setAccess n x).badChunks = s.badChunks := rfl
@[simp] theorem State.setAccess_sharers (s : State) (n : Nat) (x : Access) : (s.setAccess n x).sharers = s.sharers := rfl
@[simp] theorem State.setAccess_homeQ (s : State) (n : Nat) (x : Access) : (s.setAccess n x).homeQ = s.homeQ := rfl
@[simp] theorem State.setAccess_hdm (s : State) (n : Nat) (x : Access) : (s.setAccess n x).hdm = s.hdm := rfl
@[simp] theorem State.setAccess_hdmRanges (s : State) (n : Nat) (x : Access) : (s.setAccess n x).hdmRanges = s.hdmRanges := rfl
@[simp] theorem State.setAccess_snoops (s : State) (n : Nat) (x : Access) : (s.setAccess n x).snoops = s.snoops := rfl
@[simp] theorem State.setAccess_halves (s : State) (n : Nat) (x : Access) : (s.setAccess n x).halves = s.halves := rfl
@[simp] theorem State.setAccess_tlb2 (s : State) (n : Nat) (x : Access) : (s.setAccess n x).tlb2 = s.tlb2 := rfl
@[simp] theorem State.setAccess_cells (s : State) (n : Nat) (x : Access) : (s.setAccess n x).cells = s.cells := rfl
@[simp] theorem State.setAccess_fibres (s : State) (n : Nat) (x : Access) : (s.setAccess n x).fibres = s.fibres := rfl
@[simp] theorem State.setAccess_nextFid (s : State) (n : Nat) (x : Access) : (s.setAccess n x).nextFid = s.nextFid := rfl
@[simp] theorem State.setAccess_accesses (s : State) (n : Nat) (x : Access) : (s.setAccess n x).accesses = Dict.put s.accesses n x := rfl
@[simp] theorem State.setAccess_nextId (s : State) (n : Nat) (x : Access) : (s.setAccess n x).nextId = s.nextId := rfl
@[simp] theorem State.setAccess_groups (s : State) (n : Nat) (x : Access) : (s.setAccess n x).groups = s.groups := rfl
@[simp] theorem State.setAccess_nextGid (s : State) (n : Nat) (x : Access) : (s.setAccess n x).nextGid = s.nextGid := rfl
@[simp] theorem State.setAccess_launches (s : State) (n : Nat) (x : Access) : (s.setAccess n x).launches = s.launches := rfl
@[simp] theorem State.setAccess_expect (s : State) (n : Nat) (x : Access) : (s.setAccess n x).expect = s.expect := rfl
@[simp] theorem State.setAccess_taking (s : State) (n : Nat) (x : Access) : (s.setAccess n x).taking = s.taking := rfl
@[simp] theorem State.setAccess_changes (s : State) (n : Nat) (x : Access) : (s.setAccess n x).changes = s.changes := rfl
@[simp] theorem State.setAccess_cancelling (s : State) (n : Nat) (x : Access) : (s.setAccess n x).cancelling = s.cancelling := rfl
@[simp] theorem State.setAccess_events (s : State) (n : Nat) (x : Access) : (s.setAccess n x).events = s.events := rfl
@[simp] theorem State.setAccess_queues (s : State) (n : Nat) (x : Access) : (s.setAccess n x).queues = s.queues := rfl
@[simp] theorem State.setAccess_virga (s : State) (n : Nat) (x : Access) : (s.setAccess n x).virga = s.virga := rfl
@[simp] theorem State.setAccess_dies (s : State) (n : Nat) (x : Access) : (s.setAccess n x).dies = s.dies := rfl
@[simp] theorem State.setAccess_credits (s : State) (n : Nat) (x : Access) : (s.setAccess n x).credits = s.credits := rfl
@[simp] theorem State.setAccess_ctl (s : State) (n : Nat) (x : Access) : (s.setAccess n x).ctl = s.ctl := rfl
@[simp] theorem State.setAccess_keys (s : State) (n : Nat) (x : Access) : (s.setAccess n x).keys = s.keys := rfl
@[simp] theorem State.setAccess_ideKeys (s : State) (n : Nat) (x : Access) : (s.setAccess n x).ideKeys = s.ideKeys := rfl
@[simp] theorem State.setAccess_sessions (s : State) (n : Nat) (x : Access) : (s.setAccess n x).sessions = s.sessions := rfl
@[simp] theorem State.setAccess_flashGood (s : State) (n : Nat) (x : Access) : (s.setAccess n x).flashGood = s.flashGood := rfl
@[simp] theorem State.setAccess_imageVer (s : State) (n : Nat) (x : Access) : (s.setAccess n x).imageVer = s.imageVer := rfl
@[simp] theorem State.setAccess_image (s : State) (n : Nat) (x : Access) : (s.setAccess n x).image = s.image := rfl
@[simp] theorem State.setAccess_runImage (s : State) (n : Nat) (x : Access) : (s.setAccess n x).runImage = s.runImage := rfl
@[simp] theorem State.setAccess_recovery (s : State) (n : Nat) (x : Access) : (s.setAccess n x).recovery = s.recovery := rfl
@[simp] theorem State.setAccess_partners (s : State) (n : Nat) (x : Access) : (s.setAccess n x).partners = s.partners := rfl
@[simp] theorem State.setAccess_ports (s : State) (n : Nat) (x : Access) : (s.setAccess n x).ports = s.ports := rfl
@[simp] theorem State.setAccess_untrained (s : State) (n : Nat) (x : Access) : (s.setAccess n x).untrained = s.untrained := rfl
@[simp] theorem State.setAccess_fusedMin (s : State) (n : Nat) (x : Access) : (s.setAccess n x).fusedMin = s.fusedMin := rfl
@[simp] theorem State.setAccess_flashCfg (s : State) (n : Nat) (x : Access) : (s.setAccess n x).flashCfg = s.flashCfg := rfl
@[simp] theorem State.setAccess_startedAt (s : State) (n : Nat) (x : Access) : (s.setAccess n x).startedAt = s.startedAt := rfl
@[simp] theorem State.setAccess_leaseAt (s : State) (n : Nat) (x : Access) : (s.setAccess n x).leaseAt = s.leaseAt := rfl
@[simp] theorem State.setAccess_closed (s : State) (n : Nat) (x : Access) : (s.setAccess n x).closed = s.closed := rfl

/-! ### `State.setDie` -/

@[simp] theorem State.setDie_time (s : State) (n : Nat) (x : Die) : (s.setDie n x).time = s.time := rfl
@[simp] theorem State.setDie_tick (s : State) (n : Nat) (x : Die) : (s.setDie n x).tick = s.tick := rfl
@[simp] theorem State.setDie_cur (s : State) (n : Nat) (x : Die) : (s.setDie n x).cur = s.cur := rfl
@[simp] theorem State.setDie_turn (s : State) (n : Nat) (x : Die) : (s.setDie n x).turn = s.turn := rfl
@[simp] theorem State.setDie_steps (s : State) (n : Nat) (x : Die) : (s.setDie n x).steps = s.steps := rfl
@[simp] theorem State.setDie_round (s : State) (n : Nat) (x : Die) : (s.setDie n x).round = s.round := rfl
@[simp] theorem State.setDie_inputs (s : State) (n : Nat) (x : Die) : (s.setDie n x).inputs = s.inputs := rfl
@[simp] theorem State.setDie_out (s : State) (n : Nat) (x : Die) : (s.setDie n x).out = s.out := rfl
@[simp] theorem State.setDie_mem (s : State) (n : Nat) (x : Die) : (s.setDie n x).mem = s.mem := rfl
@[simp] theorem State.setDie_lineKey (s : State) (n : Nat) (x : Die) : (s.setDie n x).lineKey = s.lineKey := rfl
@[simp] theorem State.setDie_badLines (s : State) (n : Nat) (x : Die) : (s.setDie n x).badLines = s.badLines := rfl
@[simp] theorem State.setDie_llc (s : State) (n : Nat) (x : Die) : (s.setDie n x).llc = s.llc := rfl
@[simp] theorem State.setDie_cmem (s : State) (n : Nat) (x : Die) : (s.setDie n x).cmem = s.cmem := rfl
@[simp] theorem State.setDie_gtag (s : State) (n : Nat) (x : Die) : (s.setDie n x).gtag = s.gtag := rfl
@[simp] theorem State.setDie_badChunks (s : State) (n : Nat) (x : Die) : (s.setDie n x).badChunks = s.badChunks := rfl
@[simp] theorem State.setDie_sharers (s : State) (n : Nat) (x : Die) : (s.setDie n x).sharers = s.sharers := rfl
@[simp] theorem State.setDie_homeQ (s : State) (n : Nat) (x : Die) : (s.setDie n x).homeQ = s.homeQ := rfl
@[simp] theorem State.setDie_hdm (s : State) (n : Nat) (x : Die) : (s.setDie n x).hdm = s.hdm := rfl
@[simp] theorem State.setDie_hdmRanges (s : State) (n : Nat) (x : Die) : (s.setDie n x).hdmRanges = s.hdmRanges := rfl
@[simp] theorem State.setDie_snoops (s : State) (n : Nat) (x : Die) : (s.setDie n x).snoops = s.snoops := rfl
@[simp] theorem State.setDie_halves (s : State) (n : Nat) (x : Die) : (s.setDie n x).halves = s.halves := rfl
@[simp] theorem State.setDie_tlb2 (s : State) (n : Nat) (x : Die) : (s.setDie n x).tlb2 = s.tlb2 := rfl
@[simp] theorem State.setDie_cells (s : State) (n : Nat) (x : Die) : (s.setDie n x).cells = s.cells := rfl
@[simp] theorem State.setDie_fibres (s : State) (n : Nat) (x : Die) : (s.setDie n x).fibres = s.fibres := rfl
@[simp] theorem State.setDie_nextFid (s : State) (n : Nat) (x : Die) : (s.setDie n x).nextFid = s.nextFid := rfl
@[simp] theorem State.setDie_accesses (s : State) (n : Nat) (x : Die) : (s.setDie n x).accesses = s.accesses := rfl
@[simp] theorem State.setDie_nextId (s : State) (n : Nat) (x : Die) : (s.setDie n x).nextId = s.nextId := rfl
@[simp] theorem State.setDie_groups (s : State) (n : Nat) (x : Die) : (s.setDie n x).groups = s.groups := rfl
@[simp] theorem State.setDie_nextGid (s : State) (n : Nat) (x : Die) : (s.setDie n x).nextGid = s.nextGid := rfl
@[simp] theorem State.setDie_launches (s : State) (n : Nat) (x : Die) : (s.setDie n x).launches = s.launches := rfl
@[simp] theorem State.setDie_expect (s : State) (n : Nat) (x : Die) : (s.setDie n x).expect = s.expect := rfl
@[simp] theorem State.setDie_taking (s : State) (n : Nat) (x : Die) : (s.setDie n x).taking = s.taking := rfl
@[simp] theorem State.setDie_changes (s : State) (n : Nat) (x : Die) : (s.setDie n x).changes = s.changes := rfl
@[simp] theorem State.setDie_cancelling (s : State) (n : Nat) (x : Die) : (s.setDie n x).cancelling = s.cancelling := rfl
@[simp] theorem State.setDie_events (s : State) (n : Nat) (x : Die) : (s.setDie n x).events = s.events := rfl
@[simp] theorem State.setDie_queues (s : State) (n : Nat) (x : Die) : (s.setDie n x).queues = s.queues := rfl
@[simp] theorem State.setDie_virga (s : State) (n : Nat) (x : Die) : (s.setDie n x).virga = s.virga := rfl
@[simp] theorem State.setDie_dies (s : State) (n : Nat) (x : Die) : (s.setDie n x).dies = Dict.put s.dies n x := rfl
@[simp] theorem State.setDie_credits (s : State) (n : Nat) (x : Die) : (s.setDie n x).credits = s.credits := rfl
@[simp] theorem State.setDie_ctl (s : State) (n : Nat) (x : Die) : (s.setDie n x).ctl = s.ctl := rfl
@[simp] theorem State.setDie_keys (s : State) (n : Nat) (x : Die) : (s.setDie n x).keys = s.keys := rfl
@[simp] theorem State.setDie_ideKeys (s : State) (n : Nat) (x : Die) : (s.setDie n x).ideKeys = s.ideKeys := rfl
@[simp] theorem State.setDie_sessions (s : State) (n : Nat) (x : Die) : (s.setDie n x).sessions = s.sessions := rfl
@[simp] theorem State.setDie_flashGood (s : State) (n : Nat) (x : Die) : (s.setDie n x).flashGood = s.flashGood := rfl
@[simp] theorem State.setDie_imageVer (s : State) (n : Nat) (x : Die) : (s.setDie n x).imageVer = s.imageVer := rfl
@[simp] theorem State.setDie_image (s : State) (n : Nat) (x : Die) : (s.setDie n x).image = s.image := rfl
@[simp] theorem State.setDie_runImage (s : State) (n : Nat) (x : Die) : (s.setDie n x).runImage = s.runImage := rfl
@[simp] theorem State.setDie_recovery (s : State) (n : Nat) (x : Die) : (s.setDie n x).recovery = s.recovery := rfl
@[simp] theorem State.setDie_partners (s : State) (n : Nat) (x : Die) : (s.setDie n x).partners = s.partners := rfl
@[simp] theorem State.setDie_ports (s : State) (n : Nat) (x : Die) : (s.setDie n x).ports = s.ports := rfl
@[simp] theorem State.setDie_untrained (s : State) (n : Nat) (x : Die) : (s.setDie n x).untrained = s.untrained := rfl
@[simp] theorem State.setDie_fusedMin (s : State) (n : Nat) (x : Die) : (s.setDie n x).fusedMin = s.fusedMin := rfl
@[simp] theorem State.setDie_flashCfg (s : State) (n : Nat) (x : Die) : (s.setDie n x).flashCfg = s.flashCfg := rfl
@[simp] theorem State.setDie_startedAt (s : State) (n : Nat) (x : Die) : (s.setDie n x).startedAt = s.startedAt := rfl
@[simp] theorem State.setDie_leaseAt (s : State) (n : Nat) (x : Die) : (s.setDie n x).leaseAt = s.leaseAt := rfl
@[simp] theorem State.setDie_closed (s : State) (n : Nat) (x : Die) : (s.setDie n x).closed = s.closed := rfl

/-! ### `State.emit` -/

@[simp] theorem State.emit_time (s : State) (m : OutMsg) : (s.emit m).time = s.time := rfl
@[simp] theorem State.emit_tick (s : State) (m : OutMsg) : (s.emit m).tick = s.tick := rfl
@[simp] theorem State.emit_cur (s : State) (m : OutMsg) : (s.emit m).cur = s.cur := rfl
@[simp] theorem State.emit_turn (s : State) (m : OutMsg) : (s.emit m).turn = s.turn := rfl
@[simp] theorem State.emit_steps (s : State) (m : OutMsg) : (s.emit m).steps = s.steps := rfl
@[simp] theorem State.emit_round (s : State) (m : OutMsg) : (s.emit m).round = s.round := rfl
@[simp] theorem State.emit_inputs (s : State) (m : OutMsg) : (s.emit m).inputs = s.inputs := rfl
@[simp] theorem State.emit_out (s : State) (m : OutMsg) : (s.emit m).out = s.out ++ [m] := rfl
@[simp] theorem State.emit_mem (s : State) (m : OutMsg) : (s.emit m).mem = s.mem := rfl
@[simp] theorem State.emit_lineKey (s : State) (m : OutMsg) : (s.emit m).lineKey = s.lineKey := rfl
@[simp] theorem State.emit_badLines (s : State) (m : OutMsg) : (s.emit m).badLines = s.badLines := rfl
@[simp] theorem State.emit_llc (s : State) (m : OutMsg) : (s.emit m).llc = s.llc := rfl
@[simp] theorem State.emit_cmem (s : State) (m : OutMsg) : (s.emit m).cmem = s.cmem := rfl
@[simp] theorem State.emit_gtag (s : State) (m : OutMsg) : (s.emit m).gtag = s.gtag := rfl
@[simp] theorem State.emit_badChunks (s : State) (m : OutMsg) : (s.emit m).badChunks = s.badChunks := rfl
@[simp] theorem State.emit_sharers (s : State) (m : OutMsg) : (s.emit m).sharers = s.sharers := rfl
@[simp] theorem State.emit_homeQ (s : State) (m : OutMsg) : (s.emit m).homeQ = s.homeQ := rfl
@[simp] theorem State.emit_hdm (s : State) (m : OutMsg) : (s.emit m).hdm = s.hdm := rfl
@[simp] theorem State.emit_hdmRanges (s : State) (m : OutMsg) : (s.emit m).hdmRanges = s.hdmRanges := rfl
@[simp] theorem State.emit_snoops (s : State) (m : OutMsg) : (s.emit m).snoops = s.snoops := rfl
@[simp] theorem State.emit_halves (s : State) (m : OutMsg) : (s.emit m).halves = s.halves := rfl
@[simp] theorem State.emit_tlb2 (s : State) (m : OutMsg) : (s.emit m).tlb2 = s.tlb2 := rfl
@[simp] theorem State.emit_cells (s : State) (m : OutMsg) : (s.emit m).cells = s.cells := rfl
@[simp] theorem State.emit_fibres (s : State) (m : OutMsg) : (s.emit m).fibres = s.fibres := rfl
@[simp] theorem State.emit_nextFid (s : State) (m : OutMsg) : (s.emit m).nextFid = s.nextFid := rfl
@[simp] theorem State.emit_accesses (s : State) (m : OutMsg) : (s.emit m).accesses = s.accesses := rfl
@[simp] theorem State.emit_nextId (s : State) (m : OutMsg) : (s.emit m).nextId = s.nextId := rfl
@[simp] theorem State.emit_groups (s : State) (m : OutMsg) : (s.emit m).groups = s.groups := rfl
@[simp] theorem State.emit_nextGid (s : State) (m : OutMsg) : (s.emit m).nextGid = s.nextGid := rfl
@[simp] theorem State.emit_launches (s : State) (m : OutMsg) : (s.emit m).launches = s.launches := rfl
@[simp] theorem State.emit_expect (s : State) (m : OutMsg) : (s.emit m).expect = s.expect := rfl
@[simp] theorem State.emit_taking (s : State) (m : OutMsg) : (s.emit m).taking = s.taking := rfl
@[simp] theorem State.emit_changes (s : State) (m : OutMsg) : (s.emit m).changes = s.changes := rfl
@[simp] theorem State.emit_cancelling (s : State) (m : OutMsg) : (s.emit m).cancelling = s.cancelling := rfl
@[simp] theorem State.emit_events (s : State) (m : OutMsg) : (s.emit m).events = s.events := rfl
@[simp] theorem State.emit_queues (s : State) (m : OutMsg) : (s.emit m).queues = s.queues := rfl
@[simp] theorem State.emit_virga (s : State) (m : OutMsg) : (s.emit m).virga = s.virga := rfl
@[simp] theorem State.emit_dies (s : State) (m : OutMsg) : (s.emit m).dies = s.dies := rfl
@[simp] theorem State.emit_credits (s : State) (m : OutMsg) : (s.emit m).credits = s.credits := rfl
@[simp] theorem State.emit_ctl (s : State) (m : OutMsg) : (s.emit m).ctl = s.ctl := rfl
@[simp] theorem State.emit_keys (s : State) (m : OutMsg) : (s.emit m).keys = s.keys := rfl
@[simp] theorem State.emit_ideKeys (s : State) (m : OutMsg) : (s.emit m).ideKeys = s.ideKeys := rfl
@[simp] theorem State.emit_sessions (s : State) (m : OutMsg) : (s.emit m).sessions = s.sessions := rfl
@[simp] theorem State.emit_flashGood (s : State) (m : OutMsg) : (s.emit m).flashGood = s.flashGood := rfl
@[simp] theorem State.emit_imageVer (s : State) (m : OutMsg) : (s.emit m).imageVer = s.imageVer := rfl
@[simp] theorem State.emit_image (s : State) (m : OutMsg) : (s.emit m).image = s.image := rfl
@[simp] theorem State.emit_runImage (s : State) (m : OutMsg) : (s.emit m).runImage = s.runImage := rfl
@[simp] theorem State.emit_recovery (s : State) (m : OutMsg) : (s.emit m).recovery = s.recovery := rfl
@[simp] theorem State.emit_partners (s : State) (m : OutMsg) : (s.emit m).partners = s.partners := rfl
@[simp] theorem State.emit_ports (s : State) (m : OutMsg) : (s.emit m).ports = s.ports := rfl
@[simp] theorem State.emit_untrained (s : State) (m : OutMsg) : (s.emit m).untrained = s.untrained := rfl
@[simp] theorem State.emit_fusedMin (s : State) (m : OutMsg) : (s.emit m).fusedMin = s.fusedMin := rfl
@[simp] theorem State.emit_flashCfg (s : State) (m : OutMsg) : (s.emit m).flashCfg = s.flashCfg := rfl
@[simp] theorem State.emit_startedAt (s : State) (m : OutMsg) : (s.emit m).startedAt = s.startedAt := rfl
@[simp] theorem State.emit_leaseAt (s : State) (m : OutMsg) : (s.emit m).leaseAt = s.leaseAt := rfl
@[simp] theorem State.emit_closed (s : State) (m : OutMsg) : (s.emit m).closed = s.closed := rfl

/-! ### `State.putBack` -/

@[simp] theorem State.putBack_time (s : State) (x : Input) : (s.putBack x).time = s.time := rfl
@[simp] theorem State.putBack_tick (s : State) (x : Input) : (s.putBack x).tick = s.tick := rfl
@[simp] theorem State.putBack_cur (s : State) (x : Input) : (s.putBack x).cur = s.cur := rfl
@[simp] theorem State.putBack_turn (s : State) (x : Input) : (s.putBack x).turn = s.turn := rfl
@[simp] theorem State.putBack_steps (s : State) (x : Input) : (s.putBack x).steps = s.steps := rfl
@[simp] theorem State.putBack_round (s : State) (x : Input) : (s.putBack x).round = s.round := rfl
@[simp] theorem State.putBack_inputs (s : State) (x : Input) : (s.putBack x).inputs = s.inputs ++ [x] := rfl
@[simp] theorem State.putBack_out (s : State) (x : Input) : (s.putBack x).out = s.out := rfl
@[simp] theorem State.putBack_mem (s : State) (x : Input) : (s.putBack x).mem = s.mem := rfl
@[simp] theorem State.putBack_lineKey (s : State) (x : Input) : (s.putBack x).lineKey = s.lineKey := rfl
@[simp] theorem State.putBack_badLines (s : State) (x : Input) : (s.putBack x).badLines = s.badLines := rfl
@[simp] theorem State.putBack_llc (s : State) (x : Input) : (s.putBack x).llc = s.llc := rfl
@[simp] theorem State.putBack_cmem (s : State) (x : Input) : (s.putBack x).cmem = s.cmem := rfl
@[simp] theorem State.putBack_gtag (s : State) (x : Input) : (s.putBack x).gtag = s.gtag := rfl
@[simp] theorem State.putBack_badChunks (s : State) (x : Input) : (s.putBack x).badChunks = s.badChunks := rfl
@[simp] theorem State.putBack_sharers (s : State) (x : Input) : (s.putBack x).sharers = s.sharers := rfl
@[simp] theorem State.putBack_homeQ (s : State) (x : Input) : (s.putBack x).homeQ = s.homeQ := rfl
@[simp] theorem State.putBack_hdm (s : State) (x : Input) : (s.putBack x).hdm = s.hdm := rfl
@[simp] theorem State.putBack_hdmRanges (s : State) (x : Input) : (s.putBack x).hdmRanges = s.hdmRanges := rfl
@[simp] theorem State.putBack_snoops (s : State) (x : Input) : (s.putBack x).snoops = s.snoops := rfl
@[simp] theorem State.putBack_halves (s : State) (x : Input) : (s.putBack x).halves = s.halves := rfl
@[simp] theorem State.putBack_tlb2 (s : State) (x : Input) : (s.putBack x).tlb2 = s.tlb2 := rfl
@[simp] theorem State.putBack_cells (s : State) (x : Input) : (s.putBack x).cells = s.cells := rfl
@[simp] theorem State.putBack_fibres (s : State) (x : Input) : (s.putBack x).fibres = s.fibres := rfl
@[simp] theorem State.putBack_nextFid (s : State) (x : Input) : (s.putBack x).nextFid = s.nextFid := rfl
@[simp] theorem State.putBack_accesses (s : State) (x : Input) : (s.putBack x).accesses = s.accesses := rfl
@[simp] theorem State.putBack_nextId (s : State) (x : Input) : (s.putBack x).nextId = s.nextId := rfl
@[simp] theorem State.putBack_groups (s : State) (x : Input) : (s.putBack x).groups = s.groups := rfl
@[simp] theorem State.putBack_nextGid (s : State) (x : Input) : (s.putBack x).nextGid = s.nextGid := rfl
@[simp] theorem State.putBack_launches (s : State) (x : Input) : (s.putBack x).launches = s.launches := rfl
@[simp] theorem State.putBack_expect (s : State) (x : Input) : (s.putBack x).expect = s.expect := rfl
@[simp] theorem State.putBack_taking (s : State) (x : Input) : (s.putBack x).taking = s.taking := rfl
@[simp] theorem State.putBack_changes (s : State) (x : Input) : (s.putBack x).changes = s.changes := rfl
@[simp] theorem State.putBack_cancelling (s : State) (x : Input) : (s.putBack x).cancelling = s.cancelling := rfl
@[simp] theorem State.putBack_events (s : State) (x : Input) : (s.putBack x).events = s.events := rfl
@[simp] theorem State.putBack_queues (s : State) (x : Input) : (s.putBack x).queues = s.queues := rfl
@[simp] theorem State.putBack_virga (s : State) (x : Input) : (s.putBack x).virga = s.virga := rfl
@[simp] theorem State.putBack_dies (s : State) (x : Input) : (s.putBack x).dies = s.dies := rfl
@[simp] theorem State.putBack_credits (s : State) (x : Input) : (s.putBack x).credits = s.credits := rfl
@[simp] theorem State.putBack_ctl (s : State) (x : Input) : (s.putBack x).ctl = s.ctl := rfl
@[simp] theorem State.putBack_keys (s : State) (x : Input) : (s.putBack x).keys = s.keys := rfl
@[simp] theorem State.putBack_ideKeys (s : State) (x : Input) : (s.putBack x).ideKeys = s.ideKeys := rfl
@[simp] theorem State.putBack_sessions (s : State) (x : Input) : (s.putBack x).sessions = s.sessions := rfl
@[simp] theorem State.putBack_flashGood (s : State) (x : Input) : (s.putBack x).flashGood = s.flashGood := rfl
@[simp] theorem State.putBack_imageVer (s : State) (x : Input) : (s.putBack x).imageVer = s.imageVer := rfl
@[simp] theorem State.putBack_image (s : State) (x : Input) : (s.putBack x).image = s.image := rfl
@[simp] theorem State.putBack_runImage (s : State) (x : Input) : (s.putBack x).runImage = s.runImage := rfl
@[simp] theorem State.putBack_recovery (s : State) (x : Input) : (s.putBack x).recovery = s.recovery := rfl
@[simp] theorem State.putBack_partners (s : State) (x : Input) : (s.putBack x).partners = s.partners := rfl
@[simp] theorem State.putBack_ports (s : State) (x : Input) : (s.putBack x).ports = s.ports := rfl
@[simp] theorem State.putBack_untrained (s : State) (x : Input) : (s.putBack x).untrained = s.untrained := rfl
@[simp] theorem State.putBack_fusedMin (s : State) (x : Input) : (s.putBack x).fusedMin = s.fusedMin := rfl
@[simp] theorem State.putBack_flashCfg (s : State) (x : Input) : (s.putBack x).flashCfg = s.flashCfg := rfl
@[simp] theorem State.putBack_startedAt (s : State) (x : Input) : (s.putBack x).startedAt = s.startedAt := rfl
@[simp] theorem State.putBack_leaseAt (s : State) (x : Input) : (s.putBack x).leaseAt = s.leaseAt := rfl
@[simp] theorem State.putBack_closed (s : State) (x : Input) : (s.putBack x).closed = s.closed := rfl

/-! ### `State.at_` -/

@[simp] theorem State.at__time (s : State) (fid seq k : Nat) : (s.at_ fid seq k).time = s.time := rfl
@[simp] theorem State.at__tick (s : State) (fid seq k : Nat) : (s.at_ fid seq k).tick = s.tick := rfl
@[simp] theorem State.at__cur (s : State) (fid seq k : Nat) : (s.at_ fid seq k).cur = some { fid := fid, seq := seq, k := k } := rfl
@[simp] theorem State.at__turn (s : State) (fid seq k : Nat) : (s.at_ fid seq k).turn = s.turn := rfl
@[simp] theorem State.at__steps (s : State) (fid seq k : Nat) : (s.at_ fid seq k).steps = s.steps := rfl
@[simp] theorem State.at__round (s : State) (fid seq k : Nat) : (s.at_ fid seq k).round = s.round := rfl
@[simp] theorem State.at__inputs (s : State) (fid seq k : Nat) : (s.at_ fid seq k).inputs = s.inputs := rfl
@[simp] theorem State.at__out (s : State) (fid seq k : Nat) : (s.at_ fid seq k).out = s.out := rfl
@[simp] theorem State.at__mem (s : State) (fid seq k : Nat) : (s.at_ fid seq k).mem = s.mem := rfl
@[simp] theorem State.at__lineKey (s : State) (fid seq k : Nat) : (s.at_ fid seq k).lineKey = s.lineKey := rfl
@[simp] theorem State.at__badLines (s : State) (fid seq k : Nat) : (s.at_ fid seq k).badLines = s.badLines := rfl
@[simp] theorem State.at__llc (s : State) (fid seq k : Nat) : (s.at_ fid seq k).llc = s.llc := rfl
@[simp] theorem State.at__cmem (s : State) (fid seq k : Nat) : (s.at_ fid seq k).cmem = s.cmem := rfl
@[simp] theorem State.at__gtag (s : State) (fid seq k : Nat) : (s.at_ fid seq k).gtag = s.gtag := rfl
@[simp] theorem State.at__badChunks (s : State) (fid seq k : Nat) : (s.at_ fid seq k).badChunks = s.badChunks := rfl
@[simp] theorem State.at__sharers (s : State) (fid seq k : Nat) : (s.at_ fid seq k).sharers = s.sharers := rfl
@[simp] theorem State.at__homeQ (s : State) (fid seq k : Nat) : (s.at_ fid seq k).homeQ = s.homeQ := rfl
@[simp] theorem State.at__hdm (s : State) (fid seq k : Nat) : (s.at_ fid seq k).hdm = s.hdm := rfl
@[simp] theorem State.at__hdmRanges (s : State) (fid seq k : Nat) : (s.at_ fid seq k).hdmRanges = s.hdmRanges := rfl
@[simp] theorem State.at__snoops (s : State) (fid seq k : Nat) : (s.at_ fid seq k).snoops = s.snoops := rfl
@[simp] theorem State.at__halves (s : State) (fid seq k : Nat) : (s.at_ fid seq k).halves = s.halves := rfl
@[simp] theorem State.at__tlb2 (s : State) (fid seq k : Nat) : (s.at_ fid seq k).tlb2 = s.tlb2 := rfl
@[simp] theorem State.at__cells (s : State) (fid seq k : Nat) : (s.at_ fid seq k).cells = s.cells := rfl
@[simp] theorem State.at__fibres (s : State) (fid seq k : Nat) : (s.at_ fid seq k).fibres = s.fibres := rfl
@[simp] theorem State.at__nextFid (s : State) (fid seq k : Nat) : (s.at_ fid seq k).nextFid = s.nextFid := rfl
@[simp] theorem State.at__accesses (s : State) (fid seq k : Nat) : (s.at_ fid seq k).accesses = s.accesses := rfl
@[simp] theorem State.at__nextId (s : State) (fid seq k : Nat) : (s.at_ fid seq k).nextId = s.nextId := rfl
@[simp] theorem State.at__groups (s : State) (fid seq k : Nat) : (s.at_ fid seq k).groups = s.groups := rfl
@[simp] theorem State.at__nextGid (s : State) (fid seq k : Nat) : (s.at_ fid seq k).nextGid = s.nextGid := rfl
@[simp] theorem State.at__launches (s : State) (fid seq k : Nat) : (s.at_ fid seq k).launches = s.launches := rfl
@[simp] theorem State.at__expect (s : State) (fid seq k : Nat) : (s.at_ fid seq k).expect = s.expect := rfl
@[simp] theorem State.at__taking (s : State) (fid seq k : Nat) : (s.at_ fid seq k).taking = s.taking := rfl
@[simp] theorem State.at__changes (s : State) (fid seq k : Nat) : (s.at_ fid seq k).changes = s.changes := rfl
@[simp] theorem State.at__cancelling (s : State) (fid seq k : Nat) : (s.at_ fid seq k).cancelling = s.cancelling := rfl
@[simp] theorem State.at__events (s : State) (fid seq k : Nat) : (s.at_ fid seq k).events = s.events := rfl
@[simp] theorem State.at__queues (s : State) (fid seq k : Nat) : (s.at_ fid seq k).queues = s.queues := rfl
@[simp] theorem State.at__virga (s : State) (fid seq k : Nat) : (s.at_ fid seq k).virga = s.virga := rfl
@[simp] theorem State.at__dies (s : State) (fid seq k : Nat) : (s.at_ fid seq k).dies = s.dies := rfl
@[simp] theorem State.at__credits (s : State) (fid seq k : Nat) : (s.at_ fid seq k).credits = s.credits := rfl
@[simp] theorem State.at__ctl (s : State) (fid seq k : Nat) : (s.at_ fid seq k).ctl = s.ctl := rfl
@[simp] theorem State.at__keys (s : State) (fid seq k : Nat) : (s.at_ fid seq k).keys = s.keys := rfl
@[simp] theorem State.at__ideKeys (s : State) (fid seq k : Nat) : (s.at_ fid seq k).ideKeys = s.ideKeys := rfl
@[simp] theorem State.at__sessions (s : State) (fid seq k : Nat) : (s.at_ fid seq k).sessions = s.sessions := rfl
@[simp] theorem State.at__flashGood (s : State) (fid seq k : Nat) : (s.at_ fid seq k).flashGood = s.flashGood := rfl
@[simp] theorem State.at__imageVer (s : State) (fid seq k : Nat) : (s.at_ fid seq k).imageVer = s.imageVer := rfl
@[simp] theorem State.at__image (s : State) (fid seq k : Nat) : (s.at_ fid seq k).image = s.image := rfl
@[simp] theorem State.at__runImage (s : State) (fid seq k : Nat) : (s.at_ fid seq k).runImage = s.runImage := rfl
@[simp] theorem State.at__recovery (s : State) (fid seq k : Nat) : (s.at_ fid seq k).recovery = s.recovery := rfl
@[simp] theorem State.at__partners (s : State) (fid seq k : Nat) : (s.at_ fid seq k).partners = s.partners := rfl
@[simp] theorem State.at__ports (s : State) (fid seq k : Nat) : (s.at_ fid seq k).ports = s.ports := rfl
@[simp] theorem State.at__untrained (s : State) (fid seq k : Nat) : (s.at_ fid seq k).untrained = s.untrained := rfl
@[simp] theorem State.at__fusedMin (s : State) (fid seq k : Nat) : (s.at_ fid seq k).fusedMin = s.fusedMin := rfl
@[simp] theorem State.at__flashCfg (s : State) (fid seq k : Nat) : (s.at_ fid seq k).flashCfg = s.flashCfg := rfl
@[simp] theorem State.at__startedAt (s : State) (fid seq k : Nat) : (s.at_ fid seq k).startedAt = s.startedAt := rfl
@[simp] theorem State.at__leaseAt (s : State) (fid seq k : Nat) : (s.at_ fid seq k).leaseAt = s.leaseAt := rfl
@[simp] theorem State.at__closed (s : State) (fid seq k : Nat) : (s.at_ fid seq k).closed = s.closed := rfl

/-! ### `State.away` -/

@[simp] theorem State.away_time (s : State)  : (s.away).time = s.time := rfl
@[simp] theorem State.away_tick (s : State)  : (s.away).tick = s.tick := rfl
@[simp] theorem State.away_cur (s : State)  : (s.away).cur = none := rfl
@[simp] theorem State.away_turn (s : State)  : (s.away).turn = s.turn := rfl
@[simp] theorem State.away_steps (s : State)  : (s.away).steps = s.steps := rfl
@[simp] theorem State.away_round (s : State)  : (s.away).round = s.round := rfl
@[simp] theorem State.away_inputs (s : State)  : (s.away).inputs = s.inputs := rfl
@[simp] theorem State.away_out (s : State)  : (s.away).out = s.out := rfl
@[simp] theorem State.away_mem (s : State)  : (s.away).mem = s.mem := rfl
@[simp] theorem State.away_lineKey (s : State)  : (s.away).lineKey = s.lineKey := rfl
@[simp] theorem State.away_badLines (s : State)  : (s.away).badLines = s.badLines := rfl
@[simp] theorem State.away_llc (s : State)  : (s.away).llc = s.llc := rfl
@[simp] theorem State.away_cmem (s : State)  : (s.away).cmem = s.cmem := rfl
@[simp] theorem State.away_gtag (s : State)  : (s.away).gtag = s.gtag := rfl
@[simp] theorem State.away_badChunks (s : State)  : (s.away).badChunks = s.badChunks := rfl
@[simp] theorem State.away_sharers (s : State)  : (s.away).sharers = s.sharers := rfl
@[simp] theorem State.away_homeQ (s : State)  : (s.away).homeQ = s.homeQ := rfl
@[simp] theorem State.away_hdm (s : State)  : (s.away).hdm = s.hdm := rfl
@[simp] theorem State.away_hdmRanges (s : State)  : (s.away).hdmRanges = s.hdmRanges := rfl
@[simp] theorem State.away_snoops (s : State)  : (s.away).snoops = s.snoops := rfl
@[simp] theorem State.away_halves (s : State)  : (s.away).halves = s.halves := rfl
@[simp] theorem State.away_tlb2 (s : State)  : (s.away).tlb2 = s.tlb2 := rfl
@[simp] theorem State.away_cells (s : State)  : (s.away).cells = s.cells := rfl
@[simp] theorem State.away_fibres (s : State)  : (s.away).fibres = s.fibres := rfl
@[simp] theorem State.away_nextFid (s : State)  : (s.away).nextFid = s.nextFid := rfl
@[simp] theorem State.away_accesses (s : State)  : (s.away).accesses = s.accesses := rfl
@[simp] theorem State.away_nextId (s : State)  : (s.away).nextId = s.nextId := rfl
@[simp] theorem State.away_groups (s : State)  : (s.away).groups = s.groups := rfl
@[simp] theorem State.away_nextGid (s : State)  : (s.away).nextGid = s.nextGid := rfl
@[simp] theorem State.away_launches (s : State)  : (s.away).launches = s.launches := rfl
@[simp] theorem State.away_expect (s : State)  : (s.away).expect = s.expect := rfl
@[simp] theorem State.away_taking (s : State)  : (s.away).taking = s.taking := rfl
@[simp] theorem State.away_changes (s : State)  : (s.away).changes = s.changes := rfl
@[simp] theorem State.away_cancelling (s : State)  : (s.away).cancelling = s.cancelling := rfl
@[simp] theorem State.away_events (s : State)  : (s.away).events = s.events := rfl
@[simp] theorem State.away_queues (s : State)  : (s.away).queues = s.queues := rfl
@[simp] theorem State.away_virga (s : State)  : (s.away).virga = s.virga := rfl
@[simp] theorem State.away_dies (s : State)  : (s.away).dies = s.dies := rfl
@[simp] theorem State.away_credits (s : State)  : (s.away).credits = s.credits := rfl
@[simp] theorem State.away_ctl (s : State)  : (s.away).ctl = s.ctl := rfl
@[simp] theorem State.away_keys (s : State)  : (s.away).keys = s.keys := rfl
@[simp] theorem State.away_ideKeys (s : State)  : (s.away).ideKeys = s.ideKeys := rfl
@[simp] theorem State.away_sessions (s : State)  : (s.away).sessions = s.sessions := rfl
@[simp] theorem State.away_flashGood (s : State)  : (s.away).flashGood = s.flashGood := rfl
@[simp] theorem State.away_imageVer (s : State)  : (s.away).imageVer = s.imageVer := rfl
@[simp] theorem State.away_image (s : State)  : (s.away).image = s.image := rfl
@[simp] theorem State.away_runImage (s : State)  : (s.away).runImage = s.runImage := rfl
@[simp] theorem State.away_recovery (s : State)  : (s.away).recovery = s.recovery := rfl
@[simp] theorem State.away_partners (s : State)  : (s.away).partners = s.partners := rfl
@[simp] theorem State.away_ports (s : State)  : (s.away).ports = s.ports := rfl
@[simp] theorem State.away_untrained (s : State)  : (s.away).untrained = s.untrained := rfl
@[simp] theorem State.away_fusedMin (s : State)  : (s.away).fusedMin = s.fusedMin := rfl
@[simp] theorem State.away_flashCfg (s : State)  : (s.away).flashCfg = s.flashCfg := rfl
@[simp] theorem State.away_startedAt (s : State)  : (s.away).startedAt = s.startedAt := rfl
@[simp] theorem State.away_leaseAt (s : State)  : (s.away).leaseAt = s.leaseAt := rfl
@[simp] theorem State.away_closed (s : State)  : (s.away).closed = s.closed := rfl

/-! ### `Fibre.setFrame` -/

@[simp] theorem Fibre.setFrame_gid (f : Fibre) (x : Frame) : (f.setFrame x).gid = f.gid := rfl
@[simp] theorem Fibre.setFrame_lid (f : Fibre) (x : Frame) : (f.setFrame x).lid = f.lid := rfl
@[simp] theorem Fibre.setFrame_grp (f : Fibre) (x : Frame) : (f.setFrame x).grp = f.grp := rfl
@[simp] theorem Fibre.setFrame_member (f : Fibre) (x : Frame) : (f.setFrame x).member = f.member := rfl
@[simp] theorem Fibre.setFrame_idx (f : Fibre) (x : Frame) : (f.setFrame x).idx = f.idx := rfl
@[simp] theorem Fibre.setFrame_level (f : Fibre) (x : Frame) : (f.setFrame x).level = f.level := rfl
@[simp] theorem Fibre.setFrame_g (f : Fibre) (x : Frame) : (f.setFrame x).g = f.g := rfl
@[simp] theorem Fibre.setFrame_v (f : Fibre) (x : Frame) : (f.setFrame x).v = f.v := rfl
@[simp] theorem Fibre.setFrame_vtag (f : Fibre) (x : Frame) : (f.setFrame x).vtag = f.vtag := rfl
@[simp] theorem Fibre.setFrame_gpend (f : Fibre) (x : Frame) : (f.setFrame x).gpend = f.gpend := rfl
@[simp] theorem Fibre.setFrame_vpend (f : Fibre) (x : Frame) : (f.setFrame x).vpend = f.vpend := rfl
@[simp] theorem Fibre.setFrame_bankA (f : Fibre) (x : Frame) : (f.setFrame x).bankA = f.bankA := rfl
@[simp] theorem Fibre.setFrame_bankS (f : Fibre) (x : Frame) : (f.setFrame x).bankS = f.bankS := rfl
@[simp] theorem Fibre.setFrame_bankM (f : Fibre) (x : Frame) : (f.setFrame x).bankM = f.bankM := rfl
@[simp] theorem Fibre.setFrame_fcsr (f : Fibre) (x : Frame) : (f.setFrame x).fcsr = f.fcsr := rfl
@[simp] theorem Fibre.setFrame_srng (f : Fibre) (x : Frame) : (f.setFrame x).srng = f.srng := rfl
@[simp] theorem Fibre.setFrame_rgnh (f : Fibre) (x : Frame) : (f.setFrame x).rgnh = f.rgnh := rfl
@[simp] theorem Fibre.setFrame_stepReg (f : Fibre) (x : Frame) : (f.setFrame x).stepReg = f.stepReg := rfl
@[simp] theorem Fibre.setFrame_sdeleg (f : Fibre) (x : Frame) : (f.setFrame x).sdeleg = f.sdeleg := rfl
@[simp] theorem Fibre.setFrame_mdeleg (f : Fibre) (x : Frame) : (f.setFrame x).mdeleg = f.mdeleg := rfl
@[simp] theorem Fibre.setFrame_xroot (f : Fibre) (x : Frame) : (f.setFrame x).xroot = f.xroot := rfl
@[simp] theorem Fibre.setFrame_xown (f : Fibre) (x : Frame) : (f.setFrame x).xown = f.xown := rfl
@[simp] theorem Fibre.setFrame_xkeys (f : Fibre) (x : Frame) : (f.setFrame x).xkeys = f.xkeys := rfl
@[simp] theorem Fibre.setFrame_ncbase (f : Fibre) (x : Frame) : (f.setFrame x).ncbase = f.ncbase := rfl
@[simp] theorem Fibre.setFrame_nclim (f : Fibre) (x : Frame) : (f.setFrame x).nclim = f.nclim := rfl
@[simp] theorem Fibre.setFrame_next (f : Fibre) (x : Frame) : (f.setFrame x).next = f.next := rfl
@[simp] theorem Fibre.setFrame_nextSeq (f : Fibre) (x : Frame) : (f.setFrame x).nextSeq = f.nextSeq := rfl
@[simp] theorem Fibre.setFrame_frames (f : Fibre) (x : Frame) : (f.setFrame x).frames = f.frames.map (fun y => if y.seq = x.seq then x else y) := rfl
@[simp] theorem Fibre.setFrame_held (f : Fibre) (x : Frame) : (f.setFrame x).held = f.held := rfl
@[simp] theorem Fibre.setFrame_heldAccesses (f : Fibre) (x : Frame) : (f.setFrame x).heldAccesses = f.heldAccesses := rfl
@[simp] theorem Fibre.setFrame_ras (f : Fibre) (x : Frame) : (f.setFrame x).ras = f.ras := rfl
@[simp] theorem Fibre.setFrame_park (f : Fibre) (x : Frame) : (f.setFrame x).park = f.park := rfl
@[simp] theorem Fibre.setFrame_yieldFor (f : Fibre) (x : Frame) : (f.setFrame x).yieldFor = f.yieldFor := rfl
@[simp] theorem Fibre.setFrame_yieldLeft (f : Fibre) (x : Frame) : (f.setFrame x).yieldLeft = f.yieldLeft := rfl
@[simp] theorem Fibre.setFrame_halted (f : Fibre) (x : Frame) : (f.setFrame x).halted = f.halted := rfl
@[simp] theorem Fibre.setFrame_rgn (f : Fibre) (x : Frame) : (f.setFrame x).rgn = f.rgn := rfl
@[simp] theorem Fibre.setFrame_rgnKept (f : Fibre) (x : Frame) : (f.setFrame x).rgnKept = f.rgnKept := rfl
@[simp] theorem Fibre.setFrame_snap (f : Fibre) (x : Frame) : (f.setFrame x).snap = f.snap := rfl
@[simp] theorem Fibre.setFrame_rgnCause (f : Fibre) (x : Frame) : (f.setFrame x).rgnCause = f.rgnCause := rfl
@[simp] theorem Fibre.setFrame_lastc (f : Fibre) (x : Frame) : (f.setFrame x).lastc = f.lastc := rfl
@[simp] theorem Fibre.setFrame_answer (f : Fibre) (x : Frame) : (f.setFrame x).answer = f.answer := rfl
@[simp] theorem Fibre.setFrame_rgnTrap (f : Fibre) (x : Frame) : (f.setFrame x).rgnTrap = f.rgnTrap := rfl
@[simp] theorem Fibre.setFrame_fetchHold (f : Fibre) (x : Frame) : (f.setFrame x).fetchHold = f.fetchHold := rfl
@[simp] theorem Fibre.setFrame_sawCinv (f : Fibre) (x : Frame) : (f.setFrame x).sawCinv = f.sawCinv := rfl
@[simp] theorem Fibre.setFrame_ringFault (f : Fibre) (x : Frame) : (f.setFrame x).ringFault = f.ringFault := rfl

/-! ### `Fibre.wake` -/

@[simp] theorem Fibre.wake_gid (f : Fibre)  : (f.wake).gid = f.gid := rfl
@[simp] theorem Fibre.wake_lid (f : Fibre)  : (f.wake).lid = f.lid := rfl
@[simp] theorem Fibre.wake_grp (f : Fibre)  : (f.wake).grp = f.grp := rfl
@[simp] theorem Fibre.wake_member (f : Fibre)  : (f.wake).member = f.member := rfl
@[simp] theorem Fibre.wake_idx (f : Fibre)  : (f.wake).idx = f.idx := rfl
@[simp] theorem Fibre.wake_level (f : Fibre)  : (f.wake).level = f.level := rfl
@[simp] theorem Fibre.wake_g (f : Fibre)  : (f.wake).g = f.g := rfl
@[simp] theorem Fibre.wake_v (f : Fibre)  : (f.wake).v = f.v := rfl
@[simp] theorem Fibre.wake_vtag (f : Fibre)  : (f.wake).vtag = f.vtag := rfl
@[simp] theorem Fibre.wake_gpend (f : Fibre)  : (f.wake).gpend = f.gpend := rfl
@[simp] theorem Fibre.wake_vpend (f : Fibre)  : (f.wake).vpend = f.vpend := rfl
@[simp] theorem Fibre.wake_bankA (f : Fibre)  : (f.wake).bankA = f.bankA := rfl
@[simp] theorem Fibre.wake_bankS (f : Fibre)  : (f.wake).bankS = f.bankS := rfl
@[simp] theorem Fibre.wake_bankM (f : Fibre)  : (f.wake).bankM = f.bankM := rfl
@[simp] theorem Fibre.wake_fcsr (f : Fibre)  : (f.wake).fcsr = f.fcsr := rfl
@[simp] theorem Fibre.wake_srng (f : Fibre)  : (f.wake).srng = f.srng := rfl
@[simp] theorem Fibre.wake_rgnh (f : Fibre)  : (f.wake).rgnh = f.rgnh := rfl
@[simp] theorem Fibre.wake_stepReg (f : Fibre)  : (f.wake).stepReg = f.stepReg := rfl
@[simp] theorem Fibre.wake_sdeleg (f : Fibre)  : (f.wake).sdeleg = f.sdeleg := rfl
@[simp] theorem Fibre.wake_mdeleg (f : Fibre)  : (f.wake).mdeleg = f.mdeleg := rfl
@[simp] theorem Fibre.wake_xroot (f : Fibre)  : (f.wake).xroot = f.xroot := rfl
@[simp] theorem Fibre.wake_xown (f : Fibre)  : (f.wake).xown = f.xown := rfl
@[simp] theorem Fibre.wake_xkeys (f : Fibre)  : (f.wake).xkeys = f.xkeys := rfl
@[simp] theorem Fibre.wake_ncbase (f : Fibre)  : (f.wake).ncbase = f.ncbase := rfl
@[simp] theorem Fibre.wake_nclim (f : Fibre)  : (f.wake).nclim = f.nclim := rfl
@[simp] theorem Fibre.wake_next (f : Fibre)  : (f.wake).next = f.next := rfl
@[simp] theorem Fibre.wake_nextSeq (f : Fibre)  : (f.wake).nextSeq = f.nextSeq := rfl
@[simp] theorem Fibre.wake_frames (f : Fibre)  : (f.wake).frames = f.frames := rfl
@[simp] theorem Fibre.wake_held (f : Fibre)  : (f.wake).held = f.held := rfl
@[simp] theorem Fibre.wake_heldAccesses (f : Fibre)  : (f.wake).heldAccesses = f.heldAccesses := rfl
@[simp] theorem Fibre.wake_ras (f : Fibre)  : (f.wake).ras = f.ras := rfl
@[simp] theorem Fibre.wake_park (f : Fibre)  : (f.wake).park = .none := rfl
@[simp] theorem Fibre.wake_yieldFor (f : Fibre)  : (f.wake).yieldFor = f.yieldFor := rfl
@[simp] theorem Fibre.wake_yieldLeft (f : Fibre)  : (f.wake).yieldLeft = f.yieldLeft := rfl
@[simp] theorem Fibre.wake_halted (f : Fibre)  : (f.wake).halted = f.halted := rfl
@[simp] theorem Fibre.wake_rgn (f : Fibre)  : (f.wake).rgn = f.rgn := rfl
@[simp] theorem Fibre.wake_rgnKept (f : Fibre)  : (f.wake).rgnKept = f.rgnKept := rfl
@[simp] theorem Fibre.wake_snap (f : Fibre)  : (f.wake).snap = f.snap := rfl
@[simp] theorem Fibre.wake_rgnCause (f : Fibre)  : (f.wake).rgnCause = f.rgnCause := rfl
@[simp] theorem Fibre.wake_lastc (f : Fibre)  : (f.wake).lastc = f.lastc := rfl
@[simp] theorem Fibre.wake_answer (f : Fibre)  : (f.wake).answer = f.answer := rfl
@[simp] theorem Fibre.wake_rgnTrap (f : Fibre)  : (f.wake).rgnTrap = f.rgnTrap := rfl
@[simp] theorem Fibre.wake_fetchHold (f : Fibre)  : (f.wake).fetchHold = f.fetchHold := rfl
@[simp] theorem Fibre.wake_sawCinv (f : Fibre)  : (f.wake).sawCinv = f.sawCinv := rfl
@[simp] theorem Fibre.wake_ringFault (f : Fibre)  : (f.wake).ringFault = f.ringFault := rfl

/-! ### `Frame.fire` -/

@[simp] theorem Frame.fire_seq (fr : Frame) (k : Nat) : (fr.fire k).seq = fr.seq := rfl
@[simp] theorem Frame.fire_addr (fr : Frame) (k : Nat) : (fr.fire k).addr = fr.addr := rfl
@[simp] theorem Frame.fire_fetched (fr : Frame) (k : Nat) : (fr.fire k).fetched = fr.fetched := rfl
@[simp] theorem Frame.fire_ser (fr : Frame) (k : Nat) : (fr.fire k).ser = fr.ser := rfl
@[simp] theorem Frame.fire_dbg (fr : Frame) (k : Nat) : (fr.fire k).dbg = fr.dbg := rfl
@[simp] theorem Frame.fire_stmask (fr : Frame) (k : Nat) : (fr.fire k).stmask = fr.stmask := rfl
@[simp] theorem Frame.fire_gw (fr : Frame) (k : Nat) : (fr.fire k).gw = fr.gw := rfl
@[simp] theorem Frame.fire_vw (fr : Frame) (k : Nat) : (fr.fire k).vw = fr.vw := rfl
@[simp] theorem Frame.fire_words (fr : Frame) (k : Nat) : (fr.fire k).words = fr.words := rfl
@[simp] theorem Frame.fire_slots (fr : Frame) (k : Nat) : (fr.fire k).slots = fr.slots := rfl
@[simp] theorem Frame.fire_fired (fr : Frame) (k : Nat) : (fr.fire k).fired = fr.fired ++ [k] := rfl
@[simp] theorem Frame.fire_owed (fr : Frame) (k : Nat) : (fr.fire k).owed = fr.owed := rfl
@[simp] theorem Frame.fire_late (fr : Frame) (k : Nat) : (fr.fire k).late = fr.late := rfl
@[simp] theorem Frame.fire_produced (fr : Frame) (k : Nat) : (fr.fire k).produced = fr.produced := rfl
@[simp] theorem Frame.fire_serPos (fr : Frame) (k : Nat) : (fr.fire k).serPos = fr.serPos := rfl
@[simp] theorem Frame.fire_passed (fr : Frame) (k : Nat) : (fr.fire k).passed = fr.passed := rfl
@[simp] theorem Frame.fire_faults (fr : Frame) (k : Nat) : (fr.fire k).faults = fr.faults := rfl
@[simp] theorem Frame.fire_gout (fr : Frame) (k : Nat) : (fr.fire k).gout = fr.gout := rfl
@[simp] theorem Frame.fire_vout (fr : Frame) (k : Nat) : (fr.fire k).vout = fr.vout := rfl
@[simp] theorem Frame.fire_exits (fr : Frame) (k : Nat) : (fr.fire k).exits = fr.exits := rfl
@[simp] theorem Frame.fire_cmds (fr : Frame) (k : Nat) : (fr.fire k).cmds = fr.cmds := rfl
@[simp] theorem Frame.fire_swrs (fr : Frame) (k : Nat) : (fr.fire k).swrs = fr.swrs := rfl
@[simp] theorem Frame.fire_flags (fr : Frame) (k : Nat) : (fr.fire k).flags = fr.flags := rfl
@[simp] theorem Frame.fire_srng (fr : Frame) (k : Nat) : (fr.fire k).srng = fr.srng := rfl
@[simp] theorem Frame.fire_guess (fr : Frame) (k : Nat) : (fr.fire k).guess = fr.guess := rfl
@[simp] theorem Frame.fire_popped (fr : Frame) (k : Nat) : (fr.fire k).popped = fr.popped := rfl
@[simp] theorem Frame.fire_inCommit (fr : Frame) (k : Nat) : (fr.fire k).inCommit = fr.inCommit := rfl
@[simp] theorem Frame.fire_waiting (fr : Frame) (k : Nat) : (fr.fire k).waiting = fr.waiting := rfl

/-! ### `Frame.fault` -/

@[simp] theorem Frame.fault_seq (fr : Frame) (i : Nat) (c : Cause) (w : Word) (r : Source) : (fr.fault i c w r).seq = fr.seq := rfl
@[simp] theorem Frame.fault_addr (fr : Frame) (i : Nat) (c : Cause) (w : Word) (r : Source) : (fr.fault i c w r).addr = fr.addr := rfl
@[simp] theorem Frame.fault_fetched (fr : Frame) (i : Nat) (c : Cause) (w : Word) (r : Source) : (fr.fault i c w r).fetched = fr.fetched := rfl
@[simp] theorem Frame.fault_ser (fr : Frame) (i : Nat) (c : Cause) (w : Word) (r : Source) : (fr.fault i c w r).ser = fr.ser := rfl
@[simp] theorem Frame.fault_dbg (fr : Frame) (i : Nat) (c : Cause) (w : Word) (r : Source) : (fr.fault i c w r).dbg = fr.dbg := rfl
@[simp] theorem Frame.fault_stmask (fr : Frame) (i : Nat) (c : Cause) (w : Word) (r : Source) : (fr.fault i c w r).stmask = fr.stmask := rfl
@[simp] theorem Frame.fault_gw (fr : Frame) (i : Nat) (c : Cause) (w : Word) (r : Source) : (fr.fault i c w r).gw = fr.gw := rfl
@[simp] theorem Frame.fault_vw (fr : Frame) (i : Nat) (c : Cause) (w : Word) (r : Source) : (fr.fault i c w r).vw = fr.vw := rfl
@[simp] theorem Frame.fault_words (fr : Frame) (i : Nat) (c : Cause) (w : Word) (r : Source) : (fr.fault i c w r).words = fr.words := rfl
@[simp] theorem Frame.fault_slots (fr : Frame) (i : Nat) (c : Cause) (w : Word) (r : Source) : (fr.fault i c w r).slots = fr.slots := rfl
@[simp] theorem Frame.fault_fired (fr : Frame) (i : Nat) (c : Cause) (w : Word) (r : Source) : (fr.fault i c w r).fired = fr.fired := rfl
@[simp] theorem Frame.fault_owed (fr : Frame) (i : Nat) (c : Cause) (w : Word) (r : Source) : (fr.fault i c w r).owed = fr.owed := rfl
@[simp] theorem Frame.fault_late (fr : Frame) (i : Nat) (c : Cause) (w : Word) (r : Source) : (fr.fault i c w r).late = fr.late := rfl
@[simp] theorem Frame.fault_produced (fr : Frame) (i : Nat) (c : Cause) (w : Word) (r : Source) : (fr.fault i c w r).produced = fr.produced := rfl
@[simp] theorem Frame.fault_serPos (fr : Frame) (i : Nat) (c : Cause) (w : Word) (r : Source) : (fr.fault i c w r).serPos = fr.serPos := rfl
@[simp] theorem Frame.fault_passed (fr : Frame) (i : Nat) (c : Cause) (w : Word) (r : Source) : (fr.fault i c w r).passed = fr.passed := rfl
@[simp] theorem Frame.fault_faults (fr : Frame) (i : Nat) (c : Cause) (w : Word) (r : Source) : (fr.fault i c w r).faults = fr.faults ++ [{ idx := i, cause := c, taddr := w, src := r }] := rfl
@[simp] theorem Frame.fault_gout (fr : Frame) (i : Nat) (c : Cause) (w : Word) (r : Source) : (fr.fault i c w r).gout = fr.gout := rfl
@[simp] theorem Frame.fault_vout (fr : Frame) (i : Nat) (c : Cause) (w : Word) (r : Source) : (fr.fault i c w r).vout = fr.vout := rfl
@[simp] theorem Frame.fault_exits (fr : Frame) (i : Nat) (c : Cause) (w : Word) (r : Source) : (fr.fault i c w r).exits = fr.exits := rfl
@[simp] theorem Frame.fault_cmds (fr : Frame) (i : Nat) (c : Cause) (w : Word) (r : Source) : (fr.fault i c w r).cmds = fr.cmds := rfl
@[simp] theorem Frame.fault_swrs (fr : Frame) (i : Nat) (c : Cause) (w : Word) (r : Source) : (fr.fault i c w r).swrs = fr.swrs := rfl
@[simp] theorem Frame.fault_flags (fr : Frame) (i : Nat) (c : Cause) (w : Word) (r : Source) : (fr.fault i c w r).flags = fr.flags := rfl
@[simp] theorem Frame.fault_srng (fr : Frame) (i : Nat) (c : Cause) (w : Word) (r : Source) : (fr.fault i c w r).srng = fr.srng := rfl
@[simp] theorem Frame.fault_guess (fr : Frame) (i : Nat) (c : Cause) (w : Word) (r : Source) : (fr.fault i c w r).guess = fr.guess := rfl
@[simp] theorem Frame.fault_popped (fr : Frame) (i : Nat) (c : Cause) (w : Word) (r : Source) : (fr.fault i c w r).popped = fr.popped := rfl
@[simp] theorem Frame.fault_inCommit (fr : Frame) (i : Nat) (c : Cause) (w : Word) (r : Source) : (fr.fault i c w r).inCommit = fr.inCommit := rfl
@[simp] theorem Frame.fault_waiting (fr : Frame) (i : Nat) (c : Cause) (w : Word) (r : Source) : (fr.fault i c w r).waiting = fr.waiting := rfl

/-! ### `Frame.produce` -/

@[simp] theorem Frame.produce_seq (fr : Frame) (n : Nat) : (fr.produce n).seq = fr.seq := rfl
@[simp] theorem Frame.produce_addr (fr : Frame) (n : Nat) : (fr.produce n).addr = fr.addr := rfl
@[simp] theorem Frame.produce_fetched (fr : Frame) (n : Nat) : (fr.produce n).fetched = fr.fetched := rfl
@[simp] theorem Frame.produce_ser (fr : Frame) (n : Nat) : (fr.produce n).ser = fr.ser := rfl
@[simp] theorem Frame.produce_dbg (fr : Frame) (n : Nat) : (fr.produce n).dbg = fr.dbg := rfl
@[simp] theorem Frame.produce_stmask (fr : Frame) (n : Nat) : (fr.produce n).stmask = fr.stmask := rfl
@[simp] theorem Frame.produce_gw (fr : Frame) (n : Nat) : (fr.produce n).gw = fr.gw := rfl
@[simp] theorem Frame.produce_vw (fr : Frame) (n : Nat) : (fr.produce n).vw = fr.vw := rfl
@[simp] theorem Frame.produce_words (fr : Frame) (n : Nat) : (fr.produce n).words = fr.words := rfl
@[simp] theorem Frame.produce_slots (fr : Frame) (n : Nat) : (fr.produce n).slots = fr.slots := rfl
@[simp] theorem Frame.produce_fired (fr : Frame) (n : Nat) : (fr.produce n).fired = fr.fired := rfl
@[simp] theorem Frame.produce_owed (fr : Frame) (n : Nat) : (fr.produce n).owed = fr.owed := rfl
@[simp] theorem Frame.produce_late (fr : Frame) (n : Nat) : (fr.produce n).late = fr.late := rfl
@[simp] theorem Frame.produce_produced (fr : Frame) (n : Nat) : (fr.produce n).produced = fr.produced ||| (1 <<< n) := rfl
@[simp] theorem Frame.produce_serPos (fr : Frame) (n : Nat) : (fr.produce n).serPos = fr.serPos := rfl
@[simp] theorem Frame.produce_passed (fr : Frame) (n : Nat) : (fr.produce n).passed = fr.passed := rfl
@[simp] theorem Frame.produce_faults (fr : Frame) (n : Nat) : (fr.produce n).faults = fr.faults := rfl
@[simp] theorem Frame.produce_gout (fr : Frame) (n : Nat) : (fr.produce n).gout = fr.gout := rfl
@[simp] theorem Frame.produce_vout (fr : Frame) (n : Nat) : (fr.produce n).vout = fr.vout := rfl
@[simp] theorem Frame.produce_exits (fr : Frame) (n : Nat) : (fr.produce n).exits = fr.exits := rfl
@[simp] theorem Frame.produce_cmds (fr : Frame) (n : Nat) : (fr.produce n).cmds = fr.cmds := rfl
@[simp] theorem Frame.produce_swrs (fr : Frame) (n : Nat) : (fr.produce n).swrs = fr.swrs := rfl
@[simp] theorem Frame.produce_flags (fr : Frame) (n : Nat) : (fr.produce n).flags = fr.flags := rfl
@[simp] theorem Frame.produce_srng (fr : Frame) (n : Nat) : (fr.produce n).srng = fr.srng := rfl
@[simp] theorem Frame.produce_guess (fr : Frame) (n : Nat) : (fr.produce n).guess = fr.guess := rfl
@[simp] theorem Frame.produce_popped (fr : Frame) (n : Nat) : (fr.produce n).popped = fr.popped := rfl
@[simp] theorem Frame.produce_inCommit (fr : Frame) (n : Nat) : (fr.produce n).inCommit = fr.inCommit := rfl
@[simp] theorem Frame.produce_waiting (fr : Frame) (n : Nat) : (fr.produce n).waiting = fr.waiting := rfl

/-! ### `State.modFibre`, `State.setFrame` and `Acting.commit` change the fibres alone -/

@[simp] theorem State.modFibre_time (s : State) (n : Nat) (h : Fibre → Fibre) :
    (s.modFibre n h).time = s.time := by
  unfold State.modFibre; cases s.fibre? n <;> rfl
@[simp] theorem State.modFibre_tick (s : State) (n : Nat) (h : Fibre → Fibre) :
    (s.modFibre n h).tick = s.tick := by
  unfold State.modFibre; cases s.fibre? n <;> rfl
@[simp] theorem State.modFibre_cur (s : State) (n : Nat) (h : Fibre → Fibre) :
    (s.modFibre n h).cur = s.cur := by
  unfold State.modFibre; cases s.fibre? n <;> rfl
@[simp] theorem State.modFibre_turn (s : State) (n : Nat) (h : Fibre → Fibre) :
    (s.modFibre n h).turn = s.turn := by
  unfold State.modFibre; cases s.fibre? n <;> rfl
@[simp] theorem State.modFibre_steps (s : State) (n : Nat) (h : Fibre → Fibre) :
    (s.modFibre n h).steps = s.steps := by
  unfold State.modFibre; cases s.fibre? n <;> rfl
@[simp] theorem State.modFibre_round (s : State) (n : Nat) (h : Fibre → Fibre) :
    (s.modFibre n h).round = s.round := by
  unfold State.modFibre; cases s.fibre? n <;> rfl
@[simp] theorem State.modFibre_inputs (s : State) (n : Nat) (h : Fibre → Fibre) :
    (s.modFibre n h).inputs = s.inputs := by
  unfold State.modFibre; cases s.fibre? n <;> rfl
@[simp] theorem State.modFibre_out (s : State) (n : Nat) (h : Fibre → Fibre) :
    (s.modFibre n h).out = s.out := by
  unfold State.modFibre; cases s.fibre? n <;> rfl
@[simp] theorem State.modFibre_mem (s : State) (n : Nat) (h : Fibre → Fibre) :
    (s.modFibre n h).mem = s.mem := by
  unfold State.modFibre; cases s.fibre? n <;> rfl
@[simp] theorem State.modFibre_lineKey (s : State) (n : Nat) (h : Fibre → Fibre) :
    (s.modFibre n h).lineKey = s.lineKey := by
  unfold State.modFibre; cases s.fibre? n <;> rfl
@[simp] theorem State.modFibre_badLines (s : State) (n : Nat) (h : Fibre → Fibre) :
    (s.modFibre n h).badLines = s.badLines := by
  unfold State.modFibre; cases s.fibre? n <;> rfl
@[simp] theorem State.modFibre_llc (s : State) (n : Nat) (h : Fibre → Fibre) :
    (s.modFibre n h).llc = s.llc := by
  unfold State.modFibre; cases s.fibre? n <;> rfl
@[simp] theorem State.modFibre_cmem (s : State) (n : Nat) (h : Fibre → Fibre) :
    (s.modFibre n h).cmem = s.cmem := by
  unfold State.modFibre; cases s.fibre? n <;> rfl
@[simp] theorem State.modFibre_gtag (s : State) (n : Nat) (h : Fibre → Fibre) :
    (s.modFibre n h).gtag = s.gtag := by
  unfold State.modFibre; cases s.fibre? n <;> rfl
@[simp] theorem State.modFibre_badChunks (s : State) (n : Nat) (h : Fibre → Fibre) :
    (s.modFibre n h).badChunks = s.badChunks := by
  unfold State.modFibre; cases s.fibre? n <;> rfl
@[simp] theorem State.modFibre_sharers (s : State) (n : Nat) (h : Fibre → Fibre) :
    (s.modFibre n h).sharers = s.sharers := by
  unfold State.modFibre; cases s.fibre? n <;> rfl
@[simp] theorem State.modFibre_homeQ (s : State) (n : Nat) (h : Fibre → Fibre) :
    (s.modFibre n h).homeQ = s.homeQ := by
  unfold State.modFibre; cases s.fibre? n <;> rfl
@[simp] theorem State.modFibre_hdm (s : State) (n : Nat) (h : Fibre → Fibre) :
    (s.modFibre n h).hdm = s.hdm := by
  unfold State.modFibre; cases s.fibre? n <;> rfl
@[simp] theorem State.modFibre_hdmRanges (s : State) (n : Nat) (h : Fibre → Fibre) :
    (s.modFibre n h).hdmRanges = s.hdmRanges := by
  unfold State.modFibre; cases s.fibre? n <;> rfl
@[simp] theorem State.modFibre_snoops (s : State) (n : Nat) (h : Fibre → Fibre) :
    (s.modFibre n h).snoops = s.snoops := by
  unfold State.modFibre; cases s.fibre? n <;> rfl
@[simp] theorem State.modFibre_halves (s : State) (n : Nat) (h : Fibre → Fibre) :
    (s.modFibre n h).halves = s.halves := by
  unfold State.modFibre; cases s.fibre? n <;> rfl
@[simp] theorem State.modFibre_tlb2 (s : State) (n : Nat) (h : Fibre → Fibre) :
    (s.modFibre n h).tlb2 = s.tlb2 := by
  unfold State.modFibre; cases s.fibre? n <;> rfl
@[simp] theorem State.modFibre_cells (s : State) (n : Nat) (h : Fibre → Fibre) :
    (s.modFibre n h).cells = s.cells := by
  unfold State.modFibre; cases s.fibre? n <;> rfl
@[simp] theorem State.modFibre_nextFid (s : State) (n : Nat) (h : Fibre → Fibre) :
    (s.modFibre n h).nextFid = s.nextFid := by
  unfold State.modFibre; cases s.fibre? n <;> rfl
@[simp] theorem State.modFibre_accesses (s : State) (n : Nat) (h : Fibre → Fibre) :
    (s.modFibre n h).accesses = s.accesses := by
  unfold State.modFibre; cases s.fibre? n <;> rfl
@[simp] theorem State.modFibre_nextId (s : State) (n : Nat) (h : Fibre → Fibre) :
    (s.modFibre n h).nextId = s.nextId := by
  unfold State.modFibre; cases s.fibre? n <;> rfl
@[simp] theorem State.modFibre_groups (s : State) (n : Nat) (h : Fibre → Fibre) :
    (s.modFibre n h).groups = s.groups := by
  unfold State.modFibre; cases s.fibre? n <;> rfl
@[simp] theorem State.modFibre_nextGid (s : State) (n : Nat) (h : Fibre → Fibre) :
    (s.modFibre n h).nextGid = s.nextGid := by
  unfold State.modFibre; cases s.fibre? n <;> rfl
@[simp] theorem State.modFibre_launches (s : State) (n : Nat) (h : Fibre → Fibre) :
    (s.modFibre n h).launches = s.launches := by
  unfold State.modFibre; cases s.fibre? n <;> rfl
@[simp] theorem State.modFibre_expect (s : State) (n : Nat) (h : Fibre → Fibre) :
    (s.modFibre n h).expect = s.expect := by
  unfold State.modFibre; cases s.fibre? n <;> rfl
@[simp] theorem State.modFibre_taking (s : State) (n : Nat) (h : Fibre → Fibre) :
    (s.modFibre n h).taking = s.taking := by
  unfold State.modFibre; cases s.fibre? n <;> rfl
@[simp] theorem State.modFibre_changes (s : State) (n : Nat) (h : Fibre → Fibre) :
    (s.modFibre n h).changes = s.changes := by
  unfold State.modFibre; cases s.fibre? n <;> rfl
@[simp] theorem State.modFibre_cancelling (s : State) (n : Nat) (h : Fibre → Fibre) :
    (s.modFibre n h).cancelling = s.cancelling := by
  unfold State.modFibre; cases s.fibre? n <;> rfl
@[simp] theorem State.modFibre_events (s : State) (n : Nat) (h : Fibre → Fibre) :
    (s.modFibre n h).events = s.events := by
  unfold State.modFibre; cases s.fibre? n <;> rfl
@[simp] theorem State.modFibre_queues (s : State) (n : Nat) (h : Fibre → Fibre) :
    (s.modFibre n h).queues = s.queues := by
  unfold State.modFibre; cases s.fibre? n <;> rfl
@[simp] theorem State.modFibre_virga (s : State) (n : Nat) (h : Fibre → Fibre) :
    (s.modFibre n h).virga = s.virga := by
  unfold State.modFibre; cases s.fibre? n <;> rfl
@[simp] theorem State.modFibre_dies (s : State) (n : Nat) (h : Fibre → Fibre) :
    (s.modFibre n h).dies = s.dies := by
  unfold State.modFibre; cases s.fibre? n <;> rfl
@[simp] theorem State.modFibre_credits (s : State) (n : Nat) (h : Fibre → Fibre) :
    (s.modFibre n h).credits = s.credits := by
  unfold State.modFibre; cases s.fibre? n <;> rfl
@[simp] theorem State.modFibre_ctl (s : State) (n : Nat) (h : Fibre → Fibre) :
    (s.modFibre n h).ctl = s.ctl := by
  unfold State.modFibre; cases s.fibre? n <;> rfl
@[simp] theorem State.modFibre_keys (s : State) (n : Nat) (h : Fibre → Fibre) :
    (s.modFibre n h).keys = s.keys := by
  unfold State.modFibre; cases s.fibre? n <;> rfl
@[simp] theorem State.modFibre_ideKeys (s : State) (n : Nat) (h : Fibre → Fibre) :
    (s.modFibre n h).ideKeys = s.ideKeys := by
  unfold State.modFibre; cases s.fibre? n <;> rfl
@[simp] theorem State.modFibre_sessions (s : State) (n : Nat) (h : Fibre → Fibre) :
    (s.modFibre n h).sessions = s.sessions := by
  unfold State.modFibre; cases s.fibre? n <;> rfl
@[simp] theorem State.modFibre_flashGood (s : State) (n : Nat) (h : Fibre → Fibre) :
    (s.modFibre n h).flashGood = s.flashGood := by
  unfold State.modFibre; cases s.fibre? n <;> rfl
@[simp] theorem State.modFibre_imageVer (s : State) (n : Nat) (h : Fibre → Fibre) :
    (s.modFibre n h).imageVer = s.imageVer := by
  unfold State.modFibre; cases s.fibre? n <;> rfl
@[simp] theorem State.modFibre_image (s : State) (n : Nat) (h : Fibre → Fibre) :
    (s.modFibre n h).image = s.image := by
  unfold State.modFibre; cases s.fibre? n <;> rfl
@[simp] theorem State.modFibre_runImage (s : State) (n : Nat) (h : Fibre → Fibre) :
    (s.modFibre n h).runImage = s.runImage := by
  unfold State.modFibre; cases s.fibre? n <;> rfl
@[simp] theorem State.modFibre_recovery (s : State) (n : Nat) (h : Fibre → Fibre) :
    (s.modFibre n h).recovery = s.recovery := by
  unfold State.modFibre; cases s.fibre? n <;> rfl
@[simp] theorem State.modFibre_partners (s : State) (n : Nat) (h : Fibre → Fibre) :
    (s.modFibre n h).partners = s.partners := by
  unfold State.modFibre; cases s.fibre? n <;> rfl
@[simp] theorem State.modFibre_ports (s : State) (n : Nat) (h : Fibre → Fibre) :
    (s.modFibre n h).ports = s.ports := by
  unfold State.modFibre; cases s.fibre? n <;> rfl
@[simp] theorem State.modFibre_untrained (s : State) (n : Nat) (h : Fibre → Fibre) :
    (s.modFibre n h).untrained = s.untrained := by
  unfold State.modFibre; cases s.fibre? n <;> rfl
@[simp] theorem State.modFibre_fusedMin (s : State) (n : Nat) (h : Fibre → Fibre) :
    (s.modFibre n h).fusedMin = s.fusedMin := by
  unfold State.modFibre; cases s.fibre? n <;> rfl
@[simp] theorem State.modFibre_flashCfg (s : State) (n : Nat) (h : Fibre → Fibre) :
    (s.modFibre n h).flashCfg = s.flashCfg := by
  unfold State.modFibre; cases s.fibre? n <;> rfl
@[simp] theorem State.modFibre_startedAt (s : State) (n : Nat) (h : Fibre → Fibre) :
    (s.modFibre n h).startedAt = s.startedAt := by
  unfold State.modFibre; cases s.fibre? n <;> rfl
@[simp] theorem State.modFibre_leaseAt (s : State) (n : Nat) (h : Fibre → Fibre) :
    (s.modFibre n h).leaseAt = s.leaseAt := by
  unfold State.modFibre; cases s.fibre? n <;> rfl
@[simp] theorem State.modFibre_closed (s : State) (n : Nat) (h : Fibre → Fibre) :
    (s.modFibre n h).closed = s.closed := by
  unfold State.modFibre; cases s.fibre? n <;> rfl
@[simp] theorem State.setFrame_time (s : State) (n : Nat) (x : Frame) : (s.setFrame n x).time = s.time :=
  State.modFibre_time s n _
@[simp] theorem State.setFrame_tick (s : State) (n : Nat) (x : Frame) : (s.setFrame n x).tick = s.tick :=
  State.modFibre_tick s n _
@[simp] theorem State.setFrame_cur (s : State) (n : Nat) (x : Frame) : (s.setFrame n x).cur = s.cur :=
  State.modFibre_cur s n _
@[simp] theorem State.setFrame_turn (s : State) (n : Nat) (x : Frame) : (s.setFrame n x).turn = s.turn :=
  State.modFibre_turn s n _
@[simp] theorem State.setFrame_steps (s : State) (n : Nat) (x : Frame) : (s.setFrame n x).steps = s.steps :=
  State.modFibre_steps s n _
@[simp] theorem State.setFrame_round (s : State) (n : Nat) (x : Frame) : (s.setFrame n x).round = s.round :=
  State.modFibre_round s n _
@[simp] theorem State.setFrame_inputs (s : State) (n : Nat) (x : Frame) : (s.setFrame n x).inputs = s.inputs :=
  State.modFibre_inputs s n _
@[simp] theorem State.setFrame_out (s : State) (n : Nat) (x : Frame) : (s.setFrame n x).out = s.out :=
  State.modFibre_out s n _
@[simp] theorem State.setFrame_mem (s : State) (n : Nat) (x : Frame) : (s.setFrame n x).mem = s.mem :=
  State.modFibre_mem s n _
@[simp] theorem State.setFrame_lineKey (s : State) (n : Nat) (x : Frame) : (s.setFrame n x).lineKey = s.lineKey :=
  State.modFibre_lineKey s n _
@[simp] theorem State.setFrame_badLines (s : State) (n : Nat) (x : Frame) : (s.setFrame n x).badLines = s.badLines :=
  State.modFibre_badLines s n _
@[simp] theorem State.setFrame_llc (s : State) (n : Nat) (x : Frame) : (s.setFrame n x).llc = s.llc :=
  State.modFibre_llc s n _
@[simp] theorem State.setFrame_cmem (s : State) (n : Nat) (x : Frame) : (s.setFrame n x).cmem = s.cmem :=
  State.modFibre_cmem s n _
@[simp] theorem State.setFrame_gtag (s : State) (n : Nat) (x : Frame) : (s.setFrame n x).gtag = s.gtag :=
  State.modFibre_gtag s n _
@[simp] theorem State.setFrame_badChunks (s : State) (n : Nat) (x : Frame) : (s.setFrame n x).badChunks = s.badChunks :=
  State.modFibre_badChunks s n _
@[simp] theorem State.setFrame_sharers (s : State) (n : Nat) (x : Frame) : (s.setFrame n x).sharers = s.sharers :=
  State.modFibre_sharers s n _
@[simp] theorem State.setFrame_homeQ (s : State) (n : Nat) (x : Frame) : (s.setFrame n x).homeQ = s.homeQ :=
  State.modFibre_homeQ s n _
@[simp] theorem State.setFrame_hdm (s : State) (n : Nat) (x : Frame) : (s.setFrame n x).hdm = s.hdm :=
  State.modFibre_hdm s n _
@[simp] theorem State.setFrame_hdmRanges (s : State) (n : Nat) (x : Frame) : (s.setFrame n x).hdmRanges = s.hdmRanges :=
  State.modFibre_hdmRanges s n _
@[simp] theorem State.setFrame_snoops (s : State) (n : Nat) (x : Frame) : (s.setFrame n x).snoops = s.snoops :=
  State.modFibre_snoops s n _
@[simp] theorem State.setFrame_halves (s : State) (n : Nat) (x : Frame) : (s.setFrame n x).halves = s.halves :=
  State.modFibre_halves s n _
@[simp] theorem State.setFrame_tlb2 (s : State) (n : Nat) (x : Frame) : (s.setFrame n x).tlb2 = s.tlb2 :=
  State.modFibre_tlb2 s n _
@[simp] theorem State.setFrame_cells (s : State) (n : Nat) (x : Frame) : (s.setFrame n x).cells = s.cells :=
  State.modFibre_cells s n _
@[simp] theorem State.setFrame_nextFid (s : State) (n : Nat) (x : Frame) : (s.setFrame n x).nextFid = s.nextFid :=
  State.modFibre_nextFid s n _
@[simp] theorem State.setFrame_accesses (s : State) (n : Nat) (x : Frame) : (s.setFrame n x).accesses = s.accesses :=
  State.modFibre_accesses s n _
@[simp] theorem State.setFrame_nextId (s : State) (n : Nat) (x : Frame) : (s.setFrame n x).nextId = s.nextId :=
  State.modFibre_nextId s n _
@[simp] theorem State.setFrame_groups (s : State) (n : Nat) (x : Frame) : (s.setFrame n x).groups = s.groups :=
  State.modFibre_groups s n _
@[simp] theorem State.setFrame_nextGid (s : State) (n : Nat) (x : Frame) : (s.setFrame n x).nextGid = s.nextGid :=
  State.modFibre_nextGid s n _
@[simp] theorem State.setFrame_launches (s : State) (n : Nat) (x : Frame) : (s.setFrame n x).launches = s.launches :=
  State.modFibre_launches s n _
@[simp] theorem State.setFrame_expect (s : State) (n : Nat) (x : Frame) : (s.setFrame n x).expect = s.expect :=
  State.modFibre_expect s n _
@[simp] theorem State.setFrame_taking (s : State) (n : Nat) (x : Frame) : (s.setFrame n x).taking = s.taking :=
  State.modFibre_taking s n _
@[simp] theorem State.setFrame_changes (s : State) (n : Nat) (x : Frame) : (s.setFrame n x).changes = s.changes :=
  State.modFibre_changes s n _
@[simp] theorem State.setFrame_cancelling (s : State) (n : Nat) (x : Frame) : (s.setFrame n x).cancelling = s.cancelling :=
  State.modFibre_cancelling s n _
@[simp] theorem State.setFrame_events (s : State) (n : Nat) (x : Frame) : (s.setFrame n x).events = s.events :=
  State.modFibre_events s n _
@[simp] theorem State.setFrame_queues (s : State) (n : Nat) (x : Frame) : (s.setFrame n x).queues = s.queues :=
  State.modFibre_queues s n _
@[simp] theorem State.setFrame_virga (s : State) (n : Nat) (x : Frame) : (s.setFrame n x).virga = s.virga :=
  State.modFibre_virga s n _
@[simp] theorem State.setFrame_dies (s : State) (n : Nat) (x : Frame) : (s.setFrame n x).dies = s.dies :=
  State.modFibre_dies s n _
@[simp] theorem State.setFrame_credits (s : State) (n : Nat) (x : Frame) : (s.setFrame n x).credits = s.credits :=
  State.modFibre_credits s n _
@[simp] theorem State.setFrame_ctl (s : State) (n : Nat) (x : Frame) : (s.setFrame n x).ctl = s.ctl :=
  State.modFibre_ctl s n _
@[simp] theorem State.setFrame_keys (s : State) (n : Nat) (x : Frame) : (s.setFrame n x).keys = s.keys :=
  State.modFibre_keys s n _
@[simp] theorem State.setFrame_ideKeys (s : State) (n : Nat) (x : Frame) : (s.setFrame n x).ideKeys = s.ideKeys :=
  State.modFibre_ideKeys s n _
@[simp] theorem State.setFrame_sessions (s : State) (n : Nat) (x : Frame) : (s.setFrame n x).sessions = s.sessions :=
  State.modFibre_sessions s n _
@[simp] theorem State.setFrame_flashGood (s : State) (n : Nat) (x : Frame) : (s.setFrame n x).flashGood = s.flashGood :=
  State.modFibre_flashGood s n _
@[simp] theorem State.setFrame_imageVer (s : State) (n : Nat) (x : Frame) : (s.setFrame n x).imageVer = s.imageVer :=
  State.modFibre_imageVer s n _
@[simp] theorem State.setFrame_image (s : State) (n : Nat) (x : Frame) : (s.setFrame n x).image = s.image :=
  State.modFibre_image s n _
@[simp] theorem State.setFrame_runImage (s : State) (n : Nat) (x : Frame) : (s.setFrame n x).runImage = s.runImage :=
  State.modFibre_runImage s n _
@[simp] theorem State.setFrame_recovery (s : State) (n : Nat) (x : Frame) : (s.setFrame n x).recovery = s.recovery :=
  State.modFibre_recovery s n _
@[simp] theorem State.setFrame_partners (s : State) (n : Nat) (x : Frame) : (s.setFrame n x).partners = s.partners :=
  State.modFibre_partners s n _
@[simp] theorem State.setFrame_ports (s : State) (n : Nat) (x : Frame) : (s.setFrame n x).ports = s.ports :=
  State.modFibre_ports s n _
@[simp] theorem State.setFrame_untrained (s : State) (n : Nat) (x : Frame) : (s.setFrame n x).untrained = s.untrained :=
  State.modFibre_untrained s n _
@[simp] theorem State.setFrame_fusedMin (s : State) (n : Nat) (x : Frame) : (s.setFrame n x).fusedMin = s.fusedMin :=
  State.modFibre_fusedMin s n _
@[simp] theorem State.setFrame_flashCfg (s : State) (n : Nat) (x : Frame) : (s.setFrame n x).flashCfg = s.flashCfg :=
  State.modFibre_flashCfg s n _
@[simp] theorem State.setFrame_startedAt (s : State) (n : Nat) (x : Frame) : (s.setFrame n x).startedAt = s.startedAt :=
  State.modFibre_startedAt s n _
@[simp] theorem State.setFrame_leaseAt (s : State) (n : Nat) (x : Frame) : (s.setFrame n x).leaseAt = s.leaseAt :=
  State.modFibre_leaseAt s n _
@[simp] theorem State.setFrame_closed (s : State) (n : Nat) (x : Frame) : (s.setFrame n x).closed = s.closed :=
  State.modFibre_closed s n _
@[simp] theorem Acting.commit_time (a : Acting) (s : State) (x : Frame) : (a.commit s x).time = s.time :=
  State.setFrame_time s a.fid x
@[simp] theorem Acting.commit_tick (a : Acting) (s : State) (x : Frame) : (a.commit s x).tick = s.tick :=
  State.setFrame_tick s a.fid x
@[simp] theorem Acting.commit_cur (a : Acting) (s : State) (x : Frame) : (a.commit s x).cur = s.cur :=
  State.setFrame_cur s a.fid x
@[simp] theorem Acting.commit_turn (a : Acting) (s : State) (x : Frame) : (a.commit s x).turn = s.turn :=
  State.setFrame_turn s a.fid x
@[simp] theorem Acting.commit_steps (a : Acting) (s : State) (x : Frame) : (a.commit s x).steps = s.steps :=
  State.setFrame_steps s a.fid x
@[simp] theorem Acting.commit_round (a : Acting) (s : State) (x : Frame) : (a.commit s x).round = s.round :=
  State.setFrame_round s a.fid x
@[simp] theorem Acting.commit_inputs (a : Acting) (s : State) (x : Frame) : (a.commit s x).inputs = s.inputs :=
  State.setFrame_inputs s a.fid x
@[simp] theorem Acting.commit_out (a : Acting) (s : State) (x : Frame) : (a.commit s x).out = s.out :=
  State.setFrame_out s a.fid x
@[simp] theorem Acting.commit_mem (a : Acting) (s : State) (x : Frame) : (a.commit s x).mem = s.mem :=
  State.setFrame_mem s a.fid x
@[simp] theorem Acting.commit_lineKey (a : Acting) (s : State) (x : Frame) : (a.commit s x).lineKey = s.lineKey :=
  State.setFrame_lineKey s a.fid x
@[simp] theorem Acting.commit_badLines (a : Acting) (s : State) (x : Frame) : (a.commit s x).badLines = s.badLines :=
  State.setFrame_badLines s a.fid x
@[simp] theorem Acting.commit_llc (a : Acting) (s : State) (x : Frame) : (a.commit s x).llc = s.llc :=
  State.setFrame_llc s a.fid x
@[simp] theorem Acting.commit_cmem (a : Acting) (s : State) (x : Frame) : (a.commit s x).cmem = s.cmem :=
  State.setFrame_cmem s a.fid x
@[simp] theorem Acting.commit_gtag (a : Acting) (s : State) (x : Frame) : (a.commit s x).gtag = s.gtag :=
  State.setFrame_gtag s a.fid x
@[simp] theorem Acting.commit_badChunks (a : Acting) (s : State) (x : Frame) : (a.commit s x).badChunks = s.badChunks :=
  State.setFrame_badChunks s a.fid x
@[simp] theorem Acting.commit_sharers (a : Acting) (s : State) (x : Frame) : (a.commit s x).sharers = s.sharers :=
  State.setFrame_sharers s a.fid x
@[simp] theorem Acting.commit_homeQ (a : Acting) (s : State) (x : Frame) : (a.commit s x).homeQ = s.homeQ :=
  State.setFrame_homeQ s a.fid x
@[simp] theorem Acting.commit_hdm (a : Acting) (s : State) (x : Frame) : (a.commit s x).hdm = s.hdm :=
  State.setFrame_hdm s a.fid x
@[simp] theorem Acting.commit_hdmRanges (a : Acting) (s : State) (x : Frame) : (a.commit s x).hdmRanges = s.hdmRanges :=
  State.setFrame_hdmRanges s a.fid x
@[simp] theorem Acting.commit_snoops (a : Acting) (s : State) (x : Frame) : (a.commit s x).snoops = s.snoops :=
  State.setFrame_snoops s a.fid x
@[simp] theorem Acting.commit_halves (a : Acting) (s : State) (x : Frame) : (a.commit s x).halves = s.halves :=
  State.setFrame_halves s a.fid x
@[simp] theorem Acting.commit_tlb2 (a : Acting) (s : State) (x : Frame) : (a.commit s x).tlb2 = s.tlb2 :=
  State.setFrame_tlb2 s a.fid x
@[simp] theorem Acting.commit_cells (a : Acting) (s : State) (x : Frame) : (a.commit s x).cells = s.cells :=
  State.setFrame_cells s a.fid x
@[simp] theorem Acting.commit_nextFid (a : Acting) (s : State) (x : Frame) : (a.commit s x).nextFid = s.nextFid :=
  State.setFrame_nextFid s a.fid x
@[simp] theorem Acting.commit_accesses (a : Acting) (s : State) (x : Frame) : (a.commit s x).accesses = s.accesses :=
  State.setFrame_accesses s a.fid x
@[simp] theorem Acting.commit_nextId (a : Acting) (s : State) (x : Frame) : (a.commit s x).nextId = s.nextId :=
  State.setFrame_nextId s a.fid x
@[simp] theorem Acting.commit_groups (a : Acting) (s : State) (x : Frame) : (a.commit s x).groups = s.groups :=
  State.setFrame_groups s a.fid x
@[simp] theorem Acting.commit_nextGid (a : Acting) (s : State) (x : Frame) : (a.commit s x).nextGid = s.nextGid :=
  State.setFrame_nextGid s a.fid x
@[simp] theorem Acting.commit_launches (a : Acting) (s : State) (x : Frame) : (a.commit s x).launches = s.launches :=
  State.setFrame_launches s a.fid x
@[simp] theorem Acting.commit_expect (a : Acting) (s : State) (x : Frame) : (a.commit s x).expect = s.expect :=
  State.setFrame_expect s a.fid x
@[simp] theorem Acting.commit_taking (a : Acting) (s : State) (x : Frame) : (a.commit s x).taking = s.taking :=
  State.setFrame_taking s a.fid x
@[simp] theorem Acting.commit_changes (a : Acting) (s : State) (x : Frame) : (a.commit s x).changes = s.changes :=
  State.setFrame_changes s a.fid x
@[simp] theorem Acting.commit_cancelling (a : Acting) (s : State) (x : Frame) : (a.commit s x).cancelling = s.cancelling :=
  State.setFrame_cancelling s a.fid x
@[simp] theorem Acting.commit_events (a : Acting) (s : State) (x : Frame) : (a.commit s x).events = s.events :=
  State.setFrame_events s a.fid x
@[simp] theorem Acting.commit_queues (a : Acting) (s : State) (x : Frame) : (a.commit s x).queues = s.queues :=
  State.setFrame_queues s a.fid x
@[simp] theorem Acting.commit_virga (a : Acting) (s : State) (x : Frame) : (a.commit s x).virga = s.virga :=
  State.setFrame_virga s a.fid x
@[simp] theorem Acting.commit_dies (a : Acting) (s : State) (x : Frame) : (a.commit s x).dies = s.dies :=
  State.setFrame_dies s a.fid x
@[simp] theorem Acting.commit_credits (a : Acting) (s : State) (x : Frame) : (a.commit s x).credits = s.credits :=
  State.setFrame_credits s a.fid x
@[simp] theorem Acting.commit_ctl (a : Acting) (s : State) (x : Frame) : (a.commit s x).ctl = s.ctl :=
  State.setFrame_ctl s a.fid x
@[simp] theorem Acting.commit_keys (a : Acting) (s : State) (x : Frame) : (a.commit s x).keys = s.keys :=
  State.setFrame_keys s a.fid x
@[simp] theorem Acting.commit_ideKeys (a : Acting) (s : State) (x : Frame) : (a.commit s x).ideKeys = s.ideKeys :=
  State.setFrame_ideKeys s a.fid x
@[simp] theorem Acting.commit_sessions (a : Acting) (s : State) (x : Frame) : (a.commit s x).sessions = s.sessions :=
  State.setFrame_sessions s a.fid x
@[simp] theorem Acting.commit_flashGood (a : Acting) (s : State) (x : Frame) : (a.commit s x).flashGood = s.flashGood :=
  State.setFrame_flashGood s a.fid x
@[simp] theorem Acting.commit_imageVer (a : Acting) (s : State) (x : Frame) : (a.commit s x).imageVer = s.imageVer :=
  State.setFrame_imageVer s a.fid x
@[simp] theorem Acting.commit_image (a : Acting) (s : State) (x : Frame) : (a.commit s x).image = s.image :=
  State.setFrame_image s a.fid x
@[simp] theorem Acting.commit_runImage (a : Acting) (s : State) (x : Frame) : (a.commit s x).runImage = s.runImage :=
  State.setFrame_runImage s a.fid x
@[simp] theorem Acting.commit_recovery (a : Acting) (s : State) (x : Frame) : (a.commit s x).recovery = s.recovery :=
  State.setFrame_recovery s a.fid x
@[simp] theorem Acting.commit_partners (a : Acting) (s : State) (x : Frame) : (a.commit s x).partners = s.partners :=
  State.setFrame_partners s a.fid x
@[simp] theorem Acting.commit_ports (a : Acting) (s : State) (x : Frame) : (a.commit s x).ports = s.ports :=
  State.setFrame_ports s a.fid x
@[simp] theorem Acting.commit_untrained (a : Acting) (s : State) (x : Frame) : (a.commit s x).untrained = s.untrained :=
  State.setFrame_untrained s a.fid x
@[simp] theorem Acting.commit_fusedMin (a : Acting) (s : State) (x : Frame) : (a.commit s x).fusedMin = s.fusedMin :=
  State.setFrame_fusedMin s a.fid x
@[simp] theorem Acting.commit_flashCfg (a : Acting) (s : State) (x : Frame) : (a.commit s x).flashCfg = s.flashCfg :=
  State.setFrame_flashCfg s a.fid x
@[simp] theorem Acting.commit_startedAt (a : Acting) (s : State) (x : Frame) : (a.commit s x).startedAt = s.startedAt :=
  State.setFrame_startedAt s a.fid x
@[simp] theorem Acting.commit_leaseAt (a : Acting) (s : State) (x : Frame) : (a.commit s x).leaseAt = s.leaseAt :=
  State.setFrame_leaseAt s a.fid x
@[simp] theorem Acting.commit_closed (a : Acting) (s : State) (x : Frame) : (a.commit s x).closed = s.closed :=
  State.setFrame_closed s a.fid x

end Sys2Proof.Machine
end

