-- ==== Sys2Proof/Laws/Ops.lean ====
section
/-! SUPPORT. One lemma for each shared operation of the meanings: what it answers when the instruction
fires, and all that it can answer. -/

namespace Sys2Proof.Machine

/-! ### Instructions that only compute a token -/

/-- With operands that are values, the result of `f` is sent. -/
theorem dataflow_next {i : Instr} {f : Acting → Result} {s : State} {a : Acting} (h : Fires s i a)
    (hb : badOperand (a.fr.operands a.k i) = none) :
    dataflow i f s = .next (a.commit s (a.fr.finish a.k i (f a))) := by
  obtain ⟨h1, h2⟩ := h
  simp only [dataflow, h1, h2, hb, if_true]

/-- With a null or poisoned operand, that token is sent (R13, R20). -/
theorem dataflow_bad {i : Instr} {f : Acting → Result} {s : State} {a : Acting} {t : Token}
    (h : Fires s i a) (hb : badOperand (a.fr.operands a.k i) = some t) :
    dataflow i f s = .next (a.commit s (a.fr.finish a.k i (.ok t))) := by
  obtain ⟨h1, h2⟩ := h
  simp only [dataflow, h1, h2, hb, if_true]

/-- All that a dataflow instruction can answer. -/
theorem dataflow_cases {i : Instr} {f : Acting → Result} {s t : State} (h : dataflow i f s = .next t) :
    t = s ∨ ∃ a r, s.acting i = some a ∧ t = a.commit s (a.fr.finish a.k i r) := by
  unfold dataflow at h
  split at h
  · cases h
  · rename_i a ha
    split at h
    · cases h; exact .inr ⟨a, _, ha, rfl⟩
    · cases h; exact .inl rfl

/-- A result without a fault is a token sent. -/
theorem sends_of {i : Instr} {s : State} {a : Acting} {r : Result} (hr : r.fault = none) :
    a.commit s (a.fr.finish a.k i r) = a.sends s i r.tok r.flags := by
  simp [Frame.finish, Acting.sends, hr]

/-- A meaning over `dataflow` completes on values with what its function gives. -/
theorem computes_of {i : Instr} {f : Acting → Result} {g : Acting → Token × BitVec 5}
    (he : ∀ s, exec i s = dataflow i f s)
    (h : ∀ a, f a = { tok := (g a).1, flags := (g a).2, fault := none }) : Computes i g := by
  intro s a hf hb
  rw [he, dataflow_next hf hb, h, sends_of rfl]

/-- Poison governs, then null (R13, R20). -/
theorem bad_of {i : Instr} {f : Acting → Result} (he : ∀ s, exec i s = dataflow i f s) {s : State}
    {a : Acting} (h : Fires s i a) :
    (.poison ∈ a.fr.operands a.k i → exec i s = .next (a.sends s i .poison 0))
    ∧ (.poison ∉ a.fr.operands a.k i → .null ∈ a.fr.operands a.k i →
      exec i s = .next (a.sends s i .null 0)) := by
  constructor
  · intro hp
    rw [he, dataflow_bad h (t := .poison) (by simp [badOperand, hp]), sends_of rfl]; rfl
  · intro hp hn
    rw [he, dataflow_bad h (t := .null) (by simp [badOperand, hp, hn]), sends_of rfl]; rfl

/-- A value token is neither null nor poison. -/
theorem badOperand_val1 (x : Word) : badOperand [.val x] = none := by simp [badOperand]
theorem badOperand_val2 (x y : Word) : badOperand [.val x, .val y] = none := by simp [badOperand]

theorem unary_next {i : Instr} {f : Word → Word} {s : State} {a : Acting} {x : Word} (h : Fires s i a)
    (hs : (slotsOf i).l ≠ .none ∧ (slotsOf i).r = .none ∧ (slotsOf i).x = .none)
    (hl : a.fr.opL a.k = .val x) :
    unary i f s = .next (a.commit s (a.fr.finish a.k i (.ok (.val (f x))))) := by
  unfold unary
  rw [dataflow_next h (by simp [Frame.operands, hs, hl, badOperand])]
  rw [hl]; rfl

theorem binary_next {i : Instr} {f : Word → Word → Word} {s : State} {a : Acting} {x y : Word}
    (h : Fires s i a) (hs : (slotsOf i).l ≠ .none ∧ (slotsOf i).r ≠ .none ∧ (slotsOf i).x = .none)
    (hl : a.fr.opL a.k = .val x) (hr : a.fr.opR a.k = .val y) :
    binary i f s = .next (a.commit s (a.fr.finish a.k i (.ok (.val (f x y))))) := by
  unfold binary
  rw [dataflow_next h (by simp [Frame.operands, hs, hl, hr, badOperand])]
  rw [hl, hr]; rfl

/-! ### Tokens -/

/-- A token that fits an open slot fills it, and that is all. -/
theorem deliver_open {fr : Frame} {t : Target} {owner key : Nat} {w : SlotW} {tok : Token}
    (h : fr.Open t owner key w) (hf : tok.fits w = true) :
    fr.deliver t tok = { fr with slots := fr.slots.put key tok } := by
  obtain ⟨⟨at_, h1⟩, h2, h3⟩ := h
  simp [Frame.deliver, h1, h2, h3, hf]

/-- A target that names nothing takes nothing (R44). -/
theorem deliver_none {fr : Frame} {t : Target} {tok : Token} (h : fr.resolve t = none) :
    fr.deliver t tok = fr := by
  simp [Frame.deliver, h]

/-- What a delivery leaves as it was. -/
theorem deliver_keeps (fr : Frame) (t : Target) (tok : Token) :
    ∃ sl fs, fr.deliver t tok = { fr with slots := sl, faults := fs } := by
  unfold Frame.deliver
  split
  · exact ⟨fr.slots, fr.faults, rfl⟩
  · split
    · exact ⟨fr.slots, _, rfl⟩
    · split
      · exact ⟨_, fr.faults, rfl⟩
      · exact ⟨_, _, rfl⟩

/-- What sending a token leaves as it was. -/
theorem send_keeps (fr : Frame) (ts : List Target) (tok : Token) :
    ∃ sl fs, fr.send ts tok = { fr with slots := sl, faults := fs } := by
  unfold Frame.send
  induction ts generalizing fr with
  | nil => exact ⟨fr.slots, fr.faults, rfl⟩
  | cons t ts ih =>
    obtain ⟨sl, fs, h⟩ := deliver_keeps fr t tok
    obtain ⟨sl', fs', h'⟩ := ih (fr.deliver t tok)
    refine ⟨sl', fs', ?_⟩
    rw [List.foldl_cons, h', h]

/-! ### Fibres and their frames -/

theorem fibre?_setFibre_same (s : State) (n : Nat) (x : Fibre) : (s.setFibre n x).fibre? n = some x := by
  simp [State.fibre?]

theorem fibre?_setFibre_other (s : State) (n m : Nat) (x : Fibre) (h : m ≠ n) :
    (s.setFibre n x).fibre? m = s.fibre? m := by
  simp [State.fibre?, Dict.get?_put_other _ _ _ _ h]

/-- A fibre after `modFibre`. -/
theorem fibre?_modFibre (s : State) (n m : Nat) (h : Fibre → Fibre) :
    (s.modFibre n h).fibre? m = if m = n then (s.fibre? n).map h else s.fibre? m := by
  unfold State.modFibre
  by_cases hm : m = n
  · subst hm
    cases hf : s.fibre? m with
    | none => simp [hf]
    | some x => simp [fibre?_setFibre_same]
  · cases hf : s.fibre? n with
    | none => simp [hm]
    | some x => simp [hm, fibre?_setFibre_other _ _ _ _ hm]

theorem fibre?_setFrame (s : State) (n m : Nat) (x : Frame) :
    (s.setFrame n x).fibre? m = if m = n then (s.fibre? n).map (fun f => f.setFrame x) else s.fibre? m :=
  fibre?_modFibre s n m _

end Sys2Proof.Machine
end

