-- ==== Sys2Proof/Laws/Step.lean ====
section
/-! SUPPORT. What the counters and the passing of time change, and what a step runs. -/

namespace Sys2Proof.Machine

/-- Counting an event of a cell changes cells only (R308). -/
theorem countCell_keeps (c src n : Nat) (s : State) :
    ∃ d, countCell c src n s = { s with cells := d } := by
  unfold countCell
  simp only
  split
  · exact ⟨s.cells, rfl⟩
  · exact ⟨_, rfl⟩

/-- Counting an event of a sector changes counters only (R308). -/
theorem countSector_keeps (sec src n : Nat) (s : State) :
    ∃ d, countSector sec src n s = { s with ctl := d } := by
  unfold countSector
  generalize List.range 16 = l
  induction l generalizing s with
  | nil => exact ⟨s.ctl, rfl⟩
  | cons x l ih =>
    rw [List.foldl_cons]
    dsimp only
    split
    · obtain ⟨d, h⟩ := ih { s with ctl := s.ctl.put (0x4000 + (128 * sec + 8 * x))
                                      (s.ctl.getD (0x4000 + (128 * sec + 8 * x)) 0 + BitVec.ofNat 64 n) }
      exact ⟨d, by simpa using h⟩
    · exact ih s

/-- Counting withheld cycles changes cells only (R200, R308). -/
theorem countWithheld_keeps (s : State) (c n : Nat) : ∃ d, s.countWithheld c n = { s with cells := d } := by
  unfold State.countWithheld
  split
  · split
    · exact countCell_keeps _ _ _ _
    · exact ⟨s.cells, rfl⟩
  · exact ⟨s.cells, rfl⟩

/-- Counting the cycles of several cells changes cells only. -/
theorem foldl_countCell_keeps (l : List Nat) (n : Nat) (s : State) :
    ∃ d, l.foldl (fun s c => (countCell c 1 n s).countWithheld c n) s = { s with cells := d } := by
  induction l generalizing s with
  | nil => exact ⟨s.cells, rfl⟩
  | cons x l ih =>
    rw [List.foldl_cons]
    obtain ⟨d, h⟩ := countCell_keeps x 1 n s
    obtain ⟨e, he⟩ := countWithheld_keeps (countCell x 1 n s) x n
    obtain ⟨d', h'⟩ := ih ((countCell x 1 n s).countWithheld x n)
    exact ⟨d', by rw [h', he, h]⟩

/-- The same for several sectors. -/
theorem foldl_countSector_keeps (l : List Nat) (src n : Nat) (s : State) :
    ∃ d, l.foldl (fun s c => countSector c src n s) s = { s with ctl := d } := by
  induction l generalizing s with
  | nil => exact ⟨s.ctl, rfl⟩
  | cons x l ih =>
    rw [List.foldl_cons]
    obtain ⟨d, h⟩ := countSector_keeps x src n s
    obtain ⟨d', h'⟩ := ih (countSector x src n s)
    exact ⟨d', by rw [h', h]⟩

/-- What the passing of time changes (R247, R308). -/
theorem pass_keeps (s : State) :
    ∃ tm tk cs ct, s.pass = { s with time := tm, tick := tk, cells := cs, ctl := ct } := by
  unfold State.pass
  generalize s.time + Config.elapsed s.tick + (if s.fairStep then 1 else 0) = t
  simp only
  obtain ⟨d, h⟩ := foldl_countCell_keeps (List.map Prod.fst s.cells) (s.cyclesIn t - s.cyclesIn s.time)
    { s with time := t, tick := s.tick + 1 }
  simp only [h]
  split
  · obtain ⟨d', h'⟩ := foldl_countSector_keeps (List.range 32) 1 (s.cyclesIn t - s.cyclesIn s.time)
      { s with time := t, tick := s.tick + 1, cells := d }
    exact ⟨_, _, _, _, h'⟩
  · exact ⟨_, _, _, _, rfl⟩

end Sys2Proof.Machine
end

