-- ==== Sys2Proof/Laws/Block.lean ====
section
/-! SUPPORT. Blocks in flight: where an instruction acts, frames put back, squashes, parking, the firing
of the shared forms of memory and irrevocable instructions, waits for a host and requests to stop. -/

namespace Sys2Proof.Machine

/-! ### Where an instruction acts -/

/-- What `State.acting` finds. -/
theorem acting_spec {s : State} {i : Instr} {a : Acting} (h : s.acting i = some a) :
    s.fibre? a.fid = some a.f ∧ a.f.frame? a.fr.seq = some a.fr ∧ a.fr.fetched = true
      ∧ a.fr.instr a.k = some i := by
  simp only [State.acting, Option.bind_eq_bind] at h
  cases hc : s.cur with
  | none => simp [hc] at h
  | some c =>
    cases hf : s.fibre? c.fid with
    | none => simp [hc, hf] at h
    | some f =>
      cases hfr : f.frame? c.seq with
      | none => simp [hc, hf, hfr] at h
      | some fr =>
        simp only [hc, hf, hfr, Option.bind_some] at h
        split at h
        · rename_i hh
          cases h
          have : fr.seq = c.seq := by
            have := List.find?_some hfr
            simpa using this
          exact ⟨hf, by simpa [this] using hfr, hh.1, hh.2⟩
        · cases h

/-- A frame that has been put back is found. -/
theorem frame?_setFrame {f : Fibre} {fr fr' : Frame} (h : f.frame? fr.seq = some fr') :
    (f.setFrame fr).frame? fr.seq = some fr := by
  unfold Fibre.frame? Fibre.setFrame at *
  simp only at *
  generalize f.frames = l at *
  induction l with
  | nil => simp at h
  | cons x l ih =>
    by_cases hx : x.seq = fr.seq
    · simp [hx]
    · rw [List.find?_cons_of_neg (by simpa using hx)] at h
      rw [List.map_cons, if_neg hx, List.find?_cons_of_neg (by simpa using hx)]
      exact ih h

/-- The frames above a block are as before when that block's frame has been put back. -/
theorem find_younger_setFrame (f : Fibre) (fr : Frame) :
    (f.setFrame fr).frames.find? (fun x => fr.seq < x.seq) = f.frames.find? (fun x => fr.seq < x.seq) := by
  unfold Fibre.setFrame
  simp only
  generalize f.frames = l
  induction l with
  | nil => rfl
  | cons x l ih =>
    by_cases hx : x.seq = fr.seq
    · simp [hx, ih]
    · simp only [List.map_cons, hx, if_false, List.find?_cons, ih]

theorem frame?_squashFrom {f : Fibre} {n m : Nat} {fr : Frame} (h : f.frame? n = some fr) (hn : n < m) :
    (f.squashFrom m).frame? n = some fr := by
  unfold Fibre.squashFrom
  split
  · unfold Fibre.leavePath Fibre.frame? at *
    simp only
    generalize f.frames = l at *
    clear * - h hn
    induction l with
    | nil => simp at h
    | cons x l ih =>
      by_cases hx : x.seq = n
      · have : x.seq < m := by omega
        rw [List.find?_cons_of_pos (by simpa using hx)] at h
        rw [List.filter_cons_of_pos (by simpa using this), List.find?_cons_of_pos (by simpa using hx)]
        exact h
      · rw [List.find?_cons_of_neg (by simpa using hx)] at h
        by_cases hm : x.seq < m
        · rw [List.filter_cons_of_pos (by simpa using hm), List.find?_cons_of_neg (by simpa using hx)]
          exact ih h
        · rw [List.filter_cons_of_neg (by simpa using hm)]
          exact ih h
  · exact h

/-- No block from `m` on is left after a squash. -/
theorem squashFrom_below {f : Fibre} {m : Nat} : ∀ x ∈ (f.squashFrom m).frames, x.seq < m := by
  unfold Fibre.squashFrom
  split
  · unfold Fibre.leavePath
    intro x hx; simpa using (List.mem_filter.mp hx).2
  · rename_i h
    intro x hx
    have := List.find?_eq_none.mp h x hx
    simpa using this

/-! ### Squash and parking -/

/-- A squash changes the fibre's blocks, the accesses of squashed blocks and counters. -/
theorem squash_keeps (s : State) (fid seq src : Nat) : ∃ fs as cs,
    s.squash fid seq src = { s with fibres := fs, accesses := as, cells := cs } := by
  unfold State.squash
  split
  · exact ⟨_, _, _, rfl⟩
  · rename_i f hf
    simp only
    split
    · exact ⟨_, _, _, rfl⟩
    · obtain ⟨d, h⟩ := countCell_keeps (s.cellOf f) 3 (f.frames.filter (fun fr => seq ≤ fr.seq)).length
        ((s.setFibre fid (f.squashFrom seq)).dropAccesses fid seq)
      simp only [h]
      split
      · exact ⟨_, _, _, rfl⟩
      · obtain ⟨d', h'⟩ := countCell_keeps (s.cellOf f) src 1
          { (s.setFibre fid (f.squashFrom seq)).dropAccesses fid seq with cells := d }
        simp only [h']
        exact ⟨_, _, _, rfl⟩

/-- The fibres after a squash. -/
theorem squash_fibre? (s : State) (fid seq src n : Nat) : (s.squash fid seq src).fibre? n
    = if n = fid then (s.fibre? fid).map (fun f => f.squashFrom seq) else s.fibre? n := by
  unfold State.squash
  split
  · rename_i hf
    by_cases hn : n = fid <;> simp_all
  · rename_i f hf
    simp only
    split
    · rename_i h0
      have hnone : f.frames.find? (fun fr => seq ≤ fr.seq) = none := by
        rw [List.find?_eq_none]
        intro x hx
        have := List.length_eq_zero_iff.mp h0
        have hx' := List.filter_eq_nil_iff.mp this x hx
        simpa using hx'
      have hsame : f.squashFrom seq = f := by simp [Fibre.squashFrom, hnone]
      by_cases hn : n = fid
      · subst hn; simp [hf, hsame]
      · simp [hn]
    · obtain ⟨d, h⟩ := countCell_keeps (s.cellOf f) 3 (f.frames.filter (fun fr => seq ≤ fr.seq)).length
        ((s.setFibre fid (f.squashFrom seq)).dropAccesses fid seq)
      have key : ∀ (t : State), t.fibres = (s.setFibre fid (f.squashFrom seq)).fibres →
          t.fibre? n = if n = fid then (some f).map (fun f => f.squashFrom seq) else s.fibre? n := by
        intro t ht
        by_cases hn : n = fid
        · subst hn; simp [State.fibre?, ht]
        · simp [State.fibre?, ht, hn, Dict.get?_put_other _ _ _ _ hn]
      rw [hf]
      simp only [h]
      split
      · exact key _ rfl
      · obtain ⟨d', h'⟩ := countCell_keeps (s.cellOf f) src 1
          { (s.setFibre fid (f.squashFrom seq)).dropAccesses fid seq with cells := d }
        simp only [h']
        exact key _ rfl

/-! ### Memory and irrevocable instructions -/

/-- A memory instruction that fires on values does what its `go` says. -/
theorem memory_next {i : Instr} {go : Acting → Ctx → Bool → State → State} {s : State} {a : Acting} {c : Ctx}
    {inside : Bool} (h : MemoryFires s i a c inside) : memory i go s = .next (go a c inside s) := by
  obtain ⟨⟨h1, h2⟩, h3, h4, h5⟩ := h
  simp [memory, h1, h2, h3, h4, h5]

theorem commit_nextId (a : Acting) (s : State) (fr : Frame) : (a.commit s fr).nextId = s.nextId := by
  simp [Acting.commit]

/-- An instruction of R204 whose conditions hold is performed. -/
theorem irrevocable_next {i : Instr} {release : Bool}
    {check : Acting → Group → Launch → State → Option (Cause × Word)}
    {go : Acting → Group → Launch → State → Option (State × Token) × State} {s s' r : State} {a : Acting}
    {g : Group} {l : Launch} {tok : Token} (h : Performs s i a g l) (hr : release = true → s.allDone a = true)
    (hc : check a g l s = none) (hg : go a g l s = (some (s', tok), r)) :
    irrevocable i release check go s = .next (a.performed s' i tok) := by
  obtain ⟨⟨h1, h2⟩, h3, h4, h5, h6, h7, h8⟩ := h
  have : (!release || s.allDone a) = true := by cases release <;> simp_all
  simp [irrevocable, irrevocableWith, h1, h2, h3, h4, h5, h6, h7, h8, hc, this, hg, Acting.performed, Frame.perform]

/-- One whose check fails records the fault. -/
theorem irrevocable_refused {i : Instr} {release : Bool}
    {check : Acting → Group → Launch → State → Option (Cause × Word)}
    {go : Acting → Group → Launch → State → Option (State × Token) × State} {s : State} {a : Acting}
    {g : Group} {l : Launch} {c : Cause} {ta : Word} (h : Performs s i a g l)
    (hc : check a g l s = some (c, ta)) : irrevocable i release check go s = .next (a.records s i c ta) := by
  obtain ⟨⟨h1, h2⟩, h3, h4, h5, h6, h7, h8⟩ := h
  simp [irrevocable, irrevocableWith, h1, h2, h3, h4, h5, hc, Acting.records, Frame.refuseAll]

/-- One that fires in a region on values records the fault of its operands and RGN_ENGINE (R177, R213). -/
theorem irrevocable_inRegion {i : Instr} {release : Bool}
    {check : Acting → Group → Launch → State → Option (Cause × Word)}
    {go : Acting → Group → Launch → State → Option (State × Token) × State} {s : State} {a : Acting}
    {g : Group} {l : Launch} (h : Fires s i a) (hv : badOperand (a.fr.operands a.k i) = none)
    (hr : a.f.insideRegion a.fr.seq = some true) (hx : s.ctxOf a.f = some (g, l)) :
    irrevocable i release check go s
      = .next (a.commit s (a.fr.refuseAll a.k i ((check a g l s).toList ++ [(.rgnEngine, 0)]))) := by
  obtain ⟨h1, h2⟩ := h
  cases hc : check a g l s <;> simp [irrevocable, irrevocableWith, h1, h2, hr, hx, hv, hc]

/-! ### Waiting for a host, and requests to stop -/

/-- Asking the host for a half changes nothing but what is asked for (R126). -/
theorem backInvalidate_keeps (s : State) (half : Nat) (inv : Bool) :
    ∃ d o, s.backInvalidate half inv = { s with snoops := d, out := o } := by
  unfold State.backInvalidate
  split
  · exact ⟨s.snoops, s.out, rfl⟩
  · exact ⟨_, _, rfl⟩

/-- A walk that waits for a table entry has only asked the host for it. -/
theorem walkWaits_keeps {s t : State} {cell : Nat} {x : Xlate} {rs : List (Word × Nat)}
    (h : s.walkWaits cell x rs = some t) : ∃ d o, t = { s with snoops := d, out := o } := by
  unfold State.walkWaits at h
  obtain ⟨half, -, rfl⟩ := Option.map_eq_some_iff.mp h
  exact backInvalidate_keeps s half false

/-- So has an access that waits before its checks. -/
theorem checkWaits_keeps {s t : State} {c : Ctx} {w : Want} {va : Word} {n : Nat} (h : s.checkWaits c w va n = some t) :
    ∃ d o, t = { s with snoops := d, out := o } := by
  unfold State.checkWaits at h
  split at h
  · cases h
  · exact walkWaits_keeps h

/-- A fibre that leaves a path keeps everything but what it is parked on (R14, R31). -/
theorem leavePath_keeps (f : Fibre) : ∃ p, f.leavePath = { f with park := p } := ⟨_, rfl⟩

/-- A request to stop changes groups alone (R250, step 1). -/
theorem stopFetch_keeps (s : State) (gid : Nat) : ∃ gs, s.stopFetch gid = { s with groups := gs } := by
  unfold State.stopFetch
  split
  · split
    · exact ⟨_, rfl⟩
    · exact ⟨s.groups, rfl⟩
  · exact ⟨s.groups, rfl⟩

/-- So do the requests to several. -/
theorem foldl_stopFetch_keeps (ns : List Nat) (s : State) : ∃ gs, ns.foldl State.stopFetch s = { s with groups := gs } := by
  induction ns generalizing s with
  | nil => exact ⟨s.groups, rfl⟩
  | cons n ns ih =>
    obtain ⟨gs, h⟩ := stopFetch_keeps s n
    obtain ⟨hs, k⟩ := ih (s.stopFetch n)
    exact ⟨hs, by rw [List.foldl_cons, k, h]⟩

end Sys2Proof.Machine
end

