-- ==== Sys2Proof/Laws/Dispatch.lean ====
section
/-! SUPPORT. The meaning that `exec` calls, one equation for each instruction. -/

namespace Sys2Proof.Machine

@[simp] theorem exec_nop (s : State) :
    exec (.nop) s = execNop s := rfl
@[simp] theorem exec_read (pr : Pred) (reg : BitVec 6) (t0 : Target) (t1 : Target) (s : State) :
    exec (.read pr reg t0 t1) s = execRead pr reg t0 t1 s := rfl
@[simp] theorem exec_vread (pr : Pred) (reg : BitVec 5) (t0 : Target) (t1 : Target) (s : State) :
    exec (.vread pr reg t0 t1) s = execVread pr reg t0 t1 s := rfl
@[simp] theorem exec_write (pr : Pred) (reg : BitVec 6) (s : State) :
    exec (.write pr reg) s = execWrite pr reg s := rfl
@[simp] theorem exec_vwrite (pr : Pred) (reg : BitVec 5) (s : State) :
    exec (.vwrite pr reg) s = execVwrite pr reg s := rfl
@[simp] theorem exec_mov (pr : Pred) (t0 : Target) (t1 : Target) (s : State) :
    exec (.mov pr t0 t1) s = execMov pr t0 t1 s := rfl
@[simp] theorem exec_mov3 (pr : Pred) (t0 : Target) (t1 : Target) (t2 : Target) (s : State) :
    exec (.mov3 pr t0 t1 t2) s = execMov3 pr t0 t1 t2 s := rfl
@[simp] theorem exec_mov4 (pr : Pred) (t0 : Target) (t1 : Target) (t2 : Target) (t3 : Target) (s : State) :
    exec (.mov4 pr t0 t1 t2 t3) s = execMov4 pr t0 t1 t2 t3 s := rfl
@[simp] theorem exec_genc (pr : Pred) (imm : BitVec 36) (t0 : Target) (t1 : Target) (s : State) :
    exec (.genc pr imm t0 t1) s = execGenc pr imm t0 t1 s := rfl
@[simp] theorem exec_genh (pr : Pred) (imm : BitVec 36) (t0 : Target) (t1 : Target) (s : State) :
    exec (.genh pr imm t0 t1) s = execGenh pr imm t0 t1 s := rfl
@[simp] theorem exec_null (pr : Pred) (t0 : Target) (t1 : Target) (t2 : Target) (t3 : Target) (s : State) :
    exec (.null pr t0 t1 t2 t3) s = execNull pr t0 t1 t2 t3 s := rfl
@[simp] theorem exec_xop (s : State) :
    exec (.xop) s = execXop s := rfl
@[simp] theorem exec_br (pr : Pred) (exit : BitVec 3) (off : BitVec 33) (s : State) :
    exec (.br pr exit off) s = execBr pr exit off s := rfl
@[simp] theorem exec_bri (pr : Pred) (exit : BitVec 3) (s : State) :
    exec (.bri pr exit) s = execBri pr exit s := rfl
@[simp] theorem exec_call (pr : Pred) (exit : BitVec 3) (off : BitVec 33) (s : State) :
    exec (.call pr exit off) s = execCall pr exit off s := rfl
@[simp] theorem exec_calli (pr : Pred) (exit : BitVec 3) (s : State) :
    exec (.calli pr exit) s = execCalli pr exit s := rfl
@[simp] theorem exec_ret (pr : Pred) (exit : BitVec 3) (s : State) :
    exec (.ret pr exit) s = execRet pr exit s := rfl
@[simp] theorem exec_halt (pr : Pred) (exit : BitVec 3) (s : State) :
    exec (.halt pr exit) s = execHalt pr exit s := rfl
@[simp] theorem exec_scall (pr : Pred) (code : BitVec 24) (s : State) :
    exec (.scall pr code) s = execScall pr code s := rfl
@[simp] theorem exec_trap (pr : Pred) (code : BitVec 24) (s : State) :
    exec (.trap pr code) s = execTrap pr code s := rfl
@[simp] theorem exec_brk (pr : Pred) (code : BitVec 24) (s : State) :
    exec (.brk pr code) s = execBrk pr code s := rfl
@[simp] theorem exec_add (pr : Pred) (t0 : Target) (t1 : Target) (s : State) :
    exec (.add pr t0 t1) s = execAdd pr t0 t1 s := rfl
@[simp] theorem exec_sub (pr : Pred) (t0 : Target) (t1 : Target) (s : State) :
    exec (.sub pr t0 t1) s = execSub pr t0 t1 s := rfl
@[simp] theorem exec_mul (pr : Pred) (t0 : Target) (t1 : Target) (s : State) :
    exec (.mul pr t0 t1) s = execMul pr t0 t1 s := rfl
@[simp] theorem exec_mulh (pr : Pred) (t0 : Target) (t1 : Target) (s : State) :
    exec (.mulh pr t0 t1) s = execMulh pr t0 t1 s := rfl
@[simp] theorem exec_mulhu (pr : Pred) (t0 : Target) (t1 : Target) (s : State) :
    exec (.mulhu pr t0 t1) s = execMulhu pr t0 t1 s := rfl
@[simp] theorem exec_div (pr : Pred) (t0 : Target) (t1 : Target) (s : State) :
    exec (.div pr t0 t1) s = execDiv pr t0 t1 s := rfl
@[simp] theorem exec_divu (pr : Pred) (t0 : Target) (t1 : Target) (s : State) :
    exec (.divu pr t0 t1) s = execDivu pr t0 t1 s := rfl
@[simp] theorem exec_rem (pr : Pred) (t0 : Target) (t1 : Target) (s : State) :
    exec (.rem pr t0 t1) s = execRem pr t0 t1 s := rfl
@[simp] theorem exec_remu (pr : Pred) (t0 : Target) (t1 : Target) (s : State) :
    exec (.remu pr t0 t1) s = execRemu pr t0 t1 s := rfl
@[simp] theorem exec_and (pr : Pred) (t0 : Target) (t1 : Target) (s : State) :
    exec (.and pr t0 t1) s = execAnd pr t0 t1 s := rfl
@[simp] theorem exec_or (pr : Pred) (t0 : Target) (t1 : Target) (s : State) :
    exec (.or pr t0 t1) s = execOr pr t0 t1 s := rfl
@[simp] theorem exec_xor (pr : Pred) (t0 : Target) (t1 : Target) (s : State) :
    exec (.xor pr t0 t1) s = execXor pr t0 t1 s := rfl
@[simp] theorem exec_andn (pr : Pred) (t0 : Target) (t1 : Target) (s : State) :
    exec (.andn pr t0 t1) s = execAndn pr t0 t1 s := rfl
@[simp] theorem exec_shl (pr : Pred) (t0 : Target) (t1 : Target) (s : State) :
    exec (.shl pr t0 t1) s = execShl pr t0 t1 s := rfl
@[simp] theorem exec_shr (pr : Pred) (t0 : Target) (t1 : Target) (s : State) :
    exec (.shr pr t0 t1) s = execShr pr t0 t1 s := rfl
@[simp] theorem exec_sar (pr : Pred) (t0 : Target) (t1 : Target) (s : State) :
    exec (.sar pr t0 t1) s = execSar pr t0 t1 s := rfl
@[simp] theorem exec_rotl (pr : Pred) (t0 : Target) (t1 : Target) (s : State) :
    exec (.rotl pr t0 t1) s = execRotl pr t0 t1 s := rfl
@[simp] theorem exec_clz (pr : Pred) (t0 : Target) (t1 : Target) (s : State) :
    exec (.clz pr t0 t1) s = execClz pr t0 t1 s := rfl
@[simp] theorem exec_ctz (pr : Pred) (t0 : Target) (t1 : Target) (s : State) :
    exec (.ctz pr t0 t1) s = execCtz pr t0 t1 s := rfl
@[simp] theorem exec_popc (pr : Pred) (t0 : Target) (t1 : Target) (s : State) :
    exec (.popc pr t0 t1) s = execPopc pr t0 t1 s := rfl
@[simp] theorem exec_sext (pr : Pred) (sz : ExtW) (t0 : Target) (t1 : Target) (s : State) :
    exec (.sext pr sz t0 t1) s = execSext pr sz t0 t1 s := rfl
@[simp] theorem exec_zext (pr : Pred) (sz : ExtW) (t0 : Target) (t1 : Target) (s : State) :
    exec (.zext pr sz t0 t1) s = execZext pr sz t0 t1 s := rfl
@[simp] theorem exec_min (pr : Pred) (t0 : Target) (t1 : Target) (s : State) :
    exec (.min pr t0 t1) s = execMin pr t0 t1 s := rfl
@[simp] theorem exec_max (pr : Pred) (t0 : Target) (t1 : Target) (s : State) :
    exec (.max pr t0 t1) s = execMax pr t0 t1 s := rfl
@[simp] theorem exec_minu (pr : Pred) (t0 : Target) (t1 : Target) (s : State) :
    exec (.minu pr t0 t1) s = execMinu pr t0 t1 s := rfl
@[simp] theorem exec_maxu (pr : Pred) (t0 : Target) (t1 : Target) (s : State) :
    exec (.maxu pr t0 t1) s = execMaxu pr t0 t1 s := rfl
@[simp] theorem exec_bfx (pr : Pred) (pos : BitVec 6) (len1 : BitVec 6) (t0 : Target) (s : State) :
    exec (.bfx pr pos len1 t0) s = execBfx pr pos len1 t0 s := rfl
@[simp] theorem exec_bfxu (pr : Pred) (pos : BitVec 6) (len1 : BitVec 6) (t0 : Target) (s : State) :
    exec (.bfxu pr pos len1 t0) s = execBfxu pr pos len1 t0 s := rfl
@[simp] theorem exec_bfi (pr : Pred) (pos : BitVec 6) (len1 : BitVec 6) (t0 : Target) (s : State) :
    exec (.bfi pr pos len1 t0) s = execBfi pr pos len1 t0 s := rfl
@[simp] theorem exec_lea (pr : Pred) (sh : BitVec 2) (disp : BitVec 22) (t0 : Target) (s : State) :
    exec (.lea pr sh disp t0) s = execLea pr sh disp t0 s := rfl
@[simp] theorem exec_sel (pr : Pred) (t0 : Target) (t1 : Target) (s : State) :
    exec (.sel pr t0 t1) s = execSel pr t0 t1 s := rfl
@[simp] theorem exec_addi (pr : Pred) (imm : BitVec 24) (t0 : Target) (s : State) :
    exec (.addi pr imm t0) s = execAddi pr imm t0 s := rfl
@[simp] theorem exec_muli (pr : Pred) (imm : BitVec 24) (t0 : Target) (s : State) :
    exec (.muli pr imm t0) s = execMuli pr imm t0 s := rfl
@[simp] theorem exec_andi (pr : Pred) (imm : BitVec 24) (t0 : Target) (s : State) :
    exec (.andi pr imm t0) s = execAndi pr imm t0 s := rfl
@[simp] theorem exec_ori (pr : Pred) (imm : BitVec 24) (t0 : Target) (s : State) :
    exec (.ori pr imm t0) s = execOri pr imm t0 s := rfl
@[simp] theorem exec_xori (pr : Pred) (imm : BitVec 24) (t0 : Target) (s : State) :
    exec (.xori pr imm t0) s = execXori pr imm t0 s := rfl
@[simp] theorem exec_shli (pr : Pred) (amount : BitVec 6) (t0 : Target) (s : State) :
    exec (.shli pr amount t0) s = execShli pr amount t0 s := rfl
@[simp] theorem exec_shri (pr : Pred) (amount : BitVec 6) (t0 : Target) (s : State) :
    exec (.shri pr amount t0) s = execShri pr amount t0 s := rfl
@[simp] theorem exec_sari (pr : Pred) (amount : BitVec 6) (t0 : Target) (s : State) :
    exec (.sari pr amount t0) s = execSari pr amount t0 s := rfl
@[simp] theorem exec_teq (pr : Pred) (t0 : Target) (t1 : Target) (s : State) :
    exec (.teq pr t0 t1) s = execTeq pr t0 t1 s := rfl
@[simp] theorem exec_tne (pr : Pred) (t0 : Target) (t1 : Target) (s : State) :
    exec (.tne pr t0 t1) s = execTne pr t0 t1 s := rfl
@[simp] theorem exec_tlt (pr : Pred) (t0 : Target) (t1 : Target) (s : State) :
    exec (.tlt pr t0 t1) s = execTlt pr t0 t1 s := rfl
@[simp] theorem exec_tle (pr : Pred) (t0 : Target) (t1 : Target) (s : State) :
    exec (.tle pr t0 t1) s = execTle pr t0 t1 s := rfl
@[simp] theorem exec_tltu (pr : Pred) (t0 : Target) (t1 : Target) (s : State) :
    exec (.tltu pr t0 t1) s = execTltu pr t0 t1 s := rfl
@[simp] theorem exec_tleu (pr : Pred) (t0 : Target) (t1 : Target) (s : State) :
    exec (.tleu pr t0 t1) s = execTleu pr t0 t1 s := rfl
@[simp] theorem exec_tnz (pr : Pred) (t0 : Target) (t1 : Target) (s : State) :
    exec (.tnz pr t0 t1) s = execTnz pr t0 t1 s := rfl
@[simp] theorem exec_teqi (pr : Pred) (imm : BitVec 24) (t0 : Target) (s : State) :
    exec (.teqi pr imm t0) s = execTeqi pr imm t0 s := rfl
@[simp] theorem exec_tnei (pr : Pred) (imm : BitVec 24) (t0 : Target) (s : State) :
    exec (.tnei pr imm t0) s = execTnei pr imm t0 s := rfl
@[simp] theorem exec_tlti (pr : Pred) (imm : BitVec 24) (t0 : Target) (s : State) :
    exec (.tlti pr imm t0) s = execTlti pr imm t0 s := rfl
@[simp] theorem exec_tlei (pr : Pred) (imm : BitVec 24) (t0 : Target) (s : State) :
    exec (.tlei pr imm t0) s = execTlei pr imm t0 s := rfl
@[simp] theorem exec_tltui (pr : Pred) (imm : BitVec 24) (t0 : Target) (s : State) :
    exec (.tltui pr imm t0) s = execTltui pr imm t0 s := rfl
@[simp] theorem exec_tleui (pr : Pred) (imm : BitVec 24) (t0 : Target) (s : State) :
    exec (.tleui pr imm t0) s = execTleui pr imm t0 s := rfl
@[simp] theorem exec_fadd (pr : Pred) (ty : Ty) (t0 : Target) (t1 : Target) (s : State) :
    exec (.fadd pr ty t0 t1) s = execFadd pr ty t0 t1 s := rfl
@[simp] theorem exec_fsub (pr : Pred) (ty : Ty) (t0 : Target) (t1 : Target) (s : State) :
    exec (.fsub pr ty t0 t1) s = execFsub pr ty t0 t1 s := rfl
@[simp] theorem exec_fmul (pr : Pred) (ty : Ty) (t0 : Target) (t1 : Target) (s : State) :
    exec (.fmul pr ty t0 t1) s = execFmul pr ty t0 t1 s := rfl
@[simp] theorem exec_ffma (pr : Pred) (ty : Ty) (t0 : Target) (t1 : Target) (s : State) :
    exec (.ffma pr ty t0 t1) s = execFfma pr ty t0 t1 s := rfl
@[simp] theorem exec_fdiv (pr : Pred) (ty : Ty) (t0 : Target) (t1 : Target) (s : State) :
    exec (.fdiv pr ty t0 t1) s = execFdiv pr ty t0 t1 s := rfl
@[simp] theorem exec_fsqrt (pr : Pred) (ty : Ty) (t0 : Target) (t1 : Target) (s : State) :
    exec (.fsqrt pr ty t0 t1) s = execFsqrt pr ty t0 t1 s := rfl
@[simp] theorem exec_fmin (pr : Pred) (ty : Ty) (t0 : Target) (t1 : Target) (s : State) :
    exec (.fmin pr ty t0 t1) s = execFmin pr ty t0 t1 s := rfl
@[simp] theorem exec_fmax (pr : Pred) (ty : Ty) (t0 : Target) (t1 : Target) (s : State) :
    exec (.fmax pr ty t0 t1) s = execFmax pr ty t0 t1 s := rfl
@[simp] theorem exec_fabs (pr : Pred) (ty : Ty) (t0 : Target) (t1 : Target) (s : State) :
    exec (.fabs pr ty t0 t1) s = execFabs pr ty t0 t1 s := rfl
@[simp] theorem exec_fneg (pr : Pred) (ty : Ty) (t0 : Target) (t1 : Target) (s : State) :
    exec (.fneg pr ty t0 t1) s = execFneg pr ty t0 t1 s := rfl
@[simp] theorem exec_fsgnj (pr : Pred) (ty : Ty) (t0 : Target) (t1 : Target) (s : State) :
    exec (.fsgnj pr ty t0 t1) s = execFsgnj pr ty t0 t1 s := rfl
@[simp] theorem exec_feq (pr : Pred) (dbl : Bool) (t0 : Target) (t1 : Target) (s : State) :
    exec (.feq pr dbl t0 t1) s = execFeq pr dbl t0 t1 s := rfl
@[simp] theorem exec_flt (pr : Pred) (dbl : Bool) (t0 : Target) (t1 : Target) (s : State) :
    exec (.flt pr dbl t0 t1) s = execFlt pr dbl t0 t1 s := rfl
@[simp] theorem exec_fle (pr : Pred) (dbl : Bool) (t0 : Target) (t1 : Target) (s : State) :
    exec (.fle pr dbl t0 t1) s = execFle pr dbl t0 t1 s := rfl
@[simp] theorem exec_fclass (pr : Pred) (dbl : Bool) (t0 : Target) (t1 : Target) (s : State) :
    exec (.fclass pr dbl t0 t1) s = execFclass pr dbl t0 t1 s := rfl
@[simp] theorem exec_fcvt (pr : Pred) (dst : CvtTy) (src : CvtTy) (t0 : Target) (t1 : Target) (s : State) :
    exec (.fcvt pr dst src t0 t1) s = execFcvt pr dst src t0 t1 s := rfl
@[simp] theorem exec_vbcast (pr : Pred) (w : Lane) (t0 : Target) (t1 : Target) (s : State) :
    exec (.vbcast pr w t0 t1) s = execVbcast pr w t0 t1 s := rfl
@[simp] theorem exec_vext (pr : Pred) (w : Lane) (lane : BitVec 6) (t0 : Target) (s : State) :
    exec (.vext pr w lane t0) s = execVext pr w lane t0 s := rfl
@[simp] theorem exec_vins (pr : Pred) (w : Lane) (lane : BitVec 6) (t0 : Target) (s : State) :
    exec (.vins pr w lane t0) s = execVins pr w lane t0 s := rfl
@[simp] theorem exec_vperm (pr : Pred) (w : Lane) (t0 : Target) (t1 : Target) (s : State) :
    exec (.vperm pr w t0 t1) s = execVperm pr w t0 t1 s := rfl
@[simp] theorem exec_vshl (pr : Pred) (w : Lane) (t0 : Target) (t1 : Target) (s : State) :
    exec (.vshl pr w t0 t1) s = execVshl pr w t0 t1 s := rfl
@[simp] theorem exec_vred (pr : Pred) (op : VRedOp) (w : Lane) (t0 : Target) (t1 : Target) (s : State) :
    exec (.vred pr op w t0 t1) s = execVred pr op w t0 t1 s := rfl
@[simp] theorem exec_vsel (pr : Pred) (w : Lane) (t0 : Target) (t1 : Target) (s : State) :
    exec (.vsel pr w t0 t1) s = execVsel pr w t0 t1 s := rfl
@[simp] theorem exec_vcmp (pr : Pred) (op : VCmpOp) (w : Lane) (t0 : Target) (t1 : Target) (s : State) :
    exec (.vcmp pr op w t0 t1) s = execVcmp pr op w t0 t1 s := rfl
@[simp] theorem exec_viota (pr : Pred) (w : Lane) (t0 : Target) (t1 : Target) (s : State) :
    exec (.viota pr w t0 t1) s = execViota pr w t0 t1 s := rfl
@[simp] theorem exec_vcnt (pr : Pred) (w : Lane) (t0 : Target) (t1 : Target) (s : State) :
    exec (.vcnt pr w t0 t1) s = execVcnt pr w t0 t1 s := rfl
@[simp] theorem exec_ldB (pr : Pred) (m : MemF) (t0 : Target) (t1 : Target) (s : State) :
    exec (.ldB pr m t0 t1) s = execLdB pr m t0 t1 s := rfl
@[simp] theorem exec_ldBu (pr : Pred) (m : MemF) (t0 : Target) (t1 : Target) (s : State) :
    exec (.ldBu pr m t0 t1) s = execLdBu pr m t0 t1 s := rfl
@[simp] theorem exec_ldH (pr : Pred) (m : MemF) (t0 : Target) (t1 : Target) (s : State) :
    exec (.ldH pr m t0 t1) s = execLdH pr m t0 t1 s := rfl
@[simp] theorem exec_ldHu (pr : Pred) (m : MemF) (t0 : Target) (t1 : Target) (s : State) :
    exec (.ldHu pr m t0 t1) s = execLdHu pr m t0 t1 s := rfl
@[simp] theorem exec_ldW (pr : Pred) (m : MemF) (t0 : Target) (t1 : Target) (s : State) :
    exec (.ldW pr m t0 t1) s = execLdW pr m t0 t1 s := rfl
@[simp] theorem exec_ldWu (pr : Pred) (m : MemF) (t0 : Target) (t1 : Target) (s : State) :
    exec (.ldWu pr m t0 t1) s = execLdWu pr m t0 t1 s := rfl
@[simp] theorem exec_ldD (pr : Pred) (m : MemF) (t0 : Target) (t1 : Target) (s : State) :
    exec (.ldD pr m t0 t1) s = execLdD pr m t0 t1 s := rfl
@[simp] theorem exec_vld (pr : Pred) (fmt : Bool) (m : MemF) (t0 : Target) (t1 : Target) (s : State) :
    exec (.vld pr fmt m t0 t1) s = execVld pr fmt m t0 t1 s := rfl
@[simp] theorem exec_vgather (pr : Pred) (sz : WD) (m : MemF) (t0 : Target) (t1 : Target) (s : State) :
    exec (.vgather pr sz m t0 t1) s = execVgather pr sz m t0 t1 s := rfl
@[simp] theorem exec_pf (pr : Pred) (lsid : BitVec 5) (off : BitVec 22) (s : State) :
    exec (.pf pr lsid off) s = execPf pr lsid off s := rfl
@[simp] theorem exec_cinv (pr : Pred) (lsid : BitVec 5) (s : State) :
    exec (.cinv pr lsid) s = execCinv pr lsid s := rfl
@[simp] theorem exec_cwb (pr : Pred) (lsid : BitVec 5) (s : State) :
    exec (.cwb pr lsid) s = execCwb pr lsid s := rfl
@[simp] theorem exec_stB (pr : Pred) (m : MemF) (s : State) :
    exec (.stB pr m) s = execStB pr m s := rfl
@[simp] theorem exec_stH (pr : Pred) (m : MemF) (s : State) :
    exec (.stH pr m) s = execStH pr m s := rfl
@[simp] theorem exec_stW (pr : Pred) (m : MemF) (s : State) :
    exec (.stW pr m) s = execStW pr m s := rfl
@[simp] theorem exec_stD (pr : Pred) (m : MemF) (s : State) :
    exec (.stD pr m) s = execStD pr m s := rfl
@[simp] theorem exec_vst (pr : Pred) (m : MemF) (s : State) :
    exec (.vst pr m) s = execVst pr m s := rfl
@[simp] theorem exec_vscatter (pr : Pred) (sz : WD) (m : MemF) (s : State) :
    exec (.vscatter pr sz m) s = execVscatter pr sz m s := rfl
@[simp] theorem exec_fence (pr : Pred) (lsid : BitVec 5) (scope : Scope) (ord : Order) (s : State) :
    exec (.fence pr lsid scope ord) s = execFence pr lsid scope ord s := rfl
@[simp] theorem exec_amoAdd (pr : Pred) (sz : WD) (m : MemF) (t0 : Target) (t1 : Target) (s : State) :
    exec (.amoAdd pr sz m t0 t1) s = execAmoAdd pr sz m t0 t1 s := rfl
@[simp] theorem exec_amoAnd (pr : Pred) (sz : WD) (m : MemF) (t0 : Target) (t1 : Target) (s : State) :
    exec (.amoAnd pr sz m t0 t1) s = execAmoAnd pr sz m t0 t1 s := rfl
@[simp] theorem exec_amoOr (pr : Pred) (sz : WD) (m : MemF) (t0 : Target) (t1 : Target) (s : State) :
    exec (.amoOr pr sz m t0 t1) s = execAmoOr pr sz m t0 t1 s := rfl
@[simp] theorem exec_amoXor (pr : Pred) (sz : WD) (m : MemF) (t0 : Target) (t1 : Target) (s : State) :
    exec (.amoXor pr sz m t0 t1) s = execAmoXor pr sz m t0 t1 s := rfl
@[simp] theorem exec_amoMin (pr : Pred) (sz : WD) (m : MemF) (t0 : Target) (t1 : Target) (s : State) :
    exec (.amoMin pr sz m t0 t1) s = execAmoMin pr sz m t0 t1 s := rfl
@[simp] theorem exec_amoMax (pr : Pred) (sz : WD) (m : MemF) (t0 : Target) (t1 : Target) (s : State) :
    exec (.amoMax pr sz m t0 t1) s = execAmoMax pr sz m t0 t1 s := rfl
@[simp] theorem exec_amoMinu (pr : Pred) (sz : WD) (m : MemF) (t0 : Target) (t1 : Target) (s : State) :
    exec (.amoMinu pr sz m t0 t1) s = execAmoMinu pr sz m t0 t1 s := rfl
@[simp] theorem exec_amoMaxu (pr : Pred) (sz : WD) (m : MemF) (t0 : Target) (t1 : Target) (s : State) :
    exec (.amoMaxu pr sz m t0 t1) s = execAmoMaxu pr sz m t0 t1 s := rfl
@[simp] theorem exec_amoSwap (pr : Pred) (sz : WD) (m : MemF) (t0 : Target) (t1 : Target) (s : State) :
    exec (.amoSwap pr sz m t0 t1) s = execAmoSwap pr sz m t0 t1 s := rfl
@[simp] theorem exec_amoCas (pr : Pred) (sz : WD) (m : MemF) (t0 : Target) (t1 : Target) (s : State) :
    exec (.amoCas pr sz m t0 t1) s = execAmoCas pr sz m t0 t1 s := rfl
@[simp] theorem exec_amoFadd (pr : Pred) (m : MemF) (t0 : Target) (t1 : Target) (s : State) :
    exec (.amoFadd pr m t0 t1) s = execAmoFadd pr m t0 t1 s := rfl
@[simp] theorem exec_rgnBeg (pr : Pred) (reg : BitVec 6) (off : BitVec 23) (s : State) :
    exec (.rgnBeg pr reg off) s = execRgnBeg pr reg off s := rfl
@[simp] theorem exec_rgnEnd (pr : Pred) (s : State) :
    exec (.rgnEnd pr) s = execRgnEnd pr s := rfl
@[simp] theorem exec_rgnAbt (pr : Pred) (s : State) :
    exec (.rgnAbt pr) s = execRgnAbt pr s := rfl
@[simp] theorem exec_rgnStat (pr : Pred) (t0 : Target) (t1 : Target) (s : State) :
    exec (.rgnStat pr t0 t1) s = execRgnStat pr t0 t1 s := rfl
@[simp] theorem exec_barInit (pr : Pred) (bar : BitVec 4) (ahead : BitVec 2) (s : State) :
    exec (.barInit pr bar ahead) s = execBarInit pr bar ahead s := rfl
@[simp] theorem exec_barArr (pr : Pred) (bar : BitVec 4) (t0 : Target) (t1 : Target) (s : State) :
    exec (.barArr pr bar t0 t1) s = execBarArr pr bar t0 t1 s := rfl
@[simp] theorem exec_barWait (pr : Pred) (bar : BitVec 4) (s : State) :
    exec (.barWait pr bar) s = execBarWait pr bar s := rfl
@[simp] theorem exec_evtSig (pr : Pred) (scope : Scope) (s : State) :
    exec (.evtSig pr scope) s = execEvtSig pr scope s := rfl
@[simp] theorem exec_evtWait (pr : Pred) (scope : Scope) (s : State) :
    exec (.evtWait pr scope) s = execEvtWait pr scope s := rfl
@[simp] theorem exec_wqGive (pr : Pred) (scope : Scope) (t0 : Target) (t1 : Target) (s : State) :
    exec (.wqGive pr scope t0 t1) s = execWqGive pr scope t0 t1 s := rfl
@[simp] theorem exec_wqTake (pr : Pred) (scope : Scope) (t0 : Target) (t1 : Target) (s : State) :
    exec (.wqTake pr scope t0 t1) s = execWqTake pr scope t0 t1 s := rfl
@[simp] theorem exec_wqSteal (pr : Pred) (scope : Scope) (t0 : Target) (t1 : Target) (s : State) :
    exec (.wqSteal pr scope t0 t1) s = execWqSteal pr scope t0 t1 s := rfl
@[simp] theorem exec_launch (pr : Pred) (t0 : Target) (t1 : Target) (s : State) :
    exec (.launch pr t0 t1) s = execLaunch pr t0 t1 s := rfl
@[simp] theorem exec_yield (pr : Pred) (s : State) :
    exec (.yield pr) s = execYield pr s := rfl
@[simp] theorem exec_cpy (pr : Pred) (sreg : BitVec 6) (s : State) :
    exec (.cpy pr sreg) s = execCpy pr sreg s := rfl
@[simp] theorem exec_cpyQ (pr : Pred) (sreg : BitVec 6) (s : State) :
    exec (.cpyQ pr sreg) s = execCpyQ pr sreg s := rfl
@[simp] theorem exec_bbarInit (pr : Pred) (s : State) :
    exec (.bbarInit pr) s = execBbarInit pr s := rfl
@[simp] theorem exec_bbarWait (pr : Pred) (sreg : BitVec 6) (s : State) :
    exec (.bbarWait pr sreg) s = execBbarWait pr sreg s := rfl
@[simp] theorem exec_mma (pr : Pred) (sreg : BitVec 6) (acc : BitVec 3) (kq : BitVec 7) (s : State) :
    exec (.mma pr sreg acc kq) s = execMma pr sreg acc kq s := rfl
@[simp] theorem exec_mmaSp (pr : Pred) (sreg : BitVec 6) (acc : BitVec 3) (kq : BitVec 7) (s : State) :
    exec (.mmaSp pr sreg acc kq) s = execMmaSp pr sreg acc kq s := rfl
@[simp] theorem exec_mring (pr : Pred) (sreg : BitVec 6) (acc : BitVec 3) (n : RingN) (kq : BitVec 7) (s : State) :
    exec (.mring pr sreg acc n kq) s = execMring pr sreg acc n kq s := rfl
@[simp] theorem exec_mzero (pr : Pred) (acc : BitVec 3) (s : State) :
    exec (.mzero pr acc) s = execMzero pr acc s := rfl
@[simp] theorem exec_mld (pr : Pred) (sreg : BitVec 6) (acc : BitVec 3) (s : State) :
    exec (.mld pr sreg acc) s = execMld pr sreg acc s := rfl
@[simp] theorem exec_mst (pr : Pred) (fmt : MstFmt) (sreg : BitVec 6) (acc : BitVec 3) (s : State) :
    exec (.mst pr fmt sreg acc) s = execMst pr fmt sreg acc s := rfl
@[simp] theorem exec_cmtag (pr : Pred) (tag : BitVec 3) (scale : Bool) (s : State) :
    exec (.cmtag pr tag scale) s = execCmtag pr tag scale s := rfl
@[simp] theorem exec_cvtN (pr : Pred) (tag : BitVec 3) (rm : NRound) (sat : Bool) (t0 : Target) (t1 : Target) (s : State) :
    exec (.cvtN pr tag rm sat t0 t1) s = execCvtN pr tag rm sat t0 t1 s := rfl
@[simp] theorem exec_cvtW (pr : Pred) (tag : BitVec 3) (t0 : Target) (t1 : Target) (s : State) :
    exec (.cvtW pr tag t0 t1) s = execCvtW pr tag t0 t1 s := rfl
@[simp] theorem exec_bscale (pr : Pred) (t0 : Target) (t1 : Target) (s : State) :
    exec (.bscale pr t0 t1) s = execBscale pr t0 t1 s := rfl
@[simp] theorem exec_srd (pr : Pred) (num : BitVec 12) (t0 : Target) (t1 : Target) (s : State) :
    exec (.srd pr num t0 t1) s = execSrd pr num t0 t1 s := rfl
@[simp] theorem exec_swr (pr : Pred) (num : BitVec 12) (s : State) :
    exec (.swr pr num) s = execSwr pr num s := rfl
@[simp] theorem exec_sret (pr : Pred) (s : State) :
    exec (.sret pr) s = execSret pr s := rfl
@[simp] theorem exec_tlbinv (pr : Pred) (scope : Scope) (all : Bool) (s : State) :
    exec (.tlbinv pr scope all) s = execTlbinv pr scope all s := rfl
@[simp] theorem exec_cyc (pr : Pred) (t0 : Target) (t1 : Target) (s : State) :
    exec (.cyc pr t0 t1) s = execCyc pr t0 t1 s := rfl
@[simp] theorem exec_frameGrant (cell : Nat) (s : State) :
    exec (.frameGrant cell) s = execFrameGrant cell s := rfl
@[simp] theorem exec_blockFetch (fid : Nat) (seq : Nat) (s : State) :
    exec (.blockFetch fid seq) s = execBlockFetch fid seq s := rfl
@[simp] theorem exec_blockCommit (fid : Nat) (s : State) :
    exec (.blockCommit fid) s = execBlockCommit fid s := rfl
@[simp] theorem exec_trapDelivery (fid : Nat) (s : State) :
    exec (.trapDelivery fid) s = execTrapDelivery fid s := rfl
@[simp] theorem exec_loadReply (oid : Nat) (s : State) :
    exec (.loadReply oid) s = execLoadReply oid s := rfl
@[simp] theorem exec_homeWrite (oid : Nat) (piece : Nat) (s : State) :
    exec (.homeWrite oid piece) s = execHomeWrite oid piece s := rfl
@[simp] theorem exec_invalidationAck (line : Nat) (cell : Nat) (s : State) :
    exec (.invalidationAck line cell) s = execInvalidationAck line cell s := rfl
@[simp] theorem exec_l1Invalidate (cell : Nat) (line : Nat) (s : State) :
    exec (.l1Invalidate cell line) s = execL1Invalidate cell line s := rfl
@[simp] theorem exec_homeRead (oid : Nat) (piece : Nat) (s : State) :
    exec (.homeRead oid piece) s = execHomeRead oid piece s := rfl
@[simp] theorem exec_writeAck (oid : Nat) (s : State) :
    exec (.writeAck oid) s = execWriteAck oid s := rfl
@[simp] theorem exec_l1Evict (cell : Nat) (line : Nat) (s : State) :
    exec (.l1Evict cell line) s = execL1Evict cell line s := rfl
@[simp] theorem exec_llcEvict (line : Nat) (s : State) :
    exec (.llcEvict line) s = execLlcEvict line s := rfl
@[simp] theorem exec_pageWalk (fid : Nat) (va : Word) (s : State) :
    exec (.pageWalk fid va) s = execPageWalk fid va s := rfl
@[simp] theorem exec_tableUpdateWrite (oid : Nat) (piece : Nat) (s : State) :
    exec (.tableUpdateWrite oid piece) s = execTableUpdateWrite oid piece s := rfl
@[simp] theorem exec_tlbinvComplete (fid : Nat) (s : State) :
    exec (.tlbinvComplete fid) s = execTlbinvComplete fid s := rfl
@[simp] theorem exec_bridgeModuleRead (oid : Nat) (piece : Nat) (s : State) :
    exec (.bridgeModuleRead oid piece) s = execBridgeModuleRead oid piece s := rfl
@[simp] theorem exec_bridgeModuleWrite (oid : Nat) (piece : Nat) (s : State) :
    exec (.bridgeModuleWrite oid piece) s = execBridgeModuleWrite oid piece s := rfl
@[simp] theorem exec_bridgeDropHalf (half : Nat) (s : State) :
    exec (.bridgeDropHalf half) s = execBridgeDropHalf half s := rfl
@[simp] theorem exec_go (half : Nat) (exclusive : Bool) (s : State) :
    exec (.go half exclusive) s = execGo half exclusive s := rfl
@[simp] theorem exec_snpData (half : Nat) (s : State) :
    exec (.snpData half) s = execSnpData half s := rfl
@[simp] theorem exec_snpInv (half : Nat) (s : State) :
    exec (.snpInv half) s = execSnpInv half s := rfl
@[simp] theorem exec_snpCur (half : Nat) (s : State) :
    exec (.snpCur half) s = execSnpCur half s := rfl
@[simp] theorem exec_writePull (half : Nat) (s : State) :
    exec (.writePull half) s = execWritePull half s := rfl
@[simp] theorem exec_goWritePullDrop (half : Nat) (s : State) :
    exec (.goWritePullDrop half) s = execGoWritePullDrop half s := rfl
@[simp] theorem exec_memRd (half : Nat) (own : Bool) (s : State) :
    exec (.memRd half own) s = execMemRd half own s := rfl
@[simp] theorem exec_memRdData (half : Nat) (s : State) :
    exec (.memRdData half) s = execMemRdData half s := rfl
@[simp] theorem exec_memWr (half : Nat) (data : Vec) (s : State) :
    exec (.memWr half data) s = execMemWr half data s := rfl
@[simp] theorem exec_birspi (half : Nat) (s : State) :
    exec (.birspi half) s = execBirspi half s := rfl
@[simp] theorem exec_atomicOpCompletion (oid : Nat) (ok : Bool) (s : State) :
    exec (.atomicOpCompletion oid ok) s = execAtomicOpCompletion oid ok s := rfl
@[simp] theorem exec_slotGrant (s : State) :
    exec (.slotGrant) s = execSlotGrant s := rfl
@[simp] theorem exec_regionRead (oid : Nat) (piece : Nat) (s : State) :
    exec (.regionRead oid piece) s = execRegionRead oid piece s := rfl
@[simp] theorem exec_regionWrite (oid : Nat) (piece : Nat) (s : State) :
    exec (.regionWrite oid piece) s = execRegionWrite oid piece s := rfl
@[simp] theorem exec_regionAtomic (oid : Nat) (piece : Nat) (s : State) :
    exec (.regionAtomic oid piece) s = execRegionAtomic oid piece s := rfl
@[simp] theorem exec_edgeRequest (s : State) :
    exec (.edgeRequest) s = execEdgeRequest s := rfl
@[simp] theorem exec_stallRetry (oid : Nat) (piece : Nat) (s : State) :
    exec (.stallRetry oid piece) s = execStallRetry oid piece s := rfl
@[simp] theorem exec_endReport (fid : Nat) (s : State) :
    exec (.endReport fid) s = execEndReport fid s := rfl
@[simp] theorem exec_regionCommit (slot : Nat) (s : State) :
    exec (.regionCommit slot) s = execRegionCommit slot s := rfl
@[simp] theorem exec_regionAbort (slot : Nat) (cause : Nat) (s : State) :
    exec (.regionAbort slot cause) s = execRegionAbort slot cause s := rfl
@[simp] theorem exec_commitAnswer (fid : Nat) (s : State) :
    exec (.commitAnswer fid) s = execCommitAnswer fid s := rfl
@[simp] theorem exec_abortAnswer (fid : Nat) (s : State) :
    exec (.abortAnswer fid) s = execAbortAnswer fid s := rfl
@[simp] theorem exec_dependenceTimeout (slot : Nat) (s : State) :
    exec (.dependenceTimeout slot) s = execDependenceTimeout slot s := rfl
@[simp] theorem exec_recoveryGo (who : Nat) (result : Nat) (s : State) :
    exec (.recoveryGo who result) s = execRecoveryGo who result s := rfl
@[simp] theorem exec_leaseExpiry (s : State) :
    exec (.leaseExpiry) s = execLeaseExpiry s := rfl
@[simp] theorem exec_startWatchdog (s : State) :
    exec (.startWatchdog) s = execStartWatchdog s := rfl
@[simp] theorem exec_goWord (win : Nat) (s : State) :
    exec (.goWord win) s = execGoWord win s := rfl
@[simp] theorem exec_groupPlace (die : Nat) (s : State) :
    exec (.groupPlace die) s = execGroupPlace die s := rfl
@[simp] theorem exec_ageingPeriod (lid : Nat) (s : State) :
    exec (.ageingPeriod lid) s = execAgeingPeriod lid s := rfl
@[simp] theorem exec_preemptTimer (die : Nat) (s : State) :
    exec (.preemptTimer die) s = execPreemptTimer die s := rfl
@[simp] theorem exec_preemption (gid : Nat) (s : State) :
    exec (.preemption gid) s = execPreemption gid s := rfl
@[simp] theorem exec_segmentReport (lid : Nat) (die : Nat) (s : State) :
    exec (.segmentReport lid die) s = execSegmentReport lid die s := rfl
@[simp] theorem exec_copyStart (cell : Nat) (s : State) :
    exec (.copyStart cell) s = execCopyStart cell s := rfl
@[simp] theorem exec_copyBeat (cell : Nat) (cmd : Nat) (len : Nat) (s : State) :
    exec (.copyBeat cell cmd len) s = execCopyBeat cell cmd len s := rfl
@[simp] theorem exec_copyFinish (cell : Nat) (cmd : Nat) (s : State) :
    exec (.copyFinish cell cmd) s = execCopyFinish cell cmd s := rfl
@[simp] theorem exec_bbarInitPerform (cell : Nat) (cmd : Nat) (s : State) :
    exec (.bbarInitPerform cell cmd) s = execBbarInitPerform cell cmd s := rfl
@[simp] theorem exec_markTake (cell : Nat) (s : State) :
    exec (.markTake cell) s = execMarkTake cell s := rfl
@[simp] theorem exec_nodeCommandStart (cell : Nat) (s : State) :
    exec (.nodeCommandStart cell) s = execNodeCommandStart cell s := rfl
@[simp] theorem exec_nodeCommandFinish (cell : Nat) (s : State) :
    exec (.nodeCommandFinish cell) s = execNodeCommandFinish cell s := rfl
@[simp] theorem exec_ringStart (cell : Nat) (s : State) :
    exec (.ringStart cell) s = execRingStart cell s := rfl
@[simp] theorem exec_ringHandover (cell : Nat) (s : State) :
    exec (.ringHandover cell) s = execRingHandover cell s := rfl
@[simp] theorem exec_ringTimeout (cell : Nat) (s : State) :
    exec (.ringTimeout cell) s = execRingTimeout cell s := rfl
@[simp] theorem exec_ldmapWrite (who : Nat) (p : Nat) (value : Word) (s : State) :
    exec (.ldmapWrite who p value) s = execLdmapWrite who p value s := rfl
@[simp] theorem exec_lwcfgWrite (who : Nat) (w : Nat) (value : Word) (s : State) :
    exec (.lwcfgWrite who w value) s = execLwcfgWrite who w value s := rfl
@[simp] theorem exec_lcancel (who : Nat) (value : Word) (s : State) :
    exec (.lcancel who value) s = execLcancel who value s := rfl
@[simp] theorem exec_gmove (who : Nat) (value : Word) (s : State) :
    exec (.gmove who value) s = execGmove who value s := rfl
@[simp] theorem exec_debugHold (who : Nat) (gid : Nat) (s : State) :
    exec (.debugHold who gid) s = execDebugHold who gid s := rfl
@[simp] theorem exec_debugAccess (gid : Nat) (off : Nat) (write : Bool) (value : Word) (s : State) :
    exec (.debugAccess gid off write value) s = execDebugAccess gid off write value s := rfl
@[simp] theorem exec_debugRelease (gid : Nat) (s : State) :
    exec (.debugRelease gid) s = execDebugRelease gid s := rfl
@[simp] theorem exec_warmReset (who : Nat) (die : Nat) (save : Bool) (s : State) :
    exec (.warmReset who die save) s = execWarmReset who die save s := rfl
@[simp] theorem exec_fenceOnly (who : Nat) (die : Nat) (save : Bool) (s : State) :
    exec (.fenceOnly who die save) s = execFenceOnly who die save s := rfl
@[simp] theorem exec_readmit (who : Nat) (die : Nat) (s : State) :
    exec (.readmit who die) s = execReadmit who die s := rfl
@[simp] theorem exec_linkQuiesce (die : Nat) (s : State) :
    exec (.linkQuiesce die) s = execLinkQuiesce die s := rfl
@[simp] theorem exec_dieResetDone (die : Nat) (s : State) :
    exec (.dieResetDone die) s = execDieResetDone die s := rfl
@[simp] theorem exec_bistDone (die : Nat) (code : Nat) (s : State) :
    exec (.bistDone die code) s = execBistDone die code s := rfl
@[simp] theorem exec_linkDown (die : Nat) (lost : Bool) (s : State) :
    exec (.linkDown die lost) s = execLinkDown die lost s := rfl
@[simp] theorem exec_beatReplay (die : Nat) (s : State) :
    exec (.beatReplay die) s = execBeatReplay die s := rfl
@[simp] theorem exec_creditReturn (link : Nat) (chan : Nat) (n : Nat) (crcOk : Bool) (s : State) :
    exec (.creditReturn link chan n crcOk) s = execCreditReturn link chan n crcOk s := rfl
@[simp] theorem exec_creditAudit (link : Nat) (chan : Nat) (s : State) :
    exec (.creditAudit link chan) s = execCreditAudit link chan s := rfl
@[simp] theorem exec_gateTimer (cell : Nat) (s : State) :
    exec (.gateTimer cell) s = execGateTimer cell s := rfl
@[simp] theorem exec_cellWake (cell : Nat) (s : State) :
    exec (.cellWake cell) s = execCellWake cell s := rfl
@[simp] theorem exec_uncorrectableError (place : Nat) (loc : Nat) (s : State) :
    exec (.uncorrectableError place loc) s = execUncorrectableError place loc s := rfl
@[simp] theorem exec_correctedError (place : Nat) (loc : Nat) (s : State) :
    exec (.correctedError place loc) s = execCorrectedError place loc s := rfl
@[simp] theorem exec_thermalThrottle (step : Nat) (sector : Nat) (s : State) :
    exec (.thermalThrottle step sector) s = execThermalThrottle step sector s := rfl
@[simp] theorem exec_clkstepWrite (who : Nat) (value : Word) (s : State) :
    exec (.clkstepWrite who value) s = execClkstepWrite who value s := rfl
@[simp] theorem exec_moduleStart (outcome : Nat) (s : State) :
    exec (.moduleStart outcome) s = execModuleStart outcome s := rfl
@[simp] theorem exec_claim (who : Nat) (value : Word) (s : State) :
    exec (.claim who value) s = execClaim who value s := rfl
@[simp] theorem exec_startcfgWrite (who : Nat) (value : Word) (s : State) :
    exec (.startcfgWrite who value) s = execStartcfgWrite who value s := rfl
@[simp] theorem exec_moderrClear (who : Nat) (value : Word) (s : State) :
    exec (.moderrClear who value) s = execModerrClear who value s := rfl
@[simp] theorem exec_registerWrite (who : Nat) (off : Nat) (value : Word) (s : State) :
    exec (.registerWrite who off value) s = execRegisterWrite who off value s := rfl
@[simp] theorem exec_getVersion (port : Nat) (s : State) :
    exec (.getVersion port) s = execGetVersion port s := rfl
@[simp] theorem exec_getCapabilities (port : Nat) (s : State) :
    exec (.getCapabilities port) s = execGetCapabilities port s := rfl
@[simp] theorem exec_negotiateAlgorithms (port : Nat) (offered : List Nat) (s : State) :
    exec (.negotiateAlgorithms port offered) s = execNegotiateAlgorithms port offered s := rfl
@[simp] theorem exec_getDigests (port : Nat) (s : State) :
    exec (.getDigests port) s = execGetDigests port s := rfl
@[simp] theorem exec_getCertificate (port : Nat) (slot : Nat) (s : State) :
    exec (.getCertificate port slot) s = execGetCertificate port slot s := rfl
@[simp] theorem exec_challenge (port : Nat) (nonce : Word) (s : State) :
    exec (.challenge port nonce) s = execChallenge port nonce s := rfl
@[simp] theorem exec_getMeasurements (port : Nat) (index : Nat) (nonce : Word) (s : State) :
    exec (.getMeasurements port index nonce) s = execGetMeasurements port index nonce s := rfl
@[simp] theorem exec_keyExchange (port : Nat) (data : Word) (s : State) :
    exec (.keyExchange port data) s = execKeyExchange port data s := rfl
@[simp] theorem exec_finish (port : Nat) (proof : Word) (s : State) :
    exec (.finish port proof) s = execFinish port proof s := rfl
@[simp] theorem exec_keyUpdate (port : Nat) (s : State) :
    exec (.keyUpdate port) s = execKeyUpdate port s := rfl
@[simp] theorem exec_heartbeat (port : Nat) (s : State) :
    exec (.heartbeat port) s = execHeartbeat port s := rfl
@[simp] theorem exec_endSession (port : Nat) (s : State) :
    exec (.endSession port) s = execEndSession port s := rfl
@[simp] theorem exec_vendorDefined (port : Nat) (keyId : Nat) (key : Vec) (s : State) :
    exec (.vendorDefined port keyId key) s = execVendorDefined port keyId key s := rfl
@[simp] theorem exec_ideKm (port : Nat) (stream : Nat) (key : Vec) (s : State) :
    exec (.ideKm port stream key) s = execIdeKm port stream key s := rfl

end Sys2Proof.Machine
end

