-- ==== Sys2Proof/Laws/Fields.lean ====
section
/-! SUPPORT. How the fields of a word are read back from the pieces that an encoder puts together:
what the decoder's readers of predicates, targets, scopes and orders give on the bits of one. -/

namespace Sys2Proof

/-- A field reads back what was put into it. -/
@[simp] theorem fld_put_same (w lo : Nat) (v : BitVec w) (h : lo + w ≤ 64) : fld (put w lo v) lo w = v := by
  ext i hi
  simp only [put, BitVec.getElem_extractLsb', BitVec.getLsbD_shiftLeft, BitVec.getLsbD_setWidth]
  have h1 : lo + i < 64 := by omega
  have h2 : ¬ lo + i < lo := by omega
  have h3 : lo + i - lo = i := by omega
  have h4 : i < 64 := by omega
  simp only [h1, h2, h3, h4, decide_true, decide_false, Bool.not_false, Bool.true_and]
  exact (BitVec.getElem_eq_testBit_toNat v i hi).symm ▸ rfl

/-- A field apart from the one put reads as zero. -/
@[simp] theorem fld_put_apart (w l : Nat) (v : BitVec w) (lo n : Nat) (h : l + w ≤ lo ∨ lo + n ≤ l) :
    fld (put w l v) lo n = 0#n := by
  ext i hi
  simp only [put, BitVec.getElem_extractLsb', BitVec.getLsbD_shiftLeft, BitVec.getLsbD_setWidth,
    BitVec.getElem_zero]
  rcases h with h | h
  · have : v.getLsbD (lo + i - l) = false := BitVec.getLsbD_of_ge _ _ (by omega)
    simp [this]
  · have : lo + i < l := by omega
    simp [this]

/-- A field within the one put reads as its part. -/
theorem fld_put_part (w l : Nat) (v : BitVec w) (lo n : Nat) (h1 : l ≤ lo) (h2 : lo + n ≤ l + w)
    (h3 : l + w ≤ 64) : fld (put w l v) lo n = fld v (lo - l) n := by
  ext i hi
  simp only [put, BitVec.getElem_extractLsb', BitVec.getLsbD_shiftLeft, BitVec.getLsbD_setWidth]
  have h4 : lo + i < 64 := by omega
  have h5 : ¬ lo + i < l := by omega
  have h6 : lo + i - l = lo - l + i := by omega
  have h7 : lo - l + i < 64 := by omega
  simp [h4, h5, h6, h7]

/-- A field that holds the one put, which begins at the same bit. -/
theorem fld_put_wider (w lo : Nat) (v : BitVec w) (n : Nat) (h1 : w ≤ n) (h2 : lo + n ≤ 64) :
    fld (put w lo v) lo n = v.setWidth n := by
  ext i hi
  simp only [put, BitVec.getElem_extractLsb', BitVec.getLsbD_shiftLeft, BitVec.getLsbD_setWidth,
    BitVec.getElem_setWidth]
  have h4 : lo + i < 64 := by omega
  have h5 : ¬ lo + i < lo := by omega
  have h6 : lo + i - lo = i := by omega
  have h7 : i < 64 := by omega
  simp [h4, h5, h6, h7]

/-- A field of two words put together. -/
@[simp] theorem fld_or {n : Nat} (a b : Word) (lo : Nat) : fld (a ||| b) lo n = fld a lo n ||| fld b lo n := by
  ext i hi
  simp

@[simp] theorem fld_zero {w : Nat} (lo n : Nat) : fld (0#w) lo n = 0#n := by
  ext i hi
  simp

/-! ### The readers of a word's fields -/

theorem decPred_eq {w : Word} {p : Pred} (h : fld w 54 2 = p.bits) : decPred w = .ok p := by
  unfold decPred nfld; rw [h]; cases p <;> rfl

theorem decTarget_eq {w : Word} {lo : Nat} {t : Target} (hk : fld w (lo + 7) 2 = t.kind)
    (hi : fld w lo 7 = t.index) : decTarget w lo = .ok t := by
  unfold decTarget nfld; rw [hk, hi]; cases t <;> rfl

theorem decScope_eq {w : Word} {lo : Nat} {t : Scope} (h : fld w lo 3 = t.bits) :
    decScope w lo = .ok t := by
  unfold decScope nfld; rw [h]; cases t <;> rfl

theorem decOrder_eq {w : Word} {t : Order} (h : fld w 44 2 = t.bits) : decOrder w = .ok t := by
  unfold decOrder nfld; rw [h]; cases t <;> rfl

theorem decLane_eq {w : Word} {lo : Nat} {t : Lane} (h : fld w lo 2 = t.code) :
    decLane w lo = .ok t := by
  unfold decLane nfld; rw [h]; cases t <;> rfl

theorem decTy_eq {w : Word} {t : Ty} (h : fld w 40 2 = t.bits) : decTy w = .ok t := by
  unfold decTy nfld; rw [h]; cases t <;> rfl

theorem decCvt_eq {w : Word} {lo : Nat} {t : CvtTy} (h : fld w lo 3 = t.bits) :
    decCvt w lo = .ok t := by
  unfold decCvt nfld; rw [h]; cases t <;> rfl

theorem decVRed_eq {w : Word} {t : VRedOp} (h : fld w 48 6 = t.bits) : decVRed w = .ok t := by
  unfold decVRed nfld; rw [h]; cases t <;> rfl

theorem decVCmp_eq {w : Word} {t : VCmpOp} (h : fld w 48 6 = t.bits) : decVCmp w = .ok t := by
  unfold decVCmp nfld; rw [h]; cases t <;> rfl

theorem decRing_eq {w : Word} {t : RingN} (h : fld w 39 2 = t.bits) : decRing w = .ok t := by
  unfold decRing nfld; rw [h]; cases t <;> rfl

theorem decMst_eq {w : Word} {t : MstFmt} (h : fld w 50 4 = t.bits) : decMst w = .ok t := by
  unfold decMst nfld; rw [h]; cases t <;> rfl

theorem decNRound_eq {w : Word} {t : NRound} (h : fld w 43 2 = t.bits) : decNRound w = .ok t := by
  unfold decNRound nfld; rw [h]; cases t <;> rfl

theorem decExt_eq {w : Word} {t : ExtW} (h : fld w 40 2 = t.bits) : decExt w = .ok t := by
  unfold decExt nfld; rw [h]; cases t <;> rfl

theorem decWD_eq {w : Word} {t : WD} (h : fld w 40 4 = t.bits) : decWD w = .ok t := by
  unfold decWD nfld; rw [h]; cases t <;> rfl

theorem decMem_eq {w : Word} {m : MemF} (hl : fld w 49 5 = m.lsid) (hs : fld w 46 3 = m.scope.bits)
    (ho : fld w 44 2 = m.ord.bits) (hf : fld w 18 22 = m.off) : decMem w = .ok m := by
  simp only [decMem, decScope_eq hs, decOrder_eq ho, hl, hf]
  rfl

theorem rsv_eq {w : Word} {lo n : Nat} (h : fld w lo n = 0#n) : rsv w lo n = .ok () := by
  simp [rsv, need, h]

theorem noTarget_eq {w : Word} {lo : Nat} (h : fld w lo 9 = 0#9) : noTarget w lo = .ok () := by
  simp [noTarget, need, h]

theorem need_true (e : DecodeErr) : need true e = .ok () := rfl

/-- An instruction within the limits of R38 passes the last check. -/
theorem legal_eq {i : Instr} (h : i.wellFormed = true) : legal i = .ok i := by
  simp [legal, h]

@[simp] theorem ok_bind {α β : Type} (a : α) (f : α → Dec β) : ((.ok a : Dec α) >>= f) = f a := rfl

end Sys2Proof
end

