-- ==== Sys2Proof/Laws/Formats.lean ====
section
/-! SUPPORT. One lemma per format of R35: its decoder gives back, from the word its encoder makes, the
predicate, the targets and the fields that went in. -/

namespace Sys2Proof

/-- A word that has bits only in [lo+n-1:lo]. -/
def Within (x : Word) (lo n : Nat) : Prop := ∀ l k, l + k ≤ lo ∨ lo + n ≤ l → fld x l k = 0#k

theorem Within.put {w l : Nat} (v : BitVec w) {lo n : Nat} (h1 : lo ≤ l) (h2 : l + w ≤ lo + n) :
    Within (put w l v) lo n := by
  intro a k h; exact fld_put_apart _ _ _ _ _ (by omega)

theorem Within.or {x y : Word} {lo n : Nat} (hx : Within x lo n) (hy : Within y lo n) :
    Within (x ||| y) lo n := by
  intro a k h; rw [fld_or, hx a k h, hy a k h]; simp

theorem Within.zero (lo n : Nat) : Within 0#64 lo n := by
  intro a k _; simp

/-! ### G -/

theorem op_encG (op : BitVec 8) (p : Pred) (fn : BitVec 6) (m : Word) (a b : Target)
    (hm : Within m 40 8) : fld (encG op p fn m a b) 56 8 = op := by
  simp [encG, encHead, encTarget, hm 56 8]

theorem fn_encG (op : BitVec 8) (p : Pred) (fn : BitVec 6) (m : Word) (a b : Target)
    (hm : Within m 40 8) : fld (encG op p fn m a b) 48 6 = fn := by
  simp [encG, encHead, encTarget, hm 48 6]

theorem mod_encG (op : BitVec 8) (p : Pred) (fn : BitVec 6) (m : Word) (a b : Target) (lo n : Nat)
    (h1 : 40 ≤ lo) (h2 : lo + n ≤ 48) : fld (encG op p fn m a b) lo n = fld m lo n := by
  simp only [encG, encHead, encTarget, fld_or]
  rw [fld_put_apart 8 56 _ _ _ (by omega), fld_put_apart 2 54 _ _ _ (by omega),
    fld_put_apart 6 48 _ _ _ (by omega), fld_put_apart _ (9 + 7) _ _ _ (by omega),
    fld_put_apart _ 9 _ _ _ (by omega), fld_put_apart _ (0 + 7) _ _ _ (by omega),
    fld_put_apart _ 0 _ _ _ (by omega)]
  simp

theorem dec_encG (op : BitVec 8) (p : Pred) (fn : BitVec 6) (m : Word) (a b : Target)
    (hm : Within m 40 8) : decPred (encG op p fn m a b) = .ok p ∧ rsv (encG op p fn m a b) 18 22 = .ok ()
      ∧ decTarget (encG op p fn m a b) 0 = .ok a ∧ decTarget (encG op p fn m a b) 9 = .ok b := by
  refine ⟨decPred_eq ?_, rsv_eq ?_, decTarget_eq ?_ ?_, decTarget_eq ?_ ?_⟩ <;>
    simp [encG, encHead, encTarget, hm 54 2, hm 18 22, hm 7 2, hm 0 7, hm 16 2, hm 9 7]

theorem decG_encG (op : BitVec 8) (p : Pred) (fn : BitVec 6) (a b : Target)
    (c : Pred → Target → Target → Instr) :
    decG (encG op p fn 0 a b) fn 0 c = legal (c p a b) := by
  have hm := Within.zero 40 8
  obtain ⟨h1, h2, h3, h4⟩ := dec_encG op p fn 0 a b hm
  have h5 : fld (encG op p fn 0 a b) 48 6 = fn := fn_encG op p fn 0 a b hm
  have h6 : fld (encG op p fn 0 a b) 40 8 = 0 :=
    (mod_encG op p fn 0 a b 40 8 (by omega) (by omega)).trans (fld_zero _ _)
  simp only [decG, h1, h2, h3, h4, h5, h6, beq_self_eq_true, Bool.and_self, need_true, ok_bind]

theorem decGMod_encG {α : Type} (op : BitVec 8) (p : Pred) (fn : BitVec 6) (m : Word) (a b : Target) (n : Nat)
    (d : Dec α) (x : α) (c : Pred → α → Target → Target → Instr) (hm : Within m 40 n) (hn : n ≤ 8) (hd : d = .ok x) :
    decGMod (encG op p fn m a b) fn n d c = legal (c p x a b) := by
  have hm' : Within m 40 8 := fun l k h => hm l k (by omega)
  obtain ⟨h1, h2, h3, h4⟩ := dec_encG op p fn m a b hm'
  have h5 : rsv (encG op p fn m a b) (40 + n) (8 - n) = .ok () :=
    rsv_eq ((mod_encG op p fn m a b (40 + n) (8 - n) (by omega) (by omega)).trans (hm _ _ (by omega)))
  simp only [decGMod, h1, h2, h3, h4, h5, hd, fn_encG _ _ _ _ _ _ hm', ok_bind]
  simp [need]

theorem decGFn_encG {α : Type} (op : BitVec 8) (p : Pred) (fn : BitVec 6) (ln : Lane) (a b : Target)
    (d : Dec α) (x : α) (c : Pred → α → Lane → Target → Target → Instr) (hd : d = .ok x) :
    decGFn (encG op p fn (put 2 40 ln.code) a b) d c = legal (c p x ln a b) := by
  have hm : Within (put 2 40 ln.code) 40 8 := .put _ (by omega) (by omega)
  obtain ⟨h1, h2, h3, h4⟩ := dec_encG op p fn (put 2 40 ln.code) a b hm
  have h5 : rsv (encG op p fn (put 2 40 ln.code) a b) 42 6 = .ok () :=
    rsv_eq ((mod_encG _ _ _ _ _ _ _ _ (by omega) (by omega)).trans (by simp))
  have h6 : decLane (encG op p fn (put 2 40 ln.code) a b) 40 = .ok ln :=
    decLane_eq ((mod_encG _ _ _ _ _ _ _ _ (by omega) (by omega)).trans (by simp))
  simp only [decGFn, h1, h2, h3, h4, h5, h6, hd, ok_bind]

/-! ### I -/

theorem op_encI (op : BitVec 8) (p : Pred) (fn : BitVec 6) (m : Word) (a : Target)
    (hm : Within m 18 24) : fld (encI op p fn m a) 56 8 = op := by
  simp [encI, encHead, encTarget, hm 56 8]

theorem fn_encI (op : BitVec 8) (p : Pred) (fn : BitVec 6) (m : Word) (a : Target)
    (hm : Within m 18 24) : fld (encI op p fn m a) 48 6 = fn := by
  simp [encI, encHead, encTarget, hm 48 6]

theorem imm_encI (op : BitVec 8) (p : Pred) (fn : BitVec 6) (m : Word) (a : Target) (lo n : Nat)
    (h1 : 18 ≤ lo) (h2 : lo + n ≤ 42) : fld (encI op p fn m a) lo n = fld m lo n := by
  simp only [encI, encHead, encTarget, fld_or]
  rw [fld_put_apart 8 56 _ _ _ (by omega), fld_put_apart 2 54 _ _ _ (by omega),
    fld_put_apart 6 48 _ _ _ (by omega), fld_put_apart _ (0 + 7) _ _ _ (by omega),
    fld_put_apart _ 0 _ _ _ (by omega)]
  simp

theorem decI_encI (op : BitVec 8) (p : Pred) (fn : BitVec 6) (m : Word) (a : Target) (n : Nat)
    (c : Pred → Target → Instr) (hm : Within m 18 n) (hn : n ≤ 24) :
    decI (encI op p fn m a) fn n c = legal (c p a) := by
  have hm' : Within m 18 24 := fun l k h => hm l k (by omega)
  have h1 : decPred (encI op p fn m a) = .ok p :=
    decPred_eq (by simp [encI, encHead, encTarget, hm' 54 2])
  have h2 : rsv (encI op p fn m a) 42 6 = .ok () :=
    rsv_eq (by simp [encI, encHead, encTarget, hm' 42 6])
  have h3 : rsv (encI op p fn m a) 9 9 = .ok () :=
    rsv_eq (by simp [encI, encHead, encTarget, hm' 9 9])
  have h4 : decTarget (encI op p fn m a) 0 = .ok a := by
    apply decTarget_eq <;> simp [encI, encHead, encTarget, hm' 7 2, hm' 0 7]
  have h5 : rsv (encI op p fn m a) (18 + n) (24 - n) = .ok () :=
    rsv_eq ((imm_encI op p fn m a _ _ (by omega) (by omega)).trans (hm _ _ (by omega)))
  simp only [decI, h1, h2, h3, h4, h5, fn_encI _ _ _ _ _ hm', ok_bind]
  simp [need]

theorem decILane_encI (op : BitVec 8) (p : Pred) (ln : Lane) (k : BitVec 6) (a : Target)
    (c : Pred → Lane → BitVec 6 → Target → Instr) :
    decILane (encI op p 0 (put 2 18 ln.code ||| put 6 20 k) a) c = legal (c p ln k a) := by
  have hm : Within (put 2 18 ln.code ||| put 6 20 k) 18 8 :=
    .or (.put _ (by omega) (by omega)) (.put _ (by omega) (by omega))
  have h1 : decLane (encI op p 0 (put 2 18 ln.code ||| put 6 20 k) a) 18 = .ok ln :=
    decLane_eq ((imm_encI _ _ _ _ _ _ _ (by omega) (by omega)).trans (by simp))
  have h2 : fld (encI op p 0 (put 2 18 ln.code ||| put 6 20 k) a) 20 6 = k :=
    (imm_encI _ _ _ _ _ _ _ (by omega) (by omega)).trans (by simp)
  simp only [decILane, h1, h2, ok_bind]
  exact decI_encI op p 0 _ a 8 _ hm (by omega)

/-- A word of `scall`, `trap` or `brk` has no target. -/
theorem noTarget_encI (op : BitVec 8) (p : Pred) (fn : BitVec 6) (m : Word) (hm : Within m 18 24) :
    noTarget (encI op p fn m .none) 0 = .ok () := by
  apply noTarget_eq
  have h : encTarget 0 .none = 0#64 := by decide
  simp [encI, encHead, h, hm 0 9]

/-! ### L, S and the cache operations -/

theorem op_encL (op : BitVec 8) (p : Pred) (fn : BitVec 4) (m : MemF) (a b : Target) :
    fld (encL op p fn m a b) 56 8 = op := by
  simp [encL, encHead, encMem, encTarget]

theorem fn_encL (op : BitVec 8) (p : Pred) (fn : BitVec 4) (m : MemF) (a b : Target) :
    fld (encL op p fn m a b) 40 4 = fn := by
  simp [encL, encHead, encMem, encTarget]

theorem decL_encL (op : BitVec 8) (p : Pred) (fn : BitVec 4) (m : MemF) (a b : Target)
    (c : Pred → MemF → Target → Target → Instr) :
    decL (encL op p fn m a b) fn c = legal (c p m a b) := by
  have h1 : decPred (encL op p fn m a b) = .ok p :=
    decPred_eq (by simp [encL, encHead, encMem, encTarget])
  have h2 : decMem (encL op p fn m a b) = .ok m := by
    apply decMem_eq <;> simp [encL, encHead, encMem, encTarget]
  have h3 : decTarget (encL op p fn m a b) 0 = .ok a := by
    apply decTarget_eq <;> simp [encL, encHead, encMem, encTarget]
  have h4 : decTarget (encL op p fn m a b) 9 = .ok b := by
    apply decTarget_eq <;> simp [encL, encHead, encMem, encTarget]
  simp only [decL, h1, h2, h3, h4, fn_encL, ok_bind]
  simp [need]

theorem op_encS (op : BitVec 8) (p : Pred) (fn : BitVec 4) (m : MemF) :
    fld (encS op p fn m) 56 8 = op := by
  simp [encS, encHead, encMem]

theorem fn_encS (op : BitVec 8) (p : Pred) (fn : BitVec 4) (m : MemF) :
    fld (encS op p fn m) 40 4 = fn := by
  simp [encS, encHead, encMem]

theorem decS_encS (op : BitVec 8) (p : Pred) (fn : BitVec 4) (m : MemF) (c : Pred → MemF → Instr) :
    decS (encS op p fn m) fn c = legal (c p m) := by
  have h1 : decPred (encS op p fn m) = .ok p := decPred_eq (by simp [encS, encHead, encMem])
  have h2 : decMem (encS op p fn m) = .ok m := by
    apply decMem_eq <;> simp [encS, encHead, encMem]
  have h3 : rsv (encS op p fn m) 0 18 = .ok () := rsv_eq (by simp [encS, encHead, encMem])
  simp only [decS, h1, h2, h3, fn_encS, ok_bind]
  simp [need]

theorem decLCache_enc (op : BitVec 8) (p : Pred) (l : BitVec 5) (o : Word) (n : Nat) (c : Pred → Instr)
    (ho : Within o 18 n) (hn : n ≤ 22) :
    decLCache (encHead op p ||| put 5 49 l ||| o) n c = legal (c p) := by
  have ho' : Within o 18 22 := fun l k h => ho l k (by omega)
  have h1 : decPred (encHead op p ||| put 5 49 l ||| o) = .ok p :=
    decPred_eq (by simp [encHead, ho' 54 2])
  have h2 : rsv (encHead op p ||| put 5 49 l ||| o) 40 9 = .ok () :=
    rsv_eq (by simp [encHead, ho' 40 9])
  have h3 : rsv (encHead op p ||| put 5 49 l ||| o) (18 + n) (22 - n) = .ok () := by
    apply rsv_eq
    simp only [encHead, fld_or]
    rw [fld_put_apart 8 56 _ _ _ (by omega), fld_put_apart 2 54 _ _ _ (by omega),
      fld_put_apart 5 49 _ _ _ (by omega), ho _ _ (by omega)]
    simp
  have h4 : noTarget (encHead op p ||| put 5 49 l ||| o) 0 = .ok () :=
    noTarget_eq (by simp [encHead, ho' 0 9])
  have h5 : noTarget (encHead op p ||| put 5 49 l ||| o) 9 = .ok () :=
    noTarget_eq (by simp [encHead, ho' 9 9])
  simp only [decLCache, h1, h2, h3, h4, h5, ok_bind]

/-! ### R, W, C, B and F -/

theorem decR_enc (op : BitVec 8) (p : Pred) (n : Nat) (v : BitVec n) (a b : Target) (hn : n ≤ 6)
    (c : Pred → Target → Target → Instr) :
    decR (encHead op p ||| put n 48 v ||| encTarget 9 b ||| encTarget 0 a) n c = legal (c p a b) := by
  have ap : ∀ lo k, lo + k ≤ 48 ∨ 54 ≤ lo → fld (put n 48 v) lo k = 0#k :=
    fun lo k h => fld_put_apart _ _ _ _ _ (by omega)
  have h1 : decPred (encHead op p ||| put n 48 v ||| encTarget 9 b ||| encTarget 0 a) = .ok p :=
    decPred_eq (by simp [encHead, encTarget, ap 54 2])
  have h2 : fld (encHead op p ||| put n 48 v ||| encTarget 9 b ||| encTarget 0 a) (48 + n) (6 - n) = 0#_ := by
    simp only [encHead, encTarget, fld_or]
    rw [fld_put_apart 8 56 _ _ _ (by omega), fld_put_apart 2 54 _ _ _ (by omega),
      fld_put_apart n 48 _ _ _ (by omega), fld_put_apart _ (9 + 7) _ _ _ (by omega),
      fld_put_apart _ 9 _ _ _ (by omega), fld_put_apart _ (0 + 7) _ _ _ (by omega),
      fld_put_apart _ 0 _ _ _ (by omega)]
    simp
  have h3 : rsv (encHead op p ||| put n 48 v ||| encTarget 9 b ||| encTarget 0 a) 18 30 = .ok () :=
    rsv_eq (by simp [encHead, encTarget, ap 18 30])
  have h4 : decTarget (encHead op p ||| put n 48 v ||| encTarget 9 b ||| encTarget 0 a) 0 = .ok a := by
    apply decTarget_eq <;> simp [encHead, encTarget, ap 7 2, ap 0 7]
  have h5 : decTarget (encHead op p ||| put n 48 v ||| encTarget 9 b ||| encTarget 0 a) 9 = .ok b := by
    apply decTarget_eq <;> simp [encHead, encTarget, ap 16 2, ap 9 7]
  simp only [decR, h1, h2, h3, h4, h5, ok_bind]
  simp [need]

theorem decW_enc (op : BitVec 8) (p : Pred) (n : Nat) (v : BitVec n) (hn : n ≤ 6) (c : Pred → Instr) :
    decW (encHead op p ||| put n 48 v) n c = legal (c p) := by
  have ap : ∀ lo k, lo + k ≤ 48 ∨ 54 ≤ lo → fld (put n 48 v) lo k = 0#k :=
    fun lo k h => fld_put_apart _ _ _ _ _ (by omega)
  have h1 : decPred (encHead op p ||| put n 48 v) = .ok p := decPred_eq (by simp [encHead, ap 54 2])
  have h2 : fld (encHead op p ||| put n 48 v) (48 + n) (6 - n) = 0#_ := by
    simp only [encHead, fld_or]
    rw [fld_put_apart 8 56 _ _ _ (by omega), fld_put_apart 2 54 _ _ _ (by omega),
      fld_put_apart n 48 _ _ _ (by omega)]
    simp
  have h3 : rsv (encHead op p ||| put n 48 v) 0 48 = .ok () := rsv_eq (by simp [encHead, ap 0 48])
  simp only [decW, h1, h2, h3, ok_bind]
  simp [need]

theorem decC_enc (op : BitVec 8) (p : Pred) (v : BitVec 36) (a b : Target)
    (c : Pred → BitVec 36 → Target → Target → Instr) :
    decC (encHead op p ||| put 36 18 v ||| encTarget 9 b ||| encTarget 0 a) c = legal (c p v a b) := by
  have h1 : decPred (encHead op p ||| put 36 18 v ||| encTarget 9 b ||| encTarget 0 a) = .ok p :=
    decPred_eq (by simp [encHead, encTarget])
  have h2 : fld (encHead op p ||| put 36 18 v ||| encTarget 9 b ||| encTarget 0 a) 18 36 = v := by
    simp [encHead, encTarget]
  have h4 : decTarget (encHead op p ||| put 36 18 v ||| encTarget 9 b ||| encTarget 0 a) 0 = .ok a := by
    apply decTarget_eq <;> simp [encHead, encTarget]
  have h5 : decTarget (encHead op p ||| put 36 18 v ||| encTarget 9 b ||| encTarget 0 a) 9 = .ok b := by
    apply decTarget_eq <;> simp [encHead, encTarget]
  simp only [decC, h1, h2, h4, h5, ok_bind]

theorem op_encB (op : BitVec 8) (p : Pred) (e : BitVec 3) (o : BitVec 33) :
    fld (encB op p e o) 56 8 = op := by
  simp [encB, encHead]

theorem decB_encB (op : BitVec 8) (p : Pred) (e : BitVec 3) (o : BitVec 33) (off : Bool) (c : Pred → Instr)
    (h : off = true ∨ o = 0) : decB (encB op p e o) off c = legal (c p) := by
  have h1 : decPred (encB op p e o) = .ok p := decPred_eq (by simp [encB, encHead])
  have h2 : fld (encB op p e o) 18 33 = o := by simp [encB, encHead]
  have h3 : rsv (encB op p e o) 0 18 = .ok () := rsv_eq (by simp [encB, encHead])
  have h4 : (off || o == 0) = true := by rcases h with h | h <;> simp [h]
  simp only [decB, h1, h2, h3, h4, need_true, ok_bind]

theorem op_encF (op : BitVec 8) (p : Pred) (a b c d : Target) :
    fld (encF op p a b c d) 56 8 = op := by
  simp [encF, encHead, encTarget]

theorem decF_encF (op : BitVec 8) (p : Pred) (t0 t1 t2 t3 : Target) (n : Nat)
    (c : Pred → Target → Target → Target → Target → Instr) (h2 : 3 ≤ n ∨ t2 = .none)
    (h3 : 4 ≤ n ∨ t3 = .none) : decF (encF op p t0 t1 t2 t3) n c = legal (c p t0 t1 t2 t3) := by
  have e1 : decPred (encF op p t0 t1 t2 t3) = .ok p := decPred_eq (by simp [encF, encHead, encTarget])
  have e2 : rsv (encF op p t0 t1 t2 t3) 36 18 = .ok () := rsv_eq (by simp [encF, encHead, encTarget])
  have e3 : decTarget (encF op p t0 t1 t2 t3) 0 = .ok t0 := by
    apply decTarget_eq <;> simp [encF, encHead, encTarget]
  have e4 : decTarget (encF op p t0 t1 t2 t3) 9 = .ok t1 := by
    apply decTarget_eq <;> simp [encF, encHead, encTarget]
  have e5 : decTarget (encF op p t0 t1 t2 t3) 18 = .ok t2 := by
    apply decTarget_eq <;> simp [encF, encHead, encTarget]
  have e6 : decTarget (encF op p t0 t1 t2 t3) 27 = .ok t3 := by
    apply decTarget_eq <;> simp [encF, encHead, encTarget]
  have e7 : (decide (n ≥ 3) || t2 == .none) = true := by rcases h2 with h | h <;> simp [h]
  have e8 : (decide (n ≥ 4) || t3 == .none) = true := by rcases h3 with h | h <;> simp [h]
  simp only [decF, e1, e2, e3, e4, e5, e6, e7, e8, need_true, ok_bind]

/-! ### E and X -/

theorem op_encE (op : BitVec 8) (p : Pred) (fn : BitVec 4) (sreg : BitVec 6) (acc : BitVec 3)
    (n : BitVec 2) (kq : BitVec 7) : fld (encE op p fn sreg acc n kq) 56 8 = op := by
  simp [encE, encHead]

theorem fields_encE (op : BitVec 8) (p : Pred) (fn : BitVec 4) (sreg : BitVec 6) (acc : BitVec 3)
    (n : BitVec 2) (kq : BitVec 7) :
    fld (encE op p fn sreg acc n kq) 50 4 = fn ∧ fld (encE op p fn sreg acc n kq) 44 6 = sreg
      ∧ fld (encE op p fn sreg acc n kq) 41 3 = acc ∧ fld (encE op p fn sreg acc n kq) 39 2 = n
      ∧ fld (encE op p fn sreg acc n kq) 32 7 = kq := by
  simp [encE, encHead]

theorem decE_encE (op : BitVec 8) (p : Pred) (fn : BitVec 4) (sreg : BitVec 6) (acc : BitVec 3)
    (n : BitVec 2) (kq : BitVec 7) (ufn usreg uacc un ukq : Bool) (c : Pred → Instr)
    (h1 : ufn = true ∨ fn = 0) (h2 : usreg = true ∨ sreg = 0) (h3 : uacc = true ∨ acc = 0)
    (h4 : un = true ∨ n = 0) (h5 : ukq = true ∨ kq = 0) :
    decE (encE op p fn sreg acc n kq) ufn usreg uacc un ukq c = legal (c p) := by
  obtain ⟨f1, f2, f3, f4, f5⟩ := fields_encE op p fn sreg acc n kq
  have e1 : decPred (encE op p fn sreg acc n kq) = .ok p := decPred_eq (by simp [encE, encHead])
  have e2 : rsv (encE op p fn sreg acc n kq) 0 32 = .ok () := rsv_eq (by simp [encE, encHead])
  have g1 : (ufn || fn == 0) = true := by rcases h1 with h | h <;> simp [h]
  have g2 : (usreg || sreg == 0) = true := by rcases h2 with h | h <;> simp [h]
  have g3 : (uacc || acc == 0) = true := by rcases h3 with h | h <;> simp [h]
  have g4 : (un || n == 0) = true := by rcases h4 with h | h <;> simp [h]
  have g5 : (ukq || kq == 0) = true := by rcases h5 with h | h <;> simp [h]
  simp only [decE, e1, e2, f1, f2, f3, f4, f5, g1, g2, g3, g4, g5, need_true, ok_bind]

theorem op_encX (op : BitVec 8) (p : Pred) (fn : BitVec 4) (reg : BitVec 6) (s : Scope) (m : Word)
    (a b : Target) (hm : Within m 18 23) : fld (encX op p fn reg s m a b) 56 8 = op := by
  simp [encX, encHead, encTarget, hm 56 8]

theorem reg_encX (op : BitVec 8) (p : Pred) (fn : BitVec 4) (reg : BitVec 6) (s : Scope) (m : Word)
    (a b : Target) (hm : Within m 18 23) : fld (encX op p fn reg s m a b) 44 6 = reg := by
  simp [encX, encHead, encTarget, hm 44 6]

theorem fn_encX (op : BitVec 8) (p : Pred) (fn : BitVec 4) (reg : BitVec 6) (s : Scope) (m : Word)
    (a b : Target) (hm : Within m 18 23) : fld (encX op p fn reg s m a b) 50 4 = fn := by
  simp [encX, encHead, encTarget, hm 50 4]

theorem imm_encX (op : BitVec 8) (p : Pred) (fn : BitVec 4) (reg : BitVec 6) (s : Scope) (m : Word)
    (a b : Target) (lo n : Nat) (h1 : 18 ≤ lo) (h2 : lo + n ≤ 41) :
    fld (encX op p fn reg s m a b) lo n = fld m lo n := by
  simp only [encX, encHead, encTarget, fld_or]
  rw [fld_put_apart 8 56 _ _ _ (by omega), fld_put_apart 2 54 _ _ _ (by omega),
    fld_put_apart 4 50 _ _ _ (by omega), fld_put_apart 6 44 _ _ _ (by omega),
    fld_put_apart 3 41 _ _ _ (by omega), fld_put_apart _ (9 + 7) _ _ _ (by omega),
    fld_put_apart _ 9 _ _ _ (by omega), fld_put_apart _ (0 + 7) _ _ _ (by omega),
    fld_put_apart _ 0 _ _ _ (by omega)]
  simp

theorem decX_encX (op : BitVec 8) (p : Pred) (fn : BitVec 4) (reg : BitVec 6) (s : Scope) (m : Word)
    (a b : Target) (ureg uscope : Bool) (n : Nat) (t : Bool)
    (c : Pred → Scope → Target → Target → Instr) (hm : Within m 18 n) (hn : n ≤ 23)
    (h1 : ureg = true ∨ reg = 0) (h2 : uscope = true ∨ s = .fibre)
    (h3 : t = true ∨ a = .none ∧ b = .none) :
    decX (encX op p fn reg s m a b) fn ureg uscope n t c = legal (c p s a b) := by
  have hm' : Within m 18 23 := fun l k h => hm l k (by omega)
  have e1 : decPred (encX op p fn reg s m a b) = .ok p :=
    decPred_eq (by simp [encX, encHead, encTarget, hm' 54 2])
  have e2 : decScope (encX op p fn reg s m a b) 41 = .ok s :=
    decScope_eq (by simp [encX, encHead, encTarget, hm' 41 3])
  have e3 : decTarget (encX op p fn reg s m a b) 0 = .ok a := by
    apply decTarget_eq <;> simp [encX, encHead, encTarget, hm' 7 2, hm' 0 7]
  have e4 : decTarget (encX op p fn reg s m a b) 9 = .ok b := by
    apply decTarget_eq <;> simp [encX, encHead, encTarget, hm' 16 2, hm' 9 7]
  have e5 : rsv (encX op p fn reg s m a b) (18 + n) (23 - n) = .ok () :=
    rsv_eq ((imm_encX op p fn reg s m a b _ _ (by omega) (by omega)).trans (hm _ _ (by omega)))
  have g1 : (ureg || reg == 0) = true := by rcases h1 with h | h <;> simp [h]
  have g2 : (uscope || s == .fibre) = true := by rcases h2 with h | h <;> simp [h]
  have g3 : (t || (a == .none && b == .none)) = true := by
    rcases h3 with h | ⟨h, h'⟩
    · simp [h]
    · simp [h, h']
  simp only [decX, e1, e2, e3, e4, e5, fn_encX _ _ _ _ _ _ _ _ hm', reg_encX _ _ _ _ _ _ _ _ hm', g1, g2, g3,
    need_true, ok_bind]
  simp [need]

end Sys2Proof
end

