-- ==== Sys2Proof/Laws/Integer.lean ====
section
/-! SUPPORT. What the integer instructions compute, in the words of the spec. -/

namespace Sys2Proof.Machine

/-- A meaning over `binary` gives its function. -/
theorem gives2_of {i : Instr} {f g : Word → Word → Word} (he : ∀ s, exec i s = binary i f s)
    (hs : (slotsOf i).l ≠ .none ∧ (slotsOf i).r ≠ .none ∧ (slotsOf i).x = .none) (hfg : ∀ x y, f x y = g x y) : Gives2 i g := by
  intro s a x y h hl hr
  rw [he, binary_next h hs hl hr, hfg]
  simp [Frame.finish, Acting.sends, Result.ok]

/-- A meaning over `unary` gives its function. -/
theorem gives1_of {i : Instr} {f g : Word → Word} (he : ∀ s, exec i s = unary i f s)
    (hs : (slotsOf i).l ≠ .none ∧ (slotsOf i).r = .none ∧ (slotsOf i).x = .none) (hfg : ∀ x, f x = g x) : Gives1 i g := by
  intro s a x h hl
  rw [he, unary_next h hs hl, hfg]
  simp [Frame.finish, Acting.sends, Result.ok]

/-! ### The functions of R69, R70 and R71 in the words of the spec -/

/-- The shift amount is bits [5:0] (R69). -/
theorem shamt_eq (y : Word) : shamt y = y.toNat % 64 := by
  simp [shamt, BitVec.extractLsb'_toNat]

/-- The high half of the signed product (R69). -/
theorem mulHigh_eq (x y : Word) : mulHigh x y = (x.signExtend 128 * y.signExtend 128).extractLsb' 64 64 := by
  apply BitVec.eq_of_toNat_eq
  have key : (x.signExtend 128 * y.signExtend 128) = BitVec.ofInt 128 (x.toInt * y.toInt) := by
    apply BitVec.eq_of_toInt_eq
    rw [BitVec.toInt_mul, BitVec.toInt_ofInt, BitVec.toInt_signExtend_of_le (by omega), BitVec.toInt_signExtend_of_le (by omega)]
  rw [key, mulHigh]
  simp [BitVec.extractLsb'_toNat, BitVec.toNat_ofInt]
  rw [Nat.shiftRight_eq_div_pow]
  omega

/-- The high half of the unsigned product (R69). -/
theorem mulHighU_eq (x y : Word) : mulHighU x y = (x.setWidth 128 * y.setWidth 128).extractLsb' 64 64 := by
  apply BitVec.eq_of_toNat_eq
  have h1 := x.isLt
  have h2 := y.isLt
  have : x.toNat * y.toNat < 2 ^ 128 := by
    calc x.toNat * y.toNat < 2 ^ 64 * 2 ^ 64 := Nat.mul_lt_mul'' h1 h2
      _ = 2 ^ 128 := by norm_num
  simp [mulHighU, BitVec.extractLsb'_toNat, Nat.shiftRight_eq_div_pow]
  have h3 : x.toNat * y.toNat % 340282366920938463463374607431768211456 = x.toNat * y.toNat := Nat.mod_eq_of_lt (by simpa using this)
  rw [h3]

/-- A left rotation (R69). -/
theorem rotlBy_eq (x y : Word) : rotlBy x y = x.rotateLeft (y.toNat % 64) := by
  rw [rotlBy, shamt_eq, BitVec.rotateLeft_def]
  simp

/-- The remainder of signed division (R70). -/
theorem divRem_snd (x y : Word) : (divRem x y).2 = if y = 0 then x
    else if x = 0x8000000000000000 ∧ y = 0xFFFFFFFFFFFFFFFF then 0
    else x - BitVec.ofInt 64 (x.toInt.tdiv y.toInt) * y := by
  unfold divRem
  have h1 : BitVec.intMin 64 = 0x8000000000000000 := by decide
  have h2 : BitVec.allOnes 64 = 0xFFFFFFFFFFFFFFFF := by decide
  rw [h1, h2]
  split
  · rfl
  · split
    · rfl
    · apply BitVec.eq_of_toInt_eq
      rw [BitVec.toInt_ofInt, BitVec.toInt_sub, BitVec.toInt_mul, BitVec.toInt_ofInt, Int.tmod_def]
      have : (x.toInt - y.toInt * x.toInt.tdiv y.toInt) = x.toInt - (x.toInt.tdiv y.toInt) * y.toInt := by ring
      rw [this]
      simp [Int.sub_emod, Int.mul_emod]

/-- The remainder of unsigned division (R70). -/
theorem divRemU_snd (x y : Word) : (divRemU x y).2 = if y = 0 then x
    else x - BitVec.ofNat 64 (x.toNat / y.toNat) * y := by
  unfold divRemU
  split
  · rfl
  · apply BitVec.eq_of_toNat_eq
    have hx := x.isLt
    have hd := Nat.div_mul_le_self x.toNat y.toNat
    have hq : x.toNat / y.toNat < 2 ^ 64 := Nat.lt_of_le_of_lt (Nat.div_le_self _ _) hx
    have hm := Nat.mod_lt_of_lt (a := x.toNat) (b := y.toNat) hx
    have e : BitVec.ofNat 64 (x.toNat / y.toNat) * y ≤ x := by
      rw [BitVec.le_def, BitVec.toNat_mul, BitVec.toNat_ofNat, Nat.mod_eq_of_lt hq,
        Nat.mod_eq_of_lt (Nat.lt_of_le_of_lt hd hx)]
      exact hd
    rw [BitVec.toNat_sub_of_le e, BitVec.toNat_mul, BitVec.toNat_ofNat, BitVec.toNat_ofNat, Nat.mod_eq_of_lt hq,
      Nat.mod_eq_of_lt (Nat.lt_of_le_of_lt hd hx), Nat.mod_eq_of_lt hm]
    have := Nat.div_add_mod x.toNat y.toNat
    have h2 : y.toNat * (x.toNat / y.toNat) = x.toNat / y.toNat * y.toNat := Nat.mul_comm _ _
    omega


/-- The zero bits above the highest set bit, counted bit by bit (R71). -/
theorem leadingZeros_eq (x : Word) : leadingZeros x
    = BitVec.ofNat 64 (((List.range 64).find? (fun i => x.getLsbD (63 - i))).getD 64) := by
  unfold leadingZeros
  congr 1
  by_cases h : x = 0
  · subst h; decide
  · rw [if_neg h]
    have hn : x.toNat ≠ 0 := fun e => h (BitVec.eq_of_toNat_eq (by simpa using e))
    have hl : Nat.log2 x.toNat < 64 := (Nat.log2_lt hn).mpr x.isLt
    have : (List.range 64).find? (fun i => x.getLsbD (63 - i)) = some (63 - Nat.log2 x.toNat) := by
      rw [List.find?_range_eq_some]
      refine ⟨?_, ?_, ?_⟩
      · have e : 63 - (63 - Nat.log2 x.toNat) = Nat.log2 x.toNat := by omega
        simp [e, BitVec.getLsbD, Nat.testBit_log2 hn]
      · simp
        omega
      · intro j hj
        have : x.toNat < 2 ^ (63 - j) := by
          apply (Nat.log2_lt hn).mp
          omega
        simp [BitVec.getLsbD, Nat.testBit_lt_two_pow this]
    rw [this]; rfl

/-- The set bits among the low n (R71, R93). -/
theorem popCount_eq {w : Nat} (x : BitVec w) (n : Nat) : popCount n x.toNat
    = ((List.range n).filter (fun i => x.getLsbD i)).length := rfl

/-- A field inserted under a mask (R73). -/
theorem bitInsert_eq (x y : Word) (pos len1 : BitVec 6) : bitInsert x y pos len1
    = (x &&& ~~~((BitVec.allOnes (len1.toNat + 1)).setWidth 64 <<< pos.toNat))
          ||| ((y <<< pos.toNat) &&& ((BitVec.allOnes (len1.toNat + 1)).setWidth 64 <<< pos.toNat)) := by
  have : BitVec.ofNat 64 (2 ^ (len1.toNat + 1) - 1) = (BitVec.allOnes (len1.toNat + 1)).setWidth 64 := by
    apply BitVec.eq_of_toNat_eq
    simp
  simp [bitInsert, this]

/-- Zero extension is a mask (R71). -/
theorem zeroExt_mask (x : Word) :
    zeroExt x 8 = x &&& 0xFF ∧ zeroExt x 16 = x &&& 0xFFFF ∧ zeroExt x 32 = x &&& 0xFFFFFFFF := by
  have key : ∀ n, zeroExt x n = x &&& BitVec.ofNat 64 (2 ^ n - 1) := by
    intro n
    apply BitVec.eq_of_getLsbD_eq
    intro i hi
    rw [BitVec.getLsbD_and, BitVec.getLsbD_ofNat, Nat.testBit_two_pow_sub_one]
    simp only [zeroExt, fld, BitVec.getLsbD_setWidth, BitVec.getLsbD_extractLsb', hi]
    simp [Bool.and_comm]
  exact ⟨key 8, key 16, key 32⟩

end Sys2Proof.Machine
end

