-- ==== Sys2Proof/Laws/Lanes.lean ====
section
/-! SUPPORT. The lanes of a packed vector (R83). -/

namespace Sys2Proof.Machine
theorem nfld_eq {w : Nat} (x : BitVec w) (i n : Nat) : nfld x i n = x.toNat / 2 ^ i % 2 ^ n := by
  simp [nfld, BitVec.extractLsb'_toNat, Nat.shiftRight_eq_div_pow]

/-- The number that lanes make, lane 0 lowest. -/
def packNat (n : Nat) (ls : List Nat) : Nat := ls.foldr (fun a acc => a % 2 ^ n + 2 ^ n * acc) 0

theorem packNat_lt (n : Nat) (ls : List Nat) : packNat n ls < 2 ^ (n * ls.length) := by
  induction ls with
  | nil => simp [packNat]
  | cons a l ih =>
    have h1 : a % 2 ^ n < 2 ^ n := Nat.mod_lt _ (Nat.two_pow_pos n)
    simp only [packNat, List.foldr_cons, List.length_cons, Nat.mul_add, Nat.mul_one, Nat.pow_add] at ih ⊢
    calc _ < 2 ^ n + 2 ^ n * (List.foldr (fun a acc => a % 2 ^ n + 2 ^ n * acc) 0 l) := by omega
      _ = 2 ^ n * (List.foldr (fun a acc => a % 2 ^ n + 2 ^ n * acc) 0 l + 1) := by ring
      _ ≤ 2 ^ n * 2 ^ (n * l.length) := Nat.mul_le_mul_left _ ih
      _ = _ := by ring

theorem packNat_div (n : Nat) (ls : List Nat) (i : Nat) :
    packNat n ls / 2 ^ (n * i) % 2 ^ n = (ls.getD i 0) % 2 ^ n := by
  induction ls generalizing i with
  | nil => simp [packNat]
  | cons a l ih =>
    have hp := Nat.two_pow_pos n
    cases i with
    | zero => simp [packNat, Nat.add_mul_mod_self_left]
    | succ j =>
      have : packNat n (a :: l) / 2 ^ (n * (j + 1)) = packNat n l / 2 ^ (n * j) := by
        rw [Nat.mul_add, Nat.mul_one, Nat.add_comm, Nat.pow_add, ← Nat.div_div_eq_div_mul]
        congr 1
        simp only [packNat, List.foldr_cons]
        rw [Nat.add_mul_div_left _ _ hp, Nat.div_eq_of_lt (Nat.mod_lt _ hp), Nat.zero_add]
      rw [this, ih]
      simp

/-- A lane of a packed vector (R83). -/
theorem lane_packLanes {n : Nat} {ls : List Nat} (h : n * ls.length ≤ 512) (i : Nat) :
    lane (packLanes n ls) n i = (ls.getD i 0) % 2 ^ n := by
  have h1 : packNat n ls < 2 ^ 512 := Nat.lt_of_lt_of_le (packNat_lt n ls) (Nat.pow_le_pow_right (by omega) h)
  have h2 : (packLanes n ls).toNat = packNat n ls := by
    simp only [packLanes, BitVec.toNat_ofNat]; exact Nat.mod_eq_of_lt h1
  rw [lane, nfld_eq, h2, packNat_div]

theorem lane_lt (v : Vec) (n i : Nat) : lane v n i < 2 ^ n := by
  rw [lane, nfld_eq]; exact Nat.mod_lt _ (Nat.two_pow_pos n)

@[simp] theorem lanes_length (v : Vec) (n : Nat) : (lanes v n).length = 512 / n := by simp [lanes]

theorem lanes_getD (v : Vec) (n i : Nat) : (lanes v n).getD i 0 = if i < 512 / n then lane v n i else 0 := by
  simp only [lanes, List.getD_eq_getElem?_getD, List.getElem?_map]
  by_cases h : i < 512 / n
  · simp [h]
  · simp [h]
/-- Lanes fill the vector (R83). -/
theorem lane_count (w : Lane) : 512 / w.bits = w.count := by cases w <;> rfl
theorem lane_total (w : Lane) : w.bits * w.count = 512 := by cases w <;> rfl

end Sys2Proof.Machine
end

