-- ==== Sys2Proof/Laws/PerInstr.lean ====
section
/-! SUPPORT. The laws stated once per instruction. RoundTrip: the decoder reads a well-formed instruction
back from the word that the encoder makes for it; a machine event has no word. -/

namespace Sys2Proof.Laws.RoundTrip

/-- What RoundTrip says of one instruction. -/
def Statement (i : Instr) : Prop := i.wellFormed = true → ∀ w, encode i = some w → decode w = .ok i

theorem decode_at {w : Word} {op : BitVec 8} (h : fld w 56 8 = op) :
    decode w = decodeOp op.toNat w := by
  unfold decode nfld; rw [h]

theorem legal_of {i j : Instr} (h : i = j) (hw : j.wellFormed = true) : legal i = .ok j := by
  rw [h]; exact legal_eq hw

theorem ofBool_eq {x : BitVec 1} {b : Bool} (h : x = BitVec.ofBool b) :
    (.ok (x == 1) : Dec Bool) = .ok b := by
  rw [h]; cases b <;> rfl

theorem decodeOp_bits {w : Word} {fn : BitVec 6} (h : fld w 48 6 = fn) :
    decodeOp 0x31 w = (match fn.toNat with
      | 0 => decG w 0 0 .clz
      | 1 => decG w 1 0 .ctz
      | 2 => decG w 2 0 .popc
      | 3 => decGMod w 3 2 (decExt w) .sext
      | 4 => decGMod w 4 2 (decExt w) .zext
      | _ => .error .value) := by
  rw [← h]; rfl

theorem decodeOp_imm {w : Word} {fn : BitVec 6} (h : fld w 48 6 = fn) :
    decodeOp 0x3B w = (match fn.toNat with
      | 0 => decI w 0 24 (fun p t => .addi p (fld w 18 24) t)
      | 1 => decI w 1 24 (fun p t => .muli p (fld w 18 24) t)
      | 2 => decI w 2 24 (fun p t => .andi p (fld w 18 24) t)
      | 3 => decI w 3 24 (fun p t => .ori p (fld w 18 24) t)
      | 4 => decI w 4 24 (fun p t => .xori p (fld w 18 24) t)
      | 5 => decI w 5 6 (fun p t => .shli p (fld w 18 6) t)
      | 6 => decI w 6 6 (fun p t => .shri p (fld w 18 6) t)
      | 7 => decI w 7 6 (fun p t => .sari p (fld w 18 6) t)
      | _ => .error .value) := by
  rw [← h]; rfl

theorem decodeOp_test {w : Word} {fn : BitVec 6} (h : fld w 48 6 = fn) :
    decodeOp 0x48 w = (match fn.toNat with
      | 0 => decI w 0 24 (fun p t => .teqi p (fld w 18 24) t)
      | 1 => decI w 1 24 (fun p t => .tnei p (fld w 18 24) t)
      | 2 => decI w 2 24 (fun p t => .tlti p (fld w 18 24) t)
      | 3 => decI w 3 24 (fun p t => .tlei p (fld w 18 24) t)
      | 4 => decI w 4 24 (fun p t => .tltui p (fld w 18 24) t)
      | 5 => decI w 5 24 (fun p t => .tleui p (fld w 18 24) t)
      | _ => .error .value) := by
  rw [← h]; rfl

theorem decodeOp_vld {w : Word} {fn : BitVec 4} (h : fld w 40 4 = fn) :
    decodeOp 0x87 w = (match fn.toNat with
      | 0 => decL w 0 (fun p m a b => .vld p false m a b)
      | 1 => decL w 1 (fun p m a b => .vld p true m a b)
      | _ => .error .value) := by
  rw [← h]; rfl

theorem decodeOp_tlbinv {w : Word} {fn : BitVec 4} (h : fld w 50 4 = fn) :
    decodeOp 0xE3 w = (match fn.toNat with
      | 0 => decX w 0 false true 0 false (fun p s _ _ => .tlbinv p s false)
      | 1 => decX w 1 false true 0 false (fun p s _ _ => .tlbinv p s true)
      | _ => .error .value) := by
  rw [← h]; rfl

theorem decAmo_at {w : Word} {fn : BitVec 4} {sz : WD} (h : fld w 40 4 = fn) :
    decAmo w sz = (match fn.toNat with
      | 0 => decL w 0 (fun p m a b => .amoAdd p sz m a b)
      | 1 => decL w 1 (fun p m a b => .amoAnd p sz m a b)
      | 2 => decL w 2 (fun p m a b => .amoOr p sz m a b)
      | 3 => decL w 3 (fun p m a b => .amoXor p sz m a b)
      | 4 => decL w 4 (fun p m a b => .amoMin p sz m a b)
      | 5 => decL w 5 (fun p m a b => .amoMax p sz m a b)
      | 6 => decL w 6 (fun p m a b => .amoMinu p sz m a b)
      | 7 => decL w 7 (fun p m a b => .amoMaxu p sz m a b)
      | 8 => decL w 8 (fun p m a b => .amoSwap p sz m a b)
      | 9 => decL w 9 (fun p m a b => .amoCas p sz m a b)
      | 10 => if sz = .w then decL w 10 (fun p m a b => .amoFadd p m a b) else .error .value
      | _ => .error .value) := by
  rw [← h]; rfl

theorem nop : Statement (.nop) := by
  rintro _ _ ⟨⟩
  decide

theorem read (p : Pred) (g : BitVec 6) (a : Target) (b : Target) : Statement (.read p g a b) := by
  rintro hw _ ⟨⟩
  exact (decode_at (op := 0x01) (by simp [encHead, encTarget])).trans ((decR_enc _ _ 6 _ _ _ (by omega) _).trans
    (legal_of (by simp [encHead, encTarget]) hw))

theorem vread (p : Pred) (g : BitVec 5) (a : Target) (b : Target) : Statement (.vread p g a b) := by
  rintro hw _ ⟨⟩
  exact (decode_at (op := 0x02) (by simp [encHead, encTarget])).trans ((decR_enc _ _ 5 _ _ _ (by omega) _).trans
    (legal_of (by simp [encHead, encTarget]) hw))

theorem write (p : Pred) (g : BitVec 6) : Statement (.write p g) := by
  rintro hw _ ⟨⟩
  exact (decode_at (op := 0x03) (by simp [encHead])).trans ((decW_enc _ _ 6 _ (by omega) _).trans
    (legal_of (by simp [encHead]) hw))

theorem vwrite (p : Pred) (g : BitVec 5) : Statement (.vwrite p g) := by
  rintro hw _ ⟨⟩
  exact (decode_at (op := 0x04) (by simp [encHead])).trans ((decW_enc _ _ 5 _ (by omega) _).trans
    (legal_of (by simp [encHead]) hw))

theorem mov (p : Pred) (a : Target) (b : Target) : Statement (.mov p a b) := by
  rintro hw _ ⟨⟩
  exact (decode_at (op_encF ..)).trans ((decF_encF _ _ _ _ _ _ _ _ (.inr rfl) (.inr rfl)).trans (legal_eq hw))

theorem mov3 (p : Pred) (a : Target) (b : Target) (c : Target) : Statement (.mov3 p a b c) := by
  rintro hw _ ⟨⟩
  exact (decode_at (op_encF ..)).trans ((decF_encF _ _ _ _ _ _ _ _ (.inl (by omega)) (.inr rfl)).trans (legal_eq hw))

theorem mov4 (p : Pred) (a : Target) (b : Target) (c : Target) (d : Target) : Statement (.mov4 p a b c d) := by
  rintro hw _ ⟨⟩
  exact (decode_at (op_encF ..)).trans ((decF_encF _ _ _ _ _ _ _ _ (.inl (by omega)) (.inl (by omega))).trans (legal_eq hw))

theorem genc (p : Pred) (i : BitVec 36) (a : Target) (b : Target) : Statement (.genc p i a b) := by
  rintro hw _ ⟨⟩
  exact (decode_at (op := 0x08) (by simp [encHead, encTarget])).trans ((decC_enc ..).trans (legal_eq hw))

theorem genh (p : Pred) (i : BitVec 36) (a : Target) (b : Target) : Statement (.genh p i a b) := by
  rintro hw _ ⟨⟩
  exact (decode_at (op := 0x09) (by simp [encHead, encTarget])).trans ((decC_enc ..).trans (legal_eq hw))

theorem null (p : Pred) (a : Target) (b : Target) (c : Target) (d : Target) : Statement (.null p a b c d) := by
  rintro hw _ ⟨⟩
  exact (decode_at (op_encF ..)).trans ((decF_encF _ _ _ _ _ _ _ _ (.inl (by omega)) (.inl (by omega))).trans (legal_eq hw))

theorem xop : Statement (.xop) := by
  rintro _ _ ⟨⟩
  decide

theorem br (p : Pred) (e : BitVec 3) (o : BitVec 33) : Statement (.br p e o) := by
  rintro hw _ ⟨⟩
  exact (decode_at (op_encB ..)).trans ((decB_encB _ _ _ _ _ _ (.inl rfl)).trans
    (legal_of (by simp [encB, encHead]) hw))

theorem bri (p : Pred) (e : BitVec 3) : Statement (.bri p e) := by
  rintro hw _ ⟨⟩
  exact (decode_at (op_encB ..)).trans ((decB_encB _ _ _ _ _ _ (.inr rfl)).trans
    (legal_of (by simp [encB, encHead]) hw))

theorem call (p : Pred) (e : BitVec 3) (o : BitVec 33) : Statement (.call p e o) := by
  rintro hw _ ⟨⟩
  exact (decode_at (op_encB ..)).trans ((decB_encB _ _ _ _ _ _ (.inl rfl)).trans
    (legal_of (by simp [encB, encHead]) hw))

theorem calli (p : Pred) (e : BitVec 3) : Statement (.calli p e) := by
  rintro hw _ ⟨⟩
  exact (decode_at (op_encB ..)).trans ((decB_encB _ _ _ _ _ _ (.inr rfl)).trans
    (legal_of (by simp [encB, encHead]) hw))

theorem ret (p : Pred) (e : BitVec 3) : Statement (.ret p e) := by
  rintro hw _ ⟨⟩
  exact (decode_at (op_encB ..)).trans ((decB_encB _ _ _ _ _ _ (.inr rfl)).trans
    (legal_of (by simp [encB, encHead]) hw))

theorem halt (p : Pred) (e : BitVec 3) : Statement (.halt p e) := by
  rintro hw _ ⟨⟩
  exact (decode_at (op_encB ..)).trans ((decB_encB _ _ _ _ _ _ (.inr rfl)).trans
    (legal_of (by simp [encB, encHead]) hw))

theorem scall (p : Pred) (c : BitVec 24) : Statement (.scall p c) := by
  rintro hw _ ⟨⟩
  refine (decode_at (op_encI _ _ _ _ _ (.put _ (by omega) (by omega)))).trans ?_
  show (noTarget _ 0 >>= _) = _
  rw [noTarget_encI _ _ _ _ (.put _ (by omega) (by omega)), ok_bind]
  exact (decI_encI _ _ _ _ _ 24 _ (.put _ (by omega) (by omega)) (by omega)).trans
    (legal_of (by rw [imm_encI _ _ _ _ _ 18 24 (by omega) (by omega)]; simp) hw)

theorem trap (p : Pred) (c : BitVec 24) : Statement (.trap p c) := by
  rintro hw _ ⟨⟩
  refine (decode_at (op_encI _ _ _ _ _ (.put _ (by omega) (by omega)))).trans ?_
  show (noTarget _ 0 >>= _) = _
  rw [noTarget_encI _ _ _ _ (.put _ (by omega) (by omega)), ok_bind]
  exact (decI_encI _ _ _ _ _ 24 _ (.put _ (by omega) (by omega)) (by omega)).trans
    (legal_of (by rw [imm_encI _ _ _ _ _ 18 24 (by omega) (by omega)]; simp) hw)

theorem brk (p : Pred) (c : BitVec 24) : Statement (.brk p c) := by
  rintro hw _ ⟨⟩
  refine (decode_at (op_encI _ _ _ _ _ (.put _ (by omega) (by omega)))).trans ?_
  show (noTarget _ 0 >>= _) = _
  rw [noTarget_encI _ _ _ _ (.put _ (by omega) (by omega)), ok_bind]
  exact (decI_encI _ _ _ _ _ 24 _ (.put _ (by omega) (by omega)) (by omega)).trans
    (legal_of (by rw [imm_encI _ _ _ _ _ 18 24 (by omega) (by omega)]; simp) hw)

theorem add (p : Pred) (a : Target) (b : Target) : Statement (.add p a b) := by
  rintro hw _ ⟨⟩
  exact (decode_at (op_encG _ _ _ _ _ _ (.zero _ _))).trans ((decG_encG ..).trans (legal_eq hw))

theorem sub (p : Pred) (a : Target) (b : Target) : Statement (.sub p a b) := by
  rintro hw _ ⟨⟩
  exact (decode_at (op_encG _ _ _ _ _ _ (.zero _ _))).trans ((decG_encG ..).trans (legal_eq hw))

theorem mul (p : Pred) (a : Target) (b : Target) : Statement (.mul p a b) := by
  rintro hw _ ⟨⟩
  exact (decode_at (op_encG _ _ _ _ _ _ (.zero _ _))).trans ((decG_encG ..).trans (legal_eq hw))

theorem mulh (p : Pred) (a : Target) (b : Target) : Statement (.mulh p a b) := by
  rintro hw _ ⟨⟩
  exact (decode_at (op_encG _ _ _ _ _ _ (.zero _ _))).trans ((decG_encG ..).trans (legal_eq hw))

theorem mulhu (p : Pred) (a : Target) (b : Target) : Statement (.mulhu p a b) := by
  rintro hw _ ⟨⟩
  exact (decode_at (op_encG _ _ _ _ _ _ (.zero _ _))).trans ((decG_encG ..).trans (legal_eq hw))

theorem div (p : Pred) (a : Target) (b : Target) : Statement (.div p a b) := by
  rintro hw _ ⟨⟩
  exact (decode_at (op_encG _ _ _ _ _ _ (.zero _ _))).trans ((decG_encG ..).trans (legal_eq hw))

theorem divu (p : Pred) (a : Target) (b : Target) : Statement (.divu p a b) := by
  rintro hw _ ⟨⟩
  exact (decode_at (op_encG _ _ _ _ _ _ (.zero _ _))).trans ((decG_encG ..).trans (legal_eq hw))

theorem rem (p : Pred) (a : Target) (b : Target) : Statement (.rem p a b) := by
  rintro hw _ ⟨⟩
  exact (decode_at (op_encG _ _ _ _ _ _ (.zero _ _))).trans ((decG_encG ..).trans (legal_eq hw))

theorem remu (p : Pred) (a : Target) (b : Target) : Statement (.remu p a b) := by
  rintro hw _ ⟨⟩
  exact (decode_at (op_encG _ _ _ _ _ _ (.zero _ _))).trans ((decG_encG ..).trans (legal_eq hw))

theorem and (p : Pred) (a : Target) (b : Target) : Statement (.and p a b) := by
  rintro hw _ ⟨⟩
  exact (decode_at (op_encG _ _ _ _ _ _ (.zero _ _))).trans ((decG_encG ..).trans (legal_eq hw))

theorem or (p : Pred) (a : Target) (b : Target) : Statement (.or p a b) := by
  rintro hw _ ⟨⟩
  exact (decode_at (op_encG _ _ _ _ _ _ (.zero _ _))).trans ((decG_encG ..).trans (legal_eq hw))

theorem xor (p : Pred) (a : Target) (b : Target) : Statement (.xor p a b) := by
  rintro hw _ ⟨⟩
  exact (decode_at (op_encG _ _ _ _ _ _ (.zero _ _))).trans ((decG_encG ..).trans (legal_eq hw))

theorem andn (p : Pred) (a : Target) (b : Target) : Statement (.andn p a b) := by
  rintro hw _ ⟨⟩
  exact (decode_at (op_encG _ _ _ _ _ _ (.zero _ _))).trans ((decG_encG ..).trans (legal_eq hw))

theorem shl (p : Pred) (a : Target) (b : Target) : Statement (.shl p a b) := by
  rintro hw _ ⟨⟩
  exact (decode_at (op_encG _ _ _ _ _ _ (.zero _ _))).trans ((decG_encG ..).trans (legal_eq hw))

theorem shr (p : Pred) (a : Target) (b : Target) : Statement (.shr p a b) := by
  rintro hw _ ⟨⟩
  exact (decode_at (op_encG _ _ _ _ _ _ (.zero _ _))).trans ((decG_encG ..).trans (legal_eq hw))

theorem sar (p : Pred) (a : Target) (b : Target) : Statement (.sar p a b) := by
  rintro hw _ ⟨⟩
  exact (decode_at (op_encG _ _ _ _ _ _ (.zero _ _))).trans ((decG_encG ..).trans (legal_eq hw))

theorem rotl (p : Pred) (a : Target) (b : Target) : Statement (.rotl p a b) := by
  rintro hw _ ⟨⟩
  exact (decode_at (op_encG _ _ _ _ _ _ (.zero _ _))).trans ((decG_encG ..).trans (legal_eq hw))

theorem clz (p : Pred) (a : Target) (b : Target) : Statement (.clz p a b) := by
  rintro hw _ ⟨⟩
  exact (decode_at (op_encG _ _ _ _ _ _ (.zero _ _))).trans ((decodeOp_bits (fn_encG _ _ _ _ _ _ (.zero _ _))).trans
    ((decG_encG ..).trans (legal_eq hw)))

theorem ctz (p : Pred) (a : Target) (b : Target) : Statement (.ctz p a b) := by
  rintro hw _ ⟨⟩
  exact (decode_at (op_encG _ _ _ _ _ _ (.zero _ _))).trans ((decodeOp_bits (fn_encG _ _ _ _ _ _ (.zero _ _))).trans
    ((decG_encG ..).trans (legal_eq hw)))

theorem popc (p : Pred) (a : Target) (b : Target) : Statement (.popc p a b) := by
  rintro hw _ ⟨⟩
  exact (decode_at (op_encG _ _ _ _ _ _ (.zero _ _))).trans ((decodeOp_bits (fn_encG _ _ _ _ _ _ (.zero _ _))).trans
    ((decG_encG ..).trans (legal_eq hw)))

theorem sext (p : Pred) (z : ExtW) (a : Target) (b : Target) : Statement (.sext p z a b) := by
  rintro hw _ ⟨⟩
  exact (decode_at (op_encG _ _ _ _ _ _ (.put _ (by omega) (by omega)))).trans ((decodeOp_bits (fn_encG _ _ _ _ _ _ (.put _ (by omega) (by omega)))).trans
    ((decGMod_encG _ _ _ _ _ _ 2 _ _ _ (.put _ (by omega) (by omega)) (by omega) (decExt_eq ((mod_encG _ _ _ _ _ _ _ _ (by omega) (by omega)).trans (by simp)))).trans (legal_eq hw)))

theorem zext (p : Pred) (z : ExtW) (a : Target) (b : Target) : Statement (.zext p z a b) := by
  rintro hw _ ⟨⟩
  exact (decode_at (op_encG _ _ _ _ _ _ (.put _ (by omega) (by omega)))).trans ((decodeOp_bits (fn_encG _ _ _ _ _ _ (.put _ (by omega) (by omega)))).trans
    ((decGMod_encG _ _ _ _ _ _ 2 _ _ _ (.put _ (by omega) (by omega)) (by omega) (decExt_eq ((mod_encG _ _ _ _ _ _ _ _ (by omega) (by omega)).trans (by simp)))).trans (legal_eq hw)))

theorem min (p : Pred) (a : Target) (b : Target) : Statement (.min p a b) := by
  rintro hw _ ⟨⟩
  exact (decode_at (op_encG _ _ _ _ _ _ (.zero _ _))).trans ((decG_encG ..).trans (legal_eq hw))

theorem max (p : Pred) (a : Target) (b : Target) : Statement (.max p a b) := by
  rintro hw _ ⟨⟩
  exact (decode_at (op_encG _ _ _ _ _ _ (.zero _ _))).trans ((decG_encG ..).trans (legal_eq hw))

theorem minu (p : Pred) (a : Target) (b : Target) : Statement (.minu p a b) := by
  rintro hw _ ⟨⟩
  exact (decode_at (op_encG _ _ _ _ _ _ (.zero _ _))).trans ((decG_encG ..).trans (legal_eq hw))

theorem maxu (p : Pred) (a : Target) (b : Target) : Statement (.maxu p a b) := by
  rintro hw _ ⟨⟩
  exact (decode_at (op_encG _ _ _ _ _ _ (.zero _ _))).trans ((decG_encG ..).trans (legal_eq hw))

theorem bfx (p : Pred) (q : BitVec 6) (k : BitVec 6) (t : Target) : Statement (.bfx p q k t) := by
  rintro hw _ ⟨⟩
  exact (decode_at (op_encI _ _ _ _ _ (.or (.put _ (by omega) (by omega)) (.put _ (by omega) (by omega))))).trans ((decI_encI _ _ _ _ _ 12 _ (.or (.put _ (by omega) (by omega)) (.put _ (by omega) (by omega))) (by omega)).trans
    (legal_of (by rw [imm_encI _ _ _ _ _ 18 6 (by omega) (by omega), imm_encI _ _ _ _ _ 24 6 (by omega) (by omega)]; simp) hw))

theorem bfxu (p : Pred) (q : BitVec 6) (k : BitVec 6) (t : Target) : Statement (.bfxu p q k t) := by
  rintro hw _ ⟨⟩
  exact (decode_at (op_encI _ _ _ _ _ (.or (.put _ (by omega) (by omega)) (.put _ (by omega) (by omega))))).trans ((decI_encI _ _ _ _ _ 12 _ (.or (.put _ (by omega) (by omega)) (.put _ (by omega) (by omega))) (by omega)).trans
    (legal_of (by rw [imm_encI _ _ _ _ _ 18 6 (by omega) (by omega), imm_encI _ _ _ _ _ 24 6 (by omega) (by omega)]; simp) hw))

theorem bfi (p : Pred) (q : BitVec 6) (k : BitVec 6) (t : Target) : Statement (.bfi p q k t) := by
  rintro hw _ ⟨⟩
  exact (decode_at (op_encI _ _ _ _ _ (.or (.put _ (by omega) (by omega)) (.put _ (by omega) (by omega))))).trans ((decI_encI _ _ _ _ _ 12 _ (.or (.put _ (by omega) (by omega)) (.put _ (by omega) (by omega))) (by omega)).trans
    (legal_of (by rw [imm_encI _ _ _ _ _ 18 6 (by omega) (by omega), imm_encI _ _ _ _ _ 24 6 (by omega) (by omega)]; simp) hw))

theorem lea (p : Pred) (h : BitVec 2) (d : BitVec 22) (t : Target) : Statement (.lea p h d t) := by
  rintro hw _ ⟨⟩
  exact (decode_at (op_encI _ _ _ _ _ (.or (.put _ (by omega) (by omega)) (.put _ (by omega) (by omega))))).trans ((decI_encI _ _ _ _ _ 24 _ (.or (.put _ (by omega) (by omega)) (.put _ (by omega) (by omega))) (by omega)).trans
    (legal_of (by rw [imm_encI _ _ _ _ _ 18 2 (by omega) (by omega), imm_encI _ _ _ _ _ 20 22 (by omega) (by omega)]; simp) hw))

theorem sel (p : Pred) (a : Target) (b : Target) : Statement (.sel p a b) := by
  rintro hw _ ⟨⟩
  exact (decode_at (op_encG _ _ _ _ _ _ (.zero _ _))).trans ((decG_encG ..).trans (legal_eq hw))

theorem addi (p : Pred) (i : BitVec 24) (t : Target) : Statement (.addi p i t) := by
  rintro hw _ ⟨⟩
  exact (decode_at (op_encI _ _ _ _ _ (.put _ (by omega) (by omega)))).trans ((decodeOp_imm (fn_encI _ _ _ _ _ (.put _ (by omega) (by omega)))).trans
    ((decI_encI _ _ _ _ _ 24 _ (.put _ (by omega) (by omega)) (by omega)).trans
      (legal_of (by rw [imm_encI _ _ _ _ _ 18 24 (by omega) (by omega)]; simp) hw)))

theorem muli (p : Pred) (i : BitVec 24) (t : Target) : Statement (.muli p i t) := by
  rintro hw _ ⟨⟩
  exact (decode_at (op_encI _ _ _ _ _ (.put _ (by omega) (by omega)))).trans ((decodeOp_imm (fn_encI _ _ _ _ _ (.put _ (by omega) (by omega)))).trans
    ((decI_encI _ _ _ _ _ 24 _ (.put _ (by omega) (by omega)) (by omega)).trans
      (legal_of (by rw [imm_encI _ _ _ _ _ 18 24 (by omega) (by omega)]; simp) hw)))

theorem andi (p : Pred) (i : BitVec 24) (t : Target) : Statement (.andi p i t) := by
  rintro hw _ ⟨⟩
  exact (decode_at (op_encI _ _ _ _ _ (.put _ (by omega) (by omega)))).trans ((decodeOp_imm (fn_encI _ _ _ _ _ (.put _ (by omega) (by omega)))).trans
    ((decI_encI _ _ _ _ _ 24 _ (.put _ (by omega) (by omega)) (by omega)).trans
      (legal_of (by rw [imm_encI _ _ _ _ _ 18 24 (by omega) (by omega)]; simp) hw)))

theorem ori (p : Pred) (i : BitVec 24) (t : Target) : Statement (.ori p i t) := by
  rintro hw _ ⟨⟩
  exact (decode_at (op_encI _ _ _ _ _ (.put _ (by omega) (by omega)))).trans ((decodeOp_imm (fn_encI _ _ _ _ _ (.put _ (by omega) (by omega)))).trans
    ((decI_encI _ _ _ _ _ 24 _ (.put _ (by omega) (by omega)) (by omega)).trans
      (legal_of (by rw [imm_encI _ _ _ _ _ 18 24 (by omega) (by omega)]; simp) hw)))

theorem xori (p : Pred) (i : BitVec 24) (t : Target) : Statement (.xori p i t) := by
  rintro hw _ ⟨⟩
  exact (decode_at (op_encI _ _ _ _ _ (.put _ (by omega) (by omega)))).trans ((decodeOp_imm (fn_encI _ _ _ _ _ (.put _ (by omega) (by omega)))).trans
    ((decI_encI _ _ _ _ _ 24 _ (.put _ (by omega) (by omega)) (by omega)).trans
      (legal_of (by rw [imm_encI _ _ _ _ _ 18 24 (by omega) (by omega)]; simp) hw)))

theorem shli (p : Pred) (i : BitVec 6) (t : Target) : Statement (.shli p i t) := by
  rintro hw _ ⟨⟩
  exact (decode_at (op_encI _ _ _ _ _ (.put _ (by omega) (by omega)))).trans ((decodeOp_imm (fn_encI _ _ _ _ _ (.put _ (by omega) (by omega)))).trans
    ((decI_encI _ _ _ _ _ 6 _ (.put _ (by omega) (by omega)) (by omega)).trans
      (legal_of (by rw [imm_encI _ _ _ _ _ 18 6 (by omega) (by omega)]; simp) hw)))

theorem shri (p : Pred) (i : BitVec 6) (t : Target) : Statement (.shri p i t) := by
  rintro hw _ ⟨⟩
  exact (decode_at (op_encI _ _ _ _ _ (.put _ (by omega) (by omega)))).trans ((decodeOp_imm (fn_encI _ _ _ _ _ (.put _ (by omega) (by omega)))).trans
    ((decI_encI _ _ _ _ _ 6 _ (.put _ (by omega) (by omega)) (by omega)).trans
      (legal_of (by rw [imm_encI _ _ _ _ _ 18 6 (by omega) (by omega)]; simp) hw)))

theorem sari (p : Pred) (i : BitVec 6) (t : Target) : Statement (.sari p i t) := by
  rintro hw _ ⟨⟩
  exact (decode_at (op_encI _ _ _ _ _ (.put _ (by omega) (by omega)))).trans ((decodeOp_imm (fn_encI _ _ _ _ _ (.put _ (by omega) (by omega)))).trans
    ((decI_encI _ _ _ _ _ 6 _ (.put _ (by omega) (by omega)) (by omega)).trans
      (legal_of (by rw [imm_encI _ _ _ _ _ 18 6 (by omega) (by omega)]; simp) hw)))

theorem teq (p : Pred) (a : Target) (b : Target) : Statement (.teq p a b) := by
  rintro hw _ ⟨⟩
  exact (decode_at (op_encG _ _ _ _ _ _ (.zero _ _))).trans ((decG_encG ..).trans (legal_eq hw))

theorem tne (p : Pred) (a : Target) (b : Target) : Statement (.tne p a b) := by
  rintro hw _ ⟨⟩
  exact (decode_at (op_encG _ _ _ _ _ _ (.zero _ _))).trans ((decG_encG ..).trans (legal_eq hw))

theorem tlt (p : Pred) (a : Target) (b : Target) : Statement (.tlt p a b) := by
  rintro hw _ ⟨⟩
  exact (decode_at (op_encG _ _ _ _ _ _ (.zero _ _))).trans ((decG_encG ..).trans (legal_eq hw))

theorem tle (p : Pred) (a : Target) (b : Target) : Statement (.tle p a b) := by
  rintro hw _ ⟨⟩
  exact (decode_at (op_encG _ _ _ _ _ _ (.zero _ _))).trans ((decG_encG ..).trans (legal_eq hw))

theorem tltu (p : Pred) (a : Target) (b : Target) : Statement (.tltu p a b) := by
  rintro hw _ ⟨⟩
  exact (decode_at (op_encG _ _ _ _ _ _ (.zero _ _))).trans ((decG_encG ..).trans (legal_eq hw))

theorem tleu (p : Pred) (a : Target) (b : Target) : Statement (.tleu p a b) := by
  rintro hw _ ⟨⟩
  exact (decode_at (op_encG _ _ _ _ _ _ (.zero _ _))).trans ((decG_encG ..).trans (legal_eq hw))

theorem tnz (p : Pred) (a : Target) (b : Target) : Statement (.tnz p a b) := by
  rintro hw _ ⟨⟩
  exact (decode_at (op_encG _ _ _ _ _ _ (.zero _ _))).trans ((decG_encG ..).trans (legal_eq hw))

theorem teqi (p : Pred) (i : BitVec 24) (t : Target) : Statement (.teqi p i t) := by
  rintro hw _ ⟨⟩
  exact (decode_at (op_encI _ _ _ _ _ (.put _ (by omega) (by omega)))).trans ((decodeOp_test (fn_encI _ _ _ _ _ (.put _ (by omega) (by omega)))).trans
    ((decI_encI _ _ _ _ _ 24 _ (.put _ (by omega) (by omega)) (by omega)).trans
      (legal_of (by rw [imm_encI _ _ _ _ _ 18 24 (by omega) (by omega)]; simp) hw)))

theorem tnei (p : Pred) (i : BitVec 24) (t : Target) : Statement (.tnei p i t) := by
  rintro hw _ ⟨⟩
  exact (decode_at (op_encI _ _ _ _ _ (.put _ (by omega) (by omega)))).trans ((decodeOp_test (fn_encI _ _ _ _ _ (.put _ (by omega) (by omega)))).trans
    ((decI_encI _ _ _ _ _ 24 _ (.put _ (by omega) (by omega)) (by omega)).trans
      (legal_of (by rw [imm_encI _ _ _ _ _ 18 24 (by omega) (by omega)]; simp) hw)))

theorem tlti (p : Pred) (i : BitVec 24) (t : Target) : Statement (.tlti p i t) := by
  rintro hw _ ⟨⟩
  exact (decode_at (op_encI _ _ _ _ _ (.put _ (by omega) (by omega)))).trans ((decodeOp_test (fn_encI _ _ _ _ _ (.put _ (by omega) (by omega)))).trans
    ((decI_encI _ _ _ _ _ 24 _ (.put _ (by omega) (by omega)) (by omega)).trans
      (legal_of (by rw [imm_encI _ _ _ _ _ 18 24 (by omega) (by omega)]; simp) hw)))

theorem tlei (p : Pred) (i : BitVec 24) (t : Target) : Statement (.tlei p i t) := by
  rintro hw _ ⟨⟩
  exact (decode_at (op_encI _ _ _ _ _ (.put _ (by omega) (by omega)))).trans ((decodeOp_test (fn_encI _ _ _ _ _ (.put _ (by omega) (by omega)))).trans
    ((decI_encI _ _ _ _ _ 24 _ (.put _ (by omega) (by omega)) (by omega)).trans
      (legal_of (by rw [imm_encI _ _ _ _ _ 18 24 (by omega) (by omega)]; simp) hw)))

theorem tltui (p : Pred) (i : BitVec 24) (t : Target) : Statement (.tltui p i t) := by
  rintro hw _ ⟨⟩
  exact (decode_at (op_encI _ _ _ _ _ (.put _ (by omega) (by omega)))).trans ((decodeOp_test (fn_encI _ _ _ _ _ (.put _ (by omega) (by omega)))).trans
    ((decI_encI _ _ _ _ _ 24 _ (.put _ (by omega) (by omega)) (by omega)).trans
      (legal_of (by rw [imm_encI _ _ _ _ _ 18 24 (by omega) (by omega)]; simp) hw)))

theorem tleui (p : Pred) (i : BitVec 24) (t : Target) : Statement (.tleui p i t) := by
  rintro hw _ ⟨⟩
  exact (decode_at (op_encI _ _ _ _ _ (.put _ (by omega) (by omega)))).trans ((decodeOp_test (fn_encI _ _ _ _ _ (.put _ (by omega) (by omega)))).trans
    ((decI_encI _ _ _ _ _ 24 _ (.put _ (by omega) (by omega)) (by omega)).trans
      (legal_of (by rw [imm_encI _ _ _ _ _ 18 24 (by omega) (by omega)]; simp) hw)))

theorem fadd (p : Pred) (y : Ty) (a : Target) (b : Target) : Statement (.fadd p y a b) := by
  rintro hw _ ⟨⟩
  exact (decode_at (op_encG _ _ _ _ _ _ (.put _ (by omega) (by omega)))).trans ((decGMod_encG _ _ _ _ _ _ 2 _ _ _ (.put _ (by omega) (by omega)) (by omega) (decTy_eq ((mod_encG _ _ _ _ _ _ _ _ (by omega) (by omega)).trans (by simp)))).trans (legal_eq hw))

theorem fsub (p : Pred) (y : Ty) (a : Target) (b : Target) : Statement (.fsub p y a b) := by
  rintro hw _ ⟨⟩
  exact (decode_at (op_encG _ _ _ _ _ _ (.put _ (by omega) (by omega)))).trans ((decGMod_encG _ _ _ _ _ _ 2 _ _ _ (.put _ (by omega) (by omega)) (by omega) (decTy_eq ((mod_encG _ _ _ _ _ _ _ _ (by omega) (by omega)).trans (by simp)))).trans (legal_eq hw))

theorem fmul (p : Pred) (y : Ty) (a : Target) (b : Target) : Statement (.fmul p y a b) := by
  rintro hw _ ⟨⟩
  exact (decode_at (op_encG _ _ _ _ _ _ (.put _ (by omega) (by omega)))).trans ((decGMod_encG _ _ _ _ _ _ 2 _ _ _ (.put _ (by omega) (by omega)) (by omega) (decTy_eq ((mod_encG _ _ _ _ _ _ _ _ (by omega) (by omega)).trans (by simp)))).trans (legal_eq hw))

theorem ffma (p : Pred) (y : Ty) (a : Target) (b : Target) : Statement (.ffma p y a b) := by
  rintro hw _ ⟨⟩
  exact (decode_at (op_encG _ _ _ _ _ _ (.put _ (by omega) (by omega)))).trans ((decGMod_encG _ _ _ _ _ _ 2 _ _ _ (.put _ (by omega) (by omega)) (by omega) (decTy_eq ((mod_encG _ _ _ _ _ _ _ _ (by omega) (by omega)).trans (by simp)))).trans (legal_eq hw))

theorem fdiv (p : Pred) (y : Ty) (a : Target) (b : Target) : Statement (.fdiv p y a b) := by
  rintro hw _ ⟨⟩
  exact (decode_at (op_encG _ _ _ _ _ _ (.put _ (by omega) (by omega)))).trans ((decGMod_encG _ _ _ _ _ _ 2 _ _ _ (.put _ (by omega) (by omega)) (by omega) (decTy_eq ((mod_encG _ _ _ _ _ _ _ _ (by omega) (by omega)).trans (by simp)))).trans (legal_eq hw))

theorem fsqrt (p : Pred) (y : Ty) (a : Target) (b : Target) : Statement (.fsqrt p y a b) := by
  rintro hw _ ⟨⟩
  exact (decode_at (op_encG _ _ _ _ _ _ (.put _ (by omega) (by omega)))).trans ((decGMod_encG _ _ _ _ _ _ 2 _ _ _ (.put _ (by omega) (by omega)) (by omega) (decTy_eq ((mod_encG _ _ _ _ _ _ _ _ (by omega) (by omega)).trans (by simp)))).trans (legal_eq hw))

theorem fmin (p : Pred) (y : Ty) (a : Target) (b : Target) : Statement (.fmin p y a b) := by
  rintro hw _ ⟨⟩
  exact (decode_at (op_encG _ _ _ _ _ _ (.put _ (by omega) (by omega)))).trans ((decGMod_encG _ _ _ _ _ _ 2 _ _ _ (.put _ (by omega) (by omega)) (by omega) (decTy_eq ((mod_encG _ _ _ _ _ _ _ _ (by omega) (by omega)).trans (by simp)))).trans (legal_eq hw))

theorem fmax (p : Pred) (y : Ty) (a : Target) (b : Target) : Statement (.fmax p y a b) := by
  rintro hw _ ⟨⟩
  exact (decode_at (op_encG _ _ _ _ _ _ (.put _ (by omega) (by omega)))).trans ((decGMod_encG _ _ _ _ _ _ 2 _ _ _ (.put _ (by omega) (by omega)) (by omega) (decTy_eq ((mod_encG _ _ _ _ _ _ _ _ (by omega) (by omega)).trans (by simp)))).trans (legal_eq hw))

theorem fabs (p : Pred) (y : Ty) (a : Target) (b : Target) : Statement (.fabs p y a b) := by
  rintro hw _ ⟨⟩
  exact (decode_at (op_encG _ _ _ _ _ _ (.put _ (by omega) (by omega)))).trans ((decGMod_encG _ _ _ _ _ _ 2 _ _ _ (.put _ (by omega) (by omega)) (by omega) (decTy_eq ((mod_encG _ _ _ _ _ _ _ _ (by omega) (by omega)).trans (by simp)))).trans (legal_eq hw))

theorem fneg (p : Pred) (y : Ty) (a : Target) (b : Target) : Statement (.fneg p y a b) := by
  rintro hw _ ⟨⟩
  exact (decode_at (op_encG _ _ _ _ _ _ (.put _ (by omega) (by omega)))).trans ((decGMod_encG _ _ _ _ _ _ 2 _ _ _ (.put _ (by omega) (by omega)) (by omega) (decTy_eq ((mod_encG _ _ _ _ _ _ _ _ (by omega) (by omega)).trans (by simp)))).trans (legal_eq hw))

theorem fsgnj (p : Pred) (y : Ty) (a : Target) (b : Target) : Statement (.fsgnj p y a b) := by
  rintro hw _ ⟨⟩
  exact (decode_at (op_encG _ _ _ _ _ _ (.put _ (by omega) (by omega)))).trans ((decGMod_encG _ _ _ _ _ _ 2 _ _ _ (.put _ (by omega) (by omega)) (by omega) (decTy_eq ((mod_encG _ _ _ _ _ _ _ _ (by omega) (by omega)).trans (by simp)))).trans (legal_eq hw))

theorem feq (p : Pred) (d : Bool) (a : Target) (b : Target) : Statement (.feq p d a b) := by
  rintro hw _ ⟨⟩
  exact (decode_at (op_encG _ _ _ _ _ _ (.put _ (by omega) (by omega)))).trans ((decGMod_encG _ _ _ _ _ _ 1 _ _ _ (.put _ (by omega) (by omega)) (by omega) (ofBool_eq ((mod_encG _ _ _ _ _ _ _ _ (by omega) (by omega)).trans (by simp)))).trans (legal_eq hw))

theorem flt (p : Pred) (d : Bool) (a : Target) (b : Target) : Statement (.flt p d a b) := by
  rintro hw _ ⟨⟩
  exact (decode_at (op_encG _ _ _ _ _ _ (.put _ (by omega) (by omega)))).trans ((decGMod_encG _ _ _ _ _ _ 1 _ _ _ (.put _ (by omega) (by omega)) (by omega) (ofBool_eq ((mod_encG _ _ _ _ _ _ _ _ (by omega) (by omega)).trans (by simp)))).trans (legal_eq hw))

theorem fle (p : Pred) (d : Bool) (a : Target) (b : Target) : Statement (.fle p d a b) := by
  rintro hw _ ⟨⟩
  exact (decode_at (op_encG _ _ _ _ _ _ (.put _ (by omega) (by omega)))).trans ((decGMod_encG _ _ _ _ _ _ 1 _ _ _ (.put _ (by omega) (by omega)) (by omega) (ofBool_eq ((mod_encG _ _ _ _ _ _ _ _ (by omega) (by omega)).trans (by simp)))).trans (legal_eq hw))

theorem fclass (p : Pred) (d : Bool) (a : Target) (b : Target) : Statement (.fclass p d a b) := by
  rintro hw _ ⟨⟩
  exact (decode_at (op_encG _ _ _ _ _ _ (.put _ (by omega) (by omega)))).trans ((decGMod_encG _ _ _ _ _ _ 1 _ _ _ (.put _ (by omega) (by omega)) (by omega) (ofBool_eq ((mod_encG _ _ _ _ _ _ _ _ (by omega) (by omega)).trans (by simp)))).trans (legal_eq hw))

theorem fcvt (p : Pred) (d : CvtTy) (s : CvtTy) (a : Target) (b : Target) : Statement (.fcvt p d s a b) := by
  rintro hw _ ⟨⟩
  refine (decode_at (op_encG _ _ _ _ _ _ (.or (.put _ (by omega) (by omega)) (.put _ (by omega) (by omega))))).trans ?_
  show (decCvt _ 43 >>= _) = _
  rw [decCvt_eq (t := s) ((mod_encG _ _ _ _ _ _ _ _ (by omega) (by omega)).trans (by simp)), ok_bind]
  exact (decGMod_encG _ _ _ _ _ _ 6 _ _ _ (.or (.put _ (by omega) (by omega)) (.put _ (by omega) (by omega))) (by omega) (decCvt_eq ((mod_encG _ _ _ _ _ _ _ _ (by omega) (by omega)).trans (by simp)))).trans (legal_eq hw)

theorem vbcast (p : Pred) (w : Lane) (a : Target) (b : Target) : Statement (.vbcast p w a b) := by
  rintro hw _ ⟨⟩
  exact (decode_at (op_encG _ _ _ _ _ _ (.put _ (by omega) (by omega)))).trans ((decGMod_encG _ _ _ _ _ _ 2 _ _ _ (.put _ (by omega) (by omega)) (by omega) (decLane_eq ((mod_encG _ _ _ _ _ _ _ _ (by omega) (by omega)).trans (by simp)))).trans (legal_eq hw))

theorem vext (p : Pred) (w : Lane) (k : BitVec 6) (t : Target) : Statement (.vext p w k t) := by
  rintro hw _ ⟨⟩
  exact (decode_at (op_encI _ _ _ _ _ (.or (.put _ (by omega) (by omega)) (.put _ (by omega) (by omega))))).trans ((decILane_encI ..).trans (legal_eq hw))

theorem vins (p : Pred) (w : Lane) (k : BitVec 6) (t : Target) : Statement (.vins p w k t) := by
  rintro hw _ ⟨⟩
  exact (decode_at (op_encI _ _ _ _ _ (.or (.put _ (by omega) (by omega)) (.put _ (by omega) (by omega))))).trans ((decILane_encI ..).trans (legal_eq hw))

theorem vperm (p : Pred) (w : Lane) (a : Target) (b : Target) : Statement (.vperm p w a b) := by
  rintro hw _ ⟨⟩
  exact (decode_at (op_encG _ _ _ _ _ _ (.put _ (by omega) (by omega)))).trans ((decGMod_encG _ _ _ _ _ _ 2 _ _ _ (.put _ (by omega) (by omega)) (by omega) (decLane_eq ((mod_encG _ _ _ _ _ _ _ _ (by omega) (by omega)).trans (by simp)))).trans (legal_eq hw))

theorem vshl (p : Pred) (w : Lane) (a : Target) (b : Target) : Statement (.vshl p w a b) := by
  rintro hw _ ⟨⟩
  exact (decode_at (op_encG _ _ _ _ _ _ (.put _ (by omega) (by omega)))).trans ((decGMod_encG _ _ _ _ _ _ 2 _ _ _ (.put _ (by omega) (by omega)) (by omega) (decLane_eq ((mod_encG _ _ _ _ _ _ _ _ (by omega) (by omega)).trans (by simp)))).trans (legal_eq hw))

theorem vred (p : Pred) (f : VRedOp) (w : Lane) (a : Target) (b : Target) : Statement (.vred p f w a b) := by
  rintro hw _ ⟨⟩
  exact (decode_at (op_encG _ _ _ _ _ _ (.put _ (by omega) (by omega)))).trans ((decGFn_encG _ _ _ _ _ _ _ _ _ (decVRed_eq (fn_encG _ _ _ _ _ _ (.put _ (by omega) (by omega))))).trans (legal_eq hw))

theorem vsel (p : Pred) (w : Lane) (a : Target) (b : Target) : Statement (.vsel p w a b) := by
  rintro hw _ ⟨⟩
  exact (decode_at (op_encG _ _ _ _ _ _ (.put _ (by omega) (by omega)))).trans ((decGMod_encG _ _ _ _ _ _ 2 _ _ _ (.put _ (by omega) (by omega)) (by omega) (decLane_eq ((mod_encG _ _ _ _ _ _ _ _ (by omega) (by omega)).trans (by simp)))).trans (legal_eq hw))

theorem vcmp (p : Pred) (f : VCmpOp) (w : Lane) (a : Target) (b : Target) : Statement (.vcmp p f w a b) := by
  rintro hw _ ⟨⟩
  exact (decode_at (op_encG _ _ _ _ _ _ (.put _ (by omega) (by omega)))).trans ((decGFn_encG _ _ _ _ _ _ _ _ _ (decVCmp_eq (fn_encG _ _ _ _ _ _ (.put _ (by omega) (by omega))))).trans (legal_eq hw))

theorem viota (p : Pred) (w : Lane) (a : Target) (b : Target) : Statement (.viota p w a b) := by
  rintro hw _ ⟨⟩
  exact (decode_at (op_encG _ _ _ _ _ _ (.put _ (by omega) (by omega)))).trans ((decGMod_encG _ _ _ _ _ _ 2 _ _ _ (.put _ (by omega) (by omega)) (by omega) (decLane_eq ((mod_encG _ _ _ _ _ _ _ _ (by omega) (by omega)).trans (by simp)))).trans (legal_eq hw))

theorem vcnt (p : Pred) (w : Lane) (a : Target) (b : Target) : Statement (.vcnt p w a b) := by
  rintro hw _ ⟨⟩
  exact (decode_at (op_encG _ _ _ _ _ _ (.put _ (by omega) (by omega)))).trans ((decGMod_encG _ _ _ _ _ _ 2 _ _ _ (.put _ (by omega) (by omega)) (by omega) (decLane_eq ((mod_encG _ _ _ _ _ _ _ _ (by omega) (by omega)).trans (by simp)))).trans (legal_eq hw))

theorem ldB (p : Pred) (m : MemF) (a : Target) (b : Target) : Statement (.ldB p m a b) := by
  rintro hw _ ⟨⟩
  exact (decode_at (op_encL ..)).trans ((decL_encL ..).trans (legal_eq hw))

theorem ldBu (p : Pred) (m : MemF) (a : Target) (b : Target) : Statement (.ldBu p m a b) := by
  rintro hw _ ⟨⟩
  exact (decode_at (op_encL ..)).trans ((decL_encL ..).trans (legal_eq hw))

theorem ldH (p : Pred) (m : MemF) (a : Target) (b : Target) : Statement (.ldH p m a b) := by
  rintro hw _ ⟨⟩
  exact (decode_at (op_encL ..)).trans ((decL_encL ..).trans (legal_eq hw))

theorem ldHu (p : Pred) (m : MemF) (a : Target) (b : Target) : Statement (.ldHu p m a b) := by
  rintro hw _ ⟨⟩
  exact (decode_at (op_encL ..)).trans ((decL_encL ..).trans (legal_eq hw))

theorem ldW (p : Pred) (m : MemF) (a : Target) (b : Target) : Statement (.ldW p m a b) := by
  rintro hw _ ⟨⟩
  exact (decode_at (op_encL ..)).trans ((decL_encL ..).trans (legal_eq hw))

theorem ldWu (p : Pred) (m : MemF) (a : Target) (b : Target) : Statement (.ldWu p m a b) := by
  rintro hw _ ⟨⟩
  exact (decode_at (op_encL ..)).trans ((decL_encL ..).trans (legal_eq hw))

theorem ldD (p : Pred) (m : MemF) (a : Target) (b : Target) : Statement (.ldD p m a b) := by
  rintro hw _ ⟨⟩
  exact (decode_at (op_encL ..)).trans ((decL_encL ..).trans (legal_eq hw))

theorem vld (p : Pred) (f : Bool) (m : MemF) (a : Target) (b : Target) : Statement (.vld p f m a b) := by
  rintro hw _ ⟨⟩
  cases f
  · exact (decode_at (op_encL ..)).trans ((decodeOp_vld (fn_encL ..)).trans ((decL_encL ..).trans (legal_eq hw)))
  · exact (decode_at (op_encL ..)).trans ((decodeOp_vld (fn_encL ..)).trans ((decL_encL ..).trans (legal_eq hw)))

theorem vgather (p : Pred) (z : WD) (m : MemF) (a : Target) (b : Target) : Statement (.vgather p z m a b) := by
  rintro hw _ ⟨⟩
  refine (decode_at (op_encL ..)).trans ?_
  show (decWD _ >>= _) = _
  rw [decWD_eq (t := z) (fn_encL ..), ok_bind]
  exact (decL_encL ..).trans (legal_eq hw)

theorem pf (p : Pred) (l : BitVec 5) (o : BitVec 22) : Statement (.pf p l o) := by
  rintro hw _ ⟨⟩
  exact (decode_at (op := 0x89) (by simp [encHead])).trans
    ((decLCache_enc _ _ _ _ 22 _ (.put _ (by omega) (by omega)) (by omega)).trans
      (legal_of (by simp [encHead]) hw))

theorem cinv (p : Pred) (l : BitVec 5) : Statement (.cinv p l) := by
  rintro hw _ ⟨⟩
  have h : ∀ x : Word, x = x ||| 0#64 := by simp
  rw [h (encHead _ _ ||| _)]
  exact (decode_at (op := 0x8A) (by simp [encHead])).trans
    ((decLCache_enc _ _ _ _ 0 _ (.zero _ _) (by omega)).trans (legal_of (by simp [encHead]) hw))

theorem cwb (p : Pred) (l : BitVec 5) : Statement (.cwb p l) := by
  rintro hw _ ⟨⟩
  have h : ∀ x : Word, x = x ||| 0#64 := by simp
  rw [h (encHead _ _ ||| _)]
  exact (decode_at (op := 0x8B) (by simp [encHead])).trans
    ((decLCache_enc _ _ _ _ 0 _ (.zero _ _) (by omega)).trans (legal_of (by simp [encHead]) hw))

theorem stB (p : Pred) (m : MemF) : Statement (.stB p m) := by
  rintro hw _ ⟨⟩
  exact (decode_at (op_encS ..)).trans ((decS_encS ..).trans (legal_eq hw))

theorem stH (p : Pred) (m : MemF) : Statement (.stH p m) := by
  rintro hw _ ⟨⟩
  exact (decode_at (op_encS ..)).trans ((decS_encS ..).trans (legal_eq hw))

theorem stW (p : Pred) (m : MemF) : Statement (.stW p m) := by
  rintro hw _ ⟨⟩
  exact (decode_at (op_encS ..)).trans ((decS_encS ..).trans (legal_eq hw))

theorem stD (p : Pred) (m : MemF) : Statement (.stD p m) := by
  rintro hw _ ⟨⟩
  exact (decode_at (op_encS ..)).trans ((decS_encS ..).trans (legal_eq hw))

theorem vst (p : Pred) (m : MemF) : Statement (.vst p m) := by
  rintro hw _ ⟨⟩
  exact (decode_at (op_encS ..)).trans ((decS_encS ..).trans (legal_eq hw))

theorem vscatter (p : Pred) (z : WD) (m : MemF) : Statement (.vscatter p z m) := by
  rintro hw _ ⟨⟩
  refine (decode_at (op_encS ..)).trans ?_
  show (decWD _ >>= _) = _
  rw [decWD_eq (t := z) (fn_encS ..), ok_bind]
  exact (decS_encS ..).trans (legal_eq hw)

theorem fence (p : Pred) (l : BitVec 5) (s : Scope) (o : Order) : Statement (.fence p l s o) := by
  rintro hw _ ⟨⟩
  refine (decode_at (op := 0xA8) (by simp [encHead])).trans ?_
  show (decPred _ >>= _) = _
  rw [decPred_eq (p := p) (by simp [encHead]), ok_bind, decMem_eq (m := ⟨l, s, o, 0⟩) (by simp [encHead])
    (by simp [encHead]) (by simp [encHead]) (by simp [encHead]), ok_bind, rsv_eq (by simp [encHead]), ok_bind,
    rsv_eq (by simp [encHead]), ok_bind, noTarget_eq (by simp [encHead]), ok_bind,
    noTarget_eq (by simp [encHead]), ok_bind]
  exact legal_eq hw

theorem amoAdd (p : Pred) (z : WD) (m : MemF) (a : Target) (b : Target) : Statement (.amoAdd p z m a b) := by
  rintro hw _ ⟨⟩
  cases z
  · exact (decode_at (op_encL ..)).trans ((decAmo_at (fn_encL ..)).trans ((decL_encL ..).trans (legal_eq hw)))
  · exact (decode_at (op_encL ..)).trans ((decAmo_at (fn_encL ..)).trans ((decL_encL ..).trans (legal_eq hw)))

theorem amoAnd (p : Pred) (z : WD) (m : MemF) (a : Target) (b : Target) : Statement (.amoAnd p z m a b) := by
  rintro hw _ ⟨⟩
  cases z
  · exact (decode_at (op_encL ..)).trans ((decAmo_at (fn_encL ..)).trans ((decL_encL ..).trans (legal_eq hw)))
  · exact (decode_at (op_encL ..)).trans ((decAmo_at (fn_encL ..)).trans ((decL_encL ..).trans (legal_eq hw)))

theorem amoOr (p : Pred) (z : WD) (m : MemF) (a : Target) (b : Target) : Statement (.amoOr p z m a b) := by
  rintro hw _ ⟨⟩
  cases z
  · exact (decode_at (op_encL ..)).trans ((decAmo_at (fn_encL ..)).trans ((decL_encL ..).trans (legal_eq hw)))
  · exact (decode_at (op_encL ..)).trans ((decAmo_at (fn_encL ..)).trans ((decL_encL ..).trans (legal_eq hw)))

theorem amoXor (p : Pred) (z : WD) (m : MemF) (a : Target) (b : Target) : Statement (.amoXor p z m a b) := by
  rintro hw _ ⟨⟩
  cases z
  · exact (decode_at (op_encL ..)).trans ((decAmo_at (fn_encL ..)).trans ((decL_encL ..).trans (legal_eq hw)))
  · exact (decode_at (op_encL ..)).trans ((decAmo_at (fn_encL ..)).trans ((decL_encL ..).trans (legal_eq hw)))

theorem amoMin (p : Pred) (z : WD) (m : MemF) (a : Target) (b : Target) : Statement (.amoMin p z m a b) := by
  rintro hw _ ⟨⟩
  cases z
  · exact (decode_at (op_encL ..)).trans ((decAmo_at (fn_encL ..)).trans ((decL_encL ..).trans (legal_eq hw)))
  · exact (decode_at (op_encL ..)).trans ((decAmo_at (fn_encL ..)).trans ((decL_encL ..).trans (legal_eq hw)))

theorem amoMax (p : Pred) (z : WD) (m : MemF) (a : Target) (b : Target) : Statement (.amoMax p z m a b) := by
  rintro hw _ ⟨⟩
  cases z
  · exact (decode_at (op_encL ..)).trans ((decAmo_at (fn_encL ..)).trans ((decL_encL ..).trans (legal_eq hw)))
  · exact (decode_at (op_encL ..)).trans ((decAmo_at (fn_encL ..)).trans ((decL_encL ..).trans (legal_eq hw)))

theorem amoMinu (p : Pred) (z : WD) (m : MemF) (a : Target) (b : Target) : Statement (.amoMinu p z m a b) := by
  rintro hw _ ⟨⟩
  cases z
  · exact (decode_at (op_encL ..)).trans ((decAmo_at (fn_encL ..)).trans ((decL_encL ..).trans (legal_eq hw)))
  · exact (decode_at (op_encL ..)).trans ((decAmo_at (fn_encL ..)).trans ((decL_encL ..).trans (legal_eq hw)))

theorem amoMaxu (p : Pred) (z : WD) (m : MemF) (a : Target) (b : Target) : Statement (.amoMaxu p z m a b) := by
  rintro hw _ ⟨⟩
  cases z
  · exact (decode_at (op_encL ..)).trans ((decAmo_at (fn_encL ..)).trans ((decL_encL ..).trans (legal_eq hw)))
  · exact (decode_at (op_encL ..)).trans ((decAmo_at (fn_encL ..)).trans ((decL_encL ..).trans (legal_eq hw)))

theorem amoSwap (p : Pred) (z : WD) (m : MemF) (a : Target) (b : Target) : Statement (.amoSwap p z m a b) := by
  rintro hw _ ⟨⟩
  cases z
  · exact (decode_at (op_encL ..)).trans ((decAmo_at (fn_encL ..)).trans ((decL_encL ..).trans (legal_eq hw)))
  · exact (decode_at (op_encL ..)).trans ((decAmo_at (fn_encL ..)).trans ((decL_encL ..).trans (legal_eq hw)))

theorem amoCas (p : Pred) (z : WD) (m : MemF) (a : Target) (b : Target) : Statement (.amoCas p z m a b) := by
  rintro hw _ ⟨⟩
  cases z
  · exact (decode_at (op_encL ..)).trans ((decAmo_at (fn_encL ..)).trans ((decL_encL ..).trans (legal_eq hw)))
  · exact (decode_at (op_encL ..)).trans ((decAmo_at (fn_encL ..)).trans ((decL_encL ..).trans (legal_eq hw)))

theorem amoFadd (p : Pred) (m : MemF) (a : Target) (b : Target) : Statement (.amoFadd p m a b) := by
  rintro hw _ ⟨⟩
  exact (decode_at (op_encL ..)).trans ((decAmo_at (fn_encL ..)).trans ((decL_encL ..).trans (legal_eq hw)))

theorem rgnBeg (p : Pred) (g : BitVec 6) (o : BitVec 23) : Statement (.rgnBeg p g o) := by
  rintro hw _ ⟨⟩
  exact (decode_at (op_encX _ _ _ _ _ _ _ _ (.put _ (by omega) (by omega)))).trans ((decX_encX _ _ _ _ _ _ _ _ _ _ 23 _ _ (.put _ (by omega) (by omega)) (by omega) (.inl rfl) (.inr rfl) (.inr ⟨rfl, rfl⟩)).trans
    (legal_of (by rw [imm_encX _ _ _ _ _ _ _ _ 18 23 (by omega) (by omega), reg_encX _ _ _ _ _ _ _ _ (.put _ (by omega) (by omega))]; simp) hw))

theorem rgnEnd (p : Pred) : Statement (.rgnEnd p) := by
  rintro hw _ ⟨⟩
  exact (decode_at (op_encX _ _ _ _ _ _ _ _ (.zero _ _))).trans ((decX_encX _ _ _ _ _ _ _ _ _ _ 0 _ _ (.zero _ _) (by omega) (.inr rfl) (.inr rfl) (.inr ⟨rfl, rfl⟩)).trans
    (legal_eq hw))

theorem rgnAbt (p : Pred) : Statement (.rgnAbt p) := by
  rintro hw _ ⟨⟩
  exact (decode_at (op_encX _ _ _ _ _ _ _ _ (.zero _ _))).trans ((decX_encX _ _ _ _ _ _ _ _ _ _ 0 _ _ (.zero _ _) (by omega) (.inr rfl) (.inr rfl) (.inr ⟨rfl, rfl⟩)).trans
    (legal_eq hw))

theorem rgnStat (p : Pred) (a : Target) (b : Target) : Statement (.rgnStat p a b) := by
  rintro hw _ ⟨⟩
  exact (decode_at (op_encX _ _ _ _ _ _ _ _ (.zero _ _))).trans ((decX_encX _ _ _ _ _ _ _ _ _ _ 0 _ _ (.zero _ _) (by omega) (.inr rfl) (.inr rfl) (.inl rfl)).trans
    (legal_eq hw))

theorem barInit (p : Pred) (n : BitVec 4) (k : BitVec 2) : Statement (.barInit p n k) := by
  rintro hw _ ⟨⟩
  exact (decode_at (op_encX _ _ _ _ _ _ _ _ (.or (.put _ (by omega) (by omega)) (.put _ (by omega) (by omega))))).trans ((decX_encX _ _ _ _ _ _ _ _ _ _ 6 _ _ (.or (.put _ (by omega) (by omega)) (.put _ (by omega) (by omega))) (by omega) (.inr rfl) (.inr rfl) (.inr ⟨rfl, rfl⟩)).trans
    (legal_of (by rw [imm_encX _ _ _ _ _ _ _ _ 18 4 (by omega) (by omega), imm_encX _ _ _ _ _ _ _ _ 22 2 (by omega) (by omega)]; simp) hw))

theorem barArr (p : Pred) (n : BitVec 4) (a : Target) (b : Target) : Statement (.barArr p n a b) := by
  rintro hw _ ⟨⟩
  exact (decode_at (op_encX _ _ _ _ _ _ _ _ (.put _ (by omega) (by omega)))).trans ((decX_encX _ _ _ _ _ _ _ _ _ _ 4 _ _ (.put _ (by omega) (by omega)) (by omega) (.inr rfl) (.inr rfl) (.inl rfl)).trans
    (legal_of (by rw [imm_encX _ _ _ _ _ _ _ _ 18 4 (by omega) (by omega)]; simp) hw))

theorem barWait (p : Pred) (n : BitVec 4) : Statement (.barWait p n) := by
  rintro hw _ ⟨⟩
  exact (decode_at (op_encX _ _ _ _ _ _ _ _ (.put _ (by omega) (by omega)))).trans ((decX_encX _ _ _ _ _ _ _ _ _ _ 4 _ _ (.put _ (by omega) (by omega)) (by omega) (.inr rfl) (.inr rfl) (.inr ⟨rfl, rfl⟩)).trans
    (legal_of (by rw [imm_encX _ _ _ _ _ _ _ _ 18 4 (by omega) (by omega)]; simp) hw))

theorem evtSig (p : Pred) (s : Scope) : Statement (.evtSig p s) := by
  rintro hw _ ⟨⟩
  exact (decode_at (op_encX _ _ _ _ _ _ _ _ (.zero _ _))).trans ((decX_encX _ _ _ _ _ _ _ _ _ _ 0 _ _ (.zero _ _) (by omega) (.inr rfl) (.inl rfl) (.inr ⟨rfl, rfl⟩)).trans
    (legal_eq hw))

theorem evtWait (p : Pred) (s : Scope) : Statement (.evtWait p s) := by
  rintro hw _ ⟨⟩
  exact (decode_at (op_encX _ _ _ _ _ _ _ _ (.zero _ _))).trans ((decX_encX _ _ _ _ _ _ _ _ _ _ 0 _ _ (.zero _ _) (by omega) (.inr rfl) (.inl rfl) (.inr ⟨rfl, rfl⟩)).trans
    (legal_eq hw))

theorem wqGive (p : Pred) (s : Scope) (a : Target) (b : Target) : Statement (.wqGive p s a b) := by
  rintro hw _ ⟨⟩
  exact (decode_at (op_encX _ _ _ _ _ _ _ _ (.zero _ _))).trans ((decX_encX _ _ _ _ _ _ _ _ _ _ 0 _ _ (.zero _ _) (by omega) (.inr rfl) (.inl rfl) (.inl rfl)).trans
    (legal_eq hw))

theorem wqTake (p : Pred) (s : Scope) (a : Target) (b : Target) : Statement (.wqTake p s a b) := by
  rintro hw _ ⟨⟩
  exact (decode_at (op_encX _ _ _ _ _ _ _ _ (.zero _ _))).trans ((decX_encX _ _ _ _ _ _ _ _ _ _ 0 _ _ (.zero _ _) (by omega) (.inr rfl) (.inl rfl) (.inl rfl)).trans
    (legal_eq hw))

theorem wqSteal (p : Pred) (s : Scope) (a : Target) (b : Target) : Statement (.wqSteal p s a b) := by
  rintro hw _ ⟨⟩
  exact (decode_at (op_encX _ _ _ _ _ _ _ _ (.zero _ _))).trans ((decX_encX _ _ _ _ _ _ _ _ _ _ 0 _ _ (.zero _ _) (by omega) (.inr rfl) (.inl rfl) (.inl rfl)).trans
    (legal_eq hw))

theorem launch (p : Pred) (a : Target) (b : Target) : Statement (.launch p a b) := by
  rintro hw _ ⟨⟩
  exact (decode_at (op_encX _ _ _ _ _ _ _ _ (.zero _ _))).trans ((decX_encX _ _ _ _ _ _ _ _ _ _ 0 _ _ (.zero _ _) (by omega) (.inr rfl) (.inr rfl) (.inl rfl)).trans
    (legal_eq hw))

theorem yield (p : Pred) : Statement (.yield p) := by
  rintro hw _ ⟨⟩
  exact (decode_at (op_encX _ _ _ _ _ _ _ _ (.zero _ _))).trans ((decX_encX _ _ _ _ _ _ _ _ _ _ 0 _ _ (.zero _ _) (by omega) (.inr rfl) (.inr rfl) (.inr ⟨rfl, rfl⟩)).trans
    (legal_eq hw))

theorem cpy (p : Pred) (r : BitVec 6) : Statement (.cpy p r) := by
  rintro hw _ ⟨⟩
  refine (decode_at (op_encE ..)).trans
    ((decE_encE _ _ _ _ _ _ _ _ _ _ _ _ _ (.inr rfl) (.inl rfl) (.inr rfl) (.inr rfl) (.inr rfl)).trans (legal_of ?_ hw))
  obtain ⟨_, h2, h3, _, h5⟩ := fields_encE 0xc0 p 0 r 0 0 0
  simp only [h2, h3, h5]

theorem cpyQ (p : Pred) (r : BitVec 6) : Statement (.cpyQ p r) := by
  rintro hw _ ⟨⟩
  refine (decode_at (op_encE ..)).trans
    ((decE_encE _ _ _ _ _ _ _ _ _ _ _ _ _ (.inr rfl) (.inl rfl) (.inr rfl) (.inr rfl) (.inr rfl)).trans (legal_of ?_ hw))
  obtain ⟨_, h2, h3, _, h5⟩ := fields_encE 0xc1 p 0 r 0 0 0
  simp only [h2, h3, h5]

theorem bbarInit (p : Pred) : Statement (.bbarInit p) := by
  rintro hw _ ⟨⟩
  refine (decode_at (op_encE ..)).trans
    ((decE_encE _ _ _ _ _ _ _ _ _ _ _ _ _ (.inr rfl) (.inr rfl) (.inr rfl) (.inr rfl) (.inr rfl)).trans (legal_of ?_ hw))
  obtain ⟨_, h2, h3, _, h5⟩ := fields_encE 0xc2 p 0 0 0 0 0
  simp only [h2, h3, h5]

theorem bbarWait (p : Pred) (r : BitVec 6) : Statement (.bbarWait p r) := by
  rintro hw _ ⟨⟩
  refine (decode_at (op_encE ..)).trans
    ((decE_encE _ _ _ _ _ _ _ _ _ _ _ _ _ (.inr rfl) (.inl rfl) (.inr rfl) (.inr rfl) (.inr rfl)).trans (legal_of ?_ hw))
  obtain ⟨_, h2, h3, _, h5⟩ := fields_encE 0xc3 p 0 r 0 0 0
  simp only [h2, h3, h5]

theorem mma (p : Pred) (r : BitVec 6) (c : BitVec 3) (q : BitVec 7) : Statement (.mma p r c q) := by
  rintro hw _ ⟨⟩
  refine (decode_at (op_encE ..)).trans
    ((decE_encE _ _ _ _ _ _ _ _ _ _ _ _ _ (.inr rfl) (.inl rfl) (.inl rfl) (.inr rfl) (.inl rfl)).trans (legal_of ?_ hw))
  obtain ⟨_, h2, h3, _, h5⟩ := fields_encE 0xc4 p 0 r c 0 q
  simp only [h2, h3, h5]

theorem mmaSp (p : Pred) (r : BitVec 6) (c : BitVec 3) (q : BitVec 7) : Statement (.mmaSp p r c q) := by
  rintro hw _ ⟨⟩
  refine (decode_at (op_encE ..)).trans
    ((decE_encE _ _ _ _ _ _ _ _ _ _ _ _ _ (.inr rfl) (.inl rfl) (.inl rfl) (.inr rfl) (.inl rfl)).trans (legal_of ?_ hw))
  obtain ⟨_, h2, h3, _, h5⟩ := fields_encE 0xc5 p 0 r c 0 q
  simp only [h2, h3, h5]

theorem mring (p : Pred) (r : BitVec 6) (c : BitVec 3) (n : RingN) (q : BitVec 7) : Statement (.mring p r c n q) := by
  rintro hw _ ⟨⟩
  refine (decode_at (op_encE ..)).trans ?_
  show (decRing _ >>= _) = _
  rw [decRing_eq (t := n) (fields_encE ..).2.2.2.1, ok_bind]
  refine (decE_encE _ _ _ _ _ _ _ _ _ _ _ _ _ (.inr rfl) (.inl rfl) (.inl rfl) (.inl rfl) (.inl rfl)).trans
    (legal_of ?_ hw)
  obtain ⟨_, h2, h3, _, h5⟩ := fields_encE 0xC6 p 0 r c n.bits q
  rw [h2, h3, h5]

theorem mzero (p : Pred) (c : BitVec 3) : Statement (.mzero p c) := by
  rintro hw _ ⟨⟩
  refine (decode_at (op_encE ..)).trans
    ((decE_encE _ _ _ _ _ _ _ _ _ _ _ _ _ (.inr rfl) (.inr rfl) (.inl rfl) (.inr rfl) (.inr rfl)).trans (legal_of ?_ hw))
  obtain ⟨_, h2, h3, _, h5⟩ := fields_encE 0xc7 p 0 0 c 0 0
  simp only [h2, h3, h5]

theorem mld (p : Pred) (r : BitVec 6) (c : BitVec 3) : Statement (.mld p r c) := by
  rintro hw _ ⟨⟩
  refine (decode_at (op_encE ..)).trans
    ((decE_encE _ _ _ _ _ _ _ _ _ _ _ _ _ (.inr rfl) (.inl rfl) (.inl rfl) (.inr rfl) (.inr rfl)).trans (legal_of ?_ hw))
  obtain ⟨_, h2, h3, _, h5⟩ := fields_encE 0xc8 p 0 r c 0 0
  simp only [h2, h3, h5]

theorem mst (p : Pred) (f : MstFmt) (r : BitVec 6) (c : BitVec 3) : Statement (.mst p f r c) := by
  rintro hw _ ⟨⟩
  refine (decode_at (op_encE ..)).trans ?_
  show (decMst _ >>= _) = _
  rw [decMst_eq (t := f) (fields_encE ..).1, ok_bind]
  refine (decE_encE _ _ _ _ _ _ _ _ _ _ _ _ _ (.inl rfl) (.inl rfl) (.inl rfl) (.inr rfl) (.inr rfl)).trans
    (legal_of ?_ hw)
  obtain ⟨_, h2, h3, _⟩ := fields_encE 0xC9 p f.bits r c 0 0
  rw [h2, h3]

theorem cmtag (p : Pred) (t : BitVec 3) (s : Bool) : Statement (.cmtag p t s) := by
  rintro hw _ ⟨⟩
  refine (decode_at (op := 0xCA) (by simp [encHead])).trans ?_
  show decE _ true false false false false _ = _
  simp only [decE]
  rw [decPred_eq (p := p) (by simp [encHead]), rsv_eq (lo := 0) (n := 32) (by simp [encHead])]
  simp [need, encHead]
  refine (legal_of ?_ hw)
  cases s <;> rfl

theorem cvtN (p : Pred) (t : BitVec 3) (r : NRound) (s : Bool) (a : Target) (b : Target) : Statement (.cvtN p t r s a b) := by
  rintro hw _ ⟨⟩
  refine (decode_at (op_encG _ _ _ _ _ _ (.or (.or (.put _ (by omega) (by omega)) (.put _ (by omega) (by omega))) (.put _ (by omega) (by omega))))).trans ?_
  show (decNRound _ >>= _) = _
  rw [decNRound_eq (t := r) ((mod_encG _ _ _ _ _ _ _ _ (by omega) (by omega)).trans (by simp)), ok_bind]
  refine (decGMod_encG _ _ _ _ _ _ 6 _ t _ (.or (.or (.put _ (by omega) (by omega)) (.put _ (by omega) (by omega))) (.put _ (by omega) (by omega))) (by omega) (congrArg _ ((mod_encG _ _ _ _ _ _ _ _ (by omega) (by omega)).trans (by simp)))).trans (legal_of ?_ hw)
  have h : fld (encG 0xD0 p 0 (put 3 40 t ||| put 2 43 r.bits ||| put 1 45 (BitVec.ofBool s)) a b) 45 1 = BitVec.ofBool s :=
    (mod_encG _ _ _ _ _ _ _ _ (by omega) (by omega)).trans (by simp)
  rw [h]; cases s <;> rfl

theorem cvtW (p : Pred) (t : BitVec 3) (a : Target) (b : Target) : Statement (.cvtW p t a b) := by
  rintro hw _ ⟨⟩
  exact (decode_at (op_encG _ _ _ _ _ _ (.put _ (by omega) (by omega)))).trans ((decGMod_encG _ _ _ _ _ _ 3 _ _ _ (.put _ (by omega) (by omega)) (by omega) (congrArg _ ((mod_encG _ _ _ _ _ _ _ _ (by omega) (by omega)).trans (by simp)))).trans (legal_eq hw))

theorem bscale (p : Pred) (a : Target) (b : Target) : Statement (.bscale p a b) := by
  rintro hw _ ⟨⟩
  exact (decode_at (op_encG _ _ _ _ _ _ (.zero _ _))).trans ((decG_encG ..).trans (legal_eq hw))

theorem srd (p : Pred) (n : BitVec 12) (a : Target) (b : Target) : Statement (.srd p n a b) := by
  rintro hw _ ⟨⟩
  exact (decode_at (op_encX _ _ _ _ _ _ _ _ (.put _ (by omega) (by omega)))).trans ((decX_encX _ _ _ _ _ _ _ _ _ _ 12 _ _ (.put _ (by omega) (by omega)) (by omega) (.inr rfl) (.inr rfl) (.inl rfl)).trans
    (legal_of (by rw [imm_encX _ _ _ _ _ _ _ _ 18 12 (by omega) (by omega)]; simp) hw))

theorem swr (p : Pred) (n : BitVec 12) : Statement (.swr p n) := by
  rintro hw _ ⟨⟩
  exact (decode_at (op_encX _ _ _ _ _ _ _ _ (.put _ (by omega) (by omega)))).trans ((decX_encX _ _ _ _ _ _ _ _ _ _ 12 _ _ (.put _ (by omega) (by omega)) (by omega) (.inr rfl) (.inr rfl) (.inr ⟨rfl, rfl⟩)).trans
    (legal_of (by rw [imm_encX _ _ _ _ _ _ _ _ 18 12 (by omega) (by omega)]; simp) hw))

theorem sret (p : Pred) : Statement (.sret p) := by
  rintro hw _ ⟨⟩
  exact (decode_at (op_encX _ _ _ _ _ _ _ _ (.zero _ _))).trans ((decX_encX _ _ _ _ _ _ _ _ _ _ 0 _ _ (.zero _ _) (by omega) (.inr rfl) (.inr rfl) (.inr ⟨rfl, rfl⟩)).trans
    (legal_eq hw))

theorem tlbinv (p : Pred) (s : Scope) (f : Bool) : Statement (.tlbinv p s f) := by
  rintro hw _ ⟨⟩
  cases f
  · exact (decode_at (op_encX _ _ _ _ _ _ _ _ (.zero _ _))).trans ((decodeOp_tlbinv (fn_encX _ _ _ _ _ _ _ _ (.zero _ _))).trans
      ((decX_encX _ _ _ _ _ _ _ _ _ _ 0 _ _ (.zero _ _) (by omega) (.inr rfl) (.inl rfl) (.inr ⟨rfl, rfl⟩)).trans (legal_eq hw)))
  · exact (decode_at (op_encX _ _ _ _ _ _ _ _ (.zero _ _))).trans ((decodeOp_tlbinv (fn_encX _ _ _ _ _ _ _ _ (.zero _ _))).trans
      ((decX_encX _ _ _ _ _ _ _ _ _ _ 0 _ _ (.zero _ _) (by omega) (.inr rfl) (.inl rfl) (.inr ⟨rfl, rfl⟩)).trans (legal_eq hw)))

theorem cyc (p : Pred) (a : Target) (b : Target) : Statement (.cyc p a b) := by
  rintro hw _ ⟨⟩
  exact (decode_at (op_encX _ _ _ _ _ _ _ _ (.zero _ _))).trans ((decX_encX _ _ _ _ _ _ _ _ _ _ 0 _ _ (.zero _ _) (by omega) (.inr rfl) (.inr rfl) (.inl rfl)).trans
    (legal_eq hw))

theorem frameGrant (x0 : Nat) : Statement (.frameGrant x0) := by rintro _ _ ⟨⟩

theorem blockFetch (x0 : Nat) (x1 : Nat) : Statement (.blockFetch x0 x1) := by rintro _ _ ⟨⟩

theorem blockCommit (x0 : Nat) : Statement (.blockCommit x0) := by rintro _ _ ⟨⟩

theorem trapDelivery (x0 : Nat) : Statement (.trapDelivery x0) := by rintro _ _ ⟨⟩

theorem loadReply (x0 : Nat) : Statement (.loadReply x0) := by rintro _ _ ⟨⟩

theorem homeWrite (x0 : Nat) (x1 : Nat) : Statement (.homeWrite x0 x1) := by rintro _ _ ⟨⟩

theorem invalidationAck (x0 : Nat) (x1 : Nat) : Statement (.invalidationAck x0 x1) := by rintro _ _ ⟨⟩

theorem l1Invalidate (x0 : Nat) (x1 : Nat) : Statement (.l1Invalidate x0 x1) := by rintro _ _ ⟨⟩

theorem homeRead (x0 : Nat) (x1 : Nat) : Statement (.homeRead x0 x1) := by rintro _ _ ⟨⟩

theorem writeAck (x0 : Nat) : Statement (.writeAck x0) := by rintro _ _ ⟨⟩

theorem l1Evict (x0 : Nat) (x1 : Nat) : Statement (.l1Evict x0 x1) := by rintro _ _ ⟨⟩

theorem llcEvict (x0 : Nat) : Statement (.llcEvict x0) := by rintro _ _ ⟨⟩

theorem pageWalk (x0 : Nat) (x1 : Word) : Statement (.pageWalk x0 x1) := by rintro _ _ ⟨⟩

theorem tableUpdateWrite (x0 : Nat) (x1 : Nat) : Statement (.tableUpdateWrite x0 x1) := by rintro _ _ ⟨⟩

theorem tlbinvComplete (x0 : Nat) : Statement (.tlbinvComplete x0) := by rintro _ _ ⟨⟩

theorem bridgeModuleRead (x0 : Nat) (x1 : Nat) : Statement (.bridgeModuleRead x0 x1) := by rintro _ _ ⟨⟩

theorem bridgeModuleWrite (x0 : Nat) (x1 : Nat) : Statement (.bridgeModuleWrite x0 x1) := by rintro _ _ ⟨⟩

theorem bridgeDropHalf (x0 : Nat) : Statement (.bridgeDropHalf x0) := by rintro _ _ ⟨⟩

theorem go (x0 : Nat) (x1 : Bool) : Statement (.go x0 x1) := by rintro _ _ ⟨⟩

theorem snpData (x0 : Nat) : Statement (.snpData x0) := by rintro _ _ ⟨⟩

theorem snpInv (x0 : Nat) : Statement (.snpInv x0) := by rintro _ _ ⟨⟩

theorem snpCur (x0 : Nat) : Statement (.snpCur x0) := by rintro _ _ ⟨⟩

theorem writePull (x0 : Nat) : Statement (.writePull x0) := by rintro _ _ ⟨⟩

theorem goWritePullDrop (x0 : Nat) : Statement (.goWritePullDrop x0) := by rintro _ _ ⟨⟩

theorem memRd (x0 : Nat) (x1 : Bool) : Statement (.memRd x0 x1) := by rintro _ _ ⟨⟩

theorem memRdData (x0 : Nat) : Statement (.memRdData x0) := by rintro _ _ ⟨⟩

theorem memWr (x0 : Nat) (x1 : Vec) : Statement (.memWr x0 x1) := by rintro _ _ ⟨⟩

theorem birspi (x0 : Nat) : Statement (.birspi x0) := by rintro _ _ ⟨⟩

theorem atomicOpCompletion (x0 : Nat) (x1 : Bool) : Statement (.atomicOpCompletion x0 x1) := by rintro _ _ ⟨⟩

theorem slotGrant : Statement (.slotGrant) := by rintro _ _ ⟨⟩

theorem regionRead (x0 : Nat) (x1 : Nat) : Statement (.regionRead x0 x1) := by rintro _ _ ⟨⟩

theorem regionWrite (x0 : Nat) (x1 : Nat) : Statement (.regionWrite x0 x1) := by rintro _ _ ⟨⟩

theorem regionAtomic (x0 : Nat) (x1 : Nat) : Statement (.regionAtomic x0 x1) := by rintro _ _ ⟨⟩

theorem edgeRequest : Statement (.edgeRequest) := by rintro _ _ ⟨⟩

theorem stallRetry (x0 : Nat) (x1 : Nat) : Statement (.stallRetry x0 x1) := by rintro _ _ ⟨⟩

theorem endReport (x0 : Nat) : Statement (.endReport x0) := by rintro _ _ ⟨⟩

theorem regionCommit (x0 : Nat) : Statement (.regionCommit x0) := by rintro _ _ ⟨⟩

theorem regionAbort (x0 : Nat) (x1 : Nat) : Statement (.regionAbort x0 x1) := by rintro _ _ ⟨⟩

theorem commitAnswer (x0 : Nat) : Statement (.commitAnswer x0) := by rintro _ _ ⟨⟩

theorem abortAnswer (x0 : Nat) : Statement (.abortAnswer x0) := by rintro _ _ ⟨⟩

theorem dependenceTimeout (x0 : Nat) : Statement (.dependenceTimeout x0) := by rintro _ _ ⟨⟩

theorem recoveryGo (x0 : Nat) (x1 : Nat) : Statement (.recoveryGo x0 x1) := by rintro _ _ ⟨⟩

theorem leaseExpiry : Statement (.leaseExpiry) := by rintro _ _ ⟨⟩

theorem startWatchdog : Statement (.startWatchdog) := by rintro _ _ ⟨⟩

theorem goWord (x0 : Nat) : Statement (.goWord x0) := by rintro _ _ ⟨⟩

theorem groupPlace (x0 : Nat) : Statement (.groupPlace x0) := by rintro _ _ ⟨⟩

theorem ageingPeriod (x0 : Nat) : Statement (.ageingPeriod x0) := by rintro _ _ ⟨⟩

theorem preemptTimer (x0 : Nat) : Statement (.preemptTimer x0) := by rintro _ _ ⟨⟩

theorem preemption (x0 : Nat) : Statement (.preemption x0) := by rintro _ _ ⟨⟩

theorem segmentReport (x0 : Nat) (x1 : Nat) : Statement (.segmentReport x0 x1) := by rintro _ _ ⟨⟩

theorem copyStart (x0 : Nat) : Statement (.copyStart x0) := by rintro _ _ ⟨⟩

theorem copyBeat (x0 : Nat) (x1 : Nat) (x2 : Nat) : Statement (.copyBeat x0 x1 x2) := by rintro _ _ ⟨⟩

theorem copyFinish (x0 : Nat) (x1 : Nat) : Statement (.copyFinish x0 x1) := by rintro _ _ ⟨⟩

theorem bbarInitPerform (x0 : Nat) (x1 : Nat) : Statement (.bbarInitPerform x0 x1) := by rintro _ _ ⟨⟩

theorem markTake (x0 : Nat) : Statement (.markTake x0) := by rintro _ _ ⟨⟩

theorem nodeCommandStart (x0 : Nat) : Statement (.nodeCommandStart x0) := by rintro _ _ ⟨⟩

theorem nodeCommandFinish (x0 : Nat) : Statement (.nodeCommandFinish x0) := by rintro _ _ ⟨⟩

theorem ringStart (x0 : Nat) : Statement (.ringStart x0) := by rintro _ _ ⟨⟩

theorem ringHandover (x0 : Nat) : Statement (.ringHandover x0) := by rintro _ _ ⟨⟩

theorem ringTimeout (x0 : Nat) : Statement (.ringTimeout x0) := by rintro _ _ ⟨⟩

theorem ldmapWrite (x0 : Nat) (x1 : Nat) (x2 : Word) : Statement (.ldmapWrite x0 x1 x2) := by rintro _ _ ⟨⟩

theorem lwcfgWrite (x0 : Nat) (x1 : Nat) (x2 : Word) : Statement (.lwcfgWrite x0 x1 x2) := by rintro _ _ ⟨⟩

theorem lcancel (x0 : Nat) (x1 : Word) : Statement (.lcancel x0 x1) := by rintro _ _ ⟨⟩

theorem gmove (x0 : Nat) (x1 : Word) : Statement (.gmove x0 x1) := by rintro _ _ ⟨⟩

theorem debugHold (x0 : Nat) (x1 : Nat) : Statement (.debugHold x0 x1) := by rintro _ _ ⟨⟩

theorem debugAccess (x0 : Nat) (x1 : Nat) (x2 : Bool) (x3 : Word) : Statement (.debugAccess x0 x1 x2 x3) := by rintro _ _ ⟨⟩

theorem debugRelease (x0 : Nat) : Statement (.debugRelease x0) := by rintro _ _ ⟨⟩

theorem warmReset (x0 : Nat) (x1 : Nat) (x2 : Bool) : Statement (.warmReset x0 x1 x2) := by rintro _ _ ⟨⟩

theorem fenceOnly (x0 : Nat) (x1 : Nat) (x2 : Bool) : Statement (.fenceOnly x0 x1 x2) := by rintro _ _ ⟨⟩

theorem readmit (x0 : Nat) (x1 : Nat) : Statement (.readmit x0 x1) := by rintro _ _ ⟨⟩

theorem linkQuiesce (x0 : Nat) : Statement (.linkQuiesce x0) := by rintro _ _ ⟨⟩

theorem dieResetDone (x0 : Nat) : Statement (.dieResetDone x0) := by rintro _ _ ⟨⟩

theorem bistDone (x0 : Nat) (x1 : Nat) : Statement (.bistDone x0 x1) := by rintro _ _ ⟨⟩

theorem linkDown (x0 : Nat) (x1 : Bool) : Statement (.linkDown x0 x1) := by rintro _ _ ⟨⟩

theorem beatReplay (x0 : Nat) : Statement (.beatReplay x0) := by rintro _ _ ⟨⟩

theorem creditReturn (x0 : Nat) (x1 : Nat) (x2 : Nat) (x3 : Bool) : Statement (.creditReturn x0 x1 x2 x3) := by rintro _ _ ⟨⟩

theorem creditAudit (x0 : Nat) (x1 : Nat) : Statement (.creditAudit x0 x1) := by rintro _ _ ⟨⟩

theorem gateTimer (x0 : Nat) : Statement (.gateTimer x0) := by rintro _ _ ⟨⟩

theorem cellWake (x0 : Nat) : Statement (.cellWake x0) := by rintro _ _ ⟨⟩

theorem uncorrectableError (x0 : Nat) (x1 : Nat) : Statement (.uncorrectableError x0 x1) := by rintro _ _ ⟨⟩

theorem correctedError (x0 : Nat) (x1 : Nat) : Statement (.correctedError x0 x1) := by rintro _ _ ⟨⟩

theorem thermalThrottle (x0 : Nat) (x1 : Nat) : Statement (.thermalThrottle x0 x1) := by rintro _ _ ⟨⟩

theorem clkstepWrite (x0 : Nat) (x1 : Word) : Statement (.clkstepWrite x0 x1) := by rintro _ _ ⟨⟩

theorem moduleStart (x0 : Nat) : Statement (.moduleStart x0) := by rintro _ _ ⟨⟩

theorem claim (x0 : Nat) (x1 : Word) : Statement (.claim x0 x1) := by rintro _ _ ⟨⟩

theorem startcfgWrite (x0 : Nat) (x1 : Word) : Statement (.startcfgWrite x0 x1) := by rintro _ _ ⟨⟩

theorem moderrClear (x0 : Nat) (x1 : Word) : Statement (.moderrClear x0 x1) := by rintro _ _ ⟨⟩

theorem registerWrite (x0 : Nat) (x1 : Nat) (x2 : Word) : Statement (.registerWrite x0 x1 x2) := by rintro _ _ ⟨⟩

theorem getVersion (x0 : Nat) : Statement (.getVersion x0) := by rintro _ _ ⟨⟩

theorem getCapabilities (x0 : Nat) : Statement (.getCapabilities x0) := by rintro _ _ ⟨⟩

theorem negotiateAlgorithms (x0 : Nat) (x1 : List Nat) : Statement (.negotiateAlgorithms x0 x1) := by rintro _ _ ⟨⟩

theorem getDigests (x0 : Nat) : Statement (.getDigests x0) := by rintro _ _ ⟨⟩

theorem getCertificate (x0 : Nat) (x1 : Nat) : Statement (.getCertificate x0 x1) := by rintro _ _ ⟨⟩

theorem challenge (x0 : Nat) (x1 : Word) : Statement (.challenge x0 x1) := by rintro _ _ ⟨⟩

theorem getMeasurements (x0 : Nat) (x1 : Nat) (x2 : Word) : Statement (.getMeasurements x0 x1 x2) := by rintro _ _ ⟨⟩

theorem keyExchange (x0 : Nat) (x1 : Word) : Statement (.keyExchange x0 x1) := by rintro _ _ ⟨⟩

theorem finish (x0 : Nat) (x1 : Word) : Statement (.finish x0 x1) := by rintro _ _ ⟨⟩

theorem keyUpdate (x0 : Nat) : Statement (.keyUpdate x0) := by rintro _ _ ⟨⟩

theorem heartbeat (x0 : Nat) : Statement (.heartbeat x0) := by rintro _ _ ⟨⟩

theorem endSession (x0 : Nat) : Statement (.endSession x0) := by rintro _ _ ⟨⟩

theorem vendorDefined (x0 : Nat) (x1 : Nat) (x2 : Vec) : Statement (.vendorDefined x0 x1 x2) := by rintro _ _ ⟨⟩

theorem ideKm (x0 : Nat) (x1 : Nat) (x2 : Vec) : Statement (.ideKm x0 x1 x2) := by rintro _ _ ⟨⟩

end Sys2Proof.Laws.RoundTrip
end

