-- ==== Sys2Proof/Laws/Region.lean ====
section
/-! SUPPORT. What an abort and a settling of the Virga unit change, and what they leave (R163, R171 to R174). -/

namespace Sys2Proof.Machine

/-- No line keeps a version or a read mark of a slot. -/
def Virga.NoTrace (v : Virga) (slot : Nat) : Prop :=
  ∀ e ∈ v.lines, (∀ y ∈ e.2.versions, y.slot ≠ slot) ∧ slot ∉ e.2.marks

/-- Fibres come and go in neither state, and differ at most in the answer they hold. -/
def State.OnlyAnswers (s t : State) : Prop :=
  ∀ n, (s.fibre? n = none → t.fibre? n = none)
    ∧ ∀ f, s.fibre? n = some f → ∃ a, t.fibre? n = some { f with answer := a }

theorem OnlyAnswers_refl (s : State) : s.OnlyAnswers s := fun _ => ⟨id, fun f h => ⟨f.answer, h⟩⟩

theorem OnlyAnswers_trans {s t u : State} (h : s.OnlyAnswers t) (k : t.OnlyAnswers u) : s.OnlyAnswers u := by
  intro n
  refine ⟨fun hn => (k n).1 ((h n).1 hn), fun f hf => ?_⟩
  obtain ⟨a, ha⟩ := (h n).2 f hf
  obtain ⟨b, hb⟩ := (k n).2 _ ha
  exact ⟨b, hb⟩

theorem noTrace_dropLines_same (v : Virga) (slot : Nat) : (v.dropLines slot).NoTrace slot := by
  intro e he
  simp only [Virga.dropLines, Dict.mapV, List.mem_filter, List.mem_map] at he
  obtain ⟨⟨d, hd, rfl⟩, _⟩ := he
  refine ⟨fun y hy => ?_, fun hm => ?_⟩
  · simpa using (List.mem_filter.mp hy).2
  · simpa using (List.mem_filter.mp hm).2

theorem noTrace_dropLines {v : Virga} {slot : Nat} (n : Nat) (h : v.NoTrace slot) : (v.dropLines n).NoTrace slot := by
  intro e he
  simp only [Virga.dropLines, Dict.mapV, List.mem_filter, List.mem_map] at he
  obtain ⟨⟨d, hd, rfl⟩, _⟩ := he
  exact ⟨fun y hy => (h d hd).1 y (List.mem_filter.mp hy).1, fun hm => (h d hd).2 (List.mem_filter.mp hm).1⟩

theorem get?_mapV {α β : Type} (d : Dict α) (f : α → β) (k : Nat) : (Dict.mapV d f).get? k = (d.get? k).map f := by
  induction d with
  | nil => rfl
  | cons x d ih =>
    simp only [Dict.mapV, List.map_cons] at *
    by_cases hx : x.1 = k
    · simp [Dict.get?, hx]
    · simp only [Dict.get?, hx] at *
      simpa using ih

theorem get?_removeSlot_same (v : Virga) (slot : Nat) : (v.removeSlot slot).slots.get? slot = none := by
  simp [Virga.removeSlot, get?_mapV]

theorem get?_removeSlot_none {v : Virga} {n : Nat} (slot : Nat) (h : v.slots.get? n = none) :
    (v.removeSlot slot).slots.get? n = none := by
  by_cases hn : n = slot
  · subst hn; exact get?_removeSlot_same v n
  · simp [Virga.removeSlot, get?_mapV, Dict.get?_erase_other _ _ _ hn, h]

theorem get?_modify_none {α : Type} {d : Dict α} {n : Nat} (k : Nat) (f : α → α) (h : d.get? n = none) :
    (d.modify k f).get? n = none := by
  unfold Dict.modify
  split
  · rename_i v hv
    by_cases hn : n = k
    · subst hn; simp [h] at hv
    · rw [Dict.get?_put_other _ _ _ _ hn]; exact h
  · exact h

theorem get?_map_none {α : Type} (d : Dict α) (f : Nat × α → α) (n : Nat) (h : d.get? n = none) :
    Dict.get? (d.map (fun e => (e.1, f e))) n = none := by
  induction d with
  | nil => rfl
  | cons x d ih =>
    obtain ⟨k, v⟩ := x
    simp only [Dict.get?, List.map_cons] at *
    by_cases hx : k = n
    · simp [hx] at h
    · simp only [hx, if_false] at *; exact ih h

theorem get?_ne_none_of_mem {α : Type} {d : Dict α} {e : Nat × α} (h : e ∈ d) : d.get? e.1 ≠ none := by
  induction d with
  | nil => simp at h
  | cons x d ih =>
    obtain ⟨k, v⟩ := x
    simp only [Dict.get?]
    by_cases hx : k = e.1
    · simp [hx]
    · simp only [hx, if_false]
      rcases List.mem_cons.mp h with rfl | h
      · exact absurd rfl hx
      · exact ih h

/-- Settling changes the states of slots, the commit order and waiting times (R163, R171, R174). -/
theorem settle_keeps (s : State) : ∃ v, s.settle = { s with virga := v } ∧ v.lines = s.virga.lines
    ∧ (∀ n, s.virga.slots.get? n = none → v.slots.get? n = none)
    ∧ (∀ n, s.virga.slots.get? n = none → n ∉ s.virga.commits → n ∉ v.commits) := by
  refine ⟨_, rfl, ?_, ?_, ?_⟩
  · simp only [Virga.timers, Virga.promote]
    generalize List.map Prod.fst _ = l
    generalize s.virga = v
    induction l generalizing v with
    | nil => rfl
    | cons x l ih => rw [List.foldl_cons]; exact ih _
  · intro n hn
    have key : ∀ (l : List Nat) (v : Virga), v.slots.get? n = none →
        (l.foldl (fun (v : Virga) n => { v with slots := v.slots.modify n (fun x => { x with state := .committing })
                                                commits := v.commits ++ [n] }) v).slots.get? n = none := by
      intro l
      induction l with
      | nil => intro v h; exact h
      | cons x l ih => intro v h; rw [List.foldl_cons]; exact ih _ (get?_modify_none _ _ h)
    unfold Virga.timers Virga.promote
    refine get?_map_none _ _ _ ?_
    exact key ((s.virga.slots.filter (fun e => s.virga.mayCommit e.1 e.2)).map Prod.fst) s.virga hn
  · intro n hn hc
    have key : ∀ (l : List Nat) (v : Virga), n ∉ l → n ∉ v.commits →
        n ∉ (l.foldl (fun (v : Virga) n => { v with slots := v.slots.modify n (fun x => { x with state := .committing })
                                                    commits := v.commits ++ [n] }) v).commits := by
      intro l
      induction l with
      | nil => intro v _ h; exact h
      | cons x l ih =>
        intro v hl h
        rw [List.foldl_cons]
        refine ih _ (fun h' => hl (List.mem_cons_of_mem _ h')) ?_
        simp only [List.mem_append, List.mem_singleton, not_or]
        exact ⟨h, fun h' => hl (by simp [h'])⟩
    unfold Virga.timers Virga.promote
    refine key _ _ ?_ hc
    intro hm
    simp only [List.mem_map, List.mem_filter] at hm
    obtain ⟨e, ⟨he, _⟩, rfl⟩ := hm
    exact get?_ne_none_of_mem he hn

theorem answerFibre_only (s : State) (fid code : Nat) : s.OnlyAnswers (s.answerFibre fid code) := by
  intro n
  simp only [State.answerFibre, fibre?_modFibre]
  by_cases hn : n = fid
  · subst hn
    simp only [if_true]
    exact ⟨fun h => by simp [h], fun f h => ⟨some code, by simp [h]⟩⟩
  · simp only [hn, if_false]
    exact ⟨id, fun f h => ⟨f.answer, h⟩⟩

theorem answerFibre_keeps (s : State) (fid code : Nat) : ∃ fs, s.answerFibre fid code = { s with fibres := fs } := by
  unfold State.answerFibre State.modFibre
  split
  · exact ⟨_, rfl⟩
  · exact ⟨s.fibres, rfl⟩

/-- Edges change no line, and no free slot is taken by them (R170). -/
theorem addEdges_keeps (v : Virga) (y : Nat) (before fwd : List Nat) :
    (v.addEdges y before fwd).lines = v.lines
    ∧ ∀ n, v.slots.get? n = none → (v.addEdges y before fwd).slots.get? n = none := by
  unfold Virga.addEdges
  generalize before ++ fwd = l
  induction l generalizing v with
  | nil => exact ⟨rfl, fun _ h => h⟩
  | cons x l ih =>
    rw [List.foldl_cons]
    split
    · exact ih v
    · rename_i sl hs
      have hput : ∀ (w : Slot) n, v.slots.get? n = none → (v.slots.put y w).get? n = none := fun w n hn => by
        rw [Dict.get?_put_other _ _ _ _ (fun e => by rw [e, hs] at hn; cases hn)]; exact hn
      dsimp only
      split
      · obtain ⟨h1, h2⟩ := ih { v with slots := v.slots.put y { sl with
            preds := sl.preds.map (fun p => if p.1 = x then (x, p.2 || fwd.contains x) else p) } }
        exact ⟨h1, fun n hn => h2 n (hput _ n hn)⟩
      · refine ⟨(ih _).1, fun n hn => (ih _).2 n (hput _ n hn)⟩

/-- An abort changes fibres, the Virga unit and counters; of the fibres only the answers (R172). -/
theorem abortIn_keeps (fuel : Nat) (s : State) (slot cause : Nat) :
    (∃ fs v c, State.abortIn fuel s slot cause = { s with fibres := fs, virga := v, ctl := c })
    ∧ s.OnlyAnswers (State.abortIn fuel s slot cause)
    ∧ (∀ n, s.virga.NoTrace n → (State.abortIn fuel s slot cause).virga.NoTrace n)
    ∧ (∀ n, s.virga.slots.get? n = none → (State.abortIn fuel s slot cause).virga.slots.get? n = none) := by
  induction fuel generalizing s slot cause with
  | zero => exact ⟨⟨_, _, _, rfl⟩, OnlyAnswers_refl s, fun _ h => h, fun _ h => h⟩
  | succ fuel ih =>
    unfold State.abortIn
    split
    · exact ⟨⟨_, _, _, rfl⟩, OnlyAnswers_refl s, fun _ h => h, fun _ h => h⟩
    · rename_i x hx
      split
      · simp only
        have hfold : ∀ (l : List Nat) (t : State),
            (∃ fs v c, l.foldl (fun s d => State.abortIn fuel s d 2) t = { t with fibres := fs, virga := v, ctl := c })
            ∧ t.OnlyAnswers (l.foldl (fun s d => State.abortIn fuel s d 2) t)
            ∧ (∀ n, t.virga.NoTrace n → (l.foldl (fun s d => State.abortIn fuel s d 2) t).virga.NoTrace n)
            ∧ (∀ n, t.virga.slots.get? n = none →
                (l.foldl (fun s d => State.abortIn fuel s d 2) t).virga.slots.get? n = none) := by
          intro l
          induction l with
          | nil => intro t; exact ⟨⟨_, _, _, rfl⟩, OnlyAnswers_refl t, fun _ h => h, fun _ h => h⟩
          | cons d l ihl =>
            intro t
            rw [List.foldl_cons]
            obtain ⟨⟨a, b, c, h1⟩, h2, h3, h4⟩ := ih t d 2
            obtain ⟨⟨a', b', c', k1⟩, k2, k3, k4⟩ := ihl (State.abortIn fuel t d 2)
            exact ⟨⟨a', b', c', by rw [k1, h1]⟩, OnlyAnswers_trans h2 k2, fun n h => k3 n (h3 n h), fun n h => k4 n (h4 n h)⟩
        generalize hs1 : s.modVirga (fun v =>
          { v with slots := v.slots.put slot { x with state := .aborting } }.dropLines slot) = s1
        generalize ((s1.virga.slots.filter (fun e => e.2.preds.contains (slot, true))).map Prod.fst) = deps
        obtain ⟨⟨a, b, c, h1⟩, h2, h3, h4⟩ := hfold deps s1
        generalize hs2 : deps.foldl (fun s d => State.abortIn fuel s d 2) s1 = s2 at h1 h2 h3 h4 ⊢
        obtain ⟨fs, k1⟩ := answerFibre_keeps (s2.modVirga (fun v => v.removeSlot slot)) x.fid cause
        have k2 := answerFibre_only (s2.modVirga (fun v => v.removeSlot slot)) x.fid cause
        obtain ⟨d, e1⟩ := countSector_keeps 12 12 1 ((s2.modVirga (fun v => v.removeSlot slot)).answerFibre x.fid cause)
        rw [e1]
        refine ⟨⟨fs, b.removeSlot slot, d, ?_⟩, ?_, ?_, ?_⟩
        · rw [k1, h1, ← hs1]; rfl
        · have : s.OnlyAnswers s1 := by rw [← hs1]; exact OnlyAnswers_refl s
          exact OnlyAnswers_trans this (OnlyAnswers_trans h2 k2)
        · intro n hn
          have : s1.virga.NoTrace n := by rw [← hs1]; exact noTrace_dropLines (v := { s.virga with slots := _ }) slot hn
          have := h3 n this
          rw [k1]
          intro e he
          exact this e he
        · intro n hn
          have hne : n ≠ slot := fun h => by rw [h, hx] at hn; cases hn
          have : s1.virga.slots.get? n = none := by
            rw [← hs1]
            simpa [State.modVirga, Virga.dropLines, Dict.get?_put_other _ _ _ _ hne] using hn
          have := h4 n this
          rw [k1]
          exact get?_removeSlot_none slot this
      · exact ⟨⟨_, _, _, rfl⟩, OnlyAnswers_refl s, fun _ h => h, fun _ h => h⟩

/-- The region in an OPEN or ENDED slot aborts: its slot is free, no line keeps a trace of it, and its fibre is answered
with the cause (R172, R173). -/
theorem abortSlot_spec (s : State) (slot cause : Nat) (x : Slot) (h : s.virga.slots.get? slot = some x)
    (ho : x.state = .opened ∨ x.state = .ended) :
    (∃ fs v c, s.abortSlot slot cause = { s with fibres := fs, virga := v, ctl := c })
    ∧ (s.abortSlot slot cause).virga.slots.get? slot = none ∧ (s.abortSlot slot cause).virga.NoTrace slot
    ∧ s.OnlyAnswers (s.abortSlot slot cause)
    ∧ (∀ g, s.fibre? x.fid = some g → (s.abortSlot slot cause).fibre? x.fid = some { g with answer := some cause }) := by
  have hk := abortIn_keeps 513 s slot cause
  obtain ⟨v', e1, e2, e3, _⟩ := settle_keeps (State.abortIn 513 s slot cause)
  unfold State.abortSlot
  obtain ⟨⟨a, b, c, h1⟩, h2, h3, h4⟩ := hk
  have main : (State.abortIn 513 s slot cause).virga.slots.get? slot = none
      ∧ (State.abortIn 513 s slot cause).virga.NoTrace slot
      ∧ (∀ g, s.fibre? x.fid = some g →
        (State.abortIn 513 s slot cause).fibre? x.fid = some { g with answer := some cause }) := by
    unfold State.abortIn
    simp only [h, if_pos ho]
    generalize hs1 : s.modVirga (fun v =>
      { v with slots := v.slots.put slot { x with state := .aborting } }.dropLines slot) = s1
    generalize ((s1.virga.slots.filter (fun e => e.2.preds.contains (slot, true))).map Prod.fst) = deps
    have hfold : ∀ (l : List Nat) (t : State), t.OnlyAnswers (l.foldl (fun s d => State.abortIn 512 s d 2) t)
        ∧ (∀ n, t.virga.NoTrace n → (l.foldl (fun s d => State.abortIn 512 s d 2) t).virga.NoTrace n) := by
      intro l
      induction l with
      | nil => intro t; exact ⟨OnlyAnswers_refl t, fun _ h => h⟩
      | cons d l ihl =>
        intro t
        rw [List.foldl_cons]
        obtain ⟨_, k2, k3, _⟩ := abortIn_keeps 512 t d 2
        obtain ⟨m2, m3⟩ := ihl (State.abortIn 512 t d 2)
        exact ⟨OnlyAnswers_trans k2 m2, fun n h => m3 n (k3 n h)⟩
    obtain ⟨k2, k3⟩ := hfold deps s1
    generalize deps.foldl (fun s d => State.abortIn 512 s d 2) s1 = s2 at k2 k3 ⊢
    obtain ⟨fs, m1⟩ := answerFibre_keeps (s2.modVirga (fun v => v.removeSlot slot)) x.fid cause
    obtain ⟨d, m2⟩ := countSector_keeps 12 12 1 ((s2.modVirga (fun v => v.removeSlot slot)).answerFibre x.fid cause)
    rw [m2]
    refine ⟨?_, ?_, ?_⟩
    · rw [m1]; exact get?_removeSlot_same s2.virga slot
    · have : s1.virga.NoTrace slot := by rw [← hs1]; exact noTrace_dropLines_same _ slot
      rw [m1]
      intro e he
      exact k3 slot this e he
    · intro g hg
      have h0 : s.OnlyAnswers s1 := by rw [← hs1]; exact OnlyAnswers_refl s
      obtain ⟨w, hw⟩ := (OnlyAnswers_trans h0 k2 x.fid).2 g hg
      have : (s2.modVirga (fun v => v.removeSlot slot)).fibre? x.fid = some { g with answer := w } := hw
      show (State.answerFibre _ _ _).fibre? x.fid = _
      simp [State.answerFibre, fibre?_modFibre, this]
  refine ⟨⟨a, v', c, by rw [e1, h1]⟩, ?_, ?_, ?_, ?_⟩
  · rw [e1]; exact e3 slot main.1
  · rw [e1]; intro e he; exact main.2.1 e (by rw [← e2]; exact he)
  · rw [e1]; exact h2
  · rw [e1]; exact main.2.2

end Sys2Proof.Machine
end

