-- ==== Sys2Proof/Machine/Assembly.lean ====
section
/-! DEFINITION. The assembly language: tokens, instruction lines, directives, expressions, and the object that an assembly
gives (R7, R39, R42, R240, R309 to R313). -/

namespace Sys2Proof.Machine

/-! ### Tokens (R309) -/

/-- A decimal number m * 10^e, before its rounding. -/
structure Decimal where
  m : Nat
  e : Int
  deriving DecidableEq, Repr

/-- A token; a directive is a `.` and an identifier, and the marks are `: , = # ( ) + -`. -/
inductive Tok where
  | name (s : String)
  | dir (s : String)
  | num (n : Nat)
  | flt (d : Decimal)
  | mark (c : Char)
  | arrow
  deriving DecidableEq, Repr

def isLetter (c : Char) : Bool := ('a' ≤ c && c ≤ 'z') || ('A' ≤ c && c ≤ 'Z') || c == '_'
def isNameChar (c : Char) : Bool := isLetter c || c.isDigit || c == '.' || c == '$'
def isMark (c : Char) : Bool := [':', ',', '=', '#', '(', ')', '+', '-'].contains c

/-- The digits of base 16 in the order of their values; the letters may be small or capital (R309). -/
def digitRows : List (List Char) := ["0123456789abcdef".toList, "0123456789ABCDEF".toList]

/-- The value of a hexadecimal digit: its place among the digits. -/
def hexDigit (c : Char) : Option Nat := digitRows.findSome? (fun row => row.findIdx? (· == c))

/-- The number that the digits of a base spell; `_` is ignored. -/
def digits (base : Nat) (cs : List Char) : Nat :=
  cs.foldl (fun n c => match hexDigit c with | some d => n * base + d | none => n) 0

/-- A number or a float: its text up to the first character that cannot be its part, and what follows. -/
def lexNumber (cs : List Char) : Tok × List Char :=
  let dec := fun (l : List Char) => l.span (fun c => c.isDigit || c == '_')
  match cs with
  | '0' :: 'x' :: rest =>
    let h := rest.span (fun c => (hexDigit c).isSome || c == '_')
    (.num (digits 16 h.1), h.2)
  | _ =>
    let whole := dec cs
    let frac := match whole.2 with | '.' :: r => dec r | _ => ([], whole.2)
    let places := (frac.1.filter Char.isDigit).length
    let dotted := whole.2.head? == some '.'
    let m := digits 10 (whole.1 ++ frac.1)
    match frac.2 with
    | 'e' :: '-' :: r => (.flt { m := m, e := -(digits 10 (dec r).1 : Int) - places }, (dec r).2)
    | 'e' :: r => (.flt { m := m, e := (digits 10 (dec r).1 : Int) - places }, (dec r).2)
    | r => (if dotted then .flt { m := m, e := -(places : Int) } else .num m, r)

/-- The tokens of a line, `fuel` of them at most; a comment ends it. -/
def lexLine : Nat → List Char → Except ToolErr (List Tok)
  | 0, _ => .ok []
  | fuel + 1, cs =>
    match cs with
    | [] => .ok []
    | ';' :: _ => .ok []
    | '-' :: '>' :: rest => (lexLine fuel rest).map (Tok.arrow :: ·)
    | c :: rest =>
      if c == ' ' || c == '\t' then lexLine fuel rest
      else if isLetter c then
        let n := (c :: rest).span isNameChar
        (lexLine fuel n.2).map (Tok.name (String.ofList n.1) :: ·)
      else if c.isDigit then
        let n := lexNumber (c :: rest)
        (lexLine fuel n.2).map (n.1 :: ·)
      else if c == '.' then
        let n := rest.span isNameChar
        (lexLine fuel n.2).map (Tok.dir (String.ofList n.1) :: ·)
      else if isMark c then (lexLine fuel rest).map (Tok.mark c :: ·)
      else .error .form

/-- A line's tokens. -/
def tokens (s : String) : Except ToolErr (List Tok) := lexLine (s.length + 1) s.toList

/-! ### Expressions (R313) -/

/-- Which bits of a value an expression yields. -/
inductive ExprPart where
  | whole | lo28 | hi36
  deriving DecidableEq, Repr

/-- A number, or a symbol plus or minus a number, or bits of one. -/
structure Expr where
  part : ExprPart
  symbol : Option String
  add : Int
  deriving DecidableEq, Repr

/-- The bits of a value. -/
def ExprPart.of (p : ExprPart) (v : Int) : Int :=
  match p with
  | .whole => v
  | .lo28 => v % 2 ^ 28
  | .hi36 => v / 2 ^ 28 % 2 ^ 36

/-- A number with its sign. -/
def signedNum : List Tok → Option (Int × List Tok)
  | .num n :: r => some (n, r)
  | .mark '-' :: .num n :: r => some (-(n : Int), r)
  | _ => none

/-- A number, or a symbol with an addend. -/
def plainExpr (p : ExprPart) (ts : List Tok) : Option (Expr × List Tok) :=
  match ts with
  | .name s :: .mark '+' :: .num n :: r => some ({ part := p, symbol := some s, add := n }, r)
  | .name s :: .mark '-' :: .num n :: r => some ({ part := p, symbol := some s, add := -(n : Int) }, r)
  | .name s :: r => some ({ part := p, symbol := some s, add := 0 }, r)
  | _ => (signedNum ts).map (fun x => ({ part := p, symbol := none, add := x.1 }, x.2))

/-- An expression. -/
def parseExpr (ts : List Tok) : Option (Expr × List Tok) :=
  let inner := fun (p : ExprPart) (r : List Tok) => match plainExpr p r with
    | some (e, .mark ')' :: r) => some (e, r)
    | _ => none
  match ts with
  | .name "lo28" :: .mark '(' :: r => inner .lo28 r
  | .name "hi36" :: .mark '(' :: r => inner .hi36 r
  | _ => plainExpr .whole ts

/-- The symbols of an assembly and their values. -/
abbrev Symbols := List (String × Int)

/-- The value of a symbol, where one defines it. -/
def Symbols.value (syms : Symbols) (s : String) : Option Int := (syms.find? (fun e => e.1 == s)).map (·.2)

/-- The value of an expression: none while its symbol is not defined. -/
def Expr.value (e : Expr) (syms : Symbols) : Option Int :=
  match e.symbol with
  | none => some (e.part.of e.add)
  | some s => (syms.value s).map (fun v => e.part.of (v + e.add))

/-! ### Operands (R310) -/

/-- An operand. -/
inductive Opnd where
  | g (n : BitVec 6)
  | v (n : BitVec 5)
  | sys (n : BitVec 12)
  | acc (n : BitVec 3)
  | ls (n : BitVec 5)
  | exit (n : BitVec 3)
  | imm (e : Expr)
  | label (s : String)
  deriving DecidableEq, Repr

/-- The number after a register's letters, below a limit. -/
def regNumber (letters : String) (limit : Nat) (s : String) : Option Nat :=
  let cs := s.toList
  let ds := cs.drop letters.length
  if cs.take letters.length = letters.toList ∧ ds ≠ [] ∧ ds.all Char.isDigit ∧ digits 10 ds < limit
  then some (digits 10 ds) else none

/-- The names of the banked registers, from number 0x010 (R240). -/
def bankedNames : List String := ["tvec", "tcause", "tblock", "tidx", "taddr", "tstat", "tscratch"]

/-- The other names of R240 and their numbers. -/
def plainSysNames : List (String × Nat) :=
  [ ("fcsr", 0x000), ("srng", 0x001), ("fibre", 0x002), ("cell", 0x003), ("group", 0x004), ("rgnh", 0x005),
    ("step", 0x006), ("plev", 0x007), ("sdeleg", 0x020), ("mdeleg", 0x021), ("xroot", 0x030), ("xown", 0x031),
    ("xkeys", 0x032) ]

/-- The families of R240 that end in a number: first register and how many. -/
def numberedSysNames : List (String × Nat × Nat) :=
  [("ncbase", 0x040, 16), ("nclim", 0x050, 16), ("evsel", 0x080, 8), ("evcnt", 0x088, 8)]

/-- The bank suffix of R240. -/
def bankSuffix : List String → Option Nat
  | [] => some 0
  | ["a"] => some 1
  | ["s"] => some 2
  | ["m"] => some 3
  | _ => none

/-- R240: the number of the register whose name, cut at its dots, follows `s`. -/
def sysNumber : List String → Option Nat
  | [] => none
  | n :: rest =>
    match bankedNames.findIdx? (· == n) with
    | some i => (bankSuffix rest).map (fun b => 0x010 + i + 0x100 * b)
    | none =>
      if rest ≠ [] then none
      else match plainSysNames.find? (fun e => e.1 == n) with
        | some e => some e.2
        | none => numberedSysNames.findSome? (fun e => (regNumber e.1 e.2.2 n).map (e.2.1 + ·))

/-- A name cut at its dots. -/
def nameParts (s : String) : List String := (s.toList.splitOn '.').map String.ofList

/-- R310: what a name is as an operand. -/
def namedOpnd (s : String) : Opnd :=
  match regNumber "g" 64 s, regNumber "v" 32 s, regNumber "acc" 8 s, regNumber "ls" 32 s, regNumber "e" 8 s with
  | some n, _, _, _, _ => .g (BitVec.ofNat 6 n)
  | _, some n, _, _, _ => .v (BitVec.ofNat 5 n)
  | _, _, some n, _, _ => .acc (BitVec.ofNat 3 n)
  | _, _, _, some n, _ => .ls (BitVec.ofNat 5 n)
  | _, _, _, _, some n => .exit (BitVec.ofNat 3 n)
  | _, _, _, _, _ =>
    match nameParts s with
    | "s" :: rest => match sysNumber rest with
      | some n => .sys (BitVec.ofNat 12 n)
      | none => .label s
    | _ => .label s

/-- The operands of a line up to its arrow or end, `fuel` of them at most. -/
def parseOpnds : Nat → List Tok → Except ToolErr (List Opnd × List Tok)
  | 0, _ => .error .operand
  | fuel + 1, ts =>
    let one : Except ToolErr (Opnd × List Tok) := match ts with
      | .mark '#' :: r => match parseExpr r with
        | some (e, r) => .ok (.imm e, r)
        | none => .error .operand
      | .name s :: r => .ok (namedOpnd s, r)
      | _ => .error .operand
    match one with
    | .error e => .error e
    | .ok (o, .mark ',' :: r) => (parseOpnds fuel r).map (fun x => (o :: x.1, x.2))
    | .ok (o, r) => .ok ([o], r)

/-- R36: a target as it is written. -/
def targetOf (s : String) : Option Target :=
  match nameParts s with
  | [n, slot] => match regNumber "n" 128 n with
    | some k =>
      let j := BitVec.ofNat 7 k
      if slot = "l" then some (.l j) else if slot = "r" then some (.r j) else if slot = "p" then some (.p j) else none
    | none => none
  | _ => none

/-- The targets after an arrow. -/
def parseTargets : List Tok → Except ToolErr (List Target)
  | [.name s] => match targetOf s with
    | some t => .ok [t]
    | none => .error .operand
  | .name s :: .mark ',' :: r => match targetOf s with
    | some t => (parseTargets r).map (t :: ·)
    | none => .error .operand
  | _ => .error .operand

/-! ### Instruction lines (R310) -/

/-- An operand that a symbol fills: which field, and which symbol with its addend. -/
structure Fix where
  ty : RelocTy
  symbol : String
  add : Int
  deriving DecidableEq, Repr

/-- A line's instruction; `fix` is the field still open, and `auto` that its exit is to be chosen (R42). -/
structure Built where
  ins : Instr
  fix : Option Fix
  auto : Bool
  deriving DecidableEq, Repr

/-- What a line gives to an entry: its predicate, the suffixes after the mnemonic, operands, targets. -/
structure LineParts where
  pr : Pred
  suffix : List String
  ops : List Opnd
  ts : List Target
  deriving DecidableEq, Repr

/-- What the block around a line gives: its `.exits`, and the symbols whose values are known. -/
structure LineEnv where
  exits : List (Nat × String)
  syms : Symbols

abbrev Build := LineEnv → LineParts → Except ToolErr Built

/-- A finished instruction. -/
def done (i : Instr) : Except ToolErr Built := .ok { ins := i, fix := none, auto := false }

/-- At most `n` targets, filled up with none (R36, R310). -/
def padTargets (n : Nat) (ts : List Target) : Except ToolErr (Target × Target × Target × Target) :=
  if n < ts.length then .error .operand
  else .ok (ts.getD 0 .none, ts.getD 1 .none, ts.getD 2 .none, ts.getD 3 .none)

/-- The value of an immediate, within its range (R310). -/
def immIn (env : LineEnv) (e : Expr) (lo hi : Int) : Except ToolErr Int :=
  match e.value env.syms with
  | some v => if lo ≤ v ∧ v ≤ hi then .ok v else .error .range
  | none => .error .undefined

/-- No suffix, no operand. -/
def LineParts.bare (x : LineParts) : Except ToolErr Unit :=
  if x.suffix = [] ∧ x.ops = [] then .ok () else .error .operand

def ofTargets (n : Nat) (c : Pred → Target → Target → Target → Target → Instr) : Build := fun _ x => do
  x.bare
  let (a, b, d, e) ← padTargets n x.ts
  done (c x.pr a b d e)

/-- `mnemonic -> t0, t1` (R68). -/
def form2 (c : Pred → Target → Target → Instr) : Build := ofTargets 2 (fun p a b _ _ => c p a b)

/-- No slots written and no targets. -/
def form0 (c : Pred → Instr) : Build := ofTargets 0 (fun p _ _ _ _ => c p)

/-- `nop` and `xop`: no predicate. -/
def formBare (i : Instr) : Build := fun env x =>
  if x.pr = .always then form0 (fun _ => i) env x else .error .operand

/-- `read gN -> t0, t1` (R45). -/
def formRead (c : Pred → BitVec 6 → Target → Target → Instr) : Build := fun env x =>
  match x.ops with
  | [.g n] => form2 (fun p => c p n) env { x with ops := [] }
  | _ => .error .operand

/-- `vread vN -> t0, t1` (R45). -/
def formVread (c : Pred → BitVec 5 → Target → Target → Instr) : Build := fun env x =>
  match x.ops with
  | [.v n] => form2 (fun p => c p n) env { x with ops := [] }
  | _ => .error .operand

/-- An immediate in [lo, hi] that fills a field of `n` bits; further operands are refused. -/
def formImm (n : Nat) (lo hi : Int) (targets : Nat) (c : Pred → BitVec n → Target → Target → Instr) : Build :=
  fun env x => match x.ops with
  | [.imm e] => do
    let v ← immIn env e lo hi
    ofTargets targets (fun p a b _ _ => c p (BitVec.ofInt n v) a b) env { x with ops := [] }
  | _ => .error .operand

/-- A 24-bit signed immediate and one target (R76, R78). -/
def form24 (c : Pred → BitVec 24 → Target → Instr) : Build :=
  formImm 24 (-8388608) 8388607 1 (fun p v a _ => c p v a)

/-- A shift amount (R76). -/
def formShift (c : Pred → BitVec 6 → Target → Instr) : Build := formImm 6 0 63 1 (fun p v a _ => c p v a)

/-- `scall #code` (R64). -/
def formCode (c : Pred → BitVec 24 → Instr) : Build := formImm 24 0 0xFFFFFF 0 (fun p v _ _ => c p v)

/-- `genc` and `genh`, whose immediate a symbol may fill (R50, R313). -/
def formConst (lo hi : Int) (part : ExprPart) (ty : RelocTy) (c : Pred → BitVec 36 → Target → Target → Instr) : Build :=
  fun env x => match x.ops with
  | [.imm e] =>
    match e.value env.syms, e.symbol with
    | none, some s =>
      if e.part = part then
        (ofTargets 2 (fun p a b _ _ => c p 0 a b) env { x with ops := [] }).map
          (fun b => { b with fix := some { ty := ty, symbol := s, add := e.add } })
      else .error .undefined
    | _, _ => formImm 36 lo hi 2 c env x
  | _ => .error .operand

/-- `bfx #pos, #len -> t0` (R73). -/
def formField (c : Pred → BitVec 6 → BitVec 6 → Target → Instr) : Build := fun env x =>
  match x.ops with
  | [.imm p, .imm l] => do
    let pos ← immIn env p 0 63
    let len ← immIn env l 1 64
    if 64 < pos + len then .error .range
    else ofTargets 1 (fun q a _ _ _ => c q (BitVec.ofInt 6 pos) (BitVec.ofInt 6 (len - 1)) a) env { x with ops := [] }
  | _ => .error .operand

/-- `lea #disp, #sh -> t0` (R74). -/
def formLea : Build := fun env x =>
  match x.ops with
  | [.imm d, .imm s] => do
    let disp ← immIn env d (-2097152) 2097151
    let sh ← immIn env s 0 3
    ofTargets 1 (fun p a _ _ _ => .lea p (BitVec.ofInt 2 sh) (BitVec.ofInt 22 disp) a) env { x with ops := [] }
  | _ => .error .operand

/-- The meaning of one suffix, looked up in a list. -/
def suffixIn {α : Type} (names : List (String × α)) (s : String) : Except ToolErr α :=
  match names.find? (fun e => e.1 == s) with
  | some e => .ok e.2
  | none => .error .operand

/-- The first suffix, looked up, and the line without it. -/
def takeSuffix {α : Type} (names : List (String × α)) (x : LineParts) : Except ToolErr (α × LineParts) :=
  match x.suffix with
  | s :: r => (suffixIn names s).map (·, { x with suffix := r })
  | [] => .error .operand

def extNames : List (String × ExtW) := [("b", .b), ("h", .h), ("w", .w)]
def tyNames : List (String × Ty) := [("s", .s), ("d", .d), ("vs", .vs), ("vd", .vd)]
def dblNames : List (String × Bool) := [("s", false), ("d", true)]
def cvtNames : List (String × CvtTy) := [("s", .s), ("d", .d), ("l", .l), ("lu", .lu), ("w", .w), ("wu", .wu)]
def laneNames : List (String × Lane) := [("b", .b8), ("h", .b16), ("w", .b32), ("d", .b64)]
def wdNames : List (String × WD) := [("w", .w), ("d", .d)]
def redNames : List (String × VRedOp) :=
  [ ("add", .add), ("and", .and), ("or", .or), ("xor", .xor), ("min", .min), ("max", .max), ("minu", .minu),
    ("maxu", .maxu), ("fadd", .fadd), ("fmin", .fmin), ("fmax", .fmax) ]
def relNames : List (String × VCmpOp) :=
  [ ("eq", .eq), ("ne", .ne), ("lt", .lt), ("le", .le), ("ltu", .ltu), ("leu", .leu), ("feq", .feq), ("flt", .flt),
    ("fle", .fle) ]
def scopeNames : List (String × Scope) :=
  [("fibre", .fibre), ("cell", .cell), ("group", .group), ("die", .die), ("module", .module), ("system", .system)]
def orderNames : List (String × Order) := [("rlx", .rlx), ("acq", .acq), ("rel", .rel), ("ar", .ar)]
def fenceNames : List (String × Order) := [("sc", .rlx), ("acq", .acq), ("rel", .rel), ("ar", .ar)]
/-- The format suffixes of R276 and their tags. -/
def formatNames : List (String × BitVec 3) :=
  [ ("bf16", 0), ("f16", 1), ("e4m3", 2), ("e5m2", 3), ("e2m1", 4), ("int8", 5), ("f32", 6), ("raw", 7) ]
def roundNames : List (String × NRound) := [("rne", .rne), ("rtz", .rtz), ("sr", .sr)]
def mstNames : List (String × MstFmt) := [("bf16", .bf16), ("f16", .fp16), ("f32", .fp32)]

/-- A form with one suffix of its own and two targets. -/
def formSuffix {α : Type} (names : List (String × α)) (c : Pred → α → Target → Target → Instr) : Build := fun env x => do
  let (a, x) ← takeSuffix names x
  form2 (fun p => c p a) env x

/-- `vred.op.W`, `vcmp.rel.W` and `fcvt.dst.src` (R91, R93). -/
def formSuffixes {α β : Type} (as : List (String × α)) (bs : List (String × β))
    (c : Pred → α → β → Target → Target → Instr) : Build := fun env x => do
  let (a, x) ← takeSuffix as x
  let (b, x) ← takeSuffix bs x
  form2 (fun p => c p a b) env x

/-- `vext.W #lane -> t0` (R93). -/
def formLane (c : Pred → Lane → BitVec 6 → Target → Instr) : Build := fun env x => do
  let (w, x) ← takeSuffix laneNames x
  formImm 6 0 63 1 (fun p v a _ => c p w v a) env x

/-- The ordering and scope suffixes (R39): both may be left out, and relaxed order has scope 0 (R54). An ordering without
a scope has SCOPE 0 (log 68). -/
def takeOrder (x : LineParts) : Except ToolErr (Order × Scope) :=
  match x.suffix with
  | [] => .ok (.rlx, .fibre)
  | [o] => (suffixIn orderNames o).map (·, .fibre)
  | [o, s] => do
    let ord ← suffixIn orderNames o
    let scope ← suffixIn scopeNames s
    .ok (ord, if ord = .rlx then .fibre else scope)
  | _ => .error .operand

/-- `lsN, #off` after the suffixes: the fields of a memory word (R41, R52). -/
def takeMem (env : LineEnv) (x : LineParts) : Except ToolErr MemF := do
  let (ord, scope) ← takeOrder x
  match x.ops with
  | [.ls n, .imm e] => do
    let off ← immIn env e (-2097152) 2097151
    .ok { lsid := n, scope := scope, ord := ord, off := BitVec.ofInt 22 off }
  | _ => .error .operand

/-- A memory instruction with `n` targets. -/
def formMem (n : Nat) (c : Pred → MemF → Target → Target → Instr) : Build := fun env x => do
  let m ← takeMem env x
  ofTargets n (fun p a b _ _ => c p m a b) env { x with suffix := [], ops := [] }

/-- `vld` and `vld.fmt` (R129). -/
def formVld : Build := fun env x =>
  match x.suffix with
  | "fmt" :: r => formMem 2 (fun p => .vld p true) env { x with suffix := r }
  | _ => formMem 2 (fun p => .vld p false) env x

/-- A memory instruction whose first suffix is its width (R131, R140). -/
def formMemW (n : Nat) (c : Pred → WD → MemF → Target → Target → Instr) : Build := fun env x => do
  let (w, x) ← takeSuffix wdNames x
  formMem n (fun p => c p w) env x

/-- `amo.fadd.w`: width .w alone (R142). -/
def formFadd : Build := fun env x => do
  let (_, x) ← takeSuffix [("w", ())] x
  formMem 2 .amoFadd env x

/-- `pf lsN, #off` (R134). -/
def formPf : Build := fun env x => do
  if x.suffix ≠ [] then .error .operand
  else
    let m ← takeMem env x
    form0 (fun p => .pf p m.lsid m.off) env { x with ops := [] }

/-- `cinv lsN` and `cwb lsN` (R136). -/
def formLs (c : Pred → BitVec 5 → Instr) : Build := fun env x =>
  match x.ops with
  | [.ls n] => form0 (fun p => c p n) env { x with ops := [] }
  | _ => .error .operand

/-- `fence.ord.scope lsN` (R139): a fence names a scope. -/
def formFence : Build := fun env x => do
  let (o, x) ← takeSuffix fenceNames x
  let (s, x) ← takeSuffix scopeNames x
  formLs (fun p n => .fence p n s o) env x

/-- `br eN` and `br eN, label` (R60, R310). -/
def formBr (c : Pred → BitVec 3 → BitVec 33 → Instr) : Build := fun env x =>
  let go := fun (e : BitVec 3) (s : String) =>
    (form0 (fun p => c p e 0) env { x with ops := [] }).map
      (fun b => { b with fix := some { ty := .boff33, symbol := s, add := 0 } })
  let listed := fun (e : BitVec 3) => (env.exits.find? (fun y => y.1 == e.toNat)).map (·.2)
  match x.ops with
  | [.exit e] => match listed e with
    | some s => go e s
    | none => .error .exit
  | [.exit e, .label s] => match listed e with
    | some t => if t = s then go e s else .error .exit
    | none => go e s
  | _ => .error .operand

/-- `bri`, `calli`, `ret` and `halt`, whose exit may be left out (R42); one that is named has to be listed (R7). -/
def formExit (c : Pred → BitVec 3 → Instr) : Build := fun env x =>
  match x.ops with
  | [.exit e] =>
    if env.exits.any (fun y => y.1 == e.toNat) then form0 (fun p => c p e) env { x with ops := [] } else .error .exit
  | [] => (form0 (fun p => c p 0) env x).map (fun b => { b with auto := true })
  | _ => .error .operand

/-- `rgn.beg label, gN`; an exit that `.exits` binds may stand for the label (R178, R311). -/
def formRgnBeg : Build := fun env x =>
  let go := fun (s : String) (r : BitVec 6) =>
    (form0 (fun p => .rgnBeg p r 0) env { x with ops := [] }).map
      (fun b => { b with fix := some { ty := .xoff23, symbol := s, add := 0 } })
  match x.ops with
  | [.label s, .g r] => go s r
  | [.exit e, .g r] => match env.exits.find? (fun y => y.1 == e.toNat) with
    | some y => go y.2 r
    | none => .error .exit
  | _ => .error .operand

/-- `bar.init #b, #k` (R203). -/
def formBarInit : Build := fun env x =>
  match x.ops with
  | [.imm b, .imm k] => do
    let bar ← immIn env b 0 15
    let ahead ← immIn env k 1 4
    form0 (fun p => .barInit p (BitVec.ofInt 4 bar) (BitVec.ofInt 2 (ahead - 1))) env { x with ops := [] }
  | _ => .error .operand

/-- A scope suffix, or none for FIBRE (R203). -/
def formScope (n : Nat) (c : Pred → Scope → Target → Target → Instr) : Build := fun env x => do
  let (s, x) ← if x.suffix = [] then Except.ok (Scope.fibre, x) else takeSuffix scopeNames x
  ofTargets n (fun p a b _ _ => c p s a b) env x

/-- `cpy gN` (R229). -/
def formSreg (c : Pred → BitVec 6 → Instr) : Build := fun env x =>
  match x.ops with
  | [.g n] => form0 (fun p => c p n) env { x with ops := [] }
  | _ => .error .operand

/-- K of R276: a multiple of 16 from 16 to 2,048, as KQ. -/
def takeK (env : LineEnv) (e : Expr) : Except ToolErr (BitVec 7) := do
  let k ← immIn env e 16 2048
  if k % 16 = 0 then .ok (BitVec.ofInt 7 (k / 16 - 1)) else .error .range

/-- `mma accN, gS, #K` (R276). -/
def formMma (c : Pred → BitVec 6 → BitVec 3 → BitVec 7 → Instr) : Build := fun env x =>
  match x.ops with
  | [.acc a, .g s, .imm k] => do
    let kq ← takeK env k
    form0 (fun p => c p s a kq) env { x with ops := [] }
  | _ => .error .operand

/-- `mring accN, gS, #n, #K` (R276). -/
def formRing : Build := fun env x =>
  match x.ops with
  | [.acc a, .g s, .imm n, .imm k] => do
    let m ← immIn env n 2 8
    let kq ← takeK env k
    let go := fun (r : RingN) => form0 (fun p => .mring p s a r kq) env { x with ops := [] }
    if m = 2 then go .two else if m = 4 then go .four else if m = 8 then go .eight else .error .range
  | _ => .error .operand

/-- `mzero accN` (R276). -/
def formAcc (c : Pred → BitVec 3 → Instr) : Build := fun env x =>
  match x.ops with
  | [.acc a] => form0 (fun p => c p a) env { x with ops := [] }
  | _ => .error .operand

/-- `mld accN, gS` (R276). -/
def formTile (c : Pred → BitVec 6 → BitVec 3 → Instr) : Build := fun env x =>
  match x.ops with
  | [.acc a, .g s] => form0 (fun p => c p s a) env { x with ops := [] }
  | _ => .error .operand

/-- `mst.fmt accN, gS` (R276). -/
def formMst : Build := fun env x => do
  let (f, x) ← takeSuffix mstNames x
  formTile (fun p => .mst p f) env x

/-- `cmtag.fmt[.scale]` (R276). -/
def formCmtag : Build := fun env x => do
  let (t, x) ← takeSuffix formatNames x
  let scale := x.suffix == ["scale"]
  form0 (fun p => .cmtag p t scale) env (if scale then { x with suffix := [] } else x)

/-- `cvt.n.dst.rnd[.sat] -> t0, t1` (R284). -/
def formCvtN : Build := fun env x => do
  let (t, x) ← takeSuffix (formatNames.take 6) x
  let (r, x) ← takeSuffix roundNames x
  let sat := x.suffix == ["sat"]
  form2 (fun p => .cvtN p t r sat) env (if sat then { x with suffix := [] } else x)

/-- `cvt.w.dst -> t0, t1` (R285). -/
def formCvtW : Build := formSuffix [("bf16", 0), ("f16", 1), ("f32", 6)] .cvtW

/-- `srd s.name -> t0, t1` (R239). -/
def formSrd : Build := fun env x =>
  match x.ops with
  | [.sys n] => form2 (fun p => .srd p n) env { x with ops := [] }
  | _ => .error .operand

/-- `swr s.name` (R239). -/
def formSwr : Build := fun env x =>
  match x.ops with
  | [.sys n] => form0 (fun p => .swr p n) env { x with ops := [] }
  | _ => .error .operand

/-- `tlbinv.scope` and `tlbinv.all.scope` (R246). -/
def formTlbinv : Build := fun env x =>
  match x.suffix with
  | "all" :: r => do
    let (s, x) ← takeSuffix scopeNames { x with suffix := r }
    form0 (fun p => .tlbinv p s true) env x
  | _ => do
    let (s, x) ← takeSuffix scopeNames x
    form0 (fun p => .tlbinv p s false) env x

/-- The entries of R38: scalars and control. -/
def entriesA : List (String × Build) :=
  [ ("nop", formBare .nop), ("xop", formBare .xop), ("read", formRead .read), ("vread", formVread .vread),
    ("write", formSreg .write),
    ("vwrite", fun env x => match x.ops with
      | [.v n] => form0 (fun p => .vwrite p n) env { x with ops := [] }
      | _ => .error .operand),
    ("mov", form2 .mov), ("mov3", ofTargets 3 (fun p a b c _ => .mov3 p a b c)), ("mov4", ofTargets 4 .mov4),
    ("genc", formConst (-34359738368) 34359738367 .lo28 .lo28 .genc), ("genh", formConst 0 0xFFFFFFFFF .hi36 .hi36 .genh),
    ("null", ofTargets 4 .null), ("br", formBr .br), ("bri", formExit .bri), ("call", formBr .call),
    ("calli", formExit .calli), ("ret", formExit .ret), ("halt", formExit .halt), ("scall", formCode .scall),
    ("trap", formCode .trap), ("brk", formCode .brk) ]

/-- The integer entries. -/
def entriesB : List (String × Build) :=
  [ ("add", form2 .add), ("sub", form2 .sub), ("mul", form2 .mul), ("mulh", form2 .mulh), ("mulhu", form2 .mulhu),
    ("div", form2 .div), ("divu", form2 .divu), ("rem", form2 .rem), ("remu", form2 .remu), ("and", form2 .and),
    ("or", form2 .or), ("xor", form2 .xor), ("andn", form2 .andn), ("shl", form2 .shl), ("shr", form2 .shr),
    ("sar", form2 .sar), ("rotl", form2 .rotl), ("clz", form2 .clz), ("ctz", form2 .ctz), ("popc", form2 .popc),
    ("sext", formSuffix extNames .sext), ("zext", formSuffix extNames .zext), ("min", form2 .min), ("max", form2 .max),
    ("minu", form2 .minu), ("maxu", form2 .maxu), ("bfx", formField .bfx), ("bfxu", formField .bfxu),
    ("bfi", formField .bfi), ("lea", formLea), ("sel", form2 .sel), ("addi", form24 .addi), ("muli", form24 .muli),
    ("andi", form24 .andi), ("ori", form24 .ori), ("xori", form24 .xori), ("shli", formShift .shli),
    ("shri", formShift .shri), ("sari", formShift .sari), ("teq", form2 .teq), ("tne", form2 .tne), ("tlt", form2 .tlt),
    ("tle", form2 .tle), ("tltu", form2 .tltu), ("tleu", form2 .tleu), ("tnz", form2 .tnz), ("teqi", form24 .teqi),
    ("tnei", form24 .tnei), ("tlti", form24 .tlti), ("tlei", form24 .tlei), ("tltui", form24 .tltui),
    ("tleui", form24 .tleui) ]

/-- The floating-point and vector entries. -/
def entriesC : List (String × Build) :=
  [ ("fadd", formSuffix tyNames .fadd), ("fsub", formSuffix tyNames .fsub), ("fmul", formSuffix tyNames .fmul),
    ("ffma", formSuffix tyNames .ffma), ("fdiv", formSuffix tyNames .fdiv), ("fsqrt", formSuffix tyNames .fsqrt),
    ("fmin", formSuffix tyNames .fmin), ("fmax", formSuffix tyNames .fmax), ("fabs", formSuffix tyNames .fabs),
    ("fneg", formSuffix tyNames .fneg), ("fsgnj", formSuffix tyNames .fsgnj), ("feq", formSuffix dblNames .feq),
    ("flt", formSuffix dblNames .flt), ("fle", formSuffix dblNames .fle), ("fclass", formSuffix dblNames .fclass),
    ("fcvt", formSuffixes cvtNames cvtNames .fcvt), ("vbcast", formSuffix laneNames .vbcast), ("vext", formLane .vext),
    ("vins", formLane .vins), ("vperm", formSuffix laneNames .vperm), ("vshl", formSuffix laneNames .vshl),
    ("vred", formSuffixes redNames laneNames .vred), ("vsel", formSuffix laneNames .vsel),
    ("vcmp", formSuffixes relNames laneNames .vcmp), ("viota", formSuffix laneNames .viota),
    ("vcnt", formSuffix laneNames .vcnt) ]

/-- The memory entries. -/
def entriesD : List (String × Build) :=
  [ ("ld.b", formMem 2 .ldB), ("ld.bu", formMem 2 .ldBu), ("ld.h", formMem 2 .ldH), ("ld.hu", formMem 2 .ldHu),
    ("ld.w", formMem 2 .ldW), ("ld.wu", formMem 2 .ldWu), ("ld.d", formMem 2 .ldD), ("vld", formVld),
    ("vgather", formMemW 2 .vgather), ("pf", formPf), ("cinv", formLs .cinv), ("cwb", formLs .cwb),
    ("st.b", formMem 0 (fun p m _ _ => .stB p m)), ("st.h", formMem 0 (fun p m _ _ => .stH p m)),
    ("st.w", formMem 0 (fun p m _ _ => .stW p m)), ("st.d", formMem 0 (fun p m _ _ => .stD p m)),
    ("vst", formMem 0 (fun p m _ _ => .vst p m)), ("vscatter", formMemW 0 (fun p w m _ _ => .vscatter p w m)),
    ("fence", formFence), ("amo.add", formMemW 2 .amoAdd), ("amo.and", formMemW 2 .amoAnd), ("amo.or", formMemW 2 .amoOr),
    ("amo.xor", formMemW 2 .amoXor), ("amo.min", formMemW 2 .amoMin), ("amo.max", formMemW 2 .amoMax),
    ("amo.minu", formMemW 2 .amoMinu), ("amo.maxu", formMemW 2 .amoMaxu), ("amo.swap", formMemW 2 .amoSwap),
    ("amo.cas", formMemW 2 .amoCas), ("amo.fadd", formFadd) ]

/-- The entries for regions, parallel work, engines, conversions and the system. -/
def entriesE : List (String × Build) :=
  [ ("rgn.beg", formRgnBeg), ("rgn.end", form0 .rgnEnd), ("rgn.abt", form0 .rgnAbt), ("rgn.stat", form2 .rgnStat),
    ("bar.init", formBarInit), ("bar.arr", formImm 4 0 15 2 .barArr),
    ("bar.wait", formImm 4 0 15 0 (fun p b _ _ => .barWait p b)), ("evt.sig", formScope 0 (fun p s _ _ => .evtSig p s)),
    ("evt.wait", formScope 0 (fun p s _ _ => .evtWait p s)), ("wq.give", formScope 2 .wqGive),
    ("wq.take", formScope 2 .wqTake), ("wq.steal", formScope 2 .wqSteal), ("launch", form2 .launch),
    ("yield", form0 .yield), ("cpy", formSreg .cpy), ("cpy.q", formSreg .cpyQ), ("bbar.init", form0 .bbarInit),
    ("bbar.wait", formSreg .bbarWait), ("mma", formMma .mma), ("mma.sp", formMma .mmaSp), ("mring", formRing),
    ("mzero", formAcc .mzero), ("mld", formTile .mld), ("mst", formMst), ("cmtag", formCmtag), ("cvt.n", formCvtN),
    ("cvt.w", formCvtW), ("bscale", form2 .bscale), ("srd", formSrd), ("swr", formSwr), ("sret", form0 .sret),
    ("tlbinv", formTlbinv), ("cyc", form2 .cyc) ]

/-- Every mnemonic of R38 with its entry. -/
def entries : List (String × Build) := entriesA ++ entriesB ++ entriesC ++ entriesD ++ entriesE

/-- The entry of a mnemonic's parts, the longest that fits, and the suffixes that are left. -/
def entryOf (parts : List String) : Option (Build × List String) :=
  let find := fun (n : Nat) =>
    let name := String.intercalate "." (parts.take n)
    (entries.find? (fun e => e.1 == name)).map (fun e => (e.2, parts.drop n))
  if parts.length < 2 then find 1 else (find 2).orElse (fun _ => find 1)

/-- The predicate suffix, which stands last (R35). -/
def takePred (parts : List String) : Pred × List String :=
  match parts.getLast? with
  | some "t" => (.onTrue, parts.dropLast)
  | some "f" => (.onFalse, parts.dropLast)
  | _ => (.always, parts)

/-- A parsed instruction line: its mnemonic cut at the dots, its operands and targets. -/
structure LineSrc where
  name : List String
  ops : List Opnd
  ts : List Target
  deriving DecidableEq, Repr

/-- R310: `mnemonic[.suffix…] [operands] [-> target, …]`. -/
def parseLine (ts : List Tok) : Except ToolErr LineSrc :=
  let tail := fun (name : List String) (ops : List Opnd) (r : List Tok) => match r with
    | [] => Except.ok { name := name, ops := ops, ts := [] }
    | .arrow :: r => (parseTargets r).map (fun t => { name := name, ops := ops, ts := t })
    | _ => .error .operand
  match ts with
  | .name m :: [] => tail (nameParts m) [] []
  | .name m :: .arrow :: r => tail (nameParts m) [] (.arrow :: r)
  | .name m :: r => do
    let (ops, r) ← parseOpnds (r.length + 1) r
    tail (nameParts m) ops r
  | _ => .error .form

/-- The instruction of a line. -/
def LineSrc.build (l : LineSrc) (env : LineEnv) : Except ToolErr Built :=
  let (pr, parts) := takePred l.name
  match entryOf parts with
  | none => .error .mnemonic
  | some (b, suffix) => do
    let r ← b env { pr := pr, suffix := suffix, ops := l.ops, ts := l.ts }
    if r.ins.wellFormed then .ok r else .error .illegal

/-! ### Statements (R311, R312) -/

/-- A datum of `.float` or `.double`: a decimal number with its sign. -/
structure FloatSrc where
  neg : Bool
  d : Decimal
  deriving DecidableEq, Repr

/-- The value of a `.khdr` key: one number, two for `group`, or a symbol. -/
inductive KeyValue where
  | num (n : Nat) | pair (w h : Nat) | symbol (s : String)
  deriving DecidableEq, Repr

/-- A statement. -/
inductive Stmt where
  | kernel (name : String)
  | endKernel
  | khdr (keys : List (String × KeyValue))
  | block (name : String)
  | endBlock
  | exits (es : List (Nat × String))
  | data
  | ints (bytes : Nat) (es : List Expr)
  | floats (double : Bool) (fs : List FloatSrc)
  | align (n : Nat)
  | global (name : String)
  | label (name : String)
  | line (k : Nat) (l : LineSrc)
  deriving DecidableEq, Repr

/-- Items separated by commas, `fuel` of them at most. -/
def commaList {α : Type} (item : List Tok → Option (α × List Tok)) : Nat → List Tok → Except ToolErr (List α)
  | 0, _ => .error .form
  | fuel + 1, ts =>
    match item ts with
    | none => .error .form
    | some (a, []) => .ok [a]
    | some (a, .mark ',' :: r) => (commaList item fuel r).map (a :: ·)
    | some _ => .error .form

/-- A float, or a number in its place. -/
def floatItem : List Tok → Option (FloatSrc × List Tok)
  | .flt d :: r => some ({ neg := false, d := d }, r)
  | .num n :: r => some ({ neg := false, d := { m := n, e := 0 } }, r)
  | .mark '-' :: .flt d :: r => some ({ neg := true, d := d }, r)
  | .mark '-' :: .num n :: r => some ({ neg := true, d := { m := n, e := 0 } }, r)
  | _ => none

/-- `key=value` of `.khdr` (R312). -/
def keyItem : List Tok → Option ((String × KeyValue) × List Tok)
  | .name k :: .mark '=' :: .num w :: .name x :: r => (regNumber "x" 9 x).map (fun h => ((k, .pair w h), r))
  | .name k :: .mark '=' :: .num n :: r => some ((k, .num n), r)
  | .name k :: .mark '=' :: .name s :: r => some ((k, .symbol s), r)
  | _ => none

/-- `eN = name` of `.exits`. -/
def exitItem : List Tok → Option ((Nat × String) × List Tok)
  | .name e :: .mark '=' :: .name s :: r => (regNumber "e" 8 e).map (fun n => ((n, s), r))
  | _ => none

/-- A directive (R311). -/
def parseDir (d : String) (r : List Tok) : Except ToolErr Stmt :=
  let n := r.length + 1
  let ints := fun (b : Nat) => (commaList parseExpr n r).map (Stmt.ints b)
  match d, r with
  | "kernel", [.name s] => .ok (.kernel s)
  | "endk", [] => .ok .endKernel
  | "khdr", _ => (commaList keyItem n r).map .khdr
  | "block", [.name s] => .ok (.block s)
  | "endb", [] => .ok .endBlock
  | "exits", _ => (commaList exitItem n r).map .exits
  | "data", [] => .ok .data
  | "byte", _ => ints 1
  | "half", _ => ints 2
  | "word", _ => ints 4
  | "word.b", _ => ints 1
  | "word.h", _ => ints 2
  | "word.w", _ => ints 4
  | "word.d", _ => ints 8
  | "float", _ => (commaList floatItem n r).map (.floats false)
  | "double", _ => (commaList floatItem n r).map (.floats true)
  | "align", [.num a] => .ok (.align a)
  | "global", [.name s] => .ok (.global s)
  | _, _ => .error .form

/-- The statements of a line: an index label opens an instruction line inside a block, a data label stands outside. -/
def parseStmt (inBlock : Bool) (ts : List Tok) : Except ToolErr (List Stmt) :=
  match ts with
  | [] => .ok []
  | .dir d :: r => (parseDir d r).map ([·])
  | .name s :: .mark ':' :: r =>
    if inBlock then
      match regNumber "n" 128 s with
      | some k => (parseLine r).map (fun l => [.line k l])
      | none => .error .index
    else match r with
      | [] => .ok [.label s]
      | .dir d :: r => (parseDir d r).map ([.label s, ·])
      | _ => .error .place
  | _ => .error .form

/-- The statements of a source, line by line. -/
def parseLines : Bool → List String → Except ToolErr (List Stmt)
  | _, [] => .ok []
  | inBlock, l :: ls => do
    let ss ← (tokens l) >>= parseStmt inBlock
    let inBlock := ss.foldl (fun b s => match s with | .block _ => true | .endBlock => false | _ => b) inBlock
    let rest ← parseLines inBlock ls
    .ok (ss ++ rest)

/-! ### Places of things (R7, R309, R311) -/

/-- A block of a source. -/
structure BlockSrc where
  name : String
  at_ : Nat
  exits : List (Nat × String)
  lines : List (Nat × LineSrc)
  deriving DecidableEq, Repr

/-- A kernel of a source. -/
structure KernelSrc where
  name : String
  at_ : Nat
  keys : Option (List (String × KeyValue))
  blocks : List String
  size : Nat
  deriving DecidableEq, Repr

/-- A thing with its address. -/
inductive Item where
  | kernel (k : KernelSrc)
  | block (b : BlockSrc)
  | ints (at_ bytes : Nat) (e : Expr)
  | floats (at_ : Nat) (double : Bool) (f : FloatSrc)
  deriving DecidableEq, Repr

/-- A pass over the statements: where the next byte of each section goes, and what has been placed. -/
structure Pass where
  text : Nat
  data : Nat
  inText : Bool
  kernel : Option KernelSrc
  block : Option BlockSrc
  items : List Item
  syms : Symbols
  globals : List String
  deriving DecidableEq, Repr

/-- The next multiple of `n`. -/
def alignTo (n a : Nat) : Nat := (a + n - 1) / n * n

/-- R309: a symbol is defined once. -/
def Pass.define (p : Pass) (s : String) (a : Nat) : Except ToolErr Pass :=
  if (p.syms.value s).isSome then .error .twice else .ok { p with syms := p.syms ++ [(s, (a : Int))] }

/-- The next byte of the section. -/
def Pass.here (p : Pass) : Nat := if p.inText then p.text else p.data

/-- The next byte of the section moves. -/
def Pass.moveTo (p : Pass) (a : Nat) : Pass := if p.inText then { p with text := a } else { p with data := a }

/-- Data of `n` bytes each. -/
def Pass.emit {α : Type} (p : Pass) (n : Nat) (f : Nat → α → Item) (xs : List α) : Pass :=
  xs.foldl (fun p x => ({ p with items := p.items ++ [f p.here x] }).moveTo (p.here + n)) p

/-- One statement; the name of a kernel is a global symbol (R311). -/
def Pass.stmt (p : Pass) (s : Stmt) : Except ToolErr Pass :=
  match s, p.kernel, p.block with
  | .kernel n, none, none => do
    let a := alignTo 64 p.text
    let p ← p.define n a
    .ok { p with inText := true, text := a + 64, globals := p.globals ++ [n]
                 kernel := some { name := n, at_ := a, keys := none, blocks := [], size := 64 } }
  | .endKernel, some k, none => .ok { p with kernel := none, items := p.items ++ [.kernel k] }
  | .khdr ks, some k, none =>
    if k.keys.isSome || !(ks.map (·.1)).Nodup then .error .place
    else .ok { p with kernel := some { k with keys := some ks } }
  | .block n, some k, none => do
    let a := alignTo 32 p.text
    let p ← p.define n a
    .ok { p with text := a, block := some { name := n, at_ := a, exits := [], lines := [] }
                 kernel := some { k with blocks := k.blocks ++ [n] } }
  | .exits es, some _, some b =>
    if b.lines ≠ [] || !((b.exits ++ es).map (·.1)).Nodup then .error .place
    else .ok { p with block := some { b with exits := b.exits ++ es } }
  | .line k l, some _, some b =>
    if b.lines.any (fun e => e.1 == k) then .error .index
    else .ok { p with block := some { b with lines := b.lines ++ [(k, l)] } }
  | .endBlock, some k, some b =>
    let size := 32 + 64 * (b.lines.foldl (fun m e => max m e.1) 0 / 8 + 1)
    .ok { p with text := b.at_ + size, block := none, items := p.items ++ [.block b]
                 kernel := some { k with size := b.at_ + size - k.at_ } }
  | .data, none, none => .ok { p with inText := false }
  | .ints n es, _, none => .ok (p.emit n (fun a e => .ints a n e) es)
  | .floats d fs, _, none => .ok (p.emit (if d then 8 else 4) (fun a f => .floats a d f) fs)
  | .align n, _, none =>
    if (List.range 17).any (fun i => n == 2 ^ i) then .ok (p.moveTo (alignTo n p.here)) else .error .range
  | .label n, _, none => p.define n p.here
  | .global n, _, _ => .ok { p with globals := p.globals ++ [n] }
  | _, _, _ => .error .place

/-- All statements. -/
def Pass.stmts (p : Pass) : List Stmt → Except ToolErr Pass
  | [] => .ok p
  | s :: ss => (p.stmt s) >>= (fun p => p.stmts ss)

/-! ### The object (R7, R312, R313) -/

/-- A relocation that is left to the linker: the address of its word, and for types 2, 3 and 6 the block's or header's. -/
structure Reloc where
  fix : Fix
  at_ : Nat
  base : Nat
  deriving DecidableEq, Repr

/-- What an assembly gives: bytes at addresses, symbols, the kernels with their sizes, and open relocations. -/
structure Object where
  bytes : List (Nat × List Byte)
  syms : Symbols
  kernels : List (String × Nat × Nat)
  globals : List String
  relocs : List Reloc
  deriving DecidableEq, Repr

/-- The field of a word filled, or left open for the linker when nothing in the file defines its symbol. -/
def fillField (syms : Symbols) (f : Fix) (at_ base : Nat) (w : Word) : Except ToolErr (Word × List Reloc) :=
  match syms.value f.symbol with
  | some v => (f.ty.apply (v + f.add) base w).map (·, [])
  | none => .ok (w, [{ fix := f, at_ := at_, base := base }])

/-- R42: the exits of the lines that left theirs out, in index order. -/
def chooseExits : List (Nat × Built) → List Nat → Except ToolErr (List (Nat × Built))
  | [], _ => .ok []
  | (k, b) :: rest, used =>
    if b.auto then
      match freeExit used with
      | none => .error .exit
      | some e =>
        let x := BitVec.ofNat 3 e
        let i := match b.ins with
          | .bri p _ => .bri p x
          | .calli p _ => .calli p x
          | .ret p _ => .ret p x
          | .halt p _ => .halt p x
          | i => i
        (chooseExits rest (e :: used)).map ((k, { b with ins := i }) :: ·)
    else (chooseExits rest used).map ((k, b) :: ·)

/-- A list of results as one result. -/
def gather {α : Type} : List (Except ToolErr α) → Except ToolErr (List α)
  | [] => .ok []
  | x :: xs => do
    let a ← x
    let as ← gather xs
    .ok (a :: as)

/-- The lines of a block, in index order. -/
def sortLines {α : Type} (ls : List (Nat × α)) : List (Nat × α) :=
  (List.range 128).filterMap (fun k => ls.find? (fun e => e.1 == k))

/-- R7: a block's header and words, and the relocations it leaves open. -/
def BlockSrc.image (b : BlockSrc) (syms : Symbols) : Except ToolErr (List Word × List Reloc) := do
  let env : LineEnv := { exits := b.exits, syms := syms }
  let built ← gather ((sortLines b.lines).map (fun e => (e.2.build env).map (fun x => (e.1, x))))
  let used := built.filterMap (fun e => if e.2.auto then none else (exitOf e.2.ins).map (·.1))
  let built ← chooseExits built used
  let src : SrcBlock := built.map (fun e => (e.1, e.2.ins))
  match src.err with
  | some e => .error e
  | none => do
    let filled ← gather ((List.range src.words.length).map (fun k =>
      let w := src.words.getD k 0
      match (built.find? (fun e => e.1 == k)).bind (fun e => e.2.fix) with
      | some f => fillField syms f (b.at_ + 32 + 8 * k) b.at_ w
      | none => .ok (w, [])))
    .ok (src.header ++ filled.map (·.1), filled.flatMap (·.2))

/-- A number key of `.khdr`. -/
def keyNum (ks : List (String × KeyValue)) (k : String) (dflt : Nat) : Except ToolErr Nat :=
  match ks.find? (fun e => e.1 == k) with
  | none => .ok dflt
  | some (_, .num n) => .ok n
  | some _ => .error .operand

/-- A symbol key of `.khdr`. -/
def keySymbol (ks : List (String × KeyValue)) (k : String) : Except ToolErr (Option String) :=
  match ks.find? (fun e => e.1 == k) with
  | none => .ok none
  | some (_, .symbol s) => .ok (some s)
  | some _ => .error .operand

/-- The keys of R312. -/
def khdrKeys : List String :=
  ["gregs", "vregs", "frames", "fibres", "group", "core", "cmem", "regions", "power", "tvec", "xtab"]

/-- R312: the header that the keys fill; `tvec` names a block of the kernel, `xtab` a symbol in `.except_table`. The
directives of R311 put nothing there, so a symbol that the file itself defines is none, and the linker fills the offset of
another (`Reloc.link`). -/
def KernelSrc.header (k : KernelSrc) (syms : Symbols) : Except ToolErr (List Word × List Reloc) := do
  let ks := k.keys.getD []
  let d := Khdr.default
  if ks.any (fun e => !khdrKeys.contains e.1) then .error .operand else
  let gregs ← keyNum ks "gregs" d.gregs
  let vregs ← keyNum ks "vregs" d.vregs
  let frames ← keyNum ks "frames" d.frames
  let fibres ← keyNum ks "fibres" d.fibres
  let (gw, gh) ← match ks.find? (fun e => e.1 == "group") with
    | none => Except.ok (d.groupW, d.groupH)
    | some (_, .pair w h) => .ok (w, h)
    | some _ => .error .operand
  let core ← keyNum ks "core" d.core
  let cmem ← keyNum ks "cmem" d.cmem
  let regions ← keyNum ks "regions" d.regions
  let power ← keyNum ks "power" d.power
  let tv ← keySymbol ks "tvec"
  let tvec ← match tv with
    | none => Except.ok (0 : Int)
    | some s => if k.blocks.contains s then .ok ((syms.value s).getD 0 - k.at_) else .error .operand
  let xt ← keySymbol ks "xtab"
  let h : Khdr := { gregs, vregs, frames, fibres, groupW := gw, groupH := gh, core, cmem, regions, power, tvec, xtab := 0 }
  if !h.ok then .error .range
  else
    match xt with
    | none => .ok (h.words, [])
    | some s =>
      if (syms.value s).isSome then .error .operand
      else .ok (h.words, [{ fix := { ty := .hrel64, symbol := s, add := 0 }, at_ := k.at_ + 32, base := k.at_ }])

/-- R311: a decimal number rounded to nearest even. -/
def FloatSrc.code (f : FloatSrc) (F : Fmt) : Nat :=
  let den := 10 ^ (-f.d.e).toNat
  let up := 130 + Nat.log2 den
  let num := f.d.m * 10 ^ f.d.e.toNat * 2 ^ up
  (roundNum F .rne false
    { neg := f.neg, m := 2 * (num / den) + (if num % den = 0 then 0 else 1), e := -(up + 1 : Int) }).1

/-- The bytes of an item, and the relocations it leaves open. -/
def Item.image (syms : Symbols) : Item → Except ToolErr (Nat × List Byte × List Reloc)
  | .kernel k => (k.header syms).map (fun x => (k.at_, wordBytes x.1, x.2))
  | .block b => (b.image syms).map (fun x => (b.at_, wordBytes x.1, x.2))
  | .ints a n e =>
    match e.value syms, e.symbol with
    | some v, _ =>
      if -(2 ^ (8 * n - 1)) ≤ v ∧ v < 2 ^ (8 * n) then .ok (a, natLe n (BitVec.ofInt 64 v).toNat, []) else .error .range
    | none, some s =>
      if n = 8 ∧ e.part = .whole then
        .ok (a, natLe 8 0, [{ fix := { ty := .abs64, symbol := s, add := e.add }, at_ := a, base := 0 }])
      else .error .undefined
    | none, none => .error .undefined
  | .floats a double f =>
    .ok (a, if double then natLe 8 (f.code fmt64) else natLe 4 (f.code fmt32), [])

/-- R309 to R313: the object of a source whose `.text` begins at `text` and whose `.data` begins at `data`. -/
def assemble (text data : Nat) (source : List String) : Except ToolErr Object := do
  let stmts ← parseLines false source
  let p0 : Pass := { text := text, data := data, inText := false, kernel := none, block := none, items := [], syms := []
                     globals := [] }
  let p ← p0.stmts stmts
  if p.kernel.isSome || p.block.isSome then .error .place
  else
    let images ← gather (p.items.map (Item.image p.syms))
    .ok { bytes := images.map (fun x => (x.1, x.2.1)), syms := p.syms, relocs := images.flatMap (·.2.2)
          kernels := p.items.filterMap (fun i => match i with | .kernel k => some (k.name, k.at_, k.size) | _ => none)
          globals := p.globals }

/-- The memory that holds an object's bytes. -/
def Object.mem (o : Object) : Mem := o.bytes.foldl (fun m x => m.setBytes x.1 x.2) []

/-- R313: the linker fills one relocation of a memory, with the symbols of every object, of which `tables` stand in
`.except_table`; the offset of a header's XTAB takes only one of those (R312). `v` is a place for a veneer, which it fills
when a branch needs one. -/
def Reloc.link (r : Reloc) (syms : Symbols) (tables : List String) (v : Nat) (m : Mem) : Except ToolErr Mem :=
  match syms.value r.fix.symbol with
  | none => .error .undefined
  | some s =>
    let w := m.dword r.at_
    let put := fun (x : Word) => m.setBytes r.at_ (natLe 8 x.toNat)
    if r.fix.ty = .boff33 then
      (linkBranch r.base (s + r.fix.add) v w).map (fun x =>
        if x.2 then (put x.1).setBytes v (wordBytes (veneer (BitVec.ofInt 64 (s + r.fix.add))).dwords) else put x.1)
    else if r.fix.ty = .hrel64 ∧ tables.contains r.fix.symbol = false then .error .operand
    else (r.fix.ty.apply (s + r.fix.add) r.base w).map put

/-- The linker fills the relocations of an object in order; each has its place for a veneer. -/
def linkAll (syms : Symbols) (tables : List String) : List (Reloc × Nat) → Mem → Except ToolErr Mem
  | [], m => .ok m
  | (r, v) :: rest, m => (r.link syms tables v m) >>= linkAll syms tables rest

end Sys2Proof.Machine
end

