-- ==== Sys2Proof/Tests/Slice0.lean ====
section
/-! SUPPORT. Tests of the model on fixed values taken from the spec's formats, tables and worked examples, and a
state and operands that meet the hypotheses of each statement. -/

namespace Sys2Proof.Tests
open Sys2Proof Sys2Proof.Machine

set_option Elab.async false

/-! ### Ill-formed terms -/

def m0 : MemF := ⟨0, .fibre, .rlx, 0⟩

/-- R73, R91, R93, R94: fields beyond 64 bits, equal types, a lane that is not there, a float in narrow lanes. -/
theorem test_ill_formed_values :
    ∀ i ∈ [Instr.bfx .always 63 1 .none, .bfxu .always 1 63 .none, .bfi .always 32 32 .none, .fcvt .always .d .d .none .none
      , .vext .always .b64 8 .none, .vins .always .b32 16 .none, .vred .always .fadd .b16 .none .none
      , .vred .always .fmin .b8 .none .none, .vcmp .always .flt .b16 .none .none], i.wellFormed = false := by decide

/-- R52, R128: a load that releases and a store that acquires. -/
theorem test_ill_formed_orders :
    ∀ i ∈ [Instr.ldB .always ⟨0, .module, .rel, 0⟩ .none .none, .ldBu .always ⟨0, .module, .ar, 0⟩ .none .none
      , .ldH .always ⟨0, .module, .rel, 0⟩ .none .none, .ldHu .always ⟨0, .module, .rel, 0⟩ .none .none
      , .ldW .always ⟨0, .module, .rel, 0⟩ .none .none, .ldWu .always ⟨0, .module, .rel, 0⟩ .none .none
      , .ldD .always ⟨0, .module, .ar, 0⟩ .none .none, .vld .always false ⟨0, .module, .rel, 0⟩ .none .none
      , .vgather .always .w ⟨0, .module, .rel, 0⟩ .none .none, .stB .always ⟨0, .module, .acq, 0⟩
      , .stH .always ⟨0, .module, .acq, 0⟩, .stW .always ⟨0, .module, .ar, 0⟩, .stD .always ⟨0, .module, .acq, 0⟩
      , .vst .always ⟨0, .module, .acq, 0⟩, .vscatter .always .d ⟨0, .module, .ar, 0⟩], i.wellFormed = false := by decide

/-- R239, R240, R284, R285: a register that is not listed, one that no level writes, and tags that no format has. -/
theorem test_ill_formed_names :
    ∀ i ∈ [Instr.srd .always 0x008 .none .none, .swr .always 0x002, .swr .always 0x0FF, .cvtN .always 6 .rne false .none .none
      , .cvtW .always 2 .none .none, .frameGrant 2048, .markTake 2048, .nodeCommandStart 2048, .nodeCommandFinish 2048
      , .ringStart 2048, .ringHandover 2048, .ringTimeout 2048, .copyStart 2048, .gateTimer 2048, .cellWake 2048
      , .groupPlace 32, .preemptTimer 32, .linkQuiesce 32, .dieResetDone 32, .beatReplay 32, .goWord 24, .regionCommit 512
      , .dependenceTimeout 512, .regionAbort 512 1, .regionAbort 0 0, .regionAbort 0 9, .ldmapWrite 1 8 0, .lwcfgWrite 1 24 0
      , .warmReset 1 32 true, .fenceOnly 1 32 true, .readmit 1 32], i.wellFormed = false := by decide

/-! ### Words of the spec and the instructions they stand for -/

/-- The block `step` of "Program: walking a list in blocks". -/
theorem test_words_of_step :
    decode 0x0101000000010883 = .ok (.read .always 1 (.l 3) (.l 4))
    ∧ decode 0x0102000000000085 = .ok (.read .always 2 (.l 5) .none)
    ∧ decode 0x0103000000010E86 = .ok (.read .always 3 (.l 6) (.l 7))
    ∧ decode 0x8600000000011288 = .ok (.ldD .always ⟨0, .fibre, .rlx, 0⟩ (.l 8) (.l 9))
    ∧ decode 0x8502000000200105 = .ok (.ldWu .always ⟨1, .fibre, .rlx, 8⟩ (.r 5) .none)
    ∧ decode 0x5000000000011506 = .ok (.fadd .always .s (.r 6) (.l 10))
    ∧ decode 0x9204000000000000 = .ok (.stW .always ⟨2, .fibre, .rlx, 0⟩)
    ∧ decode 0x3B0000000010008B = .ok (.addi .always 4 (.l 11))
    ∧ decode 0x4600000000031B8C = .ok (.tnz .always (.p 12) (.p 13))
    ∧ decode 0x10C8000000140000 = .ok (.br .onFalse 1 5) := by decide +kernel

/-- Words that the spec writes out in other chapters. -/
theorem test_words_of_other_chapters :
    decode 0x8800010000021286 = .ok (.vgather .always .d m0 (.l 6) (.r 9))
    ∧ decode 0xA801200000000000 = .ok (.fence .always 0 .module .rel)
    ∧ decode 0xA801100000000000 = .ok (.fence .always 0 .module .acq)
    ∧ decode 0xB000500000340000 = .ok (.rgnBeg .always 5 13)
    ∧ decode 0xB300000000000085 = .ok (.rgnStat .always (.l 5) .none)
    ∧ decode 0xD000120000000085 = .ok (.cvtN .always 2 .sr false (.l 5) .none)
    ∧ decode 0xD000320000000085 = .ok (.cvtN .always 2 .sr true (.l 5) .none)
    ∧ decode 0xD100060000000083 = .ok (.cvtW .always 6 (.l 3) .none)
    ∧ decode 0xD200000000000084 = .ok (.bscale .always (.l 4) .none)
    ∧ decode 0x9201200000000000 = .ok (.stW .always ⟨0, .module, .rel, 0⟩)
    ∧ decode 0x8401100000000000 = .ok (.ldW .always ⟨0, .module, .acq, 0⟩ .none .none)
    ∧ decode 0xE400000000000082 = .ok (.cyc .always (.l 2) .none) := by decide +kernel

/-- Words of moves, branches, traps and integers, put together from the fields of R35, R36, R38 and R39. -/
theorem test_words_of_flow_and_integer :
    decode 0x021F000000000081 = .ok (.vread .always 31 (.l 1) .none)
    ∧ decode 0x041F000000000000 = .ok (.vwrite .always 31)
    ∧ decode 0x07000007FE0E0481 = .ok (.mov4 .always (.l 1) (.r 2) (.p 3) (.l 127))
    ∧ decode 0x083FFFFFFFFC0109 = .ok (.genc .always (BitVec.allOnes 36) (.r 9) .none)
    ∧ decode 0x0AC0000C28000000 = .ok (.null .onFalse .none .none .none (.p 5))
    ∧ decode 0x0F00000000000000 = .ok .xop
    ∧ decode 0x123FFFFFFFFC0000 = .ok (.call .always 7 (BitVec.allOnes 33))
    ∧ decode 0x1488000000000000 = .ok (.ret .onTrue 1)
    ∧ decode 0x1600020000040000 = .ok (.scall .always 0x800001)
    ∧ decode 0x2400000000020481 = .ok (.mulhu .always (.l 1) (.r 2))
    ∧ decode 0x3103010000000084 = .ok (.sext .always .h (.l 4) .none)
    ∧ decode 0x360000003A140082 = .ok (.bfx .always 5 58 (.l 2))
    ∧ decode 0x390003FFFFEC0102 = .ok (.lea .always 3 (BitVec.ofInt 22 (-2)) (.r 2)) := by decide +kernel

/-- Words of compares, floats, vectors and loads, put together from the fields of R35, R36, R38 and R39. -/
theorem test_words_of_float_vector_and_loads :
    decode 0x3A00000000030682 = .ok (.sel .always (.l 2) (.p 3))
    ∧ decode 0x3B07000000FC0082 = .ok (.sari .always 63 (.l 2))
    ∧ decode 0x4300000000000189 = .ok (.tle .always (.p 9) .none)
    ∧ decode 0x480503FFFFFC0189 = .ok (.tleui .always (BitVec.allOnes 24) (.p 9))
    ∧ decode 0x5300030000000082 = .ok (.ffma .always .vd (.l 2) .none)
    ∧ decode 0x5D00010000000182 = .ok (.fle .always true (.p 2) .none)
    ∧ decode 0x5F000A0000000087 = .ok (.fcvt .always .l .d (.l 7) .none)
    ∧ decode 0x7200000000F80087 = .ok (.vins .always .b32 15 (.l 7))
    ∧ decode 0x7508030000000087 = .ok (.vred .always .fadd .b64 (.l 7) .none)
    ∧ decode 0x7705000000000087 = .ok (.vcmp .always .leu .b8 (.l 7) .none)
    ∧ decode 0x833E00FFFFFC0087 = .ok (.ldHu .always ⟨31, .fibre, .rlx, BitVec.allOnes 22⟩ (.l 7) .none)
    ∧ decode 0x8705110001000087 = .ok (.vld .always true ⟨2, .module, .acq, 64⟩ (.l 7) .none)
    ∧ decode 0x8804010000000087 = .ok (.vgather .always .d ⟨2, .fibre, .rlx, 0⟩ (.l 7) .none) := by decide +kernel

/-- Words of stores, atomics, regions, barriers, engines and system instructions, put together from the fields of R35, R36, R38 and R39. -/
theorem test_words_of_memory_and_system :
    decode 0x8B06000000000000 = .ok (.cwb .always 3)
    ∧ decode 0x9508E10000400000 = .ok (.vscatter .always .d ⟨4, .die, .rel, 16⟩)
    ∧ decode 0xA10B790000200087 = .ok (.amoCas .always .d ⟨5, .system, .ar, 8⟩ (.l 7) .none)
    ∧ decode 0xB003F1FFFFFC0000 = .ok (.rgnBeg .always 63 (BitVec.allOnes 23))
    ∧ decode 0xB400000000FC0000 = .ok (.barInit .always 15 3)
    ∧ decode 0xB800080000000000 = .ok (.evtWait .always .module)
    ∧ decode 0xBC00000000021087 = .ok (.launch .always (.l 7) (.r 8))
    ∧ decode 0xC003F00000000000 = .ok (.cpy .always 63)
    ∧ decode 0xC6007BFF00000000 = .ok (.mring .always 7 5 .eight 127)
    ∧ decode 0xC918940000000000 = .ok (.mst .always .fp32 9 2)
    ∧ decode 0xCA30000000000000 = .ok (.cmtag .always 4 true)
    ∧ decode 0xE100000000400000 = .ok (.swr .always 0x010)
    ∧ decode 0xE304080000000000 = .ok (.tlbinv .always .module true) := by decide +kernel

/-- R34 to R39: words that are no instruction, or not an admitted one. -/
theorem test_words_refused :
    (decode 0x0B00000000000000).toOption = none
    ∧ (decode 0x2040000000000000).toOption = none
    ∧ (decode 0x2001000000000000).toOption = none
    ∧ (decode 0x2000000000040000).toOption = none
    ∧ (decode 0x0500000002040000).toOption = none
    ∧ (decode 0x8401800000000000).toOption = none
    ∧ (decode 0x8400200000000000).toOption = none
    ∧ (decode 0x360000003F040000).toOption = none
    ∧ (decode 0x5F00000000000000).toOption = none
    ∧ (decode 0x0220000000000000).toOption = none
    ∧ (decode 0xE000000000200000).toOption = none
    ∧ (decode 0xC600000000000000).toOption = none
    ∧ (decode 0x0800000000000001).toOption = none := by decide +kernel


/-! ### A place to fire at, and the operands there -/

/-- The machine with the instruction in word 0 of the only block in flight, its operands arrived, acting there. -/
def ready (i : Instr) : State := (State.reset.primed (primeFrame ((encode i).getD 0))).at_ 0 0 0

/-- The same with other tokens in its slots. -/
def readyOn (i : Instr) (l r x : Token) : State :=
  let fr := primeFrame ((encode i).getD 0)
  let put := fun (d : Dict Token) (key : Nat) (t : Token) => if (d.get? key).isSome then d.put key t else d
  (State.reset.primed { fr with slots := put (put (put fr.slots 0 l) 1 r) 3 x }).at_ 0 0 0

/-- The instruction fires at the place where the state acts, and what it meets there is so. -/
def firesWith (s : State) (i : Instr) (p : Acting → Bool) : Bool :=
  match s.acting i with
  | some a => a.canFire i && p a
  | none => false

theorem fires_of {s : State} {i : Instr} {p : Acting → Bool} (h : firesWith s i p = true) :
    ∃ a, Fires s i a ∧ p a = true := by
  unfold firesWith at h
  split at h
  · rename_i a ha
    exact ⟨a, ⟨ha, by simp_all⟩, by simp_all⟩
  · cases h

/-- The only fibre, its block and its place. -/
def theFibre (s : State) : Fibre := (s.fibre? 0).getD (State.reset.entryFibre 0 (Group.fresh 0 0 0 0 0) primeLaunch 0 0)

/-! ### Every instruction of a program fires somewhere -/

/-- Instructions of programs. -/
def programs0 : List Instr :=
  [.read .always 0 .none .none, .vread .always 0 .none .none, .write .always 0, .vwrite .always 0
  , .mov .always .none .none, .mov3 .always .none .none .none, .mov4 .always .none .none .none .none
  , .genc .always 0 .none .none, .genh .always 0 .none .none, .null .always .none .none .none .none, .br .always 0 0
  , .bri .always 0, .call .always 0 0, .calli .always 0, .ret .always 0, .halt .always 0, .scall .always 0
  , .trap .always 0, .brk .always 0, .add .always .none .none, .sub .always .none .none, .mul .always .none .none
  , .mulh .always .none .none, .mulhu .always .none .none, .div .always .none .none, .divu .always .none .none
  , .rem .always .none .none, .remu .always .none .none, .and .always .none .none, .or .always .none .none
  , .xor .always .none .none, .andn .always .none .none, .shl .always .none .none, .shr .always .none .none
  , .sar .always .none .none, .rotl .always .none .none, .clz .always .none .none, .ctz .always .none .none
  , .popc .always .none .none, .sext .always .b .none .none, .zext .always .b .none .none, .min .always .none .none
  , .max .always .none .none, .minu .always .none .none, .maxu .always .none .none, .bfx .always 0 0 .none
  , .bfxu .always 0 0 .none, .bfi .always 0 0 .none, .lea .always 0 0 .none, .sel .always .none .none
  , .addi .always 0 .none, .muli .always 0 .none, .andi .always 0 .none, .ori .always 0 .none]

/-- Instructions of programs. -/
def programs1 : List Instr :=
  [.xori .always 0 .none, .shli .always 0 .none, .shri .always 0 .none, .sari .always 0 .none
  , .teq .always .none .none, .tne .always .none .none, .tlt .always .none .none, .tle .always .none .none
  , .tltu .always .none .none, .tleu .always .none .none, .tnz .always .none .none, .teqi .always 0 .none
  , .tnei .always 0 .none, .tlti .always 0 .none, .tlei .always 0 .none, .tltui .always 0 .none
  , .tleui .always 0 .none, .fadd .always .s .none .none, .fsub .always .s .none .none, .fmul .always .s .none .none
  , .ffma .always .s .none .none, .fdiv .always .s .none .none, .fsqrt .always .s .none .none
  , .fmin .always .s .none .none, .fmax .always .s .none .none, .fabs .always .s .none .none
  , .fneg .always .s .none .none, .fsgnj .always .s .none .none, .feq .always false .none .none
  , .flt .always false .none .none, .fle .always false .none .none, .fclass .always false .none .none
  , .fcvt .always .s .l .none .none, .vbcast .always .b32 .none .none, .vext .always .b32 0 .none
  , .vins .always .b32 0 .none, .vperm .always .b32 .none .none, .vshl .always .b32 .none .none
  , .vred .always .add .b32 .none .none, .vsel .always .b32 .none .none, .vcmp .always .eq .b32 .none .none
  , .viota .always .b32 .none .none, .vcnt .always .b32 .none .none, .ldB .always m0 .none .none
  , .ldBu .always m0 .none .none, .ldH .always m0 .none .none, .ldHu .always m0 .none .none
  , .ldW .always m0 .none .none, .ldWu .always m0 .none .none, .ldD .always m0 .none .none
  , .vld .always false m0 .none .none, .vgather .always .w m0 .none .none, .pf .always 0 0, .cinv .always 0]

/-- Instructions of programs. -/
def programs2 : List Instr :=
  [.cwb .always 0, .stB .always m0, .stH .always m0, .stW .always m0, .stD .always m0, .vst .always m0
  , .vscatter .always .w m0, .fence .always 0 .fibre .rlx, .amoAdd .always .w m0 .none .none
  , .amoAnd .always .w m0 .none .none, .amoOr .always .w m0 .none .none, .amoXor .always .w m0 .none .none
  , .amoMin .always .w m0 .none .none, .amoMax .always .w m0 .none .none, .amoMinu .always .w m0 .none .none
  , .amoMaxu .always .w m0 .none .none, .amoSwap .always .w m0 .none .none, .amoCas .always .w m0 .none .none
  , .amoFadd .always m0 .none .none, .rgnBeg .always 0 0, .rgnEnd .always, .rgnAbt .always
  , .rgnStat .always .none .none, .barInit .always 0 0, .barArr .always 0 .none .none, .barWait .always 0
  , .evtSig .always .fibre, .evtWait .always .fibre, .wqGive .always .fibre .none .none
  , .wqTake .always .fibre .none .none, .wqSteal .always .fibre .none .none, .launch .always .none .none
  , .yield .always, .cpy .always 0, .cpyQ .always 0, .bbarInit .always, .bbarWait .always 0, .mma .always 0 0 0
  , .mmaSp .always 0 0 0, .mring .always 0 0 .two 0, .mzero .always 0, .mld .always 0 0, .mst .always .bf16 0 0
  , .cmtag .always 0 false, .cvtN .always 0 .rne false .none .none, .cvtW .always 0 .none .none
  , .bscale .always .none .none, .srd .always 0 .none .none, .swr .always 0, .sret .always
  , .tlbinv .always .fibre false, .cyc .always .none .none]

/-- The hypothesis `Fires` of the statements about one instruction: each instruction fires in the primed machine. -/
def firesReady (i : Instr) : Bool := firesWith (ready i) i (fun _ => true)

theorem test_programs_fire0 : programs0.all firesReady = true := by decide +kernel
theorem test_programs_fire1 : programs1.all firesReady = true := by decide +kernel
theorem test_programs_fire2 : programs2.all firesReady = true := by decide +kernel

/-- The primed machine with older blocks in flight. -/
def readyAfter (older : List Frame) (i : Instr) : State :=
  let fr := { primeFrame ((encode i).getD 0) with seq := 9 }
  ((State.reset.primed fr).modFibre 0 (fun f => { f with frames := older ++ [fr] })).at_ 0 9 0

/-- A fetched block that writes nothing. -/
def blank (seq : Nat) : Frame := { Frame.fresh seq 0x40 with fetched := true, words := [0] }

/-- The block of the primed machine changed. -/
def edit (s : State) (h : Frame → Frame) : State := s.modFibre 0 (fun f => { f with frames := f.frames.map h })

/-- The own-cell window (R102). -/
def own : Word := 0x01F0000000000000

/-! ### Hypotheses met: words, steps and memory -/

/-- StepRunsTheDecodedWord: an instruction whose turn it is, an event whose turn it is, an event and a host store that wait. -/
theorem test_meets_step :
    let s := State.reset.withFetchWord 64 0x2000000000000000
    s.turn = some (.fire 0 0 0) ∧ ((s.fibre? 0).bind (fun f => f.frame? 0)).map (fun fr => fr.words[0]?)
      = some (some 0x2000000000000000) ∧ decode 0x2000000000000000 = .ok (.add .always .none .none)
      ∧ ({ s with turn := some (.ev .leaseExpiry) } : State).turn = some (.ev .leaseExpiry)
      ∧ ({ State.reset with inputs := [.ev .leaseExpiry] } : State).turn = none
      ∧ ({ State.reset with inputs := [.hostStore 5 7] } : State).inputs = [.hostStore 5 7] := by decide +kernel

/-- StepRunsTheDecodedWord and DispatcherTakesPlacesAndReports: a step that takes no part in the round, and one that does. -/
theorem test_meets_fair : ((0 : Nat) + 1) % (Config.patience + 2) ≠ 0 ∧ (Config.patience + 1 + 1) % (Config.patience + 2) = 0
    ∧ State.reset.steps = 0 ∧ State.reset.turn = none ∧ ({ State.reset with steps := Config.patience + 1 } : State).turn = none :=
  ⟨by rw [Nat.mod_eq_of_lt] <;> omega, Nat.mod_self _, rfl, rfl, rfl⟩

/-- MemoryReadsWhatWasWritten, with an entry below, one above and a byte of zero. -/
theorem test_meets_memory : Mem.wf [(3, 7), (9, 1)] = true
    ∧ Mem.setBytes [(3, 7), (9, 1)] 8 [5, 0, 6] = [(3, 7), (8, 5), (10, 6)] := by decide +kernel

/-- EveryStepKeepsTheFormOfMemory: a store fires. -/
theorem test_meets_form : let s := State.reset.withFetchWord 64 0x9300000000000000
    s.memWf ∧ (∀ e ∈ s.llc, e.2.data.length = 128) ∧ (match step s with | .next _ => True | _ => False) := by
  refine ⟨⟨by decide +kernel, by decide +kernel⟩, by decide +kernel, ?_⟩
  have h : (match step (State.reset.withFetchWord 64 0x9300000000000000) with
    | .next _ => true | _ => false) = true := by decide +kernel
  revert h
  cases step (State.reset.withFetchWord 64 0x9300000000000000) <;> simp

/-! ### Hypotheses met: registers and tokens -/

def readG : Instr := .read .always 5 .none .none
def readV : Instr := .vread .always 5 .none .none
def passesG (fr : Frame) : Bool := fr.gout.get? 5 == some .null
  || fr.gout.get? 5 == none && fr.fetched && !fr.gmask.getLsbD 5 && !fr.mayCommand 5
def passesV (fr : Frame) : Bool := fr.vout.get? 5 == some .null || fr.vout.get? 5 == none && fr.fetched && !fr.vw.getLsbD 5

/-- ReadsTakeTheYoungestOlderValue: a value past a block that does not write and one that wrote a null. -/
theorem test_meets_read_value :
    ∃ a, Fires (readyAfter [{ blank 1 with gout := [(5, .val 7)] }, { blank 2 with gout := [(5, .null)] }, blank 3] readG) readG a
      ∧ ((a.f.olderThan 9).map (fun fr => (fr.seq, passesG fr)) == [(3, true), (2, true), (1, false)]) = true :=
  fires_of (by decide +kernel)

/-- No older value, the register pending or not. -/
theorem test_meets_read_file :
    (∃ a, Fires (ready readG) readG a ∧ ((a.f.olderThan 0).all passesG && !a.f.gpend.getLsbD 5) = true)
    ∧ (∃ a, Fires ((ready readG).modFibre 0 (fun f => { f with gpend := 32 })) readG a
      ∧ ((a.f.olderThan 0).all passesG && a.f.gpend.getLsbD 5) = true) :=
  ⟨fires_of (by decide +kernel), fires_of (by decide +kernel)⟩

/-- A block that has yet to write. -/
theorem test_meets_read_wait :
    ∃ a, Fires (readyAfter [{ blank 1 with gw := 32 }] readG) readG a
      ∧ ((a.f.olderThan 9).all (fun fr => fr.gout.get? 5 == none && fr.gmask.getLsbD 5)) = true := fires_of (by decide +kernel)

theorem test_meets_vread_value :
    (∃ a, Fires (readyAfter [{ blank 1 with vout := [(5, .vec 7 0)] }, { blank 2 with vout := [(5, .null)] }, blank 3] readV) readV a
      ∧ ((a.f.olderThan 9).map (fun fr => (fr.seq, passesV fr)) == [(3, true), (2, true), (1, false)]) = true)
    ∧ (∃ a, Fires (readyAfter [{ blank 1 with vw := 32 }] readV) readV a
      ∧ ((a.f.olderThan 9).all (fun fr => fr.vout.get? 5 == none && fr.vw.getLsbD 5)) = true) :=
  ⟨fires_of (by decide +kernel), fires_of (by decide +kernel)⟩

theorem test_meets_vread_file :
    (∃ a, Fires (ready readV) readV a ∧ ((a.f.olderThan 0).all passesV && !a.f.vpend.getLsbD 5) = true)
    ∧ (∃ a, Fires ((ready readV).modFibre 0 (fun f => { f with vpend := 32 })) readV a
      ∧ ((a.f.olderThan 0).all passesV && a.f.vpend.getLsbD 5) = true) :=
  ⟨fires_of (by decide +kernel), fires_of (by decide +kernel)⟩

/-- WritesEnterTheBlock: the first write of a register; the second one of it, after another write or a call; the second
`vwrite`. -/
theorem test_meets_write :
    let two := fun (i : Instr) => (fun (fr : Frame) => { fr with
      words := fr.words ++ [(encode i).getD 0], fired := [1], gout := [(63, .null)], vout := [(31, .null)] } : Frame → Frame)
    (∃ a, Fires (ready (.write .always 63)) (.write .always 63) a ∧ (a.fr.gout.get? 63 == none) = true)
    ∧ (∃ a, Fires (ready (.vwrite .always 31)) (.vwrite .always 31) a ∧ (a.fr.vout.get? 31 == none) = true)
    ∧ (∃ a, Fires (edit (ready (.write .always 63)) (fun fr => { fr with gout := [(63, .null)] })) (.write .always 63) a
      ∧ (a.fr.gout.get? 63 == some .null && a.fr.fired.isEmpty) = true)
    ∧ (∃ a, Fires (edit (ready (.write .always 63)) (two (.write .always 63))) (.write .always 63) a
      ∧ ((a.fr.gout.get? 63).isSome && a.fr.fired == [1] && a.fr.writeG 1 == some 63) = true)
    ∧ (∃ a, Fires (edit (ready (.vwrite .always 31)) (two (.vwrite .always 31))) (.vwrite .always 31) a
      ∧ ((a.fr.vout.get? 31).isSome && a.fr.fired == [1] && a.fr.writeV 1 == some 31) = true) :=
  ⟨fires_of (by decide +kernel), fires_of (by decide +kernel), fires_of (by decide +kernel), fires_of (by decide +kernel),
    fires_of (by decide +kernel)⟩

/-- FloatInstructionsComplete: operands of each kind in single precision, and the largest code of each format. -/
theorem test_meets_float_kinds :
    fmt32.isNaN 0xFFFFFFFF = true ∧ 0xFFFFFFFF < 2 ^ fmt32.bits ∧ fmt64.isNaN 0xFFFFFFFFFFFFFFFF = true
      ∧ 0xFFFFFFFFFFFFFFFF < 2 ^ fmt64.bits ∧ fmt32.isSNaN 0x7F800001 = true ∧ fmt32.isInf 0x7F800000 = true
      ∧ fmt32.isInf 0xFF800000 = true ∧ fmt32.neg 0xFF800000 = true ∧ fmt32.isZero (fmt32.flush true 0x80000001) = true
      ∧ fmt32.isNaN 0x3F800000 = false ∧ fmt32.isInf 0x3F800000 = false ∧ fmt32.isZero (fmt32.flush false 1) = false
      ∧ fmt32.neg 0xBF800000 = true ∧ fmt32.neg 0x3F800000 = false := by decide +kernel

/-- EachSlotTakesOneToken: an open slot and the other width; a slot that is filled; a consumer that has fired. -/
theorem test_meets_slot :
    let fr := { blank 0 with words := [0, 0x2000000000000000] }
    fr.resolve (.l 0) = none ∧ fr.resolve (.l 1) = some (1, 4, .w64, 1) ∧ 1 ∉ fr.fired ∧ fr.slots.get? 4 = none
      ∧ (Token.val 3).fits .w64 = true ∧ (Token.vec 3 0).fits .w64 = false
      ∧ ({ fr with slots := [(4, .null)] } : Frame).slots.get? 4 ≠ none ∧ 1 ∈ ({ fr with fired := [1] } : Frame).fired := by
  decide +kernel

/-- FiringKeepsRegistersAndBytes: a store fires. -/
theorem test_meets_firing : (encode (.stD .always m0)).isSome = true
    ∧ (match exec (.stD .always m0) (readyOn (.stD .always m0) (.val own) (.val 7) .null) with
      | .next t => t.accesses.length == 1 | _ => false) = true := by decide +kernel

/-! ### Hypotheses met: instructions that compute a token -/

/-- The value of every 64-bit operand is met with 0; the boundary values of division (R70's table) and of `lea`. -/
theorem test_meets_values :
    (∃ a, Fires (ready (.add .always .none .none)) (.add .always .none .none) a
      ∧ (a.fr.opL 0 == .val 0 && a.fr.opR 0 == .val 0) = true)
    ∧ (∃ a, Fires (readyOn (.div .always .none .none) (.val 0x8000000000000000) (.val (-1)) .null) (.div .always .none .none) a
      ∧ (a.fr.opL 0 == .val 0x8000000000000000 && a.fr.opR 0 == .val (-1)) = true)
    ∧ (∃ a, Fires (readyOn (.lea .always 3 0 .none) (.val own) (.val (-1)) .null) (.lea .always 3 0 .none) a
      ∧ (a.fr.opL 0 == .val own && a.fr.opR 0 == .val (-1)) = true) :=
  ⟨fires_of (by decide +kernel), fires_of (by decide +kernel), fires_of (by decide +kernel)⟩

def sel0 : Instr := .sel .always .none .none

/-- SelectTakesBitZero: values, poison beside a null, a null, and an operand that has not arrived. -/
theorem test_meets_sel :
    (∃ a, Fires (readyOn sel0 (.val 2) (.val 1) (.val 4)) sel0 a
      ∧ (a.fr.opL 0 == .val 2 && a.fr.opR 0 == .val 1 && a.fr.opX 0 == .val 4) = true)
    ∧ (∃ a, Fires (readyOn sel0 (.val 2) .null .poison) sel0 a ∧ (a.fr.opX 0 == .poison) = true)
    ∧ (∃ a, Fires (readyOn sel0 (.val 2) .null (.val 4)) sel0 a ∧ (a.fr.opR 0 == .null && a.fr.opX 0 == .val 4) = true)
    ∧ (∃ a, ((edit (ready sel0) (fun fr => { fr with slots := [] })).acting sel0 = some a) ∧ a.fr.slots = []) :=
  ⟨fires_of (by decide +kernel), fires_of (by decide +kernel), fires_of (by decide +kernel),
    ⟨_, rfl, by decide +kernel⟩⟩

def ffma0 : Instr := .ffma .always .vd .none .none

/-- PoisonThenNullGovern. -/
theorem test_meets_bad :
    computing ffma0 = true
    ∧ (∃ a, Fires (readyOn ffma0 .null (.vec 0 7) .poison) ffma0 a ∧ ((a.fr.operands 0 ffma0).contains .poison) = true)
    ∧ (∃ a, Fires (readyOn ffma0 .null (.vec 0 7) (.vec 0 7)) ffma0 a
      ∧ (!(a.fr.operands 0 ffma0).contains .poison && (a.fr.operands 0 ffma0).contains .null) = true) :=
  ⟨by decide, fires_of (by decide +kernel), fires_of (by decide +kernel)⟩

/-- The computing instructions meet operands that are neither null nor poison. -/
def valuesReady (i : Instr) : Bool := firesWith (ready i) i (fun a => badOperand (a.fr.operands 0 i) == none)
theorem test_meets_computes0 : programs0.all valuesReady = true := by decide +kernel
theorem test_meets_computes1 : programs1.all valuesReady = true := by decide +kernel
theorem test_meets_computes2 : programs2.all valuesReady = true := by decide +kernel

/-- VectorLaneResults: the operands of the primed machine are vectors and words of zeros, here the highest lane. -/
theorem test_meets_lane :
    (∃ a, Fires (ready (.vins .always .b64 7 .none)) (.vins .always .b64 7 .none) a
      ∧ (a.fr.opL 0 == .vec 0 7 && a.fr.opR 0 == .val 0) = true)
    ∧ (∃ a, Fires (ready (.vext .always .b8 63 .none)) (.vext .always .b8 63 .none) a ∧ (a.fr.opL 0 == .vec 0 7) = true)
    ∧ (∃ a, Fires (ready (.vsel .always .b8 .none .none)) (.vsel .always .b8 .none .none) a
      ∧ (a.fr.opL 0 == .vec 0 7 && a.fr.opR 0 == .vec 0 7 && a.fr.opX 0 == .val 0) = true)
    ∧ (∃ a, Fires (ready (.vcmp .always .flt .b64 .none .none)) (.vcmp .always .flt .b64 .none .none) a
      ∧ (a.fr.opL 0 == .vec 0 7 && a.fr.opR 0 == .vec 0 7) = true) :=
  ⟨fires_of (by decide +kernel), fires_of (by decide +kernel), fires_of (by decide +kernel), fires_of (by decide +kernel)⟩

/-- MovesAndConstants: a `cyc` with none before it, and one behind that of an older block. -/
theorem test_meets_cyc :
    let cyc0 : Instr := .cyc .always .none .none
    (∃ a, Fires (ready cyc0) cyc0 a ∧ (!a.f.cycBefore 0 0) = true)
    ∧ (∃ a, Fires (readyAfter [{ blank 1 with words := [(encode cyc0).getD 0] }] cyc0) cyc0 a ∧ a.f.cycBefore 9 0 = true) :=
  ⟨fires_of (by decide +kernel), fires_of (by decide +kernel)⟩

def cvtSr : Instr := .cvtN .always 4 .sr true .none .none

/-- ConversionsComplete: a stochastic conversion whose turn has come, and the others. -/
theorem test_meets_cvt :
    (∃ a, Fires (readyOn cvtSr (.vec 5 6) .null .null) cvtSr a ∧ (a.fr.opL 0 == .vec 5 6 && a.srTurn) = true)
    ∧ (∃ a, Fires (ready (.cvtN .always 5 .rtz false .none .none)) (.cvtN .always 5 .rtz false .none .none) a
      ∧ (a.fr.opL 0 == .vec 0 7) = true)
    ∧ (∃ a, Fires (ready (.bscale .always .none .none)) (.bscale .always .none .none) a ∧ (a.fr.opL 0 == .vec 0 7) = true) :=
  ⟨fires_of (by decide +kernel), fires_of (by decide +kernel), fires_of (by decide +kernel)⟩

/-! ### Hypotheses met: branches and what waits for the commit -/

def bri0 : Instr := .bri .always 0

/-- BranchesLeaveTheirBlock, with the target of the middle of address space and nothing younger in flight. -/
theorem test_meets_branch :
    (∃ a, Fires (readyOn bri0 (.val 0xFFFFFFFFFFFFFFE0) .null .null) bri0 a
      ∧ (a.fr.exits.isEmpty && a.fr.opL 0 == .val 0xFFFFFFFFFFFFFFE0 && a.fr.addr.toNat % 32 == 0) = true)
    ∧ (∃ a, Fires (ready (.br .always 7 1)) (.br .always 7 1) a ∧ (a.fr.exits.isEmpty && a.fr.addr.toNat % 32 == 0) = true)
    ∧ (∃ a, Fires (ready (.call .always 0 0)) (.call .always 0 0) a ∧ (a.fr.gout.get? 62 == none) = true)
    ∧ (∃ a, Fires (ready (.halt .always 0)) (.halt .always 0) a ∧ a.fr.exits.isEmpty = true) :=
  ⟨fires_of (by decide +kernel), fires_of (by decide +kernel), fires_of (by decide +kernel), fires_of (by decide +kernel)⟩

/-- BranchesThatCannotLeave: a null, poison, an address that no block has, and a block that has left twice already. -/
theorem test_meets_no_branch :
    let out := fun (k : Nat) => ({ idx := k, target := none, isHalt := true } : Exit)
    (∃ a, Fires (readyOn bri0 .null .null .null) bri0 a ∧ (a.fr.opL 0 == .null) = true)
    ∧ (∃ a, Fires (readyOn bri0 .poison .null .null) bri0 a ∧ (a.fr.opL 0 == .poison) = true)
    ∧ (∃ a, Fires (readyOn bri0 (.val 31) .null .null) bri0 a ∧ (a.fr.opL 0 == .val 31) = true)
    ∧ (∃ a, Fires (edit (ready bri0) (fun fr => { fr with exits := [out 5, out 3] })) bri0 a
      ∧ (a.fr.opL 0 == .val 0 && a.fr.exits.all (fun y => 3 ≤ y.idx) && a.fr.exits.contains (out 3)) = true) :=
  ⟨fires_of (by decide +kernel), fires_of (by decide +kernel), fires_of (by decide +kernel), fires_of (by decide +kernel)⟩

/-- TrapsAndBoundariesWaitForTheCommit: alone in the oldest block, and beside an `rgn.end` that has fired; `sret` at level
S, at A for S, and for a PL that is no level. -/
theorem test_meets_boundary :
    let beside := fun (i : Instr) => (fun (fr : Frame) => { fr with words := fr.words ++ [(encode i).getD 0], fired := [1] } : Frame → Frame)
    (∃ a, Fires (ready (.rgnBeg .always 0 0)) (.rgnBeg .always 0 0) a ∧ a.fr.fired.isEmpty = true)
    ∧ (∃ a, Fires (edit (ready (.rgnBeg .always 0 0)) (beside (.rgnEnd .always))) (.rgnBeg .always 0 0) a
      ∧ (a.fr.fired == [1] && a.fr.instr 1 == some (.rgnEnd .always)) = true)
    ∧ (∃ a, Fires ((ready (.sret .always)).modFibre 0 (fun f => { f with level := .s })) (.sret .always) a
      ∧ (a.f.level == .s && a.fr.fired.isEmpty) = true)
    ∧ (∃ a, Fires ((edit (ready (.sret .always)) (beside (.sret .always))).modFibre 0 (fun f => { f with level := .s })) (.sret .always) a
      ∧ (a.f.level == .s && a.fr.fired == [1] && a.fr.instr 1 == some (.sret .always)) = true)
    ∧ (∃ a, Fires ((ready (.sret .always)).modFibre 0 (fun f => { f with bankA := { f.bankA with tstat := 1 } })) (.sret .always) a
      ∧ (a.f.level == .a && nfld a.f.bankA.tstat 0 2 == 1) = true)
    ∧ (∃ a, Fires ((ready (.sret .always)).modFibre 0 (fun f => { f with bankA := { f.bankA with tstat := 2 } })) (.sret .always) a
      ∧ (nfld a.f.bankA.tstat 0 2 == 2) = true) :=
  ⟨fires_of (by decide +kernel), fires_of (by decide +kernel), fires_of (by decide +kernel), fires_of (by decide +kernel),
    fires_of (by decide +kernel), fires_of (by decide +kernel)⟩

/-- `rgn.beg` in a younger block, in the oldest one while a region is open and in a kernel that declares none. -/
theorem test_meets_region_begin :
    let b := Instr.rgnBeg .always 0 0
    (∃ a, Fires (readyAfter [blank 1] b) b a ∧ (!a.f.isOldest 9 && ((readyAfter [blank 1] b).ctxOf a.f).isSome) = true)
    ∧ (∃ a, Fires ((ready b).modFibre 0 (fun f => { f with rgn := some (0, 1) })) b a
      ∧ (a.f.isOldest 0 && a.f.rgn.isSome && a.f.answer.isNone && ((ready b).ctxOf a.f).isSome) = true)
    ∧ (∃ a, Fires (ready b) b a ∧ (a.f.isOldest 0 && a.f.rgn.isNone && a.f.rgnKept.isNone
      && ((ready b).ctxOf a.f).map (fun c => c.2.regions) == some false) = true) :=
  ⟨fires_of (by decide +kernel), fires_of (by decide +kernel), fires_of (by decide +kernel)⟩

/-- A deliberate trap in a block that has taken its branch, and that this trap ends. -/
def trapReady : State := edit (ready (.scall .always 9)) (fun fr => { fr with
  words := fr.words ++ [0x1000000000000000], fired := [1], gw := 0, vw := 0, exits := [{ idx := 1, target := some 0x80, isHalt := false }] })

theorem test_meets_deliberate :
    ∃ a, Fires trapReady (.scall .always 9) a ∧ (let fr := { a.fr with
        fired := a.fr.fired ++ [a.k], faults := a.fr.faults ++ [{ idx := a.k, cause := .scall, taddr := 0, src := .firing }] }
      decide (a.f.frames = [a.fr]) && (trapReady.ctxOf a.f).map (fun c => c.1.state) == some .running && !a.fr.waiting
        && decide (a.fr.faults = []) && a.f.rgn == none && a.f.rgnKept == none && a.fr.target == some 0x80
        && (a.commit trapReady fr).settled (a.f.setFrame fr) a.fid fr) = true := fires_of (by decide +kernel)

/-! ### Hypotheses met: memory instructions -/

/-- A memory instruction fires with values on its slots, outside or inside a region. -/
def firesAtMemory (s : State) (i : Instr) (inside : Bool) (p : Acting → Ctx → Bool) : Bool :=
  match s.acting i with
  | some a => match s.fibreCtx a.f with
    | some c => a.canFire i && noAccess i a == none && a.f.insideRegion a.fr.seq == some inside && p a c
    | none => false
  | none => false

theorem memoryFires_of {s : State} {i : Instr} {inside : Bool} {p : Acting → Ctx → Bool} (h : firesAtMemory s i inside p = true) :
    ∃ a c, MemoryFires s i a c inside ∧ p a c = true := by
  unfold firesAtMemory at h
  split at h
  · rename_i a ha
    split at h
    · rename_i c hc
      simp only [Bool.and_eq_true, beq_iff_eq] at h
      exact ⟨a, c, ⟨⟨ha, h.1.1.1⟩, h.1.1.2, h.1.2, hc⟩, h.2⟩
    · cases h
  · cases h

/-- The check of `n` bytes at an address passes, or fails with a cause. -/
def passes (s : State) (c : Ctx) (w : Want) (va : Word) (n : Nat) : Bool :=
  match (s.check c w va n).1 with | .ok _ => true | .error _ => false
def failsWith (s : State) (c : Ctx) (w : Want) (va : Word) (n : Nat) (e : Cause × Word) : Bool :=
  match (s.check c w va n).1 with | .ok _ => false | .error x => x == e

def plain (k : AccKind) (n : Nat) : Want := { kind := k, align := n, inRegion := false, formats := [], amo := none }
def onOwn (i : Instr) : State := readyOn i (.val own) (.val 0) .null

/-- LoadsAndStoresEnterTheQueue: the own cell's last bytes, with and without the order that asks for alignment. -/
theorem test_meets_load :
    (∃ a c, MemoryFires (onOwn (.ldD .always ⟨3, .cell, .acq, 8⟩ .none .none)) (.ldD .always ⟨3, .cell, .acq, 8⟩ .none .none) a c false
      ∧ (a.fr.opL 0 == .val own && passes (onOwn (.ldD .always ⟨3, .cell, .acq, 8⟩ .none .none)) c (plain .load 8) (own + 8) 8) = true)
    ∧ (∃ a c, MemoryFires (onOwn (.vld .always true m0 .none .none)) (.vld .always true m0 .none .none) a c false
      ∧ (passes (onOwn (.vld .always true m0 .none .none)) c (plain .load 64) own 64) = true)
    ∧ (∃ a c, MemoryFires (onOwn (.stH .always ⟨31, .fibre, .rlx, 0xFFFFE⟩)) (.stH .always ⟨31, .fibre, .rlx, 0xFFFFE⟩) a c false
      ∧ (passes (onOwn (.stH .always ⟨31, .fibre, .rlx, 0xFFFFE⟩)) c (plain .store 1) (own + 0xFFFFE) 2) = true) :=
  ⟨memoryFires_of (by decide +kernel), memoryFires_of (by decide +kernel), memoryFires_of (by decide +kernel)⟩

/-- A store whose data alone is poison, and checks that fail. -/
theorem test_meets_store_fault :
    let st := Instr.stD .always ⟨1, .cell, .rel, 0xFFFFC⟩
    (∃ a c, MemoryFires (readyOn (.stD .always m0) (.val own) .poison .null) (.stD .always m0) a c false ∧ (a.fr.opR 0 == .poison) = true)
    ∧ (∃ a c, MemoryFires (onOwn st) st a c false ∧ failsWith (onOwn st) c (plain .store 8) (own + 0xFFFFC) 8 (.align, own + 0xFFFFC) = true)
    ∧ (∃ a c, MemoryFires (onOwn (.ldW .always ⟨1, .fibre, .rlx, 0xFFFFE⟩ .none .none)) (.ldW .always ⟨1, .fibre, .rlx, 0xFFFFE⟩ .none .none) a c false
      ∧ failsWith (onOwn (.ldW .always ⟨1, .fibre, .rlx, 0xFFFFE⟩ .none .none)) c (plain .load 1) (own + 0xFFFFE) 4
        (.windowSpan, own + 0xFFFFE) = true) :=
  ⟨memoryFires_of (by decide +kernel), memoryFires_of (by decide +kernel), memoryFires_of (by decide +kernel)⟩

def gather0 : Instr := .vgather .always .d m0 .none .none
def scatter0 : Instr := .vscatter .always .w m0
def onOwnLanes (i : Instr) : State := readyOn i (.val own) (.vec 0x1FFF 7) (.vec 5 7)

/-- GathersScattersAndAtomicsEnterTheQueue: every lane in the own cell; an atomic there. -/
theorem test_meets_gather :
    (∃ a c, MemoryFires (onOwnLanes gather0) gather0 a c false ∧ (match (checkLanes c (plain .load 8) a m0 .d (fun _ => [])
        (List.range 8) [] (onOwnLanes gather0)).1 with | .ok _ => true | .error _ => false) = true)
    ∧ (∃ a c, MemoryFires (onOwnLanes scatter0) scatter0 a c false ∧ (match (checkLanes c (plain .store 4) a m0 .w (fun _ => [])
        (List.range 16) [] (onOwnLanes scatter0)).1 with | .ok _ => true | .error _ => false) = true)
    ∧ (∃ a c, MemoryFires (onOwn (.amoFadd .always m0 .none .none)) (.amoFadd .always m0 .none .none) a c false
      ∧ passes (onOwn (.amoFadd .always m0 .none .none)) c { kind := .atomic, align := 4, inRegion := false, formats := [6, 7], amo := some (3, 4) }
        own 4 = true) :=
  ⟨memoryFires_of (by decide +kernel), memoryFires_of (by decide +kernel), memoryFires_of (by decide +kernel)⟩

/-- The second lane of a gather beyond the cell, and a misaligned atomic. -/
theorem test_meets_gather_fault :
    let far := readyOn gather0 (.val own) (.vec ((0x20000 <<< 64) + 0x1FFFF) 7) (.vec 5 7)
    let amo := Instr.amoCas .always .d ⟨1, .fibre, .rlx, 4⟩ .none .none
    let both := readyOn amo (.val own) (.val 0) (.val 0)
    (∃ a c, MemoryFires far gather0 a c false ∧ (match checkLanes c (plain .load 8) a m0 .d (fun _ => []) [0] [] far with
      | (.ok _, s') => failsWith s' c (plain .load 8) (elementVa a m0 .d 1) 8 (.pageMiss, elementVa a m0 .d 1)
      | _ => false) = true)
    ∧ (∃ a c, MemoryFires both amo a c false ∧ failsWith both c
      { kind := .atomic, align := 8, inRegion := false, formats := [7, 5], amo := some (2, 8) } (own + 4) 8 (.align, own + 4) = true) :=
  ⟨memoryFires_of (by decide +kernel), memoryFires_of (by decide +kernel)⟩

/-- PrefetchesFencesAndCacheOperations: a range of no bytes, and one that ends where the address space does. -/
theorem test_meets_cache_op :
    (∃ a c, MemoryFires (readyOn (.cinv .always 0) (.val 0x1FFFFFFFFFFFFF0) (.val 16) .null) (.cinv .always 0) a c false
      ∧ (a.fr.opL 0 == .val 0x1FFFFFFFFFFFFF0 && a.fr.opR 0 == .val 16) = true)
    ∧ (∃ a c, MemoryFires (ready (.cwb .always 0)) (.cwb .always 0) a c false ∧ (a.fr.opR 0 == .val 0) = true)
    ∧ (∃ a c, MemoryFires ((ready (.pf .always 0 0)).modFibre 0 (fun f => { f with rgn := some (0, 1) })) (.pf .always 0 0) a c true
      ∧ true = true)
    ∧ (∃ a c, MemoryFires (ready (.fence .always 0 .system .ar)) (.fence .always 0 .system .ar) a c false ∧ true = true) :=
  ⟨memoryFires_of (by decide +kernel), memoryFires_of (by decide +kernel), memoryFires_of (by decide +kernel)
    , memoryFires_of (by decide +kernel)⟩

/-- A range that ends one byte beyond the address space, and one inside a region. -/
theorem test_meets_cache_fault :
    (∃ a c, MemoryFires (readyOn (.cinv .always 0) (.val 0x1FFFFFFFFFFFFF0) (.val 17) .null) (.cinv .always 0) a c false
      ∧ (a.fr.opL 0 == .val 0x1FFFFFFFFFFFFF0 && a.fr.opR 0 == .val 17 && decide (2 ^ 57 < 0x1FFFFFFFFFFFFF0 + 17)) = true)
    ∧ (∃ a c, MemoryFires ((ready (.cwb .always 0)).modFibre 0 (fun f => { f with rgn := some (0, 1) })) (.cwb .always 0) a c true
      ∧ (a.fr.opL 0 == .val 0) = true) :=
  ⟨memoryFires_of (by decide +kernel), memoryFires_of (by decide +kernel)⟩

def ctx0 : Ctx := ((ready gather0).fibreCtx (theFibre (ready gather0))).getD { g := Group.fresh 0 0 0 0 0, l := primeLaunch, cell := 9, x := (theFibre (ready gather0)).xlate }

/-- AccessChecksAndRefusals and WindowsReachCellMemory: each check where it is the first to fail, and the edges of the windows. -/
theorem test_meets_check :
    nfld (0x0200000000000000 : Word) 57 7 ≠ 0 ∧ nfld (own + 1) 57 7 = 0 ∧ (own + 1).toNat % 8 ≠ 0
    ∧ failsWith State.reset ctx0 (plain .load 8) (own + 0x100000000 + 0x100000) 8 (.peer, own + 0x100000000 + 0x100000) = true
    ∧ passes State.reset ctx0 { plain .load 1 with inRegion := true } (own + 0xFFFF8) 8 = true
    ∧ nfld own 48 16 = 0x1F0 ∧ nfld own 0 48 = 0 ∧ nfld (own + 0xFFFFF) 0 48 % 0x100000 + 1 ≤ 0x100000
    ∧ 0x100000000 ≤ nfld (own + 0x100000000) 0 48 ∧ nfld (own + 0x100000000) 0 48 / 0x100000 % 4096 < ctx0.l.cells
    ∧ ctx0.l.cells ≤ nfld (own + 0x100100000) 0 48 / 0x100000 % 4096 ∧ 0x200000000 ≤ nfld (own + 0x200000000) 0 48
    ∧ 0x100000 ≤ nfld (own + 0x100000) 0 48 := by decide +kernel

/-- The cell of the context with a page of host memory at address 0 in its TLB: non-coherent, or coherent. -/
def withHostPage (cc : Nat) : State :=
  State.reset.setCell ctx0.cell { CellSt.init with
    tlb := [{ asn := 0, vpage := 0, shift := 16, leaf := 0x8000000000E3F + BitVec.ofNat 64 (64 * cc) }] }

/-- The type of an atomic, the AtomicOp that no completer has, host memory in a region, and a store to cell memory there. -/
theorem test_meets_check_causes :
    failsWith State.reset ctx0 { plain .atomic 4 with formats := [5], amo := some (0, 4) } own 4 (.atomType, own) = true
    ∧ failsWith (withHostPage 2) ctx0 { plain .atomic 8 with formats := [7, 5], amo := some (3, 8) } 0 8 (.atomUnsup, 0) = true
    ∧ failsWith (withHostPage 1) ctx0 { plain .load 1 with inRegion := true } 0 8 (.rgnSpace, 0) = true
    ∧ failsWith State.reset ctx0 { plain .store 1 with inRegion := true } own 8 (.rgnLocal, own) = true
    ∧ passes State.reset ctx0 { plain .atomic 8 with formats := [7, 5], amo := some (3, 8) } own 8 = true := by decide +kernel

def ld0 : Instr := .ldD .always m0 .none .none
def st0 : Instr := .stD .always ⟨0, .cell, .rel, 1⟩

theorem test_meets_refused_access :
    (∃ a c, MemoryFires (readyOn ld0 (.val 0) .null .null) ld0 a c false
      ∧ (a.fr.opL 0 == .val 0 && failsWith (readyOn ld0 (.val 0) .null .null) c (plain .load 1) 0 8 (.pageMiss, 0)) = true)
    ∧ (∃ a c, MemoryFires (onOwn st0) st0 a c false
      ∧ (a.fr.opL 0 == .val own && failsWith (onOwn st0) c (plain .store 8) (own + 1) 8 (.align, own + 1)) = true) :=
  ⟨memoryFires_of (by decide +kernel), memoryFires_of (by decide +kernel)⟩

/-! ### Hypotheses met: system instructions and engine commands -/

def srdA : Instr := .srd .always 0x010 .none .none
def srdM : Instr := .srd .always 0x210 .none .none
def swrM : Instr := .swr .always 0x210

/-- SystemRegistersKeepTheirLevelAndBits: a register that level A covers, one of M, and a younger block; a value and a null
to write. -/
theorem test_meets_sysreg :
    (∃ a, Fires (ready srdA) srdA a ∧ (a.f.isOldest 0 && (readLevel a.f 0x010).code ≤ a.f.level.code) = true)
    ∧ (∃ a, Fires (ready srdM) srdM a ∧ (a.f.isOldest 0 && a.f.level.code < (readLevel a.f 0x210).code) = true)
    ∧ (∃ a, Fires (readyAfter [blank 1] srdA) srdA a ∧ (!a.f.isOldest 9) = true)
    ∧ (∃ a, Fires ((ready swrM).modFibre 0 (fun f => { f with level := .m })) swrM a
      ∧ ((writeLevel a.f 0x210).code ≤ a.f.level.code && a.fr.opL 0 == .val 0) = true)
    ∧ (∃ a, Fires ((readyOn swrM .null .null .null).modFibre 0 (fun f => { f with level := .m })) swrM a
      ∧ ((writeLevel a.f 0x210).code ≤ a.f.level.code && a.fr.opL 0 == .null) = true)
    ∧ (∃ a, Fires (ready swrM) swrM a ∧ (decide (a.f.level.code < (writeLevel a.f 0x210).code)) = true)
    ∧ nfld Bank.init.tstat 3 61 = 0 ∧ nfld (3 : Word) 0 2 = 3 ∧ Level.s.code < 3 :=
  ⟨fires_of (by decide +kernel), fires_of (by decide +kernel), fires_of (by decide +kernel), fires_of (by decide +kernel)
    , fires_of (by decide +kernel), fires_of (by decide +kernel), by decide +kernel, by decide +kernel, by decide⟩

/-- An instruction of R204 in the oldest block, outside regions, with everything before it done. -/
def performsAt (s : State) (i : Instr) (p : Acting → Group → Launch → Bool) : Bool :=
  match s.acting i with
  | some a => match s.ctxOf a.f with
    | some (g, l) => a.canFire i && badOperand (a.fr.operands a.k i) == none && a.f.insideRegion a.fr.seq == some false
        && a.f.isOldest a.fr.seq && decide (a.fr.faults = []) && s.blockDone a && p a g l
    | none => false
  | none => false

theorem performs_of {s : State} {i : Instr} {p : Acting → Group → Launch → Bool} (h : performsAt s i p = true) :
    ∃ a g l, Performs s i a g l ∧ p a g l = true := by
  unfold performsAt at h
  split at h
  · rename_i a ha
    split at h
    · rename_i g l hc
      simp only [Bool.and_eq_true, beq_iff_eq, decide_eq_true_eq] at h
      obtain ⟨⟨⟨⟨⟨⟨h1, h2⟩, h3⟩, h4⟩, h5⟩, h6⟩, h7⟩ := h
      exact ⟨a, g, l, ⟨⟨ha, h1⟩, h2, h3, hc, h4, h5, h6⟩, h7⟩
    · cases h
  · cases h

/-- The primed machine whose group has a barrier 0. -/
def withBar (s : State) (b : Barrier) : State := s.setGroup 0 { (s.group? 0).getD (Group.fresh 0 0 0 0 0) with bars := [(0, b)] }
def bar1 : Barrier := { count := 1, limit := 2, phase := 3, arrivals := [0, 0], next := [] }
def barInit0 : Instr := .barInit .always 0 1
def barArr0 : Instr := .barArr .always 0 .none .none
def barWait0 : Instr := .barWait .always 0

/-- BarriersCountArrivals: the same shape, another shape and none; an arrival that may run one phase ahead, and a phase that
has passed. -/
theorem test_meets_barrier :
    (∃ a g l, Performs (withBar (readyOn barInit0 (.val 1) .null .null) bar1) barInit0 a g l
      ∧ (a.fr.opL 0 == .val 1 && l.fibres == 1 && g.bars.get? 0 == some bar1) = true)
    ∧ (∃ a g l, Performs (withBar (readyOn barInit0 (.val 1) .null .null) { bar1 with limit := 1 }) barInit0 a g l
      ∧ (g.bars.get? 0 != some bar1) = true)
    ∧ (∃ a g l, Performs (withBar (ready barArr0) { bar1 with next := [(0, 4)] }) barArr0 a g l
      ∧ ((withBar (ready barArr0) bar1).allDone a && (match g.bars.get? 0 with
        | some x => max (x.next.getD a.fid 0) x.phase < x.phase + x.limit | none => false)) = true) :=
  ⟨performs_of (by decide +kernel), performs_of (by decide +kernel), performs_of (by decide +kernel)⟩

/-- A count of 0, one above the fibres of the group, and an arrival a phase too far ahead. -/
theorem test_meets_barrier_bad :
    (∃ a g l, Performs (ready barInit0) barInit0 a g l ∧ (a.fr.opL 0 == .val 0) = true)
    ∧ (∃ a g l, Performs (readyOn barInit0 (.val 2) .null .null) barInit0 a g l ∧ (a.fr.opL 0 == .val 2 && l.fibres == 1) = true)
    ∧ (∃ a g l, Performs (withBar (ready barArr0) { bar1 with next := [(0, 5)] }) barArr0 a g l
      ∧ (!(withBar (ready barArr0) { bar1 with next := [(0, 5)] }).effectStands 0 a.fr && (match g.bars.get? 0 with
        | some x => x.phase + x.limit ≤ max (x.next.getD a.fid 0) x.phase | none => false)) = true) :=
  ⟨performs_of (by decide +kernel), performs_of (by decide +kernel), performs_of (by decide +kernel)⟩

theorem test_meets_barrier_wait :
    (∃ a, Fires (withBar (readyOn barWait0 (.val 2) .null .null) bar1) barWait0 a ∧ (a.f.isOldest 0 && decide (a.fr.faults = [])
      && a.fr.opL 0 == .val 2 && !(withBar (readyOn barWait0 (.val 2) .null .null) bar1).effectStands 0 a.fr && ((withBar (readyOn barWait0 (.val 2) .null .null) bar1).ctxOf a.f).isSome) = true)
    ∧ bar1.arrivals.length = bar1.limit ∧ 1 ≤ bar1.limit ∧ max (bar1.next.getD 0 0) bar1.phase < bar1.phase + bar1.limit
    ∧ bar1.arrivals.getD 0 0 + 1 = bar1.count ∧ max (bar1.next.getD 0 0) bar1.phase = bar1.phase :=
  ⟨fires_of (by decide +kernel), by decide +kernel, by decide +kernel, by decide +kernel, by decide +kernel, by decide +kernel⟩

def evtSig0 : Instr := .evtSig .always .module
def evtWait0 : Instr := .evtWait .always .module

/-- EventsAndQueuesServeTheirPartition: the last event of the partition and the first of the next one; a wait met by
equality. -/
theorem test_meets_event :
    (∃ a g l, Performs (readyOn evtSig0 (.val 511) (.val 1) .null) evtSig0 a g l
      ∧ (a.fr.opL 0 == .val 511 && l.part == 0 && (ready evtSig0).allDone a) = true)
    ∧ (∃ a g l, Performs (readyOn evtSig0 (.val 512) (.val 1) .null) evtSig0 a g l ∧ (a.fr.opL 0 == .val 512 && l.part == 0) = true)
    ∧ (∃ a, Fires (readyOn evtWait0 (.val 511) (.val 0) .null) evtWait0 a ∧ (a.f.isOldest 0 && decide (a.fr.faults = [])
      && a.fr.opR 0 == .val 0 && (ready evtWait0).event 511 == 0 && !(ready evtWait0).effectStands 0 a.fr) = true) :=
  ⟨performs_of (by decide +kernel), performs_of (by decide +kernel), fires_of (by decide +kernel)⟩

def give0 : Instr := .wqGive .always .module .none .none
def take0 : Instr := .wqTake .always .module .none .none
def steal0 : Instr := .wqSteal .always .module .none .none
def withQueue (s : State) (xs : List Word) : State := { s with queues := [(31, { lid := 0, items := xs, damaged := 0 })] }
def giveAt (x : Word) (s : State → State) : State := s (readyOn give0 (.val 31) (.val x) .null)

theorem test_meets_give :
    (∃ a g l, Performs (giveAt 5 id) give0 a g l ∧ (a.fr.opL 0 == .val 31 && l.part == 0 && a.fr.opR 0 == .val 5
      && (giveAt 5 id).allDone a && (giveAt 5 id).queues.get? 31 == none) = true)
    ∧ (∃ a g l, Performs (giveAt (BitVec.allOnes 64) (fun s => withQueue s [])) give0 a g l
      ∧ (a.fr.opR 0 == .val (BitVec.allOnes 64) && l.part == 0) = true)
    ∧ (∃ a g l, Performs (giveAt 5 (fun s => withQueue s [6])) give0 a g l ∧ (a.fr.opR 0 == .val 5 && l.part == 0) = true) :=
  ⟨performs_of (by decide +kernel), performs_of (by decide +kernel), performs_of (by decide +kernel)⟩

/-- A full queue: it holds 2^20 items. -/
theorem performs_whatever_queues {s : State} {i : Instr} {a : Acting} {g : Group} {l : Launch} (q : Dict Queue)
    (h : Performs s i a g l) : Performs { s with queues := q } i a g l :=
  ⟨⟨h.fires.1, h.fires.2⟩, h.values, h.outside, h.ctx, h.oldest, h.clean, h.done⟩

theorem test_meets_full_queue (xs : List Word) (_ : 2 ^ 20 ≤ xs.length) :
    ∃ a g l, Performs (giveAt 5 (fun s => withQueue s xs)) give0 a g l ∧ (a.fr.opR 0 == .val 5 && l.part == 0) = true := by
  obtain ⟨a, g, l, h, hp⟩ := performs_of (s := giveAt 5 id) (i := give0)
    (p := fun a _ l => a.fr.opR 0 == .val 5 && l.part == 0) (by decide +kernel)
  exact ⟨a, g, l, performs_whatever_queues _ h, hp⟩

theorem test_meets_take :
    (∃ a g l, Performs (withQueue (readyOn take0 (.val 31) .null .null) [7, 8]) take0 a g l ∧ (a.fr.opL 0 == .val 31 && l.part == 0) = true)
    ∧ (∃ a g l, Performs (withQueue (readyOn steal0 (.val 31) .null .null) [7, 8]) steal0 a g l ∧ (a.fr.opL 0 == .val 31) = true)
    ∧ (∃ a g l, Performs (withQueue (readyOn take0 (.val 31) .null .null) []) take0 a g l ∧ (a.fr.opL 0 == .val 31) = true) :=
  ⟨performs_of (by decide +kernel), performs_of (by decide +kernel), performs_of (by decide +kernel)⟩

/-- A queue and an event of another partition. -/
theorem test_meets_foreign :
    (∃ a g l, Performs (readyOn take0 (.val 32) .null .null) take0 a g l ∧ (a.fr.opL 0 == .val 32 && l.part == 0) = true)
    ∧ (∃ a, Fires (readyOn evtWait0 (.val 512) (.val 0) .null) evtWait0 a ∧ (a.fr.opL 0 == .val 512
      && ((readyOn evtWait0 (.val 512) (.val 0) .null).ctxOf a.f).map (fun c => c.2.part) == some 0) = true) :=
  ⟨performs_of (by decide +kernel), fires_of (by decide +kernel)⟩

def launch0 : Instr := .launch .always .none .none
def launchReady (on : Word) : State := (onOwn launch0).setReg 0x380 on
def badRecord : State := { launchReady 1 with badChunks := [ctx0.cell * 16384 + 1] }

/-- LaunchTakesTheRecord: a record in cell memory with the partition's window on, and off; what it reads and writes. -/
theorem test_meets_launch :
    (∃ a g l, Performs (launchReady 1) launch0 a g l ∧ (let s := launchReady 1
      s.allDone a && launchFault a s == none && !s.closed && !s.mapHeld && (s.taking.get? 16).isNone && l.part == 0
      && (match s.fibreCtx a.f with
        | none => false
        | some c => launchRefuses a c l s == none && (s.checkWaits c (plain .load 64) (a.fr.opL 0).word 240).isNone
          && match s.engineReads (s.recordPlaces c (a.fr.opL a.k).word) with
          | (none, _) => false
          | (some bs, s1) =>
            let slot := s1.slotAddr 16 (s1.expected 16)
            (s1.engineWrites (halvesOf (hbmLoc slot) (((dwordsOf bs).set 16 (setFld ((dwordsOf bs).getD 16 0) 0 12
              (fld a.f.xroot 52 12))).flatMap (fun x => natLe 8 x.toNat)) ++ [(hbmLoc (slot + 248), natLe 8 1)])).1.isSome)) = true)
    ∧ (∃ a g l, Performs (launchReady 0) launch0 a g l ∧ (launchFault a (launchReady 0) == none
      && (launchReady 0).allDone a && !(launchReady 0).winOn 16) = true)
    ∧ (∃ a g l, Performs badRecord launch0 a g l
      ∧ (badRecord.allDone a && launchFault a badRecord == none && badRecord.winOn 16
        && (match badRecord.fibreCtx a.f with | some c => launchRefuses a c l badRecord == some (.uncorr, own) | none => false)) = true)
    ∧ (∃ a c, MemoryFires (readyOn launch0 (.val 4) .null .null) launch0 a c false
      ∧ (launchFault a (readyOn launch0 (.val 4) .null .null) == some (.align, 4)) = true) :=
  ⟨performs_of (by decide +kernel), performs_of (by decide +kernel), performs_of (by decide +kernel), memoryFires_of (by decide +kernel)⟩

def mma0 : Instr := .mma .always 5 0 3
def cmtag0 : Instr := .cmtag .always 4 true

/-- CommandsWaitForTheCommit: a descriptor, a barrier, a tile and a range of the own cell; no earlier command of the
block has the same register. -/
theorem test_meets_command :
    (∃ a c, MemoryFires (onOwn (.cpy .always 5)) (.cpy .always 5) a c false
      ∧ (own.toNat % 128 == 0 && inOwnCell c own && a.fr.opL 0 == .val own && a.fr.fired.isEmpty) = true)
    ∧ (∃ a c, MemoryFires (ready (.mld .always 5 0)) (.mld .always 5 0) a c false ∧ (a.fr.opL 0 == .val 0 && a.fr.fired.isEmpty) = true)
    ∧ (∃ a c, MemoryFires (ready mma0) mma0 a c false ∧ a.fr.fired.isEmpty = true)
    ∧ (∃ a c, MemoryFires (readyOn cmtag0 (.val (own + 0xFF000)) (.val 0x1000) .null) cmtag0 a c false
      ∧ (inOwnCell c (own + 0xFF000) && a.fr.opR 0 == .val 0x1000) = true) :=
  ⟨memoryFires_of (by decide +kernel), memoryFires_of (by decide +kernel), memoryFires_of (by decide +kernel)
    , memoryFires_of (by decide +kernel)⟩

/-- WalksAndTlbInvalidation: `tlbinv` at level M on a value and on a null, at level A, and in a region. -/
theorem test_meets_tlbinv :
    let i := Instr.tlbinv .always .module true
    let j := Instr.tlbinv .always .cell false
    let atM := fun (f : Fibre) => { f with level := .m }
    (∃ a, Fires ((ready i).modFibre 0 atM) i a ∧ (a.f.level != .a && a.f.insideRegion 0 == some false
      && badOperand (a.fr.operands 0 i) == none) = true)
    ∧ (∃ a, Fires ((readyOn j .null .null .null).modFibre 0 atM) j a ∧ (a.f.level != .a && a.f.insideRegion 0 == some false
      && badOperand (a.fr.operands 0 j) == some .null) = true)
    ∧ (∃ a, Fires (ready j) j a ∧ (a.f.level == .a && a.f.insideRegion 0 == some false) = true)
    ∧ (∃ a, Fires ((ready j).modFibre 0 (fun f => { f with level := .s, rgn := some (0, 1) })) j a
      ∧ (a.f.level != .a && a.f.insideRegion 0 == some true) = true)
    ∧ (∃ a, Fires ((ready j).modFibre 0 (fun f => { f with rgn := some (0, 1) })) j a
      ∧ (a.f.level == .a && a.f.insideRegion 0 == some true) = true) :=
  ⟨fires_of (by decide +kernel), fires_of (by decide +kernel), fires_of (by decide +kernel), fires_of (by decide +kernel),
    fires_of (by decide +kernel)⟩

/-! ### Hypotheses met: blocks -/

/-- The primed machine without its turn, its fibre and its only block changed. -/
def still (f : Fibre → Fibre) (fr : Frame → Frame) : State :=
  let s := (ready (.halt .always 0)).modFibre 0 (fun x => f { x with frames := x.frames.map fr })
  { s with cur := none, turn := none }

/-- Cell 0 with a page of text at address 0 in its TLB and its instruction cache. -/
def withText (s : State) : State :=
  s.setCell 0 { s.cell 0 with
    tlb := [{ asn := 0, vpage := 0, shift := 16, leaf := 0xE3F }]
    icache := [(0, List.replicate 128 0), (64, List.replicate 128 0)] }

/-- FramesAreGrantedAndBlocksFetched: one fibre ready, no frame in use; a granted frame whose text is at hand. -/
def toGrant : State := still (fun f => { f with frames := [], next := some 0x40 }) id

theorem test_meets_grant : toGrant.framesIn 0 < 16 ∧ ∃ f, toGrant.granted 0 = some (0, f) ∧ toGrant.fibre? 0 = some f :=
  ⟨by decide +kernel, _, rfl, rfl⟩

def toFetch : State := withText (still id (fun _ => Frame.fresh 0 0x40))

theorem test_meets_fetch :
    let f := theFibre toFetch
    let fr := Frame.fresh 0 0x40
    let r := ({ toFetch with tick := toFetch.tick + 1 } : State).fetchUnits ctx0 0 0x40 [0] [] []
    f.frame? 0 = some fr ∧ toFetch.fibreCtx f = some ctx0 ∧ fr.fetched = false ∧ f.ringFault = false
      ∧ r.1 = some (List.replicate 32 0, [])
      ∧ (r.2.fetchUnits ctx0 0 0x40 ((List.range (2 * (leNat (List.replicate 32 0) % 16 + 1))).map (· + 1)) [] []).1
        = some (List.replicate 64 0, [])
      ∧ (let loaded := ({ fr with faults := [] } : Frame).load (List.replicate 32 0) (List.replicate 64 0)
         let guess := loaded.guessed f.returnStack toFetch.tick
         f.pendingName { loaded with guess := guess.1, popped := guess.2 } = none) := by decide +kernel

def gone : Frame → Frame := fun fr =>
  { fr with gw := 0, vw := 0, fired := [0], exits := [{ idx := 0, target := none, isHalt := false }] }

/-- CommitEntersRegisters, and its two kinds of register: a value, a null and none. -/
theorem test_meets_commit :
    let s := still id gone
    let f := theFibre s
    let fr := f.frames.headD (blank 9)
    f.frames = [fr] ∧ (s.ctxOf f).map (fun c => c.1.state) = some .running ∧ fr.complete = true ∧ fr.quiet = true
      ∧ fr.waiting = false ∧ fr.faults = [] ∧ f.stepped = false ∧ fr.dbg = false ∧ f.pendingName fr = none ∧ fr.swrs = []
      ∧ fr.cmds = [] ∧ s.engineRoom (s.cellOf f) fr = true ∧ fr.srng = [] ∧ fr.halts = false ∧ f.rgn = none ∧ fr.firedAt isRgnBeg = none
      ∧ fr.firedAt isSret = none ∧ fr.firedAt isYield = none
      ∧ Dict.rising ([(0, .val 1), (63, .null)] : Dict Token) = true := by decide +kernel

/-- CommitEntersRegisters: a block with one `swr`, of a plain and of a translation register, and one with one command. -/
theorem test_meets_commit_hands_over :
    let w := fun (num : Nat) => still id (fun fr => { gone fr with swrs := [(0, num, 5)] })
    let c := still id (fun fr => { gone fr with cmds := [{ idx := 0, ins := .cpy .always 5, a := own, b := 0 }] })
    let ok := fun (s : State) => (theFibre s).frames.all (fun fr => fr.complete && fr.quiet && !fr.waiting && fr.faults.isEmpty
      && !fr.dbg && ((theFibre s).pendingName fr).isNone && s.engineRoom (s.cellOf (theFibre s)) fr && fr.srng.isEmpty && !fr.halts)
    ok (w 0) = true ∧ ok (w 0x030) = true ∧ ok c = true ∧ (w 0).transferOpen 0 0 = false ∧ isXlateReg 0 = false
      ∧ isXlateReg 0x030 = true
      ∧ ((w 0x030).setCell 0 { CellSt.init with copies := [{ id := 0, kind := .copy, fid := 0, sreg := 5, addr := own, expect := 0
                                                             xl := (theFibre (still id id)).xlate, upTo := 0, desc := none, started := false
                                                             pos := 0, added := 0, buf := [], fmts := [], stamped := [], told := 0
                                                             stop := none, markDue := false }] }).transferOpen 0 0 = true
      ∧ sregOf (.cpy .always 5) = some 5 ∧ isNodeCmd (.mzero .always 7) = true := by decide +kernel

def broken : Frame → Frame := fun fr => { fr with fired := [0], faults := [{ idx := 0, cause := .trap, taddr := 0, src := .firing }] }

/-- TrapEntersTheHandler: a deliberate trap of the oldest block at level A, with a handler of each level. -/
theorem test_meets_trap :
    let s := still (fun f => { f with bankM := { f.bankM with tvec := 32 }, mdeleg := 0x100, sdeleg := 0x100 }) broken
    let f := theFibre s
    let fr := f.frames.headD (blank 9)
    f.frames = [fr] ∧ (s.ctxOf f).map (fun c => c.1.state) = some .running ∧ fr.waiting = false ∧ fr.faults ≠ []
      ∧ s.settled f 0 fr = true ∧ fr.report = some { idx := 0, cause := .trap, taddr := 0, src := .firing } ∧ f.rgn = none
      ∧ f.rgnKept = none ∧ f.bankM.tvec ≠ 0 ∧ f.level = .a ∧ f.mdeleg.getLsbD Cause.trap.code = true
      ∧ f.sdeleg.getLsbD Cause.trap.code = true ∧ f.mdeleg.getLsbD Cause.ill.code = false := by decide +kernel

/-- ReturnRestoresLevelAndBlock. -/
theorem test_meets_return : (theFibre (still id id)).held = none ∧ (theFibre (still id id)).rgnKept = none := by decide +kernel

/-! ### Hypotheses met: reads and writes at their homes -/

/-- An access of fibre 0 to 4 bytes at a place, and the still machine that holds it. -/
def pieceAt (sp : Space) (a : Nat) (data : List Byte) : Piece :=
  { loc := { space := sp, addr := a, key := 0, ca := false, declared := false }, va := 0, pos := 0, data := data, n := 4
    stage := .held, bad := false }
def accessOf (i : Instr) (p : Piece) : Access :=
  { fid := 0, seq := 0, lsid := 0, idx := 0, ins := i, pieces := [p], opr := 5, opx := 6, tag := 7, cell := 0, xl := (theFibre (still id id)).xlate, inside := false, rgn := none
    released := true, replied := false, acked := false, stale := false, poison := false, old := 0 }
def holding (x : Access) : State := { still (fun f => { f with frames := [] }) id with accesses := [(0, x)], nextId := 1 }
def done (p : Piece) : Piece := { p with stage := .done }

def ldw : Instr := .ldW .always m0 .none .none
def stw : Instr := .stW .always m0
def amo : Instr := .amoAdd .always .w m0 .none .none

/-- LoadsReadTheirPlaceAndReply: a value that has come back, one with a poisoned byte, and one that has read marked data; an
atomic; reads of cell memory, HBM and a line. -/
theorem test_meets_reply :
    let x := accessOf ldw (done (pieceAt .cell 0 [1, 2, 3, 0x84]))
    let y := accessOf ldw { done (pieceAt .cell 0 [0, 0, 0, 0]) with bad := true, va := 8 }
    let z := accessOf amo (done (pieceAt .cell 0 []))
    reads x.ins = true ∧ x.landed = true ∧ x.replied = false ∧ x.poison = false ∧ x.badAt = none ∧ isAtomic x.ins = false
      ∧ ({ x with poison := true } : Access).landed = true ∧ y.landed = true ∧ y.badAt = some 8
      ∧ reads z.ins = true ∧ isAtomic z.ins = true ∧ z.pieces.all (fun p => ((holding z).ringOf p.loc).isNone) = true
      ∧ (holding x).accesses.get? 0 = some x := by decide +kernel

/-- The half of the first entry that a walk for an address 0 of fibre 0 reads, in a host. -/
def hostHoldsTable (s : State) : State :=
  { s with hdm := ((s.walkReads 0 0 4 (nfld (theFibre s).xroot 12 40 * 4096)).map (fun a => (halfOf a, true))).take 1 }

/-- No load, store, atomic, gather or prefetch of the statements waits at its table entries; those at address 0 wait while
a host holds the first entry; a load of system scope that acquires, alone in its block, and one beside a load that has begun. -/
theorem test_meets_waits :
    (State.checkWaits (onOwn st0) ctx0 (plain .store 8) own 8).isNone = true
    ∧ (State.checkWaits (onOwn st0) ctx0 { plain .atomic 4 with amo := some (0, 4) } own 4).isNone = true
    ∧ (State.walkWaits (onOwnLanes gather0) ctx0.cell ctx0.x ((List.range 8).map (fun _ => (own, 8)))).isNone = true
    ∧ (State.walkWaits (ready (.pf .always 0 0)) ctx0.cell ctx0.x [(own, 1)]).isNone = true
    ∧ (∃ a c, MemoryFires (hostHoldsTable (readyOn ld0 (.val 0) .null .null)) ld0 a c false
      ∧ ((hostHoldsTable (readyOn ld0 (.val 0) .null .null)).checkWaits c (plain .load 1) 0 8).isSome = true)
    ∧ (let x := accessOf (.ldD .always ⟨0, .system, .acq, 0⟩ .none .none) (pieceAt .cell 0 [])
       x.irrevocable = true ∧ (accessOf ld0 (pieceAt .cell 0 [])).irrevocable = false)
    ∧ (let fr := { primeFrame ((encode st0).getD 0) with words := [(encode st0).getD 0, (encode ldw).getD 0], fired := [1] }
       let y := { accessOf ldw { pieceAt .cell 0 [] with stage := .edges } with lsid := 31, idx := 1 }
       fr.careful = false ∧ (holding y).speculates 0 fr = true ∧ (holding (accessOf ldw (pieceAt .cell 0 []))).speculates 0 fr = false) :=
  ⟨by decide +kernel, by decide +kernel, by decide +kernel, by decide +kernel, memoryFires_of (by decide +kernel), by decide +kernel,
    by decide +kernel⟩

theorem test_meets_read_place :
    let c := accessOf ldw (pieceAt .cell 0xFFFFC [])
    let h := accessOf ldw (pieceAt .hbm 0 [])
    let n := accessOf ldw (pieceAt .hostNc 0x8000000000000 [])
    let k := { pieceAt .hostNc 0x8000000000000 [] with loc := { (pieceAt .hostNc 0x8000000000000 []).loc with ca := true } }
    ((holding c).ready 0 0 (fun a => isLoad a.ins)).isSome = true
      ∧ (holding c).allForwarded c (pieceAt .cell 0xFFFFC []) = false
      ∧ ((holding h).ready 0 0 (fun a => isLoad a.ins)).isSome = true ∧ (holding h).allForwarded h (pieceAt .hbm 0 []) = false
      ∧ (holding h).l1Read ((holding h).accessCell h) (pieceAt .hbm 0 []).loc 4 = none ∧ (holding h).homeQ.get? 0 = none
      ∧ (holding h).virga.committingOn 0 = false ∧ (holding h).hdm.getD 0 false = false ∧ h.inside = false
      ∧ ((holding n).ready 0 0 (fun a => isLoad a.ins)).isSome = true
      ∧ (holding n).allForwarded n (pieceAt .hostNc 0x8000000000000 []) = false
      ∧ ((holding (accessOf ldw k)).ready 0 0 (fun a => isLoad a.ins)).isSome = true
      ∧ (holding (accessOf ldw k)).l1Read ((holding (accessOf ldw k)).accessCell (accessOf ldw k)) k.loc 4 = none := by
  decide +kernel

/-- A load whose bytes stand in an older store's queue entry, and one whose line its L1 holds. -/
theorem test_meets_read_near :
    let st := { accessOf stw (pieceAt .hbm 0 [1, 2, 3, 4]) with lsid := 0 }
    let ld := { accessOf ldw (pieceAt .hbm 0 []) with lsid := 1 }
    let s := { holding ld with accesses := [(0, st), (1, ld)] }
    let p := { pieceAt .hbm 0 [] with loc := { (pieceAt .hbm 0 []).loc with ca := true } }
    let l := accessOf ldw p
    let c := (holding l).setCell 0 { CellSt.init with
      l1 := [(0, { data := List.replicate 128 9, lo := true, hi := true, key := 0, tracked := true })] }
    (s.ready 1 0 (fun a => isLoad a.ins)).isSome = true ∧ s.allForwarded ld (pieceAt .hbm 0 []) = true
      ∧ (c.ready 0 0 (fun a => isLoad a.ins)).isSome = true ∧ c.allForwarded l p = false
      ∧ c.l1Read (c.accessCell l) p.loc 4 = some [9, 9, 9, 9] := by decide +kernel

/-- StoresLandAndAtomicsCompute: a store and an atomic at the last bytes of cell 0. -/
theorem test_meets_store_lands :
    let x := accessOf stw (pieceAt .cell 0xFFFFC [1, 2, 3, 4])
    let y := accessOf amo (pieceAt .cell 0xFFFFC [])
    ((holding x).ready 0 0 (fun a => isStore a.ins)).isSome = true ∧ isStoreOnly x.ins = true
      ∧ ((holding x).cell (0xFFFFC / 0x100000)).waits = [] ∧ ((holding y).ready 0 0 (fun a => isStore a.ins)).isSome = true
      ∧ isAtomic y.ins = true ∧ (holding y).marked .cell 0xFFFFC 4 = false
      ∧ y.amoBytes ((holding y).cmem.bytes 0xFFFFC 4) = some [5, 0, 0, 0] := by decide +kernel

/-- WritesAreTakenByTheirHome: outside and inside the table area of stack 0, with no sharer; a sharer before and after it has
dropped the line; an access that awaits its acknowledgement. -/
theorem test_meets_write_home :
    let p := pieceAt .hbm 0 [1, 2, 3, 4]
    let x := accessOf stw p
    let y := accessOf stw (pieceAt .hbm (stackBytes - 4) [1, 2, 3, 4])
    let s := holding x
    let q : HomeWrite := { oid := 0, piece := 0, waits := [7], dropped := [], host := false, hostData := none }
    (s.ready 0 0 (fun a => isStore a.ins)).isSome = true ∧ s.homeQ.get? 0 = none ∧ x.inside = false
      ∧ s.virga.committingOn 0 = false ∧ s.edgesPending 0 = false ∧ s.inTable 0 0 4 = false
      ∧ s.sharers.getD 0 [] = [] ∧ s.hdm.get? 0 = none ∧ (s.virga.line 0).marks = [] ∧ p.data.length = p.n ∧ s.llc.get? 0 = none
      ∧ ((s.llc.map Prod.fst).filter (fun l => cachePlace l == cachePlace 0)).length < s.sliceLines (cachePlace 0).1
      ∧ (let l : LlcLine := { data := List.replicate 128 9, dirty := 0, key := 0 }
         ({ s with llc := [(0, l)] } : State).llc.get? 0 = some l ∧ l.key = p.loc.key)
      ∧ ((holding y).ready 0 0 (fun a => isStore a.ins)).isSome = true ∧ (holding y).inTable 0 (stackBytes - 4) 4 = true
      ∧ ({ s with homeQ := [(0, q)] } : State).homeQ.get? 0 = some q ∧ 7 ∈ q.waits ∧ 7 ∉ q.dropped
      ∧ 7 ∈ ({ q with dropped := [7] } : HomeWrite).dropped := by decide +kernel

theorem test_meets_write_ack :
    let x := accessOf stw (done (pieceAt .hbm 0 [1, 2, 3, 4]))
    (holding x).accesses.get? 0 = some x ∧ isStoreOnly x.ins = true ∧ x.landed = true ∧ x.acked = false
      ∧ ((holding x).fibre? 0).map (fun f => f.halted) = some false := by decide +kernel

/-- EvictionChangesNoValue: a dirty line of 128 bytes, and a clean one that agrees with memory. -/
theorem test_meets_evict :
    let l : LlcLine := { data := List.replicate 128 9, dirty := BitVec.allOnes 128, key := 0 }
    ({ State.reset with llc := [(3, l)] } : State).llc.get? 3 = some l ∧ l.data.length = 128 ∧ lineOf 500 = 3 ∧ 500 < hbmEnd
      ∧ State.reset.untrained.getLsbD (sectorOf 500) = false ∧ lineOf 512 ≠ 3
      ∧ (let c := { l with dirty := 0, data := List.replicate 128 0 }
         ({ State.reset with llc := [(3, c)] } : State).llc.get? 3 = some c ∧ c.dirty = 0
          ∧ State.reset.lineKey.getD 3 0 = c.key ∧ State.reset.mem.byte 500 = c.data.getD (500 % 128) 0) := by decide +kernel

/-- WalksAndTlbInvalidation: a walk of a plain address, and a `tlbinv` that has begun, with no store of its block before the
fence of a younger one; a walk that waits for the host. -/
theorem test_meets_walk :
    let s := (ready (.tlbinv .always .module true)).modFibre 0 (fun f => { f with frames := f.frames.map (fun fr =>
      { fr with fired := [0], owed := [0] }) })
    nfld (0x40 : Word) 57 7 = 0 ∧ nfld (0x40 : Word) 48 16 ≠ 0x1F0
      ∧ ((theFibre s).frames.head?.bind pendingTlbinv) = some (0, .module, true, 0)
      ∧ (theFibre s).frames.all (fun fr => fr.faults.isEmpty) = true ∧ s.accesses = []
      ∧ (theFibre s).frames.all (fun fr => fr.unfired.all (fun u => !isStore u.2)) = true
      ∧ (s.walkWaits (s.cellOf (theFibre s)) (theFibre s).xlate [(0x40, 1)]).isNone = true
      ∧ ((hostHoldsTable s).walkWaits (s.cellOf (theFibre s)) (theFibre s).xlate [(0x40, 1)]).isSome = true
      ∧ s.inScope (theFibre s) .module (cellAt 31 7 7) = true := by decide +kernel

/-! ### Hypotheses met: host memory -/

def halfIn (st : HalfState) (pend : Option Bool) : Half := { st := st, data := List.replicate 64 9, pend := pend }
def bridged (x : Access) (h : Half) : State := { holding x with halves := [(0x200000000000, h)] }

/-- BridgeServesModuleAndHost: a read of a half in I and one in S, and one that its L1 holds; a write of one in E, one in S and
one in I; a half in M, and one with a request in flight, and one in O. -/
theorem test_meets_bridge :
    let p := pieceAt .hostCoh 0x8000000000000 []
    let w := pieceAt .hostCoh 0x8000000000000 [1, 2, 3, 4]
    let r := accessOf ldw p
    let x := accessOf stw w
    let s := bridged r (halfIn .s none)
    let e := bridged x (halfIn .e none)
    let near := s.setCell 0 { CellSt.init with
      l1 := [(0x8000000000000 / 128, { data := List.replicate 128 9, lo := true, hi := true, key := 0, tracked := true })] }
    let q := { p with loc := { p.loc with ca := true } }
    ((holding r).ready 0 0 (fun a => isLoad a.ins)).isSome = true ∧ r.inside = false
      ∧ (r.halvesFor p).find? (fun y => ((holding r).half y).st == .i) = some 0x200000000000
      ∧ ((holding r).half 0x200000000000).pend = none ∧ halfOf 0x8000000000000 = 0x200000000000
      ∧ (s.ready 0 0 (fun a => isLoad a.ins)).isSome = true ∧ (r.halvesFor p).all (fun y => (s.half y).st != .i) = true
      ∧ p.loc.ca = false ∧ near.l1Read 0 q.loc 4 = some [9, 9, 9, 9]
      ∧ (e.ready 0 0 (fun a => isStore a.ins)).isSome = true
      ∧ (x.halvesFor w).all (fun y => (e.half y).pend.isNone && ((e.half y).st == .e || (e.half y).st == .m)) = true
      ∧ (x.halvesFor w).find? (fun y => !((bridged x (halfIn .s none)).half y).owned) = some 0x200000000000
      ∧ ((bridged x (halfIn .s none)).half 0x200000000000).st = .s
      ∧ (x.halvesFor w).find? (fun y => !((holding x).half y).owned) = some 0x200000000000
      ∧ ((holding x).half 0x200000000000).st = .i := by decide +kernel

theorem test_meets_snoop :
    let s := fun h => ({ State.reset with halves := [(0x200000000000, h)] } : State)
    ((s (halfIn .m none)).half 0x200000000000).st = .m ∧ ((s (halfIn .m none)).half 0x200000000000).pend = none
      ∧ ((s (halfIn .o none)).half 0x200000000000).st = .o
      ∧ ((s (halfIn .i (some true))).half 0x200000000000).pend = some true := by decide +kernel

/-- HostReachesDeviceMemory: the last half of HBM in a range; a back-invalidation under way, alone and for a write that waits;
an atomic that waits for its completer; a half of host memory that the bridge does not hold. -/
theorem test_meets_host :
    let y := accessOf amo { pieceAt .hostNc 0x8000000000000 [] with stage := .atHome }
    let s : State := { State.reset with hdmRanges := [(0, hbmEnd)] }
    let q : HomeWrite := { oid := 0, piece := 0, waits := [], dropped := [], host := true, hostData := some 5 }
    s.inHdm 0x5FFFFFFFF = true ∧ s.homeQ.get? 0x2FFFFFFFF = none ∧ s.snoops.get? 0x5FFFFFFFF = none
      ∧ s.virga.committingOn 0x2FFFFFFFF = false ∧ s.edgesPending 0x2FFFFFFFF = false
      ∧ s.sharers.getD 0x2FFFFFFFF [] = []
      ∧ (s.virga.line 0x2FFFFFFFF).marks = [] ∧ ({ s with snoops := [(5, false)] } : State).snoops.get? 5 = some false
      ∧ ({ s with snoops := [(5, false)], homeQ := [(2, q)] } : State).homeQ.get? 2 = some q ∧ q.host = true
      ∧ (holding y).accesses.get? 0 = some y ∧ isAtomic y.ins = true ∧ y.pieces.length = 1
      ∧ y.amoBytes (((holding y).giveUpLine (lineOf 0x8000000000000)).mem.bytes 0x8000000000000 4) = some [5, 0, 0, 0]
      ∧ (holding y).writingBack [2 * lineOf 0x8000000000000, 2 * lineOf 0x8000000000000 + 1] = false
      ∧ (let z := holding (accessOf stw (pieceAt .hbm 256 [1, 2, 3, 4]))
         z.takenHalf q = some 4 ∧ q.host = true ∧ ({ z with snoops := [(4, true)] } : State).snoops.get? 4 = some true)
      ∧ (let m := { s with badLines := [1] }
         m.inHdm 3 = true ∧ m.homeFree 1 = true ∧ m.hdm.getD 3 false = false ∧ m.marked .hbm 192 8 = true ∧ halfOf 192 = 3)
      ∧ (portOf (64 * 0x200000000000)).isSome = true ∧ (s.half 0x200000000000).st = .i := by decide +kernel

/-! ### Hypotheses met: regions -/

def desc0 : Desc := { src := own, dst := own + 0x1000, run := 64, levels := [], marks := false, keepTag := false, scale := false, bbar := 0 }
def copy0 : CopyCmd :=
  { id := 0, kind := .copy, fid := 0, sreg := 5, addr := own, expect := 0, xl := (theFibre (still id id)).xlate, upTo := 0, desc := some desc0
    started := true, pos := 0, added := 0, buf := [], fmts := [], stamped := [], told := 0, stop := none, markDue := false }

def oneWord (i : Instr) (h : Frame → Frame) : State :=
  let s := (ready i).modFibre 0 (fun f => { f with frames := f.frames.map (fun fr => h { fr with fired := [0] }) })
  { s with cur := none, turn := none }

/-- RegionsOpenEndAndCommitInOrder: a block that waits for a slot, with slot 0 in use; one that ends; one that is answered. -/
def slot0 : Slot := { state := .opened, grant := 1, fid := 0, preds := [], waitedSince := none, tookForward := false }
def withSlot (s : State) (x : Slot) : State := { s with virga := { s.virga with slots := [(0, x)] } }
def ended : State := (oneWord (.rgnEnd .always) (fun fr => { fr with waiting := true, inCommit := true })).modFibre 0
  (fun f => { f with rgn := some (0, 1) })

theorem test_meets_region_open :
    let s := withSlot (oneWord (.rgnBeg .always 63 1) (fun fr => { fr with waiting := true })) { slot0 with fid := 9 }
    let s := { s with virga := { s.virga with asking := [0] } }
    let full := s.setCell (s.cellOf (theFibre s)) { CellSt.init with copies := List.replicate 16 copy0 }
    (theFibre s).frames.map (fun fr => (s.engineRoom (s.cellOf (theFibre s)) fr, full.engineRoom (s.cellOf (theFibre s))
        { fr with words := fr.words ++ [(encode (.cpy .always 5)).getD 0] })) = [(true, false)]
      ∧ (s.fibre? 0).map (fun f => f.frames.map (fun fr => (fr.waiting, fr.firedAt isRgnBeg))) = some [(true, some 0)]
      ∧ s.virga.asking = [0] ∧ s.virga.freeSlot = some 1
      ∧ ((theFibre s).frames.head?.bind (fun fr => (fr.firedAt isRgnBeg).bind fr.instr)) = some (.rgnBeg .always 63 1) := by
  decide +kernel

theorem test_meets_region_end :
    let s := withSlot ended slot0
    let t := s.modFibre 0 (fun f => { f with answer := some 0 })
    (s.fibre? 0).map (fun f => (f.rgn, f.ending, f.frames.length)) = some (some (0, 1), true, 1)
      ∧ s.virga.slots.get? 0 = some slot0 ∧ s.accessesOf 0 = []
      ∧ (t.fibre? 0).map (fun f => (f.answer, f.ending)) = some (some 0, true)
      ∧ (t.group? 0).map (fun g => g.state) = some .running := by decide +kernel

/-- A region that commits a version of line 5, of which the host holds no half, and one. -/
def committing : State :=
  let s := withSlot ended { slot0 with state := .committing }
  { s with virga := { s.virga with commits := [0], lines := [(5, { versions := [{ slot := 0, key := 0, bytes := [(1, 7)], rings := [] }], marks := [0] })] } }

theorem test_meets_region_commit :
    (committing.virga.slots.get? 0).map (fun x => x.state) = some .committing ∧ committing.virga.commits = [0]
      ∧ committing.lineFree 5 = true ∧ ({ committing with hdm := [(11, false)] } : State).lineFree 5 = false
      ∧ committing.virga.lines.rising = true ∧ Dict.rising ([(1, 7)] : Dict Byte) = true ∧ 128 * 5 + 128 ≤ hbmEnd
      ∧ committing.inTable 0 (128 * 5) 128 = false
      ∧ ({ committing with llc := [(5, { data := List.replicate 128 9, dirty := 0, key := 3 })] } : State).lineFree 5 = true := by
  decide +kernel

/-- RegionsAbort: an open region; one with a dependant that has waited long enough; an answer not yet applied. -/
theorem test_meets_region_abort :
    let s := withSlot ended { slot0 with waitedSince := some 0 }
    let f := theFibre s
    let t := { s with time := 2048000 }
    (s.virga.slots.get? 0).map (fun x => (x.state, x.waitedSince)) = some (.opened, some 0)
      ∧ 0 + 2 ^ nfld (t.reg 0x60) 0 5 * 2000 ≤ t.time
      ∧ f.rgn.isSome = true ∧ f.gpend = 0 ∧ f.vpend = 0 ∧ ({ f with answer := some 8 } : Fibre).answer = some 8
      ∧ ({ f with snap := some f.snapshot } : Fibre).snap.isSome = true := by decide +kernel

/-- RegionAccessesTakePlaceAtTheirHome: a load and a store of an open region at a line that nothing holds, and a store to a line
that another region has written. -/
def inRegion (i : Instr) (st : Stage) (d : List Byte) : Access :=
  { accessOf i { pieceAt .hbm 0 d with stage := st } with inside := true, rgn := some (0, 1) }
def regionAt (x : Access) : State := withSlot (holding x) slot0

theorem test_meets_region_access :
    let r := inRegion ldw .held []
    let w := inRegion stw .held [1, 2, 3, 4]
    let a := inRegion amo .held []
    let z := inRegion stw (.stalled 0) [1, 2, 3, 4]
    let s := { regionAt z with virga := { (regionAt z).virga with freed := 1 } }
    (regionAt r).regionOf r = some (0, 1) ∧ ((regionAt r).regionReady 0 0 (fun a => isLoad a.ins)).isSome = true
      ∧ (regionAt r).homeQ.get? 0 = none
      ∧ (regionAt r).virga.committingOn 0 = false ∧ (regionAt r).edgesPending 0 = false
      ∧ (regionAt r).regionEdges 0 r (pieceAt .hbm 0 []) = ([], [])
      ∧ ((regionAt w).regionReady 0 0 (fun a => isStoreOnly a.ins)).isSome = true
      ∧ ((regionAt a).regionReady 0 0 (fun a => isAtomic a.ins)).isSome = true
      ∧ s.regionOf z = some (0, 1) ∧ s.accesses.get? 0 = some z ∧ z.pieces.map (fun p => p.stage) = [.stalled 0] ∧ 0 < s.virga.freed := by
  decide +kernel

/-- The home of that line serves each of them at once. -/
theorem test_meets_home_serves (x : Access) : (regionAt x).homeServes (pieceAt .hbm 0 []).loc = (true, regionAt x) := rfl

theorem test_meets_region_edges :
    let w := inRegion stw .edges [1, 2, 3, 4]
    let s := regionAt w
    let other : Slot := { slot0 with fid := 9 }
    let s := { s with virga := { s.virga with
      slots := [(0, slot0), (1, other)], requests := [{ oid := 0, piece := 0 }]
      lines := [(0, { versions := [{ slot := 1, key := 0, bytes := [(0, 7)], rings := [] }], marks := [] })] } }
    let p : Piece := { pieceAt .hbm 0 [1, 2, 3, 4] with stage := .edges }
    s.regionOf w = some (0, 1) ∧ s.accesses.get? 0 = some w ∧ w.pieces[0]? = some p ∧ s.regionEdges 0 w p = ([1], [])
      ∧ s.virga.reaches 0 1 = false ∧ ({ s.virga with reach := [(0, 1)] } : Virga).reaches 0 1 = true
      ∧ s.virga.boundsFail 0 [1] = false ∧ s.virga.overflows 0 0 = false ∧ s.virga.versionsFull 0 0 = false := by decide +kernel

/-- The other bounds of a try: eight slots before, and 512 lines that hold a version of the slot. -/
theorem test_meets_region_bounds :
    let full : Slot := { slot0 with preds := (List.range 8).map (fun n => (n + 1, false)) }
    let ver : Version := { slot := 0, key := 0, bytes := [], rings := [] }
    ({ Virga.init with slots := [(0, full), (9, slot0)] } : Virga).boundsFail 0 [9] = true
      ∧ ({ Virga.init with lines := (List.range 512).map (fun n => (n + 1, { versions := [ver], marks := [] })) } : Virga).overflows 0 0
        = true := by decide +kernel

/-! ### Hypotheses met: launches and groups -/

/-- Window 0 on, its ring at HBM address 0, with a go word of SEQ 0 or 1. -/
def windowOn : State := State.reset.setReg 0x300 1
def goReady : State := { windowOn with mem := [(256 + 248, 1)] }

/-- DispatcherTakesPlacesAndReports: a go word that is not the expected one and one that is; a record of which more is to be
copied, one that is copied, one whose context entry, one whose header is to be read, and one that is judged; a closed module. -/
theorem test_meets_go_word :
    let k : Taking := { slot := 256, seq := 1, go := 1, bytes := natLe 200 0, advanced := false, ctx := [], hdr := [], whose := none }
    let u := fun (k : Taking) => ({ goReady with taking := [(0, k)] } : State)
    let needs := fun (go : Nat) (ctx : List Byte) =>
      windowOn.needs (Launch.of 0 1 windowOn.time (dwordsOf (natLe 248 0))) 0 go ctx []
    windowOn.turn = none ∧ ({ windowOn with round := [.ev (.groupPlace 31)] } : State).round = [.ev (.groupPlace 31)]
      ∧ (dieActs 31).contains (.ev (.groupPlace 31)) = true ∧ Act.optional (.ev (.groupPlace 31)) = false
      ∧ windowOn.winOn 0 = true ∧ windowOn.closed = false ∧ windowOn.mapHeld = false ∧ windowOn.taking.get? 0 = none
      ∧ (windowOn.engineRead (hbmLoc (windowOn.slotAddr 0 (windowOn.expected 0) + 248)) 8).1 = some (natLe 8 0)
      ∧ windowOn.expected 0 = 1 ∧ (goReady.engineRead (hbmLoc (goReady.slotAddr 0 1 + 248)) 8).1 = some (natLe 8 1)
      ∧ (u k).taking.get? 0 = some k ∧ k.bytes.length < 248 ∧ ((u k).engineRead (hbmLoc (256 + 200)) 48).1 = some (natLe 48 0)
      ∧ (let r := Launch.of 0 1 windowOn.time (dwordsOf (natLe 248 0))
         windowOn.dispatchHalf 0 r.xlate (r.walks [] []) = none)
      ∧ (natLe 248 0).length = 248 ∧ ({ u k with closed := true } : State).closed = true
      ∧ needs 0 [] = .entry 0 ∧ (windowOn.engineRead (hbmLoc 0) 32).1 = some (natLe 32 0)
      ∧ (match needs 1 [] with | .verdict c _ => c == 1 | _ => false) = true
      ∧ (match needs 0 (natLe 32 0) with | .verdict c _ => c == 12 | _ => false) = true
      ∧ (windowOn.engineWrite (hbmLoc (256 + 240)) (natLe 8 (launchStatus 1 1).toNat)).1.isSome = true := by
  decide +kernel

/-- A record whose header, at address 0x40, a page of 1 GiB maps: its context entry has been read, and its header is next. -/
theorem test_meets_header :
    let s : State := { windowOn with mem := [(0xBFFFFD000, 0x01), (0xBFFFFD001, 0xE0), (0xBFFFFD002, 0xFF), (0xBFFFFD003, 0xFF)
      , (0xBFFFFD004, 0x0B), (0xBFFFFE000, 0x01), (0xBFFFFE001, 0xF0), (0xBFFFFE002, 0xFF), (0xBFFFFE003, 0xFF), (0xBFFFFE004, 0x0B)
      , (0xBFFFFF000, 0x3F), (0xBFFFFF001, 0x0E)] }
    let l := Launch.of 0 1 0 (0x40 :: List.replicate 30 0)
    let r := { l with ctx := dwordsOf (natLe 8 0xBFFFFD000 ++ natLe 8 (2 ^ 63) ++ natLe 16 0) }
    let ws := r.walks (natLe 8 0xBFFFFD000 ++ natLe 8 (2 ^ 63) ++ natLe 16 0) []
    s.dispatchHalf 0 r.xlate ws = none
    ∧ ({ s with hdm := [(halfOf 0xBFFFFD000, true)] } : State).dispatchHalf 0 r.xlate ws = some (halfOf 0xBFFFFD000)
    ∧ (match s.needs l 0 0 (natLe 8 0xBFFFFD000 ++ natLe 8 (2 ^ 63) ++ natLe 16 0) [] with
      | .header loc => loc.addr == 0x40 && (s.engineRead loc 64).1 == some (natLe 64 0)
      | _ => false) = true := by
  decide +kernel

def waitingGroup (st : GroupState) : State :=
  let s := still id id
  let s := s.setGroup 1 { Group.fresh 1 0 0 0 0 with state := st }
  { s with launches := s.launches.put 1 primeLaunch }

theorem test_meets_place :
    let s := waitingGroup .queued
    (s.die 0).state = .live ∧ (s.headOf 0).map Prod.fst = some 1 ∧ (s.launchOf (Group.fresh 1 0 0 0 0)).isSome = true
      ∧ (s.fit 0 primeLaunch).isSome = true ∧ ((waitingGroup .saved).headOf 0).map (fun e => e.2.state) = some .saved
      ∧ s.anyWaiting 1 = true ∧ (s.launches.get? 1).map (fun l => (l.started, l.retired, l.agedAt)) = some (true, false, 0)
      ∧ 0 + 2 ^ nfld (s.reg 0x68) 0 3 * 2000000 ≤ ({ s with time := 16000000 } : State).time := by decide +kernel

/-- A launch whose groups a segment has still to queue, and one that is being cancelled. -/
theorem test_meets_join_and_cancel :
    let s := still id id
    let j := { s with launches := [(0, { primeLaunch with joining := [0] })] }
    let c := { s with launches := [(0, { primeLaunch with cancel := some true })] }
    let z := c.setGroup 0 { Group.fresh 0 0 0 0 0 with state := .halted }
    j.toJoin 0 = [0] ∧ s.toJoin 0 = []
      ∧ ((c.groupsOf 0).find? (fun e => e.2.state != .halted)).map Prod.fst = some 0 ∧ (c.endGroup 0 3 .halted).isSome = true
      ∧ (z.groupsOf 0).all (fun e => e.2.state == .halted) = true
      ∧ (z.retire 0 { primeLaunch with cancel := some true } true (some (BitVec.allOnes 64))).1.isSome = true := by decide +kernel

/-- A head that has waited, with every cell of the die taken by the group of another launch of lower priority. -/
def prior (n : Nat) : Launch :=
  { primeLaunch with record := (List.replicate 31 0).set 3 (BitVec.ofNat 64 (n * 65536 + 3 + 3 * 8)) }
def crowded : State :=
  let s := { still id id with time := 100000, launches := [(0, prior 0), (1, prior 1)] }
  s.setGroup 1 { Group.fresh 1 0 0 0 0 with state := .queued }

theorem test_meets_preempt :
    (crowded.headOf 0).map Prod.fst = some 1 ∧ crowded.fit 0 (prior 1) = none
      ∧ (crowded.headOf 0).bind (fun e => crowded.victims 0 e.2 (prior 1)) = some [0]
      ∧ (∀ e ∈ crowded.running 0, e.2.1.stopping = false) ∧ ((crowded.setGroup 0 { (crowded.group? 0).getD (Group.fresh 0 0 0 0 0) with
          stopping := true }).preemptAll [0]).isSome = true
      ∧ (crowded.preemptAll [0]).isSome = true ∧ 0 + 100000 ≤ crowded.time := by decide +kernel

theorem test_meets_report :
    let s := (still id id).setGroup 0 { Group.fresh 0 0 0 0 0 with state := .halted }
    primeLaunch.cancel = none ∧ primeLaunch.joining = [] ∧ s.straggles 0 = false ∧
    (s.launches.get? 0).map (fun l => (l.started, l.retired)) = some (true, false)
      ∧ (s.groupsOf 0).all (fun e => e.2.state == .halted && e.2.die == 0) = true ∧ (s.groupsOf 0).length = 1
      ∧ (({ s with launches := s.launches.put 0 { primeLaunch with reported := [0] } } : State).retire 0
        { primeLaunch with reported := [0] } true none).1.isSome = true := by decide +kernel

/-- GroupsAreSavedAndHeld: a running group with room for its save area; one held; an owner. -/
def owned : State := { (still id id).setReg 0 (BitVec.ofNat 64 (1 + 1000 * 65536)) with ports := [(0, 64)] }
def heldGroup : State := owned.setGroup 0 { Group.fresh 0 0 0 0 0 with state := .debug, area := some (true, 4096) }

theorem test_meets_save :
    let s := owned.setReg 0x58 0x104
    let d := s.setDie 0 { Die.init with state := .draining }
    let k := s.modFibre 0 (fun f => { f with frames := f.frames.map (fun fr => { fr with inCommit := true }) })
    ((d.die 0).state, (d.die 0).save, (s.die 0).state) = (.draining, false, .live) ∧ k.haltable 0 = false
      ∧ owned.areaPlace 0 (owned.areaOf 0 ((owned.group? 0).getD (Group.fresh 0 0 0 0 0)) primeLaunch) = none ∧
    s.haltable 0 = true ∧ (s.group? 0).map (fun g => (g.state, (s.areaPlace g.die (s.areaOf 0 g primeLaunch)).isSome)) = some (.running, true)
      ∧ (s.group? 0).map (fun g => (s.haltGroup 0 g primeLaunch).isSome) = some true
      ∧ s.owned 1 = true ∧ (((s.setGroup 0 { (s.group? 0).getD (Group.fresh 0 0 0 0 0) with hold := true }).preempt 0).bind (fun t => t.group? 0)).map
        (fun g => (g.hold, g.state)) = some (true, .saved)
      ∧ (heldGroup.group? 0).map (fun g => (g.state, g.area, g.rsv)) = some (.debug, some (true, 4096), [])
      ∧ (heldGroup.fibresOf 0).all (fun e => !e.2.parkBad) = true
      ∧ ((owned.setDie 0 { Die.init with state := .fenced }).die 0).state = .fenced := by decide +kernel

/-! ### Hypotheses met: the owner, dies, links and errors -/

/-- OnlyTheOwnersWritesTakeEffect: who is not the owner; maps that clash and do not; a launch to cancel and a group to move. -/
theorem test_meets_owner :
    owned.owned 2 = false ∧ owned.owned 1 = true ∧ nfld (1 : Word) (2 * 0) 2 ≠ 0
      ∧ (owned.setReg 0x408 1).weight 1 0 ≠ 0 ∧ owned.weight 1 0 = 0 ∧ (regShape 0x60).isSome = true
      ∧ owned.winOn 0 = false ∧ (owned.setReg 0x300 1).winOn 0 = true := by decide +kernel

theorem test_meets_cancel :
    let s := owned.setReg 0x290 0x8000000000000000
    (s.findLaunch (min (nfld (0x8000000000000001 : Word) 32 5) 23) (nfld (0x8000000000000001 : Word) 0 32)).map Prod.fst = some 0
      ∧ (0x8000000000000001 : Word).getLsbD 63 = true ∧ s.findLaunch 23 1 = none
      ∧ (heldGroup.groups.find? (fun e => e.2.lid == 0 && e.2.num == 0)).map (fun e => e.2.state) = some .debug
      ∧ (heldGroup.setReg 0x400 1).weight 0 0 ≠ 0 ∧ (heldGroup.setReg 0x280 1).reg 0x280 = 1
      ∧ ({ owned with taking := [(0, Taking.begin_ 0 1 1 none)] } : State).taking ≠ []
      ∧ owned.taking = [] ∧ ({ owned with changes := [.write 3 5] } : State).changes = [.write 3 5]
      ∧ (1 : Word).getLsbD 63 = false := by
  decide +kernel

/-- OwnershipAndStart: masters; a module without an owner, with one whose lease has run out, and its successor named. -/
theorem test_meets_claim :
    owned.reaches 1 = true ∧ State.reset.reaches 16 = true ∧ isMaster 1 = true ∧ State.reset.owner = 0 ∧ (0x0201 : Word).toNat % 32 = 1 ∧ owned.owner = 1
      ∧ owned.lease ≠ 0 ∧ nfld (owned.reg 0) 8 5 ≠ 2
      ∧ nfld ((owned.setReg 0 (BitVec.ofNat 64 (1 + 2 * 256 + 1000 * 65536))).reg 0) 8 5 = 2
      ∧ owned.leaseAt + 2000000000 ≤ ({ owned with time := 2000000000 } : State).time := by decide +kernel

theorem test_meets_start :
    State.reset.phase = 0 ∧ State.reset.fails = 0 ∧ State.reset.reaches 16 = true
      ∧ State.reset.startedAt + 20000000000 ≤ ({ State.reset with time := 20000000000 } : State).time
      ∧ (State.reset.setPhase 1).phase = 1 ∧ (State.reset.setPhase 1).flashGood = true ∧ (State.reset.setPhase 2).phase = 2
      ∧ (State.reset.setPhase 3).phase = 3
      ∧ (State.reset.setReg 8 0x30).fails = 3 ∧ (State.reset.setReg 8 0x30).phase = 0
      ∧ (State.reset.setPhase 4).phase = 4 ∧ (State.reset.setPhase 4).trainable ≠ []
      ∧ ({ State.reset.setPhase 4 with partners := (List.range 12).map (fun p => (p, 0)) } : State).trainable = []
      ∧ owned.recovery = none ∧ (∀ d < 32, owned.dieIdle d = true)
      ∧ (∃ d < 32, (owned.setDie 3 { Die.init with op := 1 }).dieIdle d = false)
      ∧ ({ State.reset with fusedMin := 2, imageVer := 1 } : State).imageVer.toNat < 2 := by decide +kernel

/-- DiesPassTheirSequence: each state of a die. -/
def dieIn (st : DieState) : State := owned.setDie 31 { Die.init with state := st, op := 0 }
theorem test_meets_die :
    owned.owned 1 = true ∧ owned.taking = [] ∧ (owned.die 31).op = 0 ∧ (owned.die 31).state = .live
      ∧ ((dieIn .ready).die 31).state = .ready ∧ false = ((dieIn .ready).reg 0x100).getLsbD 8
      ∧ ((dieIn .failed).die 31).state = .failed ∧ ((dieIn .draining).evictAll false ((dieIn .draining).resident 31)).isSome = true
      ∧ (let k := (owned.setDie 0 { Die.init with state := .draining }).modFibre 0 (fun f => { f with frames := f.frames.map (fun fr =>
           { fr with inCommit := true }) })
         (k.evictAll false (k.resident 0)).isNone = true)
      ∧ (((dieIn .fenced).setDie 31 { (dieIn .fenced).die 31 with op := 1 }).die 31).op ≠ 0
      ∧ ((dieIn .resetting).die 31).state = .resetting ∧ ((dieIn .testing).die 31).state = .testing ∧ 256 % 256 = 0
      ∧ (dieIn .testing).changes.contains (.drop 31) = false ∧ (dieIn .draining).changes.contains (.drop 31) = false
      ∧ ({ dieIn .draining with changes := [.drop 31] } : State).changes.contains (.drop 31) = true
      ∧ (((dieIn .ready).setDie 31 { (dieIn .ready).die 31 with op := 1, former := some (7, 3) }).die 31).op ≠ 0
      ∧ (dieIn .ready).changes.contains (.restore 31) = false
      ∧ (∀ q < 8, q ≠ 7 → (dieIn .ready).weight q 31 = 0)
      ∧ 16 ≤ ((owned.setDie 31 { Die.init with replays := 16 }).die 31).replays ∧ 5 ≤ (owned.setPhase 5).phase := by decide +kernel

/-- LinksCreditsAndGating. -/
theorem test_meets_link :
    (owned.die 31).replays < 16 ∧ (owned.die 31).replaysIn < 16 ∧ (owned.die 31).linkUp = true
      ∧ isLink 0 = true ∧ isLink 64 = true ∧ isLink (64 + 4 * 31 + 3) = true ∧ isLink (64 + 4 * 31) = false
      ∧ (owned.credit 0 16).auditedAt + 2000000 ≤ ({ owned with time := 2000000 } : State).time
      ∧ ((owned.setReg 0x48 1).reg 0x48).getLsbD 0 = true ∧ (owned.cell 2047).gated = false ∧ owned.placed 2047 = false
      ∧ (owned.cell 2047).idleSince + 20000 ≤ ({ owned with time := 20000 } : State).time
      ∧ (owned.die (dieOfCell 0)).state = .live ∧ ((owned.setCell 0 { CellSt.init with gated := true }).cell 0).gated = true
      ∧ owned.placed 0 = true ∧ ((owned.setDie 31 { Die.init with state := .fenced }).die (dieOfCell 2047)).state = .fenced := by
  decide +kernel

/-- ErrorsAreMarkedAndReported: the last places of cell memory and HBM, a line of host memory in the last-level cache, and a
group whose register file is hit; before and after the start. -/
theorem test_meets_error :
    let s := owned.setPhase 5
    let l : LlcLine := { data := List.replicate 128 9, dirty := 0, key := 0 }
    0x7FFFFFFF < 0x80000000 ∧ 5 ≤ s.phase ∧ owned.phase < 5 ∧ hbmEnd - 1 < hbmEnd ∧ nfld (s.reg 0x10) 0 4 = 0 ∧ 1 ≤ s.owner ∧ s.owner ≤ 12
      ∧ hbmEnd ≤ 0x8000000000000 ∧ (({ s with llc := [(lineOf 0x8000000000000, l)] } : State).llc.get? (lineOf 0x8000000000000)).isSome = true
      ∧ s.holder 0 = some 0 ∧ (s.endGroup 0 8 .lost).isSome = true ∧ nfld (s.reg 0x40) 0 2 < 2
      ∧ nfld ((s.setReg 0x10 3).reg 0x10) 0 4 ≠ 0 := by decide +kernel

/-! ### Hypotheses met: engines and security -/

def copying (k : CopyCmd) : State := (still id id).setCell 0 { CellSt.init with copies := [k] }

/-- CopyEngineAndStatusWords: a descriptor to be read, a copy to be started, read, landed, marked, and ended with a count or a
cause; the beat of a copy whose next run waits for its mark. -/
theorem test_meets_copy :
    let fresh := { copy0 with started := false }
    let landed := { copy0 with pos := 64 }
    let read := { copy0 with buf := List.replicate 64 0 }
    let lined := { copy0 with pos := 64, desc := some { desc0 with levels := [(2, 64, 64)], marks := true }, buf := [1] }
    ((copying { fresh with desc := none }).readNext 0).isSome = true
      ∧ ((copying fresh).readNext 0).isNone = true ∧ (((copying fresh).cell 0).copies.filter (fun k => k.started)).length = 0
      ∧ ((copying fresh).cell 0).copies.find? (fun k => k.kind != .init && k.desc.isSome && !k.started
        && ((k.stop.isSome && k.kind != .copyQ) || !(copying fresh).copyHeld 0 k)) = some fresh
      ∧ (copying copy0).copy? 0 0 = some copy0 ∧ ((copying copy0).engineCtx 0 copy0.xl).isSome = true
      ∧ copy0.pos < desc0.total ∧ (copying copy0).runWaits 0 copy0 desc0 = false ∧ desc0.total ≤ read.pos + read.buf.length
      ∧ desc0.total ≤ landed.pos ∧ landed.paid desc0 = true ∧ copy0.paid desc0 = true
      ∧ (lined.desc.map (fun d => (copying lined).runWaits 0 { lined with pos := 63 } d)) = some true
      ∧ ({ copy0 with markDue := true } : CopyCmd).stop = none ∧ ({ copy0 with stop := some 0x18 } : CopyCmd).stop = some 0x18 := by
  decide +kernel

theorem test_meets_bbar :
    let k := { copy0 with kind := .init, desc := none }
    (copying k).copy? 0 0 = some k ∧ ((copying k).cell 0).copies.all (fun x => decide (¬ x.id < k.id)) = true
      ∧ ((still id id).setCell 0 { CellSt.init with node := { CellSt.init.node with marks := [{ cmd := 0, level := 1, dest := own, pos := 0 }] } }
        |>.cell 0).node.marks.length = 1 := by decide +kernel

theorem test_meets_status :
    let s := still (fun f => { f with gpend := 32, park := .reg 5 }) id
    (s.fibre? 0).map (fun f => (f.gpend.getLsbD 5, f.gpend.getLsbD 6)) = some (true, false) := by decide +kernel

def node0 (i : Instr) (r : Option Ring) (started : Bool) (pos : Nat) : Node :=
  { CellSt.init.node with ring := r, queue := [{ id := 0, fid := 0, ins := i, a := 0, b := 0, xl := (theFibre (still id id)).xlate
                                                 upTo := 0, started := started, ta := 7, tb := 7, pos := pos, buf := [], stop := none }] }
def nodeAt (i : Instr) (r : Option Ring) (started : Bool) (pos : Nat) : State :=
  (still id id).setCell 0 { CellSt.init with node := node0 i r started pos }

/-- NodeAndRingEvents: a command at the head whose covered accesses have performed, before its start, with operands that
decode and that do not; one that is done. -/
theorem test_meets_node :
    let s := nodeAt (.mma .always 5 0 31) none false 0
    let g := { s with gtag := (List.range 8).map (fun n => (n, 5)) }
    (s.nodeHead 0).map (fun n => (n.started, n.stop)) = some (false, none) ∧ s.coveredUpTo 0 0 = true
      ∧ ((s.nodeHead 0).bind (fun n => s.engineCtx 0 n.xl)).isSome = true
      ∧ (s.nodeHead 0).map (fun n => s.operandsOk 0 n) = some false ∧ (g.nodeHead 0).map (fun n => g.operandsOk 0 n) = some true
      ∧ ((s.nodeHead 0).bind (fun n => (s.engineCtx 0 n.xl).map (fun c =>
          s.engineHeld 0 n.id (n.spans c) ((n.spans c).src ++ (n.spans c).dst) (CopyCmd.asTold true)))) = some false
      ∧ (let t := nodeAt (.mzero .always 7) none true 0
         (t.nodeHead 0).map (fun n => (t.nodeDone 0 n, n.ringN)) = some (true, none)) := by decide +kernel

def ring0 : Ring := { since := 0, started := false, step := 0, tag := 0, latch := none, given := false, offer := none, stop := none }

theorem test_meets_ring :
    let s := nodeAt (.mring .always 5 0 .two 0) (some ring0) false 0
    (s.member? 0).map (fun m => (m.2.2, m.1.stop, m.2.1.started)) = some (2, none, false)
      ∧ (let t := nodeAt (.mring .always 5 0 .two 0) (some { ring0 with started := true, latch := some ([], []) }) true 100
         (t.member? 0).map (fun m => decide ((m.2.1.step + 1) * m.1.stepGroups m.2.1 ≤ m.1.pos ∧ m.2.1.step < m.2.2
           ∧ m.2.1.given = false ∧ m.2.1.offer = none)) = some true)
      ∧ 0 + 200000 ≤ ({ s with time := 200000 } : State).time ∧ 0 ∈ runOf 0 2 ∧ memberAt 0 2 ((cellX 0 % 2 + 2 - 1) % 2) = 1 := by
  decide +kernel

/-- SpdmExchange: each state of a session; the owner's port. -/
theorem test_meets_spdm :
    let s := fun (x : Session) => ({ owned with sessions := [(0, x)] } : State)
    ((s { Session.init with versionDone := true }).session 0).versionDone = true
      ∧ ((s Session.init).session 0).versionDone = false ∧ ((s { Session.init with capsDone := true }).session 0).capsDone = true
      ∧ ((s { Session.init with algsDone := true }).session 0).algsDone = true ∧ ((s Session.init).session 0).algsDone = false
      ∧ ((s { Session.init with keyData := some 5 }).session 0).keyData = some 5
      ∧ ((s { Session.init with secure := true }).session 0).secure = true ∧ owned.owned (masterOf 0) = true
      ∧ (owned.measured 1).isSome = true ∧ ((s Session.init).session 0).capsDone = false ∧ ((s Session.init).session 0).keyData = none
      ∧ 4 ∉ [1, 2, 3] := by decide +kernel

/-- A ring of two cells of one group: both members have arrived, or the step of the left one has been handed over. -/
def wide : Launch := { primeLaunch with record := (List.replicate 31 0).set 3 1 }
def pairOf (r q : Ring) (pos : Nat) : State :=
  let s := still id id
  let i : Instr := .mring .always 5 0 .two 0
  (({ s with launches := [(0, wide)] }.setCell 0 { CellSt.init with node := node0 i (some r) r.started pos }).setCell 1
    { CellSt.init with node := node0 i (some q) q.started pos })

theorem test_meets_ring_start :
    let s := pairOf ring0 ring0 0
    ((s.member? 0).bind (fun m => s.engineCtx m.1.fid m.1.xl)).map (fun c => (c.l.core, c.l.cells)) = some (1, 2)
      ∧ runOf 0 2 = [0, 1] ∧ memberCell (Group.fresh 0 0 0 0 0) wide 1 = 1
      ∧ (s.member? 0).map (fun m => (runOf 0 2).all (fun x => s.arrival x (s.cell 0).node.rounds m.1 2 == .agrees)) = some true
      ∧ s.ringLate 0 2 (s.cell 0).node.rounds = false
      ∧ (s.ringPeers 0 2 (s.cell 0).node.rounds).all (fun x => ((s.cell x).node.ring.bind Ring.stop).isNone
        && ((s.nodeHead x).map NodeCmd.tb).getD 0 == 7) = true := by
  decide +kernel

theorem test_meets_ring_handover :
    let mid := { ring0 with started := true, given := true }
    let s := pairOf mid { mid with offer := some ([1], [2]) } 100
    (s.member? 0).map (fun m => (m.2.1.given, m.2.1.step, m.2.2)) = some (true, 0, 2)
      ∧ (s.cell 1).node.ring.bind (fun o => o.offer) = some ([1], [2]) ∧ (s.cell 1).node.ring.map (fun o => o.step) = some 0 := by
  decide +kernel

/-! ### Results that the spec works out -/

/-- The token that an instruction sends to the `mov` two words after it. -/
def sent (i : Instr) (l r x : Token) : Option Token :=
  let s := edit (readyOn i l r x) (fun fr => { fr with words := [(encode i).getD 0, 0x0F00000000000000, 0x0500000000000000] })
  match exec i s with
  | .next t => (((t.fibre? 0).bind (fun f => f.frame? 0)).bind (fun fr => fr.slots.get? 8))
  | _ => none

/-- The flags and faults of its block afterwards. -/
def marked (i : Instr) (l r x : Token) : Option (BitVec 5 × List Cause) :=
  match exec i (readyOn i l r x) with
  | .next t => ((t.fibre? 0).bind (fun f => f.frame? 0)).map (fun fr => (fr.flags, fr.faults.map (fun f => f.cause)))
  | _ => none

def two (mk : Pred → Target → Target → Instr) (a b : Word) : Option Token := sent (mk .always (.l 2) .none) (.val a) (.val b) .null

/-- R70's table, with −7 and −2 as 64-bit words. -/
theorem test_division_table :
    [two .div 7 2, two .div (-7) 2, two .div 7 (-2), two .div 7 0, two .div 0x8000000000000000 (-1)]
      = [some (.val 3), some (.val (-3)), some (.val (-3)), some (.val (-1)), some (.val 0x8000000000000000)]
    ∧ [two .rem 7 2, two .rem (-7) 2, two .rem 7 (-2), two .rem 7 0, two .rem 0x8000000000000000 (-1)]
      = [some (.val 1), some (.val (-1)), some (.val 1), some (.val 7), some (.val 0)] := by decide +kernel

theorem test_unsigned_division_table :
    [two .divu 7 2, two .divu (-7) 2, two .divu 7 (-2), two .divu 7 0, two .divu 0x8000000000000000 (-1)]
      = [some (.val 3), some (.val 0x7FFFFFFFFFFFFFFC), some (.val 0), some (.val 0xFFFFFFFFFFFFFFFF), some (.val 0)]
    ∧ [two .remu 7 2, two .remu (-7) 2, two .remu 7 (-2), two .remu 7 0, two .remu 0x8000000000000000 (-1)]
      = [some (.val 1), some (.val 1), some (.val 7), some (.val 7), some (.val 0x8000000000000000)] := by decide +kernel

/-- R69: the high halves of −1 times −1, and shift amounts above 63. -/
theorem test_products_and_shifts :
    two .mulh (-1) (-1) = some (.val 0) ∧ two .mulhu (-1) (-1) = some (.val 0xFFFFFFFFFFFFFFFE)
    ∧ two .shl 1 65 = some (.val 2) ∧ two .sar 0x8000000000000000 63 = some (.val (-1)) ∧ two .shr (-1) 128 = some (.val (-1))
    ∧ two .rotl 0x8000000000000001 1 = some (.val 3) ∧ two .andn 12 10 = some (.val 4) := by decide +kernel

/-- R71, R73 to R76: the kernel `bucket_probe`, with the key 0xAB3C5. -/
theorem test_bucket_probe :
    sent (.genh .always 0x400 (.l 2) .none) (.val 0x4000) .null .null = some (.val 0x4000004000)
    ∧ sent (.bfxu .always 12 7 (.l 2)) (.val 0xAB3C5) .null .null = some (.val 0xAB)
    ∧ sent (.popc .always (.l 2) .none) (.val 0xAB3C5) .null .null = some (.val 11)
    ∧ sent (.lea .always 3 16 (.l 2)) (.val 0x4000004000) (.val 0xAB) .null = some (.val 0x4000004568)
    ∧ sent (.andi .always (-256) (.l 2)) (.val 0x1234) .null .null = some (.val 0x1200) := by decide +kernel

/-- R75: bit 0 alone decides; R13: poison before null. -/
theorem test_select :
    sent (.sel .always (.l 2) .none) (.val 2) (.val 5) (.val 9) = some (.val 9)
    ∧ sent (.sel .always (.l 2) .none) (.val 3) (.val 5) (.val 9) = some (.val 5)
    ∧ sent (.sel .always (.l 2) .none) (.val 3) .null .poison = some .poison := by decide +kernel

/-- R94: lanes 2^24 and fifteen ones in a pairwise tree, rounding to nearest (chapter 7's kernel): 2^24 + 14 with NX. -/
def ones : Vec := BitVec.ofNat 512 (leNat ((natLe 4 0x4B800000).append ((List.replicate 15 (natLe 4 0x3F800000)).flatten)))
theorem test_float_tree :
    sent (.vred .always .fadd .b32 (.l 2) .none) (.vec ones 7) .null .null = some (.val 0x4B800007)
    ∧ marked (.vred .always .fadd .b32 .none .none) (.vec ones 7) .null .null = some (1, [])
    ∧ sent (.fcvt .always .l .s (.l 2) .none) (.val 0x4B800007) .null .null = some (.val 16777230) := by decide +kernel

/-- R92: infinity to an integer saturates with NV alone; R90: the class of −0. -/
theorem test_float_corners :
    sent (.fcvt .always .l .s (.l 2) .none) (.val 0x7F800000) .null .null = some (.val 0x7FFFFFFFFFFFFFFF)
    ∧ marked (.fcvt .always .l .s .none .none) (.val 0x7F800000) .null .null = some (0x10, [])
    ∧ sent (.fclass .always false (.l 2) .none) (.val 0x80000000) .null .null = some (.val 8)
    ∧ sent (.fcvt .always .w .d (.l 2) .none) (.val 0xC1E0000000100000) .null .null = some (.val 0xFFFFFFFF80000000) := by
  decide +kernel

/-- R93: the lane mask 0xAA gives the indices 0, 0, 1, 1, 2, 2, 3, 3 (chapter 11's kernel). -/
theorem test_iota :
    sent (.viota .always .b64 (.l 2) .none) (.val 0xAA) .null .null
      = some (.vec (BitVec.ofNat 512 (leNat ([0, 0, 1, 1, 2, 2, 3, 3].flatMap (natLe 8)))) 7) := by decide +kernel

/-- R270, R271: one conversion by hand, from the state 1. -/
def srLanes : Vec := BitVec.ofNat 512 (leNat ([0x3FD00000, 0x3F8C0000, 0x3F8C0000, 0, 0x3F8EBBE1, 0x43FA0000].flatMap (natLe 4)))
theorem test_stochastic_words : (srWords 4 1).take 2 = [0x40822041, 0x100041060C011441] := by decide +kernel
theorem test_stochastic_lanes :
    (cvtNarrow 2 .sr false (srWords 4 1) srLanes 6).toNat % 2 ^ 128 = leNat [0x3D, 0x39, 0x38, 0, 0x39, 0x7F] := by decide +kernel

/-- R286: the blocks of the worked example. -/
def blocks : Vec := BitVec.ofNat 512 (leNat ([0x41400000, 0xC0A00000, 0x40400000, 0x3F800000, 0x3F000000, 0xBF400000, 0x40200000
  , 0x3F666666, 0, 0, 0, 0, 0x80000000].flatMap (natLe 4)))
theorem test_block_scale :
    sent (.bscale .always (.l 2) .none) (.vec blocks 6) .null .null = some (.vec 0x608000080000129013C7 4) := by decide +kernel

/-- R227: the status words of copies of 2,048 and 16,384 bytes; R2: the cell at (2, 3) of die 13. -/
theorem test_numbers :
    statusWord 0 2048 = 0x0000000008000001 ∧ statusWord 0 16384 = 0x0000000040000001 ∧ cellAt 13 2 3 = 746 ∧ dieOfCell 746 = 13 := by
  decide +kernel

/-- Words of the block `probe` (chapter 11). -/
theorem test_words_of_probe :
    decode 0x0800000002A80084 = .ok (.genc .always 0xAA (.l 4) .none)
    ∧ decode 0x0900000010000083 = .ok (.genh .always 0x400 (.l 3) .none)
    ∧ decode 0x0600000002250E85 = .ok (.mov3 .always (.l 5) (.l 7) (.l 9))
    ∧ decode 0x7800030000000105 = .ok (.viota .always .b64 (.r 5) .none)
    ∧ decode 0x7500030000000107 = .ok (.vred .always .add .b64 (.r 7) .none)
    ∧ decode 0xA103300008000088 = .ok (.amoAdd .always .d ⟨1, .module, .ar, 512⟩ (.l 8) .none)
    ∧ decode 0x9404000004000000 = .ok (.vst .always ⟨2, .fibre, .rlx, 256⟩)
    ∧ decode 0x1500000000000000 = .ok (.halt .always 0) := by decide +kernel

/-- R53, R54: a store in the own cell, performed; the bytes are little-endian, and a load of two of them extends the sign. -/
theorem test_store_and_load :
    (match exec (.homeWrite 0 0) (holding (accessOf stw (pieceAt .cell 0xFFFFC [0x78, 0x56, 0x34, 0x82]))) with
      | .next t => t.cmem.bytes 0xFFFFC 4 == natLe 4 0x82345678 && t.cmem.bytes 0xFFFF8 4 == [0, 0, 0, 0]
      | _ => false) = true
    ∧ (accessOf (.ldH .always m0 .none .none) { done (pieceAt .cell 0 [0x34, 0x82]) with n := 2 }).result = .val 0xFFFFFFFFFFFF8234 := by
  decide +kernel

/-- R141: an atomic add in cell memory leaves the sum and keeps the old value. -/
theorem test_atomic :
    (match exec (.homeWrite 0 0) ({ holding (accessOf amo (pieceAt .cell 8 [])) with cmem := [(8, 250), (9, 255), (10, 255), (11, 255)] }) with
      | .next t => t.cmem.bytes 8 4 == natLe 4 0xFFFFFFFF && (t.accesses.get? 0).map (fun a => a.old) == some 0xFFFFFFFA
      | _ => false) = true := by decide +kernel

/-- R234 to R238: TRAP with delegation to S enters the handler of level S, and `sret` there goes back to the block. -/
theorem test_trap_and_return :
    (match exec (.trapDelivery 0) (still (fun f => { f with mdeleg := 0x100, bankS := { f.bankS with tvec := 0x200 } }) broken) with
      | .next t => (t.fibre? 0).map (fun f => (f.level, f.bankS.tcause, f.bankS.tblock, f.next, f.frames.length))
          == some (.s, 8, 0x40, some 0x200, 0)
      | _ => false) = true
    ∧ (((still (fun f => { f with level := .s, bankS := { f.bankS with tblock := 0x40 } }) id).doSret 0 0).fibre? 0).map
        (fun f => (f.level, f.next)) = some (.a, some 0x40) := by decide +kernel

/-- R24, R46: a commit enters a value, and a null leaves its register. -/
theorem test_commit :
    (match exec (.blockCommit 0) (still id (fun fr => { gone fr with gw := 3, gout := [(0, .null), (1, .val 77)] })) with
      | .next t => (t.fibre? 0).map (fun f => (vget f.g 0 9, vget f.g 1 9, f.frames.length)) == some (0, 77, 0)
      | _ => false) = true := by decide +kernel

/-- Every instruction of a program gives a next state, in the state that `withFetchWord` builds. -/
def steps (i : Instr) : Bool :=
  match step (State.reset.withFetchWord 64 ((encode i).getD 0).toNat) with
  | .next _ => true
  | _ => false
theorem test_programs_step0 : programs0.all steps = true := by decide +kernel
theorem test_programs_step1 : programs1.all steps = true := by decide +kernel
theorem test_programs_step2 : programs2.all steps = true := by decide +kernel

/-! ### The assembly language and the binary forms -/

/-- The doubleword at an address of what a source assembles to, `.text` from 0x1000. -/
def wordAt (src : List String) (a : Nat) : Option Word := ((assemble 0x1000 0x8000 src).toOption).map (fun o => o.mem.dword a)

/-- Why a source is refused, if it is. -/
def refusal (src : List String) : Option ToolErr :=
  match assemble 0x1000 0x8000 src with
  | .ok _ => none
  | .error e => some e

/-- Lines as one block of a kernel. -/
def blockOf (ls : List String) : List String := [".kernel k", ".block b", ".exits e0 = b"] ++ ls ++ [".endb", ".endk"]

/-- The block `clamp0` after R40, with the words that stand there; its GWMASK is g1. -/
def clamp : List String :=
  blockOf ["n0:  read g1 -> n1.l, n4.l    ; x", "n1:  tlti #0 -> n3.l", "n2:  genc #0 -> n3.r", "n3:  sel -> n5.l", "n4:  xop",
    "n5:  write g1", "n6:  br e0"]
theorem test_clamp_words :
    ([0x1040, 0x1048, 0x1060, 0x1068, 0x1070, 0x1078, 0x1080, 0x1088].map (wordAt clamp))
      = [0, 2, 0x0101000000010881, 0x4802000000000083, 0x0800000000000103, 0x3A00000000000085, 0x0F00000000000000,
          0x0301000000000000].map some := by decide +kernel

/-- R178, R203, R247, R276: lines whose words the entries give. -/
theorem test_line_words :
    ([ ("bar.init #3, #2", 0xB4000000004C0000), ("evt.wait.system", 0xB8000A0000000000), ("mring acc0, g9, #4, #64", 0xC600910300000000),
      ("cmtag.e2m1.scale", 0xCA30000000000000), ("tlbinv.all.die", 0xE304060000000000), ("mst.bf16 acc3, g4", 0xC900460000000000) ].all
      (fun e => wordAt (blockOf ["n0: " ++ e.1, "n1: br e0"]) 0x1060 == some (e.2 : Word))) = true := by decide +kernel

/-- The `.khdr` line after R318 and its doublewords. -/
def header : List String :=
  [".kernel k", ".khdr gregs=9, vregs=0, frames=4, fibres=1, group=2x1, core=1, cmem=4096, regions=0, power=0, tvec=fix",
    ".block fix", "n0: halt", ".endb", ".endk"]
theorem test_header_words :
    ([0x1000, 0x1008, 0x1010, 0x1018].map (wordAt header)) = [0x14C525250, 0x100030009, 0x1000, 0x40].map some := by decide +kernel

/-- R310 to R312: what the assembler refuses. -/
theorem test_refused_lines :
    refusal (blockOf ["n1: genc #1 -> n0.l", "n0: write g1", "n2: br e0"]) = some .order
    ∧ refusal (blockOf ["n0: genc #1 -> n1.r", "n1: write g1", "n2: br e0"]) = some .slot
    ∧ refusal (blockOf ["n0: genc #1 -> n1.p", "n1: br e0"]) = some .slot
    ∧ refusal (blockOf ["n0: fence.sc.module ls1", "n1: fence.sc.module ls1", "n2: br e0"]) = some .lsid
    ∧ refusal (blockOf ["n0: br e1"]) = some .exit
    ∧ refusal (blockOf ["n0: addi #8388608 -> n1.l", "n1: write g1"]) = some .range
    ∧ refusal [".kernel k", ".khdr fibres=65", ".endk"] = some .range := by decide +kernel

/-- R311: data after the source's `.data`; a third of a float is rounded to nearest even. -/
theorem test_data :
    (([0x8000, 0x8008].map (wordAt [".data", ".word.d -2", ".float 1.5, -0.1"]))
      = [0xFFFFFFFFFFFFFFFE, 0xBDCCCCCD3FC00000].map some)
    ∧ refusal [".data", ".byte 256"] = some .range := by decide +kernel

/-- R313: a branch of 160 bytes and its longest reach, an address in two parts, and the veneer to it. -/
theorem test_relocations :
    (RelocTy.boff33.apply 0x180 0xE0 0x10C8000000000000).toOption = some 0x10C8000000140000
    ∧ (RelocTy.boff33.apply (0x2000000000 - 32) 0 0).toOption = some (0xFFFFFFFF <<< 18)
    ∧ RelocTy.boff33.apply 0x2000000000 0 0 = .error .reach ∧ RelocTy.boff33.apply 16 0 0 = .error .unaligned
    ∧ (linkBranch 0 0x2000000000 64 0x1000000000000000).toOption = some (0x1000000000080000, true)
    ∧ (veneer 0x123456789ABCDE0).err = none ∧ (veneer 0x123456789ABCDE0).gwmask = 1 <<< 58 := by decide +kernel

/-- R65, R66: the ninth integer argument travels on the stack; a landing pad keeps g1 and gets g32 back. -/
theorem test_convention :
    placeArgs false (List.replicate 9 .int ++ [.vec]) = (List.range 8).map .g ++ [.stack 0 8, .v 0]
    ∧ placeArgs true [.aggregate 16, .aggregate 17] = [.gPair 0, .g 2]
    ∧ (gRole 58, (gRole 31).preserved, (gRole 32).preserved) = (.scratch, false, true) := by decide +kernel

end Sys2Proof.Tests
end

section
/-! PROOFS. The integer chapter: division (R70), address computation (R74) and selection (R75). -/

namespace Sys2Proof.Machine

/-! ### Instructions that wait for their operands -/

/-- An instruction that may fire has every operand slot that it uses filled (R8). -/
theorem filled_of_canFire {a : Acting} {i : Instr} (h : a.canFire i = true) :
    a.fr.filled (slotL a.k) (slotsOf i).l = true ∧ a.fr.filled (slotR a.k) (slotsOf i).r = true
      ∧ a.fr.filled (slotX a.k) (slotsOf i).x = true := by
  simp only [Acting.canFire, Frame.ready, Bool.and_eq_true] at h
  obtain ⟨⟨⟨⟨-, hl⟩, hr⟩, hx⟩, -⟩ := h
  exact ⟨hl, hr, hx⟩

/-- An instruction that may not fire yet changes nothing. -/
theorem dataflow_waits {i : Instr} {f : Acting → Result} {s : State} {a : Acting} (h : s.acting i = some a)
    (hc : a.canFire i = false) : dataflow i f s = .next s := by
  simp [dataflow, h, hc]

/-! ### Division (R70) -/

/-- The quotient of signed division. -/
theorem divRem_fst (x y : Word) : (divRem x y).1 = if y = 0 then 0xFFFFFFFFFFFFFFFF
    else if x = 0x8000000000000000 ∧ y = 0xFFFFFFFFFFFFFFFF then x
    else BitVec.ofInt 64 (x.toInt.tdiv y.toInt) := by
  have hmin : BitVec.intMin 64 = 0x8000000000000000 := by decide
  have hones : BitVec.allOnes 64 = 0xFFFFFFFFFFFFFFFF := by decide
  rw [divRem, hmin, hones, apply_ite Prod.fst, apply_ite Prod.fst]

/-- The quotient of unsigned division. -/
theorem divRemU_fst (x y : Word) : (divRemU x y).1 = if y = 0 then 0xFFFFFFFFFFFFFFFF
    else BitVec.ofNat 64 (x.toNat / y.toNat) := by
  have hones : BitVec.allOnes 64 = 0xFFFFFFFFFFFFFFFF := by decide
  rw [divRemU, hones, apply_ite Prod.fst]

/-- Settles O13: each of the four instructions is a `binary` meaning, so it completes on every pair of values, and
its function is the quotient or the remainder of R70. -/
theorem divisionIsDefinedEverywhere : Obligations.DivisionIsDefinedEverywhere := by
  intro pr t0 t1
  refine ⟨?div, ?rem, ?divu, ?remu, ?targets⟩
  case div => exact gives2_of (exec_div pr t0 t1) (by simp [slotsOf]) divRem_fst
  case rem => exact gives2_of (exec_rem pr t0 t1) (by simp [slotsOf]) divRem_snd
  case divu => exact gives2_of (exec_divu pr t0 t1) (by simp [slotsOf]) divRemU_fst
  case remu => exact gives2_of (exec_remu pr t0 t1) (by simp [slotsOf]) divRemU_snd
  case targets => simp [targetsOf]

/-! ### Address computation (R74) -/

/-- The word of `lea` holds its opcode, the shift in IMM[1:0] and the displacement in IMM[23:2]. -/
theorem encode_lea_fields (pr : Pred) (sh : BitVec 2) (disp : BitVec 22) (t0 : Target) :
    ∃ w, encode (.lea pr sh disp t0) = some w ∧ fld w 56 8 = 0x39 ∧ fld w 18 2 = sh ∧ fld w 20 22 = disp := by
  have himm : Within (put 2 18 sh ||| put 22 20 disp) 18 24 :=
    .or (.put _ (by omega) (by omega)) (.put _ (by omega) (by omega))
  refine ⟨_, rfl, op_encI _ _ _ _ _ himm, ?_, ?_⟩
  · exact (imm_encI _ _ _ _ _ 18 2 (by omega) (by omega)).trans (by simp)
  · exact (imm_encI _ _ _ _ _ 20 22 (by omega) (by omega)).trans (by simp)

/-- Settles O14: `lea` is a `binary` meaning whose function is the sum of R74, and the fields of its word read back. -/
theorem leaOnlyComputesANumber : Obligations.LeaOnlyComputesANumber := fun pr sh disp t0 =>
  ⟨gives2_of (exec_lea pr sh disp t0) (by simp [slotsOf]) (fun _ _ => rfl), rfl, encode_lea_fields pr sh disp t0⟩

/-! ### Selection (R75) -/

section Select
variable (pr : Pred) (t0 t1 : Target)

/-- `sel` takes three operands. -/
theorem operands_sel (fr : Frame) (k : Nat) :
    fr.operands k (.sel pr t0 t1) = [fr.opL k, fr.opR k, fr.opX k] := rfl

/-- On three values, `sel` sends the one that bit 0 of its condition chooses. -/
theorem exec_sel_values {s : State} {a : Acting} {c y z : Word} (h : Fires s (.sel pr t0 t1) a)
    (hl : a.fr.opL a.k = .val c) (hr : a.fr.opR a.k = .val y) (hx : a.fr.opX a.k = .val z) :
    exec (.sel pr t0 t1) s = .next (a.sends s (.sel pr t0 t1) (.val (if c.getLsbD 0 then y else z)) 0) := by
  have hvalues : badOperand (a.fr.operands a.k (.sel pr t0 t1)) = none := by
    simp [operands_sel, hl, hr, hx, badOperand]
  rw [exec_sel, execSel, dataflow_next h hvalues, sends_of rfl, hl, hr, hx]
  rfl

/-- `sel` may not fire while one of its three slots holds nothing. -/
theorem canFire_sel_eq_false {a : Acting} (h : a.fr.slots.get? (slotL a.k) = none
      ∨ a.fr.slots.get? (slotR a.k) = none ∨ a.fr.slots.get? (slotX a.k) = none) :
    a.canFire (.sel pr t0 t1) = false := by
  by_contra hc
  obtain ⟨hl, hr, hx⟩ := filled_of_canFire (Bool.eq_true_of_not_eq_false hc)
  rcases h with h | h | h
  · simp [Frame.filled, slotsOf, h] at hl
  · simp [Frame.filled, slotsOf, h] at hr
  · simp [Frame.filled, slotsOf, h] at hx

/-- The word of `sel` holds its opcode, and 0 in FN and MOD. -/
theorem encode_sel_fields :
    ∃ w, encode (.sel pr t0 t1) = some w ∧ fld w 56 8 = 0x3A ∧ fld w 48 6 = 0 ∧ fld w 40 8 = 0 :=
  ⟨_, rfl, op_encG _ _ _ _ _ _ (.zero _ _), fn_encG _ _ _ _ _ _ (.zero _ _),
    (mod_encG _ _ _ _ _ _ 40 8 (by omega) (by omega)).trans (fld_zero _ _)⟩

end Select

/-- Settles O16: the choice on values, poison and null as in every `dataflow` meaning, the wait for an empty slot,
and the fields of the word. -/
theorem selectTakesBitZero : Obligations.SelectTakesBitZero := by
  intro pr t0 t1 s a c y z i ops
  have hbad (h : Fires s i a) := bad_of (exec_sel pr t0 t1) h
  refine ⟨exec_sel_values pr t0 t1, fun h => (hbad h).1, fun h => (hbad h).2, fun ha hempty => ?_, rfl,
    encode_sel_fields pr t0 t1⟩
  exact dataflow_waits ha (canFire_sel_eq_false pr t0 t1 hempty)

end Sys2Proof.Machine
end

section
/-! PROOFS. The float chapter: the classes of `fclass` (R90). -/

namespace Sys2Proof.Machine

/-! ### The table of R90 -/

/-- The table of R90: the code `x` is of the class that bit `n` stands for. -/
def Fmt.InClass (F : Fmt) (x : Nat) : Nat → Prop
  | 0 => F.isInf x = true ∧ F.neg x = true
  | 1 => 2 ^ F.mb ≤ F.mag x ∧ F.mag x < F.inf ∧ F.neg x = true
  | 2 => F.isSub x = true ∧ F.neg x = true
  | 3 => F.isZero x = true ∧ F.neg x = true
  | 4 => F.isZero x = true ∧ F.neg x = false
  | 5 => F.isSub x = true ∧ F.neg x = false
  | 6 => 2 ^ F.mb ≤ F.mag x ∧ F.mag x < F.inf ∧ F.neg x = false
  | 7 => F.isInf x = true ∧ F.neg x = false
  | 8 => F.isSNaN x = true
  | 9 => F.isNaN x = true ∧ F.isSNaN x = false
  | _ => False

section Classes
variable {F : Fmt} {x : Nat}

theorem Fmt.isNaN_iff : F.isNaN x = true ↔ F.inf < F.mag x := by simp [Fmt.isNaN]
theorem Fmt.isInf_iff : F.isInf x = true ↔ F.mag x = F.inf := by simp [Fmt.isInf]
theorem Fmt.isZero_iff : F.isZero x = true ↔ F.mag x = 0 := by simp [Fmt.isZero]
theorem Fmt.isSub_iff : F.isSub x = true ↔ F.mag x ≠ 0 ∧ F.mag x < 2 ^ F.mb := by simp [Fmt.isSub]

/-- A signalling NaN is a NaN. -/
theorem Fmt.isNaN_of_isSNaN (h : F.isSNaN x = true) : F.isNaN x = true := by
  rw [Fmt.isSNaN, Bool.and_eq_true] at h
  exact h.1

/-- In a format with an exponent field, the smallest normal number is not above the code of +∞. -/
theorem Fmt.two_pow_mb_le_inf (h : 0 < F.eb) : 2 ^ F.mb ≤ F.inf :=
  Nat.le_mul_of_pos_left _ (Nat.sub_pos_of_lt (Nat.one_lt_two_pow h.ne'))

/-- What is neither NaN nor infinity nor zero nor subnormal is a normal number. -/
theorem Fmt.normal_of_no_other_kind (hnan : ¬F.isNaN x = true) (hinf : ¬F.isInf x = true) (hzero : ¬F.isZero x = true)
    (hsub : ¬F.isSub x = true) : 2 ^ F.mb ≤ F.mag x ∧ F.mag x < F.inf := by
  rw [Fmt.isNaN_iff] at hnan
  rw [Fmt.isInf_iff] at hinf
  rw [Fmt.isZero_iff] at hzero
  rw [Fmt.isSub_iff] at hsub
  omega

/-- There are ten classes. -/
theorem Fmt.InClass.lt_ten {n : Nat} (h : F.InClass x n) : n < 10 := by
  by_contra hn
  obtain ⟨k, rfl⟩ := Nat.exists_eq_add_of_le' (Nat.le_of_not_lt hn)
  exact h

/-! ### The bit of each kind of operand

The kinds lie in the order of the magnitude: zero, below the smallest normal number, below +∞, +∞, above it. Two kinds
are told apart by that order. -/

theorem fclassBit_of_isNaN (h : F.isNaN x = true) : fclassBit F x = if F.isSNaN x then 8 else 9 := by
  simp [fclassBit, h]

theorem fclassBit_of_isInf (h : F.isInf x = true) : fclassBit F x = if F.neg x then 0 else 7 := by
  have hnan : ¬F.isNaN x = true := by rw [Fmt.isNaN_iff, Fmt.isInf_iff.mp h]; omega
  simp [fclassBit, hnan, h]

section
variable (hF : 2 ^ F.mb ≤ F.inf)
include hF

theorem fclassBit_of_isZero (h : F.isZero x = true) : fclassBit F x = if F.neg x then 3 else 4 := by
  have hpos := Nat.two_pow_pos F.mb
  have hnan : ¬F.isNaN x = true := by rw [Fmt.isNaN_iff, Fmt.isZero_iff.mp h]; omega
  have hinf : ¬F.isInf x = true := by rw [Fmt.isInf_iff, Fmt.isZero_iff.mp h]; omega
  simp [fclassBit, hnan, hinf, h]

theorem fclassBit_of_isSub (h : F.isSub x = true) : fclassBit F x = if F.neg x then 2 else 5 := by
  obtain ⟨hne, hlt⟩ := Fmt.isSub_iff.mp h
  have hnan : ¬F.isNaN x = true := by rw [Fmt.isNaN_iff]; omega
  have hinf : ¬F.isInf x = true := by rw [Fmt.isInf_iff]; omega
  have hzero : ¬F.isZero x = true := by rwa [Fmt.isZero_iff]
  simp [fclassBit, hnan, hinf, hzero, h]

end

theorem fclassBit_of_normal (hmin : 2 ^ F.mb ≤ F.mag x) (hmax : F.mag x < F.inf) :
    fclassBit F x = if F.neg x then 1 else 6 := by
  have hpos := Nat.two_pow_pos F.mb
  have hnan : ¬F.isNaN x = true := by rw [Fmt.isNaN_iff]; omega
  have hinf : ¬F.isInf x = true := by rw [Fmt.isInf_iff]; omega
  have hzero : ¬F.isZero x = true := by rw [Fmt.isZero_iff]; omega
  have hsub : ¬F.isSub x = true := by rw [Fmt.isSub_iff]; omega
  simp [fclassBit, hnan, hinf, hzero, hsub]

/-! ### The classes cover all codes and exclude each other -/

/-- Every code is of the class whose bit `fclass` sets. -/
theorem inClass_fclassBit : F.InClass x (fclassBit F x) := by
  unfold fclassBit
  split_ifs with hnan hsnan hinf hneg hzero hneg hsub hneg hneg
  · exact hsnan
  · exact ⟨hnan, Bool.eq_false_of_not_eq_true hsnan⟩
  · exact ⟨hinf, hneg⟩
  · exact ⟨hinf, Bool.eq_false_of_not_eq_true hneg⟩
  · exact ⟨hzero, hneg⟩
  · exact ⟨hzero, Bool.eq_false_of_not_eq_true hneg⟩
  · exact ⟨hsub, hneg⟩
  · exact ⟨hsub, Bool.eq_false_of_not_eq_true hneg⟩
  · obtain ⟨hmin, hmax⟩ := Fmt.normal_of_no_other_kind hnan hinf hzero hsub
    exact ⟨hmin, hmax, hneg⟩
  · obtain ⟨hmin, hmax⟩ := Fmt.normal_of_no_other_kind hnan hinf hzero hsub
    exact ⟨hmin, hmax, Bool.eq_false_of_not_eq_true hneg⟩

/-- A code is of no class but that one. -/
theorem fclassBit_of_inClass (hF : 2 ^ F.mb ≤ F.inf) {n : Nat} (h : F.InClass x n) : fclassBit F x = n := by
  match n, h with
  | 0, ⟨hinf, hneg⟩ => rw [fclassBit_of_isInf hinf, hneg]; rfl
  | 1, ⟨hmin, hmax, hneg⟩ => rw [fclassBit_of_normal hmin hmax, hneg]; rfl
  | 2, ⟨hsub, hneg⟩ => rw [fclassBit_of_isSub hF hsub, hneg]; rfl
  | 3, ⟨hzero, hneg⟩ => rw [fclassBit_of_isZero hF hzero, hneg]; rfl
  | 4, ⟨hzero, hneg⟩ => rw [fclassBit_of_isZero hF hzero, hneg]; rfl
  | 5, ⟨hsub, hneg⟩ => rw [fclassBit_of_isSub hF hsub, hneg]; rfl
  | 6, ⟨hmin, hmax, hneg⟩ => rw [fclassBit_of_normal hmin hmax, hneg]; rfl
  | 7, ⟨hinf, hneg⟩ => rw [fclassBit_of_isInf hinf, hneg]; rfl
  | 8, (hsnan : F.isSNaN x = true) => rw [fclassBit_of_isNaN (Fmt.isNaN_of_isSNaN hsnan), if_pos hsnan]
  | 9, ⟨hnan, hsnan⟩ => rw [fclassBit_of_isNaN hnan, hsnan]; rfl

/-- The bit that `fclass` sets is `n` exactly for the codes of the class of bit `n`. -/
theorem fclassBit_eq_iff (hF : 2 ^ F.mb ≤ F.inf) (n : Nat) : fclassBit F x = n ↔ F.InClass x n :=
  ⟨fun h => h ▸ inClass_fclassBit, fclassBit_of_inClass hF⟩

end Classes

/-! ### The instruction -/

/-- The word of `fclass` holds its opcode, and the type in TY: 1 for binary64, else 0. -/
theorem encode_fclass_fields (pr : Pred) (dbl : Bool) (t0 t1 : Target) :
    ∃ w, encode (.fclass pr dbl t0 t1) = some w ∧ fld w 56 8 = 0x5E ∧ nfld w 40 2 = if dbl then 1 else 0 := by
  have hmod : Within (put 1 40 (BitVec.ofBool dbl)) 40 8 := .put _ (by omega) (by omega)
  have hty : fld (put 1 40 (BitVec.ofBool dbl)) 40 2 = (BitVec.ofBool dbl).setWidth 2 :=
    fld_put_wider _ _ _ _ (by omega) (by omega)
  refine ⟨_, rfl, op_encG _ _ _ _ _ _ hmod, ?_⟩
  rw [nfld, mod_encG _ _ _ _ _ _ 40 2 (by omega) (by omega), hty]
  cases dbl <;> rfl

/-- Settles O19: `fclass` is a `dataflow` meaning that raises no flag, the fields of its word read back, and the bit
of its operand is that of the one class of R90 that the operand is of. -/
theorem floatClassTable : Obligations.FloatClassTable := by
  refine ⟨fun pr dbl t0 t1 => ⟨computes_of (exec_fclass pr dbl t0 t1) (fun _ => rfl),
    encode_fclass_fields pr dbl t0 t1, rfl⟩, fun F x hfmt _ => ?_⟩
  have heb : 0 < F.eb := by rcases hfmt with rfl | rfl <;> decide
  have hbit := fclassBit_eq_iff (x := x) (Fmt.two_pow_mb_le_inf heb)
  exact ⟨inClass_fclassBit.lt_ten, hbit 0, hbit 1, hbit 2, hbit 3, hbit 4, hbit 5, hbit 6, hbit 7, hbit 8, hbit 9⟩

end Sys2Proof.Machine
end

section
/-! PROOFS. Words: the decoder reads back what the encoder makes (R33 to R44), and what it reads is well formed. -/

namespace Sys2Proof

/-! ### From an instruction to its word and back -/

open Laws.RoundTrip in
/-- The law of `Laws.RoundTrip` for every instruction, one constructor after the other in the order of `Instr`. -/
theorem Laws.RoundTrip.statement (i : Instr) : Statement i :=
  Instr.casesOn (motive := Statement) i
    nop read vread write vwrite mov mov3 mov4 genc genh null xop br bri call calli ret halt scall trap brk
    add sub mul mulh mulhu div divu rem remu and or xor andn shl shr sar rotl clz ctz popc sext zext min max minu maxu
    bfx bfxu bfi lea sel addi muli andi ori xori shli shri sari teq tne tlt tle tltu tleu tnz
    teqi tnei tlti tlei tltui tleui
    fadd fsub fmul ffma fdiv fsqrt fmin fmax fabs fneg fsgnj feq flt fle fclass fcvt
    vbcast vext vins vperm vshl vred vsel vcmp viota vcnt
    ldB ldBu ldH ldHu ldW ldWu ldD vld vgather pf cinv cwb stB stH stW stD vst vscatter fence
    amoAdd amoAnd amoOr amoXor amoMin amoMax amoMinu amoMaxu amoSwap amoCas amoFadd
    rgnBeg rgnEnd rgnAbt rgnStat barInit barArr barWait evtSig evtWait wqGive wqTake wqSteal launch yield
    cpy cpyQ bbarInit bbarWait mma mmaSp mring mzero mld mst cmtag cvtN cvtW bscale srd swr sret tlbinv cyc
    frameGrant blockFetch blockCommit trapDelivery loadReply homeWrite invalidationAck l1Invalidate homeRead writeAck
    l1Evict llcEvict pageWalk tableUpdateWrite tlbinvComplete bridgeModuleRead bridgeModuleWrite bridgeDropHalf go
    snpData snpInv snpCur writePull goWritePullDrop memRd memRdData memWr birspi atomicOpCompletion
    slotGrant regionRead regionWrite regionAtomic edgeRequest stallRetry endReport regionCommit regionAbort
    commitAnswer abortAnswer dependenceTimeout recoveryGo leaseExpiry startWatchdog
    goWord groupPlace ageingPeriod preemptTimer preemption segmentReport copyStart copyBeat copyFinish bbarInitPerform
    markTake nodeCommandStart nodeCommandFinish ringStart ringHandover ringTimeout
    ldmapWrite lwcfgWrite lcancel gmove debugHold debugAccess debugRelease warmReset fenceOnly readmit linkQuiesce
    dieResetDone bistDone linkDown beatReplay creditReturn creditAudit gateTimer cellWake
    uncorrectableError correctedError thermalThrottle clkstepWrite moduleStart claim startcfgWrite moderrClear
    registerWrite getVersion getCapabilities negotiateAlgorithms getDigests getCertificate challenge getMeasurements
    keyExchange finish keyUpdate heartbeat endSession vendorDefined ideKm

/-- Settles O1, by the round trip of each instruction. -/
theorem decodeOfEncode : Obligations.DecodeOfEncode :=
  fun i w hwf henc => Laws.RoundTrip.statement i hwf w henc

/-! ### From a word to its instruction

Every format of the decoder ends in `legal`, which asks for the limits of R38; what it gives is built by a constructor
of the opcode table, and such an instruction has a word. -/

/-- What a decoder accepts meets the limits of R38 and has a word. -/
def GivesWords (d : Dec Instr) : Prop := ∀ i, d = .ok i → i.wellFormed = true ∧ (encode i).isSome = true

theorem givesWords_error (e : DecodeErr) : GivesWords (.error e) := fun _ h => nomatch h

/-- A field read before the rest does not matter. -/
theorem givesWords_bind {α : Type} {d : Dec α} {f : α → Dec Instr} (h : ∀ x, GivesWords (f x)) :
    GivesWords (d >>= f) := by
  cases d with
  | error e => exact givesWords_error e
  | ok x => exact h x

theorem givesWords_legal {i : Instr} (h : (encode i).isSome = true) : GivesWords (legal i) := by
  intro j hj
  unfold legal at hj
  split at hj
  next hwf => cases hj; exact ⟨hwf, h⟩
  next => cases hj

/-- An instruction without fields. -/
theorem givesWords_ok {i : Instr} (hwf : i.wellFormed = true) (h : (encode i).isSome = true) : GivesWords (.ok i) := by
  intro j hj
  cases hj
  exact ⟨hwf, h⟩

section Formats
variable {w : Word}

theorem givesWords_decG {fn mod} {c : Pred → Target → Target → Instr} (h : ∀ p a b, (encode (c p a b)).isSome = true) :
    GivesWords (decG w fn mod c) :=
  givesWords_bind fun p => givesWords_bind fun _ => givesWords_bind fun _ => givesWords_bind fun a =>
    givesWords_bind fun b => givesWords_legal (h p a b)

theorem givesWords_decGMod {α : Type} {fn n} {d : Dec α} {c : Pred → α → Target → Target → Instr}
    (h : ∀ p x a b, (encode (c p x a b)).isSome = true) : GivesWords (decGMod w fn n d c) :=
  givesWords_bind fun p => givesWords_bind fun _ => givesWords_bind fun _ => givesWords_bind fun _ =>
    givesWords_bind fun x => givesWords_bind fun a => givesWords_bind fun b => givesWords_legal (h p x a b)

theorem givesWords_decGFn {α : Type} {d : Dec α} {c : Pred → α → Lane → Target → Target → Instr}
    (h : ∀ p x l a b, (encode (c p x l a b)).isSome = true) : GivesWords (decGFn w d c) :=
  givesWords_bind fun p => givesWords_bind fun x => givesWords_bind fun _ => givesWords_bind fun _ =>
    givesWords_bind fun l => givesWords_bind fun a => givesWords_bind fun b => givesWords_legal (h p x l a b)

theorem givesWords_decI {fn n} {c : Pred → Target → Instr} (h : ∀ p a, (encode (c p a)).isSome = true) :
    GivesWords (decI w fn n c) :=
  givesWords_bind fun p => givesWords_bind fun _ => givesWords_bind fun _ => givesWords_bind fun _ =>
    givesWords_bind fun _ => givesWords_bind fun a => givesWords_legal (h p a)

theorem givesWords_decILane {c : Pred → Lane → BitVec 6 → Target → Instr}
    (h : ∀ p l n a, (encode (c p l n a)).isSome = true) : GivesWords (decILane w c) :=
  givesWords_bind fun l => givesWords_decI fun p a => h p l _ a

theorem givesWords_decC {c : Pred → BitVec 36 → Target → Target → Instr}
    (h : ∀ p n a b, (encode (c p n a b)).isSome = true) : GivesWords (decC w c) :=
  givesWords_bind fun p => givesWords_bind fun a => givesWords_bind fun b => givesWords_legal (h p _ a b)

theorem givesWords_decL {fn} {c : Pred → MemF → Target → Target → Instr}
    (h : ∀ p m a b, (encode (c p m a b)).isSome = true) : GivesWords (decL w fn c) :=
  givesWords_bind fun p => givesWords_bind fun m => givesWords_bind fun _ => givesWords_bind fun a =>
    givesWords_bind fun b => givesWords_legal (h p m a b)

theorem givesWords_decS {fn} {c : Pred → MemF → Instr} (h : ∀ p m, (encode (c p m)).isSome = true) :
    GivesWords (decS w fn c) :=
  givesWords_bind fun p => givesWords_bind fun m => givesWords_bind fun _ => givesWords_bind fun _ =>
    givesWords_legal (h p m)

theorem givesWords_decLCache {n} {c : Pred → Instr} (h : ∀ p, (encode (c p)).isSome = true) :
    GivesWords (decLCache w n c) :=
  givesWords_bind fun p => givesWords_bind fun _ => givesWords_bind fun _ => givesWords_bind fun _ =>
    givesWords_bind fun _ => givesWords_legal (h p)

theorem givesWords_decB {off} {c : Pred → Instr} (h : ∀ p, (encode (c p)).isSome = true) : GivesWords (decB w off c) :=
  givesWords_bind fun p => givesWords_bind fun _ => givesWords_bind fun _ => givesWords_legal (h p)

theorem givesWords_decR {n} {c : Pred → Target → Target → Instr} (h : ∀ p a b, (encode (c p a b)).isSome = true) :
    GivesWords (decR w n c) :=
  givesWords_bind fun p => givesWords_bind fun _ => givesWords_bind fun _ => givesWords_bind fun a =>
    givesWords_bind fun b => givesWords_legal (h p a b)

theorem givesWords_decW {n} {c : Pred → Instr} (h : ∀ p, (encode (c p)).isSome = true) : GivesWords (decW w n c) :=
  givesWords_bind fun p => givesWords_bind fun _ => givesWords_bind fun _ => givesWords_legal (h p)

theorem givesWords_decF {n} {c : Pred → Target → Target → Target → Target → Instr}
    (h : ∀ p a b c' d, (encode (c p a b c' d)).isSome = true) : GivesWords (decF w n c) :=
  givesWords_bind fun p => givesWords_bind fun _ => givesWords_bind fun a => givesWords_bind fun b =>
    givesWords_bind fun c' => givesWords_bind fun d => givesWords_bind fun _ => givesWords_bind fun _ =>
    givesWords_legal (h p a b c' d)

theorem givesWords_decE {fn sreg acc n kq} {c : Pred → Instr} (h : ∀ p, (encode (c p)).isSome = true) :
    GivesWords (decE w fn sreg acc n kq c) :=
  givesWords_bind fun p => givesWords_bind fun _ => givesWords_bind fun _ => givesWords_bind fun _ =>
    givesWords_bind fun _ => givesWords_bind fun _ => givesWords_bind fun _ => givesWords_legal (h p)

theorem givesWords_decX {fn reg scope n t} {c : Pred → Scope → Target → Target → Instr}
    (h : ∀ p sc a b, (encode (c p sc a b)).isSome = true) : GivesWords (decX w fn reg scope n t c) :=
  givesWords_bind fun p => givesWords_bind fun _ => givesWords_bind fun _ => givesWords_bind fun sc =>
    givesWords_bind fun _ => givesWords_bind fun _ => givesWords_bind fun a => givesWords_bind fun b =>
    givesWords_bind fun _ => givesWords_legal (h p sc a b)

end Formats

/-- Each row of the decoder reads fields before a format, or is one of the formats, over a constructor that `encode`
knows. -/
theorem givesWords_decodeOp (op : Nat) (w : Word) : GivesWords (decodeOp op w) := by
  unfold decodeOp decAmo
  repeat' split
  any_goals with_reducible exact givesWords_error _
  any_goals with_reducible refine givesWords_ok ?_ ?_
  any_goals repeat with_reducible refine givesWords_bind fun _ => ?_
  any_goals with_reducible refine givesWords_legal ?_
  any_goals with_reducible refine givesWords_decG ?_
  any_goals with_reducible refine givesWords_decGMod ?_
  any_goals with_reducible refine givesWords_decGFn ?_
  any_goals with_reducible refine givesWords_decI ?_
  any_goals with_reducible refine givesWords_decILane ?_
  any_goals with_reducible refine givesWords_decC ?_
  any_goals with_reducible refine givesWords_decL ?_
  any_goals with_reducible refine givesWords_decS ?_
  any_goals with_reducible refine givesWords_decLCache ?_
  any_goals with_reducible refine givesWords_decB ?_
  any_goals with_reducible refine givesWords_decR ?_
  any_goals with_reducible refine givesWords_decW ?_
  any_goals with_reducible refine givesWords_decF ?_
  any_goals with_reducible refine givesWords_decE ?_
  any_goals with_reducible refine givesWords_decX ?_
  all_goals intros; rfl

/-- Settles O2, format by format. -/
theorem decodedIsWellFormed : Obligations.DecodedIsWellFormed :=
  fun w => givesWords_decodeOp (nfld w 56 8) w

/-- Settles O3: each word is decoded, field by field. -/
theorem writtenWordsDecode : Obligations.WrittenWordsDecode := by
  refine ⟨?_, ?_, ?_, ?_, ?_, ?_, ?_, ?_, ?_, ?_, ?_, ?_, ?_, ?_, ?_, ?_⟩ <;> decide

end Sys2Proof
end

section
/-! PROOFS. Memories (R5), the step (R7, R28), reset, and the registers and tokens of a block (R12, R18, R19, R45, R46). -/

namespace Sys2Proof

/-! ### Maps and memories in canonical form -/

/-- A key below every key of a map is not in it. -/
theorem Dict.get?_eq_none_of_lt {α : Type} {d : Dict α} {k : Nat} (h : ∀ e ∈ d, k < e.1) : d.get? k = none := by
  induction d with
  | nil => rfl
  | cons e d ih =>
    have hne : e.1 ≠ k := (h e List.mem_cons_self).ne'
    simp only [Dict.get?, hne, if_false]
    exact ih fun x hx => h x (List.mem_cons_of_mem _ hx)

/-- The least key of a map is not above any key at which the map holds something. -/
theorem Dict.head_le_of_get?_eq_some {α : Type} {e : Nat × α} {d : Dict α} {k : Nat} {v : α}
    (hd : Dict.rising (e :: d) = true) (h : Dict.get? (e :: d) k = some v) : e.1 ≤ k := by
  by_contra hk
  have hmiss : Dict.get? (e :: d) k = none := Dict.get?_eq_none_of_lt fun x hx => by
    rcases List.mem_cons.mp hx with rfl | hx
    · exact Nat.lt_of_not_le hk
    · exact (Nat.lt_of_not_le hk).trans ((List.pairwise_cons.mp ((Dict.rising_iff _).mp hd)).1 x hx)
  cases hmiss.symm.trans h

@[simp] theorem Dict.get?_head {α : Type} (e : Nat × α) (d : Dict α) : Dict.get? (e :: d) e.1 = some e.2 := by
  simp [Dict.get?]

/-- Two maps with rising keys that hold the same at every key are the same list. -/
theorem Dict.eq_of_get?_eq {α : Type} : ∀ {d d' : Dict α}, d.rising = true → d'.rising = true →
    (∀ k, d.get? k = d'.get? k) → d = d'
  | [], [], _, _, _ => rfl
  | [], e :: d', _, _, h => by simpa [Dict.get?] using h e.1
  | e :: d, [], _, _, h => by simpa [Dict.get?] using h e.1
  | e :: d, e' :: d', hd, hd', h => by
    obtain ⟨hlt, hrise⟩ := List.pairwise_cons.mp ((Dict.rising_iff _).mp hd)
    obtain ⟨hlt', hrise'⟩ := List.pairwise_cons.mp ((Dict.rising_iff _).mp hd')
    have hkey : e.1 = e'.1 := le_antisymm (Dict.head_le_of_get?_eq_some hd ((h e'.1).trans (Dict.get?_head e' d')))
      (Dict.head_le_of_get?_eq_some hd' ((h e.1).symm.trans (Dict.get?_head e d)))
    have hval : e.2 = e'.2 := by simpa [Dict.get?, hkey] using h e.1
    have htail : ∀ k, Dict.get? d k = Dict.get? d' k := fun k => by
      by_cases hk : e.1 = k
      · rw [Dict.get?_eq_none_of_lt fun x hx => hk ▸ hlt x hx,
          Dict.get?_eq_none_of_lt fun x hx => hk ▸ hkey ▸ hlt' x hx]
      · simpa [Dict.get?, hk, hkey ▸ hk] using h k
    rw [Prod.ext hkey hval, Dict.eq_of_get?_eq ((Dict.rising_iff _).mpr hrise) ((Dict.rising_iff _).mpr hrise') htail]

/-- An entry of a map with a value at some key. -/
theorem Dict.mem_of_get?_eq_some {α : Type} {d : Dict α} {k : Nat} {v : α} (h : d.get? k = some v) : (k, v) ∈ d := by
  induction d with
  | nil => cases h
  | cons e d ih =>
    by_cases hk : e.1 = k
    · have : e.2 = v := by simpa [Dict.get?, hk] using h
      exact List.mem_cons.mpr (.inl (Prod.ext hk.symm this.symm))
    · exact List.mem_cons_of_mem _ (ih (by simpa [Dict.get?, hk] using h))

/-- In a memory in canonical form an address is listed with a byte exactly when it reads as that byte, which is not 0. -/
theorem Mem.get?_eq_some_iff {m : Mem} (h : m.wf = true) (a : Nat) (b : Byte) :
    m.get? a = some b ↔ m.byte a = b ∧ b ≠ 0 := by
  constructor
  · intro hb
    exact ⟨by simp [Mem.byte, Dict.getD, hb], ((Mem.wf_iff m).mp h).2 _ (Dict.mem_of_get?_eq_some hb)⟩
  · rintro ⟨rfl, hne⟩
    cases hb : m.get? a with
    | none => simp [Mem.byte, Dict.getD, hb] at hne
    | some c => simp [Mem.byte, Dict.getD, hb]

/-- Canonical memories of equal contents are equal. -/
theorem Mem.eq_of_byte_eq {m m' : Mem} (h : m.wf = true) (h' : m'.wf = true) (hb : ∀ x, m'.byte x = m.byte x) :
    m' = m := by
  refine Dict.eq_of_get?_eq ((Mem.wf_iff _).mp h').1 ((Mem.wf_iff _).mp h).1 fun k => Option.ext fun b => ?_
  rw [Mem.get?_eq_some_iff h', Mem.get?_eq_some_iff h, hb]

/-- Settles O6, by the laws of a write and the extensionality of canonical memories. -/
theorem memoryReadsWhatWasWritten : Obligations.MemoryReadsWhatWasWritten := fun m a bs h =>
  ⟨Mem.wf_setBytes m a bs h, fun i hi => by rw [Mem.byte_setBytes, if_pos (by omega), Nat.add_sub_cancel_left],
    fun x hx => Mem.byte_setBytes_outside m a x bs hx, fun _ h' hb => Mem.eq_of_byte_eq h h' hb⟩

end Sys2Proof

namespace Sys2Proof.Machine

/-! ### The step -/

/-- The passing of time keeps the fibres (R247). -/
@[simp] theorem State.pass_fibres (s : State) : s.pass.fibres = s.fibres := by
  obtain ⟨tm, tk, cs, ct, h⟩ := pass_keeps s
  rw [h]

/-- An action that has been chosen already is the next one. -/
theorem step_of_turn {s : State} {a : Act} (h : s.turn = some a) :
    step s = ({ s with turn := none } : State).pass.act (some a) := by
  simp [step, State.chosen, h]

/-- A word that decodes is the instruction at its place. -/
theorem Frame.instr_of_decode {fr : Frame} {k : Nat} {w : Word} {i : Instr} (hw : fr.words[k]? = some w)
    (hd : decode w = .ok i) : fr.instr k = some i := by
  simp [Frame.instr, hw, hd]

theorem act_fire {s : State} {fid seq k : Nat} {i : Instr} (h : s.instrAt fid seq k = some i) :
    s.act (some (.fire fid seq k)) = exec i (s.at_ fid seq k) := by
  simp [State.act, h]

/-- A step without a chosen action that is not one of the round makes a free choice (log 4). -/
theorem step_of_no_turn {s : State} (h : s.turn = none) (hfair : (s.steps + 1) % (Config.patience + 2) ≠ 0) :
    step s = (if Config.pick s.tick % (s.candidates.length + 1) < s.candidates.length then
        (s.candidates[Config.pick s.tick % (s.candidates.length + 1)]?, ({ s with steps := s.steps + 1 } : State))
      else ({ s with steps := s.steps + 1 } : State).nextInput).2.pass.act
        (if Config.pick s.tick % (s.candidates.length + 1) < s.candidates.length then
        (s.candidates[Config.pick s.tick % (s.candidates.length + 1)]?, ({ s with steps := s.steps + 1 } : State))
      else ({ s with steps := s.steps + 1 } : State).nextInput).1 := by
  simp [step, State.chosen, State.fairStep, h, hfair]

/-- Settles O4: the four ways in which `State.chosen` finds the next action. -/
theorem stepRunsTheDecodedWord : Obligations.StepRunsTheDecodedWord := by
  refine ⟨fun s fid seq k f fr w i hturn hf hfr hw hd => ?_, fun s i x => ⟨fun hturn => ?_, fun hturn hfair => ?_⟩⟩
  · have hat : ({ s with turn := none } : State).pass.instrAt fid seq k = some i := by
      have hf' : ({ s with turn := none } : State).pass.fibre? fid = some f := by
        simpa [State.fibre?] using hf
      simp [State.instrAt, hf', hfr, Frame.instr_of_decode hw hd]
    rw [step_of_turn hturn, act_fire hat]
  · rw [step_of_turn hturn, State.act]
  · have hs := step_of_no_turn hturn hfair
    refine ⟨fun hn => ?own, fun rest hn hin => ?event, fun rest hn hin hx => ?outside, fun hn hin => ?nothing⟩
    case own => rw [hs, if_pos hn]
    case event =>
      rw [hs, if_neg hn.not_lt]
      simp [State.nextInput, hin, State.act]
    case outside =>
      rw [hs, if_neg hn.not_lt]
      cases x with
      | ev j => exact absurd rfl (hx j)
      | _ => simp [State.nextInput, hin, State.act]
    case nothing =>
      rw [hs, if_neg hn.not_lt]
      simp [State.nextInput, hin, State.act]

/-- Settles O5: each register of the reset state is looked up. -/
theorem resetLeaves : Obligations.ResetLeaves := by
  refine ⟨by decide, by decide, by decide, by decide, by decide, by decide, by decide, rfl, rfl, rfl, rfl, fun _ => rfl,
    fun _ _ => ⟨rfl, rfl⟩, ⟨rfl, rfl⟩, rfl⟩

/-! ### Reads of registers (R12, R45) -/

/-- A block that a read of general register `reg` passes over. -/
def Frame.PassesG (fr : Frame) (reg : Nat) : Prop :=
  fr.gout.get? reg = some .null
    ∨ (fr.gout.get? reg = none ∧ fr.fetched = true ∧ fr.gmask.getLsbD reg = false ∧ fr.mayCommand reg = false)

/-- A block that a read of vector register `reg` passes over. -/
def Frame.PassesV (fr : Frame) (reg : Nat) : Prop :=
  fr.vout.get? reg = some .null ∨ (fr.vout.get? reg = none ∧ fr.fetched = true ∧ fr.vw.getLsbD reg = false)

section Search
variable {reg : Nat} {pend : Bool} {newer older : List Frame} {fr : Frame} {tok : Token}

/-- The search goes on below the blocks that it passes over. -/
theorem sourceG_append (h : ∀ x ∈ newer, x.PassesG reg) : sourceG (newer ++ older) reg pend = sourceG older reg pend := by
  induction newer with
  | nil => rfl
  | cons x l ih =>
    have hl := ih fun y hy => h y (List.mem_cons_of_mem _ hy)
    rcases h x List.mem_cons_self with hx | ⟨hx, hf, hm, hc⟩
    · rw [List.cons_append, sourceG, hx, hl]
    · rw [List.cons_append, sourceG, hx, hl, hf, hm, hc]; rfl

theorem sourceG_token (h : fr.gout.get? reg = some tok) (hne : tok ≠ .null) :
    sourceG (fr :: older) reg pend = .tok tok := by
  rw [sourceG, h]
  cases tok with
  | null => exact absurd rfl hne
  | _ => rfl

theorem sourceG_wait (h : fr.gout.get? reg = none)
    (hw : fr.fetched = false ∨ fr.mayCommand reg = true ∨ fr.gmask.getLsbD reg = true) :
    sourceG (fr :: older) reg pend = .wait := by
  rw [sourceG, h]
  rcases hw with hw | hw | hw <;> simp [hw]

theorem sourceG_none (h : ∀ x ∈ newer, x.PassesG reg) : sourceG newer reg pend = if pend then .park else .file := by
  have := sourceG_append (older := []) (pend := pend) h
  rwa [List.append_nil] at this

/-- The search goes on below the blocks that it passes over. -/
theorem sourceV_append (h : ∀ x ∈ newer, x.PassesV reg) : sourceV (newer ++ older) reg pend = sourceV older reg pend := by
  induction newer with
  | nil => rfl
  | cons x l ih =>
    have hl := ih fun y hy => h y (List.mem_cons_of_mem _ hy)
    rcases h x List.mem_cons_self with hx | ⟨hx, hf, hm⟩
    · rw [List.cons_append, sourceV, hx, hl]
    · rw [List.cons_append, sourceV, hx, hl, hf, hm]; rfl

theorem sourceV_token (h : fr.vout.get? reg = some tok) (hne : tok ≠ .null) :
    sourceV (fr :: older) reg pend = .tok tok := by
  rw [sourceV, h]
  cases tok with
  | null => exact absurd rfl hne
  | _ => rfl

theorem sourceV_wait (h : fr.vout.get? reg = none) (hw : fr.fetched = false ∨ fr.vw.getLsbD reg = true) :
    sourceV (fr :: older) reg pend = .wait := by
  rw [sourceV, h]
  rcases hw with hw | hw <;> simp [hw]

theorem sourceV_none (h : ∀ x ∈ newer, x.PassesV reg) : sourceV newer reg pend = if pend then .park else .file := by
  have := sourceV_append (older := []) (pend := pend) h
  rwa [List.append_nil] at this

end Search

section Read
variable {s : State} {a : Acting} {pr : Pred} {t0 t1 : Target}

theorem exec_read_of_fires {reg : BitVec 6} (h : Fires s (.read pr reg t0 t1) a) :
    exec (.read pr reg t0 t1) s = .next (readFrom (.read pr reg t0 t1) a
      (sourceG (a.f.olderThan a.fr.seq) reg.toNat (a.f.gpend.getLsbD reg.toNat)) (.val (vget a.f.g reg.toNat 0)) reg.toNat s) := by
  obtain ⟨hact, hcan⟩ := h
  simp only [exec_read, execRead, hact, hcan, if_true]

theorem exec_vread_of_fires {reg : BitVec 5} (h : Fires s (.vread pr reg t0 t1) a) :
    exec (.vread pr reg t0 t1) s = .next (readFrom (.vread pr reg t0 t1) a
      (sourceV (a.f.olderThan a.fr.seq) reg.toNat (a.f.vpend.getLsbD reg.toNat))
      (.vec (vget a.f.v reg.toNat 0) (vget a.f.vtag reg.toNat 7)) (64 + reg.toNat) s) := by
  obtain ⟨hact, hcan⟩ := h
  simp only [exec_vread, execVread, hact, hcan, if_true]

/-- A read that has found its token sends it. -/
theorem readFrom_tok (i : Instr) (tok file : Token) (reg : Nat) : readFrom i a (.tok tok) file reg s = a.sends s i tok 0 :=
  sends_of rfl

theorem readFrom_file (i : Instr) (file : Token) (reg : Nat) : readFrom i a .file file reg s = a.sends s i file 0 :=
  sends_of rfl

end Read

/-- Settles O8: the four ends of the search of R12, for each register file. -/
theorem readsTakeTheYoungestOlderValue : Obligations.ReadsTakeTheYoungestOlderValue := by
  constructor
  · intro s a pr reg t0 t1 h passed
    rw [exec_read_of_fires h]
    refine ⟨fun newer fr older tok hsplit hpass htok hne => ?token, fun hpass hpend => ?fromFile,
      fun newer fr older hsplit hpass hnone hw => ?waits, fun hpass hpend => ?parks⟩
    case token => rw [hsplit, sourceG_append hpass, sourceG_token htok hne, readFrom_tok]
    case fromFile => rw [sourceG_none hpass, hpend, if_neg Bool.false_ne_true, readFrom_file]
    case waits => rw [hsplit, sourceG_append hpass, sourceG_wait hnone hw, readFrom]
    case parks => rw [sourceG_none hpass, hpend, if_pos rfl, readFrom]
  · intro s a pr reg t0 t1 h passed
    rw [exec_vread_of_fires h]
    refine ⟨fun newer fr older tok hsplit hpass htok hne => ?token, fun hpass hpend => ?fromFile,
      fun newer fr older hsplit hpass hnone hw => ?waits, fun hpass hpend => ?parks⟩
    case token => rw [hsplit, sourceV_append hpass, sourceV_token htok hne, readFrom_tok]
    case fromFile => rw [sourceV_none hpass, hpend, if_neg Bool.false_ne_true, readFrom_file]
    case waits => rw [hsplit, sourceV_append hpass, sourceV_wait hnone hw, readFrom]
    case parks => rw [sourceV_none hpass, hpend, if_pos rfl, readFrom]

/-! ### Writes of registers (R19, R46) -/

/-- A running minimum is below its start and every element. -/
theorem foldl_min_le (l : List Nat) (b : Nat) : l.foldl min b ≤ b ∧ ∀ x ∈ l, l.foldl min b ≤ x := by
  induction l generalizing b with
  | nil => exact ⟨le_rfl, fun _ hx => nomatch hx⟩
  | cons x l ih =>
    obtain ⟨hb, hl⟩ := ih (min b x)
    refine ⟨hb.trans (Nat.min_le_left _ _), fun y hy => ?_⟩
    rcases List.mem_cons.mp hy with rfl | hy
    · exact hb.trans (Nat.min_le_right _ _)
    · exact hl y hy

/-- What is below the start and every element is below a running minimum. -/
theorem le_foldl_min {l : List Nat} {b j : Nat} (hl : ∀ x ∈ l, j ≤ x) (hb : j ≤ b) : j ≤ l.foldl min b := by
  induction l generalizing b with
  | nil => exact hb
  | cons x l ih =>
    exact ih (fun y hy => hl y (List.mem_cons_of_mem _ hy)) (Nat.le_min.mpr ⟨hb, hl x List.mem_cons_self⟩)

/-- A second writer is recorded with the least of the others. -/
theorem pairAt_eq {k j : Nat} {l : List Nat} (hj : j ∈ l) (hmin : ∀ x ∈ l, j ≤ x) : pairAt k l = max k j := by
  cases l with
  | nil => cases hj
  | cons x l =>
    have : (x :: l).foldl min ((x :: l).headD k) = j :=
      le_antisymm ((foldl_min_le _ _).2 j hj) (le_foldl_min hmin (hmin x List.mem_cons_self))
    rw [pairAt, this]

section Rewritten
variable {fr : Frame} {k reg : Nat} {writes : Nat → Option Nat}

/-- A second write is recorded with the lowest other writer that has fired. -/
theorem Frame.rewritten_second {j : Nat} (hk : k ∉ fr.fired) (hj : j ∈ fr.fired) (hw : writes j = some reg)
    (hmin : ∀ x ∈ fr.fired, writes x = some reg → j ≤ x) :
    (fr.fire k).rewritten k reg writes = (fr.fire k).fault (max k j) .blkFmt 0 .afterFetch := by
  have hne : j ≠ k := fun h => hk (h ▸ hj)
  have hmem : j ∈ (fr.fire k).fired.filter (fun j => j != k && writes j == some reg) := by
    simp [hj, hne, hw]
  have hleast : ∀ x ∈ (fr.fire k).fired.filter (fun j => j != k && writes j == some reg), j ≤ x := by
    intro x hx
    simp only [Frame.fire_fired, List.mem_filter, List.mem_append, List.mem_singleton, Bool.and_eq_true, bne_iff_ne,
      beq_iff_eq] at hx
    obtain ⟨hx | hx, hxk, hxw⟩ := hx
    · exact hmin x hx hxw
    · exact absurd hx hxk
  rw [Frame.rewritten, if_neg (by simpa using List.ne_nil_of_mem hmem), pairAt_eq hmem hleast]

/-- A value that no fired writer gave, that of a call, is no second write. -/
theorem Frame.rewritten_call (hnone : ∀ x ∈ fr.fired, writes x ≠ some reg) :
    (fr.fire k).rewritten k reg writes = fr.fire k := by
  have : (fr.fire k).fired.filter (fun j => j != k && writes j == some reg) = [] := by
    rw [List.filter_eq_nil_iff]
    intro x hx
    rcases List.mem_append.mp hx with hx | hx
    · simp [hnone x hx]
    · simp [List.mem_singleton.mp hx]
  rw [Frame.rewritten, this]; rfl

end Rewritten

section Write
variable {s : State} {a : Acting} {pr : Pred}

/-- An instruction that may fire has not fired before. -/
theorem not_mem_fired_of_canFire {i : Instr} (h : a.canFire i = true) : a.k ∉ a.fr.fired := by
  simp only [Acting.canFire, Frame.ready, Bool.and_eq_true, Bool.not_eq_true', List.contains_eq_mem,
    decide_eq_false_iff_not] at h
  obtain ⟨⟨⟨⟨⟨⟨hfired, -⟩, -⟩, -⟩, -⟩, -⟩, -⟩ := h
  exact hfired

theorem exec_write_of_fires {reg : BitVec 6} (h : Fires s (.write pr reg) a) :
    exec (.write pr reg) s = .next (a.commit s ((a.fr.fire a.k).putG a.k reg.toNat (a.fr.opL a.k))) := by
  obtain ⟨hact, hcan⟩ := h
  simp only [exec_write, execWrite, hact, hcan, if_true]

theorem exec_vwrite_of_fires {reg : BitVec 5} (h : Fires s (.vwrite pr reg) a) :
    exec (.vwrite pr reg) s = .next (a.commit s ((a.fr.fire a.k).putV a.k reg.toNat (a.fr.opL a.k))) := by
  obtain ⟨hact, hcan⟩ := h
  simp only [exec_vwrite, execVwrite, hact, hcan, if_true]

end Write

/-- Settles O9: the first write of a register, and the two kinds of a second. -/
theorem writesEnterTheBlock : Obligations.WritesEnterTheBlock := by
  intro s a pr reg vreg
  refine ⟨fun h hnone => ?first, fun h hnone => ?vfirst, fun j h hsome hj hw hmin => ?second,
    fun h hsome hnone => ?call, fun j h hsome hj hw hmin => ?vsecond⟩
  case first => rw [exec_write_of_fires h, Frame.putG, Frame.fire_gout, hnone]; rfl
  case vfirst => rw [exec_vwrite_of_fires h, Frame.putV, Frame.fire_vout, hnone]; rfl
  case second =>
    rw [exec_write_of_fires h, Frame.putG, Frame.fire_gout, if_pos hsome]
    exact congrArg _ (congrArg _ (Frame.rewritten_second (not_mem_fired_of_canFire h.2) hj hw hmin))
  case call =>
    rw [exec_write_of_fires h, Frame.putG, Frame.fire_gout, if_pos hsome]
    exact congrArg _ (congrArg _ (Frame.rewritten_call hnone))
  case vsecond =>
    rw [exec_vwrite_of_fires h, Frame.putV, Frame.fire_vout, if_pos hsome]
    exact congrArg _ (congrArg _ (Frame.rewritten_second (not_mem_fired_of_canFire h.2) hj hw hmin))

/-! ### Tokens (R18, R19) -/

/-- Settles O10: the branches of a delivery. -/
theorem eachSlotTakesOneToken : Obligations.EachSlotTakesOneToken := by
  intro fr t owner key idx w tok
  refine ⟨deliver_none, fun h => ⟨fun hfired hempty hfits => ?_, fun hfired hempty hfits => ?_, fun htaken => ?_⟩⟩
  · exact deliver_open ⟨⟨idx, h⟩, hfired, hempty⟩ hfits
  · simp [Frame.deliver, Frame.fault, h, hfired, hempty, hfits]
  · have : (fr.fired.contains owner || (fr.slots.get? key).isSome) = true := by
      simpa [Option.isSome_iff_ne_none] using htaken
    simp only [Frame.deliver, h, this, if_true, Frame.fault]

end Sys2Proof.Machine
end

section
/-! PROOFS. The integer chapter (R69, R71, R73, R76 to R78), the governing tokens (R13, R20), moves and constants
(R47 to R51). -/

namespace Sys2Proof.Machine

/-! ### Integer and bit results -/

/-- Settles O12: each instruction is a `binary` or a `unary` meaning over its function of R69, R71 or R73. -/
theorem integerAndBitResults : Obligations.IntegerAndBitResults := by
  constructor
  · intro pr t0 t1
    have hshamt (f : Word → Nat → Word) (x y : Word) : f x (shamt y) = f x (y.toNat % 64) := by rw [shamt_eq]
    refine ⟨gives2_of (exec_add pr t0 t1) ?_ fun _ _ => rfl, gives2_of (exec_sub pr t0 t1) ?_ fun _ _ => rfl,
      gives2_of (exec_mul pr t0 t1) ?_ fun _ _ => rfl, gives2_of (exec_mulh pr t0 t1) ?_ mulHigh_eq,
      gives2_of (exec_mulhu pr t0 t1) ?_ mulHighU_eq, gives2_of (exec_and pr t0 t1) ?_ fun _ _ => rfl,
      gives2_of (exec_or pr t0 t1) ?_ fun _ _ => rfl, gives2_of (exec_xor pr t0 t1) ?_ fun _ _ => rfl,
      gives2_of (exec_andn pr t0 t1) ?_ fun _ _ => rfl,
      gives2_of (exec_shl pr t0 t1) ?_ (hshamt fun x n => x <<< n),
      gives2_of (exec_shr pr t0 t1) ?_ (hshamt fun x n => x >>> n),
      gives2_of (exec_sar pr t0 t1) ?_ (hshamt fun x n => x.sshiftRight n),
      gives2_of (exec_rotl pr t0 t1) ?_ rotlBy_eq, gives2_of (exec_min pr t0 t1) ?_ fun _ _ => rfl,
      gives2_of (exec_max pr t0 t1) ?_ fun _ _ => rfl, gives2_of (exec_minu pr t0 t1) ?_ fun _ _ => rfl,
      gives2_of (exec_maxu pr t0 t1) ?_ fun _ _ => rfl⟩
    all_goals simp [slotsOf]
  · intro pr t0 t1 pos len1
    have hlow (x : Word) {n : Nat} (hn : n ≤ 64) : signExt x n = (x.setWidth n).signExtend 64 := by
      rw [signExt, fld, BitVec.setWidth_eq_extractLsb' hn]
    refine ⟨gives1_of (exec_clz pr t0 t1) ?_ leadingZeros_eq, gives1_of (exec_ctz pr t0 t1) ?_ fun _ => rfl,
      gives1_of (exec_popc pr t0 t1) ?_ fun x => congrArg _ (popCount_eq x 64),
      gives1_of (exec_sext pr .b t0 t1) ?_ fun x => hlow x (by decide), gives1_of (exec_sext pr .h t0 t1) ?_ fun x => hlow x (by decide),
      gives1_of (exec_sext pr .w t0 t1) ?_ fun x => hlow x (by decide), gives1_of (exec_zext pr .b t0 t1) ?_ fun x => (zeroExt_mask x).1,
      gives1_of (exec_zext pr .h t0 t1) ?_ fun x => (zeroExt_mask x).2.1,
      gives1_of (exec_zext pr .w t0 t1) ?_ fun x => (zeroExt_mask x).2.2,
      gives1_of (exec_bfx pr pos len1 t0) ?_ fun _ => rfl, gives1_of (exec_bfxu pr pos len1 t0) ?_ fun _ => rfl,
      gives2_of (exec_bfi pr pos len1 t0) ?_ fun x y => bitInsert_eq x y pos len1⟩
    all_goals simp [slotsOf]

/-! ### Immediate forms and compares -/

/-- What a compare sends, in terms of its relation. -/
theorem boolWord_decide (p : Prop) [Decidable p] : boolWord (decide p) = if p then 1 else 0 := by
  by_cases h : p <;> simp [boolWord, h]

/-- A compare gives 1 when its relation holds (R77). -/
theorem gives2_of_compare {i : Instr} {q : Word → Word → Bool} {p : Word → Word → Prop} [∀ x y, Decidable (p x y)]
    (he : ∀ s, exec i s = compare i q s) (hs : (slotsOf i).l ≠ .none ∧ (slotsOf i).r ≠ .none ∧ (slotsOf i).x = .none)
    (h : ∀ x y, q x y = decide (p x y)) : Gives2 i (fun x y => if p x y then 1 else 0) :=
  gives2_of he hs fun x y => by rw [h, boolWord_decide]

/-- A compare with an immediate gives 1 when its relation holds (R78). -/
theorem gives1_of_compareI {i : Instr} {imm : BitVec 24} {q : Word → Word → Bool} {p : Word → Prop}
    [∀ x, Decidable (p x)] (he : ∀ s, exec i s = compareI i imm q s)
    (hs : (slotsOf i).l ≠ .none ∧ (slotsOf i).r = .none ∧ (slotsOf i).x = .none)
    (h : ∀ x, q x (imm.signExtend 64) = decide (p x)) : Gives1 i (fun x => if p x then 1 else 0) :=
  gives1_of he hs fun x => by rw [← boolWord_decide, ← h]; rfl

/-- Settles O15: the immediate forms and the compares, each over its relation. -/
theorem immediateAndCompareResults : Obligations.ImmediateAndCompareResults := by
  constructor
  · intro pr imm n t0
    refine ⟨gives1_of (exec_addi pr imm t0) ?_ fun _ => rfl, gives1_of (exec_muli pr imm t0) ?_ fun _ => rfl,
      gives1_of (exec_andi pr imm t0) ?_ fun _ => rfl, gives1_of (exec_ori pr imm t0) ?_ fun _ => rfl,
      gives1_of (exec_xori pr imm t0) ?_ fun _ => rfl, gives1_of (exec_shli pr n t0) ?_ fun _ => rfl,
      gives1_of (exec_shri pr n t0) ?_ fun _ => rfl, gives1_of (exec_sari pr n t0) ?_ fun _ => rfl⟩
    all_goals simp [slotsOf]
  · intro pr imm t0 t1
    refine ⟨gives2_of_compare (exec_teq pr t0 t1) ?_ fun _ _ => rfl,
      gives2_of_compare (exec_tne pr t0 t1) ?_ fun _ _ => (decide_not).symm,
      gives2_of_compare (exec_tlt pr t0 t1) ?_ fun _ _ => BitVec.slt_eq_decide,
      gives2_of_compare (exec_tle pr t0 t1) ?_ fun _ _ => BitVec.sle_eq_decide,
      gives2_of_compare (exec_tltu pr t0 t1) ?_ fun _ _ => rfl, gives2_of_compare (exec_tleu pr t0 t1) ?_ fun _ _ => rfl,
      gives1_of (exec_tnz pr t0 t1) ?_ fun x => ?_, gives1_of_compareI (exec_teqi pr imm t0) ?_ fun _ => rfl,
      gives1_of_compareI (exec_tnei pr imm t0) ?_ fun _ => (decide_not).symm,
      gives1_of_compareI (exec_tlti pr imm t0) ?_ fun _ => BitVec.slt_eq_decide,
      gives1_of_compareI (exec_tlei pr imm t0) ?_ fun _ => BitVec.sle_eq_decide,
      gives1_of_compareI (exec_tltui pr imm t0) ?_ fun _ => rfl,
      gives1_of_compareI (exec_tleui pr imm t0) ?_ fun _ => rfl⟩
    all_goals simp [slotsOf, boolWord]

/-! ### Poison, then null -/

/-- An instruction that only computes is a `dataflow` meaning, but for a conversion that rounds stochastically. -/
theorem exec_eq_dataflow_of_computing {i : Instr} (h : computing i = true)
    (hsr : ∀ pr tag sat t0 t1, i ≠ .cvtN pr tag .sr sat t0 t1) : ∃ f, ∀ s, exec i s = dataflow i f s := by
  cases i <;> cases h
  case cvtN pr tag rm sat t0 t1 =>
    have hrm : rm ≠ .sr := fun h => hsr pr tag sat t0 t1 (h ▸ rfl)
    exact ⟨_, fun s => by rw [exec_cvtN, execCvtN, if_neg hrm]⟩
  all_goals exact ⟨_, fun _ => rfl⟩

/-- A conversion that rounds stochastically and whose operand is no vector passes it on. -/
theorem exec_cvtN_sr_of_bad {pr : Pred} {tag : BitVec 3} {sat : Bool} {t0 t1 : Target} {s : State} {a : Acting}
    (h : Fires s (.cvtN pr tag .sr sat t0 t1) a) {t : Token} (ht : a.fr.opL a.k = t) (hbad : t = .poison ∨ t = .null) :
    exec (.cvtN pr tag .sr sat t0 t1) s = .next (a.sends s (.cvtN pr tag .sr sat t0 t1) t 0) := by
  obtain ⟨hact, hcan⟩ := h
  rcases hbad with rfl | rfl <;> simp only [exec_cvtN, execCvtN, if_true, hact, hcan, ht] <;> rw [sends_of rfl] <;> rfl

/-- Settles O17: the rule of `dataflow`, and the stochastic conversion apart. -/
theorem poisonThenNullGovern : Obligations.PoisonThenNullGovern := by
  intro i s a hcomp hfires
  by_cases hsr : ∀ pr tag sat t0 t1, i ≠ .cvtN pr tag .sr sat t0 t1
  · obtain ⟨f, hf⟩ := exec_eq_dataflow_of_computing hcomp hsr
    exact bad_of hf hfires
  · push Not at hsr
    obtain ⟨pr, tag, sat, t0, t1, rfl⟩ := hsr
    have hops : a.fr.operands a.k (.cvtN pr tag .sr sat t0 t1) = [a.fr.opL a.k] := rfl
    rw [hops, List.mem_singleton, List.mem_singleton]
    exact ⟨fun hp => exec_cvtN_sr_of_bad hfires hp.symm (.inl rfl),
      fun _ hn => exec_cvtN_sr_of_bad hfires hn.symm (.inr rfl)⟩

/-! ### Moves and constants -/

/-- A `dataflow` meaning without operands completes on what its function gives in this state. -/
theorem dataflow_sends {i : Instr} {f : Acting → Result} {s : State} {a : Acting} (h : Fires s i a)
    (hops : a.fr.operands a.k i = []) (hf : (f a).fault = none) :
    dataflow i f s = .next (a.sends s i (f a).tok (f a).flags) := by
  rw [dataflow_next h (by rw [hops]; rfl), sends_of hf]

/-- A static word never fires (R40, R48). -/
theorem canFire_of_isStatic {a : Acting} {i : Instr} (h : isStatic i = true) : a.canFire i = false := by
  simp [Acting.canFire, Frame.ready, h]

/-- Settles O21: moves and constants are `dataflow` meanings; `cyc` waits for its turn before it is one. -/
theorem movesAndConstants : Obligations.MovesAndConstants := by
  refine ⟨fun pr imm t0 t1 t2 t3 s => ⟨computes_of (exec_mov pr t0 t1) fun _ => rfl,
    computes_of (exec_mov3 pr t0 t1 t2) fun _ => rfl, computes_of (exec_mov4 pr t0 t1 t2 t3) fun _ => rfl,
    computes_of (exec_genc pr imm t0 t1) fun _ => rfl, gives1_of (exec_genh pr imm t0 t1) (by simp [slotsOf]) fun _ => rfl,
    computes_of (exec_null pr t0 t1 t2 t3) fun _ => rfl, fun a h => ⟨fun hlast => ?_, fun hlast => ?_⟩, fun a h => ?_⟩,
    fun s a => ⟨rfl, rfl, canFire_of_isStatic rfl, canFire_of_isStatic rfl⟩⟩
  · rw [exec_cyc, execCyc, h.1]
    simp only [hlast, Bool.false_eq_true, if_false]
    rw [dataflow_sends h rfl rfl]; rfl
  · rw [exec_cyc, execCyc, h.1]
    simp only [hlast, if_true]
  · rw [exec_rgnStat, execRgnStat, dataflow_sends h rfl rfl]; rfl

end Sys2Proof.Machine
end

section
/-! PROOFS. Branches: how a block is left, and what keeps it from being left (R14, R20, R21, R24, R59 to R63). -/

namespace Sys2Proof.Machine

/-! ### The acting fibre and its frame -/

section Commit
variable {s : State} {i : Instr} {a : Acting} {fr : Frame}

/-- The acting fibre after a frame of the acting block has been put back. -/
theorem fibre?_commit (h : s.acting i = some a) : (a.commit s fr).fibre? a.fid = some (a.f.setFrame fr) := by
  obtain ⟨hf, -, -, -⟩ := acting_spec h
  simp [Acting.commit, fibre?_setFrame, hf]

/-- The acting block's frame after it has been put back. -/
theorem frame?_acting (h : s.acting i = some a) (hseq : fr.seq = a.fr.seq) :
    (a.f.setFrame fr).frame? a.fr.seq = some fr := by
  obtain ⟨-, hfr, -, -⟩ := acting_spec h
  rw [← hseq] at hfr ⊢
  exact frame?_setFrame hfr

/-- A word that decodes stands in its block. -/
theorem lt_length_of_instr {fr : Frame} {k : Nat} {i : Instr} (h : fr.instr k = some i) : k < fr.words.length := by
  by_contra hk
  simp [Frame.instr, List.getElem?_eq_none (Nat.le_of_not_lt hk)] at h

/-- The block of an acting call holds a call (R61). -/
theorem hasCall_of_acting (h : s.acting i = some a) (hcall : isCall i = true) : a.fr.hasCall = true := by
  obtain ⟨-, -, -, hi⟩ := acting_spec h
  exact List.any_eq_true.mpr ⟨a.k, List.mem_range.mpr (lt_length_of_instr hi), by simp [hi, hcall]⟩

end Commit

/-! ### The exit of a block -/

/-- The first branch of a block is its exit (R21). -/
theorem Frame.takeExit_first {fr : Frame} (h : fr.exits = []) (k : Nat) (t : Option Word) (halt : Bool) :
    fr.takeExit k t halt = { fr.fire k with exits := [{ idx := k, target := t, isHalt := halt }] } := by
  rw [Frame.takeExit, h]

/-- A second one is recorded with the lowest exit (R21, R25). -/
theorem Frame.takeExit_second {fr : Frame} {x : Exit} (hx : x ∈ fr.exits) (hmin : ∀ y ∈ fr.exits, x.idx ≤ y.idx)
    (k : Nat) (t : Option Word) (halt : Bool) :
    fr.takeExit k t halt = { (fr.fire k).fault (max k x.idx) .multiExit 0 .firing with
      exits := fr.exits ++ [{ idx := k, target := t, isHalt := halt }] } := by
  have hpair : pairAt k (fr.exits.map Exit.idx) = max k x.idx :=
    pairAt_eq (List.mem_map_of_mem hx) (by simpa using hmin)
  unfold Frame.takeExit
  split
  next h => simp [h] at hx
  next => rw [hpair]

@[simp] theorem Frame.takeExit_exits (fr : Frame) (k : Nat) (t : Option Word) (halt : Bool) :
    (fr.takeExit k t halt).exits = fr.exits ++ [{ idx := k, target := t, isHalt := halt }] := by
  unfold Frame.takeExit
  split
  next h => rw [h]; rfl
  next => rfl

@[simp] theorem Frame.takeExit_seq (fr : Frame) (k : Nat) (t : Option Word) (halt : Bool) :
    (fr.takeExit k t halt).seq = fr.seq := by
  unfold Frame.takeExit
  split <;> rfl

/-- The link changes the block's value of g62 alone (R61). -/
theorem Frame.link_keeps (fr : Frame) (c : Bool) :
    ∃ d, fr.link c = { fr with gout := d } ∧ ∀ r, r ≠ 62 → d.get? r = fr.gout.get? r := by
  unfold Frame.link
  split
  · exact ⟨_, rfl, fun r hr => Dict.get?_put_other _ _ _ _ hr⟩
  · exact ⟨fr.gout, rfl, fun _ _ => rfl⟩

/-- A call leaves the address after its block in g62 (R61). -/
theorem Frame.link_call {fr : Frame} (h : fr.hasCall = true) (hnone : fr.gout.get? 62 = none) :
    (fr.link true).gout.get? 62 = some (.val (fr.addr + BitVec.ofNat 64 fr.length)) := by
  simp [Frame.link, h, hnone]

@[simp] theorem Frame.link_exits (fr : Frame) (c : Bool) : (fr.link c).exits = fr.exits := by
  obtain ⟨d, h, -⟩ := fr.link_keeps c
  rw [h]

@[simp] theorem Frame.link_seq (fr : Frame) (c : Bool) : (fr.link c).seq = fr.seq := by
  obtain ⟨d, h, -⟩ := fr.link_keeps c
  rw [h]

@[simp] theorem Frame.link_faults (fr : Frame) (c : Bool) : (fr.link c).faults = fr.faults := by
  obtain ⟨d, h, -⟩ := fr.link_keeps c
  rw [h]

@[simp] theorem Frame.link_fired (fr : Frame) (c : Bool) : (fr.link c).fired = fr.fired := by
  obtain ⟨d, h, -⟩ := fr.link_keeps c
  rw [h]

@[simp] theorem Frame.link_slots (fr : Frame) (c : Bool) : (fr.link c).slots = fr.slots := by
  obtain ⟨d, h, -⟩ := fr.link_keeps c
  rw [h]

@[simp] theorem Frame.link_produced (fr : Frame) (c : Bool) : (fr.link c).produced = fr.produced := by
  obtain ⟨d, h, -⟩ := fr.link_keeps c
  rw [h]

theorem Frame.link_gout_other (fr : Frame) (c : Bool) {r : Nat} (hr : r ≠ 62) :
    (fr.link c).gout.get? r = fr.gout.get? r := by
  obtain ⟨d, h, hd⟩ := fr.link_keeps c
  rw [h]
  exact hd r hr

/-! ### Where the fibre goes on -/

/-- R14: `f'` is the fibre `f` after block `seq` has left for `target`. -/
def Fibre.GoesOn (f f' : Fibre) (seq : Nat) (target : Option Word) : Prop :=
  (∀ y, f.frames.find? (fun x => seq < x.seq) = some y →
    if some y.addr = target then f' = f else f'.next = target ∧ ∀ x ∈ f'.frames, x.seq ≤ seq)
  ∧ (f.frames.find? (fun x => seq < x.seq) = none → f'.next = target ∧ f'.frames = f.frames)

/-- A frame of the fibre is where it was in the fibre that has left the path. -/
theorem frame?_leavePath (f : Fibre) (n : Nat) : f.leavePath.frame? n = f.frame? n := rfl

/-- The exit of a block meets the guess. -/
theorem resolveExit_goesOn {s : State} {fid seq : Nat} {target : Option Word} {f : Fibre} (h : s.fibre? fid = some f) :
    ∃ f', (s.resolveExit fid seq target).fibre? fid = some f' ∧ f.GoesOn f' seq target
      ∧ ∀ fr, f.frame? seq = some fr → f'.frame? seq = some fr := by
  unfold State.resolveExit
  simp only [h]
  split
  next y hy =>
    have honly : ∀ z, f.frames.find? (fun x => seq < x.seq) = some z → z = y := fun z hz => by
      rw [hy] at hz; exact (Option.some.inj hz).symm
    split
    next haddr =>
      exact ⟨f, h, ⟨fun z hz => by rw [honly z hz, if_pos haddr], fun hnone => by simp [hy] at hnone⟩, fun _ hfr => hfr⟩
    next haddr =>
      refine ⟨{ f.squashFrom (seq + 1) with next := target }, ?_, ⟨fun z hz => ?_, fun hnone => by simp [hy] at hnone⟩,
        fun fr hfr => frame?_squashFrom hfr (Nat.lt_succ_self seq)⟩
      · simp [State.setNext, fibre?_modFibre, squash_fibre?, h]
      · rw [honly z hz, if_neg haddr]
        exact ⟨rfl, fun x hx => Nat.le_of_lt_succ (squashFrom_below x hx)⟩
  next hnone =>
    have hno : ∀ z, f.frames.find? (fun x => seq < x.seq) ≠ some z := by simp [hnone]
    split
    next hnext => exact ⟨f, h, ⟨fun z hz => absurd hz (hno z), fun _ => ⟨hnext, rfl⟩⟩, fun _ hfr => hfr⟩
    next hnext =>
      refine ⟨Fibre.leavePath { f with next := target }, ?_, ⟨fun z hz => absurd hz (hno z), fun _ => ⟨rfl, rfl⟩⟩,
        fun _ hfr => hfr⟩
      simp [State.setNext, fibre?_modFibre, h]

/-! ### Branches that leave -/

section Branch
variable {s : State} {i : Instr} {a : Acting} {target : Word}

/-- R14, R21, R61: the branch of a block that has not left yet leaves it for an aligned target. -/
theorem leaves_of_branchTo {call : Bool} (hact : s.acting i = some a) (hexits : a.fr.exits = [])
    (hcall : call = true → isCall i = true) (haligned : target.toNat % 32 = 0)
    (hexec : exec i s = .next (a.branchTo s call target)) : Leaves s i a target call := by
  set fr := ({ a.fr.fire a.k with exits := [{ idx := a.k, target := some target, isHalt := false }] } : Frame).link call
    with hfr
  have hseq : fr.seq = a.fr.seq := by simp [hfr]
  have hto : a.branchTo s call target = (a.commit s fr).resolveExit a.fid a.fr.seq (some target) := by
    simp [Acting.branchTo, Frame.takeExit_first hexits, hexits, haligned, hfr]
  obtain ⟨f, hf, hgo, hkeep⟩ := resolveExit_goesOn (seq := a.fr.seq) (target := some target) (fibre?_commit hact (fr := fr))
  refine ⟨_, f, fr, hexec.trans (congrArg _ hto), hf, hkeep fr (frame?_acting hact hseq), by simp [hfr], by simp [hfr],
    by simp [hfr], by simp [hfr], by simp [hfr], fun hc hnone => ?_, fun r hr => ?_, ?_⟩
  · subst hc
    exact Frame.link_call (fr := { a.fr.fire a.k with exits := _ }) (hasCall_of_acting hact (hcall rfl)) hnone
  · rw [hfr, Frame.link_gout_other _ _ hr, Frame.fire_gout]
  · have hyounger := find_younger_setFrame a.f fr
    rw [hseq] at hyounger
    obtain ⟨hsome, hnone⟩ := hgo
    rw [hyounger] at hsome hnone
    split
    next y hy => simpa using hsome y hy
    next hno => exact (hnone hno).1

theorem exec_direct {off : BitVec 33} (h : Fires s i a) (he : exec i s = directBranch i off s) :
    exec i s = .next (a.branchTo s (isCall i) (branchTarget a.fr.addr off)) := by
  obtain ⟨hact, hcan⟩ := h
  rw [he, directBranch, hact]
  simp only [hcan, if_true]

theorem exec_indirect (h : Fires s i a) (he : exec i s = indirectBranch i s) (hl : a.fr.opL a.k = .val target) :
    exec i s = .next (a.branchTo s (isCall i) target) := by
  obtain ⟨hact, hcan⟩ := h
  rw [he, indirectBranch, hact]
  simp only [hcan, hl, if_true]

theorem exec_indirect_null (h : Fires s i a) (he : exec i s = indirectBranch i s) (hl : a.fr.opL a.k = .null) :
    exec i s = .next (a.commit s (a.fr.fire a.k)) := by
  obtain ⟨hact, hcan⟩ := h
  rw [he, indirectBranch, hact]
  simp only [hcan, hl, if_true]

/-- An indirect branch on a token without a target leaves without one (R24). -/
theorem exec_indirect_bad (h : Fires s i a) (he : exec i s = indirectBranch i s)
    (hval : ∀ w, a.fr.opL a.k ≠ .val w) (hnull : a.fr.opL a.k ≠ .null) :
    exec i s = .next (a.commit s ((a.fr.takeExit a.k none false).link (isCall i))) := by
  obtain ⟨hact, hcan⟩ := h
  rw [he, indirectBranch, hact]
  cases hl : a.fr.opL a.k with
  | val w => exact absurd hl (hval w)
  | null => exact absurd hl hnull
  | _ => simp only [hcan, hl, if_true]

/-- The target of a direct branch of an aligned block is aligned (R59). -/
theorem branchTarget_aligned {addr : Word} (h : addr.toNat % 32 = 0) (off : BitVec 33) :
    (branchTarget addr off).toNat % 32 = 0 := by
  rw [branchTarget, BitVec.toNat_add, BitVec.toNat_shiftLeft, Nat.shiftLeft_eq]
  omega

theorem exec_halt_of_fires {pr : Pred} {e : BitVec 3} (h : Fires s (.halt pr e) a) :
    exec (.halt pr e) s = .next (if a.f.frames.any (fun fr => a.fr.seq < fr.seq)
      then a.commit s ((a.fr.takeExit a.k none true).link false)
      else (a.commit s ((a.fr.takeExit a.k none true).link false)).setNext a.fid none) := by
  obtain ⟨hact, hcan⟩ := h
  simp only [exec_halt, execHalt, hact, hcan, if_true]

/-- The acting fibre after a halt: its frame holds the exit, and without younger blocks it has no next one (R63). -/
theorem fibre?_halted (hact : s.acting i = some a) {fr : Frame} (hseq : fr.seq = a.fr.seq) {young : Bool} :
    ∃ f, (if young = true then a.commit s fr else (a.commit s fr).setNext a.fid none).fibre? a.fid = some f
      ∧ f.frame? a.fr.seq = some fr ∧ f.next = if young = true then a.f.next else none := by
  have hf := fibre?_commit hact (fr := fr)
  cases young
  · exact ⟨{ a.f.setFrame fr with next := none }, by simp [State.setNext, fibre?_modFibre, hf], frame?_acting hact hseq, rfl⟩
  · exact ⟨a.f.setFrame fr, by simpa using hf, frame?_acting hact hseq, rfl⟩

end Branch

/-- Settles O23: every branch of R60 to R62 is a `branchTo`, and a halt an exit without a target. -/
theorem branchesLeaveTheirBlock : Obligations.BranchesLeaveTheirBlock := by
  constructor
  · intro s a pr e off target hexits
    refine ⟨fun haddr h => ?br, fun haddr h => ?call, fun hl haligned => ⟨fun h => ?bri, fun h => ?calli, fun h => ?ret⟩⟩
    case br =>
      exact leaves_of_branchTo h.1 hexits nofun (branchTarget_aligned haddr off) (exec_direct h (exec_br pr e off s))
    case call =>
      exact leaves_of_branchTo h.1 hexits (fun _ => rfl) (branchTarget_aligned haddr off)
        (exec_direct h (exec_call pr e off s))
    case bri => exact leaves_of_branchTo h.1 hexits nofun haligned (exec_indirect h (exec_bri pr e s) hl)
    case calli => exact leaves_of_branchTo h.1 hexits (fun _ => rfl) haligned (exec_indirect h (exec_calli pr e s) hl)
    case ret => exact leaves_of_branchTo h.1 hexits nofun haligned (exec_indirect h (exec_ret pr e s) hl)
  · intro s a pr e h hexits
    have hseq : ((a.fr.takeExit a.k none true).link false).seq = a.fr.seq := by simp
    obtain ⟨f, hf, hfr, hnext⟩ := fibre?_halted h.1 hseq (young := a.f.frames.any fun fr => a.fr.seq < fr.seq)
    refine ⟨_, f, _, exec_halt_of_fires h, hf, hfr, by simp [hexits], ?_, ?_, ?_, hnext⟩
    all_goals simp [Frame.takeExit_first hexits]

/-! ### Branches that do not leave -/

/-- An indirect branch (R61, R62). -/
theorem exec_eq_indirectBranch {pr : Pred} {e : BitVec 3} {i : Instr} (h : i ∈ [Instr.bri pr e, .calli pr e, .ret pr e])
    (s : State) : exec i s = indirectBranch i s := by
  simp only [List.mem_cons, List.not_mem_nil, or_false] at h
  rcases h with rfl | rfl | rfl <;> rfl

section Misaligned
variable {s : State} {i : Instr} {a : Acting} {target : Word}

/-- The frame of a block whose branch has no aligned target (R59). -/
def Acting.strayFrame (a : Acting) (call : Bool) (target : Word) : Frame :=
  ((a.fr.takeExit a.k (some target) false).link call).fault a.k .align target .firing

theorem branchTo_misaligned {call : Bool} (h : target.toNat % 32 ≠ 0) :
    a.branchTo s call target = if a.fr.exits.isEmpty then
      (a.commit s (a.strayFrame call target)).resolveExit a.fid a.fr.seq none else a.commit s (a.strayFrame call target) := by
  simp [Acting.branchTo, Acting.strayFrame, h]

/-- Where a branch to a misaligned address leaves its fibre: without a next block when it is the first exit. -/
theorem fibre?_stray (hact : s.acting i = some a) {call : Bool} (h : target.toNat % 32 ≠ 0) :
    ∃ f, (a.branchTo s call target).fibre? a.fid = some f ∧ f.frame? a.fr.seq = some (a.strayFrame call target)
      ∧ (a.fr.exits = [] → f.next = none ∧ ∀ y ∈ f.frames, y.seq ≤ a.fr.seq)
      ∧ (a.fr.exits ≠ [] → f.next = a.f.next) := by
  have hf := fibre?_commit hact (fr := a.strayFrame call target)
  have hseq : (a.strayFrame call target).seq = a.fr.seq := by simp [Acting.strayFrame]
  have hframe := frame?_acting hact hseq
  rw [branchTo_misaligned h]
  by_cases hexits : a.fr.exits = []
  · rw [hexits, List.isEmpty_nil, if_pos rfl]
    obtain ⟨f, hf', hgo, hkeep⟩ := resolveExit_goesOn (seq := a.fr.seq) (target := none) hf
    refine ⟨f, hf', hkeep _ hframe, fun _ => ?_, fun hne => absurd rfl hne⟩
    obtain ⟨hsome, hnone⟩ := hgo
    cases hyoung : (a.f.setFrame (a.strayFrame call target)).frames.find? fun x => a.fr.seq < x.seq with
    | some y => simpa using hsome y hyoung
    | none =>
      obtain ⟨hnext, hframes⟩ := hnone hyoung
      refine ⟨hnext, fun y hy => ?_⟩
      rw [hframes] at hy
      simpa using List.find?_eq_none.mp hyoung y hy
  · rw [if_neg (by simpa using hexits)]
    exact ⟨_, hf, hframe, fun h => absurd h hexits, fun _ => rfl⟩

/-- A branch in a block that has left already records MULTI_EXIT. -/
theorem multiExit_mem_takeExit {x : Exit} (hx : x ∈ a.fr.exits) (hmin : ∀ y ∈ a.fr.exits, x.idx ≤ y.idx)
    (t : Option Word) (halt : Bool) :
    { idx := max a.k x.idx, cause := .multiExit, taddr := 0, src := .firing } ∈ (a.fr.takeExit a.k t halt).faults := by
  simp [Frame.takeExit_second hx hmin, Frame.fault]

/-- So does one with a known target, whatever the target. -/
theorem multiExit_branchTo {call : Bool} (hact : s.acting i = some a) {x : Exit} (hx : x ∈ a.fr.exits)
    (hmin : ∀ y ∈ a.fr.exits, x.idx ≤ y.idx) :
    ∃ f fr, (a.branchTo s call target).fibre? a.fid = some f ∧ f.frame? a.fr.seq = some fr
      ∧ { idx := max a.k x.idx, cause := .multiExit, taddr := 0, src := .firing } ∈ fr.faults := by
  have hmem := multiExit_mem_takeExit hx hmin (some target) false
  by_cases halign : target.toNat % 32 = 0
  · have hexits : a.fr.exits.isEmpty = false := by simpa using List.ne_nil_of_mem hx
    have hto : a.branchTo s call target = a.commit s ((a.fr.takeExit a.k (some target) false).link call) := by
      simp [Acting.branchTo, halign, hexits]
    exact ⟨_, _, hto ▸ fibre?_commit hact, frame?_acting hact (by simp), by simpa using hmem⟩
  · obtain ⟨f, hf, hfr, -⟩ := fibre?_stray hact (call := call) halign
    exact ⟨f, _, hf, hfr, List.mem_append_left _ (by simpa using hmem)⟩

end Misaligned

/-- Settles O24: the tokens on which an indirect branch does not leave, and the second exit of a block. -/
theorem branchesThatCannotLeave : Obligations.BranchesThatCannotLeave := by
  intro s a pr e off target
  refine ⟨fun i hi => ⟨fun h hl => ?null, fun h hl => ?poison, fun h hl halign => ?stray⟩, fun i hi x hx h hnull hmin => ?multi⟩
  case null => exact exec_indirect_null h (exec_eq_indirectBranch hi s) hl
  case poison =>
    have hexec := exec_indirect_bad h (exec_eq_indirectBranch hi s) (by simp [hl]) (by simp [hl])
    exact ⟨_, _, _, hexec, fibre?_commit h.1, frame?_acting h.1 (by simp), by simp, rfl⟩
  case stray =>
    obtain ⟨f, hf, hfr, hfirst, hlater⟩ := fibre?_stray h.1 (call := isCall i) halign
    exact ⟨_, f, _, exec_indirect h (exec_eq_indirectBranch hi s) hl, hf, hfr, List.mem_append_right _ (by simp),
      hfirst, hlater⟩
  case multi =>
    have hdirect : exec i s = directBranch i off s → ∃ t f fr, exec i s = .next t ∧ t.fibre? a.fid = some f
        ∧ f.frame? a.fr.seq = some fr
        ∧ { idx := max a.k x.idx, cause := .multiExit, taddr := 0, src := .firing } ∈ fr.faults := fun he =>
      ⟨_, (multiExit_branchTo h.1 hx hmin).choose, (multiExit_branchTo h.1 hx hmin).choose_spec.choose,
        exec_direct h he, (multiExit_branchTo h.1 hx hmin).choose_spec.choose_spec⟩
    have hindirect : exec i s = indirectBranch i s → a.fr.opL a.k ≠ .null → ∃ t f fr, exec i s = .next t
        ∧ t.fibre? a.fid = some f ∧ f.frame? a.fr.seq = some fr
        ∧ { idx := max a.k x.idx, cause := .multiExit, taddr := 0, src := .firing } ∈ fr.faults := fun he hne => by
      by_cases hval : ∃ w, a.fr.opL a.k = .val w
      · obtain ⟨w, hw⟩ := hval
        obtain ⟨f, fr, hf⟩ := multiExit_branchTo h.1 hx hmin (call := isCall i) (target := w)
        exact ⟨_, f, fr, exec_indirect h he hw, hf⟩
      · exact ⟨_, _, _, exec_indirect_bad h he (by simpa using hval) hne, fibre?_commit h.1, frame?_acting h.1 (by simp),
          by simpa using multiExit_mem_takeExit hx hmin none false⟩
    simp only [List.mem_cons, List.not_mem_nil, or_false] at hi
    rcases hi with rfl | rfl | rfl | rfl | rfl | rfl
    · exact hdirect rfl
    · exact hindirect rfl (hnull nofun)
    · exact hdirect rfl
    · exact hindirect rfl (hnull nofun)
    · exact hindirect rfl (hnull nofun)
    · obtain ⟨f, hf, hfr, -⟩ := fibre?_halted h.1 (fr := (a.fr.takeExit a.k none true).link false) (by simp)
        (young := a.f.frames.any fun fr => a.fr.seq < fr.seq)
      exact ⟨_, f, _, exec_halt_of_fires h, hf, hfr, by simpa using multiExit_mem_takeExit hx hmin none true⟩

end Sys2Proof.Machine
end

section
/-! PROOFS. Memory instructions enter the load-store queue (R52 to R56, R98, R129 to R135, R138 to R144). -/

namespace Sys2Proof.Machine

/-! ### What leaves every byte of memory as it was -/

/-- The parts of the state that decide how a byte reads are the same. -/
structure State.SameStore (s t : State) : Prop where
  mem : t.mem = s.mem
  cmem : t.cmem = s.cmem
  llc : t.llc = s.llc
  lineKey : t.lineKey = s.lineKey
  untrained : t.untrained = s.untrained
  gtag : t.gtag = s.gtag
  halves : t.halves = s.halves

theorem State.SameStore.refl (s : State) : s.SameStore s := ⟨rfl, rfl, rfl, rfl, rfl, rfl, rfl⟩

theorem State.SameStore.trans {s t u : State} (h : s.SameStore t) (k : t.SameStore u) : s.SameStore u :=
  ⟨k.mem.trans h.mem, k.cmem.trans h.cmem, k.llc.trans h.llc, k.lineKey.trans h.lineKey,
    k.untrained.trans h.untrained, k.gtag.trans h.gtag, k.halves.trans h.halves⟩

theorem State.SameStore.sameBytes {s t : State} (h : s.SameStore t) : s.SameBytes t := by
  obtain ⟨hmem, hcmem, hllc, hkey, huntrained, hgtag, hhalves⟩ := h
  refine ⟨fun a key => ?_, fun a => by rw [hcmem], fun a => by rw [State.granule, State.granule, hgtag],
    fun h => by rw [hhalves]⟩
  unfold State.homeByte
  rw [hmem, hllc, hkey, huntrained]

theorem sameStore_commit (a : Acting) (s : State) (fr : Frame) : s.SameStore (a.commit s fr) := by
  constructor <;> simp [Acting.commit]

/-! ### What the checks of an access change -/

/-- Counting an access of a line at its home changes counters only (R308). -/
theorem countLlc_keeps (s : State) (line : Nat) : ∃ d, s.countLlc line = { s with ctl := d } := countSector_keeps _ _ _ s

theorem countWalk_keeps (s : State) (sec : Nat) (xroot va : Word) : ∃ d, s.countWalk sec xroot va = { s with ctl := d } := by
  unfold State.countWalk
  generalize s.walkReads sec va 4 (nfld xroot 12 40 * 4096) = l
  induction l generalizing s with
  | nil => exact ⟨s.ctl, rfl⟩
  | cons x l ih =>
    obtain ⟨d, h⟩ := countLlc_keeps s (lineOf x)
    obtain ⟨d', h'⟩ := ih (s.countLlc (lineOf x))
    exact ⟨d', by rw [List.foldl_cons, h', h]⟩

theorem fillTlb_keeps (s : State) (cell : Nat) (t : TlbEntry) :
    ∃ tk cs tl, s.fillTlb cell t = { s with tick := tk, cells := cs, tlb2 := tl } := by
  by_cases hcell : Config.coin s.tick = true <;> by_cases hdie : Config.coin (s.tick + 1) = true <;>
    simp only [State.fillTlb, State.toss, hcell, hdie] <;> exact ⟨_, _, _, rfl⟩

/-- A translation changes TLBs, counters and the counter of free values (R112). -/
theorem translate_keeps (s : State) (cell : Nat) (xroot va : Word) :
    ∃ tk cs tl ct, (s.translate cell xroot va).2 = { s with tick := tk, cells := cs, tlb2 := tl, ctl := ct } := by
  unfold State.translate
  simp only
  split
  · exact ⟨_, _, _, _, rfl⟩
  · obtain ⟨d, hd⟩ := countCell_keeps cell 9 1 s
    rw [hd]
    split
    · exact ⟨_, _, _, _, rfl⟩
    · obtain ⟨c, hc⟩ := countSector_keeps (dieOfCell cell) 5 1 { s with cells := d }
      obtain ⟨c', hc'⟩ := countWalk_keeps { s with cells := d, ctl := c } (dieOfCell cell) xroot va
      rw [hc, hc']
      split
      · obtain ⟨tk, cs, tl, h⟩ := fillTlb_keeps { s with cells := d, ctl := c' } cell _
        exact ⟨tk, cs, tl, c', h⟩
      · exact ⟨_, _, _, _, rfl⟩

/-- So do the translations of several pages. -/
theorem pagesOf_keeps (c : Ctx) (fuel : Nat) (s : State) (va : Word) (n : Nat) :
    ∃ tk cs tl ct, (s.pagesOf c fuel va n).2 = { s with tick := tk, cells := cs, tlb2 := tl, ctl := ct } := by
  induction fuel generalizing s va n with
  | zero => exact ⟨_, _, _, _, rfl⟩
  | succ fuel ih =>
    unfold State.pagesOf
    split
    · exact ⟨_, _, _, _, rfl⟩
    · simp only
      split
      · exact ih _ _ _
      · obtain ⟨tk, cs, tl, ct, h⟩ := translate_keeps s c.cell c.x.xroot va
        obtain ⟨tk', cs', tl', ct', h'⟩ := ih (s.translate c.cell c.x.xroot va).2
          (va + BitVec.ofNat 64 (min n (0x10000 - va.toNat % 0x10000))) (n - min n (0x10000 - va.toNat % 0x10000))
        exact ⟨tk', cs', tl', ct', by rw [h', h]⟩

theorem segments_keeps (s : State) (c : Ctx) (kind : AccKind) (va : Word) (n : Nat) :
    ∃ tk cs tl ct, (s.segments c kind va n).2 = { s with tick := tk, cells := cs, tlb2 := tl, ctl := ct } := by
  unfold State.segments
  simp only
  split
  · exact ⟨_, _, _, _, rfl⟩
  · split
    · repeat' split
      all_goals exact ⟨_, _, _, _, rfl⟩
    · split
      · exact ⟨_, _, _, _, rfl⟩
      · obtain ⟨tk, cs, tl, ct, h⟩ := pagesOf_keeps c 3 s va n
        repeat' split
        all_goals exact ⟨tk, cs, tl, ct, h⟩

/-- The checks of an access change TLBs, counters and the counter of free values (R55, R112). -/
theorem check_keeps (s : State) (c : Ctx) (w : Want) (va : Word) (n : Nat) :
    ∃ tk cs tl ct, (s.check c w va n).2 = { s with tick := tk, cells := cs, tlb2 := tl, ctl := ct } := by
  obtain ⟨tk, cs, tl, ct, h⟩ := segments_keeps s c w.kind va n
  unfold State.check
  split
  · exact ⟨_, _, _, _, rfl⟩
  · split
    · exact ⟨_, _, _, _, rfl⟩
    · split
      next e t he =>
        rw [he] at h
        exact ⟨tk, cs, tl, ct, h⟩
      next segs t he =>
        rw [he] at h
        dsimp only
        repeat' split
        all_goals exact ⟨tk, cs, tl, ct, h⟩

/-- An L1 that fills a line changes cells and the directory (R118). -/
theorem fillLine_keeps (s : State) (cell : Nat) (loc : Loc) :
    ∃ cs sh, s.fillLine cell loc = { s with cells := cs, sharers := sh } := by
  unfold State.fillLine State.addSharer
  simp only
  repeat' split
  all_goals exact ⟨_, _, rfl⟩

/-! ### Entering the queue -/

section Queue
variable {i : Instr} {a : Acting} {x : Access} {s : State}

/-- What a read leaves in the queue, and whether its block is fetched again first (log 24). -/
theorem enqueue_read (hx : x.ins = i) (hload : isLoad i = true) (hstore : isStore i = false) (honly : isStoreOnly i = false) :
    (a.Stays (a.readQueued s x) x → enqueue i a x s = a.readQueued s x)
      ∧ (¬a.Stays (a.readQueued s x) x → enqueue i a x s = (a.readQueued s x).squash a.fid a.fr.seq 0) := by
  have hreads : reads i = true := by simp [reads, hload]
  have hframe : enqueue i a x s = if x.irrevocable && !a.fr.careful && (a.readQueued s x).speculates a.fid (a.readFrame x)
      then (a.readQueued s x).squash a.fid a.fr.seq 0 else a.readQueued s x := by
    subst hx
    cases hlate : isAtomic x.ins || x.irrevocable <;>
      simp [enqueue, Acting.readQueued, Acting.readFrame, hreads, hstore, honly, hlate, Frame.fire]
  rw [hframe]
  constructor
  · rintro (h | h | h) <;> simp [h]
  · intro h
    rw [Acting.Stays, not_or, not_or] at h
    obtain ⟨hirr, hcare, hspec⟩ := h
    simp [Bool.eq_true_of_not_eq_false hirr, Bool.eq_false_of_not_eq_true hcare, Bool.eq_true_of_not_eq_false hspec]

/-- An access that is no load is not irrevocable. -/
theorem irrevocable_eq_false (h : isLoad x.ins = false) : x.irrevocable = false := by
  simp [Access.irrevocable, h]

theorem enqueue_store (hx : x.ins = i) (honly : isStoreOnly i = true) (hstore : isStore i = true) (hload : isLoad i = false)
    (hatomic : isAtomic i = false) : enqueue i a x s = a.storeQueued s x := by
  subst hx
  simp [enqueue, Acting.storeQueued, reads, honly, hstore, hload, hatomic, irrevocable_eq_false hload]

theorem enqueue_atomic (hx : x.ins = i) (hatomic : isAtomic i = true) (hstore : isStore i = true)
    (honly : isStoreOnly i = false) : enqueue i a x s = (a.readQueued s x).violation x := by
  subst hx
  simp [enqueue, Acting.readQueued, Acting.readFrame, reads, hatomic, hstore, honly, Frame.fire]

/-- An access that neither reads nor writes enters the queue as it is. -/
theorem enqueue_other (hx : x.ins = i) (hload : isLoad i = false) (hatomic : isAtomic i = false)
    (hstore : isStore i = false) (honly : isStoreOnly i = false) :
    enqueue i a x s
      = ({ (a.commit s (a.fr.fire a.k)).setAccess s.nextId x with nextId := s.nextId + 1 } : State) := by
  subst hx
  simp [enqueue, reads, hload, hatomic, hstore, honly, irrevocable_eq_false hload]

theorem memFault_of_not_store (hstore : isStore i = false) (e : Cause × Word) :
    memFault i a e s = a.records s i e.1 e.2 := by
  simp [memFault, Acting.records, hstore]

theorem memFault_of_store (hstore : isStore i = true) {n : Nat} (hl : lsidOf i = some n) (e : Cause × Word) :
    memFault i a e s = a.commit s ((((a.fr.fire a.k).fault a.k e.1 e.2 .firing).produce n).send (targetsOf i) .poison) := by
  simp [memFault, hstore, hl]

end Queue

/-! ### Loads, stores and atomics -/

section Widths
variable {i : Instr} {m : MemF} {n : Nat}

theorem loadQueues_of {fmt : Bool} (he : ∀ s, exec i s = memory i (fireLoad i m n fmt) s) (hload : isLoad i = true)
    (hstore : isStore i = false) (honly : isStoreOnly i = false) : LoadQueues i m n fmt := by
  intro s a c inside base h hl va want
  have hgo : exec i s = .next (fireLoad i m n fmt a c inside s) := (he s).trans (memory_next h)
  have hva : effAddr (a.fr.opL a.k).word m.off = va := by rw [hl]; rfl
  simp only [fireLoad, hva] at hgo
  refine ⟨fun hnone => ⟨fun segs s' hcheck => ?pass, fun e s' hcheck => ?fail⟩, fun t hwait => ?wait⟩
  case pass =>
    simp only [want, hnone, hcheck] at hgo
    obtain ⟨hstay, hleave⟩ := enqueue_read (a := a) (s := s') (x := newAccess i a c inside
      (piecesOf segs va (pieceCuts va n (onNc segs)) 0 []) (if fmt then (segs.map (fun (g : Seg) => g.tag)).getD 0 7 else 7)
      0 0) rfl hload hstore honly
    exact ⟨fun h => hgo.trans (congrArg _ (hstay h)), fun h => hgo.trans (congrArg _ (hleave h))⟩
  case fail =>
    simp only [want, hnone, hcheck] at hgo
    rw [hgo, memFault_of_not_store hstore]
  case wait =>
    simp only [want, hwait] at hgo
    exact hgo

theorem storeQueues_of (he : ∀ s, exec i s = memory i (fireStore i m n) s) (honly : isStoreOnly i = true)
    (hstore : isStore i = true) (hload : isLoad i = false) (hatomic : isAtomic i = false)
    (hlsid : lsidOf i = some m.lsid.toNat) (htargets : targetsOf i = []) : StoreQueues i m n := by
  intro s a c inside base data h hl hdata va want
  have hgo : exec i s = .next (fireStore i m n a c inside s) := (he s).trans (memory_next h)
  have hva : effAddr (a.fr.opL a.k).word m.off = va := by rw [hl]; rfl
  subst hdata
  simp only [fireStore, hva] at hgo
  refine ⟨fun hnone => ⟨fun segs s' hcheck => ?pass, fun e s' hcheck => ?fail⟩, fun t hwait => ?wait⟩
  case pass =>
    simp only [want, hnone, hcheck] at hgo
    rw [hgo]
    exact congrArg _ (enqueue_store rfl honly hstore hload hatomic)
  case fail =>
    simp only [want, hnone, hcheck] at hgo
    rw [hgo, memFault_of_store hstore hlsid, htargets]
    rfl
  case wait =>
    simp only [want, hwait] at hgo
    exact hgo

theorem atomicQueues_of {formats : List (BitVec 3)} {op : Nat} (he : ∀ s, exec i s = memory i (fireAtomic i m n formats op) s)
    (hatomic : isAtomic i = true) (hstore : isStore i = true) (honly : isStoreOnly i = false)
    (hlsid : lsidOf i = some m.lsid.toNat) : AtomicQueues i m n formats op := by
  intro s a c inside base h hl va want
  have hgo : exec i s = .next (fireAtomic i m n formats op a c inside s) := (he s).trans (memory_next h)
  have hva : effAddr (a.fr.opL a.k).word m.off = va := by rw [hl]; rfl
  simp only [fireAtomic, hva] at hgo
  refine ⟨fun hnone => ⟨fun segs s' hcheck => ?pass, fun e s' hcheck => ?fail⟩, fun t hwait => ?wait⟩
  case pass =>
    simp only [want, hnone, hcheck] at hgo
    intro x
    rw [hgo]
    exact congrArg _ (enqueue_atomic rfl hatomic hstore honly)
  case fail =>
    simp only [want, hnone, hcheck] at hgo
    rw [hgo, memFault_of_store hstore hlsid]
  case wait =>
    simp only [want, hwait] at hgo
    exact hgo

end Widths

/-- Settles O26, width by width. -/
theorem loadsAndStoresEnterTheQueue : Obligations.LoadsAndStoresEnterTheQueue := by
  refine ⟨fun pr m t0 t1 fmt => ⟨?_, ?_, ?_, ?_, ?_, ?_, ?_, ?_⟩, fun pr m => ⟨?_, ?_, ?_, ?_, ?_⟩⟩
  · exact loadQueues_of (fun _ => rfl) rfl rfl rfl
  · exact loadQueues_of (fun _ => rfl) rfl rfl rfl
  · exact loadQueues_of (fun _ => rfl) rfl rfl rfl
  · exact loadQueues_of (fun _ => rfl) rfl rfl rfl
  · exact loadQueues_of (fun _ => rfl) rfl rfl rfl
  · exact loadQueues_of (fun _ => rfl) rfl rfl rfl
  · exact loadQueues_of (fun _ => rfl) rfl rfl rfl
  · exact loadQueues_of (fun _ => rfl) rfl rfl rfl
  · exact storeQueues_of (fun _ => rfl) rfl rfl rfl rfl rfl rfl
  · exact storeQueues_of (fun _ => rfl) rfl rfl rfl rfl rfl rfl
  · exact storeQueues_of (fun _ => rfl) rfl rfl rfl rfl rfl rfl
  · exact storeQueues_of (fun _ => rfl) rfl rfl rfl rfl rfl rfl
  · exact storeQueues_of (fun _ => rfl) rfl rfl rfl rfl rfl rfl

/-! ### Gathers and scatters -/

/-- The lanes after those that pass are checked in the state that these leave (R132). -/
theorem checkLanes_append {c : Ctx} {want : Want} {a : Acting} {m : MemF} {sz : WD} {data : Nat → List Byte}
    {js : List Nat} {ps ps' : List Piece} {s s' : State} (h : checkLanes c want a m sz data js ps s = (.ok ps', s'))
    (rest : List Nat) :
    checkLanes c want a m sz data (js ++ rest) ps s = checkLanes c want a m sz data rest ps' s' := by
  induction js generalizing ps s with
  | nil =>
    cases h
    rfl
  | cons j js ih =>
    simp only [checkLanes, List.cons_append] at h ⊢
    split at h
    next => cases h
    next segs t hcheck =>
      exact ih h

/-- The first lane whose check fails ends the checks with its own address (R132). -/
theorem checkLanes_fails {c : Ctx} {want : Want} {a : Acting} {m : MemF} {sz : WD} {data : Nat → List Byte}
    {js rest : List Nat} {j : Nat} {ps : List Piece} {s s' t : State} {e : Cause × Word}
    (hpass : checkLanes c want a m sz data js [] s = (.ok ps, s'))
    (hfail : s'.check c want (elementVa a m sz j) (wdBytes sz) = (.error e, t)) :
    checkLanes c want a m sz data (js ++ j :: rest) [] s = (.error (e.1, elementVa a m sz j), t) := by
  rw [checkLanes_append hpass, checkLanes, hfail]

/-- Settles O27: the lanes in their order, and the atomics opcode by opcode. -/
theorem gathersScattersAndAtomicsEnterTheQueue : Obligations.GathersScattersAndAtomicsEnterTheQueue := by
  constructor
  · intro pr sz m t0 t1 s s' a c inside ps want ls data waits gather scatter
    have hgather (h : MemoryFires s gather a c inside) : exec gather s = .next (fireGather gather sz m a c inside s) :=
      memory_next h
    have hscatter (h : MemoryFires s scatter a c inside) : exec scatter s = .next (fireScatter scatter sz m a c inside s) :=
      memory_next h
    refine ⟨fun t hwait i hi h => ?_, fun h hnone => ⟨fun hpass => ?_, fun js j rest e t hls hpass hfail => ?_⟩,
      fun h hnone => ⟨fun hpass => ?_, fun js j rest e t hls hpass hfail => ?_⟩, fun _ => rfl⟩
    · simp only [List.mem_cons, List.not_mem_nil, or_false] at hi
      rcases hi with rfl | rfl
      · rw [hgather h, fireGather, show s.walkWaits c.cell c.x (laneVas a m sz) = some t from hwait]
      · rw [hscatter h, fireScatter, show s.walkWaits c.cell c.x (laneVas a m sz) = some t from hwait]
    · have hgo := hgather h
      rw [fireGather, show s.walkWaits c.cell c.x (laneVas a m sz) = none from hnone] at hgo
      simp only at hgo
      rw [show checkLanes c _ a m sz (fun _ => []) (List.range (64 / wdBytes sz)) [] s = (.ok ps, s') from hpass] at hgo
      obtain ⟨hstay, hleave⟩ := enqueue_read (a := a) (s := s') (x := newAccess gather a c inside ps 7 0 0) rfl rfl rfl rfl
      exact ⟨fun h => hgo.trans (congrArg _ (hstay h)), fun h => hgo.trans (congrArg _ (hleave h))⟩
    · rw [hgather h, fireGather, show s.walkWaits c.cell c.x (laneVas a m sz) = none from hnone]
      simp only
      rw [show List.range (64 / wdBytes sz) = js ++ j :: rest from hls]
      erw [checkLanes_fails hpass hfail]
      exact congrArg _ (memFault_of_not_store rfl _)
    · rw [hscatter h, fireScatter, show s.walkWaits c.cell c.x (laneVas a m sz) = none from hnone]
      simp only
      rw [show checkLanes c _ a m sz _ (List.range (64 / wdBytes sz)) [] s = (.ok ps, s') from hpass]
      exact congrArg _ (enqueue_store rfl rfl rfl rfl rfl)
    · rw [hscatter h, fireScatter, show s.walkWaits c.cell c.x (laneVas a m sz) = none from hnone]
      simp only
      rw [show List.range (64 / wdBytes sz) = js ++ j :: rest from hls]
      erw [checkLanes_fails hpass hfail]
      exact congrArg _ (memFault_of_store rfl rfl _)
  · intro pr sz m t0 t1
    refine ⟨?_, ?_, ?_, ?_, ?_, ?_, ?_, ?_, ?_, ?_, ?_⟩
    · exact atomicQueues_of (fun _ => rfl) rfl rfl rfl rfl
    · exact atomicQueues_of (fun _ => rfl) rfl rfl rfl rfl
    · exact atomicQueues_of (fun _ => rfl) rfl rfl rfl rfl
    · exact atomicQueues_of (fun _ => rfl) rfl rfl rfl rfl
    · exact atomicQueues_of (fun _ => rfl) rfl rfl rfl rfl
    · exact atomicQueues_of (fun _ => rfl) rfl rfl rfl rfl
    · exact atomicQueues_of (fun _ => rfl) rfl rfl rfl rfl
    · exact atomicQueues_of (fun _ => rfl) rfl rfl rfl rfl
    · exact atomicQueues_of (fun _ => rfl) rfl rfl rfl rfl
    · exact atomicQueues_of (fun _ => rfl) rfl rfl rfl rfl
    · exact atomicQueues_of (fun _ => rfl) rfl rfl rfl rfl

/-! ### Prefetches, fences and cache operations -/

/-- The fibres, the load-store queue, the messages to the outside and every byte of memory are the same. -/
structure State.OnlyCaches (s t : State) : Prop extends s.SameStore t where
  fibres : t.fibres = s.fibres
  accesses : t.accesses = s.accesses
  out : t.out = s.out

theorem State.OnlyCaches.trans {s t u : State} (h : s.OnlyCaches t) (k : t.OnlyCaches u) : s.OnlyCaches u :=
  ⟨h.toSameStore.trans k.toSameStore, k.fibres.trans h.fibres, k.accesses.trans h.accesses, k.out.trans h.out⟩

theorem onlyCaches_update (s : State) (tk : Nat) (cs : Dict CellSt) (tl : Dict (List TlbEntry)) (ct : Dict Word)
    (sh : Dict (List Nat)) :
    s.OnlyCaches { s with tick := tk, cells := cs, tlb2 := tl, ctl := ct, sharers := sh } :=
  ⟨⟨rfl, rfl, rfl, rfl, rfl, rfl, rfl⟩, rfl, rfl, rfl⟩

theorem onlyCaches_check (s : State) (c : Ctx) (w : Want) (va : Word) (n : Nat) : s.OnlyCaches (s.check c w va n).2 := by
  obtain ⟨tk, cs, tl, ct, h⟩ := check_keeps s c w va n
  rw [h]
  exact onlyCaches_update s tk cs tl ct s.sharers

/-- The L1 of a cell is filled by a prefetch, which counts as a fetch (R134, R308). -/
theorem onlyCaches_prefetchLine (s : State) (cell : Nat) (loc : Loc) :
    s.OnlyCaches (((countCell cell 7 1 s).countLlc (lineOf loc.addr)).fillLine cell loc) := by
  obtain ⟨d, hd⟩ := countCell_keeps cell 7 1 s
  obtain ⟨d', hd'⟩ := countLlc_keeps (countCell cell 7 1 s) (lineOf loc.addr)
  obtain ⟨cs, sh, hs⟩ := fillLine_keeps ((countCell cell 7 1 s).countLlc (lineOf loc.addr)) cell loc
  rw [hs, hd', hd]
  exact onlyCaches_update s s.tick cs s.tlb2 d' sh

/-- A prefetch changes caches, TLBs and counters beside the firing (R134). -/
theorem onlyCaches_firePrefetch {off : BitVec 22} {a : Acting} {c : Ctx} {inside : Bool} {s : State}
    (hnone : inside = true ∨ s.walkWaits c.cell c.x [((a.fr.opL a.k).word + off.signExtend 64, 1)] = none) :
    (a.commit s (a.fr.fire a.k)).OnlyCaches (firePrefetch off a c inside s) := by
  set u := a.commit s (a.fr.fire a.k) with hu
  unfold firePrefetch
  rw [← hu]
  cases inside with
  | true => exact onlyCaches_update u _ _ _ _ _
  | false =>
    have hw : s.walkWaits c.cell c.x [(effAddr (a.fr.opL a.k).word off, 1)] = none := by simpa [effAddr] using hnone
    simp only [Bool.false_eq_true, if_false, hw]
    have hcheck := onlyCaches_check u c { kind := .load, align := 1, inRegion := false, formats := [], amo := none }
      (effAddr (a.fr.opL a.k).word off) 1
    split
    next e t he =>
      rwa [he] at hcheck
    next segs t he =>
      rw [he] at hcheck
      split
      next g rest =>
        dsimp only [State.toss]
        refine hcheck.trans ((onlyCaches_update t (t.tick + 1) t.cells t.tlb2 t.ctl t.sharers).trans ?_)
        exact iteInduction (motive := fun u => State.OnlyCaches _ u)
          (fun _ => onlyCaches_prefetchLine _ c.cell g.loc) (fun _ => onlyCaches_update _ _ _ _ _ _)
      next => exact hcheck

/-- Settles O28. -/
theorem prefetchesFencesAndCacheOperations : Obligations.PrefetchesFencesAndCacheOperations := by
  intro pr lsid off scope ord s a c inside queued
  refine ⟨fun h => ⟨fun hnone => ?prefetch, fun t hin hwait => ?wait⟩, fun h => ?fence, fun va len hl hr i hi h => ?cache⟩
  case prefetch =>
    have hk := onlyCaches_firePrefetch hnone
    have hgo : exec (.pf pr lsid off) s = .next (firePrefetch off a c inside s) := memory_next h
    exact ⟨_, hgo, hk.fibres, hk.accesses.trans (by simp [Acting.commit]), hk.out.trans (by simp [Acting.commit]),
      ((sameStore_commit a s (a.fr.fire a.k)).trans hk.toSameStore).sameBytes⟩
  case wait =>
    have hgo : exec (.pf pr lsid off) s = .next (firePrefetch off a c inside s) := memory_next h
    subst hin
    have hw : s.walkWaits c.cell c.x [(effAddr (a.fr.opL a.k).word off, 1)] = some t := hwait
    simpa only [firePrefetch, hw, Bool.false_eq_true, if_false] using hgo
  case fence => exact (memory_next h).trans (congrArg _ (enqueue_other rfl rfl rfl rfl rfl))
  case cache =>
    have hkind : exec i s = .next (fireCacheOp i a c inside s) ∧ isLoad i = false ∧ isAtomic i = false ∧ isStore i = false
        ∧ isStoreOnly i = false := by
      simp only [List.mem_cons, List.not_mem_nil, or_false] at hi
      rcases hi with rfl | rfl <;> exact ⟨memory_next h, rfl, rfl, rfl, rfl⟩
    obtain ⟨hgo, hload, hatomic, hstore, honly⟩ := hkind
    simp only [fireCacheOp, hl, hr, Token.word] at hgo
    refine ⟨fun hin => ?_, fun hne hbig => ?_⟩
    · rw [if_neg fun hbad => hin.elim hbad.1 fun hle => by omega] at hgo
      rw [hgo]
      cases inside
      · exact congrArg _ (enqueue_other rfl hload hatomic hstore honly)
      · exact congrArg _ (memFault_of_not_store hstore _)
    · rw [hgo, if_pos ⟨hne, hbig⟩, memFault_of_not_store hstore]

end Sys2Proof.Machine
end

section
/-! PROOFS. The checks of an access and its windows (R55, R98, R101 to R104), and engine commands (R230 to R232, R276). -/

namespace Sys2Proof.Machine

/-! ### The order of the checks -/

section Check
variable {s s' : State} {c : Ctx} {w : Want} {va : Word} {n : Nat}

theorem check_unmapped (h : nfld va 57 7 ≠ 0) : s.check c w va n = (.error (.pageMiss, va), s) := if_pos h

theorem check_misaligned (h : nfld va 57 7 = 0) (halign : va.toNat % w.align ≠ 0) :
    s.check c w va n = (.error (.align, va), s) := by
  rw [State.check, if_neg (not_not.mpr h), if_pos halign]

theorem check_refused {e : Cause × Word} (h : nfld va 57 7 = 0) (halign : va.toNat % w.align = 0)
    (hsegs : s.segments c w.kind va n = (.error e, s')) : s.check c w va n = (.error e, s') := by
  rw [State.check, if_neg (not_not.mpr h), if_neg (not_not.mpr halign), hsegs]

/-- R98: an atomic meets a format that its opcode does not admit, or a scale granule. -/
def Want.TypeBad (w : Want) (s : State) (segs : List Seg) : Prop :=
  w.formats ≠ [] ∧ ∃ g ∈ segs, g.tag ∉ w.formats ∨ (g.loc.space = .cell ∧ (s.granule g.loc.addr).getLsbD 3 = true)

/-- R144: the completer has no such AtomicOp. -/
def Want.Unsupported (w : Want) (segs : List Seg) : Prop :=
  ∃ op width, w.amo = some (op, width) ∧ ∃ g ∈ segs, g.loc.space = .hostNc
    ∧ ¬(op ≤ 2 ∧ Config.completerHas g.loc.addr op width = true)

/-- R98: in a region, host memory and declared pages. -/
def Want.Outer (w : Want) (segs : List Seg) : Prop :=
  w.inRegion = true ∧ ∃ g ∈ segs, g.loc.space = .hostCoh ∨ g.loc.space = .hostNc ∨ g.loc.declared = true

/-- R98: in a region, stores and atomics to cell memory. -/
def Want.Inner (w : Want) (segs : List Seg) : Prop :=
  w.inRegion = true ∧ w.kind ≠ .load ∧ ∃ g ∈ segs, g.loc.space = .cell

open Classical in
/-- What stands behind the window and the page in the order of the checks (R55, log 71). -/
theorem check_of_segments {segs : List Seg} (h : nfld va 57 7 = 0) (halign : va.toNat % w.align = 0)
    (hsegs : s.segments c w.kind va n = (.ok segs, s')) :
    s.check c w va n = (if w.TypeBad s' segs then .error (.atomType, va) else if w.Unsupported segs then .error (.atomUnsup, va)
      else if w.Outer segs then .error (.rgnSpace, va) else if w.Inner segs then .error (.rgnLocal, va)
      else .ok segs, s') := by
  have htype : w.TypeBad s' segs ↔ (!w.formats.isEmpty && segs.any (fun (g : Seg) =>
      !w.formats.contains g.tag || (g.loc.space == Space.cell && (s'.granule g.loc.addr).getLsbD 3))) = true := by
    simp [Want.TypeBad]
  have hunsup : w.Unsupported segs ↔ (match w.amo with
      | none => false
      | some (op, width) => segs.any (fun (g : Seg) => g.loc.space == Space.hostNc &&
          !(op ≤ 2 && Config.completerHas g.loc.addr op width))) = true := by
    unfold Want.Unsupported
    cases w.amo with
    | none => simp
    | some p =>
      simp only [Option.some.injEq, Prod.ext_iff, List.any_eq_true, Bool.and_eq_true, beq_iff_eq, Bool.not_eq_true',
        Bool.and_eq_false_iff, decide_eq_false_iff_not]
      grind
  have houter : w.Outer segs ↔ (w.inRegion && segs.any (fun (g : Seg) => g.loc.space == Space.hostCoh
      || g.loc.space == Space.hostNc || g.loc.declared)) = true := by simp [Want.Outer, or_assoc]
  have hinner : w.Inner segs ↔ (w.inRegion && w.kind != AccKind.load && segs.any (fun (g : Seg) =>
      g.loc.space == Space.cell)) = true := by simp [Want.Inner, and_assoc]
  rw [State.check, if_neg (not_not.mpr h), if_neg (not_not.mpr halign), hsegs]
  by_cases h1 : w.TypeBad s' segs
  · rw [if_pos h1]
    exact if_pos (htype.mp h1)
  rw [if_neg h1]
  refine (if_neg (mt htype.mpr h1)).trans ?_
  by_cases h2 : w.Unsupported segs
  · rw [if_pos h2]
    exact if_pos (hunsup.mp h2)
  rw [if_neg h2]
  refine (if_neg (mt hunsup.mpr h2)).trans ?_
  by_cases h3 : w.Outer segs
  · rw [if_pos h3]
    exact if_pos (houter.mp h3)
  rw [if_neg h3]
  refine (if_neg (mt houter.mpr h3)).trans ?_
  by_cases h4 : w.Inner segs
  · rw [if_pos h4]
    exact if_pos (hinner.mp h4)
  rw [if_neg h4]
  exact if_neg (mt hinner.mpr h4)

end Check

/-- Settles O29. The checks behind the page are those of `check_of_segments`; an access that fails is the failing half of
its entering the queue. -/
theorem accessChecksAndRefusals : Obligations.AccessChecksAndRefusals := by
  refine ⟨fun s c w va n => ⟨check_unmapped, check_misaligned, fun e s' => check_refused, ?order⟩, ?refusals⟩
  case order =>
    intro segs s' h halign hsegs badType noOp outer inner
    have hcheck := check_of_segments h halign hsegs
    have hbad : badType ↔ w.TypeBad s' segs := Iff.rfl
    have hno : noOp ↔ w.Unsupported segs := Iff.rfl
    have hout : outer ↔ w.Outer segs := Iff.rfl
    have hin : inner ↔ w.Inner segs := Iff.rfl
    rw [hbad, hno, hout, hin, hcheck]
    refine ⟨fun h1 => ?_, fun h1 h2 => ?_, fun h1 h2 h3 => ?_, fun h1 h2 h3 h4 => ?_, fun h1 h2 h3 h4 => ?_⟩
    · rw [if_pos h1]
    · rw [if_neg h1, if_pos h2]
    · rw [if_neg h1, if_neg h2, if_pos h3]
    · rw [if_neg h1, if_neg h2, if_neg h3, if_pos h4]
    · rw [if_neg h1, if_neg h2, if_neg h3, if_neg h4]
  case refusals =>
    intro pr m t0 t1 s s' a c inside base e hl va ld st want wl ws
    obtain ⟨hloads, hstores⟩ := loadsAndStoresEnterTheQueue
    obtain ⟨-, -, -, -, -, -, hld, -⟩ := hloads pr m t0 t1 false
    obtain ⟨-, -, -, hst, -⟩ := hstores pr m
    have hor : (acquires ld || false) = acquires ld := Bool.or_false _
    refine ⟨fun hm hnone hcheck => ?_, fun hm hnone hcheck => ?_⟩
    · have hq := hld s a c inside base hm hl
      rw [hor] at hq
      exact (hq.1 hnone).2 e s' hcheck
    · exact ((hst s a c inside base _ hm hl rfl).1 hnone).2 e s' hcheck

/-! ### Windows -/

section Windows
variable {s : State} {c : Ctx} {kind : AccKind} {va : Word} {n : Nat}

theorem toNat_of_aperture (h : nfld va 48 16 = 0x1F0) : va.toNat = 0x1F0 * 2 ^ 48 + nfld va 0 48 := by
  simp only [nfld_eq] at h ⊢
  have := va.isLt
  omega

/-- The last byte of an access that stays in the aperture lies n - 1 bytes on. -/
theorem aperture_add (h : nfld va 48 16 = 0x1F0) {d : Nat} (hfit : nfld va 0 48 + d < 2 ^ 48) :
    nfld (va + BitVec.ofNat 64 d) 48 16 = 0x1F0 ∧ nfld (va + BitVec.ofNat 64 d) 0 48 = nfld va 0 48 + d := by
  have hva := toNat_of_aperture h
  have hadd : (va + BitVec.ofNat 64 d).toNat = va.toNat + d := by
    rw [BitVec.toNat_add, BitVec.toNat_ofNat]
    omega
  simp only [nfld_eq, hadd] at *
  omega

theorem windowNo_of_aperture (h : nfld va 48 16 = 0x1F0) :
    windowNo va = if nfld va 0 48 < 0x100000 then 1
      else if 0x100000000 ≤ nfld va 0 48 ∧ nfld va 0 48 < 0x200000000 then 2 + nfld va 0 48 / 0x100000 else 0 := by
  simp only [windowNo, apertureOff, if_pos h]

/-- The segments of an access in the aperture are decided by the window of its first byte and that of its last. -/
theorem segments_aperture (h : nfld va 48 16 = 0x1F0) : s.segments c kind va n =
    (match window c.g c.l c.cell (nfld va 0 48) with
      | .peer => .error (.peer, va)
      | .noPage => .error (if windowNo (va + BitVec.ofNat 64 (n - 1)) = 0 then .pageMiss else .windowSpan, va)
      | .place a => if windowNo va ≠ windowNo (va + BitVec.ofNat 64 (n - 1)) then .error (.windowSpan, va)
        else .ok [{ va := va, n := n, loc := { space := .cell, addr := a, key := 0, ca := false, declared := false }
                    tag := granuleTag (s.granule a), leaf := 0 }], s) := by
  have hlow : nfld va 57 7 = 0 := by
    have := toNat_of_aperture h
    simp only [nfld_eq] at *
    omega
  rw [State.segments, if_neg (not_not.mpr hlow), apertureOff, if_pos h]
  dsimp only
  cases window c.g c.l c.cell (nfld va 0 48) with
  | peer => rfl
  | noPage => rfl
  | place a => dsimp only; split <;> rfl

/-- An access that the window's own memory has whole gets it as its one segment. -/
theorem segments_place {a : Nat} (h : nfld va 48 16 = 0x1F0) (hplace : window c.g c.l c.cell (nfld va 0 48) = .place a)
    (hsame : windowNo va = windowNo (va + BitVec.ofNat 64 (n - 1))) :
    ∃ g, s.segments c kind va n = (.ok [g], s) ∧ g.loc.space = .cell ∧ g.loc.addr = a ∧ g.va = va ∧ g.n = n := by
  rw [segments_aperture h, hplace]
  refine ⟨{ va := va, n := n, loc := { space := .cell, addr := a, key := 0, ca := false, declared := false }
            tag := granuleTag (s.granule a), leaf := 0 }, ?_, rfl, rfl, rfl, rfl⟩
  exact congrArg (·, s) (if_neg (not_not.mpr hsame))

theorem segments_span {a : Nat} (h : nfld va 48 16 = 0x1F0) (hplace : window c.g c.l c.cell (nfld va 0 48) = .place a)
    (hdiff : windowNo va ≠ windowNo (va + BitVec.ofNat 64 (n - 1))) :
    s.segments c kind va n = (.error (.windowSpan, va), s) := by
  rw [segments_aperture h, hplace]
  simp only [if_pos hdiff]

variable {g : Group} {l : Launch} {own o : Nat}

theorem window_own (h : o < 0x100000) : window g l own o = .place (own * 0x100000 + o) := if_pos h

theorem window_member (hlo : 0x100000000 ≤ o) (hhi : o < 0x200000000) (hk : (o / 0x100000) % 4096 < l.cells) :
    window g l own o = .place (memberCell g l ((o / 0x100000) % 4096) * 0x100000 + o % 0x100000) := by
  rw [window, if_neg (by omega), if_pos ⟨hlo, hhi⟩]
  exact if_pos hk

theorem window_peer (hlo : 0x100000000 ≤ o) (hhi : o < 0x200000000) (hk : l.cells ≤ (o / 0x100000) % 4096) :
    window g l own o = .peer := by
  rw [window, if_neg (by omega), if_pos ⟨hlo, hhi⟩]
  exact if_neg (by omega)

theorem window_noPage (h : 0x200000000 ≤ o ∨ (0x100000 ≤ o ∧ o < 0x100000000)) : window g l own o = .noPage := by
  rw [window, if_neg (by omega), if_neg (by omega)]

end Windows

/-- Settles O30. An access that does not run over a multiple of 1 MiB has its bytes in one window; one that does ends in
the next one, or in none. -/
theorem windowsReachCellMemory : Obligations.WindowsReachCellMemory := by
  intro s c kind va n o hva ho hn
  subst ho
  have hlt : nfld va 0 48 < 2 ^ 48 := by rw [nfld_eq]; exact Nat.mod_lt _ (by norm_num)
  have hnum := windowNo_of_aperture hva
  refine ⟨fun hin => ?inside, fun hcross hmax => ?crossing⟩
  case inside =>
    obtain ⟨hlast, hoff⟩ := aperture_add hva (d := n - 1) (by omega)
    have hnumLast := windowNo_of_aperture hlast
    rw [hoff] at hnumLast
    refine ⟨fun hown => ?_, fun hlo hhi hk => ?_, fun hlo hhi hk => ?_, fun hnone => ?_⟩
    · refine segments_place hva (window_own hown) ?_
      rw [hnum, hnumLast, if_pos hown, if_pos (by omega)]
    · refine segments_place hva (window_member hlo hhi hk) ?_
      rw [hnum, hnumLast, if_neg (by omega), if_pos ⟨hlo, hhi⟩, if_neg (by omega), if_pos (by omega)]
      omega
    · rw [segments_aperture hva, window_peer hlo hhi hk]
    · have hzero : windowNo (va + BitVec.ofNat 64 (n - 1)) = 0 := by
        rw [hnumLast, if_neg (by omega), if_neg (by omega)]
      rw [segments_aperture hva, window_noPage hnone]
      simp only [hzero, if_true]
  case crossing =>
    refine ⟨fun hown => ?_, fun hlo hhi hk => ?_⟩
    all_goals
      obtain ⟨hlast, hoff⟩ := aperture_add hva (d := n - 1) (by omega)
      have hnumLast := windowNo_of_aperture hlast
      rw [hoff] at hnumLast
    · refine segments_span hva (window_own hown) ?_
      rw [hnum, hnumLast, if_pos hown, if_neg (by omega), if_neg (by omega)]
      norm_num
    · refine segments_span hva (window_member hlo hhi hk) ?_
      rw [hnum, hnumLast, if_neg (by omega), if_pos ⟨hlo, hhi⟩, if_neg (by omega)]
      split <;> omega

/-! ### Engine commands -/

/-- An engine command whose own checks pass, alone with its status register, stands among its block's commands. -/
theorem fireCommand_queues {i : Instr} {check : Acting → Ctx → List (Cause × Word)} {s : State} {a : Acting} {c : Ctx}
    (h : MemoryFires s i a c false) (honly : isStoreOnly i = false) (hcheck : check a c = [])
    (hfree : ∀ r, sregOf i = some r → ∀ k ∈ a.fr.fired, (a.fr.instr k).bind sregOf ≠ some r) :
    fireCommand i check s = .next (a.commit s { a.fr.fire a.k with
      cmds := a.fr.cmds ++ [{ idx := a.k, ins := i, a := (a.fr.opL a.k).word, b := (a.fr.opR a.k).word }] }) := by
  obtain ⟨⟨hact, hcan⟩, hvalues, hplace, hctx⟩ := h
  have hbad : badOperand (a.fr.operands a.k i) = none := by
    simpa [noAccess, poisonedData, honly] using hvalues
  rw [fireCommand, hact]
  cases hs : sregOf i with
  | none =>
    simp only [hcan, if_true, List.isEmpty_nil, hplace, hctx, hbad, hcheck, Option.isSome_none, Bool.false_eq_true,
      if_false, Frame.fire_cmds]
  | some r =>
    have htwins : a.fr.fired.filter (fun k => (a.fr.instr k).bind sregOf == some r) = [] :=
      List.filter_eq_nil_iff.mpr fun k hk => by simpa using hfree r hs k hk
    simp only [hcan, if_true, htwins, List.isEmpty_nil, hplace, hctx, hbad, hcheck, Option.isSome_none,
      Bool.false_eq_true, if_false, Frame.fire_cmds]

theorem commandQueues_of {i : Instr} {check : Acting → Ctx → List (Cause × Word)} {ok : Acting → Ctx → Prop}
    (he : ∀ s, exec i s = fireCommand i check s) (honly : isStoreOnly i = false) (hcheck : ∀ a c, ok a c → check a c = []) :
    CommandQueues i ok :=
  fun s _ _ h hok hfree => (he s).trans (fireCommand_queues h honly (hcheck _ _ hok) hfree)

theorem ownAddress_nil {m : Nat} (a : Acting) (c : Ctx)
    (h : (a.fr.opL a.k).word.toNat % m = 0 ∧ inOwnCell c (a.fr.opL a.k).word = true) : ownAddress m a c = [] := by
  simp [ownAddress, h.1, h.2]

theorem tileAddress_nil (a : Acting) (c : Ctx) (h : (a.fr.opL a.k).word.toNat % 128 = 0) : tileAddress a c = [] :=
  if_neg (not_not.mpr h)

theorem tagRange_nil (a : Acting) (c : Ctx) (h : inOwnCell c (a.fr.opL a.k).word = true
    ∧ (a.fr.opL a.k).word.toNat % 0x100000 + (a.fr.opR a.k).word.toNat ≤ 0x100000) : tagRange a c = [] := by
  obtain ⟨hown, hfit⟩ := h
  simp [tagRange, hown, show ¬0x100000 < (a.fr.opL a.k).word.toNat % 0x100000 + (a.fr.opR a.k).word.toNat by omega]

/-- Settles O35. -/
theorem commandsWaitForTheCommit : Obligations.CommandsWaitForTheCommit := by
  intro pr sreg acc kq n fmt tag scale va own free tile
  exact ⟨commandQueues_of (exec_cpy _ _) rfl ownAddress_nil, commandQueues_of (exec_cpyQ _ _) rfl ownAddress_nil,
    commandQueues_of (exec_bbarInit _) rfl ownAddress_nil, commandQueues_of (exec_bbarWait _ _) rfl ownAddress_nil,
    commandQueues_of (exec_mma _ _ _ _) rfl fun _ _ _ => rfl, commandQueues_of (exec_mmaSp _ _ _ _) rfl fun _ _ _ => rfl,
    commandQueues_of (exec_mring _ _ _ _ _) rfl fun _ _ _ => rfl, commandQueues_of (exec_mzero _ _) rfl fun _ _ _ => rfl,
    commandQueues_of (exec_mld _ _ _) rfl tileAddress_nil, commandQueues_of (exec_mst _ _ _ _) rfl tileAddress_nil,
    commandQueues_of (exec_cmtag _ _ _) rfl tagRange_nil⟩

end Sys2Proof.Machine
end

section
/-! PROOFS. Traps, the return from a trap, and what waits for the commit of its block (R25, R64, R178 to R180, R212,
R234 to R238, R241, R255). -/

namespace Sys2Proof.Machine

/-! ### Frames put back twice -/

theorem Dict.put_put {α : Type} (d : Dict α) (k : Nat) (v w : α) : (d.put k v).put k w = d.put k w := by
  induction d with
  | nil => simp [Dict.put]
  | cons e d ih =>
    obtain ⟨j, x⟩ := e
    simp only [Dict.put]
    by_cases hlt : k < j
    · simp [hlt, Dict.put]
    · by_cases heq : j = k
      · simp [heq, Dict.put]
      · simp [hlt, heq, Dict.put, ih]

theorem Fibre.setFrame_setFrame {f : Fibre} {fr fr' : Frame} (h : fr'.seq = fr.seq) :
    (f.setFrame fr).setFrame fr' = f.setFrame fr' := by
  simp only [Fibre.setFrame, List.map_map]
  congr 1
  refine List.map_congr_left fun x _ => ?_
  by_cases hx : x.seq = fr.seq <;> simp [hx, h]

theorem setFrame_setFrame {s : State} {fid : Nat} {fr fr' : Frame} (h : fr'.seq = fr.seq) :
    (s.setFrame fid fr).setFrame fid fr' = s.setFrame fid fr' := by
  unfold State.setFrame State.modFibre
  cases hf : s.fibre? fid with
  | none => simp [hf]
  | some f =>
    simp only [fibre?_setFibre_same, Fibre.setFrame_setFrame h]
    simp only [State.setFibre, Dict.put_put]

/-! ### Banks -/

theorem Fibre.bank_setBank_same (f : Fibre) (h : Level) (b : Bank) : (f.setBank h b).bank h = b := by cases h <;> rfl

theorem Fibre.bank_setBank_other (f : Fibre) {h l : Level} (b : Bank) (hne : l ≠ h) : (f.setBank h b).bank l = f.bank l := by
  cases h <;> cases l <;> simp_all [Fibre.setBank, Fibre.bank]

section TakeTrap
variable (f : Fibre) (c : Cause) (tblock : Word) (tidx : Nat) (taddr : Word) (rf resume : Bool)

theorem Fibre.bank_takeTrap_same : (f.takeTrap c tblock tidx taddr rf resume).bank (handlerLevel f c)
    = { f.bank (handlerLevel f c) with
        tcause := BitVec.ofNat 64 c.code, tblock := tblock, tidx := BitVec.ofNat 64 tidx, taddr := taddr
        tstat := BitVec.ofNat 64 (f.level.code + if resume then 4 else 0) } := f.bank_setBank_same _ _

theorem Fibre.bank_takeTrap_other {h : Level} (hne : h ≠ handlerLevel f c) :
    (f.takeTrap c tblock tidx taddr rf resume).bank h = f.bank h := f.bank_setBank_other _ hne

/-- What a trap leaves of the registers (R236). -/
theorem Fibre.takeTrap_regs : (f.takeTrap c tblock tidx taddr rf resume).g = f.g
    ∧ (f.takeTrap c tblock tidx taddr rf resume).v = f.v ∧ (f.takeTrap c tblock tidx taddr rf resume).vtag = f.vtag
    ∧ (f.takeTrap c tblock tidx taddr rf resume).frames = f.frames := by
  unfold Fibre.takeTrap
  cases handlerLevel f c <;> exact ⟨rfl, rfl, rfl, rfl⟩

end TakeTrap

/-! ### The level that handles a trap (R235) -/

section HandlerLevel
variable {f : Fibre} {c : Cause}

theorem handlerLevel_m (h : f.level = .m) : handlerLevel f c = .m := by simp [handlerLevel, h]

theorem handlerLevel_undelegated (hdeleg : f.mdeleg.getLsbD c.code = false) : handlerLevel f c = .m := by
  simp [handlerLevel, hdeleg]

theorem handlerLevel_s (hm : f.level ≠ .m) (hdeleg : f.mdeleg.getLsbD c.code = true)
    (hs : f.level = .s ∨ f.sdeleg.getLsbD c.code = false) :
    handlerLevel f c = if f.bankS.tvec = 0 then .m else .s := by
  have hnot : ¬(f.level = .a ∧ f.sdeleg.getLsbD c.code = true) := by rintro ⟨ha, hd⟩; simp_all
  simp [handlerLevel, hm, hdeleg, hnot]

theorem handlerLevel_a (ha : f.level = .a) (hdeleg : f.mdeleg.getLsbD c.code = true)
    (hsdeleg : f.sdeleg.getLsbD c.code = true) :
    handlerLevel f c = if f.bankA.tvec ≠ 0 then .a else if f.bankS.tvec = 0 then .m else .s := by
  by_cases hvec : f.bankA.tvec = 0#64 <;> simp [handlerLevel, ha, hdeleg, hsdeleg, hvec]

/-- The handler is no lower than the level that raised the trap, and it has a vector when level M has one. -/
theorem handlerLevel_bounds (hvec : f.bankM.tvec ≠ 0) :
    f.level.code ≤ (handlerLevel f c).code ∧ (f.bank (handlerLevel f c)).tvec ≠ 0 := by
  by_cases hdeleg : f.mdeleg.getLsbD c.code = true
  · cases hl : f.level with
    | m => rw [handlerLevel_m hl]; exact ⟨le_rfl, hvec⟩
    | s =>
      rw [handlerLevel_s (by simp [hl]) hdeleg (.inl hl)]
      split
      · exact ⟨by decide, hvec⟩
      · next h => exact ⟨by decide, h⟩
    | a =>
      refine ⟨Nat.zero_le _, ?_⟩
      by_cases hs : f.sdeleg.getLsbD c.code = true
      · rw [handlerLevel_a hl hdeleg hs]
        split
        · next h => exact h
        · split
          · exact hvec
          · next h => exact h
      · rw [handlerLevel_s (by simp [hl]) hdeleg (.inr (by simpa using hs))]
        split
        · exact hvec
        · next h => exact h
  · rw [handlerLevel_undelegated (by simpa using hdeleg)]
    exact ⟨by cases f.level <;> decide, hvec⟩

end HandlerLevel

/-! ### A trap that the firmware does not service -/

/-- Two states differ in groups and the counter of stamps alone. -/
def State.OnlyGroups (s t : State) : Prop := ∃ gs n, t = { s with groups := gs, nextId := n }

theorem State.OnlyGroups.refl (s : State) : s.OnlyGroups s := ⟨s.groups, s.nextId, rfl⟩

theorem State.OnlyGroups.trans {s t u : State} (h : s.OnlyGroups t) (k : t.OnlyGroups u) : s.OnlyGroups u := by
  obtain ⟨gs, n, rfl⟩ := h
  obtain ⟨gs', n', rfl⟩ := k
  exact ⟨gs', n', rfl⟩

theorem onlyGroups_setGroup (s : State) (gid : Nat) (g : Group) : s.OnlyGroups (s.setGroup gid g) :=
  ⟨s.groups.put gid g, s.nextId, rfl⟩

theorem onlyGroups_restamp (s : State) (gid : Nat) : s.OnlyGroups (s.restamp gid) := by
  unfold State.restamp
  split
  next g _ => exact ⟨s.groups.put gid { g with stamp := s.nextId }, s.nextId + 1, rfl⟩
  next => exact .refl s

/-- A fold of what changes groups alone. -/
theorem onlyGroups_foldl {β : Type} (l : List β) (step : State → β → State) (h : ∀ t b, State.OnlyGroups t (step t b)) (s : State) :
    s.OnlyGroups (l.foldl step s) :=
  List.foldlRecOn l step (.refl s) fun t ht b _ => ht.trans (h t b)

/-- A change of queues touches groups, launches and the counter of stamps (R195, R196). -/
theorem requeued_keeps (old s : State) :
    ∃ gs ls n, State.requeued old s = { s with groups := gs, launches := ls, nextId := n } := by
  unfold State.requeued
  simp only
  generalize (List.foldr insertGroup [] _) = moved
  have hmoved : s.OnlyGroups (moved.foldl (fun s e => s.restamp e.1) s) :=
    onlyGroups_foldl moved _ (fun t e => onlyGroups_restamp t e.1) s
  generalize moved.foldl (fun s e => s.restamp e.1) s = t at hmoved ⊢
  generalize hheads : List.foldl _ t (List.range 32) = u
  have hu : s.OnlyGroups u := by
    rw [← hheads]
    refine hmoved.trans (onlyGroups_foldl _ _ (fun t d => ?_) t)
    split
    · exact .refl t
    · exact iteInduction (fun _ => .refl t) fun _ => onlyGroups_setGroup t _ _
  obtain ⟨gs, n, rfl⟩ := hu
  exact ⟨gs, _, n, rfl⟩

/-- The firmware that does not service a trap ends the launch; no fibre changes (R235). -/
theorem unserved_fibres (s : State) (lid : Nat) : (s.unserved lid).fibres = s.fibres := by
  unfold State.unserved
  dsimp only
  split
  · rfl
  · obtain ⟨gs, ls, n, h⟩ := requeued_keeps s { s with
      tick := s.tick + 1, launches := s.launches.modify lid (fun l => { l with cancel := some (l.cancel.getD false), joining := [] }) }
    rw [h]

/-! ### Entering the handler -/

/-- The fibre that has entered its handler with no region kept (R236). -/
theorem enterTrap_fibre? {s : State} {fid seq : Nat} {f : Fibre} {c : Cause} {tblock taddr : Word} {tidx : Nat}
    {rf resume keep : Bool} (hf : s.fibre? fid = some f) (hrgn : f.rgn = none) (hkept : f.rgnKept = none) :
    (s.enterTrap fid seq c tblock tidx taddr rf resume keep).fibre? fid
      = some ((f.squashFrom seq).takeTrap c tblock tidx taddr rf resume) := by
  have hnone : (f.squashFrom seq).rgn = none ∧ (f.squashFrom seq).rgnKept = none := by
    unfold Fibre.squashFrom
    split <;> exact ⟨hrgn, hkept⟩
  have hmod : ((s.squash fid seq 0).modFibre fid (fun f =>
      let f := match f.rgnKept, f.rgn with
        | some (slot, grant, d), _ => { f with rgnKept := some (slot, grant, d + 1) }
        | none, some (slot, grant) => if keep then { f with rgn := none, rgnKept := some (slot, grant, 1) } else f
        | none, none => f
      f.takeTrap c tblock tidx taddr rf resume)).fibre? fid
      = some ((f.squashFrom seq).takeTrap c tblock tidx taddr rf resume) := by
    simp [fibre?_modFibre, squash_fibre?, hf, hnone]
  unfold State.enterTrap
  dsimp only at hmod ⊢
  split
  · split
    · unfold State.fibre? at hmod ⊢
      rw [unserved_fibres]
      exact hmod
    · exact hmod
  · exact hmod

theorem Fibre.squashFrom_regs (f : Fibre) (seq : Nat) : (f.squashFrom seq).level = f.level ∧ (f.squashFrom seq).g = f.g
    ∧ (f.squashFrom seq).v = f.v ∧ (f.squashFrom seq).vtag = f.vtag ∧ (f.squashFrom seq).rgnh = f.rgnh
    ∧ (f.squashFrom seq).fcsr = f.fcsr ∧ (f.squashFrom seq).held = f.held ∧ (f.squashFrom seq).rgnKept = f.rgnKept := by
  unfold Fibre.squashFrom
  split <;> exact ⟨rfl, rfl, rfl, rfl, rfl, rfl, rfl, rfl⟩

theorem Fibre.bank_squashFrom (f : Fibre) (seq : Nat) (h : Level) : (f.squashFrom seq).bank h = f.bank h := by
  unfold Fibre.squashFrom
  split <;> cases h <;> rfl

theorem handlerLevel_squashFrom (f : Fibre) (seq : Nat) (c : Cause) : handlerLevel (f.squashFrom seq) c = handlerLevel f c := by
  unfold Fibre.squashFrom
  split <;> rfl

theorem setFld_zero_getLsbD (w : Word) : (setFld w 0 1 (BitVec.ofBool false)).getLsbD 0 = false := by
  simp [setFld]

/-- R236: the fibre whose oldest block has trapped outside regions. -/
def Fibre.Handles (f f' : Fibre) (fr : Frame) (r : Recorded) (taddr : Word) : Prop :=
  f'.level = handlerLevel f r.cause ∧ f'.next = some (f.bank (handlerLevel f r.cause)).tvec ∧ f'.park = .none
    ∧ f'.bank (handlerLevel f r.cause) = { f.bank (handlerLevel f r.cause) with
        tcause := BitVec.ofNat 64 r.cause.code, tblock := fr.addr, tidx := BitVec.ofNat 64 r.idx
        taddr := taddr, tstat := BitVec.ofNat 64 f.level.code }
    ∧ (∀ h, h ≠ handlerLevel f r.cause → f'.bank h = f.bank h)
    ∧ f'.g = f.g ∧ f'.v = f.v ∧ f'.vtag = f.vtag ∧ f'.rgnh.getLsbD 0 = false ∧ (∀ x ∈ f'.frames, x.seq < fr.seq)

theorem handles_takeTrap (f : Fibre) (fr : Frame) (r : Recorded) (taddr : Word) :
    f.Handles ((f.squashFrom fr.seq).takeTrap r.cause fr.addr r.idx taddr false false) fr r taddr := by
  obtain ⟨hlevel, hg, hv, hvtag, -⟩ := f.squashFrom_regs fr.seq
  have hh := handlerLevel_squashFrom f fr.seq r.cause
  have hsame := (f.squashFrom fr.seq).bank_takeTrap_same r.cause fr.addr r.idx taddr false false
  have hother := fun h => (f.squashFrom fr.seq).bank_takeTrap_other r.cause fr.addr r.idx taddr false false (h := h)
  obtain ⟨tg, tv, tvtag, tframes⟩ := (f.squashFrom fr.seq).takeTrap_regs r.cause fr.addr r.idx taddr false false
  simp only [hh, hlevel, f.bank_squashFrom, Bool.false_eq_true, if_false, Nat.add_zero] at hsame hother
  refine ⟨hh, ?_, rfl, hsame, hother, tg.trans hg, tv.trans hv, tvtag.trans hvtag, setFld_zero_getLsbD _, ?_⟩
  · simp only [Fibre.takeTrap, hh, f.bank_squashFrom]
  · rw [tframes]
    exact squashFrom_below

/-- The oldest block of a running group, settled with a report outside regions, makes its fibre trap (R25, R236). -/
theorem trapDelivery_handles {s : State} {fid : Nat} {f : Fibre} {fr : Frame} {younger : List Frame} {g : Group} {l : Launch}
    {r : Recorded} (hf : s.fibre? fid = some f) (hframes : f.frames = fr :: younger) (hctx : s.ctxOf f = some (g, l))
    (hrun : g.state = .running) (hwait : fr.waiting = false) (hfaults : fr.faults ≠ []) (hsettled : s.settled f fid fr = true)
    (hreport : fr.report = some r) (hrgn : f.rgn = none) (hkept : f.rgnKept = none) :
    ∃ t f', exec (.trapDelivery fid) s = .next t ∧ t.fibre? fid = some f' ∧ f.Handles f' fr r (s.taddrOf fr r) := by
  have hfetched : fr.fetched = true := by
    simp only [State.settled, Bool.and_eq_true] at hsettled
    exact hsettled.1.1
  have hgo : exec (.trapDelivery fid) s = .next (s.trapNow fid fr r false false) := by
    simp [execTrapDelivery, hf, hframes, hctx, hrun, hwait, hfaults, hsettled, hfetched, Frame.trapFault, hreport, hrgn,
      hkept]
  exact ⟨_, _, hgo, enterTrap_fibre? (s := { s with tick := s.tick + 1 }) hf hrgn hkept, handles_takeTrap f fr r _⟩

/-- Settles O38. -/
theorem trapEntersTheHandler : Obligations.TrapEntersTheHandler := by
  refine ⟨fun s fid f fr younger g l r hf hframes hctx hrun hwait hfaults hsettled hreport hrgn hkept => ?_,
    fun f c hvec => ⟨handlerLevel_m, fun _ => handlerLevel_undelegated, handlerLevel_s, handlerLevel_a, handlerLevel_bounds hvec⟩⟩
  exact trapDelivery_handles hf hframes hctx hrun hwait hfaults hsettled hreport hrgn hkept

/-! ### The return from a trap (R238) -/

/-- Settles O39. -/
theorem returnRestoresLevelAndBlock : Obligations.ReturnRestoresLevelAndBlock := by
  intro s fid seq f hf hheld hkept
  obtain ⟨hlevel, hg, hv, hvtag, -, hfcsr, hheld', hkept'⟩ := f.squashFrom_regs (seq + 1)
  set f0 := f.squashFrom (seq + 1) with hf0
  have hback : (s.doSret fid seq).fibre? fid = some f0.returnFrom := by
    have hsq : (s.squash fid (seq + 1) 0).fibre? fid = some f0 := by simp [squash_fibre?, hf, ← hf0]
    unfold State.doSret
    simp only [hsq, hheld', hheld, hkept', hkept, fibre?_setFibre_same]
  have hbank : ∀ h, f0.bank h = f.bank h := f.bank_squashFrom (seq + 1)
  have hsame := f0.bank_setBank_same f0.level { f0.bank f0.level with tstat := setFld (f0.bank f0.level).tstat 2 1 0 }
  refine ⟨_, hback, ?_, ?_, ?_, fun h hne => ?_, ?_⟩
  · simp only [Fibre.returnFrom, hbank, hlevel]
  · simp only [Fibre.returnFrom, hbank, hlevel]
  · rw [hlevel] at hsame
    rw [hbank] at hsame
    unfold Fibre.returnFrom
    rw [hlevel, hbank]
    exact hsame
  · rw [← hbank h]
    exact f0.bank_setBank_other _ (hlevel ▸ hne)
  · have hregs : f0.returnFrom.g = f0.g ∧ f0.returnFrom.v = f0.v ∧ f0.returnFrom.vtag = f0.vtag
        ∧ f0.returnFrom.fcsr = f0.fcsr := by
      unfold Fibre.returnFrom
      cases f0.level <;> exact ⟨rfl, rfl, rfl, rfl⟩
    obtain ⟨rg, rv, rvtag, rfcsr⟩ := hregs
    exact ⟨rg.trans hg, rv.trans hv, rvtag.trans hvtag, rfcsr.trans hfcsr⟩

/-! ### What acts at commit -/

/-- No fired instruction of the block satisfies `p`. -/
def Frame.Alone (fr : Frame) (p : Instr → Bool) : Prop := ∀ k ∈ fr.fired, ((fr.instr k).map p).getD false = false

/-- The lowest fired instruction of the block that satisfies `p` is that at `j`. -/
def Frame.First (fr : Frame) (p : Instr → Bool) (j : Nat) : Prop :=
  j ∈ fr.fired ∧ ((fr.instr j).map p).getD false = true ∧ ∀ k ∈ fr.fired, ((fr.instr k).map p).getD false = true → j ≤ k

section Late
variable {s : State} {i : Instr} {a : Acting} {p : Instr → Bool}

theorem fireLate_alone (h : Fires s i a) (halone : a.fr.Alone p) : fireLate i p s = .next (a.commit s (a.fr.fire a.k)) := by
  obtain ⟨hact, hcan⟩ := h
  have hnil : a.fr.fired.filter (fun k => ((a.fr.instr k).map p).getD false) = [] :=
    List.filter_eq_nil_iff.mpr fun k hk => by simp [halone k hk]
  simp [fireLate, hact, hcan, hnil]

theorem fireLate_clash {j : Nat} (h : Fires s i a) (hfirst : a.fr.First p j) :
    fireLate i p s = .next (a.commit s ((a.fr.fire a.k).fault (max a.k j) .blkFmt 0 .afterFetch)) := by
  obtain ⟨hact, hcan⟩ := h
  obtain ⟨hj, hp, hmin⟩ := hfirst
  have hmem : j ∈ a.fr.fired.filter (fun k => ((a.fr.instr k).map p).getD false) := List.mem_filter.mpr ⟨hj, hp⟩
  have hne : (a.fr.fired.filter (fun k => ((a.fr.instr k).map p).getD false)).isEmpty = false :=
    List.isEmpty_eq_false_iff.mpr (List.ne_nil_of_mem hmem)
  have hpair : pairAt a.k (a.fr.fired.filter (fun k => ((a.fr.instr k).map p).getD false)) = max a.k j :=
    pairAt_eq hmem fun x hx => hmin x (List.mem_filter.mp hx).1 (List.mem_filter.mp hx).2
  simp only [fireLate, hact, hcan, if_true, hne, Bool.false_eq_true, if_false, hpair]

theorem ctxOf_commit (hact : s.acting i = some a) (fr : Frame) : (a.commit s fr).ctxOf (a.f.setFrame fr) = s.ctxOf a.f := by
  obtain ⟨hf, -, -, -⟩ := acting_spec hact
  simp only [Acting.commit, State.setFrame, State.modFibre, hf]
  rfl

/-- The oldest block of a fibre that has been put back stands first. -/
theorem setFrame_frames_of_isOldest {f : Fibre} {fr : Frame} (h : f.isOldest fr.seq = true) :
    ∃ rest, (f.setFrame fr).frames = fr :: rest := by
  unfold Fibre.isOldest at h
  split at h
  next x rest hx =>
    refine ⟨rest.map (fun x => if x.seq = fr.seq then fr else x), ?_⟩
    simp only [Fibre.setFrame, hx, List.map_cons, if_pos (beq_iff_eq.mp h)]
  next => cases h

/-- The check of `rgn.beg` in the oldest block, put back as `fr`. -/
theorem checkBeg_commit {fr : Frame} {g : Group} {l : Launch} (hact : s.acting i = some a) (hseq : fr.seq = a.fr.seq)
    (hold : a.f.isOldest a.fr.seq = true) (hctx : s.ctxOf a.f = some (g, l)) :
    (a.commit s fr).checkBeg a.fid = (match a.f.begFault fr l with
      | some (k, c) => a.commit s (fr.fault k c 0 .firing)
      | none => a.commit s fr) := by
  obtain ⟨rest, hframes⟩ := setFrame_frames_of_isOldest (hseq ▸ hold)
  have hctx' : (a.commit s fr).ctxOf (a.f.setFrame fr) = some (g, l) := (ctxOf_commit hact fr).trans hctx
  have hsame : (a.f.setFrame fr).begFault fr l = a.f.begFault fr l := rfl
  simp only [State.checkBeg, fibre?_commit hact, hframes, hctx', hsame]
  cases a.f.begFault fr l with
  | none => rfl
  | some e => exact setFrame_setFrame rfl

/-- A `rgn.beg` that has fired fires as what acts at commit, and is checked when its block is the oldest (R178). -/
theorem exec_rgnBeg_of_late {pr : Pred} {reg : BitVec 6} {off : BitVec 23} {t : State} (h : Fires s (.rgnBeg pr reg off) a)
    (hlate : fireLate (.rgnBeg pr reg off) (fun i => isRgnBeg i || isRgnEnd i || isSret i) s = .next t) :
    exec (.rgnBeg pr reg off) s = .next (if a.f.isOldest a.fr.seq then t.checkBeg a.fid else t) := by
  obtain ⟨hact, hcan⟩ := h
  rw [exec_rgnBeg, execRgnBeg, hlate]
  simp only [hact, hcan, Bool.true_and]
  split <;> rfl

/-- The lowest fired instruction that satisfies `p`, sought among all indices. -/
theorem Frame.firedAt_eq {fr : Frame} {b : Nat} (hlt : b < fr.words.length) (hb : b ∈ fr.fired)
    (hp : (fr.instr b).map p = some true) (hmin : ∀ x ∈ fr.fired, (fr.instr x).map p = some true → b ≤ x) :
    fr.firedAt p = some b := by
  unfold Frame.firedAt Frame.indices
  rw [List.find?_range_eq_some]
  refine ⟨by simp [hb, hp], List.mem_range.mpr hlt, fun j hj => ?_⟩
  by_contra hcon
  simp only [Bool.not_eq_true', Bool.not_eq_false, Bool.and_eq_true, List.contains_eq_mem, decide_eq_true_eq] at hcon
  obtain ⟨hfired, hpj⟩ := hcon
  have hsome : (fr.instr j).map p = some true := by
    cases hi : (fr.instr j).map p <;> simp_all
  exact absurd (hmin j hfired hsome) (by omega)

/-- What a fibre asks of its oldest block's `rgn.beg`: that no region is open, and that regions are declared (R178). -/
theorem begFault_none {f : Fibre} {fr : Frame} {l : Launch}
    (hnests : ¬(f.rgnKept ≠ none ∨ (f.rgn ≠ none ∧ f.answer = none)))
    (hdecl : ¬(f.rgnKept = none ∧ f.rgn = none ∧ l.regions = false)) : f.begFault fr l = none := by
  unfold Fibre.begFault
  cases hk : f.rgnKept <;> cases hr : f.rgn <;> cases ha : f.answer <;> cases hl : l.regions <;>
    simp_all <;> split <;> rfl

theorem begFault_some {f : Fibre} {fr : Frame} {l : Launch} {c : Cause} {b : Nat} (hat : fr.firedAt isRgnBeg = some b)
    (hc : (c = .rgnNest ∧ (f.rgnKept ≠ none ∨ (f.rgn ≠ none ∧ f.answer = none)))
      ∨ (c = .ill ∧ f.rgnKept = none ∧ f.rgn = none ∧ l.regions = false)) : f.begFault fr l = some (b, c) := by
  unfold Fibre.begFault
  rw [hat]
  obtain ⟨rfl, hnests⟩ | ⟨rfl, hk, hr, hl⟩ := hc
  · have hopen : (f.rgnKept.isSome || (f.rgn.isSome && f.answer.isNone)) = true := by
      simpa [Option.isSome_iff_ne_none] using hnests
    exact if_pos hopen
  · simp [hk, hr, hl]

end Late

/-! ### Deliberate traps (R64) -/

theorem deliberate_fires {s : State} {i : Instr} {a : Acting} {c : Cause} (h : Fires s i a) :
    deliberate i c s = .next (a.commit s ((a.fr.fire a.k).fault a.k c 0 .firing)) := by
  obtain ⟨hact, hcan⟩ := h
  simp [deliberate, hact, hcan]

/-- The next delivery after a deliberate trap of the oldest block takes the fibre to its handler. -/
theorem deliberate_handled {s : State} {i : Instr} {a : Acting} {c : Cause} {younger : List Frame} {g : Group} {l : Launch}
    {w : Word} (hact : s.acting i = some a) (hc : c = .scall ∨ c = .trap ∨ c = .brk) (hframes : a.f.frames = a.fr :: younger)
    (hctx : s.ctxOf a.f = some (g, l)) (hrun : g.state = .running) (hwait : a.fr.waiting = false) (hclean : a.fr.faults = [])
    (hrgn : a.f.rgn = none) (hkept : a.f.rgnKept = none) (htarget : a.fr.target = some w)
    (hsettled : (a.commit s ((a.fr.fire a.k).fault a.k c 0 .firing)).settled
      (a.f.setFrame ((a.fr.fire a.k).fault a.k c 0 .firing)) a.fid ((a.fr.fire a.k).fault a.k c 0 .firing) = true) :
    ∃ v f, exec (.trapDelivery a.fid) (a.commit s ((a.fr.fire a.k).fault a.k c 0 .firing)) = .next v
      ∧ v.fibre? a.fid = some f ∧ a.f.Handles f a.fr { idx := a.k, cause := c, taddr := 0, src := .firing } w := by
  set fr := (a.fr.fire a.k).fault a.k c 0 .firing with hfr
  have hfaults : fr.faults = [{ idx := a.k, cause := c, taddr := 0, src := .firing }] := by simp [hfr, hclean]
  have hfr' : (a.f.setFrame fr).frames = fr :: younger.map (fun x => if x.seq = fr.seq then fr else x) := by
    simp [Fibre.setFrame, hframes, hfr]
  have htaddr : (a.commit s fr).taddrOf fr { idx := a.k, cause := c, taddr := 0, src := .firing } = w := by
    have : fr.target = some w := htarget
    obtain rfl | rfl | rfl := hc <;> simp [State.taddrOf, this]
  obtain ⟨v, f, hgo, hv, hhandles⟩ := trapDelivery_handles (fibre?_commit hact) hfr' ((ctxOf_commit hact fr).trans hctx) hrun hwait
    (by simp [hfaults]) hsettled (r := { idx := a.k, cause := c, taddr := 0, src := .firing })
    (by simp [Frame.report, hfaults]) hrgn hkept
  rw [htaddr] at hhandles
  exact ⟨v, f, hgo, hv, hhandles⟩

/-- Settles O25. -/
theorem trapsAndBoundariesWaitForTheCommit : Obligations.TrapsAndBoundariesWaitForTheCommit := by
  refine ⟨?traps, ?late⟩
  case traps =>
    intro s a pr code x hx hfires fr
    have hkind : (∀ s, exec x.1 s = deliberate x.1 x.2 s) ∧ (x.2 = .scall ∨ x.2 = .trap ∨ x.2 = .brk) := by
      simp only [List.mem_cons, List.not_mem_nil, or_false] at hx
      obtain rfl | rfl | rfl := hx <;> exact ⟨fun _ => rfl, by simp⟩
    obtain ⟨he, hc⟩ := hkind
    refine ⟨(he s).trans (deliberate_fires hfires), ?_⟩
    intro younger g l w hframes hctx hrun hwait hclean hrgn hkept htarget hsettled h
    obtain ⟨v, f, hgo, hv, hlevel, hnext, -, hbank, -, -, -, -, -, hbelow⟩ := deliberate_handled hfires.1 hc hframes hctx hrun hwait
      hclean hrgn hkept htarget hsettled
    exact ⟨v, f, f.bank h, hgo, hv, rfl, hlevel, hnext, congrArg Bank.tcause hbank, congrArg Bank.tblock hbank,
      congrArg Bank.tidx hbank, congrArg Bank.taddr hbank, congrArg Bank.tstat hbank, hbelow⟩
  case late =>
    intro s a pr reg off fr fired alone first clash fault beg boundary
    refine ⟨?beg, fun h => ⟨fun ha => fireLate_alone h ha, fun j hj => fireLate_clash h hj⟩,
      fun h => fireLate_alone h fun _ _ => by cases (a.fr.instr _) <;> rfl,
      fun h => fireLate_alone h fun _ _ => by cases (a.fr.instr _) <;> rfl, ?sret⟩
    case beg =>
      intro g l h hctx nests undeclared
      refine ⟨fun hquiet => ?quiet, fun hold c hc => ?faulty⟩
      case quiet =>
        have hpass : ∀ x : Frame, x.seq = a.fr.seq →
            fireLate beg boundary s = .next (a.commit s x) → exec beg s = .next (a.commit s x) := by
          intro x hseq hlate
          rw [exec_rgnBeg_of_late h hlate]
          split
          next hold =>
            obtain hyoung | ⟨hnests, hdecl⟩ := hquiet
            · simp [hyoung] at hold
            · rw [checkBeg_commit h.1 hseq hold hctx, begFault_none hnests hdecl]
          next => rfl
        exact ⟨fun ha => hpass _ rfl (fireLate_alone h ha), fun j hj => hpass _ rfl (fireLate_clash h hj)⟩
      case faulty =>
        have hk : (a.fr.instr a.k).map isRgnBeg = some true := by
          obtain ⟨-, -, -, hinstr⟩ := acting_spec h.1
          rw [hinstr]
          rfl
        have hlt : ∀ b, (a.fr.instr b).map isRgnBeg = some true → b < a.fr.words.length := by
          intro b hb
          obtain ⟨i, hi, -⟩ := Option.map_eq_some_iff.mp hb
          exact lt_length_of_instr hi
        have hrecord : ∀ (x : Frame) (b : Nat), x.seq = a.fr.seq → x.firedAt isRgnBeg = some b →
            fireLate beg boundary s = .next (a.commit s x) → exec beg s = .next (a.commit s (x.fault b c 0 .firing)) := by
          intro x b hseq hat hlate
          rw [exec_rgnBeg_of_late h hlate, if_pos hold, checkBeg_commit h.1 hseq hold hctx, begFault_some hat hc]
        refine ⟨fun ha => hrecord _ a.k rfl ?_ (fireLate_alone h ha), fun j b hj hb hle hmin =>
          hrecord _ b rfl ?_ (fireLate_clash h hj)⟩
        · refine Frame.firedAt_eq (hlt _ hk) (List.mem_append_right _ (List.mem_singleton.mpr rfl)) hk fun x hx hbeg => ?_
          obtain hx | rfl := List.mem_append.mp hx |>.imp_right List.mem_singleton.mp
          · have := ha x hx
            have hbeg : (a.fr.instr x).map isRgnBeg = some true := hbeg
            obtain ⟨i, hi, hbi⟩ := Option.map_eq_some_iff.mp hbeg
            simp [hi, boundary, hbi] at this
          · exact le_rfl
        · have hbegin : (a.fr.instr b).map isRgnBeg = some true := hb.elim (fun h => h ▸ hk) (·.2)
          refine Frame.firedAt_eq (hlt b hbegin) ?_ hbegin fun x hx hbeg => ?_
          · exact List.mem_append.mpr (hb.elim (fun h => .inr (List.mem_singleton.mpr h)) fun h => .inl h.1)
          · obtain hx | rfl := List.mem_append.mp hx |>.imp_right List.mem_singleton.mp
            · exact hmin x hx hbeg
            · exact hle
    case sret =>
      intro h pl other
      obtain ⟨hact, hcan⟩ := id h
      have hgo : exec (.sret pr) s = if nfld (a.f.bank a.f.level).tstat 0 2 = 2 then fault .ill |> Host.Outcome.next
          else if sretFault a.f then Host.Outcome.next (fault .priv) else fireLate (.sret pr) other s := by
        simp only [exec_sret, execSret, hact, hcan, if_true]
        rfl
      have hfault : sretFault a.f = true ↔ a.f.level = .a ∧ pl ≠ 0 := by
        unfold sretFault
        constructor
        · intro hs
          simp only [Bool.and_eq_true, beq_iff_eq, bne_iff_ne] at hs
          refine ⟨hs.1, ?_⟩
          change nfld (a.f.bank a.f.level).tstat 0 2 ≠ 0
          rw [hs.1]
          exact hs.2
        · rintro ⟨hl, hp⟩
          have hbank : nfld a.f.bankA.tstat 0 2 ≠ 0 := by
            have hp' : nfld (a.f.bank a.f.level).tstat 0 2 ≠ 0 := hp
            rw [hl] at hp'
            exact hp'
          simpa [hl] using hbank
      have hlate : pl ≠ 2 → (a.f.level ≠ .a ∨ pl = 0) → exec (.sret pr) s = fireLate (.sret pr) other s := by
        intro hne hlev
        have hno : ¬sretFault a.f = true := fun hs => hlev.elim (fun hl => hl (hfault.mp hs).1) (hfault.mp hs).2
        rw [hgo, if_neg hne, if_neg hno]
      refine ⟨fun h2 => ?_, fun hne hl => ?_, fun hne hlev ha => ?_, fun j hne hlev hj => ?_⟩
      · rw [hgo, if_pos h2]
      · rw [hgo, if_neg hne, if_pos (hfault.mpr hl)]
      · exact (hlate hne hlev).trans (fireLate_alone h ha)
      · exact (hlate hne hlev).trans (fireLate_clash h hj)

end Sys2Proof.Machine
end

section
/-! PROOFS. Registers that stay, the grant of a frame and the fetch of a block (R15 to R17, R29). -/

namespace Sys2Proof.Machine

/-! ### Registers that stay -/

theorem Fibre.SameRegs.refl (f : Fibre) : f.SameRegs f := by simp [Fibre.SameRegs]

theorem Fibre.SameRegs.trans {f f' f'' : Fibre} (h : f.SameRegs f') (k : f'.SameRegs f'') : f.SameRegs f'' := by
  simp only [Fibre.SameRegs] at *
  simp only [k, h, and_self]

/-- What `State.SameRegs` says of each number. -/
theorem State.sameRegs_iff {s t : State} : s.SameRegs t ↔
    ∀ fid, (s.fibre? fid = none ∧ t.fibre? fid = none)
      ∨ ∃ f f', s.fibre? fid = some f ∧ t.fibre? fid = some f' ∧ f.SameRegs f' := by
  refine forall_congr' fun fid => ?_
  cases s.fibre? fid <;> cases t.fibre? fid <;> simp

theorem State.SameRegs.of_fibres {s t : State} (h : t.fibres = s.fibres) : s.SameRegs t := by
  refine State.sameRegs_iff.mpr fun fid => ?_
  have hsame : t.fibre? fid = s.fibre? fid := congrArg (·.get? fid) h
  cases hf : s.fibre? fid with
  | none => exact .inl ⟨rfl, hsame.trans hf⟩
  | some f => exact .inr ⟨f, f, rfl, hsame.trans hf, .refl f⟩

theorem State.SameRegs.refl (s : State) : s.SameRegs s := .of_fibres rfl

theorem State.SameRegs.trans {s t u : State} (h : s.SameRegs t) (k : t.SameRegs u) : s.SameRegs u := by
  refine State.sameRegs_iff.mpr fun fid => ?_
  obtain ⟨hs, ht⟩ | ⟨f, f', hs, ht, hff⟩ := State.sameRegs_iff.mp h fid <;>
    obtain ⟨kt, ku⟩ | ⟨g, g', kt, ku, hgg⟩ := State.sameRegs_iff.mp k fid
  · exact .inl ⟨hs, ku⟩
  · simp [ht] at kt
  · simp [ht] at kt
  · obtain rfl : f' = g := by simpa [ht] using kt
    exact .inr ⟨f, g', hs, ku, hff.trans hgg⟩

theorem sameRegs_setFibre {s : State} {fid : Nat} {f f' : Fibre} (hf : s.fibre? fid = some f) (h : f.SameRegs f') :
    s.SameRegs (s.setFibre fid f') := by
  refine State.sameRegs_iff.mpr fun n => ?_
  by_cases hn : n = fid
  · subst hn
    exact .inr ⟨f, f', hf, fibre?_setFibre_same s n f', h⟩
  · rw [fibre?_setFibre_other s fid n f' hn]
    cases hs : s.fibre? n with
    | none => exact .inl ⟨rfl, rfl⟩
    | some x => exact .inr ⟨x, x, rfl, rfl, .refl x⟩

theorem sameRegs_modFibre {s : State} {fid : Nat} {g : Fibre → Fibre} (h : ∀ f, Fibre.SameRegs f (g f)) :
    s.SameRegs (s.modFibre fid g) := by
  unfold State.modFibre
  split
  next f hf => exact sameRegs_setFibre hf (h f)
  next => exact .refl s

theorem Fibre.sameRegs_setFrame (f : Fibre) (fr : Frame) : f.SameRegs (f.setFrame fr) := by simp [Fibre.SameRegs]

theorem sameRegs_setFrame (s : State) (fid : Nat) (fr : Frame) : s.SameRegs (s.setFrame fid fr) :=
  sameRegs_modFibre fun f => f.sameRegs_setFrame fr

theorem Fibre.sameRegs_squashFrom (f : Fibre) (seq : Nat) : f.SameRegs (f.squashFrom seq) := by
  unfold Fibre.squashFrom
  split <;> simp [Fibre.SameRegs, Fibre.leavePath]

theorem sameRegs_squash (s : State) (fid seq src : Nat) : s.SameRegs (s.squash fid seq src) := by
  refine State.sameRegs_iff.mpr fun n => ?_
  rw [squash_fibre?]
  by_cases hn : n = fid
  · subst hn
    cases hf : s.fibre? n with
    | none => exact .inl ⟨rfl, by simp⟩
    | some f => exact .inr ⟨f, f.squashFrom seq, rfl, by simp, f.sameRegs_squashFrom seq⟩
  · simp only [hn, if_false]
    cases hf : s.fibre? n with
    | none => exact .inl ⟨rfl, rfl⟩
    | some f => exact .inr ⟨f, f, rfl, rfl, .refl f⟩

theorem sameRegs_parkAt (s : State) (fid seq : Nat) (addr : Word) (p : Park) : s.SameRegs (s.parkAt fid seq addr p) :=
  (sameRegs_squash s fid seq 0).trans (sameRegs_modFibre fun f => by simp [Fibre.SameRegs])

/-- A fold of what keeps registers. -/
theorem sameRegs_foldl {β : Type} (l : List β) (step : State → β → State) (h : ∀ t b, State.SameRegs t (step t b))
    (s : State) : s.SameRegs (l.foldl step s) :=
  List.foldlRecOn l step (.refl s) fun t ht b _ => ht.trans (h t b)

/-! ### The grant of a frame (R29) -/

/-- The grant takes one of the fibres that may be granted the frame, and none of them comes earlier in the rotation. -/
theorem granted_spec {s : State} {cell fid : Nat} {f : Fibre} (h : s.granted cell = some (fid, f)) :
    ∀ e ∈ s.grantable cell, rotation (s.cell cell).last f.idx ≤ rotation (s.cell cell).last e.2.idx := by
  unfold State.granted at h
  generalize s.grantable cell = l at h ⊢
  let pick := fun (best : Option (Nat × Fibre)) (e : Nat × Fibre) =>
    match best with
    | none => some e
    | some b => if rotation (s.cell cell).last e.2.idx < rotation (s.cell cell).last b.2.idx then some e else best
  have key : ∀ (l : List (Nat × Fibre)) (best : Option (Nat × Fibre)) (p : Nat × Fibre), l.foldl pick best = some p →
      (∀ b, best = some b → rotation (s.cell cell).last p.2.idx ≤ rotation (s.cell cell).last b.2.idx)
      ∧ ∀ e ∈ l, rotation (s.cell cell).last p.2.idx ≤ rotation (s.cell cell).last e.2.idx := by
    intro l
    induction l with
    | nil =>
      intro best p hp
      exact ⟨fun b hb => by rw [show best = some p from hp] at hb; cases hb; exact le_rfl, by simp⟩
    | cons x l ih =>
      intro best p hp
      obtain ⟨hbest, hrest⟩ := ih (pick best x) p hp
      cases best with
      | none => exact ⟨by simp, List.forall_mem_cons.mpr ⟨hbest x rfl, hrest⟩⟩
      | some b =>
        by_cases hlt : rotation (s.cell cell).last x.2.idx < rotation (s.cell cell).last b.2.idx
        · have hx := hbest x (if_pos hlt)
          refine ⟨fun c hc => ?_, List.forall_mem_cons.mpr ⟨hx, hrest⟩⟩
          cases hc
          omega
        · have hb := hbest b (if_neg hlt)
          refine ⟨fun c hc => ?_, List.forall_mem_cons.mpr ⟨by omega, hrest⟩⟩
          cases hc
          exact hb
  exact (key l none (fid, f) h).2

/-- Counting an event of a cell leaves what the cell holds beside its counters. -/
theorem countCell_cell (c src n : Nat) (s : State) (x : Nat) :
    ∃ v, (countCell c src n s).cell x = { s.cell x with evcnt := v } := by
  unfold countCell
  simp only
  split
  · exact ⟨_, rfl⟩
  · by_cases hx : x = c
    · subst hx
      exact ⟨_, by simp only [State.cell, State.setCell, Dict.getD_put_same]; rfl⟩
    · exact ⟨(s.cell x).evcnt, by simp only [State.cell, State.setCell, Dict.getD_put_other _ _ _ _ _ hx]⟩

theorem Fibre.sameRegs_seesGrant (f : Fibre) (fid : Nat) : f.SameRegs (f.seesGrant fid) := by
  unfold Fibre.seesGrant
  split <;> simp [Fibre.SameRegs]

/-- Telling fibres of a grant changes fibres alone (R212). -/
theorem foldl_modFibre_keeps (l : List Nat) (g : Fibre → Fibre) (s : State) :
    ∃ fs, l.foldl (fun s o => s.modFibre o g) s = { s with fibres := fs } := by
  refine List.foldlRecOn (motive := fun (t : State) => ∃ fs : Dict Fibre, t = { s with fibres := fs }) l _
    ⟨s.fibres, rfl⟩ ?_
  rintro _ ⟨fs, rfl⟩ o -
  unfold State.modFibre
  split
  · exact ⟨_, rfl⟩
  · exact ⟨fs, rfl⟩

theorem foldl_modFibre_fibre? {l : List Nat} {g : Fibre → Fibre} {s : State} {fid : Nat} (h : fid ∉ l) :
    (l.foldl (fun s o => s.modFibre o g) s).fibre? fid = s.fibre? fid := by
  induction l generalizing s with
  | nil => rfl
  | cons o l ih =>
    rw [List.foldl_cons, ih fun hm => h (List.mem_cons_of_mem _ hm), fibre?_modFibre,
      if_neg fun (he : fid = o) => h (he ▸ List.mem_cons_self)]

/-- The frame that a fibre is granted stands behind its others (R29). -/
def Fibre.getsFrame (f : Fibre) : Fibre :=
  { f with frames := f.frames ++ [Frame.fresh f.nextSeq (f.next.getD 0)], nextSeq := f.nextSeq + 1, next := none
           park := .none, fetchHold := none }

theorem frameGrant_grants {s : State} {cell fid : Nat} {f : Fibre} (hfree : s.framesIn cell < 16)
    (hgrant : s.granted cell = some (fid, f)) (hf : s.fibre? fid = some f) :
    ∃ t, exec (.frameGrant cell) s = .next t ∧ t.fibre? fid = some f.getsFrame ∧ (t.cell cell).last = f.idx
      ∧ s.SameRegs t ∧ s.SameBytes t := by
  have hgo : exec (.frameGrant cell) s = execFrameGrant cell s := rfl
  unfold execFrameGrant at hgo
  rw [if_neg (by omega), hgrant] at hgo
  obtain ⟨cs, hcs⟩ := countCell_keeps cell 6 1 (s.setCell cell { s.cell cell with last := f.idx })
  obtain ⟨v, hlast⟩ := countCell_cell cell 6 1 (s.setCell cell { s.cell cell with last := f.idx }) cell
  set u := countCell cell 6 1 (s.setCell cell { s.cell cell with last := f.idx }) with hu
  simp only [← hu] at hgo
  generalize hothers : ((u.residents cell).filter (fun e => e.1 != fid)).map Prod.fst = others at hgo
  have hnot : fid ∉ others := by
    rw [← hothers]
    simp
  obtain ⟨fs, hfs⟩ := foldl_modFibre_keeps others (fun x => x.seesGrant fid) u
  have hregs : s.SameRegs (others.foldl (fun s o => s.modFibre o (fun x => x.seesGrant fid)) u) :=
    (State.SameRegs.of_fibres (by rw [hcs]; rfl)).trans
      (sameRegs_foldl _ _ (fun t o => sameRegs_modFibre fun x => x.sameRegs_seesGrant fid) u)
  have hfid : (others.foldl (fun s o => s.modFibre o (fun x => x.seesGrant fid)) u).fibre? fid = some f := by
    rw [foldl_modFibre_fibre? hnot, hcs]
    exact hf
  refine ⟨_, hgo, fibre?_setFibre_same _ _ _, ?_, hregs.trans (sameRegs_setFibre hfid (by simp [Fibre.SameRegs])), ?_⟩
  · have hcell : u.cell cell = { (s.setCell cell { s.cell cell with last := f.idx }).cell cell with evcnt := v } := hlast
    rw [hfs]
    change (u.cell cell).last = f.idx
    rw [hcell]
    simp [State.cell, State.setCell]
  · rw [hfs, hcs]
    exact (State.SameStore.mk rfl rfl rfl rfl rfl rfl rfl).sameBytes

/-! ### The fetch of a block (R15, R16, R62) -/

/-- What the header and the words of a block have set stays as it is. -/
structure Frame.SameText (fr fr' : Frame) : Prop where
  seq : fr'.seq = fr.seq
  fetched : fr'.fetched = fr.fetched
  ser : fr'.ser = fr.ser
  dbg : fr'.dbg = fr.dbg
  stmask : fr'.stmask = fr.stmask
  gw : fr'.gw = fr.gw
  vw : fr'.vw = fr.vw
  words : fr'.words = fr.words

theorem Frame.SameText.refl (fr : Frame) : fr.SameText fr := ⟨rfl, rfl, rfl, rfl, rfl, rfl, rfl, rfl⟩

theorem Frame.SameText.trans {x y z : Frame} (h : x.SameText y) (k : y.SameText z) : x.SameText z :=
  ⟨k.seq.trans h.seq, k.fetched.trans h.fetched, k.ser.trans h.ser, k.dbg.trans h.dbg, k.stmask.trans h.stmask,
    k.gw.trans h.gw, k.vw.trans h.vw, k.words.trans h.words⟩

theorem Frame.sameText_send (fr : Frame) (ts : List Target) (tok : Token) : fr.SameText (fr.send ts tok) := by
  obtain ⟨_, _, h⟩ := send_keeps fr ts tok
  rw [h]
  exact ⟨rfl, rfl, rfl, rfl, rfl, rfl, rfl, rfl⟩

theorem Frame.sameText_illSend (fr : Frame) (k : Nat) : fr.SameText (fr.illSend k) := by
  unfold Frame.illSend
  repeat' split
  · exact fr.sameText_send _ _
  · exact .refl fr
  · exact .refl fr

theorem Frame.sameText_takeExit (fr : Frame) (k : Nat) (t : Option Word) (h : Bool) : fr.SameText (fr.takeExit k t h) := by
  unfold Frame.takeExit
  dsimp only
  repeat' split
  all_goals exact ⟨rfl, rfl, rfl, rfl, rfl, rfl, rfl, rfl⟩

theorem Frame.sameText_deliverIll (fr : Frame) (k : Nat) : fr.SameText (fr.deliverIll k) := by
  have hproduce : fr.SameText ((fr.illSend k).illProduce k) :=
    (fr.sameText_illSend k).trans ⟨rfl, rfl, rfl, rfl, rfl, rfl, rfl, rfl⟩
  unfold Frame.deliverIll
  dsimp only
  split
  · exact hproduce.trans (Frame.sameText_takeExit _ _ _ _)
  · exact hproduce.trans ⟨rfl, rfl, rfl, rfl, rfl, rfl, rfl, rfl⟩

theorem Frame.sameText_deliverIlls (fr : Frame) (l : List Nat) : fr.SameText (l.foldl Frame.deliverIll fr) :=
  List.foldlRecOn l Frame.deliverIll (.refl fr) fun y hy k _ => hy.trans (y.sameText_deliverIll k)

theorem fld_one_beq (h n : Nat) (hn : n < 64) : (fld (BitVec.ofNat 64 h) n 1 == 1) = (h / 2 ^ n % 2 == 1) := by
  have hnat : (fld (BitVec.ofNat 64 h) n 1).toNat = h / 2 ^ n % 2 := by
    have := nfld_eq (BitVec.ofNat 64 h) n 1
    rw [nfld] at this
    have hsplit : 2 ^ 64 = 2 ^ n * 2 ^ (64 - n) := by rw [← pow_add, Nat.add_sub_cancel' hn.le]
    rw [this, BitVec.toNat_ofNat, hsplit, Nat.mod_mul_right_div_self, pow_one,
      Nat.mod_mod_of_dvd _ (dvd_pow_self 2 (by omega))]
  rw [Bool.eq_iff_iff, beq_iff_eq, beq_iff_eq, ← hnat, ← BitVec.toNat_inj]
  rfl

/-- What a block has been loaded with (R15, R16). -/
theorem Frame.load_text (fr : Frame) (hdr text : List Byte) : (fr.load hdr text).seq = fr.seq
    ∧ (fr.load hdr text).fetched = true
    ∧ (fr.load hdr text).words = (chunksOf 8 (8 * (leNat hdr % 16 + 1)) text).map leWord
    ∧ (fr.load hdr text).ser = (leNat hdr / 2 ^ 8 % 2 == 1) ∧ (fr.load hdr text).dbg = (leNat hdr / 2 ^ 9 % 2 == 1)
    ∧ (fr.load hdr text).stmask = BitVec.ofNat 32 (leNat hdr / 2 ^ 16)
    ∧ (fr.load hdr text).gw = BitVec.ofNat 64 (leNat hdr / 2 ^ 64)
    ∧ (fr.load hdr text).vw = BitVec.ofNat 32 (leNat hdr / 2 ^ 128) := by
  have hcount : nfld (BitVec.ofNat 64 (leNat hdr)) 0 4 = leNat hdr % 16 := by
    rw [nfld_eq, BitVec.toNat_ofNat]
    omega
  have hmask : fld (BitVec.ofNat 64 (leNat hdr)) 16 32 = BitVec.ofNat 32 (leNat hdr / 2 ^ 16) := by
    refine BitVec.eq_of_toNat_eq ?_
    have := nfld_eq (BitVec.ofNat 64 (leNat hdr)) 16 32
    rw [nfld] at this
    rw [this, BitVec.toNat_ofNat, BitVec.toNat_ofNat]
    omega
  unfold Frame.load
  dsimp only
  refine ⟨?_, ?_, ?_, ?_, ?_, ?_, ?_, ?_⟩
  · rw [(Frame.sameText_deliverIlls _ _).seq]
  · rw [(Frame.sameText_deliverIlls _ _).fetched]
  · rw [(Frame.sameText_deliverIlls _ _).words, hcount]
  · exact (Frame.sameText_deliverIlls _ _).ser.trans (fld_one_beq _ _ (by norm_num))
  · exact (Frame.sameText_deliverIlls _ _).dbg.trans (fld_one_beq _ _ (by norm_num))
  · rw [(Frame.sameText_deliverIlls _ _).stmask, hmask]
  · rw [(Frame.sameText_deliverIlls _ _).gw]
  · rw [(Frame.sameText_deliverIlls _ _).vw]

/-- Settles O36. -/
theorem framesAreGrantedAndBlocksFetched : Obligations.FramesAreGrantedAndBlocksFetched := by
  refine ⟨fun s cell fid f hfree hgrant hf => ⟨frameGrant_grants hfree hgrant hf, granted_spec hgrant⟩, ?fetch⟩
  intro s s1 s2 fid seq f fr c hdr text hf hfr hctx hnew hring hhdr htext loaded guess hname
  obtain rfl : fr.seq = seq := by simpa using List.find?_some hfr
  set fr' : Frame := { loaded with guess := guess.1, popped := guess.2 } with hfr'
  have hgo : exec (.blockFetch fid fr.seq) s
      = .next (s2.setFibre fid { f.setFrame fr' with next := guess.1, ringFault := false }) := by
    have hexec : exec (.blockFetch fid fr.seq) s = execBlockFetch fid fr.seq s := rfl
    rw [hexec, execBlockFetch, hf]
    simp only [hfr, hctx, hnew, hring, hhdr, htext, Bool.false_eq_true, if_false, List.isEmpty_nil, Bool.not_true]
    change (match f.pendingName fr' with
      | some n => Host.Outcome.next (s2.parkAt fid fr.seq fr'.addr (.reg n))
      | none => .next (s2.setFibre fid { f.setFrame fr' with next := guess.1, ringFault := false })) = _
    rw [hname]
  obtain ⟨hseq, hfetched, hwords, hser, hdbg, hst, hgw, hvw⟩ := ({ fr with faults := [] } : Frame).load_text hdr text
  refine ⟨_, fr', hgo, ?_, hfetched, hwords, hser, hdbg, hst, hgw, hvw, rfl, by simp [Fibre.SameRegs]⟩
  have hfound : f.frame? fr'.seq = some fr := by
    have : fr'.seq = fr.seq := hseq
    rw [this]
    exact hfr
  exact (show fr'.seq = fr.seq from hseq) ▸ frame?_setFrame hfound

end Sys2Proof.Machine
end

section
/-! PROOFS. The commit of a block (R24, R45, R46, R81, R213, R242). -/

namespace Sys2Proof.Machine

/-! ### The stores and cache operations of the block (R135, R136) -/

/-- What releasing stores and performing cache operations may change. -/
def State.CacheOps (s t : State) : Prop :=
  ∃ (cs : Dict CellSt) (ct : Dict Word) (m : Mem) (lk : Dict Nat) (ll : Dict LlcLine) (sn : Dict Bool) (o : List OutMsg)
    (ac : Dict Access), t = { s with cells := cs, ctl := ct, mem := m, lineKey := lk, llc := ll, snoops := sn, out := o
                                     accesses := ac }

theorem State.CacheOps.refl (s : State) : s.CacheOps s :=
  ⟨s.cells, s.ctl, s.mem, s.lineKey, s.llc, s.snoops, s.out, s.accesses, rfl⟩

theorem State.CacheOps.trans {s t u : State} (h : s.CacheOps t) (k : t.CacheOps u) : s.CacheOps u := by
  obtain ⟨cs, ct, m, lk, ll, sn, o, ac, rfl⟩ := h
  obtain ⟨cs', ct', m', lk', ll', sn', o', ac', rfl⟩ := k
  exact ⟨cs', ct', m', lk', ll', sn', o', ac', rfl⟩

theorem State.CacheOps.fibres {s t : State} (h : s.CacheOps t) : t.fibres = s.fibres := by
  obtain ⟨cs, ct, m, lk, ll, sn, o, ac, rfl⟩ := h
  rfl

theorem cacheOps_foldl {β : Type} (l : List β) (step : State → β → State) (h : ∀ t b, State.CacheOps t (step t b)) (s : State) :
    s.CacheOps (l.foldl step s) :=
  List.foldlRecOn l step (.refl s) fun t ht b _ => ht.trans (h t b)

theorem cacheOps_accesses (s : State) (ac : Dict Access) : s.CacheOps { s with accesses := ac } :=
  ⟨s.cells, s.ctl, s.mem, s.lineKey, s.llc, s.snoops, s.out, ac, rfl⟩

/-- A line that goes back to where it rests changes memory and the keys of lines (R97, R111). -/
theorem writeBack_keeps (s : State) (line : Nat) (l : LlcLine) :
    ∃ m lk, s.writeBack line l = { s with mem := m, lineKey := lk } := by
  unfold State.writeBack
  repeat' split
  · exact ⟨s.mem, s.lineKey, rfl⟩
  · exact ⟨_, s.lineKey, rfl⟩
  · exact ⟨_, _, rfl⟩
  · exact ⟨_, _, rfl⟩

theorem cacheOps_evictLlc (s : State) (line : Nat) : s.CacheOps (s.evictLlc line) := by
  unfold State.evictLlc
  split
  · exact .refl s
  next l _ =>
    obtain ⟨m, lk, h⟩ := writeBack_keeps s line l
    rw [h]
    exact ⟨s.cells, s.ctl, m, lk, s.llc.erase line, s.snoops, s.out, s.accesses, rfl⟩

theorem cacheOps_cleanLlc (s : State) (line : Nat) : s.CacheOps (s.cleanLlc line) := by
  unfold State.cleanLlc
  split
  · exact .refl s
  next l _ =>
    obtain ⟨m, lk, h⟩ := writeBack_keeps s line l
    rw [h]
    split
    · exact .refl s
    · exact ⟨s.cells, s.ctl, m, lk, s.llc.put line { l with dirty := 0 }, s.snoops, s.out, s.accesses, rfl⟩

theorem cacheOps_countCell (c src n : Nat) (s : State) : s.CacheOps (countCell c src n s) := by
  obtain ⟨d, h⟩ := countCell_keeps c src n s
  rw [h]
  exact ⟨d, s.ctl, s.mem, s.lineKey, s.llc, s.snoops, s.out, s.accesses, rfl⟩

theorem cacheOps_ctl (s : State) (ct : Dict Word) : s.CacheOps { s with ctl := ct } :=
  ⟨s.cells, ct, s.mem, s.lineKey, s.llc, s.snoops, s.out, s.accesses, rfl⟩

theorem cacheOps_countPages (s : State) (cell asn : Nat) (xroot : Word) (pages : List (Nat × Word × Nat)) :
    s.CacheOps (s.countPages cell asn xroot pages) := by
  refine cacheOps_foldl pages _ (fun t e => ?_) s
  dsimp only
  split
  · exact .refl t
  · have hcell := cacheOps_countCell cell 9 1 t
    refine iteInduction (fun _ => hcell) fun _ => hcell.trans ?_
    obtain ⟨d, h⟩ := countSector_keeps (dieOfCell cell) 5 1 (countCell cell 9 1 t)
    obtain ⟨d', h'⟩ := countWalk_keeps (countSector (dieOfCell cell) 5 1 (countCell cell 9 1 t)) (dieOfCell cell) xroot
      (BitVec.ofNat 64 e.1)
    rw [h', h]
    exact cacheOps_ctl _ d'

theorem cacheOps_setCell (s : State) (c : Nat) (x : CellSt) : s.CacheOps (s.setCell c x) :=
  ⟨s.cells.put c x, s.ctl, s.mem, s.lineKey, s.llc, s.snoops, s.out, s.accesses, rfl⟩

theorem cacheOps_cacheRange (s : State) (cell : Nat) (x : Xlate) (drop : Bool) (lo len : Nat) :
    s.CacheOps (s.cacheRange cell x drop lo len) := by
  unfold State.cacheRange
  dsimp only
  have hpages := cacheOps_countPages s cell (nfld x.xroot 0 12) x.xroot
    (s.leavesIn (dieOfCell cell) lo (lo + len) 4 (nfld x.xroot 12 40 * 4096) 0)
  generalize s.countPages _ _ _ _ = t at hpages ⊢
  refine hpages.trans (State.CacheOps.trans ?_ (cacheOps_foldl _ _ (fun u line => ?_) _))
  · exact iteInduction (fun _ => cacheOps_setCell t _ _) fun _ => .refl t
  · refine iteInduction (fun _ => ?_) fun _ => .refl u
    exact iteInduction (fun _ => cacheOps_evictLlc u line) fun _ => cacheOps_cleanLlc u line

theorem cacheOps_backInvalidate (s : State) (half : Nat) (inv : Bool) : s.CacheOps (s.backInvalidate half inv) := by
  obtain ⟨d, o, h⟩ := backInvalidate_keeps s half inv
  rw [h]
  exact ⟨s.cells, s.ctl, s.mem, s.lineKey, s.llc, d, o, s.accesses, rfl⟩

theorem cacheOps_runCacheOps (s : State) (fid : Nat) : s.CacheOps (s.runCacheOps fid) := by
  refine cacheOps_foldl _ _ (fun t e => ?_) s
  split
  next a f _ _ =>
    refine iteInduction (fun _ => ?_) fun _ => .refl t
    dsimp only
    refine iteInduction (fun _ => .refl t) fun _ => ?_
    refine iteInduction (fun _ => cacheOps_accesses t _) fun _ => ?_
    split
    · exact cacheOps_backInvalidate t _ _
    · exact (cacheOps_cacheRange t _ _ _ _ _).trans (cacheOps_accesses _ _)
  next => exact .refl t

theorem cacheOps_purge (s : State) (fid : Nat) : s.CacheOps (s.purge fid) := by
  unfold State.purge
  split <;> exact cacheOps_accesses s _

theorem cacheOps_releaseStores (s : State) (fid seq : Nat) : s.CacheOps (s.releaseStores fid seq) :=
  (cacheOps_accesses s _).trans ((cacheOps_runCacheOps _ fid).trans (cacheOps_purge _ fid))

/-! ### What follows the hand-over -/

/-- The engines of every cell hold what they held. -/
def State.SameEngines (s t : State) : Prop := ∀ c, (t.cell c).copies = (s.cell c).copies ∧ (t.cell c).node = (s.cell c).node

theorem State.SameEngines.of_cells {s t : State} (h : t.cells = s.cells) : s.SameEngines t :=
  fun c => by simp [State.cell, h]

theorem State.SameEngines.trans {s t u : State} (h : s.SameEngines t) (k : t.SameEngines u) : s.SameEngines u :=
  fun c => ⟨(k c).1.trans (h c).1, (k c).2.trans (h c).2⟩

theorem sameEngines_countCell (c src n : Nat) (s : State) : s.SameEngines (countCell c src n s) := by
  intro x
  obtain ⟨v, h⟩ := countCell_cell c src n s x
  rw [h]
  exact ⟨rfl, rfl⟩

theorem sameEngines_squash (s : State) (fid seq src : Nat) : s.SameEngines (s.squash fid seq src) := by
  unfold State.squash
  split
  · exact .of_cells rfl
  next f _ =>
    dsimp only
    refine iteInduction (fun _ => .of_cells rfl) fun _ => ?_
    have hfirst := (State.SameEngines.of_cells (t := (s.setFibre fid (f.squashFrom seq)).dropAccesses fid seq) (s := s) rfl).trans
      (sameEngines_countCell (s.cellOf f) 3 (f.frames.filter (fun fr => seq ≤ fr.seq)).length _)
    exact iteInduction (fun _ => hfirst) fun _ => hfirst.trans (sameEngines_countCell _ _ _ _)

theorem modFibre_cells (s : State) (fid : Nat) (g : Fibre → Fibre) : (s.modFibre fid g).cells = s.cells := by
  unfold State.modFibre
  split <;> rfl

/-- What may happen to a fibre after the hand-over of its block's commands: blocks leave it, but no register, and no
engine changes. -/
structure State.Sheds (s t : State) : Prop where
  regs : s.SameRegs t
  seqs : ∀ fid f f', s.fibre? fid = some f → t.fibre? fid = some f' → ∀ x ∈ f'.frames, ∃ y ∈ f.frames, y.seq = x.seq
  engines : s.SameEngines t

theorem State.Sheds.refl (s : State) : s.Sheds s :=
  ⟨.refl s, fun _ f f' hf hf' x hx => by
    obtain rfl : f = f' := by simpa [hf] using hf'
    exact ⟨x, hx, rfl⟩, .of_cells rfl⟩

theorem State.Sheds.trans {s t u : State} (h : s.Sheds t) (k : t.Sheds u) : s.Sheds u := by
  refine ⟨h.regs.trans k.regs, fun fid f f'' hf hf'' x hx => ?_, h.engines.trans k.engines⟩
  obtain ⟨hn, -⟩ | ⟨g, f', hg, hf', -⟩ := State.sameRegs_iff.mp h.regs fid
  · simp [hf] at hn
  · obtain ⟨y, hy, hyx⟩ := k.seqs fid f' f'' hf' hf'' x hx
    obtain ⟨z, hz, hzy⟩ := h.seqs fid f f' hf hf' y hy
    exact ⟨z, hz, hzy.trans hyx⟩

theorem sheds_modFibre {s : State} {fid : Nat} {g : Fibre → Fibre} (hregs : ∀ f, Fibre.SameRegs f (g f))
    (hseqs : ∀ f, ∀ x ∈ (g f).frames, ∃ y ∈ f.frames, y.seq = x.seq) : s.Sheds (s.modFibre fid g) := by
  refine ⟨sameRegs_modFibre hregs, fun n f f' hf hf' x hx => ?_, .of_cells (modFibre_cells s fid g)⟩
  rw [fibre?_modFibre] at hf'
  by_cases hn : n = fid
  · subst hn
    obtain rfl : g f = f' := by simpa [hf] using hf'
    exact hseqs f x hx
  · obtain rfl : f = f' := by simpa [hn, hf] using hf'
    exact ⟨x, hx, rfl⟩

theorem Fibre.squashFrom_frames (f : Fibre) (seq : Nat) : ∀ x ∈ (f.squashFrom seq).frames, x ∈ f.frames := by
  unfold Fibre.squashFrom
  split
  · exact fun x hx => List.mem_of_mem_filter hx
  · exact fun x hx => hx

theorem sheds_squash (s : State) (fid seq src : Nat) : s.Sheds (s.squash fid seq src) := by
  refine ⟨sameRegs_squash s fid seq src, fun n f f' hf hf' x hx => ?_, sameEngines_squash s fid seq src⟩
  rw [squash_fibre?] at hf'
  by_cases hn : n = fid
  · subst hn
    obtain rfl : f.squashFrom seq = f' := by simpa [hf] using hf'
    exact ⟨x, f.squashFrom_frames seq x hx, rfl⟩
  · obtain rfl : f = f' := by simpa [hn, hf] using hf'
    exact ⟨x, hx, rfl⟩

theorem sheds_setFrame (s : State) (fid : Nat) (fr : Frame) : s.Sheds (s.setFrame fid fr) := by
  refine sheds_modFibre (fun f => f.sameRegs_setFrame fr) fun f x hx => ?_
  obtain ⟨y, hy, rfl⟩ := List.mem_map.mp hx
  refine ⟨y, hy, ?_⟩
  split
  next h => exact h
  next => rfl

theorem sheds_refetch (s : State) (fid : Nat) (fr : Frame) : s.Sheds (s.refetch fid fr) := by
  unfold State.refetch
  split
  · exact .refl s
  next f hf =>
    extract_lets mem cinvs fences behind left t
    have hset : s.Sheds t := by
      have hmod := sheds_modFibre (s := s) (fid := fid) (g := fun f => { f with sawCinv := left })
        (fun f => by simp [Fibre.SameRegs]) fun f x hx => ⟨x, hx, rfl⟩
      rwa [State.modFibre, hf] at hmod
    refine iteInduction (fun _ => ?_) fun _ => hset
    exact hset.trans ((sheds_squash _ _ _ _).trans
      (sheds_modFibre (fun f => by simp [Fibre.SameRegs]) fun f x hx => ⟨x, hx, rfl⟩))

theorem sheds_parkNamed (s : State) (fid : Nat) : s.Sheds (s.parkNamed fid) := by
  unfold State.parkNamed
  repeat' split
  · exact .refl s
  · exact (sheds_squash _ _ _ _).trans (sheds_modFibre (fun f => by simp [Fibre.SameRegs]) fun f x hx => ⟨x, hx, rfl⟩)
  · exact .refl s
  · exact .refl s

theorem sheds_checkBeg (s : State) (fid : Nat) : s.Sheds (s.checkBeg fid) := by
  unfold State.checkBeg
  repeat' split
  · exact .refl s
  · exact sheds_setFrame s fid _
  · exact .refl s
  · exact .refl s

theorem sheds_countCell (c src n : Nat) (s : State) : s.Sheds (countCell c src n s) := by
  obtain ⟨d, h⟩ := countCell_keeps c src n s
  refine ⟨.of_fibres (by rw [h]), fun fid f f' hf hf' x hx => ?_, sameEngines_countCell c src n s⟩
  obtain rfl : f = f' := by
    rw [h] at hf'
    exact Option.some.inj (hf.symm.trans hf')
  exact ⟨x, hx, rfl⟩

/-! ### The parts of a commit -/

/-- What follows the hand-over of a block that neither halts, yields nor returns, and is not stepped. -/
def State.commitTail (s : State) (fid : Nat) (fr : Frame) (younger : List Frame) : State :=
  (((s.refetch fid fr).modFibre fid (fun f =>
    { (f.enterRas fr) with frames := f.frames.filter (fun y => y.seq != fr.seq)
                           next := if younger.isEmpty then fr.target else f.next })).parkNamed fid).checkBeg fid

/-- The registers of the fibre stay, and its block leaves. -/
theorem commitTail_spec {s : State} {fid : Nat} {f : Fibre} (fr : Frame) (younger : List Frame) (hf : s.fibre? fid = some f) :
    ∃ f', (s.commitTail fid fr younger).fibre? fid = some f' ∧ f.SameRegs f' ∧ (∀ x ∈ f'.frames, x.seq ≠ fr.seq)
      ∧ s.SameEngines (s.commitTail fid fr younger) := by
  have hrefetch := sheds_refetch s fid fr
  set t := (s.refetch fid fr).modFibre fid (fun f =>
    { (f.enterRas fr) with frames := f.frames.filter (fun y => y.seq != fr.seq)
                           next := if younger.isEmpty then fr.target else f.next }) with ht
  have hmod : (s.refetch fid fr).Sheds t :=
    sheds_modFibre (fun f => by simp [Fibre.SameRegs, Fibre.enterRas]) fun f x hx => ⟨x, List.mem_of_mem_filter hx, rfl⟩
  have hleft : ∀ g, t.fibre? fid = some g → ∀ x ∈ g.frames, x.seq ≠ fr.seq := by
    intro g hg x hx
    rw [ht, fibre?_modFibre, if_pos rfl] at hg
    obtain ⟨f0, -, rfl⟩ := Option.map_eq_some_iff.mp hg
    simpa using (List.mem_filter.mp hx).2
  have hend : t.Sheds (s.commitTail fid fr younger) := (sheds_parkNamed t fid).trans (sheds_checkBeg _ fid)
  obtain ⟨hn, -⟩ | ⟨f0, g, hf0, hg, hfg⟩ := State.sameRegs_iff.mp (hrefetch.trans hmod).regs fid
  · simp [hf] at hn
  obtain rfl : f = f0 := by simpa [hf] using hf0
  obtain ⟨hn, -⟩ | ⟨g0, f', hg0, hf', hgf⟩ := State.sameRegs_iff.mp hend.regs fid
  · simp [hg] at hn
  obtain rfl : g = g0 := by simpa [hg] using hg0
  refine ⟨f', hf', hfg.trans hgf, fun x hx => ?_, (hrefetch.trans (hmod.trans hend)).engines⟩
  obtain ⟨y, hy, hyx⟩ := hend.seqs fid g f' hg hf' x hx
  exact hyx ▸ hleft g hg y hy

/-- The conditions under which the oldest block commits plainly (R24). -/
structure CommitsPlainly (s : State) (fid : Nat) (f : Fibre) (fr : Frame) (younger : List Frame) : Prop where
  fibre : s.fibre? fid = some f
  frames : f.frames = fr :: younger
  ctx : ∃ g l, s.ctxOf f = some (g, l) ∧ g.state = .running
  complete : fr.complete = true
  quiet : fr.quiet = true
  waiting : fr.waiting = false
  clean : fr.faults = []
  stepped : f.stepped = false
  dbg : fr.dbg = false
  pending : f.pendingName fr = none
  room : s.engineRoom (s.cellOf f) fr = true
  srng : fr.srng = []
  halts : fr.halts = false
  rgn : f.rgn = none
  beg : fr.firedAt isRgnBeg = none
  sret : fr.firedAt isSret = none
  yield : fr.firedAt isYield = none

section Plain
variable {s : State} {fid : Nat} {f : Fibre} {fr : Frame} {younger : List Frame} (h : CommitsPlainly s fid f fr younger)
include h

theorem CommitsPlainly.exec_eq : exec (.blockCommit fid) s
    = .next (if fr.swrs.any (fun w => isXlateReg w.2.1) && s.transferOpen (s.cellOf f) fid then s
        else s.commitBlock fid false none) := by
  obtain ⟨g, l, hctx, hrun⟩ := h.ctx
  have hgo : exec (.blockCommit fid) s = .next (s.tryCommit fid f fr l) := by
    have hexec : exec (.blockCommit fid) s = execBlockCommit fid s := rfl
    simp [hexec, execBlockCommit, h.fibre, h.frames, hctx, hrun, h.complete, h.quiet, h.waiting, h.clean, h.stepped]
  rw [hgo, State.tryCommit]
  simp only [h.pending, State.sretWaits, h.sret, h.room, h.beg, h.rgn, Option.isSome_none, Bool.false_eq_true, if_false,
    Bool.not_true, Bool.or_false]

theorem CommitsPlainly.commitBlock_eq : s.commitBlock fid false none
    = (countCell (s.cellOf f) 2 1 ((((s.setFibre fid (f.enterRegs fr)).enterSys fid fr).releaseStores fid fr.seq).handOverAll
        fid (s.cellOf f) f.xlate fr)).commitTail fid fr younger := by
  simp only [State.commitBlock, h.fibre, h.frames, h.halts, h.yield, h.sret, h.stepped, h.dbg, Option.isSome_none,
    Bool.false_eq_true, if_false, Bool.false_and, Bool.or_self]
  rfl

/-- The state after the commit, from the fibre that the hand-over leaves. -/
theorem CommitsPlainly.commits {f1 : Fibre}
    (hxl : fr.swrs.any (fun w => isXlateReg w.2.1) = false ∨ s.transferOpen (s.cellOf f) fid = false)
    (hf1 : ((((s.setFibre fid (f.enterRegs fr)).enterSys fid fr).releaseStores fid fr.seq).handOverAll
      fid (s.cellOf f) f.xlate fr).fibre? fid = some f1) :
    ∃ t f', exec (.blockCommit fid) s = .next t ∧ t.fibre? fid = some f' ∧ f1.SameRegs f' ∧ (∀ x ∈ f'.frames, x.seq ≠ fr.seq)
      ∧ State.SameEngines ((((s.setFibre fid (f.enterRegs fr)).enterSys fid fr).releaseStores fid fr.seq).handOverAll
        fid (s.cellOf f) f.xlate fr) t := by
  set u := (((s.setFibre fid (f.enterRegs fr)).enterSys fid fr).releaseStores fid fr.seq).handOverAll
    fid (s.cellOf f) f.xlate fr with hu
  have hcount : (countCell (s.cellOf f) 2 1 u).fibre? fid = some f1 := by
    obtain ⟨d, hd⟩ := countCell_keeps (s.cellOf f) 2 1 u
    rw [hd]
    exact hf1
  obtain ⟨f', hf', hregs, hframes, heng⟩ := commitTail_spec fr younger hcount
  have hno : (fr.swrs.any (fun w => isXlateReg w.2.1) && s.transferOpen (s.cellOf f) fid) = false := by
    obtain h | h := hxl <;> simp [h]
  refine ⟨_, f', ?_, hf', hregs, hframes, (sameEngines_countCell _ _ _ _).trans heng⟩
  rw [h.exec_eq, hno, h.commitBlock_eq]
  rfl

end Plain

/-! ### What the registers hold (R45, R46) -/

theorem vget_vset_same {α : Type} {n i : Nat} (v : Vector α n) (a z : α) (h : i < n) : vget (vset v i a) i z = a := by
  simp [vget, vset, h, Vector.getD]

theorem vget_vset_other {α : Type} {n i j : Nat} (v : Vector α n) (a z : α) (h : j ≠ i) :
    vget (vset v i a) j z = vget v j z := by
  unfold vget vset
  split
  · simp [Vector.getD, Ne.symm h]
  · rfl

/-- Entering what `pick` takes of an entry of a map. -/
def enterWith {α β : Type} {m : Nat} (pick : β → Option α) (v : Vector α m) (e : Nat × β) : Vector α m :=
  match pick e.2 with
  | some a => vset v e.1 a
  | none => v

/-- The element at `n` after every entry of a map has been entered. -/
theorem vget_foldl_enterWith {α β : Type} {m n : Nat} (pick : β → Option α) (z : α) (d : Dict β) (hd : d.rising = true)
    (hn : n < m) (v : Vector α m) :
    vget (d.foldl (enterWith pick) v) n z = ((Dict.get? d n).bind pick).getD (vget v n z) := by
  induction d generalizing v with
  | nil => rfl
  | cons e d ih =>
    obtain ⟨k, b⟩ := e
    obtain ⟨hfirst, hrest⟩ := List.pairwise_cons.mp ((Dict.rising_iff ((k, b) :: d)).mp hd)
    rw [List.foldl_cons, ih ((Dict.rising_iff d).mpr hrest)]
    by_cases hk : k = n
    · subst hk
      have hnone : Dict.get? d k = none := Dict.get?_eq_none_of_lt hfirst
      simp only [Dict.get?, if_true, hnone, Option.bind_none, Option.getD_none, Option.bind_some, enterWith]
      cases pick b with
      | none => rfl
      | some a => exact vget_vset_same v a z hn
    · simp only [Dict.get?, if_neg hk, enterWith]
      cases pick b with
      | none => rfl
      | some a => simp only [vget_vset_other v a z (Ne.symm hk)]

/-- The word, vector and tag that a register value enters. -/
def Token.word? : Token → Option Word
  | .val w => some w
  | _ => none
def Token.vec? : Token → Option Vec
  | .vec x _ => some x
  | _ => none
def Token.tag? : Token → Option (BitVec 3)
  | .vec _ t => some t
  | _ => none

theorem Fibre.enterRegs_folds (f : Fibre) (fr : Frame) : (f.enterRegs fr).g = fr.gout.foldl (enterWith Token.word?) f.g
    ∧ (f.enterRegs fr).v = fr.vout.foldl (enterWith Token.vec?) f.v
    ∧ (f.enterRegs fr).vtag = fr.vout.foldl (enterWith Token.tag?) f.vtag := by
  unfold Fibre.enterRegs
  refine ⟨?_, ?_, ?_⟩ <;>
    refine congrArg (fun step => List.foldl step _ _) (funext₂ fun v e => ?_) <;>
    obtain ⟨k, t⟩ := e <;> cases t <;> rfl

/-- R45, R46: the registers after a block's values have entered. -/
theorem vget_enterRegs_g {f : Fibre} {fr : Frame} {n : Nat} (hrise : fr.gout.rising = true) (hn : n < 64) :
    vget (f.enterRegs fr).g n 0 = ((fr.gout.get? n).bind Token.word?).getD (vget f.g n 0) := by
  rw [(f.enterRegs_folds fr).1, vget_foldl_enterWith Token.word? 0 fr.gout hrise hn]

theorem vget_enterRegs_v {f : Fibre} {fr : Frame} {n : Nat} (hrise : fr.vout.rising = true) (hn : n < 32) :
    vget (f.enterRegs fr).v n 0 = ((fr.vout.get? n).bind Token.vec?).getD (vget f.v n 0)
    ∧ vget (f.enterRegs fr).vtag n 7 = ((fr.vout.get? n).bind Token.tag?).getD (vget f.vtag n 7) := by
  obtain ⟨-, hv, htag⟩ := f.enterRegs_folds fr
  rw [hv, htag, vget_foldl_enterWith Token.vec? 0 fr.vout hrise hn, vget_foldl_enterWith Token.tag? 7 fr.vout hrise hn]
  exact ⟨rfl, rfl⟩

/-! ### System registers and flags (R24, R81, R242) -/

theorem Fibre.enterFlags_plain (f : Fibre) {fr : Frame} (h : fr.srng = []) :
    f.enterFlags fr = { f with fcsr := f.fcsr ||| fr.flags.setWidth 64 } := by
  simp [Fibre.enterFlags, h]

/-- The write of a system register does not look at the general and vector registers. -/
theorem Fibre.sysWrite_enterRegs (f : Fibre) (fr : Frame) (n : Nat) (v : Word) : (f.enterRegs fr).sysWrite n v
    = { f.sysWrite n v with g := (f.enterRegs fr).g, v := (f.enterRegs fr).v, vtag := (f.enterRegs fr).vtag } := by
  have hbank : ∀ h b, (f.enterRegs fr).setBank h b
      = { f.setBank h b with g := (f.enterRegs fr).g, v := (f.enterRegs fr).v, vtag := (f.enterRegs fr).vtag } := by
    intro h b; cases h <;> rfl
  have hget : ∀ h, (f.enterRegs fr).bank h = f.bank h := by intro h; cases h <;> rfl
  have hof : bankOf (f.enterRegs fr) n = bankOf f n := rfl
  unfold Fibre.sysWrite
  simp only [hof, hget, hbank]
  split
  · rfl
  · split
    · rfl
    · split
      · rfl
      · split <;> rfl

theorem enterSys_none {s : State} {fid : Nat} {f : Fibre} {fr : Frame} (hf : s.fibre? fid = some f) (hswr : fr.swrs = []) :
    (s.enterSys fid fr).fibre? fid = some (f.enterFlags fr) := by
  simp [State.enterSys, hswr, fibre?_modFibre, hf]

theorem enterSys_one {s : State} {fid : Nat} {f : Fibre} {fr : Frame} {k num : Nat} {v : Word} (hf : s.fibre? fid = some f)
    (hswr : fr.swrs = [(k, num, v)]) (hnum : num < 0x080) :
    (s.enterSys fid fr).fibre? fid = some ((f.sysWrite num v).enterFlags fr) := by
  have hwrite : s.sysWrite fid num v = s.setFibre fid (f.sysWrite num v) := by
    rw [State.sysWrite, hf]
    exact if_neg (by omega)
  simp [State.enterSys, hswr, insertSwr, hwrite, fibre?_modFibre, fibre?_setFibre_same]

/-! ### The hand-over of a command (R216, R225, R231, R272) -/

theorem fibre?_isSome_writeStatus (s : State) (fid sreg : Nat) (w : Word) (n : Nat) :
    ((s.writeStatus fid sreg w).fibre? n).isSome = (s.fibre? n).isSome := by
  unfold State.writeStatus
  rw [fibre?_modFibre]
  split
  next h => rw [h, Option.isSome_map]
  next => rfl

theorem fibre?_isSome_testWaits (s : State) (cell n : Nat) : ((s.testWaits cell).fibre? n).isSome = (s.fibre? n).isSome := by
  unfold State.testWaits
  refine List.foldlRecOn (motive := fun t : State => (t.fibre? n).isSome = (s.fibre? n).isSome) _ _ rfl fun t ht w _ => ?_
  refine iteInduction (motive := fun t : State => (t.fibre? n).isSome = (s.fibre? n).isSome) (fun _ => ?_) fun _ => ht
  exact (fibre?_isSome_writeStatus _ _ _ _ n).trans ht

theorem fibre?_isSome_putCell (s : State) (a : Nat) (bs : List Byte) (n : Nat) :
    ((s.putCell a bs).fibre? n).isSome = (s.fibre? n).isSome := by
  unfold State.putCell
  exact iteInduction (motive := fun t : State => (t.fibre? n).isSome = (s.fibre? n).isSome) (fun _ => rfl)
    fun _ => fibre?_isSome_testWaits _ _ n

theorem sregOf_lt {i : Instr} {r : Nat} (h : sregOf i = some r) : r < 64 := by
  unfold sregOf at h
  split at h <;> cases h <;> exact BitVec.isLt _

theorem getLsbD_or_bit (w : Word) {r : Nat} (h : r < 64) : (w ||| (1 <<< r)).getLsbD r = true := by
  rw [BitVec.getLsbD_or, BitVec.natCast_eq_ofNat, BitVec.getLsbD_ofNat, Nat.one_shiftLeft, Nat.testBit_two_pow_self]
  simp [h]

/-- The status register of a command that is handed over becomes pending (R229). -/
def State.pends (s : State) (fid : Nat) (i : Instr) : State :=
  match sregOf i with
  | some r => s.modFibre fid (fun f => { f with gpend := f.gpend ||| (1 <<< r) })
  | none => s

theorem pends_fibre? {s : State} {fid : Nat} {f : Fibre} (i : Instr) (hf : s.fibre? fid = some f) :
    ∃ f1, (s.pends fid i).fibre? fid = some f1 ∧ ∀ r, sregOf i = some r → f1.gpend.getLsbD r = true := by
  unfold State.pends
  split
  next r hr =>
    refine ⟨_, by rw [fibre?_modFibre, if_pos rfl, hf]; rfl, fun r' hr' => ?_⟩
    obtain rfl : r = r' := by simpa [hr] using hr'
    exact getLsbD_or_bit f.gpend (sregOf_lt hr)
  next hr => exact ⟨f, hf, fun r' hr' => by simp [hr] at hr'⟩

section HandOver
variable {s : State} {fid seq cell : Nat} {x : Xlate} {k : Command} {f : Fibre}

theorem handOver_fibre? (hf : s.fibre? fid = some f) : ∃ f1, (s.handOver fid seq cell x k).fibre? fid = some f1
    ∧ ∀ r, sregOf k.ins = some r → (∀ pr rr, k.ins ≠ .bbarWait pr rr) → f1.gpend.getLsbD r = true := by
  have hp : ∃ f1, (State.pends { s with nextId := s.nextId + 1 } fid k.ins).fibre? fid = some f1
      ∧ ∀ r, sregOf k.ins = some r → f1.gpend.getLsbD r = true := pends_fibre? k.ins hf
  obtain ⟨f1, hf1, hpend⟩ := hp
  have hsome : ∀ t : State, (t.fibre? fid).isSome = true → ∃ f1, t.fibre? fid = some f1 := fun t h => Option.isSome_iff_exists.mp h
  have hu : ((State.pends { s with nextId := s.nextId + 1 } fid k.ins).fibre? fid).isSome = true := by simp [hf1]
  unfold State.handOver
  dsimp only
  split
  · exact ⟨f1, hf1, fun r hr _ => hpend r hr⟩
  · exact ⟨f1, hf1, fun r hr _ => hpend r hr⟩
  next hins =>
    have hno : ∀ r, sregOf k.ins ≠ some r := by rw [hins]; exact fun r => by simp [sregOf]
    refine (hsome _ ?_).imp fun f1 h => ⟨h, fun r hr => absurd hr (hno r)⟩
    refine iteInduction (motive := fun t : State => (t.fibre? fid).isSome = true) (fun _ => ?_) fun _ => hu
    exact (fibre?_isSome_putCell _ _ _ fid).trans hu
  next hins =>
    refine (hsome _ ?_).imp fun f1 h => ⟨h, fun r _ hno => absurd hins (hno _ _)⟩
    exact (fibre?_isSome_testWaits _ _ fid).trans hu
  · exact ⟨f1, hf1, fun r hr _ => hpend r hr⟩

theorem handOver_copies {pr : Pred} {r : BitVec 6} (hins : k.ins = .cpy pr r ∨ k.ins = .cpyQ pr r) :
    ∃ c ∈ ((s.handOver fid seq cell x k).cell cell).copies, c.kind ≠ .init ∧ c.fid = fid ∧ c.sreg = r.toNat ∧ c.addr = k.a
      ∧ c.expect = k.b ∧ c.xl = x ∧ c.upTo = seq ∧ c.started = false := by
  obtain h | h := hins <;> rw [State.handOver, h] <;> dsimp only <;>
    simp only [State.setCell, State.cell, Dict.getD_put_same] <;>
    exact ⟨_, List.mem_append_right _ (List.mem_singleton.mpr rfl), nofun, rfl, rfl, rfl, rfl, rfl, rfl, rfl⟩

theorem handOver_node (hins : isNodeCmd k.ins = true) :
    ∃ n ∈ ((s.handOver fid seq cell x k).cell cell).node.queue, n.ins = k.ins ∧ n.a = k.a ∧ n.b = k.b ∧ n.fid = fid
      ∧ n.xl = x ∧ n.upTo = seq ∧ n.started = false := by
  unfold State.handOver
  dsimp only
  split
  next h => simp [h, isNodeCmd] at hins
  next h => simp [h, isNodeCmd] at hins
  next h => simp [h, isNodeCmd] at hins
  next h => simp [h, isNodeCmd] at hins
  next =>
    simp only [State.setCell, State.cell, Dict.getD_put_same]
    exact ⟨_, List.mem_append_right _ (List.mem_singleton.mpr rfl), rfl, rfl, rfl, rfl, rfl, rfl, rfl⟩

end HandOver

theorem handOverAll_none {s : State} {fid cell : Nat} {x : Xlate} {fr : Frame} (h : fr.cmds = []) :
    s.handOverAll fid cell x fr = s := by simp [State.handOverAll, h]

theorem handOverAll_one {s : State} {fid cell : Nat} {x : Xlate} {fr : Frame} {c : Command} (h : fr.cmds = [c]) :
    s.handOverAll fid cell x fr = s.handOver fid fr.seq cell x c := by simp [State.handOverAll, h, insertCmd]

/-! ### The obligation -/

section Cases
variable {s : State} {fid : Nat} {f : Fibre} {fr : Frame} {younger : List Frame} (h : CommitsPlainly s fid f fr younger)
include h

/-- A block with nothing but register values and flags. -/
theorem CommitsPlainly.registers (hswr : fr.swrs = []) (hcmd : fr.cmds = []) :
    ∃ t f', exec (.blockCommit fid) s = .next t ∧ t.fibre? fid = some f' ∧ f'.g = (f.enterRegs fr).g
      ∧ f'.v = (f.enterRegs fr).v ∧ f'.vtag = (f.enterRegs fr).vtag ∧ f'.fcsr = f.fcsr ||| fr.flags.setWidth 64
      ∧ f'.level = f.level ∧ f'.bankA = f.bankA ∧ f'.bankS = f.bankS ∧ f'.bankM = f.bankM
      ∧ (∀ x ∈ f'.frames, x.seq ≠ fr.seq) := by
  have hflags := enterSys_none (fibre?_setFibre_same s fid (f.enterRegs fr)) hswr
  rw [Fibre.enterFlags_plain _ h.srng] at hflags
  have hrelease := (cacheOps_releaseStores ((s.setFibre fid (f.enterRegs fr)).enterSys fid fr) fid fr.seq).fibres
  have hdone : ((((s.setFibre fid (f.enterRegs fr)).enterSys fid fr).releaseStores fid fr.seq).handOverAll
      fid (s.cellOf f) f.xlate fr).fibre? fid = some { f.enterRegs fr with fcsr := f.fcsr ||| fr.flags.setWidth 64 } := by
    rw [handOverAll_none hcmd]
    exact (congrArg (·.get? fid) hrelease).trans hflags
  obtain ⟨t, f', hgo, hf', hregs, hframes, -⟩ := h.commits (.inl (by simp [hswr])) hdone
  obtain ⟨hg, hv, htag, -, -, hlevel, hA, hS, hM, hfcsr, -⟩ := hregs
  exact ⟨t, f', hgo, hf', hg, hv, htag, hfcsr, hlevel, hA, hS, hM, hframes⟩

/-- A block with one `swr`. -/
theorem CommitsPlainly.oneSwr {k num : Nat} {v : Word} (hswr : fr.swrs = [(k, num, v)]) (hcmd : fr.cmds = [])
    (hnum : num < 0x080) :
    (isXlateReg num = true → s.transferOpen (s.cellOf f) fid = true → exec (.blockCommit fid) s = .next s)
    ∧ (isXlateReg num = false ∨ s.transferOpen (s.cellOf f) fid = false →
      let w := f.sysWrite num v
      ∃ t f', exec (.blockCommit fid) s = .next t ∧ t.fibre? fid = some f'
        ∧ f'.fcsr = w.fcsr ||| fr.flags.setWidth 64 ∧ f'.srng = w.srng ∧ f'.stepReg = w.stepReg
        ∧ f'.sdeleg = w.sdeleg ∧ f'.mdeleg = w.mdeleg ∧ f'.xroot = w.xroot ∧ f'.xown = w.xown ∧ f'.xkeys = w.xkeys
        ∧ f'.ncbase = w.ncbase ∧ f'.nclim = w.nclim ∧ f'.bankA = w.bankA ∧ f'.bankS = w.bankS ∧ f'.bankM = w.bankM) := by
  have hany : fr.swrs.any (fun w => isXlateReg w.2.1) = isXlateReg num := by simp [hswr]
  refine ⟨fun hx hopen => ?_, fun hno => ?_⟩
  · rw [h.exec_eq, hany, hx, hopen]
    rfl
  · intro w
    have hflags := enterSys_one (fibre?_setFibre_same s fid (f.enterRegs fr)) hswr hnum
    rw [Fibre.enterFlags_plain _ h.srng, Fibre.sysWrite_enterRegs] at hflags
    have hrelease := (cacheOps_releaseStores ((s.setFibre fid (f.enterRegs fr)).enterSys fid fr) fid fr.seq).fibres
    have hdone := (congrArg (·.get? fid) hrelease).trans hflags
    rw [← handOverAll_none (s := ((s.setFibre fid (f.enterRegs fr)).enterSys fid fr).releaseStores fid fr.seq) (fid := fid)
      (cell := s.cellOf f) (x := f.xlate) hcmd] at hdone
    obtain ⟨t, f', hgo, hf', hregs, -, -⟩ := h.commits (hno.imp_left fun hx => hany.trans hx) hdone
    obtain ⟨-, -, -, -, -, -, hA, hS, hM, hfcsr, hsrng, -, hstep, hsd, hmd, hroot, hown, hkeys, hbase, hlim⟩ := hregs
    exact ⟨t, f', hgo, hf', hfcsr, hsrng, hstep, hsd, hmd, hroot, hown, hkeys, hbase, hlim, hA, hS, hM⟩

/-- A block with one engine command. -/
theorem CommitsPlainly.oneCommand {c : Command} (hswr : fr.swrs = []) (hcmd : fr.cmds = [c]) :
    ∃ t f', exec (.blockCommit fid) s = .next t ∧ t.fibre? fid = some f'
      ∧ (∀ r, sregOf c.ins = some r → (∀ pr rr, c.ins ≠ .bbarWait pr rr) → f'.gpend.getLsbD r = true)
      ∧ (∀ pr r, c.ins = .cpy pr r ∨ c.ins = .cpyQ pr r → ∃ k ∈ (t.cell (s.cellOf f)).copies, k.kind ≠ .init ∧ k.fid = fid
        ∧ k.sreg = r.toNat ∧ k.addr = c.a ∧ k.expect = c.b ∧ k.xl = f.xlate ∧ k.upTo = fr.seq ∧ k.started = false)
      ∧ (isNodeCmd c.ins = true → ∃ n ∈ (t.cell (s.cellOf f)).node.queue, n.ins = c.ins ∧ n.a = c.a ∧ n.b = c.b ∧ n.fid = fid
        ∧ n.xl = f.xlate ∧ n.upTo = fr.seq ∧ n.started = false) := by
  have hflags := enterSys_none (fibre?_setFibre_same s fid (f.enterRegs fr)) hswr
  have hrelease := (cacheOps_releaseStores ((s.setFibre fid (f.enterRegs fr)).enterSys fid fr) fid fr.seq).fibres
  obtain ⟨f1, hf1, hpend⟩ := handOver_fibre? (seq := fr.seq) (cell := s.cellOf f) (x := f.xlate) (k := c)
    ((congrArg (·.get? fid) hrelease).trans hflags)
  have hall := handOverAll_one (s := ((s.setFibre fid (f.enterRegs fr)).enterSys fid fr).releaseStores fid fr.seq)
    (fid := fid) (cell := s.cellOf f) (x := f.xlate) hcmd
  rw [← hall] at hf1
  obtain ⟨t, f', hgo, hf', hregs, -, heng⟩ := h.commits (.inl (by simp [hswr])) hf1
  rw [hall] at heng
  obtain ⟨hcopies, hnode⟩ := heng (s.cellOf f)
  refine ⟨t, f', hgo, hf', fun r hr hno => ?_, fun pr r hins => ?_, fun hins => ?_⟩
  · obtain ⟨-, -, -, hg, -⟩ := hregs
    rw [hg]
    exact hpend r hr hno
  · rw [hcopies]
    exact handOver_copies hins
  · rw [hnode]
    exact handOver_node hins

end Cases

/-- Settles O37. A commit enters the block's registers, its system registers and its flags, hands its commands over, and
what follows changes no register and no engine. -/
theorem commitEntersRegisters : Obligations.CommitEntersRegisters := by
  refine ⟨?registers, ?others, ?file⟩
  case registers =>
    intro s fid f fr younger g l hf hframes hctx hrun hcomplete hquiet hwait hclean hstep hdbg hpend hswr hcmd hroom hsrng hhalt
      hrgn hbeg hsret hyield
    exact CommitsPlainly.registers ⟨hf, hframes, ⟨g, l, hctx, hrun⟩, hcomplete, hquiet, hwait, hclean, hstep, hdbg, hpend, hroom,
      hsrng, hhalt, hrgn, hbeg, hsret, hyield⟩ hswr hcmd
  case others =>
    intro s fid f fr younger g l hf hframes hctx hrun hcomplete hquiet hwait hclean hstep hdbg hpend hroom hsrng hhalt
      hrgn hbeg hsret hyield cell
    have h : CommitsPlainly s fid f fr younger := ⟨hf, hframes, ⟨g, l, hctx, hrun⟩, hcomplete, hquiet, hwait, hclean, hstep, hdbg,
      hpend, hroom, hsrng, hhalt, hrgn, hbeg, hsret, hyield⟩
    exact ⟨fun k num v hswr hcmd hnum => h.oneSwr hswr hcmd hnum, fun c hswr hcmd => h.oneCommand hswr hcmd⟩
  case file =>
    intro f fr n w x tag hg hv
    refine ⟨fun hn => ⟨fun hget => ?_, fun hget => ?_⟩, fun hn => ⟨fun hget => ?_, fun hget => ?_⟩⟩
    · rw [vget_enterRegs_g hg hn, hget]
      rfl
    · rw [vget_enterRegs_g hg hn]
      obtain hget | hget := hget <;> rw [hget] <;> rfl
    · obtain ⟨hvec, htag⟩ := vget_enterRegs_v (f := f) hv hn
      rw [hvec, htag, hget]
      exact ⟨rfl, rfl⟩
    · obtain ⟨hvec, htag⟩ := vget_enterRegs_v (f := f) hv hn
      rw [hvec, htag]
      obtain hget | hget := hget <;> rw [hget] <;> exact ⟨rfl, rfl⟩

end Sys2Proof.Machine
end

section
/-! PROOFS. Barriers, events, queues and launches (R183, R204 to R211). -/

namespace Sys2Proof.Machine

theorem ctxOf_eq_some {s : State} {f : Fibre} {g : Group} {l : Launch} (h : s.ctxOf f = some (g, l)) :
    s.group? f.gid = some g ∧ s.launchOf g = some l := by
  simp only [State.ctxOf, Option.bind_eq_bind, Option.bind_eq_some_iff, Option.pure_def, Option.some.injEq, Prod.mk.injEq] at h
  obtain ⟨g', hg, l', hl, rfl, rfl⟩ := h
  exact ⟨hg, hl⟩

/-! ### Barriers (R205 to R207) -/

section BarInit
variable {s : State} {a : Acting} {g : Group} {l : Launch} {pr : Pred} {bar : BitVec 4} {ahead : BitVec 2} {n : Word}

theorem barInit_refused (h : Performs s (.barInit pr bar ahead) a g l) (hl : a.fr.opL a.k = .val n)
    (hn : n = 0 ∨ l.fibres < n.toNat) : exec (.barInit pr bar ahead) s = .next (a.records s (.barInit pr bar ahead) .ill 0) := by
  rw [exec_barInit, execBarInit]
  refine irrevocable_refused h ?_
  simp only [hl, Token.word]
  exact if_pos (hn.imp_left fun h => by rw [h]; rfl)

/-- A count that a barrier may have. -/
theorem barInit_check (hl : a.fr.opL a.k = .val n) (hn : n ≠ 0) (hle : n.toNat ≤ l.fibres) :
    (if (a.fr.opL a.k).word.toNat = 0 ∨ l.fibres < (a.fr.opL a.k).word.toNat then some (Cause.ill, (0 : Word)) else none) = none := by
  have : n.toNat ≠ 0 := fun h => hn (BitVec.eq_of_toNat_eq h)
  simp only [hl, Token.word]
  exact if_neg (by omega)

theorem barInit_same {x : Barrier} (h : Performs s (.barInit pr bar ahead) a g l) (hl : a.fr.opL a.k = .val n) (hn : n ≠ 0)
    (hle : n.toNat ≤ l.fibres) (hx : g.bars.get? bar.toNat = some x) (hc : x.count = n.toNat) (hk : x.limit = ahead.toNat + 1) :
    exec (.barInit pr bar ahead) s = .next (a.performed s (.barInit pr bar ahead) .null) := by
  rw [exec_barInit, execBarInit]
  refine irrevocable_next (r := s) h nofun (barInit_check hl hn hle) ?_
  simp [hl, Token.word, hx, hc, hk]

theorem barInit_afresh (h : Performs s (.barInit pr bar ahead) a g l) (hl : a.fr.opL a.k = .val n) (hn : n ≠ 0)
    (hle : n.toNat ≤ l.fibres) (hx : ∀ y, g.bars.get? bar.toNat = some y → ¬(y.count = n.toNat ∧ y.limit = ahead.toNat + 1)) :
    exec (.barInit pr bar ahead) s = .next (a.performed ((s.setGroup a.f.gid { g with
      bars := g.bars.put bar.toNat (Barrier.fresh n.toNat (ahead.toNat + 1)) }).wakeBar a.f.gid bar.toNat)
      (.barInit pr bar ahead) .null) := by
  rw [exec_barInit, execBarInit]
  refine irrevocable_next (r := s) h nofun (barInit_check hl hn hle) ?_
  have hdiff : (match g.bars.get? bar.toNat with
      | some x => x.count == n.toNat && x.limit == ahead.toNat + 1
      | none => false) = false := by
    cases hg : g.bars.get? bar.toNat with
    | none => rfl
    | some y => simpa using hx y hg
  simp only [hl, Token.word]
  exact if_neg (by rw [Bool.not_eq_true]; exact hdiff)

end BarInit

section BarArr
variable {s : State} {a : Acting} {g : Group} {l : Launch} {pr : Pred} {bar : BitVec 4} {t0 t1 : Target} {x : Barrier}

/-- Whether an arrival parks its fibre depends on the barrier of its group. -/
theorem barParks_eq (hctx : s.ctxOf a.f = some (g, l)) : s.barParks a.f a.fid bar.toNat = (match g.bars.get? bar.toNat with
    | some x => decide (x.phase + x.limit ≤ max (x.next.getD a.fid 0) x.phase)
    | none => true) := by
  obtain ⟨hg, -⟩ := ctxOf_eq_some hctx
  rw [State.barParks, hg]
  rfl

theorem barArr_arrives (h : Performs s (.barArr pr bar t0 t1) a g l) (hall : s.allDone a = true)
    (hx : g.bars.get? bar.toNat = some x) (hph : max (x.next.getD a.fid 0) x.phase < x.phase + x.limit) :
    exec (.barArr pr bar t0 t1) s = .next (a.performed
      (if (x.arrive a.fid).phase = x.phase then s.setGroup a.f.gid { g with bars := g.bars.put bar.toNat (x.arrive a.fid) }
        else (s.setGroup a.f.gid { g with bars := g.bars.put bar.toNat (x.arrive a.fid) }).wakeBar a.f.gid bar.toNat)
      (.barArr pr bar t0 t1) (.val (BitVec.ofNat 64 (max (x.next.getD a.fid 0) x.phase)))) := by
  have hno : s.barParks a.f a.fid bar.toNat = false := by
    rw [barParks_eq h.ctx, hx]
    simpa only [decide_eq_false_iff_not, not_le] using hph
  have hexec : exec (.barArr pr bar t0 t1) s = execBarArr pr bar t0 t1 s := rfl
  rw [hexec, execBarArr]
  simp only [h.fires.1, hno, Bool.and_false, Bool.false_eq_true, if_false]
  refine irrevocable_next (r := s) h (fun _ => hall) rfl ?_
  rw [hx]
  rfl

theorem barArr_parks (h : Performs s (.barArr pr bar t0 t1) a g l) (heff : s.effectStands a.fid a.fr = false)
    (hx : ∀ y, g.bars.get? bar.toNat = some y → y.phase + y.limit ≤ max (y.next.getD a.fid 0) y.phase) :
    exec (.barArr pr bar t0 t1) s = .next (s.parkAt a.fid a.fr.seq a.fr.addr (.bar bar.toNat true)) := by
  have hyes : s.barParks a.f a.fid bar.toNat = true := by
    rw [barParks_eq h.ctx]
    cases hg : g.bars.get? bar.toNat with
    | none => rfl
    | some y => simpa using hx y hg
  have hexec : exec (.barArr pr bar t0 t1) s = execBarArr pr bar t0 t1 s := rfl
  obtain ⟨⟨hact, hcan⟩, -, hout, -, hold, hclean, -⟩ := h
  rw [hexec, execBarArr]
  simp [hact, hcan, hout, hold, hclean, hyes, heff]

end BarArr

section WaitFor
variable {s : State} {a : Acting} {g : Group} {l : Launch} {i : Instr}
  {check : Acting → Group → Launch → State → Option (Cause × Word)} {passes : Acting → Group → State → Bool} {park : Acting → Park}

/-- A wait of the oldest block, on values that its check admits. -/
theorem waitFor_tests (h : Fires s i a) (hvalues : badOperand (a.fr.operands a.k i) = none) (hctx : s.ctxOf a.f = some (g, l))
    (hcheck : check a g l s = none) (hold : a.f.isOldest a.fr.seq = true) (hclean : a.fr.faults = [])
    (heff : s.effectStands a.fid a.fr = false) :
    waitFor i check passes park s = .next (if passes a g s = true then a.commit s (a.fr.fire a.k)
      else s.parkAt a.fid a.fr.seq a.fr.addr (park a)) := by
  obtain ⟨hact, hcan⟩ := h
  simp only [waitFor, hact, hcan, if_true, hvalues, Option.isSome_none, Bool.false_eq_true, if_false, hctx, hcheck, hold, hclean,
    List.isEmpty_nil, Bool.and_self, Bool.not_true, heff]
  split <;> rfl

theorem waitFor_refused {c : Cause} {ta : Word} (h : Fires s i a) (hvalues : badOperand (a.fr.operands a.k i) = none)
    (hctx : s.ctxOf a.f = some (g, l)) (hcheck : check a g l s = some (c, ta)) :
    waitFor i check passes park s = .next (a.records s i c ta) := by
  obtain ⟨hact, hcan⟩ := h
  simp only [waitFor, hact, hcan, if_true, hvalues, Option.isSome_none, Bool.false_eq_true, if_false, hctx, hcheck]
  rfl

end WaitFor

/-! ### The phases of a barrier (R206) -/

theorem Barrier.advance_keeps (fuel : Nat) (x : Barrier) : (x.advance fuel).count = x.count ∧ (x.advance fuel).limit = x.limit
    ∧ (x.advance fuel).next = x.next ∧ x.phase ≤ (x.advance fuel).phase
    ∧ (x.advance fuel).arrivals.length = x.arrivals.length := by
  induction fuel generalizing x with
  | zero => exact ⟨rfl, rfl, rfl, le_rfl, rfl⟩
  | succ fuel ih =>
    unfold Barrier.advance
    split
    next n rest harr =>
      split
      · obtain ⟨hc, hl, hn, hp, hlen⟩ := ih { x with phase := x.phase + 1, arrivals := rest ++ [0] }
        exact ⟨hc, hl, hn, Nat.le_of_succ_le hp, hlen.trans (by simp [harr])⟩
      · exact ⟨rfl, rfl, rfl, le_rfl, rfl⟩
    next => exact ⟨rfl, rfl, rfl, le_rfl, rfl⟩

/-- A phase whose arrivals are complete passes. -/
theorem Barrier.advance_passes {fuel : Nat} {x : Barrier} {rest : List Nat} (h : x.arrivals = x.count :: rest) :
    x.phase < (x.advance (fuel + 1)).phase := by
  rw [Barrier.advance, h]
  simp only [if_true]
  exact (Barrier.advance_keeps fuel { x with phase := x.phase + 1, arrivals := rest ++ [0] }).2.2.2.1

theorem Barrier.arrive_spec (x : Barrier) (fid : Nat) (hlen : x.arrivals.length = x.limit) (hpos : 1 ≤ x.limit) :
    (x.arrive fid).next.getD fid 0 = max (x.next.getD fid 0) x.phase + 1
    ∧ (x.arrive fid).count = x.count ∧ (x.arrive fid).limit = x.limit ∧ x.phase ≤ (x.arrive fid).phase
    ∧ (x.arrive fid).arrivals.length = x.limit
    ∧ (x.arrivals.getD 0 0 + 1 = x.count → max (x.next.getD fid 0) x.phase = x.phase → x.phase < (x.arrive fid).phase) := by
  obtain ⟨hc, hl, hn, hp, ha⟩ := Barrier.advance_keeps (x.limit + 1) { x with
    arrivals := x.arrivals.set (x.phaseOf fid - x.phase) (x.arrivals.getD (x.phaseOf fid - x.phase) 0 + 1)
    next := x.next.put fid (x.phaseOf fid + 1) }
  refine ⟨?_, hc, hl, hp, ha.trans (by simpa using hlen), fun hlast hphase => ?_⟩
  · rw [show (x.arrive fid).next = x.next.put fid (x.phaseOf fid + 1) from hn, Dict.getD_put_same]
    rfl
  · have hzero : x.phaseOf fid - x.phase = 0 := by
      rw [show x.phaseOf fid = x.phase from hphase, Nat.sub_self]
    obtain ⟨n, rest, harr⟩ := List.exists_cons_of_length_pos (hlen ▸ hpos : 0 < x.arrivals.length)
    rw [harr] at hlast
    unfold Barrier.arrive
    dsimp only
    rw [hzero]
    refine Barrier.advance_passes (fuel := x.limit) (x := { x with
      arrivals := x.arrivals.set 0 (x.arrivals.getD 0 0 + 1), next := x.next.put fid (x.phaseOf fid + 1) }) (rest := rest) ?_
    simp only [harr, List.set_cons_zero]
    have hcount : n + 1 = x.count := by simpa using hlast
    simp [hcount]

/-- Settles O32. -/
theorem barriersCountArrivals : Obligations.BarriersCountArrivals := by
  refine ⟨?instructions, fun x fid hlen hpos _ => x.arrive_spec fid hlen hpos⟩
  intro s a g l pr bar ahead t0 t1 n x fresh arr
  refine ⟨fun h hl => ⟨barInit_refused h hl, fun hn hle hx hc hk => barInit_same h hl hn hle hx hc hk,
    fun hn hle hx => barInit_afresh h hl hn hle hx⟩, barArr_arrives, barArr_parks, ?wait⟩
  intro h hctx hold hclean hl heff
  have hvalues : badOperand (a.fr.operands a.k (.barWait pr bar)) = none := by
    rw [show a.fr.operands a.k (.barWait pr bar) = [a.fr.opL a.k] from rfl, hl]
    exact badOperand_val1 n
  rw [exec_barWait, execBarWait]
  refine (waitFor_tests h hvalues hctx rfl hold hclean heff).trans (congrArg _ ?_)
  refine if_congr ?_ rfl rfl
  simp only [hl, Token.word]
  cases g.bars.get? bar.toNat <;> simp

/-! ### Events (R208, R209) -/

/-- Starting a launch, and what an event's value meets, leave the events as they stand. -/
theorem meetWaits_events (s : State) (e : Nat) : (s.meetWaits e).events = s.events := by
  unfold State.meetWaits
  refine List.foldlRecOn (motive := fun t : State => t.events = s.events) _ _ rfl fun t ht x _ => ?_
  split
  · exact ht
  · refine iteInduction (motive := fun t : State => t.events = s.events) (fun _ => ht) fun _ => ?_
    refine iteInduction (motive := fun t : State => t.events = s.events) (fun _ => ?_) fun _ => ht
    unfold State.startLaunch
    split
    · exact ht
    · exact ht

theorem event_addEvent (s : State) (e : Nat) (v : Word) : (s.addEvent e v).event e = s.event e + v := by
  unfold State.addEvent
  dsimp only
  obtain ⟨gs, ls, n, h⟩ := requeued_keeps s
    ((State.wakeEvent { s with events := s.events.put e (s.event e + v) } e).meetWaits e)
  rw [h]
  simp only [State.event, meetWaits_events]
  exact Dict.getD_put_same _ _ _ _

/-! ### Queues (R183, R210) -/

section Queues
variable {s : State} {a : Acting} {g : Group} {l : Launch} {pr : Pred} {scope : Scope} {t0 t1 : Target} {q x : Word} {w : Queue}

theorem queueFault_none (hl : a.fr.opL a.k = .val q) (hpart : q.toNat / 32 = l.part) : queueFault a l = none := by
  rw [queueFault, hl]
  exact if_pos hpart

theorem queueFault_priv (hl : a.fr.opL a.k = .val q) (hpart : q.toNat / 32 ≠ l.part) : queueFault a l = some (.priv, 0) := by
  rw [queueFault, hl]
  exact if_neg hpart

/-- What `wq.give` makes of its item. -/
theorem wqGive_gives {t : State} {tok : Token} (h : Performs s (.wqGive pr scope t0 t1) a g l)
    (hall : scope ≠ .fibre → s.allDone a = true) (hl : a.fr.opL a.k = .val q) (hr : a.fr.opR a.k = .val x)
    (hpart : q.toNat / 32 = l.part)
    (hgo : (match s.queues.get? q.toNat with
      | none => (some (s, Token.val 3), s)
      | some w =>
        if 2 ^ 20 ≤ w.items.length then (some (s, .val 1), s)
        else if x = noItem then (some (s, .val 2), s)
        else (some ({ s with queues := s.queues.put q.toNat { w with items := w.items ++ [x] } }, .val 0), s))
      = (some (t, tok), s)) :
    exec (.wqGive pr scope t0 t1) s = .next (a.performed t (.wqGive pr scope t0 t1) tok) := by
  rw [exec_wqGive, execWqGive]
  refine irrevocable_next (r := s) h (fun hs => hall (by simpa using hs)) (queueFault_none hl hpart) ?_
  simp only [hl, hr, Token.word]
  exact hgo

theorem takeItem_none {fromTail : Bool} (hl : a.fr.opL a.k = .val q)
    (hnone : ∀ y, s.queues.get? q.toNat = some y → y.items = []) : takeItem fromTail a g l s = (some (s, .val noItem), s) := by
  unfold takeItem
  simp only [hl, Token.word]
  cases hq : s.queues.get? q.toNat with
  | none => rfl
  | some y => simp [hnone y hq]

theorem takeItem_head {rest : List Word} (hl : a.fr.opL a.k = .val q) (hq : s.queues.get? q.toNat = some w)
    (hsound : w.damaged = 0) (hitems : w.items = x :: rest) : takeItem false a g l s
      = (some ({ s with tick := s.tick + 1, queues := s.queues.put q.toNat { w with items := rest } }, .val x), s) := by
  obtain ⟨lid, items, damaged⟩ := w
  simp only at hsound hitems
  subst hsound hitems
  simp [takeItem, hl, Token.word, hq, Queue.damageLeft]

theorem takeItem_last {rest : List Word} (hl : a.fr.opL a.k = .val q) (hq : s.queues.get? q.toNat = some w)
    (hsound : w.damaged = 0) (hitems : w.items = rest ++ [x]) : takeItem true a g l s
      = (some ({ s with tick := s.tick + 1, queues := s.queues.put q.toNat { w with items := rest } }, .val x), s) := by
  obtain ⟨lid, items, damaged⟩ := w
  simp only at hsound hitems
  subst hsound hitems
  simp [takeItem, hl, Token.word, hq, Queue.damageLeft]

end Queues

/-- Settles O33. -/
theorem eventsAndQueuesServeTheirPartition : Obligations.EventsAndQueuesServeTheirPartition := by
  refine ⟨?events, ?queues⟩
  case events =>
    intro s a g l pr scope e v hl hr
    have hfault : eventFault a l = if e.toNat / 512 = l.part then none else some (.priv, 0) := by rw [eventFault, hl]; rfl
    have hvalues : badOperand (a.fr.operands a.k (.evtWait pr scope)) = none := by
      rw [show a.fr.operands a.k (.evtWait pr scope) = [a.fr.opL a.k, a.fr.opR a.k] from rfl, hl, hr]
      exact badOperand_val2 e v
    refine ⟨fun h hall hpart => ?_, fun h hpart => ?_, fun h hctx => ⟨fun hpart => ?_, fun hold hclean hpart heff => ?_⟩,
      event_addEvent s e.toNat v⟩
    · rw [exec_evtSig, execEvtSig]
      refine irrevocable_next (r := s) h (fun hs => hall (by simpa using hs)) (hfault.trans (if_pos hpart)) ?_
      simp only [hl, hr, Token.word]
    · rw [exec_evtSig, execEvtSig]
      exact irrevocable_refused h (hfault.trans (if_neg hpart))
    · rw [exec_evtWait, execEvtWait]
      exact waitFor_refused h hvalues hctx (hfault.trans (if_neg hpart))
    · rw [exec_evtWait, execEvtWait]
      refine (waitFor_tests h hvalues hctx (hfault.trans (if_pos hpart)) hold hclean heff).trans (congrArg _ ?_)
      simp only [hl, hr, Token.word, decide_eq_true_eq]
  case queues =>
    intro s a g l pr scope t0 t1 q x w hl
    refine ⟨fun hpart h hall hr => ⟨fun hq => ?_, fun hq hfull => ?_, fun hq hroom hx => ?_, fun hq hroom hx => ?_⟩,
      fun rest hpart h hq hsound hitems => ?_, fun rest hpart h hq hsound hitems => ?_, fun i hi hpart h hnone => ?_,
      fun i hi hpart h => ?_⟩
    · exact wqGive_gives h hall hl hr hpart (by rw [hq])
    · exact wqGive_gives h hall hl hr hpart (by rw [hq]; exact if_pos hfull)
    · exact wqGive_gives h hall hl hr hpart (by rw [hq]; exact (if_neg (by omega)).trans (if_pos hx))
    · exact wqGive_gives h hall hl hr hpart (by rw [hq]; exact (if_neg (by omega)).trans (if_neg hx))
    · rw [exec_wqTake, execWqTake]
      exact irrevocable_next h nofun (queueFault_none hl hpart) (takeItem_head hl hq hsound hitems)
    · rw [exec_wqSteal, execWqSteal]
      exact irrevocable_next h nofun (queueFault_none hl hpart) (takeItem_last hl hq hsound hitems)
    · simp only [List.mem_cons, List.not_mem_nil, or_false] at hi
      obtain rfl | rfl := hi
      · rw [exec_wqTake, execWqTake]
        exact irrevocable_next h nofun (queueFault_none hl hpart) (takeItem_none hl hnone)
      · rw [exec_wqSteal, execWqSteal]
        exact irrevocable_next h nofun (queueFault_none hl hpart) (takeItem_none hl hnone)
    · simp only [List.mem_cons, List.not_mem_nil, or_false] at hi
      obtain rfl | rfl | rfl := hi
      · rw [exec_wqGive, execWqGive]
        exact irrevocable_refused h (queueFault_priv hl hpart)
      · rw [exec_wqTake, execWqTake]
        exact irrevocable_refused h (queueFault_priv hl hpart)
      · rw [exec_wqSteal, execWqSteal]
        exact irrevocable_refused h (queueFault_priv hl hpart)

/-! ### Launches (R211) -/

section Launches
variable {s : State} {a : Acting} {g : Group} {l : Launch} {pr : Pred} {t0 t1 : Target} {c : Ctx}

/-- The load whose checks a `launch` outside a region makes. -/
def recordWant : Want := { kind := .load, align := 64, inRegion := false, formats := [], amo := none }

theorem launchWant_eq {i : Instr} (h : Performs s i a g l) : launchWant a = recordWant := by
  simp [launchWant, recordWant, h.outside]

theorem launchWaits_eq (h : Performs s (.launch pr t0 t1) a g l) (hc : s.fibreCtx a.f = some c) :
    s.launchWaits (.launch pr t0 t1) = s.checkWaits c recordWant (a.fr.opL a.k).word 240 := by
  simp [State.launchWaits, h.fires.1, h.fires.2, h.values, hc, launchWant_eq h]

/-- What performing a `launch` leaves: the record taken and the word still owed, or what made it wait or be refused. -/
def Acting.launched (a : Acting) : Option (State × Unit) × State → Host.Outcome State Fault Refusal
  | (none, s) => .next s
  | (some (s, _), _) => .next (s.setFrame a.fid (a.fr.handOver a.k))

/-- A `launch` whose operand passes its checks, in the oldest fault-free block, is performed. -/
theorem exec_launch_performs (h : Performs s (.launch pr t0 t1) a g l) (hc : s.fibreCtx a.f = some c)
    (hwait : s.checkWaits c recordWant (a.fr.opL a.k).word 240 = none) (hfault : launchFault a s = none)
    (hall : s.allDone a = true) :
    exec (.launch pr t0 t1) s = a.launched (performLaunch (.launch pr t0 t1) a g l s) := by
  have hw := (launchWaits_eq h hc).trans hwait
  obtain ⟨⟨hact, hcan⟩, hvalues, hout, hctx, hold, hclean, hdone⟩ := h
  rw [exec_launch, execLaunch]
  simp only [hw, irrevocableWith, hact, hcan, if_true, hout, hctx, hvalues, hfault, hold, hclean, hdone, hall, Option.toList_none,
    Bool.false_eq_true, if_false, List.append_nil, List.isEmpty_nil, Bool.and_self, Bool.not_true, Bool.or_true]
  rcases performLaunch (.launch pr t0 t1) a g l s with ⟨_ | ⟨t, u⟩, s'⟩ <;> rfl

/-- One that is refused when it is performed records the fault (log 92). -/
theorem exec_launch_refused {e : Cause × Word} (h : Performs s (.launch pr t0 t1) a g l) (hc : s.fibreCtx a.f = some c)
    (hwait : s.checkWaits c recordWant (a.fr.opL a.k).word 240 = none) (hfault : launchFault a s = none)
    (hall : s.allDone a = true) (hrefuse : launchRefuses a c l s = some e) :
    exec (.launch pr t0 t1) s = .next (a.records s (.launch pr t0 t1) e.1 e.2) := by
  rw [exec_launch_performs h hc hwait hfault hall, performLaunch, hc]
  simp only [hrefuse]
  rfl

/-- The first marked part of a record is what a `launch` finds (R297). -/
theorem find?_marked {s : State} {before after : List Seg} {x : Seg} (hx : s.marked x.loc.space x.loc.addr x.n = true)
    (hbefore : ∀ y ∈ before, s.marked y.loc.space y.loc.addr y.n = false) :
    (before ++ x :: after).find? (fun (g : Seg) => s.marked g.loc.space g.loc.addr g.n) = some x := by
  rw [List.find?_append, List.find?_eq_none.mpr fun y hy => by simp [hbefore y hy], Option.none_or,
    List.find?_cons_of_pos (p := fun g : Seg => s.marked g.loc.space g.loc.addr g.n) hx]

end Launches

/-- Settles O34. -/
theorem launchTakesTheRecord : Obligations.LaunchTakesTheRecord := by
  intro s a g l pr t0 t1 c h hc i win va want passes
  have hwant : launchWant a = want := launchWant_eq h
  refine ⟨?taken, ?fault, ?off, ?marked, fun t hwait => ?waits⟩
  case taken =>
    intro bs s1 t s2 hpass hrefuse hopen hmap htaking hread slot e ws hwrite k fr' t'
    obtain ⟨hwait, hfault, hall⟩ := hpass
    rw [exec_launch_performs h hc hwait hfault hall, performLaunch, hc]
    have hfree : (s.closed || s.mapHeld || (s.taking.get? (16 + l.part)).isSome) = false := by simp [hopen, hmap, win, htaking]
    have hread' : s.engineReads (s.recordPlaces c (a.fr.opL a.k).word) = (some bs, s1) := hread
    simp only [hrefuse, hfree, Bool.false_eq_true, if_false, hread']
    have hwrite' : s1.engineWrites (halvesOf (hbmLoc (s1.slotAddr (16 + l.part) (s1.expected (16 + l.part))))
        ((if a.f.level = .a then (dwordsOf bs).set 16 (setFld ((dwordsOf bs).getD 16 0) 0 12 (fld a.f.xroot 52 12))
          else dwordsOf bs).flatMap (fun x => natLe 8 x.toNat))
        ++ [(hbmLoc (s1.slotAddr (16 + l.part) (s1.expected (16 + l.part)) + 248),
          natLe 8 (s1.expected (16 + l.part) % 2 ^ 32))]) = (some t, s2) := hwrite
    simp only [hwrite', hwant]
    rfl
  case fault =>
    intro cause ta hwait hfault
    have hw := (launchWaits_eq h hc).trans hwait
    obtain ⟨⟨hact, hcan⟩, hvalues, hout, hctx, -, -, -⟩ := h
    rw [exec_launch, execLaunch]
    simp only [hw, irrevocableWith, hact, hcan, if_true, hout, hctx, hvalues, hfault, Option.toList_some, Bool.false_eq_true,
      if_false, List.append_nil]
    rfl
  case off =>
    intro hpass hwin
    obtain ⟨hwait, hfault, hall⟩ := hpass
    exact exec_launch_refused (e := (.priv, 0)) h hc hwait hfault hall (by
      rw [launchRefuses, show s.winOn (16 + l.part) = false from hwin]
      rfl)
  case marked =>
    intro segs before x after hpass hwin hcheck hsegs hx hbefore
    obtain ⟨hwait, hfault, hall⟩ := hpass
    refine exec_launch_refused (e := (.uncorr, x.va)) h hc hwait hfault hall ?_
    have hcheck' : (s.check c (launchWant a) (a.fr.opL a.k).word 240).1 = .ok (before ++ x :: after) := by
      rw [hwant, ← hsegs]
      exact hcheck
    rw [launchRefuses, show s.winOn (16 + l.part) = true from hwin, hcheck']
    simp only [Bool.not_true, Bool.false_eq_true, if_false, find?_marked hx hbefore, Option.map_some]
  case waits =>
    have hw := (launchWaits_eq h hc).trans hwait
    rw [exec_launch, execLaunch]
    simp only [hw]

end Sys2Proof.Machine
end

section
/-! PROOFS. System registers (R239 to R243, R308). -/

namespace Sys2Proof.Machine

/-! ### `srd` and `swr` (R239, R241) -/

section Instructions
variable {s : State} {a : Acting} {pr : Pred} {num : BitVec 12} {t0 t1 : Target}

theorem covers_iff {have_ need : Level} : have_.covers need = true ↔ need.code ≤ have_.code := by simp [Level.covers]

theorem exec_srd_oldest (h : Fires s (.srd pr num t0 t1) a) (hold : a.f.isOldest a.fr.seq = true) :
    exec (.srd pr num t0 t1) s = .next (if (readLevel a.f num.toNat).code ≤ a.f.level.code
      then a.sends s (.srd pr num t0 t1) (.val (s.sysRead a.f num.toNat)) 0 else a.records s (.srd pr num t0 t1) .priv 0) := by
  obtain ⟨hact, hcan⟩ := h
  rw [exec_srd, execSrd]
  simp only [hact, hcan, hold, Bool.and_self, if_true, covers_iff]
  split
  · rfl
  · have hflags : a.fr.flags ||| 0 = a.fr.flags := BitVec.or_zero
    simp only [Acting.records, Frame.finish, hflags]
    rfl

theorem exec_srd_younger (h : Fires s (.srd pr num t0 t1) a) (hold : a.f.isOldest a.fr.seq = false) :
    exec (.srd pr num t0 t1) s = .next s := by
  obtain ⟨hact, hcan⟩ := h
  rw [exec_srd, execSrd]
  simp [hact, hcan, hold]

theorem exec_swr_eq (h : Fires s (.swr pr num) a) : exec (.swr pr num) s = .next (a.commit s
    (if (writeLevel a.f num.toNat).code ≤ a.f.level.code then
      (match a.fr.opL a.k with
        | .val w => { a.fr.fire a.k with swrs := a.fr.swrs ++ [(a.k, num.toNat, w)] }
        | _ => a.fr.fire a.k)
    else (a.fr.fire a.k).fault a.k .priv 0 .firing)) := by
  obtain ⟨hact, hcan⟩ := h
  rw [exec_swr, execSwr]
  simp only [hact, hcan, if_true, Bool.not_eq_true', ← Bool.not_eq_true, covers_iff]
  by_cases hle : (writeLevel a.f num.toNat).code ≤ a.f.level.code
  · simp only [hle, not_true_eq_false, if_false, if_true]
    cases a.fr.opL a.k <;> rfl
  · simp only [hle, not_false_eq_true, if_true, if_false]

end Instructions

/-! ### The bits that a trap register keeps (R240, R243) -/

theorem toNat_and_notLow (v : Word) : (v &&& ~~~(0x1F : Word)).toNat % 32 = 0 := by
  have : (v &&& ~~~(0x1F : Word)) &&& 0x1F = 0 := by
    rw [BitVec.and_assoc, show (~~~(0x1F : Word) &&& 0x1F) = 0 by decide]
    exact BitVec.and_zero
  have h := congrArg BitVec.toNat this
  rw [BitVec.toNat_and] at h
  simpa [Nat.and_two_pow_sub_one_eq_mod (n := 5)] using h

theorem toNat_and_byte (v : Word) : (v &&& 0xFF).toNat = v.toNat % 256 := by
  rw [BitVec.toNat_and]
  exact Nat.and_two_pow_sub_one_eq_mod v.toNat 8

/-- The word of s.tstat: PL in bits [1:0], RESUME in bit 2, nothing else. -/
theorem toNat_tstat (pl : BitVec 2) (v : Word) : (pl.setWidth 64 ||| (v &&& 4)).toNat = pl.toNat + v.toNat / 4 % 2 * 4 := by
  have hand : v.toNat &&& 4 = v.toNat / 4 % 2 * 4 := by
    have := Nat.and_two_pow v.toNat 2
    rw [Nat.testBit_eq_decide_div_mod_eq] at this
    have hbit : v.toNat / 4 % 2 = 0 ∨ v.toNat / 4 % 2 = 1 := by omega
    obtain h | h := hbit <;> simpa [h] using this
  rw [BitVec.toNat_or, BitVec.toNat_and, BitVec.toNat_setWidth, Nat.mod_eq_of_lt (by have := pl.isLt; omega),
    show (4 : Word).toNat = 4 from rfl, hand]
  have hpl := pl.isLt
  have hbit : v.toNat / 4 % 2 < 2 := Nat.mod_lt _ (by norm_num)
  generalize pl.toNat = p at *
  generalize v.toNat / 4 % 2 = b at *
  interval_cases p <;> interval_cases b <;> rfl

theorem Bank.set_tstat (b : Bank) (h : Level) (v : Word) : nfld (b.set h 5 v).tstat 3 61 = 0
    ∧ nfld (b.set h 5 v).tstat 2 1 = nfld v 2 1
    ∧ nfld (b.set h 5 v).tstat 0 2 = (if nfld v 0 2 = 2 ∨ h.code < nfld v 0 2 then nfld b.tstat 0 2 else nfld v 0 2) := by
  set pl : BitVec 2 := if nfld v 0 2 = 2 ∨ h.code < nfld v 0 2 then fld b.tstat 0 2 else fld v 0 2 with hpl
  have hword : (b.set h 5 v).tstat.toNat = pl.toNat + v.toNat / 4 % 2 * 4 := toNat_tstat pl v
  have hlt := pl.isLt
  have hlow : nfld (b.set h 5 v).tstat 0 2 = pl.toNat := by
    rw [nfld_eq, hword]
    omega
  refine ⟨?_, ?_, ?_⟩
  · rw [nfld_eq, hword]
    omega
  · rw [nfld_eq, nfld_eq, hword]
    omega
  · rw [hlow, hpl, apply_ite BitVec.toNat]

/-! ### What a read of a system register depends on (R240) -/

/-- Every system register but `num` reads as before. -/
structure SameView (s t : State) (f f' : Fibre) (num : Nat) : Prop where
  bank : ∀ h, f'.bank h = f.bank h
  level : f'.level = f.level
  cell : t.cellOf f' = s.cellOf f
  idx : f'.idx = f.idx
  grp : f'.grp = f.grp
  rgnh : f'.rgnh = f.rgnh
  base : ∀ i, 0x040 + i ≠ num → vget f'.ncbase i 0 = vget f.ncbase i 0
  lim : ∀ i, 0x050 + i ≠ num → vget f'.nclim i 0 = vget f.nclim i 0
  sel : ∀ i, 0x080 + i ≠ num → vget (t.cell (s.cellOf f)).evsel i 0 = vget (s.cell (s.cellOf f)).evsel i 0
  cnt : ∀ i, 0x088 + i ≠ num → vget (t.cell (s.cellOf f)).evcnt i 0 = vget (s.cell (s.cellOf f)).evcnt i 0
  fcsr : 0x000 ≠ num → f'.fcsr = f.fcsr
  srng : 0x001 ≠ num → f'.srng = f.srng
  stepReg : 0x006 ≠ num → f'.stepReg = f.stepReg
  sdeleg : 0x020 ≠ num → f'.sdeleg = f.sdeleg
  mdeleg : 0x021 ≠ num → f'.mdeleg = f.mdeleg
  xroot : 0x030 ≠ num → f'.xroot = f.xroot
  xown : 0x031 ≠ num → f'.xown = f.xown
  xkeys : 0x032 ≠ num → f'.xkeys = f.xkeys

theorem SameView.sysRead {s t : State} {f f' : Fibre} {num m : Nat} (h : SameView s t f f' num) (hm : m ≠ num) :
    t.sysRead f' m = s.sysRead f m := by
  have hof : bankOf f' m = bankOf f m := by
    unfold bankOf
    rw [h.level]
  unfold State.sysRead
  rw [hof, h.bank, h.cell]
  refine if_congr Iff.rfl rfl ?_
  split_ifs
  · exact h.base _ (by omega)
  · exact h.lim _ (by omega)
  · exact h.sel _ (by omega)
  · exact h.cnt _ (by omega)
  · split
    · exact h.fcsr hm
    · exact h.srng hm
    · rw [h.idx]
    · rfl
    · exact h.grp
    · exact h.rgnh
    · exact h.stepReg hm
    · rw [h.level]
    · exact h.sdeleg hm
    · exact h.mdeleg hm
    · exact h.xroot hm
    · exact h.xown hm
    · exact h.xkeys hm
    · rfl

theorem SameView.refl (s : State) (f : Fibre) (num : Nat) : SameView s s f f num := by constructor <;> intros <;> rfl

/-! ### What a write at the commit leaves (R239, R242, R308) -/

/-- The write of `num` has left its fields under `mask`, and every other register as it was. -/
def State.Wrote (s t : State) (fid : Nat) (f : Fibre) (num : Nat) (v mask : Word) : Prop :=
  ∃ f', t.fibre? fid = some f' ∧ SameView s t f f' num ∧ t.sysRead f' num = v &&& mask

/-- The numbers from 0x020 up to 0x100 are no banked ones. -/
theorem not_isBanked {n : Nat} (hlo : 0x020 ≤ n) (hhi : n < 0x100) : isBanked n = false := by
  simp only [isBanked, Nat.mod_eq_of_lt hhi, Bool.and_eq_false_iff, decide_eq_false_iff_not]
  omega

section Writes
variable {s : State} {fid : Nat} {f : Fibre} (hf : s.fibre? fid = some f) (v : Word)
include hf

theorem sysWrite_ofFibre {num : Nat} (hnum : ¬(0x080 ≤ num ∧ num < 0x090)) :
    s.sysWrite fid num v = s.setFibre fid (f.sysWrite num v) := by
  rw [State.sysWrite, hf]
  exact if_neg hnum

theorem sysWrite_ofCell {num : Nat} (hnum : 0x080 ≤ num ∧ num < 0x090) :
    s.sysWrite fid num v = s.setCell (s.cellOf f) ((s.cell (s.cellOf f)).sysWrite num v) := by
  rw [State.sysWrite, hf]
  exact if_pos hnum

theorem wrote_plain {num : Nat} {mask : Word}
    (h : (num, mask) ∈ [(0x000, (0xFF : Word)), (0x001, BitVec.allOnes 64), (0x006, 3), (0x020, BitVec.allOnes 64)
      , (0x021, BitVec.allOnes 64), (0x030, BitVec.allOnes 64), (0x031, 0x3F), (0x032, BitVec.allOnes 64)]) :
    s.Wrote (s.sysWrite fid num v) fid f num v mask := by
  have hall : v &&& BitVec.allOnes 64 = v := BitVec.and_allOnes
  have hview := SameView.refl s f num
  simp only [List.mem_cons, Prod.mk.injEq, List.not_mem_nil, or_false] at h
  obtain ⟨rfl, rfl⟩ | ⟨rfl, rfl⟩ | ⟨rfl, rfl⟩ | ⟨rfl, rfl⟩ | ⟨rfl, rfl⟩ | ⟨rfl, rfl⟩ | ⟨rfl, rfl⟩ | ⟨rfl, rfl⟩ := h <;>
    rw [sysWrite_ofFibre hf v (by omega)] <;> refine ⟨_, fibre?_setFibre_same _ _ _, ?_, ?_⟩
  · exact { hview with fcsr := fun h => absurd rfl h }
  · rfl
  · exact { hview with srng := fun h => absurd rfl h }
  · exact hall.symm
  · exact { hview with stepReg := fun h => absurd rfl h }
  · rfl
  · exact { hview with sdeleg := fun h => absurd rfl h }
  · exact hall.symm
  · exact { hview with mdeleg := fun h => absurd rfl h }
  · exact hall.symm
  · exact { hview with xroot := fun h => absurd rfl h }
  · exact hall.symm
  · exact { hview with xown := fun h => absurd rfl h }
  · rfl
  · exact { hview with xkeys := fun h => absurd rfl h }
  · exact hall.symm

theorem wrote_base {i : Nat} (hi : i < 16) :
    s.Wrote (s.sysWrite fid (0x040 + i) v) fid f (0x040 + i) v (0x01FFFFFFFFFF0000 ||| 1) := by
  have hbank : isBanked (0x040 + i) = false := not_isBanked (by omega) (by omega)
  have hwrite : f.sysWrite (0x040 + i) v = { f with ncbase := vset f.ncbase i (v &&& (rangeBits ||| 1)) } := by
    unfold Fibre.sysWrite
    rw [hbank, if_neg Bool.false_ne_true, if_pos (by omega), Nat.add_sub_cancel_left]
  rw [sysWrite_ofFibre hf v (by omega), hwrite]
  refine ⟨_, fibre?_setFibre_same _ _ _, ?_, ?_⟩
  · exact { SameView.refl s f (0x040 + i) with base := fun j hj => vget_vset_other _ _ _ (by omega) }
  · unfold State.sysRead
    rw [hbank, if_neg Bool.false_ne_true, if_pos (by omega), Nat.add_sub_cancel_left]
    exact vget_vset_same _ _ _ hi

theorem wrote_lim {i : Nat} (hi : i < 16) :
    s.Wrote (s.sysWrite fid (0x050 + i) v) fid f (0x050 + i) v 0x01FFFFFFFFFF0000 := by
  have hbank : isBanked (0x050 + i) = false := not_isBanked (by omega) (by omega)
  have hwrite : f.sysWrite (0x050 + i) v = { f with nclim := vset f.nclim i (v &&& rangeBits) } := by
    unfold Fibre.sysWrite
    rw [hbank, if_neg Bool.false_ne_true, if_neg (by omega), if_pos (by omega), Nat.add_sub_cancel_left]
  rw [sysWrite_ofFibre hf v (by omega), hwrite]
  refine ⟨_, fibre?_setFibre_same _ _ _, ?_, ?_⟩
  · exact { SameView.refl s f (0x050 + i) with lim := fun j hj => vget_vset_other _ _ _ (by omega) }
  · unfold State.sysRead
    rw [hbank, if_neg Bool.false_ne_true, if_neg (by omega), if_pos (by omega), Nat.add_sub_cancel_left]
    exact vget_vset_same _ _ _ hi

omit hf in
/-- A cell that has been put back holds what was put. -/
theorem cell_setCell_same (s : State) (c : Nat) (x : CellSt) : (s.setCell c x).cell c = x := by
  simp [State.cell, State.setCell]

theorem wrote_sel {i : Nat} (hi : i < 8) : s.Wrote (s.sysWrite fid (0x080 + i) v) fid f (0x080 + i) v 0xFF := by
  have hbank : isBanked (0x080 + i) = false := not_isBanked (by omega) (by omega)
  have hwrite : (s.cell (s.cellOf f)).sysWrite (0x080 + i) v
      = { s.cell (s.cellOf f) with evsel := vset (s.cell (s.cellOf f)).evsel i (v &&& 0xFF) } := by
    rw [CellSt.sysWrite, if_pos (by omega), Nat.add_sub_cancel_left]
  rw [sysWrite_ofCell hf v (by omega), hwrite]
  have hcell := cell_setCell_same s (s.cellOf f) { s.cell (s.cellOf f) with evsel := vset (s.cell (s.cellOf f)).evsel i (v &&& 0xFF) }
  set t := s.setCell (s.cellOf f) { s.cell (s.cellOf f) with evsel := vset (s.cell (s.cellOf f)).evsel i (v &&& 0xFF) }
  have hof : t.cellOf f = s.cellOf f := rfl
  refine ⟨f, hf, ?_, ?_⟩
  · exact { SameView.refl s f (0x080 + i) with
      sel := fun j hj => by rw [hcell]; exact vget_vset_other _ _ _ (by omega)
      cnt := fun j _ => by rw [hcell] }
  · unfold State.sysRead
    rw [hbank, if_neg Bool.false_ne_true, if_neg (by omega), if_neg (by omega), if_pos (by omega),
      Nat.add_sub_cancel_left, hof, hcell]
    exact vget_vset_same _ _ _ hi

theorem wrote_cnt {i : Nat} (hi : i < 8) :
    s.Wrote (s.sysWrite fid (0x088 + i) v) fid f (0x088 + i) v (BitVec.allOnes 64) := by
  have hbank : isBanked (0x088 + i) = false := not_isBanked (by omega) (by omega)
  have hwrite : (s.cell (s.cellOf f)).sysWrite (0x088 + i) v
      = { s.cell (s.cellOf f) with evcnt := vset (s.cell (s.cellOf f)).evcnt i v } := by
    rw [CellSt.sysWrite, if_neg (by omega), if_pos (by omega), Nat.add_sub_cancel_left]
  rw [sysWrite_ofCell hf v (by omega), hwrite]
  have hcell := cell_setCell_same s (s.cellOf f) { s.cell (s.cellOf f) with evcnt := vset (s.cell (s.cellOf f)).evcnt i v }
  set t := s.setCell (s.cellOf f) { s.cell (s.cellOf f) with evcnt := vset (s.cell (s.cellOf f)).evcnt i v }
  have hof : t.cellOf f = s.cellOf f := rfl
  refine ⟨f, hf, ?_, ?_⟩
  · exact { SameView.refl s f (0x088 + i) with
      cnt := fun j hj => by rw [hcell]; exact vget_vset_other _ _ _ (by omega)
      sel := fun j _ => by rw [hcell] }
  · unfold State.sysRead
    rw [hbank, if_neg Bool.false_ne_true, if_neg (by omega), if_neg (by omega), if_neg (by omega),
      if_pos (by omega), Nat.add_sub_cancel_left, hof, hcell, BitVec.and_allOnes]
    exact vget_vset_same _ _ _ hi

/-- A write of a read-only register changes nothing (R239). -/
theorem sysWrite_readOnly {num : Nat} (h : num ∈ [0x002, 0x003, 0x004, 0x005, 0x007]) :
    s.sysWrite fid num v = s.setFibre fid f := by
  simp only [List.mem_cons, List.not_mem_nil, or_false] at h
  obtain rfl | rfl | rfl | rfl | rfl := h <;> exact sysWrite_ofFibre hf v (by omega)

end Writes

/-- Settles O31. -/
theorem systemRegistersKeepTheirLevelAndBits : Obligations.SystemRegistersKeepTheirLevelAndBits := by
  refine ⟨?instructions, ?bits, ?writes⟩
  case instructions =>
    intro s a pr num t0 t1 v
    refine ⟨fun h => ⟨fun hold hle => ?_, fun hold hlt => ?_, exec_srd_younger h⟩,
      fun h => ⟨fun hl hle => ?_, fun hl hle => ?_, fun hlt => ?_⟩⟩
    · rw [exec_srd_oldest h hold, if_pos hle]
    · rw [exec_srd_oldest h hold, if_neg (by omega)]
    · rw [exec_swr_eq h, if_pos hle, hl]
    · rw [exec_swr_eq h, if_pos hle]
      obtain hl | hl := hl <;> rw [hl]
    · rw [exec_swr_eq h, if_neg (by omega)]
  case bits =>
    intro b h v _
    obtain ⟨hrest, hresume, hpl⟩ := b.set_tstat h v
    exact ⟨hrest, hresume, hpl, toNat_and_notLow v, toNat_and_notLow v, toNat_and_byte v, toNat_and_byte v, rfl, rfl⟩
  case writes =>
    intro s fid num f v hf t whole range own ofCell readOnly hnum
    have hwrote : ∀ p ∈ own ++ ofCell, p.1 = num → s.Wrote t fid f num v p.2 := by
      rintro ⟨n, mask⟩ hp rfl
      simp only [own, ofCell, List.mem_append, List.mem_map, List.mem_range, Prod.mk.injEq] at hp
      obtain ((hp | ⟨i, hi, rfl, rfl⟩) | ⟨i, hi, rfl, rfl⟩) | ⟨i, hi, rfl, rfl⟩ | ⟨i, hi, rfl, rfl⟩ := hp
      · exact wrote_plain hf v hp
      · exact wrote_base hf v hi
      · exact wrote_lim hf v hi
      · exact wrote_sel hf v hi
      · exact wrote_cnt hf v hi
    have hview : ∃ f', t.fibre? fid = some f' ∧ SameView s t f f' num ∧ (num ∈ readOnly → t.sysRead f' num = s.sysRead f num) := by
      by_cases hro : num ∈ readOnly
      · have ht : t = s.setFibre fid f := sysWrite_readOnly hf v hro
        rw [ht]
        exact ⟨f, fibre?_setFibre_same _ _ _, { SameView.refl s f num with }, fun _ => rfl⟩
      · obtain h | ⟨p, hp, hpn⟩ := hnum
        · exact absurd h hro
        · obtain ⟨f', hf', hv, -⟩ := hwrote p hp hpn
          exact ⟨f', hf', hv, fun h => absurd h hro⟩
    obtain ⟨f', hf', hsame, hread⟩ := hview
    refine ⟨f', hf', fun m hm => hsame.sysRead hm, hread, fun p hp hpn => ?_⟩
    obtain ⟨f'', hf'', -, hval⟩ := hwrote p hp hpn
    obtain rfl : f' = f'' := Option.some.inj (hf'.symm.trans hf'')
    exact hval

end Sys2Proof.Machine
end

section
/-! PROOFS. Placed fibres, links and gating, errors, and the SPDM exchange (R185, R289 to R298, R303, R306, R307). -/

namespace Sys2Proof.Machine

/-! ### What a fibre holds when its group is placed (R185) -/

theorem vget_replicate {α : Type} {n i : Nat} (a z : α) (h : i < n) : vget (Vector.replicate n a) i z = a := by
  simp [vget, Vector.getD, h]

theorem State.entryFibre_g {s : State} {gid m i : Nat} {g : Group} {l : Launch} :
    (s.entryFibre gid g l m i).g = vset (vset (Vector.replicate 64 0) 0 (l.word 8)) 63
      (if nfld (l.word 120) 0 32 = 0 then 0 else l.word 112
        + BitVec.ofNat 64 (nfld (l.word 120) 0 32 * ((g.num * (l.cells / l.core) + m / l.core) * l.perCell + i + 1))) := rfl

/-- Settles O51: the registers of `entryFibre` are a vector of zeros with elements 0 and 63 set; the other clauses are fields
of its definition. -/
theorem placedFibresStartClean : Obligations.PlacedFibresStartClean := by
  intro s gid m i n g l f num
  refine ⟨?_, ?_, ?_, ?_, rfl, rfl, rfl, rfl, rfl, rfl, rfl, rfl, rfl, rfl, rfl⟩
  · rw [State.entryFibre_g, vget_vset_other _ _ _ (by decide), vget_vset_same _ _ _ (by decide)]
  · rw [State.entryFibre_g, vget_vset_same _ _ _ (by decide)]
  · intro hlo hhi
    rw [State.entryFibre_g, vget_vset_other _ _ _ (by omega), vget_vset_other _ _ _ (by omega), vget_replicate _ _ (by omega)]
  · exact fun hn => ⟨vget_replicate _ _ hn, vget_replicate _ _ hn⟩

/-! ### Replays, credits and gating (R289, R292, R293) -/

theorem die_setDie_same (s : State) (d : Nat) (x : Die) : (s.setDie d x).die d = x := by simp [State.die, State.setDie]

theorem die_countSector (sec src n d : Nat) (s : State) : (countSector sec src n s).die d = s.die d := by
  obtain ⟨c, hc⟩ := countSector_keeps sec src n s
  rw [hc]
  rfl

theorem credit_put_same (s : State) (link chan : Nat) (c : Credit) :
    ({ s with credits := s.credits.put (32 * link + chan) c } : State).credit link chan = c := by
  simp [State.credit]

/-- The channels of a link have keys of their own. -/
theorem credit_put_other (s : State) {link chan d : Nat} (c : Credit) (hne : d ≠ chan) :
    ({ s with credits := s.credits.put (32 * link + chan) c } : State).credit link d = s.credit link d :=
  Dict.getD_put_other _ _ _ _ _ (by omega)

theorem credit_countSector (sec src n link chan : Nat) (s : State) :
    (countSector sec src n s).credit link chan = s.credit link chan := by
  obtain ⟨c, hc⟩ := countSector_keeps sec src n s
  rw [hc]
  rfl

/-- Dropping an L1 line changes the state's cells only. -/
theorem dropL1_keeps (s : State) (cell line : Nat) : ∃ d, s.dropL1 cell line = { s with cells := d } := by
  exact iteInduction (motive := fun t : State => ∃ d, t = { s with cells := d }) (fun _ => ⟨_, rfl⟩) (fun _ => ⟨s.cells, rfl⟩)

theorem foldl_dropL1_keeps (l : List Nat) (cell : Nat) (s : State) :
    ∃ d, l.foldl (fun s line => s.dropL1 cell line) s = { s with cells := d } := by
  refine List.foldlRecOn l _ (motive := fun t : State => ∃ d, t = { s with cells := d }) ⟨s.cells, rfl⟩ ?_
  rintro _ ⟨d, rfl⟩ line -
  obtain ⟨d', hd⟩ := dropL1_keeps { s with cells := d } cell line
  exact ⟨d', hd⟩

section Links
variable {s : State} {die link chan cell : Nat}

theorem beatReplay_counts (h : (s.die die).replays < 16) (hin : (s.die die).replaysIn < 16) (hup : (s.die die).linkUp = true)
    (hdie : die < 32) : ∃ t k into, exec (.beatReplay die) s = .next t ∧ t.die die = (s.die die).setReplays into k
      ∧ (k = 0 ∨ k = (if into then (s.die die).replaysIn else (s.die die).replays) + 1)
      ∧ (16 ≤ k → ∃ lost, t.turn = some (.ev (.linkDown die lost))) := by
  rw [exec_beatReplay, execBeatReplay, if_neg (by simp [h, hin, hup, hdie])]
  generalize htoss : s.toss = c
  obtain ⟨into, s1⟩ := c
  dsimp only
  generalize htoss1 : s1.toss = c1
  obtain ⟨ok, s2⟩ := c1
  dsimp only
  generalize hk : (if ok = true then 0 else (if into = true then (s.die die).replaysIn else (s.die die).replays) + 1) = k
  have hs3 : (countSector die 9 1 (s2.setDie die ((s.die die).setReplays into k))).die die = (s.die die).setReplays into k :=
    (die_countSector _ _ _ _ _).trans (die_setDie_same _ _ _)
  generalize countSector die 9 1 (s2.setDie die ((s.die die).setReplays into k)) = s3 at hs3 ⊢
  replace hk : k = 0 ∨ k = (if into = true then (s.die die).replaysIn else (s.die die).replays) + 1 := by
    rw [← hk]
    split
    · exact .inl rfl
    · exact .inr rfl
  by_cases hlast : k < 16
  · rw [if_pos hlast]
    exact ⟨_, k, into, rfl, hs3, hk, fun hge => absurd hlast (Nat.not_lt.2 hge)⟩
  · rw [if_neg hlast]
    exact ⟨_, k, into, rfl, hs3, hk, fun _ => ⟨_, rfl⟩⟩

theorem creditReturn_adds {n : Nat} (hlink : isLink link = true) (hchan : chan < 17) (ok : Bool) :
    let c := s.credit link chan
    let c' := if ok = true then { c with have_ := c.have_ + n } else { c with lost := c.lost + n }
    exec (.creditReturn link chan n ok) s = .next { s with credits := s.credits.put (32 * link + chan) c' } := by
  intro c c'
  rw [exec_creditReturn, execCreditReturn, if_pos (by simp [hlink, hchan])]

theorem creditAudit_regrants (hlink : isLink link = true) (hchan : chan < 17)
    (hdue : (s.credit link chan).auditedAt + 2000000 ≤ s.time) :
    let left := (s.credit link chan).have_ - Config.takenCredits s.tick
    ∃ t, exec (.creditAudit link chan) s = .next t ∧ t.credit link chan
      = { have_ := left + (s.credit link chan).lost, auditedAt := s.time
          regrants := (s.credit link chan).regrants + (if left < left + (s.credit link chan).lost then 1 else 0), lost := 0 } := by
  intro left
  have hopen : (decide (s.time < (s.credit link chan).auditedAt + msUnits) || decide (17 ≤ chan) || !isLink link) = false := by
    rw [decide_eq_false (p := s.time < (s.credit link chan).auditedAt + msUnits) (Nat.not_lt.2 hdue), decide_eq_false (Nat.not_le.2 hchan), hlink]
    rfl
  rw [exec_creditAudit, execCreditAudit, hopen, if_neg Bool.false_ne_true]
  extract_lets b c' t
  have ht : t.credit link chan = c' := credit_put_same { s with tick := s.tick + 1 } link chan c'
  exact ⟨_, rfl, iteInduction (motive := fun u : State => u.credit link chan = c')
    (fun _ => (credit_countSector _ _ _ _ _ _).trans ht) (fun _ => ht)⟩

theorem gateTimer_clears (hon : (s.reg 0x48).getLsbD 0 = true) (hgated : (s.cell cell).gated = false)
    (hplaced : s.placed cell = false) (hidle : (s.cell cell).idleSince + 20000 ≤ s.time) :
    ∃ t, exec (.gateTimer cell) s = .next t
      ∧ t.cell cell = { CellSt.init with gated := true, idleSince := (s.cell cell).idleSince }
      ∧ (∀ o, o < 0x100000 → t.cmem.byte (cell * 0x100000 + o) = 0) ∧ t.fibres = s.fibres ∧ t.mem = s.mem := by
  have hfld : ¬ fld (s.reg 0x48) 0 1 = 0 := fun h => by
    have hbit : (fld (s.reg 0x48) 0 1).getLsbD 0 = true := by simpa [fld] using hon
    rw [h] at hbit
    exact absurd hbit (by decide)
  have hopen : ¬ (fld (s.reg 0x48) 0 1 = 0 ∨ (s.cell cell).gated = true ∨ s.placed cell = true
      ∨ s.time < (s.cell cell).idleSince + 10 * usUnits) := by
    rintro (h | h | h | h)
    · exact hfld h
    · simp [hgated] at h
    · simp [hplaced] at h
    · exact Nat.not_lt.2 hidle h
  obtain ⟨d, hd⟩ := foldl_dropL1_keeps ((s.cell cell).l1.map Prod.fst) cell (s.clearCell cell)
  rw [exec_gateTimer, execGateTimer, if_neg hopen, hd]
  refine ⟨_, rfl, cell_setCell_same _ _ _, fun o ho => ?_, rfl, rfl⟩
  exact (Mem.byte_clear _ _ _ _).trans (if_pos (by omega))

end Links

/-- Settles O56: each event by the branch of its definition that its hypotheses pick; the counters that it also advances
keep dies and credits. -/
theorem linksCreditsAndGating : Obligations.LinksCreditsAndGating := by
  intro s die link chan n cell
  refine ⟨beatReplay_counts, fun hlink hchan => ⟨fun ok => ?_, fun hdue => ?_⟩, gateTimer_clears, fun hlive hgated hplaced => ?_,
    fun hfenced => ?_⟩
  · exact ⟨_, creditReturn_adds hlink hchan ok, credit_put_same _ _ _ _, fun d _ hne => credit_put_other _ _ hne⟩
  · obtain ⟨t, ht, hcredit⟩ := creditAudit_regrants hlink hchan hdue
    refine ⟨t, ht, ?_⟩
    rw [hcredit]
    simp
  · have hdown : ¬ s.dieDown (dieOfCell cell) = true := by simp [State.dieDown, hlive]
    rw [exec_cellWake, execCellWake, if_neg hdown, if_pos (by simp [hgated, hplaced])]
  · have hdown : s.dieDown (dieOfCell cell) = true := by simp [State.dieDown, hfenced]
    rw [exec_cellWake, execCellWake, if_pos hdown]
    rfl

/-! ### Module errors (R297, R298, R307) -/

/-- A field that was set reads as set. -/
theorem fld_setFld_same {w : Nat} (x : BitVec w) (lo n : Nat) (v : BitVec n) (h : lo + n ≤ w) : fld (setFld x lo n v) lo n = v := by
  apply BitVec.eq_of_getLsbD_eq
  intro i hi
  simp [fld, setFld, hi, show lo + i < w by omega]

/-- A field that ends below the one that was set is as before. -/
theorem fld_setFld_below {w : Nat} (x : BitVec w) (lo n : Nat) (v : BitVec n) (l k : Nat) (h : l + k ≤ lo) :
    fld (setFld x lo n v) l k = fld x l k := by
  apply BitVec.eq_of_getLsbD_eq
  intro i hi
  have hlow : l + i < lo := by omega
  by_cases hw : l + i < w
  · simp [fld, setFld, hi, hw, hlow]
  · simp [fld, setFld, hw, BitVec.getLsbD_of_ge x (l + i) (by omega)]

/-- What MODERR becomes by an error (R307): its KIND and WHERE when it holds none, else one more in MORE. -/
def moreErrors (m : Word) (kind place : Nat) : Word :=
  if nfld m 0 4 = 0 then BitVec.ofNat 64 (kind + place % 32 * 16)
  else setFld m 16 16 (BitVec.ofNat 16 (min (nfld m 16 16 + 1) 0xFFFF))

theorem moreErrors_first {m : Word} (kind place : Nat) (h : nfld m 0 4 = 0) :
    moreErrors m kind place = BitVec.ofNat 64 (kind + place % 32 * 16) := if_pos h

theorem moreErrors_kind {m : Word} (kind place : Nat) (h : nfld m 0 4 ≠ 0) : nfld (moreErrors m kind place) 0 4 = nfld m 0 4 := by
  rw [moreErrors, if_neg h]
  exact congrArg BitVec.toNat (fld_setFld_below m 16 16 _ 0 4 (by decide))

theorem moreErrors_more {m : Word} (kind place : Nat) (h : nfld m 0 4 ≠ 0) :
    nfld (moreErrors m kind place) 16 16 = min (nfld m 16 16 + 1) 0xFFFF := by
  rw [moreErrors, if_neg h]
  refine (congrArg BitVec.toNat (fld_setFld_same m 16 16 _ (by decide))).trans ?_
  rw [BitVec.toNat_ofNat]
  exact Nat.mod_eq_of_lt (by omega)

/-- The ports whose hosts are told of an error of a kind (R307). -/
def State.toldPorts (s : State) (kind : Nat) : List Nat :=
  if kind = 1 then s.ports.map Prod.fst else if 1 ≤ s.owner ∧ s.owner ≤ 12 then [s.owner - 1] else []

theorem foldl_tellHost (l : List Nat) (s : State) : l.foldl State.tellHost s
    = { s with out := s.out ++ l.map (fun p => OutMsg.msix p (nfld (s.reg 0x88) 0 11)) } := by
  induction l generalizing s with
  | nil => simp
  | cons p l ih =>
    rw [List.foldl_cons, ih]
    simp [State.tellHost, State.emit, State.reg]

theorem reg_setReg_same (s : State) (off : Nat) (v : Word) : (s.setReg off v).reg off = v := by simp [State.reg, State.setReg]

theorem reg_setReg_other (s : State) {off o : Nat} (v : Word) (h : o ≠ off) : (s.setReg off v).reg o = s.reg o :=
  Dict.getD_put_other _ _ _ _ _ h

/-- After the start an error writes MODERR and tells the hosts; before, it fails the start. -/
theorem moduleError_eq {s : State} {kind place : Nat} (h : 5 ≤ s.phase) : s.moduleError kind place
    = { s.setReg 0x10 (moreErrors (s.reg 0x10) kind place) with
        out := s.out ++ (s.toldPorts kind).map (fun p => OutMsg.msix p (nfld (s.reg 0x88) 0 11)) } := by
  let t := s.setReg 0x10 (moreErrors (s.reg 0x10) kind place)
  have hvec : t.reg 0x88 = s.reg 0x88 := reg_setReg_other s _ (by decide)
  have howner : t.owner = s.owner :=
    congrArg (fun w : Word => nfld w 0 5) (reg_setReg_other s _ (by decide))
  rw [State.moduleError, if_neg (Nat.not_lt.2 h)]
  change ite (kind = 1) (List.foldl State.tellHost t _) (ite (1 ≤ t.owner ∧ t.owner ≤ 12) (t.tellHost (t.owner - 1)) t) = _
  rw [howner]
  unfold State.toldPorts
  split
  · rw [foldl_tellHost, hvec]
    rfl
  · split
    · rw [State.tellHost, hvec]
      rfl
    · simp [t, State.setReg]

theorem moduleError_keeps {s : State} (kind place : Nat) (h : 5 ≤ s.phase) :
    (s.moduleError kind place).badLines = s.badLines ∧ (s.moduleError kind place).mem = s.mem
    ∧ (s.moduleError kind place).closed = s.closed
    ∧ (s.moduleError kind place).out = s.out ++ (s.toldPorts kind).map (fun p => OutMsg.msix p (nfld (s.reg 0x88) 0 11)) := by
  rw [moduleError_eq h]
  exact ⟨rfl, rfl, rfl, rfl⟩

theorem mem_addOnce {l : List Nat} {n m : Nat} : m ∈ addOnce l n ↔ m ∈ l ∨ m = n := by
  unfold addOnce
  split
  · rename_i h
    refine ⟨.inl, fun hm => hm.elim id fun hm => ?_⟩
    rw [hm]
    simpa using h
  · simp

/-- MODERR after an error is recorded of what it held, read in a state with the same MODERR. -/
theorem moduleError_recorded {s r : State} (kind place : Nat) (h : 5 ≤ r.phase) (hreg : r.reg 0x10 = s.reg 0x10) :
    (nfld (s.reg 0x10) 0 4 = 0 → (r.moduleError kind place).reg 0x10 = BitVec.ofNat 64 (kind + place % 32 * 16))
    ∧ (nfld (s.reg 0x10) 0 4 ≠ 0 → nfld ((r.moduleError kind place).reg 0x10) 0 4 = nfld (s.reg 0x10) 0 4
      ∧ nfld ((r.moduleError kind place).reg 0x10) 16 16 = min (nfld (s.reg 0x10) 16 16 + 1) 0xFFFF) := by
  have hword : (r.moduleError kind place).reg 0x10 = moreErrors (s.reg 0x10) kind place := by
    rw [moduleError_eq h, hreg]
    exact reg_setReg_same r 0x10 _
  rw [hword]
  exact ⟨moreErrors_first kind place, fun hk => ⟨moreErrors_kind kind place hk, moreErrors_more kind place hk⟩⟩

theorem l1Line_dropL1 (s : State) (cell line : Nat) : (s.dropL1 cell line).l1Line cell line = none := by
  unfold State.dropL1
  dsimp only
  split
  · simp [State.l1Line, cell_setCell_same]
  case isFalse h => exact Option.not_isSome_iff_eq_none.1 h

theorem dies_dropL1 (s : State) (cell line : Nat) : (s.dropL1 cell line).dies = s.dies := by
  obtain ⟨d, hd⟩ := dropL1_keeps s cell line
  rw [hd]

section Errors
variable {s t : State} {loc gid step : Nat}

theorem uncorrectable_cell (hloc : loc < 0x80000000) : exec (.uncorrectableError 0 loc) s
    = .next { s with badChunks := addOnce s.badChunks (loc / 64) } := by
  rw [exec_uncorrectableError, execUncorrectableError, if_pos hloc]

theorem uncorrectable_hbm (hloc : loc < hbmEnd) : exec (.uncorrectableError 1 loc) s
    = .next (State.moduleError { s with badLines := addOnce s.badLines (lineOf loc) } 3 (sectorOf loc)) := by
  rw [exec_uncorrectableError, execUncorrectableError, if_neg (Nat.not_le.2 hloc)]

theorem uncorrectable_llc (hloc : hbmEnd ≤ loc) (hline : (s.llc.get? (lineOf loc)).isSome = true) :
    exec (.uncorrectableError 1 loc) s
      = .next (State.moduleError { s with badLines := addOnce s.badLines (lineOf loc) } 3 (cachePlace (lineOf loc)).1) := by
  rw [exec_uncorrectableError, execUncorrectableError, if_pos hloc, if_pos hline]

theorem uncorrectable_base : exec (.uncorrectableError 4 loc) s = .next (State.moduleError { s with closed := true } 1 loc) := rfl

theorem uncorrectable_l1 : ∃ u, exec (.uncorrectableError 2 loc) s = .next u
    ∧ u.l1Line (loc % 0x100000) (loc / 0x100000) = none
    ∧ (u.die (dieOfCell (loc % 0x100000))).cec = min 0xFFFFFFFF ((s.die (dieOfCell (loc % 0x100000))).cec + 1) := by
  refine ⟨_, rfl, ?_, ?_⟩
  · exact (congrArg (fun c : CellSt => c.l1.get? (loc / 0x100000)) (cell_setCell_same _ (loc % 0x100000) _)).trans
      (l1Line_dropL1 s (loc % 0x100000) (loc / 0x100000))
  · refine (congrArg Die.cec (die_setDie_same _ _ _)).trans ?_
    exact congrArg (fun d : Dict Die => min 0xFFFFFFFF ((d.getD _ Die.init).cec + 1)) (dies_dropL1 s _ _)

theorem uncorrectable_regs (hholder : s.holder loc = some gid) (hend : s.endGroup gid 8 .lost = some t) :
    exec (.uncorrectableError 3 loc) s = .next (t.relaunch gid) := by
  rw [exec_uncorrectableError, execUncorrectableError, hholder]
  dsimp only
  rw [hend]

theorem thermal_lowers (hstep : step ≤ 2) (hlow : nfld (s.reg 0x40) 0 2 < step) : exec (.thermalThrottle step loc) s
    = .next ((s.setReg 0x40 (BitVec.ofNat 64 step)).moduleError 4 loc) := by
  rw [exec_thermalThrottle, execThermalThrottle, if_pos ⟨hstep, hlow⟩]

end Errors

/-- Settles O57: each error is its mark, drop or count followed by `moduleError`, whose effect on MODERR and on the hosts is
`moduleError_eq`. -/
theorem errorsAreMarkedAndReported : Obligations.ErrorsAreMarkedAndReported := by
  intro s t loc gid step told recorded
  refine ⟨fun hloc => ?_, fun hphase => ⟨fun hloc => ?_, fun hloc hline => ?_, ?_, fun hstep hlow => ?_⟩, fun hphase => ?_,
    uncorrectable_l1, uncorrectable_regs, fun hloc => ?_, rfl, rfl⟩
  · exact ⟨_, uncorrectable_cell hloc, mem_addOnce.2 (.inr rfl), fun c hc => (mem_addOnce.1 hc).symm, rfl, rfl⟩
  · obtain ⟨hbad, hmem, -, hout⟩ := moduleError_keeps 3 (sectorOf loc)
      (s := { s with badLines := addOnce s.badLines (lineOf loc) }) hphase
    refine ⟨_, uncorrectable_hbm hloc, hbad ▸ mem_addOnce.2 (.inr rfl), hmem, moduleError_recorded 3 _ hphase rfl,
      fun hlo hhi => hout.trans ?_⟩
    refine congrArg (fun l : List Nat => s.out ++ l.map told) (?_ : s.toldPorts 3 = [s.owner - 1])
    rw [State.toldPorts, if_neg (by decide), if_pos ⟨hlo, hhi⟩]
  · obtain ⟨hbad, hmem, -, -⟩ := moduleError_keeps 3 (cachePlace (lineOf loc)).1
      (s := { s with badLines := addOnce s.badLines (lineOf loc) }) hphase
    exact ⟨_, uncorrectable_llc hloc hline, hbad ▸ mem_addOnce.2 (.inr rfl), hmem, moduleError_recorded 3 _ hphase rfl⟩
  · obtain ⟨-, -, hclosed, hout⟩ := moduleError_keeps 1 loc (s := { s with closed := true }) hphase
    exact ⟨_, uncorrectable_base, hclosed, moduleError_recorded 1 _ hphase rfl, hout⟩
  · have hphase' : 5 ≤ (s.setReg 0x40 (BitVec.ofNat 64 step)).phase := by
      rw [State.phase, reg_setReg_other s _ (by decide)]
      exact hphase
    refine ⟨_, thermal_lowers hstep hlow, ?_, moduleError_recorded 4 _ hphase' (reg_setReg_other s _ (by decide))⟩
    rw [moduleError_eq hphase']
    exact (reg_setReg_other (s.setReg 0x40 (BitVec.ofNat 64 step)) _ (by decide)).trans (reg_setReg_same s _ _)
  · exact uncorrectable_base.trans (congrArg Host.Outcome.next (if_pos hphase))
  · rw [exec_correctedError, execCorrectedError, if_pos hloc]
    rfl

/-! ### The SPDM exchange (R306) -/

section Spdm
variable {s : State} {port slot index keyId stream : Nat} {nonce d proof : Word} {offered : List Nat} {key : Vec} {ws : List Word}

theorem session_setSession_same (s : State) (port : Nat) (y : Session) : (s.setSession port y).session port = y := by
  simp [State.session, State.setSession]

theorem session_reply (s : State) (port : Nat) (kind : String) (body : List Word) : (s.reply port kind body).session port
    = { s.session port with transcript := (s.session port).transcript ++ body } := session_setSession_same _ _ _

theorem out_reply (s : State) (port : Nat) (kind : String) (body : List Word) :
    (s.reply port kind body).out = s.out ++ [.spdm port kind body] := rfl

/-- A request that sets its session and replies is answered. -/
theorem answered_of {i : Instr} {y : Session} {kind : String} {body : List Word}
    (h : exec i s = .next ((s.setSession port y).reply port kind body)) : ∃ t b, exec i s = .next t
      ∧ t.session port = { y with transcript := y.transcript ++ b } ∧ t.out = s.out ++ [.spdm port kind b] := by
  refine ⟨_, body, h, ?_, rfl⟩
  rw [session_reply, session_setSession_same]

theorem getCapabilities_answered (h : (s.session port).versionDone = true) : exec (.getCapabilities port) s
    = .next ((s.setSession port { s.session port with capsDone := true }).reply port "CAPABILITIES" []) := if_pos h

theorem algorithms_all : algorithms.all offered.contains = true ↔ ∀ a, 1 ≤ a → a ≤ 4 → a ∈ offered := by
  simp only [algorithms, List.all_cons, List.all_nil, Bool.and_true, Bool.and_eq_true, List.contains_iff_mem]
  refine ⟨fun ⟨h1, h2, h3, h4⟩ a hlo hhi => ?_, fun h => ⟨h 1 (by decide) (by decide), h 2 (by decide) (by decide),
    h 3 (by decide) (by decide), h 4 (by decide) (by decide)⟩⟩
  interval_cases a
  · exact h1
  · exact h2
  · exact h3
  · exact h4

theorem negotiateAlgorithms_answered (hcaps : (s.session port).capsDone = true) (hall : ∀ a, 1 ≤ a → a ≤ 4 → a ∈ offered) :
    exec (.negotiateAlgorithms port offered) s = .next ((s.setSession port { s.session port with algsDone := true }).reply port
      "ALGORITHMS" (algorithms.map (BitVec.ofNat 64))) := by
  rw [exec_negotiateAlgorithms, execNegotiateAlgorithms, if_pos]
  rw [hcaps, algorithms_all.2 hall]
  rfl

theorem negotiateAlgorithms_refused
    (h : (s.session port).capsDone = false ∨ ∃ a, 1 ≤ a ∧ a ≤ 4 ∧ a ∉ offered) :
    exec (.negotiateAlgorithms port offered) s = .next (s.refuseRequest port) := by
  rw [exec_negotiateAlgorithms, execNegotiateAlgorithms, if_neg]
  rw [Bool.and_eq_true, algorithms_all]
  rintro ⟨hcaps, hall⟩
  rcases h with hno | ⟨a, hlo, hhi, hout⟩
  · simp [hcaps] at hno
  · exact hout (hall a hlo hhi)

theorem getMeasurements_answered (halgs : (s.session port).algsDone = true) (hws : s.measured index = some ws) :
    ∃ t b1 b2, exec (.getMeasurements port index nonce) s = .next t
      ∧ t.out = s.out ++ [.spdm port "MEASUREMENTS" b1, .spdm port "SIGNATURE" b2] := by
  rw [exec_getMeasurements, execGetMeasurements, hws]
  dsimp only
  rw [if_pos halgs]
  exact ⟨_, _, _, rfl, List.append_assoc _ _ _⟩

theorem getMeasurements_refused (halgs : (s.session port).algsDone = false) :
    exec (.getMeasurements port index nonce) s = .next (s.refuseRequest port) := by
  rw [exec_getMeasurements, execGetMeasurements]
  cases s.measured index with
  | none => rfl
  | some ws => exact if_neg (by simp [halgs])

theorem finish_answered (hdata : (s.session port).keyData = some d) (hopen : (s.session port).secure = false)
    (hproof : Config.finishVerifies port d proof = true) : exec (.finish port proof) s
      = .next ((s.setSession port { s.session port with secure := true }).reply port "FINISH_RSP" []) := by
  rw [exec_finish, execFinish, hdata]
  dsimp only
  rw [if_pos (by simp [hopen, hproof]), ← hdata]

theorem finish_refused (h : (s.session port).keyData = none ∨ (s.session port).secure = true
    ∨ (s.session port).keyData = some d ∧ Config.finishVerifies port d proof = false) :
    exec (.finish port proof) s = .next (s.refuseRequest port) := by
  rw [exec_finish, execFinish]
  cases hdata : (s.session port).keyData with
  | none => simp
  | some e =>
    dsimp only
    rw [hdata] at h
    rw [if_neg]
    rcases h with h | hsecure | ⟨h, hproof⟩
    · exact absurd h (by simp)
    · simp [hsecure]
    · obtain rfl := Option.some.inj h
      simp [hproof]

theorem vendorDefined_answered (hsecure : (s.session port).secure = true) (howned : s.owned (masterOf port) = true)
    (hlo : 1 ≤ keyId) (hhi : keyId ≤ 63) :
    exec (.vendorDefined port keyId key) s = .next ((s.loadKey keyId key).reply port "VENDOR_DEFINED_RSP" []) := by
  rw [exec_vendorDefined, execVendorDefined, if_pos (by simp [hsecure, howned, hlo, hhi])]

theorem vendorDefined_refused (h : (s.session port).secure = false ∨ s.owned (masterOf port) = false) :
    exec (.vendorDefined port keyId key) s = .next (s.refuseRequest port) := by
  rw [exec_vendorDefined, execVendorDefined, if_neg]
  rcases h with h | h
  · simp [h]
  · simp [h]

end Spdm

/-- Settles O60: each request by the branch of its definition; a reply appends its body to the session that the request has
set, and one message. -/
theorem spdmExchange : Obligations.SpdmExchange := by
  intro s port slot index keyId stream nonce d proof offered key ws x answered refused
  have plain : ∀ {i : Instr} {kind : String} {body : List Word}, exec i s = .next (s.reply port kind body) →
      answered i x kind := fun h => ⟨_, _, h, session_reply _ _ _ _, rfl⟩
  refine ⟨fun hport => answered_of (if_neg (Nat.not_le.2 hport)), fun h => answered_of (getCapabilities_answered h), fun h => ?_,
    fun hcaps hall => answered_of (negotiateAlgorithms_answered hcaps hall), negotiateAlgorithms_refused,
    fun halgs => ⟨plain (if_pos halgs), plain (if_pos ?_), plain (if_pos halgs), answered_of (if_pos halgs)⟩,
    getMeasurements_answered, fun halgs => ⟨?_, ?_, ?_, ?_, getMeasurements_refused halgs⟩,
    fun hdata hopen hproof => answered_of (finish_answered hdata hopen hproof), finish_refused,
    fun hsecure => ⟨answered_of (if_pos hsecure), plain (if_pos hsecure), answered_of (if_pos hsecure),
      ⟨_, if_pos hsecure, ?_, ?_⟩, vendorDefined_answered hsecure⟩,
    vendorDefined_refused, fun hopen => ⟨?_, ?_, ?_, ?_⟩⟩
  · exact if_neg (ne_true_of_eq_false h)
  · simpa using halgs
  · exact if_neg (ne_true_of_eq_false halgs)
  · exact if_neg fun h => by simp [show (s.session port).algsDone = false from halgs] at h
  · exact if_neg (ne_true_of_eq_false halgs)
  · exact if_neg (ne_true_of_eq_false halgs)
  · exact Dict.get?_put_same _ _ _
  · exact (session_reply _ _ _ _).symm ▸ hsecure
  · exact if_neg (ne_true_of_eq_false hopen)
  · exact if_neg (ne_true_of_eq_false hopen)
  · exact if_neg (ne_true_of_eq_false hopen)
  · exact if_neg (ne_true_of_eq_false hopen)

end Sys2Proof.Machine
end

section
/-! PROOFS. Cell memory, atomics, and what an eviction leaves (R96, R97, R111, R118, R120, R141, R142). -/

namespace Sys2Proof.Machine

/-! ### Stores and atomics at cell memory (R96, R97, R141) -/

/-- A write to a cell on which nothing waits is the write of its bytes. -/
theorem putCell_quiet {s : State} {a : Nat} (bs : List Byte) (h : (s.cell (a / 0x100000)).waits = []) :
    s.putCell a bs = { s with cmem := s.cmem.setBytes a bs } := if_pos (List.isEmpty_iff.2 h)

/-- Bytes that are written read as written. -/
theorem Mem.byte_setBytes_inside (m : Mem) (a : Nat) (bs : List Byte) {i : Nat} (h : i < bs.length) :
    Mem.byte (Mem.setBytes m a bs) (a + i) = bs.getD i 0 := by
  rw [Mem.byte_setBytes, if_pos (by omega), Nat.add_sub_cancel_left]

theorem isAtomic_of_isStoreOnly {i : Instr} (h : isStoreOnly i = true) : isAtomic i = false := by
  cases i with
  | stB | stH | stW | stD | vst | vscatter => rfl
  | _ => exact absurd h (by simp [isStoreOnly])

section Cell
variable {s : State} {oid n : Nat} {x : Access} {p : Piece}

theorem homeWrite_cell (hready : s.ready oid n (fun a => isStore a.ins) = some (x, p)) (hcell : p.loc.space = .cell) :
    exec (.homeWrite oid n) s = .next (s.landCell oid n x p) := by
  rw [exec_homeWrite, execHomeWrite, hready]
  dsimp only
  rw [hcell]

theorem landCell_store (hquiet : (s.cell (p.loc.addr / 0x100000)).waits = []) (honly : isStoreOnly x.ins = true) :
    s.landCell oid n x p = State.clearPoison { s.setAccess oid (x.setPiece n { p with stage := .done }) with
      cmem := s.cmem.setBytes p.loc.addr p.data } .cell p.loc.addr p.n := by
  rw [State.landCell, if_neg (by simp [isAtomic_of_isStoreOnly honly])]
  exact congrArg (fun t : State => t.clearPoison .cell p.loc.addr p.n)
    (putCell_quiet (s := s.setAccess oid (x.setPiece n { p with stage := .done })) _ hquiet)

/-- The access of an atomic whose piece has been performed over the bytes `old`. -/
def Access.doneOver (x : Access) (n : Nat) (p : Piece) (old : List Byte) : Access :=
  { x.setPiece n { p with stage := .done } with old := leWord old }

theorem landCell_atomic (hquiet : (s.cell (p.loc.addr / 0x100000)).waits = []) (hatomic : isAtomic x.ins = true)
    (hclean : s.marked .cell p.loc.addr p.n = false) : s.landCell oid n x p
      = { s.setAccess oid (x.doneOver n p (s.cmem.bytes p.loc.addr p.n)) with
          cmem := ((x.amoBytes (s.cmem.bytes p.loc.addr p.n)).map (s.cmem.setBytes p.loc.addr)).getD s.cmem } := by
  rw [State.landCell, if_pos hatomic, if_neg (by simp [hclean])]
  change (match x.amoBytes (s.cmem.bytes p.loc.addr p.n) with
    | none => s.setAccess oid (x.doneOver n p (s.cmem.bytes p.loc.addr p.n))
    | some bs => (s.setAccess oid (x.doneOver n p (s.cmem.bytes p.loc.addr p.n))).putCell p.loc.addr bs) = _
  cases x.amoBytes (s.cmem.bytes p.loc.addr p.n) with
  | none => rfl
  | some bs => exact putCell_quiet (s := s.setAccess oid (x.doneOver n p (s.cmem.bytes p.loc.addr p.n))) bs hquiet

end Cell

/-! ### The values of atomics (R141, R142) -/

/-- The signed value of an n-bit number, as a bit vector reads it. -/
theorem toInt_ofNat_eq_signedOf {n m : Nat} (hn : 0 < n) (hm : m < 2 ^ n) : (BitVec.ofNat n m).toInt = signedOf n m := by
  rw [BitVec.toInt_eq_toNat_cond, BitVec.toNat_ofNat, Nat.mod_eq_of_lt hm, signedOf]
  obtain ⟨k, rfl⟩ : ∃ k, n = k + 1 := ⟨n - 1, by omega⟩
  have hpow : 2 ^ (k + 1) = 2 * 2 ^ k := by rw [Nat.pow_succ, Nat.mul_comm]
  rw [Nat.add_sub_cancel, hpow]
  push_cast
  split
  · rw [if_pos (by omega)]
  · rw [if_neg (by omega), pow_succ']

theorem amoValue_values (pr : Pred) (sz : WD) (mf : MemF) (t0 t1 : Target) (n m b x : Nat) (hn : n = 32 ∨ n = 64)
    (hm : m < 2 ^ n) (hb : b < 2 ^ n) :
    amoValue (.amoAdd pr sz mf t0 t1) n m b x = some ((m + b) % 2 ^ n)
    ∧ (amoValue (.amoAnd pr sz mf t0 t1) n m b x).map (BitVec.ofNat n) = some (BitVec.ofNat n m &&& BitVec.ofNat n b)
    ∧ (amoValue (.amoOr pr sz mf t0 t1) n m b x).map (BitVec.ofNat n) = some (BitVec.ofNat n m ||| BitVec.ofNat n b)
    ∧ (amoValue (.amoXor pr sz mf t0 t1) n m b x).map (BitVec.ofNat n) = some (BitVec.ofNat n m ^^^ BitVec.ofNat n b)
    ∧ amoValue (.amoMin pr sz mf t0 t1) n m b x
      = some (if (BitVec.ofNat n m).toInt ≤ (BitVec.ofNat n b).toInt then m else b)
    ∧ amoValue (.amoMax pr sz mf t0 t1) n m b x
      = some (if (BitVec.ofNat n m).toInt ≤ (BitVec.ofNat n b).toInt then b else m)
    ∧ amoValue (.amoMinu pr sz mf t0 t1) n m b x = some (if m ≤ b then m else b)
    ∧ amoValue (.amoMaxu pr sz mf t0 t1) n m b x = some (if m ≤ b then b else m)
    ∧ amoValue (.amoSwap pr sz mf t0 t1) n m b x = some b
    ∧ (m = b → amoValue (.amoCas pr sz mf t0 t1) n m b x = some x)
    ∧ (m ≠ b → amoValue (.amoCas pr sz mf t0 t1) n m b x = none)
    ∧ amoValue (.amoFadd pr mf t0 t1) 32 m b x = some (faddBits fmt32 { rm := .rne, ftz := false } m b).1 := by
  have hpos : 0 < n := by omega
  refine ⟨rfl, congrArg some BitVec.ofNat_and, congrArg some BitVec.ofNat_or, congrArg some BitVec.ofNat_xor, ?_, ?_,
    congrArg some Nat.min_def, congrArg some Nat.max_def, rfl, fun h => if_pos h, fun h => if_neg h, rfl⟩
  · rw [toInt_ofNat_eq_signedOf hpos hm, toInt_ofNat_eq_signedOf hpos hb]
    rfl
  · rw [toInt_ofNat_eq_signedOf hpos hm, toInt_ofNat_eq_signedOf hpos hb]
    rfl

/-- Settles O41: `landCell` by its two branches; where nothing waits on the cell, `putCell` is the write of the bytes. -/
theorem storesLandAndAtomicsCompute : Obligations.StoresLandAndAtomicsCompute := by
  refine ⟨fun s oid n x p hready hcell hquiet => ⟨fun honly => ?_, fun hatomic hclean => ?_⟩, amoValue_values⟩
  · refine ⟨_, homeWrite_cell hready hcell, ?_⟩
    rw [landCell_store hquiet honly]
    exact ⟨fun i hi => Mem.byte_setBytes_inside _ _ _ hi, fun b hb => Mem.byte_setBytes_outside _ _ _ _ hb, rfl, rfl, rfl, rfl⟩
  · refine ⟨_, x.doneOver n p (s.cmem.bytes p.loc.addr p.n), homeWrite_cell hready hcell, ?_⟩
    rw [landCell_atomic hquiet hatomic hclean]
    refine ⟨Dict.get?_put_same _ _ _, rfl, fun bs hbs => ?_, fun hbs => ?_, rfl, rfl, rfl, rfl⟩
    · dsimp only
      rw [hbs]
      exact ⟨fun i hi => Mem.byte_setBytes_inside _ _ _ hi, fun b hb => Mem.byte_setBytes_outside _ _ _ _ hb⟩
    · dsimp only
      rw [hbs]
      rfl

/-! ### Evictions (R118, R120) -/

/-- Bytes set one by one from a base: the last write of a place wins, here the same value for each. -/
theorem byte_foldl_setByte (l : List Nat) (base : Nat) (g : Nat → Byte) (m : Mem) (a : Nat) :
    Mem.byte (l.foldl (fun m i => Mem.setByte m (base + i) (g i)) m) a
      = if base ≤ a ∧ a - base ∈ l then g (a - base) else m.byte a := by
  induction l generalizing m with
  | nil => simp
  | cons i l ih =>
    rw [List.foldl_cons, ih, Mem.byte_setByte]
    by_cases hl : base ≤ a ∧ a - base ∈ l
    · rw [if_pos hl, if_pos ⟨hl.1, List.mem_cons_of_mem _ hl.2⟩]
    · rw [if_neg hl]
      by_cases ha : a = base + i
      · subst ha
        simp
      · rw [if_neg ha, if_neg]
        rintro ⟨hle, hmem⟩
        rcases List.mem_cons.1 hmem with h | h
        · omega
        · exact hl ⟨hle, h⟩

theorem hbmEnd_le_iff {a line : Nat} (h : lineOf a = line) : hbmEnd ≤ 128 * line ↔ hbmEnd ≤ a := by
  simp only [lineOf, hbmEnd] at *
  omega

/-- Host memory has no sector that the start may have left untrained. -/
theorem untrained_host (u : BitVec 32) {a : Nat} (h : hbmEnd ≤ a) : u.getLsbD (sectorOf a) = false := by
  refine BitVec.getLsbD_of_ge _ _ ?_
  simp only [sectorOf, hbmEnd] at *
  omega

section WriteBack
variable {s : State} {line a : Nat} {l : LlcLine}

theorem writeBack_other (hlen : l.data.length = 128) (h : lineOf a ≠ line) :
    (s.writeBack line l).mem.byte a = s.mem.byte a ∧ (s.writeBack line l).lineKey.getD (lineOf a) 0 = s.lineKey.getD (lineOf a) 0 := by
  have hout : a < 128 * line ∨ 128 * line + 128 ≤ a := by
    simp only [lineOf] at h
    omega
  unfold State.writeBack
  split
  · exact ⟨rfl, rfl⟩
  · split
    · refine ⟨?_, rfl⟩
      dsimp only
      rw [byte_foldl_setByte, if_neg]
      simp only [List.mem_filter, List.mem_range]
      omega
    · refine ⟨Mem.byte_setBytes_outside _ _ _ _ (by omega), ?_⟩
      dsimp only
      split
      · exact congrArg (fun o : Option Nat => o.getD 0) (Dict.get?_erase_other _ _ _ h)
      · exact Dict.getD_put_other _ _ _ _ _ h

theorem writeBack_clean (h : l.dirty = 0) : s.writeBack line l = s := if_pos h

/-- A dirty line of HBM goes back whole, under its key. -/
theorem writeBack_hbm (hlen : l.data.length = 128) (hline : lineOf a = line) (hdirty : l.dirty ≠ 0) (hhbm : a < hbmEnd) :
    (s.writeBack line l).mem.byte a = l.data.getD (a % 128) 0 ∧ (s.writeBack line l).lineKey.getD line 0 = l.key := by
  rw [State.writeBack, if_neg hdirty, if_neg (by rw [hbmEnd_le_iff hline]; omega)]
  refine ⟨?_, ?_⟩
  · have ha : a = 128 * line + a % 128 := by simp only [lineOf] at hline; omega
    conv_lhs => rw [ha]
    exact Mem.byte_setBytes_inside _ _ _ (by omega)
  · dsimp only
    split
    · rename_i hkey
      rw [hkey]
      exact congrArg (fun o : Option Nat => o.getD 0) (Dict.get?_erase_same _ _)
    · exact Dict.getD_put_same _ _ _ _

/-- Of a line of host memory the written bytes go back. -/
theorem writeBack_host (hline : lineOf a = line) (hhost : hbmEnd ≤ a) : (s.writeBack line l).mem.byte a
    = if l.dirty.getLsbD (a % 128) = true then l.data.getD (a % 128) 0 else s.mem.byte a := by
  by_cases hdirty : l.dirty = 0
  · rw [writeBack_clean hdirty, hdirty]
    simp
  · rw [State.writeBack, if_neg hdirty, if_pos ((hbmEnd_le_iff hline).2 hhost)]
    have hle : 128 * line ≤ a := by simp only [lineOf] at hline; omega
    have hsub : a - 128 * line = a % 128 := by simp only [lineOf] at hline; omega
    have hlt : a % 128 < 128 := Nat.mod_lt _ (by decide)
    dsimp only
    rw [byte_foldl_setByte, hsub]
    simp [hle, hlt]

theorem evictLlc_of (h : s.llc.get? line = some l) :
    s.evictLlc line = { s.writeBack line l with llc := s.llc.erase line } := by
  rw [State.evictLlc, h]

theorem untrained_writeBack : (s.writeBack line l).untrained = s.untrained := by
  obtain ⟨m, lk, h⟩ := writeBack_keeps s line l
  rw [h]

/-- What a byte of a line reads as that the cache does not have. -/
theorem homeByte_uncached {key : Nat} (h : s.llc.get? (lineOf a) = none) : s.homeByte a key
    = if s.untrained.getLsbD (sectorOf a) then Config.untrainedByte a
      else if hbmEnd ≤ a ∨ s.lineKey.getD (lineOf a) 0 = key then s.mem.byte a
      else Config.decrypted (s.lineKey.getD (lineOf a) 0) key a (s.mem.byte a) := by
  rw [State.homeByte, h]

theorem homeByte_cached {key : Nat} (h : s.llc.get? (lineOf a) = some l) : s.homeByte a key
    = if hbmEnd ≤ a ∨ l.key = key then l.data.getD (a % 128) 0
      else Config.decrypted l.key key a (l.data.getD (a % 128) 0) := by
  rw [State.homeByte, h]

/-- An eviction changes no byte of another line. -/
theorem homeByte_evict_other {key : Nat} (hlen : ∀ l, s.llc.get? line = some l → l.data.length = 128) (h : lineOf a ≠ line) :
    (s.evictLlc line).homeByte a key = s.homeByte a key := by
  cases hl : s.llc.get? line with
  | none => rw [State.evictLlc, hl]
  | some l =>
    obtain ⟨hmem, hkey⟩ := writeBack_other (s := s) (hlen l hl) h
    have hllc : (s.llc.erase line).get? (lineOf a) = s.llc.get? (lineOf a) := Dict.get?_erase_other _ _ _ h
    rw [evictLlc_of hl]
    cases ha : s.llc.get? (lineOf a) with
    | none =>
      rw [homeByte_uncached ha, homeByte_uncached (hllc.trans ha)]
      dsimp only
      rw [hmem, hkey, untrained_writeBack]
    | some m => rw [homeByte_cached ha, homeByte_cached (hllc.trans ha)]

/-- A byte of an evicted line reads as before where memory has come to agree with the line. -/
theorem homeByte_evict_same {key : Nat} (hl : s.llc.get? line = some l) (hline : lineOf a = line)
    (htrained : s.untrained.getLsbD (sectorOf a) = false) (hmem : (s.writeBack line l).mem.byte a = l.data.getD (a % 128) 0)
    (hkey : hbmEnd ≤ a ∨ (s.writeBack line l).lineKey.getD line 0 = l.key) :
    (s.evictLlc line).homeByte a key = s.homeByte a key := by
  subst hline
  rw [evictLlc_of hl, homeByte_cached hl, homeByte_uncached (Dict.get?_erase_same _ _)]
  dsimp only
  rw [untrained_writeBack, htrained, hmem, if_neg Bool.false_ne_true]
  rcases hkey with hhost | hkey
  · rw [if_pos (.inl hhost), if_pos (.inl hhost)]
  · rw [hkey]

end WriteBack

theorem evictLlc_keeps (s : State) (line : Nat) : (s.evictLlc line).cmem = s.cmem ∧ (s.evictLlc line).fibres = s.fibres := by
  obtain ⟨_, _, _, _, _, _, _, _, h⟩ := cacheOps_evictLlc s line
  rw [h]
  exact ⟨rfl, rfl⟩

/-- Settles O43: an eviction is `writeBack` and the erasure of the line; a byte of the line then reads from memory, under the
key at which the line rests. -/
theorem evictionChangesNoValue : Obligations.EvictionChangesNoValue := by
  intro s cell line a key
  refine ⟨?_, fun hlen => ⟨_, rfl, ?_, ?_, ?_, homeByte_evict_other hlen, fun l hl hline => ⟨fun hdirty hhbm htrained => ?_,
    fun hclean hhbm htrained hrest hagree => ?_, fun hhost => ?_, fun hhost hagree => ?_⟩⟩⟩
  · obtain ⟨d, hd⟩ := dropL1_keeps s cell line
    refine ⟨_, rfl, l1Line_dropL1 s cell line, ?_, ?_⟩
    · rw [hd]
      exact ⟨fun _ _ => rfl, fun _ => rfl, fun _ => rfl, fun _ => rfl⟩
    · rw [hd]
  · unfold State.evictLlc
    split
    · assumption
    · exact Dict.get?_erase_same _ _
  · exact (evictLlc_keeps s line).1
  · exact (evictLlc_keeps s line).2
  · obtain ⟨hmem, hkey⟩ := writeBack_hbm (s := s) (hlen l hl) hline hdirty hhbm
    exact homeByte_evict_same hl hline htrained hmem (.inr hkey)
  · have hsame := writeBack_clean (s := s) (line := line) hclean
    exact homeByte_evict_same hl hline htrained (hsame.symm ▸ hagree) (.inr (hsame.symm ▸ hrest))
  · rw [evictLlc_of hl]
    exact writeBack_host hline hhost
  · have hmem : (s.writeBack line l).mem.byte a = l.data.getD (a % 128) 0 := by
      rw [writeBack_host hline hhost]
      split
      · rfl
      · exact hagree.resolve_left ‹_›
    exact homeByte_evict_same hl hline (untrained_host _ hhost) hmem (.inl hhost)

end Sys2Proof.Machine
end

section
/-! PROOFS. Reads: what a piece of a load takes, and what a load replies (R13, R27, R53, R97, R111, R119, R141, R297). -/

namespace Sys2Proof.Machine

/-! ### Values of loads (R53) -/

/-- Little-endian bytes give a number of their width. -/
theorem leNat_lt (bs : List Byte) : leNat bs < 256 ^ bs.length := by
  induction bs with
  | nil => simp [leNat]
  | cons b bs ih =>
    rw [leNat, List.length_cons, Nat.pow_succ]
    have hb : b.toNat < 256 := b.isLt
    omega

/-- The bytes that a read has gathered are as many as its value has. -/
theorem Access.length_bytes (a : Access) (n : Nat) : (a.bytes n).length = n := by
  unfold Access.bytes
  refine List.foldlRecOn a.pieces _ (motive := fun bs : List Byte => bs.length = n) List.length_replicate ?_
  intro bs hbs p _
  refine List.foldlRecOn (List.range p.n) _ (motive := fun bs : List Byte => bs.length = n) hbs ?_
  intro bs hbs i _
  rw [List.length_set, hbs]

/-- A scalar load extends its bytes by their sign. -/
theorem ofInt_signedOf_bytes (a : Access) {n : Nat} (hn : 0 < n) : BitVec.ofInt 64 (signedOf (8 * n) (leNat (a.bytes n)))
    = (BitVec.ofNat (8 * n) (leNat (a.bytes n))).signExtend 64 := by
  have hlt : leNat (a.bytes n) < 2 ^ (8 * n) := by
    have h := leNat_lt (a.bytes n)
    rwa [a.length_bytes, show (256 : Nat) = 2 ^ 8 from rfl, ← Nat.pow_mul] at h
  rw [← toInt_ofNat_eq_signedOf (by omega) hlt]
  rfl

/-! ### Replies (R13, R53, R297) -/

/-- A delivery keeps the faults that a frame has recorded. -/
theorem faults_deliver (fr : Frame) (t : Target) (tok : Token) : ∃ l, (fr.deliver t tok).faults = fr.faults ++ l := by
  unfold Frame.deliver
  split
  · exact ⟨[], (List.append_nil _).symm⟩
  · split
    · exact ⟨_, rfl⟩
    · split
      · exact ⟨[], (List.append_nil _).symm⟩
      · exact ⟨_, rfl⟩

theorem mem_faults_send {fr : Frame} {x : Recorded} (ts : List Target) (tok : Token) (h : x ∈ fr.faults) :
    x ∈ (fr.send ts tok).faults := by
  refine List.foldlRecOn ts _ (motive := fun fr : Frame => x ∈ fr.faults) h fun fr hfr t _ => ?_
  obtain ⟨l, hl⟩ := faults_deliver fr t tok
  rw [hl]
  exact List.mem_append_left _ hfr

section Reply
variable {s : State} {oid : Nat} {x : Access}

/-- The state in which a read has been marked as answered. -/
def State.answered (s : State) (oid : Nat) (x : Access) : State := s.setAccess oid { x with replied := true, acked := true }

/-- A fibre with a fault recorded at an access's instruction. -/
def Access.faultIn (x : Access) (c : Cause) (va : Word) (f : Fibre) : Fibre :=
  match f.frame? x.seq with
  | some fr => f.setFrame (fr.fault x.idx c va .firing)
  | none => f

theorem loadReply_open (hx : s.accesses.get? oid = some x) (hreads : reads x.ins = true) (hlanded : x.landed = true)
    (hopen : x.replied = false) : exec (.loadReply oid) s = .next (if x.poison = true then (s.answered oid x).sendReply x .poison
      else match x.badAt with
        | some va => ((s.answered oid x).modFibre x.fid (x.faultIn .uncorr va)).sendReply x .poison
        | none => State.sendReply { s.answered oid x with tick := s.tick + 1 } x
            (if (isAtomic x.ins && x.pieces.any (fun p => (s.ringOf p.loc).isSome)) = true then
              .val (BitVec.ofNat 64 ((Config.freeWord s.tick).toNat % 2 ^ amoBits x.ins)) else x.result)) := by
  rw [exec_loadReply, execLoadReply, hx]
  dsimp only
  rw [if_pos (by simp [hreads, hlanded, hopen])]
  split
  · rfl
  · cases x.badAt with
    | some va => rfl
    | none => rfl

theorem not_ring (h : isAtomic x.ins = false ∨ ∀ p ∈ x.pieces, s.ringOf p.loc = none) :
    ¬ (isAtomic x.ins && x.pieces.any (fun p => (s.ringOf p.loc).isSome)) = true := by
  rw [Bool.and_eq_true, List.any_eq_true]
  rintro ⟨hatomic, p, hp, hring⟩
  rcases h with h | h
  · simp [h] at hatomic
  · simp [h p hp] at hring

/-- A reply leaves in its frame the fault that was recorded before it. -/
theorem sendReply_keeps_fault {f : Fibre} {fr : Frame} {e : Recorded} {tok : Token} (hf : s.fibre? x.fid = some f)
    (hfr : f.frame? x.seq = some fr) (he : e ∈ fr.faults) : ∃ f' fr', (s.sendReply x tok).fibre? x.fid = some f'
      ∧ f'.frame? x.seq = some fr' ∧ e ∈ fr'.faults := by
  have hseq : fr.seq = x.seq := by simpa using List.find?_some hfr
  let fr1 : Frame := { fr with owed := fr.owed.filter (· != x.idx) }
  let fr2 : Frame := if isAtomic x.ins then fr1.produce x.lsid else fr1
  have hfr2 : fr2.seq = x.seq ∧ fr2.faults = fr.faults :=
    iteInduction (motive := fun g : Frame => g.seq = x.seq ∧ g.faults = fr.faults) (fun _ => ⟨hseq, rfl⟩) (fun _ => ⟨hseq, rfl⟩)
  have hseq3 : (fr2.send (targetsOf x.ins) tok).seq = x.seq := by
    obtain ⟨sl, fs, h⟩ := send_keeps fr2 (targetsOf x.ins) tok
    rw [h]
    exact hfr2.1
  have hmem : e ∈ (fr2.send (targetsOf x.ins) tok).faults := mem_faults_send _ _ (by rw [hfr2.2]; exact he)
  refine ⟨f.setFrame (fr2.send (targetsOf x.ins) tok), fr2.send (targetsOf x.ins) tok, ?_, ?_, hmem⟩
  · rw [State.sendReply, fibre?_modFibre, if_pos rfl, hf, Option.map_some, hfr]
  · have hfr3 : f.frame? (fr2.send (targetsOf x.ins) tok).seq = some fr := hseq3.symm ▸ hfr
    exact hseq3 ▸ frame?_setFrame hfr3

/-- A fault that is recorded with the reply of its access stands in the access's block. -/
theorem sendReply_faultIn {f : Fibre} {fr : Frame} {c : Cause} {va : Word} {tok : Token} (hf : s.fibre? x.fid = some f)
    (hfr : f.frame? x.seq = some fr) : ∃ f' fr', ((s.modFibre x.fid (x.faultIn c va)).sendReply x tok).fibre? x.fid = some f'
      ∧ f'.frame? x.seq = some fr' ∧ { idx := x.idx, cause := c, taddr := va, src := .firing } ∈ fr'.faults := by
  have hseq : fr.seq = x.seq := by simpa using List.find?_some hfr
  refine sendReply_keeps_fault (f := f.setFrame (fr.fault x.idx c va .firing)) (fr := fr.fault x.idx c va .firing) ?_ ?_ ?_
  · rw [fibre?_modFibre, if_pos rfl, hf, Option.map_some, Access.faultIn, hfr]
  · have hfr3 : f.frame? (fr.fault x.idx c va .firing).seq = some fr := hseq.symm ▸ hfr
    exact hseq ▸ frame?_setFrame hfr3
  · rw [Frame.fault_faults]
    exact List.mem_append_right _ (List.mem_singleton_self _)

theorem loadReply_marked (hx : s.accesses.get? oid = some x) (hreads : reads x.ins = true) (hlanded : x.landed = true)
    (hopen : x.replied = false) {va : Word} (hpoison : x.poison = false) (hbad : x.badAt = some va) :
    ∃ t, exec (.loadReply oid) s = .next t
       ∧ ∀ f fr, s.fibre? x.fid = some f → f.frame? x.seq = some fr → ∃ f' fr', t.fibre? x.fid = some f'
         ∧ f'.frame? x.seq = some fr' ∧ { idx := x.idx, cause := .uncorr, taddr := va, src := .firing } ∈ fr'.faults := by
  refine ⟨_, loadReply_open hx hreads hlanded hopen, fun f fr hf hfr => ?_⟩
  rw [if_neg (by simp [hpoison]), hbad]
  exact sendReply_faultIn (s := s.answered oid x) hf hfr

theorem result_atomic (h : isAtomic x.ins = true) : x.result = .val x.old := by
  unfold Access.result
  split
  case h_10 => rfl
  all_goals
    rename_i hins
    rw [hins] at h
    exact absurd h Bool.false_ne_true

end Reply

/-! ### What the last-level cache and memory change between them (R111, R120) -/

/-- The states differ in memory, the keys of its lines and the last-level cache only. -/
def State.OnlyLines (s t : State) : Prop :=
  ∃ (m : Mem) (lk : Dict Nat) (ll : Dict LlcLine), t = { s with mem := m, lineKey := lk, llc := ll }

theorem State.OnlyLines.refl (s : State) : s.OnlyLines s := ⟨s.mem, s.lineKey, s.llc, rfl⟩

theorem State.OnlyLines.trans {s t u : State} (h : s.OnlyLines t) (k : t.OnlyLines u) : s.OnlyLines u := by
  obtain ⟨m, lk, ll, rfl⟩ := h
  obtain ⟨m', lk', ll', rfl⟩ := k
  exact ⟨m', lk', ll', rfl⟩

theorem State.OnlyLines.cmem {s t : State} (h : s.OnlyLines t) : t.cmem = s.cmem := by
  obtain ⟨_, _, _, rfl⟩ := h
  rfl

theorem State.OnlyLines.fibres {s t : State} (h : s.OnlyLines t) : t.fibres = s.fibres := by
  obtain ⟨_, _, _, rfl⟩ := h
  rfl

theorem State.OnlyLines.accesses {s t : State} (h : s.OnlyLines t) : t.accesses = s.accesses := by
  obtain ⟨_, _, _, rfl⟩ := h
  rfl

theorem State.OnlyLines.foldl {α : Type} (l : List α) (step : State → α → State) (s : State)
    (h : ∀ (t : State) (b : α), State.OnlyLines t (step t b)) : s.OnlyLines (l.foldl step s) :=
  List.foldlRecOn l step (motive := fun t : State => s.OnlyLines t) (.refl s) fun t ht b _ => ht.trans (h t b)

theorem onlyLines_evictLlc (s : State) (line : Nat) : s.OnlyLines (s.evictLlc line) := by
  unfold State.evictLlc
  split
  · exact .refl s
  next l _ =>
    obtain ⟨m, lk, h⟩ := writeBack_keeps s line l
    rw [h]
    exact ⟨m, lk, s.llc.erase line, rfl⟩

theorem onlyLines_makeRoom (s : State) (line : Nat) : s.OnlyLines (s.makeRoom line) :=
  iteInduction (motive := fun t : State => s.OnlyLines t) (fun _ => .refl s) fun _ =>
    iteInduction (motive := fun t : State => s.OnlyLines t) (fun _ => .refl s) fun _ => onlyLines_evictLlc s _

theorem onlyLines_fillLlc (s : State) (line key : Nat) : s.OnlyLines (s.fillLlc line key) := by
  unfold State.fillLlc
  split
  · exact .refl s
  · exact (onlyLines_makeRoom s line).trans ⟨_, _, _, rfl⟩

theorem onlyLines_ite {s t : State} (c : Prop) [Decidable c] (h : s.OnlyLines t) : s.OnlyLines (if c then t else s) :=
  iteInduction (motive := fun u : State => s.OnlyLines u) (fun _ => h) fun _ => .refl s

theorem onlyLines_homeWrite (s : State) (a key : Nat) (bs : List Byte) : s.OnlyLines (s.homeWrite a key bs) :=
  State.OnlyLines.foldl _ _ s fun t i => (onlyLines_makeRoom t (lineOf (a + i))).trans ⟨_, _, _, rfl⟩

/-! ### What a piece of a load takes (R27, R97, R111, R119) -/

theorem hostSnoops_quiet {s : State} {hs : List Nat} (h : ∀ n ∈ hs, (s.half n).st = .i ∨ (s.half n).st = .s) :
    s.hostSnoops hs false = s := by
  refine List.foldlRecOn hs _ (motive := fun t : State => t = s) rfl ?_
  rintro _ rfl n hn
  rcases h n hn with h | h
  · rw [h]
  · rw [h]

theorem cleanLlc_clean {s : State} {line : Nat} (h : ∀ l, s.llc.get? line = some l → l.dirty = 0) : s.cleanLlc line = s := by
  unfold State.cleanLlc
  split
  · rfl
  · exact if_pos (h _ ‹_›)

theorem homeBytes_countLlc (s : State) (line a n key : Nat) : (s.countLlc line).homeBytes a n key = s.homeBytes a n key := by
  obtain ⟨d, hd⟩ := countLlc_keeps s line
  rw [hd]
  rfl

section Read
variable {s : State} {oid n : Nat} {x : Access} {p : Piece}

theorem ncRead_uncached (hca : p.loc.ca = false) : s.ncRead p.loc p.n
    = (((s.hostSnoops (ncHalves p.loc p.n) false).cleanLlc (lineOf p.loc.addr)).mem.bytes p.loc.addr p.n,
       (s.hostSnoops (ncHalves p.loc p.n) false).cleanLlc (lineOf p.loc.addr)) := by
  rw [State.ncRead, if_neg (by simp [hca])]

theorem ncRead_cached (hca : p.loc.ca = true) : s.ncRead p.loc p.n
    = ((s.hostSnoops (ncHalves p.loc p.n) false).homeBytes p.loc.addr p.n p.loc.key,
       (s.hostSnoops (ncHalves p.loc p.n) false).countLlc (lineOf p.loc.addr)) := by
  rw [State.ncRead, if_pos hca]

section Ready
variable (hready : s.ready oid n (fun a => isLoad a.ins) = some (x, p))
include hready

theorem homeRead_forwarded (hfw : s.allForwarded x p = true) (hplain : x.inside = false ∨ p.loc.space ≠ .hbm) :
    exec (.homeRead oid n) s = .next (s.finishRead oid n x p []) := by
  have hout : ¬ (x.inside && p.loc.space == .hbm) = true := by
    rcases hplain with h | h
    · simp [h]
    · simp [h]
  rw [exec_homeRead, execHomeRead, hready]
  dsimp only
  rw [if_neg hout, if_pos hfw]

variable (hfw : s.allForwarded x p = false)
include hfw

theorem homeRead_cell (hcell : p.loc.space = .cell) :
    exec (.homeRead oid n) s = .next (s.finishRead oid n x p (s.cmem.bytes p.loc.addr p.n)) := by
  rw [exec_homeRead, execHomeRead, hready]
  dsimp only
  rw [if_neg (by simp [hcell]), if_neg (by simp [hfw]), hcell]
  rfl

theorem homeRead_l1 {bs : List Byte} (hspace : p.loc.space = .hbm ∧ x.inside = false ∨ p.loc.space = .hostNc)
    (hl1 : s.l1Read (s.accessCell x) p.loc p.n = some bs) : exec (.homeRead oid n) s = .next (s.finishRead oid n x p bs) := by
  rw [exec_homeRead, execHomeRead, hready]
  dsimp only
  rcases hspace with ⟨hhbm, hout⟩ | hnc
  · rw [if_neg (by simp [hout]), if_neg (by simp [hfw]), hhbm, hl1]
  · rw [if_neg (by simp [hnc]), if_neg (by simp [hfw]), hnc, hl1]

omit hready hfw in
theorem l1Read_uncached (hca : p.loc.ca = false) : s.l1Read (s.accessCell x) p.loc p.n = none := by
  unfold State.l1Read
  split
  · rw [if_neg (by simp [hca])]
  · rfl

theorem homeRead_nc (hnc : p.loc.space = .hostNc) (hca : p.loc.ca = false) :
    exec (.homeRead oid n) s = .next ((s.ncRead p.loc p.n).2.finishRead oid n x p (s.ncRead p.loc p.n).1) := by
  rw [exec_homeRead, execHomeRead, hready]
  dsimp only
  rw [if_neg (by simp [hnc]), if_neg (by simp [hfw]), hnc, l1Read_uncached hca]
  dsimp only
  rw [if_neg (by simp [hca])]

theorem homeRead_ncCached (hnc : p.loc.space = .hostNc) (hca : p.loc.ca = true)
    (hl1 : s.l1Read (s.accessCell x) p.loc p.n = none) : ∃ t : State, t.cmem = (s.ncRead p.loc p.n).2.cmem
      ∧ t.fibres = (s.ncRead p.loc p.n).2.fibres ∧ t.accesses = (s.ncRead p.loc p.n).2.accesses
      ∧ exec (.homeRead oid n) s
        = .next ((t.finishRead oid n x p (s.ncRead p.loc p.n).1).maybeFill (s.accessCell x) p.loc) := by
  rw [exec_homeRead, execHomeRead, hready]
  dsimp only
  rw [if_neg (by simp [hnc]), if_neg (by simp [hfw]), hnc, hl1]
  dsimp only
  rw [if_pos hca]
  generalize s.ncRead p.loc p.n = r
  obtain ⟨c, hc⟩ := countCell_keeps (s.accessCell x) 7 1 r.2
  refine ⟨_, ?_, ?_, ?_, rfl⟩
  all_goals rw [hc]
  · exact (onlyLines_ite (s := { r.2 with cells := c, tick := r.2.tick + 1 }) _ (onlyLines_fillLlc _ _ _)).cmem
  · exact (onlyLines_ite (s := { r.2 with cells := c, tick := r.2.tick + 1 }) _ (onlyLines_fillLlc _ _ _)).fibres
  · exact (onlyLines_ite (s := { r.2 with cells := c, tick := r.2.tick + 1 }) _ (onlyLines_fillLlc _ _ _)).accesses

theorem homeRead_home (hhbm : p.loc.space = .hbm) (hout : x.inside = false) (hl1 : s.l1Read (s.accessCell x) p.loc p.n = none)
    (hfree : s.homeQ.get? (lineOf p.loc.addr) = none) (hopen : s.virga.committingOn (lineOf p.loc.addr) = false)
    (hhost : s.hdm.getD (halfOf p.loc.addr) false = false) : ∃ t : State, t.mem = s.mem ∧ t.llc = s.llc
      ∧ t.fibres = s.fibres ∧ t.accesses = s.accesses ∧ exec (.homeRead oid n) s
        = .next ((t.finishRead oid n x p (s.homeBytes p.loc.addr p.n p.loc.key)).maybeFill (s.accessCell x) p.loc) := by
  obtain ⟨c, hc⟩ := countCell_keeps (s.accessCell x) 7 1 s
  obtain ⟨d, hd⟩ := countLlc_keeps { s with cells := c } (lineOf p.loc.addr)
  have hserves : s.homeServes p.loc = (true, s) := by
    rw [State.homeServes, if_neg (by simp [hfree, hopen]), if_neg (by simp [hhost])]
  rw [exec_homeRead, execHomeRead, hready]
  dsimp only
  rw [if_neg (by simp [hout]), if_neg (by simp [hfw]), hhbm, hl1]
  dsimp only
  rw [hserves]
  dsimp only
  have hbytes : ((countCell (s.accessCell x) 7 1 s).countLlc (lineOf p.loc.addr)).homeBytes = s.homeBytes := by
    rw [hc, hd]
    rfl
  rw [hbytes]
  refine ⟨_, ?_, ?_, ?_, ?_, rfl⟩
  all_goals rw [hc, hd]

end Ready
end Read

/-- Settles O40: a reply by the branches of `loadReply_open`; a piece of a load by the branch of its space, where a read of a
non-coherent page is `ncRead`, and snoops nothing when the bridge holds no dirty or exclusive half. -/
theorem loadsReadTheirPlaceAndReply : Obligations.LoadsReadTheirPlaceAndReply := by
  refine ⟨fun s oid x hx hreads hlanded hopen => ?_, fun s oid n x p hready => ?_⟩
  · have hreply := loadReply_open hx hreads hlanded hopen
    refine ⟨fun hpoison => ?_, fun hpoison hbad hring => ?_, fun va => loadReply_marked hx hreads hlanded hopen,
      ?_, ?_, ?_, ?_, ?_, ?_, ?_, result_atomic, ?_, ?_⟩
    · rw [hreply, if_pos hpoison]
      rfl
    · rw [hreply, if_neg (by simp [hpoison]), hbad]
      dsimp only
      rw [if_neg (not_ring hring)]
      rfl
    all_goals
      intros
      rw [Access.result, ‹x.ins = _›]
    · exact congrArg Token.val (ofInt_signedOf_bytes x (by decide))
    · rfl
    · exact congrArg Token.val (ofInt_signedOf_bytes x (by decide))
    · rfl
    · rfl
    · rfl
    · rfl
    · exact congrArg Token.val (ofInt_signedOf_bytes x (by decide))
    · rfl
  · intro line cell misses nc r quiet
    refine ⟨homeRead_forwarded hready, homeRead_cell hready, fun bs hfw hhbm hout => homeRead_l1 hready hfw (.inl ⟨hhbm, hout⟩),
      fun hfw hnc hca => ⟨homeRead_nc hready hfw hnc hca, ?_, fun hquiet hclean => ?_⟩,
      fun bs hfw hnc _ => homeRead_l1 hready hfw (.inr hnc),
      fun hfw hnc hca hl1 => ⟨homeRead_ncCached hready hfw hnc hca hl1, ?_, fun hquiet => ?_⟩, homeRead_home hready⟩
    · simp only [r, ncRead_uncached hca]
    · simp only [r, ncRead_uncached hca, hostSnoops_quiet hquiet]
      exact cleanLlc_clean hclean
    · simp only [r, ncRead_cached hca, homeBytes_countLlc]
    · simp only [r, ncRead_cached hca, hostSnoops_quiet hquiet]

end Sys2Proof.Machine
end

section
/-! PROOFS. Writes at their home (R111, R113, R119, R120, R126, R147). -/

namespace Sys2Proof.Machine

/-! ### One byte of a write at its home (R111, R120) -/

/-- One byte of a write at its home: a step of `homeWrite`. -/
def State.writeByte (s : State) (a key : Nat) (b : Byte) : State :=
  let u := s.makeRoom (lineOf a)
  let old := u.llc.get? (lineOf a)
  let d := match old with
    | some l => if l.key = key then l.data else u.lineData (lineOf a) key
    | none => u.lineData (lineOf a) key
  let dirty := ((old.map LlcLine.dirty).getD 0) ||| ((1 : BitVec 128) <<< (a % 128))
  { u with llc := u.llc.put (lineOf a) { data := d.set (a % 128) b, dirty := dirty, key := key } }

theorem homeWrite_nil (s : State) (a key : Nat) : s.homeWrite a key [] = s := rfl

theorem homeWrite_cons (s : State) (a key : Nat) (b : Byte) (bs : List Byte) :
    s.homeWrite a key (b :: bs) = (s.writeByte a key b).homeWrite (a + 1) key bs := by
  have hstep : ∀ (t : State) (a key : Nat) (bs : List Byte),
      t.homeWrite a key bs = (List.range bs.length).foldl (fun s i => s.writeByte (a + i) key (bs.getD i 0)) t := fun _ _ _ _ => rfl
  rw [hstep, hstep, List.length_cons, List.range_succ_eq_map, List.foldl_cons, List.foldl_map]
  refine congrArg (fun g => List.foldl g _ _) (funext fun t => funext fun i => ?_)
  rw [List.getD_cons_succ, Nat.succ_eq_add_one, Nat.add_assoc, Nat.add_comm 1 i]

/-- The last-level cache has the line, or its slice has a place for it. -/
def State.hasRoom (s : State) (line : Nat) : Prop :=
  (s.llc.get? line).isSome = true
    ∨ ((s.llc.map Prod.fst).filter (fun l => cachePlace l == cachePlace line)).length < s.sliceLines (cachePlace line).1

theorem makeRoom_hasRoom {s : State} {line : Nat} (h : s.hasRoom line) : s.makeRoom line = s := by
  rw [State.makeRoom]
  rcases h with h | h
  · exact if_pos h
  · split
    · rfl
    · exact if_pos h

theorem get?_evictLlc_none {s : State} {line other : Nat} (h : s.llc.get? line = none) :
    (s.evictLlc other).llc.get? line = none := by
  unfold State.evictLlc
  split
  · exact h
  · by_cases hl : line = other
    · rw [hl]
      exact Dict.get?_erase_same _ _
    · exact (Dict.get?_erase_other _ _ _ hl).trans h

theorem get?_makeRoom (s : State) (line : Nat) : (s.makeRoom line).llc.get? line = s.llc.get? line := by
  cases h : s.llc.get? line with
  | some l => rw [makeRoom_hasRoom (.inl (by rw [h]; rfl)), h]
  | none =>
    rw [State.makeRoom, if_neg (by simp [h])]
    dsimp only
    split
    · exact h
    · exact get?_evictLlc_none h

theorem length_lineData (s : State) (line key : Nat) : (s.lineData line key).length = 128 := by
  simp [State.lineData, State.homeBytes]

theorem getD_set_same {bs : List Byte} {i : Nat} (b : Byte) (h : i < bs.length) : (bs.set i b).getD i 0 = b := by
  simp [h]

theorem getD_set_other {bs : List Byte} {i j : Nat} (b : Byte) (h : j ≠ i) : (bs.set i b).getD j 0 = bs.getD j 0 := by
  simp [List.getElem?_set_ne (Ne.symm h)]

section Byte
variable {s : State} {a key : Nat} {b : Byte}

/-- The line that a byte has been written to is cached whole under the key of the write, with that byte. -/
theorem writeByte_line (hlen : ∀ l, s.llc.get? (lineOf a) = some l → l.data.length = 128) :
    ∃ l, (s.writeByte a key b).llc.get? (lineOf a) = some l ∧ l.key = key ∧ l.data.length = 128 ∧ l.data.getD (a % 128) 0 = b
      ∧ ∀ l0, s.llc.get? (lineOf a) = some l0 → l0.key = key → ∀ j, j ≠ a % 128 → l.data.getD j 0 = l0.data.getD j 0 := by
  have hlt : a % 128 < 128 := Nat.mod_lt _ (by decide)
  refine ⟨_, Dict.get?_put_same _ _ _, rfl, ?_⟩
  rw [get?_makeRoom]
  dsimp only
  cases hl : s.llc.get? (lineOf a) with
  | none =>
    dsimp only
    exact ⟨(List.length_set ..).trans (length_lineData _ _ _), getD_set_same _ ((length_lineData _ _ _).symm ▸ hlt), nofun⟩
  | some l =>
    dsimp only
    by_cases hkey : l.key = key
    · rw [if_pos hkey]
      refine ⟨(List.length_set ..).trans (hlen l hl), getD_set_same _ ((hlen l hl).symm ▸ hlt), ?_⟩
      rintro l0 hl0 - j hj
      obtain rfl := Option.some.inj hl0
      exact getD_set_other _ hj
    · rw [if_neg hkey]
      refine ⟨(List.length_set ..).trans (length_lineData _ _ _), getD_set_same _ ((length_lineData _ _ _).symm ▸ hlt), ?_⟩
      rintro l0 hl0 hk
      obtain rfl := Option.some.inj hl0
      exact absurd hk hkey

/-- Where nothing has to leave the cache, a byte changes no other line. -/
theorem writeByte_other (hroom : s.hasRoom (lineOf a)) {c : Nat} (hc : lineOf c ≠ lineOf a) (k : Nat) :
    (s.writeByte a key b).homeByte c k = s.homeByte c k := by
  unfold State.writeByte
  rw [makeRoom_hasRoom hroom]
  dsimp only
  unfold State.homeByte
  dsimp only
  rw [Dict.get?_put_other _ _ _ _ hc]

end Byte

/-! ### A write within a line -/

section Line
variable {s : State} {a key line : Nat} {bs : List Byte}

/-- A write into a line that the cache has under its key: the line's bytes are the written ones and, outside, the old. -/
theorem homeWrite_cached (hin : ∀ i, i < bs.length → lineOf (a + i) = line) {l0 : LlcLine} (hl0 : s.llc.get? line = some l0)
    (hkey : l0.key = key) (hlen : l0.data.length = 128) : ∃ l, (s.homeWrite a key bs).llc.get? line = some l ∧ l.key = key
      ∧ l.data.length = 128 ∧ (∀ i, i < bs.length → l.data.getD ((a + i) % 128) 0 = bs.getD i 0)
      ∧ ∀ j, (∀ i, i < bs.length → j ≠ (a + i) % 128) → l.data.getD j 0 = l0.data.getD j 0 := by
  induction bs generalizing s a l0 with
  | nil => exact ⟨l0, hl0, hkey, hlen, nofun, fun _ _ => rfl⟩
  | cons b bs ih =>
    have ha : lineOf a = line := hin 0 (by simp)
    have hin' : ∀ i, i < bs.length → lineOf (a + 1 + i) = line := fun i hi => by
      rw [Nat.add_assoc, Nat.add_comm 1 i]
      exact hin (i + 1) (by simpa using hi)
    subst ha
    obtain ⟨l1, hl1, hk1, hlen1, hat1, hout1⟩ := writeByte_line (s := s) (a := a) (key := key) (b := b)
      (fun l hl => by rw [hl0] at hl; obtain rfl := Option.some.inj hl; exact hlen)
    obtain ⟨l, hl, hk, hlen2, hat, hout⟩ := ih hin' hl1 hk1 hlen1
    have hapart : ∀ i, i < bs.length → a % 128 ≠ (a + 1 + i) % 128 := fun i hi => by
      have h := hin' i hi
      simp only [lineOf] at h
      omega
    rw [homeWrite_cons]
    refine ⟨l, hl, hk, hlen2, fun i hi => ?_, fun j hj => ?_⟩
    · cases i with
      | zero => exact (hout _ hapart).trans hat1
      | succ i =>
        have h := hat i (by simpa using hi)
        rwa [Nat.add_assoc, Nat.add_comm 1 i] at h
    · refine (hout j fun i hi => ?_).trans (hout1 l0 hl0 hkey j (hj 0 (by simp)))
      have h := hj (i + 1) (by simpa using hi)
      rwa [Nat.add_assoc, Nat.add_comm 1 i]

/-- A write within a line: the line is cached under its key with the written bytes. -/
theorem homeWrite_line (hin : ∀ i, i < bs.length → lineOf (a + i) = line) (hne : bs ≠ [])
    (hlen : ∀ l, s.llc.get? line = some l → l.data.length = 128) : ∃ l, (s.homeWrite a key bs).llc.get? line = some l
      ∧ l.key = key ∧ l.data.length = 128 ∧ ∀ i, i < bs.length → l.data.getD ((a + i) % 128) 0 = bs.getD i 0 := by
  cases bs with
  | nil => exact absurd rfl hne
  | cons b bs =>
    have ha : lineOf a = line := hin 0 (by simp)
    have hin' : ∀ i, i < bs.length → lineOf (a + 1 + i) = line := fun i hi => by
      rw [Nat.add_assoc, Nat.add_comm 1 i]
      exact hin (i + 1) (by simpa using hi)
    subst ha
    obtain ⟨l1, hl1, hk1, hlen1, hat1, -⟩ := writeByte_line (key := key) (b := b) hlen
    obtain ⟨l, hl, hk, hlen2, hat, hout⟩ := homeWrite_cached hin' hl1 hk1 hlen1
    rw [homeWrite_cons]
    refine ⟨l, hl, hk, hlen2, fun i hi => ?_⟩
    cases i with
    | zero =>
      refine (hout _ fun i hi => ?_).trans hat1
      have h := hin' i hi
      simp only [lineOf] at h
      omega
    | succ i =>
      have h := hat i (by simpa using hi)
      rwa [Nat.add_assoc, Nat.add_comm 1 i] at h

/-- A write within a line for which the cache has room changes no other line. -/
theorem homeWrite_other (hin : ∀ i, i < bs.length → lineOf (a + i) = line) (hroom : s.hasRoom line) {c : Nat}
    (hc : lineOf c ≠ line) (k : Nat) : (s.homeWrite a key bs).homeByte c k = s.homeByte c k := by
  induction bs generalizing s a with
  | nil => rfl
  | cons b bs ih =>
    have ha : lineOf a = line := hin 0 (by simp)
    subst ha
    have hcached : (s.writeByte a key b).hasRoom (lineOf a) := .inl (by rw [State.writeByte, Dict.get?_put_same]; rfl)
    rw [homeWrite_cons]
    refine (ih (fun i hi => ?_) hcached).trans (writeByte_other hroom hc k)
    rw [Nat.add_assoc, Nat.add_comm 1 i]
    exact hin (i + 1) (by simpa using hi)

/-- A byte of a cached line under the key of the line. -/
theorem homeByte_of_key {l : LlcLine} (hl : s.llc.get? (lineOf a) = some l) (hkey : l.key = key) :
    s.homeByte a key = l.data.getD (a % 128) 0 := by
  rw [homeByte_cached hl, if_pos (.inr hkey)]

end Line

/-! ### A store that its home takes (R113, R119) -/

/-- What a value of device memory depends on is equal in two states. -/
structure State.SameLines (s t : State) : Prop where
  mem : t.mem = s.mem
  llc : t.llc = s.llc
  lineKey : t.lineKey = s.lineKey
  untrained : t.untrained = s.untrained
  cmem : t.cmem = s.cmem
  halves : t.halves = s.halves

theorem State.SameLines.refl (s : State) : s.SameLines s := ⟨rfl, rfl, rfl, rfl, rfl, rfl⟩

theorem State.SameLines.trans {s t u : State} (h : s.SameLines t) (k : t.SameLines u) : s.SameLines u :=
  ⟨k.mem.trans h.mem, k.llc.trans h.llc, k.lineKey.trans h.lineKey, k.untrained.trans h.untrained, k.cmem.trans h.cmem,
    k.halves.trans h.halves⟩

theorem State.SameLines.homeByte {s t : State} (h : s.SameLines t) (a key : Nat) : t.homeByte a key = s.homeByte a key := by
  simp only [State.homeByte, h.mem, h.llc, h.lineKey, h.untrained]

theorem sameLines_countSector (sec src n : Nat) (s : State) : s.SameLines (countSector sec src n s) := by
  obtain ⟨d, h⟩ := countSector_keeps sec src n s
  rw [h]
  exact ⟨rfl, rfl, rfl, rfl, rfl, rfl⟩

theorem sameLines_setAccess (s : State) (oid : Nat) (a : Access) : s.SameLines (s.setAccess oid a) :=
  ⟨rfl, rfl, rfl, rfl, rfl, rfl⟩

theorem sameLines_dropOwn (s : State) (cell line : Nat) : s.SameLines (s.dropOwn cell line) := by
  obtain ⟨d, h⟩ := dropL1_keeps s cell line
  unfold State.dropOwn
  split
  · split
    · exact .refl s
    · rw [h]
      exact ⟨rfl, rfl, rfl, rfl, rfl, rfl⟩
  · exact .refl s

theorem sameLines_damage (s : State) (loc : Loc) (n : Nat) : s.SameLines (s.damage loc n) :=
  List.foldlRecOn _ _ (motive := fun t : State => s.SameLines t) (.refl s) fun _ ht _ _ =>
    ht.trans ⟨rfl, rfl, rfl, rfl, rfl, rfl⟩

theorem sameLines_clearPoison (s : State) (sp : Space) (addr n : Nat) : s.SameLines (s.clearPoison sp addr n) := by
  cases sp with
  | cell | hbm | hostNc | hostCoh => exact ⟨rfl, rfl, rfl, rfl, rfl, rfl⟩

/-- The counters of events stand above the registers that have a meaning. -/
theorem reg_countSector {sec src n off : Nat} (s : State) (h : off < 0x4000) : (countSector sec src n s).reg off = s.reg off := by
  unfold countSector
  refine List.foldlRecOn _ _ (motive := fun t : State => t.reg off = s.reg off) rfl fun t ht i _ => ?_
  dsimp only
  split
  · exact (Dict.getD_put_other _ _ _ _ _ (by omega)).trans ht
  · exact ht

theorem State.reg_setAccess (s : State) (oid : Nat) (a : Access) (off : Nat) : (s.setAccess oid a).reg off = s.reg off := rfl

theorem reg_countLlc {off : Nat} (s : State) (line : Nat) (h : off < 0x4000) : (s.countLlc line).reg off = s.reg off := by
  unfold State.countLlc
  exact reg_countSector s h

theorem hasRoom_of {s t : State} {line : Nat} (hllc : t.llc = s.llc) (hreg : t.reg 0x50 = s.reg 0x50) (h : s.hasRoom line) :
    t.hasRoom line := by
  unfold State.hasRoom State.sliceLines at *
  rw [hllc, hreg]
  exact h

section Take
variable {s : State} {oid n : Nat} {x : Access} {p : Piece}

theorem ready_access {q : Access → Bool} (h : s.ready oid n q = some (x, p)) :
    s.accesses.get? oid = some x ∧ x.pieces[n]? = some p := by
  unfold State.ready at h
  cases hx : s.accesses.get? oid with
  | none => rw [hx] at h; exact absurd h nofun
  | some y =>
    rw [hx] at h
    cases hp : y.pieces[n]? with
    | none => simp [hp] at h
    | some q' =>
      simp only [hp, Option.bind_eq_bind, Option.bind_some] at h
      split at h
      · obtain ⟨rfl, rfl⟩ := Prod.mk.inj (Option.some.inj h)
        exact ⟨rfl, hp⟩
      · exact absurd h nofun

theorem setPiece_get (hp : x.pieces[n]? = some p) (q : Piece) : (x.setPiece n q).pieces[n]? = some q := by
  obtain ⟨hn, -⟩ := List.getElem?_eq_some_iff.1 hp
  simp [Access.setPiece, hn]

theorem landPiece_store (hx : s.accesses.get? oid = some x) (hp : x.pieces[n]? = some p) (hstore : isStoreOnly x.ins = true) :
    ∃ u : State, s.SameLines u ∧ u.reg 0x50 = s.reg 0x50 ∧ u.reg 0x58 = s.reg 0x58
      ∧ (u.landHome p.loc.addr p.loc.key p.data).SameLines (s.landPiece oid n) := by
  let u := (s.countLlc (lineOf p.loc.addr)).setAccess oid (x.setPiece n { p with stage := .done })
  have hu : s.SameLines u := (sameLines_countSector _ _ _ s).trans (sameLines_setAccess _ _ _)
  have hreg : ∀ off, off < 0x4000 → u.reg off = s.reg off := fun off h =>
    (State.reg_setAccess _ _ _ _).trans (reg_countLlc s _ h)
  refine ⟨u, hu, hreg _ (by omega), hreg _ (by omega), ?_⟩
  rw [State.landPiece, hx]
  dsimp only
  rw [hp]
  dsimp only
  rw [if_neg (by simp [isAtomic_of_isStoreOnly hstore])]
  exact ((sameLines_clearPoison _ _ _ _).trans (sameLines_dropOwn _ _ _)).trans (sameLines_damage _ _ _)

theorem settleHome_free {line : Nat} {h : HomeWrite} (hh : s.homeQ.get? line = some h) (hwaits : h.waits = []) (hhost : h.host = false)
    (hdata : h.hostData = none) (hopen : s.virga.committingOn line = false) : s.settleHome line
      = State.landPiece { s with homeQ := s.homeQ.erase line, sharers := s.sharers.erase line } h.oid h.piece := by
  have hfree : (h.waits.isEmpty && !h.host && !s.heldAtomic line h) = true := by
    rw [hwaits, hhost, State.heldAtomic, hopen]
    rfl
  rw [State.settleHome, hh]
  dsimp only
  rw [if_pos hfree, hdata]

/-- A store that no one else has to give up is performed when its home takes it. -/
theorem takeWrite_performs (hp : x.pieces[n]? = some p)
    (hopen : s.virga.committingOn (lineOf p.loc.addr) = false) (hstore : isStoreOnly x.ins = true)
    (hshare : s.sharers.getD (lineOf p.loc.addr) [] = []) (hhost : s.hdm.get? (halfOf p.loc.addr) = none)
    (hmarks : (s.virga.line (lineOf p.loc.addr)).marks = []) :
    ∃ u : State, s.SameLines u ∧ u.reg 0x50 = s.reg 0x50 ∧ u.reg 0x58 = s.reg 0x58
      ∧ (u.landHome p.loc.addr p.loc.key p.data).SameLines (s.takeWrite oid n x p) := by
  have hconf : s.plainConflict (lineOf p.loc.addr) = s := by
    rw [State.plainConflict, hmarks]
    rfl
  let asked := s.setAccess oid (x.setPiece n { p with stage := .atHome })
  obtain ⟨d, hd⟩ := countSector_keeps (sectorOf p.loc.addr) 4 0 asked
  have hreg : ∀ off, off < 0x4000 → ({ asked with ctl := d } : State).reg off = s.reg off := fun off h => by
    rw [← hd]
    exact (reg_countSector asked h).trans (State.reg_setAccess s oid _ off)
  let w : HomeWrite := { oid := oid, piece := n, waits := [], dropped := [], host := false, hostData := none }
  have htake : s.takeWrite oid n x p
      = State.settleHome { asked with ctl := d, homeQ := s.homeQ.put (lineOf p.loc.addr) w } (lineOf p.loc.addr) := by
    rw [State.takeWrite]
    rw [if_pos hstore, hconf, hhost, if_neg (show ¬ (none : Option Bool).isSome = true from Bool.false_ne_true), hshare]
    simp only [List.length_nil]
    rw [hd]
    rfl
  rw [htake, settleHome_free (s := { asked with ctl := d, homeQ := s.homeQ.put (lineOf p.loc.addr) w }) (h := w)
    (Dict.get?_put_same _ _ _) rfl rfl rfl hopen]
  let taken : State := { asked with
      ctl := d, homeQ := (s.homeQ.put (lineOf p.loc.addr) w).erase (lineOf p.loc.addr)
      sharers := s.sharers.erase (lineOf p.loc.addr) }
  have hsame : s.SameLines taken := ⟨rfl, rfl, rfl, rfl, rfl, rfl⟩
  obtain ⟨u, hu, h50, h58, hland⟩ := landPiece_store (s := taken) (oid := oid) (n := n)
    (x := x.setPiece n { p with stage := .atHome }) (p := { p with stage := .atHome })
    (Dict.get?_put_same _ _ _) (setPiece_get hp _) hstore
  exact ⟨u, hsame.trans hu, h50.trans (hreg _ (by omega)), h58.trans (hreg _ (by omega)), hland⟩

/-- A store into device memory beside the primary table area is one write at its home. -/
theorem landHome_plain {a key : Nat} {bs : List Byte} (h : s.inTable 0 a bs.length = false) :
    s.landHome a key bs = s.homeWrite a key bs := if_neg (by simp [h])

theorem inTable_of {u : State} (h : u.reg 0x58 = s.reg 0x58) (k a m : Nat) : u.inTable k a m = s.inTable k a m := by
  simp only [State.inTable, State.tableBytes, h]

theorem State.SameLines.hasRoom {u : State} (h : s.SameLines u) (hreg : u.reg 0x50 = s.reg 0x50) {line : Nat}
    (hroom : s.hasRoom line) : u.hasRoom line := hasRoom_of h.llc hreg hroom

end Take

/-- What a store leaves of the bytes of device memory when it is one write within a line. -/
theorem homeWrite_within {u : State} {a key n : Nat} {bs : List Byte} (hbs : bs.length = n) (hfit : a % 128 + n ≤ 128)
    (hlen : ∀ l, u.llc.get? (lineOf a) = some l → l.data.length = 128) :
    (∀ i, i < n → (u.homeWrite a key bs).homeByte (a + i) key = bs.getD i 0)
    ∧ (u.hasRoom (lineOf a) → ∀ b k, lineOf b ≠ lineOf a → (u.homeWrite a key bs).homeByte b k = u.homeByte b k)
    ∧ (∀ l, u.llc.get? (lineOf a) = some l → l.key = key →
      ∀ b k, b < a ∨ a + n ≤ b → (u.homeWrite a key bs).homeByte b k = u.homeByte b k) := by
  subst hbs
  have hin : ∀ i, i < bs.length → lineOf (a + i) = lineOf a := fun i hi => by
    simp only [lineOf]
    omega
  refine ⟨fun i hi => ?_, fun hroom b k hb => homeWrite_other hin hroom hb k, fun l0 hl0 hkey b k hb => ?_⟩
  · have hne : bs ≠ [] := fun h => by simp [h] at hi
    obtain ⟨l, hl, hk, -, hat⟩ := homeWrite_line (key := key) hin hne hlen
    rw [homeByte_of_key (by rw [hin i hi]; exact hl) hk]
    exact hat i hi
  · by_cases hline : lineOf b = lineOf a
    · obtain ⟨l, hl, hk, -, -, hout⟩ := homeWrite_cached hin hl0 hkey (hlen l0 hl0)
      rw [homeByte_cached (s := u) (hline ▸ hl0), homeByte_cached (s := u.homeWrite a key bs) (hline ▸ hl), hk, hkey,
        hout (b % 128) fun i hi => ?_]
      simp only [lineOf] at hline
      omega
    · exact homeWrite_other hin (.inl (by rw [hl0]; rfl)) hline k

theorem onlyLines_halves {s t : State} (h : s.OnlyLines t) : t.halves = s.halves := by
  obtain ⟨_, _, _, rfl⟩ := h
  rfl

theorem fibre?_of_cacheOps {s t : State} (h : s.CacheOps t) (fid : Nat) : t.fibre? fid = s.fibre? fid := by
  rw [State.fibre?, h.fibres]
  rfl

/-- Settles O42: `takeWrite` performs a store that no one has to give up as `homeWrite`, whose bytes `homeWrite_within` gives;
the answers of the sharers and the acknowledgement by the branches of their events. -/
theorem writesAreTakenByTheirHome : Obligations.WritesAreTakenByTheirHome := by
  intro s oid n line cell x p h f
  refine ⟨fun hready hhbm hout hfree hopen hedges => ⟨fun htable => ?_, fun htable => ⟨?_,
    fun hstore hshare hhost hmarks hdata hfit hlen => ?_⟩⟩, fun hh hin hnot => ?_, fun hh hin hdropped => ?_,
    fun hx hstore hlanded hacked hf hrun => ?_⟩
  · have hhome : s.homeFree (lineOf p.loc.addr) = true := by simp [State.homeFree, hfree, hopen, hedges]
    rw [exec_tableUpdateWrite, execTableUpdateWrite, hready]
    dsimp only
    rw [if_pos (by simp [hhbm, hout, htable, hhome])]
  · have hhome : s.homeFree (lineOf p.loc.addr) = true := by simp [State.homeFree, hfree, hopen, hedges]
    rw [exec_homeWrite, execHomeWrite, hready]
    dsimp only
    rw [hhbm]
    dsimp only
    rw [if_neg (by simp [hout, htable, hhome])]
  · intro line t
    obtain ⟨-, hp⟩ := ready_access hready
    obtain ⟨u, hu, h50, h58, hland⟩ := takeWrite_performs hp hopen hstore hshare hhost hmarks
    rw [landHome_plain (by rw [inTable_of h58, hdata]; exact htable)] at hland
    obtain ⟨hat, hother, hkept⟩ := homeWrite_within (u := u) (key := p.loc.key) hdata hfit (by rw [hu.llc]; exact hlen)
    have honly := onlyLines_homeWrite u p.loc.addr p.loc.key p.data
    refine ⟨fun i hi => (hland.homeByte _ _).trans (hat i hi), fun hroom b key hb => ?_, fun l hl hkey b key hb => ?_,
      hland.cmem.trans (honly.cmem.trans hu.cmem), hland.halves.trans ((onlyLines_halves honly).trans hu.halves)⟩
    · exact (hland.homeByte _ _).trans ((hother (hu.hasRoom h50 hroom) b key hb).trans (hu.homeByte _ _))
    · exact (hland.homeByte _ _).trans ((hkept l (by rw [hu.llc]; exact hl) hkey b key hb).trans (hu.homeByte _ _))
  · obtain ⟨d, hd⟩ := dropL1_keeps s cell line
    rw [exec_l1Invalidate, execL1Invalidate, hh]
    dsimp only
    rw [if_pos (by simp [hin, hnot])]
    have hnone := l1Line_dropL1 s cell line
    rw [hd] at hnone ⊢
    exact ⟨_, rfl, hnone, rfl, rfl, rfl, rfl⟩
  · rw [exec_invalidationAck, execInvalidationAck, hh]
    dsimp only
    rw [if_pos (by simp [hin, hdropped])]
  · have hop : isCacheOp x.ins = false := by
      cases hi : x.ins with
      | cinv | cwb => simp [hi, isStoreOnly] at hstore
      | _ => rfl
    rw [exec_writeAck, execWriteAck, hx]
    dsimp only
    rw [if_neg (by simp [hop]), if_pos (by simp [hstore, hlanded, hacked])]
    have hkeep : (((s.setAccess oid { x with acked := true }).runCacheOps x.fid).purge x.fid).fibre? x.fid = some f :=
      (fibre?_of_cacheOps ((cacheOps_accesses s (s.accesses.put oid { x with acked := true })).trans
        ((cacheOps_runCacheOps _ x.fid).trans (cacheOps_purge _ x.fid))) x.fid).trans hf
    rw [hkeep]
    exact congrArg Host.Outcome.next (if_neg (by simp [hrun]))

end Sys2Proof.Machine
end

section
/-! PROOFS. Walks and `tlbinv` (R112, R114, R126, R177, R246). -/

namespace Sys2Proof.Machine

/-! ### Walks (R109, R112, R126) -/

section Walk
variable {s : State} {fid : Nat} {va : Word} {f : Fibre}

theorem pageWalk_outside (hf : s.fibre? fid = some f) (h57 : nfld va 57 7 = 0) (haper : nfld va 48 16 ≠ 0x1F0) :
    exec (.pageWalk fid va) s
      = .next ((s.walkWaits (s.cellOf f) f.xlate [(va, 1)]).getD (s.translate (s.cellOf f) f.xroot va).2) := by
  have hout : ¬ (nfld va 57 7 ≠ 0 ∨ (apertureOff va).isSome) := by
    rw [apertureOff, if_neg haper]
    rintro (h | h)
    · exact h h57
    · exact absurd h Bool.false_ne_true
  rw [exec_pageWalk, execPageWalk, hf]
  exact if_neg hout

theorem sameBytes_of_snoops (s : State) (sn : Dict Bool) (o : List OutMsg) : s.SameBytes { s with snoops := sn, out := o } :=
  ⟨fun _ _ => rfl, fun _ => rfl, fun _ => rfl, fun _ => rfl⟩

end Walk

/-! ### The end of a `tlbinv` (R114) -/

/-- The TLB entries that a `tlbinv` of an address space drops. -/
def dropsEntry (asn : Nat) (all : Bool) (va : Word) (e : TlbEntry) : Bool := e.asn == asn && (all || e.covers asn va)

theorem dropsEntry_iff {asn : Nat} {all : Bool} {va : Word} {e : TlbEntry} :
    dropsEntry asn all va e = true ↔ e.asn = asn ∧ (all = true ∨ e.covers asn va = true) := by
  simp [dropsEntry]

/-- The state without the entries that a `tlbinv` drops. -/
def State.dropEntries (s : State) (scope : Nat → Bool) (drops : TlbEntry → Bool) : State :=
  { s with
    cells := s.cells.map (fun (e : Nat × CellSt) => if scope e.1 then
      (e.1, { e.2 with tlb := e.2.tlb.filter (fun t => !drops t) }) else e)
    tlb2 := s.tlb2.map (fun (e : Nat × List TlbEntry) =>
      if (List.range 64).any (fun c => scope (cellAt e.1 (c % 8) (c / 8)))
      then (e.1, e.2.filter (fun t => !drops t)) else e) }

section Drop
variable {s : State} {scope : Nat → Bool} {drops : TlbEntry → Bool} {e : TlbEntry}

theorem tlb_dropEntries {cell : Nat} {c : CellSt} (hc : (cell, c) ∈ (s.dropEntries scope drops).cells)
    (hin : scope cell = true) (he : e ∈ c.tlb) : drops e = false := by
  obtain ⟨⟨cell', c'⟩, -, hmap⟩ := List.mem_map.1 hc
  dsimp only at hmap
  split at hmap
  · obtain ⟨-, rfl⟩ := Prod.mk.inj hmap
    simpa using (List.mem_filter.1 he).2
  · rename_i hno
    obtain ⟨rfl, -⟩ := Prod.mk.inj hmap
    exact absurd hin hno

theorem tlb2_dropEntries {die x y : Nat} {es : List TlbEntry} (hd : (die, es) ∈ (s.dropEntries scope drops).tlb2) (hx : x < 8)
    (hy : y < 8) (hin : scope (cellAt die x y) = true) (he : e ∈ es) : drops e = false := by
  obtain ⟨⟨die', es'⟩, -, hmap⟩ := List.mem_map.1 hd
  dsimp only at hmap
  split at hmap
  · obtain ⟨-, rfl⟩ := Prod.mk.inj hmap
    simpa using (List.mem_filter.1 he).2
  · rename_i hno
    obtain ⟨rfl, -⟩ := Prod.mk.inj hmap
    refine absurd (List.any_eq_true.2 ⟨x + 8 * y, List.mem_range.2 (by omega), ?_⟩) hno
    rwa [show (x + 8 * y) % 8 = x by omega, show (x + 8 * y) / 8 = y by omega]

end Drop

/-- A fibre with the accesses of its held block changed. -/
def Fibre.mapHeld (h : Access → Access) (x : Fibre) : Fibre := { x with heldAccesses := x.heldAccesses.mapV h }

theorem tlbinvComplete_still {s : State} {fid : Nat} {f : Fibre} {fr : Frame} {rest : List Frame} {k : Nat} {sc : Scope}
    {all : Bool} {va : Word} (hf : s.fibre? fid = some f) (hframes : f.frames = fr :: rest)
    (hpending : pendingTlbinv fr = some (k, sc, all, va)) (hfaults : fr.faults = []) (hidle : s.accesses = [])
    (hstores : ∀ u ∈ fr.unfired, isStore u.2 = false) :
    let u := s.squash fid (fr.seq + 1) 0
    ∃ h : Access → Access, exec (.tlbinvComplete fid) s
      = .next (({ u with fibres := u.fibres.mapV (Fibre.mapHeld h) } : State).dropEntries (u.inScope f sc) (dropsEntry (nfld f.xroot 0 12) all va)
          |>.setFrame fid { fr with owed := fr.owed.filter (· != k) }) := by
  intro u
  rw [exec_tlbinvComplete, execTlbinvComplete, hf]
  dsimp only
  rw [hframes]
  dsimp only
  rw [hpending]
  dsimp only
  have hold : f.isOldest fr.seq = true := by simp [Fibre.isOldest, hframes]
  have hnone : s.accessesOf fid = [] := by
    rw [State.accessesOf, hidle]
    rfl
  have hall : fr.unfired.all (fun u => !isStore u.2) = true := List.all_eq_true.2 fun u hu => by simp [hstores u hu]
  rw [if_neg (by simp only [hfaults, hold, hnone, hidle, hall]; exact Bool.false_ne_true), hidle, List.filter_nil, List.filter_nil,
    List.foldl_nil]
  exact ⟨_, rfl⟩

/-- The scope of a `tlbinv` depends on the group and launch of its fibre. -/
theorem inScope_of {s t : State} (hg : t.groups = s.groups) (hl : t.launches = s.launches) (f : Fibre) (sc : Scope) (cell : Nat) :
    t.inScope f sc cell = s.inScope f sc cell := by
  simp only [State.inScope, State.ctxOf, State.group?, State.launchOf, hg, hl]

theorem tlbinv_fires {s : State} {a : Acting} {pr : Pred} {scope : Scope} {all inside : Bool}
    (h : Fires s (.tlbinv pr scope all) a) (hin : a.f.insideRegion a.fr.seq = some inside) : exec (.tlbinv pr scope all) s
      = .next (if (tlbinvFaults a inside).isEmpty = false then
            a.commit s ((tlbinvFaults a inside).foldl (fun fr c => fr.fault a.k c 0 .firing) (a.fr.fire a.k))
          else if (badOperand (a.fr.operands a.k (.tlbinv pr scope all))).isSome then a.commit s (a.fr.fire a.k)
          else a.commit s { a.fr.fire a.k with owed := a.fr.owed ++ [a.k], late := a.fr.late ++ [a.k] }) := by
  obtain ⟨hact, hcan⟩ := h
  rw [exec_tlbinv, execTlbinv]
  simp only [hact, hcan, hin, if_true]
  cases (tlbinvFaults a inside).isEmpty with
  | false => rfl
  | true =>
    cases (badOperand (a.fr.operands a.k (.tlbinv pr scope all))).isSome with
    | true => rfl
    | false => rfl

/-- Settles O44: a walk changes caches of translations and counters; the end of a `tlbinv` filters the TLBs of the cells in
scope; its firing by the faults of `tlbinvFaults`. -/
theorem walksAndTlbInvalidation : Obligations.WalksAndTlbInvalidation := by
  refine ⟨fun s fid va f fr rest k sc all hf => ⟨fun h57 haper => ?_, fun hframes hpending hfaults hidle hstores => ?_⟩,
    fun s a pr scope all inside hfires hin => ?_⟩
  · intro t
    have hexec := pageWalk_outside hf h57 haper
    refine ⟨fun hnone => ?_, fun u hsome => ?_⟩
    · obtain ⟨tk, cs, tl, ct, h⟩ := translate_keeps s (s.cellOf f) f.xroot va
      refine ⟨by rw [hexec, hnone]; rfl, ?_⟩
      simp only [t, h]
      exact ⟨trivial, trivial, trivial, trivial⟩
    · obtain ⟨sn, o, rfl⟩ := walkWaits_keeps hsome
      exact ⟨by rw [hexec, hsome]; rfl, rfl, sameBytes_of_snoops s sn o⟩
  · intro drops
    obtain ⟨h, hexec⟩ := tlbinvComplete_still hf hframes hpending hfaults hidle hstores
    obtain ⟨fs, as, cs, hsq⟩ := squash_keeps s fid (fr.seq + 1) 0
    have hfr : f.frame? fr.seq = some fr := by simp [Fibre.frame?, hframes]
    have hfib : (s.squash fid (fr.seq + 1) 0).fibre? fid = some (f.squashFrom (fr.seq + 1)) := by
      rw [squash_fibre?, if_pos rfl, hf, Option.map_some]
    let u := s.squash fid (fr.seq + 1) 0
    let v : State := { u with fibres := u.fibres.mapV (Fibre.mapHeld h) }
    have hscope : ∀ cell, v.inScope f sc cell = s.inScope f sc cell := fun cell => by
      refine inScope_of ?_ ?_ f sc cell
      · simp only [v, u, hsq]
      · simp only [v, u, hsq]
    have hv : v.fibre? fid = some (Fibre.mapHeld h (f.squashFrom (fr.seq + 1))) := by
      change Dict.get? (Dict.mapV u.fibres (Fibre.mapHeld h)) fid = _
      rw [get?_mapV]
      exact congrArg (Option.map (Fibre.mapHeld h)) hfib
    have hframe : (Fibre.mapHeld h (f.squashFrom (fr.seq + 1))).frame? fr.seq = some fr :=
      frame?_squashFrom hfr (Nat.lt_succ_self _)
    refine ⟨_, (Fibre.mapHeld h (f.squashFrom (fr.seq + 1))).setFrame { fr with owed := fr.owed.filter (· != k) },
      { fr with owed := fr.owed.filter (· != k) }, hexec, ?_, frame?_setFrame hframe, rfl, fun cell c e hc hin he => ?_,
      fun die es e x y hd hx hy hin he => ?_⟩
    · rw [fibre?_setFrame, if_pos rfl]
      exact (congrArg (Option.map _) hv).trans rfl
    · rw [← hscope] at hin
      rw [State.setFrame_cells] at hc
      have hkeep := tlb_dropEntries (s := v) hc hin he
      exact fun hd => Bool.false_ne_true (hkeep.symm.trans (dropsEntry_iff.2 hd))
    · rw [← hscope] at hin
      rw [State.setFrame_tlb2] at hd
      have hkeep := tlb2_dropEntries (s := v) hd hx hy hin he
      exact fun hd => Bool.false_ne_true (hkeep.symm.trans (dropsEntry_iff.2 hd))
  · intro i
    have hexec := tlbinv_fires hfires hin
    refine ⟨fun hlevel hno => ⟨fun hgood => ?_, fun hbad => ?_⟩, fun hlevel hno => ?_, fun hlevel hyes => ?_, fun hlevel hyes => ?_⟩
    · have hnone : tlbinvFaults a inside = [] := by simp [tlbinvFaults, hlevel, hno]
      rw [hexec, hnone, hgood]
      rfl
    · have hnone : tlbinvFaults a inside = [] := by simp [tlbinvFaults, hlevel, hno]
      rw [hexec, hnone, Option.isSome_iff_ne_none.2 hbad]
      rfl
    · have hone : tlbinvFaults a inside = [.priv] := by simp [tlbinvFaults, hlevel, hno]
      rw [hexec, hone]
      rfl
    · have hone : tlbinvFaults a inside = [.rgnEngine] := by simp [tlbinvFaults, hlevel, hyes]
      rw [hexec, hone]
      rfl
    · have htwo : tlbinvFaults a inside = [.priv, .rgnEngine] := by simp [tlbinvFaults, hlevel, hyes]
      rw [hexec, htwo]
      rfl

end Sys2Proof.Machine
end

section
/-! PROOFS. The bridges and host memory (R121 to R127, R144, R148). -/

namespace Sys2Proof.Machine

/-! ### Halves at their bridge (R121 to R124) -/

/-- The states differ in cells, counters and the directory only. -/
def State.OnlyCopies (s t : State) : Prop :=
  ∃ (cs : Dict CellSt) (ct : Dict Word) (sh : Dict (List Nat)), t = { s with cells := cs, ctl := ct, sharers := sh }

theorem State.OnlyCopies.refl (s : State) : s.OnlyCopies s := ⟨s.cells, s.ctl, s.sharers, rfl⟩

theorem State.OnlyCopies.trans {s t u : State} (h : s.OnlyCopies t) (k : t.OnlyCopies u) : s.OnlyCopies u := by
  obtain ⟨cs, ct, sh, rfl⟩ := h
  obtain ⟨cs', ct', sh', rfl⟩ := k
  exact ⟨cs', ct', sh', rfl⟩

theorem onlyCopies_countSector (sec src n : Nat) (s : State) : s.OnlyCopies (countSector sec src n s) := by
  obtain ⟨d, h⟩ := countSector_keeps sec src n s
  exact ⟨s.cells, d, s.sharers, h⟩

theorem onlyCopies_dropL1Half (s : State) (cell half : Nat) : s.OnlyCopies (s.dropL1Half cell half) := by
  unfold State.dropL1Half
  dsimp only
  split
  · exact .refl s
  · exact ⟨_, s.ctl, s.sharers, rfl⟩

theorem onlyCopies_dropHalfEverywhere (s : State) (half : Nat) : s.OnlyCopies (s.dropHalfEverywhere half) := by
  have hfold : s.OnlyCopies ((s.sharers.getD (halfEntry half) []).foldl (fun s c => s.dropL1Half c half) s) :=
    List.foldlRecOn _ _ (motive := fun t : State => s.OnlyCopies t) (.refl s) fun t ht c _ =>
      ht.trans (onlyCopies_dropL1Half t c half)
  exact (hfold.trans (onlyCopies_countSector _ _ _ _)).trans ⟨_, _, _, rfl⟩

theorem State.OnlyCopies.keeps {s t : State} (h : s.OnlyCopies t) :
    t.mem = s.mem ∧ t.halves = s.halves ∧ t.out = s.out ∧ t.llc = s.llc := by
  obtain ⟨cs, ct, sh, rfl⟩ := h
  exact ⟨rfl, rfl, rfl, rfl⟩

section Half
variable {s : State} {half : Nat}

theorem half_of_halves {s t : State} (h : t.halves = s.halves) (n : Nat) : t.half n = s.half n := by
  rw [State.half, h]
  rfl

/-- A half that has been set is in the state that it was set to; one in I with nothing in flight is not listed. -/
theorem st_setHalf (s : State) (half : Nat) (x : Half) : ((s.setHalf half x).half half).st = x.st := by
  unfold State.setHalf State.half
  dsimp only
  split
  · rename_i h
    rw [Dict.getD, Dict.get?_erase_same]
    have hst : x.st = .i := by
      rw [Bool.and_eq_true, beq_iff_eq] at h
      exact h.1
    rw [hst]
    rfl
  · rw [Dict.getD_put_same]

theorem State.setHalf_keeps (s : State) (half : Nat) (x : Half) :
    (s.setHalf half x).mem = s.mem ∧ (s.setHalf half x).out = s.out := ⟨rfl, rfl⟩

theorem State.emit_keeps (s : State) (m : OutMsg) :
    (s.emit m).halves = s.halves ∧ (s.emit m).mem = s.mem ∧ (s.emit m).out = s.out ++ [m] := ⟨rfl, rfl, rfl⟩

/-- A snoop of a half with nothing in flight acts on it after it has been counted. -/
theorem snoop_open (h : (s.half half).pend = none) (go : Half → State → State) :
    s.snoop half go = go (s.half half) (countSector (bridgeSector (64 * half)) 15 1 s) :=
  if_neg (by rw [h]; exact Bool.false_ne_true)

/-- What the snoops of a half in M come to: the data goes to the host, the half to another state. -/
theorem snoop_forwards {t : State} {x : Half} {data : List Byte} (m : OutMsg) (h : s.OnlyCopies t) :
    (((t.toHost half data).setHalf half x).emit m).mem = s.mem.setBytes (64 * half) data
    ∧ ((((t.toHost half data).setHalf half x).emit m).half half).st = x.st
    ∧ (((t.toHost half data).setHalf half x).emit m).out = s.out ++ [m] := by
  obtain ⟨hmem, -, hout, -⟩ := h.keeps
  refine ⟨?_, st_setHalf (t.toHost half data) half x, ?_⟩
  · rw [← hmem]
    rfl
  · rw [← hout]
    rfl

theorem exec_snoops (hm : (s.half half).st = .m) (hopen : (s.half half).pend = none) :
    (∃ t, exec (.snpData half) s = .next t ∧ (t.half half).st = .s ∧ t.mem = s.mem.setBytes (64 * half) (s.half half).data
      ∧ t.out = s.out ++ [.snoopReply half "RspSFwdM" (s.half half).data])
    ∧ (∃ t, exec (.snpInv half) s = .next t ∧ (t.half half).st = .i ∧ t.mem = s.mem.setBytes (64 * half) (s.half half).data
      ∧ t.out = s.out ++ [.snoopReply half "RspIFwdM" (s.half half).data])
    ∧ (∃ t, exec (.snpCur half) s = .next t ∧ t.halves = s.halves ∧ t.mem = s.mem
      ∧ t.out = s.out ++ [.snoopReply half "RspVFwdV" (s.half half).data]) := by
  have hcount := onlyCopies_countSector (bridgeSector (64 * half)) 15 1 s
  have hdrop := hcount.trans (onlyCopies_dropHalfEverywhere _ half)
  refine ⟨?_, ?_, ?_⟩
  · obtain ⟨hmem, hst, hout⟩ := snoop_forwards (half := half) (x := { s.half half with st := .s }) (data := (s.half half).data)
      (.snoopReply half "RspSFwdM" (s.half half).data) hdrop
    refine ⟨_, ?_, hst, hmem, hout⟩
    rw [exec_snpData, execSnpData, State.snpData, snoop_open hopen, hm]
  · obtain ⟨hmem, hst, hout⟩ := snoop_forwards (half := half) (x := { s.half half with st := .i, data := [] })
      (data := (s.half half).data) (.snoopReply half "RspIFwdM" (s.half half).data) hdrop
    refine ⟨_, ?_, hst, hmem, hout⟩
    rw [exec_snpInv, execSnpInv, State.snpInv, snoop_open hopen, hm]
  · obtain ⟨hmem, hhalves, hout, -⟩ := hcount.keeps
    have hexec : exec (.snpCur half) s = .next ((countSector (bridgeSector (64 * half)) 15 1 s).emit
        (.snoopReply half "RspVFwdV" (s.half half).data)) := by
      rw [exec_snpCur, execSnpCur, snoop_open hopen, hm]
    obtain ⟨khalves, kmem, kout⟩ := State.emit_keeps (countSector (bridgeSector (64 * half)) 15 1 s)
      (.snoopReply half "RspVFwdV" (s.half half).data)
    exact ⟨_, hexec, khalves.trans hhalves, kmem.trans hmem, by rw [kout, hout]⟩

theorem exec_writeBacks (ho : (s.half half).st = .o) :
    (∃ t, exec (.writePull half) s = .next t ∧ (t.half half).st = .i
      ∧ t.mem = s.mem.setBytes (64 * half) (s.half half).data ∧ t.out = s.out ++ [.writeBack half (s.half half).data])
    ∧ (∃ t, exec (.goWritePullDrop half) s = .next t ∧ (t.half half).st = .i ∧ t.mem = s.mem ∧ t.out = s.out) := by
  have hdrop := onlyCopies_dropHalfEverywhere s half
  refine ⟨?_, ?_⟩
  · obtain ⟨hmem, hst, hout⟩ := snoop_forwards (half := half) (x := { s.half half with st := .i, data := [] })
      (data := (s.half half).data) (.writeBack half (s.half half).data) hdrop
    have hexec := (exec_writePull half s).trans (if_pos ho)
    exact ⟨_, hexec, hst, hmem, hout⟩
  · obtain ⟨hmem, -, hout, -⟩ := hdrop.keeps
    have hexec := (exec_goWritePullDrop half s).trans (if_pos ho)
    exact ⟨_, hexec, st_setHalf _ half _, (State.setHalf_keeps _ _ _).1.trans hmem, (State.setHalf_keeps _ _ _).2.trans hout⟩

end Half

/-! ### What a bridge does for the module (R121, R123, R124) -/

section Module
variable {s : State} {oid n half : Nat} {x : Access} {p : Piece}

section ReadBridge
variable (hready : s.ready oid n (fun a => isLoad a.ins) = some (x, p)) (hspace : p.loc.space = .hostCoh) (hout : x.inside = false)
include hready hspace hout

theorem bridgeRead_asks (hfind : (x.halvesFor p).find? (fun y => (s.half y).st == .i) = some half) (hopen : (s.half half).pend = none) :
    exec (.bridgeModuleRead oid n) s = .next (s.ask half (s.half half) false "RdShared") := by
  rw [exec_bridgeModuleRead, execBridgeModuleRead, hready]
  dsimp only
  rw [if_neg (by simp [hspace, hout]), hfind]
  exact if_neg (by rw [hopen]; exact Bool.false_ne_true)

variable (hheld : ∀ y ∈ x.halvesFor p, (s.half y).st ≠ .i)
include hheld

theorem bridgeRead_l1 {bs : List Byte} (hl1 : s.l1Read (s.accessCell x) p.loc p.n = some bs) :
    exec (.bridgeModuleRead oid n) s = .next (s.finishRead oid n x p bs) := by
  have hnone : (x.halvesFor p).find? (fun y => (s.half y).st == .i) = none := List.find?_eq_none.2 fun y hy => by simp [hheld y hy]
  rw [exec_bridgeModuleRead, execBridgeModuleRead, hready]
  dsimp only
  rw [if_neg (by simp [hspace, hout]), hnone, hl1]

theorem bridgeRead_uncached (hca : p.loc.ca = false) : exec (.bridgeModuleRead oid n) s
    = .next ((countCell (s.accessCell x) 7 1 s).finishRead oid n x p
        (((s.half (halfOf p.loc.addr)).data.drop (p.loc.addr % 64)).take p.n)) := by
  have hnone : (x.halvesFor p).find? (fun y => (s.half y).st == .i) = none := List.find?_eq_none.2 fun y hy => by simp [hheld y hy]
  rw [exec_bridgeModuleRead, execBridgeModuleRead, hready]
  dsimp only
  rw [if_neg (by simp [hspace, hout]), hnone, l1Read_uncached hca]
  dsimp only
  rw [if_neg (by simp [hca])]

end ReadBridge

section WriteBridge
variable (hready : s.ready oid n (fun a => isStore a.ins) = some (x, p)) (hspace : p.loc.space = .hostCoh) (hout : x.inside = false)
include hready hspace hout

theorem bridgeWrite_lands
    (hheld : ∀ y ∈ x.halvesFor p, (s.half y).pend = none ∧ ((s.half y).st = .e ∨ (s.half y).st = .m)) :
    exec (.bridgeModuleWrite oid n) s = .next (s.landBridge oid n x p (s.half (halfOf p.loc.addr))) := by
  have hnone : (x.halvesFor p).find? (fun y => !(s.half y).owned) = none := by
    refine List.find?_eq_none.2 fun y hy => ?_
    obtain ⟨hpend, hst⟩ := hheld y hy
    rcases hst with hst | hst
    · simp [Half.owned, hpend, hst]
    · simp [Half.owned, hpend, hst]
  rw [exec_bridgeModuleWrite, execBridgeModuleWrite, hready]
  dsimp only
  rw [if_neg (by simp [hspace, hout]), hnone]

theorem bridgeWrite_asks (hfind : (x.halvesFor p).find? (fun y => !(s.half y).owned) = some half)
    (hopen : (s.half half).pend = none) :
    ((s.half half).st = .s → exec (.bridgeModuleWrite oid n) s = .next (s.ask half (s.half half) true "RdOwn"))
    ∧ ((s.half half).st = .i → exec (.bridgeModuleWrite oid n) s = .next (s.ask half (s.half half) true
        (if isStoreOnly x.ins && p.n == 64 then "RdOwnNoData" else "RdOwn"))) := by
  rw [exec_bridgeModuleWrite, execBridgeModuleWrite, hready]
  dsimp only
  rw [if_neg (by simp [hspace, hout]), hfind]
  dsimp only
  rw [if_neg (by rw [hopen]; exact Bool.false_ne_true)]
  refine ⟨fun hst => ?_, fun hst => ?_⟩
  · rw [hst]
  · rw [hst]

end WriteBridge

theorem bridgeDrop_open (h : (s.half half).pend = none) : s.bridgeDrop half = match (s.half half).st with
    | .s => ((s.dropHalfEverywhere half).setHalf half { s.half half with st := .i, data := [] }).emit (.request half "CleanEvictNoData")
    | .e => ((s.dropHalfEverywhere half).setHalf half { s.half half with st := .i, data := [] }).emit (.request half "CleanEvict")
    | .m => (s.setHalf half { s.half half with st := .o }).emit (.request half "DirtyEvict")
    | .i | .o => s := by
  unfold State.bridgeDrop
  refine (if_neg (by rw [h]; exact Bool.false_ne_true)).trans ?_
  cases (s.half half).st <;> rfl

end Module

/-- Settles O45: each event of a bridge by the branch of its definition; dropping the copies of a half changes neither memory
nor the halves. -/
theorem bridgeServesModuleAndHost : Obligations.BridgeServesModuleAndHost := by
  refine ⟨fun s oid n half x p ex => ?_, fun s half => ⟨exec_snoops, exec_writeBacks⟩⟩
  intro h asks drops
  refine ⟨fun hready hspace hout => ⟨bridgeRead_asks hready hspace hout, fun hheld =>
      ⟨fun bs => bridgeRead_l1 hready hspace hout hheld, bridgeRead_uncached hready hspace hout hheld⟩⟩,
    fun hready hspace hout => ⟨bridgeWrite_lands hready hspace hout, bridgeWrite_asks hready hspace hout⟩,
    fun hopen => ⟨fun hst => ?_, fun hst => ?_, fun hst => ?_⟩, fun own hpend => ?_⟩
  · rw [exec_bridgeDropHalf, execBridgeDropHalf, bridgeDrop_open hopen, hst]
  · rw [exec_bridgeDropHalf, execBridgeDropHalf, bridgeDrop_open hopen, hst]
  · rw [exec_bridgeDropHalf, execBridgeDropHalf, bridgeDrop_open hopen, hst]
  · rw [exec_go, execGo, hpend]
    rfl

end Sys2Proof.Machine
end

section
/-! PROOFS. Hosts at device memory, and AtomicOps at host memory (R126, R127, R144, R148, R297). -/

namespace Sys2Proof.Machine

/-! ### Host reads (R126) -/

section HostRead
variable {s : State} {half : Nat}

theorem serveHost_eq (s : State) (half : Nat) (any : Bool) : ∃ d, s.serveHost half any
    = State.emit { s with hdm := s.hdm.put half any, ctl := d }
        (.hostData half (s.homeBytes (64 * half) 64 (s.lineKey.getD (half / 2) 0)) (s.marked .hbm (64 * half) 64)) := by
  obtain ⟨d, hd⟩ := countLlc_keeps { s with hdm := s.hdm.put half any } (half / 2)
  refine ⟨d, ?_⟩
  rw [State.serveHost, hd]
  rfl

theorem invalidateLine_eq (s : State) (line : Nat) :
    ∃ d, s.invalidateLine line = State.dropAllL1 { s with ctl := d } line := by
  obtain ⟨d, hd⟩ := countSector_keeps (cachePlace line).1 4 (s.sharers.getD line []).length s
  exact ⟨d, by rw [State.invalidateLine, hd]⟩

theorem l1Line_dropAllL1 (s : State) (cell line : Nat) : (s.dropAllL1 line).l1Line cell line = none := by
  unfold State.l1Line State.cell State.dropAllL1 Dict.getD
  dsimp only
  rw [get?_mapV]
  cases s.cells.get? cell with
  | none => rfl
  | some c =>
    rw [Option.map_some, Option.getD_some]
    split
    · exact Dict.get?_erase_same _ _
    case isFalse h => exact Option.not_isSome_iff_eq_none.1 h

theorem hostRead_shared (hin : s.inHdm half = true) (hfree : s.homeQ.get? (half / 2) = none)
    (hopen : s.virga.committingOn (half / 2) = false) :
    exec (.memRdData half) s = .next (s.serveHost half false) ∧ exec (.memRd half false) s = .next (s.serveHost half false) := by
  refine ⟨?_, ?_⟩
  · rw [exec_memRdData, execMemRdData, if_neg (by simp [hin]), if_neg (by simp [hfree, hopen])]
  · rw [exec_memRd, execMemRd, if_neg (by simp [hin]), if_neg (by simp [hfree, hopen]), if_neg Bool.false_ne_true]

theorem hostRead_owned (hin : s.inHdm half = true) (hfree : s.homeQ.get? (half / 2) = none)
    (hopen : s.virga.committingOn (half / 2) = false) (hedges : s.edgesPending (half / 2) = false) :
    exec (.memRd half true) s = .next ((s.invalidateLine (half / 2)).serveHost half true) := by
  rw [exec_memRd, execMemRd, if_neg (by simp [hin]), if_neg (by simp [hfree, hopen]), if_pos rfl, if_neg (by simp [hedges])]

theorem hostReads (hin : s.inHdm half = true) (hfree : s.homeQ.get? (half / 2) = none)
    (hopen : s.virga.committingOn (half / 2) = false) :
    let answer := OutMsg.hostData half (s.homeBytes (64 * half) 64 (s.lineKey.getD (half / 2) 0)) (s.marked .hbm (64 * half) 64)
    (∃ t, exec (.memRdData half) s = .next t ∧ t.out = s.out ++ [answer] ∧ (t.hdm.get? half).isSome = true ∧ t.mem = s.mem)
    ∧ (∃ t, exec (.memRd half false) s = .next t ∧ t.out = s.out ++ [answer] ∧ (t.hdm.get? half).isSome = true ∧ t.mem = s.mem)
    ∧ (s.edgesPending (half / 2) = false → ∃ t, exec (.memRd half true) s = .next t ∧ t.out = s.out ++ [answer]
      ∧ t.hdm.get? half = some true ∧ t.mem = s.mem ∧ ∀ cell, t.l1Line cell (half / 2) = none) := by
  obtain ⟨hdata, hread⟩ := hostRead_shared hin hfree hopen
  obtain ⟨d, hd⟩ := serveHost_eq s half false
  have hsome : ((s.hdm.put half false).get? half).isSome = true := by rw [Dict.get?_put_same]; rfl
  rw [hd] at hdata hread
  refine ⟨⟨_, hdata, rfl, hsome, rfl⟩, ⟨_, hread, rfl, hsome, rfl⟩, fun hedges => ?_⟩
  have howned := hostRead_owned hin hfree hopen hedges
  obtain ⟨c, hc⟩ := invalidateLine_eq s (half / 2)
  obtain ⟨e, he⟩ := serveHost_eq (State.dropAllL1 { s with ctl := c } (half / 2)) half true
  rw [hc, he] at howned
  exact ⟨_, howned, rfl, Dict.get?_put_same _ _ _, rfl, fun cell => l1Line_dropAllL1 { s with ctl := c } cell (half / 2)⟩

end HostRead

/-! ### Host writes (R126) -/

theorem onlyLines_landHome (s : State) (a key : Nat) (bs : List Byte) : s.OnlyLines (s.landHome a key bs) :=
  iteInduction (motive := fun t : State => s.OnlyLines t)
    (fun _ => State.OnlyLines.foldl _ _ s fun t _ => onlyLines_homeWrite t _ key bs) fun _ => onlyLines_homeWrite s a key bs

theorem sameLines_emit (s : State) (m : OutMsg) : s.SameLines (s.emit m) := ⟨rfl, rfl, rfl, rfl, rfl, rfl⟩

theorem length_natLe (n x : Nat) : (natLe n x).length = n := by
  induction n generalizing x with
  | zero => rfl
  | succ n ih => rw [natLe, List.length_cons, ih]

section HostWrite
variable {s : State} {half : Nat} {data : Vec}

theorem landHost_eq (s : State) (half : Nat) (data : Vec) : ∃ u : State, s.SameLines u ∧ u.reg 0x58 = s.reg 0x58 ∧ u.out = s.out
    ∧ u.homeQ = s.homeQ ∧ s.landHost half data = State.emit ((u.landHome (64 * half) (s.lineKey.getD (half / 2) 0)
        (natLe 64 data.toNat)).clearPoison .hbm (64 * half) 64) (.cmp half) := by
  obtain ⟨d, hd⟩ := countLlc_keeps s (half / 2)
  have hreg : (s.countLlc (half / 2)).reg 0x58 = s.reg 0x58 := reg_countLlc s _ (by omega)
  refine ⟨s.countLlc (half / 2), sameLines_countSector _ _ _ s, hreg, ?_, ?_, ?_⟩
  · rw [hd]
  · rw [hd]
  · rw [State.landHost]

theorem memWr_takes (hin : s.inHdm half = true) (hsnoop : s.snoops.get? half = none) (hfree : s.homeQ.get? (half / 2) = none)
    (hopen : s.virga.committingOn (half / 2) = false) (hedges : s.edgesPending (half / 2) = false)
    (hshare : s.sharers.getD (half / 2) [] = []) (hmarks : (s.virga.line (half / 2)).marks = []) :
    ∃ u : State, s.SameLines u ∧ u.reg 0x58 = s.reg 0x58 ∧ u.out = s.out ∧ u.homeQ.get? (half / 2) = none
      ∧ exec (.memWr half data) s = .next (u.landHost half data) := by
  have hconf : s.plainConflict (half / 2) = s := by
    rw [State.plainConflict, hmarks]
    rfl
  have hhome : s.homeFree (half / 2) = true := by simp [State.homeFree, hfree, hopen, hedges]
  obtain ⟨d, hd⟩ := countSector_keeps (sectorOf (64 * half)) 4 0 s
  have hreg : ({ s with ctl := d } : State).reg 0x58 = s.reg 0x58 := by
    rw [← hd]
    exact reg_countSector s (by omega)
  let w : HomeWrite := { oid := 0, piece := half, waits := [], dropped := [], host := false, hostData := some data }
  let u : State := { s with ctl := d, homeQ := (s.homeQ.put (half / 2) w).erase (half / 2), sharers := s.sharers.erase (half / 2) }
  have hsettle : State.settleHome { s with ctl := d, homeQ := s.homeQ.put (half / 2) w } (half / 2) = u.landHost half data := by
    rw [State.settleHome, Dict.get?_put_same]
    dsimp only
    rw [if_pos (by simp [w, State.heldAtomic])]
  refine ⟨u, ⟨rfl, rfl, rfl, rfl, rfl, rfl⟩, hreg, rfl, Dict.get?_erase_same _ _, ?_⟩
  rw [exec_memWr, execMemWr, if_neg (by simp [hin]), if_neg (by simp [hsnoop]), if_neg (by simp [hhome]), hconf]
  simp only [hshare, List.length_nil, hd]
  exact congrArg Host.Outcome.next hsettle

theorem memWr_lands (hin : s.inHdm half = true) (hsnoop : s.snoops.get? half = none) (hfree : s.homeQ.get? (half / 2) = none)
    (hopen : s.virga.committingOn (half / 2) = false) (hedges : s.edgesPending (half / 2) = false)
    (hshare : s.sharers.getD (half / 2) [] = []) (hmarks : (s.virga.line (half / 2)).marks = []) :
    ∃ t, exec (.memWr half data) s = .next t ∧ t.out = s.out ++ [.cmp half] ∧ t.homeQ.get? (half / 2) = none
      ∧ (s.inTable 0 (64 * half) 64 = false → (∀ l, s.llc.get? (half / 2) = some l → l.data.length = 128) →
        ∀ i, i < 64 → t.homeByte (64 * half + i) (s.lineKey.getD (half / 2) 0) = (natLe 64 data.toNat).getD i 0) := by
  obtain ⟨u, hu, hureg, huout, huq, hexec⟩ := memWr_takes (data := data) hin hsnoop hfree hopen hedges hshare hmarks
  obtain ⟨v, hv, hvreg, hvout, hvq, hland⟩ := landHost_eq u half data
  obtain ⟨m, lk, ll, hlines⟩ := onlyLines_landHome v (64 * half) (u.lineKey.getD (half / 2) 0) (natLe 64 data.toNat)
  refine ⟨_, hexec, ?_, ?_, fun htable hlen i hi => ?_⟩
  · rw [hland, hlines, ← huout, ← hvout]
    rfl
  · rw [hland, hlines, ← huq, ← hvq]
    rfl
  · have hline : lineOf (64 * half) = half / 2 := by simp only [lineOf]; omega
    have hplain : v.landHome (64 * half) (u.lineKey.getD (half / 2) 0) (natLe 64 data.toNat)
        = v.homeWrite (64 * half) (u.lineKey.getD (half / 2) 0) (natLe 64 data.toNat) :=
      landHome_plain (by rw [length_natLe, inTable_of (hvreg.trans hureg)]; exact htable)
    obtain ⟨hat, -, -⟩ := homeWrite_within (u := v) (a := 64 * half) (key := u.lineKey.getD (half / 2) 0)
      (length_natLe 64 data.toNat) (by omega) (by rw [hline, hv.llc, hu.llc]; exact hlen)
    rw [hland, hplain, ← hu.lineKey]
    exact (((sameLines_clearPoison _ .hbm (64 * half) 64).trans (sameLines_emit _ _)).homeByte _ _).trans (hat i hi)

end HostWrite

/-! ### Answers to back-invalidations (R126) -/

section Birspi
variable {s : State} {half : Nat} {inv : Bool}

/-- The state in which the host has answered a back-invalidation. -/
def State.told (s : State) (half : Nat) (inv : Bool) : State :=
  { s with snoops := s.snoops.erase half, hdm := if inv then s.hdm.erase half else s.hdm.put half false }

theorem birspi_unasked (hsnoop : s.snoops.get? half = some inv) (hfree : s.homeQ.get? (half / 2) = none) :
    exec (.birspi half) s = .next (s.told half inv) := by
  rw [exec_birspi, execBirspi, hsnoop]
  dsimp only
  rw [hfree]
  rfl

theorem birspi_taken {h : HomeWrite} (hsnoop : s.snoops.get? half = some inv) (htaken : s.homeQ.get? (half / 2) = some h) :
    (h.host = false ∨ s.takenHalf h ≠ some half → exec (.birspi half) s = .next (s.told half inv))
    ∧ (h.host = true → s.takenHalf h = some half → exec (.birspi half) s = .next (if inv then
        State.settleHome { s.told half inv with homeQ := s.homeQ.put (half / 2) { h with host := false } } (half / 2)
      else (s.told half inv).backInvalidate half true)) := by
  have hhalf : (s.told half inv).takenHalf h = s.takenHalf h := rfl
  rw [exec_birspi, execBirspi, hsnoop]
  dsimp only
  rw [htaken]
  change (_ → (if (!h.host || (s.told half inv).takenHalf h != some half) = true then _ else _) = _)
    ∧ (_ → _ → (if (!h.host || (s.told half inv).takenHalf h != some half) = true then _ else _) = _)
  rw [hhalf]
  refine ⟨fun hno => ?_, fun hhost hof => ?_⟩
  · rw [if_pos]
    · rfl
    · rcases hno with hno | hno
      · simp [hno]
      · simp [hno]
  · rw [if_neg (by simp [hhost, hof])]
    cases inv with
    | false => rfl
    | true => rfl

end Birspi

/-! ### The completer's answer to an AtomicOp (R144) -/

section Completion
variable {s : State} {oid : Nat} {x : Access} {p : Piece}

theorem completion_eq (hx : s.accesses.get? oid = some x) (hp : x.pieces = [p]) (hatomic : isAtomic x.ins = true)
    (hspace : p.loc.space = .hostNc) (hstage : p.stage = .atHome)
    (hback : s.writingBack [2 * lineOf p.loc.addr, 2 * lineOf p.loc.addr + 1] = false) (ok : Bool) :
    exec (.atomicOpCompletion oid ok) s = .next (if ok = true then
        let m := s.giveUpLine (lineOf p.loc.addr)
        let u := m.setAccess oid (x.doneOver 0 p (m.mem.bytes p.loc.addr p.n))
        ((x.amoBytes (m.mem.bytes p.loc.addr p.n)).map fun bs =>
          State.damageBy { u with mem := u.mem.setBytes p.loc.addr bs } x p).getD u
      else ((s.setAccess oid { (x.setPiece 0 { p with stage := .done }) with replied := true, acked := true }).modFibre x.fid
          (x.faultIn .atomUnsup p.va)).sendReply x .poison) := by
  rw [exec_atomicOpCompletion, execAtomicOpCompletion, hx]
  dsimp only
  rw [hp]
  dsimp only
  rw [if_pos (by simp [hatomic, hspace, hstage]), if_neg (by simp [hback])]
  cases ok with
  | false => rfl
  | true =>
    rw [if_pos rfl, if_pos rfl]
    change Host.Outcome.next (match x.amoBytes ((s.giveUpLine (lineOf p.loc.addr)).mem.bytes p.loc.addr p.n) with
      | some bs => _
      | none => _) = _
    cases x.amoBytes ((s.giveUpLine (lineOf p.loc.addr)).mem.bytes p.loc.addr p.n) with
    | none => rfl
    | some bs => rfl

theorem damage_keeps (s : State) (loc : Loc) (n : Nat) : ∃ q, s.damage loc n = { s with queues := q } := by
  refine List.foldlRecOn (s.ringsOf loc n) _ (motive := fun t : State => ∃ q, t = { s with queues := q }) ⟨s.queues, rfl⟩ ?_
  rintro _ ⟨q, rfl⟩ r -
  exact ⟨_, rfl⟩

theorem landed_doneOver (hp : x.pieces = [p]) (old : List Byte) : (x.doneOver 0 p old).landed = true := by
  simp [Access.landed, Access.doneOver, Access.setPiece, hp]

end Completion

/-! ### AtomicOps and stores of hosts (R127, R148) -/

section HostAtomic
variable {s : State} {addr op width half : Nat} {v w : Word}

theorem hostAtomic_marked (hhalf : halfOf addr = half) (hin : s.inHdm half = true) (hwidth : width = 4 ∨ width = 8)
    (halign : addr % width = 0) (hop : op ≤ 2) (hfree : s.homeFree (half / 2) = true) (hhost : s.hdm.getD half false = false)
    (hmarked : s.marked .hbm addr width = true) :
    ∃ b d, s.hostAtomic addr op width v w = State.emit { s with ctl := d } (.atomicReply addr b true) := by
  have hline : lineOf addr = half / 2 := by simp only [lineOf, halfOf] at *; omega
  have hend : halfOf (addr + width - 1) = half := by
    rcases hwidth with rfl | rfl
    · simp only [halfOf] at *; omega
    · simp only [halfOf] at *; omega
  have hwide : (width == 4 || width == 8) = true := by simpa using hwidth
  have hopen : (s.homeQ.get? (lineOf addr)).isSome = false ∧ s.virga.committingOn (lineOf addr) = false := by
    rw [hline]
    simp only [State.homeFree, Bool.and_eq_true, Bool.not_eq_true', Option.isNone_iff_eq_none] at hfree
    obtain ⟨⟨hq, hc⟩, -⟩ := hfree
    exact ⟨by rw [hq]; rfl, hc⟩
  obtain ⟨d, hd⟩ := countLlc_keeps s (lineOf addr)
  have hread : s.engineRead { hbmLoc addr with key := s.lineKey.getD (lineOf addr) 0 } width
      = (some (s.homeBytes addr width (s.lineKey.getD (lineOf addr) 0)), { s with ctl := d }) := by
    rw [State.engineRead]
    dsimp only [hbmLoc]
    rw [if_neg (by simp [hopen.1, hopen.2]), hhalf, hend, hd]
    simp only [List.find?_cons, List.find?_nil, hhost]
  rw [State.hostAtomic, if_neg (by simp [hhalf, hin, hwide, halign]; omega), hline, if_neg (by simp [hfree]), ← hline]
  dsimp only
  rw [hread]
  dsimp only
  exact ⟨_, d, if_pos hmarked⟩

end HostAtomic

/-- Settles O46: a host read is `serveHost`, a host write that its home takes is `landHost`; the completer's answer is
`completion_eq`, and the other events take the branch that their hypotheses pick. -/
theorem hostReachesDeviceMemory : Obligations.HostReachesDeviceMemory := by
  intro s half oid data x p inv line
  refine ⟨hostReads, memWr_lands, fun hsnoop => ⟨birspi_unasked hsnoop, fun h => birspi_taken hsnoop⟩,
    fun hx hp hatomic hspace hstage hback => ?_, fun addr op width v w hhalf hin hwidth halign hop hfree hhost hmarked => ?_,
    fun hport hi => ?_⟩
  · intro m
    refine ⟨fun bs hbs => ?_, ?_⟩
    · have hexec := completion_eq hx hp hatomic hspace hstage hback true
      rw [if_pos rfl] at hexec
      dsimp only at hexec
      rw [hbs, Option.map_some, Option.getD_some] at hexec
      obtain ⟨q, hq⟩ := damage_keeps { (s.giveUpLine (lineOf p.loc.addr)).setAccess oid
        (x.doneOver 0 p ((s.giveUpLine (lineOf p.loc.addr)).mem.bytes p.loc.addr p.n)) with
        mem := (s.giveUpLine (lineOf p.loc.addr)).mem.setBytes p.loc.addr bs } p.loc p.n
      refine ⟨_, x.doneOver 0 p (m.bytes p.loc.addr p.n), hexec, ?_, ?_, rfl, landed_doneOver hp _⟩
      · exact congrArg State.mem hq
      · exact (congrArg (fun t : State => t.accesses.get? oid) hq).trans (Dict.get?_put_same _ _ _)
    · have hexec := completion_eq hx hp hatomic hspace hstage hback false
      rw [if_neg Bool.false_ne_true] at hexec
      refine ⟨_, hexec, ?_, fun f fr hf hfr => ?_⟩
      · exact (State.modFibre_mem _ _ _).trans (State.modFibre_mem _ _ _)
      · exact sendReply_faultIn (s := s.setAccess oid _) hf hfr
  · obtain ⟨b, d, h⟩ := hostAtomic_marked (v := v) (w := w) hhalf hin hwidth halign hop hfree hhost hmarked
    refine ⟨b, ?_, ?_, ?_⟩
    all_goals
      rw [State.outside, h]
      rfl
  · rw [State.outside, State.hostStore, if_neg (by simpa [Option.isSome_iff_ne_none] using hport), if_pos hi]
    rfl

end Sys2Proof.Machine
end

section
/-! PROOFS. Aborts of regions, and their accesses at the homes (R164 to R176). -/

namespace Sys2Proof.Machine

/-! ### Aborts (R172 to R174) -/

theorem Fibre.squashFrom_region (f : Fibre) (seq : Nat) :
    (f.squashFrom seq).snap = f.snap ∧ (f.squashFrom seq).rgnCause = f.rgnCause := by
  unfold Fibre.squashFrom
  split
  · exact ⟨rfl, rfl⟩
  · exact ⟨rfl, rfl⟩

/-- The fibre that goes on at the handler of its aborted region. -/
def Fibre.afterAbort (f : Fibre) (c : Nat) : Fibre :=
  { f.restore c with
    answer := none, rgnTrap := false, rgnKept := none, held := none, heldAccesses := []
    next := some (f.rgnh &&& ~~~0x1F), park := .none }

theorem takeAbort_fibre? {s : State} {fid c : Nat} {f : Fibre} (hf : s.fibre? fid = some f) :
    ∃ seq, (s.takeAbort fid f c).fibre? fid = some ((f.squashFrom seq).afterAbort c) := by
  let seq := ((f.frames.head?).map Frame.seq).getD f.nextSeq
  refine ⟨seq, ?_⟩
  obtain ⟨d, hd⟩ := countCell_keeps (s.cellOf f) 13 1 (s.squash fid seq 0)
  have hsq : (s.squash fid seq 0).fibre? fid = some (f.squashFrom seq) := by
    rw [squash_fibre?, if_pos rfl, hf, Option.map_some]
  rw [State.takeAbort, fibre?_modFibre, if_pos rfl, hd]
  exact congrArg (Option.map (fun g : Fibre => g.afterAbort c)) hsq

theorem Fibre.afterAbort_g {f : Fibre} {sn : Snapshot} {c n : Nat} (hsnap : f.snap = some sn) (hn : n < 64) :
    vget (f.afterAbort c).g n 0 = if n = f.rgnCause.toNat then BitVec.ofNat 64 c else vget sn.g n 0 := by
  have hg : (f.afterAbort c).g = vset sn.g f.rgnCause.toNat (BitVec.ofNat 64 c) := by
    simp only [Fibre.afterAbort, Fibre.restore, hsnap, Option.getD_some]
  rw [hg]
  split
  · rename_i heq
    subst heq
    exact vget_vset_same _ _ _ hn
  · exact vget_vset_other _ _ _ ‹_›

/-- Settles O48: `abortSlot_spec` gives what an abort leaves; the fibre that takes its answer is `Fibre.afterAbort`. -/
theorem regionsAbort : Obligations.RegionsAbort := by
  intro s slot cause fid t0 c n x f sn hx hstate aborted
  have haborted : ∀ c, aborted (s.abortSlot slot c) c := fun c => by
    obtain ⟨-, hfree, htrace, -, hanswer⟩ := abortSlot_spec s slot c x hx hstate
    exact ⟨hfree, htrace, hanswer⟩
  refine ⟨fun hlo hhi => ⟨_, if_pos ⟨hlo, hhi⟩, haborted cause⟩, fun hsince hdue => ⟨_, ?_, haborted 6⟩,
    fun hf hanswer hc htrap hrgn hgpend hvpend hsnap hn => ?_⟩
  · rw [exec_dependenceTimeout, execDependenceTimeout, hx]
    dsimp only
    rw [hsince]
    exact if_pos hdue
  · obtain ⟨seq, hfib⟩ := takeAbort_fibre? (c := c) hf
    obtain ⟨hlevel, -, -, -, hrgnh, hfcsr, -, -⟩ := f.squashFrom_regs seq
    obtain ⟨hsn, hcause⟩ := f.squashFrom_region seq
    rw [hsnap] at hsn
    have hsome : ¬ (c = 0 ∨ f.rgn.isNone = true ∨ f.gpend ≠ 0 ∨ f.vpend ≠ 0 ∨ (c = 7 ∧ f.rgnTrap = true)) := by
      rintro (h | h | h | h | h)
      · exact hc h
      · rw [Option.isNone_iff_eq_none] at h
        simp [h] at hrgn
      · exact h hgpend
      · exact h hvpend
      · exact htrap h
    refine ⟨s.takeAbort fid f c, (f.squashFrom seq).afterAbort c, ?_, hfib, ?_, ?_, ?_, rfl, rfl, rfl, ?_, rfl, hfcsr, hlevel⟩
    · rw [exec_abortAnswer, execAbortAnswer, hf]
      dsimp only
      rw [hanswer]
      exact if_neg hsome
    · rw [Fibre.afterAbort_g hsn hn, hcause]
    · simp only [Fibre.afterAbort, Fibre.restore, hsn, Option.getD_some]
    · simp only [Fibre.afterAbort, Fibre.restore, hsn, Option.getD_some]
    · simp only [Fibre.afterAbort, hrgnh]

/-! ### Accesses of regions (R164 to R170) -/

section Arrive
variable {s u : State} {oid n y grant : Nat} {a : Access} {p : Piece}

/-- An access of a live region whose line is free: it is tried at once, or its request goes to the Virga unit. -/
theorem regionArrive_free (hrgn : s.regionOf a = some (y, grant)) (hfree : s.homeQ.get? (lineOf p.loc.addr) = none)
    (hopen : s.virga.committingOn (lineOf p.loc.addr) = false) (hedges : s.edgesPending (lineOf p.loc.addr) = false)
    (hserves : s.homeServes p.loc = (true, u)) :
    (u.regionEdges y a p = ([], []) → s.regionArrive oid n a p = u.regionTry oid n y a p)
    ∧ (u.regionEdges y a p ≠ ([], []) → s.regionArrive oid n a p
      = (u.setAccess oid ((u.stamp a).setPiece n { p with stage := .edges })).modVirga
          (fun v => { v with requests := v.requests ++ [{ oid := oid, piece := n }] })) := by
  have harrive : s.regionArrive oid n a p = if ((u.regionEdges y a p).1.isEmpty && (u.regionEdges y a p).2.isEmpty) = true then
      u.regionTry oid n y a p else (u.setAccess oid ((u.stamp a).setPiece n { p with stage := .edges })).modVirga
          (fun v => { v with requests := v.requests ++ [{ oid := oid, piece := n }] }) := by
    rw [State.regionArrive, hrgn]
    dsimp only
    rw [if_neg (by simp [hfree, hopen, hedges]), hserves]
  refine ⟨fun hnone => ?_, fun hsome => ?_⟩
  · rw [harrive, hnone]
    rfl
  · rw [harrive, if_neg]
    rw [Bool.and_eq_true, List.isEmpty_iff, List.isEmpty_iff]
    exact fun h => hsome (Prod.ext h.1 h.2)

theorem stallRetry_free {since : Nat} (hrgn : s.regionOf a = some (y, grant)) (hfree : s.homeQ.get? (lineOf p.loc.addr) = none)
    (hopen : s.virga.committingOn (lineOf p.loc.addr) = false) (hedges : s.edgesPending (lineOf p.loc.addr) = false)
    (hserves : s.homeServes p.loc = (true, u)) (ha : s.accesses.get? oid = some a) (hp : a.pieces[n]? = some p)
    (hstage : p.stage = .stalled since) (hsince : since < s.virga.freed) :
    exec (.stallRetry oid n) s = .next (u.regionTry oid n y a p) := by
  rw [exec_stallRetry, execStallRetry, ha]
  dsimp only
  rw [hp]
  dsimp only
  rw [hstage, hrgn]
  dsimp only
  rw [if_neg (by simp [hfree, hopen, hedges, hsince]), hserves]

theorem edgeRequest_tries {rest : List EdgeReq} (hrgn : s.regionOf a = some (y, grant))
    (hreq : s.virga.requests = { oid := oid, piece := n } :: rest) (ha : s.accesses.get? oid = some a) (hp : a.pieces[n]? = some p)
    (hstage : p.stage = .edges) :
    exec .edgeRequest s = .next ((s.modVirga (fun v => { v with requests := rest })).regionTry oid n y a p) := by
  have ha' : (s.modVirga (fun v => { v with requests := rest })).accesses.get? oid = some a := ha
  have hrgn' : (s.modVirga (fun v => { v with requests := rest })).regionOf a = some (y, grant) := hrgn
  rw [exec_edgeRequest, execEdgeRequest, hreq]
  dsimp only
  rw [ha']
  dsimp only
  rw [hp]
  dsimp only
  rw [if_neg (by simp [hstage]), hrgn']

/-- The tests of a region access in their order (R169, R170). -/
theorem regionTry_eq (s : State) (oid n y : Nat) (a : Access) (p : Piece) :
    let need := ((s.regionEdges y a p).1 ++ (s.regionEdges y a p).2).eraseDups
    let writes := (s.regionPlan y a p).2.isSome
    let line := lineOf p.loc.addr
    ∃ new, s.regionTry oid n y a p = if need.any (fun x => s.virga.reaches y x) = true then (s.abortSlot y 1).discard oid n a p
      else if (writes && s.virga.overflows y line) = true then (s.abortSlot y 4).discard oid n a p
      else if (s.virga.boundsFail y need || (writes && s.virga.versionsFull y line)
          || (reads a.ins && s.virga.marksFull y line)) = true then
        s.setAccess oid ((s.stamp a).setPiece n { p with stage := .stalled s.virga.freed })
      else (countSector 12 10 new ((s.regionPerform oid n y a p).modVirga
        (fun v => v.addEdges y (s.regionEdges y a p).1 (s.regionEdges y a p).2))).settle := ⟨_, rfl⟩

theorem regionTry_outcomes (s : State) (oid n y : Nat) (a : Access) (p : Piece) :
    let line := lineOf p.loc.addr
    let need := ((s.regionEdges y a p).1 ++ (s.regionEdges y a p).2).eraseDups
    let writes := (s.regionPlan y a p).2.isSome
    let cyclic := ∃ x ∈ need, s.virga.reaches y x = true
    let tooMany := writes = true ∧ s.virga.overflows y line = true
    let bound := s.virga.boundsFail y need = true ∨ (writes = true ∧ s.virga.versionsFull y line = true)
      ∨ (reads a.ins = true ∧ s.virga.marksFull y line = true)
    (cyclic → s.regionTry oid n y a p = (s.abortSlot y 1).discard oid n a p)
    ∧ (¬cyclic → tooMany → s.regionTry oid n y a p = (s.abortSlot y 4).discard oid n a p)
    ∧ (¬cyclic → ¬tooMany → bound →
      s.regionTry oid n y a p = s.setAccess oid ((s.stamp a).setPiece n { p with stage := .stalled s.virga.freed }))
    ∧ (¬cyclic → ¬tooMany → ¬bound → ∃ new,
      s.regionTry oid n y a p = (countSector 12 10 new ((s.regionPerform oid n y a p).modVirga
        (fun v => v.addEdges y (s.regionEdges y a p).1 (s.regionEdges y a p).2))).settle) := by
  intro line need writes cyclic tooMany bound
  obtain ⟨new, htry⟩ := regionTry_eq s oid n y a p
  have hcyclic : need.any (fun x => s.virga.reaches y x) = true ↔ cyclic := List.any_eq_true
  have hmany : (writes && s.virga.overflows y line) = true ↔ tooMany := Bool.and_eq_true_iff
  have hbound : (s.virga.boundsFail y need || (writes && s.virga.versionsFull y line)
      || (reads a.ins && s.virga.marksFull y line)) = true ↔ bound := by
    simp only [Bool.or_eq_true, Bool.and_eq_true, or_assoc, bound]
  refine ⟨fun hc => ?_, fun hc hm => ?_, fun hc hm hb => ?_, fun hc hm hb => ⟨new, ?_⟩⟩
  · rw [htry, if_pos (hcyclic.2 hc)]
  · rw [htry, if_neg (mt hcyclic.1 hc), if_pos (hmany.2 hm)]
  · rw [htry, if_neg (mt hcyclic.1 hc), if_neg (mt hmany.1 hm), if_pos (hbound.2 hb)]
  · rw [htry, if_neg (mt hcyclic.1 hc), if_neg (mt hmany.1 hm), if_neg (mt hbound.1 hb)]

end Arrive

/-- Settles O49: arrivals by `regionArrive_free`, tries by the tests of `regionTry_eq` in their order. -/
theorem regionAccessesTakePlaceAtTheirHome : Obligations.RegionAccessesTakePlaceAtTheirHome := by
  intro s u oid n y grant since a p rest hrgn line
  refine ⟨fun hfree hopen hedges hserves => ?_, edgeRequest_tries hrgn, regionTry_outcomes s oid n y a p⟩
  intro waits arrives
  obtain ⟨htry, hwait⟩ := regionArrive_free (oid := oid) (n := n) hrgn hfree hopen hedges hserves
  have harrives : ∀ i, exec i s = .next (s.regionArrive oid n a p) → arrives i := fun i hi =>
    ⟨fun h => hi.trans (congrArg _ (htry h)), fun h => hi.trans (congrArg _ (hwait h))⟩
  refine ⟨fun hready => harrives _ ?_, fun hready => harrives _ ?_, fun hready => harrives _ ?_,
    stallRetry_free hrgn hfree hopen hedges hserves⟩
  · rw [exec_regionRead, execRegionRead, hready]
  · rw [exec_regionWrite, execRegionWrite, hready]
  · rw [exec_regionAtomic, execRegionAtomic, hready]

end Sys2Proof.Machine
end

section
/-! PROOFS. The commit of a region, and the slots of regions (R159 to R163, R171, R178, R179). -/

namespace Sys2Proof.Machine

/-! ### The bytes of a version become the line's value (R171) -/

section Bytes
variable {s : State} {line key : Nat}

/-- Of a cached line only this line changes in the cache. -/
theorem writeByte_llc_other {a : Nat} {b : Byte} (hcached : (s.llc.get? (lineOf a)).isSome = true) {other : Nat}
    (h : other ≠ lineOf a) : (s.writeByte a key b).llc.get? other = s.llc.get? other := by
  rw [State.writeByte, makeRoom_hasRoom (.inl hcached)]
  exact Dict.get?_put_other _ _ _ _ h

theorem onlyLines_writeByte (s : State) (a key : Nat) (b : Byte) : s.OnlyLines (s.writeByte a key b) :=
  (onlyLines_makeRoom s (lineOf a)).trans ⟨_, _, _, rfl⟩

theorem State.OnlyLines.reg {s t : State} (h : s.OnlyLines t) (off : Nat) : t.reg off = s.reg off := by
  obtain ⟨_, _, _, rfl⟩ := h
  rfl

theorem lineOf_base {off : Nat} (h : off < 128) : lineOf (128 * line + off) = line ∧ (128 * line + off) % 128 = off := by
  simp only [lineOf]
  omega

/-- A byte of a cached line beside the primary table area: the line is cached under the key of the byte, with that byte and,
where the key is the same, its other bytes; no other line of the cache changes. -/
theorem landHome_byte {off : Nat} {b : Byte} (htable : s.inTable 0 (128 * line) 128 = false) (hoff : off < 128) {l0 : LlcLine}
    (hl0 : s.llc.get? line = some l0) (hlen : l0.data.length = 128) : let t := s.landHome (128 * line + off) key [b]
    ∃ l, t.llc.get? line = some l ∧ l.key = key ∧ l.data.length = 128 ∧ l.data.getD off 0 = b
      ∧ (l0.key = key → ∀ j, j ≠ off → l.data.getD j 0 = l0.data.getD j 0)
      ∧ (∀ other, other ≠ line → t.llc.get? other = s.llc.get? other) ∧ t.inTable 0 (128 * line) 128 = false := by
  have hbyte : s.inTable 0 (128 * line + off) [b].length = false := by
    simp only [State.inTable, meets, List.length_singleton] at htable ⊢
    simp only [Bool.and_eq_false_iff, decide_eq_false_iff_not] at htable ⊢
    omega
  obtain ⟨hline, hmod⟩ := lineOf_base (line := line) hoff
  have hcached : (s.llc.get? (lineOf (128 * line + off))).isSome = true := by
    rw [hline, hl0]
    rfl
  have hreg : (s.writeByte (128 * line + off) key b).reg 0x58 = s.reg 0x58 := (onlyLines_writeByte s _ key b).reg _
  obtain ⟨l, hl, hk, hlen', hat, hout⟩ := writeByte_line (s := s) (a := 128 * line + off) (key := key) (b := b)
    (fun l hl => by rw [hline, hl0] at hl; obtain rfl := Option.some.inj hl; exact hlen)
  rw [hline] at hl hout
  rw [hmod] at hat hout
  intro t
  have ht : t = s.writeByte (128 * line + off) key b := by rw [← homeWrite_nil (s.writeByte _ key b) _ key, ← homeWrite_cons]; exact landHome_plain hbyte
  rw [ht]
  exact ⟨l, hl, hk, hlen', hat, hout l0 hl0, fun other ho => writeByte_llc_other hcached (by rw [hline]; exact ho),
    by rw [inTable_of hreg]; exact htable⟩

/-- The bytes of a version land one after the other (R171). -/
def State.landBytes (s : State) (line key : Nat) (bs : Dict Byte) : State :=
  bs.foldl (fun s e => s.landHome (128 * line + e.1) key [e.2]) s

theorem onlyLines_landBytes (s : State) (line key : Nat) (bs : Dict Byte) : s.OnlyLines (s.landBytes line key bs) :=
  State.OnlyLines.foldl _ _ s fun t e => onlyLines_landHome t (128 * line + e.1) key [e.2]

/-- Bytes at distinct places of a line that is cached under their key. -/
theorem landBytes_cached {bs : Dict Byte} (htable : s.inTable 0 (128 * line) 128 = false) {l0 : LlcLine}
    (hl0 : s.llc.get? line = some l0) (hkey : l0.key = key) (hlen : l0.data.length = 128)
    (hdistinct : bs.Pairwise (fun x y => x.1 ≠ y.1)) (hlt : ∀ b ∈ bs, b.1 < 128) :
    ∃ l, (s.landBytes line key bs).llc.get? line = some l ∧ l.key = key ∧ l.data.length = 128
      ∧ (∀ b ∈ bs, l.data.getD b.1 0 = b.2) ∧ (∀ j, (∀ b ∈ bs, j ≠ b.1) → l.data.getD j 0 = l0.data.getD j 0)
      ∧ ∀ other, other ≠ line → (s.landBytes line key bs).llc.get? other = s.llc.get? other := by
  induction bs generalizing s l0 with
  | nil => exact ⟨l0, hl0, hkey, hlen, nofun, fun _ _ => rfl, fun _ _ => rfl⟩
  | cons e bs ih =>
    obtain ⟨l1, hl1, hk1, hlen1, hat1, hout1, hother1, htable1⟩ := landHome_byte (key := key) (b := e.2) htable (hlt e (by simp)) hl0 hlen
    obtain ⟨hapart, hrest⟩ := List.pairwise_cons.1 hdistinct
    obtain ⟨l, hl, hk, hlen2, hat, hout, hother⟩ := ih htable1 hl1 hk1 hlen1 hrest fun b hb => hlt b (List.mem_cons_of_mem _ hb)
    refine ⟨l, hl, hk, hlen2, fun b hb => ?_, fun j hj => ?_, fun other ho => (hother other ho).trans (hother1 other ho)⟩
    · rcases List.mem_cons.1 hb with rfl | hb
      · exact (hout _ hapart).trans hat1
      · exact hat b hb
    · exact (hout j fun b hb => hj b (List.mem_cons_of_mem _ hb)).trans (hout1 hkey j (hj e (by simp)))

/-- Bytes at distinct places of a cached line: it is then cached under their key. -/
theorem landBytes_line {bs : Dict Byte} (htable : s.inTable 0 (128 * line) 128 = false) {l0 : LlcLine}
    (hl0 : s.llc.get? line = some l0) (hlen : l0.data.length = 128) (hdistinct : bs.Pairwise (fun x y => x.1 ≠ y.1))
    (hlt : ∀ b ∈ bs, b.1 < 128) :
    (∀ b ∈ bs, ∃ l, (s.landBytes line key bs).llc.get? line = some l ∧ l.key = key ∧ l.data.getD b.1 0 = b.2)
      ∧ ∀ other, other ≠ line → (s.landBytes line key bs).llc.get? other = s.llc.get? other := by
  cases bs with
  | nil => exact ⟨nofun, fun _ _ => rfl⟩
  | cons e bs =>
    obtain ⟨l1, hl1, hk1, hlen1, hat1, -, hother1, htable1⟩ := landHome_byte (key := key) (b := e.2) htable (hlt e (by simp)) hl0 hlen
    obtain ⟨hapart, hrest⟩ := List.pairwise_cons.1 hdistinct
    obtain ⟨l, hl, hk, -, hat, hout, hother⟩ := landBytes_cached htable1 hl1 hk1 hlen1 hrest
      fun b hb => hlt b (List.mem_cons_of_mem _ hb)
    refine ⟨fun b hb => ⟨l, hl, hk, ?_⟩, fun other ho => (hother other ho).trans (hother1 other ho)⟩
    rcases List.mem_cons.1 hb with rfl | hb
    · exact (hout _ hapart).trans hat1
    · exact hat b hb

end Bytes

/-! ### A line of a commit -/

/-- What the commit of a region's lines changes: caches, memory, counters, directory, marks and the rings of queues. -/
def State.OnlyCommits (s t : State) : Prop :=
  ∃ (cs : Dict CellSt) (ct : Dict Word) (sh : Dict (List Nat)) (m : Mem) (lk : Dict Nat) (ll : Dict LlcLine) (bl : List Nat)
    (q : Dict Queue), t = { s with cells := cs, ctl := ct, sharers := sh, mem := m, lineKey := lk, llc := ll, badLines := bl
                                   queues := q }

theorem State.OnlyCommits.refl (s : State) : s.OnlyCommits s :=
  ⟨s.cells, s.ctl, s.sharers, s.mem, s.lineKey, s.llc, s.badLines, s.queues, rfl⟩

theorem State.OnlyCommits.trans {s t u : State} (h : s.OnlyCommits t) (k : t.OnlyCommits u) : s.OnlyCommits u := by
  obtain ⟨_, _, _, _, _, _, _, _, rfl⟩ := h
  obtain ⟨cs, ct, sh, m, lk, ll, bl, q, rfl⟩ := k
  exact ⟨cs, ct, sh, m, lk, ll, bl, q, rfl⟩

theorem State.OnlyLines.onlyCommits {s t : State} (h : s.OnlyLines t) : s.OnlyCommits t := by
  obtain ⟨m, lk, ll, rfl⟩ := h
  exact ⟨s.cells, s.ctl, s.sharers, m, lk, ll, s.badLines, s.queues, rfl⟩

theorem State.OnlyCopies.onlyCommits {s t : State} (h : s.OnlyCopies t) : s.OnlyCommits t := by
  obtain ⟨cs, ct, sh, rfl⟩ := h
  exact ⟨cs, ct, sh, s.mem, s.lineKey, s.llc, s.badLines, s.queues, rfl⟩

/-- A line's sharers drop it before a version of it lands (R171). -/
def State.recallLine (s : State) (line : Nat) : State :=
  let sh := s.sharers.getD line []
  let s := sh.foldl (fun s c => s.dropL1 c line) s
  (countSector (sectorOf (128 * line)) 4 sh.length { s with sharers := s.sharers.erase line }).countLlc line

theorem onlyCopies_counted (s : State) (sh : Dict (List Nat)) (sec n line : Nat) :
    s.OnlyCopies ((countSector sec 4 n { s with sharers := sh }).countLlc line) := by
  obtain ⟨d, hd⟩ := countSector_keeps sec 4 n { s with sharers := sh }
  rw [hd]
  obtain ⟨d', hd'⟩ := countSector_keeps (cachePlace line).1 (if (s.llc.get? line).isSome then 2 else 3) 1
    { { s with sharers := sh } with ctl := d }
  exact ⟨s.cells, d', sh, hd'⟩

theorem onlyCopies_recallLine (s : State) (line : Nat) : s.OnlyCopies (s.recallLine line) := by
  have hfold : s.OnlyCopies ((s.sharers.getD line []).foldl (fun s c => s.dropL1 c line) s) :=
    List.foldlRecOn _ _ (motive := fun t : State => s.OnlyCopies t) (.refl s) fun t ht c _ => by
      obtain ⟨d, hd⟩ := dropL1_keeps t c line
      rw [hd]
      exact ht.trans ⟨d, t.ctl, t.sharers, rfl⟩
  unfold State.recallLine
  exact hfold.trans (onlyCopies_counted _ _ _ _ line)

theorem reg_recallLine {off : Nat} (s : State) (line : Nat) (h : off < 0x4000) : (s.recallLine line).reg off = s.reg off := by
  have hfold : ((s.sharers.getD line []).foldl (fun s c => s.dropL1 c line) s).reg off = s.reg off :=
    List.foldlRecOn _ _ (motive := fun t : State => t.reg off = s.reg off) rfl fun t ht c _ => by
      obtain ⟨d, hd⟩ := dropL1_keeps t c line
      rw [hd]
      exact ht
  rw [State.recallLine, reg_countLlc _ _ h, reg_countSector _ h]
  exact hfold

/-- What of a commit comes after the bytes of a version have landed changes neither the cache nor the registers. -/
theorem commitLine_eq (s : State) (line : Nat) (x : Version) : ∃ q bl, s.commitLine line x
    = { (s.recallLine line).landBytes line x.key x.bytes with queues := q, badLines := bl } := by
  have hdamage : ∀ t : State, ∃ q, x.rings.foldl State.damageQueue t = { t with queues := q } := fun t => by
    refine List.foldlRecOn x.rings _ (motive := fun u : State => ∃ q, u = { t with queues := q }) ⟨t.queues, rfl⟩ ?_
    rintro _ ⟨q, rfl⟩ r -
    exact ⟨_, rfl⟩
  obtain ⟨q, hq⟩ := hdamage ((s.recallLine line).landBytes line x.key x.bytes)
  have hcommit : s.commitLine line x = (if 128 ≤ x.bytes.length then
      (x.rings.foldl State.damageQueue ((s.recallLine line).landBytes line x.key x.bytes)).clearPoison .hbm (128 * line) 128
      else x.rings.foldl State.damageQueue ((s.recallLine line).landBytes line x.key x.bytes)) := rfl
  rw [hcommit, hq]
  split
  · exact ⟨q, _, rfl⟩
  · exact ⟨q, _, rfl⟩

theorem onlyCommits_commitLine (s : State) (line : Nat) (x : Version) : s.OnlyCommits (s.commitLine line x) := by
  obtain ⟨q, bl, h⟩ := commitLine_eq s line x
  rw [h]
  exact ((onlyCopies_recallLine s line).onlyCommits.trans (onlyLines_landBytes _ line x.key x.bytes).onlyCommits).trans
    ⟨_, _, _, _, _, _, _, _, rfl⟩

/-- A version that a commit can put into the cache: its bytes at distinct places of a line that the cache has. -/
def State.Landable (s : State) (e : Nat × Version) : Prop :=
  e.2.bytes.rising = true ∧ s.inTable 0 (128 * e.1) 128 = false ∧ (∀ b ∈ e.2.bytes, b.1 < 128)
    ∧ ∃ l, s.llc.get? e.1 = some l ∧ l.data.length = 128

/-- The bytes of a version are the line's in the last-level cache. -/
def State.HasLanded (s : State) (e : Nat × Version) : Prop :=
  ∀ b ∈ e.2.bytes, ∃ l, s.llc.get? e.1 = some l ∧ l.key = e.2.key ∧ l.data.getD b.1 0 = b.2

theorem commitLine_lands {s : State} {e : Nat × Version} (h : s.Landable e) : (s.commitLine e.1 e.2).HasLanded e
    ∧ (∀ other, other ≠ e.1 → (s.commitLine e.1 e.2).llc.get? other = s.llc.get? other)
    ∧ ∀ a n, (s.commitLine e.1 e.2).inTable 0 a n = s.inTable 0 a n := by
  obtain ⟨hrise, htable, hlt, l0, hl0, hlen⟩ := h
  obtain ⟨-, -, -, hllc⟩ := (onlyCopies_recallLine s e.1).keeps
  have hreg : (s.recallLine e.1).reg 0x58 = s.reg 0x58 := reg_recallLine s e.1 (by omega)
  have hdistinct : e.2.bytes.Pairwise (fun x y => x.1 ≠ y.1) := ((Dict.rising_iff _).1 hrise).imp fun h => Nat.ne_of_lt h
  obtain ⟨hland, hother⟩ := landBytes_line (s := s.recallLine e.1) (key := e.2.key) (by rw [inTable_of hreg]; exact htable)
    (by rw [hllc]; exact hl0) hlen hdistinct hlt
  obtain ⟨q, bl, hcommit⟩ := commitLine_eq s e.1 e.2
  have hreg' : (s.commitLine e.1 e.2).reg 0x58 = s.reg 0x58 := by
    rw [hcommit]
    exact ((onlyLines_landBytes _ e.1 e.2.key e.2.bytes).reg _).trans hreg
  refine ⟨?_, fun other ho => ?_, fun a n => inTable_of hreg' 0 a n⟩
  · rw [hcommit]
    exact hland
  · rw [hcommit]
    exact (hother other ho).trans (by rw [hllc])

/-- The versions of a region land one after the other in distinct lines. -/
theorem commitLines_land {s : State} {mine : List (Nat × Version)} (hmine : ∀ e ∈ mine, s.Landable e)
    (hdistinct : mine.Pairwise (fun x y => x.1 ≠ y.1)) :
    let t := mine.foldl (fun s e => s.commitLine e.1 e.2) s
    (∀ e ∈ mine, t.HasLanded e) ∧ ∀ other, (∀ e ∈ mine, other ≠ e.1) → t.llc.get? other = s.llc.get? other := by
  induction mine generalizing s with
  | nil => exact ⟨nofun, fun _ _ => rfl⟩
  | cons e mine ih =>
    obtain ⟨hlanded, hother, htable⟩ := commitLine_lands (hmine e (by simp))
    obtain ⟨hapart, hrest⟩ := List.pairwise_cons.1 hdistinct
    have hmine' : ∀ x ∈ mine, (s.commitLine e.1 e.2).Landable x := fun x hx => by
      obtain ⟨hrise, hout, hlt, l, hl, hlen⟩ := hmine x (List.mem_cons_of_mem _ hx)
      exact ⟨hrise, (htable _ _).trans hout, hlt, l, (hother _ (hapart x hx).symm).trans hl, hlen⟩
    obtain ⟨hall, hkeep⟩ := ih hmine' hrest
    intro t
    refine ⟨fun x hx => ?_, fun other ho => ?_⟩
    · rcases List.mem_cons.1 hx with rfl | hx
      · intro b hb
        obtain ⟨l, hl, hk, hat⟩ := hlanded b hb
        exact ⟨l, (hkeep _ hapart).trans hl, hk, hat⟩
      · exact hall x hx
    · exact (hkeep other fun x hx => ho x (List.mem_cons_of_mem _ hx)).trans (hother other (ho e (by simp)))

/-! ### Slots: opening and ending a region (R162, R178, R179) -/

section Slots
variable {s : State} {fid slot grant : Nat} {f : Fibre} {fr : Frame} {younger : List Frame} {x : Slot} {rest : List Nat}

/-- The slot that is granted is one of the 512, free, and the lowest such. -/
theorem freeSlot_lowest {v : Virga} (h : v.freeSlot = some slot) :
    slot < 512 ∧ v.slots.get? slot = none ∧ ∀ m < slot, (v.slots.get? m).isSome = true := by
  obtain ⟨hfree, hlt, hbelow⟩ := List.find?_range_eq_some.1 h
  refine ⟨List.mem_range.1 hlt, Option.isNone_iff_eq_none.1 hfree, fun m hm => ?_⟩
  have := hbelow m hm
  simpa [Option.isSome_iff_ne_none] using this

theorem slotGrant_without_room (hf : s.fibre? fid = some f) (hfr : f.frames = fr :: younger)
    (hask : s.virga.asking = fid :: rest) (hslot : s.virga.freeSlot = some slot) (hwait : fr.waiting = true)
    (hbeg : (fr.firedAt isRgnBeg).isSome = true) (hroom : s.engineRoom (s.cellOf f) fr = false) :
    exec .slotGrant s = .next
      (({ s with virga := { s.virga with asking := rest } } : State).setFrame fid { fr with waiting := false }) := by
  rw [exec_slotGrant, execSlotGrant, hask, hslot]
  dsimp only
  rw [hf]
  dsimp only
  rw [hfr]
  exact if_pos (by rw [hwait, hbeg, hroom]; rfl)

theorem slotGrant_with_room (hf : s.fibre? fid = some f) (hfr : f.frames = fr :: younger)
    (hask : s.virga.asking = fid :: rest) (hslot : s.virga.freeSlot = some slot) (hwait : fr.waiting = true)
    (hbeg : (fr.firedAt isRgnBeg).isSome = true) (hroom : s.engineRoom (s.cellOf f) fr = true) :
    let n := s.virga.grants.getD slot 0 + 1
    let opened := { s.virga with
      asking := rest, grants := s.virga.grants.put slot n
      slots := s.virga.slots.put slot { state := .opened, grant := n, fid := fid, preds := [], waitedSince := none, tookForward := false } }
    exec .slotGrant s = .next ((({ s with virga := opened } : State).setFrame fid { fr with waiting := false }).commitBlock
      fid false (some (slot, n))) := by
  rw [exec_slotGrant, execSlotGrant, hask, hslot]
  dsimp only
  rw [hf]
  dsimp only
  rw [hfr]
  dsimp only
  rw [if_neg (by rw [hroom]; simp), if_pos (by rw [hwait, hbeg]; rfl)]
  rfl

/-- Bit 0 of the handler register is not part of the handler's address (R178). -/
theorem handler_bits (a b : Word) : ((a &&& ~~~0x1F) ||| (b &&& 1)) &&& ~~~(1 : Word) = a &&& ~~~0x1F := by
  rw [BitVec.and_comm, BitVec.and_or_distrib_left]
  have hlow : ~~~(1 : Word) &&& (b &&& 1) = 0 := by
    rw [BitVec.and_comm b, ← BitVec.and_assoc, BitVec.and_comm]
    exact BitVec.and_zero
  have hkeep : ~~~(1 : Word) &&& (a &&& ~~~0x1F) = a &&& ~~~0x1F := by
    rw [BitVec.and_comm a, ← BitVec.and_assoc]
    rfl
  rw [hlow, hkeep]
  exact BitVec.or_zero

theorem openRegion_fields {pr : Pred} {reg : BitVec 6} {off : BitVec 23} (f : Fibre) (slot grant : Nat)
    (h : (fr.firedAt isRgnBeg).bind fr.instr = some (.rgnBeg pr reg off)) :
    (f.openRegion fr slot grant).rgn = some (slot, grant) ∧ (f.openRegion fr slot grant).snap = some f.snapshot
      ∧ (f.openRegion fr slot grant).rgnCause = reg
      ∧ (f.openRegion fr slot grant).rgnh &&& ~~~(1 : Word) = (fr.addr + (off.signExtend 64 <<< 5)) &&& ~~~0x1F := by
  have hopen : f.openRegion fr slot grant = { f with
      rgn := some (slot, grant), snap := some f.snapshot, rgnCause := reg
      rgnh := ((fr.addr + (off.signExtend 64 <<< 5)) &&& ~~~0x1F) ||| (f.rgnh &&& 1) } := by
    rw [Fibre.openRegion, h]
  rw [hopen]
  exact ⟨rfl, rfl, rfl, handler_bits _ _⟩

theorem endReport_ends (hf : s.fibre? fid = some f) (hfr : f.frames = fr :: younger) (hrgn : f.rgn = some (slot, grant))
    (hend : f.ending = true) (hx : s.virga.slots.get? slot = some x) (hgrant : x.grant = grant) (hopen : x.state = .opened)
    (hperf : ∀ e ∈ s.accessesOf fid, e.2.seq ≤ fr.seq → e.2.performed = true) :
    exec (.endReport fid) s = .next
      ({ s with virga := { s.virga with slots := s.virga.slots.put slot { x with state := .ended } } } : State).settle := by
  have hall : (s.accessesOf fid).all (fun e => fr.seq < e.2.seq || e.2.performed) = true := by
    refine List.all_eq_true.2 fun e he => ?_
    rcases Nat.lt_or_ge fr.seq e.2.seq with h | h
    · simp [h]
    · simp [hperf e he h]
  rw [exec_endReport, execEndReport, hf]
  dsimp only
  rw [hrgn]
  dsimp only
  rw [hfr]
  refine (if_pos (Bool.and_eq_true_iff.2 ⟨hend, hall⟩)).trans ?_
  rw [hx]
  exact if_pos ⟨hgrant, hopen⟩

theorem commitAnswer_commits {g : Group} (hf : s.fibre? fid = some f) (hanswer : f.answer = some 0) (hend : f.ending = true)
    (hg : s.group? f.gid = some g) (hrun : g.state = .running) :
    exec (.commitAnswer fid) s = .next
      ((s.setFibre fid { f with answer := none, rgn := none, snap := none }).commitBlock fid true none) := by
  rw [exec_commitAnswer, execCommitAnswer, hf]
  dsimp only
  rw [hg]
  exact if_pos ⟨hanswer, hend, by simp [hrun]⟩

end Slots

/-! ### The commit at the head of the order (R171) -/

/-- The versions that a slot holds, each with its line. -/
def Virga.versionsOf (v : Virga) (slot : Nat) : List (Nat × Version) :=
  v.lines.filterMap (fun e => (e.2.versions.find? (fun y => y.slot == slot)).map (fun y => (e.1, y)))

theorem versionsOf_distinct {v : Virga} (slot : Nat) (h : v.lines.rising = true) :
    (v.versionsOf slot).Pairwise (fun x y => x.1 ≠ y.1) := by
  refine List.Pairwise.filterMap _ (fun a b hab x hx y hy => ?_) ((Dict.rising_iff _).1 h)
  obtain ⟨_, -, rfl⟩ := Option.map_eq_some_iff.1 hx
  obtain ⟨_, -, rfl⟩ := Option.map_eq_some_iff.1 hy
  exact Nat.ne_of_lt hab

/-- A committed slot is free, and no line keeps a trace of it. -/
theorem settle_removed (t : State) (slot : Nat) (h : t.virga.slots.get? slot = none) (hc : slot ∉ t.virga.commits)
    (hl : t.virga.NoTrace slot) : t.settle.virga.slots.get? slot = none ∧ slot ∉ t.settle.virga.commits
      ∧ t.settle.virga.NoTrace slot := by
  obtain ⟨v, hv, hlines, hslots, hcommits⟩ := settle_keeps t
  rw [hv]
  exact ⟨hslots slot h, hcommits slot h hc, fun e he => hl e (hlines ▸ he)⟩

theorem settle_answered (t : State) (slot fid : Nat) (h : t.virga.slots.get? slot = none) (hc : slot ∉ t.virga.commits)
    (hl : t.virga.NoTrace slot) : (t.answerFibre fid 0).settle.virga.slots.get? slot = none
      ∧ slot ∉ (t.answerFibre fid 0).settle.virga.commits ∧ (t.answerFibre fid 0).settle.virga.NoTrace slot := by
  have hvirga : (t.answerFibre fid 0).virga = t.virga := State.modFibre_virga _ _ _
  exact settle_removed _ slot (by rw [hvirga]; exact h) (by rw [hvirga]; exact hc) (by rw [hvirga]; exact hl)

theorem settle_answered_keeps (t : State) (fid : Nat) : (t.answerFibre fid 0).settle.llc = t.llc
    ∧ ∀ f, t.fibre? fid = some f → (t.answerFibre fid 0).settle.fibre? fid = some { f with answer := some 0 } :=
  ⟨State.modFibre_llc _ _ _, fun f hf => by
    refine (fibre?_modFibre t fid fid _).trans ?_
    rw [if_pos rfl, hf]
    rfl⟩

/-- The state after the versions of a slot have landed: the region is gone and its fibre is answered committed. -/
def State.closeRegion (s : State) (slot fid : Nat) : State :=
  ((countSector 12 11 1 (s.modVirga (fun v => (v.dropLines slot).removeSlot slot))).answerFibre fid 0).settle

theorem closeRegion_keeps (s : State) (slot fid : Nat) : (s.closeRegion slot fid).virga.slots.get? slot = none
    ∧ slot ∉ (s.closeRegion slot fid).virga.commits ∧ (s.closeRegion slot fid).virga.NoTrace slot
    ∧ (s.closeRegion slot fid).llc = s.llc
    ∧ ∀ f, s.fibre? fid = some f → (s.closeRegion slot fid).fibre? fid = some { f with answer := some 0 } := by
  obtain ⟨d, hd⟩ := countSector_keeps 12 11 1 (s.modVirga (fun v => (v.dropLines slot).removeSlot slot))
  have hgone : ((s.virga.dropLines slot).removeSlot slot).slots.get? slot = none := get?_removeSlot_same _ _
  have hleft : slot ∉ ((s.virga.dropLines slot).removeSlot slot).commits := fun hm => by
    simpa using (List.mem_filter.1 hm).2
  have htrace : ((s.virga.dropLines slot).removeSlot slot).NoTrace slot := noTrace_dropLines_same s.virga slot
  rw [State.closeRegion, hd]
  obtain ⟨h1, h2, h3⟩ := settle_answered ({ s.modVirga (fun v => (v.dropLines slot).removeSlot slot) with ctl := d }) slot fid
    hgone hleft htrace
  obtain ⟨h4, h5⟩ := settle_answered_keeps ({ s.modVirga (fun v => (v.dropLines slot).removeSlot slot) with ctl := d }) fid
  exact ⟨h1, h2, h3, h4, h5⟩

section Commit
variable {s : State} {slot : Nat} {x : Slot} {rest : List Nat}

theorem regionCommit_eq (hx : s.virga.slots.get? slot = some x) (hstate : x.state = .committing)
    (hhead : s.virga.commits = slot :: rest) (hfree : ∀ e ∈ s.virga.versionsOf slot, s.lineFree e.1 = true) :
    exec (.regionCommit slot) s
      = .next (((s.virga.versionsOf slot).foldl (fun s e => s.commitLine e.1 e.2) s).closeRegion slot x.fid) := by
  rw [exec_regionCommit, execRegionCommit, hx]
  dsimp only
  rw [if_pos ⟨hstate, by rw [hhead]; rfl⟩]
  exact if_pos (List.all_eq_true.2 hfree)

theorem regionCommit_claims (hx : s.virga.slots.get? slot = some x) (hstate : x.state = .committing)
    (hhead : s.virga.commits = slot :: rest) (hheld : ∃ e ∈ s.virga.versionsOf slot, s.lineFree e.1 = false) :
    exec (.regionCommit slot) s = .next (s.claimLines ((s.virga.versionsOf slot).map Prod.fst)) := by
  obtain ⟨e, he, hline⟩ := hheld
  rw [exec_regionCommit, execRegionCommit, hx]
  dsimp only
  rw [if_pos ⟨hstate, by rw [hhead]; rfl⟩]
  refine if_neg fun hall => ?_
  have := List.all_eq_true.1 hall e he
  rw [hline] at this
  exact Bool.false_ne_true this

theorem onlyCommits_commitLines (mine : List (Nat × Version)) (s : State) :
    s.OnlyCommits (mine.foldl (fun s e => s.commitLine e.1 e.2) s) :=
  List.foldlRecOn mine _ (motive := fun t : State => s.OnlyCommits t) (.refl s) fun t ht e _ =>
    ht.trans (onlyCommits_commitLine t e.1 e.2)

theorem State.OnlyCommits.fibre? {s t : State} (h : s.OnlyCommits t) (n : Nat) : t.fibre? n = s.fibre? n := by
  obtain ⟨_, _, _, _, _, _, _, _, rfl⟩ := h
  rfl

theorem State.HasLanded.homeByte {t : State} {e : Nat × Version} (h : t.HasLanded e) {b : Nat × Byte} (hb : b ∈ e.2.bytes)
    (hlt : b.1 < 128) : t.homeByte (128 * e.1 + b.1) e.2.key = b.2 := by
  obtain ⟨l, hl, hk, hat⟩ := h b hb
  obtain ⟨hline, hmod⟩ := lineOf_base (line := e.1) hlt
  rw [homeByte_of_key (by rw [hline]; exact hl) hk, hmod, hat]

end Commit

/-- Settles O47: the events of slots and ends by the branch of their definition; the versions of the region that commits
land one after the other in distinct lines, and closing it changes nothing of the cache. -/
theorem regionsOpenEndAndCommitInOrder : Obligations.RegionsOpenEndAndCommitInOrder := by
  refine ⟨fun s fid slot grant f fr younger x rest g hf hfr => ⟨?_, ?_, ?_, ?_, ?_⟩, fun s slot x rest hx hstate hhead => ?_⟩
  · exact slotGrant_without_room hf hfr
  · exact fun hask hslot hwait hbeg hroom => ⟨slotGrant_with_room hf hfr hask hslot hwait hbeg hroom, freeSlot_lowest hslot⟩
  · exact fun pr reg off h => openRegion_fields f slot grant h
  · exact endReport_ends hf hfr
  · exact commitAnswer_commits hf
  · intro mine
    refine ⟨fun hfree => ?_, regionCommit_claims hx hstate hhead⟩
    refine ⟨_, regionCommit_eq hx hstate hhead hfree, ?_⟩
    have hframe := onlyCommits_commitLines (s.virga.versionsOf slot) s
    obtain ⟨hslots, hcommits, htrace, hllc, hfibre⟩ :=
      closeRegion_keeps ((s.virga.versionsOf slot).foldl (fun s e => s.commitLine e.1 e.2) s) slot x.fid
    refine ⟨hslots, hcommits, htrace, fun f hf => hfibre f ((hframe.fibre? _).trans hf), fun hrise hmine e he b hb => ?_⟩
    obtain ⟨hlanded, -⟩ := commitLines_land (s := s) (mine := s.virga.versionsOf slot)
      (fun e he => by obtain ⟨h1, -, h2, h3, h4⟩ := hmine e he; exact ⟨h1, h2, h3, h4⟩) (versionsOf_distinct slot hrise)
    obtain ⟨-, -, -, hlt, -⟩ := hmine e he
    have hland : (State.closeRegion ((s.virga.versionsOf slot).foldl (fun s e => s.commitLine e.1 e.2) s) slot x.fid).HasLanded e := by
      rw [State.HasLanded, hllc]
      exact hlanded e he
    exact hland.homeByte hb (hlt b hb)

end Sys2Proof.Machine
end

section
/-! PROOFS. Saving a group, and holding it for a debugger (R250, R252, R254, R295, R296). -/

namespace Sys2Proof.Machine

section Group
variable {s t : State} {gid : Nat} {g : Group} {l : Launch}

/-- The die of the group drains without saving (R295, R296). -/
def State.discards (s : State) (g : Group) : Prop := (s.die g.die).state = .draining ∧ (s.die g.die).save = false

theorem drains_iff (hg : s.group? gid = some g) : s.drains gid = true ↔ s.discards g := by
  rw [State.drains, hg]
  simp [State.discards]

theorem drains_eq_false (hg : s.group? gid = some g) (h : ¬s.discards g) : s.drains gid = false :=
  Bool.eq_false_iff.2 fun hd => h ((drains_iff hg).1 hd)

section Preempt
variable (hg : s.group? gid = some g) (hl : s.launchOf g = some l) (hrun : g.state = .running)
include hg hl hrun

theorem preempt_saves {spill : Bool} (hhalt : s.haltable gid = true) (hplace : s.areaPlace g.die (s.areaOf gid g l) = some spill)
    (ht : s.haltGroup gid g l = some t) :
    s.preempt gid = some (State.requeued s (t.saveGroup gid g l spill (s.areaOf gid g l))) := by
  rw [State.preempt, hg]
  dsimp only
  rw [hl]
  dsimp only
  rw [if_neg (by simp [hrun]), if_neg (by simp [hhalt]), hplace]
  dsimp only
  rw [ht]
  rfl

theorem preempt_waits (hhalt : s.haltable gid = false) : s.preempt gid = none := by
  rw [State.preempt, hg]
  dsimp only
  rw [hl]
  dsimp only
  rw [if_neg (by simp [hrun]), if_pos (by simp [hhalt])]

theorem preempt_without_area (hhalt : s.haltable gid = true) (hplace : s.areaPlace g.die (s.areaOf gid g l) = none) :
    s.preempt gid = some (s.setGroup gid { g with stopping := false }) := by
  rw [State.preempt, hg]
  dsimp only
  rw [hl]
  dsimp only
  rw [if_neg (by simp [hrun]), if_neg (by simp [hhalt]), hplace]

omit hl in
theorem stopFetch_running : s.stopFetch gid = s.setGroup gid { g with stopping := true } := by
  rw [State.stopFetch, hg]
  exact if_pos hrun

end Preempt

theorem preemption_taken (h : s.drains gid = false) (ht : s.preempt gid = some t) :
    exec (.preemption gid) s = .next (t.holdNow gid) := by
  rw [exec_preemption, execPreemption, if_neg (by simp [h]), ht]

theorem preemption_waits (h : s.drains gid = false) (ht : s.preempt gid = none) :
    exec (.preemption gid) s = .next (s.stopFetch gid) := by
  rw [exec_preemption, execPreemption, if_neg (by simp [h]), ht]

theorem holdNow_holds {h : Group} (hg : t.group? gid = some h) (hhold : h.hold = true) (hst : h.state = .saved ∨ h.state = .queued) :
    t.holdNow gid = State.requeued t (t.setGroup gid { h with state := .debug, hold := false, rsv := [] }) := by
  rw [State.holdNow, hg]
  dsimp only
  rw [if_neg (by simp [hhold]), if_pos hst]

theorem debugHold_eq {who : Nat} (howned : s.owned who = true) (h : s.drains gid = false) (hg : s.group? gid = some g) :
    exec (.debugHold who gid) s = .next (match (s.setGroup gid { g with hold := true }).preempt gid with
      | some t => t.holdNow gid
      | none => (s.setGroup gid { g with hold := true }).stopFetch gid) := by
  rw [exec_debugHold, execDebugHold, if_neg (by simp [howned, h]), hg]
  dsimp only
  cases (s.setGroup gid { g with hold := true }).preempt gid <;> rfl

/-- A doubleword of a held group's save area is read, or written with the note of a value that a resume cannot take (R254). -/
theorem debugAccess_held {off : Nat} {value : Word} {area : Bool × Nat} (hg : s.group? gid = some g) (hl : s.launchOf g = some l)
    (hst : g.state = .debug) (harea : g.area = some area) :
    exec (.debugAccess gid off false value) s = .next
        ({ s with tick := s.tick + 1, out := s.out ++ [.debugData (s.areaRead gid g l (off / 8 * 8))] } : State)
      ∧ exec (.debugAccess gid off true value) s = .next
        (let h := { g with rsv := g.rsv.filter (· != off / 8 * 8)
            ++ (if value &&& s.areaRsv gid g l (off / 8 * 8) = 0 then [] else [off / 8 * 8]) }
         (s.setGroup gid h).areaWrite gid h l (off / 8 * 8) value) := by
  constructor
  · rw [exec_debugAccess, execDebugAccess, hg]
    dsimp only
    rw [hst, harea, hl]
    rfl
  · have hrsv : (if value &&& s.areaRsv gid g l (off / 8 * 8) != 0 then g.rsv.filter (· != off / 8 * 8) ++ [off / 8 * 8]
        else g.rsv.filter (· != off / 8 * 8))
        = g.rsv.filter (· != off / 8 * 8) ++ (if value &&& s.areaRsv gid g l (off / 8 * 8) = 0 then [] else [off / 8 * 8]) := by
      by_cases hv : value &&& s.areaRsv gid g l (off / 8 * 8) = 0
      · rw [if_pos hv, List.append_nil]
        exact if_neg (by rw [hv]; exact Bool.false_ne_true)
      · rw [if_neg hv]
        exact if_pos (bne_iff_ne.2 hv)
    rw [exec_debugAccess, execDebugAccess, hg]
    dsimp only
    rw [hst, harea, hl]
    dsimp only
    rw [if_pos rfl, hrsv, State.group?, State.setGroup, Dict.get?_put_same]

theorem debugAccess_fenced {off : Nat} {value : Word} (write : Bool) (hg : s.group? gid = some g) (hrun : g.state = .running)
    (hfenced : (s.die g.die).state = .fenced) :
    exec (.debugAccess gid off write value) s = .next ({ s with out := s.out ++ [.dieDown 0x0D] } : State) := by
  rw [exec_debugAccess, execDebugAccess, hg]
  dsimp only
  rw [hrun]
  exact if_pos (by rw [State.dieDown, hfenced]; rfl)

theorem debugRelease_queues (hg : s.group? gid = some g) (hst : g.state = .debug) (hrsv : g.rsv = [])
    (hpark : ∀ e ∈ s.fibresOf gid, e.2.parkBad = false) : exec (.debugRelease gid) s = .next (State.requeued s
      ((s.setGroup gid { g with state := if g.area.isSome then .saved else .queued }).enqueueGroup gid g.die)) := by
  have hany : (s.fibresOf gid).any (fun e => e.2.parkBad) = false :=
    List.any_eq_false.2 fun e he => by rw [hpark e he]; exact Bool.false_ne_true
  rw [exec_debugRelease, execDebugRelease, hg]
  dsimp only
  exact if_neg (by simp [hst, hrsv, hany])

end Group

/-- Settles O52: each request by the branch of its definition; a pre-emption saves, waits, or lapses as the group can be halted
and its save area has room. -/
theorem groupsAreSavedAndHeld : Obligations.GroupsAreSavedAndHeld := by
  intro s t who gid off value g l spill area hg hl drops
  have hkeep (h : ¬drops) : s.drains gid = false := drains_eq_false hg h
  refine ⟨fun hd hrun hhalt hplace ht => preemption_taken (hkeep hd) (preempt_saves hg hl hrun hhalt hplace ht),
    fun hd hrun hhalt => ?_,
    fun hd hrun hhalt hplace => preemption_taken (hkeep hd) (preempt_without_area hg hl hrun hhalt hplace),
    fun hd => ?_, fun howned hd => ⟨fun h ht hh hhold hst => ?_, fun ht => ?_⟩, fun howned hd => ?_,
    debugAccess_held hg hl, fun write => debugAccess_fenced write hg, debugRelease_queues hg⟩
  · rw [preemption_waits (hkeep hd) (preempt_waits hg hl hrun hhalt), stopFetch_running hg hrun]
  · rw [exec_preemption, execPreemption, if_pos ((drains_iff hg).2 hd)]
  · rw [debugHold_eq howned (hkeep hd) hg, ht]
    exact congrArg _ (holdNow_holds hh hhold hst)
  · rw [debugHold_eq howned (hkeep hd) hg, ht]
  · rw [exec_debugHold, execDebugHold, if_pos (by simp [(drains_iff hg).2 hd])]

end Sys2Proof.Machine
end

section
/-! PROOFS. The writes of the owner to the controller's registers (R187, R192, R202, R253, R298, R299, R301, R307). -/

namespace Sys2Proof.Machine

/-! ### Fields of a word -/

theorem getLsbD_setFld {w : Nat} (x : BitVec w) (lo n : Nat) (v : BitVec n) (i : Nat) (hi : i < w) :
    (setFld x lo n v).getLsbD i = if lo ≤ i ∧ i < lo + n then v.getLsbD (i - lo) else x.getLsbD i := by
  by_cases hlo : lo ≤ i
  · by_cases hn : i < lo + n
    · simp [setFld, hi, hlo, hn, show ¬i < lo by omega, show i - lo < n by omega]
    · simp [setFld, hi, hlo, hn, show ¬i < lo by omega, show ¬i - lo < n by omega, BitVec.getLsbD_of_ge v (i - lo) (by omega)]
  · simp [setFld, hi, hlo, show i < lo by omega]

theorem getLsbD_fld {w n i : Nat} (x : BitVec w) (lo : Nat) (h : i < n) : (fld x lo n).getLsbD i = x.getLsbD (lo + i) := by
  simp [fld, h]

theorem fld_one_eq (x : Word) (lo : Nat) : fld x lo 1 = BitVec.ofBool (x.getLsbD lo) := by
  refine BitVec.eq_of_getLsbD_eq fun i hi => ?_
  obtain rfl : i = 0 := by omega
  rw [getLsbD_fld x lo hi, Nat.add_zero]
  cases x.getLsbD lo <;> rfl

theorem fld_one_beq_getLsbD (x : Word) (lo : Nat) : (fld x lo 1 == 1) = x.getLsbD lo := by
  rw [fld_one_eq]
  cases x.getLsbD lo <;> rfl

/-- Bits 0 to `n - 1` of a word. -/
theorem getLsbD_lowOnes {n i : Nat} (hi : i < 64) : ((BitVec.allOnes n).setWidth 64).getLsbD i = decide (i < n) := by
  simp [hi]

/-- Clearing bits of KIND by their complement is clearing them in the register. -/
theorem setFld_kind (m v : Word) : setFld m 0 4 (fld m 0 4 &&& ~~~(fld v 0 4)) = m &&& ~~~(v &&& 0xF) := by
  refine BitVec.eq_of_getLsbD_eq fun i hi => ?_
  have hlow : (0xF : Word).getLsbD i = decide (i < 4) := getLsbD_lowOnes (n := 4) hi
  have hmask : (m &&& ~~~(v &&& 0xF)).getLsbD i = (m.getLsbD i && !(v.getLsbD i && decide (i < 4))) := by
    rw [← hlow, BitVec.getLsbD_and, BitVec.getLsbD_not, BitVec.getLsbD_and, decide_eq_true hi, Bool.true_and]
  rw [getLsbD_setFld _ _ _ _ _ hi, hmask]
  by_cases h4 : i < 4
  · simp [h4, hi]
  · simp [h4, hi]

theorem kind_eq_zero_iff (m v : Word) : fld m 0 4 &&& ~~~(fld v 0 4) = 0 ↔ m &&& ~~~v &&& 0xF = 0 := by
  have hkind : fld m 0 4 &&& ~~~(fld v 0 4) = (m &&& ~~~v &&& 0xF).setWidth 4 := by
    refine BitVec.eq_of_getLsbD_eq fun i hi => ?_
    have hlow : (0xF : Word).getLsbD i = decide (i < 4) := getLsbD_lowOnes (n := 4) (by omega)
    rw [BitVec.getLsbD_setWidth, BitVec.getLsbD_and (x := m &&& ~~~v), hlow]
    simp [hi, show i < 64 by omega]
  have hsmall : (m &&& ~~~v &&& 0xF).toNat < 2 ^ 4 := by
    rw [BitVec.toNat_and]
    exact lt_of_le_of_lt Nat.and_le_right (by decide)
  rw [hkind, ← BitVec.toNat_inj, ← BitVec.toNat_inj, BitVec.toNat_setWidth, Nat.mod_eq_of_lt hsmall]
  rfl

/-! ### Who writes (R299, R300) -/

/-- What a master that is not the owner writes changes nothing. -/
theorem notOwned_writes {s : State} {who : Nat} (p off : Nat) (v : Word) (b : Bool) (h : s.owned who = false) :
    exec (.ldmapWrite who p v) s = .next s ∧ exec (.lwcfgWrite who p v) s = .next s ∧ exec (.lcancel who v) s = .next s
     ∧ exec (.gmove who v) s = .next s ∧ exec (.registerWrite who off v) s = .next s ∧ exec (.clkstepWrite who v) s = .next s
     ∧ exec (.startcfgWrite who v) s = .next s ∧ exec (.moderrClear who v) s = .next s ∧ exec (.warmReset who p b) s = .next s
     ∧ exec (.fenceOnly who p b) s = .next s ∧ exec (.readmit who p) s = .next s ∧ exec (.debugHold who p) s = .next s
     ∧ exec (.recoveryGo who p) s = .next s := by
  refine ⟨?_, ?_, ?_, ?_, ?_, ?_, ?_, ?_, ?_, ?_, ?_, ?_, ?_⟩
  · rw [exec_ldmapWrite, execLdmapWrite, h]; rfl
  · rw [exec_lwcfgWrite, execLwcfgWrite, h]; rfl
  · rw [exec_lcancel, execLcancel, h]; rfl
  · rw [exec_gmove, execGmove, h]; rfl
  · rw [exec_registerWrite, execRegisterWrite, h]; rfl
  · rw [exec_clkstepWrite, execClkstepWrite, h]; rfl
  · rw [exec_startcfgWrite, execStartcfgWrite, h]; rfl
  · rw [exec_moderrClear, execModerrClear, h]; rfl
  · rw [exec_warmReset, execWarmReset, h]; rfl
  · rw [exec_fenceOnly, execFenceOnly, h]; rfl
  · rw [exec_readmit, execReadmit, h]; rfl
  · rw [exec_debugHold, execDebugHold, h]; rfl
  · rw [exec_recoveryGo, execRecoveryGo, if_pos (.inl (by rw [h]; rfl))]

section Owner
variable {s : State} {who : Nat} (howned : s.owned who = true)

/-! ### Maps (R192) -/

theorem mapsOpen_of {s : State} (h : s.taking = []) : s.mapsOpen = true := by
  rw [State.mapsOpen, h]
  rfl

theorem mapsOpen_of_ne {s : State} (h : s.taking ≠ []) : s.mapsOpen = false := by
  rw [State.mapsOpen, List.isEmpty_eq_false_iff]
  exact h

theorem changeMap_now {s : State} (c : MapChange) (h : s.taking = []) : s.changeMap c = s.applyChange c := by
  rw [State.changeMap, if_pos (mapsOpen_of h)]

theorem changeMap_later {s : State} (c : MapChange) (h : s.taking ≠ []) : s.changeMap c = { s with changes := s.changes ++ [c] } := by
  rw [State.changeMap, if_neg (by rw [mapsOpen_of_ne h]; exact Bool.false_ne_true)]

/-- The map `v` of partition `p` would give a die a weight that another partition gives it too. -/
def State.clashes (s : State) (p : Nat) (v : Word) : Prop :=
  ∃ d < 32, nfld v (2 * d) 2 ≠ 0 ∧ ∃ q < 8, q ≠ p ∧ s.weight q d ≠ 0

theorem clashes_iff (s : State) (p : Nat) (v : Word) : (List.range 32).any (fun d => nfld v (2 * d) 2 != 0
    && (List.range 8).any (fun q => q != p && s.weight q d != 0)) = true ↔ s.clashes p v := by
  simp only [State.clashes, List.any_eq_true, List.mem_range, Bool.and_eq_true, bne_iff_ne]

theorem installMap_dropped {s : State} {p : Nat} {v : Word} (h : s.clashes p v) : s.installMap p v = s := by
  rw [State.installMap, if_pos ((clashes_iff s p v).2 h)]

theorem installMap_installed {s : State} {p : Nat} {v : Word} (h : ¬s.clashes p v) :
    s.installMap p v = (s.setReg (0x400 + 8 * p) v).relaunchLost.moveSaved := by
  rw [State.installMap, if_neg fun hc => h ((clashes_iff s p v).1 hc)]

theorem settleMaps_single {s : State} {c : MapChange} (h : s.taking = []) (hc : s.changes = [c]) :
    s.settleMaps = ({ s with changes := [] } : State).applyChange c := by
  rw [State.settleMaps, if_pos (mapsOpen_of h), hc]
  change s.nextChange = _
  rw [State.nextChange, hc]

include howned

theorem ldmapWrite_owned {p : Nat} (v : Word) (hp : p < 8) : exec (.ldmapWrite who p v) s = .next (s.changeMap (.write p v)) := by
  rw [exec_ldmapWrite, execLdmapWrite, if_pos (by simp [howned, hp])]

/-! ### Windows and registers (R187, R298, R301, R307) -/

theorem lwcfgWrite_owned {p : Nat} (v : Word) (hp : p < 24) :
    ∃ t, exec (.lwcfgWrite who p v) s = .next t ∧ t.lwcfg p = v &&& 0x000FFFFFFFFF0F7F
      ∧ (s.winOn p = false → v.getLsbD 0 = true → t.expected p = 1)
      ∧ (s.winOn p = true ∨ v.getLsbD 0 = false → t.expected p = s.expected p) := by
  have hreg : (s.setReg (0x300 + 8 * p) (v &&& 0x000FFFFFFFFF0F7F)).lwcfg p = v &&& 0x000FFFFFFFFF0F7F := reg_setReg_same _ _ _
  have hbit : (fld (v &&& 0x000FFFFFFFFF0F7F) 0 1 == 1) = v.getLsbD 0 := by
    rw [fld_one_beq_getLsbD, BitVec.getLsbD_and]
    exact Bool.and_true _
  refine ⟨_, by rw [exec_lwcfgWrite, execLwcfgWrite, if_pos (by simp [howned, hp])], ?_⟩
  rw [hbit]
  cases hon : s.winOn p <;> cases hv : v.getLsbD 0
  · exact ⟨hreg, nofun, fun _ => rfl⟩
  · exact ⟨hreg, fun _ _ => Dict.getD_put_same _ _ _ _, fun h => by simp at h⟩
  · exact ⟨hreg, nofun, fun _ => rfl⟩
  · exact ⟨hreg, nofun, fun _ => rfl⟩

theorem registerWrite_owned {off lo hi : Nat} {mask : Word} (v : Word) (h : regShape off = some (mask, lo, hi)) :
    let t := s.setReg off (BitVec.ofNat 64 (min (max (v &&& mask).toNat lo) hi))
    exec (.registerWrite who off v) s = .next (if off = 0x50 then t.trimSlices else t) := by
  rw [exec_registerWrite, execRegisterWrite, if_neg (by simp [howned]), h]

theorem clkstepWrite_owned (v : Word) : exec (.clkstepWrite who v) s
    = .next (s.setReg 0x40 (if v.toNat % 4 = 3 then 2 else BitVec.ofNat 64 (v.toNat % 4))) := by
  have hstep : BitVec.ofNat 64 (min (nfld v 0 2) 2) = if v.toNat % 4 = 3 then 2 else BitVec.ofNat 64 (v.toNat % 4) := by
    rw [nfld_eq, pow_zero, Nat.div_one]
    split
    case isTrue h => rw [show v.toNat % 2 ^ 2 = 3 from h]; rfl
    case isFalse h => rw [show min (v.toNat % 2 ^ 2) 2 = v.toNat % 4 by omega]
  rw [exec_clkstepWrite, execClkstepWrite, if_pos howned, hstep]

theorem startcfgWrite_owned (v : Word) :
    let cfg := BitVec.ofNat 64 (min (v.toNat % 32) 16 + min (v.toNat / 256 % 32) 16 * 256)
    exec (.startcfgWrite who v) s = .next ({ s with ctl := s.ctl.put 0x30 cfg, flashCfg := cfg } : State) := by
  rw [exec_startcfgWrite, execStartcfgWrite, if_pos howned, nfld_eq, nfld_eq, pow_zero, Nat.div_one]
  rfl

theorem moderrClear_owned (v : Word) : exec (.moderrClear who v) s = .next (s.setReg 0x10
    (if s.reg 0x10 &&& ~~~v &&& 0xF = 0 then 0 else s.reg 0x10 &&& ~~~(v &&& 0xF))) := by
  rw [exec_moderrClear, execModerrClear, if_pos howned]
  dsimp only
  rw [setFld_kind, if_congr (kind_eq_zero_iff _ _) rfl rfl]

/-! ### Cancelling a launch (R202) -/

omit howned in
theorem lcancelValue_fields (s : State) (v : Word) : nfld (s.lcancelValue v) 32 5 = min (nfld v 32 5) 23
    ∧ nfld (s.lcancelValue v) 0 32 = nfld v 0 32 ∧ (s.lcancelValue v).getLsbD 63 = (s.reg 0x290).getLsbD 63 := by
  refine ⟨?_, ?_, ?_⟩
  · rw [nfld, State.lcancelValue, fld_setFld_below _ _ _ _ _ _ (by omega), fld_setFld_same _ _ _ _ (by omega), BitVec.toNat_ofNat,
      Nat.mod_eq_of_lt (by omega)]
  · rw [nfld, State.lcancelValue, fld_setFld_below _ _ _ _ _ _ (by omega), fld_setFld_below _ _ _ _ _ _ (by omega)]
    refine congrArg BitVec.toNat (BitVec.eq_of_getLsbD_eq fun i hi => ?_)
    have hmask : (0x3FFFFFFFFF : Word).getLsbD i = decide (i < 38) := getLsbD_lowOnes (n := 38) (by omega)
    rw [getLsbD_fld _ _ hi, getLsbD_fld _ _ hi, Nat.zero_add, BitVec.getLsbD_and, hmask]
    simp [show i < 38 by omega]
  · rw [State.lcancelValue, getLsbD_setFld _ _ _ _ _ (by omega), if_pos (by omega), getLsbD_fld _ _ (by omega)]

theorem lcancel_owned {lid : Nat} {l : Launch} (v : Word) :
    let named := s.findLaunch (min (nfld v 32 5) 23) (nfld v 0 32)
    let w := s.lcancelValue v
    (v.getLsbD 63 = true → named = some (lid, l) → exec (.lcancel who v) s = .next
        (({ s.setReg 0x290 (setFld w 63 1 1) with cancelling := some lid } : State).cancelLaunch lid (v.getLsbD 37)))
      ∧ (v.getLsbD 63 = true → named = none →
        exec (.lcancel who v) s = .next ({ s.setReg 0x290 (setFld w 63 1 0) with cancelling := none } : State))
      ∧ (v.getLsbD 63 = false → exec (.lcancel who v) s = .next (s.setReg 0x290 w))
      ∧ w.getLsbD 63 = (s.reg 0x290).getLsbD 63 := by
  obtain ⟨hwin, hseq, hgo⟩ := lcancelValue_fields s v
  intro named w
  have hnamed : s.findLaunch (nfld w 32 5) (nfld w 0 32) = named := by rw [hwin, hseq]
  have hset (h : v.getLsbD 63 = true) : ¬fld v 63 1 = 0 := by
    rw [fld_one_eq, h]
    decide
  refine ⟨fun h hn => ?_, fun h hn => ?_, fun h => ?_, hgo⟩
  · rw [exec_lcancel, execLcancel, if_neg (by simp [howned])]
    dsimp only
    rw [if_neg (hset h), hnamed, hn]
    dsimp only
    rw [fld_one_beq_getLsbD]
  · rw [exec_lcancel, execLcancel, if_neg (by simp [howned])]
    dsimp only
    rw [if_neg (hset h), hnamed, hn]
  · rw [exec_lcancel, execLcancel, if_neg (by simp [howned])]
    exact if_pos (by rw [fld_one_eq, h]; rfl)

/-! ### Moving a saved group (R253) -/

theorem gmove_owned {lid gid : Nat} {l : Launch} {g : Group} (v : Word) : let s' := s.setReg 0x288 (v &&& 0x1FFFFFFFFF)
    v.getLsbD 63 = true → s'.findLaunch (nfld (s'.reg 0x280) 32 5) (nfld (s'.reg 0x280) 0 32) = some (lid, l) →
    s'.groups.find? (fun e => e.2.lid == lid && e.2.num == nfld v 0 32) = some (gid, g) → g.state = .saved ∨ g.state = .debug →
    s'.weight l.part (nfld v 32 5) ≠ 0 → exec (.gmove who v) s = .next (s'.moveGroup gid g (nfld v 32 5)) := by
  intro s' hgo hlaunch hgroup hst hweight
  have hset : ¬fld v 63 1 = 0 := by
    rw [fld_one_eq, hgo]
    decide
  rw [exec_gmove, execGmove, if_neg (by simp [howned])]
  dsimp only
  rw [if_neg hset, hlaunch]
  dsimp only
  rw [hgroup]
  refine if_pos (Bool.and_eq_true_iff.2 ⟨?_, bne_iff_ne.2 hweight⟩)
  rcases hst with h | h
  · rw [h]; rfl
  · rw [h]; rfl

end Owner

/-- Settles O53: a write of another master by the test of ownership, one of the owner by what its register does with it. -/
theorem onlyTheOwnersWritesTakeEffect : Obligations.OnlyTheOwnersWritesTakeEffect := by
  refine ⟨fun s who p off v b h => notOwned_writes p off v b h, fun s who p off lo hi lid gid v mask l g howned =>
    ⟨fun hp htake hclash => ?_, fun hp htake hfree => ?_, fun hp htake => ?_, settleMaps_single, lwcfgWrite_owned howned v,
      registerWrite_owned howned v, clkstepWrite_owned howned v, startcfgWrite_owned howned v, moderrClear_owned howned v,
      lcancel_owned howned v, gmove_owned howned v⟩⟩
  · rw [ldmapWrite_owned howned v hp, changeMap_now _ htake]
    exact congrArg _ (installMap_dropped hclash)
  · rw [ldmapWrite_owned howned v hp, changeMap_now _ htake]
    refine congrArg _ (installMap_installed ?_)
    rintro ⟨d, hd, hw, q, hq, hne, hother⟩
    exact hother (hfree d hd hw q hq hne)
  · rw [ldmapWrite_owned howned v hp, changeMap_later _ htake]

end Sys2Proof.Machine
end

section
/-! PROOFS. Ownership and the start of the module (R299 to R305, R307). -/

namespace Sys2Proof.Machine

/-! ### Claims and the lease (R300, R301) -/

section Claim
variable {s : State} {who : Nat} {v : Word}

theorem nfld_owner (v : Word) : nfld v 0 5 = v.toNat % 32 := by
  rw [nfld_eq, pow_zero, Nat.div_one]
  rfl

theorem nfld_handto (v : Word) : nfld v 8 5 = v.toNat / 256 % 32 := nfld_eq v 8 5

/-- Masters have numbers from 1 on. -/
theorem reaches_ne_zero (h : s.reaches who = true) : who ≠ 0 := by
  rintro rfl
  simp [State.reaches, isMaster] at h

variable (hreach : s.reaches who = true)
include hreach

theorem claim_free (hown : v.toNat % 32 = who) (hfree : s.owner = 0 ∨ s.lease = 0) :
    exec (.claim who v) s = .next (s.claimed who 0) := by
  rw [exec_claim, execClaim]
  rw [if_neg (by simp [hreach]), if_pos ⟨(nfld_owner v).trans hown, hfree⟩]

theorem claim_renews (hown : v.toNat % 32 = who) (howner : s.owner = who) (hlease : s.lease ≠ 0) :
    exec (.claim who v) s = .next (s.claimed who (v.toNat / 256 % 32)) := by
  have hne := reaches_ne_zero hreach
  rw [exec_claim, execClaim]
  rw [if_neg (by simp [hreach]), if_neg (by rintro ⟨-, h | h⟩; exacts [hne (howner ▸ h), hlease h]),
    if_pos ⟨howner, (nfld_owner v).trans hown⟩, nfld_handto]

theorem claim_handed (hown : v.toNat % 32 = who) (h0 : s.owner ≠ 0) (hother : s.owner ≠ who) (hlease : s.lease ≠ 0)
    (hhand : nfld (s.reg 0) 8 5 = who) : exec (.claim who v) s = .next (s.claimed who 0) := by
  rw [exec_claim, execClaim]
  rw [if_neg (by simp [hreach]), if_neg (by rintro ⟨-, h | h⟩; exacts [h0 h, hlease h]), if_neg fun h => hother h.1,
    if_neg fun h => hother h.1, if_pos ⟨hhand, (nfld_owner v).trans hown⟩]

theorem claim_releases (hown : v.toNat % 32 = 0) (howner : s.owner = who) :
    ∃ t, exec (.claim who v) s = .next t ∧ t.owner = 0 := by
  have hne := reaches_ne_zero hreach
  have hown' : nfld v 0 5 = 0 := (nfld_owner v).trans hown
  refine ⟨s.setReg 0 (s.reg 0 &&& 0xFFFF0000), ?_, ?_⟩
  · rw [exec_claim, execClaim]
    rw [if_neg (by simp [hreach]), hown', if_neg fun h => hne h.1.symm, if_neg fun h => hne h.2.symm, if_pos ⟨howner, rfl⟩]
  · rw [State.owner, reg_setReg_same]
    have : fld (s.reg 0 &&& 0xFFFF0000) 0 5 = 0 := by
      refine BitVec.eq_of_getLsbD_eq fun i hi => ?_
      rw [getLsbD_fld _ _ hi, BitVec.getLsbD_and]
      interval_cases i <;> exact Bool.and_false _
    rw [nfld, this]
    rfl

theorem claim_refused (h0 : s.owner ≠ 0) (hother : s.owner ≠ who) (hlease : s.lease ≠ 0) (hhand : nfld (s.reg 0) 8 5 ≠ who) :
    exec (.claim who v) s = .next s := by
  rw [exec_claim, execClaim]
  rw [if_neg (by simp [hreach]), if_neg (by rintro ⟨-, h | h⟩; exacts [h0 h, hlease h]), if_neg fun h => hother h.1,
    if_neg fun h => hother h.1, if_neg fun h => hhand h.1]

omit hreach in
theorem leaseExpiry_ends (h : s.leaseAt + 2000000000 ≤ s.time) :
    ∃ t, exec .leaseExpiry s = .next t ∧ t.lease = 0 ∧ t.owner = s.owner := by
  refine ⟨s.setReg 0 (setFld (s.reg 0) 16 16 0), ?_, ?_, ?_⟩
  · rw [exec_leaseExpiry, execLeaseExpiry]
    exact if_pos h
  · rw [State.lease, reg_setReg_same, nfld, fld_setFld_same _ _ _ _ (by omega)]
    rfl
  · rw [State.owner, reg_setReg_same, nfld, fld_setFld_below _ _ _ _ _ _ (by omega)]
    rfl

end Claim

/-! ### The start (R302 to R304) -/

/-- A field above the one that was set is as before. -/
theorem fld_setFld_above {w : Nat} (x : BitVec w) (lo n : Nat) (v : BitVec n) (l k : Nat) (h : lo + n ≤ l) (hw : l + k ≤ w) :
    fld (setFld x lo n v) l k = fld x l k := by
  refine BitVec.eq_of_getLsbD_eq fun i hi => ?_
  rw [getLsbD_fld _ _ hi, getLsbD_fld _ _ hi, getLsbD_setFld _ _ _ _ _ (by omega), if_neg (by omega)]

section Start
variable {s : State} {outcome : Nat}

theorem phase_setPhase (s : State) {p : Nat} (h : p < 16) : (s.setPhase p).phase = p := by
  rw [State.phase, State.setPhase, reg_setReg_same, nfld, fld_setFld_same _ _ _ _ (by omega), BitVec.toNat_ofNat, Nat.mod_eq_of_lt h]

theorem fails_setPhase (s : State) (p : Nat) : (s.setPhase p).fails = s.fails := by
  rw [State.fails, State.setPhase, reg_setReg_same, nfld, fld_setFld_above _ _ _ _ _ _ (by omega) (by omega)]
  rfl

theorem startWatchdog_expires (hphase : s.phase < 5) (h : s.startedAt + 20000000000 ≤ s.time) :
    exec .startWatchdog s = .next (s.failStart 8) := by
  rw [exec_startWatchdog, execStartWatchdog]
  exact if_pos ⟨hphase, h⟩

theorem moduleStart_fails (hphase : s.phase < 5) (hfull : ¬(s.fails = 3 ∧ s.phase = 0)) (hout : outcome ≠ 0) (hle : outcome ≤ 9) :
    exec (.moduleStart outcome) s = .next (s.failStart outcome) := by
  rw [exec_moduleStart, execModuleStart]
  dsimp only
  rw [if_neg (by omega), if_neg hfull, if_pos hout]

theorem moduleStart_minimal (hphase : s.phase = 0) (hfails : s.fails = 3) (hle : outcome ≤ 9) :
    exec (.moduleStart outcome) s = .next (s.minimalStart (outcome == 0)) := by
  rw [exec_moduleStart, execModuleStart]
  dsimp only
  rw [if_neg (by omega), if_pos ⟨hfails, hphase⟩]

theorem moduleStart_phase0 (hphase : s.phase = 0) (hfails : s.fails ≠ 3) : exec (.moduleStart 0) s = .next (s.setPhase 1) := by
  rw [exec_moduleStart, execModuleStart]
  dsimp only
  rw [hphase, if_neg (by omega), if_neg fun h => hfails h.1]
  exact if_neg fun h => h rfl

theorem moduleStart_phase1 (hphase : s.phase = 1) : exec (.moduleStart 0) s = .next (if !s.flashGood then s.failStart 2
    else if s.imageVer.toNat < s.fusedMin.toNat then s.failStart 3
    else { s.setReg 8 (setFld (setFld (s.reg 8) 0 4 2) 16 32 s.imageVer) with runImage := s.image }) := by
  rw [exec_moduleStart, execModuleStart]
  dsimp only
  rw [hphase, if_neg (by omega), if_neg fun h => Nat.one_ne_zero h.2]
  rw [apply_ite Host.Outcome.next, apply_ite Host.Outcome.next]
  exact if_neg fun h => h rfl

theorem moduleStart_phase2 (hphase : s.phase = 2) :
    exec (.moduleStart 0) s = .next (({ s.setReg 0x58 s.flashCfg with events := [] } : State).setPhase 3) := by
  rw [exec_moduleStart, execModuleStart]
  dsimp only
  rw [hphase, if_neg (by omega), if_neg fun h => absurd h.2 (by omega)]
  exact if_neg fun h => h rfl

theorem moduleStart_phase3 (hphase : s.phase = 3) : let t := s.startDies
    exec (.moduleStart 0) s =
      .next (if (List.range 32).all (fun d => (t.die d).state != .live) then t.failStart 6 else t.setPhase 4) := by
  rw [exec_moduleStart, execModuleStart]
  dsimp only
  rw [hphase, if_neg (by omega), if_neg fun h => absurd h.2 (by omega)]
  rw [apply_ite Host.Outcome.next]
  exact if_neg fun h => h rfl

theorem moduleStart_phase4 (hphase : s.phase = 4) : exec (.moduleStart 0) s = .next (if s.trainable.isEmpty then s.failStart 7
    else ({ s.setReg 8 (setFld (s.reg 8) 4 4 0) with
      ports := s.trainable
      fusedMin := if s.fusedMin.toNat < (Config.minVersion s.runImage).toNat then Config.minVersion s.runImage
                  else s.fusedMin } : State).setPhase 5) := by
  rw [exec_moduleStart, execModuleStart]
  dsimp only
  rw [hphase, if_neg (by omega), if_neg fun h => absurd h.2 (by omega)]
  rw [apply_ite Host.Outcome.next]
  exact if_neg fun h => h rfl

theorem moduleStart_loads (hphase : s.phase = 1) (hflash : s.flashGood = true) (hver : s.fusedMin.toNat ≤ s.imageVer.toNat) :
    ∃ t, exec (.moduleStart 0) s = .next t ∧ t.phase = 2 ∧ nfld (t.reg 8) 16 32 = s.imageVer.toNat ∧ t.runImage = s.image := by
  refine ⟨_, by rw [moduleStart_phase1 hphase, if_neg (by simp [hflash]), if_neg (by omega)], ?_, ?_, rfl⟩
  · change nfld ((s.setReg 8 _).reg 8) 0 4 = 2
    rw [reg_setReg_same, nfld, fld_setFld_below _ _ _ _ _ _ (by omega), fld_setFld_same _ _ _ _ (by omega)]
    rfl
  · change nfld ((s.setReg 8 _).reg 8) 16 32 = _
    rw [reg_setReg_same, nfld, fld_setFld_same _ _ _ _ (by omega)]

theorem moduleStart_configures (hphase : s.phase = 2) :
    ∃ t, exec (.moduleStart 0) s = .next t ∧ t.phase = 3 ∧ t.reg 0x58 = s.flashCfg ∧ t.events = [] := by
  refine ⟨_, moduleStart_phase2 hphase, phase_setPhase _ (by omega), ?_, rfl⟩
  rw [State.setPhase, reg_setReg_other _ _ (by decide)]
  exact reg_setReg_same s 0x58 s.flashCfg

theorem moduleStart_trains (hphase : s.phase = 4) (htrain : s.trainable ≠ []) :
    ∃ t, exec (.moduleStart 0) s = .next t ∧ t.phase = 5 ∧ t.fails = 0 ∧ t.ports = s.trainable := by
  refine ⟨_, by rw [moduleStart_phase4 hphase, if_neg (by simpa using htrain)], phase_setPhase _ (by omega), ?_, rfl⟩
  rw [fails_setPhase]
  change nfld ((s.setReg 8 _).reg 8) 4 4 = 0
  rw [reg_setReg_same, nfld, fld_setFld_same _ _ _ _ (by omega)]
  rfl

end Start

/-! ### Recovery (R305) -/

theorem recoveryGo_owned {s : State} {who outcome : Nat} (howned : s.owned who = true) (hle : outcome ≤ 3) :
    let asked := ({ s with recovery := some outcome } : State).setReg 0x28 1
    (s.recovery ≠ none → exec (.recoveryGo who outcome) s = .next s)
    ∧ (s.recovery = none → (∃ d < 32, s.dieIdle d = false) → exec (.recoveryGo who outcome) s = .next asked)
    ∧ (s.recovery = none → (∀ d < 32, s.dieIdle d = true) → exec (.recoveryGo who outcome) s = .next (asked.recover outcome)) := by
  intro asked
  have hasked (h : s.recovery = none) : exec (.recoveryGo who outcome) s = .next asked.resumeRecovery := by
    rw [exec_recoveryGo, execRecoveryGo, if_neg (by simp [howned, h]; omega)]
  have hresume : asked.resumeRecovery = if (List.range 32).all s.dieIdle then asked.recover outcome else asked := rfl
  refine ⟨fun h => ?_, fun h hbusy => ?_, fun h hidle => ?_⟩
  · rw [exec_recoveryGo, execRecoveryGo, if_pos (.inr (.inr (by simpa [Option.isSome_iff_ne_none] using h)))]
  · obtain ⟨d, hd, hb⟩ := hbusy
    rw [hasked h, hresume, if_neg fun hall => ?_]
    have := List.all_eq_true.1 hall d (List.mem_range.2 hd)
    rw [hb] at this
    exact Bool.false_ne_true this
  · rw [hasked h, hresume, if_pos (List.all_eq_true.2 fun d hd => hidle d (List.mem_range.1 hd))]

/-- How a recovery ends: a failure is reported, and an image of too low a version is one; else the image is taken. -/
theorem recover_eq (s : State) (result : Nat) :
    let bytes := s.mem.bytes (s.reg 0x18).toNat (s.reg 0x20).toNat
    let refused := fun (c : Nat) => ({ s with recovery := none } : State).setReg 0x28 (BitVec.ofNat 64 (c * 256))
    (result ≠ 0 → s.recover result = refused result)
    ∧ (result = 0 → (Config.imageVersion bytes).toNat < s.fusedMin.toNat → s.recover result = refused 3)
    ∧ (result = 0 → s.fusedMin.toNat ≤ (Config.imageVersion bytes).toNat → s.recover result = ({ s with
        recovery := none, flashGood := true
        imageVer := Config.imageVersion bytes, image := Config.imageDigest bytes } : State).moduleReset) := by
  intro bytes refused
  have hrecover : s.recover result
      = let r := if result = 0 ∧ (Config.imageVersion bytes).toNat < s.fusedMin.toNat then 3 else result
        if r = 0 then ({ s with recovery := none, flashGood := true, imageVer := Config.imageVersion bytes
                                image := Config.imageDigest bytes } : State).moduleReset
        else refused r := rfl
  rw [hrecover]
  dsimp only
  refine ⟨fun h => ?_, fun h hver => ?_, fun h hver => ?_⟩
  · have hr : (if result = 0 ∧ (Config.imageVersion bytes).toNat < s.fusedMin.toNat then 3 else result) = result :=
      if_neg fun hc => h hc.1
    rw [hr]
    exact if_neg h
  · have hr : (if result = 0 ∧ (Config.imageVersion bytes).toNat < s.fusedMin.toNat then 3 else result) = 3 := if_pos ⟨h, hver⟩
    rw [hr]
    exact if_neg (by omega)
  · have hr : (if result = 0 ∧ (Config.imageVersion bytes).toNat < s.fusedMin.toNat then 3 else result) = result :=
      if_neg fun hc => Nat.not_lt.2 hver hc.2
    rw [hr]
    exact if_pos h

/-- Settles O54: claims by the tests of their definition, the start by its phase, and a recovery by its result. -/
theorem ownershipAndStart : Obligations.OwnershipAndStart := by
  intro s who outcome v hreach claimed
  refine ⟨claim_free hreach, claim_renews hreach, claim_handed hreach, claim_releases hreach, claim_refused hreach,
    leaseExpiry_ends, startWatchdog_expires, moduleStart_fails, moduleStart_phase0, moduleStart_loads, fun hphase hflash => ?_,
    fun hphase hflash hver => ?_, moduleStart_configures, moduleStart_phase3, moduleStart_minimal, moduleStart_trains,
    fun hphase htrain => ?_, fun howned hle => ?_⟩
  · rw [moduleStart_phase1 hphase, if_pos (by simp [hflash])]
  · rw [moduleStart_phase1 hphase, if_neg (by simp [hflash]), if_pos hver]
  · rw [moduleStart_phase4 hphase, if_pos (by simp [htrain])]
  · intro asked
    obtain ⟨hbusy, hwait, hgo⟩ := recoveryGo_owned howned hle
    refine ⟨hbusy, hwait, fun hnone hidle => ?_⟩
    rw [hgo hnone hidle]
    obtain ⟨h1, h2, h3⟩ := recover_eq asked outcome
    exact ⟨fun h => congrArg _ (h1 h), fun h hv => congrArg _ (h2 h hv), fun h hv => congrArg _ (h3 h hv)⟩

end Sys2Proof.Machine
end

section
/-! PROOFS. The sequence of a die (R192, R289, R294, R295). -/

namespace Sys2Proof.Machine

/-! ### What the owner orders (R294) -/

section Order
variable {s : State} {who die : Nat} {save : Bool}

theorem warmReset_owned (howned : s.owned who = true) (hdie : die < 32) : exec (.warmReset who die save) s
    = .next ((s.setReg 0x100 (dieCtl die 1 save)).dieOp 1 die save) := by
  rw [exec_warmReset, execWarmReset, if_pos (by simp [howned, hdie])]

theorem fenceOnly_owned (howned : s.owned who = true) (hdie : die < 32) : exec (.fenceOnly who die save) s
    = .next ((s.setReg 0x100 (dieCtl die 2 save)).dieOp 2 die save) := by
  rw [exec_fenceOnly, execFenceOnly, if_pos (by simp [howned, hdie])]

theorem readmit_owned (howned : s.owned who = true) (hdie : die < 32) (hsave : save = (s.reg 0x100).getLsbD 8) :
    exec (.readmit who die) s = .next ((s.setReg 0x100 (dieCtl die 3 save)).dieOp 3 die save) := by
  rw [exec_readmit, execReadmit, fld_one_beq_getLsbD, ← hsave, if_pos (by simp [howned, hdie])]

/-- While a sequence runs an order begins nothing. -/
theorem dieOp_busy {op : Nat} (h : (s.die die).state = .draining ∨ (s.die die).state = .resetting ∨ (s.die die).state = .testing) :
    s.dieOp op die save = s := by
  rcases h with h | h | h
  · simp only [State.dieOp, h]
  · simp only [State.dieOp, h]
  · simp only [State.dieOp, h]

theorem dieOp_live (h : (s.die die).state = .live) : s.dieOp 1 die save = s.drain die 1 save
    ∧ s.dieOp 2 die save = s.drain die 2 save ∧ s.dieOp 3 die save = s := by
  refine ⟨?_, ?_, ?_⟩
  · simp only [State.dieOp, h]
  · simp only [State.dieOp, h]
  · simp only [State.dieOp, h]

theorem dieOp_idle (h : (s.die die).state = .fenced ∨ (s.die die).state = .failed ∨ (s.die die).state = .ready) :
    s.dieOp 1 die save = s.startReset die 1 ∧ s.dieOp 2 die save = s := by
  rcases h with h | h | h
  · exact ⟨by simp only [State.dieOp, h], by simp only [State.dieOp, h]⟩
  · exact ⟨by simp only [State.dieOp, h], by simp only [State.dieOp, h]⟩
  · exact ⟨by simp only [State.dieOp, h], by simp only [State.dieOp, h]⟩

theorem dieOp_readmits (h : (s.die die).state = .fenced ∨ (s.die die).state = .failed) :
    s.dieOp 3 die save = s.startReset die 3 := by
  rcases h with h | h
  · simp only [State.dieOp, h]
  · simp only [State.dieOp, h]

theorem dieOp_ready (h : (s.die die).state = .ready) :
    s.dieOp 3 die save = (s.setDie die { s.die die with op := 3 }).changeMap (.restore die) := by
  simp only [State.dieOp, h]

end Order

/-! ### The steps of a sequence (R295) -/

section Steps
variable {s t : State} {die code : Nat}

theorem drain_now {save : Bool} (h : s.taking = []) : s.drain die code save
    = (s.setDie die { s.die die with state := .draining, op := code, save := save }).dropWeight die :=
  changeMap_now (s := s.setDie die { s.die die with state := .draining, op := code, save := save }) _ h

theorem drain_later {save : Bool} (h : s.taking ≠ []) : s.drain die code save
    = { s.setDie die { s.die die with state := .draining, op := code, save := save } with changes := s.changes ++ [.drop die] } :=
  changeMap_later (s := s.setDie die { s.die die with state := .draining, op := code, save := save }) _ h

theorem linkQuiesce_waits (h : s.changes.contains (.drop die) = true) :
    exec (.linkQuiesce die) s = .next s := by
  rw [exec_linkQuiesce, execLinkQuiesce]
  exact if_pos (by rw [h, Bool.or_true])

theorem linkQuiesce_empty (hst : (s.die die).state = .draining) (h : s.changes.contains (.drop die) = false)
    (ht : s.evictAll (s.die die).save (s.resident die) = some t) :
    exec (.linkQuiesce die) s = .next (let t' := t.setDie die { t.die die with state := .fenced }
      if (s.die die).op = 2 then t'.endSequence die else t') := by
  rw [exec_linkQuiesce, execLinkQuiesce]
  dsimp only
  rw [if_neg (by rw [h, hst]; exact Bool.false_ne_true), ht]

theorem linkQuiesce_busy (hst : (s.die die).state = .draining) (h : s.changes.contains (.drop die) = false)
    (ht : s.evictAll (s.die die).save (s.resident die) = none) :
    exec (.linkQuiesce die) s = .next ((s.resident die).foldl State.stopFetch s) := by
  rw [exec_linkQuiesce, execLinkQuiesce]
  dsimp only
  rw [if_neg (by rw [h, hst]; exact Bool.false_ne_true), ht]

theorem dieResetDone_fenced (hst : (s.die die).state = .fenced) (hop : (s.die die).op ≠ 0) :
    exec (.dieResetDone die) s = .next (s.startReset die (s.die die).op) := by
  rw [exec_dieResetDone, execDieResetDone]
  rw [hst]
  exact if_neg hop

theorem dieResetDone_resetting (hst : (s.die die).state = .resetting) : ∃ u, exec (.dieResetDone die) s = .next u
    ∧ u.die die = { s.die die with state := .testing, linkUp := true, replays := 0, replaysIn := 0 } := by
  refine ⟨_, ?_, die_setDie_same (s.resetCells die) die _⟩
  rw [exec_dieResetDone, execDieResetDone]
  rw [hst]

theorem dieResetDone_ready (hst : (s.die die).state = .ready) (hop : (s.die die).op ≠ 0)
    (h : s.changes.contains (.restore die) = false) : exec (.dieResetDone die) s = .next (s.changeMap (.restore die)) := by
  rw [exec_dieResetDone, execDieResetDone]
  rw [hst]
  exact if_neg (by rw [h]; simp [hop])

theorem bistDone_tested (hst : (s.die die).state = .testing) (h : s.changes.contains (.drop die) = false) :
    (code % 256 = 0 → exec (.bistDone die code) s = .next (s.setDie die { s.die die with state := .ready, bist := 0 }))
      ∧ (code % 256 ≠ 0 → exec (.bistDone die code) s = .next
        ((s.setDie die { s.die die with state := .failed, bist := code % 256 }).endSequence die)) := by
  rw [exec_bistDone, execBistDone]
  rw [if_neg (by simp [hst]), if_neg (by rw [h]; exact Bool.false_ne_true)]
  exact ⟨fun hc => if_pos hc, fun hc => if_neg hc⟩

theorem admitDie_restores {p w : Nat} (hst : (s.die die).state = .ready) (htake : s.taking = [])
    (hformer : (s.die die).former = some (p, w)) (hfree : ∀ q < 8, q ≠ p → s.weight q die = 0) :
    s.changeMap (.restore die) = ((s.setDie die { s.die die with state := .live, former := none }).installMap p
      (setFld (s.reg (0x400 + 8 * p)) (2 * die) 2 (BitVec.ofNat 2 w))).endSequence die := by
  have hnone : (List.range 8).any (fun q => q != p && s.weight q die != 0) = false := by
    refine List.any_eq_false.2 fun q hq => ?_
    by_cases hqp : q = p
    · simp [hqp]
    · simp [hfree q (List.mem_range.1 hq) hqp]
  rw [changeMap_now _ htake, State.applyChange, if_pos hst, State.admitDie, hformer]
  exact if_neg (by rw [hnone]; exact Bool.false_ne_true)

end Steps

/-! ### A link that fails (R289) -/

/-- Only counters change among the controller's registers. -/
def State.KeepsRegs (s t : State) : Prop := ∀ off, off < 0x4000 → t.reg off = s.reg off

theorem State.KeepsRegs.refl (s : State) : s.KeepsRegs s := fun _ _ => rfl

theorem State.KeepsRegs.trans {s t u : State} (h : s.KeepsRegs t) (k : t.KeepsRegs u) : s.KeepsRegs u :=
  fun off ho => (k off ho).trans (h off ho)

theorem State.KeepsRegs.foldl {α : Type} {s : State} (l : List α) (f : State → α → State)
    (h : ∀ (t : State) (a : α), t.KeepsRegs (f t a)) : s.KeepsRegs (l.foldl f s) :=
  List.foldlRecOn l f (motive := fun t : State => s.KeepsRegs t) (.refl s) fun _ ht a _ => ht.trans (h _ a)

theorem keepsRegs_of_ctl {s t : State} (h : t.ctl = s.ctl) : s.KeepsRegs t := fun off _ => by rw [State.reg, State.reg, h]

theorem keepsRegs_countSector (sec src n : Nat) (s : State) : s.KeepsRegs (countSector sec src n s) :=
  fun _ ho => reg_countSector s ho

theorem keepsRegs_modFibre (s : State) (fid : Nat) (g : Fibre → Fibre) : s.KeepsRegs (s.modFibre fid g) :=
  keepsRegs_of_ctl (State.modFibre_ctl s fid g)

theorem keepsRegs_abortIn (fuel : Nat) (s : State) (slot cause : Nat) : s.KeepsRegs (State.abortIn fuel s slot cause) := by
  induction fuel generalizing s slot cause with
  | zero => exact .refl s
  | succ fuel ih =>
    unfold State.abortIn
    split
    · exact .refl s
    · split
      · refine .trans ?_ (keepsRegs_countSector 12 12 1 _)
        refine .trans ?_ (keepsRegs_modFibre _ _ _)
        refine .trans (t := List.foldl (fun s d => State.abortIn fuel s d 2) _ _) ?_ (keepsRegs_of_ctl rfl)
        exact .trans (keepsRegs_of_ctl rfl) (.foldl _ _ fun t d => ih t d 2)
      · exact .refl s

theorem keepsRegs_abortSlot (s : State) (slot cause : Nat) : s.KeepsRegs (s.abortSlot slot cause) :=
  (keepsRegs_abortIn 513 s slot cause).trans (keepsRegs_of_ctl rfl)

theorem keepsRegs_abortAlive (s : State) (slot grant cause : Nat) :
    s.KeepsRegs (if s.virga.alive slot grant then s.abortSlot slot cause else s) := by
  split
  · exact keepsRegs_abortSlot s slot cause
  · exact .refl s

theorem keepsRegs_abortRegions (s : State) (f : Fibre) (cause : Nat) : s.KeepsRegs (s.abortRegions f cause) := by
  have hopen : s.KeepsRegs (match f.rgn with
      | some (slot, grant) => if s.virga.alive slot grant then s.abortSlot slot cause else s
      | none => s) := by
    split
    · exact keepsRegs_abortAlive _ _ _ _
    · exact .refl s
  unfold State.abortRegions
  dsimp only
  split
  · exact hopen.trans (keepsRegs_abortAlive _ _ _ _)
  · exact hopen

theorem keepsRegs_dropFibre (s : State) (fid cause : Nat) : s.KeepsRegs (s.dropFibre fid cause) := by
  unfold State.dropFibre
  cases s.fibre? fid with
  | none => exact .refl s
  | some f =>
    dsimp only
    refine .trans (keepsRegs_abortRegions s f cause) ?_
    split
    · exact keepsRegs_of_ctl (State.modFibre_ctl _ _ _)
    · exact keepsRegs_of_ctl (State.modFibre_ctl _ _ _)

theorem keepsRegs_emptyCells (cells : List Nat) (s : State) : s.KeepsRegs (cells.foldl (fun s c => s.emptyCell c) s) :=
  .foldl cells _ fun _ _ => keepsRegs_of_ctl rfl

theorem keepsRegs_discardGroup (s : State) (gid cause : Nat) (st : GroupState) : s.KeepsRegs (s.discardGroup gid cause st) := by
  unfold State.discardGroup
  split
  · exact .refl s
  · dsimp only
    refine .trans (.foldl (s.fibresOf gid) _ fun t (e : Nat × Fibre) => keepsRegs_dropFibre t e.1 cause) ?_
    exact .trans (keepsRegs_emptyCells _ _) (keepsRegs_of_ctl rfl)

/-- A die that has been fenced keeps its state when its weight is dropped, at once or later. -/
theorem changeMap_drop_die (s : State) (d : Nat) : ∃ former, (s.changeMap (.drop d)).die d = { s.die d with former := former } := by
  rw [State.changeMap]
  split
  · rw [State.applyChange, State.dropWeight]
    split
    · exact ⟨_, die_setDie_same _ _ _⟩
    · exact ⟨_, rfl⟩
  · exact ⟨_, rfl⟩

/-- Dropping a weight writes maps only. -/
theorem changeMap_drop_reg (s : State) (d : Nat) {off : Nat} (h : off < 0x400) : (s.changeMap (.drop d)).reg off = s.reg off := by
  rw [State.changeMap]
  split
  · rw [State.applyChange, State.dropWeight]
    split
    · exact reg_setReg_other _ _ (by omega)
    · rfl
  · rfl

theorem linkDown_fences {s : State} {die : Nat} (hfailed : 16 ≤ (s.die die).replays ∨ 16 ≤ (s.die die).replaysIn)
    (hst : (s.die die).state ≠ .resetting) (hphase : 5 ≤ s.phase) :
    ∃ u, exec (.linkDown die false) s = .next u ∧ (u.die die).state = .fenced ∧ (u.die die).linkUp = false
      ∧ (u.die die).op = 1 ∧ (u.die die).save = false := by
  let discarded := (s.resident die).foldl (fun s g => s.discardGroup g 8 .lost) s
  let fenced := discarded.setDie die { discarded.die die with
    state := .fenced, op := 1, save := false, linkUp := false, linkLoss := (s.die die).linkLoss || false }
  have hcond : ((s.die die).replays < 16 && (s.die die).replaysIn < 16 || (s.die die).state == .resetting) = false := by
    rw [Bool.or_eq_false_iff]
    refine ⟨?_, by simpa using hst⟩
    rcases hfailed with h | h
    · simp [Nat.not_lt.2 h]
    · simp [Nat.not_lt.2 h]
  have hexec : exec (.linkDown die false) s = .next ((fenced.changeMap (.drop die)).moduleError 2 die) := by
    rw [exec_linkDown, execLinkDown]
    exact if_neg (by rw [hcond]; exact Bool.false_ne_true)
  have hdiscard : s.KeepsRegs discarded := .foldl _ _ fun t g => keepsRegs_discardGroup t g 8 .lost
  have hphase' : 5 ≤ (fenced.changeMap (.drop die)).phase := by
    rw [State.phase, changeMap_drop_reg _ _ (by omega)]
    exact hphase.trans_eq (congrArg (fun w : Word => nfld w 0 4) (hdiscard 8 (by omega))).symm
  obtain ⟨former, hdie⟩ := changeMap_drop_die fenced die
  have hx : ((fenced.changeMap (.drop die)).moduleError 2 die).die die = { fenced.die die with former := former } := by
    rw [moduleError_eq hphase']
    exact hdie
  have hfenced : fenced.die die = { discarded.die die with
    state := .fenced, op := 1, save := false, linkUp := false, linkLoss := (s.die die).linkLoss || false } := die_setDie_same _ _ _
  rw [hfenced] at hx
  refine ⟨_, hexec, ?_, ?_, ?_, ?_⟩
  · rw [hx]
  · rw [hx]
  · rw [hx]
  · rw [hx]

/-- Settles O55: an order by the state of its die, each step of a sequence by the branch of its definition; discarding the groups
of a die whose link fails leaves the start's phase as it is. -/
theorem diesPassTheirSequence : Obligations.DiesPassTheirSequence := by
  intro s t who die code p w save x s' resets
  refine ⟨fun howned hdie => ⟨fun hst => ⟨?_, ?_⟩, fun hst => ⟨?_, ?_⟩, fun hst => ⟨?_, ?_⟩, fun hsave => ⟨fun hst => ?_, fun hst => ?_,
    fun hst => ?_⟩⟩, ⟨drain_now, drain_later⟩, fun _ => linkQuiesce_waits, linkQuiesce_empty, linkQuiesce_busy, rfl, dieResetDone_fenced,
    dieResetDone_resetting, bistDone_tested, dieResetDone_ready, admitDie_restores, linkDown_fences⟩
  · rw [warmReset_owned howned hdie]
    exact congrArg _ (dieOp_live (s := s' 1) hst).1
  · rw [fenceOnly_owned howned hdie]
    exact congrArg _ (dieOp_live (s := s' 2) hst).2.1
  · rw [warmReset_owned howned hdie]
    exact congrArg _ (dieOp_idle (s := s' 1) hst).1
  · rw [fenceOnly_owned howned hdie]
    exact congrArg _ (dieOp_idle (s := s' 2) hst).2
  · rw [warmReset_owned howned hdie]
    exact congrArg _ (dieOp_busy (s := s' 1) hst)
  · rw [fenceOnly_owned howned hdie]
    exact congrArg _ (dieOp_busy (s := s' 2) hst)
  · rw [readmit_owned howned hdie hsave]
    exact congrArg _ (dieOp_readmits (s := s' 3) hst)
  · rw [readmit_owned howned hdie hsave]
    exact congrArg _ (dieOp_ready (s := s' 3) hst)
  · rw [readmit_owned howned hdie hsave]
    rcases hst with hst | hst
    · exact congrArg _ (dieOp_live (s := s' 3) hst).2.2
    · exact congrArg _ (dieOp_busy (s := s' 3) hst)

end Sys2Proof.Machine
end

section
/-! PROOFS. The dispatcher: rounds, records, queues, pre-emption and retirement (R188 to R202, R250, logs 4 and 65). -/

namespace Sys2Proof.Machine

/-! ### Rounds (log 4) -/

section Round
variable {s : State}

/-- In a step of the round the turn comes from the round. -/
theorem chosen_fair (hturn : s.turn = none) (hfair : (s.steps + 1) % (Config.patience + 2) = 0) :
    s.chosen = ({ s with steps := s.steps + 1 } : State).fairTurn s.candidates := by
  rw [State.chosen, hturn]
  exact if_pos (beq_iff_eq.2 hfair)

theorem fairTurn_head {own : List Act} {x : Act} {rest : List Act} (hround : s.round = x :: rest) (hx : x ∈ own) :
    s.fairTurn own = (some x, { s with round := rest }) := by
  rw [State.fairTurn, hround, List.dropWhile_cons_of_neg (by simpa using hx)]

theorem nextInput_round (s : State) : s.nextInput.2.round = s.round := by
  unfold State.nextInput
  split
  · rfl
  · rfl
  · rfl

theorem fairTurn_new {own : List Act} (hround : s.round = []) :
    (s.fairTurn own).2.round = own.filter (fun a => !a.optional) := by
  rw [State.fairTurn, hround]
  exact nextInput_round _

end Round

/-! ### The taking of a record (R188, R190, R192) -/

section Taking
variable {s s1 s2 t : State} {win : Nat} {k : Taking}

theorem copyStep_bounds (s : State) (at_ : Nat) {left : Nat} (h : 0 < left) :
    1 ≤ s.copyStep at_ left ∧ s.copyStep at_ left ≤ left := by
  rw [State.copyStep]
  omega

theorem goWord_reads {go : List Byte} (hnone : s.taking.get? win = none) (hwin : win < 24) (hon : s.winOn win = true)
    (hopen : s.closed = false) (hheld : s.mapHeld = false)
    (hread : s.engineRead (hbmLoc (s.slotAddr win (s.expected win) + 248)) 8 = (some go, s1)) :
    (nfld (leWord go) 0 32 ≠ s.expected win % 2 ^ 32 → exec (.goWord win) s = .next s1)
      ∧ (nfld (leWord go) 0 32 = s.expected win % 2 ^ 32 → exec (.goWord win) s = .next
        ({ s1 with taking := s1.taking.put win (Taking.begin_ (s.slotAddr win (s.expected win)) (s.expected win % 2 ^ 32)
            (leWord go) none) } : State)) := by
  have hgo : exec (.goWord win) s = .next (s.readGo win) := by rw [exec_goWord, execGoWord, hnone]
  rw [hgo, State.readGo, if_neg (by simp [hwin, hon, hopen, hheld])]
  dsimp only
  rw [hread]
  exact ⟨fun h => congrArg _ (if_pos h), fun h => congrArg _ (if_neg fun hn => hn h)⟩

variable (hk : s.taking.get? win = some k)
include hk

theorem goWord_goes_on : exec (.goWord win) s = .next (s.takeOn win k) := by rw [exec_goWord, execGoWord, hk]

theorem goWord_closed (hclosed : s.closed = true) : exec (.goWord win) s = .next (s.endTaking win) := by
  rw [goWord_goes_on hk, State.takeOn, if_pos hclosed]

variable (hopen : s.closed = false)
include hopen

theorem goWord_copies (hlen : k.bytes.length < 248) : ∃ n, 1 ≤ n ∧ k.bytes.length + n ≤ 248 ∧ ∀ bs,
    s.engineRead (hbmLoc (k.slot + k.bytes.length)) n = (some bs, s1) →
      exec (.goWord win) s = .next (s1.keepTaking win { k with bytes := k.bytes ++ bs }) := by
  obtain ⟨hpos, hmax⟩ := copyStep_bounds s k.bytes.length (left := 248 - k.bytes.length) (by omega)
  refine ⟨_, hpos, by omega, fun bs hread => ?_⟩
  rw [goWord_goes_on hk, State.takeOn, if_neg (by simp [hopen]), if_pos hlen, hread]

theorem goWord_advances (hlen : 248 ≤ k.bytes.length) (hadv : k.advanced = false) :
    exec (.goWord win) s = .next ((s.keepTaking win { k with advanced := true }).advance win) := by
  rw [goWord_goes_on hk, State.takeOn, if_neg (by simp [hopen]), if_neg (by omega), if_pos (by simp [hadv])]

/-- The record that is examined, with the bytes of its context entry (R190). -/
def State.examined (s : State) (win : Nat) (k : Taking) : Launch :=
  { Launch.of win k.seq s.time (dwordsOf k.bytes) with ctx := dwordsOf k.ctx }

variable (hlen : 248 ≤ k.bytes.length) (hadv : k.advanced = true)
include hlen hadv

theorem goWord_held {h : Nat} (hhalf : s.dispatchHalf (sectorOf k.slot) (s.examined win k).xlate
    ((s.examined win k).walks k.ctx k.hdr) = some h) : exec (.goWord win) s = .next (s.backInvalidate h false) := by
  rw [State.examined] at hhalf
  rw [goWord_goes_on hk, State.takeOn, if_neg (by simp [hopen]), if_neg (by omega), if_neg (by simp [hadv])]
  dsimp only
  rw [hhalf]

variable (hhalf : s.dispatchHalf (sectorOf k.slot) (s.examined win k).xlate ((s.examined win k).walks k.ctx k.hdr) = none)
include hhalf

theorem goWord_entry {addr : Nat} {bs : List Byte}
    (hneeds : s.needs (s.examined win k) (sectorOf k.slot) (nfld k.go 32 32) k.ctx k.hdr = .entry addr)
    (hread : s.engineRead (hbmLoc addr) 32 = (some bs, s1)) :
    exec (.goWord win) s = .next (s1.keepTaking win { k with ctx := bs }) := by
  rw [State.examined] at hhalf hneeds
  rw [goWord_goes_on hk, State.takeOn, if_neg (by simp [hopen]), if_neg (by omega), if_neg (by simp [hadv])]
  dsimp only
  rw [hhalf]
  dsimp only
  rw [hneeds]
  dsimp only
  rw [hread]

theorem goWord_header {loc : Loc}
    (hneeds : s.needs (s.examined win k) (sectorOf k.slot) (nfld k.go 32 32) k.ctx k.hdr = .header loc)
    (hhdr : k.hdr.length < 64) : ∃ n, 1 ≤ n ∧ k.hdr.length + n ≤ 64 ∧ ∀ bs,
      s.engineRead { loc with addr := loc.addr + k.hdr.length } n = (some bs, s1) → exec (.goWord win) s = .next
        ((if k.hdr = [] then s1.countDispatch (sectorOf k.slot) (s.examined win k).xlate ((s.examined win k).walks k.ctx k.hdr)
          else s1).keepTaking win { k with hdr := k.hdr ++ bs }) := by
  obtain ⟨hpos, hmax⟩ := copyStep_bounds s k.hdr.length (left := 64 - k.hdr.length) (by omega)
  refine ⟨_, hpos, by omega, fun bs hread => ?_⟩
  rw [State.examined] at hhalf hneeds
  rw [goWord_goes_on hk, State.takeOn, if_neg (by simp [hopen]), if_neg (by omega), if_neg (by simp [hadv])]
  dsimp only
  rw [hhalf]
  dsimp only
  rw [hneeds]
  dsimp only
  rw [hread]
  dsimp only
  rw [if_congr List.isEmpty_iff rfl rfl]
  rfl

theorem goWord_judges {code : Nat} {l : Launch}
    (hneeds : s.needs (s.examined win k) (sectorOf k.slot) (nfld k.go 32 32) k.ctx k.hdr = .verdict code l)
    (hwrite : s.engineWrite (hbmLoc (k.slot + 240)) (natLe 8 (launchStatus code k.seq).toNat) = (some t, s2)) :
    exec (.goWord win) s = .next ((((if code = 0 then t.accept l (sectorOf k.slot) else t).countDispatch (sectorOf k.slot)
      (s.examined win k).xlate ((s.examined win k).walks k.ctx k.hdr)).tellLaunch (launchStatus code k.seq) k.whose).endTaking win) := by
  have hconclude : s.conclude k code l
      = (some (launchStatus code k.seq, if code = 0 then t.accept l (sectorOf k.slot) else t), s) := by
    simp only [State.conclude, hwrite]
  rw [State.examined] at hhalf hneeds
  rw [goWord_goes_on hk, State.takeOn, if_neg (by simp [hopen]), if_neg (by omega), if_neg (by simp [hadv])]
  dsimp only
  rw [hhalf]
  dsimp only
  rw [hneeds]
  dsimp only
  rw [hconclude]
  rfl

end Taking

/-! ### Queues (R194, log 65) -/

section Queues
variable {s : State} {die : Nat}

/-- The launch of a list that started first, under a measure. -/
theorem foldl_least (f : Nat → Nat) (l : List Nat) (b : Nat) :
    let first := l.foldl (fun b n => if f n < f b then n else b) b
    (first = b ∨ first ∈ l) ∧ f first ≤ f b ∧ ∀ n ∈ l, f first ≤ f n := by
  induction l generalizing b with
  | nil => exact ⟨.inl rfl, le_rfl, nofun⟩
  | cons x l ih =>
    intro first
    by_cases h : f x < f b
    · obtain ⟨hmem, hle, hall⟩ := ih x
      have hfirst : first = l.foldl (fun b n => if f n < f b then n else b) x := congrArg (l.foldl _) (if_pos h)
      rw [hfirst]
      exact ⟨.inr (hmem.elim (fun h => by rw [h]; exact List.mem_cons_self) fun h => List.mem_cons_of_mem _ h), by omega,
        List.forall_mem_cons.2 ⟨hle, hall⟩⟩
    · obtain ⟨hmem, hle, hall⟩ := ih b
      have hfirst : first = l.foldl (fun b n => if f n < f b then n else b) b := congrArg (l.foldl _) (if_neg h)
      rw [hfirst]
      exact ⟨hmem.imp_right fun h => List.mem_cons_of_mem _ h, hle, List.forall_mem_cons.2 ⟨by omega, hall⟩⟩

/-- When the launch `n` started, as the segments compare it (log 65). -/
def State.startOf (s : State) (n : Nat) : Nat := ((s.launches.get? n).map Launch.stamp).getD 0

theorem startOf_of {n : Nat} {x : Launch} (h : s.launches.get? n = some x) : s.startOf n = x.stamp := by
  rw [State.startOf, h]
  rfl

/-- A segment takes the groups of a launch that is to join its die, in a step of the round those of the one that started first. -/
theorem joinNext_joins (h : s.toJoin die ≠ []) : ∃ lid ∈ s.toJoin die,
    s.joinNext die = ({ s with tick := s.tick + 1 } : State).joinLaunch lid die
    ∧ (s.fairStep = true → ∀ n ∈ s.toJoin die, s.startOf lid ≤ s.startOf n) := by
  obtain ⟨head, tail, hready⟩ := List.exists_cons_of_ne_nil h
  have hjoin : s.joinNext die = ({ s with tick := s.tick + 1 } : State).joinLaunch
      (if s.fairStep then (s.toJoin die).foldl (fun b n => if s.startOf n < s.startOf b then n else b) ((s.toJoin die).headD 0)
        else (s.toJoin die).getD (Config.pick s.tick % (s.toJoin die).length) 0) die := by
    rw [State.joinNext, hready]
    rfl
  refine ⟨_, ?_, hjoin, ?_⟩
  · split
    · obtain ⟨hmem, -, -⟩ := foldl_least s.startOf (s.toJoin die) ((s.toJoin die).headD 0)
      rcases hmem with hmem | hmem
      · rw [hmem, hready]
        exact List.mem_cons_self
      · exact hmem
    · have hlt : Config.pick s.tick % (s.toJoin die).length < (s.toJoin die).length :=
        Nat.mod_lt _ (by rw [hready]; exact Nat.succ_pos _)
      rw [List.getD_eq_getElem _ _ hlt]
      exact List.getElem_mem hlt
  · intro hfair
    obtain ⟨-, -, hall⟩ := foldl_least s.startOf (s.toJoin die) ((s.toJoin die).headD 0)
    rw [if_pos hfair]
    exact hall

theorem groupPlace_joins (h : s.toJoin die ≠ []) :
    (((s.joinNext die).die die).op = 0 → ((s.joinNext die).die die).state ≠ .live →
      exec (.groupPlace die) s = .next ((s.joinNext die).loseQueued die))
    ∧ (((s.joinNext die).die die).op ≠ 0 ∨ ((s.joinNext die).die die).state = .live →
      exec (.groupPlace die) s = .next ((s.joinNext die).placeHead die)) := by
  have hempty : (s.toJoin die).isEmpty = false := List.isEmpty_eq_false_iff.2 h
  refine ⟨fun hop hst => ?_, fun hor => ?_⟩
  · rw [exec_groupPlace, execGroupPlace]
    exact congrArg _ (if_neg (by simp [hempty, State.dieIdle, hop, hst]))
  · rw [exec_groupPlace, execGroupPlace]
    refine congrArg _ (if_pos ?_)
    rcases hor with hop | hst
    · simp [State.dieIdle, hop]
    · simp [hst]

theorem groupPlace_places {gid x0 y0 : Nat} {g : Group} {l : Launch} (h : s.toJoin die = []) (hlive : (s.die die).state = .live)
    (hhead : s.headOf die = some (gid, g)) (hl : s.launchOf g = some l) (hfit : s.fit die l = some (x0, y0)) :
    exec (.groupPlace die) s = .next (State.requeued s
      (if g.state = .saved then s.resumeGroup gid g l x0 y0 else s.placeGroup gid g l x0 y0)) := by
  have hjoin : s.joinNext die = s := by rw [State.joinNext, h]
  have hplace : exec (.groupPlace die) s = .next (s.placeHead die) := by
    rw [exec_groupPlace, execGroupPlace, hjoin, h]
    rfl
  rw [hplace, State.placeHead, if_neg (by simp [hlive]), hhead]
  dsimp only
  rw [hl]
  dsimp only
  rw [hfit]

theorem ageingPeriod_ages {lid : Nat} {l : Launch} (hl : s.launches.get? lid = some l) (hstart : l.started = true)
    (hret : l.retired = false) (hwait : s.anyWaiting lid = true)
    (hdue : l.agedAt + 2 ^ nfld (s.reg 0x68) 0 3 * 2000000 ≤ s.time) :
    exec (.ageingPeriod lid) s = .next (State.requeued s { s with launches := s.launches.put lid { l with
      ages := l.ages + 1, agedAt := l.agedAt + 2 ^ nfld (s.reg 0x68) 0 3 * 2000000 } }) := by
  rw [exec_ageingPeriod, execAgeingPeriod, hl]
  dsimp only [msUnits]
  rw [if_pos (by rw [hstart, hret, hwait, decide_eq_true hdue]; rfl)]

theorem preemptTimer_preempts {gid : Nat} {g : Group} {l : Launch} {vs : List Nat} {t : State}
    (hlive : (s.die die).state = .live) (hhead : s.headOf die = some (gid, g)) (hl : s.launchOf g = some l)
    (hsince : g.since + 100000 ≤ s.time) (hfit : s.fit die l = none) (hstop : ∀ e ∈ s.running die, e.2.1.stopping = false)
    (hvs : s.victims die g l = some vs) :
    (s.preemptAll vs = some t → exec (.preemptTimer die) s = .next t)
      ∧ (s.preemptAll vs = none → exec (.preemptTimer die) s = .next (vs.foldl State.stopFetch s)) := by
  have hany : (s.running die).any (fun e => e.2.1.stopping) = false :=
    List.any_eq_false.2 fun e he => by rw [hstop e he]; exact Bool.false_ne_true
  have htime : ¬s.time < g.since + 50 * usUnits := Nat.not_lt.2 hsince
  have htimer : exec (.preemptTimer die) s = .next ((s.preemptAll vs).getD (vs.foldl State.stopFetch s)) := by
    rw [exec_preemptTimer, execPreemptTimer, hhead]
    dsimp only
    rw [hl]
    dsimp only
    rw [if_neg (by rw [hany, hfit, hlive, decide_eq_false htime]; exact Bool.false_ne_true), hvs]
  rw [htimer]
  exact ⟨fun h => by rw [h]; rfl, fun h => by rw [h]; rfl⟩

end Queues

/-! ### Retirement and cancelling (R198, R202) -/

section Report
variable {s t w : State} {lid die : Nat} {l : Launch}

theorem segmentReport_retires (hl : s.launches.get? lid = some l) (hcancel : l.cancel = none) (hjoin : l.joining = [])
    (hstrag : s.straggles lid = false) (hstart : l.started = true) (hret : l.retired = false)
    (hhalt : ∀ e ∈ s.groupsOf lid, e.2.state = .halted ∧ (e.2.die = die ∨ e.2.die ∈ l.reported))
    (hhere : l.groupCount = 0 ∨ ∃ e ∈ s.groupsOf lid, e.2.die = die) :
    let l' := { l with reported := if l.reported.contains die then l.reported else l.reported ++ [die] }
    ({ s with launches := s.launches.put lid l' } : State).retire lid l' true none = (some t, w) →
      exec (.segmentReport lid die) s = .next t := by
  intro l' hretire
  have hreported (d : Nat) (h : d = die ∨ d ∈ l.reported) : l'.reported.contains d = true := by
    rw [List.contains_iff_mem]
    by_cases hd : l.reported.contains die = true
    · have hr : l'.reported = l.reported := if_pos hd
      rw [hr]
      exact h.elim (fun h => h ▸ List.contains_iff_mem.1 hd) id
    · have hr : l'.reported = l.reported ++ [die] := if_neg hd
      rw [hr, List.mem_append, List.mem_singleton]
      exact h.symm
  have hrunning : ((s.groupsOf lid).filter (fun e => e.2.die == die)).any (fun e => e.2.state != .halted) = false :=
    List.any_eq_false.2 fun e he => by simp [(hhalt e (List.mem_filter.1 he).1).1]
  have hsome : (((s.groupsOf lid).filter (fun e => e.2.die == die)).isEmpty && l.groupCount != 0) = false := by
    rcases hhere with h | ⟨e, he, hd⟩
    · simp [h]
    · have hne : (s.groupsOf lid).filter (fun e => e.2.die == die) ≠ [] :=
        List.ne_nil_of_mem (List.mem_filter.2 ⟨he, beq_iff_eq.2 hd⟩)
      rw [List.isEmpty_eq_false_iff.2 hne, Bool.false_and]
  have hall : (s.groupsOf lid).all (fun e => e.2.state == .halted && l'.reported.contains e.2.die) = true :=
    List.all_eq_true.2 fun e he => Bool.and_eq_true_iff.2
      ⟨beq_iff_eq.2 (hhalt e he).1, hreported _ (hhalt e he).2⟩
  rw [exec_segmentReport, execSegmentReport, hl]
  dsimp only
  rw [hcancel, if_neg (by rw [Option.isSome_none, Bool.false_and]; exact Bool.false_ne_true),
    if_neg (by rw [hstart, hret, hjoin, hrunning, hsome]; exact Bool.false_ne_true)]
  refine (if_pos ?_).trans ?_
  · rw [hjoin, List.isEmpty_nil, Bool.true_and]
    exact Bool.and_eq_true_iff.2 ⟨by rw [Bool.not_eq_true']; exact hstrag, hall⟩
  · dsimp only [l'] at hretire
    rw [hcancel] at hretire
    rw [hretire]

variable {sig : Bool} (hl : s.launches.get? lid = some l) (hcancel : l.cancel = some sig) (hret : l.retired = false)
include hl hcancel hret

theorem segmentReport_cancels : exec (.segmentReport lid die) s = .next (s.cancelOn lid l sig) := by
  rw [exec_segmentReport, execSegmentReport, hl]
  dsimp only
  rw [if_pos (by simp [hcancel, hret]), hcancel]
  cases sig <;> rfl

theorem segmentReport_discards {gid : Nat} {g : Group}
    (hfind : (s.groupsOf lid).find? (fun e => e.2.state != .halted) = some (gid, g)) :
    (s.endGroup gid 3 .halted = some t → exec (.segmentReport lid die) s = .next (State.requeued s t))
      ∧ (s.endGroup gid 3 .halted = none → exec (.segmentReport lid die) s = .next (s.stopFetch gid)) := by
  rw [segmentReport_cancels hl hcancel hret, State.cancelOn, hfind]
  dsimp only
  exact ⟨fun h => by rw [h]; rfl, fun h => by rw [h]; rfl⟩

theorem segmentReport_ends (hall : ∀ e ∈ s.groupsOf lid, e.2.state = .halted)
    (hretire : s.retire lid l sig (some (BitVec.allOnes 64)) = (some t, w)) :
    exec (.segmentReport lid die) s = .next (State.requeued s (t.clearGo lid)) := by
  have hnone : (s.groupsOf lid).find? (fun e => e.2.state != .halted) = none :=
    List.find?_eq_none.2 fun e he => by simp [hall e he]
  rw [segmentReport_cancels hl hcancel hret, State.cancelOn, hnone]
  dsimp only
  rw [hretire]

end Report

/-- Settles O50: the turn of a round, the taking of a record step by step, and each event of the queues by the branch of its
definition; the launch that joins first is the least of a fold. -/
theorem dispatcherTakesPlacesAndReports : Obligations.DispatcherTakesPlacesAndReports := by
  intro s s1 s2 t w win die lid gid x0 y0 go st l g vs k sig addr code loc l' new done
  refine ⟨fun hturn hfair => ⟨fun x rest hround hx => ?_, fun hround x hx hopt => ?_⟩, goWord_reads, fun hk => goWord_closed hk,
    fun hk hopen => ⟨goWord_copies hk hopen, goWord_advances hk hopen, fun hlen hadv h hhalf => goWord_held hk hopen hlen hadv hhalf,
      fun hlen hadv hhalf => ⟨fun hneeds bs => goWord_entry hk hopen hlen hadv hhalf hneeds,
        goWord_header hk hopen hlen hadv hhalf, goWord_judges hk hopen hlen hadv hhalf⟩⟩,
    fun hjoin => ?_, fun hjoin hlive hhead hl hfit => ⟨fun hst => ?_, fun hst => ?_⟩, ageingPeriod_ages, preemptTimer_preempts,
    segmentReport_retires, fun hl hcancel hret => ⟨fun hfind => (segmentReport_discards hl hcancel hret hfind).1,
      fun hfind => (segmentReport_discards (t := t) hl hcancel hret hfind).2, segmentReport_ends hl hcancel hret⟩⟩
  · rw [chosen_fair hturn hfair, fairTurn_head (s := { s with steps := s.steps + 1 }) hround hx]
    exact ⟨rfl, rfl⟩
  · rw [chosen_fair hturn hfair, fairTurn_new (s := { s with steps := s.steps + 1 }) hround]
    exact List.mem_filter.2 ⟨hx, by rw [hopt]; rfl⟩
  · obtain ⟨lid, hlid, hnext, hfirst⟩ := joinNext_joins hjoin
    obtain ⟨hlose, hplace⟩ := groupPlace_joins hjoin
    rw [hnext] at hlose hplace
    refine ⟨lid, hlid, hlose, hplace, fun hfair n hn x y hx hy => ?_⟩
    have := hfirst (beq_iff_eq.2 hfair) n hn
    rwa [startOf_of hx, startOf_of hy] at this
  · rw [groupPlace_places hjoin hlive hhead hl hfit, if_pos hst]
  · rw [groupPlace_places hjoin hlive hhead hl hfit, if_neg hst]

end Sys2Proof.Machine
end

section
/-! PROOFS. The copy engine and status words (R216, R221 to R232, R273, R319). -/

namespace Sys2Proof.Machine

/-! ### Events of the copy engine -/

section Engine
variable {s t : State} {cell cmd len : Nat} {k : CopyCmd} {d : Desc} {c : Ctx}

theorem copyStart_reads (h : s.readNext cell = some t) : exec (.copyStart cell) s = .next t := by
  rw [exec_copyStart, execCopyStart, h]

theorem copyStart_starts (h : s.readNext cell = none) (hfew : ((s.cell cell).copies.filter (fun k => k.started)).length < 4)
    (hfind : (s.cell cell).copies.find? (fun k => k.kind != .init && k.desc.isSome && !k.started
      && ((k.stop.isSome && k.kind != .copyQ) || !s.copyHeld cell k)) = some k) :
    exec (.copyStart cell) s = .next (s.setCopy cell { k with started := true }) := by
  rw [exec_copyStart, execCopyStart, h]
  dsimp only
  rw [if_neg (by omega), hfind]

section Beat
variable (hk : s.copy? cell cmd = some k) (hd : k.desc = some d) (hc : s.engineCtx k.fid k.xl = some c)
  (hstart : k.started = true) (hstop : k.stop = none)
include hk hd hc hstart hstop

theorem copyBeat_marks (hdue : k.markDue = true) : exec (.copyBeat cell cmd len) s = .next (s.emitMark cell k d) := by
  rw [exec_copyBeat, execCopyBeat, hk]
  dsimp only
  rw [hd, hc]
  dsimp only
  rw [if_neg (by simp [hstart, hstop]), if_pos hdue]

/-- A beat that owes no mark reads ahead when bytes of the run are left and it holds none or the machine chooses so, and else
lands what it holds. -/
theorem copyBeat_moves (hdue : k.markDue = false) (hpos : k.pos < d.total) : exec (.copyBeat cell cmd len) s = .next
    (let more := k.pos + k.buf.length < d.total && !s.runWaits cell k d
     if k.buf.isEmpty && !more then s.toss.2
     else if k.buf.isEmpty || (s.toss.1 && more) then s.toss.2.copyRead cell len k d c
     else s.toss.2.copyLand cell len k d c) := by
  rw [exec_copyBeat, execCopyBeat, hk]
  dsimp only
  rw [hd, hc]
  dsimp only
  rw [if_neg (by simp [hstart, hstop]), if_neg (by simp [hdue]), if_neg (by omega), apply_ite Host.Outcome.next,
    apply_ite Host.Outcome.next]
  rfl

theorem copyBeat_reads (hdue : k.markDue = false) (hpos : k.pos < d.total) (hbuf : k.buf = [])
    (hwaits : s.runWaits cell k d = false) : exec (.copyBeat cell cmd len) s = .next (s.toss.2.copyRead cell len k d c) := by
  rw [copyBeat_moves hk hd hc hstart hstop hdue hpos]
  dsimp only
  rw [if_neg (by simp [hbuf, hpos, hwaits]), if_pos (by simp [hbuf])]

theorem copyBeat_lands (hdue : k.markDue = false) (hpos : k.pos < d.total) (hbuf : k.buf ≠ [])
    (hfull : d.total ≤ k.pos + k.buf.length ∨ s.runWaits cell k d = true) :
    exec (.copyBeat cell cmd len) s = .next (s.toss.2.copyLand cell len k d c) := by
  have hmore : (k.pos + k.buf.length < d.total && !s.runWaits cell k d) = false := by
    rcases hfull with h | h
    · simp [Nat.not_lt.2 h]
    · simp [h]
  rw [copyBeat_moves hk hd hc hstart hstop hdue hpos]
  dsimp only
  rw [hmore, if_neg (by simp [hbuf]), if_neg (by simp [hbuf])]

end Beat

section Finish
variable (hk : s.copy? cell cmd = some k) (hd : k.desc = some d) (hstart : k.started = true) (hpaid : k.paid d = true)
include hk hd hstart hpaid

theorem copyFinish_done (hstop : k.stop = none) (hpos : d.total ≤ k.pos) (hdue : k.markDue = false) :
    exec (.copyFinish cell cmd) s = .next
      (((s.dropCopy cell cmd).writeStatus k.fid k.sreg (statusWord 0 k.pos)).haltOf k.fid) := by
  have hfinish : s.finishCopy cell cmd = (s.dropCopy cell cmd).writeStatus k.fid k.sreg (statusWord 0 k.pos) := by
    rw [State.finishCopy, hk]
    dsimp only
    rw [hd, hstop]
    exact if_pos (by simp [hstart, hpos, hdue, hpaid])
  rw [exec_copyFinish, execCopyFinish, hk]
  exact congrArg (fun u : State => Host.Outcome.next (u.haltOf k.fid)) hfinish

theorem copyFinish_stopped {e : Nat} (hstop : k.stop = some e) : exec (.copyFinish cell cmd) s = .next
    (((s.dropCopy cell cmd).writeStatus k.fid k.sreg (statusWord e k.pos)).haltOf k.fid) := by
  have hfinish : s.finishCopy cell cmd = (s.dropCopy cell cmd).writeStatus k.fid k.sreg (statusWord e k.pos) := by
    rw [State.finishCopy, hk]
    dsimp only
    rw [hd, hstop]
    exact if_pos (by simp [hstart, hpaid])
  rw [exec_copyFinish, execCopyFinish, hk]
  exact congrArg (fun u : State => Host.Outcome.next (u.haltOf k.fid)) hfinish

end Finish

/-- `bbar.init` sets EXPECT and ARRIVED, and the additions and waits of later commands follow (R231). -/
theorem bbarInitPerform_sets (hk : s.copy? cell cmd = some k) (hkind : k.kind = .init)
    (hfirst : ∀ x ∈ (s.cell cell).copies, x.id < k.id →
      (x.kind = .init ∨ x.desc.isSome = true) ∧ x.barrier cell ≠ some (barrierAt cell k.addr)) :
    exec (.bbarInitPerform cell cmd) s = .next (((((s.dropCopy cell cmd).putCell (barrierAt cell k.addr)
      (natLe 8 k.expect.toNat ++ natLe 8 0)).payAll cell (barrierAt cell k.addr)).testWaits cell).haltOf k.fid) := by
  have hall : ((s.cell cell).copies.filter (fun x => x.id < k.id)).all
      (fun x => (x.kind == .init || x.desc.isSome) && x.barrier cell != some (barrierAt cell k.addr)) = true := by
    refine List.all_eq_true.2 fun x hx => ?_
    obtain ⟨hmem, hlt⟩ := List.mem_filter.1 hx
    obtain ⟨hknown, hother⟩ := hfirst x hmem (of_decide_eq_true hlt)
    refine Bool.and_eq_true_iff.2 ⟨?_, bne_iff_ne.2 hother⟩
    rcases hknown with h | h
    · rw [h]; rfl
    · rw [h, Bool.or_true]
  have hperform : s.performInit cell cmd = ((((s.dropCopy cell cmd).putCell (barrierAt cell k.addr)
      (natLe 8 k.expect.toNat ++ natLe 8 0)).payAll cell (barrierAt cell k.addr)).testWaits cell) := by
    rw [State.performInit, hk]
    exact if_pos ⟨hkind, hall⟩
  rw [exec_bbarInitPerform, execBbarInitPerform, hk]
  exact congrArg (fun u : State => Host.Outcome.next (u.haltOf k.fid)) hperform

/-- A change of a cell's engines and node changes no byte. -/
theorem sameBytes_setCell (s : State) (cell : Nat) (x : CellSt) : s.SameBytes (s.setCell cell x) :=
  ⟨fun _ _ => rfl, fun _ => rfl, fun _ => rfl, fun _ => rfl⟩

theorem State.SameBytes.trans {s t u : State} (h : s.SameBytes t) (k : t.SameBytes u) : s.SameBytes u := by
  obtain ⟨hmem, hcell, htag, hhalf⟩ := h
  obtain ⟨kmem, kcell, ktag, khalf⟩ := k
  exact ⟨fun a key => (kmem a key).trans (hmem a key), fun a => (kcell a).trans (hcell a), fun a => (ktag a).trans (htag a),
    fun h => (khalf h).trans (hhalf h)⟩

theorem node_setCopy (s : State) (cell : Nat) (k : CopyCmd) : ((s.setCopy cell k).cell cell).node = (s.cell cell).node := by
  rw [State.setCopy, cell_setCell_same]

theorem markTake_takes {m : Mark} {rest : List Mark} (h : (s.cell cell).node.marks = m :: rest) :
    ∃ t, exec (.markTake cell) s = .next t ∧ (t.cell cell).node.marks = rest ∧ t.fibres = s.fibres ∧ s.SameBytes t := by
  obtain ⟨taken, hdef⟩ : ∃ u, s.setCell cell { s.cell cell with node := { (s.cell cell).node with marks := rest } } = u := ⟨_, rfl⟩
  have htaken : (taken.cell cell).node.marks = rest := by rw [← hdef, cell_setCell_same]
  have hbytes : s.SameBytes taken := hdef ▸ sameBytes_setCell s cell _
  have hfibres : taken.fibres = s.fibres := hdef ▸ rfl
  have hexec : exec (.markTake cell) s
      = .next ((taken.copy? cell m.cmd).elim taken fun k => taken.setCopy cell { k with told := max k.told m.pos }) := by
    rw [exec_markTake, execMarkTake]
    dsimp only
    rw [h]
    dsimp only
    rw [hdef]
    cases taken.copy? cell m.cmd with
    | none => rfl
    | some k => rfl
  refine ⟨_, hexec, ?_⟩
  cases taken.copy? cell m.cmd with
  | none => exact ⟨htaken, hfibres, hbytes⟩
  | some k => exact ⟨(congrArg Node.marks (node_setCopy taken cell _)).trans htaken, hfibres, hbytes.trans (sameBytes_setCell taken cell _)⟩

end Engine

/-! ### Status words (R227, R273) -/

theorem statusWord_toNat (cause bytes : Nat) :
    (statusWord cause bytes).toNat = 1 + (if cause = 0 then 0 else 2) + cause % 256 * 256 + bytes % 2 ^ 48 * 65536 := by
  rw [statusWord, BitVec.toNat_ofNat, Nat.mod_eq_of_lt]
  split <;> omega

theorem statusWord_fields (cause bytes : Nat) : (statusWord cause bytes).getLsbD 0 = true
    ∧ ((statusWord cause bytes).getLsbD 1 = true ↔ cause ≠ 0)
    ∧ nfld (statusWord cause bytes) 8 8 = cause % 256 ∧ nfld (statusWord cause bytes) 16 48 = bytes % 2 ^ 48 := by
  refine ⟨?_, ?_, ?_, ?_⟩
  · rw [BitVec.getLsbD, statusWord_toNat, Nat.testBit_zero, decide_eq_true_eq]
    split <;> omega
  · rw [BitVec.getLsbD, statusWord_toNat, Nat.testBit_eq_decide_div_mod_eq, decide_eq_true_eq]
    by_cases h : cause = 0
    · rw [if_pos h]
      omega
    · rw [if_neg h]
      omega
  · rw [nfld_eq, statusWord_toNat]
    split <;> omega
  · rw [nfld_eq, statusWord_toNat]
    split <;> omega

/-- The pending bit that a status word clears (R227). -/
theorem getLsbD_clearBit (x : Word) {i n : Nat} (hn : n < 64) :
    (x &&& ~~~((1 : BitVec 64) <<< i)).getLsbD n = (x.getLsbD n && decide (n ≠ i)) := by
  rw [BitVec.getLsbD_and, BitVec.getLsbD_not, BitVec.getLsbD_shiftLeft]
  have hone : (1 : BitVec 64).getLsbD (n - i) = decide (n - i = 0) := by
    rw [show (1 : BitVec 64) = BitVec.twoPow 64 0 from rfl, BitVec.getLsbD_twoPow]
    simp [eq_comm]
  rw [hone]
  by_cases hni : n < i
  · simp [hn, hni, show n ≠ i by omega]
  · by_cases heq : n = i
    · simp [heq]
    · simp [hn, hni, heq, show n - i ≠ 0 by omega]

/-- A fibre after a status word has entered its register (R227, R273). -/
def Fibre.enterStatus (f : Fibre) (sreg : Nat) (w : Word) : Fibre :=
  { f with
    g := vset f.g sreg w
    gpend := f.gpend &&& ~~~((1 : BitVec 64) <<< sreg)
    park := if f.park = .reg sreg then .none else f.park }

section Status
variable {s : State} {fid sreg : Nat} {f : Fibre} {w : Word} (hf : s.fibre? fid = some f)
include hf

theorem writeStatus_enters (hpend : f.gpend.getLsbD sreg = true) :
    (s.writeStatus fid sreg w).fibre? fid = some (f.enterStatus sreg w) := by
  rw [State.writeStatus, fibre?_modFibre, if_pos rfl, hf]
  exact congrArg some (if_pos hpend)

theorem writeStatus_drops (hpend : f.gpend.getLsbD sreg = false) : (s.writeStatus fid sreg w).fibre? fid = some f := by
  rw [State.writeStatus, fibre?_modFibre, if_pos rfl, hf]
  exact congrArg some (if_neg (by rw [hpend]; exact Bool.false_ne_true))

end Status

theorem sameBytes_of_fields {s t : State} (hmem : t.mem = s.mem) (hkey : t.lineKey = s.lineKey) (hllc : t.llc = s.llc)
    (hun : t.untrained = s.untrained) (hcell : t.cmem = s.cmem) (htag : t.gtag = s.gtag) (hhalf : t.halves = s.halves) :
    s.SameBytes t := by
  refine ⟨fun a key => ?_, fun a => by rw [hcell], fun a => by rw [State.granule, State.granule, htag], fun h => by rw [hhalf]⟩
  simp only [State.homeByte, hmem, hkey, hllc, hun]

theorem sameBytes_modFibre (s : State) (fid : Nat) (h : Fibre → Fibre) : s.SameBytes (s.modFibre fid h) :=
  sameBytes_of_fields (by simp) (by simp) (by simp) (by simp) (by simp) (by simp) (by simp)

/-- Settles O58: each event of the engine by the branch of its definition; a status word enters one register of its fibre. -/
theorem copyEngineAndStatusWords : Obligations.CopyEngineAndStatusWords := by
  refine ⟨fun s t cell cmd len k d c m rest => ⟨copyStart_reads, copyStart_starts, fun hk hd hc hstart hstop =>
    ⟨copyBeat_marks hk hd hc hstart hstop, fun hdue hpos hbuf hwaits => ?_, fun hdue hpos hbuf hfull => ?_⟩,
    fun hk hd hstart hpaid => ⟨copyFinish_done hk hd hstart hpaid, fun e => copyFinish_stopped hk hd hstart hpaid⟩,
    bbarInitPerform_sets, markTake_takes⟩, fun s fid sreg cause bytes f w => ⟨statusWord_fields cause bytes, fun hf hs hpend => ?_,
    fun hf hpend => writeStatus_drops hf hpend⟩⟩
  · exact ⟨s.toss.2, .of_fibres rfl, sameBytes_of_fields rfl rfl rfl rfl rfl rfl rfl, rfl,
      copyBeat_reads hk hd hc hstart hstop hdue hpos hbuf hwaits⟩
  · exact ⟨s.toss.2, .of_fibres rfl, sameBytes_of_fields rfl rfl rfl rfl rfl rfl rfl, rfl,
      copyBeat_lands hk hd hc hstart hstop hdue hpos hbuf hfull⟩
  · refine ⟨_, writeStatus_enters hf hpend, vget_vset_same _ _ _ hs, ?_, fun n hn hne => ⟨vget_vset_other _ _ _ hne, ?_⟩,
      fun hp => if_pos hp, fun hp => if_neg hp, rfl, rfl, sameBytes_modFibre s fid _⟩
    · exact (getLsbD_clearBit f.gpend hs).trans (by simp)
    · exact (getLsbD_clearBit f.gpend hn).trans (by simp [hne])

end Sys2Proof.Machine
end

section
/-! PROOFS. The matrix node and its ring (R257, R258, R273, R274, R277 to R280, R282, R283). -/

namespace Sys2Proof.Machine

/-! ### The node of a cell -/

section Node
variable {s : State} {cell other : Nat} {f : Node → Node}

theorem node_modNode_same (s : State) (cell : Nat) (f : Node → Node) : ((s.modNode cell f).cell cell).node = f (s.cell cell).node := by
  rw [State.modNode, cell_setCell_same]

theorem cell_modNode_other (h : other ≠ cell) : (s.modNode cell f).cell other = s.cell other := by
  exact Dict.getD_put_other _ _ _ _ _ h

theorem sameBytes_modNode (s : State) (cell : Nat) (f : Node → Node) : s.SameBytes (s.modNode cell f) := sameBytes_setCell _ _ _

theorem node_setHead (s : State) (cell : Nat) (n : NodeCmd) : ((s.setHead cell n).cell cell).node
    = { (s.cell cell).node with queue := n :: (s.cell cell).node.queue.tail } := node_modNode_same _ _ _

theorem nodeHead_setHead (s : State) (cell : Nat) (n : NodeCmd) : (s.setHead cell n).nodeHead cell = some n := by
  rw [State.nodeHead, node_setHead]
  rfl

end Node

/-! ### Tiles (R282) -/

theorem Dict.get?_foldl_erase {α : Type} (keys : List Nat) (d : Dict α) (k : Nat) :
    (keys.foldl (fun d n => Dict.erase d n) d).get? k = if k ∈ keys then none else d.get? k := by
  induction keys generalizing d with
  | nil => simp
  | cons x keys ih =>
    rw [List.foldl_cons, ih]
    by_cases hx : k = x
    · simp [hx]
    · simp [hx, Dict.get?_erase_other _ _ _ hx]

/-- The keys of the elements of a tile. -/
def tileKeys (t : Nat) : List Nat := (List.range 4096).map (4096 * t + ·)

theorem mem_tileKeys {t b i j : Nat} (hi : i < 64) (hj : j < 64) : tileKey b i j ∈ tileKeys t ↔ b = t := by
  simp only [tileKeys, tileKey, List.mem_map, List.mem_range]
  constructor
  · rintro ⟨n, hn, h⟩
    omega
  · rintro rfl
    exact ⟨64 * i + j, by omega, by omega⟩

theorem tileMap_zero (ts : Dict (BitVec 32)) (t : Nat) :
    tileMap ts t (fun _ _ _ => 0) = (tileKeys t).foldl (fun d n => Dict.erase d n) ts := by
  rw [tileKeys, List.foldl_map]
  rfl

theorem tileGet_zeroed (ts : Dict (BitVec 32)) (t b : Nat) {i j : Nat} (hi : i < 64) (hj : j < 64) :
    tileGet (tileMap ts t (fun _ _ _ => 0)) b i j = if b = t then 0 else tileGet ts b i j := by
  rw [tileGet, tileMap_zero, Dict.getD, Dict.get?_foldl_erase, if_congr (mem_tileKeys hi hj) rfl rfl]
  split
  · rfl
  · rfl

/-! ### The head command (R273, R274) -/

section Head
variable {s : State} {cell : Nat} {n : NodeCmd} {c : Ctx} (hn : s.nodeHead cell = some n) (hc : s.engineCtx n.fid n.xl = some c)

/-- The state in which a step of the head command acts, the machine having chosen whether the node can tell (log 13). -/
def State.ticked (s : State) : State := { s with tick := s.tick + 1 }

theorem cell_ticked (s : State) (cell : Nat) : s.ticked.cell cell = s.cell cell := rfl

/-- The head command is held back by what is before it (R158). -/
def State.headHeld (s : State) (cell : Nat) (n : NodeCmd) (c : Ctx) : Bool :=
  s.ticked.engineHeld cell n.id (n.spans c) ((n.spans c).src ++ (n.spans c).dst) (CopyCmd.asTold (Config.nodeCanTell s.tick))

variable (hstop : n.stop = none) (hcover : s.coveredUpTo n.fid n.upTo = true)
include hn hc hstop hcover

theorem nodeStart_mzero {pr : Pred} {acc : BitVec 3} (hins : n.ins = .mzero pr acc) (hstart : n.started = false) :
    exec (.nodeCommandStart cell) s = .next ((s.ticked.modNode cell
      (fun d => { d with tiles := tileMap d.tiles acc.toNat (fun _ _ _ => 0) })).setHead cell { n with started := true }) := by
  rw [exec_nodeCommandStart, execNodeCommandStart, hn]
  dsimp only
  rw [hc]
  dsimp only
  rw [if_neg (by rw [hstop, show State.coveredUpTo { s with tick := s.tick + 1 } n.fid n.upTo = true from hcover]; exact Bool.false_ne_true), hins]
  exact if_neg (by rw [hstart]; exact Bool.false_ne_true)

theorem nodeStart_mma {acc : BitVec 3} {sreg : BitVec 6} {kq : BitVec 7} {pr : Pred}
    (hins : n.ins = .mma pr sreg acc kq ∨ n.ins = .mmaSp pr sreg acc kq) : exec (.nodeCommandStart cell) s = .next
      (if n.started then s.ticked.mmaGroup cell n
       else if (!n.started && s.headHeld cell n c) = true then s.ticked
       else if s.ticked.operandsOk cell n then s.ticked.setHead cell (n.begin_ s.ticked cell)
       else s.ticked.stopHead cell n 0x01) := by
  rw [exec_nodeCommandStart, execNodeCommandStart, hn]
  dsimp only
  rw [hc]
  dsimp only
  rw [if_neg (by rw [hstop, show State.coveredUpTo { s with tick := s.tick + 1 } n.fid n.upTo = true from hcover]; exact Bool.false_ne_true),
    apply_ite Host.Outcome.next, apply_ite Host.Outcome.next, apply_ite Host.Outcome.next]
  rcases hins with hins | hins
  · rw [hins]
    rfl
  · rw [hins]
    rfl

theorem nodeStart_mld {pr : Pred} {sreg : BitVec 6} {acc : BitVec 3} (hins : n.ins = .mld pr sreg acc) :
    exec (.nodeCommandStart cell) s = .next (s.ticked.mldBeat cell n c (Config.nodeCanTell s.tick)) := by
  rw [exec_nodeCommandStart, execNodeCommandStart, hn]
  dsimp only
  rw [hc]
  dsimp only
  rw [if_neg (by rw [hstop, show State.coveredUpTo { s with tick := s.tick + 1 } n.fid n.upTo = true from hcover]; exact Bool.false_ne_true), hins]
  rfl

theorem nodeStart_mst {pr : Pred} {fmt : MstFmt} {sreg : BitVec 6} {acc : BitVec 3} (hins : n.ins = .mst pr fmt sreg acc) :
    exec (.nodeCommandStart cell) s = .next (s.ticked.mstBeat cell n fmt c (Config.nodeCanTell s.tick)) := by
  rw [exec_nodeCommandStart, execNodeCommandStart, hn]
  dsimp only
  rw [hc]
  dsimp only
  rw [if_neg (by rw [hstop, show State.coveredUpTo { s with tick := s.tick + 1 } n.fid n.upTo = true from hcover]; exact Bool.false_ne_true), hins]
  rfl

theorem nodeStart_cmtag {pr : Pred} {tag : BitVec 3} {scale : Bool} (hins : n.ins = .cmtag pr tag scale) (hstart : n.started = false)
    (hheld : s.headHeld cell n c = false) : exec (.nodeCommandStart cell) s = .next
      ((s.ticked.tagGranules c n.a.toNat n.b.toNat (BitVec.ofBool scale ++ tag)).setHead cell { n with started := true }) := by
  have hfree : (n.started || !n.started && s.headHeld cell n c) = false := by rw [hstart, hheld]; rfl
  rw [exec_nodeCommandStart, execNodeCommandStart, hn]
  dsimp only
  rw [hc]
  dsimp only
  rw [if_neg (by rw [hstop, show State.coveredUpTo { s with tick := s.tick + 1 } n.fid n.upTo = true from hcover]; exact Bool.false_ne_true), hins]
  exact if_neg (by rw [Bool.eq_false_iff] at hfree; exact hfree)

end Head

theorem nodeFinish_reports {s : State} {cell : Nat} {n : NodeCmd} (hn : s.nodeHead cell = some n) (hdone : s.nodeDone cell n = true)
    (hring : n.ringN = none) : exec (.nodeCommandFinish cell) s
      = .next ((s.finishHead cell n).haltCheck (((s.fibre? n.fid).map Fibre.gid).getD 0)) := by
  rw [exec_nodeCommandFinish, execNodeCommandFinish, hn]
  dsimp only
  rw [if_neg (by simp [hdone]), hring]

/-! ### Rings (R257, R279, R280) -/

section Ring
variable {s : State} {cell k : Nat} {n : NodeCmd} {r : Ring}

theorem member?_eq_some : s.member? cell = some (n, r, k) ↔ s.nodeHead cell = some n ∧ (s.cell cell).node.ring = some r ∧ n.ringN = some k := by
  simp only [State.member?, Option.bind_eq_bind, Option.bind_eq_some_iff, Option.pure_def, Option.some.injEq, Prod.mk.injEq]
  constructor
  · rintro ⟨_, hn, _, hr, _, hk, rfl, rfl, rfl⟩
    exact ⟨hn, hr, hk⟩
  · rintro ⟨hn, hr, hk⟩
    exact ⟨n, hn, r, hr, k, hk, rfl, rfl, rfl⟩

/-- The members of a ring are distinct cells. -/
theorem runOf_nodup (cell k : Nat) : (runOf cell k).Nodup :=
  (List.nodup_range).map fun _ _ h => Nat.add_left_cancel h

theorem ringPeers_nodup (s : State) (cell k rounds : Nat) : (s.ringPeers cell k rounds).Nodup := (runOf_nodup cell k).filter _

/-- A step over distinct cells, each of which changes its own cell and keeps `P`: a cell is as its own step leaves it. -/
theorem foldl_own_cell {step : State → Nat → State} {P : State → Prop} (hown : ∀ t x y, y ≠ x → (step t x).cell y = t.cell y)
    (hkeep : ∀ t x, P t → P (step t x)) {cells : List Nat} (hnodup : cells.Nodup) {s : State} (hs : P s) {x : Nat} :
    (x ∉ cells → (cells.foldl step s).cell x = s.cell x)
    ∧ (x ∈ cells → ∃ t, P t ∧ t.cell x = s.cell x ∧ (cells.foldl step s).cell x = (step t x).cell x) := by
  induction cells generalizing s with
  | nil => exact ⟨fun _ => rfl, nofun⟩
  | cons a cells ih =>
    obtain ⟨hnot, hnodup⟩ := List.nodup_cons.1 hnodup
    obtain ⟨hout, hin⟩ := ih hnodup (hkeep s a hs)
    refine ⟨fun h => ?_, fun h => ?_⟩
    · rw [List.mem_cons, not_or] at h
      exact (hout h.2).trans (hown s a x h.1)
    · by_cases hx : x = a
      · subst hx
        exact ⟨s, hs, rfl, hout hnot⟩
      · obtain ⟨t, ht, hcell, hlast⟩ := hin ((List.mem_cons.1 h).resolve_left hx)
        exact ⟨t, ht, hcell.trans (hown s a x hx), hlast⟩

theorem nodeHead_of_cell {s t : State} {x y : Nat} (h : t.cell x = s.cell y) : t.nodeHead x = s.nodeHead y := by
  rw [State.nodeHead, h]
  rfl

theorem member?_of_cell {s t : State} {x : Nat} (h : t.cell x = s.cell x) : t.member? x = s.member? x := by
  rw [State.member?, nodeHead_of_cell h, h]
  rfl

/-! #### The start of a ring (R279) -/

/-- A member of a ring that starts has its B tile in its latch (R257). -/
def State.startMember (s : State) (tag k x : Nat) : State :=
  s.modNode x (fun d => { d with ring := d.ring.map (fun y =>
    { y with started := true, tag := tag, latch := some (s.tileAt x tag (((s.nodeHead x).map NodeCmd.boff).getD 0) k) }) })

theorem startMember_latch {t : State} {tag k x : Nat} {y : Ring} {h : NodeCmd} (hring : (t.cell x).node.ring = some y)
    (hhead : t.nodeHead x = some h) : ((t.startMember tag k x).cell x).node.ring
      = some { y with started := true, tag := tag, latch := some (t.tileAt x tag (nfld h.a 20 20) k) } := by
  rw [State.startMember, node_modNode_same, hring, hhead]
  rfl

/-- The members of a ring start, each with the tile at its own BOFF. -/
theorem startMembers_latch {tag k : Nat} {peers : List Nat} (hnodup : peers.Nodup) (s : State) {x : Nat} (hx : x ∈ peers) {y : Ring}
    (hring : (s.cell x).node.ring = some y) {h : NodeCmd} (hhead : s.nodeHead x = some h) :
    ((peers.foldl (fun u x => u.startMember tag k x) s).cell x).node.ring
      = some { y with started := true, tag := tag, latch := some (s.tileAt x tag (nfld h.a 20 20) k) } := by
  obtain ⟨t, ht, hcell, hlast⟩ := (foldl_own_cell (step := fun s x => s.startMember tag k x)
    (P := fun t : State => ∀ z tag off k, t.tileAt z tag off k = s.tileAt z tag off k)
    (fun _ _ _ h => cell_modNode_other h) (fun _ _ ht => ht) hnodup (fun _ _ _ _ => rfl)).2 hx
  rw [hlast, startMember_latch (by rw [hcell]; exact hring) ((nodeHead_of_cell hcell).trans hhead), ht]

theorem ringStart_starts {c : Ctx} {tag : Nat} (hm : s.member? cell = some (n, r, k)) (hc : s.engineCtx n.fid n.xl = some c)
    (hstart : r.started = false) (hstop : n.stop = none) (hcore : c.l.core = 1)
    (hlate : s.ringLate cell k (s.cell cell).node.rounds = false)
    (hgroup : ∀ x ∈ runOf cell k, ∃ i < c.l.cells, memberCell c.g c.l i = x)
    (hagree : ∀ x ∈ runOf cell k, s.arrival x (s.cell cell).node.rounds n k = .agrees)
    (hpeers : ∀ x ∈ s.ringPeers cell k (s.cell cell).node.rounds, (s.cell x).node.ring.bind Ring.stop = none
      ∧ ((s.nodeHead x).map NodeCmd.tb).getD 0 = tag) : exec (.ringStart cell) s = .next
        ((s.ringPeers cell k (s.cell cell).node.rounds).foldl (fun u x => u.startMember
          (((s.ringPeers cell k (s.cell cell).node.rounds).map (fun x => ((s.nodeHead x).map NodeCmd.tb).getD 0)).headD 0) n.k x) s) := by
  let peers := s.ringPeers cell k (s.cell cell).node.rounds
  let tags := peers.map (fun x => ((s.nodeHead x).map NodeCmd.tb).getD 0)
  have hin : (runOf cell k).all (fun x => (List.range c.l.cells).any (fun i => memberCell c.g c.l i == x)) = true := by
    refine List.all_eq_true.2 fun x hx => ?_
    obtain ⟨i, hi, hmem⟩ := hgroup x hx
    exact List.any_eq_true.2 ⟨i, List.mem_range.2 hi, beq_iff_eq.2 hmem⟩
  have hnone (a : Arrival) (ha : a ≠ .agrees) :
      ((runOf cell k).map (fun x => s.arrival x (s.cell cell).node.rounds n k)).contains a = false := by
    refine Bool.eq_false_iff.2 fun h => ?_
    obtain ⟨x, hx, hxa⟩ := List.mem_map.1 (List.contains_iff_mem.1 h)
    exact ha (hxa ▸ hagree x hx)
  have hbad : peers.any (fun x => ((s.cell x).node.ring.bind Ring.stop).isSome) = false :=
    List.any_eq_false.2 fun x hx => by rw [(hpeers x hx).1]; exact Bool.false_ne_true
  have htags (x : Nat) (hx : x ∈ tags) : x = tag := by
    obtain ⟨p, hp, rfl⟩ := List.mem_map.1 hx
    exact (hpeers p hp).2
  have hsame : tags.any (· != tags.headD 0) = false := by
    refine List.any_eq_false.2 fun x hx => ?_
    have hhead : tags.headD 0 = tag := by
      obtain ⟨a, l, hal⟩ := List.exists_cons_of_ne_nil (List.ne_nil_of_mem hx)
      rw [hal]
      exact htags a (by rw [hal]; exact List.mem_cons_self)
    rw [hhead, htags x hx]
    simp
  rw [exec_ringStart, execRingStart, hm]
  dsimp only
  rw [hc]
  dsimp only
  rw [if_neg (by simp [hstart, hstop]), if_neg (by rw [hin]; exact Bool.false_ne_true), if_neg (by simp [hcore]),
    if_neg (by rw [hlate]; exact Bool.false_ne_true), if_neg (by rw [hnone .absent nofun]; exact Bool.false_ne_true),
    if_neg (by rw [hnone .differs nofun]; exact Bool.false_ne_true)]
  exact if_neg (by
    change ¬(peers.any (fun x => ((s.cell x).node.ring.bind Ring.stop).isSome) || tags.any (· != tags.headD 0)) = true
    rw [hbad, hsame]
    exact Bool.false_ne_true)

/-- The members of a ring that starts and the state that it leaves (R257, R279). -/
theorem ringStart_latches {c : Ctx} {tag : Nat} (hm : s.member? cell = some (n, r, k)) (hc : s.engineCtx n.fid n.xl = some c)
    (hstart : r.started = false) (hstop : n.stop = none) (hcore : c.l.core = 1)
    (hlate : s.ringLate cell k (s.cell cell).node.rounds = false)
    (hgroup : ∀ x ∈ runOf cell k, ∃ i < c.l.cells, memberCell c.g c.l i = x)
    (hagree : ∀ x ∈ runOf cell k, s.arrival x (s.cell cell).node.rounds n k = .agrees)
    (hpeers : ∀ x ∈ s.ringPeers cell k (s.cell cell).node.rounds, (s.cell x).node.ring.bind Ring.stop = none
      ∧ ((s.nodeHead x).map NodeCmd.tb).getD 0 = tag) :
    ∃ t, exec (.ringStart cell) s = .next t ∧ (∀ x ∈ s.ringPeers cell k (s.cell cell).node.rounds, ∀ y,
        (s.cell x).node.ring = some y → ∀ h, s.nodeHead x = some h → (t.cell x).node.ring = some { y with
          started := true, tag := tag, latch := some (s.tileAt x tag (nfld h.a 20 20) n.k) })
      ∧ t.fibres = s.fibres ∧ s.SameBytes t := by
  refine ⟨_, ringStart_starts hm hc hstart hstop hcore hlate hgroup hagree hpeers, fun x hx y hy h hh => ?_, ?_, ?_⟩
  · rw [startMembers_latch (ringPeers_nodup s cell k _) s hx hy hh]
    have htag : ((s.ringPeers cell k (s.cell cell).node.rounds).map (fun x => ((s.nodeHead x).map NodeCmd.tb).getD 0)).headD 0
        = tag := by
      obtain ⟨a, l, hal⟩ := List.exists_cons_of_ne_nil (List.ne_nil_of_mem hx)
      rw [hal]
      exact (hpeers a (by rw [hal]; exact List.mem_cons_self)).2
    rw [htag]
  · exact List.foldlRecOn _ _ (motive := fun t : State => t.fibres = s.fibres) rfl fun _ ht _ _ => ht
  · exact List.foldlRecOn _ _ (motive := fun t : State => s.SameBytes t) ⟨fun _ _ => rfl, fun _ => rfl, fun _ => rfl, fun _ => rfl⟩
      fun t ht x _ => ht.trans (sameBytes_modNode t x _)

/-! #### Hand-over and timeout (R257, R280) -/

section Handover
variable (hm : s.member? cell = some (n, r, k))
include hm

theorem ringHandover_passes : exec (.ringHandover cell) s = .next (s.ringPass cell n r k) := by
  rw [exec_ringHandover, execRingHandover, hm]

variable (hstart : r.started = true) (hstop : r.stop = none) (hstep : r.step < k) (hpos : (r.step + 1) * n.stepGroups r ≤ n.pos)
include hstart hstop hstep hpos

theorem ringHandover_offers (hgiven : r.given = false) (hoffer : r.offer = none) : ∃ t, exec (.ringHandover cell) s = .next t
    ∧ (t.cell cell).node.ring = some { r with given := true, offer := r.latch, latch := none } := by
  refine ⟨s.modNode cell (fun d => { d with ring := some { r with given := true, offer := r.latch, latch := none } }), ?_,
    by rw [node_modNode_same]⟩
  rw [ringHandover_passes hm, State.ringPass]
  dsimp only
  rw [if_neg (by simp [hstart, hstop]; omega), if_pos (by rw [hgiven]; rfl), if_neg (by simp [hoffer])]

theorem ringHandover_takes {o : Ring} {b : List Byte × List Byte} (hgiven : r.given = true)
    (hleft : (s.cell (memberAt cell k ((cellX cell % k + k - 1) % k))).node.ring = some o) (hoffer : o.offer = some b)
    (hsteps : o.step = r.step ∨ o.step = r.step + 1) (hne : memberAt cell k ((cellX cell % k + k - 1) % k) ≠ cell) :
    ∃ t, exec (.ringHandover cell) s = .next t
      ∧ (t.cell cell).node.ring = some { r with latch := some b, given := false, step := r.step + 1, since := s.time }
      ∧ (t.cell (memberAt cell k ((cellX cell % k + k - 1) % k))).node.ring = some { o with offer := none } := by
  obtain ⟨-, hring, -⟩ := member?_eq_some.1 hm
  let left := memberAt cell k ((cellX cell % k + k - 1) % k)
  let given := s.modNode left (fun d => { d with ring := d.ring.map (fun x => { x with offer := none }) })
  refine ⟨given.modNode cell (fun d => { d with ring := d.ring.map (fun x =>
    { x with latch := some b, given := false, step := r.step + 1, since := s.time }) }), ?_, ?_, ?_⟩
  · rw [ringHandover_passes hm, State.ringPass]
    dsimp only
    rw [if_neg (by simp [hstart, hstop]; omega), if_neg (by simp [hgiven]), hleft]
    dsimp only
    rw [hoffer]
    exact congrArg _ (if_pos hsteps)
  · rw [node_modNode_same, cell_modNode_other (Ne.symm hne), hring]
    rfl
  · rw [cell_modNode_other hne, node_modNode_same, hleft]
    rfl

end Handover

/-- A member of a ring that times out stops: one that has not started at once, the others after their step (R280). -/
def State.expireMember (s : State) (k x : Nat) : State :=
  match s.member? x with
  | some (o, y, _) =>
    if o.stop.isSome then s
    else if !y.started then
      (s.stopMember x o y y.lateCause).modNode x (fun d => { d with late := d.late ++ [(d.rounds, k)] })
    else if y.stop.isSome then s
    else if (y.step + 1) * o.stepGroups y ≤ o.pos || k ≤ y.step then s.stopMember x o y 0x21
    else s.modNode x (fun d => { d with ring := some { y with stop := some 0x21 } })
  | none => s

theorem cell_stopMember_other {x y cause : Nat} (o : NodeCmd) (r : Ring) (h : y ≠ x) : (s.stopMember x o r cause).cell y = s.cell y := by
  rw [State.stopMember, cell_modNode_other h, State.stopHead, State.setHead, cell_modNode_other h]

theorem cell_expireMember_other (s : State) {x y : Nat} (h : y ≠ x) : (s.expireMember k x).cell y = s.cell y := by
  unfold State.expireMember
  split
  · split
    · rfl
    · split
      · rw [cell_modNode_other h, cell_stopMember_other _ _ h]
      · split
        · rfl
        · split
          · exact cell_stopMember_other _ _ h
          · exact cell_modNode_other h
  · rfl

theorem node_stopMember (s : State) (x cause : Nat) (o : NodeCmd) (y : Ring) : ((s.stopMember x o y cause).cell x).node
    = { (s.cell x).node with queue := { o with started := true, stop := some cause } :: (s.cell x).node.queue.tail
                             ring := some { y with stop := some cause } } := by
  rw [State.stopMember, node_modNode_same, State.stopHead, node_setHead]

theorem expireMember_waiting (hm : s.member? cell = some (n, r, k)) (hstop : n.stop = none) (hstart : r.started = false) :
    ((s.expireMember k cell).cell cell).node = { (s.cell cell).node with
      queue := { n with started := true, stop := some (r.stop.getD 0x21) } :: (s.cell cell).node.queue.tail
      ring := some { r with stop := some (r.stop.getD 0x21) }
      late := (s.cell cell).node.late ++ [((s.cell cell).node.rounds, k)] } := by
  rw [State.expireMember, hm]
  dsimp only
  rw [if_neg (by simp [hstop]), if_pos (by simp [hstart]), node_modNode_same, node_stopMember]
  rfl

theorem ringTimeout_expires (hm : s.member? cell = some (n, r, k)) (hstop : n.stop = none) (hsince : r.since + 200000 ≤ s.time)
    (hstart : r.started = false) : exec (.ringTimeout cell) s
      = .next ((s.ringPeers cell k (s.cell cell).node.rounds).foldl (fun s x => s.expireMember k x) s) := by
  rw [exec_ringTimeout, execRingTimeout, hm]
  dsimp only
  rw [if_pos (by
    rw [ringWaits, hstop, hstart]
    exact decide_eq_true hsince), hstart]
  rfl

theorem ringTimeout_stops (hm : s.member? cell = some (n, r, k)) (hstop : n.stop = none) (hsince : r.since + 200000 ≤ s.time)
    (hstart : r.started = false) (hrun : cell ∈ runOf cell k) : ∃ t y h,
      exec (.ringTimeout cell) s = .next t ∧ t.nodeHead cell = some h ∧ (t.cell cell).node.ring = some y
        ∧ h.stop = some (r.stop.getD 0x21) ∧ y.stop = some (r.stop.getD 0x21) := by
  have hpeer : cell ∈ s.ringPeers cell k (s.cell cell).node.rounds := by
    refine List.mem_filter.2 ⟨hrun, ?_⟩
    rw [hm]
    simp [hstart, hstop]
  obtain ⟨t, -, hcell, hlast⟩ := (foldl_own_cell (step := fun s x => s.expireMember k x) (P := fun _ => True)
    (fun t _ _ h => cell_expireMember_other t h) (fun _ _ _ => trivial) (ringPeers_nodup s cell k (s.cell cell).node.rounds)
    (s := s) trivial).2 hpeer
  have hnode := expireMember_waiting ((member?_of_cell hcell).trans hm) hstop hstart
  rw [← hlast] at hnode
  refine ⟨_, { r with stop := some (r.stop.getD 0x21) }, { n with started := true, stop := some (r.stop.getD 0x21) },
    ringTimeout_expires hm hstop hsince hstart, ?_, ?_, rfl, rfl⟩
  · rw [State.nodeHead, hnode]
    rfl
  · rw [hnode]

end Ring

/-- Settles O59: the head command by the branch of its instruction, the ring by the branch of its event; a step over the members
of a ring changes each at its own cell only. -/
theorem nodeAndRingEvents : Obligations.NodeAndRingEvents := by
  refine ⟨fun s cell n c hn hc => ⟨fun hstop hcover => ?_, fun hdone hring => nodeFinish_reports hn hdone hring⟩,
    fun s cell k n r c tag hm => ⟨fun hc hstart hstop hcore => ringStart_latches hm hc hstart hstop hcore,
      fun hstart hstop hstep hpos => ⟨ringHandover_offers hm hstart hstop hstep hpos,
        fun o b => ringHandover_takes hm hstart hstop hstep hpos⟩,
      fun hstop hsince hstart => ringTimeout_stops hm hstop hsince hstart⟩⟩
  intro s' tells held
  refine ⟨fun pr acc hins hstart => ?_, fun pr sreg acc kq hins => ⟨fun hstart => ?_, fun hstart hheld => ⟨fun hok => ?_, fun hok => ?_⟩⟩,
    fun pr sreg acc hins => nodeStart_mld hn hc hstop hcover hins,
    fun pr fmt sreg acc hins => nodeStart_mst hn hc hstop hcover hins,
    fun pr tag scale hins hstart hheld => nodeStart_cmtag hn hc hstop hcover hins hstart hheld⟩
  · let zeroed := s.ticked.modNode cell (fun d => { d with tiles := tileMap d.tiles acc.toNat (fun _ _ _ => 0) })
    have htiles : ((zeroed.setHead cell { n with started := true }).cell cell).node.tiles
        = tileMap (s.cell cell).node.tiles acc.toNat (fun _ _ _ => 0) := by
      rw [node_setHead, node_modNode_same, cell_ticked]
    refine ⟨_, nodeStart_mzero hn hc hstop hcover hins hstart, nodeHead_setHead _ _ _, fun i hi j hj => ?_, fun b hb i hi j hj => ?_, rfl,
      ⟨fun _ _ => rfl, fun _ => rfl, fun _ => rfl, fun _ => rfl⟩⟩
    · rw [htiles, tileGet_zeroed _ _ _ hi hj, if_pos rfl]
    · rw [htiles, tileGet_zeroed _ _ _ hi hj, if_neg hb]
  · rw [nodeStart_mma hn hc hstop hcover hins, if_pos hstart]
    exact congrArg (fun u : State => Host.Outcome.next (u.mmaGroup cell n)) (rfl : s.ticked = s')
  · rw [nodeStart_mma hn hc hstop hcover hins, if_neg (by rw [hstart]; exact Bool.false_ne_true),
      if_neg (by rw [show s.headHeld cell n c = false from hheld, Bool.and_false]; exact Bool.false_ne_true)]
    exact congrArg _ (if_pos hok)
  · rw [nodeStart_mma hn hc hstop hcover hins, if_neg (by rw [hstart]; exact Bool.false_ne_true),
      if_neg (by rw [show s.headHeld cell n c = false from hheld, Bool.and_false]; exact Bool.false_ne_true)]
    exact congrArg _ (if_neg fun h => Bool.false_ne_true (hok.symm.trans h))

end Sys2Proof.Machine
end

section
/-! PROOFS. What the firing of an instruction leaves unchanged: registers, bytes and granule tags (R7, R8, R24, R54, R119, R234). -/

namespace Sys2Proof.Machine

/-! ### The frame of a firing -/

/-- Every fibre keeps its registers, and what decides how bytes read is the same. -/
structure State.FiringFrame (s t : State) : Prop where
  store : s.SameStore t
  regs : s.SameRegs t

theorem State.FiringFrame.refl (s : State) : s.FiringFrame s := ⟨.refl s, .refl s⟩

theorem State.FiringFrame.trans {s t u : State} (h : s.FiringFrame t) (k : t.FiringFrame u) : s.FiringFrame u :=
  ⟨h.store.trans k.store, h.regs.trans k.regs⟩

theorem State.FiringFrame.ite {s t u : State} {c : Prop} [Decidable c] (ht : s.FiringFrame t) (hu : s.FiringFrame u) :
    s.FiringFrame (if c then t else u) := iteInduction (fun _ => ht) (fun _ => hu)

/-- An outcome leaves what the frame of a firing keeps. -/
def Quiet (s : State) (o : Host.Outcome State Fault Refusal) : Prop := ∀ t, o = .next t → s.FiringFrame t

theorem quiet_next {s t : State} (h : s.FiringFrame t) : Quiet s (.next t) := fun _ ht => Host.Outcome.next.inj ht ▸ h

theorem quiet_same (s : State) : Quiet s (.next s) := quiet_next (.refl s)

theorem quiet_fault (s : State) (f : Fault) : Quiet s (.fault f) := fun _ h => Host.Outcome.noConfusion rfl rfl rfl (heq_of_eq h)

section Parts
variable (s : State)

theorem frame_setFrame (fid : Nat) (fr : Frame) : s.FiringFrame (s.setFrame fid fr) :=
  ⟨by constructor <;> simp, sameRegs_setFrame s fid fr⟩

theorem frame_commit (a : Acting) (fr : Frame) : s.FiringFrame (a.commit s fr) := frame_setFrame s a.fid fr

theorem frame_modFibre {s : State} {fid : Nat} {g : Fibre → Fibre} (h : ∀ f, Fibre.SameRegs f (g f)) : s.FiringFrame (s.modFibre fid g) :=
  ⟨by constructor <;> simp, sameRegs_modFibre h⟩

theorem frame_setNext (fid : Nat) (a : Option Word) : s.FiringFrame (s.setNext fid a) :=
  frame_modFibre fun f => by simp [Fibre.SameRegs]

theorem frame_squash (fid seq src : Nat) : s.FiringFrame (s.squash fid seq src) := by
  refine ⟨?_, sameRegs_squash s fid seq src⟩
  obtain ⟨fs, as, cs, h⟩ := squash_keeps s fid seq src
  rw [h]
  exact ⟨rfl, rfl, rfl, rfl, rfl, rfl, rfl⟩

theorem frame_parkAt (fid seq : Nat) (addr : Word) (p : Park) : s.FiringFrame (s.parkAt fid seq addr p) :=
  (frame_squash s fid seq 0).trans (frame_modFibre fun f => by simp [Fibre.SameRegs])

theorem frame_onlyCaches {s t : State} (h : s.OnlyCaches t) : s.FiringFrame t := ⟨h.toSameStore, .of_fibres h.fibres⟩

theorem frame_check (c : Ctx) (w : Want) (va : Word) (n : Nat) : s.FiringFrame (s.check c w va n).2 :=
  frame_onlyCaches (onlyCaches_check s c w va n)

theorem frame_walkWaits {s t : State} {cell : Nat} {x : Xlate} {rs : List (Word × Nat)} (h : s.walkWaits cell x rs = some t) :
    s.FiringFrame t := by
  obtain ⟨d, o, rfl⟩ := walkWaits_keeps h
  exact ⟨⟨rfl, rfl, rfl, rfl, rfl, rfl, rfl⟩, .of_fibres rfl⟩

theorem frame_checkWaits {s t : State} {c : Ctx} {w : Want} {va : Word} {n : Nat} (h : s.checkWaits c w va n = some t) :
    s.FiringFrame t := by
  unfold State.checkWaits at h
  split at h
  · cases h
  · exact frame_walkWaits h

theorem frame_violation (x : Access) : s.FiringFrame (s.violation x) := by
  unfold State.violation
  dsimp only
  split
  · exact .refl s
  · exact frame_squash s _ _ _

/-- Launches, groups, events, queues and counters of numbers are no registers and no bytes. -/
theorem frame_dispatch (ls : Dict Launch) (gs : Dict Group) (ev : Dict Word) (q : Dict Queue) (n tk : Nat) :
    s.FiringFrame { s with launches := ls, groups := gs, events := ev, queues := q, nextId := n, tick := tk } :=
  ⟨⟨rfl, rfl, rfl, rfl, rfl, rfl, rfl⟩, .of_fibres rfl⟩

theorem frame_wakeWhere (p : Fibre → Bool) : s.FiringFrame (s.wakeWhere p) := by
  refine ⟨⟨rfl, rfl, rfl, rfl, rfl, rfl, rfl⟩, State.sameRegs_iff.2 fun fid => ?_⟩
  have hwoken : (s.wakeWhere p).fibre? fid = (s.fibre? fid).map (fun f => if p f then f.wake else f) :=
    get?_mapV s.fibres (fun f => if p f then f.wake else f) fid
  rw [hwoken]
  cases s.fibre? fid with
  | none => exact .inl ⟨rfl, rfl⟩
  | some f =>
    refine .inr ⟨f, _, rfl, rfl, ?_⟩
    dsimp only
    split
    · simp [Fibre.SameRegs, Fibre.wake]
    · exact .refl f

theorem State.FiringFrame.foldl {α : Type} {s : State} (l : List α) (f : State → α → State)
    (h : ∀ (t : State) (a : α), t.FiringFrame (f t a)) : s.FiringFrame (l.foldl f s) :=
  List.foldlRecOn l f (motive := fun t : State => s.FiringFrame t) (.refl s) fun _ ht a _ => ht.trans (h _ a)

theorem frame_startLaunch (lid : Nat) : s.FiringFrame (s.startLaunch lid) := by
  unfold State.startLaunch
  split
  · exact .refl s
  · exact frame_dispatch s _ s.groups s.events s.queues _ s.tick

theorem frame_meetWaits (e : Nat) : s.FiringFrame (s.meetWaits e) := by
  refine .foldl _ _ fun t x => ?_
  dsimp only
  split
  · exact .refl t
  · split
    · exact .refl t
    · have hmet := fun ls : Dict Launch => frame_dispatch t ls t.groups t.events t.queues t.nextId t.tick
      exact .ite ((hmet _).trans (frame_startLaunch _ _)) (hmet _)

theorem frame_requeued (old : State) : s.FiringFrame (State.requeued old s) := by
  obtain ⟨gs, ls, n, h⟩ := requeued_keeps old s
  rw [h]
  exact frame_dispatch s ls gs s.events s.queues n s.tick

theorem frame_addEvent (e : Nat) (v : Word) : s.FiringFrame (s.addEvent e v) :=
  .trans (frame_dispatch s s.launches s.groups _ s.queues s.nextId s.tick)
    (.trans (frame_wakeWhere _ _) (.trans (frame_meetWaits _ e) (frame_requeued _ s)))

theorem frame_wakeBar (gid b : Nat) : s.FiringFrame (s.wakeBar gid b) := frame_wakeWhere s _

theorem frame_setGroup (gid : Nat) (g : Group) : s.FiringFrame (s.setGroup gid g) :=
  frame_dispatch s s.launches _ s.events s.queues s.nextId s.tick

theorem frame_resolveExit (fid seq : Nat) (target : Option Word) : s.FiringFrame (s.resolveExit fid seq target) := by
  unfold State.resolveExit
  split
  · exact .refl s
  · split
    · split
      · exact .refl s
      · exact (frame_squash s _ _ _).trans (frame_setNext _ _ _)
    · split
      · exact .refl s
      · exact (frame_setNext s _ _).trans (frame_modFibre fun f => by
          unfold Fibre.leavePath
          split <;> simp [Fibre.SameRegs])

end Parts

/-! ### The shapes of firing -/

section Shapes
variable (i : Instr) (s : State)

theorem quiet_dataflow (f : Acting → Result) : Quiet s (dataflow i f s) := by
  unfold dataflow
  split
  · exact quiet_fault s _
  · split
    · exact quiet_next (frame_commit s _ _)
    · exact quiet_same s

theorem quiet_deliberate (c : Cause) : Quiet s (deliberate i c s) := by
  unfold deliberate
  split
  · exact quiet_fault s _
  · split
    · exact quiet_next (frame_commit s _ _)
    · exact quiet_same s

theorem quiet_fireLate (bad : Instr → Bool) : Quiet s (fireLate i bad s) := by
  unfold fireLate
  split
  · exact quiet_fault s _
  · split
    · exact quiet_next (frame_commit s _ _)
    · exact quiet_same s

theorem frame_branchTo (a : Acting) (isCall : Bool) (target : Word) : s.FiringFrame (a.branchTo s isCall target) := by
  unfold Acting.branchTo
  dsimp only
  exact .ite ((frame_commit s a _).trans (frame_resolveExit _ _ _ _)) (frame_commit s a _)

theorem quiet_directBranch (off : BitVec 33) : Quiet s (directBranch i off s) := by
  unfold directBranch
  split
  · exact quiet_fault s _
  · split
    · exact quiet_next (frame_branchTo s _ _ _)
    · exact quiet_same s

theorem quiet_indirectBranch : Quiet s (indirectBranch i s) := by
  unfold indirectBranch
  split
  · exact quiet_fault s _
  · split
    next a _ _ =>
      cases a.fr.opL a.k with
      | val w => exact quiet_next (frame_branchTo s a _ w)
      | null => exact quiet_next (frame_commit s a _)
      | vec v tag => exact quiet_next (frame_commit s a _)
      | poison => exact quiet_next (frame_commit s a _)
    · exact quiet_same s

theorem frame_readFrom (a : Acting) (src : Source12) (file : Token) (reg : Nat) : s.FiringFrame (readFrom i a src file reg s) := by
  cases src with
  | tok t => exact frame_commit s _ _
  | file => exact frame_commit s _ _
  | wait => exact .refl s
  | park =>
    unfold readFrom
    dsimp only
    split
    · exact .refl s
    · exact frame_parkAt s _ _ _ _

theorem quiet_fireCommand (check : Acting → Ctx → List (Cause × Word)) : Quiet s (fireCommand i check s) := by
  unfold fireCommand
  split
  · exact quiet_fault s _
  · split
    · dsimp only
      split
      · split
        · exact quiet_next (frame_commit s _ _)
        · split
          · split
            · exact quiet_next (frame_commit s _ _)
            · exact quiet_next (frame_commit s _ _)
          · exact quiet_next (frame_commit s _ _)
      · exact quiet_same s
    · exact quiet_same s

/-! #### Memory instructions -/

theorem quiet_memory {go : Acting → Ctx → Bool → State → State} (h : ∀ a c inside, s.FiringFrame (go a c inside s)) :
    Quiet s (memory i go s) := by
  unfold memory
  split
  · exact quiet_fault s _
  · split
    · split
      · exact quiet_next (frame_commit s _ _)
      · split
        · exact quiet_next (h _ _ _)
        · exact quiet_same s
    · exact quiet_same s

theorem frame_memFault (a : Acting) (e : Cause × Word) : s.FiringFrame (memFault i a e s) := frame_commit s a _

theorem frame_enqueue (a : Acting) (x : Access) : s.FiringFrame (enqueue i a x s) := by
  have hqueued : ∀ t : State, t.FiringFrame { t.setAccess t.nextId x with nextId := t.nextId + 1 } := fun t =>
    ⟨⟨rfl, rfl, rfl, rfl, rfl, rfl, rfl⟩, .of_fibres rfl⟩
  unfold enqueue
  dsimp only
  have hentered := fun fr : Frame => (frame_commit s a fr).trans (hqueued _)
  exact .ite ((hentered _).trans (frame_violation _ _)) (.ite ((hentered _).trans (frame_squash _ _ _ _)) (hentered _))

/-- An access that has been checked: it waits, records a fault, or enters the queue. -/
theorem frame_checked {s : State} {a : Acting} {c : Ctx} {w : Want} {va : Word} {n : Nat} {mk : List Seg → Access} :
    s.FiringFrame (match s.checkWaits c w va n with
      | some s => s
      | none =>
        match s.check c w va n with
        | (.error e, s) => memFault i a e s
        | (.ok segs, s) => enqueue i a (mk segs) s) := by
  split
  next t h => exact frame_checkWaits h
  next =>
    have hcheck := frame_check s c w va n
    split
    next e t h =>
      rw [h] at hcheck
      exact hcheck.trans (frame_memFault i t a e)
    next segs t h =>
      rw [h] at hcheck
      exact hcheck.trans (frame_enqueue i t a _)

theorem frame_fireLoad (m : MemF) (n : Nat) (fmt : Bool) (a : Acting) (c : Ctx) (inside : Bool) :
    s.FiringFrame (fireLoad i m n fmt a c inside s) := frame_checked i

theorem frame_fireStore (m : MemF) (n : Nat) (a : Acting) (c : Ctx) (inside : Bool) :
    s.FiringFrame (fireStore i m n a c inside s) := frame_checked i

theorem frame_fireAtomic (m : MemF) (n : Nat) (formats : List (BitVec 3)) (op : Nat) (a : Acting) (c : Ctx) (inside : Bool) :
    s.FiringFrame (fireAtomic i m n formats op a c inside s) := frame_checked i

theorem frame_checkLanes (c : Ctx) (w : Want) (a : Acting) (m : MemF) (sz : WD) (data : Nat → List Byte) (js : List Nat)
    (ps : List Piece) : s.FiringFrame (checkLanes c w a m sz data js ps s).2 := by
  induction js generalizing s ps with
  | nil => exact .refl s
  | cons j js ih =>
    unfold checkLanes
    dsimp only
    have hcheck := frame_check s c w (elementVa a m sz j) (wdBytes sz)
    split
    next e t h =>
      rw [h] at hcheck
      exact hcheck
    next segs t h =>
      rw [h] at hcheck
      exact hcheck.trans (ih t _)

/-- A gather or scatter: it waits, records the fault of a lane, or enters the queue. -/
theorem frame_checkedLanes {s : State} {a : Acting} {c : Ctx} {w : Want} {m : MemF} {sz : WD} {data : Nat → List Byte}
    {mk : List Piece → Access} : s.FiringFrame (match s.walkWaits c.cell c.x (laneVas a m sz) with
      | some s => s
      | none =>
        match checkLanes c w a m sz data (List.range (64 / wdBytes sz)) [] s with
        | (.error e, s) => memFault i a e s
        | (.ok ps, s) => enqueue i a (mk ps) s) := by
  split
  next t h => exact frame_walkWaits h
  next =>
    have hcheck := frame_checkLanes s c w a m sz data (List.range (64 / wdBytes sz)) []
    split
    next e t h =>
      rw [h] at hcheck
      exact hcheck.trans (frame_memFault i t a e)
    next ps t h =>
      rw [h] at hcheck
      exact hcheck.trans (frame_enqueue i t a _)

theorem frame_fireGather (sz : WD) (m : MemF) (a : Acting) (c : Ctx) (inside : Bool) :
    s.FiringFrame (fireGather i sz m a c inside s) := frame_checkedLanes i

theorem frame_fireScatter (sz : WD) (m : MemF) (a : Acting) (c : Ctx) (inside : Bool) :
    s.FiringFrame (fireScatter i sz m a c inside s) := frame_checkedLanes i

theorem frame_firePrefetch (off : BitVec 22) (a : Acting) (c : Ctx) (inside : Bool) :
    s.FiringFrame (firePrefetch off a c inside s) := by
  by_cases hnone : inside = true ∨ s.walkWaits c.cell c.x [((a.fr.opL a.k).word + off.signExtend 64, 1)] = none
  · exact (frame_commit s a _).trans (frame_onlyCaches (onlyCaches_firePrefetch hnone))
  · obtain ⟨hout, hwalk⟩ := not_or.1 hnone
    obtain ⟨t, ht⟩ := Option.ne_none_iff_exists'.1 hwalk
    have hwait : firePrefetch off a c inside s = t := by
      unfold firePrefetch
      dsimp only
      rw [if_neg hout, effAddr, ht]
    rw [hwait]
    exact frame_walkWaits ht

theorem frame_fireCacheOp (a : Acting) (c : Ctx) (inside : Bool) : s.FiringFrame (fireCacheOp i a c inside s) := by
  unfold fireCacheOp
  dsimp only
  split
  · exact frame_memFault i s a _
  · split
    · exact frame_memFault i s a _
    · exact frame_enqueue i s a _

theorem frame_fireFence (a : Acting) (c : Ctx) (inside : Bool) : s.FiringFrame (fireFence i a c inside s) :=
  frame_enqueue i s a _

/-! #### Instructions of R204 -/

theorem frame_waits (a : Acting) : s.FiringFrame (a.waits s) := by
  unfold Acting.waits
  dsimp only
  split
  · exact .refl s
  · exact frame_commit s _ _

/-- What an operation of R204 does keeps the frame, whether it is performed or waits. -/
def KeepsFrame (s : State) : Option (State × Token) × State → Prop
  | (none, t) => s.FiringFrame t
  | (some x, _) => s.FiringFrame x.1

theorem quiet_irrevocable {release : Bool} {check : Acting → Group → Launch → State → Option (Cause × Word)}
    {go : Acting → Group → Launch → State → Option (State × Token) × State} (hgo : ∀ a g l, KeepsFrame s (go a g l s)) :
    Quiet s (irrevocable i release check go s) := by
  unfold irrevocable irrevocableWith
  split
  · exact quiet_fault s _
  next a _ =>
    split
    · split
      next inside g l _ _ =>
        dsimp only
        split
        · exact iteInduction (fun _ => quiet_next (frame_commit s _ _)) (fun _ => quiet_next (frame_commit s _ _))
        · split
          · refine iteInduction (fun _ => ?_) (fun _ => quiet_next (frame_waits s _))
            have hkeeps := hgo a g l
            cases hout : go a g l s with
            | mk done t =>
              rw [hout] at hkeeps
              cases done with
              | none => exact quiet_next hkeeps
              | some x => exact quiet_next (.trans (t := x.1) hkeeps (frame_setFrame _ _ _))
          · exact quiet_next (frame_commit s _ _)
      · exact quiet_same s
    · exact quiet_same s

theorem quiet_waitFor (check : Acting → Group → Launch → State → Option (Cause × Word)) (passes : Acting → Group → State → Bool)
    (park : Acting → Park) : Quiet s (waitFor i check passes park s) := by
  unfold waitFor
  split
  · exact quiet_fault s _
  · split
    · split
      · exact quiet_next (frame_commit s _ _)
      · split
        · exact quiet_same s
        · split
          · exact quiet_next (frame_commit s _ _)
          · split
            · exact quiet_next (frame_waits s _)
            · split
              · exact quiet_next (frame_commit s _ _)
              · split
                · exact quiet_same s
                · exact quiet_next (frame_parkAt s _ _ _ _)
    · exact quiet_same s

end Shapes

/-! ### Instructions with a shape of their own -/

section Single
variable (s : State)

theorem quiet_read (pr : Pred) (reg : BitVec 6) (t0 t1 : Target) : Quiet s (execRead pr reg t0 t1 s) := by
  unfold execRead
  split
  · exact quiet_fault s _
  · exact iteInduction (fun _ => quiet_next (frame_readFrom _ s _ _ _ _)) (fun _ => quiet_same s)

theorem quiet_vread (pr : Pred) (reg : BitVec 5) (t0 t1 : Target) : Quiet s (execVread pr reg t0 t1 s) := by
  unfold execVread
  split
  · exact quiet_fault s _
  · exact iteInduction (fun _ => quiet_next (frame_readFrom _ s _ _ _ _)) (fun _ => quiet_same s)

theorem quiet_write (pr : Pred) (reg : BitVec 6) : Quiet s (execWrite pr reg s) := by
  unfold execWrite
  split
  · exact quiet_fault s _
  · exact iteInduction (fun _ => quiet_next (frame_commit s _ _)) (fun _ => quiet_same s)

theorem quiet_vwrite (pr : Pred) (reg : BitVec 5) : Quiet s (execVwrite pr reg s) := by
  unfold execVwrite
  split
  · exact quiet_fault s _
  · exact iteInduction (fun _ => quiet_next (frame_commit s _ _)) (fun _ => quiet_same s)

theorem quiet_halt (pr : Pred) (exit : BitVec 3) : Quiet s (execHalt pr exit s) := by
  unfold execHalt
  split
  · exact quiet_fault s _
  · exact iteInduction (fun _ => quiet_next (.ite (frame_commit s _ _) ((frame_commit s _ _).trans (frame_setNext _ _ _))))
      (fun _ => quiet_same s)

theorem quiet_cyc (pr : Pred) (t0 t1 : Target) : Quiet s (execCyc pr t0 t1 s) := by
  unfold execCyc
  split
  · exact quiet_fault s _
  · exact iteInduction (fun _ => quiet_same s) (fun _ => quiet_dataflow _ s _)

theorem frame_checkBeg (fid : Nat) : s.FiringFrame (s.checkBeg fid) := by
  unfold State.checkBeg
  split
  · exact .refl s
  · split
    · split
      · exact frame_setFrame s _ _
      · exact .refl s
    · exact .refl s

theorem quiet_rgnBeg (pr : Pred) (reg : BitVec 6) (off : BitVec 23) : Quiet s (execRgnBeg pr reg off s) := by
  unfold execRgnBeg
  dsimp only
  have hlate := quiet_fireLate (.rgnBeg pr reg off) s (fun i => isRgnBeg i || isRgnEnd i || isSret i)
  split
  next t _ ht =>
    exact iteInduction (fun _ => quiet_next ((hlate t ht).trans (frame_checkBeg t _))) (fun _ => quiet_next (hlate t ht))
  · exact hlate

theorem frame_arrived (gid b : Nat) (g : Group) (wake : Prop) [Decidable wake] :
    s.FiringFrame (if wake then s.setGroup gid g else (s.setGroup gid g).wakeBar gid b) :=
  .ite (frame_setGroup s _ _) ((frame_setGroup s _ _).trans (frame_wakeBar _ _ _))

theorem quiet_barArr (pr : Pred) (bar : BitVec 4) (t0 t1 : Target) : Quiet s (execBarArr pr bar t0 t1 s) := by
  unfold execBarArr
  dsimp only
  split
  · exact quiet_fault s _
  · refine iteInduction (fun _ => quiet_next (.ite (.refl s) (frame_parkAt s _ _ _ _))) (fun _ => ?_)
    refine quiet_irrevocable _ s fun a g l => ?_
    cases g.bars.get? bar.toNat with
    | none => exact .refl s
    | some x => exact frame_arrived s _ _ _ _

theorem quiet_barInit (pr : Pred) (bar : BitVec 4) (ahead : BitVec 2) : Quiet s (execBarInit pr bar ahead s) := by
  unfold execBarInit
  refine quiet_irrevocable _ s fun a g l => ?_
  exact iteInduction (fun _ => .refl s) (fun _ => (frame_setGroup s _ _).trans (frame_wakeBar _ _ _))

theorem quiet_evtSig (pr : Pred) (scope : Scope) : Quiet s (execEvtSig pr scope s) := by
  unfold execEvtSig
  exact quiet_irrevocable _ s fun a g l => frame_addEvent s _ _

theorem frame_queues (q : Dict Queue) (tick : Nat) : s.FiringFrame { s with queues := q, tick := tick } :=
  frame_dispatch s s.launches s.groups s.events q s.nextId tick

theorem quiet_wqGive (pr : Pred) (scope : Scope) (t0 t1 : Target) : Quiet s (execWqGive pr scope t0 t1 s) := by
  unfold execWqGive
  refine quiet_irrevocable _ s fun a g l => ?_
  dsimp only
  cases s.queues.get? (a.fr.opL a.k).word.toNat with
  | none => exact .refl s
  | some w =>
    exact iteInduction (fun _ => .refl s) fun _ =>
      iteInduction (fun _ => .refl s) fun _ => frame_queues s _ s.tick

theorem keepsFrame_takeItem (fromTail : Bool) (a : Acting) (g : Group) (l : Launch) : KeepsFrame s (takeItem fromTail a g l s) := by
  unfold takeItem
  dsimp only
  cases s.queues.get? (a.fr.opL a.k).word.toNat with
  | none => exact .refl s
  | some w =>
    dsimp only
    generalize (if fromTail = true then w.items.getLast? else w.items.head?) = item
    cases item with
    | none => exact .refl s
    | some x => exact frame_queues s _ _

theorem quiet_wqTake (pr : Pred) (scope : Scope) (t0 t1 : Target) : Quiet s (execWqTake pr scope t0 t1 s) := by
  unfold execWqTake
  exact quiet_irrevocable _ s fun a g l => keepsFrame_takeItem s _ a g l

theorem quiet_wqSteal (pr : Pred) (scope : Scope) (t0 t1 : Target) : Quiet s (execWqSteal pr scope t0 t1 s) := by
  unfold execWqSteal
  exact quiet_irrevocable _ s fun a g l => keepsFrame_takeItem s _ a g l

theorem quiet_cvtN (pr : Pred) (tag : BitVec 3) (rm : NRound) (sat : Bool) (t0 t1 : Target) :
    Quiet s (execCvtN pr tag rm sat t0 t1 s) := by
  unfold execCvtN
  dsimp only
  refine iteInduction (fun _ => ?_) (fun _ => quiet_dataflow _ s _)
  split
  · exact quiet_fault s _
  next a _ =>
    refine iteInduction (fun _ => ?_) (fun _ => quiet_same s)
    cases a.fr.opL a.k with
    | vec v src => exact iteInduction (fun _ => quiet_next (frame_commit s a _)) (fun _ => quiet_same s)
    | val w => exact quiet_next (frame_commit s a _)
    | null => exact quiet_next (frame_commit s a _)
    | poison => exact quiet_next (frame_commit s a _)

theorem quiet_srd (pr : Pred) (num : BitVec 12) (t0 t1 : Target) : Quiet s (execSrd pr num t0 t1 s) := by
  unfold execSrd
  dsimp only
  split
  · exact quiet_fault s _
  · exact iteInduction (fun _ => quiet_next (frame_commit s _ _)) (fun _ => quiet_same s)

theorem quiet_swr (pr : Pred) (num : BitVec 12) : Quiet s (execSwr pr num s) := by
  unfold execSwr
  dsimp only
  split
  · exact quiet_fault s _
  · exact iteInduction (fun _ => iteInduction (fun _ => quiet_next (frame_commit s _ _)) (fun _ => quiet_next (frame_commit s _ _)))
      (fun _ => quiet_same s)

theorem quiet_sret (pr : Pred) : Quiet s (execSret pr s) := by
  unfold execSret
  dsimp only
  split
  · exact quiet_fault s _
  · refine iteInduction (fun _ => ?_) (fun _ => quiet_same s)
    refine iteInduction (fun _ => quiet_next (frame_commit s _ _)) fun _ => ?_
    exact iteInduction (fun _ => quiet_next (frame_commit s _ _)) fun _ => quiet_fireLate _ s _

theorem quiet_tlbinv (pr : Pred) (scope : Scope) (all : Bool) : Quiet s (execTlbinv pr scope all s) := by
  unfold execTlbinv
  dsimp only
  split
  · exact quiet_fault s _
  · refine iteInduction (fun _ => ?_) (fun _ => quiet_same s)
    split
    · exact quiet_same s
    · refine iteInduction (fun _ => quiet_next (frame_commit s _ _)) fun _ => ?_
      exact iteInduction (fun _ => quiet_next (frame_commit s _ _)) fun _ => quiet_next (frame_commit s _ _)

end Single

/-! ### Every instruction of a slot -/

/-- What `exec` makes of an instruction of a slot, but for `launch`, leaves registers, bytes and granule tags. -/
theorem quiet_exec (i : Instr) (s : State) (hslot : (encode i).isSome = true) (hlaunch : ∀ pr t0 t1, i ≠ .launch pr t0 t1) :
    Quiet s (exec i s) := by
  cases i with
  | nop | xop => exact quiet_same s
  | mov | mov3 | mov4 | genc | null | sel | fcvt | vbcast | vext | vins | vperm | vshl | vred | vsel | vcmp | viota | vcnt
  | rgnStat | cvtW | bscale => exact quiet_dataflow _ s _
  | genh | clz | ctz | popc | sext | zext | bfx | bfxu | addi | muli | andi | ori | xori | shli | shri | sari | tnz | fclass =>
    exact quiet_dataflow _ s _
  | add | sub | mul | mulh | mulhu | div | divu | rem | remu | and | or | xor | andn | shl | shr | sar | rotl | min | max
  | minu | maxu | bfi | lea => exact quiet_dataflow _ s _
  | teq | tne | tlt | tle | tltu | tleu | teqi | tnei | tlti | tlei | tltui | tleui => exact quiet_dataflow _ s _
  | fadd | fsub | fmul | fdiv | fmin | fmax | fsgnj | ffma | fsqrt | fabs | fneg | feq | flt | fle => exact quiet_dataflow _ s _
  | br | call => exact quiet_directBranch _ s _
  | bri | calli | ret => exact quiet_indirectBranch _ s
  | halt => exact quiet_halt s _ _
  | read => exact quiet_read s _ _ _ _
  | vread => exact quiet_vread s _ _ _ _
  | write => exact quiet_write s _ _
  | vwrite => exact quiet_vwrite s _ _
  | scall | trap | brk => exact quiet_deliberate _ s _
  | ldB | ldBu | ldH | ldHu | ldW | ldWu | ldD | vld => exact quiet_memory _ s fun a c inside => frame_fireLoad _ s _ _ _ a c inside
  | stB | stH | stW | stD | vst => exact quiet_memory _ s fun a c inside => frame_fireStore _ s _ _ a c inside
  | vgather => exact quiet_memory _ s fun a c inside => frame_fireGather _ s _ _ a c inside
  | vscatter => exact quiet_memory _ s fun a c inside => frame_fireScatter _ s _ _ a c inside
  | pf => exact quiet_memory _ s fun a c inside => frame_firePrefetch s _ a c inside
  | cinv | cwb => exact quiet_memory _ s fun a c inside => frame_fireCacheOp _ s a c inside
  | fence => exact quiet_memory _ s fun a c inside => frame_fireFence _ s a c inside
  | amoAdd | amoAnd | amoOr | amoXor | amoMin | amoMax | amoMinu | amoMaxu | amoSwap | amoCas | amoFadd =>
    exact quiet_memory _ s fun a c inside => frame_fireAtomic _ s _ _ _ _ a c inside
  | rgnBeg => exact quiet_rgnBeg s _ _ _
  | rgnEnd | rgnAbt | yield => exact quiet_fireLate _ s _
  | barInit => exact quiet_barInit s _ _ _
  | barArr => exact quiet_barArr s _ _ _ _
  | evtSig => exact quiet_evtSig s _ _
  | barWait pr bar => exact (exec_barWait pr bar s).symm ▸ quiet_waitFor (.barWait pr bar) s _ _ _
  | evtWait pr scope => exact (exec_evtWait pr scope s).symm ▸ quiet_waitFor (.evtWait pr scope) s _ _ _
  | wqGive => exact quiet_wqGive s _ _ _ _
  | wqTake => exact quiet_wqTake s _ _ _ _
  | wqSteal => exact quiet_wqSteal s _ _ _ _
  | launch pr t0 t1 => exact absurd rfl (hlaunch pr t0 t1)
  | cpy | cpyQ | bbarInit | bbarWait | mld | mst | cmtag => exact quiet_fireCommand _ s _
  | mma pr sreg acc kq => exact (exec_mma pr sreg acc kq s).symm ▸ quiet_fireCommand (.mma pr sreg acc kq) s _
  | mmaSp pr sreg acc kq => exact (exec_mmaSp pr sreg acc kq s).symm ▸ quiet_fireCommand (.mmaSp pr sreg acc kq) s _
  | mring pr sreg acc n kq => exact (exec_mring pr sreg acc n kq s).symm ▸ quiet_fireCommand (.mring pr sreg acc n kq) s _
  | mzero pr acc => exact (exec_mzero pr acc s).symm ▸ quiet_fireCommand (.mzero pr acc) s _
  | cvtN => exact quiet_cvtN s _ _ _ _ _ _
  | srd => exact quiet_srd s _ _ _ _
  | swr => exact quiet_swr s _ _
  | sret => exact quiet_sret s _
  | tlbinv => exact quiet_tlbinv s _ _ _
  | cyc => exact quiet_cyc s _ _ _
  | _ => exact absurd hslot Bool.false_ne_true

/-- Settles O11: no firing but that of `launch` goes beyond frames, guesses, translations, accesses and the objects of
R204. -/
theorem firingKeepsRegistersAndBytes : Obligations.FiringKeepsRegistersAndBytes :=
  ⟨fun i s t hslot hlaunch ht => (quiet_exec i s hslot hlaunch t ht).regs,
    fun i s t hslot hlaunch ht => (quiet_exec i s hslot hlaunch t ht).store.sameBytes⟩

end Sys2Proof.Machine
end

section
/-! PROOFS. The form of memory (log 2) under the operations on the memories, the last-level cache, the bridge and the regions. -/

namespace Sys2Proof.Machine

/-- Rising addresses and no zero byte in the memories, 128 bytes in each line of the last-level cache (log 2). -/
structure State.Formed (s : State) : Prop where
  mem : s.mem.wf = true
  cmem : s.cmem.wf = true
  llc : ∀ e ∈ s.llc, e.2.data.length = 128

theorem State.Formed.same {s t : State} (h : s.Formed) (hm : t.mem = s.mem) (hc : t.cmem = s.cmem) (hl : t.llc = s.llc) :
    t.Formed := ⟨hm ▸ h.mem, hc ▸ h.cmem, hl ▸ h.llc⟩

theorem State.Formed.ite {s t : State} {c : Prop} {_ : Decidable c} (hs : s.Formed) (ht : t.Formed) :
    (if c then s else t).Formed := iteInduction (fun _ => hs) (fun _ => ht)

theorem State.Formed.of_pair {α : Type} {p : α × State} {x : α} {t : State} (hp : p.2.Formed) (he : p = (x, t)) : t.Formed := by
  rw [he] at hp
  exact hp

theorem State.Formed.foldl {α : Type} {l : List α} {f : State → α → State} {s : State} (h : s.Formed)
    (hf : ∀ (t : State) (a : α), t.Formed → (f t a).Formed) : (l.foldl f s).Formed :=
  List.foldlRecOn l f (motive := State.Formed) h fun t ht a _ => hf t a ht

theorem formed_of_none (t : State) (ht : (none : Option State) = some t) : t.Formed := absurd ht (Option.some_ne_none t).symm

/-- A write to memory leaves the lines of the cache. -/
theorem writeBack_llc (s : State) (line : Nat) (l : LlcLine) : (s.writeBack line l).llc = s.llc := by
  obtain ⟨_, _, hk⟩ := writeBack_keeps s line l
  rw [hk]

section Rules
variable {s t : State} (h : s.Formed)
include h

/-! #### Setting one component -/

theorem State.Formed.setFibre {fid : Nat} {f : Fibre} : (s.setFibre fid f).Formed := h.same rfl rfl rfl
theorem State.Formed.setCell {c : Nat} {x : CellSt} : (s.setCell c x).Formed := h.same rfl rfl rfl
theorem State.Formed.setGroup {gid : Nat} {g : Group} : (s.setGroup gid g).Formed := h.same rfl rfl rfl
theorem State.Formed.setAccess {oid : Nat} {x : Access} : (s.setAccess oid x).Formed := h.same rfl rfl rfl
theorem State.Formed.setDie {d : Nat} {x : Die} : (s.setDie d x).Formed := h.same rfl rfl rfl
theorem State.Formed.emit {m : OutMsg} : (s.emit m).Formed := h.same rfl rfl rfl
theorem State.Formed.putBack {x : Input} : (s.putBack x).Formed := h.same rfl rfl rfl
theorem State.Formed.setHalf {half : Nat} {x : Half} : (s.setHalf half x).Formed := h.same rfl rfl rfl
theorem State.Formed.modVirga {f : Virga → Virga} : (s.modVirga f).Formed := h.same rfl rfl rfl
theorem State.Formed.settle : s.settle.Formed := h.modVirga
theorem State.Formed.wakeWhere {p : Fibre → Bool} : (s.wakeWhere p).Formed := h.same rfl rfl rfl

theorem State.Formed.modFibre {fid : Nat} {f : Fibre → Fibre} : (s.modFibre fid f).Formed :=
  h.same (State.modFibre_mem s fid f) (State.modFibre_cmem s fid f) (State.modFibre_llc s fid f)

theorem State.Formed.setFrame {fid : Nat} {fr : Frame} : (s.setFrame fid fr).Formed := h.modFibre

theorem State.Formed.answerFibre {fid code : Nat} : (s.answerFibre fid code).Formed := h.modFibre

theorem State.Formed.writeStatus {fid sreg : Nat} {w : Word} : (s.writeStatus fid sreg w).Formed := h.modFibre

theorem State.Formed.sameStore (ht : s.SameStore t) : t.Formed := h.same ht.mem ht.cmem ht.llc

theorem State.Formed.firing (ht : s.FiringFrame t) : t.Formed := h.sameStore ht.store

theorem State.Formed.commit {a : Acting} {fr : Frame} : (a.commit s fr).Formed := h.firing (frame_commit s a fr)

theorem State.Formed.squash {fid seq src : Nat} : (s.squash fid seq src).Formed := h.firing (frame_squash s fid seq src)

theorem State.Formed.check {c : Ctx} {w : Want} {va : Word} {n : Nat} : (s.check c w va n).2.Formed := h.firing (frame_check s c w va n)

/-! #### Counters, snoops and lines of the L1s -/

theorem State.Formed.countCell {cell src n : Nat} : (countCell cell src n s).Formed := by
  obtain ⟨d, hd⟩ := countCell_keeps cell src n s
  exact hd ▸ h.same rfl rfl rfl

theorem State.Formed.countSector {sec src n : Nat} : (countSector sec src n s).Formed := by
  obtain ⟨d, hd⟩ := countSector_keeps sec src n s
  rw [hd]
  exact h.same rfl rfl rfl

theorem State.Formed.countLlc {line : Nat} : (s.countLlc line).Formed := h.countSector

theorem State.Formed.countWalk {sec : Nat} {xroot va : Word} : (s.countWalk sec xroot va).Formed := h.foldl fun _ _ ht => ht.countLlc

theorem State.Formed.backInvalidate {half : Nat} {inv : Bool} : (s.backInvalidate half inv).Formed := by
  unfold State.backInvalidate
  exact h.ite (h.same rfl rfl rfl)

theorem State.Formed.walkWaits {cell : Nat} {x : Xlate} {rs : List (Word × Nat)} (ht : s.walkWaits cell x rs = some t) : t.Formed :=
  h.firing (frame_walkWaits ht)

theorem State.Formed.checkWaits {c : Ctx} {w : Want} {va : Word} {n : Nat} (ht : s.checkWaits c w va n = some t) : t.Formed :=
  h.firing (frame_checkWaits ht)

theorem State.Formed.addSharer {entry cell : Nat} : (s.addSharer entry cell).Formed := by
  unfold State.addSharer
  exact h.ite (.ite (h.same rfl rfl rfl) (h.same rfl rfl rfl))

theorem State.Formed.setSharers {d : Dict (List Nat)} : ({ s with sharers := d } : State).Formed := h.same rfl rfl rfl

theorem State.Formed.dropL1Half {cell half : Nat} : (s.dropL1Half cell half).Formed := by
  unfold State.dropL1Half
  dsimp only
  split
  · exact h
  · exact h.setCell

theorem State.Formed.dropHalfEverywhere {half : Nat} : (s.dropHalfEverywhere half).Formed := by
  have hdropped : (((s.sharers.getD (halfEntry half) []).foldl (fun s c => s.dropL1Half c half) s)).Formed :=
    h.foldl fun _ _ ht => ht.dropL1Half
  exact hdropped.countSector.setSharers

theorem State.Formed.dropL1 {cell line : Nat} : (s.dropL1 cell line).Formed := by
  unfold State.dropL1
  exact .ite h.setCell h

/-! #### The memories and the last-level cache -/

theorem State.Formed.setMem {m : Mem} (hwf : m.wf = true) : ({ s with mem := m } : State).Formed := ⟨hwf, h.cmem, h.llc⟩

theorem State.Formed.setCmem {m : Mem} (hwf : m.wf = true) : ({ s with cmem := m } : State).Formed := ⟨h.mem, hwf, h.llc⟩

theorem State.Formed.setHalves {d : Dict Half} : ({ s with halves := d } : State).Formed := h.same rfl rfl rfl

theorem State.Formed.setLlc {line : Nat} {l : LlcLine} (hlen : l.data.length = 128) :
    ({ s with llc := s.llc.put line l } : State).Formed := by
  refine ⟨h.mem, h.cmem, fun e he => ?_⟩
  rcases Dict.mem_put s.llc line l e he with rfl | he
  · exact hlen
  · exact h.llc e he

theorem State.Formed.filterLlc {p : Nat × LlcLine → Bool} : ({ s with llc := s.llc.filter p } : State).Formed :=
  ⟨h.mem, h.cmem, fun e he => h.llc e (List.mem_of_mem_filter he)⟩

theorem State.Formed.cached {line : Nat} {l : LlcLine} (hl : s.llc.get? line = some l) : l.data.length = 128 :=
  h.llc _ (Dict.mem_of_get?_eq_some hl)

theorem State.Formed.toHost {half : Nat} {bs : List Byte} : (s.toHost half bs).Formed :=
  ⟨Mem.wf_setBytes _ _ _ h.mem, h.cmem, h.llc⟩

theorem State.Formed.writeBack {line : Nat} {l : LlcLine} : (s.writeBack line l).Formed := by
  unfold State.writeBack
  refine h.ite (.ite ⟨List.foldlRecOn _ _ (motive := fun m : Mem => m.wf = true) h.mem ?_, h.cmem, h.llc⟩
    ⟨Mem.wf_setBytes _ _ _ h.mem, h.cmem, h.llc⟩)
  exact fun m hm i _ => Mem.wf_setByte m _ _ hm

theorem State.Formed.cleanLlc {line : Nat} : (s.cleanLlc line).Formed := by
  unfold State.cleanLlc
  split
  · exact h
  next l hl =>
    rw [← writeBack_llc s line l]
    exact h.ite (h.writeBack.setLlc (h.cached hl :))

theorem State.Formed.evictLlc {line : Nat} : (s.evictLlc line).Formed := by
  unfold State.evictLlc
  split
  · exact h
  next l _ =>
    rw [← writeBack_llc s line l]
    exact h.writeBack.filterLlc

theorem State.Formed.makeRoom {line : Nat} : (s.makeRoom line).Formed := by
  unfold State.makeRoom
  exact h.ite (h.ite h.evictLlc)

theorem State.Formed.writeByte {a key : Nat} {b : Byte} : (s.writeByte a key b).Formed := by
  have hroom := h.makeRoom (line := lineOf a)
  refine hroom.setLlc ?_
  rw [List.length_set]
  split
  next l hl =>
    split
    · exact hroom.cached hl
    · exact length_lineData _ _ _
  · exact length_lineData _ _ _

omit h in
theorem State.Formed.homeWrite (h : s.Formed) {a key : Nat} {bs : List Byte} : (s.homeWrite a key bs).Formed := by
  induction bs generalizing s a with
  | nil => exact h
  | cons b bs ih =>
    rw [homeWrite_cons]
    exact ih h.writeByte

/-! #### Snoops and reads -/

theorem State.Formed.snpInv {half : Nat} : (s.snpInv half).Formed := by
  have hcounted := h.countSector (sec := bridgeSector (64 * half)) (src := 15) (n := 1)
  refine .ite hcounted.dropHalfEverywhere.setHalf.emit ?_
  split
  · exact hcounted.emit
  · exact hcounted.dropHalfEverywhere.setHalf.emit
  · exact hcounted.dropHalfEverywhere.setHalf.emit
  · exact hcounted.dropHalfEverywhere.toHost.setHalf.emit
  · exact hcounted.dropHalfEverywhere.toHost.emit

theorem State.Formed.snpData {half : Nat} : (s.snpData half).Formed := by
  have hcounted := h.countSector (sec := bridgeSector (64 * half)) (src := 15) (n := 1)
  refine .ite hcounted.dropHalfEverywhere.setHalf.emit ?_
  split
  · exact hcounted.emit
  · exact hcounted.emit
  · exact hcounted.setHalf.emit
  · exact hcounted.dropHalfEverywhere.toHost.setHalf.emit
  · exact hcounted.toHost.emit

theorem State.Formed.hostSnoops {halves : List Nat} {write : Bool} : (s.hostSnoops halves write).Formed := by
  refine h.foldl fun t half ht => ?_
  split
  · exact ht
  · exact ht
  · exact ht.snpInv
  · exact ht.snpData

theorem State.Formed.ncRead {loc : Loc} {n : Nat} : (s.ncRead loc n).2.Formed := by
  unfold State.ncRead
  dsimp only
  split
  · dsimp only
    exact h.hostSnoops.countLlc
  · exact h.hostSnoops.cleanLlc

theorem State.Formed.engineRead {loc : Loc} {n : Nat} : (s.engineRead loc n).2.Formed := by
  unfold State.engineRead
  split
  · exact h
  · dsimp only
    split
    · exact h
    · split
      · exact h.backInvalidate
      · dsimp only
        exact h.countLlc
  · exact h.ncRead
  · dsimp only
    split
    · exact .ite h (h.same rfl rfl rfl)
    · exact h

omit h in
theorem State.Formed.engineReads (h : s.Formed) {rs : List (Loc × Nat)} : (s.engineReads rs).2.Formed := by
  induction rs generalizing s with
  | nil => exact h
  | cons r rs ih =>
    unfold State.engineReads
    have hread := h.engineRead (loc := r.1) (n := r.2)
    split
    next t ht => exact hread.of_pair ht
    next bs t ht =>
      have hrest := ih (hread.of_pair ht)
      split
      next u hu => exact hrest.of_pair hu
      next more u hu => exact hrest.of_pair hu

/-! #### Cell memory and the regions -/

theorem State.Formed.testWaits {cell : Nat} : (s.testWaits cell).Formed := by
  refine h.foldl fun t w ht => ?_
  exact .ite ht.setCell.writeStatus ht

theorem State.Formed.putCell {a : Nat} {bs : List Byte} : (s.putCell a bs).Formed := by
  have hput := h.setCmem (Mem.wf_setBytes s.cmem a bs h.cmem)
  exact .ite hput hput.testWaits

omit h in
theorem State.Formed.abortIn (h : s.Formed) {fuel slot cause : Nat} : (State.abortIn fuel s slot cause).Formed := by
  induction fuel generalizing s slot cause with
  | zero => exact h
  | succ fuel ih =>
    unfold State.abortIn
    split
    · exact h
    · exact .ite ((h.modVirga.foldl fun t d ht => ih ht).modVirga.answerFibre.countSector) h

theorem State.Formed.abortSlot {slot cause : Nat} : (s.abortSlot slot cause).Formed := h.abortIn.settle

theorem State.Formed.plainConflict {line : Nat} : (s.plainConflict line).Formed := h.foldl fun _ _ ht => ht.abortSlot

theorem State.Formed.unmarkLines {a n : Nat} : (s.unmarkLines a n).Formed := h.same rfl rfl rfl

/-! #### Writes of the engines -/

theorem State.Formed.ncWrite {loc : Loc} {bs : List Byte} (ht : s.ncWrite loc bs = some t) : t.Formed := by
  unfold State.ncWrite at ht
  dsimp only at ht
  split at ht
  · cases ht
  · obtain rfl := Option.some.inj ht
    exact .ite h.hostSnoops.countLlc.homeWrite (h.hostSnoops.evictLlc.setMem (Mem.wf_setBytes _ _ _ h.hostSnoops.evictLlc.mem))

/-- The sharers of a line drop it, and its entry of the directory goes. -/
theorem State.Formed.dropShared {line : Nat} {sh : List Nat} : (sh.foldl (fun s c => s.dropL1 c line) s).Formed :=
  h.foldl fun _ _ ht => ht.dropL1

theorem State.Formed.engineWrite {loc : Loc} {bs : List Byte} :
    (s.engineWrite loc bs).2.Formed ∧ ∀ t, (s.engineWrite loc bs).1 = some t → t.Formed := by
  unfold State.engineWrite
  dsimp only
  split
  · refine ⟨h, fun t ht => ?_⟩
    obtain rfl := Option.some.inj ht
    exact h.putCell.same rfl rfl rfl
  · split
    · exact ⟨h, formed_of_none⟩
    · split
      · exact ⟨h.backInvalidate, formed_of_none⟩
      · refine ⟨h, fun t ht => ?_⟩
        obtain rfl := Option.some.inj ht
        exact (State.Formed.ite (h.plainConflict.countLlc.dropShared.countSector.setSharers.foldl fun _ _ hu => hu.homeWrite)
          h.plainConflict.countLlc.dropShared.countSector.setSharers.homeWrite).unmarkLines
  · refine ⟨h, fun t ht => ?_⟩
    obtain ⟨u, hu, rfl⟩ := Option.map_eq_some_iff.1 ht
    exact (h.ncWrite hu).unmarkLines
  · split
    · exact ⟨h, formed_of_none⟩
    · split
      · refine ⟨h, fun t ht => ?_⟩
        obtain rfl := Option.some.inj ht
        exact h.dropHalfEverywhere.setHalves
      · refine ⟨h, fun t ht => ?_⟩
        obtain rfl := Option.some.inj ht
        exact h.dropHalfEverywhere.setHalves
      · exact ⟨h.same rfl rfl rfl, formed_of_none⟩
      · exact ⟨h.same rfl rfl rfl, formed_of_none⟩
      · exact ⟨h, formed_of_none⟩

omit h in
theorem State.Formed.engineWrites (h : s.Formed) {ws : List (Loc × List Byte)} :
    (s.engineWrites ws).2.Formed ∧ ∀ t, (s.engineWrites ws).1 = some t → t.Formed := by
  induction ws generalizing s with
  | nil => exact ⟨h, fun t ht => Option.some.inj ht ▸ h⟩
  | cons w ws ih =>
    unfold State.engineWrites
    obtain ⟨hleft, hdone⟩ := h.engineWrite (loc := w.1) (bs := w.2)
    split
    next u hu => exact ⟨hleft.of_pair hu, formed_of_none⟩
    next t u hu =>
      obtain ⟨hrest, hall⟩ := ih (hdone t (by rw [hu]))
      split
      · exact ⟨(ih h).1, formed_of_none⟩
      next v _ hv => exact ⟨h, fun x hx => hall x (by rw [hv]; exact hx)⟩

end Rules

end Sys2Proof.Machine
end

section
/-! PROOFS. The form of memory (log 2) under `launch`, fetch, commit and traps. -/

namespace Sys2Proof.Machine

/-- An outcome that goes on has memories and a cache of the form. -/
def Forms (o : Host.Outcome State Fault Refusal) : Prop := ∀ t, o = .next t → t.Formed

theorem forms_next {t : State} (ht : t.Formed) : Forms (.next t) := fun _ h => Host.Outcome.next.inj h ▸ ht

theorem forms_fault (f : Fault) : Forms (.fault f) := fun _ h => Host.Outcome.noConfusion rfl rfl rfl (heq_of_eq h)

theorem forms_ite {c : Prop} {_ : Decidable c} {o p : Host.Outcome State Fault Refusal} (ho : Forms o) (hp : Forms p) :
    Forms (if c then o else p) := iteInduction (fun _ => ho) (fun _ => hp)

section Rules
variable {s t : State} (h : s.Formed)
include h

theorem State.Formed.segments {c : Ctx} {kind : AccKind} {va : Word} {n : Nat} : (s.segments c kind va n).2.Formed := by
  obtain ⟨_, _, _, _, hk⟩ := segments_keeps s c kind va n
  exact hk ▸ h.same rfl rfl rfl

theorem State.Formed.pagesOf {c : Ctx} {fuel : Nat} {va : Word} {n : Nat} : (s.pagesOf c fuel va n).2.Formed := by
  obtain ⟨_, _, _, _, hk⟩ := pagesOf_keeps c fuel s va n
  exact hk ▸ h.same rfl rfl rfl

theorem State.Formed.tick {n : Nat} : ({ s with tick := n } : State).Formed := h.same rfl rfl rfl

theorem State.Formed.setAccesses {d : Dict Access} : ({ s with accesses := d } : State).Formed := h.same rfl rfl rfl

theorem State.Formed.parkAt {fid seq : Nat} {addr : Word} {p : Park} : (s.parkAt fid seq addr p).Formed :=
  h.firing (frame_parkAt s fid seq addr p)

theorem State.Formed.requeued {old : State} : (State.requeued old s).Formed := h.firing (frame_requeued s old)

theorem State.Formed.checkBeg {fid : Nat} : (s.checkBeg fid).Formed := h.firing (frame_checkBeg s fid)

/-! #### `launch` (R211) -/

/-- What an operation of R204 leaves, whether it is performed or waits. -/
theorem State.Formed.irrevocableWith {α : Type} {fin : Acting → α → Frame} {i : Instr} {release : Bool}
    {check : Acting → Group → Launch → State → Option (Cause × Word)}
    {go : Acting → Group → Launch → State → Option (State × α) × State}
    (hgo : ∀ a g l, (go a g l s).2.Formed ∧ ∀ x, (go a g l s).1 = some x → x.1.Formed) :
    Forms (irrevocableWith fin i release check go s) := by
  unfold Machine.irrevocableWith
  split
  · exact forms_fault _
  next a _ =>
    refine forms_ite ?_ (forms_next h)
    split
    next inside g l _ _ =>
      dsimp only
      split
      · exact forms_ite (forms_next h.commit) (forms_next h.commit)
      · split
        · refine forms_ite ?_ (forms_next (h.firing (frame_waits s _)))
          obtain ⟨hwaits, hdone⟩ := hgo a g l
          split
          next t ht => exact forms_next (hwaits.of_pair ht)
          next t x _ ht => exact forms_next ((hdone (t, x) (by rw [ht])).setFrame)
        · exact forms_next h.commit
    · exact forms_next h

omit h in
theorem of_none_eq_some {α : Type} {P : α → Prop} (x : α) (hx : (none : Option α) = some x) : P x :=
  absurd hx (Option.some_ne_none x).symm

theorem State.Formed.performLaunch {i : Instr} {a : Acting} {g : Group} {l : Launch} :
    (performLaunch i a g l s).2.Formed ∧ ∀ x, (performLaunch i a g l s).1 = some x → x.1.Formed := by
  unfold Machine.performLaunch
  split
  · exact ⟨h, of_none_eq_some⟩
  next c _ =>
    split
    · exact ⟨h.commit, of_none_eq_some⟩
    · split
      · exact ⟨h, of_none_eq_some⟩
      · have hread := h.engineReads (rs := s.recordPlaces c (a.fr.opL a.k).word)
        split
        next u hu => exact ⟨hread.of_pair hu, of_none_eq_some⟩
        next bs u hu =>
          have hu := hread.of_pair hu
          dsimp only
          split
          next v hv => exact ⟨hu.engineWrites.1.of_pair hv, of_none_eq_some⟩
          next v _ hv =>
            have hv := hu.engineWrites.2 v (by rw [hv])
            refine ⟨hu, fun x hx => ?_⟩
            obtain rfl := Option.some.inj hx
            exact hv.check.same rfl rfl rfl

theorem forms_launch {pr : Pred} {t0 t1 : Target} : Forms (execLaunch pr t0 t1 s) := by
  unfold execLaunch
  dsimp only
  split
  next u hu =>
    refine forms_next ?_
    unfold State.launchWaits at hu
    split at hu
    · exact of_none_eq_some _ hu
    · split at hu
      · exact of_none_eq_some _ hu
      · obtain ⟨c, _, hc⟩ := Option.bind_eq_some_iff.1 hu
        exact h.checkWaits hc
  · exact h.irrevocableWith fun a g l => h.performLaunch

/-! #### Grant and fetch -/

theorem forms_frameGrant {cell : Nat} : Forms (execFrameGrant cell s) := by
  unfold execFrameGrant
  refine forms_ite (forms_next h) ?_
  split
  · exact forms_next h
  · exact forms_next ((h.setCell.countCell.foldl fun _ _ ht => ht.modFibre).setFibre)

theorem State.Formed.fetchCheck {c : Ctx} {va : Word} {n : Nat} : (s.fetchCheck c va n).2.Formed := by
  unfold State.fetchCheck
  split
  · exact h
  · split
    · exact h
    · have hpages := h.pagesOf (c := c) (fuel := 1) (va := va) (n := n)
      split
      next hu =>
        rw [hu] at hpages
        split
        · exact hpages
        · exact hpages
      next hu =>
        rw [hu] at hpages
        exact hpages

theorem State.Formed.fetchUnit {cell : Nat} {loc : Loc} : (s.fetchUnit cell loc).2.Formed := by
  unfold State.fetchUnit
  dsimp only
  split
  · exact h
  · have hread := h.engineRead (loc := loc) (n := 32)
    split
    next u hu => exact hread.of_pair hu
    next bs u hu =>
      have hu := (hread.of_pair hu).countCell (cell := cell) (src := 8) (n := 1)
      split
      · exact hu.tick.setCell
      · exact hu.tick

omit h in
theorem State.Formed.fetchUnits (h : s.Formed) {c : Ctx} {cell : Nat} {base : Word} {us : List Nat} {bs : List Byte}
    {fs : List Recorded} : (s.fetchUnits c cell base us bs fs).2.Formed := by
  induction us generalizing s bs fs with
  | nil => exact h
  | cons u us ih =>
    unfold State.fetchUnits
    dsimp only
    have hcheck := h.fetchCheck (c := c) (va := base + BitVec.ofNat 64 (32 * u)) (n := 32)
    split
    next t ht => exact h.walkWaits ht
    next k t _ ht => exact ih (hcheck.of_pair ht)
    next loc t _ ht =>
      have hunit := (hcheck.of_pair ht).fetchUnit (cell := cell) (loc := loc)
      split
      next v hv => exact hunit.of_pair hv
      next b v hv => exact ih (hunit.of_pair hv)

theorem forms_blockFetch {fid seq : Nat} : Forms (execBlockFetch fid seq s) := by
  unfold execBlockFetch
  split
  · exact forms_next h
  next f _ =>
    split
    next fr c _ _ =>
      refine forms_ite (forms_next h) ?_
      dsimp only
      have hhead := h.tick (n := s.tick + 1) |>.fetchUnits (c := c) (cell := c.cell) (base := fr.addr) (us := [0]) (bs := []) (fs := [])
      split
      next t ht => exact forms_next (hhead.of_pair ht)
      next hdr fs t ht =>
        have ht := hhead.of_pair ht
        refine forms_ite (forms_next ht.setFibre) ?_
        have htext := ht.fetchUnits (c := c) (cell := c.cell) (base := fr.addr)
          (us := (List.range (2 * (leNat hdr % 16 + 1))).map (· + 1)) (bs := []) (fs := [])
        split
        next u hu => exact forms_next (htext.of_pair hu)
        next text fs' u hu =>
          have hu := htext.of_pair hu
          refine forms_ite (forms_next hu.setFibre) ?_
          split
          · exact forms_next hu.parkAt
          · exact forms_next hu.setFibre
    · exact forms_next h

end Rules

end Sys2Proof.Machine
end

section
/-! PROOFS. The form of memory (log 2) under commits, traps and replies. -/

namespace Sys2Proof.Machine

section Rules
variable {s t : State} (h : s.Formed)
include h

theorem State.Formed.sysWrite {fid n : Nat} {v : Word} : (s.sysWrite fid n v).Formed := by
  unfold State.sysWrite
  split
  · exact h
  · exact .ite h.setCell h.setFibre

theorem State.Formed.enterSys {fid : Nat} {fr : Frame} : (s.enterSys fid fr).Formed :=
  (h.foldl fun _ _ ht => ht.sysWrite).modFibre

theorem State.Formed.purge {fid : Nat} : (s.purge fid).Formed := by
  unfold State.purge
  split
  · exact h.setAccesses
  · exact h.setAccesses

theorem State.Formed.countPages {cell asn : Nat} {xroot : Word} {pages : List (Nat × Word × Nat)} :
    (s.countPages cell asn xroot pages).Formed := by
  refine h.foldl fun t e ht => ?_
  exact .ite ht (.ite ht.countCell ht.countCell.countSector.countWalk)

theorem State.Formed.cacheRange {cell : Nat} {x : Xlate} {drop : Bool} {lo len : Nat} :
    (s.cacheRange cell x drop lo len).Formed := by
  unfold State.cacheRange
  dsimp only
  refine .foldl (.ite h.countPages.setCell h.countPages) fun t line ht => ?_
  exact .ite (.ite ht.evictLlc ht.cleanLlc) ht

theorem State.Formed.runCacheOps {fid : Nat} : (s.runCacheOps fid).Formed := by
  refine h.foldl fun t e ht => ?_
  split
  · refine .ite (.ite ht (.ite ht.setAccess ?_)) ht
    split
    · exact ht.backInvalidate
    · exact ht.cacheRange.setAccess
  · exact ht

theorem State.Formed.releaseStores {fid seq : Nat} : (s.releaseStores fid seq).Formed := h.setAccesses.runCacheOps.purge

theorem State.Formed.setBarrier {cell : Nat} {va expect : Word} : (s.setBarrier cell va expect).Formed := h.putCell

theorem State.Formed.setNextId {n : Nat} : ({ s with nextId := n } : State).Formed := h.same rfl rfl rfl

theorem State.Formed.handOver {fid seq cell : Nat} {x : Xlate} {k : Command} : (s.handOver fid seq cell x k).Formed := by
  unfold State.handOver
  extract_lets id s1 u c copy
  have hu : u.Formed := by
    unfold u
    split
    · exact h.setNextId.modFibre
    · exact h.setNextId
  clear_value u
  split
  · exact hu.setCell
  · exact hu.setCell
  · exact .ite hu.setBarrier hu.setCell
  · exact hu.setCell.testWaits
  · exact hu.setCell

theorem State.Formed.handOverAll {fid cell : Nat} {x : Xlate} {fr : Frame} : (s.handOverAll fid cell x fr).Formed :=
  h.foldl fun _ _ ht => ht.handOver

theorem State.Formed.setFibres {d : Dict Fibre} : ({ s with fibres := d } : State).Formed := h.same rfl rfl rfl

theorem State.Formed.haltCheck {gid : Nat} : (s.haltCheck gid).Formed := by
  unfold State.haltCheck
  split
  · exact h
  · exact .ite (h.setFibres.foldl fun _ _ ht => ht.setCell).setGroup h

theorem State.Formed.haltFibre {fid : Nat} : (s.haltFibre fid).Formed := by
  unfold State.haltFibre
  split
  · exact h
  · exact h.setAccesses.setFibre.setCell.countCell

theorem State.Formed.abortOpen {f : Fibre} : (s.abortOpen f).Formed := by
  unfold State.abortOpen
  dsimp only
  have hopen : ∀ u : State, u.Formed → ∀ slot grant, (if u.virga.alive slot grant then u.abortSlot slot 3 else u).Formed :=
    fun u hu _ _ => .ite hu.abortSlot hu
  split <;> split
  · exact hopen _ (hopen _ h _ _) _ _
  · exact hopen _ h _ _
  · exact hopen _ h _ _
  · exact h

theorem State.Formed.refetch {fid : Nat} {fr : Frame} : (s.refetch fid fr).Formed := by
  unfold State.refetch
  split
  · exact h
  · exact .ite h.setFibre.squash.modFibre h.setFibre

theorem State.Formed.doYield {fid seq : Nat} : (s.doYield fid seq).Formed := by
  unfold State.doYield
  dsimp only
  split
  · exact h.squash
  · exact h.squash.setFibre

theorem State.Formed.renewed {c : Ctx} {a : Access} : (s.renewed c a).2.Formed := by
  unfold State.renewed
  extract_lets kind go
  have hpieces : (a.pieces.foldl go (.ok [], s)).2.Formed := by
    refine List.foldlRecOn a.pieces go (motive := fun r : Except (Cause × Word) (List Piece) × State => r.2.Formed)
      h fun r hr p _ => ?_
    unfold go
    split
    · exact hr
    next ps u =>
      have hsegments := hr.segments (c := c) (kind := kind) (va := p.va) (n := p.n)
      split
      next v hv => exact hsegments.of_pair hv
      next v hv => exact hsegments.of_pair hv
      next v hv => exact hsegments.of_pair hv
  split
  next u hu => exact hpieces.of_pair hu
  next u hu => exact hpieces.of_pair hu

theorem State.Formed.resumeHeld {fid seq : Nat} {again : Dict Access} : (s.resumeHeld fid seq again).Formed := by
  refine h.foldl fun t e ht => ?_
  split
  next c _ =>
    refine .ite ?_ ht.setAccess
    have hnew := ht.renewed (c := c) (a := e.2)
    split
    next u hu => exact (hnew.of_pair hu).setAccess
    next u hu => exact (hnew.of_pair hu).modFibre
  · exact ht

theorem State.Formed.doSret {fid seq : Nat} : (s.doSret fid seq).Formed := by
  unfold State.doSret
  dsimp only
  split
  · exact h.squash
  · split
    · exact .ite h.squash.setFibre.resumeHeld h.squash.setFibre
    · exact h.squash.setFibre

theorem State.Formed.setLaunches {d : Dict Launch} : ({ s with launches := d } : State).Formed := h.same rfl rfl rfl

theorem State.Formed.unserved {lid : Nat} : (s.unserved lid).Formed := by
  unfold State.unserved
  extract_lets u
  have hu : u.Formed := h.tick
  clear_value u
  exact .ite hu hu.setLaunches.requeued

theorem State.Formed.enterTrap {fid seq tidx : Nat} {c : Cause} {tblock taddr : Word} {rf resume keep : Bool} :
    (s.enterTrap fid seq c tblock tidx taddr rf resume keep).Formed := by
  unfold State.enterTrap
  dsimp only
  split
  · exact .ite h.squash.modFibre.unserved h.squash.modFibre
  · exact h.squash.modFibre

theorem State.Formed.parkNamed {fid : Nat} : (s.parkNamed fid).Formed := by
  unfold State.parkNamed
  split
  · exact h
  · split
    · split
      · exact h.parkAt
      · exact h
    · exact h

/-! #### Commit -/

theorem State.Formed.commitBlock {fid : Nat} {early : Bool} {slot : Option (Nat × Nat)} : (s.commitBlock fid early slot).Formed := by
  unfold State.commitBlock
  split
  · exact h
  next f _ =>
    split
    · exact h
    next fr younger _ =>
      extract_lets cell x step s1 s2 s3 s4 s5 s6 s7 s8 s9 s10
      have hs2 : s2.Formed := h.setFibre.enterSys
      clear_value s2
      have hs3 : s3.Formed := by
        unfold s3
        split
        · exact hs2.modFibre
        · exact hs2
      clear_value s3
      have hs4 : s4.Formed := .ite hs3 hs3.releaseStores
      clear_value s4
      have hs6 : s6.Formed := hs4.handOverAll.countCell
      clear_value s6
      have hs8 : s8.Formed := hs6.refetch.modFibre
      clear_value s8
      have hs9 : s9.Formed := .ite hs8.doYield hs8
      clear_value s9
      have hs10 : s10.Formed := .ite hs9.doSret hs9
      clear_value s10
      refine .ite hs6.abortOpen.haltFibre.haltCheck (.ite ?_ hs10.parkNamed.checkBeg)
      split
      · exact hs10.setFibre.enterTrap.modFibre
      · exact hs10

theorem State.Formed.setVirga {v : Virga} : ({ s with virga := v } : State).Formed := h.same rfl rfl rfl

theorem State.Formed.sretWaits {f : Fibre} {fr : Frame} (ht : s.sretWaits f fr = some t) : t.Formed := by
  unfold State.sretWaits at ht
  split at ht
  · exact h.walkWaits ht
  · exact of_none_eq_some _ ht

theorem State.Formed.tryCommit {fid : Nat} {f : Fibre} {fr : Frame} {l : Launch} : (s.tryCommit fid f fr l).Formed := by
  unfold State.tryCommit
  dsimp only
  split
  · exact .ite h h.parkAt
  next u _ hu => exact h.sretWaits hu
  · refine .ite h ?_
    split
    · split
      · exact h.setFrame
      · exact .ite h (.ite h.commitBlock h.setVirga.setFrame)
    · split
      next slot grant _ =>
        refine .ite ?_ (.ite (.ite h h.setFrame.releaseStores) h.commitBlock)
        have habort : (if s.virga.alive slot grant then s.abortSlot slot 3 else s).Formed := .ite h.abortSlot h
        exact habort.setFrame
      · exact h.commitBlock

theorem forms_blockCommit {fid : Nat} : Forms (execBlockCommit fid s) := by
  unfold execBlockCommit
  split
  · exact forms_next h
  · split
    · exact forms_ite (forms_next h.tryCommit) (forms_next h)
    · exact forms_next h

/-! #### Traps -/

theorem State.Formed.stepIndex {fid : Nat} {fr : Frame} {k : Nat} : (s.stepIndex fid fr k).Formed := h.enterTrap.modFibre

theorem State.Formed.trapNow {fid : Nat} {fr : Frame} {r : Recorded} {rf keep : Bool} : (s.trapNow fid fr r rf keep).Formed :=
  h.tick.enterTrap

theorem State.Formed.takeAbort {fid : Nat} {f : Fibre} {c : Nat} : (s.takeAbort fid f c).Formed := h.squash.countCell.modFibre

theorem State.Formed.trapInRegion {fid : Nat} {f : Fibre} {fr : Frame} {r : Recorded} {slot grant : Nat} :
    (s.trapInRegion fid f fr r slot grant).Formed := by
  unfold State.trapInRegion
  split
  · exact .ite h.setFibre.countCell.trapNow h
  · exact .ite h.takeAbort h
  · exact .ite h.setFibre.abortSlot h

theorem forms_trapDelivery {fid : Nat} : Forms (execTrapDelivery fid s) := by
  unfold execTrapDelivery
  split
  · exact forms_next h
  · split
    · refine forms_ite (forms_next h) (forms_ite ?_ (forms_ite (forms_next (.ite h.setFrame h)) ?_))
      · split
        · exact forms_ite (forms_next h.stepIndex) (forms_next h)
        · exact forms_next h
      · split
        · exact forms_next h
        · split
          · exact forms_ite (forms_next h.trapNow) (forms_next h.trapInRegion)
          · exact forms_ite (forms_next h.trapNow) (forms_next h.trapInRegion)
          · exact forms_next h.trapNow
    · exact forms_next h

/-! #### Replies -/

theorem State.Formed.sendReply {a : Access} {tok : Token} : (s.sendReply a tok).Formed := h.modFibre

theorem forms_loadReply {oid : Nat} : Forms (execLoadReply oid s) := by
  unfold execLoadReply
  split
  · refine forms_ite (forms_ite (forms_next h.setAccess.sendReply) ?_) (forms_next h)
    split
    · exact forms_next h.setAccess.modFibre.sendReply
    · exact forms_next h.setAccess.tick.sendReply
  · exact forms_next h

end Rules

end Sys2Proof.Machine
end

section
/-! PROOFS. The form of memory (log 2) under the events of homes, caches, the bridge and the host. -/

namespace Sys2Proof.Machine

section Rules
variable {s t : State} (h : s.Formed)
include h

/-! #### Writes at their home -/

theorem State.Formed.setBadChunks {l : List Nat} : ({ s with badChunks := l } : State).Formed := h.same rfl rfl rfl
theorem State.Formed.setBadLines {l : List Nat} : ({ s with badLines := l } : State).Formed := h.same rfl rfl rfl
theorem State.Formed.setHomeQ {d : Dict HomeWrite} : ({ s with homeQ := d } : State).Formed := h.same rfl rfl rfl
theorem State.Formed.setQueues {d : Dict Queue} : ({ s with queues := d } : State).Formed := h.same rfl rfl rfl
theorem State.Formed.setHdm {d : Dict Bool} : ({ s with hdm := d } : State).Formed := h.same rfl rfl rfl

theorem State.Formed.clearPoison {sp : Space} {addr n : Nat} : (s.clearPoison sp addr n).Formed := by
  cases sp with
  | cell => exact h.setBadChunks
  | hbm => exact h.setBadLines
  | hostNc => exact h.setBadLines
  | hostCoh => exact h

theorem State.Formed.landHome {addr key : Nat} {bs : List Byte} : (s.landHome addr key bs).Formed :=
  .ite (h.foldl fun _ _ ht => ht.homeWrite) h.homeWrite

theorem State.Formed.landHost {half : Nat} {data : Vec} : (s.landHost half data).Formed := h.countLlc.landHome.clearPoison.emit

theorem State.Formed.dropOwn {cell line : Nat} : (s.dropOwn cell line).Formed := by
  unfold State.dropOwn
  split
  · exact .ite h h.dropL1
  · exact h

theorem State.Formed.damage {loc : Loc} {n : Nat} : (s.damage loc n).Formed := h.foldl fun _ _ ht => ht.setQueues

theorem State.Formed.damageBy {a : Access} {p : Piece} : (s.damageBy a p).Formed := h.damage

theorem State.Formed.landPiece {oid n : Nat} : (s.landPiece oid n).Formed := by
  unfold State.landPiece
  split
  · exact h
  · split
    · exact h
    · refine .ite (.ite h.countLlc.setAccess.dropOwn ?_) h.countLlc.setAccess.landHome.clearPoison.dropOwn.damageBy
      split
      · exact h.countLlc.setAccess.dropOwn
      · exact h.countLlc.setAccess.plainConflict.landHome.dropOwn.damageBy

theorem State.Formed.setHomes {d : Dict HomeWrite} {l : Dict (List Nat)} : ({ s with homeQ := d, sharers := l } : State).Formed :=
  h.same rfl rfl rfl

theorem State.Formed.settleHome {line : Nat} : (s.settleHome line).Formed := by
  unfold State.settleHome
  split
  · exact h
  · refine .ite ?_ h
    split
    · exact h.setHomes.landHost
    · exact h.setHomes.landPiece

theorem State.Formed.settleTaken {oid piece : Nat} : (s.settleTaken oid piece).Formed := by
  unfold State.settleTaken
  split
  · exact .ite h.settleHome h
  · exact h

theorem State.Formed.landCell {oid n : Nat} {a : Access} {p : Piece} : (s.landCell oid n a p).Formed := by
  unfold State.landCell
  refine .ite (.ite h.setAccess ?_) h.setAccess.putCell.clearPoison
  dsimp only
  split
  · exact h.setAccess
  · exact h.setAccess.putCell

theorem State.Formed.takeWrite {oid n : Nat} {a : Access} {p : Piece} : (s.takeWrite oid n a p).Formed := by
  unfold State.takeWrite
  extract_lets line half s1 host s2 waits s3 s4
  have hs1 : s1.Formed := .ite h.plainConflict h
  clear_value s1
  have hs2 : s2.Formed := .ite hs1.backInvalidate hs1
  clear_value s2
  exact hs2.setAccess.countSector.setHomeQ.settleHome

theorem State.Formed.bridgeDrop {half : Nat} : (s.bridgeDrop half).Formed := by
  unfold State.bridgeDrop
  refine .ite h ?_
  split
  · exact h.dropHalfEverywhere.setHalf.emit
  · exact h.dropHalfEverywhere.setHalf.emit
  · exact h.setHalf.emit
  · exact h
  · exact h

theorem State.Formed.dropAllL1 {line : Nat} : (s.dropAllL1 line).Formed := h.same rfl rfl rfl

theorem State.Formed.giveUpLine {line : Nat} : (s.giveUpLine line).Formed := h.evictLlc.dropAllL1.hostSnoops

theorem State.Formed.landNc {oid n : Nat} {a : Access} {p : Piece} : (s.landNc oid n a p).Formed := by
  unfold State.landNc
  refine .ite (.ite h (.ite h.bridgeDrop.bridgeDrop h.giveUpLine.setAccess.emit)) ?_
  split
  · exact h
  next t ht => exact (h.ncWrite ht).setAccess.dropOwn.damageBy

theorem forms_homeWrite {oid piece : Nat} : Forms (execHomeWrite oid piece s) := by
  unfold execHomeWrite
  split
  · exact forms_next h.settleTaken
  · split
    · exact forms_next h.landCell
    · exact forms_ite (forms_next h) (forms_next h.takeWrite)
    · exact forms_next h.landNc
    · exact forms_next h

theorem forms_invalidationAck {line cell : Nat} : Forms (execInvalidationAck line cell s) := by
  unfold execInvalidationAck
  split
  · exact forms_ite (forms_next h.setHomeQ.settleHome) (forms_next h)
  · exact forms_next h

theorem forms_l1Invalidate {cell line : Nat} : Forms (execL1Invalidate cell line s) := by
  unfold execL1Invalidate
  split
  · exact forms_ite (forms_next h.dropL1.setHomeQ) (forms_next h)
  · exact forms_next h

theorem forms_tableUpdateWrite {oid piece : Nat} : Forms (execTableUpdateWrite oid piece s) := by
  unfold execTableUpdateWrite
  split
  · exact forms_next h
  · exact forms_ite (forms_next h.takeWrite) (forms_next h)

theorem forms_writeAck {oid : Nat} : Forms (execWriteAck oid s) := by
  unfold execWriteAck
  split
  · refine forms_ite (forms_next h.runCacheOps.purge) (forms_ite (forms_next ?_) (forms_next h))
    split
    · exact .ite h.setAccess.runCacheOps.purge.haltCheck h.setAccess.runCacheOps.purge
    · exact h.setAccess.runCacheOps.purge
  · exact forms_next h

/-! #### Reads at their home -/

theorem State.Formed.readViolation {a : Access} {p : Piece} : (s.readViolation a p).Formed := by
  unfold State.readViolation
  dsimp only
  split
  · exact h
  · exact h.squash

theorem State.Formed.finishRead {oid n : Nat} {a : Access} {p : Piece} {base : List Byte} : (s.finishRead oid n a p base).Formed :=
  h.tick.setAccess.readViolation

theorem State.Formed.homeServes {loc : Loc} : (s.homeServes loc).2.Formed := by
  unfold State.homeServes
  dsimp only
  split
  · exact h
  · split
    · exact h.backInvalidate
    · exact h

theorem State.Formed.fillLine {cell : Nat} {loc : Loc} : (s.fillLine cell loc).Formed := by
  obtain ⟨_, _, hk⟩ := fillLine_keeps s cell loc
  exact hk ▸ h.same rfl rfl rfl

theorem State.Formed.maybeFill {cell : Nat} {loc : Loc} : (s.maybeFill cell loc).Formed := by
  unfold State.maybeFill
  exact .ite (.ite h.tick.fillLine h.tick) h

theorem State.Formed.fillLlc {line key : Nat} : (s.fillLlc line key).Formed := by
  unfold State.fillLlc
  split
  · exact h
  · exact h.makeRoom.setLlc (length_lineData _ _ _)

theorem forms_homeRead {oid piece : Nat} : Forms (execHomeRead oid piece s) := by
  unfold execHomeRead
  split
  · exact forms_next h
  next a p _ =>
    refine forms_ite (forms_next h) (forms_ite (forms_next h.finishRead) ?_)
    dsimp only
    split
    · exact forms_next h.finishRead
    · split
      · exact forms_next h.finishRead
      · have hserves := h.homeServes (loc := p.loc)
        split
        next u hu => exact forms_next (hserves.of_pair hu)
        next u hu => exact forms_next (hserves.of_pair hu).countCell.countLlc.finishRead.maybeFill
    · split
      · exact forms_next h.finishRead
      · have hread := h.ncRead (loc := p.loc) (n := p.n)
        exact forms_ite (forms_next (State.Formed.ite hread.countCell.tick.fillLlc hread.countCell.tick).finishRead.maybeFill)
          (forms_next hread.finishRead)
    · exact forms_next h

theorem State.Formed.translate {cell : Nat} {xroot va : Word} : (s.translate cell xroot va).2.Formed := by
  obtain ⟨_, _, _, _, hk⟩ := translate_keeps s cell xroot va
  exact hk ▸ h.same rfl rfl rfl

theorem forms_pageWalk {fid : Nat} {va : Word} : Forms (execPageWalk fid va s) := by
  unfold execPageWalk
  split
  · refine forms_ite (forms_next h) (forms_next ?_)
    cases hw : s.walkWaits (s.cellOf _) (Fibre.xlate _) [(va, 1)] with
    | none => exact h.translate
    | some t => exact h.walkWaits hw
  · exact forms_next h

theorem State.Formed.setTlbs {fs : Dict Fibre} {cs : Dict CellSt} {tl : Dict (List TlbEntry)} :
    ({ s with fibres := fs, cells := cs, tlb2 := tl } : State).Formed := h.same rfl rfl rfl

theorem forms_tlbinvComplete {fid : Nat} : Forms (execTlbinvComplete fid s) := by
  unfold execTlbinvComplete
  split
  · exact forms_next h
  · split
    · exact forms_next h
    · split
      · exact forms_next h
      · refine forms_ite (forms_next h) (forms_next ?_)
        exact (h.foldl fun _ _ ht => ht.squash).squash.setTlbs.setFrame

/-! #### The bridge (R121 to R125) -/

theorem State.Formed.ask {half : Nat} {x : Half} {own : Bool} {kind : String} : (s.ask half x own kind).Formed := h.setHalf.emit

theorem State.Formed.fillHalf {cell : Nat} {loc : Loc} {data : List Byte} : (s.fillHalf cell loc data).Formed := h.setCell.addSharer

theorem forms_bridgeModuleRead {oid piece : Nat} : Forms (execBridgeModuleRead oid piece s) := by
  unfold execBridgeModuleRead
  split
  · exact forms_next h
  · refine forms_ite (forms_next h) ?_
    dsimp only
    split
    · exact forms_ite (forms_next h) (forms_next h.ask)
    · split
      · exact forms_next h.finishRead
      · exact forms_ite (forms_next (.ite h.countCell.finishRead.tick.fillHalf h.countCell.finishRead.tick))
          (forms_next h.countCell.finishRead)

theorem State.Formed.landBridge {oid n : Nat} {a : Access} {p : Piece} {x : Half} : (s.landBridge oid n a p x).Formed := by
  unfold State.landBridge
  dsimp only
  refine .ite ?_ h.dropHalfEverywhere.dropOwn.setAccess.setHalf.damageBy
  split
  · exact h.dropHalfEverywhere.dropOwn.setAccess.setHalf.damageBy
  · exact h.dropHalfEverywhere.dropOwn.setAccess

theorem forms_bridgeModuleWrite {oid piece : Nat} : Forms (execBridgeModuleWrite oid piece s) := by
  unfold execBridgeModuleWrite
  split
  · exact forms_next h
  · refine forms_ite (forms_next h) ?_
    split
    · exact forms_next h.landBridge
    · refine forms_ite (forms_next h) ?_
      split
      · exact forms_next h.ask
      · exact forms_next h.ask
      · exact forms_next h
      · exact forms_next h
      · exact forms_next h

theorem forms_go {half : Nat} {exclusive : Bool} : Forms (execGo half exclusive s) := by
  unfold execGo
  dsimp only
  split
  · exact forms_next h
  · exact forms_next h.evictLlc.setHalf

theorem forms_snpCur {half : Nat} : Forms (execSnpCur half s) := by
  have hcounted := h.countSector (sec := bridgeSector (64 * half)) (src := 15) (n := 1)
  refine forms_next (.ite hcounted.dropHalfEverywhere.setHalf.emit ?_)
  split
  · exact hcounted.emit
  · exact hcounted.emit
  · exact hcounted.emit
  · exact hcounted.emit
  · exact hcounted.emit

theorem forms_writePull {half : Nat} : Forms (execWritePull half s) := by
  unfold execWritePull
  exact forms_ite (forms_next h.dropHalfEverywhere.toHost.setHalf.emit) (forms_next h)

theorem forms_goWritePullDrop {half : Nat} : Forms (execGoWritePullDrop half s) := by
  unfold execGoWritePullDrop
  exact forms_ite (forms_next h.dropHalfEverywhere.setHalf) (forms_next h)

/-! #### The host (R126, R127, R144) -/

theorem State.Formed.requeue {i : Instr} : (s.requeue i).Formed := h.putBack

theorem State.Formed.serveHost {half : Nat} {any : Bool} : (s.serveHost half any).Formed := h.setHdm.countLlc.emit

theorem State.Formed.invalidateLine {line : Nat} : (s.invalidateLine line).Formed := h.countSector.dropAllL1

theorem forms_memRd {half : Nat} {own : Bool} : Forms (execMemRd half own s) := by
  unfold execMemRd
  exact forms_ite (forms_next h) (forms_ite (forms_next h.requeue) (forms_ite (forms_ite (forms_next h.requeue)
    (forms_next h.invalidateLine.serveHost)) (forms_next h.serveHost)))

theorem forms_memRdData {half : Nat} : Forms (execMemRdData half s) := by
  unfold execMemRdData
  exact forms_ite (forms_next h) (forms_ite (forms_next h.requeue) (forms_next h.serveHost))

theorem forms_memWr {half : Nat} {data : Vec} : Forms (execMemWr half data s) := by
  unfold execMemWr
  exact forms_ite (forms_next h) (forms_ite (forms_next h.plainConflict.invalidateLine.landHost) (forms_ite (forms_next h.requeue)
    (forms_next h.plainConflict.countSector.setHomeQ.settleHome)))

theorem State.Formed.setHeld {d m : Dict Bool} : ({ s with snoops := d, hdm := m } : State).Formed := h.same rfl rfl rfl

theorem forms_birspi {half : Nat} : Forms (execBirspi half s) := by
  unfold execBirspi
  split
  · exact forms_next h
  · extract_lets u
    have hu : u.Formed := h.setHeld
    clear_value u
    split
    · exact forms_ite (forms_next hu) (forms_ite (forms_next hu.setHomeQ.settleHome) (forms_next hu.backInvalidate))
    · exact forms_next hu

theorem forms_atomicOpCompletion {oid : Nat} {ok : Bool} : Forms (execAtomicOpCompletion oid ok s) := by
  unfold execAtomicOpCompletion
  split
  · split
    · refine forms_ite (forms_ite (forms_next h.requeue) (forms_ite (forms_next ?_)
        (forms_next h.setAccess.modFibre.sendReply))) (forms_next h)
      split
      · exact (h.giveUpLine.setAccess.setMem (Mem.wf_setBytes _ _ _ h.giveUpLine.mem)).damageBy
      · exact h.giveUpLine.setAccess
    · exact forms_next h
  · exact forms_next h

end Rules

end Sys2Proof.Machine
end

section
/-! PROOFS. The form of memory (log 2) under the events of regions, of the start and of the dispatcher. -/

namespace Sys2Proof.Machine

section Rules
variable {s t : State} (h : s.Formed)
include h

/-! #### Regions -/

theorem forms_slotGrant : Forms (execSlotGrant s) := by
  unfold execSlotGrant
  split
  · dsimp only
    split
    · split
      · exact forms_ite (forms_next h.modVirga.setFrame) (forms_ite (forms_next h.modVirga.setFrame.commitBlock) (forms_next h.modVirga))
      · exact forms_next h.modVirga
    · exact forms_next h.modVirga
  · exact forms_next h

theorem State.Formed.discard {oid n : Nat} {a : Access} {p : Piece} : (s.discard oid n a p).Formed := .ite h.setAccess h.setAccess

theorem State.Formed.regionPerform {oid n y : Nat} {a : Access} {p : Piece} : (s.regionPerform oid n y a p).Formed :=
  .ite h.countLlc.modVirga.finishRead (.ite h.countLlc.modVirga.setAccess h.countLlc.modVirga.setAccess)

theorem State.Formed.regionTry {oid n y : Nat} {a : Access} {p : Piece} : (s.regionTry oid n y a p).Formed :=
  .ite h.abortSlot.discard (.ite h.abortSlot.discard (.ite h.setAccess h.regionPerform.modVirga.countSector.settle))

theorem State.Formed.regionArrive {oid n : Nat} {a : Access} {p : Piece} : (s.regionArrive oid n a p).Formed := by
  unfold State.regionArrive
  dsimp only
  split
  · exact .ite h.discard h
  · refine .ite h ?_
    have hserves := h.homeServes (loc := p.loc)
    split
    next u hu => exact hserves.of_pair hu
    next u hu =>
      have hu := hserves.of_pair hu
      exact .ite hu.regionTry hu.setAccess.modVirga

theorem forms_regionRead {oid piece : Nat} : Forms (execRegionRead oid piece s) := by
  unfold execRegionRead
  split
  · exact forms_next h.regionArrive
  · exact forms_next h

theorem forms_regionWrite {oid piece : Nat} : Forms (execRegionWrite oid piece s) := by
  unfold execRegionWrite
  split
  · exact forms_next h.regionArrive
  · exact forms_next h

theorem forms_regionAtomic {oid piece : Nat} : Forms (execRegionAtomic oid piece s) := by
  unfold execRegionAtomic
  split
  · exact forms_next h.regionArrive
  · exact forms_next h

theorem forms_edgeRequest : Forms (execEdgeRequest s) := by
  unfold execEdgeRequest
  split
  · exact forms_next h
  · dsimp only
    split
    · exact forms_next h.modVirga
    · split
      · exact forms_next h.modVirga
      · refine forms_ite (forms_next h.modVirga) ?_
        split
        · exact forms_next h.modVirga.regionTry
        · exact forms_next h.modVirga.discard

theorem forms_stallRetry {oid piece : Nat} : Forms (execStallRetry oid piece s) := by
  unfold execStallRetry
  split
  · exact forms_next h
  · split
    · exact forms_next h
    next p _ =>
      split
      · exact forms_next h.discard
      · refine forms_ite (forms_next h) ?_
        have hserves := h.homeServes (loc := p.loc)
        split
        next u hu => exact forms_next (hserves.of_pair hu)
        next u hu => exact forms_next (hserves.of_pair hu).regionTry
      · exact forms_next h

theorem forms_endReport {fid : Nat} : Forms (execEndReport fid s) := by
  unfold execEndReport
  split
  · exact forms_next h
  · split
    · exact forms_next h
    · refine forms_ite ?_ (forms_next h)
      split
      · exact forms_ite (forms_next h.modVirga.settle) (forms_next h)
      · exact forms_next h

theorem State.Formed.commitLine {line : Nat} {x : Version} : (s.commitLine line x).Formed := by
  unfold State.commitLine
  extract_lets sh s1 s2 s3 s4
  have hs2 : s2.Formed := h.dropShared.setSharers.countSector
  clear_value s2
  have hs4 : s4.Formed := (hs2.countLlc.foldl fun _ _ hu => hu.landHome).foldl fun _ _ hu => hu.setQueues
  clear_value s4
  exact .ite hs4.clearPoison hs4

theorem State.Formed.claimLines {lines : List Nat} : (s.claimLines lines).Formed := by
  have hask : ∀ u : State, u.Formed → ∀ half, (if (u.hdm.get? half).isSome then u.backInvalidate half true else u).Formed :=
    fun u hu _ => .ite hu.backInvalidate hu
  exact h.foldl fun u l hu => hask _ (hask u hu _) _

theorem forms_regionCommit {slot : Nat} : Forms (execRegionCommit slot s) := by
  unfold execRegionCommit
  split
  · exact forms_next h
  · exact forms_ite (forms_ite (forms_next ((h.foldl fun _ _ ht => ht.commitLine).modVirga.countSector.answerFibre.settle))
      (forms_next h.claimLines)) (forms_next h)

theorem forms_regionAbort {slot cause : Nat} : Forms (execRegionAbort slot cause s) := by
  unfold execRegionAbort
  exact forms_ite (forms_next h.abortSlot) (forms_next h)

theorem forms_commitAnswer {fid : Nat} : Forms (execCommitAnswer fid s) := by
  unfold execCommitAnswer
  split
  · exact forms_next h
  · exact forms_ite (forms_next h.setFibre.commitBlock) (forms_next h)

theorem forms_abortAnswer {fid : Nat} : Forms (execAbortAnswer fid s) := by
  unfold execAbortAnswer
  split
  · exact forms_next h
  · split
    · exact forms_next h
    · exact forms_ite (forms_next h) (forms_next h.takeAbort)

theorem forms_dependenceTimeout {slot : Nat} : Forms (execDependenceTimeout slot s) := by
  unfold execDependenceTimeout
  split
  · split
    · exact forms_ite (forms_next h.abortSlot) (forms_next h)
    · exact forms_next h
  · exact forms_next h

/-! #### Start and recovery -/

theorem State.Formed.moduleReset : s.moduleReset.Formed :=
  ⟨Mem.wf_filter _ _ h.mem, rfl, nofun⟩

theorem State.Formed.setReg {off : Nat} {v : Word} : (s.setReg off v).Formed := h.same rfl rfl rfl
theorem State.Formed.setRecovery {r : Option Nat} : ({ s with recovery := r } : State).Formed := h.same rfl rfl rfl
theorem State.Formed.setImage {g : Bool} {v : BitVec 32} {d : Vec} : ({ s with flashGood := g, imageVer := v, image := d } : State).Formed :=
  h.same rfl rfl rfl

theorem State.Formed.recover {result : Nat} : (s.recover result).Formed := by
  unfold State.recover
  extract_lets u bytes ver r
  have hu : u.Formed := h.setRecovery
  clear_value u
  exact .ite hu.setImage.moduleReset hu.setReg

theorem State.Formed.resumeRecovery : s.resumeRecovery.Formed := by
  unfold State.resumeRecovery
  split
  · exact .ite h.recover h
  · exact h

theorem forms_recoveryGo {who result : Nat} : Forms (execRecoveryGo who result s) := by
  unfold execRecoveryGo
  exact forms_ite (forms_next h) (forms_next h.setRecovery.setReg.resumeRecovery)

theorem forms_leaseExpiry : Forms (execLeaseExpiry s) := by
  unfold execLeaseExpiry
  exact forms_ite (forms_next h.setReg) (forms_next h)

theorem State.Formed.minimalLimits : s.minimalLimits.Formed := h.same rfl rfl rfl

theorem State.Formed.fenceDies {ds : List Nat} : (s.fenceDies ds).Formed := h.foldl fun _ _ ht => ht.setDie

theorem State.Formed.failStart {reason : Nat} : (s.failStart reason).Formed :=
  .ite h.moduleReset.setReg.fenceDies.minimalLimits h.moduleReset.setReg

theorem forms_startWatchdog : Forms (execStartWatchdog s) := by
  unfold execStartWatchdog
  exact forms_ite (forms_next h.failStart) (forms_next h)

/-! #### Places and maps -/

theorem State.Formed.restamp {gid : Nat} : (s.restamp gid).Formed := by
  unfold State.restamp
  split
  · exact h.setNextId.setGroup
  · exact h

theorem State.Formed.enqueueGroup {gid die : Nat} : (s.enqueueGroup gid die).Formed := by
  unfold State.enqueueGroup
  split
  · exact h
  · exact h.restamp.setGroup.setLaunches

theorem State.Formed.moveGroup {gid : Nat} {g : Group} {die : Nat} : (s.moveGroup gid g die).Formed := by
  unfold State.moveGroup
  split
  · exact h
  · split
    · exact h
    · exact .ite h.setGroup.enqueueGroup.requeued h.setGroup

theorem State.Formed.moveSaved : s.moveSaved.Formed := by
  refine h.foldl fun u e hu => ?_
  split
  · exact hu
  · exact .ite hu.moveGroup hu

theorem State.Formed.relaunch {gid : Nat} : (s.relaunch gid).Formed := by
  unfold State.relaunch
  split
  · exact h
  · split
    · exact h
    · exact .ite h (.ite h.setGroup h.setGroup.enqueueGroup.requeued)

theorem State.Formed.relaunchLost : s.relaunchLost.Formed := h.foldl fun _ _ hu => .ite hu.relaunch hu

theorem State.Formed.installMap {p : Nat} {v : Word} : (s.installMap p v).Formed := .ite h h.setReg.relaunchLost.moveSaved

theorem State.Formed.dropWeight {d : Nat} : (s.dropWeight d).Formed := by
  unfold State.dropWeight
  split
  · exact h.setDie.setReg
  · exact h

theorem State.Formed.setNextGid {n m : Nat} : ({ s with nextGid := n, nextId := m } : State).Formed := h.same rfl rfl rfl

theorem State.Formed.joinLaunch {lid die : Nat} : (s.joinLaunch lid die).Formed := by
  unfold State.joinLaunch
  split
  · exact h
  · exact (h.setLaunches.foldl fun _ _ hu => .ite hu.setNextGid.setGroup hu).requeued

theorem State.Formed.setGroups {d : Dict Group} : ({ s with groups := d } : State).Formed := h.same rfl rfl rfl

theorem State.Formed.loseQueued {d : Nat} : (s.loseQueued d).Formed := h.setGroups.relaunchLost

theorem State.Formed.endSequence {d : Nat} : (s.endSequence d).Formed :=
  (h.foldl fun _ _ hu => hu.joinLaunch).setDie.loseQueued.moveSaved.resumeRecovery

theorem State.Formed.admitDie {d : Nat} : (s.admitDie d).Formed := by
  unfold State.admitDie
  dsimp only
  split
  · exact h.setDie.endSequence
  · exact .ite h.endSequence h.setDie.installMap.endSequence

theorem State.Formed.applyChange {c : MapChange} : (s.applyChange c).Formed := by
  cases c with
  | write p v => exact h.installMap
  | drop d => exact h.dropWeight
  | restore d => exact .ite h.admitDie h

theorem State.Formed.setChanges {l : List MapChange} : ({ s with changes := l } : State).Formed := h.same rfl rfl rfl

theorem State.Formed.nextChange : s.nextChange.Formed := by
  unfold State.nextChange
  split
  · exact h.setChanges.applyChange
  · exact h

theorem State.Formed.settleMaps : s.settleMaps.Formed := .ite (h.foldl fun _ _ hu => hu.nextChange) h

/-! #### Taking a record -/

theorem State.Formed.setTaking {d : Dict Taking} : ({ s with taking := d } : State).Formed := h.same rfl rfl rfl

theorem State.Formed.endTaking {win : Nat} : (s.endTaking win).Formed := h.setTaking.settleMaps

theorem State.Formed.keepTaking {win : Nat} {k : Taking} : (s.keepTaking win k).Formed := h.same rfl rfl rfl

theorem State.Formed.advance {win : Nat} : (s.advance win).Formed := h.same rfl rfl rfl

theorem State.Formed.countDispatch {sec : Nat} {x : Xlate} {vas : List Word} : (s.countDispatch sec x vas).Formed :=
  h.foldl fun _ _ hu => hu.countWalk

theorem State.Formed.startLaunch {lid : Nat} : (s.startLaunch lid).Formed := h.firing (frame_startLaunch s lid)

theorem State.Formed.setLaunched {n : Nat} {d : Dict Launch} {q : Dict Queue} :
    ({ s with nextId := n, launches := d, queues := q } : State).Formed := h.same rfl rfl rfl

theorem State.Formed.accept {l : Launch} {sec : Nat} : (s.accept l sec).Formed :=
  (State.Formed.ite h.setLaunched.startLaunch h.setLaunched).requeued

theorem State.Formed.conclude {k : Taking} {code : Nat} {l : Launch} :
    (s.conclude k code l).2.Formed ∧ ∀ x, (s.conclude k code l).1 = some x → x.2.Formed := by
  unfold State.conclude
  dsimp only
  obtain ⟨hleft, hdone⟩ := h.engineWrite (loc := hbmLoc (k.slot + 240)) (bs := natLe 8 (launchStatus code k.seq).toNat)
  split
  next u hu => exact ⟨hleft.of_pair hu, of_none_eq_some⟩
  next u _ hu =>
    have hu := hdone u (by rw [hu])
    refine ⟨h, fun x hx => ?_⟩
    obtain rfl := Option.some.inj hx
    exact .ite hu.accept hu

theorem State.Formed.tellLaunch {w : Word} {c : Option Cursor} : (s.tellLaunch w c).Formed := by
  unfold State.tellLaunch
  split
  · exact h
  · split
    · split
      · exact h.setFrame
      · exact h
    · exact h

theorem State.Formed.takeOn {win : Nat} {k : Taking} : (s.takeOn win k).Formed := by
  unfold State.takeOn
  refine .ite h.endTaking (.ite ?_ (.ite h.keepTaking.advance ?_))
  · have hread := h.engineRead (loc := hbmLoc (k.slot + k.bytes.length)) (n := s.copyStep k.bytes.length (248 - k.bytes.length))
    split
    next u hu => exact hread.of_pair hu
    next u hu => exact (hread.of_pair hu).keepTaking
  · extract_lets sec rec_ vas
    split
    · exact h.backInvalidate
    · split
      next a _ =>
        have hread := h.engineRead (loc := hbmLoc a) (n := 32)
        split
        next u hu => exact hread.of_pair hu
        next u hu => exact (hread.of_pair hu).keepTaking
      next loc _ =>
        have hread := h.engineRead (loc := { loc with addr := loc.addr + k.hdr.length }) (n := s.copyStep k.hdr.length (64 - k.hdr.length))
        split
        next u hu => exact hread.of_pair hu
        next u hu =>
          have hu := hread.of_pair hu
          exact (State.Formed.ite hu.countDispatch hu).keepTaking
      next code l _ =>
        obtain ⟨hleft, hdone⟩ := h.conclude (k := k) (code := code) (l := l)
        split
        next u hu => exact hleft.of_pair hu
        next w u _ hu => exact (hdone (w, u) (by rw [hu])).countDispatch.tellLaunch.endTaking

theorem State.Formed.readGo {win : Nat} : (s.readGo win).Formed := by
  unfold State.readGo
  refine .ite h ?_
  have hread := h.engineRead (loc := hbmLoc (s.slotAddr win (s.expected win) + 248)) (n := 8)
  dsimp only
  split
  next u hu => exact hread.of_pair hu
  next go u hu => exact .ite (hread.of_pair hu) (hread.of_pair hu).setTaking

theorem forms_goWord {win : Nat} : Forms (execGoWord win s) := by
  unfold execGoWord
  split
  · exact forms_next h.takeOn
  · exact forms_next h.readGo

theorem State.Formed.joinNext {die : Nat} : (s.joinNext die).Formed := by
  unfold State.joinNext
  split
  · exact h
  · exact h.tick.joinLaunch

end Rules

end Sys2Proof.Machine
end

section
/-! PROOFS. The form of memory (log 2) under the events of the copy engines, the nodes and the rings. -/

namespace Sys2Proof.Machine

section Rules
variable {s t : State} (h : s.Formed)
include h

/-! #### The copy engines -/

theorem State.Formed.dropCopy {cell id : Nat} : (s.dropCopy cell id).Formed := h.setCell

theorem State.Formed.setCopy {cell : Nat} {k : CopyCmd} : (s.setCopy cell k).Formed := h.setCell

theorem State.Formed.stopCopy {cell : Nat} {k : CopyCmd} {cause : Nat} : (s.stopCopy cell k cause).Formed := h.setCopy

theorem State.Formed.finishCopy {cell cmd : Nat} : (s.finishCopy cell cmd).Formed := by
  unfold State.finishCopy
  split
  · exact h
  · split
    · exact .ite h.dropCopy.writeStatus h
    · exact .ite h.dropCopy.writeStatus h
    · exact h

theorem State.Formed.endOf {c : Ctx} {d : Desc} {kind : AccKind} {p : Nat} : (s.endOf c d kind p).2.Formed := by
  unfold State.endOf
  extract_lets place
  split
  · exact h
  · have hsegments := h.segments (c := c) (kind := kind) (va := place p) (n := 1)
    split
    next u hu => exact hsegments.of_pair hu
    next u hu => exact hsegments.of_pair hu
    next u hu => exact hsegments.of_pair hu

theorem State.Formed.addArrived {cell : Nat} {va : Word} {n : Nat} : (s.addArrived cell va n).Formed := h.putCell

theorem State.Formed.addEarned {cell : Nat} {k : CopyCmd} {d : Desc} : (s.addEarned cell k d).Formed := by
  unfold State.addEarned
  refine .ite h ?_
  extract_lets whole s1 have_ s2
  have hs1 : s1.Formed := h.foldl fun _ _ hu => hu.addArrived
  clear_value s1
  have hs2 : s2.Formed := .ite hs1.addArrived hs1
  clear_value s2
  split
  · exact hs2.setCopy
  · exact hs2

theorem State.Formed.emitMark {cell : Nat} {k : CopyCmd} {d : Desc} : (s.emitMark cell k d).Formed := .ite h.setCopy h.setCell.setCopy

theorem State.Formed.setGtag {d : Dict (BitVec 4)} : ({ s with gtag := d } : State).Formed := h.same rfl rfl rfl

theorem State.Formed.copyLand {cell len : Nat} {k : CopyCmd} {d : Desc} {c : Ctx} : (s.copyLand cell len k d c).Formed := by
  unfold State.copyLand
  split
  next u hu => exact h.walkWaits hu
  · have hend := h.endOf (c := c) (d := d) (kind := .store) (p := k.pos)
    split
    next u hu => exact (hend.of_pair hu).stopCopy
    next g u hu =>
      have hu := hend.of_pair hu
      extract_lets n
      refine .ite hu ?_
      obtain ⟨hleft, hdone⟩ := hu.engineWrite (loc := g.loc) (bs := k.buf.take n)
      split
      next v hv => exact hleft.of_pair hv
      next v _ hv =>
        have hv := hdone v (by rw [hv])
        extract_lets v1 v2 v3
        have hv1 : v1.Formed := .ite hv.setGtag hv
        clear_value v1
        have hv3 : v3.Formed := hv1.damage.setCopy.countCell.addEarned
        clear_value v3
        split
        · exact .ite hv3.emitMark hv3
        · exact hv3

theorem State.Formed.haltOf {fid : Nat} : (s.haltOf fid).Formed := by
  unfold State.haltOf
  split
  · exact h.haltCheck
  · exact h

theorem State.Formed.payAll {cell a : Nat} : (s.payAll cell a).Formed := by
  refine h.foldl fun u k hu => ?_
  split
  · exact .ite hu.addEarned hu
  · exact hu

theorem State.Formed.performInit {cell cmd : Nat} : (s.performInit cell cmd).Formed := by
  unfold State.performInit
  split
  · exact h
  · exact .ite h.dropCopy.setBarrier.payAll.testWaits h

theorem State.Formed.performInits {cell : Nat} : (s.performInits cell).Formed := h.foldl fun _ _ hu => hu.performInit

theorem State.Formed.readNext {cell : Nat} (ht : s.readNext cell = some t) : t.Formed := by
  unfold State.readNext at ht
  split at ht
  · exact of_none_eq_some _ ht
  · split at ht
    · exact of_none_eq_some _ ht
    · split at ht
      · exact of_none_eq_some _ ht
      · obtain rfl := Option.some.inj ht
        exact (State.Formed.ite h.setCopy h.setCopy.addEarned).performInits

theorem forms_copyStart {cell : Nat} : Forms (execCopyStart cell s) := by
  unfold execCopyStart
  split
  next u hu => exact forms_next (h.readNext hu)
  · refine forms_ite (forms_next h) ?_
    split
    · exact forms_next h.setCopy
    · exact forms_next h

theorem State.Formed.copyRead {cell len : Nat} {k : CopyCmd} {d : Desc} {c : Ctx} : (s.copyRead cell len k d c).Formed := by
  unfold State.copyRead
  extract_lets p stop
  have hstop : ∀ (u : State) (e : Nat), u.Formed → (stop u e).Formed := fun _ _ hu => .ite hu.stopCopy hu
  clear_value stop
  split
  next u hu => exact h.walkWaits hu
  · have hsource := h.endOf (c := c) (d := d) (kind := .load) (p := p)
    split
    next u hu => exact hstop _ _ (hsource.of_pair hu)
    next g u hu =>
      have hu := hsource.of_pair hu
      have hdest := hu.endOf (c := c) (d := d) (kind := .store) (p := p)
      split
      next v hv => exact hstop _ _ (hdest.of_pair hv)
      next e v hv =>
        have hv := hdest.of_pair hv
        extract_lets n clean m
        refine .ite hv (.ite (hstop _ _ hv) ?_)
        have hread := hv.engineRead (loc := g.loc) (n := clean)
        split
        next w hw => exact hread.of_pair hw
        next w hw => exact (hread.of_pair hw).tick.setCopy

theorem forms_copyBeat {cell cmd len : Nat} : Forms (execCopyBeat cell cmd len s) := by
  unfold execCopyBeat
  split
  · exact forms_next h
  · split
    · refine forms_ite (forms_next h) (forms_ite (forms_next h.emitMark) (forms_ite (forms_next h) ?_))
      exact forms_ite (forms_next h.tick) (forms_ite (forms_next h.tick.copyRead) (forms_next h.tick.copyLand))
    · exact forms_next h

theorem forms_copyFinish {cell cmd : Nat} : Forms (execCopyFinish cell cmd s) := by
  unfold execCopyFinish
  split
  · exact forms_next h
  · exact forms_next h.finishCopy.haltOf

theorem forms_bbarInitPerform {cell cmd : Nat} : Forms (execBbarInitPerform cell cmd s) := by
  unfold execBbarInitPerform
  split
  · exact forms_next h
  · exact forms_next h.performInit.haltOf

theorem forms_markTake {cell : Nat} : Forms (execMarkTake cell s) := by
  unfold execMarkTake
  dsimp only
  split
  · exact forms_next h
  · refine forms_next ?_
    split
    · exact h.setCell.setCopy
    · exact h.setCell

/-! #### Nodes and rings -/

theorem State.Formed.modNode {cell : Nat} {f : Node → Node} : (s.modNode cell f).Formed := h.setCell

theorem State.Formed.setHead {cell : Nat} {n : NodeCmd} : (s.setHead cell n).Formed := h.modNode

theorem State.Formed.stopHead {cell : Nat} {n : NodeCmd} {cause : Nat} : (s.stopHead cell n cause).Formed := h.setHead

theorem State.Formed.stopMember {cell : Nat} {n : NodeCmd} {r : Ring} {cause : Nat} : (s.stopMember cell n r cause).Formed :=
  h.stopHead.modNode

theorem State.Formed.ringError {cell n cause : Nat} : (s.ringError cell n cause).Formed := h.foldl fun _ _ hu => hu.modNode

theorem State.Formed.ringGroup {cell : Nat} {n : NodeCmd} {r : Ring} {k : Nat} : (s.ringGroup cell n r k).Formed := by
  unfold State.ringGroup
  dsimp only
  refine iteInduction (fun _ => ?_) (fun _ => ?_)
  · split
    · exact h.stopMember
    · exact h
  · split
    · split
      · exact h
      · exact .ite h.modNode h.stopMember.ringError
    · exact .ite h.stopMember.ringError h.modNode.setHead.countCell

theorem State.Formed.ringPass {cell : Nat} {n : NodeCmd} {r : Ring} {k : Nat} : (s.ringPass cell n r k).Formed := by
  unfold State.ringPass
  refine .ite h (iteInduction (fun _ => .ite h h.modNode) (fun _ => ?_))
  dsimp only
  split
  · split
    · exact .ite h.modNode.modNode h
    · exact h
  · exact h

theorem State.Formed.tagGranules {c : Ctx} {va len : Nat} {tag : BitVec 4} : (s.tagGranules c va len tag).Formed :=
  h.foldl fun _ _ hu => hu.foldl fun _ _ hv => .ite hv.setGtag hv

theorem State.Formed.mldBeat {cell : Nat} {n : NodeCmd} {c : Ctx} {told : Bool} : (s.mldBeat cell n c told).Formed := by
  unfold State.mldBeat
  extract_lets d
  refine .ite h ?_
  split
  next u hu => exact h.walkWaits hu
  · have hend := h.endOf (c := c) (d := d) (kind := .load) (p := n.buf.length)
    split
    next u hu => exact (hend.of_pair hu).stopHead
    next g u hu =>
      have hu := hend.of_pair hu
      extract_lets len clean
      refine .ite hu (.ite hu.stopHead ?_)
      have hread := hu.engineRead (loc := g.loc) (n := clean)
      split
      next v hv => exact hread.of_pair hv
      next v hv => exact (hread.of_pair hv).tick.setHead

theorem State.Formed.mstBeat {cell : Nat} {n : NodeCmd} {fmt : MstFmt} {c : Ctx} {told : Bool} :
    (s.mstBeat cell n fmt c told).Formed := by
  unfold State.mstBeat
  extract_lets total d
  refine .ite h ?_
  split
  next u hu => exact h.walkWaits hu
  · have hend := h.endOf (c := c) (d := d) (kind := .store) (p := n.pos)
    split
    next u hu => exact (hend.of_pair hu).stopHead
    next g u hu =>
      have hu := hend.of_pair hu
      extract_lets len
      refine .ite hu ?_
      obtain ⟨hleft, hdone⟩ := hu.engineWrite (loc := g.loc) (bs := tileBytes (u.cell cell).node.tiles (accOf n.ins) fmt n.pos len)
      split
      next v hv => exact hleft.of_pair hv
      next v _ hv => exact (hdone v (by rw [hv])).damage.setHead

theorem State.Formed.mmaGroup {cell : Nat} {n : NodeCmd} : (s.mmaGroup cell n).Formed :=
  .ite h (.ite h.stopHead h.modNode.setHead.countCell)

theorem forms_nodeCommandStart {cell : Nat} : Forms (execNodeCommandStart cell s) := by
  unfold execNodeCommandStart
  split
  · exact forms_next h
  · split
    · exact forms_next h
    next c _ =>
      have hu := h.tick (n := s.tick + 1)
      generalize ({ s with tick := s.tick + 1 } : State) = u at hu ⊢
      dsimp only
      refine forms_ite (forms_next hu) ?_
      split
      · exact forms_ite (forms_next hu) (forms_next hu.modNode.setHead)
      · exact forms_ite (forms_next hu) (forms_next hu.tagGranules.setHead)
      · exact forms_next hu.mldBeat
      · exact forms_next hu.mstBeat
      · exact forms_ite (forms_next hu.mmaGroup) (forms_ite (forms_next hu) (forms_ite (forms_next hu.setHead) (forms_next hu.stopHead)))
      · exact forms_ite (forms_next hu.mmaGroup) (forms_ite (forms_next hu) (forms_ite (forms_next hu.setHead) (forms_next hu.stopHead)))
      · refine forms_ite ?_ (forms_ite (forms_next hu) (forms_next hu.setHead.modNode))
        split
        · exact forms_ite (forms_next hu.ringGroup) (forms_next hu)
        · exact forms_next hu
      · exact forms_next hu

theorem State.Formed.ringTrapAll {gid : Nat} : (s.ringTrapAll gid).Formed := h.same rfl rfl rfl

theorem State.Formed.finishHead {cell : Nat} {n : NodeCmd} : (s.finishHead cell n).Formed := by
  unfold State.finishHead
  extract_lets count s1 s2
  have hs2 : s2.Formed := by
    unfold s2
    split
    · exact h.modNode.modNode
    · exact h.modNode
  clear_value s2
  split
  · exact hs2.writeStatus
  · exact hs2

theorem State.Formed.finishRing {cell k : Nat} : (s.finishRing cell k).Formed := by
  refine h.foldl fun u c hu => ?_
  split
  · exact .ite hu.finishHead hu
  · exact hu

theorem forms_nodeCommandFinish {cell : Nat} : Forms (execNodeCommandFinish cell s) := by
  unfold execNodeCommandFinish
  split
  · exact forms_next h
  · refine forms_ite (forms_next h) ?_
    split
    · exact forms_ite (forms_ite (forms_next h) (forms_next h.finishRing.ringTrapAll.haltCheck))
        (forms_ite (forms_next h.finishHead.haltCheck) (forms_next h.finishRing.haltCheck))
    · exact forms_next h.finishHead.haltCheck

theorem State.Formed.ringFail {cells : List Nat} {cause : Nat} : (s.ringFail cells cause).Formed := by
  refine h.foldl fun u c hu => ?_
  split
  · exact hu.stopHead.modNode
  · exact hu

theorem forms_ringStart {cell : Nat} : Forms (execRingStart cell s) := by
  unfold execRingStart
  split
  · exact forms_next h
  · split
    · exact forms_next h
    · refine forms_ite (forms_next h) (forms_ite (forms_next h.ringFail) (forms_ite (forms_next h.ringFail) ?_))
      refine forms_ite (forms_next h.ringFail) (forms_ite (forms_next h) (forms_ite (forms_next h.ringFail) ?_))
      exact forms_ite (forms_next h.ringFail) (forms_next (h.foldl fun _ _ hu => hu.modNode))

theorem forms_ringHandover {cell : Nat} : Forms (execRingHandover cell s) := by
  unfold execRingHandover
  split
  · exact forms_next h.ringPass
  · exact forms_next h

theorem forms_ringTimeout {cell : Nat} : Forms (execRingTimeout cell s) := by
  unfold execRingTimeout
  split
  · exact forms_next h
  · refine forms_ite (forms_next (h.foldl fun u x hu => ?_)) (forms_next h)
    split
    · exact .ite hu (.ite hu.stopMember.modNode (.ite hu (.ite hu.stopMember hu.modNode)))
    · exact hu

end Rules

end Sys2Proof.Machine
end

section
/-! PROOFS. The form of memory (log 2) under the placing, saving and ending of groups. -/

namespace Sys2Proof.Machine

section Rules
variable {s t : State} (h : s.Formed)
include h

/-! #### Placing -/

theorem State.Formed.clearCell {c : Nat} : (s.clearCell c).Formed := ⟨h.mem, Mem.wf_clear _ _ _ h.cmem, h.llc⟩

theorem State.Formed.takeCell {c : Nat} : (s.takeCell c).Formed := h.clearCell.setCell

theorem State.Formed.setSaved {m : Mem} {d : Dict (BitVec 4)} {l : List Nat} (hwf : m.wf = true) :
    ({ s with cmem := m, gtag := d, badChunks := l } : State).Formed := ⟨h.mem, hwf, h.llc⟩

theorem State.Formed.restoreCell {g : Group} {l : Launch} {k : Nat} : (s.restoreCell g l k).Formed := by
  unfold State.restoreCell
  extract_lets c old s1 s2 x
  have hs1 : s1.Formed := h.takeCell.foldl fun _ _ hu => hu.dropL1
  clear_value s1
  have hs2 : s2.Formed := hs1.setSaved (List.foldlRecOn _ _ (motive := fun m : Mem => m.wf = true) hs1.cmem
    fun m hm e _ => Mem.wf_setByte m _ _ hm)
  clear_value s2
  exact hs2.setCell

theorem State.Formed.reloadLatch {cell : Nat} : (s.reloadLatch cell).Formed := by
  unfold State.reloadLatch
  split
  · exact .ite h.ringGroup h
  · exact h

theorem State.Formed.resumeGroup {gid : Nat} {g : Group} {l : Launch} {x0 y0 : Nat} : (s.resumeGroup gid g l x0 y0).Formed := by
  unfold State.resumeGroup
  extract_lets g' s1 s2 s3 s4
  have hs2 : s2.Formed := h.setGroup.foldl fun _ _ hu => hu.restoreCell
  clear_value s2
  have hs4 : s4.Formed := hs2.setFibres.foldl fun _ _ hu => hu.reloadLatch
  clear_value s4
  exact (hs4.foldl fun _ _ hu => hu.testWaits).haltCheck

theorem State.Formed.addFibre {f : Fibre} : (s.addFibre f).Formed := h.same rfl rfl rfl

theorem State.Formed.placeGroup {gid : Nat} {g : Group} {l : Launch} {x0 y0 : Nat} : (s.placeGroup gid g l x0 y0).Formed := by
  unfold State.placeGroup
  extract_lets g' s1 s2
  have hs1 : s1.Formed := h.setGroup.foldl fun _ _ hu => hu.takeCell
  clear_value s1
  have hs2 : s2.Formed := hs1.foldl fun _ _ hu => hu.foldl fun _ _ hv => hv.addFibre
  clear_value s2
  exact hs2.countSector

theorem State.Formed.placeHead {die : Nat} : (s.placeHead die).Formed := by
  unfold State.placeHead
  refine .ite h ?_
  split
  · exact h
  · split
    · exact h
    · split
      · exact h
      · exact (State.Formed.ite h.resumeGroup h.placeGroup).requeued

theorem forms_groupPlace {die : Nat} : Forms (execGroupPlace die s) :=
  forms_next (.ite h.joinNext.placeHead h.joinNext.loseQueued)

theorem forms_ageingPeriod {lid : Nat} : Forms (execAgeingPeriod lid s) := by
  unfold execAgeingPeriod
  split
  · exact forms_next h
  · exact forms_ite (forms_next h.setLaunches.requeued) (forms_next h)

/-! #### Saving -/

theorem State.Formed.emptyCell {c : Nat} : (s.emptyCell c).Formed := h.setCell

theorem State.Formed.saveGroup {gid : Nat} {g : Group} {l : Launch} {spill : Bool} {bytes : Nat} :
    (s.saveGroup gid g l spill bytes).Formed := by
  unfold State.saveGroup
  extract_lets cm ks cell g' s1
  have hs1 : s1.Formed := h.setGroup.restamp
  clear_value s1
  exact (hs1.foldl fun _ _ hu => hu.emptyCell).countSector

theorem State.Formed.haltBlocks {fid : Nat} : (s.haltBlocks fid).Formed := by
  unfold State.haltBlocks
  split
  · exact h
  · exact h.squash.modFibre.modVirga

theorem State.Formed.ringMove {cell : Nat} (ht : s.ringMove cell = some t) : t.Formed := by
  unfold State.ringMove at ht
  split at ht
  · exact of_none_eq_some _ ht
  · split at ht
    · exact of_none_eq_some _ ht
    · split at ht
      · exact Option.some.inj ht ▸ h.ringGroup
      · dsimp only at ht
        split at ht
        · exact of_none_eq_some _ ht
        · split at ht
          · exact Option.some.inj ht ▸ .ite h.ringPass h.ringGroup
          · split at ht
            · exact Option.some.inj ht ▸ h.ringPass
            · exact of_none_eq_some _ ht

omit h in
theorem State.Formed.alignRings (h : s.Formed) {fuel : Nat} {cells : List Nat} : (State.alignRings fuel cells s).Formed := by
  induction fuel generalizing s with
  | zero => exact h
  | succ fuel ih =>
    unfold State.alignRings
    extract_lets r
    have hr : r.2.Formed := by
      refine List.foldlRecOn cells _ (motive := fun x : Bool × State => x.2.Formed) h fun x hx c _ => ?_
      split
      next u hu => exact hx.ringMove hu
      · exact hx
    exact .ite (ih hr) hr

omit h in
theorem State.Formed.drainCopy (h : s.Formed) {cell id fuel : Nat} (ht : State.drainCopy cell id fuel s = some t) : t.Formed := by
  induction fuel generalizing s with
  | zero => exact Option.some.inj ht ▸ h
  | succ fuel ih =>
    unfold State.drainCopy at ht
    split at ht
    · exact Option.some.inj ht ▸ h
    · split at ht
      · exact Option.some.inj ht ▸ h
      · split at ht
        · dsimp only at ht
          split at ht
          · exact ih h.copyLand ht
          · exact of_none_eq_some _ ht
        · exact Option.some.inj ht ▸ h

omit h in
theorem State.Formed.drainAll (h : s.Formed) {l : List (Nat × Nat × Nat)} (ht : s.drainAll l = some t) : t.Formed := by
  induction l generalizing s with
  | nil => exact Option.some.inj ht ▸ h
  | cons x l ih =>
    unfold State.drainAll at ht
    split at ht
    · exact of_none_eq_some _ ht
    next u hu => exact ih (h.drainCopy hu) ht

theorem State.Formed.haltGroup {gid : Nat} {g : Group} {l : Launch} (ht : s.haltGroup gid g l = some t) : t.Formed := by
  unfold State.haltGroup at ht
  obtain ⟨u, hu, rfl⟩ := Option.map_eq_some_iff.1 ht
  have hhalted := h.foldl (l := s.fibresOf gid) (f := fun s e => s.haltBlocks e.1) fun _ _ hv => hv.haltBlocks
  have hdrained := hhalted.alignRings.drainAll hu
  exact hdrained.foldl fun _ _ hv => hv.foldl fun _ _ hw => hw.finishCopy

theorem State.Formed.preempt {gid : Nat} (ht : s.preempt gid = some t) : t.Formed := by
  unfold State.preempt at ht
  split at ht
  · exact Option.some.inj ht ▸ h
  · split at ht
    · exact Option.some.inj ht ▸ h
    · split at ht
      · exact Option.some.inj ht ▸ h
      · split at ht
        · exact of_none_eq_some _ ht
        · dsimp only at ht
          split at ht
          · exact Option.some.inj ht ▸ h.setGroup
          · obtain ⟨u, hu, rfl⟩ := Option.map_eq_some_iff.1 ht
            exact (h.haltGroup hu).saveGroup.requeued

omit h in
theorem State.Formed.preemptAll (h : s.Formed) {l : List Nat} (ht : s.preemptAll l = some t) : t.Formed := by
  induction l generalizing s with
  | nil => exact Option.some.inj ht ▸ h
  | cons x l ih =>
    unfold State.preemptAll at ht
    split at ht
    · exact of_none_eq_some _ ht
    next u hu => exact ih (h.preempt hu) ht

theorem State.Formed.stopFetch {gid : Nat} : (s.stopFetch gid).Formed := by
  obtain ⟨_, hk⟩ := stopFetch_keeps s gid
  exact hk ▸ h.setGroups

theorem forms_preemptTimer {die : Nat} : Forms (execPreemptTimer die s) := by
  unfold execPreemptTimer
  split
  · exact forms_next h
  · split
    · exact forms_next h
    · refine forms_ite (forms_next h) ?_
      split
      · exact forms_next h
      next vs _ =>
        refine forms_next ?_
        cases hp : s.preemptAll vs with
        | none => exact h.foldl fun _ _ hu => hu.stopFetch
        | some u => exact h.preemptAll hp

theorem State.Formed.holdNow {gid : Nat} : (s.holdNow gid).Formed := by
  unfold State.holdNow
  split
  · exact .ite h (.ite h.setGroup.requeued h.setGroup)
  · exact h

theorem forms_preemption {gid : Nat} : Forms (execPreemption gid s) := by
  unfold execPreemption
  refine forms_ite (forms_next h.holdNow) ?_
  split
  next u hu => exact forms_next (h.preempt hu).holdNow
  · exact forms_next h.stopFetch

/-! #### Ending -/

theorem State.Formed.abortRegions {f : Fibre} {cause : Nat} : (s.abortRegions f cause).Formed := by
  unfold State.abortRegions
  extract_lets go u
  have hgo : ∀ (u : State) (slot grant : Nat), u.Formed → (go u slot grant).Formed := fun _ _ _ hu => .ite hu.abortSlot hu
  have hu : u.Formed := by
    unfold u
    split
    · exact hgo _ _ _ h
    · exact h
  clear_value u
  split
  · exact hgo _ _ _ hu
  · exact hu

theorem State.Formed.dropFibre {fid cause : Nat} : (s.dropFibre fid cause).Formed := by
  unfold State.dropFibre
  split
  · exact h
  · extract_lets s1 s2 s3 s4 s5
    have hs5 : s5.Formed := h.abortRegions.setAccesses.setAccesses.modFibre.modVirga
    clear_value s5
    exact .ite hs5 hs5.setFibres

theorem State.Formed.discardGroup {gid cause : Nat} {st : GroupState} : (s.discardGroup gid cause st).Formed := by
  unfold State.discardGroup
  split
  · exact h
  · exact ((h.foldl fun _ _ hu => hu.dropFibre).foldl fun _ _ hu => hu.emptyCell).setGroup

theorem State.Formed.endGroup {gid cause : Nat} {st : GroupState} (ht : s.endGroup gid cause st = some t) : t.Formed := by
  unfold State.endGroup at ht
  split at ht
  · exact Option.some.inj ht ▸ h
  · split at ht
    · split at ht
      · obtain ⟨u, hu, rfl⟩ := Option.map_eq_some_iff.1 ht
        exact (h.haltGroup hu).discardGroup
      · exact of_none_eq_some _ ht
    · exact Option.some.inj ht ▸ h.discardGroup

theorem State.Formed.addEvent {e : Nat} {v : Word} : (s.addEvent e v).Formed := h.firing (frame_addEvent s e v)

theorem State.Formed.setAsked {d : Dict Bool} {x : Dict Half} {o : List OutMsg} :
    ({ s with snoops := d, halves := x, out := o } : State).Formed := h.same rfl rfl rfl

theorem State.Formed.unbind {lid : Nat} : (s.unbind lid).Formed := h.same rfl rfl rfl

theorem State.Formed.retire {lid : Nat} {l : Launch} {signal : Bool} {v : Option Word} :
    (s.retire lid l signal v).2.Formed ∧ ∀ u, (s.retire lid l signal v).1 = some u → u.Formed := by
  unfold State.retire
  extract_lets t w stored
  have ht : t.Formed := by
    unfold t
    split
    · exact .ite h.addEvent h
    · exact h
  clear_value t
  have hstored : ∀ u, stored.1 = some u → u.Formed := by
    unfold stored
    split
    · exact ht.engineWrite.2
    · exact fun u hu => Option.some.inj hu ▸ ht
  clear_value stored
  split
  · exact ⟨h.setAsked, of_none_eq_some⟩
  next u _ =>
    have hu := hstored u rfl
    refine ⟨h, fun x hx => ?_⟩
    obtain rfl := Option.some.inj hx
    exact (State.Formed.setLaunches (.ite hu.emit hu)).unbind.requeued

theorem State.Formed.setCancelling {c : Option Nat} : ({ s with cancelling := c } : State).Formed := h.same rfl rfl rfl

theorem State.Formed.clearGo {lid : Nat} : (s.clearGo lid).Formed := .ite h.setReg.setCancelling h

theorem State.Formed.cancelOn {lid : Nat} {l : Launch} {sig : Bool} : (s.cancelOn lid l sig).Formed := by
  unfold State.cancelOn
  split
  next gid _ _ =>
    cases hend : s.endGroup gid 3 .halted with
    | none => exact h.stopFetch
    | some u => exact (h.endGroup hend).requeued
  · obtain ⟨hleft, hdone⟩ := h.retire (lid := lid) (l := l) (signal := sig) (v := some (BitVec.allOnes 64))
    split
    next u _ hu => exact (hdone u (by rw [hu])).clearGo.requeued
    · exact h.setAsked

theorem forms_segmentReport {lid die : Nat} : Forms (execSegmentReport lid die s) := by
  unfold execSegmentReport
  split
  · exact forms_next h
  next l _ =>
    refine forms_ite (forms_next h.cancelOn) (forms_ite (forms_next h) ?_)
    extract_lets reported l' u
    have hu : u.Formed := h.setLaunches
    clear_value u
    refine forms_ite ?_ (forms_next hu)
    obtain ⟨hleft, hdone⟩ := hu.retire (lid := lid) (l := l') (signal := true) (v := none)
    split
    next v _ hv => exact forms_next (hdone v (by rw [hv]))
    next v hv => exact forms_next (hleft.of_pair hv)

end Rules

end Sys2Proof.Machine
end

section
/-! PROOFS. The form of memory (log 2) under the events of the controller, of the dies and of the sessions. -/

namespace Sys2Proof.Machine

section Rules
variable {s t : State} (h : s.Formed)
include h

/-! #### Writes of the owner -/

theorem State.Formed.changeMap {c : MapChange} : (s.changeMap c).Formed := .ite h.applyChange h.setChanges

theorem forms_ldmapWrite {who p : Nat} {v : Word} : Forms (execLdmapWrite who p v s) := forms_next (.ite h.changeMap h)

theorem State.Formed.setExpect {d : Dict Nat} : ({ s with expect := d } : State).Formed := h.same rfl rfl rfl

theorem forms_lwcfgWrite {who w : Nat} {v : Word} : Forms (execLwcfgWrite who w v s) := by
  unfold execLwcfgWrite
  exact forms_ite (forms_next (.ite h.setReg.setExpect h.setReg)) (forms_next h)

theorem State.Formed.cancelLaunch {lid : Nat} {sig : Bool} : (s.cancelLaunch lid sig).Formed :=
  (h.setLaunches.foldl fun _ _ hu => .ite hu hu.discardGroup).requeued

theorem forms_lcancel {who : Nat} {v : Word} : Forms (execLcancel who v s) := by
  unfold execLcancel
  refine forms_ite (forms_next h) (forms_ite (forms_next h.setReg) ?_)
  split
  · exact forms_next h.setReg.setCancelling
  · exact forms_next h.setReg.setCancelling.cancelLaunch

theorem forms_gmove {who : Nat} {v : Word} : Forms (execGmove who v s) := by
  unfold execGmove
  refine forms_ite (forms_next h) (forms_ite (forms_next h.setReg) ?_)
  split
  · exact forms_next h.setReg
  · split
    · exact forms_next h.setReg
    · exact forms_ite (forms_next h.setReg.moveGroup) (forms_next h.setReg)

theorem forms_clkstepWrite {who : Nat} {v : Word} : Forms (execClkstepWrite who v s) := by
  unfold execClkstepWrite
  exact forms_ite (forms_next h.setReg) (forms_next h)

theorem State.Formed.setFlash {v : Word} : ({ s with flashCfg := v } : State).Formed := h.same rfl rfl rfl

theorem forms_startcfgWrite {who : Nat} {v : Word} : Forms (execStartcfgWrite who v s) := by
  unfold execStartcfgWrite
  exact forms_ite (forms_next h.setReg.setFlash) (forms_next h)

theorem forms_moderrClear {who : Nat} {v : Word} : Forms (execModerrClear who v s) := by
  unfold execModerrClear
  exact forms_ite (forms_next h.setReg) (forms_next h)

theorem State.Formed.trimSlices : s.trimSlices.Formed := h.foldl fun _ _ hu => .ite hu hu.tick.evictLlc

theorem forms_registerWrite {who off : Nat} {v : Word} : Forms (execRegisterWrite who off v s) := by
  unfold execRegisterWrite
  refine forms_ite (forms_next h) ?_
  split
  · exact forms_next (.ite h.setReg.trimSlices h.setReg)
  · exact forms_ite (forms_next h.setDie) (forms_next h)

/-! #### The debugger -/

theorem forms_debugHold {who gid : Nat} : Forms (execDebugHold who gid s) := by
  unfold execDebugHold
  refine forms_ite (forms_next h) ?_
  split
  · exact forms_next h
  · dsimp only
    split
    next u hu => exact forms_next (h.setGroup.preempt hu).holdNow
    · exact forms_next h.setGroup.stopFetch

theorem State.Formed.areaWrite {gid : Nat} {g : Group} {l : Launch} {off : Nat} {v : Word} : (s.areaWrite gid g l off v).Formed := by
  unfold State.areaWrite
  extract_lets y bytes
  refine .ite h (iteInduction (fun _ => ?_) fun _ => .ite h (.ite ?_ (iteInduction (fun _ => ?_) fun _ => .ite ?_ (iteInduction (fun _ => ?_) fun _ => h))))
  · split
    · exact h.setFibre
    · exact h
  · exact .ite h (.ite h.setGroup h.setGroup)
  · split
    · exact .ite h.setGroup h
    · exact h
  · exact .ite h h.setGroup
  · split
    · exact h.setGroup
    · exact h

theorem forms_debugAccess {gid off : Nat} {write : Bool} {v : Word} : Forms (execDebugAccess gid off write v s) := by
  unfold execDebugAccess
  split
  · exact forms_next h
  · have hdown : ∀ (c d : Prop) (_ : Decidable c) (_ : Decidable d) (m n : OutMsg) (k : Nat),
        Forms (if c then .next (s.emit m) else if d then .next ({ s with tick := k }.emit n) else .next s) :=
      fun _ _ _ _ _ _ _ => forms_ite (forms_next h.emit) (forms_ite (forms_next h.tick.emit) (forms_next h))
    split
    · refine forms_ite (forms_next ?_) (forms_next h.tick.emit)
      split
      · exact h.setGroup.areaWrite
      · exact h.setGroup
    · exact hdown _ _ _ _ _ _ _
    · exact hdown _ _ _ _ _ _ _
    · exact hdown _ _ _ _ _ _ _
    · exact forms_next h

theorem forms_debugRelease {gid : Nat} : Forms (execDebugRelease gid s) := by
  unfold execDebugRelease
  split
  · exact forms_next h
  · exact forms_ite (forms_next h) (forms_next h.setGroup.enqueueGroup.requeued)

/-! #### Dies -/

theorem State.Formed.drain {d op : Nat} {save : Bool} : (s.drain d op save).Formed := h.setDie.changeMap

theorem State.Formed.startReset {d op : Nat} : (s.startReset d op).Formed := h.setDie

theorem State.Formed.dieOp {op die : Nat} {save : Bool} : (s.dieOp op die save).Formed := by
  unfold State.dieOp
  split
  · exact h
  · exact h
  · exact h
  · exact h.drain
  · exact h.startReset
  · exact h.drain
  · exact h.setDie.changeMap
  · exact h.startReset
  · exact h.startReset
  · exact h

theorem forms_warmReset {who die : Nat} {save : Bool} : Forms (execWarmReset who die save s) := forms_next (.ite h.setReg.dieOp h)

theorem forms_fenceOnly {who die : Nat} {save : Bool} : Forms (execFenceOnly who die save s) := forms_next (.ite h.setReg.dieOp h)

theorem forms_readmit {who die : Nat} : Forms (execReadmit who die s) := forms_next (.ite h.setReg.dieOp h)

theorem State.Formed.evict {gid : Nat} {save : Bool} (ht : s.evict gid save = some t) : t.Formed := by
  unfold State.evict at ht
  split at ht
  · exact h.endGroup ht
  · split at ht
    · exact of_none_eq_some _ ht
    next u hu =>
      split at ht
      · exact (h.preempt hu).endGroup ht
      · exact Option.some.inj ht ▸ h.preempt hu

omit h in
theorem State.Formed.evictAll (h : s.Formed) {save : Bool} {l : List Nat} (ht : s.evictAll save l = some t) : t.Formed := by
  induction l generalizing s with
  | nil => exact Option.some.inj ht ▸ h
  | cons gid l ih =>
    unfold State.evictAll at ht
    split at ht
    · exact of_none_eq_some _ ht
    next u hu => exact ih (h.evict hu) ht

theorem forms_linkQuiesce {die : Nat} : Forms (execLinkQuiesce die s) := by
  unfold execLinkQuiesce
  refine forms_ite (forms_next h) ?_
  split
  · exact forms_next (h.foldl fun _ _ hu => hu.stopFetch)
  next u hu =>
    have hu := h.evictAll hu
    exact forms_next (.ite hu.setDie.endSequence hu.setDie)

theorem State.Formed.setCells {d : Dict CellSt} : ({ s with cells := d } : State).Formed := h.same rfl rfl rfl

theorem State.Formed.resetCells {d : Nat} : (s.resetCells d).Formed := by
  refine h.foldl fun u c hu => ?_
  extract_lets v
  have hv : v.Formed := hu.clearCell.foldl fun _ _ hw => hw.dropL1
  clear_value v
  exact hv.setCells

theorem forms_dieResetDone {die : Nat} : Forms (execDieResetDone die s) := by
  unfold execDieResetDone
  dsimp only
  split
  · exact forms_ite (forms_next h) (forms_next h.startReset)
  · exact forms_ite (forms_next h) (forms_next h.changeMap)
  · exact forms_next h.resetCells.setDie
  · exact forms_next h

theorem forms_bistDone {die code : Nat} : Forms (execBistDone die code s) := by
  unfold execBistDone
  exact forms_ite (forms_next h) (forms_ite (forms_next h.requeue) (forms_ite (forms_next h.setDie) (forms_next h.setDie.endSequence)))

/-! #### Links and errors -/

theorem State.Formed.loseBeats {fids : List Nat} : (s.loseBeats fids).Formed := h.setAccesses

theorem State.Formed.tellHost {port : Nat} : (s.tellHost port).Formed := h.emit

theorem State.Formed.moduleError {kind place : Nat} : (s.moduleError kind place).Formed := by
  unfold State.moduleError
  exact .ite h.failStart (.ite (h.setReg.foldl fun _ _ hu => hu.tellHost) (.ite h.setReg.tellHost h.setReg))

theorem forms_linkDown {die : Nat} {lost : Bool} : Forms (execLinkDown die lost s) := by
  unfold execLinkDown
  refine forms_ite (forms_next h) ?_
  extract_lets gids fids s1 s2 s3
  have hs1 : s1.Formed := .ite h.loseBeats h
  clear_value s1
  have hs2 : s2.Formed := hs1.foldl fun _ _ hu => hu.discardGroup
  clear_value s2
  exact forms_next hs2.setDie.changeMap.moduleError

theorem State.Formed.setTurn {n : Nat} {a : Option Act} : ({ s with tick := n, turn := a } : State).Formed := h.same rfl rfl rfl

/-- A beat has been counted as replayed or arrived, and the link as busy. -/
theorem State.Formed.replayed {die n : Nat} {x : Die} : (Machine.countSector die 9 1 (({ s with tick := n } : State).setDie die x)).Formed :=
  h.tick.setDie.countSector

theorem forms_beatReplay {die : Nat} : Forms (execBeatReplay die s) := by
  unfold execBeatReplay
  refine forms_ite (forms_next h) ?_
  dsimp only [State.toss]
  exact forms_ite (forms_next h.replayed) (forms_next h.replayed.setTurn)

theorem State.Formed.setCredits {n : Nat} {d : Dict Credit} : ({ s with tick := n, credits := d } : State).Formed := h.same rfl rfl rfl

theorem forms_creditReturn {link chan n : Nat} {ok : Bool} : Forms (execCreditReturn link chan n ok s) := by
  unfold execCreditReturn
  exact forms_ite (forms_next h.setCredits) (forms_next h)

theorem forms_creditAudit {link chan : Nat} : Forms (execCreditAudit link chan s) := by
  unfold execCreditAudit
  exact forms_ite (forms_next h) (forms_next (.ite h.setCredits.countSector h.setCredits))

theorem forms_gateTimer {cell : Nat} : Forms (execGateTimer cell s) := by
  unfold execGateTimer
  exact forms_ite (forms_next h) (forms_next (h.clearCell.foldl fun _ _ hu => hu.dropL1).setCell)

theorem forms_cellWake {cell : Nat} : Forms (execCellWake cell s) := by
  unfold execCellWake
  exact forms_ite (forms_next h.emit) (forms_ite (forms_next h.setCell) (forms_next h))

theorem State.Formed.countCec {d : Nat} : (s.countCec d).Formed := h.setDie

theorem State.Formed.setClosed {b : Bool} : ({ s with closed := b } : State).Formed := h.same rfl rfl rfl

theorem forms_uncorrectableError {place loc : Nat} : Forms (execUncorrectableError place loc s) := by
  unfold execUncorrectableError
  split
  · exact forms_ite (forms_next h.setBadChunks) (forms_next h)
  · exact forms_ite (forms_ite (forms_next h.setBadLines.moduleError) (forms_next h)) (forms_next h.setBadLines.moduleError)
  · exact forms_next h.dropL1.setCell.countCec
  · split
    · split
      next u hu => exact forms_next (h.endGroup hu).relaunch
      · exact forms_next h.requeue
    · exact forms_next h
  · exact forms_next h.setClosed.moduleError
  · exact forms_next h

theorem forms_correctedError {place loc : Nat} : Forms (execCorrectedError place loc s) := by
  unfold execCorrectedError
  split
  · exact forms_ite (forms_next h.countCec) (forms_next h)
  · exact forms_next h.countSector
  · exact forms_next h.countSector
  · exact forms_next h

theorem forms_thermalThrottle {step sector : Nat} : Forms (execThermalThrottle step sector s) := by
  unfold execThermalThrottle
  exact forms_ite (forms_next h.setReg.moduleError) (forms_next h)

/-! #### Start and ownership -/

theorem State.Formed.setRunImage {v : Vec} : ({ s with runImage := v } : State).Formed := h.same rfl rfl rfl

theorem State.Formed.setEvents {d : Dict Word} : ({ s with events := d } : State).Formed := h.same rfl rfl rfl

theorem State.Formed.minimalStart {ok : Bool} : (s.minimalStart ok).Formed := by
  unfold State.minimalStart
  extract_lets s1 s2 s3 s4
  have hs3 : s3.Formed := h.setReg.minimalLimits.setRunImage
  clear_value s3
  have hs4 : s4.Formed := hs3.fenceDies.setReg.setReg
  clear_value s4
  exact .ite (hs4.setEvents.foldl fun _ _ hu => hu.setReg).setReg hs3.fenceDies

theorem State.Formed.setPhase {p : Nat} : (s.setPhase p).Formed := h.setReg

theorem State.Formed.startDies : s.startDies.Formed := h.foldl fun _ _ hu => .ite hu.tick hu.tick.setDie

theorem State.Formed.setStarted {p : Dict Nat} {v : BitVec 32} : ({ s with ports := p, fusedMin := v } : State).Formed :=
  h.same rfl rfl rfl

theorem forms_moduleStart {outcome : Nat} : Forms (execModuleStart outcome s) := by
  unfold execModuleStart
  refine forms_ite (forms_next h) (forms_ite (forms_next h.minimalStart) (forms_ite (forms_next h.failStart) ?_))
  split
  · exact forms_next h.setPhase
  · exact forms_ite (forms_next h.failStart) (forms_ite (forms_next h.failStart) (forms_next h.setReg.setRunImage))
  · exact forms_next h.setReg.setEvents.setPhase
  · exact forms_ite (forms_next h.startDies.failStart) (forms_next h.startDies.setPhase)
  · exact forms_ite (forms_next h.failStart) (forms_next h.setReg.setStarted.setPhase)

theorem State.Formed.claimed {who handto : Nat} : (s.claimed who handto).Formed := h.same rfl rfl rfl

theorem forms_claim {who : Nat} {v : Word} : Forms (execClaim who v s) := by
  unfold execClaim
  exact forms_ite (forms_next h) (forms_ite (forms_next h.claimed) (forms_ite (forms_next h.claimed) (forms_ite (forms_next h.setReg)
    (forms_ite (forms_next h.claimed) (forms_next h)))))

/-! #### Sessions (R306) -/

theorem State.Formed.setSession {port : Nat} {x : Session} : (s.setSession port x).Formed := h.same rfl rfl rfl

theorem State.Formed.reply {port : Nat} {kind : String} {body : List Word} : (s.reply port kind body).Formed := h.setSession.emit

theorem State.Formed.refuseRequest {port : Nat} : (s.refuseRequest port).Formed := h.emit

/-- A request is answered, or refused. -/
theorem forms_answer {c : Prop} {_ : Decidable c} {port : Nat} (ht : t.Formed) :
    Forms (if c then .next t else .next (s.refuseRequest port)) := forms_ite (forms_next ht) (forms_next h.refuseRequest)

theorem forms_getMeasurements {port index : Nat} {nonce : Word} : Forms (execGetMeasurements port index nonce s) := by
  unfold execGetMeasurements
  split
  · exact forms_answer h h.reply.reply
  · exact forms_next h.refuseRequest

theorem forms_finish {port : Nat} {proof : Word} : Forms (execFinish port proof s) := by
  unfold execFinish
  dsimp only
  split
  · exact forms_answer h h.setSession.reply
  · exact forms_next h.refuseRequest

theorem State.Formed.setKeys {n : Nat} {k : Dict Vec} {l : Dict Nat} :
    ({ s with nextId := n, keys := k, lineKey := l } : State).Formed := h.same rfl rfl rfl

theorem State.Formed.loadKey {n : Nat} {key : Vec} : (s.loadKey n key).Formed := .ite h h.setKeys

theorem State.Formed.setIdeKeys {d : Dict Vec} : ({ s with ideKeys := d } : State).Formed := h.same rfl rfl rfl

end Rules

end Sys2Proof.Machine
end

section
/-! PROOFS. The form of memory (log 2) under every step. -/

namespace Sys2Proof.Machine

section Rules
variable {s t : State} (h : s.Formed)
include h

/-! #### Every event -/

theorem forms_quiet {o : Host.Outcome State Fault Refusal} (ho : Quiet s o) : Forms o := fun t ht => h.firing (ho t ht)

theorem forms_event (i : Instr) (hslot : ¬ (encode i).isSome = true) : Forms (exec i s) := by
  cases i with
  | frameGrant => exact forms_frameGrant h
  | blockFetch => exact forms_blockFetch h
  | blockCommit => exact forms_blockCommit h
  | trapDelivery => exact forms_trapDelivery h
  | loadReply => exact forms_loadReply h
  | homeWrite => exact forms_homeWrite h
  | invalidationAck => exact forms_invalidationAck h
  | l1Invalidate => exact forms_l1Invalidate h
  | homeRead => exact forms_homeRead h
  | writeAck => exact forms_writeAck h
  | l1Evict => exact forms_next h.dropL1
  | llcEvict => exact forms_next h.evictLlc
  | pageWalk => exact forms_pageWalk h
  | tableUpdateWrite => exact forms_tableUpdateWrite h
  | tlbinvComplete => exact forms_tlbinvComplete h
  | bridgeModuleRead => exact forms_bridgeModuleRead h
  | bridgeModuleWrite => exact forms_bridgeModuleWrite h
  | bridgeDropHalf => exact forms_next h.bridgeDrop
  | go => exact forms_go h
  | snpData => exact forms_next h.snpData
  | snpInv => exact forms_next h.snpInv
  | snpCur => exact forms_snpCur h
  | writePull => exact forms_writePull h
  | goWritePullDrop => exact forms_goWritePullDrop h
  | memRd => exact forms_memRd h
  | memRdData => exact forms_memRdData h
  | memWr => exact forms_memWr h
  | birspi => exact forms_birspi h
  | atomicOpCompletion => exact forms_atomicOpCompletion h
  | slotGrant => exact forms_slotGrant h
  | regionRead => exact forms_regionRead h
  | regionWrite => exact forms_regionWrite h
  | regionAtomic => exact forms_regionAtomic h
  | edgeRequest => exact forms_edgeRequest h
  | stallRetry => exact forms_stallRetry h
  | endReport => exact forms_endReport h
  | regionCommit => exact forms_regionCommit h
  | regionAbort => exact forms_regionAbort h
  | commitAnswer => exact forms_commitAnswer h
  | abortAnswer => exact forms_abortAnswer h
  | dependenceTimeout => exact forms_dependenceTimeout h
  | recoveryGo => exact forms_recoveryGo h
  | leaseExpiry => exact forms_leaseExpiry h
  | startWatchdog => exact forms_startWatchdog h
  | goWord => exact forms_goWord h
  | groupPlace => exact forms_groupPlace h
  | ageingPeriod => exact forms_ageingPeriod h
  | preemptTimer => exact forms_preemptTimer h
  | preemption => exact forms_preemption h
  | segmentReport => exact forms_segmentReport h
  | copyStart => exact forms_copyStart h
  | copyBeat => exact forms_copyBeat h
  | copyFinish => exact forms_copyFinish h
  | bbarInitPerform => exact forms_bbarInitPerform h
  | markTake => exact forms_markTake h
  | nodeCommandStart => exact forms_nodeCommandStart h
  | nodeCommandFinish => exact forms_nodeCommandFinish h
  | ringStart => exact forms_ringStart h
  | ringHandover => exact forms_ringHandover h
  | ringTimeout => exact forms_ringTimeout h
  | ldmapWrite => exact forms_ldmapWrite h
  | lwcfgWrite => exact forms_lwcfgWrite h
  | lcancel => exact forms_lcancel h
  | gmove => exact forms_gmove h
  | debugHold => exact forms_debugHold h
  | debugAccess => exact forms_debugAccess h
  | debugRelease => exact forms_debugRelease h
  | warmReset => exact forms_warmReset h
  | fenceOnly => exact forms_fenceOnly h
  | readmit => exact forms_readmit h
  | linkQuiesce => exact forms_linkQuiesce h
  | dieResetDone => exact forms_dieResetDone h
  | bistDone => exact forms_bistDone h
  | linkDown => exact forms_linkDown h
  | beatReplay => exact forms_beatReplay h
  | creditReturn => exact forms_creditReturn h
  | creditAudit => exact forms_creditAudit h
  | gateTimer => exact forms_gateTimer h
  | cellWake => exact forms_cellWake h
  | uncorrectableError => exact forms_uncorrectableError h
  | correctedError => exact forms_correctedError h
  | thermalThrottle => exact forms_thermalThrottle h
  | clkstepWrite => exact forms_clkstepWrite h
  | moduleStart => exact forms_moduleStart h
  | claim => exact forms_claim h
  | startcfgWrite => exact forms_startcfgWrite h
  | moderrClear => exact forms_moderrClear h
  | registerWrite => exact forms_registerWrite h
  | getVersion => exact forms_ite (forms_next h) (forms_next h.setSession.reply)
  | getCapabilities => exact forms_answer h h.setSession.reply
  | negotiateAlgorithms => exact forms_answer h h.setSession.reply
  | getDigests => exact forms_answer h h.reply
  | getCertificate => exact forms_answer h h.reply
  | challenge => exact forms_answer h h.reply
  | getMeasurements => exact forms_getMeasurements h
  | keyExchange => exact forms_answer h h.setSession.reply
  | finish => exact forms_finish h
  | keyUpdate => exact forms_answer h h.setSession.reply
  | heartbeat => exact forms_answer h h.reply
  | endSession => exact forms_answer h h.setSession.reply
  | vendorDefined => exact forms_answer h h.loadKey.reply
  | ideKm => exact forms_answer h h.setIdeKeys.reply
  | _ => exact absurd rfl hslot

/-- Every instruction and every event keeps the form. -/
theorem forms_exec (i : Instr) : Forms (exec i s) := by
  by_cases hslot : (encode i).isSome = true
  · by_cases hlaunch : ∀ pr t0 t1, i ≠ .launch pr t0 t1
    · exact forms_quiet h (quiet_exec i s hslot hlaunch)
    · push Not at hlaunch
      obtain ⟨pr, t0, t1, rfl⟩ := hlaunch
      exact forms_launch h
  · exact forms_event h i hslot

/-! #### Time, choice and the outside world -/

theorem State.Formed.pass : s.pass.Formed := by
  obtain ⟨_, _, _, _, hk⟩ := pass_keeps s
  exact hk ▸ h.same rfl rfl rfl

theorem State.Formed.setInputs {l : List Input} : ({ s with inputs := l } : State).Formed := h.same rfl rfl rfl

theorem State.Formed.nextInput : s.nextInput.2.Formed := by
  unfold State.nextInput
  split
  · exact h.setInputs
  · exact h.setInputs
  · exact h

theorem State.Formed.setRound {l : List Act} : ({ s with round := l } : State).Formed := h.same rfl rfl rfl

theorem State.Formed.fairTurn {own : List Act} : (s.fairTurn own).2.Formed := by
  unfold State.fairTurn
  split
  · exact h.setRound
  · exact h.setRound.nextInput

theorem State.Formed.setSteps {n : Nat} : ({ s with steps := n } : State).Formed := h.same rfl rfl rfl

theorem State.Formed.chosen : s.chosen.2.Formed := by
  unfold State.chosen
  split
  · exact h.same rfl rfl rfl
  · dsimp only
    split
    · exact h.setSteps.fairTurn
    · split
      · exact h.setSteps
      · exact h.setSteps.nextInput

theorem State.Formed.away : s.away.Formed := h.same rfl rfl rfl

theorem State.Formed.at_ {fid seq k : Nat} : (s.at_ fid seq k).Formed := h.same rfl rfl rfl

theorem State.Formed.hostStore {half : Nat} {data : Vec} : (s.hostStore half data).Formed := .ite h (.ite h.toHost h.putBack)

theorem State.Formed.hostAtomic {addr op width : Nat} {a b : Word} : (s.hostAtomic addr op width a b).Formed := by
  unfold State.hostAtomic
  refine .ite h (.ite h.putBack ?_)
  extract_lets src loc
  clear_value loc
  have hread := h.engineRead (loc := loc) (n := width)
  split
  next u hu => exact (hread.of_pair hu).putBack
  next bs u hu =>
    have hu := hread.of_pair hu
    refine .ite hu.emit ?_
    split
    · exact hu.emit
    next v _ =>
      obtain ⟨hleft, hdone⟩ := hu.engineWrite (loc := loc) (bs := natLe width v)
      split
      next w _ hw => exact (hdone w (by rw [hw])).emit
      next w hw => exact (hleft.of_pair hw).putBack

theorem State.Formed.outside {x : Input} : (s.outside x).Formed := by
  cases x with
  | ev i => exact h
  | hostStore half data => exact h.hostStore
  | hostAtomic addr op width a b => exact h.hostAtomic
  | hdmRange base size => exact h.same rfl rfl rfl
  | partner port rate => exact .ite (h.same rfl rfl rfl) h
  | powerCycle => exact h.moduleReset

theorem State.Formed.act {a : Option Act} : Forms (s.act a) := by
  unfold State.act
  split
  · split
    · exact forms_exec h.at_ _
    · exact forms_next h
  · exact forms_exec h.away _
  · exact forms_next h.away.outside
  · exact forms_next h

end Rules

/-- Settles O7: each operation that writes the memories or the last-level cache keeps the form, and every instruction and
event is made of these and of operations that write neither. -/
theorem everyStepKeepsTheFormOfMemory : Obligations.EveryStepKeepsTheFormOfMemory := by
  intro s t ⟨hmem, hcmem⟩ hllc hstep
  obtain ⟨hmem', hcmem', hllc'⟩ := (State.Formed.chosen ⟨hmem, hcmem, hllc⟩).pass.act t hstep
  exact ⟨⟨hmem', hcmem'⟩, hllc'⟩

end Sys2Proof.Machine
end

section
/-! PROOFS. The lanes of vector results (R93, R94). -/

namespace Sys2Proof.Machine

/-! ### The lanes of a packed list -/

/-- A lane of a vector packed from the lanes of a list. -/
theorem lane_pack {w : Lane} {ls : List Nat} (hlen : ls.length = w.count) (i : Nat) :
    lane (packLanes w.bits ls) w.bits i = ls.getD i 0 % 2 ^ w.bits :=
  lane_packLanes (by rw [hlen, lane_total]) i

theorem lane_mod (v : Vec) (n i : Nat) : lane v n i % 2 ^ n = lane v n i := Nat.mod_eq_of_lt (lane_lt v n i)

theorem lanes_getD_of_lt {w : Lane} {i : Nat} (v : Vec) (hi : i < w.count) : (lanes v w.bits).getD i 0 = lane v w.bits i := by
  rw [lanes_getD, lane_count, if_pos hi]

theorem lanes_length_eq (v : Vec) (w : Lane) : (lanes v w.bits).length = w.count := by rw [lanes_length, lane_count]

theorem lanes_map {α : Type} (v : Vec) (w : Lane) (f : Nat → α) :
    (lanes v w.bits).map f = (List.range w.count).map fun i => f (lane v w.bits i) := by
  rw [lanes, lane_count, List.map_map]
  rfl

theorem getD_map_range {α : Type} {n i : Nat} (f : Nat → α) (z : α) (hi : i < n) : ((List.range n).map f).getD i z = f i := by
  rw [List.getD_eq_getElem?_getD, List.getElem?_map, List.getElem?_range hi]
  rfl

theorem lane_pack_map {w : Lane} {i : Nat} (f : Nat → Nat) (hi : i < w.count) (hf : f i < 2 ^ w.bits) :
    lane (packLanes w.bits ((List.range w.count).map f)) w.bits i = f i := by
  rw [lane_pack (by simp), getD_map_range f 0 hi, Nat.mod_eq_of_lt hf]

/-- A count of at most 64 fits a lane. -/
theorem count_lt_two_pow {w : Lane} {n : Nat} (hn : n ≤ 64) : n < 2 ^ w.bits :=
  calc n < 2 ^ 8 := by omega
    _ ≤ 2 ^ w.bits := Nat.pow_le_pow_right (by decide) (by cases w <;> decide)

theorem lane_count_le (w : Lane) : w.count ≤ 64 := by cases w <;> decide

theorem lane_bits_le (w : Lane) : w.bits ≤ 64 := by cases w <;> decide

theorem length_filter_range_le (n : Nat) (p : Nat → Bool) : ((List.range n).filter p).length ≤ n :=
  (List.length_filter_le p _).trans_eq List.length_range

/-! ### The word of a list of bits -/

/-- The number whose bits are those of a list, the first lowest. -/
def bitsNat (l : List Bool) : Nat := l.foldr (fun b acc => (if b then 1 else 0) + 2 * acc) 0

theorem testBit_bitsNat (l : List Bool) (i : Nat) : (bitsNat l).testBit i = l.getD i false := by
  induction l generalizing i with
  | nil => simp [bitsNat]
  | cons b l ih =>
    have hcons : bitsNat (b :: l) = (if b then 1 else 0) + 2 * bitsNat l := rfl
    cases i with
    | zero => cases b <;> simp [hcons, Nat.testBit_zero, Nat.add_mod]
    | succ i =>
      have hhalf : bitsNat (b :: l) / 2 = bitsNat l := by rw [hcons]; split <;> omega
      rw [Nat.testBit_succ, hhalf, ih, List.getD_cons_succ]

theorem getLsbD_ofNat_bitsNat {l : List Bool} (hlen : l.length ≤ 64) (i : Nat) :
    (BitVec.ofNat 64 (bitsNat l)).getLsbD i = l.getD i false := by
  rw [BitVec.getLsbD_ofNat, testBit_bitsNat]
  by_cases hi : i < 64
  · simp [hi]
  · rw [List.getD_eq_default _ _ (by omega)]
    simp

/-! ### The lanes of each result -/

section Results
variable {w : Lane} {i : Nat} (u z : Vec) (hi : i < w.count)
include hi

theorem lane_broadcast (x : Nat) : lane (packLanes w.bits (List.replicate w.count x)) w.bits i = x % 2 ^ w.bits := by
  rw [lane_pack (by simp), List.getD_eq_getElem?_getD, List.getElem?_replicate, if_pos hi]
  rfl

theorem lane_insert (k y : Nat) : lane (packLanes w.bits ((lanes u w.bits).set k y)) w.bits i
    = if i = k then y % 2 ^ w.bits else lane u w.bits i := by
  have hlt : i < (lanes u w.bits).length := by rwa [lanes_length_eq]
  rw [lane_pack (by rw [List.length_set, lanes_length_eq]), List.getD_eq_getElem?_getD, List.getElem?_set]
  by_cases hk : k = i
  · rw [if_pos hk, if_pos (hk ▸ hlt), if_pos hk.symm]
    rfl
  · rw [if_neg hk, if_neg (Ne.symm hk), ← List.getD_eq_getElem?_getD, lanes_getD_of_lt u hi, lane_mod]

theorem lane_permute : lane (packLanes w.bits ((lanes z w.bits).map fun j => (lanes u w.bits).getD j 0)) w.bits i
    = if lane z w.bits i < w.count then lane u w.bits (lane z w.bits i) else 0 := by
  rw [lanes_map, lane_pack (by simp), getD_map_range _ 0 hi, lanes_getD, lane_count]
  split
  · exact lane_mod u _ _
  · exact Nat.zero_mod _

theorem lane_shift (n : Int) : lane (packLanes w.bits (shiftLanes (lanes u w.bits) n)) w.bits i
    = if 0 ≤ (i : Int) - n ∧ (i : Int) - n < w.count then lane u w.bits ((i : Int) - n).toNat else 0 := by
  have hshift : shiftLanes (lanes u w.bits) n = (List.range w.count).map fun i : Nat =>
      if 0 ≤ (i : Int) - n ∧ (i : Int) - n < w.count then (lanes u w.bits).getD ((i : Int) - n).toNat 0 else 0 := by
    rw [shiftLanes, lanes_length_eq]
  rw [hshift, lane_pack (by simp), getD_map_range _ 0 hi]
  split
  next h => rw [lanes_getD_of_lt u (by omega), lane_mod]
  · exact Nat.zero_mod _

theorem lane_select (m : Word) : lane (packLanes w.bits ((List.range w.count).map fun i =>
      if m.getLsbD i then (lanes u w.bits).getD i 0 else (lanes z w.bits).getD i 0)) w.bits i
    = if m.getLsbD i then lane u w.bits i else lane z w.bits i := by
  rw [lane_pack (by simp), getD_map_range _ 0 hi, lanes_getD_of_lt u hi, lanes_getD_of_lt z hi]
  split
  · exact lane_mod u _ _
  · exact lane_mod z _ _

theorem lane_prefixCounts (m : Word) : lane (packLanes w.bits ((List.range w.count).map fun i => popCount i m.toNat)) w.bits i
    = ((List.range i).filter fun j => m.getLsbD j).length :=
  (lane_pack_map (fun i => popCount i m.toNat) hi
    (count_lt_two_pow ((length_filter_range_le i _).trans (hi.le.trans (lane_count_le w))))).trans (popCount_eq m i)

theorem lane_counts : lane (packLanes w.bits ((lanes u w.bits).map (popCount w.bits))) w.bits i
    = ((List.range w.bits).filter fun j => u.getLsbD (w.bits * i + j)).length := by
  rw [lanes_map, lane_pack_map _ hi (count_lt_two_pow ((length_filter_range_le _ _).trans (lane_bits_le w)))]
  refine congrArg List.length (List.filter_congr fun j hj => ?_)
  rw [lane, nfld, ← BitVec.getLsbD, BitVec.getLsbD_extractLsb']
  simp [List.mem_range.1 hj]

end Results

/-! ### Compares and reductions -/

/-- The flags of a list of results, joined from the first. -/
theorem orFlags_map (l : List Nat) (f : Nat → Bool × FFlags) :
    orFlags ((l.map f).map Prod.snd) = l.foldl (fun fl i => fl ||| (f i).2) 0 := by
  rw [orFlags, List.map_map, List.foldl_map]
  rfl

theorem bitsNat_map (l : List Nat) (f : Nat → Bool × FFlags) :
    (l.map f).foldr (fun r acc => (if r.1 then 1 else 0) + 2 * acc) 0 = bitsNat (l.map fun i => (f i).1) := by
  rw [bitsNat, List.foldr_map, List.foldr_map]

/-- A meaning over `dataflow` sends what its function gives at the values of the operands. -/
theorem exec_of_values {i : Instr} {f : Acting → Result} (he : ∀ s, exec i s = dataflow i f s) {s : State} {a : Acting} (h : Fires s i a)
    (hb : badOperand (a.fr.operands a.k i) = none) {tok : Token} {fl : FFlags} (hf : f a = { tok := tok, flags := fl, fault := none }) :
    exec i s = .next (a.sends s i tok fl) := by
  rw [he, dataflow_next h hb, hf, sends_of rfl]

section Bits
variable {n : Nat} {b : Nat → Bool} (hn : n ≤ 64)
include hn

theorem getLsbD_rangeBits {i : Nat} (hi : i < n) : (BitVec.ofNat 64 (bitsNat ((List.range n).map b))).getLsbD i = b i := by
  rw [getLsbD_ofNat_bitsNat (by simpa using hn), getD_map_range b false hi]

theorem getLsbD_rangeBits_above {i : Nat} (hi : n ≤ i) : (BitVec.ofNat 64 (bitsNat ((List.range n).map b))).getLsbD i = false := by
  rw [getLsbD_ofNat_bitsNat (by simpa using hn), List.getD_eq_default _ _ (by simpa using hi)]

end Bits

/-- What `vcmp` does on two vectors. -/
theorem vcmp_result (c : VCmpOp) (w : Lane) (e : FEnv) (u z : Vec) :
    let cmp := fun i => laneCmp c w.bits e (lane u w.bits i) (lane z w.bits i)
    (List.range w.count).map (fun i => laneCmp c w.bits e ((lanes u w.bits).getD i 0) ((lanes z w.bits).getD i 0))
      = (List.range w.count).map cmp := by
  refine List.map_congr_left fun i hi => ?_
  rw [lanes_getD_of_lt u (List.mem_range.1 hi), lanes_getD_of_lt z (List.mem_range.1 hi)]

/-- Settles O20: each result is packed from the list of its lanes. -/
theorem vectorLaneResults : Obligations.VectorLaneResults := by
  refine ⟨fun pr w k t0 t1 s a x y m u z tu tz => ⟨fun h hl => ?_, fun hk h hl => ?_, fun hk h hl hr => ?_, fun h hl hr => ?_,
    fun h hl hr => ?_, fun h hl hr hx => ?_, fun h hl => ?_, fun h hl => ?_⟩,
    fun pr c r w t0 t1 s a u z tu tz => ⟨fun h hl hr => ?_, fun h hl => ?_⟩⟩
  case refine_1 =>
    refine ⟨_, exec_of_values (exec_vbcast pr w t0 t1) h ?_ rfl, fun i hi => ?_⟩
    · simp [Frame.operands, slotsOf, badOperand, hl]
    · rw [hl]
      exact lane_broadcast hi _
  case refine_2 =>
    refine exec_of_values (exec_vext pr w k t0) h ?_ ?_
    · simp [Frame.operands, slotsOf, badOperand, hl]
    · rw [hl, Token.vector, lanes_getD_of_lt u hk]
      rfl
  case refine_3 =>
    refine ⟨_, exec_of_values (exec_vins pr w k t0) h ?_ (by rw [hl, hr]; rfl), fun i hi => lane_insert u hi _ _⟩
    simp [Frame.operands, slotsOf, badOperand, hl, hr]
  case refine_4 =>
    refine ⟨_, exec_of_values (exec_vperm pr w t0 t1) h ?_ (by rw [hl, hr]; rfl), fun i hi => lane_permute u z hi⟩
    simp [Frame.operands, slotsOf, badOperand, hl, hr]
  case refine_5 =>
    refine ⟨_, exec_of_values (exec_vshl pr w t0 t1) h ?_ (by rw [hl, hr]; rfl), fun i hi => lane_shift u hi _⟩
    simp [Frame.operands, slotsOf, badOperand, hl, hr]
  case refine_6 =>
    refine ⟨_, exec_of_values (exec_vsel pr w t0 t1) h ?_ (by rw [hl, hr, hx]; rfl), fun i hi => lane_select u z hi _⟩
    simp [Frame.operands, slotsOf, badOperand, hl, hr, hx]
  case refine_7 =>
    refine ⟨_, exec_of_values (exec_viota pr w t0 t1) h ?_ (by rw [hl]; rfl), fun i hi => lane_prefixCounts hi _⟩
    simp [Frame.operands, slotsOf, badOperand, hl]
  case refine_8 =>
    refine ⟨_, exec_of_values (exec_vcnt pr w t0 t1) h ?_ (by rw [hl]; rfl), fun i hi => lane_counts u hi⟩
    simp [Frame.operands, slotsOf, badOperand, hl]
  case refine_9 =>
    refine ⟨_, exec_of_values (exec_vcmp pr c w t0 t1) h ?_ ?_, fun i hi => getLsbD_rangeBits (lane_count_le w) hi,
      fun i hi => getLsbD_rangeBits_above (lane_count_le w) hi⟩
    · simp [Frame.operands, slotsOf, badOperand, hl, hr]
    · dsimp only
      rw [hl, hr, Token.vector, Token.vector, vcmp_result, orFlags_map, bitsNat_map]
  case refine_10 =>
    refine exec_of_values (exec_vred pr r w t0 t1) h ?_ (by rw [hl]; rfl)
    simp [Frame.operands, slotsOf, badOperand, hl]

end Sys2Proof.Machine
end

section
/-! PROOFS. Rounding: a number in units of a power of two, and its place among the magnitudes of a format (R84, R268, R271). -/

namespace Sys2Proof.Machine

/-! ### A number in units of a power of two -/

/-- A magnitude in units of 2^u. -/
def Num.units (x : Num) (u : ℤ) : ℚ := x.abs / (2 : ℚ) ^ u

/-- The whole units of a magnitude. -/
def Num.whole (x : Num) (u : ℤ) : ℕ := ⌊x.units u⌋₊

/-- What the whole units leave, as a part of a unit. -/
def Num.part (x : Num) (u : ℤ) : ℚ := x.units u - x.whole u

section Units
variable (x : Num) (u : ℤ)

theorem two_zpow_pos (n : ℤ) : (0 : ℚ) < 2 ^ n := by positivity

theorem Num.abs_nonneg : 0 ≤ x.abs := by
  unfold Num.abs
  positivity

theorem Num.units_nonneg : 0 ≤ x.units u := div_nonneg x.abs_nonneg (two_zpow_pos u).le

theorem Num.abs_eq_units : x.abs = x.units u * 2 ^ u := (div_mul_cancel₀ _ (two_zpow_pos u).ne').symm

theorem Num.units_eq_mul : x.units u = x.m * (2 : ℚ) ^ (x.e - u) := by
  rw [Num.units, Num.abs, mul_div_assoc, ← zpow_sub₀ two_ne_zero]

theorem Num.whole_le : (x.whole u : ℚ) ≤ x.units u := Nat.floor_le (x.units_nonneg u)

theorem Num.units_lt : x.units u < x.whole u + 1 := Nat.lt_floor_add_one _

theorem Num.part_nonneg : 0 ≤ x.part u := sub_nonneg.2 (x.whole_le u)

theorem Num.part_lt_one : x.part u < 1 := by
  have h := x.units_lt u
  unfold Num.part
  linarith

variable {x u}

theorem Num.units_of_le (h : u ≤ x.e) : x.units u = (x.m * 2 ^ (x.e - u).toNat : ℕ) := by
  rw [Num.units_eq_mul, ← Int.toNat_of_nonneg (sub_nonneg.2 h), zpow_natCast]
  push_cast [Int.toNat_natCast]
  rfl

theorem Num.whole_of_le (h : u ≤ x.e) : x.whole u = x.m * 2 ^ (x.e - u).toNat := by
  rw [Num.whole, Num.units_of_le h, Nat.floor_natCast]

theorem Num.part_of_le (h : u ≤ x.e) : x.part u = 0 := by
  rw [Num.part, Num.whole_of_le h, Num.units_of_le h, sub_self]

theorem Num.units_of_lt (h : x.e < u) : x.units u = (x.m : ℚ) / (2 ^ (u - x.e).toNat : ℕ) := by
  have hd : x.e - u = -((u - x.e).toNat : ℤ) := by omega
  rw [Num.units_eq_mul, hd, zpow_neg, zpow_natCast, div_eq_mul_inv]
  push_cast
  rfl

theorem Num.whole_of_lt (h : x.e < u) : x.whole u = x.m / 2 ^ (u - x.e).toNat := by
  rw [Num.whole, Num.units_of_lt h, Nat.floor_div_eq_div]

theorem Num.part_of_lt (h : x.e < u) : x.part u = (x.m % 2 ^ (u - x.e).toNat : ℕ) / (2 ^ (u - x.e).toNat : ℕ) := by
  have hpos : ((2 ^ (u - x.e).toNat : ℕ) : ℚ) ≠ 0 := by positivity
  have hdiv : (x.m : ℚ) = (2 ^ (u - x.e).toNat : ℕ) * (x.m / 2 ^ (u - x.e).toNat : ℕ) + (x.m % 2 ^ (u - x.e).toNat : ℕ) := by
    exact_mod_cast (Nat.div_add_mod x.m (2 ^ (u - x.e).toNat)).symm
  rw [Num.part, Num.whole_of_lt h, Num.units_of_lt h, div_sub' hpos, div_left_inj' hpos]
  linarith

end Units

/-! ### Rounding to whole units -/

/-- A magnitude under a sign rounds away from zero, when its whole units leave the part `f` (R84). -/
def RM.Up (rm : RM) (neg odd : Bool) (f : ℚ) : Prop :=
  match rm with
  | .rne => 1 / 2 < f ∨ (f = 1 / 2 ∧ odd = true)
  | .rtz => False
  | .rdn => neg = true ∧ f ≠ 0
  | .rup => neg = false ∧ f ≠ 0

theorem RM.not_up_zero (rm : RM) (neg odd : Bool) : ¬rm.Up neg odd 0 := by
  cases rm <;> simp [RM.Up]

/-- Half of 2^d. -/
theorem two_pow_eq_two_mul {d : ℕ} (hd : 0 < d) : ((2 ^ d : ℕ) : ℚ) = 2 * (2 ^ (d - 1) : ℕ) := by
  have h : 2 ^ d = 2 * 2 ^ (d - 1) := by rw [← pow_succ', Nat.sub_add_cancel hd]
  exact_mod_cast h

/-- Half a unit, in the bits that are given up. -/
theorem half_lt_part {d r : ℕ} (hd : 0 < d) : (1 / 2 : ℚ) < (r : ℚ) / (2 ^ d : ℕ) ↔ 2 ^ (d - 1) < r := by
  have hpos : (0 : ℚ) < (2 ^ (d - 1) : ℕ) := by positivity
  rw [two_pow_eq_two_mul hd, lt_div_iff₀ (by positivity), one_div, inv_mul_cancel_left₀ two_ne_zero, Nat.cast_lt]

theorem part_eq_half {d r : ℕ} (hd : 0 < d) : (r : ℚ) / (2 ^ d : ℕ) = 1 / 2 ↔ r = 2 ^ (d - 1) := by
  have hpos : (0 : ℚ) < (2 ^ (d - 1) : ℕ) := by positivity
  rw [two_pow_eq_two_mul hd, div_eq_iff (by positivity), one_div, inv_mul_cancel_left₀ two_ne_zero, Nat.cast_inj]

section Quantize
variable {x : Num} {u : ℤ} (rm : RM)

/-- `quantize` gives the whole units, or one more, and tells whether they leave a part. -/
theorem quantize_spec : (rm.Up x.neg (x.whole u % 2 == 1) (x.part u) → (quantize rm x u).1 = x.whole u + 1)
    ∧ (¬rm.Up x.neg (x.whole u % 2 == 1) (x.part u) → (quantize rm x u).1 = x.whole u)
    ∧ ((quantize rm x u).2 = true ↔ x.part u ≠ 0) := by
  unfold quantize
  split
  next h =>
    rw [Num.part_of_le h, Num.whole_of_le h]
    exact ⟨fun hup => absurd hup (rm.not_up_zero _ _), fun _ => rfl, by simp⟩
  next h =>
    have h := not_le.1 h
    have hd : 0 < (u - x.e).toNat := by omega
    rw [Num.whole_of_lt h, Num.part_of_lt h]
    have hzero : ((x.m % 2 ^ (u - x.e).toNat : ℕ) : ℚ) / (2 ^ (u - x.e).toNat : ℕ) ≠ 0 ↔ x.m % 2 ^ (u - x.e).toNat ≠ 0 := by
      have hpos : ((2 ^ (u - x.e).toNat : ℕ) : ℚ) ≠ 0 := by positivity
      rw [ne_eq, div_eq_zero_iff, or_iff_left hpos, Nat.cast_eq_zero]
    cases rm with
    | rne =>
      simp only [RM.Up, half_lt_part hd, part_eq_half hd, hzero]
      simpa using fun h hle => Or.resolve_left h (not_lt.2 hle)
    | rtz => simp [RM.Up]
    | rdn => simp [RM.Up]
    | rup => simp [RM.Up]

end Quantize

/-! ### Stochastic rounding (R271) -/

/-- The bits of D16 of R271, of which the lowest tells whether more follow. -/
theorem narrowsUp_sr_iff {d r rnd : ℕ} {odd : Bool} :
    NarrowsUp .sr rnd ((r : ℚ) / (2 ^ d : ℕ)) odd ↔ 65536 ≤ (r * 65536 / 2 ^ d ||| if r * 65536 % 2 ^ d = 0 then 0 else 1) + rnd := by
  have hmul : (r : ℚ) / (2 ^ d : ℕ) * 65536 = ((r * 65536 : ℕ) : ℚ) / (2 ^ d : ℕ) := by
    push_cast
    ring
  have hfloor : Int.floor ((r : ℚ) / (2 ^ d : ℕ) * 65536) = ((r * 65536 / 2 ^ d : ℕ) : ℤ) := by
    rw [hmul, Rat.floor_natCast_div_natCast]
    rfl
  have hwhole : (((r * 65536 / 2 ^ d : ℕ) : ℤ) : ℚ) = (r : ℚ) / (2 ^ d : ℕ) * 65536 ↔ r * 65536 % 2 ^ d = 0 := by
    rw [hmul, Int.cast_natCast, ← Nat.dvd_iff_mod_eq_zero]
    constructor
    · intro h
      rw [eq_div_iff (by positivity)] at h
      have hnat : r * 65536 / 2 ^ d * 2 ^ d = r * 65536 := by exact_mod_cast h
      exact Dvd.intro_left _ hnat
    · exact fun h => Nat.cast_div h (by positivity)
  unfold NarrowsUp
  simp only [hfloor, hwhole, Int.toNat_natCast, reduceCtorEq, false_and, false_or, true_and]

theorem srUp_iff {d r rnd : ℕ} {odd : Bool} : srUp d r rnd = true ↔ NarrowsUp .sr rnd ((r : ℚ) / (2 ^ d : ℕ)) odd := by
  rw [narrowsUp_sr_iff, srUp, decide_eq_true_iff]
  split
  next h =>
    have hpow : 65536 = 2 ^ (16 - d) * 2 ^ d := by rw [← pow_add, Nat.sub_add_cancel h]; rfl
    rw [show r * 65536 = r * 2 ^ (16 - d) * 2 ^ d by rw [mul_assoc, ← hpow], Nat.mul_div_cancel _ (by positivity),
      Nat.mul_mod_left, if_pos rfl, Nat.or_zero]
  next h =>
    have hpow : 2 ^ d = 2 ^ (d - 16) * 65536 := by rw [show 65536 = 2 ^ 16 from rfl, ← pow_add, Nat.sub_add_cancel (by omega)]
    rw [hpow, Nat.mul_div_mul_right _ _ (by omega), Nat.mul_mod_mul_right]
    simp

section Narrow
variable {x : Num} {u : ℤ} {rm : NRound} {rnd : ℕ}

theorem not_narrowsUp_zero (odd : Bool) (h : rnd < 65536) : ¬NarrowsUp rm rnd 0 odd := by
  have hlt : ¬65536 ≤ rnd := by omega
  cases rm <;> simp [NarrowsUp, hlt]

theorem narrowsUp_rne_iff {d : ℚ} {odd : Bool} (neg : Bool) : NarrowsUp .rne rnd d odd ↔ RM.rne.Up neg odd d := by
  simp [NarrowsUp, RM.Up]

theorem not_narrowsUp_rtz (d : ℚ) (odd : Bool) : ¬NarrowsUp .rtz rnd d odd := by
  simp [NarrowsUp]

/-- `narrowUnits` gives the whole units, or one more. -/
theorem narrowUnits_spec (hrnd : rnd < 65536) :
    (NarrowsUp rm rnd (x.part u) (x.whole u % 2 == 1) → narrowUnits rm rnd x u = x.whole u + 1)
    ∧ (¬NarrowsUp rm rnd (x.part u) (x.whole u % 2 == 1) → narrowUnits rm rnd x u = x.whole u) := by
  cases rm with
  | rne =>
    obtain ⟨hup, hnot, -⟩ := quantize_spec (x := x) (u := u) .rne
    rw [narrowsUp_rne_iff x.neg]
    exact ⟨hup, hnot⟩
  | rtz => exact ⟨fun h => absurd h (not_narrowsUp_rtz _ _), fun _ => (quantize_spec .rtz).2.1 id⟩
  | sr =>
    unfold narrowUnits
    by_cases h : u ≤ x.e
    · rw [if_pos h, Num.part_of_le h, Num.whole_of_le h]
      exact ⟨fun hup => absurd hup (not_narrowsUp_zero _ hrnd), fun _ => rfl⟩
    · rw [if_neg h, Num.part_of_lt (not_le.1 h), Num.whole_of_lt (not_le.1 h), ← srUp_iff]
      exact ⟨fun hup => if_pos hup, fun hup => if_neg hup⟩

end Narrow

end Sys2Proof.Machine
end

section
/-! PROOFS. The magnitudes of a format in the order of their codes, the place of a number among them, and what narrowing a number gives (R84, R260, R268, R271). -/

namespace Sys2Proof.Machine

/-! ### The magnitudes of a format -/

section Grid
variable (F : Fmt)

/-- The exponent of the smallest magnitude above 0. -/
def Fmt.least : ℤ := F.emin - F.mb

/-- The binade of a code, counted from that of the subnormal ones. -/
def Fmt.binade (c : ℕ) : ℕ := c / 2 ^ F.mb - 1

/-- A code in its binade: the units of that binade that its magnitude has. -/
def Fmt.inBinade (n k : ℕ) : Prop := (n = 0 ∨ 2 ^ F.mb ≤ k) ∧ k ≤ 2 ^ (F.mb + 1)

variable {F}

theorem Fmt.grid_of_quotient_zero {c : ℕ} (h : c / 2 ^ F.mb = 0) : F.grid c = c * 2 ^ F.least := by
  have hc : c % 2 ^ F.mb = c := Nat.mod_eq_of_lt ((Nat.div_eq_zero_iff_lt (by positivity)).1 h)
  simp only [Fmt.grid, h, hc, if_true, Fmt.least, add_zero]
  congr 2
  push_cast
  ring

theorem Fmt.grid_of_quotient_succ {c q : ℕ} (h : c / 2 ^ F.mb = q + 1) :
    F.grid c = ((c % 2 ^ F.mb + 2 ^ F.mb : ℕ) : ℚ) * 2 ^ (F.least + q) := by
  simp only [Fmt.grid, h, Nat.succ_ne_zero, if_false, Fmt.least]
  congr 2
  push_cast
  ring

theorem Fmt.grid_units {n k : ℕ} (h : F.inBinade n k) : F.grid (n * 2 ^ F.mb + k) = k * 2 ^ (F.least + n) := by
  have hpos : 0 < 2 ^ F.mb := by positivity
  have hpow : 2 ^ (F.mb + 1) = 2 * 2 ^ F.mb := pow_succ' _ _
  obtain ⟨hlow, hhigh⟩ := h
  rcases lt_or_ge k (2 ^ F.mb) with hk | hk
  · obtain rfl : n = 0 := hlow.resolve_right (not_le.2 hk)
    rw [zero_mul, zero_add, Fmt.grid_of_quotient_zero (Nat.div_eq_of_lt hk), Nat.cast_zero, add_zero]
  rcases lt_or_eq_of_le hhigh with hk' | rfl
  · have hc : n * 2 ^ F.mb + k = (k - 2 ^ F.mb) + 2 ^ F.mb * (n + 1) := by
      rw [mul_add, mul_comm n]
      omega
    have hsub : k - 2 ^ F.mb < 2 ^ F.mb := by omega
    have hq : (n * 2 ^ F.mb + k) / 2 ^ F.mb = n + 1 := by
      rw [hc, Nat.add_mul_div_left _ _ hpos, Nat.div_eq_of_lt hsub, zero_add]
    rw [Fmt.grid_of_quotient_succ hq, hc, Nat.add_mul_mod_self_left, Nat.mod_eq_of_lt hsub, Nat.sub_add_cancel hk]
  · have hc : n * 2 ^ F.mb + 2 ^ (F.mb + 1) = 2 ^ F.mb * (n + 1 + 1) := by
      rw [hpow]
      ring
    have hq : (n * 2 ^ F.mb + 2 ^ (F.mb + 1)) / 2 ^ F.mb = n + 1 + 1 := by rw [hc, Nat.mul_div_cancel_left _ hpos]
    rw [Fmt.grid_of_quotient_succ hq, hc, Nat.mul_mod_right, zero_add, hpow, Nat.cast_add, Nat.cast_one, ← add_assoc, zpow_add_one₀ two_ne_zero]
    push_cast
    ring

/-- The units of its binade that the magnitude of a code has. -/
theorem Fmt.binade_units (c : ℕ) : ∃ k, c = F.binade c * 2 ^ F.mb + k ∧ (F.binade c = 0 ∨ 2 ^ F.mb ≤ k) ∧ k < 2 ^ (F.mb + 1) := by
  have hdiv := Nat.div_add_mod' c (2 ^ F.mb)
  have hmod : c % 2 ^ F.mb < 2 ^ F.mb := Nat.mod_lt _ (by positivity)
  have hpow : 2 ^ (F.mb + 1) = 2 * 2 ^ F.mb := pow_succ' _ _
  unfold Fmt.binade
  cases hq : c / 2 ^ F.mb with
  | zero =>
    rw [hq] at hdiv
    exact ⟨c, by simp, .inl rfl, by omega⟩
  | succ q =>
    rw [hq, Nat.succ_mul] at hdiv
    exact ⟨2 ^ F.mb + c % 2 ^ F.mb, by rw [Nat.add_sub_cancel]; omega, .inr (by omega), by omega⟩

theorem Fmt.grid_succ (c : ℕ) : F.grid (c + 1) = F.grid c + 2 ^ (F.least + F.binade c) := by
  obtain ⟨k, hc, hlow, hhigh⟩ := F.binade_units c
  generalize F.binade c = n at hc hlow
  subst hc
  rw [Fmt.grid_units ⟨hlow, hhigh.le⟩, add_assoc, Fmt.grid_units ⟨hlow.imp_right (by omega), hhigh⟩]
  push_cast
  ring

theorem Fmt.grid_strictMono : StrictMono F.grid :=
  strictMono_nat_of_lt_succ fun c => by
    rw [Fmt.grid_succ]
    exact lt_add_of_pos_right _ (two_zpow_pos _)

variable (F) in
theorem Fmt.grid_lt_succ (c : ℕ) : F.grid c < F.grid (c + 1) := Fmt.grid_strictMono (Nat.lt_succ_self c)

@[simp] theorem Fmt.grid_zero : F.grid 0 = 0 := by
  rw [Fmt.grid_of_quotient_zero (Nat.zero_div _), Nat.cast_zero, zero_mul]

theorem Fmt.grid_nonneg (c : ℕ) : 0 ≤ F.grid c := Fmt.grid_zero (F := F) ▸ Fmt.grid_strictMono.monotone (Nat.zero_le c)

/-- The value of a finite code is the magnitude of its place. -/
theorem Fmt.num_abs (x : ℕ) : (F.num x).abs = F.grid (F.mag x) := by
  unfold Fmt.num
  cases hq : F.mag x / 2 ^ F.mb with
  | zero =>
    have hm : F.mag x % 2 ^ F.mb = F.mag x := Nat.mod_eq_of_lt ((Nat.div_eq_zero_iff_lt (by positivity)).1 hq)
    rw [Fmt.grid_of_quotient_zero hq, if_pos rfl, Num.abs, hm]
    rfl
  | succ q =>
    rw [Fmt.grid_of_quotient_succ hq, if_neg (Nat.succ_ne_zero q), Num.abs]
    congr 2
    simp only [Fmt.least, Fmt.emin]
    push_cast
    ring

end Grid

/-! ### The place of a number among the magnitudes of a format -/

section Place
variable (F : Fmt) (x : Num)

/-- The exponent of the units that a number is rounded to. -/
def Fmt.unit : ℤ := if x.e + Nat.log2 x.m - F.mb < F.least then F.least else x.e + Nat.log2 x.m - F.mb

/-- The greatest code whose magnitude a number reaches. -/
def Fmt.place : ℕ := (F.unit x - F.least).toNat * 2 ^ F.mb + x.whole (F.unit x)

variable {F x}

theorem Fmt.least_le_unit : F.least ≤ F.unit x := by
  unfold Fmt.unit
  split <;> omega

theorem Num.units_lt_of_log {u : ℤ} (k : ℕ) (h : x.e + Nat.log2 x.m - k ≤ u) : x.units u < 2 ^ (k + 1) := by
  have hm : (x.m : ℚ) < 2 ^ (Nat.log2 x.m + 1 : ℤ) := by exact_mod_cast Nat.lt_log2_self (n := x.m)
  calc x.units u = x.m * (2 : ℚ) ^ (x.e - u) := x.units_eq_mul u
    _ < 2 ^ (Nat.log2 x.m + 1 : ℤ) * 2 ^ (x.e - u) := mul_lt_mul_of_pos_right hm (two_zpow_pos _)
    _ = 2 ^ (Nat.log2 x.m + 1 + (x.e - u) : ℤ) := (zpow_add₀ two_ne_zero _ _).symm
    _ ≤ 2 ^ ((k + 1 : ℕ) : ℤ) := zpow_le_zpow_right₀ one_le_two (by push_cast; omega)
    _ = 2 ^ (k + 1) := zpow_natCast _ _

theorem Num.le_units_of_log {u : ℤ} (k : ℕ) (hm : x.m ≠ 0) (h : u ≤ x.e + Nat.log2 x.m - k) : 2 ^ k ≤ x.units u := by
  have hm : (2 ^ (Nat.log2 x.m : ℤ) : ℚ) ≤ x.m := by exact_mod_cast Nat.log2_self_le hm
  calc (2 ^ k : ℚ) = 2 ^ (k : ℤ) := (zpow_natCast _ _).symm
    _ ≤ 2 ^ (Nat.log2 x.m + (x.e - u) : ℤ) := zpow_le_zpow_right₀ one_le_two (by omega)
    _ = 2 ^ (Nat.log2 x.m : ℤ) * 2 ^ (x.e - u) := zpow_add₀ two_ne_zero _ _
    _ ≤ x.m * (2 : ℚ) ^ (x.e - u) := mul_le_mul_of_nonneg_right hm (two_zpow_pos _).le
    _ = x.units u := (x.units_eq_mul u).symm

theorem Fmt.whole_inBinade (hm : x.m ≠ 0) :
    ((F.unit x - F.least).toNat = 0 ∨ 2 ^ F.mb ≤ x.whole (F.unit x)) ∧ x.whole (F.unit x) < 2 ^ (F.mb + 1) := by
  constructor
  · refine or_iff_not_imp_left.2 fun hn => Nat.le_floor ?_
    rw [Nat.cast_pow, Nat.cast_ofNat]
    refine Num.le_units_of_log F.mb hm ?_
    unfold Fmt.unit at hn ⊢
    split at hn
    next => omega
    next h => rw [if_neg h]
  · refine (Nat.floor_lt (x.units_nonneg _)).2 ?_
    rw [Nat.cast_pow, Nat.cast_ofNat]
    refine Num.units_lt_of_log F.mb ?_
    unfold Fmt.unit
    split <;> omega

theorem Fmt.unit_eq : F.unit x = F.least + (F.unit x - F.least).toNat := by
  have h := F.least_le_unit (x := x)
  omega

theorem Fmt.grid_place (hm : x.m ≠ 0) : F.grid (F.place x) = x.whole (F.unit x) * 2 ^ F.unit x := by
  obtain ⟨hlow, hhigh⟩ := F.whole_inBinade hm
  rw [Fmt.place, Fmt.grid_units ⟨hlow, hhigh.le⟩, ← Fmt.unit_eq]

theorem Fmt.grid_place_succ (hm : x.m ≠ 0) : F.grid (F.place x + 1) = (x.whole (F.unit x) + 1) * 2 ^ F.unit x := by
  obtain ⟨hlow, hhigh⟩ := F.whole_inBinade hm
  rw [Fmt.place, add_assoc, Fmt.grid_units ⟨hlow.imp_right (by omega), hhigh⟩, ← Fmt.unit_eq, Nat.cast_add_one]

theorem Fmt.place_le (hm : x.m ≠ 0) : F.grid (F.place x) ≤ x.abs := by
  rw [Fmt.grid_place hm, x.abs_eq_units (F.unit x)]
  exact mul_le_mul_of_nonneg_right (x.whole_le _) (two_zpow_pos _).le

theorem Fmt.lt_place_succ (hm : x.m ≠ 0) : x.abs < F.grid (F.place x + 1) := by
  rw [Fmt.grid_place_succ hm, x.abs_eq_units (F.unit x)]
  exact mul_lt_mul_of_pos_right (x.units_lt _) (two_zpow_pos _)

/-- The part that the whole units leave is that of the way to the next magnitude. -/
theorem Fmt.part_eq (hm : x.m ≠ 0) :
    (x.abs - F.grid (F.place x)) / (F.grid (F.place x + 1) - F.grid (F.place x)) = x.part (F.unit x) := by
  rw [Fmt.grid_place_succ hm, Fmt.grid_place hm, ← sub_mul, add_sub_cancel_left, one_mul, x.abs_eq_units (F.unit x), ← sub_mul,
    mul_div_cancel_right₀ _ (two_zpow_pos _).ne']
  rfl

/-- The last bit of a code is that of its units. -/
theorem Fmt.place_mod (hmb : 0 < F.mb) : F.place x % 2 = x.whole (F.unit x) % 2 := by
  have hdvd : 2 ∣ (F.unit x - F.least).toNat * 2 ^ F.mb := Dvd.dvd.mul_left (dvd_pow_self 2 hmb.ne') _
  unfold Fmt.place
  omega

theorem Fmt.lt_of_grid_le {c : ℕ} {p : ℚ} (hle : F.grid c ≤ p) {d : ℕ} (hlt : p < F.grid d) : c < d :=
  Fmt.grid_strictMono.lt_iff_lt.1 (hle.trans_lt hlt)

/-- A number has one place. -/
theorem Fmt.place_unique (hm : x.m ≠ 0) {c : ℕ} (hle : F.grid c ≤ x.abs) (hlt : x.abs < F.grid (c + 1)) : F.place x = c :=
  le_antisymm (Nat.lt_succ_iff.1 (F.lt_of_grid_le (Fmt.place_le hm) hlt)) (Nat.lt_succ_iff.1 (F.lt_of_grid_le hle (Fmt.lt_place_succ hm)))

theorem Fmt.part_eq_zero_iff (hm : x.m ≠ 0) : x.part (F.unit x) = 0 ↔ x.abs = F.grid (F.place x) := by
  rw [← Fmt.part_eq hm, div_eq_zero_iff, sub_eq_zero, sub_eq_zero, or_iff_left (F.grid_lt_succ _).ne']

theorem Num.abs_of_zero (h : x.m = 0) : x.abs = 0 := by
  rw [Num.abs, h, Nat.cast_zero, zero_mul]

end Place

/-! ### Narrowing -/

/-- A number narrowed to a float format is rounded once (R268). -/
theorem narrowFloat_narrows (f : NFmt) (hmb : 0 < f.fmt.mb) (rm : NRound) (sat : Bool) {rnd : ℕ} (hrnd : rnd < 65536) (x : Num) :
    f.fmt.Narrows f.top rm rnd x.neg x.abs (f.beyond rm sat x.neg) (narrowFloat f rm sat rnd (.fin x)) := by
  by_cases hm : x.m = 0
  · have hcode : narrowFloat f rm sat rnd (.fin x) = f.fmt.signed x.neg 0 := if_pos hm
    rw [hcode, x.abs_of_zero hm]
    refine ⟨fun c _ h => ?_, fun c _ h => absurd h (not_lt.2 (f.fmt.grid_nonneg c)), fun h => ?_⟩
    · obtain rfl : 0 = c := Fmt.grid_strictMono.injective (Fmt.grid_zero.trans h)
      rfl
    · exact absurd (Fmt.grid_strictMono (Nat.succ_pos f.top)) (not_lt.2 (h.trans_eq Fmt.grid_zero.symm))
  · obtain ⟨hup, hnot⟩ := narrowUnits_spec (x := x) (u := f.fmt.unit x) (rm := rm) hrnd
    have hcode : narrowFloat f rm sat rnd (.fin x) =
        let mag := (f.fmt.unit x - f.fmt.least).toNat * 2 ^ f.fmt.mb + narrowUnits rm rnd x (f.fmt.unit x)
        if f.top < mag then f.beyond rm sat x.neg else f.fmt.signed x.neg mag := if_neg hm
    have hcodeUp (h : NarrowsUp rm rnd (x.part (f.fmt.unit x)) (f.fmt.place x % 2 == 1)) :
        narrowFloat f rm sat rnd (.fin x) = if f.top < f.fmt.place x + 1 then f.beyond rm sat x.neg else f.fmt.signed x.neg (f.fmt.place x + 1) := by
      rw [hcode, hup (by rwa [← Fmt.place_mod hmb])]
      rfl
    have hcodeNot (h : ¬NarrowsUp rm rnd (x.part (f.fmt.unit x)) (f.fmt.place x % 2 == 1)) :
        narrowFloat f rm sat rnd (.fin x) = if f.top < f.fmt.place x then f.beyond rm sat x.neg else f.fmt.signed x.neg (f.fmt.place x) := by
      rw [hcode, hnot (by rwa [← Fmt.place_mod hmb])]
      rfl
    refine ⟨fun c hc h => ?_, fun c hc hlow hhigh => ?_, fun h => ?_⟩
    · have hplace : f.fmt.place x = c := Fmt.place_unique hm h.ge (h.trans_lt (f.fmt.grid_lt_succ c))
      have hpart : x.part (f.fmt.unit x) = 0 := (Fmt.part_eq_zero_iff hm).2 (hplace ▸ h)
      rw [hcodeNot (hpart ▸ not_narrowsUp_zero _ hrnd), hplace, if_neg (not_lt.2 hc)]
    · have hplace : f.fmt.place x = c := Fmt.place_unique hm hlow.le hhigh
      subst hplace
      rw [Fmt.part_eq hm]
      refine ⟨fun h => ?_, fun h => ?_⟩
      · rw [hcodeNot h, if_neg (not_lt.2 hc)]
      · rw [hcodeUp h]
        exact if_congr (by omega) rfl rfl
    · have hplace : f.top < f.fmt.place x := f.fmt.lt_of_grid_le h (Fmt.lt_place_succ hm) |> Nat.lt_succ_iff.1
      by_cases hup : NarrowsUp rm rnd (x.part (f.fmt.unit x)) (f.fmt.place x % 2 == 1)
      · rw [hcodeUp hup, if_pos (by omega)]
      · rw [hcodeNot hup, if_pos hplace]

end Sys2Proof.Machine
end

section
/-! PROOFS. Signs in front of magnitudes, numbers that stand for a real one, and the one rounding of a number (R84). -/

namespace Sys2Proof.Machine

/-! ### A sign in front of a magnitude -/

section Signed
variable {F : Fmt} {m : ℕ} (neg : Bool)

theorem Fmt.mag_signed (h : m < 2 ^ (F.eb + F.mb)) : F.mag (F.signed neg m) = m := by
  unfold Fmt.mag Fmt.signed
  split
  · rw [Nat.add_mod_right, Nat.mod_eq_of_lt h]
  · rw [add_zero, Nat.mod_eq_of_lt h]

theorem Fmt.neg_signed (h : m < 2 ^ (F.eb + F.mb)) : F.neg (F.signed neg m) = neg := by
  unfold Fmt.neg Fmt.signed
  cases neg
  · simp [Nat.div_eq_of_lt h]
  · simp [Nat.add_div_right m (Nat.two_pow_pos _), Nat.div_eq_of_lt h]

theorem Fmt.signed_lt (h : m < 2 ^ (F.eb + F.mb)) : F.signed neg m < 2 ^ F.bits := by
  have hpow : 2 ^ F.bits = 2 ^ (F.eb + F.mb) + 2 ^ (F.eb + F.mb) := by rw [Fmt.bits, add_assoc, pow_add, pow_one, two_mul]
  unfold Fmt.signed
  split <;> omega

variable (F)

theorem Fmt.inf_lt : F.inf < 2 ^ (F.eb + F.mb) := by
  rw [Fmt.inf, pow_add]
  exact Nat.mul_lt_mul_of_pos_right (Nat.sub_lt (Nat.two_pow_pos _) one_pos) (Nat.two_pow_pos _)

variable {F}

/-- The value of a code up to that of infinity, read as a number. -/
theorem Fmt.num_abs_of_le_inf {c : ℕ} (h : c ≤ F.inf) : (F.num c).abs = F.grid c := by
  rw [Fmt.num_abs, Fmt.mag, Nat.mod_eq_of_lt (h.trans_lt F.inf_lt)]

@[simp] theorem Fmt.num_neg (x : ℕ) : (F.num x).neg = F.neg x := by
  unfold Fmt.num
  dsimp only
  split <;> rfl

end Signed

/-! ### Numbers that stand for a real one -/

/-- A number lies where the real `p` does among the multiples of 2^v. -/
def Num.Meets (x : Num) (v : ℤ) (p : ℝ) : Prop :=
  ∀ t : ℕ, ((t * 2 ^ v : ℚ) < x.abs ↔ ((t * 2 ^ v : ℚ) : ℝ) < p) ∧ ((t * 2 ^ v : ℚ) = x.abs ↔ ((t * 2 ^ v : ℚ) : ℝ) = p)

theorem Num.meets_abs (x : Num) (v : ℤ) : x.Meets v x.abs := fun _ => ⟨Rat.cast_lt.symm, Rat.cast_inj.symm⟩

theorem Num.Meets.mono {x : Num} {v w : ℤ} {p : ℝ} (h : x.Meets v p) (hvw : v ≤ w) : x.Meets w p := by
  intro t
  have hmul : (t * 2 ^ w : ℚ) = ((t * 2 ^ (w - v).toNat : ℕ) : ℚ) * 2 ^ v := by
    rw [Nat.cast_mul, Nat.cast_pow, Nat.cast_ofNat, mul_assoc, ← zpow_natCast, ← zpow_add₀ two_ne_zero, Int.toNat_of_nonneg (by omega),
      sub_add_cancel]
  rw [hmul]
  exact h _

/-- A number whose last bit tells whether more follows lies where that more puts it. -/
theorem Num.meets_of_sticky {x : Num} {p : ℝ} (hp : 0 ≤ p) (hm : x.m = 2 * ⌊p⌋₊ + if (⌊p⌋₊ : ℝ) = p then 0 else 1) :
    x.Meets (x.e + 1) (p * 2 ^ (x.e + 1)) := by
  intro t
  have hpos : (0 : ℝ) < 2 ^ (x.e + 1) := by positivity
  have habs : x.abs = (x.m / 2 : ℚ) * 2 ^ (x.e + 1) := by
    rw [Num.abs, zpow_add_one₀ two_ne_zero]
    ring
  have hleft : ((t : ℚ) < x.m / 2 ↔ (t : ℝ) < p) ∧ ((t : ℚ) = x.m / 2 ↔ (t : ℝ) = p) := by
    have hlt : (t : ℚ) < x.m / 2 ↔ 2 * t < x.m := by
      rw [lt_div_iff₀ two_pos, mul_comm]
      exact_mod_cast Iff.rfl
    have heq : (t : ℚ) = x.m / 2 ↔ 2 * t = x.m := by
      rw [eq_div_iff two_ne_zero, mul_comm]
      exact_mod_cast Iff.rfl
    rw [hlt, heq, hm]
    by_cases hwhole : (⌊p⌋₊ : ℝ) = p
    · rw [if_pos hwhole, ← hwhole, Nat.floor_natCast, Nat.cast_lt, Nat.cast_inj]
      omega
    · have hne : (t : ℝ) ≠ p := fun h => hwhole (by rw [← h, Nat.floor_natCast])
      rw [if_neg hwhole, iff_false_right hne, lt_iff_le_and_ne.trans (and_iff_left hne), ← Nat.le_floor_iff hp]
      omega
  rw [habs, mul_lt_mul_iff_of_pos_right (two_zpow_pos _), mul_left_inj' (two_zpow_pos _).ne', hleft.1, hleft.2]
  push_cast
  rw [mul_lt_mul_iff_of_pos_right hpos, mul_left_inj' hpos.ne']
  exact ⟨Iff.rfl, Iff.rfl⟩

end Sys2Proof.Machine
end

section
/-! PROOFS. The one rounding of a number to a format (R84). -/

namespace Sys2Proof.Machine

/-! ### What `roundNum` delivers -/

section RoundNum
variable (F : Fmt) (rm : RM) (x : Num)

/-- A number rounds below the smallest normal one when its precision has no end below (R84). -/
abbrev Fmt.Tiny : Prop :=
  x.e + Nat.log2 x.m - F.mb + (if (quantize rm x (x.e + Nat.log2 x.m - F.mb)).1 = 2 ^ (F.mb + 1) then 1 else 0) < F.least

/-- The code of the magnitude that a number rounds to. -/
def Fmt.rounded : ℕ := (F.unit x - F.least).toNat * 2 ^ F.mb + (quantize rm x (F.unit x)).1

variable {F rm x} {ftz : Bool}

theorem roundNum_zero (hm : x.m = 0) : roundNum F rm ftz x = (F.signed x.neg 0, 0) := if_pos hm

theorem roundNum_tiny (hm : x.m ≠ 0) (htiny : F.Tiny rm x) : roundNum F rm true x = (F.signed x.neg 0, flagUF ||| flagNX) := by
  have hflush : (decide (F.Tiny rm x) && true) = true := by rw [Bool.and_true, decide_eq_true htiny]
  rw [roundNum, if_neg hm]
  exact if_pos hflush

section NotFlushed
variable (hm : x.m ≠ 0) (hkept : ftz = false ∨ ¬F.Tiny rm x)
include hkept

theorem not_flushed : ¬(decide (F.Tiny rm x) && ftz) = true := by
  rw [Bool.and_eq_true, decide_eq_true_iff]
  exact fun ⟨htiny, hftz⟩ => hkept.elim (fun h => Bool.false_ne_true (h ▸ hftz)) fun h => h htiny

include hm

theorem roundNum_overflow (hinf : F.inf ≤ F.rounded rm x) : roundNum F rm ftz x = (overflow F rm x.neg, flagOF ||| flagNX) := by
  rw [roundNum, if_neg hm]
  exact (if_neg (not_flushed hkept)).trans (if_pos hinf)

theorem roundNum_finite (hinf : F.rounded rm x < F.inf) : roundNum F rm ftz x = (F.signed x.neg (F.rounded rm x),
    if x.part (F.unit x) = 0 then 0 else if F.Tiny rm x then flagUF ||| flagNX else flagNX) := by
  have hlost := (quantize_spec (x := x) (u := F.unit x) rm).2.2
  rw [roundNum, if_neg hm]
  refine (if_neg (not_flushed hkept)).trans ((if_neg (not_le.2 hinf)).trans (congrArg _ ?_))
  by_cases hpart : x.part (F.unit x) = 0
  · rw [if_pos hpart]
    exact if_neg fun h => hlost.1 h hpart
  · rw [if_neg hpart]
    exact if_pos (hlost.2 hpart)

end NotFlushed

theorem Num.abs_pos (hm : x.m ≠ 0) : 0 < x.abs := mul_pos (Nat.cast_pos.2 (Nat.pos_of_ne_zero hm)) (two_zpow_pos _)

/-- What reaches the smallest normal number is not tiny. -/
theorem Fmt.not_tiny (hle : F.grid (2 ^ F.mb) ≤ x.abs) : ¬F.Tiny rm x := by
  have hunits := Num.units_lt_of_log (x := x) F.mb le_rfl
  have hgrid : F.grid (2 ^ F.mb) = 2 ^ F.mb * 2 ^ F.least := by
    have h := Fmt.grid_units (F := F) (n := 0) (k := 2 ^ F.mb) ⟨.inl rfl, Nat.pow_le_pow_right two_pos (Nat.le_succ _)⟩
    simpa using h
  unfold Fmt.Tiny
  generalize x.e + Nat.log2 x.m - F.mb = u at hunits
  have hu : F.least ≤ u := by
    by_contra! hlt
    have habs : x.abs < 2 ^ F.mb * 2 ^ F.least :=
      calc x.abs = x.units u * 2 ^ u := x.abs_eq_units u
        _ < 2 ^ (F.mb + 1) * 2 ^ u := mul_lt_mul_of_pos_right hunits (two_zpow_pos _)
        _ = 2 ^ F.mb * 2 ^ (u + 1) := by rw [pow_succ, zpow_add_one₀ two_ne_zero]; ring
        _ ≤ 2 ^ F.mb * 2 ^ F.least := mul_le_mul_of_nonneg_left (zpow_le_zpow_right₀ one_le_two hlt) (by positivity)
    exact absurd (hgrid ▸ hle) (not_le.2 habs)
  split <;> omega

theorem quantize_le (u : ℤ) : (quantize rm x u).1 ≤ x.whole u + 1 := by
  obtain ⟨hup, hnot, -⟩ := quantize_spec (x := x) (u := u) rm
  by_cases h : rm.Up x.neg (x.whole u % 2 == 1) (x.part u)
  · exact (hup h).le
  · exact (hnot h).le.trans (Nat.le_succ _)

/-- What a subnormal number next to another reaches is tiny. -/
theorem Fmt.tiny_of_le (hm : x.m ≠ 0) {c : ℕ} (hle : x.abs ≤ F.grid c) (hc : c < 2 ^ F.mb) : F.Tiny rm x := by
  have hunits := Num.le_units_of_log (x := x) F.mb hm le_rfl
  have hgrid : F.grid c = c * 2 ^ F.least := Fmt.grid_of_quotient_zero (Nat.div_eq_of_lt hc)
  have hc : (c : ℚ) + 1 ≤ 2 ^ F.mb := by exact_mod_cast hc
  unfold Fmt.Tiny
  generalize x.e + Nat.log2 x.m - F.mb = u at hunits
  have habs : x.units u * 2 ^ u ≤ c * 2 ^ F.least := by rwa [← x.abs_eq_units, ← hgrid]
  have hu : u < F.least := by
    by_contra! hge
    have hlt : (c : ℚ) * 2 ^ F.least < x.units u * 2 ^ u :=
      calc (c : ℚ) * 2 ^ F.least < 2 ^ F.mb * 2 ^ F.least := mul_lt_mul_of_pos_right (by linarith) (two_zpow_pos _)
        _ ≤ 2 ^ F.mb * 2 ^ u := mul_le_mul_of_nonneg_left (zpow_le_zpow_right₀ one_le_two hge) (by positivity)
        _ ≤ x.units u * 2 ^ u := mul_le_mul_of_nonneg_right hunits (two_zpow_pos _).le
    exact absurd habs (not_le.2 hlt)
  split
  next hq =>
    by_contra! hge
    obtain rfl : u = F.least - 1 := by omega
    have hwhole : (2 ^ (F.mb + 1) : ℚ) ≤ x.units (F.least - 1) + 1 :=
      calc (2 ^ (F.mb + 1) : ℚ) = ((quantize rm x (F.least - 1)).1 : ℚ) := by rw [hq]; push_cast; rfl
        _ ≤ x.whole (F.least - 1) + 1 := by exact_mod_cast quantize_le _
        _ ≤ x.units (F.least - 1) + 1 := by linarith [x.whole_le (F.least - 1)]
    have hdouble : x.units (F.least - 1) ≤ 2 * c := by
      rw [show (c : ℚ) * 2 ^ F.least = 2 * c * 2 ^ (F.least - 1) by rw [zpow_sub_one₀ two_ne_zero]; ring] at habs
      exact le_of_mul_le_mul_right habs (two_zpow_pos _)
    rw [pow_succ] at hwhole
    linarith
  next => omega

theorem Fmt.rounded_up (hmb : 0 < F.mb) (h : rm.Up x.neg (F.place x % 2 == 1) (x.part (F.unit x))) : F.rounded rm x = F.place x + 1 := by
  rw [Fmt.rounded, (quantize_spec rm).1 (by rwa [← Fmt.place_mod hmb]), ← add_assoc]
  rfl

theorem Fmt.rounded_not_up (hmb : 0 < F.mb) (h : ¬rm.Up x.neg (F.place x % 2 == 1) (x.part (F.unit x))) : F.rounded rm x = F.place x := by
  rw [Fmt.rounded, (quantize_spec rm).2.1 (by rwa [← Fmt.place_mod hmb])]
  rfl

theorem Fmt.place_le_rounded (hmb : 0 < F.mb) : F.place x ≤ F.rounded rm x := by
  by_cases h : rm.Up x.neg (F.place x % 2 == 1) (x.part (F.unit x))
  · exact (Nat.le_succ _).trans (F.rounded_up hmb h).ge
  · exact (F.rounded_not_up hmb h).ge

theorem Fmt.rounded_le (hmb : 0 < F.mb) : F.rounded rm x ≤ F.place x + 1 := by
  by_cases h : rm.Up x.neg (F.place x % 2 == 1) (x.part (F.unit x))
  · exact (F.rounded_up hmb h).le
  · exact (F.rounded_not_up hmb h).le.trans (Nat.le_succ _)

/-- Only to nearest and away from zero does a magnitude rise. -/
theorem RM.Up.directed {neg odd : Bool} {f : ℚ} (h : rm.Up neg odd f) : (rm = .rdn ∧ neg = true) ∨ (rm = .rup ∧ neg = false) ∨ rm = .rne := by
  cases rm with
  | rne => exact .inr (.inr rfl)
  | rtz => exact h.elim
  | rdn => exact .inl ⟨rfl, h.1⟩
  | rup => exact .inr (.inl ⟨rfl, h.1⟩)

theorem overflow_away {neg : Bool} (h : (rm = .rdn ∧ neg = true) ∨ (rm = .rup ∧ neg = false) ∨ rm = .rne) : overflow F rm neg = F.signed neg F.inf := by
  rcases h with ⟨rfl, rfl⟩ | ⟨rfl, rfl⟩ | rfl <;> rfl

theorem overflow_toward {neg : Bool} (h : ¬((rm = .rdn ∧ neg = true) ∨ (rm = .rup ∧ neg = false))) (hne : rm ≠ .rne) :
    overflow F rm neg = F.signed neg F.max := by
  cases rm <;> cases neg <;> simp_all [overflow]

end RoundNum

/-! ### The place of a real number that a number stands for -/

theorem two_zpow_halves (u : ℤ) (k : ℚ) : k * 2 ^ u = 2 * k * 2 ^ (u - 1) := by
  rw [zpow_sub_one₀ two_ne_zero]
  ring

section Place
variable {F : Fmt} {x : Num} {p : ℝ} (hm : x.m ≠ 0) (hmeets : x.Meets (F.unit x - 1) p)
include hm hmeets

theorem Num.Meets.place : (F.grid (F.place x) < x.abs ↔ ((F.grid (F.place x) : ℚ) : ℝ) < p)
    ∧ (F.grid (F.place x) = x.abs ↔ ((F.grid (F.place x) : ℚ) : ℝ) = p) := by
  have h := hmeets (2 * x.whole (F.unit x))
  rwa [Nat.cast_mul, Nat.cast_ofNat, ← two_zpow_halves, ← Fmt.grid_place hm] at h

theorem Num.Meets.mid : ((F.grid (F.place x) + F.grid (F.place x + 1)) / 2 < x.abs ↔ (((F.grid (F.place x) + F.grid (F.place x + 1)) / 2 : ℚ) : ℝ) < p)
    ∧ ((F.grid (F.place x) + F.grid (F.place x + 1)) / 2 = x.abs ↔ (((F.grid (F.place x) + F.grid (F.place x + 1)) / 2 : ℚ) : ℝ) = p) := by
  have h := hmeets (2 * x.whole (F.unit x) + 1)
  have hmid : ((2 * x.whole (F.unit x) + 1 : ℕ) : ℚ) * 2 ^ (F.unit x - 1) = (F.grid (F.place x) + F.grid (F.place x + 1)) / 2 := by
    rw [Fmt.grid_place hm, Fmt.grid_place_succ hm, zpow_sub_one₀ two_ne_zero]
    push_cast
    ring
  rwa [hmid] at h

theorem Num.Meets.place_le : ((F.grid (F.place x) : ℚ) : ℝ) ≤ p := by
  obtain ⟨hlt, heq⟩ := hmeets.place hm
  rcases (Fmt.place_le (F := F) hm).lt_or_eq with h | h
  · exact (hlt.1 h).le
  · exact (heq.1 h).le

theorem Num.Meets.lt_place_succ : p < ((F.grid (F.place x + 1) : ℚ) : ℝ) := by
  have h := hmeets (2 * (x.whole (F.unit x) + 1))
  rw [Nat.cast_mul, Nat.cast_ofNat, ← two_zpow_halves, Nat.cast_add_one, ← Fmt.grid_place_succ hm] at h
  refine lt_of_not_ge fun hle => ?_
  rcases hle.lt_or_eq with hlt | heq
  · exact absurd (h.1.2 hlt) (not_lt.2 (Fmt.lt_place_succ hm).le)
  · exact absurd (h.2.2 heq) (Fmt.lt_place_succ hm).ne'

theorem Num.Meets.le_place {c : ℕ} (h : ((F.grid c : ℚ) : ℝ) ≤ p) : c ≤ F.place x := by
  have hlt : F.grid c < F.grid (F.place x + 1) := by exact_mod_cast h.trans_lt (hmeets.lt_place_succ hm)
  exact Nat.lt_succ_iff.1 (Fmt.grid_strictMono.lt_iff_lt.1 hlt)

theorem Num.Meets.place_le_of {c : ℕ} (h : p < ((F.grid (c + 1) : ℚ) : ℝ)) : F.place x ≤ c := by
  have hlt : F.grid (F.place x) < F.grid (c + 1) := by exact_mod_cast (hmeets.place_le hm).trans_lt h
  exact Nat.lt_succ_iff.1 (Fmt.grid_strictMono.lt_iff_lt.1 hlt)

theorem Num.Meets.place_eq {c : ℕ} (hle : ((F.grid c : ℚ) : ℝ) ≤ p) (hlt : p < ((F.grid (c + 1) : ℚ) : ℝ)) : F.place x = c :=
  le_antisymm (hmeets.place_le_of hm hlt) (hmeets.le_place hm hle)

end Place

section Halves
variable {a b p : ℚ} (hab : a < b)
include hab

/-- More than half of the way from one magnitude to another is beyond the middle. -/
theorem half_lt_way_iff : 1 / 2 < (p - a) / (b - a) ↔ (a + b) / 2 < p := by
  rw [lt_div_iff₀ (sub_pos.2 hab)]
  constructor <;> intro h <;> linarith

theorem way_eq_half_iff : (p - a) / (b - a) = 1 / 2 ↔ (a + b) / 2 = p := by
  rw [div_eq_iff (sub_pos.2 hab).ne']
  constructor <;> intro h <;> linarith

end Halves

/-! ### The rounding of R84 -/

/-- The relation of a number to the real one that it stands for, in the terms of R84. -/
structure Num.Stands (F : Fmt) (x : Num) (lt eq : ℚ → Prop) (p : ℝ) : Prop where
  lt_iff : ∀ q, 0 ≤ q → (lt q ↔ (q : ℝ) < p)
  eq_iff : ∀ q, 0 ≤ q → (eq q ↔ (q : ℝ) = p)
  zero : x.m = 0 → p = 0
  meets : x.m ≠ 0 → x.Meets (F.unit x - 1) p

section Rounds
variable {F : Fmt} {rm : RM} {ftz : Bool} {x : Num} {lt eq : ℚ → Prop} {p : ℝ} (h : x.Stands F lt eq p)
include h

theorem Num.Stands.lt_grid_iff {c : ℕ} (hc : c ≤ F.inf) : lt (F.num c).abs ↔ ((F.grid c : ℚ) : ℝ) < p := by
  rw [h.lt_iff _ (Num.abs_nonneg _), Fmt.num_abs_of_le_inf hc]

theorem Num.Stands.eq_grid_iff {c : ℕ} (hc : c ≤ F.inf) : eq (F.num c).abs ↔ ((F.grid c : ℚ) : ℝ) = p := by
  rw [h.eq_iff _ (Num.abs_nonneg _), Fmt.num_abs_of_le_inf hc]

theorem Num.Stands.rounds_of_zero (heb : 0 < F.eb) (hm : x.m = 0) : F.Rounds rm ftz x.neg lt eq (roundNum F rm ftz x) := by
  have hlt {c : ℕ} (hc : c ≤ F.inf) : ¬lt (F.num c).abs := by
    rw [h.lt_grid_iff hc, h.zero hm, not_lt, Rat.cast_nonneg]
    exact F.grid_nonneg c
  have heq {c : ℕ} (hc : c ≤ F.inf) (he : eq (F.num c).abs) : c = 0 := by
    rw [h.eq_grid_iff hc, h.zero hm, Rat.cast_eq_zero, ← Fmt.grid_zero (F := F)] at he
    exact Fmt.grid_strictMono.injective he
  rw [roundNum_zero hm]
  refine ⟨fun c hc he => ?_, fun c hc hl => absurd hl (hlt hc.le), fun hl => ?_⟩
  · obtain rfl := heq hc.le he
    exact ⟨fun _ hpos => absurd hpos (lt_irrefl 0), fun _ => rfl⟩
  · have hinf : F.inf = 0 := heq le_rfl (hl.resolve_left (hlt le_rfl))
    have hpos : 0 < 2 ^ F.mb := Nat.two_pow_pos _
    have hle := Fmt.two_pow_mb_le_inf heb
    omega

section Nonzero
variable (hm : x.m ≠ 0)
include hm

/-- A number that stands for a magnitude of the format leaves no part. -/
theorem Num.Stands.exact {c : ℕ} (hc : c ≤ F.inf) (he : eq (F.num c).abs) : F.place x = c ∧ x.abs = F.grid c := by
  have hp : ((F.grid c : ℚ) : ℝ) = p := (h.eq_grid_iff hc).1 he
  have hplace : F.place x = c := (h.meets hm).place_eq hm hp.le (hp ▸ by exact_mod_cast F.grid_lt_succ c)
  have habs := ((h.meets hm).place hm).2.2 (hplace ▸ hp)
  exact ⟨hplace, hplace ▸ habs.symm⟩

theorem Num.Stands.between {c : ℕ} (hc : c < F.inf) (hlow : lt (F.num c).abs) (hlt : ¬lt (F.num (c + 1)).abs) (heq : ¬eq (F.num (c + 1)).abs) :
    F.place x = c ∧ x.part (F.unit x) ≠ 0 := by
  rw [h.lt_grid_iff hc.le] at hlow
  rw [h.lt_grid_iff hc, not_lt] at hlt
  rw [h.eq_grid_iff hc] at heq
  have hplace : F.place x = c := (h.meets hm).place_eq hm hlow.le (lt_of_le_of_ne hlt (Ne.symm heq))
  refine ⟨hplace, fun hpart => ?_⟩
  exact (((h.meets hm).place hm).1.2 (hplace ▸ hlow)).ne' ((Fmt.part_eq_zero_iff hm).1 hpart)

theorem Num.Stands.above (hinf : lt (F.num F.inf).abs ∨ eq (F.num F.inf).abs) : F.inf ≤ F.place x := by
  rw [h.lt_grid_iff le_rfl, h.eq_grid_iff le_rfl] at hinf
  exact (h.meets hm).le_place hm (hinf.elim le_of_lt le_of_eq)

/-- The direction of R84, in the terms of the real number. -/
theorem Num.Stands.up_iff (hc : F.place x < F.inf) (hpart : x.part (F.unit x) ≠ 0) : rm.Up x.neg (F.place x % 2 == 1) (x.part (F.unit x)) ↔
    ((rm = .rdn ∧ x.neg = true) ∨ (rm = .rup ∧ x.neg = false)) ∨ (rm = .rne ∧ (lt (((F.num (F.place x)).abs + (F.num (F.place x + 1)).abs) / 2)
      ∨ (eq (((F.num (F.place x)).abs + (F.num (F.place x + 1)).abs) / 2) ∧ F.place x % 2 = 1))) := by
  have hmid : 0 ≤ (F.grid (F.place x) + F.grid (F.place x + 1)) / 2 := by
    have h1 := F.grid_nonneg (F.place x)
    have h2 := F.grid_nonneg (F.place x + 1)
    positivity
  obtain ⟨hlt, heq⟩ := (h.meets hm).mid hm
  rw [Fmt.num_abs_of_le_inf hc.le, Fmt.num_abs_of_le_inf (Nat.succ_le_of_lt hc), h.lt_iff _ hmid, h.eq_iff _ hmid, ← hlt, ← heq, ← half_lt_way_iff (F.grid_lt_succ _),
    ← way_eq_half_iff (F.grid_lt_succ _), Fmt.part_eq hm]
  cases rm <;> simp [RM.Up, hpart]

theorem Num.Stands.rounds_of_nonzero (hmb : 0 < F.mb) (heb : 0 < F.eb) : F.Rounds rm ftz x.neg lt eq (roundNum F rm ftz x) := by
  have hnormal {c : ℕ} (hc : 2 ^ F.mb ≤ c) (hle : F.grid c ≤ x.abs) : ¬F.Tiny rm x :=
    F.not_tiny ((Fmt.grid_strictMono.monotone hc).trans hle)
  refine ⟨fun c hc he => ?_, fun c hc hlow hlt heq => ?_, fun hinf => ?_⟩
  · obtain ⟨hplace, habs⟩ := h.exact hm hc.le he
    have hpart : x.part (F.unit x) = 0 := (Fmt.part_eq_zero_iff hm).2 (hplace ▸ habs)
    refine ⟨fun hftz _ hsub => ?_, fun hkept => ?_⟩
    · rw [hftz]
      exact roundNum_tiny hm (F.tiny_of_le hm habs.le hsub)
    · have hkept : ftz = false ∨ ¬F.Tiny rm x := by
        refine hkept.imp_right fun hc => hc.elim (fun hzero => ?_) fun hc => hnormal hc habs.ge
        rw [hzero, Fmt.grid_zero] at habs
        exact absurd habs (Num.abs_pos hm).ne'
      have hrounded : F.rounded rm x = c := (F.rounded_not_up hmb (hpart ▸ rm.not_up_zero _ _)).trans hplace
      rw [roundNum_finite hm hkept (hrounded ▸ hc), if_pos hpart, hrounded]
  · obtain ⟨rfl, hpart⟩ := h.between hm hc hlow hlt heq
    have htop : x.abs < F.grid (F.place x + 1) := Fmt.lt_place_succ hm
    dsimp only
    rw [← h.up_iff hm hc hpart]
    refine ⟨fun hftz hsub => ?_, fun hkept => ?_⟩
    · rw [hftz]
      exact roundNum_tiny hm (F.tiny_of_le hm htop.le hsub)
    · have hkept : ftz = false ∨ ¬F.Tiny rm x := hkept.imp_right fun hc => hnormal hc (Fmt.place_le hm)
      have hfinite (hlt : F.rounded rm x < F.inf) :
          roundNum F rm ftz x = (F.signed x.neg (F.rounded rm x), if F.Tiny rm x then flagUF ||| flagNX else flagNX) := by
        rw [roundNum_finite hm hkept hlt, if_neg hpart]
      have hflags (hlt : F.rounded rm x < F.inf) : (2 ^ F.mb ≤ F.place x → (roundNum F rm ftz x).2 = flagNX)
          ∧ (F.place x + 1 < 2 ^ F.mb → (roundNum F rm ftz x).2 = flagUF ||| flagNX)
          ∧ (F.place x + 1 = 2 ^ F.mb → (roundNum F rm ftz x).2 = flagNX ∨ (roundNum F rm ftz x).2 = flagUF ||| flagNX) := by
        rw [hfinite hlt]
        refine ⟨fun hc => if_neg (hnormal hc (Fmt.place_le hm)), fun hc => if_pos (F.tiny_of_le hm htop.le hc), fun _ => ?_⟩
        by_cases ht : F.Tiny rm x
        · exact .inr (if_pos ht)
        · exact .inl (if_neg ht)
      have hup := F.rounded_up (rm := rm) (x := x) hmb
      have hnot := F.rounded_not_up (rm := rm) (x := x) hmb
      refine ⟨fun hu => ?_, fun hu => ?_, fun hu hc => ?_, fun hu => ?_⟩
      · by_cases hinf : F.place x + 1 = F.inf
        · rw [roundNum_overflow hm hkept (by rw [hup hu, hinf]), overflow_away hu.directed, hinf]
        · rw [hfinite (by rw [hup hu]; omega), hup hu]
      · rw [hfinite (by rwa [hnot hu]), hnot hu]
      · rw [roundNum_overflow hm hkept (by rw [hup hu, hc])]
      · refine hflags ?_
        by_cases hu' : rm.Up x.neg (F.place x % 2 == 1) (x.part (F.unit x))
        · rw [hup hu']
          exact lt_of_le_of_ne hc (hu.resolve_left (not_not.2 hu'))
        · rwa [hnot hu']
  · have hplace := h.above hm hinf
    have hkept : ftz = false ∨ ¬F.Tiny rm x := .inr (hnormal ((Fmt.two_pow_mb_le_inf heb).trans hplace) (Fmt.place_le hm))
    rw [roundNum_overflow hm hkept (hplace.trans (F.place_le_rounded hmb))]
    exact ⟨fun haway => by rw [overflow_away (or_assoc.1 haway)], fun hnot hne => by rw [overflow_toward hnot hne]⟩

end Nonzero

/-- A number that stands for a real one is rounded to what that rounds to. -/
theorem Num.Stands.rounds (hmb : 0 < F.mb) (heb : 0 < F.eb) : F.Rounds rm ftz x.neg lt eq (roundNum F rm ftz x) := by
  by_cases hm : x.m = 0
  · exact h.rounds_of_zero heb hm
  · exact h.rounds_of_nonzero hm hmb heb

end Rounds

theorem Num.stands_abs (F : Fmt) (x : Num) : x.Stands F (fun q => q < x.abs) (fun q => q = x.abs) x.abs where
  lt_iff _ _ := Rat.cast_lt.symm
  eq_iff _ _ := Rat.cast_inj.symm
  zero hm := by rw [x.abs_of_zero hm, Rat.cast_zero]
  meets _ := x.meets_abs _

/-- An exact number is rounded once. -/
theorem roundNum_roundsTo {F : Fmt} (hmb : 0 < F.mb) (heb : 0 < F.eb) (rm : RM) (ftz : Bool) (x : Num) :
    F.RoundsTo rm ftz x.neg x.abs (roundNum F rm ftz x) := (x.stands_abs F).rounds hmb heb

end Sys2Proof.Machine
end

section
/-! PROOFS. Quotients that tell whether more follows, and what narrowing them gives (R87, R286). -/

namespace Sys2Proof.Machine

/-! ### Quotients -/

section Quotient
variable (x y : Num)

/-- The quotient, in units of its last bit but one. -/
noncomputable def Num.quotient : ℝ := ((x.m * 2 ^ 130 : ℕ) : ℝ) / y.m

theorem Num.quotient_nonneg : 0 ≤ x.quotient y := by
  unfold Num.quotient
  positivity

theorem Num.floor_quotient : ⌊x.quotient y⌋₊ = x.m * 2 ^ 130 / y.m := Nat.floor_div_eq_div _ _

variable {x y} (hy : y.m ≠ 0)
include hy

theorem Num.floor_quotient_eq_iff : (⌊x.quotient y⌋₊ : ℝ) = x.quotient y ↔ x.m * 2 ^ 130 % y.m = 0 := by
  have hpos : (y.m : ℝ) ≠ 0 := Nat.cast_ne_zero.2 hy
  rw [x.floor_quotient y, Num.quotient, eq_div_iff hpos, ← Nat.dvd_iff_mod_eq_zero, Nat.dvd_iff_div_mul_eq]
  exact_mod_cast Iff.rfl

theorem divNum_m : (divNum x y).m = 2 * ⌊x.quotient y⌋₊ + if (⌊x.quotient y⌋₊ : ℝ) = x.quotient y then 0 else 1 := by
  rw [if_congr (Num.floor_quotient_eq_iff hy) rfl rfl, x.floor_quotient y]
  rfl

omit hy in
theorem Num.quotient_mul : x.quotient y * 2 ^ ((divNum x y).e + 1) = ((x.abs / y.abs : ℚ) : ℝ) := by
  have he : (divNum x y).e + 1 = x.e - y.e - (130 : ℕ) := by
    change x.e - y.e - 131 + 1 = _
    omega
  rw [he, zpow_sub₀ two_ne_zero, zpow_sub₀ two_ne_zero, zpow_natCast, Num.quotient, Num.abs, Num.abs]
  push_cast
  field_simp
  norm_num

theorem divNum_meets : (divNum x y).Meets ((divNum x y).e + 1) ((x.abs / y.abs : ℚ) : ℝ) :=
  Num.quotient_mul ▸ Num.meets_of_sticky (x.quotient_nonneg y) (divNum_m hy)

/-- The bits of a quotient go far below those that a format keeps. -/
theorem le_divNum_m {k n : ℕ} (hx : x.m ≠ 0) (hk : y.m ≤ 2 ^ k) (hn : n + k = 131) (hn0 : 0 < n) : 2 ^ n ≤ (divNum x y).m := by
  have hle : 2 ^ (n - 1) ≤ x.m * 2 ^ 130 / y.m := by
    rw [Nat.le_div_iff_mul_le (Nat.pos_of_ne_zero hy)]
    calc 2 ^ (n - 1) * y.m ≤ 2 ^ (n - 1) * 2 ^ k := Nat.mul_le_mul_left _ hk
      _ = 2 ^ 130 := by rw [← pow_add]; congr 1; omega
      _ ≤ x.m * 2 ^ 130 := Nat.le_mul_of_pos_left _ (Nat.pos_of_ne_zero hx)
  calc 2 ^ n = 2 * 2 ^ (n - 1) := by rw [← pow_succ', Nat.sub_add_cancel hn0]
    _ ≤ 2 * (x.m * 2 ^ 130 / y.m) := Nat.mul_le_mul_left _ hle
    _ ≤ (divNum x y).m := Nat.le_add_right _ _

end Quotient

/-- A number with more bits than a format keeps stands for what it lies next to. -/
theorem Num.stands_of_sticky {F : Fmt} {x : Num} {lt eq : ℚ → Prop} {p : ℝ} (hlt : ∀ q, 0 ≤ q → (lt q ↔ (q : ℝ) < p))
    (heq : ∀ q, 0 ≤ q → (eq q ↔ (q : ℝ) = p)) (hmeets : x.Meets (x.e + 1) p) (hm : 2 ^ (F.mb + 2) ≤ x.m) : x.Stands F lt eq p where
  lt_iff := hlt
  eq_iff := heq
  zero hzero := by rw [hzero] at hm; exact absurd hm (not_le.2 (Nat.two_pow_pos _))
  meets hne := by
    have hlog : F.mb + 2 ≤ Nat.log2 x.m := (Nat.le_log2 hne).2 hm
    refine hmeets.mono ?_
    unfold Fmt.unit
    split <;> omega

/-- A quotient stands for the exact one. -/
theorem divNum_stands {F : Fmt} {x y : Num} {k : ℕ} (hy : y.m ≠ 0) (hk : y.m ≤ 2 ^ k) (hF : F.mb + 2 + k ≤ 131) :
    (divNum x y).Stands F (fun q => q < x.abs / y.abs) (fun q => q = x.abs / y.abs) ((x.abs / y.abs : ℚ) : ℝ) := by
  by_cases hx : x.m = 0
  · have hm : (divNum x y).m = 0 := by simp [divNum, hx]
    exact ⟨fun _ _ => Rat.cast_lt.symm, fun _ _ => Rat.cast_inj.symm, fun _ => by rw [x.abs_of_zero hx, zero_div, Rat.cast_zero],
      fun hne => absurd hm hne⟩
  · refine Num.stands_of_sticky (fun _ _ => Rat.cast_lt.symm) (fun _ _ => Rat.cast_inj.symm) (divNum_meets hy) ?_
    exact (Nat.pow_le_pow_right two_pos (by omega)).trans (le_divNum_m hy hx hk (n := 131 - k) (by omega) (by omega))

/-! ### Narrowing a number that stands for another -/

section Narrows
variable {F : Fmt} {x : Num} {p : ℚ} (h : x.Stands F (fun q => q < p) (fun q => q = p) p) {top rnd far code : ℕ} {neg : Bool}
include h

theorem Num.Stands.narrows (hn : F.Narrows top .rne rnd neg x.abs far code) : F.Narrows top .rne rnd neg p far code := by
  by_cases hm : x.m = 0
  · have hp : x.abs = p := by rw [x.abs_of_zero hm]; exact_mod_cast (h.zero hm).symm
    rwa [hp] at hn
  · have hmeets := h.meets hm
    have hlow : F.grid (F.place x) ≤ p := by exact_mod_cast hmeets.place_le hm
    have hhigh : p < F.grid (F.place x + 1) := by exact_mod_cast hmeets.lt_place_succ hm
    have heq : F.grid (F.place x) = x.abs ↔ F.grid (F.place x) = p := (hmeets.place hm).2.trans Rat.cast_inj
    have hmid := hmeets.mid hm
    rw [Rat.cast_lt, Rat.cast_inj] at hmid
    obtain ⟨hat, hbetween, hfar⟩ := hn
    refine ⟨fun c hc hp => ?_, fun c hc hpl hph => ?_, fun hp => ?_⟩
    · obtain rfl : F.place x = c := hmeets.place_eq hm (by exact_mod_cast hp.ge) (by rw [hp]; exact_mod_cast F.grid_lt_succ c)
      exact hat _ hc (heq.2 hp.symm).symm
    · obtain rfl : F.place x = c := hmeets.place_eq hm (by exact_mod_cast hpl.le) (by exact_mod_cast hph)
      have hne : F.grid (F.place x) ≠ x.abs := fun he => hpl.ne (heq.1 he)
      have hway : NarrowsUp .rne rnd ((p - F.grid (F.place x)) / (F.grid (F.place x + 1) - F.grid (F.place x))) (F.place x % 2 == 1)
          ↔ NarrowsUp .rne rnd ((x.abs - F.grid (F.place x)) / (F.grid (F.place x + 1) - F.grid (F.place x))) (F.place x % 2 == 1) := by
        rw [narrowsUp_rne_iff neg, narrowsUp_rne_iff neg, RM.Up, RM.Up, half_lt_way_iff (F.grid_lt_succ _), half_lt_way_iff (F.grid_lt_succ _),
          way_eq_half_iff (F.grid_lt_succ _), way_eq_half_iff (F.grid_lt_succ _), hmid.1, hmid.2]
      dsimp only
      rw [hway]
      exact hbetween _ hc (lt_of_le_of_ne (Fmt.place_le hm) hne) (Fmt.lt_place_succ hm)
    · have hle : top + 1 ≤ F.place x := hmeets.le_place hm (by exact_mod_cast hp)
      exact hfar ((Fmt.grid_strictMono.monotone hle).trans (Fmt.place_le hm))

end Narrows

end Sys2Proof.Machine
end

section
/-! PROOFS. The formats of the conversions: the values of their elements, and the codes that a value narrows to (R260, R261, R268, R271). -/

namespace Sys2Proof.Machine

/-! ### Element values -/

section Elements
variable {tag : ℕ} (htag : tag ≠ 5)
include htag

theorem elemValue_float (x : ℕ) : elemValue tag x = if some ((nfOf tag).fmt.mag x) = (nfOf tag).inf then .inf ((nfOf tag).fmt.neg x)
    else if (nfOf tag).top < (nfOf tag).fmt.mag x then .nan else .fin ((nfOf tag).fmt.num x) := if_neg htag

variable {m : ℕ} (hm : m < 2 ^ ((nfOf tag).fmt.eb + (nfOf tag).fmt.mb)) (neg : Bool)
include hm

theorem elemValue_inf (h : some m = (nfOf tag).inf) : elemValue tag ((nfOf tag).fmt.signed neg m) = .inf neg := by
  rw [elemValue_float htag, Fmt.mag_signed neg hm, Fmt.neg_signed neg hm, if_pos h]

theorem elemValue_nan (h : some m ≠ (nfOf tag).inf) (htop : (nfOf tag).top < m) : elemValue tag ((nfOf tag).fmt.signed neg m) = .nan := by
  rw [elemValue_float htag, Fmt.mag_signed neg hm, if_neg h, if_pos htop]

theorem elemValue_fin (h : some m ≠ (nfOf tag).inf) (htop : m ≤ (nfOf tag).top) :
    ∃ n, elemValue tag ((nfOf tag).fmt.signed neg m) = .fin n ∧ n.neg = neg ∧ n.abs = (nfOf tag).fmt.grid m := by
  refine ⟨(nfOf tag).fmt.num ((nfOf tag).fmt.signed neg m), ?_, by rw [Fmt.num_neg, Fmt.neg_signed neg hm], by rw [Fmt.num_abs, Fmt.mag_signed neg hm]⟩
  rw [elemValue_float htag, Fmt.mag_signed neg hm, if_neg h, if_neg (not_lt.2 htop)]

end Elements

/-- The value of an INT8 code. -/
theorem elemValue_int {x : ℕ} (hx : x < 256) : ∃ n, elemValue 5 x = .fin n ∧ n.val = if x < 128 then (x : ℚ) else (x : ℚ) - 256 := by
  have habs (i : ℤ) : (intNum i).val = i := by
    simp only [Num.val, intNum, Num.abs, zpow_zero, mul_one, decide_eq_true_eq, Nat.cast_natAbs]
    split
    next h => rw [abs_of_neg h]; push_cast; ring
    next h => rw [abs_of_nonneg (not_lt.1 h)]
  refine ⟨_, if_pos rfl, ?_⟩
  rw [habs, Nat.mod_eq_of_lt hx, signedOf, apply_ite (Int.cast (R := ℚ)), Int.cast_sub, Int.cast_natCast]
  norm_num

/-! ### Narrowing to INT8 -/

/-- The INT8 code of a sign and whole units (R268). -/
def int8Code (neg : Bool) (t : ℕ) : ℕ := ((max (-128) (min 127 (if neg = true then -(t : ℤ) else t))) % 256).toNat

theorem clampTo_fst (lo hi i : ℤ) (h : lo ≤ hi) : (clampTo lo hi i).1 = max lo (min hi i) := by
  unfold clampTo
  split
  · omega
  split <;> omega

theorem narrowInt_fin (rm : NRound) (rnd : ℕ) (x : Num) : narrowInt rm rnd (.fin x) = int8Code x.neg (narrowUnits rm rnd x 0) := by
  simp only [narrowInt, codeOf, clampTo_fst _ _ _ (show (-128 : ℤ) ≤ 127 by decide)]
  rfl

theorem Num.units_zero (x : Num) : x.units 0 = x.abs := by rw [Num.units, zpow_zero, div_one]

theorem narrowInt_spec {rm : NRound} {rnd c : ℕ} {x : Num} (hrnd : rnd < 65536) (hlow : (c : ℚ) ≤ x.abs) (hhigh : x.abs < c + 1) :
    (NarrowsUp rm rnd (x.abs - c) (c % 2 == 1) → narrowInt rm rnd (.fin x) = int8Code x.neg (c + 1))
    ∧ (¬NarrowsUp rm rnd (x.abs - c) (c % 2 == 1) → narrowInt rm rnd (.fin x) = int8Code x.neg c) := by
  have hwhole : x.whole 0 = c := by
    rw [Num.whole, x.units_zero]
    exact (Nat.floor_eq_iff x.abs_nonneg).2 ⟨hlow, hhigh⟩
  have hpart : x.part 0 = x.abs - c := by rw [Num.part, hwhole, x.units_zero]
  obtain ⟨hup, hnot⟩ := narrowUnits_spec (x := x) (u := 0) (rm := rm) hrnd
  rw [hwhole, hpart] at hup hnot
  exact ⟨fun h => by rw [narrowInt_fin, hup h], fun h => by rw [narrowInt_fin, hnot h]⟩

/-! ### The float formats -/

/-- The code of a value beyond the largest finite one, by the table of R268. -/
def Fmt.beyondCode (F : Fmt) (tag top far : ℕ) (rm : NRound) (sat neg : Bool) : ℕ :=
  if sat = true ∨ rm = .rtz then F.signed neg top else if tag = 2 then 0x7F else F.signed neg far

section Table
variable {tag top far nan : ℕ} {F : Fmt} (htag : tag ≠ 5) (hF : (nfOf tag).fmt = F) (htop : (nfOf tag).top = top)

section Narrowing
variable (hnan : (nfOf tag).nan = nan) (hmb : 0 < F.mb)
  (hbeyond : ∀ (rm : NRound) (sat neg : Bool), (nfOf tag).beyond rm sat neg = F.beyondCode tag top far rm sat neg)
  (rm : NRound) (sat neg : Bool) {rnd : ℕ} (x : Num)
include htag

theorem narrowTo_float (v : NVal) : narrowTo tag rm sat rnd v = narrowFloat (nfOf tag) rm sat rnd v := if_neg htag

include hnan in
theorem narrowTo_nan : narrowTo tag rm sat rnd .nan = nan := (narrowTo_float htag rm sat .nan).trans hnan

include hbeyond in
theorem narrowTo_inf : narrowTo tag rm sat rnd (.inf neg) = F.beyondCode tag top far rm sat neg :=
  (narrowTo_float htag rm sat _).trans (hbeyond rm sat neg)

include hF htop hmb hbeyond in
theorem narrowTo_narrows (hrnd : rnd < 65536) :
    F.Narrows top rm rnd x.neg x.abs (F.beyondCode tag top far rm sat x.neg) (narrowTo tag rm sat rnd (.fin x)) := by
  subst hF htop
  rw [narrowTo_float htag, ← hbeyond]
  exact narrowFloat_narrows (nfOf tag) hmb rm sat hrnd x

end Narrowing

section Values
variable (hinf : (nfOf tag).inf = if tag = 2 ∨ tag = 4 then none else some far) (hfar : tag = 2 ∨ tag = 4 ∨ top < far)
  (neg : Bool) {m : ℕ} (hm : m < 2 ^ (F.eb + F.mb))
include htag hF htop hinf hfar hm

theorem elemValue_row :
    (m ≤ top → ∃ n, elemValue tag (F.signed neg m) = .fin n ∧ n.neg = neg ∧ n.abs = F.grid m)
    ∧ (m = far → tag ≠ 2 → tag ≠ 4 → elemValue tag (F.signed neg m) = .inf neg)
    ∧ (top < m → m ≠ far ∨ tag = 2 → elemValue tag (F.signed neg m) = .nan) := by
  subst hF htop
  have hsome : some m = (nfOf tag).inf ↔ m = far ∧ tag ≠ 2 ∧ tag ≠ 4 := by
    rw [hinf]
    split
    next h => simpa using fun _ h2 => h.resolve_left h2
    next h => simpa using fun _ => not_or.1 h
  refine ⟨fun h => elemValue_fin htag hm neg (fun hs => ?_) h, fun h h2 h4 => elemValue_inf htag hm neg (hsome.2 ⟨h, h2, h4⟩),
    fun h hne => elemValue_nan htag hm neg (fun hs => ?_) h⟩
  · obtain ⟨hm, h2, h4⟩ := hsome.1 hs
    omega
  · obtain ⟨hm, h2, -⟩ := hsome.1 hs
    exact hne.elim (fun h => h hm) h2

end Values

end Table

theorem beyond_ieee (F : Fmt) (rm : NRound) (sat neg : Bool) :
    (ieee F).beyond rm sat neg = if sat = true ∨ rm = .rtz then F.signed neg F.max else F.signed neg F.inf := rfl

theorem beyond_e4m3 (rm : NRound) (sat neg : Bool) :
    nfE4M3.beyond rm sat neg = if sat = true ∨ rm = .rtz then nfE4M3.fmt.signed neg 0x7E else 0x7F := rfl

theorem beyond_e2m1 (rm : NRound) (sat neg : Bool) : nfE2M1.beyond rm sat neg = nfE2M1.fmt.signed neg 7 := ite_self _

/-- The formats of R260 and R268: tag, widths, largest finite code, and those of what lies beyond and of NaN. -/
theorem conversion_formats (tag eb mb top far nan : ℕ)
    (h : (tag, eb, mb, top, far, nan) ∈ [(0, 8, 7, 0x7F7F, 0x7F80, 0x7FC0), (1, 5, 10, 0x7BFF, 0x7C00, 0x7E00), (2, 4, 3, 0x7E, 0x7F, 0x7F),
       (3, 5, 2, 0x7B, 0x7C, 0x7E), (4, 2, 1, 7, 7, 0), (6, 8, 23, 0x7F7FFFFF, 0x7F800000, 0x7FC00000)]) :
    tag ≠ 5 ∧ (nfOf tag).fmt = { eb := eb, mb := mb } ∧ (nfOf tag).top = top ∧ (nfOf tag).nan = nan ∧ 0 < mb
    ∧ (∀ (rm : NRound) (sat neg : Bool), (nfOf tag).beyond rm sat neg = Fmt.beyondCode { eb := eb, mb := mb } tag top far rm sat neg)
    ∧ (nfOf tag).inf = (if tag = 2 ∨ tag = 4 then none else some far) ∧ (tag = 2 ∨ tag = 4 ∨ top < far) := by
  simp only [List.mem_cons, List.not_mem_nil, or_false, Prod.mk.injEq] at h
  rcases h with ⟨rfl, rfl, rfl, rfl, rfl, rfl⟩ | ⟨rfl, rfl, rfl, rfl, rfl, rfl⟩ | ⟨rfl, rfl, rfl, rfl, rfl, rfl⟩ | ⟨rfl, rfl, rfl, rfl, rfl, rfl⟩
    | ⟨rfl, rfl, rfl, rfl, rfl, rfl⟩ | ⟨rfl, rfl, rfl, rfl, rfl, rfl⟩
  · exact ⟨by decide, rfl, rfl, rfl, by decide, beyond_ieee fmtBf16, rfl, by decide⟩
  · exact ⟨by decide, rfl, rfl, rfl, by decide, beyond_ieee fmtFp16, rfl, by decide⟩
  · exact ⟨by decide, rfl, rfl, rfl, by decide, beyond_e4m3, rfl, by decide⟩
  · exact ⟨by decide, rfl, rfl, rfl, by decide, beyond_ieee fmtE5M2, rfl, by decide⟩
  · refine ⟨by decide, rfl, rfl, rfl, by decide, fun rm sat neg => (beyond_e2m1 rm sat neg).trans (ite_self _).symm, rfl, by decide⟩
  · exact ⟨by decide, rfl, rfl, rfl, by decide, beyond_ieee fmt32, rfl, by decide⟩

end Sys2Proof.Machine
end

section
/-! PROOFS. The vectors that the conversions send (R270, R284 to R286). -/

namespace Sys2Proof.Machine

/-! ### A code fits its element -/

/-- The codes of a format fit its widths. -/
structure NFmt.Fits (f : NFmt) : Prop where
  top_lt : f.top < 2 ^ (f.fmt.eb + f.fmt.mb)
  nan_lt : f.nan < 2 ^ (f.fmt.eb + f.fmt.mb)
  inf_lt : ∀ i ∈ f.inf, i < 2 ^ (f.fmt.eb + f.fmt.mb)

theorem nfOf_fits (tag : ℕ) : (nfOf tag).Fits := by
  unfold nfOf
  split <;> exact ⟨by decide, by decide, by decide⟩

theorem nfOf_bits {tag : ℕ} (h5 : tag ≠ 5) : (nfOf tag).fmt.bits = tagBits tag := by
  unfold nfOf tagBits
  split <;> simp_all <;> rfl

section Fits
variable {f : NFmt} (h : f.Fits) (rm : NRound) (sat : Bool) (rnd : ℕ)
include h

theorem NFmt.Fits.code_lt : f.nan < 2 ^ f.fmt.bits :=
  h.nan_lt.trans_le (Nat.pow_le_pow_right two_pos (by rw [Fmt.bits]; omega))

theorem NFmt.Fits.beyond_lt (neg : Bool) : f.beyond rm sat neg < 2 ^ f.fmt.bits := by
  unfold NFmt.beyond
  split
  · exact Fmt.signed_lt neg h.top_lt
  split
  next i hi => exact Fmt.signed_lt neg (h.inf_lt i hi)
  split
  · exact Fmt.signed_lt neg h.top_lt
  · exact h.code_lt

theorem NFmt.Fits.narrowFloat_lt (v : NVal) : narrowFloat f rm sat rnd v < 2 ^ f.fmt.bits := by
  cases v with
  | nan => exact h.code_lt
  | inf neg => exact h.beyond_lt rm sat neg
  | fin x =>
    rw [narrowFloat]
    split
    · exact Fmt.signed_lt _ (Nat.two_pow_pos _)
    extract_lets least u0 u mag
    split
    · exact h.beyond_lt rm sat _
    next hle => exact Fmt.signed_lt _ ((not_lt.1 hle).trans_lt h.top_lt)

end Fits

theorem codeOf_lt (n : ℕ) (i : ℤ) : codeOf n i < 2 ^ n := by
  have hpos : (0 : ℤ) < 2 ^ n := by positivity
  have h := Int.emod_lt_of_pos i hpos
  have h0 := Int.emod_nonneg i hpos.ne'
  unfold codeOf
  zify
  omega

theorem narrowTo_lt (tag : ℕ) (rm : NRound) (sat : Bool) (rnd : ℕ) (v : NVal) : narrowTo tag rm sat rnd v < 2 ^ tagBits tag := by
  by_cases h5 : tag = 5
  · subst h5
    change narrowInt rm rnd v < 2 ^ 8
    cases v with
    | nan => exact (by decide : 0 < 2 ^ 8)
    | inf neg =>
      cases neg with
      | false => exact (by decide : 0x7F < 2 ^ 8)
      | true => exact (by decide : 0x80 < 2 ^ 8)
    | fin x => exact codeOf_lt 8 _
  · rw [narrowTo_float h5, ← nfOf_bits h5]
    exact (nfOf_fits tag).narrowFloat_lt rm sat rnd v

/-! ### The lanes of a list of codes -/

section Codes
variable {n b i : ℕ} (hfit : b * n ≤ 512) {f : ℕ → ℕ}
include hfit

theorem lane_codes (hi : i < n) (hf : f i < 2 ^ b) : lane (packLanes b ((List.range n).map f)) b i = f i := by
  rw [lane_packLanes (by simpa using hfit), getD_map_range f 0 hi, Nat.mod_eq_of_lt hf]

omit hfit in
theorem packLanes_toNat_lt {ls : List ℕ} (hlen : ls.length = n) : (packLanes b ls).toNat < 2 ^ (n * b) := by
  have hlt := packNat_lt b ls
  rw [hlen, mul_comm] at hlt
  exact (Nat.mod_le _ _).trans_lt hlt

end Codes

/-! ### The chain of R270 -/

theorem srWords_getD {st : Word} {w : ℕ → Word} (h0 : w 0 = st) (hstep : ∀ t, w (t + 1) = srStep (w t)) (m : ℕ) {i : ℕ} (hi : i < m) :
    (srWords m st).getD i 0 = w (i + 1) := by
  induction m generalizing st w i with
  | zero => omega
  | succ m ih =>
    have hnext : w 1 = srStep st := by rw [hstep, h0]
    cases i with
    | zero => exact hnext.symm
    | succ i => exact ih (w := fun t => w (t + 1)) hnext (fun t => hstep (t + 1)) (by omega)

/-! ### `cvt.n` and `cvt.w` -/

theorem narrowUnits_of_ne_sr {rm : NRound} (h : rm ≠ .sr) (r r' : ℕ) (x : Num) (u : ℤ) : narrowUnits rm r x u = narrowUnits rm r' x u := by
  cases rm with
  | rne => rfl
  | rtz => rfl
  | sr => exact absurd rfl h

/-- Only a stochastic rounding looks at the random bits. -/
theorem narrowTo_of_ne_sr {rm : NRound} (h : rm ≠ .sr) (tag : ℕ) (sat : Bool) (r r' : ℕ) (v : NVal) :
    narrowTo tag rm sat r v = narrowTo tag rm sat r' v := by
  cases v with
  | nan => rfl
  | inf neg => rfl
  | fin x =>
    unfold narrowTo narrowInt narrowFloat
    simp only [narrowUnits_of_ne_sr h r r']

theorem cvtNarrow_of_ne_sr {rm : NRound} (h : rm ≠ .sr) (dst : ℕ) (sat : Bool) (ws ws' : List Word) (v : Vec) (tag : ℕ) :
    cvtNarrow dst rm sat ws v tag = cvtNarrow dst rm sat ws' v tag :=
  congrArg (packLanes _) (List.map_congr_left fun _ _ => narrowTo_of_ne_sr h ..)

theorem cvtLanes_le (tag : ℕ) : cvtLanes tag ≤ 32 := by
  unfold cvtLanes
  split <;> omega

theorem tagBits_le {dst : ℕ} (h : dst < 6) : tagBits dst ≤ 16 := by
  interval_cases dst <;> decide

section Narrow
variable {dst src : ℕ} {rm : NRound} {sat : Bool} {v : Vec} {ws : List Word} (hdst : dst < 6)
include hdst

theorem cvtNarrow_fits : tagBits dst * cvtLanes src ≤ 512 := Nat.mul_le_mul (tagBits_le hdst) (cvtLanes_le src)

theorem lane_cvtNarrow {i : ℕ} (hi : i < cvtLanes src) : lane (cvtNarrow dst rm sat ws v src) (tagBits dst) i
    = narrowTo dst rm sat (srLane ws i) (elemValue (if cvtLanes src = 32 then src else 6) (lane v (512 / cvtLanes src) i)) :=
  lane_codes (cvtNarrow_fits hdst) hi (narrowTo_lt dst rm sat _ _)

omit hdst in
theorem cvtNarrow_toNat_lt : (cvtNarrow dst rm sat ws v src).toNat < 2 ^ (cvtLanes src * tagBits dst) :=
  packLanes_toNat_lt (by simp)

end Narrow

/-- How many lanes `cvt.w` sends (R285). -/
def widenLanes (dst : ℕ) : ℕ := if dst = 6 then 16 else 32

theorem lane_cvtWiden {dst src : ℕ} (hdst : dst = 0 ∨ dst = 1 ∨ dst = 6) (v : Vec) {i : ℕ} (hi : i < widenLanes dst) :
    lane (cvtWiden dst v src) (tagBits dst) i
      = if i < 512 / tagBits src then narrowTo dst .rne false 0 (elemValue src (lane v (tagBits src) i)) else 0 := by
  have hfit : tagBits dst * widenLanes dst ≤ 512 := by rcases hdst with rfl | rfl | rfl <;> decide
  by_cases helem : i < 512 / tagBits src
  · have hget : (tokenElems v src)[i]? = some (lane v (tagBits src) i) := by rw [tokenElems, List.getElem?_map, List.getElem?_range helem]; rfl
    rw [if_pos helem]
    refine (lane_codes hfit hi ?_).trans ?_
    · rw [hget]
      exact narrowTo_lt dst _ _ _ _
    · rw [hget]
  · have hget : (tokenElems v src)[i]? = none := by
      rw [tokenElems, List.getElem?_map, List.getElem?_eq_none (by simpa using helem)]
      rfl
    rw [if_neg helem]
    refine (lane_codes hfit hi ?_).trans ?_
    · rw [hget]
      exact Nat.two_pow_pos _
    · rw [hget]

end Sys2Proof.Machine
end

section
/-! PROOFS. The scales and lanes of `bscale` (R286), and O22. -/

namespace Sys2Proof.Machine

/-! ### Scales -/

/-- Magnitudes compare as their values. -/
theorem magLe_iff (x y : Num) : magLe x y = true ↔ x.abs ≤ y.abs := by
  have hval (n : Num) (u : ℤ) (hu : u ≤ n.e) : n.abs = ((n.m * 2 ^ (n.e - u).toNat : ℕ) : ℚ) * 2 ^ u := by
    rw [n.abs_eq_units u, Num.units_of_le hu]
  simp only [magLe, decide_eq_true_eq]
  generalize hu : (if x.e ≤ y.e then x.e else y.e) = u
  have hx : u ≤ x.e := by split at hu <;> omega
  have hy : u ≤ y.e := by split at hu <;> omega
  rw [hval x u hx, hval y u hy, mul_le_mul_iff_of_pos_right (two_zpow_pos _), Nat.cast_le]

theorem scaleNum_abs {c : ℕ} (hc : c < 256) : (scaleNum c).abs = e3m5Value c := by
  have hdiv : c / 32 % 8 = c / 32 := Nat.mod_eq_of_lt (by omega)
  unfold scaleNum e3m5Value
  simp only [hdiv]
  split
  · simp only [Num.abs]
    norm_num [div_eq_mul_inv]
  · simp only [Num.abs]

theorem scaleNum_pos {c : ℕ} (hc : 1 ≤ c) (hlt : c < 256) : (scaleNum c).m ≠ 0 := by
  unfold scaleNum
  dsimp only
  split <;> dsimp only <;> omega

theorem scaleNum_le (c : ℕ) : (scaleNum c).m ≤ 2 ^ 6 := by
  unfold scaleNum
  dsimp only
  split <;> dsimp only <;> omega

/-- A lane's magnitude: none for an infinite one (R286). -/
def NVal.magnitude : NVal → Option (Option Num)
  | .fin x => some (some x)
  | .inf _ => some none
  | .nan => none

/-- No lane of a block exceeds 6 under a scale. -/
def NVal.fitsScale (c : ℕ) : NVal → Bool
  | .fin x => magLe x { scaleNum c with m := 6 * (scaleNum c).m }
  | .inf _ => false
  | .nan => true

def NVal.isZeroOrNaN : NVal → Bool
  | .fin x => x.m == 0
  | .inf _ => false
  | .nan => true

theorem blockScale_eq (vs : List NVal) : blockScale vs = if vs.all NVal.isZeroOrNaN then 0x60
    else ((List.range 256).find? fun c => 1 ≤ c && vs.all (NVal.fitsScale c)).getD 0xFF := by
  unfold blockScale
  simp only [List.all_filterMap]
  refine if_congr (iff_of_eq (congrArg (· = true) (congrArg vs.all (funext fun v => ?_)))) rfl
    (congrArg (fun p => (List.find? p _).getD _) (funext fun c => congrArg _ (congrArg vs.all (funext fun v => ?_))))
  · cases v <;> rfl
  · cases v <;> rfl

theorem NVal.fitsScale_iff {c : ℕ} (hc : c < 256) (v : NVal) :
    v.fitsScale c = true ↔ (∀ b, v ≠ .inf b) ∧ ∀ y, v = .fin y → y.abs ≤ 6 * e3m5Value c := by
  have hsix : ({ scaleNum c with m := 6 * (scaleNum c).m } : Num).abs = 6 * e3m5Value c := by
    rw [← scaleNum_abs hc, Num.abs, Num.abs, Nat.cast_mul, mul_assoc]
    rfl
  cases v with
  | nan => simp [NVal.fitsScale]
  | inf b => simp [NVal.fitsScale]
  | fin x => simp [NVal.fitsScale, magLe_iff, hsix]

theorem NVal.isZeroOrNaN_iff (v : NVal) : v.isZeroOrNaN = true ↔ v = .nan ∨ ∃ y, v = .fin y ∧ y.m = 0 := by
  cases v <;> simp [NVal.isZeroOrNaN]

section Block
variable {vs : List NVal}

theorem blockScale_of_zero (h : vs.all NVal.isZeroOrNaN = true) : blockScale vs = 0x60 := by
  rw [blockScale_eq, if_pos h]

variable (h : ¬vs.all NVal.isZeroOrNaN = true)
include h

/-- The scale of a block is the smallest that fits. -/
theorem blockScale_of_fits {d : ℕ} (hd : 1 ≤ d) (hlt : d < 256) (hfits : vs.all (NVal.fitsScale d) = true) :
    1 ≤ blockScale vs ∧ blockScale vs ≤ d ∧ vs.all (NVal.fitsScale (blockScale vs)) = true := by
  rw [blockScale_eq, if_neg h]
  cases hfind : (List.range 256).find? fun c => 1 ≤ c && vs.all (NVal.fitsScale c) with
  | none =>
    have hnot := List.find?_eq_none.1 hfind d (List.mem_range.2 hlt)
    simp [hd, hfits] at hnot
  | some c =>
    obtain ⟨hc, -, hmin⟩ := List.find?_range_eq_some.1 hfind
    rw [Bool.and_eq_true, decide_eq_true_iff] at hc
    refine ⟨hc.1, not_lt.1 fun hlt => ?_, hc.2⟩
    have hnot := hmin d hlt
    simp [hd, hfits] at hnot

theorem blockScale_of_none (hnone : ∀ d, 1 ≤ d → d < 256 → ¬vs.all (NVal.fitsScale d) = true) : blockScale vs = 0xFF := by
  have hfind : (List.range 256).find? (fun c => 1 ≤ c && vs.all (NVal.fitsScale c)) = none := by
    refine List.find?_eq_none.2 fun d hd hp => ?_
    rw [Bool.and_eq_true, decide_eq_true_iff] at hp
    exact hnone d hp.1 (List.mem_range.1 hd) hp.2
  rw [blockScale_eq, if_neg h, hfind]
  rfl

end Block

theorem blockScale_range (vs : List NVal) : 1 ≤ blockScale vs ∧ blockScale vs < 256 := by
  by_cases h : vs.all NVal.isZeroOrNaN = true
  · rw [blockScale_of_zero h]
    decide
  · by_cases hfits : ∃ d, 1 ≤ d ∧ d < 256 ∧ vs.all (NVal.fitsScale d) = true
    · obtain ⟨d, hd, hlt, hfits⟩ := hfits
      obtain ⟨h1, hle, -⟩ := blockScale_of_fits h hd hlt hfits
      exact ⟨h1, hle.trans_lt hlt⟩
    · rw [blockScale_of_none h fun d hd hlt hf => hfits ⟨d, hd, hlt, hf⟩]
      decide

/-! ### Lanes divided by a scale -/

theorem scaledE2M1_lt (c : ℕ) (v : NVal) : scaledE2M1 c v < 2 ^ 4 := by
  cases v <;> exact narrowTo_lt 4 ..

theorem scaledE2M1_inf (c : ℕ) (b : Bool) : scaledE2M1 c (.inf b) = if b = true then 0xF else 7 := by
  cases b <;> rfl

theorem nfOf_four : nfOf 4 = nfE2M1 := rfl

/-- A lane is divided by its scale and rounded once (R286). -/
theorem scaledE2M1_narrows {c : ℕ} (hc : 1 ≤ c) (hlt : c < 256) (y : Num) :
    ({ eb := 2, mb := 1 } : Fmt).Narrows 7 .rne 0 y.neg (y.abs / e3m5Value c) (if y.neg = true then 0xF else 7) (scaledE2M1 c (.fin y)) := by
  have hfar : (if y.neg = true then 0xF else 7) = nfE2M1.beyond .rne false y.neg := by cases y.neg <;> rfl
  rw [hfar, ← scaleNum_abs hlt]
  by_cases hy : y.m = 0
  · have hcode : scaledE2M1 c (.fin y) = narrowFloat nfE2M1 .rne false 0 (.fin y) := by
      rw [scaledE2M1, if_pos hy, narrowTo_float (by decide), nfOf_four]
    have hp : y.abs / (scaleNum c).abs = y.abs := by rw [y.abs_of_zero hy, zero_div]
    rw [hcode, hp]
    exact narrowFloat_narrows nfE2M1 (by decide) .rne false (by decide) y
  · have hcode : scaledE2M1 c (.fin y) = narrowFloat nfE2M1 .rne false 0 (.fin (divNum y (scaleNum c))) := by
      rw [scaledE2M1, if_neg hy, narrowTo_float (by decide), nfOf_four]
    have hneg : (divNum y (scaleNum c)).neg = y.neg := by
      unfold divNum scaleNum
      dsimp only
      split <;> exact Bool.bne_false _
    rw [hcode, ← hneg]
    exact (divNum_stands (scaleNum_pos hc hlt) (scaleNum_le c) (by decide)).narrows
      (narrowFloat_narrows nfE2M1 (by decide) .rne false (by decide) _)

/-! ### The vector of `bscale` -/

section Quantize
variable (v : Vec)

/-- The lanes of a block of `bscale`. -/
def scaleBlock (j : ℕ) : List NVal := (List.range 8).map fun i => elemValue 6 (lane v 32 (8 * j + i))

theorem blockQuantize_eq : blockQuantize v = packLanes 4 ((scaleBlock v 0).map (scaledE2M1 (blockScale (scaleBlock v 0)))
    ++ (scaleBlock v 1).map (scaledE2M1 (blockScale (scaleBlock v 1)))
    ++ [blockScale (scaleBlock v 0) % 16, blockScale (scaleBlock v 0) / 16, blockScale (scaleBlock v 1) % 16, blockScale (scaleBlock v 1) / 16]) := by
  have htake : ((lanes v 32).map (elemValue 6)).take 8 = scaleBlock v 0 := rfl
  have hdrop : ((lanes v 32).map (elemValue 6)).drop 8 = scaleBlock v 1 := rfl
  unfold blockQuantize
  dsimp only
  rw [htake, hdrop]

theorem blockQuantize_toNat_lt : (blockQuantize v).toNat < 2 ^ 80 := by
  rw [blockQuantize_eq]
  exact packLanes_toNat_lt (n := 20) (by simp [scaleBlock])

section Halves
variable {α : Type} {l m r : List α} {z : α}

theorem getD_append_first (hl : l.length = 8) {i : ℕ} (hi : i < 8) : (l ++ m ++ r).getD i z = l.getD i z := by
  rw [List.getD_append _ _ _ _ (by simp; omega), List.getD_append _ _ _ _ (by omega)]

theorem getD_append_second (hl : l.length = 8) (hm : m.length = 8) {i : ℕ} (hi : i < 8) : (l ++ m ++ r).getD (8 + i) z = m.getD i z := by
  rw [List.getD_append _ _ _ _ (by simp; omega), List.getD_append_right _ _ _ _ (by omega), hl, Nat.add_sub_cancel_left]

theorem getD_append_third (hl : l.length = 8) (hm : m.length = 8) (i : ℕ) : (l ++ m ++ r).getD (16 + i) z = r.getD i z := by
  rw [List.getD_append_right _ _ _ _ (by simp; omega), List.length_append, hl, hm, Nat.add_sub_cancel_left]

end Halves

theorem scaleBlock_map_length {α : Type} (j : ℕ) (f : NVal → α) : ((scaleBlock v j).map f).length = 8 := by simp [scaleBlock]

theorem scaleBlock_map_getD (j : ℕ) (f : NVal → ℕ) {i : ℕ} (hi : i < 8) :
    ((scaleBlock v j).map f).getD i 0 = f (elemValue 6 (lane v 32 (8 * j + i))) := by
  rw [scaleBlock, List.map_map, getD_map_range _ 0 hi]
  rfl

/-- The lanes of a block hold its elements divided by its scale. -/
theorem lane_blockQuantize {i j : ℕ} (hi : i < 8) (hj : j < 2) :
    lane (blockQuantize v) 4 (8 * j + i) = scaledE2M1 (blockScale (scaleBlock v j)) (elemValue 6 (lane v 32 (8 * j + i))) := by
  rw [blockQuantize_eq, lane_packLanes (by simp [scaleBlock])]
  obtain rfl | rfl : j = 0 ∨ j = 1 := by omega
  · rw [Nat.mul_zero, Nat.zero_add, getD_append_first (scaleBlock_map_length v 0 _) hi, scaleBlock_map_getD v 0 _ hi, Nat.mul_zero, Nat.zero_add,
      Nat.mod_eq_of_lt (scaledE2M1_lt _ _)]
  · rw [Nat.mul_one, getD_append_second (scaleBlock_map_length v 0 _) (scaleBlock_map_length v 1 _) hi, scaleBlock_map_getD v 1 _ hi,
      Nat.mod_eq_of_lt (scaledE2M1_lt _ _)]

/-- A byte of a vector is two lanes of four bits. -/
theorem nfld_byte (r : Vec) (k : ℕ) : nfld r (4 * k) 8 = lane r 4 k + 16 * lane r 4 (k + 1) := by
  rw [lane, lane, nfld_eq, nfld_eq, nfld_eq, Nat.mul_add, pow_add, ← Nat.div_div_eq_div_mul]
  omega

/-- The scales stand above the lanes. -/
theorem blockQuantize_scale {j : ℕ} (hj : j < 2) : nfld (blockQuantize v) (64 + 8 * j) 8 = blockScale (scaleBlock v j) := by
  have hlt := (blockScale_range (scaleBlock v j)).2
  rw [show 64 + 8 * j = 4 * (16 + 2 * j) by omega, nfld_byte, blockQuantize_eq, lane_packLanes (by simp [scaleBlock]), lane_packLanes (by simp [scaleBlock]),
    add_assoc, getD_append_third (scaleBlock_map_length v 0 _) (scaleBlock_map_length v 1 _),
    getD_append_third (scaleBlock_map_length v 0 _) (scaleBlock_map_length v 1 _)]
  obtain rfl | rfl : j = 0 ∨ j = 1 := by omega
  · change blockScale (scaleBlock v 0) % 16 % 16 + 16 * (blockScale (scaleBlock v 0) / 16 % 16) = _
    omega
  · change blockScale (scaleBlock v 1) % 16 % 16 + 16 * (blockScale (scaleBlock v 1) / 16 % 16) = _
    omega

theorem scaleBlock_all (j : ℕ) (p : NVal → Bool) : (scaleBlock v j).all p = true ↔ ∀ i < 8, p (elemValue 6 (lane v 32 (8 * j + i))) = true := by
  simp [scaleBlock]

end Quantize

end Sys2Proof.Machine
end

section
/-! PROOFS. The number conversions: O22. -/

namespace Sys2Proof.Machine

/-- The bits of an element, as R260 gives them. -/
theorem tagBits_eq {tag : ℕ} (h : tag < 8) :
    (if tag = 0 ∨ tag = 1 then 16 else if tag = 4 then 4 else if tag = 6 ∨ tag = 7 then 32 else 8) = tagBits tag := by
  interval_cases tag <;> rfl

/-- A conversion that rounds stochastically fires on its turn. -/
theorem exec_cvtN_sr {pr : Pred} {tag : BitVec 3} {sat : Bool} {t0 t1 : Target} {s : State} {a : Acting} {v : Vec} {src : BitVec 3}
    (h : Fires s (.cvtN pr tag .sr sat t0 t1) a) (hl : a.fr.opL a.k = .vec v src) (hturn : a.srTurn = true) :
    let ws := srWords ((cvtLanes src.toNat + 3) / 4) a.srState
    exec (.cvtN pr tag .sr sat t0 t1) s = .next (a.commit s
      (({ a.fr.fire a.k with srng := a.fr.srng ++ [(a.k, ws.getD ((cvtLanes src.toNat + 3) / 4 - 1) 0)] } : Frame).send
        (targetsOf (.cvtN pr tag .sr sat t0 t1)) (.vec (cvtNarrow tag.toNat .sr sat ws v src.toNat) tag))) := by
  obtain ⟨hact, hcan⟩ := h
  simp only [exec_cvtN, execCvtN, if_true, hact, hcan, hl, hturn]
  simp [Frame.finish, Result.ok, Frame.fire]

section Conversions
variable {pr : Pred} {tag : BitVec 3} {t0 t1 : Target} {s : State} {a : Acting} {v : Vec} {src : BitVec 3} (hl : a.fr.opL a.k = .vec v src)
include hl

theorem exec_cvtN_plain {rm : NRound} {sat : Bool} (hrm : rm ≠ .sr) (h : Fires s (.cvtN pr tag rm sat t0 t1) a) :
    exec (.cvtN pr tag rm sat t0 t1) s
      = .next (a.sends s (.cvtN pr tag rm sat t0 t1) (.vec (cvtNarrow tag.toNat rm sat [] v src.toNat) tag) 0) := by
  refine exec_of_values (f := fun a => .ok (.vec (cvtNarrow tag.toNat rm sat [] (a.fr.opL a.k).vector (a.fr.opL a.k).tag.toNat) tag))
    (fun s => by rw [exec_cvtN, execCvtN, if_neg hrm]) h ?_ (by rw [hl]; rfl)
  simp [Frame.operands, slotsOf, badOperand, hl]

theorem exec_cvtW_value (h : Fires s (.cvtW pr tag t0 t1) a) :
    exec (.cvtW pr tag t0 t1) s = .next (a.sends s (.cvtW pr tag t0 t1) (.vec (cvtWiden tag.toNat v src.toNat) tag) 0) := by
  refine exec_of_values (exec_cvtW pr tag t0 t1) h ?_ (by rw [hl]; rfl)
  simp [Frame.operands, slotsOf, badOperand, hl]

theorem exec_bscale_value (h : Fires s (.bscale pr t0 t1) a) :
    exec (.bscale pr t0 t1) s = .next (a.sends s (.bscale pr t0 t1) (.vec (blockQuantize v) 4) 0) := by
  refine exec_of_values (exec_bscale pr t0 t1) h ?_ (by rw [hl]; rfl)
  simp [Frame.operands, slotsOf, badOperand, hl]

end Conversions

/-- What `cvt.n` sends, its random bits taken from the chain of R270. -/
theorem cvtNarrow_spec {dst src : ℕ} (rm : NRound) (sat : Bool) (v : Vec) {st : Word} {w : ℕ → Word} (hdst : dst < 6) (h0 : w 0 = st)
    (hstep : ∀ t, w (t + 1) = srStep (w t)) : let ws := srWords ((cvtLanes src + 3) / 4) st
    (∀ i < cvtLanes src, lane (cvtNarrow dst rm sat ws v src) (tagBits dst) i = narrowTo dst rm sat (nfld (w (i / 4 + 1)) (16 * (i % 4)) 16)
      (elemValue (if cvtLanes src = 32 then src else 6) (lane v (512 / cvtLanes src) i)))
    ∧ (cvtNarrow dst rm sat ws v src).toNat < 2 ^ (cvtLanes src * tagBits dst)
    ∧ ws.getD ((cvtLanes src + 3) / 4 - 1) 0 = w (cvtLanes src / 4)
    ∧ (rm ≠ .sr → cvtNarrow dst rm sat [] v src = cvtNarrow dst rm sat ws v src) := by
  have hn : cvtLanes src = 32 ∨ cvtLanes src = 16 := by unfold cvtLanes; split <;> simp
  refine ⟨fun i hi => ?_, cvtNarrow_toNat_lt, ?_, fun hrm => cvtNarrow_of_ne_sr hrm ..⟩
  · rw [lane_cvtNarrow hdst hi, srLane, srWords_getD h0 hstep _ (by omega)]
  · rw [srWords_getD h0 hstep _ (by omega)]
    congr 1
    omega

/-- What `bscale` sends. -/
theorem blockQuantize_spec (v : Vec) {j : ℕ} (hj : j < 2) :
    let r := blockQuantize v
    let x := fun (i : ℕ) => elemValue 6 (lane v 32 (8 * j + i))
    let c := nfld r (64 + 8 * j) 8
    let fits := fun (c : ℕ) => ∀ i < 8, (∀ b, x i ≠ .inf b) ∧ ∀ y, x i = .fin y → y.abs ≤ 6 * e3m5Value c
    let zero := ∀ i < 8, x i = .nan ∨ ∃ y, x i = .fin y ∧ y.m = 0
    r.toNat < 2 ^ 80 ∧ (zero → c = 0x60)
    ∧ (¬zero → ∀ d, 1 ≤ d → d < 256 → fits d → 1 ≤ c ∧ c ≤ d ∧ fits c)
    ∧ (¬zero → (∀ d, 1 ≤ d → d < 256 → ¬fits d) → c = 0xFF)
    ∧ ∀ i < 8, let code := lane r 4 (8 * j + i)
      (x i = .nan → code = 0) ∧ (∀ b, x i = .inf b → code = if b = true then 0xF else 7)
      ∧ ∀ y, x i = .fin y → ({ eb := 2, mb := 1 } : Fmt).Narrows 7 .rne 0 y.neg (y.abs / e3m5Value c)
        (if y.neg = true then 0xF else 7) code := by
  intro r x c fits zero
  have hc : c = blockScale (scaleBlock v j) := blockQuantize_scale v hj
  obtain ⟨hc1, hclt⟩ := blockScale_range (scaleBlock v j)
  have hfits {d : ℕ} (hd : d < 256) : (scaleBlock v j).all (NVal.fitsScale d) = true ↔ fits d := by
    simp only [scaleBlock_all, NVal.fitsScale_iff hd]
    rfl
  have hzero : (scaleBlock v j).all NVal.isZeroOrNaN = true ↔ zero := by
    simp only [scaleBlock_all, NVal.isZeroOrNaN_iff]
    rfl
  clear_value c fits zero
  subst hc
  refine ⟨blockQuantize_toNat_lt v, fun hz => blockScale_of_zero (hzero.2 hz), fun hz d hd hlt hf => ?_, fun hz hnone => ?_, fun i hi => ?_⟩
  · obtain ⟨h1, hle, hall⟩ := blockScale_of_fits (fun h => hz (hzero.1 h)) hd hlt ((hfits hlt).2 hf)
    exact ⟨h1, hle, (hfits hclt).1 hall⟩
  · exact blockScale_of_none (fun h => hz (hzero.1 h)) fun d hd hlt hall => hnone d hd hlt ((hfits hlt).1 hall)
  · have hlane : lane r 4 (8 * j + i) = scaledE2M1 (blockScale (scaleBlock v j)) (x i) := lane_blockQuantize v hi hj
    rw [hlane]
    refine ⟨fun hx => ?_, fun b hx => ?_, fun y hx => ?_⟩
    · rw [hx]
      rfl
    · rw [hx, scaledE2M1_inf]
    · rw [hx]
      exact scaledE2M1_narrows hc1 hclt y

/-- Settles O22: a conversion packs the codes that its lanes narrow to, each rounded once. -/
theorem conversionsComplete : Obligations.ConversionsComplete := by
  refine ⟨fun pr tag rm sat t0 t1 s a v src hl => ⟨exec_cvtN_plain hl, fun h => exec_cvtN_sr h hl, exec_cvtW_value hl, exec_bscale_value hl⟩,
    ⟨fun tag eb mb top far nan hrow => ?_, fun rm sat rnd c x hrnd => ⟨rfl, rfl, rfl, narrowInt_spec hrnd⟩, fun x => elemValue_int⟩,
    fun dst src rm sat v st w hdst hsrc => ?_, fun dst src v hdst hsrc i hi => ?_, fun v j => blockQuantize_spec v⟩
  case refine_1 =>
    obtain ⟨htag, hF, htop, hnan, hmb, hbeyond, hinf, hfar⟩ := conversion_formats tag eb mb top far nan hrow
    exact ⟨fun rm sat neg rnd x hrnd => ⟨narrowTo_nan htag hnan rm sat, narrowTo_inf htag hbeyond rm sat neg,
      narrowTo_narrows htag hF htop hmb hbeyond rm sat x hrnd⟩, fun neg m hm => elemValue_row htag hF htop hinf hfar neg hm⟩
  case refine_2 =>
    dsimp only
    rw [tagBits_eq (hdst.trans (by decide))]
    exact fun h0 hstep => cvtNarrow_spec rm sat v hdst h0 hstep
  case refine_3 =>
    have hdst8 : dst < 8 := by omega
    simp only [tagBits_eq hsrc, tagBits_eq hdst8]
    exact lane_cvtWiden hdst v hi

end Sys2Proof.Machine
end

section
/-! PROOFS. The shapes of the float instructions: what they compute with, and their lanes and flags (R82, R83). -/

namespace Sys2Proof.Machine

/-! ### The flags of all elements -/

theorem foldl_or_getLsbD (l : List FFlags) (fl : FFlags) (b : ℕ) :
    (l.foldl (· ||| ·) fl).getLsbD b = true ↔ fl.getLsbD b = true ∨ ∃ x ∈ l, x.getLsbD b = true := by
  induction l generalizing fl with
  | nil => simp
  | cons x l ih =>
    rw [List.foldl_cons, ih, BitVec.getLsbD_or, Bool.or_eq_true, or_assoc]
    simp

theorem orFlags_getLsbD (l : List FFlags) (b : ℕ) : (orFlags l).getLsbD b = true ↔ ∃ x ∈ l, x.getLsbD b = true := by
  rw [orFlags, foldl_or_getLsbD]
  simp

/-! ### Scalars -/

/-- A scalar operation acts on its one element. -/
theorem fpMap_scalar {ty : Ty} (hty : tyIsVec ty = false) (f : List ℕ → ℕ × FFlags) (x y : Word) :
    let xy := [x.toNat % 2 ^ (tyFmt ty).bits, y.toNat % 2 ^ (tyFmt ty).bits]
    (fpMap ty f [.val x, .val y]).tok = .val (BitVec.ofNat 64 (f xy).1) ∧ (fpMap ty f [.val x, .val y]).flags = (f xy).2 := by
  constructor
  · simp [fpMap, tyToken, tyElems, hty, Token.word]
  · simp [fpMap, tyElems, hty, orFlags, Token.word]

/-! ### Vectors -/

section Vectors
variable {ty : Ty} (hty : tyIsVec ty = true) (f : List ℕ → ℕ × FFlags) (u z : Vec) (tu tz : BitVec 3)
include hty

/-- The results of the lanes of two vectors. -/
theorem fpMap_lanes : (List.range (512 / (tyFmt ty).bits)).map (fun i => f ([Token.vec u tu, .vec z tz].map (tyElems ty) |>.map fun c => c.getD i 0))
    = (List.range (512 / (tyFmt ty).bits)).map fun i => f [lane u (tyFmt ty).bits i, lane z (tyFmt ty).bits i] := by
  refine List.map_congr_left fun i hi => congrArg f ?_
  have hget (v : Vec) (t : BitVec 3) : (tyElems ty (.vec v t)).getD i 0 = lane v (tyFmt ty).bits i := by
    rw [tyElems, if_pos hty, Token.vector, lanes_getD, if_pos (List.mem_range.1 hi)]
  simp only [List.map_cons, List.map_nil, hget]

theorem fpMap_vector : fpMap ty f [.vec u tu, .vec z tz] =
    let rs := (List.range (512 / (tyFmt ty).bits)).map fun i => f [lane u (tyFmt ty).bits i, lane z (tyFmt ty).bits i]
    { tok := .vec (packLanes (tyFmt ty).bits (rs.map Prod.fst)) (tyTag ty), flags := orFlags (rs.map Prod.snd), fault := none } := by
  have h := fpMap_lanes hty f u z tu tz
  simp only [fpMap, tyToken, hty, if_true]
  rw [h]

/-- An operation on vectors acts on each lane. -/
theorem fpMap_vector_lanes {n k : ℕ} (hn : (tyFmt ty).bits = n) (hk : 512 / n = k) :
    ∃ v, (fpMap ty f [.vec u tu, .vec z tz]).tok = .vec v (tyTag ty) ∧ (∀ i < k, lane v n i = (f [lane u n i, lane z n i]).1 % 2 ^ n)
      ∧ ∀ b < 5, ((fpMap ty f [.vec u tu, .vec z tz]).flags.getLsbD b = true ↔ ∃ i < k, (f [lane u n i, lane z n i]).2.getLsbD b = true) := by
  subst hn hk
  rw [fpMap_vector hty]
  refine ⟨_, rfl, fun i hi => ?_, fun b _ => ?_⟩
  · rw [lane_packLanes (by simpa using Nat.mul_div_le 512 _), List.map_map, getD_map_range _ 0 hi]
    rfl
  · rw [orFlags_getLsbD]
    simp

end Vectors

/-- An operation on 64-bit scalars acts on their words. -/
theorem fpMap_double (f : List ℕ → ℕ × FFlags) (x y : Word) : (fpMap .d f [.val x, .val y]).tok = .val (BitVec.ofNat 64 (f [x.toNat, y.toNat]).1)
    ∧ (fpMap .d f [.val x, .val y]).flags = (f [x.toNat, y.toNat]).2 := by
  have hwords : [x.toNat % 2 ^ (tyFmt .d).bits, y.toNat % 2 ^ (tyFmt .d).bits] = [x.toNat, y.toNat] := by
    change [x.toNat % 2 ^ 64, y.toNat % 2 ^ 64] = _
    rw [Nat.mod_eq_of_lt x.isLt, Nat.mod_eq_of_lt y.isLt]
  have h := fpMap_scalar (ty := .d) rfl f x y
  rwa [hwords] at h

end Sys2Proof.Machine
end

section
/-! PROOFS. Codes of float operands: flushing and turning their sign (R84, R87). -/

namespace Sys2Proof.Machine

section Codes
variable {F : Fmt}

theorem Fmt.mag_lt (x : ℕ) : F.mag x < 2 ^ (F.eb + F.mb) := Nat.mod_lt _ (Nat.two_pow_pos _)

/-- A code is its sign in front of its magnitude. -/
theorem Fmt.signed_neg_mag {x : ℕ} (h : x < 2 ^ F.bits) : F.signed (F.neg x) (F.mag x) = x := by
  have hpow : 2 ^ F.bits = 2 * 2 ^ (F.eb + F.mb) := by rw [Fmt.bits, add_assoc, pow_add, pow_one]
  have hq : x / 2 ^ (F.eb + F.mb) < 2 := Nat.div_lt_of_lt_mul (by rwa [mul_comm, ← hpow])
  have hdiv := Nat.div_add_mod x (2 ^ (F.eb + F.mb))
  unfold Fmt.signed Fmt.neg Fmt.mag
  generalize x / 2 ^ (F.eb + F.mb) = q at hq hdiv ⊢
  obtain rfl | rfl : q = 0 ∨ q = 1 := by omega
  · simpa using hdiv
  · simpa [add_comm] using hdiv

theorem Fmt.eq_signed_inf {x : ℕ} (hx : x < 2 ^ F.bits) (h : F.isInf x = true) : x = F.signed (F.neg x) F.inf := by
  conv_lhs => rw [← Fmt.signed_neg_mag hx, Fmt.isInf_iff.1 h]

theorem Fmt.isNaN_congr {x y : ℕ} (h : F.mag x = F.mag y) : F.isNaN x = F.isNaN y := by rw [Fmt.isNaN, Fmt.isNaN, h]
theorem Fmt.isInf_congr {x y : ℕ} (h : F.mag x = F.mag y) : F.isInf x = F.isInf y := by rw [Fmt.isInf, Fmt.isInf, h]
theorem Fmt.isZero_congr {x y : ℕ} (h : F.mag x = F.mag y) : F.isZero x = F.isZero y := by rw [Fmt.isZero, Fmt.isZero, h]
theorem Fmt.isSub_congr {x y : ℕ} (h : F.mag x = F.mag y) : F.isSub x = F.isSub y := by rw [Fmt.isSub, Fmt.isSub, h]
theorem Fmt.isSNaN_congr {x y : ℕ} (h : F.mag x = F.mag y) : F.isSNaN x = F.isSNaN y := by rw [Fmt.isSNaN, Fmt.isSNaN, Fmt.isNaN_congr h, h]

/-! ### The turned sign -/

@[simp] theorem Fmt.mag_flip (x : ℕ) : F.mag (F.flip x) = F.mag x := Fmt.mag_signed _ (F.mag_lt x)
@[simp] theorem Fmt.neg_flip (x : ℕ) : F.neg (F.flip x) = !F.neg x := Fmt.neg_signed _ (F.mag_lt x)
@[simp] theorem Fmt.isNaN_flip (x : ℕ) : F.isNaN (F.flip x) = F.isNaN x := Fmt.isNaN_congr (F.mag_flip x)
@[simp] theorem Fmt.isInf_flip (x : ℕ) : F.isInf (F.flip x) = F.isInf x := Fmt.isInf_congr (F.mag_flip x)
@[simp] theorem Fmt.isSub_flip (x : ℕ) : F.isSub (F.flip x) = F.isSub x := Fmt.isSub_congr (F.mag_flip x)
@[simp] theorem Fmt.isSNaN_flip (x : ℕ) : F.isSNaN (F.flip x) = F.isSNaN x := Fmt.isSNaN_congr (F.mag_flip x)

theorem Fmt.flip_lt (x : ℕ) : F.flip x < 2 ^ F.bits := Fmt.signed_lt _ (F.mag_lt x)

theorem Num.val_eq (x : Num) : x.val = if x.neg = true then -x.abs else x.abs := rfl

@[simp] theorem Num.abs_val (x : Num) : |x.val| = x.abs := by
  rw [x.val_eq]
  split
  · rw [abs_neg, abs_of_nonneg x.abs_nonneg]
  · rw [abs_of_nonneg x.abs_nonneg]

theorem Fmt.val_eq (x : ℕ) : (F.num x).val = if F.neg x = true then -F.grid (F.mag x) else F.grid (F.mag x) := by
  rw [Num.val_eq, Fmt.num_abs, Fmt.num_neg]

theorem Fmt.val_flip (x : ℕ) : (F.num (F.flip x)).val = -(F.num x).val := by
  rw [Fmt.val_eq, Fmt.val_eq, Fmt.neg_flip, Fmt.mag_flip]
  cases F.neg x <;> simp

theorem Fmt.val_eq_zero_iff (x : ℕ) : (F.num x).val = 0 ↔ F.isZero x = true := by
  have hgrid : F.grid (F.mag x) = 0 ↔ F.mag x = 0 := by
    rw [← Fmt.grid_zero (F := F)]
    exact Fmt.grid_strictMono.injective.eq_iff
  rw [Fmt.val_eq, Fmt.isZero_iff]
  split
  · rw [neg_eq_zero, hgrid]
  · exact hgrid

/-- The units of a code in its binade have one bit more than its mantissa. -/
theorem Fmt.num_m_lt (x : ℕ) : (F.num x).m < 2 ^ (F.mb + 1) := by
  have hmod : F.mag x % 2 ^ F.mb < 2 ^ F.mb := Nat.mod_lt _ (Nat.two_pow_pos _)
  have hpow : 2 ^ (F.mb + 1) = 2 * 2 ^ F.mb := pow_succ' _ _
  unfold Fmt.num
  dsimp only
  split <;> dsimp only <;> omega

theorem Num.m_ne_zero_of_val {x : Num} (h : x.val ≠ 0) : x.m ≠ 0 := by
  intro hm
  rw [Num.val_eq, x.abs_of_zero hm] at h
  simp at h

/-! ### Flushing -/

section Flush
variable (heb : 0 < F.eb) (ftz : Bool)

@[simp] theorem Fmt.neg_flush (x : ℕ) : F.neg (F.flush ftz x) = F.neg x := by
  unfold Fmt.flush
  split
  · exact Fmt.neg_signed _ (Nat.two_pow_pos _)
  · rfl

theorem Fmt.mag_flush (x : ℕ) : F.mag (F.flush ftz x) = if (ftz && F.isSub x) = true then 0 else F.mag x := by
  unfold Fmt.flush
  split
  · exact Fmt.mag_signed _ (Nat.two_pow_pos _)
  · rfl

theorem Fmt.flush_lt {x : ℕ} (h : x < 2 ^ F.bits) : F.flush ftz x < 2 ^ F.bits := by
  unfold Fmt.flush
  split
  · exact Fmt.signed_lt _ (Nat.two_pow_pos _)
  · exact h

theorem Fmt.flush_of_not_sub {x : ℕ} (h : F.isSub x = false) : F.flush ftz x = x := by
  rw [Fmt.flush, h, Bool.and_false, if_neg Bool.false_ne_true]

include heb in
theorem Fmt.isSub_of_inf_le {x : ℕ} (h : F.inf ≤ F.mag x) : F.isSub x = false := by
  have hle := Fmt.two_pow_mb_le_inf heb
  rw [Bool.eq_false_iff, ne_eq, Fmt.isSub_iff]
  omega

include heb in
theorem Fmt.flush_of_isInf {x : ℕ} (h : F.isInf x = true) : F.flush ftz x = x :=
  Fmt.flush_of_not_sub ftz (Fmt.isSub_of_inf_le heb (Fmt.isInf_iff.1 h).ge)

include heb in
theorem Fmt.flush_of_isNaN {x : ℕ} (h : F.isNaN x = true) : F.flush ftz x = x :=
  Fmt.flush_of_not_sub ftz (Fmt.isSub_of_inf_le heb (Fmt.isNaN_iff.1 h).le)

include heb in
/-- What flushing changes lies below infinity, and becomes zero. -/
theorem Fmt.flush_cases (x : ℕ) : F.flush ftz x = x ∨ (F.mag x < F.inf ∧ F.mag (F.flush ftz x) = 0) := by
  by_cases h : (ftz && F.isSub x) = true
  · rw [Fmt.mag_flush, if_pos h]
    rw [Bool.and_eq_true, Fmt.isSub_iff] at h
    exact .inr ⟨h.2.2.trans_le (Fmt.two_pow_mb_le_inf heb), rfl⟩
  · exact .inl (if_neg h)

include heb in
theorem Fmt.inf_pos : 0 < F.inf := (Nat.two_pow_pos _).trans_le (Fmt.two_pow_mb_le_inf heb)

include heb in
theorem Fmt.isNaN_flush (x : ℕ) : F.isNaN (F.flush ftz x) = F.isNaN x := by
  rcases F.flush_cases heb ftz x with h | ⟨hlt, hzero⟩
  · rw [h]
  · rw [Fmt.isNaN, Fmt.isNaN, hzero, decide_eq_false (not_lt.2 (Nat.zero_le _)), decide_eq_false (not_lt.2 hlt.le)]

include heb in
theorem Fmt.isInf_flush (x : ℕ) : F.isInf (F.flush ftz x) = F.isInf x := by
  rcases F.flush_cases heb ftz x with h | ⟨hlt, hzero⟩
  · rw [h]
  · rw [Fmt.isInf, Fmt.isInf, hzero, beq_false_of_ne hlt.ne, beq_false_of_ne (Fmt.inf_pos heb).ne]

include heb in
theorem Fmt.isSNaN_flush (x : ℕ) : F.isSNaN (F.flush ftz x) = F.isSNaN x := by
  rcases F.flush_cases heb ftz x with h | ⟨hlt, hzero⟩
  · rw [h]
  · have hnan := F.isNaN_flush heb ftz x
    have hfalse : F.isNaN x = false := decide_eq_false (not_lt.2 hlt.le)
    rw [Fmt.isSNaN, Fmt.isSNaN, hnan, hfalse, Bool.false_and, Bool.false_and]

theorem Fmt.flush_flip (x : ℕ) : F.flush ftz (F.flip x) = F.flip (F.flush ftz x) := by
  unfold Fmt.flush
  rw [Fmt.isSub_flip, Fmt.neg_flip]
  split
  · rw [Fmt.flip, Fmt.neg_signed _ (Nat.two_pow_pos _), Fmt.mag_signed _ (Nat.two_pow_pos _)]
  · rfl

end Flush

/-- An infinite operand is not a zero, and a zero is not infinite. -/
theorem Fmt.isZero_of_isInf (heb : 0 < F.eb) {x : ℕ} (h : F.isInf x = true) : F.isZero x = false := by
  rw [Fmt.isZero, Fmt.isInf_iff.1 h]
  exact beq_false_of_ne (Fmt.inf_pos heb).ne'

theorem Fmt.isInf_of_isNaN {x : ℕ} (h : F.isNaN x = true) : F.isInf x = false := by
  rw [Fmt.isInf]
  exact beq_false_of_ne (Fmt.isNaN_iff.1 h).ne'

theorem Fmt.isNaN_of_isInf {x : ℕ} (h : F.isInf x = true) : F.isNaN x = false := by
  rw [Fmt.isNaN, Fmt.isInf_iff.1 h]
  exact decide_eq_false (lt_irrefl _)

/-- The flags of a NaN result: NV for a signalling operand. -/
theorem nvOf_eq (xs : List ℕ) : nvOf F xs = if ∃ x ∈ xs, F.isSNaN x = true then flagNV else 0 := by
  simp [nvOf]

end Codes

end Sys2Proof.Machine
end

section
/-! PROOFS. The exact sum, product and square root (R87). -/

namespace Sys2Proof.Machine

/-! ### Sums -/

/-- A number with its sign, in whole units. -/
def Num.signedUnits (x : Num) (u : ℤ) : ℤ := (if x.neg then -1 else 1 : ℤ) * (x.m * 2 ^ (x.e - u).toNat)

theorem Num.val_signedUnits {x : Num} {u : ℤ} (h : u ≤ x.e) : x.val = x.signedUnits u * 2 ^ u := by
  have habs : x.abs = ((x.m * 2 ^ (x.e - u).toNat : ℕ) : ℚ) * 2 ^ u := by rw [x.abs_eq_units u, Num.units_of_le h]
  rw [Num.val_eq, habs, Num.signedUnits]
  split <;> push_cast <;> ring

section Sum
variable (rm : RM) (x y : Num)

/-- The units of an exact sum. -/
def sumExp : ℤ := if x.e ≤ y.e then x.e else y.e

/-- An exact sum in those units. -/
def sumUnits : ℤ := x.signedUnits (sumExp x y) + y.signedUnits (sumExp x y)

theorem add_val : x.val + y.val = sumUnits x y * 2 ^ sumExp x y := by
  have hx : sumExp x y ≤ x.e := by unfold sumExp; split <;> omega
  have hy : sumExp x y ≤ y.e := by unfold sumExp; split <;> omega
  rw [Num.val_signedUnits hx, Num.val_signedUnits hy, sumUnits, Int.cast_add, add_mul]

theorem addNum_eq : addNum rm x y = if sumUnits x y = 0 then { neg := if x.neg = y.neg then x.neg else rm == .rdn, m := 0, e := sumExp x y }
    else { neg := sumUnits x y < 0, m := (sumUnits x y).natAbs, e := sumExp x y } := rfl

variable {x y}

theorem sumUnits_eq_zero_iff : sumUnits x y = 0 ↔ x.val + y.val = 0 := by
  rw [add_val, mul_eq_zero, or_iff_left (two_zpow_pos _).ne', Int.cast_eq_zero]

theorem addNum_zero (h : x.val + y.val = 0) : (addNum rm x y).m = 0 ∧ (addNum rm x y).neg = if x.neg = y.neg then x.neg else rm == .rdn := by
  rw [addNum_eq, if_pos (sumUnits_eq_zero_iff.2 h)]
  exact ⟨rfl, rfl⟩

theorem addNum_nonzero (h : x.val + y.val ≠ 0) : (addNum rm x y).neg = decide (x.val + y.val < 0) ∧ (addNum rm x y).abs = |x.val + y.val| := by
  rw [addNum_eq, if_neg (mt sumUnits_eq_zero_iff.1 h), add_val]
  constructor
  · refine decide_eq_decide.2 ?_
    have hpos := two_zpow_pos (sumExp x y)
    refine ⟨fun h => mul_neg_of_neg_of_pos (Int.cast_lt_zero.2 h) hpos, fun h => not_le.1 fun hn => ?_⟩
    exact absurd h (not_lt.2 (mul_nonneg (Int.cast_nonneg hn) hpos.le))
  · rw [Num.abs, abs_mul, abs_of_pos (two_zpow_pos _), Nat.cast_natAbs, Int.cast_abs]

end Sum

/-! ### Products -/

section Product
variable (x y : Num)

theorem mulNum_abs : (mulNum x y).abs = x.abs * y.abs := by
  simp only [mulNum, Num.abs]
  rw [zpow_add₀ two_ne_zero]
  push_cast
  ring

theorem mulNum_val : (mulNum x y).val = x.val * y.val := by
  have hneg : (mulNum x y).neg = (x.neg != y.neg) := rfl
  rw [Num.val_eq, Num.val_eq, Num.val_eq, mulNum_abs, hneg]
  cases x.neg <;> cases y.neg <;> simp

end Product

/-! ### Square roots -/

/-- One bit of the integer square root. -/
def isqrtStep (n i r : ℕ) : ℕ := if (r + 2 ^ i) * (r + 2 ^ i) ≤ n then r + 2 ^ i else r

theorem isqrt_steps (n k : ℕ) {r : ℕ} (hlow : r * r ≤ n) (hhigh : n < (r + 2 ^ k) * (r + 2 ^ k)) :
    (List.range k).foldr (isqrtStep n) r = Nat.sqrt n := by
  induction k generalizing r with
  | zero => exact (Nat.eq_sqrt.2 ⟨hlow, hhigh⟩)
  | succ k ih =>
    rw [List.range_succ, List.foldr_append]
    refine ih ?_ ?_
    · change isqrtStep n k r * isqrtStep n k r ≤ n
      unfold isqrtStep
      split <;> assumption
    · change n < (isqrtStep n k r + 2 ^ k) * (isqrtStep n k r + 2 ^ k)
      unfold isqrtStep
      split
      · rwa [add_assoc, ← two_mul, ← pow_succ']
      next h => exact not_le.1 h

theorem isqrt_eq_sqrt {n : ℕ} (h : n < 2 ^ 256) : isqrt n = Nat.sqrt n :=
  isqrt_steps n 128 (Nat.zero_le n) (by rw [zero_add, ← pow_add]; exact h)

section Root
variable (x : Num)

/-- The exponent of a square root's argument, made even. -/
def Num.evenExp : ℤ := if x.e % 2 = 0 then x.e else x.e - 1

/-- The argument of a square root in units of 2^(e - 128), e even. -/
def Num.rootArg : ℕ := (if x.e % 2 = 0 then x.m else 2 * x.m) * 2 ^ 128

theorem sqrtNum_eq : sqrtNum x =
    { neg := false, m := 2 * isqrt x.rootArg + (if isqrt x.rootArg * isqrt x.rootArg = x.rootArg then 0 else 1), e := x.evenExp / 2 - 65 } := rfl

variable {x}

theorem Num.abs_eq_rootArg : x.abs = x.rootArg * (2 : ℚ) ^ (2 * (x.evenExp / 2 - 64)) := by
  have heven : 2 * (x.evenExp / 2 - 64) = x.evenExp - (128 : ℕ) := by
    unfold Num.evenExp
    split <;> omega
  rw [heven, zpow_sub₀ two_ne_zero, zpow_natCast, Num.abs]
  unfold Num.rootArg Num.evenExp
  split
  · push_cast
    field_simp
    norm_num
  · rw [zpow_sub_one₀ two_ne_zero]
    push_cast
    field_simp
    norm_num

section Small
variable (hm : x.m < 2 ^ 53)
include hm

theorem isqrt_rootArg : isqrt x.rootArg = Nat.sqrt x.rootArg := by
  refine isqrt_eq_sqrt ?_
  unfold Num.rootArg
  split <;> omega

theorem sqrtNum_meets : (sqrtNum x).Meets ((sqrtNum x).e + 1) (√(x.abs : ℝ)) := by
  have hroot : √(x.abs : ℝ) = √(x.rootArg : ℝ) * 2 ^ ((sqrtNum x).e + 1) := by
    have he : (sqrtNum x).e + 1 = x.evenExp / 2 - 64 := by
      change x.evenExp / 2 - 65 + 1 = _
      omega
    have hsq : (2 : ℝ) ^ (2 * (x.evenExp / 2 - 64)) = (2 ^ (x.evenExp / 2 - 64)) ^ 2 := by
      rw [← zpow_natCast, ← zpow_mul, mul_comm]
      rfl
    rw [he, Num.abs_eq_rootArg, Rat.cast_mul, Rat.cast_natCast, Rat.cast_zpow, Rat.cast_ofNat, hsq, Real.sqrt_mul (Nat.cast_nonneg _),
      Real.sqrt_sq (by positivity)]
  rw [hroot]
  refine Num.meets_of_sticky (Real.sqrt_nonneg _) ?_
  have hexact : ((Nat.sqrt x.rootArg : ℕ) : ℝ) = √(x.rootArg : ℝ) ↔ Nat.sqrt x.rootArg * Nat.sqrt x.rootArg = x.rootArg := by
    rw [eq_comm, Real.sqrt_eq_iff_mul_self_eq (Nat.cast_nonneg _) (Nat.cast_nonneg _), eq_comm]
    exact_mod_cast Iff.rfl
  rw [Real.nat_floor_real_sqrt_eq_nat_sqrt, if_congr hexact rfl rfl, ← isqrt_rootArg hm]
  rfl

theorem le_sqrtNum_m (hne : x.m ≠ 0) : 2 ^ 65 ≤ (sqrtNum x).m := by
  have harg : 2 ^ 64 * 2 ^ 64 ≤ x.rootArg := by
    unfold Num.rootArg
    split <;> omega
  have hroot : 2 ^ 64 ≤ isqrt x.rootArg := by
    rw [isqrt_rootArg hm]
    exact Nat.le_sqrt.2 harg
  calc 2 ^ 65 = 2 * 2 ^ 64 := by decide
    _ ≤ 2 * isqrt x.rootArg := Nat.mul_le_mul_left _ hroot
    _ ≤ (sqrtNum x).m := Nat.le_add_right _ _

/-- A root stands for the exact one. -/
theorem sqrtNum_stands {F : Fmt} (hF : F.mb ≤ 63) (hne : x.m ≠ 0) :
    (sqrtNum x).Stands F (fun q => q * q < x.abs) (fun q => q * q = x.abs) (√(x.abs : ℝ)) := by
  refine Num.stands_of_sticky (fun q hq => ?_) (fun q hq => ?_) (sqrtNum_meets hm)
    ((Nat.pow_le_pow_right two_pos (by omega)).trans (le_sqrtNum_m hm hne))
  · rw [Real.lt_sqrt (Rat.cast_nonneg.2 hq), sq]
    exact_mod_cast Iff.rfl
  · rw [eq_comm (b := √(x.abs : ℝ)), Real.sqrt_eq_iff_mul_self_eq (Rat.cast_nonneg.2 x.abs_nonneg) (Rat.cast_nonneg.2 hq)]
    exact_mod_cast eq_comm

end Small

end Root

end Sys2Proof.Machine
end

section
/-! PROOFS. What the float operations give (R84, R85, R87). -/

namespace Sys2Proof.Machine

section Operations
variable {F : Fmt} (heb : 0 < F.eb) (e : FEnv) {a b c : ℕ}
include heb

theorem nvOf_flush₁ : nvOf F [F.flush e.ftz a] = nvOf F [a] := by
  simp [nvOf, Fmt.isSNaN_flush heb]

theorem nvOf_flush₂ : nvOf F [F.flush e.ftz a, F.flush e.ftz b] = nvOf F [a, b] := by
  simp [nvOf, Fmt.isSNaN_flush heb]

theorem nvOf_flush₃ : nvOf F [F.flush e.ftz a, F.flush e.ftz b, F.flush e.ftz c] = nvOf F [a, b, c] := by
  simp [nvOf, Fmt.isSNaN_flush heb]

theorem Fmt.isZero_flush_of_isInf (h : F.isInf a = true) : F.isZero (F.flush e.ftz a) = false := by
  rw [Fmt.flush_of_isInf heb _ h, Fmt.isZero_of_isInf heb h]

theorem Fmt.isNaN_of_isZero_flush (h : F.isZero (F.flush e.ftz a) = true) : F.isNaN a = false := by
  rw [← F.isNaN_flush heb e.ftz, Fmt.isNaN, Fmt.isZero_iff.1 h]
  exact decide_eq_false (not_lt.2 (Nat.zero_le _))

theorem Fmt.isInf_of_isZero_flush (h : F.isZero (F.flush e.ftz a) = true) : F.isInf a = false := by
  rw [← F.isInf_flush heb e.ftz, Fmt.isInf, Fmt.isZero_iff.1 h]
  exact beq_false_of_ne (Fmt.inf_pos heb).ne

/-! ### Sums and differences -/

theorem faddBits_eq : faddBits F e a b = if (F.isNaN a || F.isNaN b) = true then (F.nan, nvOf F [a, b])
    else if F.isInf a = true then if (F.isInf b && F.neg a != F.neg b) = true then (F.nan, flagNV) else (F.flush e.ftz a, 0)
    else if F.isInf b = true then (F.flush e.ftz b, 0)
    else roundNum F e.rm e.ftz (addNum e.rm (F.num (F.flush e.ftz a)) (F.num (F.flush e.ftz b))) := by
  simp only [faddBits, Fmt.isNaN_flush heb, Fmt.isInf_flush heb, Fmt.neg_flush, nvOf_flush₂ heb]

theorem fsubBits_eq : fsubBits F e a b = if (F.isNaN a || F.isNaN b) = true then (F.nan, nvOf F [a, b])
    else if F.isInf a = true then if (F.isInf b && F.neg a != !F.neg b) = true then (F.nan, flagNV) else (F.flush e.ftz a, 0)
    else if F.isInf b = true then (F.flip (F.flush e.ftz b), 0)
    else roundNum F e.rm e.ftz (addNum e.rm (F.num (F.flush e.ftz a)) (F.num (F.flip (F.flush e.ftz b)))) := by
  have hnv : nvOf F [a, F.flip b] = nvOf F [a, b] := by simp [nvOf]
  simp only [fsubBits, faddBits_eq heb, Fmt.isNaN_flip, Fmt.isInf_flip, Fmt.neg_flip, Fmt.flush_flip, hnv]

theorem faddBits_of_nan (h : F.isNaN a = true ∨ F.isNaN b = true) : faddBits F e a b = (F.nan, nvOf F [a, b]) := by
  rw [faddBits_eq heb, if_pos (by simpa using h)]

theorem fsubBits_of_nan (h : F.isNaN a = true ∨ F.isNaN b = true) : fsubBits F e a b = (F.nan, nvOf F [a, b]) := by
  rw [fsubBits_eq heb, if_pos (by simpa using h)]

section InfiniteLeft
variable (ha : F.isInf a = true)
include ha

theorem faddBits_inf_inf (hb : F.isInf b = true) : faddBits F e a b = if (F.neg a != F.neg b) = true then (F.nan, flagNV) else (a, 0) := by
  rw [faddBits_eq heb, Fmt.isNaN_of_isInf ha, Fmt.isNaN_of_isInf hb, if_neg (by decide), if_pos ha, hb, Bool.true_and, Fmt.flush_of_isInf heb _ ha]

theorem fsubBits_inf_inf (hb : F.isInf b = true) : fsubBits F e a b = if (F.neg a != F.neg b) = true then (a, 0) else (F.nan, flagNV) := by
  rw [fsubBits_eq heb, Fmt.isNaN_of_isInf ha, Fmt.isNaN_of_isInf hb, if_neg (by decide), if_pos ha, hb, Bool.true_and, Fmt.flush_of_isInf heb _ ha]
  cases F.neg a <;> cases F.neg b <;> rfl

variable (hb : F.isNaN b = false ∧ F.isInf b = false)
include hb

theorem faddBits_inf_fin : faddBits F e a b = (a, 0) := by
  rw [faddBits_eq heb, Fmt.isNaN_of_isInf ha, hb.1, if_neg (by decide), if_pos ha, hb.2, Bool.false_and, if_neg (by decide), Fmt.flush_of_isInf heb _ ha]

theorem faddBits_fin_inf : faddBits F e b a = (a, 0) := by
  rw [faddBits_eq heb, Fmt.isNaN_of_isInf ha, hb.1, if_neg (by decide), hb.2, if_neg (by decide), if_pos ha, Fmt.flush_of_isInf heb _ ha]

theorem fsubBits_inf_fin : fsubBits F e a b = (a, 0) := by
  rw [fsubBits_eq heb, Fmt.isNaN_of_isInf ha, hb.1, if_neg (by decide), if_pos ha, hb.2, Bool.false_and, if_neg (by decide), Fmt.flush_of_isInf heb _ ha]

theorem fsubBits_fin_inf : fsubBits F e b a = (F.signed (!F.neg a) F.inf, 0) := by
  rw [fsubBits_eq heb, Fmt.isNaN_of_isInf ha, hb.1, if_neg (by decide), hb.2, if_neg (by decide), if_pos ha, Fmt.flush_of_isInf heb _ ha,
    Fmt.flip, Fmt.isInf_iff.1 ha]

end InfiniteLeft

/-! ### Products and fused sums -/

theorem fmulBits_eq : fmulBits F e a b = if (F.isNaN a || F.isNaN b) = true then (F.nan, nvOf F [a, b])
    else if ((F.isInf a && F.isZero (F.flush e.ftz b)) || (F.isZero (F.flush e.ftz a) && F.isInf b)) = true then (F.nan, flagNV)
    else if (F.isInf a || F.isInf b) = true then (F.signed (F.neg a != F.neg b) F.inf, 0)
    else roundNum F e.rm e.ftz (mulNum (F.num (F.flush e.ftz a)) (F.num (F.flush e.ftz b))) := by
  simp only [fmulBits, Fmt.isNaN_flush heb, Fmt.isInf_flush heb, Fmt.neg_flush, nvOf_flush₂ heb]

theorem ffmaBits_eq : ffmaBits F e a b c = if ((F.isInf a && F.isZero (F.flush e.ftz b)) || (F.isZero (F.flush e.ftz a) && F.isInf b)) = true
      then (F.nan, flagNV)
    else if (F.isNaN a || F.isNaN b || F.isNaN c) = true then (F.nan, nvOf F [a, b, c])
    else if (F.isInf a || F.isInf b) = true then
      if (F.isInf c && F.neg c != (F.neg a != F.neg b)) = true then (F.nan, flagNV) else (F.signed (F.neg a != F.neg b) F.inf, 0)
    else if F.isInf c = true then (F.flush e.ftz c, 0)
    else roundNum F e.rm e.ftz (addNum e.rm (mulNum (F.num (F.flush e.ftz a)) (F.num (F.flush e.ftz b))) (F.num (F.flush e.ftz c))) := by
  simp only [ffmaBits, Fmt.isNaN_flush heb, Fmt.isInf_flush heb, Fmt.neg_flush, nvOf_flush₃ heb]

theorem fmulBits_of_nan (h : F.isNaN a = true ∨ F.isNaN b = true) : fmulBits F e a b = (F.nan, nvOf F [a, b]) := by
  rw [fmulBits_eq heb, if_pos (by simpa using h)]

omit heb in
/-- Infinity times zero is invalid. -/
theorem inf_times_zero_iff : ((F.isInf a && F.isZero (F.flush e.ftz b)) || (F.isZero (F.flush e.ftz a) && F.isInf b)) = true
    ↔ (F.isInf a = true ∧ F.isZero (F.flush e.ftz b) = true) ∨ (F.isZero (F.flush e.ftz a) = true ∧ F.isInf b = true) := by
  simp

theorem fmulBits_invalid (h : (F.isInf a = true ∧ F.isZero (F.flush e.ftz b) = true) ∨ (F.isZero (F.flush e.ftz a) = true ∧ F.isInf b = true)) :
    fmulBits F e a b = (F.nan, flagNV) := by
  have hnan : F.isNaN a = false ∧ F.isNaN b = false := by
    rcases h with ⟨ha, hb⟩ | ⟨ha, hb⟩
    · exact ⟨Fmt.isNaN_of_isInf ha, Fmt.isNaN_of_isZero_flush heb e hb⟩
    · exact ⟨Fmt.isNaN_of_isZero_flush heb e ha, Fmt.isNaN_of_isInf hb⟩
  rw [fmulBits_eq heb, hnan.1, hnan.2, if_neg (by decide), if_pos ((inf_times_zero_iff e).2 h)]

theorem ffmaBits_invalid (h : (F.isInf a = true ∧ F.isZero (F.flush e.ftz b) = true) ∨ (F.isZero (F.flush e.ftz a) = true ∧ F.isInf b = true)) :
    ffmaBits F e a b c = (F.nan, flagNV) := by
  rw [ffmaBits_eq heb, if_pos ((inf_times_zero_iff e).2 h)]

section NotInvalid
variable (h1 : ¬(F.isInf a = true ∧ F.isZero (F.flush e.ftz b) = true)) (h2 : ¬(F.isZero (F.flush e.ftz a) = true ∧ F.isInf b = true))
include h1 h2

theorem ffmaBits_of_nan (h : F.isNaN a = true ∨ F.isNaN b = true ∨ F.isNaN c = true) : ffmaBits F e a b c = (F.nan, nvOf F [a, b, c]) := by
  rw [ffmaBits_eq heb, if_neg (fun h => ((inf_times_zero_iff e).1 h).elim h1 h2), if_pos (by simpa [or_assoc] using h)]

variable (hna : F.isNaN a = false) (hnb : F.isNaN b = false)
include hna hnb

theorem fmulBits_inf (hinf : F.isInf a = true ∨ F.isInf b = true) : fmulBits F e a b = (F.signed (F.neg a != F.neg b) F.inf, 0) := by
  rw [fmulBits_eq heb, hna, hnb, if_neg (by decide), if_neg (fun h => ((inf_times_zero_iff e).1 h).elim h1 h2), if_pos (by simpa using hinf)]

theorem ffmaBits_inf (hnc : F.isNaN c = false) (hinf : F.isInf a = true ∨ F.isInf b = true) :
    ffmaBits F e a b c = if F.isInf c = true ∧ F.neg c ≠ (F.neg a != F.neg b) then (F.nan, flagNV) else (F.signed (F.neg a != F.neg b) F.inf, 0) := by
  rw [ffmaBits_eq heb, if_neg (fun h => ((inf_times_zero_iff e).1 h).elim h1 h2), hna, hnb, hnc, if_neg (by decide), if_pos (by simpa using hinf)]
  exact if_congr (by simp) rfl rfl

end NotInvalid

/-! ### Quotients -/

theorem fdivBits_eq : fdivBits F e a b = if (F.isNaN a || F.isNaN b) = true then (F.nan, nvOf F [a, b])
    else if ((F.isInf a && F.isInf b) || (F.isZero (F.flush e.ftz a) && F.isZero (F.flush e.ftz b))) = true then (F.nan, flagNV)
    else if F.isInf a = true then (F.signed (F.neg a != F.neg b) F.inf, 0)
    else if F.isInf b = true then (F.signed (F.neg a != F.neg b) 0, 0)
    else if F.isZero (F.flush e.ftz b) = true then (F.signed (F.neg a != F.neg b) F.inf, flagDZ)
    else roundNum F e.rm e.ftz (divNum (F.num (F.flush e.ftz a)) (F.num (F.flush e.ftz b))) := by
  simp only [fdivBits, Fmt.isNaN_flush heb, Fmt.isInf_flush heb, Fmt.neg_flush, nvOf_flush₂ heb]

theorem fdivBits_of_nan (h : F.isNaN a = true ∨ F.isNaN b = true) : fdivBits F e a b = (F.nan, nvOf F [a, b]) := by
  rw [fdivBits_eq heb, if_pos (by simpa using h)]

theorem fdivBits_inf_inf (ha : F.isInf a = true) (hb : F.isInf b = true) : fdivBits F e a b = (F.nan, flagNV) := by
  rw [fdivBits_eq heb, Fmt.isNaN_of_isInf ha, Fmt.isNaN_of_isInf hb, if_neg (by decide), if_pos (by simp [ha, hb])]

theorem fdivBits_zero_zero (ha : F.isZero (F.flush e.ftz a) = true) (hb : F.isZero (F.flush e.ftz b) = true) :
    fdivBits F e a b = (F.nan, flagNV) := by
  rw [fdivBits_eq heb, Fmt.isNaN_of_isZero_flush heb e ha, Fmt.isNaN_of_isZero_flush heb e hb, if_neg (by decide), if_pos (by simp [ha, hb])]

theorem fdivBits_inf_fin (ha : F.isInf a = true) (hb : F.isNaN b = false ∧ F.isInf b = false) :
    fdivBits F e a b = (F.signed (F.neg a != F.neg b) F.inf, 0) := by
  rw [fdivBits_eq heb, Fmt.isNaN_of_isInf ha, hb.1, if_neg (by decide), if_neg (by simp [hb.2, Fmt.isZero_flush_of_isInf heb e ha]), if_pos ha]

theorem fdivBits_fin_inf (ha : F.isInf a = true) (hb : F.isNaN b = false ∧ F.isInf b = false) :
    fdivBits F e b a = (F.signed (F.neg a != F.neg b) 0, 0) := by
  have hneg : (F.neg a != F.neg b) = (F.neg b != F.neg a) := Bool.xor_comm _ _
  rw [fdivBits_eq heb, Fmt.isNaN_of_isInf ha, hb.1, if_neg (by decide), if_neg (by simp [hb.2, Fmt.isZero_flush_of_isInf heb e ha]), hb.2,
    if_neg (by decide), if_pos ha, hneg]

section Finite
variable (ha : F.isNaN a = false ∧ F.isInf a = false)
include ha

theorem fdivBits_by_zero (hza : ¬F.isZero (F.flush e.ftz a) = true) (hzb : F.isZero (F.flush e.ftz b) = true) :
    fdivBits F e a b = (F.signed (F.neg a != F.neg b) F.inf, flagDZ) := by
  rw [fdivBits_eq heb, ha.1, Fmt.isNaN_of_isZero_flush heb e hzb, if_neg (by decide), if_neg (by simp [ha.2, hza]), ha.2, if_neg (by decide),
    Fmt.isInf_of_isZero_flush heb e hzb, if_neg (by decide), if_pos hzb]

theorem ffmaBits_fin_inf (hb : F.isNaN b = false ∧ F.isInf b = false) (hc : F.isInf c = true) : ffmaBits F e a b c = (c, 0) := by
  rw [ffmaBits_eq heb, ha.1, ha.2, hb.1, hb.2, Fmt.isNaN_of_isInf hc, if_neg (by simp), if_neg (by decide), if_neg (by decide), if_pos hc,
    Fmt.flush_of_isInf heb _ hc]

end Finite

/-! ### Square roots -/

theorem fsqrtBits_eq : fsqrtBits F e a = if F.isNaN a = true then (F.nan, nvOf F [a])
    else if F.isZero (F.flush e.ftz a) = true then (F.flush e.ftz a, 0)
    else if F.neg a = true then (F.nan, flagNV)
    else if F.isInf a = true then (F.flush e.ftz a, 0)
    else roundNum F e.rm e.ftz (sqrtNum (F.num (F.flush e.ftz a))) := by
  simp only [fsqrtBits, Fmt.isNaN_flush heb, Fmt.isInf_flush heb, Fmt.neg_flush, nvOf_flush₁ heb]

theorem fsqrtBits_of_nan (h : F.isNaN a = true) : fsqrtBits F e a = (F.nan, nvOf F [a]) := by
  rw [fsqrtBits_eq heb, if_pos h]

theorem fsqrtBits_zero (h : F.isZero (F.flush e.ftz a) = true) : fsqrtBits F e a = (F.flush e.ftz a, 0) := by
  rw [fsqrtBits_eq heb, Fmt.isNaN_of_isZero_flush heb e h, if_neg (by decide), if_pos h]

theorem fsqrtBits_neg (hnan : F.isNaN a = false) (hzero : ¬F.isZero (F.flush e.ftz a) = true) (hneg : F.neg a = true) :
    fsqrtBits F e a = (F.nan, flagNV) := by
  rw [fsqrtBits_eq heb, hnan, if_neg (by decide), if_neg hzero, if_pos hneg]

theorem fsqrtBits_inf (h : F.isInf a = true) (hneg : F.neg a = false) : fsqrtBits F e a = (a, 0) := by
  rw [fsqrtBits_eq heb, Fmt.isNaN_of_isInf h, if_neg (by decide), if_neg (by simp [Fmt.isZero_flush_of_isInf heb e h]), hneg, if_neg (by decide),
    if_pos h, Fmt.flush_of_isInf heb _ h]

end Operations

end Sys2Proof.Machine
end

section
/-! PROOFS. Float operations on finite operands: one rounding of the exact result (R84, R87). -/

namespace Sys2Proof.Machine

/-! ### The rounding of exact results -/

section Exact
variable {F : Fmt} (hmb : 0 < F.mb) (heb : 0 < F.eb) (rm : RM) (ftz : Bool) (x y : Num)

section Sum
include hmb heb

/-- A sum that is not zero is rounded once. -/
theorem roundNum_sum (h : x.val + y.val ≠ 0) :
    F.RoundsTo rm ftz (x.val + y.val < 0) |x.val + y.val| (roundNum F rm ftz (addNum rm x y)) := by
  obtain ⟨hneg, habs⟩ := addNum_nonzero rm h
  have hround := roundNum_roundsTo hmb heb rm ftz (addNum rm x y)
  rwa [hneg, habs] at hround

end Sum

/-- A zero sum has the sign of R84. -/
theorem roundNum_zero_sum (h : x.val + y.val = 0) :
    roundNum F rm ftz (addNum rm x y) = (F.signed (if x.neg = y.neg then x.neg else rm == .rdn) 0, 0) := by
  obtain ⟨hm, hneg⟩ := addNum_zero rm h
  rw [roundNum_zero hm, hneg]

theorem roundNum_product (hmb : 0 < F.mb) (heb : 0 < F.eb) : F.RoundsTo rm ftz (x.neg != y.neg) |x.val * y.val| (roundNum F rm ftz (mulNum x y)) := by
  have hround := roundNum_roundsTo hmb heb rm ftz (mulNum x y)
  rwa [← Num.abs_val, mulNum_val] at hround

theorem roundNum_quotient (hmb : 0 < F.mb) (heb : 0 < F.eb) (hF : F.mb ≤ 52) (hy : y.val ≠ 0) (hlt : y.m < 2 ^ 53) :
    F.RoundsTo rm ftz (x.neg != y.neg) |x.val / y.val| (roundNum F rm ftz (divNum x y)) := by
  rw [abs_div, Num.abs_val, Num.abs_val]
  exact (divNum_stands (Num.m_ne_zero_of_val hy) hlt.le (by omega)).rounds hmb heb

end Exact

/-! ### The operations -/

section Finite
variable {F : Fmt} (hmb : 0 < F.mb) (heb : 0 < F.eb) (e : FEnv) {a b c : ℕ}

/-- The value that an operand is read as. -/
def Fmt.read (F : Fmt) (ftz : Bool) (x : ℕ) : ℚ := (F.num (F.flush ftz x)).val

variable (ha : F.isNaN a = false ∧ F.isInf a = false) (hb : F.isNaN b = false ∧ F.isInf b = false)
include heb ha hb

theorem faddBits_fin : faddBits F e a b = roundNum F e.rm e.ftz (addNum e.rm (F.num (F.flush e.ftz a)) (F.num (F.flush e.ftz b))) := by
  rw [faddBits_eq heb, ha.1, ha.2, hb.1, hb.2, if_neg (by decide), if_neg (by decide), if_neg (by decide)]

theorem fsubBits_fin : fsubBits F e a b = roundNum F e.rm e.ftz (addNum e.rm (F.num (F.flush e.ftz a)) (F.num (F.flip (F.flush e.ftz b)))) := by
  rw [fsubBits_eq heb, ha.1, ha.2, hb.1, hb.2, if_neg (by decide), if_neg (by decide), if_neg (by decide)]

theorem fmulBits_fin : fmulBits F e a b = roundNum F e.rm e.ftz (mulNum (F.num (F.flush e.ftz a)) (F.num (F.flush e.ftz b))) := by
  rw [fmulBits_eq heb, ha.1, ha.2, hb.1, hb.2, if_neg (by decide), if_neg (by simp), if_neg (by decide)]

theorem fdivBits_fin (hzero : ¬F.isZero (F.flush e.ftz b) = true) :
    fdivBits F e a b = roundNum F e.rm e.ftz (divNum (F.num (F.flush e.ftz a)) (F.num (F.flush e.ftz b))) := by
  rw [fdivBits_eq heb, ha.1, ha.2, hb.1, hb.2, if_neg (by decide), if_neg (by simp [hzero]), if_neg (by decide), if_neg (by decide), if_neg hzero]

theorem ffmaBits_fin (hc : F.isNaN c = false ∧ F.isInf c = false) : ffmaBits F e a b c
    = roundNum F e.rm e.ftz (addNum e.rm (mulNum (F.num (F.flush e.ftz a)) (F.num (F.flush e.ftz b))) (F.num (F.flush e.ftz c))) := by
  rw [ffmaBits_eq heb, ha.1, ha.2, hb.1, hb.2, hc.1, hc.2, if_neg (by simp), if_neg (by decide), if_neg (by decide), if_neg (by decide)]

omit hb in
theorem fsqrtBits_fin (hneg : F.neg a = false) (hzero : ¬F.isZero (F.flush e.ftz a) = true) :
    fsqrtBits F e a = roundNum F e.rm e.ftz (sqrtNum (F.num (F.flush e.ftz a))) := by
  rw [fsqrtBits_eq heb, ha.1, ha.2, if_neg (by decide), if_neg hzero, hneg, if_neg (by decide), if_neg (by decide)]

include hmb

theorem faddBits_rounds (h : F.read e.ftz a + F.read e.ftz b ≠ 0) :
    F.RoundsTo e.rm e.ftz (F.read e.ftz a + F.read e.ftz b < 0) |F.read e.ftz a + F.read e.ftz b| (faddBits F e a b) := by
  rw [faddBits_fin heb e ha hb]
  exact roundNum_sum hmb heb e.rm e.ftz _ _ h

theorem fsubBits_rounds (h : F.read e.ftz a - F.read e.ftz b ≠ 0) :
    F.RoundsTo e.rm e.ftz (F.read e.ftz a - F.read e.ftz b < 0) |F.read e.ftz a - F.read e.ftz b| (fsubBits F e a b) := by
  have hsub : F.read e.ftz a - F.read e.ftz b = (F.num (F.flush e.ftz a)).val + (F.num (F.flip (F.flush e.ftz b))).val := by
    rw [Fmt.val_flip, ← sub_eq_add_neg]
    rfl
  rw [fsubBits_fin heb e ha hb]
  simp only [hsub] at h ⊢
  exact roundNum_sum hmb heb e.rm e.ftz _ _ h

theorem fmulBits_rounds : F.RoundsTo e.rm e.ftz (F.neg a != F.neg b) |F.read e.ftz a * F.read e.ftz b| (fmulBits F e a b) := by
  rw [fmulBits_fin heb e ha hb, ← F.neg_flush e.ftz a, ← F.neg_flush e.ftz b, ← Fmt.num_neg (F.flush e.ftz a), ← Fmt.num_neg (F.flush e.ftz b)]
  exact roundNum_product e.rm e.ftz _ _ hmb heb

theorem fdivBits_rounds (hF : F.mb ≤ 52) (hzero : ¬F.isZero (F.flush e.ftz b) = true) :
    F.RoundsTo e.rm e.ftz (F.neg a != F.neg b) |F.read e.ftz a / F.read e.ftz b| (fdivBits F e a b) := by
  rw [fdivBits_fin heb e ha hb hzero, ← F.neg_flush e.ftz a, ← F.neg_flush e.ftz b, ← Fmt.num_neg (F.flush e.ftz a), ← Fmt.num_neg (F.flush e.ftz b)]
  exact roundNum_quotient e.rm e.ftz _ _ hmb heb hF (mt (Fmt.val_eq_zero_iff _).1 hzero)
    ((F.num_m_lt _).trans_le (Nat.pow_le_pow_right two_pos (by omega)))

omit hmb in
theorem faddBits_zero (h : F.read e.ftz a + F.read e.ftz b = 0) :
    faddBits F e a b = (F.signed (if F.neg a = F.neg b then F.neg a else e.rm == .rdn) 0, 0) := by
  rw [faddBits_fin heb e ha hb, roundNum_zero_sum _ _ _ _ h]
  simp only [Fmt.num_neg, Fmt.neg_flush]

omit hmb in
theorem fsubBits_zero (h : F.read e.ftz a - F.read e.ftz b = 0) :
    fsubBits F e a b = (F.signed (if F.neg a = !F.neg b then F.neg a else e.rm == .rdn) 0, 0) := by
  rw [fsubBits_fin heb e ha hb, roundNum_zero_sum _ _ _ _ (by rw [Fmt.val_flip, ← sub_eq_add_neg]; exact h)]
  simp only [Fmt.num_neg, Fmt.neg_flush, Fmt.neg_flip]

section Fused
variable (hc : F.isNaN c = false ∧ F.isInf c = false)
include hc

theorem ffmaBits_rounds (h : F.read e.ftz a * F.read e.ftz b + F.read e.ftz c ≠ 0) :
    F.RoundsTo e.rm e.ftz (F.read e.ftz a * F.read e.ftz b + F.read e.ftz c < 0) |F.read e.ftz a * F.read e.ftz b + F.read e.ftz c|
      (ffmaBits F e a b c) := by
  have hround := roundNum_sum hmb heb e.rm e.ftz (mulNum (F.num (F.flush e.ftz a)) (F.num (F.flush e.ftz b))) (F.num (F.flush e.ftz c))
  rw [ffmaBits_fin heb e ha hb hc]
  simp only [mulNum_val] at hround
  exact hround h

omit hmb in
theorem ffmaBits_zero (h : F.read e.ftz a * F.read e.ftz b + F.read e.ftz c = 0) :
    ffmaBits F e a b c = (F.signed (if (F.neg a != F.neg b) = F.neg c then F.neg a != F.neg b else e.rm == .rdn) 0, 0) := by
  have hneg : (mulNum (F.num (F.flush e.ftz a)) (F.num (F.flush e.ftz b))).neg = (F.neg a != F.neg b) := by
    simp only [mulNum, Fmt.num_neg, Fmt.neg_flush]
  rw [ffmaBits_fin heb e ha hb hc, roundNum_zero_sum _ _ _ _ (by rw [mulNum_val]; exact h), hneg]
  simp only [Fmt.num_neg, Fmt.neg_flush]

end Fused

omit hb in
theorem fsqrtBits_rounds (hF : F.mb ≤ 52) (hneg : F.neg a = false) (hzero : ¬F.isZero (F.flush e.ftz a) = true) :
    F.Rounds e.rm e.ftz false (fun q => q * q < F.read e.ftz a) (fun q => q * q = F.read e.ftz a) (fsqrtBits F e a) := by
  have hread : F.read e.ftz a = (F.num (F.flush e.ftz a)).abs := by
    rw [Fmt.read, Num.val_eq, Fmt.num_neg, Fmt.neg_flush, hneg, if_neg Bool.false_ne_true]
  rw [fsqrtBits_fin heb e ha hneg hzero, hread]
  exact (sqrtNum_stands ((F.num_m_lt _).trans_le (Nat.pow_le_pow_right two_pos (by omega))) (by omega)
    (Num.m_ne_zero_of_val (mt (Fmt.val_eq_zero_iff _).1 hzero))).rounds hmb heb

end Finite

end Sys2Proof.Machine
end

section
/-! PROOFS. The order of float codes: minima, maxima, signs and comparisons (R87 to R89). -/

namespace Sys2Proof.Machine

/-! ### The smaller and the larger of two numbers -/

/-- The order of R88, -0 below +0. -/
def Fmt.Below (F : Fmt) (x y : ℕ) : Prop := (F.neg x = true ∧ F.neg y = false) ∨ (F.neg x = true ∧ F.neg y = true ∧ F.mag y < F.mag x)
  ∨ (F.neg x = false ∧ F.neg y = false ∧ F.mag x < F.mag y)

section MinMax
variable {F : Fmt} (heb : 0 < F.eb) (e : FEnv) (max : Bool) {a b : ℕ}

theorem Fmt.below_iff_key {x y : ℕ} : F.Below x y ↔ F.key x < F.key y := by
  unfold Fmt.Below Fmt.key
  cases F.neg x <;> cases F.neg y
  · simp
  · simp
    omega
  · simp
  · simp

theorem nvOf_pair : nvOf F [a, b] = if F.isSNaN a = true ∨ F.isSNaN b = true then flagNV else 0 := by
  simp [nvOf]

theorem nvOf_of_not_nan (ha : ¬F.isNaN a = true) (hb : ¬F.isNaN b = true) : nvOf F [a, b] = 0 := by
  rw [nvOf_pair, if_neg (not_or.2 ⟨mt Fmt.isNaN_of_isSNaN ha, mt Fmt.isNaN_of_isSNaN hb⟩)]

include heb

theorem fminmaxBits_eq : fminmaxBits F max e a b = (if (F.isNaN a && F.isNaN b) = true then F.nan
    else if F.isNaN a = true then F.flush e.ftz b
    else if F.isNaN b = true then F.flush e.ftz a
    else if ((F.key (F.flush e.ftz a) ≤ F.key (F.flush e.ftz b) : Bool) != max) = true then F.flush e.ftz a else F.flush e.ftz b, nvOf F [a, b]) := by
  simp only [fminmaxBits, Fmt.isNaN_flush heb, nvOf_flush₂ heb]

theorem fminmaxBits_nan_nan (ha : F.isNaN a = true) (hb : F.isNaN b = true) : fminmaxBits F max e a b = (F.nan, nvOf F [a, b]) := by
  rw [fminmaxBits_eq heb, if_pos (by simp [ha, hb])]

theorem fminmaxBits_nan_left (ha : F.isNaN a = true) (hb : ¬F.isNaN b = true) : fminmaxBits F max e a b = (F.flush e.ftz b, nvOf F [a, b]) := by
  rw [fminmaxBits_eq heb, if_neg (by simp [hb]), if_pos ha]

theorem fminmaxBits_nan_right (ha : ¬F.isNaN a = true) (hb : F.isNaN b = true) : fminmaxBits F max e a b = (F.flush e.ftz a, nvOf F [a, b]) := by
  rw [fminmaxBits_eq heb, if_neg (by simp [ha]), if_neg ha, if_pos hb]

section Numbers
variable (ha : ¬F.isNaN a = true) (hb : ¬F.isNaN b = true)
include ha hb

theorem fminmaxBits_number : fminmaxBits F max e a b
    = (if ((F.key (F.flush e.ftz a) ≤ F.key (F.flush e.ftz b) : Bool) != max) = true then F.flush e.ftz a else F.flush e.ftz b, 0) := by
  rw [fminmaxBits_eq heb, if_neg (by simp [ha]), if_neg ha, if_neg hb, nvOf_of_not_nan ha hb]

theorem fminmaxBits_below (h : F.Below (F.flush e.ftz a) (F.flush e.ftz b)) :
    fminmaxBits F false e a b = (F.flush e.ftz a, 0) ∧ fminmaxBits F true e a b = (F.flush e.ftz b, 0) := by
  have hle := decide_eq_true (Fmt.below_iff_key.1 h).le
  rw [fminmaxBits_number heb e _ ha hb, fminmaxBits_number heb e _ ha hb, hle]
  exact ⟨rfl, rfl⟩

theorem fminmaxBits_above (h : F.Below (F.flush e.ftz b) (F.flush e.ftz a)) :
    fminmaxBits F false e a b = (F.flush e.ftz b, 0) ∧ fminmaxBits F true e a b = (F.flush e.ftz a, 0) := by
  have hle := decide_eq_false (not_le.2 (Fmt.below_iff_key.1 h))
  rw [fminmaxBits_number heb e _ ha hb, fminmaxBits_number heb e _ ha hb, hle]
  exact ⟨rfl, rfl⟩

theorem fminmaxBits_same (h : F.flush e.ftz a = F.flush e.ftz b) : fminmaxBits F max e a b = (F.flush e.ftz a, 0) := by
  rw [fminmaxBits_number heb e _ ha hb, h, ite_self]

end Numbers

end MinMax

/-! ### Values in order -/

section Order
variable {F : Fmt} (x y : ℕ)

theorem Fmt.grid_pos_iff (m : ℕ) : 0 < F.grid m ↔ 0 < m := by
  rw [← Fmt.grid_zero (F := F)]
  exact Fmt.grid_strictMono.lt_iff_lt

/-- Values lie as their codes do, -0 at +0 (R89). -/
theorem Fmt.val_lt_iff_ord : (F.num x).val < (F.num y).val ↔ F.ord x < F.ord y := by
  have hmono (m n : ℕ) : F.grid m < F.grid n ↔ m < n := Fmt.grid_strictMono.lt_iff_lt
  have hx := F.grid_nonneg (F.mag x)
  have hy := F.grid_nonneg (F.mag y)
  rw [Fmt.val_eq, Fmt.val_eq, Fmt.ord, Fmt.ord]
  cases F.neg x <;> cases F.neg y <;> simp only [if_true, if_false, Bool.false_eq_true]
  · exact (hmono _ _).trans Nat.cast_lt.symm
  · constructor <;> intro h
    · linarith
    · omega
  · by_cases hzero : F.mag x = 0 ∧ F.mag y = 0
    · simp [hzero.1, hzero.2]
    · have hpos : 0 < F.grid (F.mag x) ∨ 0 < F.grid (F.mag y) := by
        rw [Fmt.grid_pos_iff, Fmt.grid_pos_iff]
        omega
      refine iff_of_true ?_ (by omega)
      rcases hpos with h | h <;> linarith
  · rw [neg_lt_neg_iff, neg_lt_neg_iff, Nat.cast_lt]
    exact hmono _ _

theorem Fmt.val_le_iff_ord : (F.num x).val ≤ (F.num y).val ↔ F.ord x ≤ F.ord y := by
  rw [← not_lt, ← not_lt, Fmt.val_lt_iff_ord]

theorem Fmt.val_eq_iff_ord : (F.num x).val = (F.num y).val ↔ F.ord x = F.ord y := by
  rw [le_antisymm_iff, le_antisymm_iff, Fmt.val_le_iff_ord, Fmt.val_le_iff_ord]

variable {x y}

theorem Fmt.below_of_val_lt (h : (F.num x).val < (F.num y).val) : F.Below x y := by
  rw [Fmt.val_lt_iff_ord] at h
  rw [Fmt.below_iff_key]
  unfold Fmt.ord at h
  unfold Fmt.key
  cases hx : F.neg x <;> cases hy : F.neg y <;> simp [hx, hy] at h ⊢ <;> omega

end Order

/-! ### Signs -/

section Signs
variable {F : Fmt} {a b : ℕ}

theorem fabsBits_of_nan (h : F.isNaN a = true) : fabsBits F a = F.nan := if_pos h
theorem fnegBits_of_nan (h : F.isNaN a = true) : fnegBits F a = F.nan := if_pos h
theorem fsgnjBits_of_nan (h : F.isNaN a = true) : fsgnjBits F a b = F.nan := if_pos h

theorem Fmt.bits_pred : F.bits - 1 = F.eb + F.mb := by
  rw [Fmt.bits]
  omega

theorem fabsBits_number (h : ¬F.isNaN a = true) : fabsBits F a = a % 2 ^ (F.bits - 1) := by
  rw [Fmt.bits_pred]
  exact if_neg h

/-- A code below 2^bits is its sign bit in front of its magnitude. -/
theorem Fmt.code_cases (ha : a < 2 ^ F.bits) : (F.neg a = false ∧ a = F.mag a ∧ a / 2 ^ (F.eb + F.mb) = 0)
    ∨ (F.neg a = true ∧ a = F.mag a + 2 ^ (F.eb + F.mb) ∧ a / 2 ^ (F.eb + F.mb) = 1) := by
  have hcode := Fmt.signed_neg_mag ha
  have hlt := F.mag_lt a
  cases hneg : F.neg a with
  | false =>
    have ha : a = F.mag a := by simpa [Fmt.signed, hneg] using hcode.symm
    refine .inl ⟨rfl, ha, ?_⟩
    rw [ha]
    exact Nat.div_eq_of_lt hlt
  | true =>
    have ha : a = F.mag a + 2 ^ (F.eb + F.mb) := by simpa [Fmt.signed, hneg] using hcode.symm
    refine .inr ⟨rfl, ha, ?_⟩
    conv_lhs => rw [ha, Nat.add_div_right _ (Nat.two_pow_pos _), Nat.div_eq_of_lt hlt]

theorem Fmt.two_pow_bits : 2 ^ F.bits = 2 ^ (F.eb + F.mb) + 2 ^ (F.eb + F.mb) := by
  rw [Fmt.bits, add_assoc, pow_add, pow_one, two_mul]

theorem fnegBits_number (ha : a < 2 ^ F.bits) (h : ¬F.isNaN a = true) : fnegBits F a = (a + 2 ^ (F.bits - 1)) % 2 ^ F.bits := by
  have hlt := F.mag_lt a
  have hflip : fnegBits F a = F.flip a := if_neg h
  rw [hflip, Fmt.flip, Fmt.bits_pred, Fmt.two_pow_bits]
  rcases Fmt.code_cases ha with ⟨hneg, hmag, -⟩ | ⟨hneg, hmag, -⟩
  · rw [hneg, ← hmag, Nat.mod_eq_of_lt (by omega)]
    rfl
  · conv_rhs => rw [hmag, add_assoc, Nat.add_mod_right, Nat.mod_eq_of_lt (by omega)]
    rw [hneg]
    rfl

theorem fsgnjBits_number (hb : b < 2 ^ F.bits) (h : ¬F.isNaN a = true) :
    fsgnjBits F a b = a % 2 ^ (F.bits - 1) + b / 2 ^ (F.bits - 1) * 2 ^ (F.bits - 1) := by
  have hsigned : fsgnjBits F a b = F.signed (F.neg b) (F.mag a) := if_neg h
  rw [hsigned, Fmt.bits_pred, Fmt.signed, Fmt.mag]
  rcases Fmt.code_cases hb with ⟨hneg, -, hdiv⟩ | ⟨hneg, -, hdiv⟩
  · rw [hneg, hdiv, zero_mul, if_neg Bool.false_ne_true]
  · rw [hneg, hdiv, one_mul, if_pos rfl]

end Signs

/-! ### Comparisons -/

/-- The relation of a comparison on places in order (R89). -/
def FRel.rel : FRel → ℤ → ℤ → Bool
  | .eq, p, q => p == q
  | .lt, p, q => decide (p < q)
  | .le, p, q => decide (p ≤ q)

section Compare
variable {F : Fmt} (heb : 0 < F.eb) (e : FEnv) {a b : ℕ}
include heb

theorem fcmpBits_eq (r : FRel) : fcmpBits F r e a b = if (F.isNaN a || F.isNaN b) = true then (false, if r = .eq then nvOf F [a, b] else flagNV)
    else (r.rel (F.ord (F.flush e.ftz a)) (F.ord (F.flush e.ftz b)), 0) := by
  cases r <;> simp only [fcmpBits, Fmt.isNaN_flush heb, nvOf_flush₂ heb, FRel.rel]

theorem fcmpBits_of_nan (h : F.isNaN a = true ∨ F.isNaN b = true) : fcmpBits F .eq e a b = (false, nvOf F [a, b])
    ∧ fcmpBits F .lt e a b = (false, flagNV) ∧ fcmpBits F .le e a b = (false, flagNV) := by
  have hnan : (F.isNaN a || F.isNaN b) = true := by simpa using h
  rw [fcmpBits_eq heb, fcmpBits_eq heb, fcmpBits_eq heb, if_pos hnan, if_pos hnan, if_pos hnan]
  exact ⟨rfl, rfl, rfl⟩

section Numbers
variable (ha : F.isNaN a = false) (hb : F.isNaN b = false)
include ha hb

/-- Numbers compare as their places in order. -/
theorem fcmpBits_number : fcmpBits F .eq e a b = (decide (F.ord (F.flush e.ftz a) = F.ord (F.flush e.ftz b)), 0)
    ∧ fcmpBits F .lt e a b = (decide (F.ord (F.flush e.ftz a) < F.ord (F.flush e.ftz b)), 0)
    ∧ fcmpBits F .le e a b = (decide (F.ord (F.flush e.ftz a) ≤ F.ord (F.flush e.ftz b)), 0) := by
  rw [fcmpBits_eq heb, fcmpBits_eq heb, fcmpBits_eq heb, ha, hb, if_neg (by decide), if_neg (by decide), if_neg (by decide)]
  exact ⟨rfl, rfl, rfl⟩

theorem fcmpBits_values : fcmpBits F .eq e a b = (decide (F.read e.ftz a = F.read e.ftz b), 0)
    ∧ fcmpBits F .lt e a b = (decide (F.read e.ftz a < F.read e.ftz b), 0)
    ∧ fcmpBits F .le e a b = (decide (F.read e.ftz a ≤ F.read e.ftz b), 0) := by
  obtain ⟨heq, hlt, hle⟩ := fcmpBits_number heb e ha hb
  refine ⟨heq.trans (Prod.ext (decide_eq_decide.2 ?_) rfl), hlt.trans (Prod.ext (decide_eq_decide.2 ?_) rfl),
    hle.trans (Prod.ext (decide_eq_decide.2 ?_) rfl)⟩
  · exact (Fmt.val_eq_iff_ord _ _).symm
  · exact (Fmt.val_lt_iff_ord _ _).symm
  · exact (Fmt.val_le_iff_ord _ _).symm

end Numbers

section Infinite
variable (hinf : F.isInf a = true) (hb : F.isNaN b = false)

theorem Fmt.ord_of_isInf (hinf : F.isInf a = true) : F.ord (F.flush e.ftz a) = if F.neg a = true then -(F.inf : ℤ) else F.inf := by
  rw [Fmt.flush_of_isInf heb _ hinf, Fmt.ord, Fmt.isInf_iff.1 hinf]

theorem Fmt.mag_flush_le (hb : F.isNaN b = false) : F.mag (F.flush e.ftz b) ≤ F.inf := by
  rw [← F.isNaN_flush heb e.ftz] at hb
  exact not_lt.1 (of_decide_eq_false hb)

theorem Fmt.ord_eq_of_isInf (ha2 : a < 2 ^ F.bits) (hb2 : b < 2 ^ F.bits) (hinf : F.isInf a = true) :
    F.ord (F.flush e.ftz a) = F.ord (F.flush e.ftz b) ↔ a = b := by
  have hpos := Fmt.inf_pos heb
  refine ⟨fun h => ?_, fun h => by rw [h]⟩
  rw [Fmt.ord_of_isInf heb e hinf, Fmt.ord, Fmt.neg_flush] at h
  have hmag : F.mag (F.flush e.ftz b) = F.inf ∧ F.neg a = F.neg b := by
    cases hna : F.neg a <;> cases hnb : F.neg b <;> simp only [hna, hnb, if_true, if_false, Bool.false_eq_true] at h
    · exact ⟨by omega, rfl⟩
    · omega
    · omega
    · exact ⟨by omega, rfl⟩
  have hbinf : F.isInf b = true := by
    rw [← F.isInf_flush heb e.ftz]
    exact Fmt.isInf_iff.2 hmag.1
  rw [Fmt.eq_signed_inf ha2 hinf, Fmt.eq_signed_inf hb2 hbinf, hmag.2]

end Infinite

/-- An infinity lies beyond every other number. -/
theorem fcmpBits_inf (ha2 : a < 2 ^ F.bits) (hb2 : b < 2 ^ F.bits) (hinf : F.isInf a = true) (hb : F.isNaN b = false) :
    fcmpBits F .eq e a b = (decide (a = b), 0) ∧ fcmpBits F .eq e b a = (decide (a = b), 0)
    ∧ fcmpBits F .lt e a b = (F.neg a && decide (a ≠ b), 0) ∧ fcmpBits F .lt e b a = (!F.neg a && decide (a ≠ b), 0)
    ∧ fcmpBits F .le e a b = (F.neg a || decide (a = b), 0) ∧ fcmpBits F .le e b a = (!F.neg a || decide (a = b), 0) := by
  obtain ⟨heq, hlt, hle⟩ := fcmpBits_number heb e (Fmt.isNaN_of_isInf hinf) hb
  obtain ⟨heq', hlt', hle'⟩ := fcmpBits_number heb e hb (Fmt.isNaN_of_isInf hinf)
  have hord := Fmt.ord_of_isInf heb e hinf
  have hsame := Fmt.ord_eq_of_isInf heb e ha2 hb2 hinf
  have hbound : -(F.inf : ℤ) ≤ F.ord (F.flush e.ftz b) ∧ F.ord (F.flush e.ftz b) ≤ F.inf := by
    have hle := Fmt.mag_flush_le heb e hb
    unfold Fmt.ord
    split <;> omega
  have hless : (F.ord (F.flush e.ftz a) < F.ord (F.flush e.ftz b) ↔ F.neg a = true ∧ a ≠ b)
      ∧ (F.ord (F.flush e.ftz b) < F.ord (F.flush e.ftz a) ↔ (!F.neg a) = true ∧ a ≠ b) := by
    rw [ne_eq, ← hsame, hord]
    cases F.neg a <;> (simp; omega)
  have hatmost : (F.ord (F.flush e.ftz a) ≤ F.ord (F.flush e.ftz b) ↔ F.neg a = true ∨ a = b)
      ∧ (F.ord (F.flush e.ftz b) ≤ F.ord (F.flush e.ftz a) ↔ (!F.neg a) = true ∨ a = b) := by
    rw [← hsame, hord]
    cases F.neg a <;> (simp; omega)
  simp only [heq, heq', hlt, hlt', hle, hle', eq_comm (a := F.ord (F.flush e.ftz b)), hsame, hless.1, hless.2, hatmost.1, hatmost.2, Bool.decide_and,
    Bool.decide_or, Bool.decide_eq_true, and_self]

end Compare

end Sys2Proof.Machine
end

section
/-! PROOFS. What `fcvt` makes of a token (R91, R92). -/

namespace Sys2Proof.Machine

/-! ### The two float formats -/

/-- What the operations use of the formats of s and d. -/
structure Fmt.Small (F : Fmt) : Prop where
  mb_pos : 0 < F.mb
  eb_pos : 0 < F.eb
  mb_le : F.mb ≤ 52
  bits_le : F.bits ≤ 64
  emin_le : F.emin ≤ 0

theorem Fmt.small {F : Fmt} (h : F = fmt32 ∨ F = fmt64) : F.Small := by
  rcases h with rfl | rfl <;> exact ⟨by decide, by decide, by decide, by decide, by decide⟩

/-- The first code of a binade stands for a power of two. -/
theorem Fmt.grid_binade (F : Fmt) (n : ℕ) : F.grid (n * 2 ^ F.mb + 2 ^ F.mb) = 2 ^ (F.emin + n) := by
  rw [Fmt.grid_units ⟨.inr le_rfl, Nat.pow_le_pow_right two_pos (Nat.le_succ _)⟩, Fmt.least, Nat.cast_pow, Nat.cast_ofNat, ← zpow_natCast,
    ← zpow_add₀ two_ne_zero]
  congr 1
  omega

/-- A code far below that of infinity whose magnitude no integer of 64 bits reaches. -/
theorem Fmt.exists_above_ints {F : Fmt} (h : F = fmt32 ∨ F = fmt64) : ∃ top, top < F.inf ∧ (2 : ℚ) ^ 64 < F.grid top := by
  rcases h with rfl | rfl
  · refine ⟨253 * 2 ^ fmt32.mb + 2 ^ fmt32.mb, by decide, ?_⟩
    rw [Fmt.grid_binade]
    exact zpow_lt_zpow_right₀ one_lt_two (by decide : (64 : ℤ) < fmt32.emin + 253)
  · refine ⟨2045 * 2 ^ fmt64.mb + 2 ^ fmt64.mb, by decide, ?_⟩
    rw [Fmt.grid_binade]
    exact zpow_lt_zpow_right₀ one_lt_two (by decide : (64 : ℤ) < fmt64.emin + 2045)

/-! ### Results fit their width -/

section Bound
variable {F : Fmt} (rm : RM) (ftz : Bool) (x : Num)

theorem overflow_lt (neg : Bool) : overflow F rm neg < 2 ^ F.bits := by
  have hcode (away : Bool) : F.signed neg (if away = true then F.inf else F.max) < 2 ^ F.bits := by
    refine Fmt.signed_lt neg (lt_of_le_of_lt ?_ F.inf_lt)
    split
    · exact le_rfl
    · exact Nat.sub_le _ _
  exact hcode _

theorem Fmt.nan_lt (hmb : 0 < F.mb) : F.nan < 2 ^ (F.eb + F.mb) := by
  have hhalf : 2 ^ (F.mb - 1) < 2 ^ F.mb := Nat.pow_lt_pow_right one_lt_two (by omega)
  have hpow : 2 ^ F.eb * 2 ^ F.mb = (2 ^ F.eb - 1) * 2 ^ F.mb + 2 ^ F.mb := by
    rw [← Nat.succ_mul, Nat.succ_eq_add_one, Nat.sub_add_cancel (Nat.one_le_two_pow)]
  rw [Fmt.nan, Fmt.inf, pow_add, hpow]
  omega

theorem roundNum_lt : (roundNum F rm ftz x).1 < 2 ^ F.bits := by
  have hzero (neg : Bool) : F.signed neg 0 < 2 ^ F.bits := Fmt.signed_lt neg (Nat.two_pow_pos _)
  by_cases hm : x.m = 0
  · rw [roundNum_zero hm]
    exact hzero _
  by_cases htiny : F.Tiny rm x ∧ ftz = true
  · rw [htiny.2, roundNum_tiny hm htiny.1]
    exact hzero _
  have hkept : ftz = false ∨ ¬F.Tiny rm x := by
    rw [not_and_or, Bool.not_eq_true] at htiny
    exact htiny.symm
  rcases lt_or_ge (F.rounded rm x) F.inf with hlt | hle
  · rw [roundNum_finite hm hkept hlt]
    exact Fmt.signed_lt _ (hlt.trans F.inf_lt)
  · rw [roundNum_overflow hm hkept hle]
    exact overflow_lt rm _

end Bound

/-! ### Floats to floats -/

section FloatToFloat
variable {F G : Fmt} (hF : F.Small) (hG : G.Small) (e : FEnv) {a : ℕ}
include hF

theorem fcvtFF_eq : fcvtFF F G e a = if F.isNaN a = true then (G.nan, nvOf F [a])
    else if F.isInf a = true then (G.signed (F.neg a) G.inf, 0) else roundNum G e.rm e.ftz (F.num (F.flush e.ftz a)) := by
  simp only [fcvtFF, Fmt.isNaN_flush hF.eb_pos, Fmt.isInf_flush hF.eb_pos, Fmt.neg_flush, nvOf_flush₁ hF.eb_pos]

include hG

theorem fcvtFF_lt : (fcvtFF F G e a).1 < 2 ^ 64 := by
  refine lt_of_lt_of_le ?_ (Nat.pow_le_pow_right two_pos hG.bits_le)
  rw [fcvtFF_eq hF]
  split
  · exact (Fmt.nan_lt hG.mb_pos).trans_le (Nat.pow_le_pow_right two_pos (by rw [Fmt.bits]; omega))
  split
  · exact Fmt.signed_lt _ G.inf_lt
  · exact roundNum_lt _ _ _

theorem fcvtFF_rounds (ha : F.isNaN a = false) (hinf : F.isInf a = false) :
    G.RoundsTo e.rm e.ftz (F.neg a) |F.read e.ftz a| (fcvtFF F G e a) := by
  have hround := roundNum_roundsTo hG.mb_pos hG.eb_pos e.rm e.ftz (F.num (F.flush e.ftz a))
  rw [fcvtFF_eq hF, ha, hinf, if_neg (by decide), if_neg (by decide), Fmt.read, Num.abs_val]
  rwa [Fmt.num_neg, Fmt.neg_flush] at hround

end FloatToFloat

/-! ### Floats to integers -/

section FloatToInt
variable {F : Fmt} (hF : F.Small) (e : FEnv) {a : ℕ} (lo hi : ℤ)
include hF

theorem fcvtFI_eq : fcvtFI F lo hi e a = if F.isNaN a = true then (0, flagNV)
    else if F.isInf a = true then (if F.neg a = true then lo else hi, flagNV)
    else
      let q := quantize .rtz (F.num (F.flush e.ftz a)) 0
      let c := clampTo lo hi (if F.neg a = true then -(q.1 : ℤ) else q.1)
      (c.1, if c.2 = true then flagNV else if q.2 = true then flagNX else 0) := by
  simp only [fcvtFI, Fmt.isNaN_flush hF.eb_pos, Fmt.isInf_flush hF.eb_pos, Fmt.neg_flush]

/-- What a number keeps toward zero. -/
def towardZero (v : ℚ) : ℤ := if v < 0 then Int.ceil v else Int.floor v

omit hF in
/-- Rounding toward zero keeps the whole part under its sign. -/
theorem quantize_towardZero (x : Num) : (if x.neg = true then -((quantize .rtz x 0).1 : ℤ) else (quantize .rtz x 0).1) = towardZero x.val := by
  have hq : (quantize .rtz x 0).1 = x.whole 0 := (quantize_spec .rtz).2.1 id
  have hwhole : (x.whole 0 : ℤ) = Int.floor x.abs := by
    rw [Num.whole, x.units_zero]
    exact Int.natCast_floor_eq_floor x.abs_nonneg
  rw [hq, hwhole, Num.val_eq, towardZero]
  split
  · by_cases hzero : x.abs = 0
    · simp [hzero]
    · rw [if_pos (neg_neg_of_pos (lt_of_le_of_ne x.abs_nonneg (Ne.symm hzero))), Int.ceil_neg]
  · rw [if_neg (not_lt.2 x.abs_nonneg)]

omit hF in
theorem quantize_lost (x : Num) : (quantize .rtz x 0).2 = true ↔ (towardZero x.val : ℚ) ≠ x.val := by
  have hq : (quantize .rtz x 0).1 = x.whole 0 := (quantize_spec .rtz).2.1 id
  have hpart : x.part 0 = x.abs - x.whole 0 := by rw [Num.part, x.units_zero]
  rw [(quantize_spec .rtz).2.2, hpart, ← quantize_towardZero, hq, Num.val_eq, not_iff_not, sub_eq_zero]
  split
  · rw [Int.cast_neg, neg_inj, Int.cast_natCast, eq_comm]
  · rw [Int.cast_natCast, eq_comm]

/-- An integer clamped to limits, with NV beyond them (R92). -/
def clampedWord (lo hi i : ℤ) (fl : FFlags) : Word × FFlags :=
  if i < lo then (BitVec.ofInt 64 lo, flagNV) else if hi < i then (BitVec.ofInt 64 hi, flagNV) else (BitVec.ofInt 64 i, fl)

omit hF in
theorem clampTo_word (i : ℤ) (fl : FFlags) :
    (BitVec.ofInt 64 (clampTo lo hi i).1, if (clampTo lo hi i).2 = true then flagNV else fl) = clampedWord lo hi i fl := by
  unfold clampTo clampedWord
  split
  · rfl
  split <;> rfl

theorem fcvtFI_nan (h : F.isNaN a = true) : fcvtFI F lo hi e a = (0, flagNV) := by
  rw [fcvtFI_eq hF, if_pos h]

theorem fcvtFI_inf (h : F.isInf a = true) : fcvtFI F lo hi e a = (if F.neg a = true then lo else hi, flagNV) := by
  rw [fcvtFI_eq hF, Fmt.isNaN_of_isInf h, if_neg (by decide), if_pos h]

/-- A finite value goes toward zero and is clamped. -/
theorem fcvtFI_fin (hnan : F.isNaN a = false) (hinf : F.isInf a = false) : (BitVec.ofInt 64 (fcvtFI F lo hi e a).1, (fcvtFI F lo hi e a).2)
    = clampedWord lo hi (towardZero (F.read e.ftz a)) (if (towardZero (F.read e.ftz a) : ℚ) = F.read e.ftz a then 0 else flagNX) := by
  have hzero := quantize_towardZero (F.num (F.flush e.ftz a))
  rw [Fmt.num_neg, Fmt.neg_flush] at hzero
  rw [fcvtFI_eq hF, hnan, hinf, if_neg (by decide), if_neg (by decide), ← clampTo_word]
  have hlost : (if (quantize .rtz (F.num (F.flush e.ftz a)) 0).2 = true then flagNX else 0)
      = if (towardZero (F.read e.ftz a) : ℚ) = F.read e.ftz a then 0 else flagNX := by
    rw [if_congr (quantize_lost _) rfl rfl, ite_not]
    rfl
  simp only [hzero, hlost]
  rfl

end FloatToInt

/-! ### Integers to floats -/

section IntToFloat
variable {G : Fmt} (e : FEnv) (i : ℤ)

theorem fcvtIF_abs : ({ neg := i < 0, m := i.natAbs, e := 0 } : Num).abs = |(i : ℚ)| := by
  rw [Num.abs, zpow_zero, mul_one, Nat.cast_natAbs, Int.cast_abs]

theorem fcvtIF_rounds (hG : G.Small) : G.RoundsTo e.rm e.ftz (i < 0) |(i : ℚ)| (fcvtIF G e i) := by
  rw [← fcvtIF_abs]
  exact roundNum_roundsTo hG.mb_pos hG.eb_pos e.rm e.ftz _

/-- An integer of 64 bits neither overflows nor underflows. -/
theorem fcvtIF_flags (hG : G = fmt32 ∨ G = fmt64) (hi : i.natAbs ≤ 2 ^ 64) : (fcvtIF G e i).2 = 0 ∨ (fcvtIF G e i).2 = flagNX := by
  have hsmall := Fmt.small hG
  unfold fcvtIF
  generalize hx : ({ neg := i < 0, m := i.natAbs, e := 0 } : Num) = x
  have habs : x.abs = (i.natAbs : ℚ) := by rw [← hx, Num.abs, zpow_zero, mul_one]
  by_cases hm : x.m = 0
  · rw [roundNum_zero hm]
    exact .inl rfl
  have htiny : ¬G.Tiny e.rm x := by
    have hone : (1 : ℚ) ≤ x.abs := by
      rw [habs, Nat.one_le_cast]
      exact Nat.pos_of_ne_zero (by subst hx; exact hm)
    have hmin : G.grid (2 ^ G.mb) = 2 ^ G.emin := by simpa using G.grid_binade 0
    refine G.not_tiny (le_trans ?_ hone)
    rw [hmin]
    exact zpow_le_one_of_nonpos₀ one_le_two hsmall.emin_le
  have hrounded : G.rounded e.rm x < G.inf := by
    obtain ⟨top, htop, hgrid⟩ := Fmt.exists_above_ints hG
    have hplace : G.place x < top := by
      refine Fmt.grid_strictMono.lt_iff_lt.1 ((Fmt.place_le hm).trans_lt (lt_of_le_of_lt ?_ hgrid))
      rw [habs]
      exact_mod_cast hi
    exact (G.rounded_le hsmall.mb_pos).trans_lt (by omega)
  rw [roundNum_finite hm (.inr htiny) hrounded, if_neg htiny]
  exact ite_eq_or_eq _ _ _

end IntToFloat

/-! ### The forms of `fcvt` -/

section Convert
variable {dst src : CvtTy} {F G : Fmt} (e : FEnv) (w : Word)

theorem convert_float_float (hs : cvtFmt src = some F) (hd : cvtFmt dst = some G) :
    convert dst src e w = (BitVec.ofNat 64 (fcvtFF F G e (w.toNat % 2 ^ F.bits)).1, (fcvtFF F G e (w.toNat % 2 ^ F.bits)).2) := by
  simp only [convert, hs, hd]

theorem convert_float_int (hs : cvtFmt src = some F) (hd : cvtFmt dst = none) {lo hi : ℤ} (hlim : cvtLimits dst = (lo, hi)) :
    convert dst src e w = (BitVec.ofInt 64 (fcvtFI F lo hi e (w.toNat % 2 ^ F.bits)).1, (fcvtFI F lo hi e (w.toNat % 2 ^ F.bits)).2) := by
  simp only [convert, hs, hd, hlim]

theorem convert_int_float (hs : cvtFmt src = none) (hd : cvtFmt dst = some G) :
    convert dst src e w = (BitVec.ofNat 64 (fcvtIF G e (cvtInt src w)).1, (fcvtIF G e (cvtInt src w)).2) := by
  simp only [convert, hs, hd]

theorem convert_int_int (hs : cvtFmt src = none) (hd : cvtFmt dst = none) {lo hi : ℤ} (hlim : cvtLimits dst = (lo, hi)) :
    convert dst src e w = clampedWord lo hi (cvtInt src w) 0 := by
  rw [← clampTo_word]
  simp only [convert, hs, hd, hlim]

end Convert

/-- An integer operand is the signed or unsigned value of its bits (R91). -/
theorem cvtInt_signed_word (w : Word) : cvtInt .l w = w.toInt := by
  rw [cvtInt, ← toInt_ofNat_eq_signedOf (by decide) w.isLt, BitVec.ofNat_toNat, BitVec.setWidth_eq]

theorem nfld_low_word (w : Word) : nfld w 0 32 = (w.setWidth 32).toNat := by
  rw [nfld_eq, pow_zero, Nat.div_one, BitVec.toNat_setWidth]

theorem cvtInt_signed_half (w : Word) : cvtInt .w w = (w.setWidth 32).toInt := by
  rw [cvtInt, nfld_low_word, ← toInt_ofNat_eq_signedOf (by decide) (w.setWidth 32).isLt, BitVec.ofNat_toNat, BitVec.setWidth_eq]

theorem cvtInt_half (w : Word) : cvtInt .wu w = ((w.setWidth 32).toNat : ℤ) := by
  rw [cvtInt, nfld_low_word]

theorem signedOf_natAbs_le {n x : ℕ} (hx : x < 2 ^ n) : (signedOf n x).natAbs ≤ 2 ^ n := by
  have hcast : ((2 ^ n : ℕ) : ℤ) = 2 ^ n := by push_cast; rfl
  unfold signedOf
  split <;> omega

theorem cvtInt_natAbs_le (t : CvtTy) (w : Word) : (cvtInt t w).natAbs ≤ 2 ^ 64 := by
  have hhalf : nfld w 0 32 < 2 ^ 32 := by
    rw [nfld_low_word]
    exact (w.setWidth 32).isLt
  cases t with
  | s => exact Nat.zero_le _
  | d => exact Nat.zero_le _
  | l => exact signedOf_natAbs_le w.isLt
  | lu => exact w.isLt.le
  | w => exact (signedOf_natAbs_le hhalf).trans (by decide)
  | wu => exact hhalf.le.trans (by decide)

end Sys2Proof.Machine
end

section
/-! PROOFS. The float instructions: O18. -/

namespace Sys2Proof.Machine

/-! ### The types of `fcvt` -/

theorem cvtFmt_of_float {p : CvtTy × Fmt} (h : p ∈ [(CvtTy.s, fmt32), (.d, fmt64)]) : cvtFmt p.1 = some p.2 ∧ (p.2 = fmt32 ∨ p.2 = fmt64) := by
  simp only [List.mem_cons, List.not_mem_nil, or_false] at h
  rcases h with rfl | rfl
  · exact ⟨rfl, .inl rfl⟩
  · exact ⟨rfl, .inr rfl⟩

theorem cvtFmt_of_int {p : CvtTy × ℤ × ℤ}
    (h : p ∈ [(CvtTy.l, (-2 ^ 63 : ℤ), (2 ^ 63 - 1 : ℤ)), (.lu, 0, 2 ^ 64 - 1), (.w, -2 ^ 31, 2 ^ 31 - 1), (.wu, 0, 2 ^ 32 - 1)]) :
    cvtFmt p.1 = none ∧ cvtLimits p.1 = (p.2.1, p.2.2) := by
  simp only [List.mem_cons, List.not_mem_nil, or_false] at h
  rcases h with rfl | rfl | rfl | rfl <;> exact ⟨rfl, rfl⟩

/-- What an integer type holds of a word (R91). -/
def heldInt (w : Word) : CvtTy → ℤ := fun t => match t with
  | .l => w.toInt
  | .lu => (w.toNat : ℤ)
  | .w => (w.setWidth 32).toInt
  | _ => ((w.setWidth 32).toNat : ℤ)

theorem heldInt_eq {t : CvtTy} (h : cvtFmt t = none) (w : Word) : heldInt w t = cvtInt t w := by
  cases t with
  | s => cases h
  | d => cases h
  | l => exact (cvtInt_signed_word w).symm
  | lu => rfl
  | w => exact (cvtInt_signed_half w).symm
  | wu => exact (cvtInt_half w).symm

section Forms
variable {dst src : CvtTy} {F G : Fmt} (e : FEnv) (w : Word) (hs : cvtFmt src = some F) (hF : F.Small)
include hs hF

/-- What `fcvt` makes of a float in the other float format. -/
theorem convert_float_float_spec (hd : cvtFmt dst = some G) (hG : G.Small) : let a := w.toNat % 2 ^ F.bits; let r := convert dst src e w
    (F.isNaN a = true → r.1.toNat = G.nan ∧ r.2 = if F.isSNaN a = true then flagNV else 0)
    ∧ (F.isInf a = true → r.1.toNat = G.signed (F.neg a) G.inf ∧ r.2 = 0)
    ∧ (F.isNaN a = false → F.isInf a = false → G.RoundsTo e.rm e.ftz (F.neg a) |F.read e.ftz a| (r.1.toNat, r.2)) := by
  intro a r
  have hcode : (r.1.toNat, r.2) = fcvtFF F G e a := by
    change ((convert dst src e w).1.toNat, (convert dst src e w).2) = _
    rw [convert_float_float e w hs hd, BitVec.toNat_ofNat, Nat.mod_eq_of_lt (fcvtFF_lt hF hG e)]
  have hnv : nvOf F [a] = if F.isSNaN a = true then flagNV else 0 := by simp [nvOf]
  refine ⟨fun h => Prod.mk.inj (hcode.trans ?_), fun h => Prod.mk.inj (hcode.trans ?_), fun h1 h2 => hcode ▸ fcvtFF_rounds hF hG e h1 h2⟩
  · rw [fcvtFF_eq hF, if_pos h, hnv]
  · rw [fcvtFF_eq hF, Fmt.isNaN_of_isInf h, if_neg (by decide), if_pos h]

/-- What `fcvt` makes of a float in an integer type. -/
theorem convert_float_int_spec (hd : cvtFmt dst = none) {lo hi : ℤ} (hlim : cvtLimits dst = (lo, hi)) :
    let a := w.toNat % 2 ^ F.bits; let r := convert dst src e w
    (F.isNaN a = true → r = (0, flagNV)) ∧ (F.isInf a = true → r = (BitVec.ofInt 64 (if F.neg a = true then lo else hi), flagNV))
    ∧ (F.isNaN a = false → F.isInf a = false → r = clampedWord lo hi (towardZero (F.read e.ftz a))
      (if (towardZero (F.read e.ftz a) : ℚ) = F.read e.ftz a then 0 else flagNX)) := by
  intro a r
  have hr : r = (BitVec.ofInt 64 (fcvtFI F lo hi e a).1, (fcvtFI F lo hi e a).2) := convert_float_int e w hs hd hlim
  rw [hr]
  refine ⟨fun h => ?_, fun h => ?_, fun h1 h2 => fcvtFI_fin hF e lo hi h1 h2⟩
  · rw [fcvtFI_nan hF e lo hi h]
    rfl
  · rw [fcvtFI_inf hF e lo hi h]

end Forms

/-- What `fcvt` makes of an integer in a float format. -/
theorem convert_int_float_spec {dst src : CvtTy} {G : Fmt} (e : FEnv) (w : Word) (hs : cvtFmt src = none) (hd : cvtFmt dst = some G)
    (hG : G = fmt32 ∨ G = fmt64) : let r := convert dst src e w
    G.RoundsTo e.rm e.ftz (cvtInt src w < 0) |(cvtInt src w : ℚ)| (r.1.toNat, r.2) ∧ (r.2 = 0 ∨ r.2 = flagNX) := by
  intro r
  have hlt : (fcvtIF G e (cvtInt src w)).1 < 2 ^ 64 :=
    (roundNum_lt _ _ _).trans_le (Nat.pow_le_pow_right two_pos (Fmt.small hG).bits_le)
  have hr : (r.1.toNat, r.2) = fcvtIF G e (cvtInt src w) := by
    change ((convert dst src e w).1.toNat, (convert dst src e w).2) = _
    rw [convert_int_float e w hs hd, BitVec.toNat_ofNat, Nat.mod_eq_of_lt hlt]
  have hflags : r.2 = (fcvtIF G e (cvtInt src w)).2 := congrArg Prod.snd hr
  rw [hr, hflags]
  exact ⟨fcvtIF_rounds e _ (Fmt.small hG), fcvtIF_flags e _ hG (cvtInt_natAbs_le src w)⟩

/-- Settles O18: every operation rounds its exact result once, and orders codes as their values. -/
theorem floatInstructionsComplete : Obligations.FloatInstructionsComplete := by
  refine ⟨fun pr ty dbl dst src t0 t1 => ?_, fun f u z tu tz x y => ?_, ⟨⟨by decide, by decide⟩, fun F e a b c hF ha hb hc => ?_⟩,
    fun F e a b hF ha hb => ?_, fun e w => ?_⟩
  case refine_1 =>
    exact ⟨computes_of (exec_fadd pr ty t0 t1) fun _ => rfl, computes_of (exec_fsub pr ty t0 t1) fun _ => rfl,
      computes_of (exec_fmul pr ty t0 t1) fun _ => rfl, computes_of (exec_fdiv pr ty t0 t1) fun _ => rfl,
      computes_of (exec_ffma pr ty t0 t1) fun _ => rfl, computes_of (exec_fsqrt pr ty t0 t1) fun _ => rfl,
      computes_of (exec_fmin pr ty t0 t1) fun _ => rfl, computes_of (exec_fmax pr ty t0 t1) fun _ => rfl,
      computes_of (exec_fabs pr ty t0 t1) fun _ => rfl, computes_of (exec_fneg pr ty t0 t1) fun _ => rfl,
      computes_of (exec_fsgnj pr ty t0 t1) fun _ => rfl, computes_of (exec_feq pr dbl t0 t1) fun _ => rfl,
      computes_of (exec_flt pr dbl t0 t1) fun _ => rfl, computes_of (exec_fle pr dbl t0 t1) fun _ => rfl,
      computes_of (exec_fclass pr dbl t0 t1) fun _ => rfl, computes_of (exec_fcvt pr dst src t0 t1) fun _ => rfl⟩
  case refine_2 =>
    exact ⟨fpMap_scalar rfl f x y, fpMap_double f x y, fpMap_vector_lanes rfl f u z tu tz rfl rfl, fpMap_vector_lanes rfl f u z tu tz rfl rfl⟩
  case refine_3 =>
    have hs := Fmt.small hF
    have heb := hs.eb_pos
    have hmb := hs.mb_pos
    intro invalid quiet fin val zero xor sumSign
    have hquiet (xs : List ℕ) : (F.nan, nvOf F xs) = quiet xs := by rw [nvOf_eq]
    refine ⟨fun h => ?_, fun h => ?_, fun h1 h2 h => ?_, fun h => ⟨fmulBits_invalid heb e h, ffmaBits_invalid heb e h⟩, fun ha hb => ?_,
      fun ha hb => fdivBits_zero_zero heb e ha hb, fun ha hb => ?_, fun hinf hna hnb hza hzb => ?_,
      fun ha hza hzb => fdivBits_by_zero heb e ha hza hzb, fun hna hza hneg => fsqrtBits_neg heb e hna hza hneg, fun h => fsqrtBits_zero heb e h,
      fun h hneg => fsqrtBits_inf heb e h hneg, fun hinf hna hnb hnc hza hzb => ?_, fun ha hb hc => ffmaBits_fin_inf heb e ha hb hc,
      fun ha hb => ?_, fun ha hb hc => ?_, fun ha hneg hza => fsqrtBits_rounds hmb heb e ha hs.mb_le hneg hza⟩
    · rw [← hquiet]
      exact ⟨faddBits_of_nan heb e h, fsubBits_of_nan heb e h, fmulBits_of_nan heb e h, fdivBits_of_nan heb e h⟩
    · rw [← hquiet]
      exact fsqrtBits_of_nan heb e h
    · rw [← hquiet]
      exact ffmaBits_of_nan heb e h1 h2 h
    · exact ⟨fdivBits_inf_inf heb e ha hb, faddBits_inf_inf heb e ha hb, fsubBits_inf_inf heb e ha hb⟩
    · exact ⟨faddBits_inf_fin heb e ha hb, faddBits_fin_inf heb e ha hb, fsubBits_inf_fin heb e ha hb, fsubBits_fin_inf heb e ha hb,
        fdivBits_inf_fin heb e ha hb, fdivBits_fin_inf heb e ha hb⟩
    · exact fmulBits_inf heb e (fun h => hzb h.2) (fun h => hza h.1) hna hnb hinf
    · exact ffmaBits_inf heb e (fun h => hzb h.2) (fun h => hza h.1) hna hnb hnc hinf
    · exact ⟨faddBits_rounds hmb heb e ha hb, faddBits_zero heb e ha hb, fsubBits_rounds hmb heb e ha hb, fsubBits_zero heb e ha hb,
        fmulBits_rounds hmb heb e ha hb, fdivBits_rounds hmb heb e ha hb hs.mb_le⟩
    · exact ⟨ffmaBits_rounds hmb heb e ha hb hc, ffmaBits_zero heb e ha hb hc⟩
  case refine_4 =>
    have heb := (Fmt.small hF).eb_pos
    intro nan read nv fin val below least most half
    have hnv : nvOf F [a, b] = nv := nvOf_pair
    refine ⟨fun h1 h2 => ?_, fun h1 h2 => ?_, fun h1 h2 => ?_, fun h1 h2 => ⟨fminmaxBits_below heb e h1 h2, fminmaxBits_above heb e h1 h2, fun h => ?_⟩,
      fun _ _ h => Fmt.below_of_val_lt h, fun h => ⟨fabsBits_of_nan h, fnegBits_of_nan h, fsgnjBits_of_nan h⟩,
      fun h => ⟨fabsBits_number h, fnegBits_number ha h, fsgnjBits_number hb h⟩, fun h => ?_, fun h1 h2 => fcmpBits_values heb e h1.1 h2.1,
      fun h1 h2 => fcmpBits_inf heb e ha hb h1 (Bool.eq_false_of_not_eq_true h2)⟩
    · rw [← hnv]
      exact ⟨fminmaxBits_nan_nan heb e _ h1 h2, fminmaxBits_nan_nan heb e _ h1 h2⟩
    · rw [← hnv]
      exact ⟨fminmaxBits_nan_left heb e _ h1 h2, fminmaxBits_nan_left heb e _ h1 h2⟩
    · rw [← hnv]
      exact ⟨fminmaxBits_nan_right heb e _ h1 h2, fminmaxBits_nan_right heb e _ h1 h2⟩
    · exact ⟨fminmaxBits_same heb e _ h1 h2 h, fminmaxBits_same heb e _ h1 h2 h⟩
    · rw [← hnv]
      exact fcmpBits_of_nan heb e h
  case refine_5 =>
    intro floats ints held clamped
    refine ⟨fun p hp => ⟨fun q hq _ => ?_, fun q hq => ?_⟩, fun p hp i hi => ⟨fun q hq => ?_, fun q hq => ?_⟩⟩
    · obtain ⟨hsrc, hF⟩ := cvtFmt_of_float hp
      obtain ⟨hdst, hG⟩ := cvtFmt_of_float hq
      exact convert_float_float_spec e w hsrc (Fmt.small hF) hdst (Fmt.small hG)
    · obtain ⟨hsrc, hF⟩ := cvtFmt_of_float hp
      obtain ⟨hdst, hlim⟩ := cvtFmt_of_int hq
      exact convert_float_int_spec e w hsrc (Fmt.small hF) hdst hlim
    · obtain ⟨hsrc, -⟩ := cvtFmt_of_int hp
      obtain ⟨hdst, hG⟩ := cvtFmt_of_float hq
      rw [hi.trans (heldInt_eq hsrc w)]
      exact convert_int_float_spec e w hsrc hdst hG
    · obtain ⟨hsrc, -⟩ := cvtFmt_of_int hp
      obtain ⟨hdst, hlim⟩ := cvtFmt_of_int hq
      rw [hi.trans (heldInt_eq hsrc w)]
      exact convert_int_int e w hsrc hdst hlim

end Sys2Proof.Machine
end
